-- ==== Sys2Proof/Word.lean ====
section
/-! DEFINITION. Word.lean: the word types of the Nuolrus architecture and their plainest arithmetic (spec 00, R2). -/

namespace Sys2Proof

/-- A byte of 8 bits (R4). -/
abbrev Byte := BitVec 8
/-- A code word (R31). -/
abbrev W32 := BitVec 32
/-- A sequencer register value (R43, R56). -/
abbrev W64 := BitVec 64
/-- A vector register of 256 B (R43). -/
abbrev VWord := BitVec 2048
/-- A cache line of 128 B (R23). -/
abbrev Line := BitVec 1024
/-- A 32 B record: a node record, a task control block, a generator state (R114, R126, R157). -/
abbrev W256 := BitVec 256

/-- A sequencer register number (R43). -/
abbrev Reg := Fin 32
/-- A vector register number (R43). -/
abbrev VReg := Fin 32
/-- A loop register number (R43). -/
abbrev LReg := Fin 16
/-- A mask field: 0 for no mask, k for mask register mk (R163). -/
abbrev MaskSel := Fin 8

end Sys2Proof
end

