-- ==== Sys2Proof/Config.lean ====
section
/-! DEFINITION. Config.lean: what an implementation fixes and the spec leaves open, as free values without a body: nothing can be
proved about one of them. -/

namespace Sys2Proof

/-- The k-th free byte: bytes of a line lost to an uncorrectable error (R370), and of a telemetry snapshot, whose layout the spec
does not give (R390) (log 11). -/
opaque Config.freeByte : Nat → Byte

/-- The k-th free element of an accumulator row that a residue mismatch leaves undefined (R371) (log 6). -/
opaque Config.freeWord : Nat → W32

/-- The identity key (R396): its public seed, the key of its randomisers, and the secret start of each chain of each one-time key (log 7). -/
opaque Config.xmssSeed : W256
opaque Config.xmssPrf : W256
opaque Config.wotsKey : Nat → Nat → W256

/-- The measurements of the ROM and of the firmware bundle in a bank of the flash (R395, R396) (log 7). -/
opaque Config.romMeasure : W256
opaque Config.bundleMeasure : Nat → W256

end Sys2Proof
end

