-- ==== Sys2Proof/Types.lean ====
section
/-! DEFINITION. Types.lean: the operand types of instructions: the named codes of spec 02 (R34, R35, R36, R38, R40, R188)
and the records that events carry. Each code type has its code and the reading of a code, illegal codes excluded. -/

namespace Sys2Proof

/-- The four code sections (R31). -/
inductive CodeSection where
  | sq | vec | mx | xf
  deriving DecidableEq, Repr

/-- A scope (R34, R291). -/
inductive Scope where
  | c | k | d | p | o | x
  deriving DecidableEq, Repr

def Scope.code : Scope → Nat
  | .c => 0 | .k => 1 | .d => 2 | .p => 3 | .o => 4 | .x => 5

/-- Scope codes 6 and 7 are illegal (R34). -/
def Scope.ofCode : Nat → Option Scope
  | 0 => some .c | 1 => some .k | 2 => some .d | 3 => some .p | 4 => some .o | 5 => some .x
  | _ => none

/-- The order of an atomic (R34). -/
inductive Order where
  | rlx | acq | rel | ar
  deriving DecidableEq, Repr

def Order.code : Order → Nat
  | .rlx => 0 | .acq => 1 | .rel => 2 | .ar => 3

def Order.ofCode : Nat → Option Order
  | 0 => some .rlx | 1 => some .acq | 2 => some .rel | 3 => some .ar
  | _ => none

/-- A rounding mode (R147). -/
inductive RMode where
  | rne | rtz | rdn | rup | sr
  deriving DecidableEq, Repr

def RMode.code : RMode → Nat
  | .rne => 0 | .rtz => 1 | .rdn => 2 | .rup => 3 | .sr => 4

/-- FCTL.RM codes 5..7 are illegal (R45). -/
def RMode.ofCode : Nat → Option RMode
  | 0 => some .rne | 1 => some .rtz | 2 => some .rdn | 3 => some .rup | 4 => some .sr
  | _ => none

/-- The rounding field of an FP word: a mode, or DYN for FCTL.RM (R35). -/
inductive Rnd where
  | mode (m : RMode)
  | dyn
  deriving DecidableEq, Repr

def Rnd.code : Rnd → Nat
  | .mode m => m.code
  | .dyn => 5

/-- Rounding codes 6 and 7 are illegal (R35). -/
def Rnd.ofCode : Nat → Option Rnd
  | 0 => some (.mode .rne) | 1 => some (.mode .rtz) | 2 => some (.mode .rdn)
  | 3 => some (.mode .rup) | 4 => some (.mode .sr) | 5 => some .dyn
  | _ => none

/-- The type field of a scalar FP word (R35). -/
inductive FTy where
  | f32 | bf16 | f16
  deriving DecidableEq, Repr

def FTy.code : FTy → Nat
  | .f32 => 0 | .bf16 => 1 | .f16 => 2

/-- Scalar FP type code 3 is illegal (R35). -/
def FTy.ofCode : Nat → Option FTy
  | 0 => some .f32 | 1 => some .bf16 | 2 => some .f16
  | _ => none

/-- An element type (R36). -/
inductive Ty where
  | i8 | i16 | i32 | i64 | n8 | n16 | n32 | n64 | f32 | bf16 | f16 | e4m3 | e5m2 | q4b | t3
  deriving DecidableEq, Repr

def Ty.code : Ty → Nat
  | .i8 => 0 | .i16 => 1 | .i32 => 2 | .i64 => 3 | .n8 => 4 | .n16 => 5 | .n32 => 6 | .n64 => 7
  | .f32 => 8 | .bf16 => 9 | .f16 => 10 | .e4m3 => 11 | .e5m2 => 12 | .q4b => 13 | .t3 => 14

/-- Type code 15 is illegal (R36). -/
def Ty.ofCode : Nat → Option Ty
  | 0 => some .i8 | 1 => some .i16 | 2 => some .i32 | 3 => some .i64
  | 4 => some .n8 | 5 => some .n16 | 6 => some .n32 | 7 => some .n64
  | 8 => some .f32 | 9 => some .bf16 | 10 => some .f16 | 11 => some .e4m3
  | 12 => some .e5m2 | 13 => some .q4b | 14 => some .t3
  | _ => none

/-- A comparison predicate (R38, R64). -/
inductive Pred where
  | eq | ne | lt | le | gt | ge
  deriving DecidableEq, Repr

def Pred.code : Pred → Nat
  | .eq => 0 | .ne => 1 | .lt => 2 | .le => 3 | .gt => 4 | .ge => 5

/-- Predicate codes 6 and 7 are illegal (R64, R170). -/
def Pred.ofCode : Nat → Option Pred
  | 0 => some .eq | 1 => some .ne | 2 => some .lt | 3 => some .le | 4 => some .gt | 5 => some .ge
  | _ => none

/-- An element width of the shape register (R45, R162). -/
inductive EW where
  | w8 | w16 | w32
  deriving DecidableEq, Repr

def EW.code : EW → Nat
  | .w8 => 0 | .w16 => 1 | .w32 => 2

/-- Width code 3 is illegal (R162). -/
def EW.ofCode : Nat → Option EW
  | 0 => some .w8 | 1 => some .w16 | 2 => some .w32
  | _ => none

def EW.bits : EW → Nat
  | .w8 => 8 | .w16 => 16 | .w32 => 32

/-- An update operator tag (R99). -/
inductive UpdTag where
  | addI32 | addI64 | addF32 | addBf16x2 | maxI32 | minI32 | maxN32 | minN32 | maxF32 | minF32 | or | and | xor
  deriving DecidableEq, Repr

def UpdTag.code : UpdTag → Nat
  | .addI32 => 1 | .addI64 => 2 | .addF32 => 3 | .addBf16x2 => 4 | .maxI32 => 5 | .minI32 => 6
  | .maxN32 => 7 | .minN32 => 8 | .maxF32 => 9 | .minF32 => 10 | .or => 11 | .and => 12 | .xor => 13

/-- Tags 0, 14 and 15 are illegal (R99, R216). -/
def UpdTag.ofCode : Nat → Option UpdTag
  | 1 => some .addI32 | 2 => some .addI64 | 3 => some .addF32 | 4 => some .addBf16x2
  | 5 => some .maxI32 | 6 => some .minI32 | 7 => some .maxN32 | 8 => some .minN32
  | 9 => some .maxF32 | 10 => some .minF32 | 11 => some .or | 12 => some .and | 13 => some .xor
  | _ => none

/-- A source or target of a transfer step (R188): a stream, or memory at a loop register. -/
inductive XLoc where
  | stream (s : Fin 32)
  | mem (r : LReg)
  deriving DecidableEq, Repr

def XLoc.code : XLoc → Nat
  | .stream s => s.val
  | .mem r => 32 + r.val

/-- Codes 48..63 are illegal (R188). -/
def XLoc.ofCode (n : Nat) : Option XLoc :=
  if n < 32 then some (.stream (Fin.ofNat 32 n))
  else if n < 48 then some (.mem (Fin.ofNat 16 (n - 32)))
  else none

/-- The four token bits of a step word (R40). -/
structure Tok where
  /-- [26]: wait for a ready token from upstream -/
  prdy : Bool
  /-- [25]: send a ready token downstream -/
  srdy : Bool
  /-- [24]: wait for a free token from downstream -/
  pfree : Bool
  /-- [23]: send a free token upstream -/
  sfree : Bool
  deriving DecidableEq, Repr

/-- The token field [26:23] of a step word. -/
def Tok.code (t : Tok) : Nat :=
  t.prdy.toNat * 8 + t.srdy.toNat * 4 + t.pfree.toNat * 2 + t.sfree.toNat

def Tok.ofCode (n : Nat) : Tok :=
  { prdy := n / 8 % 2 == 1, srdy := n / 4 % 2 == 1, pfree := n / 2 % 2 == 1, sfree := n % 2 == 1 }

/-- An admin command (R389): the parameters P0..P6 and the header fields, reserved bits included. -/
structure AdminCmd where
  opc : BitVec 8
  ctx : BitVec 12
  cid : BitVec 16
  /-- command bits [63:44] and [15:8], which must be zero -/
  res : BitVec 28
  p0 : W64
  p1 : W64
  p2 : W64
  p3 : W64
  p4 : W64
  p5 : W64
  p6 : W64
  deriving DecidableEq, Repr

/-- What a class A message from another device asks of this one (R385). -/
inductive RemoteOp where
  /-- a load of n bytes; the scope of a synchronisation access (R292) -/
  | load (n : Nat) (scope : Option Scope)
  /-- the checks of an instruction that has more to do before its effect: whether it writes, its width, the scope it records (R87, R292) -/
  | check (write : Bool) (n : Nat) (scope : Option Scope) (record : Bool)
  /-- a block of code, 64 bytes (R358) -/
  | fetch
  /-- an atomic: operation code of R96, 8 B when size is set, operand, compare value, and the
  scope with the unit of the issuer on its own device -/
  | atomic (op : Nat) (size : Bool) (b cmp : W64) (scope : Scope)
  /-- an update under a tag -/
  | upd (tag : UpdTag) (b : W64) (scope : Scope)
  /-- an action on a barrier object (R104, R105): 0 BARINIT, 1 BAREXP, 2 a credit, 3 an error credit; the operand, and the scope of
  an instruction -/
  | barrier (k : Nat) (v : Nat) (scope : Option Scope)
  /-- an engine write of bytes (R194) -/
  | write (bytes : List Byte)
  /-- a row of an accumulating drain (R208): the output type, C, and the 256 words -/
  | accRow (o : Ty) (c : Bool) (row : List W32)
  /-- a step of a walk: NVL (kind 0), NBACK (1), NBACK.alt (2); value, loss, steps made -/
  | walk (kind : Nat) (v : W32) (d : Nat) (k : Nat)
  /-- a read of a node record's quadword -/
  | nodeRead (k : Nat)
  /-- NINIT with its mask and image -/
  | nodeInit (m : Nat) (image : List Byte)
  /-- NALLOC.free of n records -/
  | nodeFree (n : Nat)
  /-- NSEL under FPU, CPUCT and VLV -/
  | nodeSelect (fpu cpuct vlv : W64)
  /-- the scan of NSEL over n children from a reference, with the square root s -/
  | nodeScan (n : Nat) (sq : W32) (fpu cpuct vlv : W64)
  deriving DecidableEq, Repr

/-- A class C answer of another device (R385). -/
inductive FabricReply where
  /-- the bytes of a remote load, or the old value of a remote atomic -/
  | data (bytes : List Byte)
  /-- the answer of a queue's home to an ENQ (R109) -/
  | status (n : Nat)
  /-- a walk or an update has been performed -/
  | done
  /-- the home refuses the access for a trap cause (R87), with the value it names -/
  | refused (cause : Nat) (value : W64)
  /-- an acknowledgement of the remote stores of a commit, from a device (R92) -/
  | ack (dev : Nat)
  /-- a credit sent there failed a check of R87 or met a malformed object (R104): cause, address, the crediting task, its word and its
  engine -/
  | creditFault (cause : Nat) (addr : W64) (task : W32) (word : W64) (engine : Nat)
  deriving DecidableEq, Repr

/-- Where an uncorrectable storage error is found (R370, R371). -/
inductive StorageUnit where
  /-- an L1 or L2 line whose home holds the same bytes -/
  | cleanLine (g : Nat) (line : Nat)
  /-- the only copy of a line, found by the strand of a core, or by none -/
  | onlyCopy (line : Nat) (finder : Option Nat)
  /-- a node record of a die -/
  | node (die index : Nat) (finder : Option Nat)
  /-- a task control block of a die -/
  | tcb (die index : Nat)
  /-- an array's residue check, at a running MMAC (R371) -/
  | residue (g arr : Nat)
  deriving DecidableEq, Repr

/-- What the debugger does to a core (R83). -/
inductive DebugAct where
  | attach (breakEnable : Bool)
  | detach
  | resume
  deriving DecidableEq, Repr

end Sys2Proof
end

