-- ==== Sys2Proof/Syntax.lean ====
section
/-! DEFINITION. Syntax.lean: the one inductive of instructions and steps: one constructor for each row of the opcode table.
The sequencer, vector, matrix and transfer rows (270) have a 32-bit encoding (R31); the 98 rows after them have none: they are
the device's other steps (spec 95), and their operands name the core, unit or message they act on. -/

namespace Sys2Proof

inductive Instr where
  /-- NOP (R83) -/
  | nop
  /-- YIELD (R83) -/
  | yield
  /-- PAUSE (R83) -/
  | pause (n : BitVec 10)
  /-- HALT (R85) -/
  | halt
  /-- TRAP (R83) -/
  | trap (k : BitVec 10)
  /-- TRET (R84) -/
  | tret
  /-- BKPT (R83) -/
  | bkpt (k : BitVec 10)
  /-- IFLUSH (R86) -/
  | iflush
  /-- ADD (R58) -/
  | add (d : Reg) (a : Reg) (b : Reg)
  /-- SUB (R58) -/
  | sub (d : Reg) (a : Reg) (b : Reg)
  /-- MUL (R58) -/
  | mul (d : Reg) (a : Reg) (b : Reg)
  /-- MULH (R58) -/
  | mulh (d : Reg) (a : Reg) (b : Reg)
  /-- DIV (R59) -/
  | div (d : Reg) (a : Reg) (b : Reg)
  /-- DIVN (R59) -/
  | divn (d : Reg) (a : Reg) (b : Reg)
  /-- REM (R59) -/
  | rem (d : Reg) (a : Reg) (b : Reg)
  /-- REMN (R59) -/
  | remn (d : Reg) (a : Reg) (b : Reg)
  /-- AND (R58) -/
  | and (d : Reg) (a : Reg) (b : Reg)
  /-- OR (R58) -/
  | or (d : Reg) (a : Reg) (b : Reg)
  /-- XOR (R58) -/
  | xor (d : Reg) (a : Reg) (b : Reg)
  /-- ANDN (R58) -/
  | andn (d : Reg) (a : Reg) (b : Reg)
  /-- SHL (R58) -/
  | shl (d : Reg) (a : Reg) (b : Reg)
  /-- SHR (R58) -/
  | shr (d : Reg) (a : Reg) (b : Reg)
  /-- SAR (R58) -/
  | sar (d : Reg) (a : Reg) (b : Reg)
  /-- MIN (R58) -/
  | min (d : Reg) (a : Reg) (b : Reg)
  /-- MAX (R58) -/
  | max (d : Reg) (a : Reg) (b : Reg)
  /-- MINN (R58) -/
  | minn (d : Reg) (a : Reg) (b : Reg)
  /-- MAXN (R58) -/
  | maxn (d : Reg) (a : Reg) (b : Reg)
  /-- SLT (R58) -/
  | slt (d : Reg) (a : Reg) (b : Reg)
  /-- SLTN (R58) -/
  | sltn (d : Reg) (a : Reg) (b : Reg)
  /-- SEQ (R58) -/
  | seq (d : Reg) (a : Reg) (b : Reg)
  /-- SEL (R58) -/
  | sel (d : Reg) (a : Reg) (b : Reg) (c : Reg)
  /-- CLZ (R58) -/
  | clz (d : Reg) (a : Reg)
  /-- CTZ (R58) -/
  | ctz (d : Reg) (a : Reg)
  /-- POPC (R58) -/
  | popc (d : Reg) (a : Reg)
  /-- EXT (R60) -/
  | ext (d : Reg) (a : Reg) (b : Reg)
  /-- INS (R60) -/
  | ins (d : Reg) (a : Reg) (b : Reg)
  /-- ADD_IMM (R58) -/
  | addImm (d : Reg) (a : Reg) (i : BitVec 16)
  /-- MUL_IMM (R58) -/
  | mulImm (d : Reg) (a : Reg) (i : BitVec 16)
  /-- AND_IMM (R58) -/
  | andImm (d : Reg) (a : Reg) (i : BitVec 16)
  /-- OR_IMM (R58) -/
  | orImm (d : Reg) (a : Reg) (i : BitVec 16)
  /-- XOR_IMM (R58) -/
  | xorImm (d : Reg) (a : Reg) (i : BitVec 16)
  /-- SHL_IMM (R58) -/
  | shlImm (d : Reg) (a : Reg) (s : Fin 64)
  /-- SHR_IMM (R58) -/
  | shrImm (d : Reg) (a : Reg) (s : Fin 64)
  /-- SAR_IMM (R58) -/
  | sarImm (d : Reg) (a : Reg) (s : Fin 64)
  /-- SLT_IMM (R58) -/
  | sltImm (d : Reg) (a : Reg) (i : BitVec 16)
  /-- SLTN_IMM (R58) -/
  | sltnImm (d : Reg) (a : Reg) (i : BitVec 16)
  /-- SEQ_IMM (R58) -/
  | seqImm (d : Reg) (a : Reg) (i : BitVec 16)
  /-- MIN_IMM (R58) -/
  | minImm (d : Reg) (a : Reg) (i : BitVec 14)
  /-- MAX_IMM (R58) -/
  | maxImm (d : Reg) (a : Reg) (i : BitVec 14)
  /-- MINN_IMM (R58) -/
  | minnImm (d : Reg) (a : Reg) (i : BitVec 14)
  /-- MAXN_IMM (R58) -/
  | maxnImm (d : Reg) (a : Reg) (i : BitVec 14)
  /-- EXT_IMM (R60) -/
  | extImm (d : Reg) (a : Reg) (g : Bool) (p : Fin 64) (l : Fin 64)
  /-- INS_IMM (R60) -/
  | insImm (d : Reg) (a : Reg) (p : Fin 64) (l : Fin 64)
  /-- LIM (R61) -/
  | lim (d : Reg) (k : Bool) (n : Fin 4) (i : BitVec 16)
  /-- FADD (R63) -/
  | fadd (d : Reg) (a : Reg) (b : Reg) (r : Rnd) (t : FTy)
  /-- FSUB (R63) -/
  | fsub (d : Reg) (a : Reg) (b : Reg) (r : Rnd) (t : FTy)
  /-- FMUL (R63) -/
  | fmul (d : Reg) (a : Reg) (b : Reg) (r : Rnd) (t : FTy)
  /-- FDIV (R63) -/
  | fdiv (d : Reg) (a : Reg) (b : Reg) (r : Rnd) (t : FTy)
  /-- FSQRT (R63) -/
  | fsqrt (d : Reg) (a : Reg) (r : Rnd) (t : FTy)
  /-- FFMA (R63) -/
  | ffma (d : Reg) (a : Reg) (b : Reg) (r : Rnd) (t : FTy)
  /-- FMIN (R63) -/
  | fmin (d : Reg) (a : Reg) (b : Reg) (t : FTy)
  /-- FMAX (R63) -/
  | fmax (d : Reg) (a : Reg) (b : Reg) (t : FTy)
  /-- FCMP (R64) -/
  | fcmp (d : Reg) (a : Reg) (b : Reg) (p : Pred) (t : FTy)
  /-- FCVT (R65) -/
  | fcvt (d : Reg) (a : Reg) (s : Ty) (r : Rnd) (t : Ty)
  /-- FKEY (R66) -/
  | fkey (d : Reg) (a : Reg)
  /-- BEQ (R67) -/
  | beq (a : Reg) (b : Reg) (o : BitVec 16)
  /-- BNE (R67) -/
  | bne (a : Reg) (b : Reg) (o : BitVec 16)
  /-- BLT (R67) -/
  | blt (a : Reg) (b : Reg) (o : BitVec 16)
  /-- BGE (R67) -/
  | bge (a : Reg) (b : Reg) (o : BitVec 16)
  /-- BLTN (R67) -/
  | bltn (a : Reg) (b : Reg) (o : BitVec 16)
  /-- BGEN (R67) -/
  | bgen (a : Reg) (b : Reg) (o : BitVec 16)
  /-- J (R68) -/
  | j (o : BitVec 26)
  /-- JL (R68) -/
  | jl (o : BitVec 26)
  /-- JR (R68) -/
  | jr (a : Reg)
  /-- JLR (R68) -/
  | jlr (d : Reg) (a : Reg)
  /-- LOOP (R70) -/
  | loop (a : Reg) (e : BitVec 8)
  /-- LOOP_IMM (R70) -/
  | loopImm (c : BitVec 12) (e : BitVec 8)
  /-- LBRK (R73) -/
  | lbrk
  /-- LBRK_SQ (R80) -/
  | lbrkSq (a : Reg)
  /-- LIDX (R73) -/
  | lidx (d : Reg) (k : Fin 8)
  /-- LSET (R73) -/
  | lset (n : LReg) (a : Reg)
  /-- LSET_ADD (R73) -/
  | lsetAdd (n : LReg) (a : Reg)
  /-- VRUN (R76) -/
  | vrun (a : Reg) (m : BitVec 16)
  /-- XRUN (R76) -/
  | xrun (a : Reg) (m : BitVec 16)
  /-- MTASK (R76) -/
  | mtask (a : Reg) (m : BitVec 16)
  /-- WAIT (R78) -/
  | wait (l : Fin 64) (s : Fin 64) (c : Fin 64) (t : Fin 64)
  /-- VGET (R77) -/
  | vget (d : Reg) (n : Fin 4)
  /-- SLACK (R79) -/
  | slack (d : Reg) (a : Reg)
  /-- BANKM (R81) -/
  | bankm (d : Reg) (a : Reg)
  /-- LDB (R89) -/
  | ldb (d : Reg) (a : Reg) (o : BitVec 15)
  /-- LDBN (R89) -/
  | ldbn (d : Reg) (a : Reg) (o : BitVec 15)
  /-- LDH (R89) -/
  | ldh (d : Reg) (a : Reg) (o : BitVec 15)
  /-- LDHN (R89) -/
  | ldhn (d : Reg) (a : Reg) (o : BitVec 15)
  /-- LDW (R89) -/
  | ldw (d : Reg) (a : Reg) (o : BitVec 15)
  /-- LDWN (R89) -/
  | ldwn (d : Reg) (a : Reg) (o : BitVec 15)
  /-- LDD (R89) -/
  | ldd (d : Reg) (a : Reg) (o : BitVec 15)
  /-- STB (R89) -/
  | stb (d : Reg) (a : Reg) (o : BitVec 15)
  /-- STH (R89) -/
  | sth (d : Reg) (a : Reg) (o : BitVec 15)
  /-- STW (R89) -/
  | stw (d : Reg) (a : Reg) (o : BitVec 15)
  /-- STD (R89) -/
  | std (d : Reg) (a : Reg) (o : BitVec 15)
  /-- AMO_SWAP (R96) -/
  | amoSwap (d : Reg) (a : Reg) (b : Reg) (z : Bool) (o : Order) (s : Scope)
  /-- AMO_ADD (R96) -/
  | amoAdd (d : Reg) (a : Reg) (b : Reg) (z : Bool) (o : Order) (s : Scope)
  /-- AMO_AND (R96) -/
  | amoAnd (d : Reg) (a : Reg) (b : Reg) (z : Bool) (o : Order) (s : Scope)
  /-- AMO_OR (R96) -/
  | amoOr (d : Reg) (a : Reg) (b : Reg) (z : Bool) (o : Order) (s : Scope)
  /-- AMO_XOR (R96) -/
  | amoXor (d : Reg) (a : Reg) (b : Reg) (z : Bool) (o : Order) (s : Scope)
  /-- AMO_MIN (R96) -/
  | amoMin (d : Reg) (a : Reg) (b : Reg) (z : Bool) (o : Order) (s : Scope)
  /-- AMO_MAX (R96) -/
  | amoMax (d : Reg) (a : Reg) (b : Reg) (z : Bool) (o : Order) (s : Scope)
  /-- AMO_MINN (R96) -/
  | amoMinn (d : Reg) (a : Reg) (b : Reg) (z : Bool) (o : Order) (s : Scope)
  /-- AMO_MAXN (R96) -/
  | amoMaxn (d : Reg) (a : Reg) (b : Reg) (z : Bool) (o : Order) (s : Scope)
  /-- CAS (R97) -/
  | cas (d : Reg) (a : Reg) (b : Reg) (z : Bool) (o : Order) (s : Scope)
  /-- UPD_ADD_I32 (R100) -/
  | updAddI32 (a : Reg) (b : Reg) (s : Scope)
  /-- UPD_ADD_I64 (R100) -/
  | updAddI64 (a : Reg) (b : Reg) (s : Scope)
  /-- UPD_ADD_F32 (R100) -/
  | updAddF32 (a : Reg) (b : Reg) (s : Scope)
  /-- UPD_ADD_BF16X2 (R100) -/
  | updAddBf16x2 (a : Reg) (b : Reg) (s : Scope)
  /-- UPD_MAX_I32 (R100) -/
  | updMaxI32 (a : Reg) (b : Reg) (s : Scope)
  /-- UPD_MIN_I32 (R100) -/
  | updMinI32 (a : Reg) (b : Reg) (s : Scope)
  /-- UPD_MAX_N32 (R100) -/
  | updMaxN32 (a : Reg) (b : Reg) (s : Scope)
  /-- UPD_MIN_N32 (R100) -/
  | updMinN32 (a : Reg) (b : Reg) (s : Scope)
  /-- UPD_MAX_F32 (R100) -/
  | updMaxF32 (a : Reg) (b : Reg) (s : Scope)
  /-- UPD_MIN_F32 (R100) -/
  | updMinF32 (a : Reg) (b : Reg) (s : Scope)
  /-- UPD_OR (R100) -/
  | updOr (a : Reg) (b : Reg) (s : Scope)
  /-- UPD_AND (R100) -/
  | updAnd (a : Reg) (b : Reg) (s : Scope)
  /-- UPD_XOR (R100) -/
  | updXor (a : Reg) (b : Reg) (s : Scope)
  /-- PHASE (R92) -/
  | phase (d : Reg) (s : Scope)
  /-- FENCE (R93) -/
  | fence (s : Scope)
  /-- WAITA (R102) -/
  | waita (d : Reg) (a : Reg) (b : Reg) (z : Bool) (s : Scope)
  /-- PFH_L1 (R103) -/
  | pfhL1 (a : Reg) (b : Reg)
  /-- PFH_L2 (R103) -/
  | pfhL2 (a : Reg) (b : Reg)
  /-- RSD_KEEP (R103) -/
  | rsdKeep (a : Reg) (b : Reg)
  /-- RSD_LOW (R103) -/
  | rsdLow (a : Reg) (b : Reg)
  /-- RSD_CLEAN (R103) -/
  | rsdClean (a : Reg) (b : Reg)
  /-- BARINIT (R105) -/
  | barinit (a : Reg) (b : Reg) (s : Scope)
  /-- BAREXP (R105) -/
  | barexp (a : Reg) (b : Reg) (s : Scope)
  /-- BARARR (R105) -/
  | bararr (d : Reg) (a : Reg) (b : Reg) (s : Scope)
  /-- BARWAIT (R105) -/
  | barwait (d : Reg) (a : Reg) (b : Reg) (s : Scope)
  /-- BARTEST (R105) -/
  | bartest (d : Reg) (a : Reg) (b : Reg) (s : Scope)
  /-- ENQ (R109) -/
  | enq (d : Reg) (a : Reg) (b : Reg)
  /-- WAITQ (R110) -/
  | waitq (d : Reg) (a : Reg)
  /-- DQ (R111) -/
  | dq (d : Reg) (a : Reg) (b : Reg)
  /-- TREE_NEW (R116) -/
  | treeNew (d : Reg) (a : Reg)
  /-- TREE_CLOSE (R116) -/
  | treeClose (d : Reg) (a : Reg)
  /-- TREE_KILL (R116) -/
  | treeKill (d : Reg) (a : Reg)
  /-- SPAWN (R117) -/
  | spawn (d : Reg) (a : Reg) (b : Reg)
  /-- PICK (R118) -/
  | pick (d : Reg) (a : Reg)
  /-- DONE (R120) -/
  | done (a : Reg)
  /-- JOIN (R121) -/
  | join (a : Reg) (b : Reg)
  /-- REPRIO (R122) -/
  | reprio (d : Reg) (a : Reg) (b : Reg)
  /-- REPRIO_SUB (R122) -/
  | reprioSub (d : Reg) (a : Reg) (b : Reg)
  /-- CANCEL_SOFT (R123) -/
  | cancelSoft (d : Reg) (a : Reg)
  /-- CANCEL_HARD (R123) -/
  | cancelHard (d : Reg) (a : Reg)
  /-- TSTAT (R125) -/
  | tstat (d : Reg) (a : Reg) (k : Bool)
  /-- NALLOC (R128) -/
  | nalloc (d : Reg) (a : Reg) (b : Reg)
  /-- NALLOC_FREE (R128) -/
  | nallocFree (d : Reg) (a : Reg) (b : Reg)
  /-- NINIT (R129) -/
  | ninit (a : Reg) (b : Reg) (m : BitVec 4)
  /-- NRD (R130) -/
  | nrd (d : Reg) (a : Reg) (k : Fin 4)
  /-- NVL (R131) -/
  | nvl (a : Reg) (b : Reg)
  /-- NBACK (R131) -/
  | nback (a : Reg) (b : Reg)
  /-- NBACK_ALT (R131) -/
  | nbackAlt (a : Reg) (b : Reg)
  /-- NSEL (R132) -/
  | nsel (d : Reg) (a : Reg)
  /-- BCFG (R135) -/
  | bcfg (d : Reg) (a : Reg) (b : Reg)
  /-- BSUB (R136) -/
  | bsub (d : Reg) (a : Reg) (b : Reg)
  /-- BCLOSE (R137) -/
  | bclose (d : Reg) (a : Reg)
  /-- ACONFIG (R235) -/
  | aconfig (d : Reg) (a : Reg) (b : Reg)
  /-- KTLOAD (R233) -/
  | ktload (d : Reg) (a : Reg) (b : Reg)
  /-- KTLOAD_ST (R233) -/
  | ktloadSt (d : Reg) (a : Reg) (b : Reg)
  /-- KTLOCK (R234) -/
  | ktlock (d : Reg) (a : Reg)
  /-- KTLOCK_UN (R234) -/
  | ktlockUn (d : Reg) (a : Reg)
  /-- KAPPEND (R239) -/
  | kappend (d : Reg) (a : Reg)
  /-- AQUERY (R240) -/
  | aquery (a : Reg)
  /-- AQUERY_LOOSE (R244) -/
  | aqueryLoose (a : Reg)
  /-- KSPLICE (R245) -/
  | ksplice (d : Reg) (a : Reg) (b : Reg)
  /-- KREPAIR_SEL (R246) -/
  | krepairSel (a : Reg)
  /-- KREPAIR_PUT (R247) -/
  | krepairPut (a : Reg)
  /-- KRSTAT_SEQ (R249) -/
  | krstatSeq (d : Reg) (a : Reg)
  /-- KRSTAT_SPAN (R249) -/
  | krstatSpan (d : Reg) (a : Reg) (b : Reg)
  /-- KRSTAT_DELTA (R249) -/
  | krstatDelta (d : Reg) (a : Reg) (b : Reg)
  /-- KRSTAT_POOL (R249) -/
  | krstatPool (d : Reg) (a : Reg)
  /-- KALLOC (R226) -/
  | kalloc (d : Reg) (a : Reg) (b : Reg)
  /-- KFREE (R227) -/
  | kfree (d : Reg) (a : Reg)
  /-- KFREE_ENT (R227) -/
  | kfreeEnt (d : Reg) (a : Reg) (b : Reg)
  /-- KFORK (R250) -/
  | kfork (d : Reg) (a : Reg)
  /-- KRECLAIM (R228) -/
  | kreclaim (d : Reg) (a : Reg)
  /-- CSRR (R82) -/
  | csrr (d : Reg) (c : BitVec 12)
  /-- CSRW (R82) -/
  | csrw (d : Reg) (a : Reg) (c : BitVec 12)
  /-- CSRS (R82) -/
  | csrs (d : Reg) (a : Reg) (c : BitVec 12)
  /-- CSRC (R82) -/
  | csrc (d : Reg) (a : Reg) (c : BitVec 12)
  /-- VADD (R167) -/
  | vadd (d : VReg) (a : VReg) (b : VReg) (k : MaskSel) (n : Bool) (s : Bool)
  /-- VSUB (R167) -/
  | vsub (d : VReg) (a : VReg) (b : VReg) (k : MaskSel) (n : Bool) (s : Bool)
  /-- VMUL (R167) -/
  | vmul (d : VReg) (a : VReg) (b : VReg) (k : MaskSel) (n : Bool) (s : Bool)
  /-- VMULH (R167) -/
  | vmulh (d : VReg) (a : VReg) (b : VReg) (k : MaskSel) (n : Bool)
  /-- VMIN (R167) -/
  | vmin (d : VReg) (a : VReg) (b : VReg) (k : MaskSel) (n : Bool)
  /-- VMAX (R167) -/
  | vmax (d : VReg) (a : VReg) (b : VReg) (k : MaskSel) (n : Bool)
  /-- VAND (R167) -/
  | vand (d : VReg) (a : VReg) (b : VReg) (k : MaskSel)
  /-- VOR (R167) -/
  | vor (d : VReg) (a : VReg) (b : VReg) (k : MaskSel)
  /-- VXOR (R167) -/
  | vxor (d : VReg) (a : VReg) (b : VReg) (k : MaskSel)
  /-- VSHL (R168) -/
  | vshl (d : VReg) (a : VReg) (b : VReg) (k : MaskSel) (n : Bool) (s : Bool)
  /-- VSHR (R168) -/
  | vshr (d : VReg) (a : VReg) (b : VReg) (k : MaskSel)
  /-- VSAR (R168) -/
  | vsar (d : VReg) (a : VReg) (b : VReg) (k : MaskSel)
  /-- VABS (R168) -/
  | vabs (d : VReg) (a : VReg) (k : MaskSel) (s : Bool)
  /-- VNEG (R168) -/
  | vneg (d : VReg) (a : VReg) (k : MaskSel) (s : Bool)
  /-- VSEL (R168) -/
  | vsel (d : VReg) (a : VReg) (b : VReg) (k : MaskSel)
  /-- VFADD (R169) -/
  | vfadd (d : VReg) (a : VReg) (b : VReg) (k : MaskSel) (r : Rnd)
  /-- VFSUB (R169) -/
  | vfsub (d : VReg) (a : VReg) (b : VReg) (k : MaskSel) (r : Rnd)
  /-- VFMUL (R169) -/
  | vfmul (d : VReg) (a : VReg) (b : VReg) (k : MaskSel) (r : Rnd)
  /-- VFDIV (R169) -/
  | vfdiv (d : VReg) (a : VReg) (b : VReg) (k : MaskSel) (r : Rnd)
  /-- VFMA (R169) -/
  | vfma (d : VReg) (a : VReg) (b : VReg) (k : MaskSel) (r : Rnd)
  /-- VFSQRT (R169) -/
  | vfsqrt (d : VReg) (a : VReg) (k : MaskSel) (r : Rnd)
  /-- VFMIN (R169) -/
  | vfmin (d : VReg) (a : VReg) (b : VReg) (k : MaskSel)
  /-- VFMAX (R169) -/
  | vfmax (d : VReg) (a : VReg) (b : VReg) (k : MaskSel)
  /-- VFEXP2 (R155) -/
  | vfexp2 (d : VReg) (a : VReg) (k : MaskSel)
  /-- VFRCP (R169) -/
  | vfrcp (d : VReg) (a : VReg) (k : MaskSel) (r : Rnd)
  /-- VCMP (R170) -/
  | vcmp (d : MaskSel) (a : VReg) (b : VReg) (f : Bool) (n : Bool) (p : Pred)
  /-- MAND (R171) -/
  | mand (d : MaskSel) (a : MaskSel) (b : MaskSel)
  /-- MOR (R171) -/
  | mor (d : MaskSel) (a : MaskSel) (b : MaskSel)
  /-- MNOT (R171) -/
  | mnot (d : MaskSel) (a : MaskSel)
  /-- MPOPC (R171) -/
  | mpopc (n : Fin 4) (a : MaskSel)
  /-- MFIRST (R171) -/
  | mfirst (n : Fin 4) (a : MaskSel)
  /-- VCVT (R172) -/
  | vcvt (d : VReg) (a : VReg) (s : Ty) (k : MaskSel) (t : Ty)
  /-- VQENC (R173) -/
  | vqenc (d : VReg) (a : VReg)
  /-- VQDEC (R174) -/
  | vqdec (d : VReg) (a : VReg)
  /-- VUNPK3 (R175) -/
  | vunpk3 (d : VReg) (a : VReg) (k : MaskSel)
  /-- VTACC (R176) -/
  | vtacc (d : VReg) (a : VReg) (b : VReg) (k : MaskSel) (c : Fin 32)
  /-- VPERM (R177) -/
  | vperm (d : VReg) (a : VReg) (b : VReg) (k : MaskSel)
  /-- VSLIDE (R177) -/
  | vslide (d : VReg) (a : VReg) (b : VReg) (k : MaskSel) (s : Fin 64)
  /-- VBCAST (R177) -/
  | vbcast (d : VReg) (a : VReg) (k : MaskSel) (s : Fin 64)
  /-- VIOTA (R177) -/
  | viota (d : VReg) (k : MaskSel) (s : Fin 64)
  /-- VRSUM (R178) -/
  | vrsum (n : Fin 4) (a : VReg) (k : MaskSel) (u : Bool)
  /-- VRFSUM (R178) -/
  | vrfsum (n : Fin 4) (a : VReg) (k : MaskSel)
  /-- VRMIN (R179) -/
  | vrmin (n : Fin 4) (a : VReg) (k : MaskSel) (x : Bool) (u : Bool) (f : Bool)
  /-- VRMAX (R179) -/
  | vrmax (n : Fin 4) (a : VReg) (k : MaskSel) (x : Bool) (u : Bool) (f : Bool)
  /-- VLD (R181) -/
  | vld (d : VReg) (l : LReg) (k : MaskSel) (o : BitVec 5)
  /-- VST (R181) -/
  | vst (d : VReg) (l : LReg) (k : MaskSel) (o : BitVec 5)
  /-- VLDS (R181) -/
  | vlds (d : VReg) (m : LReg) (l : LReg) (k : MaskSel) (o : BitVec 5)
  /-- VSTS (R181) -/
  | vsts (d : VReg) (m : LReg) (l : LReg) (k : MaskSel) (o : BitVec 5)
  /-- VGATH (R181) -/
  | vgath (d : VReg) (a : VReg) (l : LReg) (k : MaskSel) (o : BitVec 5)
  /-- VSCAT (R181) -/
  | vscat (d : VReg) (a : VReg) (l : LReg) (k : MaskSel) (o : BitVec 5)
  /-- VPUSHC (R183) -/
  | vpushc (a : VReg) (k : MaskSel) (p : Fin 8)
  /-- VPOPF (R183) -/
  | vpopf (d : VReg) (a : VReg) (p : Fin 8)
  /-- VSTAT (R183) -/
  | vstat (n : Fin 4) (r : Bool) (p : Fin 8)
  /-- VLKUP (R185) -/
  | vlkup (d : VReg) (a : VReg) (b : VReg) (k : MaskSel) (t : LReg)
  /-- VRAND (R186) -/
  | vrand (d : VReg) (k : MaskSel) (s : Fin 4)
  /-- VRSEED (R186) -/
  | vrseed (d : VReg) (a : VReg) (s : Fin 4)
  /-- VRSKIP (R186) -/
  | vrskip (a : VReg) (s : Fin 4)
  /-- VSHAPE (R162) -/
  | vshape (l : Fin 1024) (e : EW)
  /-- VEND (R161) -/
  | vend
  /-- MWLD (R200) -/
  | mwld (tok : Tok) (s : Fin 32) (t : Ty) (p : Bool)
  /-- MSWAP (R201) -/
  | mswap (tok : Tok)
  /-- MSTRM (R202) -/
  | mstrm (tok : Tok) (s : Fin 32) (t : Ty)
  /-- MMAC (R203) -/
  | mmac (tok : Tok) (t : Fin 4) (r : Fin 64) (m : Fin 64) (p : Fin 16)
  /-- MZERO (R204) -/
  | mzero (tok : Tok) (t : Fin 4) (r : Fin 64) (m : Fin 64) (k : Bool)
  /-- MDRAIN_MEM (R206) -/
  | mdrainMem (tok : Tok) (t : Fin 4) (r : Fin 64) (m : Fin 64) (o : Ty) (c : Bool) (e : Fin 4)
  /-- MDRAIN_ACC (R208) -/
  | mdrainAcc (tok : Tok) (t : Fin 4) (r : Fin 64) (m : Fin 64) (o : Ty) (c : Bool) (e : Fin 4)
  /-- MDRAIN_STR (R206) -/
  | mdrainStr (tok : Tok) (t : Fin 4) (r : Fin 64) (m : Fin 64) (o : Ty) (c : Bool) (e : Fin 4)
  /-- MLOOP (R191) -/
  | mloop (tok : Tok) (n : Fin 4096) (b : Fin 1024)
  /-- MLOOP_REG (R191) -/
  | mloopReg (tok : Tok) (l : LReg) (b : Fin 1024)
  /-- MWAITB (R193) -/
  | mwaitb (tok : Tok) (l : LReg) (t : Bool)
  /-- MEND (R210) -/
  | mend (tok : Tok)
  /-- XCOPY (R213) -/
  | xcopy (tok : Tok) (s : XLoc) (t : XLoc) (l : LReg) (p : Bool) (q : Bool)
  /-- XGATH (R214) -/
  | xgath (tok : Tok) (b : LReg) (t : XLoc) (i : LReg) (n : LReg) (s : Fin 16)
  /-- XGATH_C (R214) -/
  | xgathC (tok : Tok) (b : LReg) (t : XLoc) (n : LReg) (s : Fin 16)
  /-- XSCAT (R214) -/
  | xscat (tok : Tok) (s : XLoc) (b : LReg) (i : LReg) (n : LReg) (k : Fin 16)
  /-- XSCAT_C (R214) -/
  | xscatC (tok : Tok) (s : XLoc) (b : LReg) (n : LReg) (k : Fin 16)
  /-- XFILL (R215) -/
  | xfill (tok : Tok) (t : XLoc) (p : LReg) (n : LReg) (d : Bool)
  /-- XRED (R216) -/
  | xred (tok : Tok) (s : XLoc) (d : LReg) (n : LReg) (g : UpdTag) (r : LReg) (p : Bool)
  /-- XSEND (R218) -/
  | xsend (tok : Tok) (s : XLoc) (c : Fin 256) (n : LReg) (p : Bool)
  /-- XRECV (R218) -/
  | xrecv (tok : Tok) (t : XLoc) (c : Fin 256) (n : LReg) (p : Bool)
  /-- XLOOP (R191) -/
  | xloop (tok : Tok) (n : Fin 4096) (b : Fin 1024)
  /-- XLOOP_REG (R191) -/
  | xloopReg (tok : Tok) (l : LReg) (b : Fin 1024)
  /-- XWAITB (R193) -/
  | xwaitb (tok : Tok) (l : LReg) (t : Bool)
  /-- XEND (R187) -/
  | xend (tok : Tok)
  /-- PAUSE_END (R83) -/
  | pauseEnd (c : Nat)
  /-- LOOP_END_CHECK (R71) -/
  | loopEndCheck (c : Nat)
  /-- LOAD_DATA_RETURN (R90) -/
  | loadDataReturn (c : Nat) (k : Nat)
  /-- WAITA_WAKE (R102) -/
  | waitaWake (c : Nat)
  /-- BARWAIT_WAKE (R106) -/
  | barwaitWake (c : Nat)
  /-- BARRIER_CREDIT (R104) -/
  | barrierCredit (k : Nat)
  /-- WAITQ_WAKE (R110) -/
  | waitqWake (c : Nat)
  /-- RINGMASTER_SELECT (R322) -/
  | ringmasterSelect (die : Nat)
  /-- TASK_START (R118) -/
  | taskStart (c : Nat)
  /-- CANCEL_FORWARD (R327) -/
  | cancelForward (k : Nat)
  /-- CANCEL_RECLAIM (R328) -/
  | cancelReclaim (k : Nat)
  /-- WALK_FORWARD (R334) -/
  | walkForward (k : Nat)
  /-- BARKER_WINDOW_EXPIRY (R329) -/
  | barkerWindowExpiry (die : Nat) (bin : Nat)
  /-- BARKER_LAUNCH (R137) -/
  | barkerLaunch (die : Nat) (bin : Nat)
  /-- ATTN_COMMAND_RUN (R238) -/
  | attnCommandRun (chip : Nat) (k : Nat)
  /-- AQUERY_WAIT_END (R244) -/
  | aqueryWaitEnd (chip : Nat) (k : Nat)
  /-- VECTOR_BLOCK_START (R161) -/
  | vectorBlockStart (c : Nat)
  /-- MWLD_LOAD_DONE (R200) -/
  | mwldLoadDone (g : Nat) (arr : Nat)
  /-- TILE_TASK_ISSUE (R209) -/
  | tileTaskIssue (g : Nat)
  /-- XRED_CONTRIBUTION (R217) -/
  | xredContribution (k : Nat)
  /-- TRANSFER_PROGRAM_START (R187) -/
  | transferProgramStart (c : Nat) (out : Bool)
  /-- CIRCUIT_UNIT_SEND (R317) -/
  | circuitUnitSend (k : Nat)
  /-- CIRCUIT_UNIT_ARRIVE (R317) -/
  | circuitUnitArrive (k : Nat)
  /-- STORE_ARRIVAL (R284) -/
  | storeArrival (c : Nat) (k : Nat)
  /-- COMMIT_MARKER (R284) -/
  | commitMarker (c : Nat) (dest : Nat)
  /-- COMMIT_FLIP (R284) -/
  | commitFlip (c : Nat)
  /-- FLIP_NOTICE (R284) -/
  | flipNotice (c : Nat) (slice : Nat)
  /-- FENCE_MARKER (R281) -/
  | fenceMarker (c : Nat) (dest : Nat)
  /-- MARKER_ACK (R313) -/
  | markerAck (c : Nat) (dest : Nat)
  /-- HOME_READ_REQUEST (R303) -/
  | homeReadRequest (k : Nat)
  /-- HOME_GRANT_REQUEST (R280) -/
  | homeGrantRequest (k : Nat)
  /-- HOME_UPD_REQUEST (R306) -/
  | homeUpdRequest (k : Nat)
  /-- FULL_MERGE (R305) -/
  | fullMerge (line : Nat)
  /-- WRITE_BACK (R311) -/
  | writeBack (k : Nat)
  /-- PARKED_PARTIAL (R304) -/
  | parkedPartial (k : Nat)
  /-- PROBE_READ (R303) -/
  | probeRead (k : Nat)
  /-- PROBE_INVALIDATE (R303) -/
  | probeInvalidate (k : Nat)
  /-- PROBE_MERGE (R303) -/
  | probeMerge (k : Nat)
  /-- DATA_REPLY (R309) -/
  | dataReply (k : Nat)
  /-- SHOOTDOWN (R307) -/
  | shootdown (k : Nat)
  /-- LEASE_EXPIRY (R293) -/
  | leaseExpiry (k : Nat)
  /-- REMOTE_ACCESS (R385) -/
  | remoteAccess (src : Nat) (ctx : Nat) (addr : W64) (op : RemoteOp)
  /-- REMOTE_COMMIT_BATCH (R295) -/
  | remoteCommitBatch (src : Nat) (ctx : Nat) (cells : List (Nat × Byte))
  /-- FABRIC_TIMEOUT (R384) -/
  | fabricTimeout (c : Nat)
  /-- TASK_END (R85) -/
  | taskEnd (c : Nat)
  /-- INSTANCE_START (R259) -/
  | instanceStart (c : Nat)
  /-- TASK_ABORT (R361) -/
  | taskAbort (c : Nat)
  /-- STRAND_PREEMPT (R364) -/
  | strandPreempt (c : Nat)
  /-- ENGINE_CONTINUATION_STOP (R219) -/
  | engineContinuationStop (c : Nat) (unit : Nat)
  /-- CONTEXT_RESUME (R382) -/
  | contextResume (launch : Nat)
  /-- RECORD_TAKE (R379) -/
  | recordTake (q : Nat)
  /-- GANG_START (R258) -/
  | gangStart (launch : Nat)
  /-- LAUNCH_COMPLETE (R381) -/
  | launchComplete (q : Nat)
  /-- QUEUE_SWITCH_IN (R382) -/
  | queueSwitchIn (q : Nat)
  /-- QUEUE_SWITCH_OUT (R382) -/
  | queueSwitchOut (q : Nat)
  /-- TAIL_WRITE (R383) -/
  | tailWrite (q : Nat) (v : W64)
  /-- ENQUEUE_WINDOW_WRITE (R380) -/
  | enqueueWindowWrite (q : Nat) (off : Nat) (data : List Byte)
  /-- FABRIC_RECORD (R386) -/
  | fabricRecord (src : Nat) (q : Nat) (off : Nat) (data : List Byte) (enq : Bool)
  /-- HOST_READ (R376) -/
  | hostRead (off : Nat) (n : Nat)
  /-- HOST_WRITE (R376) -/
  | hostWrite (off : Nat) (data : List Byte)
  /-- ASQTAIL (R388) -/
  | asqtail (v : W64)
  /-- ADMIN_RING_BASE_WRITE (R388) -/
  | adminRingBaseWrite (acq : Bool) (v : W64)
  /-- REGISTER_WRITE (R6) -/
  | registerWrite (off : Nat) (v : W64)
  /-- CTX_CREATE (R390) -/
  | ctxCreate (cmd : AdminCmd)
  /-- CTX_DESTROY (R390) -/
  | ctxDestroy (cmd : AdminCmd)
  /-- Q_CREATE (R390) -/
  | qCreate (cmd : AdminCmd)
  /-- Q_BIND (R386) -/
  | qBind (cmd : AdminCmd)
  /-- Q_ARM (R390) -/
  | qArm (cmd : AdminCmd)
  /-- Q_DESTROY (R390) -/
  | qDestroy (cmd : AdminCmd)
  /-- MEM_MAP (R390) -/
  | memMap (cmd : AdminCmd)
  /-- MEM_UNMAP (R390) -/
  | memUnmap (cmd : AdminCmd)
  /-- CODE_LOAD (R391) -/
  | codeLoad (cmd : AdminCmd)
  /-- KV_POOL (R390) -/
  | kvPool (cmd : AdminCmd)
  /-- KV_RESERVE (R390) -/
  | kvReserve (cmd : AdminCmd)
  /-- LIMITS (R390) -/
  | limits (cmd : AdminCmd)
  /-- CAROUSEL (R316) -/
  | carousel (cmd : AdminCmd)
  /-- ATTEST (R396) -/
  | attest (cmd : AdminCmd)
  /-- JOURNAL_READ (R390) -/
  | journalRead (cmd : AdminCmd)
  /-- CLUSTER_RESET (R390) -/
  | clusterReset (cmd : AdminCmd)
  /-- TELEMETRY (R390) -/
  | telemetry (cmd : AdminCmd)
  /-- RESIDENCY_REPORT (R387) -/
  | residencyReport
  /-- UNCORRECTABLE_ERROR (R370) -/
  | uncorrectableError (u : StorageUnit)
  /-- CORRECTED_ERROR (R369) -/
  | correctedError
  /-- COLD_RESET (R399) -/
  | coldReset
  /-- WARM_RESET (R394) -/
  | warmReset
  /-- DEVASSIGN (R399) -/
  | devassign (v : W64)
  /-- P_STATE_CHANGE (R397) -/
  | pStateChange (n : Nat)
  /-- POWER_CAP_EXCEEDED (R398) -/
  | powerCapExceeded
  /-- POWER_CAP_RECOVER (R398) -/
  | powerCapRecover
  /-- THERMAL_THROTTLE (R398) -/
  | thermalThrottle
  /-- THERMAL_RECOVER (R398) -/
  | thermalRecover
  /-- THERMTRIP (R398) -/
  | thermtrip
  /-- ILLEGAL_INSTRUCTION (R41) -/
  | illegalInstruction (sec : CodeSection) (w : W32)
  /-- FETCH_FAULT (R358) -/
  | fetchFault (c : Nat)
  /-- PROBE_ANSWER (R310) -/
  | probeAnswer (k : Nat)
  /-- FABRIC_ANSWER (R385) -/
  | fabricAnswer (c : Nat) (r : FabricReply)
  /-- PERST_RELEASE (R399) -/
  | perstRelease
  /-- JTAG_DEBUGGER (R83) -/
  | jtagDebugger (c : Nat) (act : DebugAct)
  deriving DecidableEq, Repr

end Sys2Proof
end

