-- ==== Sys2Proof/WellFormed.lean ====
section
/-! DEFINITION. WellFormed.lean: which terms of Instr stand for an instruction the spec gives: the operand values that an entry
declares illegal (R41) are refused here, and an event names a core, die, bin, chiplet, cluster or array that exists (R25). -/

namespace Sys2Proof

/-- The integer types of R36. -/
def Ty.isInt : Ty → Bool
  | .i8 | .i16 | .i32 | .i64 | .n8 | .n16 | .n32 | .n64 => true
  | .f32 | .bf16 | .f16 | .e4m3 | .e5m2 | .q4b | .t3 => false

/-- The type codes FCVT accepts (R65). -/
def fcvtTy : Ty → Bool
  | .i32 | .i64 | .n32 | .n64 | .f32 | .bf16 | .f16 | .e4m3 | .e5m2 => true
  | .i8 | .i16 | .n8 | .n16 | .q4b | .t3 => false

/-- The type codes VCVT accepts (R172). -/
def vcvtTy : Ty → Bool
  | .i8 | .i16 | .i32 | .n8 | .n16 | .n32 | .f32 | .bf16 | .f16 | .e4m3 | .e5m2 => true
  | .i64 | .n64 | .q4b | .t3 => false

/-- The weight types of a plane (R197). -/
def weightTy : Ty → Bool
  | .i8 | .e4m3 | .e5m2 | .bf16 | .q4b | .t3 => true
  | .i16 | .i32 | .i64 | .n8 | .n16 | .n32 | .n64 | .f32 | .f16 => false

/-- The weight types that may be sparse (R200). -/
def sparseTy : Ty → Bool
  | .i8 | .e4m3 | .e5m2 => true
  | .i16 | .i32 | .i64 | .n8 | .n16 | .n32 | .n64 | .f32 | .bf16 | .f16 | .q4b | .t3 => false

/-- The types of an A stream (R202). -/
def streamTy : Ty → Bool
  | .i8 | .e4m3 | .e5m2 | .bf16 | .q4b => true
  | .i16 | .i32 | .i64 | .n8 | .n16 | .n32 | .n64 | .f32 | .f16 | .t3 => false

/-- The output types of a drain (R206). -/
def drainTy : Ty → Bool
  | .i8 | .i16 | .i32 | .f32 | .bf16 | .f16 | .e4m3 | .e5m2 => true
  | .i64 | .n8 | .n16 | .n32 | .n64 | .q4b | .t3 => false

/-- A memory code of a transfer step (R188). -/
def XLoc.isMem : XLoc → Bool
  | .mem _ => true
  | .stream _ => false

/-- The operand values the entries allow (R35, R37, R41, R60, R65, R70, R130, R162, R167, R170..R173, R178, R188..R218). -/
def Instr.wf : Instr → Bool
  | .nop => true
  | .yield => true
  | .pause n => n.toNat ≠ 0
  | .halt => true
  | .trap _ => true
  | .tret => true
  | .bkpt _ => true
  | .iflush => true
  | .add _ _ _ => true
  | .sub _ _ _ => true
  | .mul _ _ _ => true
  | .mulh _ _ _ => true
  | .div _ _ _ => true
  | .divn _ _ _ => true
  | .rem _ _ _ => true
  | .remn _ _ _ => true
  | .and _ _ _ => true
  | .or _ _ _ => true
  | .xor _ _ _ => true
  | .andn _ _ _ => true
  | .shl _ _ _ => true
  | .shr _ _ _ => true
  | .sar _ _ _ => true
  | .min _ _ _ => true
  | .max _ _ _ => true
  | .minn _ _ _ => true
  | .maxn _ _ _ => true
  | .slt _ _ _ => true
  | .sltn _ _ _ => true
  | .seq _ _ _ => true
  | .sel _ _ _ _ => true
  | .clz _ _ => true
  | .ctz _ _ => true
  | .popc _ _ => true
  | .ext _ _ _ => true
  | .ins _ _ _ => true
  | .addImm _ _ _ => true
  | .mulImm _ _ _ => true
  | .andImm _ _ _ => true
  | .orImm _ _ _ => true
  | .xorImm _ _ _ => true
  | .shlImm _ _ _ => true
  | .shrImm _ _ _ => true
  | .sarImm _ _ _ => true
  | .sltImm _ _ _ => true
  | .sltnImm _ _ _ => true
  | .seqImm _ _ _ => true
  | .minImm _ _ _ => true
  | .maxImm _ _ _ => true
  | .minnImm _ _ _ => true
  | .maxnImm _ _ _ => true
  | .extImm _ _ _ p l => p.val + l.val + 1 ≤ 64
  | .insImm _ _ p l => p.val + l.val + 1 ≤ 64
  | .lim _ _ _ _ => true
  | .fadd _ _ _ _ _ => true
  | .fsub _ _ _ _ _ => true
  | .fmul _ _ _ _ _ => true
  | .fdiv _ _ _ _ _ => true
  | .fsqrt _ _ _ _ => true
  | .ffma _ _ _ _ _ => true
  | .fmin _ _ _ _ => true
  | .fmax _ _ _ _ => true
  | .fcmp _ _ _ _ _ => true
  | .fcvt _ _ s _ t => fcvtTy s && fcvtTy t && !(s.isInt && t.isInt)
  | .fkey _ _ => true
  | .beq _ _ _ => true
  | .bne _ _ _ => true
  | .blt _ _ _ => true
  | .bge _ _ _ => true
  | .bltn _ _ _ => true
  | .bgen _ _ _ => true
  | .j _ => true
  | .jl _ => true
  | .jr _ => true
  | .jlr _ _ => true
  | .loop _ e => e.toNat ≠ 0
  | .loopImm _ e => e.toNat ≠ 0
  | .lbrk => true
  | .lbrkSq _ => true
  | .lidx _ k => k.val < 6
  | .lset _ _ => true
  | .lsetAdd _ _ => true
  | .vrun _ _ => true
  | .xrun _ _ => true
  | .mtask _ _ => true
  | .wait _ _ _ _ => true
  | .vget _ _ => true
  | .slack _ _ => true
  | .bankm _ _ => true
  | .ldb _ _ _ => true
  | .ldbn _ _ _ => true
  | .ldh _ _ _ => true
  | .ldhn _ _ _ => true
  | .ldw _ _ _ => true
  | .ldwn _ _ _ => true
  | .ldd _ _ _ => true
  | .stb _ _ _ => true
  | .sth _ _ _ => true
  | .stw _ _ _ => true
  | .std _ _ _ => true
  | .amoSwap _ _ _ _ _ _ => true
  | .amoAdd _ _ _ _ _ _ => true
  | .amoAnd _ _ _ _ _ _ => true
  | .amoOr _ _ _ _ _ _ => true
  | .amoXor _ _ _ _ _ _ => true
  | .amoMin _ _ _ _ _ _ => true
  | .amoMax _ _ _ _ _ _ => true
  | .amoMinn _ _ _ _ _ _ => true
  | .amoMaxn _ _ _ _ _ _ => true
  | .cas _ _ _ _ _ _ => true
  | .updAddI32 _ _ _ => true
  | .updAddI64 _ _ _ => true
  | .updAddF32 _ _ _ => true
  | .updAddBf16x2 _ _ _ => true
  | .updMaxI32 _ _ _ => true
  | .updMinI32 _ _ _ => true
  | .updMaxN32 _ _ _ => true
  | .updMinN32 _ _ _ => true
  | .updMaxF32 _ _ _ => true
  | .updMinF32 _ _ _ => true
  | .updOr _ _ _ => true
  | .updAnd _ _ _ => true
  | .updXor _ _ _ => true
  | .phase _ _ => true
  | .fence _ => true
  | .waita _ _ _ _ _ => true
  | .pfhL1 _ _ => true
  | .pfhL2 _ _ => true
  | .rsdKeep _ _ => true
  | .rsdLow _ _ => true
  | .rsdClean _ _ => true
  | .barinit _ _ _ => true
  | .barexp _ _ _ => true
  | .bararr _ _ _ _ => true
  | .barwait _ _ _ _ => true
  | .bartest _ _ _ _ => true
  | .enq _ _ _ => true
  | .waitq _ _ => true
  | .dq _ _ _ => true
  | .treeNew _ _ => true
  | .treeClose _ _ => true
  | .treeKill _ _ => true
  | .spawn _ _ _ => true
  | .pick _ _ => true
  | .done _ => true
  | .join _ _ => true
  | .reprio _ _ _ => true
  | .reprioSub _ _ _ => true
  | .cancelSoft _ _ => true
  | .cancelHard _ _ => true
  | .tstat _ _ _ => true
  | .nalloc _ _ _ => true
  | .nallocFree _ _ _ => true
  | .ninit _ _ m => m.toNat ≠ 0
  | .nrd _ _ _ => true
  | .nvl _ _ => true
  | .nback _ _ => true
  | .nbackAlt _ _ => true
  | .nsel _ _ => true
  | .bcfg _ _ _ => true
  | .bsub _ _ _ => true
  | .bclose _ _ => true
  | .aconfig _ _ _ => true
  | .ktload _ _ _ => true
  | .ktloadSt _ _ _ => true
  | .ktlock _ _ => true
  | .ktlockUn _ _ => true
  | .kappend _ _ => true
  | .aquery _ => true
  | .aqueryLoose _ => true
  | .ksplice _ _ _ => true
  | .krepairSel _ => true
  | .krepairPut _ => true
  | .krstatSeq _ _ => true
  | .krstatSpan _ _ _ => true
  | .krstatDelta _ _ _ => true
  | .krstatPool _ _ => true
  | .kalloc _ _ _ => true
  | .kfree _ _ => true
  | .kfreeEnt _ _ _ => true
  | .kfork _ _ => true
  | .kreclaim _ _ => true
  | .csrr _ _ => true
  | .csrw _ _ _ => true
  | .csrs _ _ _ => true
  | .csrc _ _ _ => true
  | .vadd _ _ _ _ _ _ => true
  | .vsub _ _ _ _ _ _ => true
  | .vmul _ _ _ _ _ _ => true
  | .vmulh _ _ _ _ _ => true
  | .vmin _ _ _ _ _ => true
  | .vmax _ _ _ _ _ => true
  | .vand _ _ _ _ => true
  | .vor _ _ _ _ => true
  | .vxor _ _ _ _ => true
  | .vshl _ _ _ _ _ _ => true
  | .vshr _ _ _ _ => true
  | .vsar _ _ _ _ => true
  | .vabs _ _ _ _ => true
  | .vneg _ _ _ _ => true
  | .vsel _ _ _ k => k.val ≠ 0
  | .vfadd _ _ _ _ _ => true
  | .vfsub _ _ _ _ _ => true
  | .vfmul _ _ _ _ _ => true
  | .vfdiv _ _ _ _ _ => true
  | .vfma _ _ _ _ _ => true
  | .vfsqrt _ _ _ _ => true
  | .vfmin _ _ _ _ => true
  | .vfmax _ _ _ _ => true
  | .vfexp2 _ _ _ => true
  | .vfrcp _ _ _ _ => true
  | .vcmp d _ _ f n _ => d.val ≠ 0 && !(f && n)
  | .mand d a b => d.val ≠ 0 && a.val ≠ 0 && b.val ≠ 0
  | .mor d a b => d.val ≠ 0 && a.val ≠ 0 && b.val ≠ 0
  | .mnot d a => d.val ≠ 0 && a.val ≠ 0
  | .mpopc _ a => a.val ≠ 0
  | .mfirst _ a => a.val ≠ 0
  | .vcvt _ _ s _ t => vcvtTy s && vcvtTy t
  | .vqenc _ _ => true
  | .vqdec _ _ => true
  | .vunpk3 _ _ _ => true
  | .vtacc _ _ _ _ _ => true
  | .vperm _ _ _ _ => true
  | .vslide _ _ _ _ _ => true
  | .vbcast _ _ _ _ => true
  | .viota _ _ _ => true
  | .vrsum _ _ _ _ => true
  | .vrfsum _ _ _ => true
  | .vrmin _ _ _ _ u f => !(u && f)
  | .vrmax _ _ _ _ u f => !(u && f)
  | .vld _ _ _ _ => true
  | .vst _ _ _ _ => true
  | .vlds _ _ _ _ _ => true
  | .vsts _ _ _ _ _ => true
  | .vgath _ _ _ _ _ => true
  | .vscat _ _ _ _ _ => true
  | .vpushc _ _ _ => true
  | .vpopf _ _ _ => true
  | .vstat _ _ _ => true
  | .vlkup _ _ _ _ _ => true
  | .vrand _ _ _ => true
  | .vrseed _ _ _ => true
  | .vrskip _ _ => true
  | .vshape l e => 1 ≤ l.val && l.val ≤ 2048 / e.bits
  | .vend => true
  | .mwld _ _ t p => weightTy t && (!p || sparseTy t)
  | .mswap _ => true
  | .mstrm _ _ t => streamTy t
  | .mmac _ _ r m _ => r.val + m.val + 1 ≤ 64
  | .mzero _ _ r m _ => r.val + m.val + 1 ≤ 64
  | .mdrainMem _ _ r m o _ _ => r.val + m.val + 1 ≤ 64 && drainTy o
  | .mdrainAcc _ _ r m o _ _ => r.val + m.val + 1 ≤ 64 && drainTy o
  | .mdrainStr _ _ r m o _ _ => r.val + m.val + 1 ≤ 64 && drainTy o
  | .mloop _ n b => n.val ≠ 0 && b.val ≠ 0
  | .mloopReg _ _ b => b.val ≠ 0
  | .mwaitb _ _ _ => true
  | .mend _ => true
  | .xcopy _ s _ _ _ _ => s.isMem
  | .xgath _ _ _ _ _ s => s.val ≤ 8
  | .xgathC _ _ _ _ s => s.val ≤ 8
  | .xscat _ _ _ _ _ k => k.val ≤ 8
  | .xscatC _ _ _ _ k => k.val ≤ 8
  | .xfill _ _ _ _ _ => true
  | .xred _ _ _ _ _ _ _ => true
  | .xsend _ _ _ _ _ => true
  | .xrecv _ _ _ _ _ => true
  | .xloop _ n b => n.val ≠ 0 && b.val ≠ 0
  | .xloopReg _ _ b => b.val ≠ 0
  | .xwaitb _ _ _ => true
  | .xend _ => true
  | .pauseEnd c => c < 1024
  | .loopEndCheck c => c < 1024
  | .loadDataReturn c _ => c < 1024
  | .waitaWake c => c < 1024
  | .barwaitWake c => c < 1024
  | .barrierCredit _ => true
  | .waitqWake c => c < 1024
  | .ringmasterSelect die => die < 2
  | .taskStart c => c < 1024
  | .cancelForward _ => true
  | .cancelReclaim _ => true
  | .walkForward _ => true
  | .barkerWindowExpiry die bin => die < 2 && bin < 64
  | .barkerLaunch die bin => die < 2 && bin < 64
  | .attnCommandRun chip _ => chip < 2
  | .aqueryWaitEnd chip _ => chip < 2
  | .vectorBlockStart c => c < 1024
  | .mwldLoadDone g arr => g < 256 && arr < 2
  | .tileTaskIssue g => g < 256
  | .xredContribution _ => true
  | .transferProgramStart c _ => c < 1024
  | .circuitUnitSend _ => true
  | .circuitUnitArrive _ => true
  | .storeArrival c _ => c < 1024
  | .commitMarker c _ => c < 1024
  | .commitFlip c => c < 1024
  | .flipNotice c _ => c < 1024
  | .fenceMarker c _ => c < 1024
  | .markerAck c _ => c < 1024
  | .homeReadRequest _ => true
  | .homeGrantRequest _ => true
  | .homeUpdRequest _ => true
  | .fullMerge _ => true
  | .writeBack _ => true
  | .parkedPartial _ => true
  | .probeRead _ => true
  | .probeInvalidate _ => true
  | .probeMerge _ => true
  | .dataReply _ => true
  | .shootdown _ => true
  | .leaseExpiry _ => true
  | .remoteAccess _ _ _ _ => true
  | .remoteCommitBatch _ _ _ => true
  | .fabricTimeout c => c < 1024
  | .taskEnd c => c < 1024
  | .instanceStart c => c < 1024
  | .taskAbort c => c < 1024
  | .strandPreempt c => c < 1024
  | .engineContinuationStop c _ => c < 1024
  | .contextResume _ => true
  | .recordTake _ => true
  | .gangStart _ => true
  | .launchComplete _ => true
  | .queueSwitchIn _ => true
  | .queueSwitchOut _ => true
  | .tailWrite _ _ => true
  | .enqueueWindowWrite _ _ _ => true
  | .fabricRecord _ _ _ _ _ => true
  | .hostRead _ _ => true
  | .hostWrite _ _ => true
  | .asqtail _ => true
  | .adminRingBaseWrite _ _ => true
  | .registerWrite _ _ => true
  | .ctxCreate _ => true
  | .ctxDestroy _ => true
  | .qCreate _ => true
  | .qBind _ => true
  | .qArm _ => true
  | .qDestroy _ => true
  | .memMap _ => true
  | .memUnmap _ => true
  | .codeLoad _ => true
  | .kvPool _ => true
  | .kvReserve _ => true
  | .limits _ => true
  | .carousel _ => true
  | .attest _ => true
  | .journalRead _ => true
  | .clusterReset _ => true
  | .telemetry _ => true
  | .residencyReport => true
  | .uncorrectableError _ => true
  | .correctedError => true
  | .coldReset => true
  | .warmReset => true
  | .devassign _ => true
  | .pStateChange _ => true
  | .powerCapExceeded => true
  | .powerCapRecover => true
  | .thermalThrottle => true
  | .thermalRecover => true
  | .thermtrip => true
  | .illegalInstruction _ _ => true
  | .fetchFault c => c < 1024
  | .probeAnswer _ => true
  | .fabricAnswer c _ => c < 1024
  | .perstRelease => true
  | .jtagDebugger c _ => c < 1024

end Sys2Proof
end

