-- ==== Sys2Proof/Decode.lean ====
section
/-! DEFINITION. Decode.lean: the four decoders (R31..R41), total on every number, each refusal by name; and the encoder
written from the same tables. The step-word decoders are marked noncomputable only because Lean's code generator has no object
tag for a constructor past the 245th with fields (log 9); Lean's kernel evaluates them like any other definition. -/

namespace Sys2Proof

/-- Why a word stands for no instruction (R41). -/
inductive DecodeError where
  /-- the number is not a 32-bit word -/
  | notAWord
  /-- the word is 0xFFFF_FFFF, or its major or step code is illegal for ever -/
  | neverAssigned
  /-- the major or step code is reserved -/
  | reservedMajor
  /-- a selector code within the major is assigned to nothing -/
  | unassigned
  /-- a res field is not zero -/
  | reservedField
  /-- a field holds a code or a value its entry marks illegal -/
  | illegalCode
  deriving DecidableEq, Repr

/-- The n bits of w from bit lo up. -/
def fld (w lo n : Nat) : Nat := w / 2 ^ lo % 2 ^ n

/-- An instruction whose operand values its entry allows, else an illegal code (R41). -/
def legal (i : Instr) : Except DecodeError Instr :=
  if i.wf then .ok i else .error .illegalCode

/-- Go on with the value of a code, or refuse the code (R41). -/
def withCode {α : Type} (c : Option α) (f : α → Except DecodeError Instr) : Except DecodeError Instr :=
  match c with
  | some x => f x
  | none => .error .illegalCode

/-- The words of sequencer major 0x00: NOP, YIELD, PAUSE, HALT, TRAP, TRET, BKPT, IFLUSH. -/
def decodeSq00 (w : Nat) : Except DecodeError Instr :=
  if fld w 0 6 = 0 then
    if fld w 6 20 = 0 then legal .nop else
    .error .reservedField
  else
  if fld w 0 6 = 1 then
    if fld w 6 20 = 0 then legal .yield else
    .error .reservedField
  else
  if fld w 0 6 = 2 then
    if fld w 16 10 = 0 then legal (.pause (BitVec.ofNat 10 (fld w 6 10))) else
    .error .reservedField
  else
  if fld w 0 6 = 3 then
    if fld w 6 20 = 0 then legal .halt else
    .error .reservedField
  else
  if fld w 0 6 = 4 then
    if fld w 16 10 = 0 then legal (.trap (BitVec.ofNat 10 (fld w 6 10))) else
    .error .reservedField
  else
  if fld w 0 6 = 5 then
    if fld w 6 20 = 0 then legal .tret else
    .error .reservedField
  else
  if fld w 0 6 = 6 then
    if fld w 16 10 = 0 then legal (.bkpt (BitVec.ofNat 10 (fld w 6 10))) else
    .error .reservedField
  else
  if fld w 0 6 = 7 then
    if fld w 6 20 = 0 then legal .iflush else
    .error .reservedField
  else
  .error .unassigned

/-- The words of sequencer major 0x01: ADD, SUB, MUL, MULH, DIV, DIVN, REM, REMN, AND, OR, XOR, ANDN, SHL, SHR, SAR, MIN, MAX, MINN, MAXN, SLT, SLTN, SEQ, SEL, CLZ, CTZ, POPC, EXT, INS. -/
def decodeSq01 (w : Nat) : Except DecodeError Instr :=
  if fld w 5 6 = 0 then
    if fld w 0 5 = 0 then legal (.add (Fin.ofNat 32 (fld w 21 5)) (Fin.ofNat 32 (fld w 16 5)) (Fin.ofNat 32 (fld w 11 5))) else
    .error .reservedField
  else
  if fld w 5 6 = 1 then
    if fld w 0 5 = 0 then legal (.sub (Fin.ofNat 32 (fld w 21 5)) (Fin.ofNat 32 (fld w 16 5)) (Fin.ofNat 32 (fld w 11 5))) else
    .error .reservedField
  else
  if fld w 5 6 = 2 then
    if fld w 0 5 = 0 then legal (.mul (Fin.ofNat 32 (fld w 21 5)) (Fin.ofNat 32 (fld w 16 5)) (Fin.ofNat 32 (fld w 11 5))) else
    .error .reservedField
  else
  if fld w 5 6 = 3 then
    if fld w 0 5 = 0 then legal (.mulh (Fin.ofNat 32 (fld w 21 5)) (Fin.ofNat 32 (fld w 16 5)) (Fin.ofNat 32 (fld w 11 5))) else
    .error .reservedField
  else
  if fld w 5 6 = 4 then
    if fld w 0 5 = 0 then legal (.div (Fin.ofNat 32 (fld w 21 5)) (Fin.ofNat 32 (fld w 16 5)) (Fin.ofNat 32 (fld w 11 5))) else
    .error .reservedField
  else
  if fld w 5 6 = 5 then
    if fld w 0 5 = 0 then legal (.divn (Fin.ofNat 32 (fld w 21 5)) (Fin.ofNat 32 (fld w 16 5)) (Fin.ofNat 32 (fld w 11 5))) else
    .error .reservedField
  else
  if fld w 5 6 = 6 then
    if fld w 0 5 = 0 then legal (.rem (Fin.ofNat 32 (fld w 21 5)) (Fin.ofNat 32 (fld w 16 5)) (Fin.ofNat 32 (fld w 11 5))) else
    .error .reservedField
  else
  if fld w 5 6 = 7 then
    if fld w 0 5 = 0 then legal (.remn (Fin.ofNat 32 (fld w 21 5)) (Fin.ofNat 32 (fld w 16 5)) (Fin.ofNat 32 (fld w 11 5))) else
    .error .reservedField
  else
  if fld w 5 6 = 8 then
    if fld w 0 5 = 0 then legal (.and (Fin.ofNat 32 (fld w 21 5)) (Fin.ofNat 32 (fld w 16 5)) (Fin.ofNat 32 (fld w 11 5))) else
    .error .reservedField
  else
  if fld w 5 6 = 9 then
    if fld w 0 5 = 0 then legal (.or (Fin.ofNat 32 (fld w 21 5)) (Fin.ofNat 32 (fld w 16 5)) (Fin.ofNat 32 (fld w 11 5))) else
    .error .reservedField
  else
  if fld w 5 6 = 10 then
    if fld w 0 5 = 0 then legal (.xor (Fin.ofNat 32 (fld w 21 5)) (Fin.ofNat 32 (fld w 16 5)) (Fin.ofNat 32 (fld w 11 5))) else
    .error .reservedField
  else
  if fld w 5 6 = 11 then
    if fld w 0 5 = 0 then legal (.andn (Fin.ofNat 32 (fld w 21 5)) (Fin.ofNat 32 (fld w 16 5)) (Fin.ofNat 32 (fld w 11 5))) else
    .error .reservedField
  else
  if fld w 5 6 = 12 then
    if fld w 0 5 = 0 then legal (.shl (Fin.ofNat 32 (fld w 21 5)) (Fin.ofNat 32 (fld w 16 5)) (Fin.ofNat 32 (fld w 11 5))) else
    .error .reservedField
  else
  if fld w 5 6 = 13 then
    if fld w 0 5 = 0 then legal (.shr (Fin.ofNat 32 (fld w 21 5)) (Fin.ofNat 32 (fld w 16 5)) (Fin.ofNat 32 (fld w 11 5))) else
    .error .reservedField
  else
  if fld w 5 6 = 14 then
    if fld w 0 5 = 0 then legal (.sar (Fin.ofNat 32 (fld w 21 5)) (Fin.ofNat 32 (fld w 16 5)) (Fin.ofNat 32 (fld w 11 5))) else
    .error .reservedField
  else
  if fld w 5 6 = 15 then
    if fld w 0 5 = 0 then legal (.min (Fin.ofNat 32 (fld w 21 5)) (Fin.ofNat 32 (fld w 16 5)) (Fin.ofNat 32 (fld w 11 5))) else
    .error .reservedField
  else
  if fld w 5 6 = 16 then
    if fld w 0 5 = 0 then legal (.max (Fin.ofNat 32 (fld w 21 5)) (Fin.ofNat 32 (fld w 16 5)) (Fin.ofNat 32 (fld w 11 5))) else
    .error .reservedField
  else
  if fld w 5 6 = 17 then
    if fld w 0 5 = 0 then legal (.minn (Fin.ofNat 32 (fld w 21 5)) (Fin.ofNat 32 (fld w 16 5)) (Fin.ofNat 32 (fld w 11 5))) else
    .error .reservedField
  else
  if fld w 5 6 = 18 then
    if fld w 0 5 = 0 then legal (.maxn (Fin.ofNat 32 (fld w 21 5)) (Fin.ofNat 32 (fld w 16 5)) (Fin.ofNat 32 (fld w 11 5))) else
    .error .reservedField
  else
  if fld w 5 6 = 19 then
    if fld w 0 5 = 0 then legal (.slt (Fin.ofNat 32 (fld w 21 5)) (Fin.ofNat 32 (fld w 16 5)) (Fin.ofNat 32 (fld w 11 5))) else
    .error .reservedField
  else
  if fld w 5 6 = 20 then
    if fld w 0 5 = 0 then legal (.sltn (Fin.ofNat 32 (fld w 21 5)) (Fin.ofNat 32 (fld w 16 5)) (Fin.ofNat 32 (fld w 11 5))) else
    .error .reservedField
  else
  if fld w 5 6 = 21 then
    if fld w 0 5 = 0 then legal (.seq (Fin.ofNat 32 (fld w 21 5)) (Fin.ofNat 32 (fld w 16 5)) (Fin.ofNat 32 (fld w 11 5))) else
    .error .reservedField
  else
  if fld w 5 6 = 22 then
    legal (.sel (Fin.ofNat 32 (fld w 21 5)) (Fin.ofNat 32 (fld w 16 5)) (Fin.ofNat 32 (fld w 11 5)) (Fin.ofNat 32 (fld w 0 5)))
  else
  if fld w 5 6 = 23 then
    if fld w 0 5 = 0 ∧ fld w 11 5 = 0 then legal (.clz (Fin.ofNat 32 (fld w 21 5)) (Fin.ofNat 32 (fld w 16 5))) else
    .error .reservedField
  else
  if fld w 5 6 = 24 then
    if fld w 0 5 = 0 ∧ fld w 11 5 = 0 then legal (.ctz (Fin.ofNat 32 (fld w 21 5)) (Fin.ofNat 32 (fld w 16 5))) else
    .error .reservedField
  else
  if fld w 5 6 = 25 then
    if fld w 0 5 = 0 ∧ fld w 11 5 = 0 then legal (.popc (Fin.ofNat 32 (fld w 21 5)) (Fin.ofNat 32 (fld w 16 5))) else
    .error .reservedField
  else
  if fld w 5 6 = 26 then
    if fld w 0 5 = 0 then legal (.ext (Fin.ofNat 32 (fld w 21 5)) (Fin.ofNat 32 (fld w 16 5)) (Fin.ofNat 32 (fld w 11 5))) else
    .error .reservedField
  else
  if fld w 5 6 = 27 then
    if fld w 0 5 = 0 then legal (.ins (Fin.ofNat 32 (fld w 21 5)) (Fin.ofNat 32 (fld w 16 5)) (Fin.ofNat 32 (fld w 11 5))) else
    .error .reservedField
  else
  .error .unassigned

/-- The words of sequencer major 0x02: ADD_IMM. -/
def decodeSq02 (w : Nat) : Except DecodeError Instr :=
  legal (.addImm (Fin.ofNat 32 (fld w 21 5)) (Fin.ofNat 32 (fld w 16 5)) (BitVec.ofNat 16 (fld w 0 16)))

/-- The words of sequencer major 0x03: MUL_IMM. -/
def decodeSq03 (w : Nat) : Except DecodeError Instr :=
  legal (.mulImm (Fin.ofNat 32 (fld w 21 5)) (Fin.ofNat 32 (fld w 16 5)) (BitVec.ofNat 16 (fld w 0 16)))

/-- The words of sequencer major 0x04: AND_IMM. -/
def decodeSq04 (w : Nat) : Except DecodeError Instr :=
  legal (.andImm (Fin.ofNat 32 (fld w 21 5)) (Fin.ofNat 32 (fld w 16 5)) (BitVec.ofNat 16 (fld w 0 16)))

/-- The words of sequencer major 0x05: OR_IMM. -/
def decodeSq05 (w : Nat) : Except DecodeError Instr :=
  legal (.orImm (Fin.ofNat 32 (fld w 21 5)) (Fin.ofNat 32 (fld w 16 5)) (BitVec.ofNat 16 (fld w 0 16)))

/-- The words of sequencer major 0x06: XOR_IMM. -/
def decodeSq06 (w : Nat) : Except DecodeError Instr :=
  legal (.xorImm (Fin.ofNat 32 (fld w 21 5)) (Fin.ofNat 32 (fld w 16 5)) (BitVec.ofNat 16 (fld w 0 16)))

/-- The words of sequencer major 0x07: SHL_IMM, SHR_IMM, SAR_IMM. -/
def decodeSq07 (w : Nat) : Except DecodeError Instr :=
  if fld w 6 2 = 0 then
    if fld w 8 8 = 0 then legal (.shlImm (Fin.ofNat 32 (fld w 21 5)) (Fin.ofNat 32 (fld w 16 5)) (Fin.ofNat 64 (fld w 0 6))) else
    .error .reservedField
  else
  if fld w 6 2 = 1 then
    if fld w 8 8 = 0 then legal (.shrImm (Fin.ofNat 32 (fld w 21 5)) (Fin.ofNat 32 (fld w 16 5)) (Fin.ofNat 64 (fld w 0 6))) else
    .error .reservedField
  else
  if fld w 6 2 = 2 then
    if fld w 8 8 = 0 then legal (.sarImm (Fin.ofNat 32 (fld w 21 5)) (Fin.ofNat 32 (fld w 16 5)) (Fin.ofNat 64 (fld w 0 6))) else
    .error .reservedField
  else
  .error .unassigned

/-- The words of sequencer major 0x08: SLT_IMM. -/
def decodeSq08 (w : Nat) : Except DecodeError Instr :=
  legal (.sltImm (Fin.ofNat 32 (fld w 21 5)) (Fin.ofNat 32 (fld w 16 5)) (BitVec.ofNat 16 (fld w 0 16)))

/-- The words of sequencer major 0x09: SLTN_IMM. -/
def decodeSq09 (w : Nat) : Except DecodeError Instr :=
  legal (.sltnImm (Fin.ofNat 32 (fld w 21 5)) (Fin.ofNat 32 (fld w 16 5)) (BitVec.ofNat 16 (fld w 0 16)))

/-- The words of sequencer major 0x0A: SEQ_IMM. -/
def decodeSq0A (w : Nat) : Except DecodeError Instr :=
  legal (.seqImm (Fin.ofNat 32 (fld w 21 5)) (Fin.ofNat 32 (fld w 16 5)) (BitVec.ofNat 16 (fld w 0 16)))

/-- The words of sequencer major 0x0B: MIN_IMM, MAX_IMM, MINN_IMM, MAXN_IMM. -/
def decodeSq0B (w : Nat) : Except DecodeError Instr :=
  if fld w 14 2 = 0 then
    legal (.minImm (Fin.ofNat 32 (fld w 21 5)) (Fin.ofNat 32 (fld w 16 5)) (BitVec.ofNat 14 (fld w 0 14)))
  else
  if fld w 14 2 = 1 then
    legal (.maxImm (Fin.ofNat 32 (fld w 21 5)) (Fin.ofNat 32 (fld w 16 5)) (BitVec.ofNat 14 (fld w 0 14)))
  else
  if fld w 14 2 = 2 then
    legal (.minnImm (Fin.ofNat 32 (fld w 21 5)) (Fin.ofNat 32 (fld w 16 5)) (BitVec.ofNat 14 (fld w 0 14)))
  else
  if fld w 14 2 = 3 then
    legal (.maxnImm (Fin.ofNat 32 (fld w 21 5)) (Fin.ofNat 32 (fld w 16 5)) (BitVec.ofNat 14 (fld w 0 14)))
  else
  .error .unassigned

/-- The words of sequencer major 0x0C: EXT_IMM. -/
def decodeSq0C (w : Nat) : Except DecodeError Instr :=
  if fld w 13 3 = 0 then legal (.extImm (Fin.ofNat 32 (fld w 21 5)) (Fin.ofNat 32 (fld w 16 5)) (fld w 12 1 == 1) (Fin.ofNat 64 (fld w 6 6)) (Fin.ofNat 64 (fld w 0 6))) else
  .error .reservedField

/-- The words of sequencer major 0x0D: INS_IMM. -/
def decodeSq0D (w : Nat) : Except DecodeError Instr :=
  if fld w 12 4 = 0 then legal (.insImm (Fin.ofNat 32 (fld w 21 5)) (Fin.ofNat 32 (fld w 16 5)) (Fin.ofNat 64 (fld w 6 6)) (Fin.ofNat 64 (fld w 0 6))) else
  .error .reservedField

/-- The words of sequencer major 0x0E: LIM. -/
def decodeSq0E (w : Nat) : Except DecodeError Instr :=
  if fld w 19 2 = 0 then legal (.lim (Fin.ofNat 32 (fld w 21 5)) (fld w 18 1 == 1) (Fin.ofNat 4 (fld w 16 2)) (BitVec.ofNat 16 (fld w 0 16))) else
  .error .reservedField

/-- The words of sequencer major 0x10: FADD, FSUB, FMUL, FDIV, FSQRT, FFMA, FMIN, FMAX, FCMP, FCVT, FKEY. -/
def decodeSq10 (w : Nat) : Except DecodeError Instr :=
  if fld w 7 4 = 0 then
    if fld w 0 2 = 0 then withCode (Rnd.ofCode (fld w 4 3)) fun r => withCode (FTy.ofCode (fld w 2 2)) fun t => legal (.fadd (Fin.ofNat 32 (fld w 21 5)) (Fin.ofNat 32 (fld w 16 5)) (Fin.ofNat 32 (fld w 11 5)) r t) else
    .error .reservedField
  else
  if fld w 7 4 = 1 then
    if fld w 0 2 = 0 then withCode (Rnd.ofCode (fld w 4 3)) fun r => withCode (FTy.ofCode (fld w 2 2)) fun t => legal (.fsub (Fin.ofNat 32 (fld w 21 5)) (Fin.ofNat 32 (fld w 16 5)) (Fin.ofNat 32 (fld w 11 5)) r t) else
    .error .reservedField
  else
  if fld w 7 4 = 2 then
    if fld w 0 2 = 0 then withCode (Rnd.ofCode (fld w 4 3)) fun r => withCode (FTy.ofCode (fld w 2 2)) fun t => legal (.fmul (Fin.ofNat 32 (fld w 21 5)) (Fin.ofNat 32 (fld w 16 5)) (Fin.ofNat 32 (fld w 11 5)) r t) else
    .error .reservedField
  else
  if fld w 7 4 = 3 then
    if fld w 0 2 = 0 then withCode (Rnd.ofCode (fld w 4 3)) fun r => withCode (FTy.ofCode (fld w 2 2)) fun t => legal (.fdiv (Fin.ofNat 32 (fld w 21 5)) (Fin.ofNat 32 (fld w 16 5)) (Fin.ofNat 32 (fld w 11 5)) r t) else
    .error .reservedField
  else
  if fld w 7 4 = 4 then
    if fld w 11 5 = 0 ∧ fld w 0 2 = 0 then withCode (Rnd.ofCode (fld w 4 3)) fun r => withCode (FTy.ofCode (fld w 2 2)) fun t => legal (.fsqrt (Fin.ofNat 32 (fld w 21 5)) (Fin.ofNat 32 (fld w 16 5)) r t) else
    .error .reservedField
  else
  if fld w 7 4 = 5 then
    if fld w 0 2 = 0 then withCode (Rnd.ofCode (fld w 4 3)) fun r => withCode (FTy.ofCode (fld w 2 2)) fun t => legal (.ffma (Fin.ofNat 32 (fld w 21 5)) (Fin.ofNat 32 (fld w 16 5)) (Fin.ofNat 32 (fld w 11 5)) r t) else
    .error .reservedField
  else
  if fld w 7 4 = 6 then
    if fld w 4 3 = 0 ∧ fld w 0 2 = 0 then withCode (FTy.ofCode (fld w 2 2)) fun t => legal (.fmin (Fin.ofNat 32 (fld w 21 5)) (Fin.ofNat 32 (fld w 16 5)) (Fin.ofNat 32 (fld w 11 5)) t) else
    .error .reservedField
  else
  if fld w 7 4 = 7 then
    if fld w 4 3 = 0 ∧ fld w 0 2 = 0 then withCode (FTy.ofCode (fld w 2 2)) fun t => legal (.fmax (Fin.ofNat 32 (fld w 21 5)) (Fin.ofNat 32 (fld w 16 5)) (Fin.ofNat 32 (fld w 11 5)) t) else
    .error .reservedField
  else
  if fld w 7 4 = 8 then
    if fld w 0 2 = 0 then withCode (Pred.ofCode (fld w 4 3)) fun p => withCode (FTy.ofCode (fld w 2 2)) fun t => legal (.fcmp (Fin.ofNat 32 (fld w 21 5)) (Fin.ofNat 32 (fld w 16 5)) (Fin.ofNat 32 (fld w 11 5)) p t) else
    .error .reservedField
  else
  if fld w 7 4 = 9 then
    if fld w 15 1 = 0 then withCode (Ty.ofCode (fld w 11 4)) fun s => withCode (Rnd.ofCode (fld w 4 3)) fun r => withCode (Ty.ofCode (fld w 0 4)) fun t => legal (.fcvt (Fin.ofNat 32 (fld w 21 5)) (Fin.ofNat 32 (fld w 16 5)) s r t) else
    .error .reservedField
  else
  if fld w 7 4 = 10 then
    if fld w 0 7 = 0 ∧ fld w 11 5 = 0 then legal (.fkey (Fin.ofNat 32 (fld w 21 5)) (Fin.ofNat 32 (fld w 16 5))) else
    .error .reservedField
  else
  .error .unassigned

/-- The words of sequencer major 0x11: BEQ. -/
def decodeSq11 (w : Nat) : Except DecodeError Instr :=
  legal (.beq (Fin.ofNat 32 (fld w 21 5)) (Fin.ofNat 32 (fld w 16 5)) (BitVec.ofNat 16 (fld w 0 16)))

/-- The words of sequencer major 0x12: BNE. -/
def decodeSq12 (w : Nat) : Except DecodeError Instr :=
  legal (.bne (Fin.ofNat 32 (fld w 21 5)) (Fin.ofNat 32 (fld w 16 5)) (BitVec.ofNat 16 (fld w 0 16)))

/-- The words of sequencer major 0x13: BLT. -/
def decodeSq13 (w : Nat) : Except DecodeError Instr :=
  legal (.blt (Fin.ofNat 32 (fld w 21 5)) (Fin.ofNat 32 (fld w 16 5)) (BitVec.ofNat 16 (fld w 0 16)))

/-- The words of sequencer major 0x14: BGE. -/
def decodeSq14 (w : Nat) : Except DecodeError Instr :=
  legal (.bge (Fin.ofNat 32 (fld w 21 5)) (Fin.ofNat 32 (fld w 16 5)) (BitVec.ofNat 16 (fld w 0 16)))

/-- The words of sequencer major 0x15: BLTN. -/
def decodeSq15 (w : Nat) : Except DecodeError Instr :=
  legal (.bltn (Fin.ofNat 32 (fld w 21 5)) (Fin.ofNat 32 (fld w 16 5)) (BitVec.ofNat 16 (fld w 0 16)))

/-- The words of sequencer major 0x16: BGEN. -/
def decodeSq16 (w : Nat) : Except DecodeError Instr :=
  legal (.bgen (Fin.ofNat 32 (fld w 21 5)) (Fin.ofNat 32 (fld w 16 5)) (BitVec.ofNat 16 (fld w 0 16)))

/-- The words of sequencer major 0x18: J. -/
def decodeSq18 (w : Nat) : Except DecodeError Instr :=
  legal (.j (BitVec.ofNat 26 (fld w 0 26)))

/-- The words of sequencer major 0x19: JL. -/
def decodeSq19 (w : Nat) : Except DecodeError Instr :=
  legal (.jl (BitVec.ofNat 26 (fld w 0 26)))

/-- The words of sequencer major 0x1A: JR, JLR. -/
def decodeSq1A (w : Nat) : Except DecodeError Instr :=
  if fld w 7 4 = 0 then
    if fld w 21 5 = 0 ∧ fld w 0 7 = 0 ∧ fld w 11 5 = 0 then legal (.jr (Fin.ofNat 32 (fld w 16 5))) else
    .error .reservedField
  else
  if fld w 7 4 = 1 then
    if fld w 0 7 = 0 ∧ fld w 11 5 = 0 then legal (.jlr (Fin.ofNat 32 (fld w 21 5)) (Fin.ofNat 32 (fld w 16 5))) else
    .error .reservedField
  else
  .error .unassigned

/-- The words of sequencer major 0x1B: LOOP, LOOP_IMM. -/
def decodeSq1B (w : Nat) : Except DecodeError Instr :=
  if fld w 20 1 = 0 then
    if fld w 8 12 = 0 then legal (.loop (Fin.ofNat 32 (fld w 21 5)) (BitVec.ofNat 8 (fld w 0 8))) else
    .error .reservedField
  else
  if fld w 20 1 = 1 then
    if fld w 21 5 = 0 then legal (.loopImm (BitVec.ofNat 12 (fld w 8 12)) (BitVec.ofNat 8 (fld w 0 8))) else
    .error .reservedField
  else
  .error .unassigned

/-- The words of sequencer major 0x1C: LBRK, LBRK_SQ, LIDX, LSET, LSET_ADD. -/
def decodeSq1C (w : Nat) : Except DecodeError Instr :=
  if fld w 7 4 = 0 then
    if fld w 0 7 = 0 ∧ fld w 11 15 = 0 then legal .lbrk else
    .error .reservedField
  else
  if fld w 7 4 = 1 then
    if fld w 21 5 = 0 ∧ fld w 0 7 = 0 ∧ fld w 11 5 = 0 then legal (.lbrkSq (Fin.ofNat 32 (fld w 16 5))) else
    .error .reservedField
  else
  if fld w 7 4 = 2 then
    if fld w 3 4 = 0 ∧ fld w 11 10 = 0 then legal (.lidx (Fin.ofNat 32 (fld w 21 5)) (Fin.ofNat 8 (fld w 0 3))) else
    .error .reservedField
  else
  if fld w 7 4 = 3 then
    if fld w 25 1 = 0 ∧ fld w 0 7 = 0 ∧ fld w 11 5 = 0 then legal (.lset (Fin.ofNat 16 (fld w 21 4)) (Fin.ofNat 32 (fld w 16 5))) else
    if fld w 25 1 = 0 ∧ fld w 0 7 = 64 ∧ fld w 11 5 = 0 then legal (.lsetAdd (Fin.ofNat 16 (fld w 21 4)) (Fin.ofNat 32 (fld w 16 5))) else
    .error .reservedField
  else
  .error .unassigned

/-- The words of sequencer major 0x1D: VRUN, XRUN, MTASK. -/
def decodeSq1D (w : Nat) : Except DecodeError Instr :=
  if fld w 24 2 = 0 then
    if fld w 21 3 = 0 then legal (.vrun (Fin.ofNat 32 (fld w 16 5)) (BitVec.ofNat 16 (fld w 0 16))) else
    .error .reservedField
  else
  if fld w 24 2 = 1 then
    if fld w 21 3 = 0 then legal (.xrun (Fin.ofNat 32 (fld w 16 5)) (BitVec.ofNat 16 (fld w 0 16))) else
    .error .reservedField
  else
  if fld w 24 2 = 2 then
    if fld w 21 3 = 0 then legal (.mtask (Fin.ofNat 32 (fld w 16 5)) (BitVec.ofNat 16 (fld w 0 16))) else
    .error .reservedField
  else
  .error .unassigned

/-- The words of sequencer major 0x1E: WAIT. -/
def decodeSq1E (w : Nat) : Except DecodeError Instr :=
  if fld w 0 2 = 0 then legal (.wait (Fin.ofNat 64 (fld w 20 6)) (Fin.ofNat 64 (fld w 14 6)) (Fin.ofNat 64 (fld w 8 6)) (Fin.ofNat 64 (fld w 2 6))) else
  .error .reservedField

/-- The words of sequencer major 0x1F: VGET, SLACK, BANKM. -/
def decodeSq1F (w : Nat) : Except DecodeError Instr :=
  if fld w 7 4 = 0 then
    if fld w 2 5 = 0 ∧ fld w 11 10 = 0 then legal (.vget (Fin.ofNat 32 (fld w 21 5)) (Fin.ofNat 4 (fld w 0 2))) else
    .error .reservedField
  else
  if fld w 7 4 = 1 then
    if fld w 0 7 = 0 ∧ fld w 11 5 = 0 then legal (.slack (Fin.ofNat 32 (fld w 21 5)) (Fin.ofNat 32 (fld w 16 5))) else
    .error .reservedField
  else
  if fld w 7 4 = 2 then
    if fld w 0 7 = 0 ∧ fld w 11 5 = 0 then legal (.bankm (Fin.ofNat 32 (fld w 21 5)) (Fin.ofNat 32 (fld w 16 5))) else
    .error .reservedField
  else
  .error .unassigned

/-- The words of sequencer major 0x20: LDB, LDBN. -/
def decodeSq20 (w : Nat) : Except DecodeError Instr :=
  if fld w 0 1 = 0 then legal (.ldb (Fin.ofNat 32 (fld w 21 5)) (Fin.ofNat 32 (fld w 16 5)) (BitVec.ofNat 15 (fld w 1 15))) else
  if fld w 0 1 = 1 then legal (.ldbn (Fin.ofNat 32 (fld w 21 5)) (Fin.ofNat 32 (fld w 16 5)) (BitVec.ofNat 15 (fld w 1 15))) else
  .error .reservedField

/-- The words of sequencer major 0x21: LDH, LDHN. -/
def decodeSq21 (w : Nat) : Except DecodeError Instr :=
  if fld w 0 1 = 0 then legal (.ldh (Fin.ofNat 32 (fld w 21 5)) (Fin.ofNat 32 (fld w 16 5)) (BitVec.ofNat 15 (fld w 1 15))) else
  if fld w 0 1 = 1 then legal (.ldhn (Fin.ofNat 32 (fld w 21 5)) (Fin.ofNat 32 (fld w 16 5)) (BitVec.ofNat 15 (fld w 1 15))) else
  .error .reservedField

/-- The words of sequencer major 0x22: LDW, LDWN. -/
def decodeSq22 (w : Nat) : Except DecodeError Instr :=
  if fld w 0 1 = 0 then legal (.ldw (Fin.ofNat 32 (fld w 21 5)) (Fin.ofNat 32 (fld w 16 5)) (BitVec.ofNat 15 (fld w 1 15))) else
  if fld w 0 1 = 1 then legal (.ldwn (Fin.ofNat 32 (fld w 21 5)) (Fin.ofNat 32 (fld w 16 5)) (BitVec.ofNat 15 (fld w 1 15))) else
  .error .reservedField

/-- The words of sequencer major 0x23: LDD. -/
def decodeSq23 (w : Nat) : Except DecodeError Instr :=
  if fld w 0 1 = 0 then legal (.ldd (Fin.ofNat 32 (fld w 21 5)) (Fin.ofNat 32 (fld w 16 5)) (BitVec.ofNat 15 (fld w 1 15))) else
  .error .reservedField

/-- The words of sequencer major 0x24: STB. -/
def decodeSq24 (w : Nat) : Except DecodeError Instr :=
  if fld w 0 1 = 0 then legal (.stb (Fin.ofNat 32 (fld w 21 5)) (Fin.ofNat 32 (fld w 16 5)) (BitVec.ofNat 15 (fld w 1 15))) else
  .error .reservedField

/-- The words of sequencer major 0x25: STH. -/
def decodeSq25 (w : Nat) : Except DecodeError Instr :=
  if fld w 0 1 = 0 then legal (.sth (Fin.ofNat 32 (fld w 21 5)) (Fin.ofNat 32 (fld w 16 5)) (BitVec.ofNat 15 (fld w 1 15))) else
  .error .reservedField

/-- The words of sequencer major 0x26: STW. -/
def decodeSq26 (w : Nat) : Except DecodeError Instr :=
  if fld w 0 1 = 0 then legal (.stw (Fin.ofNat 32 (fld w 21 5)) (Fin.ofNat 32 (fld w 16 5)) (BitVec.ofNat 15 (fld w 1 15))) else
  .error .reservedField

/-- The words of sequencer major 0x27: STD. -/
def decodeSq27 (w : Nat) : Except DecodeError Instr :=
  if fld w 0 1 = 0 then legal (.std (Fin.ofNat 32 (fld w 21 5)) (Fin.ofNat 32 (fld w 16 5)) (BitVec.ofNat 15 (fld w 1 15))) else
  .error .reservedField

/-- The words of sequencer major 0x28: AMO_SWAP, AMO_ADD, AMO_AND, AMO_OR, AMO_XOR, AMO_MIN, AMO_MAX, AMO_MINN, AMO_MAXN, CAS. -/
def decodeSq28 (w : Nat) : Except DecodeError Instr :=
  if fld w 7 4 = 0 then
    if fld w 6 1 = 0 then withCode (Order.ofCode (fld w 3 2)) fun o => withCode (Scope.ofCode (fld w 0 3)) fun s => legal (.amoSwap (Fin.ofNat 32 (fld w 21 5)) (Fin.ofNat 32 (fld w 16 5)) (Fin.ofNat 32 (fld w 11 5)) (fld w 5 1 == 1) o s) else
    .error .reservedField
  else
  if fld w 7 4 = 1 then
    if fld w 6 1 = 0 then withCode (Order.ofCode (fld w 3 2)) fun o => withCode (Scope.ofCode (fld w 0 3)) fun s => legal (.amoAdd (Fin.ofNat 32 (fld w 21 5)) (Fin.ofNat 32 (fld w 16 5)) (Fin.ofNat 32 (fld w 11 5)) (fld w 5 1 == 1) o s) else
    .error .reservedField
  else
  if fld w 7 4 = 2 then
    if fld w 6 1 = 0 then withCode (Order.ofCode (fld w 3 2)) fun o => withCode (Scope.ofCode (fld w 0 3)) fun s => legal (.amoAnd (Fin.ofNat 32 (fld w 21 5)) (Fin.ofNat 32 (fld w 16 5)) (Fin.ofNat 32 (fld w 11 5)) (fld w 5 1 == 1) o s) else
    .error .reservedField
  else
  if fld w 7 4 = 3 then
    if fld w 6 1 = 0 then withCode (Order.ofCode (fld w 3 2)) fun o => withCode (Scope.ofCode (fld w 0 3)) fun s => legal (.amoOr (Fin.ofNat 32 (fld w 21 5)) (Fin.ofNat 32 (fld w 16 5)) (Fin.ofNat 32 (fld w 11 5)) (fld w 5 1 == 1) o s) else
    .error .reservedField
  else
  if fld w 7 4 = 4 then
    if fld w 6 1 = 0 then withCode (Order.ofCode (fld w 3 2)) fun o => withCode (Scope.ofCode (fld w 0 3)) fun s => legal (.amoXor (Fin.ofNat 32 (fld w 21 5)) (Fin.ofNat 32 (fld w 16 5)) (Fin.ofNat 32 (fld w 11 5)) (fld w 5 1 == 1) o s) else
    .error .reservedField
  else
  if fld w 7 4 = 5 then
    if fld w 6 1 = 0 then withCode (Order.ofCode (fld w 3 2)) fun o => withCode (Scope.ofCode (fld w 0 3)) fun s => legal (.amoMin (Fin.ofNat 32 (fld w 21 5)) (Fin.ofNat 32 (fld w 16 5)) (Fin.ofNat 32 (fld w 11 5)) (fld w 5 1 == 1) o s) else
    .error .reservedField
  else
  if fld w 7 4 = 6 then
    if fld w 6 1 = 0 then withCode (Order.ofCode (fld w 3 2)) fun o => withCode (Scope.ofCode (fld w 0 3)) fun s => legal (.amoMax (Fin.ofNat 32 (fld w 21 5)) (Fin.ofNat 32 (fld w 16 5)) (Fin.ofNat 32 (fld w 11 5)) (fld w 5 1 == 1) o s) else
    .error .reservedField
  else
  if fld w 7 4 = 7 then
    if fld w 6 1 = 0 then withCode (Order.ofCode (fld w 3 2)) fun o => withCode (Scope.ofCode (fld w 0 3)) fun s => legal (.amoMinn (Fin.ofNat 32 (fld w 21 5)) (Fin.ofNat 32 (fld w 16 5)) (Fin.ofNat 32 (fld w 11 5)) (fld w 5 1 == 1) o s) else
    .error .reservedField
  else
  if fld w 7 4 = 8 then
    if fld w 6 1 = 0 then withCode (Order.ofCode (fld w 3 2)) fun o => withCode (Scope.ofCode (fld w 0 3)) fun s => legal (.amoMaxn (Fin.ofNat 32 (fld w 21 5)) (Fin.ofNat 32 (fld w 16 5)) (Fin.ofNat 32 (fld w 11 5)) (fld w 5 1 == 1) o s) else
    .error .reservedField
  else
  if fld w 7 4 = 9 then
    if fld w 6 1 = 0 then withCode (Order.ofCode (fld w 3 2)) fun o => withCode (Scope.ofCode (fld w 0 3)) fun s => legal (.cas (Fin.ofNat 32 (fld w 21 5)) (Fin.ofNat 32 (fld w 16 5)) (Fin.ofNat 32 (fld w 11 5)) (fld w 5 1 == 1) o s) else
    .error .reservedField
  else
  .error .unassigned

/-- The words of sequencer major 0x29: UPD_ADD_I32, UPD_ADD_I64, UPD_ADD_F32, UPD_ADD_BF16X2, UPD_MAX_I32, UPD_MIN_I32, UPD_MAX_N32, UPD_MIN_N32, UPD_MAX_F32, UPD_MIN_F32, UPD_OR, UPD_AND, UPD_XOR. -/
def decodeSq29 (w : Nat) : Except DecodeError Instr :=
  if fld w 7 4 = 1 then
    if fld w 21 5 = 0 ∧ fld w 3 4 = 0 then withCode (Scope.ofCode (fld w 0 3)) fun s => legal (.updAddI32 (Fin.ofNat 32 (fld w 16 5)) (Fin.ofNat 32 (fld w 11 5)) s) else
    .error .reservedField
  else
  if fld w 7 4 = 2 then
    if fld w 21 5 = 0 ∧ fld w 3 4 = 0 then withCode (Scope.ofCode (fld w 0 3)) fun s => legal (.updAddI64 (Fin.ofNat 32 (fld w 16 5)) (Fin.ofNat 32 (fld w 11 5)) s) else
    .error .reservedField
  else
  if fld w 7 4 = 3 then
    if fld w 21 5 = 0 ∧ fld w 3 4 = 0 then withCode (Scope.ofCode (fld w 0 3)) fun s => legal (.updAddF32 (Fin.ofNat 32 (fld w 16 5)) (Fin.ofNat 32 (fld w 11 5)) s) else
    .error .reservedField
  else
  if fld w 7 4 = 4 then
    if fld w 21 5 = 0 ∧ fld w 3 4 = 0 then withCode (Scope.ofCode (fld w 0 3)) fun s => legal (.updAddBf16x2 (Fin.ofNat 32 (fld w 16 5)) (Fin.ofNat 32 (fld w 11 5)) s) else
    .error .reservedField
  else
  if fld w 7 4 = 5 then
    if fld w 21 5 = 0 ∧ fld w 3 4 = 0 then withCode (Scope.ofCode (fld w 0 3)) fun s => legal (.updMaxI32 (Fin.ofNat 32 (fld w 16 5)) (Fin.ofNat 32 (fld w 11 5)) s) else
    .error .reservedField
  else
  if fld w 7 4 = 6 then
    if fld w 21 5 = 0 ∧ fld w 3 4 = 0 then withCode (Scope.ofCode (fld w 0 3)) fun s => legal (.updMinI32 (Fin.ofNat 32 (fld w 16 5)) (Fin.ofNat 32 (fld w 11 5)) s) else
    .error .reservedField
  else
  if fld w 7 4 = 7 then
    if fld w 21 5 = 0 ∧ fld w 3 4 = 0 then withCode (Scope.ofCode (fld w 0 3)) fun s => legal (.updMaxN32 (Fin.ofNat 32 (fld w 16 5)) (Fin.ofNat 32 (fld w 11 5)) s) else
    .error .reservedField
  else
  if fld w 7 4 = 8 then
    if fld w 21 5 = 0 ∧ fld w 3 4 = 0 then withCode (Scope.ofCode (fld w 0 3)) fun s => legal (.updMinN32 (Fin.ofNat 32 (fld w 16 5)) (Fin.ofNat 32 (fld w 11 5)) s) else
    .error .reservedField
  else
  if fld w 7 4 = 9 then
    if fld w 21 5 = 0 ∧ fld w 3 4 = 0 then withCode (Scope.ofCode (fld w 0 3)) fun s => legal (.updMaxF32 (Fin.ofNat 32 (fld w 16 5)) (Fin.ofNat 32 (fld w 11 5)) s) else
    .error .reservedField
  else
  if fld w 7 4 = 10 then
    if fld w 21 5 = 0 ∧ fld w 3 4 = 0 then withCode (Scope.ofCode (fld w 0 3)) fun s => legal (.updMinF32 (Fin.ofNat 32 (fld w 16 5)) (Fin.ofNat 32 (fld w 11 5)) s) else
    .error .reservedField
  else
  if fld w 7 4 = 11 then
    if fld w 21 5 = 0 ∧ fld w 3 4 = 0 then withCode (Scope.ofCode (fld w 0 3)) fun s => legal (.updOr (Fin.ofNat 32 (fld w 16 5)) (Fin.ofNat 32 (fld w 11 5)) s) else
    .error .reservedField
  else
  if fld w 7 4 = 12 then
    if fld w 21 5 = 0 ∧ fld w 3 4 = 0 then withCode (Scope.ofCode (fld w 0 3)) fun s => legal (.updAnd (Fin.ofNat 32 (fld w 16 5)) (Fin.ofNat 32 (fld w 11 5)) s) else
    .error .reservedField
  else
  if fld w 7 4 = 13 then
    if fld w 21 5 = 0 ∧ fld w 3 4 = 0 then withCode (Scope.ofCode (fld w 0 3)) fun s => legal (.updXor (Fin.ofNat 32 (fld w 16 5)) (Fin.ofNat 32 (fld w 11 5)) s) else
    .error .reservedField
  else
  .error .unassigned

/-- The words of sequencer major 0x2A: PHASE, FENCE. -/
def decodeSq2A (w : Nat) : Except DecodeError Instr :=
  if fld w 7 4 = 0 then
    if fld w 3 4 = 0 ∧ fld w 11 10 = 0 then withCode (Scope.ofCode (fld w 0 3)) fun s => legal (.phase (Fin.ofNat 32 (fld w 21 5)) s) else
    .error .reservedField
  else
  if fld w 7 4 = 1 then
    if fld w 3 4 = 0 ∧ fld w 11 15 = 0 then withCode (Scope.ofCode (fld w 0 3)) fun s => legal (.fence s) else
    .error .reservedField
  else
  .error .unassigned

/-- The words of sequencer major 0x2B: WAITA, PFH_L1, PFH_L2, RSD_KEEP, RSD_LOW, RSD_CLEAN. -/
def decodeSq2B (w : Nat) : Except DecodeError Instr :=
  if fld w 7 4 = 0 then
    if fld w 6 1 = 0 ∧ fld w 3 2 = 0 then withCode (Scope.ofCode (fld w 0 3)) fun s => legal (.waita (Fin.ofNat 32 (fld w 21 5)) (Fin.ofNat 32 (fld w 16 5)) (Fin.ofNat 32 (fld w 11 5)) (fld w 5 1 == 1) s) else
    .error .reservedField
  else
  if fld w 7 4 = 1 then
    if fld w 21 5 = 0 ∧ fld w 0 7 = 0 then legal (.pfhL1 (Fin.ofNat 32 (fld w 16 5)) (Fin.ofNat 32 (fld w 11 5))) else
    if fld w 21 5 = 0 ∧ fld w 0 7 = 1 then legal (.pfhL2 (Fin.ofNat 32 (fld w 16 5)) (Fin.ofNat 32 (fld w 11 5))) else
    .error .reservedField
  else
  if fld w 7 4 = 2 then
    if fld w 21 5 = 0 ∧ fld w 0 7 = 0 then legal (.rsdKeep (Fin.ofNat 32 (fld w 16 5)) (Fin.ofNat 32 (fld w 11 5))) else
    if fld w 21 5 = 0 ∧ fld w 0 7 = 1 then legal (.rsdLow (Fin.ofNat 32 (fld w 16 5)) (Fin.ofNat 32 (fld w 11 5))) else
    if fld w 21 5 = 0 ∧ fld w 0 7 = 2 then legal (.rsdClean (Fin.ofNat 32 (fld w 16 5)) (Fin.ofNat 32 (fld w 11 5))) else
    .error .reservedField
  else
  .error .unassigned

/-- The words of sequencer major 0x2C: BARINIT, BAREXP, BARARR, BARWAIT, BARTEST. -/
def decodeSq2C (w : Nat) : Except DecodeError Instr :=
  if fld w 7 4 = 0 then
    if fld w 21 5 = 0 ∧ fld w 3 4 = 0 then withCode (Scope.ofCode (fld w 0 3)) fun s => legal (.barinit (Fin.ofNat 32 (fld w 16 5)) (Fin.ofNat 32 (fld w 11 5)) s) else
    .error .reservedField
  else
  if fld w 7 4 = 1 then
    if fld w 21 5 = 0 ∧ fld w 3 4 = 0 then withCode (Scope.ofCode (fld w 0 3)) fun s => legal (.barexp (Fin.ofNat 32 (fld w 16 5)) (Fin.ofNat 32 (fld w 11 5)) s) else
    .error .reservedField
  else
  if fld w 7 4 = 2 then
    if fld w 3 4 = 0 then withCode (Scope.ofCode (fld w 0 3)) fun s => legal (.bararr (Fin.ofNat 32 (fld w 21 5)) (Fin.ofNat 32 (fld w 16 5)) (Fin.ofNat 32 (fld w 11 5)) s) else
    .error .reservedField
  else
  if fld w 7 4 = 3 then
    if fld w 3 4 = 0 then withCode (Scope.ofCode (fld w 0 3)) fun s => legal (.barwait (Fin.ofNat 32 (fld w 21 5)) (Fin.ofNat 32 (fld w 16 5)) (Fin.ofNat 32 (fld w 11 5)) s) else
    .error .reservedField
  else
  if fld w 7 4 = 4 then
    if fld w 3 4 = 0 then withCode (Scope.ofCode (fld w 0 3)) fun s => legal (.bartest (Fin.ofNat 32 (fld w 21 5)) (Fin.ofNat 32 (fld w 16 5)) (Fin.ofNat 32 (fld w 11 5)) s) else
    .error .reservedField
  else
  .error .unassigned

/-- The words of sequencer major 0x2D: ENQ, WAITQ, DQ. -/
def decodeSq2D (w : Nat) : Except DecodeError Instr :=
  if fld w 7 4 = 0 then
    if fld w 0 7 = 0 then legal (.enq (Fin.ofNat 32 (fld w 21 5)) (Fin.ofNat 32 (fld w 16 5)) (Fin.ofNat 32 (fld w 11 5))) else
    .error .reservedField
  else
  if fld w 7 4 = 1 then
    if fld w 0 7 = 0 ∧ fld w 11 5 = 0 then legal (.waitq (Fin.ofNat 32 (fld w 21 5)) (Fin.ofNat 32 (fld w 16 5))) else
    .error .reservedField
  else
  if fld w 7 4 = 2 then
    if fld w 0 7 = 0 then legal (.dq (Fin.ofNat 32 (fld w 21 5)) (Fin.ofNat 32 (fld w 16 5)) (Fin.ofNat 32 (fld w 11 5))) else
    .error .reservedField
  else
  .error .unassigned

/-- The words of sequencer major 0x30: TREE_NEW, TREE_CLOSE, TREE_KILL, SPAWN, PICK, DONE, JOIN, REPRIO, REPRIO_SUB, CANCEL_SOFT, CANCEL_HARD, TSTAT. -/
def decodeSq30 (w : Nat) : Except DecodeError Instr :=
  if fld w 7 4 = 0 then
    if fld w 0 7 = 0 ∧ fld w 11 5 = 0 then legal (.treeNew (Fin.ofNat 32 (fld w 21 5)) (Fin.ofNat 32 (fld w 16 5))) else
    if fld w 0 7 = 1 ∧ fld w 11 5 = 0 then legal (.treeClose (Fin.ofNat 32 (fld w 21 5)) (Fin.ofNat 32 (fld w 16 5))) else
    if fld w 0 7 = 2 ∧ fld w 11 5 = 0 then legal (.treeKill (Fin.ofNat 32 (fld w 21 5)) (Fin.ofNat 32 (fld w 16 5))) else
    .error .reservedField
  else
  if fld w 7 4 = 1 then
    if fld w 0 7 = 0 then legal (.spawn (Fin.ofNat 32 (fld w 21 5)) (Fin.ofNat 32 (fld w 16 5)) (Fin.ofNat 32 (fld w 11 5))) else
    .error .reservedField
  else
  if fld w 7 4 = 2 then
    if fld w 0 7 = 0 ∧ fld w 11 5 = 0 then legal (.pick (Fin.ofNat 32 (fld w 21 5)) (Fin.ofNat 32 (fld w 16 5))) else
    .error .reservedField
  else
  if fld w 7 4 = 3 then
    if fld w 21 5 = 0 ∧ fld w 0 7 = 0 ∧ fld w 11 5 = 0 then legal (.done (Fin.ofNat 32 (fld w 16 5))) else
    .error .reservedField
  else
  if fld w 7 4 = 4 then
    if fld w 21 5 = 0 ∧ fld w 0 7 = 0 then legal (.join (Fin.ofNat 32 (fld w 16 5)) (Fin.ofNat 32 (fld w 11 5))) else
    .error .reservedField
  else
  if fld w 7 4 = 5 then
    if fld w 0 7 = 0 then legal (.reprio (Fin.ofNat 32 (fld w 21 5)) (Fin.ofNat 32 (fld w 16 5)) (Fin.ofNat 32 (fld w 11 5))) else
    if fld w 0 7 = 64 then legal (.reprioSub (Fin.ofNat 32 (fld w 21 5)) (Fin.ofNat 32 (fld w 16 5)) (Fin.ofNat 32 (fld w 11 5))) else
    .error .reservedField
  else
  if fld w 7 4 = 6 then
    if fld w 0 7 = 0 ∧ fld w 11 5 = 0 then legal (.cancelSoft (Fin.ofNat 32 (fld w 21 5)) (Fin.ofNat 32 (fld w 16 5))) else
    .error .reservedField
  else
  if fld w 7 4 = 7 then
    if fld w 0 7 = 0 ∧ fld w 11 5 = 0 then legal (.cancelHard (Fin.ofNat 32 (fld w 21 5)) (Fin.ofNat 32 (fld w 16 5))) else
    .error .reservedField
  else
  if fld w 7 4 = 8 then
    if fld w 11 5 = 0 ∧ fld w 0 6 = 0 then legal (.tstat (Fin.ofNat 32 (fld w 21 5)) (Fin.ofNat 32 (fld w 16 5)) (fld w 6 1 == 1)) else
    .error .reservedField
  else
  .error .unassigned

/-- The words of sequencer major 0x31: NALLOC, NALLOC_FREE, NINIT, NRD, NVL, NBACK, NBACK_ALT, NSEL. -/
def decodeSq31 (w : Nat) : Except DecodeError Instr :=
  if fld w 7 4 = 0 then
    if fld w 0 7 = 0 then legal (.nalloc (Fin.ofNat 32 (fld w 21 5)) (Fin.ofNat 32 (fld w 16 5)) (Fin.ofNat 32 (fld w 11 5))) else
    if fld w 0 7 = 64 then legal (.nallocFree (Fin.ofNat 32 (fld w 21 5)) (Fin.ofNat 32 (fld w 16 5)) (Fin.ofNat 32 (fld w 11 5))) else
    .error .reservedField
  else
  if fld w 7 4 = 1 then
    if fld w 21 5 = 0 ∧ fld w 4 3 = 0 then legal (.ninit (Fin.ofNat 32 (fld w 16 5)) (Fin.ofNat 32 (fld w 11 5)) (BitVec.ofNat 4 (fld w 0 4))) else
    .error .reservedField
  else
  if fld w 7 4 = 2 then
    if fld w 2 5 = 0 ∧ fld w 11 5 = 0 then legal (.nrd (Fin.ofNat 32 (fld w 21 5)) (Fin.ofNat 32 (fld w 16 5)) (Fin.ofNat 4 (fld w 0 2))) else
    .error .reservedField
  else
  if fld w 7 4 = 3 then
    if fld w 21 5 = 0 ∧ fld w 0 7 = 0 then legal (.nvl (Fin.ofNat 32 (fld w 16 5)) (Fin.ofNat 32 (fld w 11 5))) else
    .error .reservedField
  else
  if fld w 7 4 = 4 then
    if fld w 21 5 = 0 ∧ fld w 0 7 = 0 then legal (.nback (Fin.ofNat 32 (fld w 16 5)) (Fin.ofNat 32 (fld w 11 5))) else
    .error .reservedField
  else
  if fld w 7 4 = 5 then
    if fld w 21 5 = 0 ∧ fld w 0 7 = 0 then legal (.nbackAlt (Fin.ofNat 32 (fld w 16 5)) (Fin.ofNat 32 (fld w 11 5))) else
    .error .reservedField
  else
  if fld w 7 4 = 6 then
    if fld w 0 7 = 0 ∧ fld w 11 5 = 0 then legal (.nsel (Fin.ofNat 32 (fld w 21 5)) (Fin.ofNat 32 (fld w 16 5))) else
    .error .reservedField
  else
  .error .unassigned

/-- The words of sequencer major 0x32: BCFG, BSUB, BCLOSE. -/
def decodeSq32 (w : Nat) : Except DecodeError Instr :=
  if fld w 7 4 = 0 then
    if fld w 0 7 = 0 then legal (.bcfg (Fin.ofNat 32 (fld w 21 5)) (Fin.ofNat 32 (fld w 16 5)) (Fin.ofNat 32 (fld w 11 5))) else
    .error .reservedField
  else
  if fld w 7 4 = 1 then
    if fld w 0 7 = 0 then legal (.bsub (Fin.ofNat 32 (fld w 21 5)) (Fin.ofNat 32 (fld w 16 5)) (Fin.ofNat 32 (fld w 11 5))) else
    .error .reservedField
  else
  if fld w 7 4 = 2 then
    if fld w 0 7 = 0 ∧ fld w 11 5 = 0 then legal (.bclose (Fin.ofNat 32 (fld w 21 5)) (Fin.ofNat 32 (fld w 16 5))) else
    .error .reservedField
  else
  .error .unassigned

/-- The words of sequencer major 0x34: ACONFIG, KTLOAD, KTLOAD_ST, KTLOCK, KTLOCK_UN, KAPPEND, AQUERY, AQUERY_LOOSE, KSPLICE, KREPAIR_SEL, KREPAIR_PUT, KRSTAT_SEQ, KRSTAT_SPAN, KRSTAT_DELTA, KRSTAT_POOL. -/
def decodeSq34 (w : Nat) : Except DecodeError Instr :=
  if fld w 7 4 = 0 then
    if fld w 0 7 = 0 then legal (.aconfig (Fin.ofNat 32 (fld w 21 5)) (Fin.ofNat 32 (fld w 16 5)) (Fin.ofNat 32 (fld w 11 5))) else
    .error .reservedField
  else
  if fld w 7 4 = 1 then
    if fld w 0 7 = 0 then legal (.ktload (Fin.ofNat 32 (fld w 21 5)) (Fin.ofNat 32 (fld w 16 5)) (Fin.ofNat 32 (fld w 11 5))) else
    if fld w 0 7 = 64 then legal (.ktloadSt (Fin.ofNat 32 (fld w 21 5)) (Fin.ofNat 32 (fld w 16 5)) (Fin.ofNat 32 (fld w 11 5))) else
    .error .reservedField
  else
  if fld w 7 4 = 2 then
    if fld w 0 7 = 0 ∧ fld w 11 5 = 0 then legal (.ktlock (Fin.ofNat 32 (fld w 21 5)) (Fin.ofNat 32 (fld w 16 5))) else
    if fld w 0 7 = 64 ∧ fld w 11 5 = 0 then legal (.ktlockUn (Fin.ofNat 32 (fld w 21 5)) (Fin.ofNat 32 (fld w 16 5))) else
    .error .reservedField
  else
  if fld w 7 4 = 3 then
    if fld w 0 7 = 0 ∧ fld w 11 5 = 0 then legal (.kappend (Fin.ofNat 32 (fld w 21 5)) (Fin.ofNat 32 (fld w 16 5))) else
    .error .reservedField
  else
  if fld w 7 4 = 4 then
    if fld w 21 5 = 0 ∧ fld w 0 7 = 0 ∧ fld w 11 5 = 0 then legal (.aquery (Fin.ofNat 32 (fld w 16 5))) else
    if fld w 21 5 = 0 ∧ fld w 0 7 = 64 ∧ fld w 11 5 = 0 then legal (.aqueryLoose (Fin.ofNat 32 (fld w 16 5))) else
    .error .reservedField
  else
  if fld w 7 4 = 5 then
    if fld w 0 7 = 0 then legal (.ksplice (Fin.ofNat 32 (fld w 21 5)) (Fin.ofNat 32 (fld w 16 5)) (Fin.ofNat 32 (fld w 11 5))) else
    .error .reservedField
  else
  if fld w 7 4 = 6 then
    if fld w 21 5 = 0 ∧ fld w 0 7 = 0 ∧ fld w 11 5 = 0 then legal (.krepairSel (Fin.ofNat 32 (fld w 16 5))) else
    if fld w 21 5 = 0 ∧ fld w 0 7 = 64 ∧ fld w 11 5 = 0 then legal (.krepairPut (Fin.ofNat 32 (fld w 16 5))) else
    .error .reservedField
  else
  if fld w 7 4 = 7 then
    if fld w 0 7 = 0 ∧ fld w 11 5 = 0 then legal (.krstatSeq (Fin.ofNat 32 (fld w 21 5)) (Fin.ofNat 32 (fld w 16 5))) else
    if fld w 0 7 = 1 then legal (.krstatSpan (Fin.ofNat 32 (fld w 21 5)) (Fin.ofNat 32 (fld w 16 5)) (Fin.ofNat 32 (fld w 11 5))) else
    if fld w 0 7 = 2 then legal (.krstatDelta (Fin.ofNat 32 (fld w 21 5)) (Fin.ofNat 32 (fld w 16 5)) (Fin.ofNat 32 (fld w 11 5))) else
    if fld w 0 7 = 3 ∧ fld w 11 5 = 0 then legal (.krstatPool (Fin.ofNat 32 (fld w 21 5)) (Fin.ofNat 32 (fld w 16 5))) else
    .error .reservedField
  else
  .error .unassigned

/-- The words of sequencer major 0x35: KALLOC, KFREE, KFREE_ENT, KFORK, KRECLAIM. -/
def decodeSq35 (w : Nat) : Except DecodeError Instr :=
  if fld w 7 4 = 0 then
    if fld w 0 7 = 0 then legal (.kalloc (Fin.ofNat 32 (fld w 21 5)) (Fin.ofNat 32 (fld w 16 5)) (Fin.ofNat 32 (fld w 11 5))) else
    .error .reservedField
  else
  if fld w 7 4 = 1 then
    if fld w 0 7 = 0 ∧ fld w 11 5 = 0 then legal (.kfree (Fin.ofNat 32 (fld w 21 5)) (Fin.ofNat 32 (fld w 16 5))) else
    if fld w 0 7 = 64 then legal (.kfreeEnt (Fin.ofNat 32 (fld w 21 5)) (Fin.ofNat 32 (fld w 16 5)) (Fin.ofNat 32 (fld w 11 5))) else
    .error .reservedField
  else
  if fld w 7 4 = 2 then
    if fld w 0 7 = 0 ∧ fld w 11 5 = 0 then legal (.kfork (Fin.ofNat 32 (fld w 21 5)) (Fin.ofNat 32 (fld w 16 5))) else
    .error .reservedField
  else
  if fld w 7 4 = 3 then
    if fld w 0 7 = 0 ∧ fld w 11 5 = 0 then legal (.kreclaim (Fin.ofNat 32 (fld w 21 5)) (Fin.ofNat 32 (fld w 16 5))) else
    .error .reservedField
  else
  .error .unassigned

/-- The words of sequencer major 0x38: CSRR, CSRW, CSRS, CSRC. -/
def decodeSq38 (w : Nat) : Except DecodeError Instr :=
  if fld w 14 2 = 0 then
    if fld w 12 2 = 0 ∧ fld w 16 5 = 0 then legal (.csrr (Fin.ofNat 32 (fld w 21 5)) (BitVec.ofNat 12 (fld w 0 12))) else
    .error .reservedField
  else
  if fld w 14 2 = 1 then
    if fld w 12 2 = 0 then legal (.csrw (Fin.ofNat 32 (fld w 21 5)) (Fin.ofNat 32 (fld w 16 5)) (BitVec.ofNat 12 (fld w 0 12))) else
    .error .reservedField
  else
  if fld w 14 2 = 2 then
    if fld w 12 2 = 0 then legal (.csrs (Fin.ofNat 32 (fld w 21 5)) (Fin.ofNat 32 (fld w 16 5)) (BitVec.ofNat 12 (fld w 0 12))) else
    .error .reservedField
  else
  if fld w 14 2 = 3 then
    if fld w 12 2 = 0 then legal (.csrc (Fin.ofNat 32 (fld w 21 5)) (Fin.ofNat 32 (fld w 16 5)) (BitVec.ofNat 12 (fld w 0 12))) else
    .error .reservedField
  else
  .error .unassigned

/-- A word of the sequencer section (R34, R35): its major opcode selects the row. -/
def decodeSq (w : Nat) : Except DecodeError Instr :=
  match fld w 26 6 with
  | 0 => decodeSq00 w
  | 1 => decodeSq01 w
  | 2 => decodeSq02 w
  | 3 => decodeSq03 w
  | 4 => decodeSq04 w
  | 5 => decodeSq05 w
  | 6 => decodeSq06 w
  | 7 => decodeSq07 w
  | 8 => decodeSq08 w
  | 9 => decodeSq09 w
  | 10 => decodeSq0A w
  | 11 => decodeSq0B w
  | 12 => decodeSq0C w
  | 13 => decodeSq0D w
  | 14 => decodeSq0E w
  | 16 => decodeSq10 w
  | 17 => decodeSq11 w
  | 18 => decodeSq12 w
  | 19 => decodeSq13 w
  | 20 => decodeSq14 w
  | 21 => decodeSq15 w
  | 22 => decodeSq16 w
  | 24 => decodeSq18 w
  | 25 => decodeSq19 w
  | 26 => decodeSq1A w
  | 27 => decodeSq1B w
  | 28 => decodeSq1C w
  | 29 => decodeSq1D w
  | 30 => decodeSq1E w
  | 31 => decodeSq1F w
  | 32 => decodeSq20 w
  | 33 => decodeSq21 w
  | 34 => decodeSq22 w
  | 35 => decodeSq23 w
  | 36 => decodeSq24 w
  | 37 => decodeSq25 w
  | 38 => decodeSq26 w
  | 39 => decodeSq27 w
  | 40 => decodeSq28 w
  | 41 => decodeSq29 w
  | 42 => decodeSq2A w
  | 43 => decodeSq2B w
  | 44 => decodeSq2C w
  | 45 => decodeSq2D w
  | 48 => decodeSq30 w
  | 49 => decodeSq31 w
  | 50 => decodeSq32 w
  | 52 => decodeSq34 w
  | 53 => decodeSq35 w
  | 56 => decodeSq38 w
  | 63 => .error .neverAssigned
  | _ => .error .reservedMajor

/-- The words of vector major 0x01: VADD, VSUB, VMUL, VMULH, VMIN, VMAX, VAND, VOR, VXOR, VSHL, VSHR, VSAR, VABS, VNEG, VSEL. -/
def decodeVec01 (w : Nat) : Except DecodeError Instr :=
  if fld w 3 5 = 0 then
    if fld w 0 1 = 0 then legal (.vadd (Fin.ofNat 32 (fld w 21 5)) (Fin.ofNat 32 (fld w 16 5)) (Fin.ofNat 32 (fld w 11 5)) (Fin.ofNat 8 (fld w 8 3)) (fld w 2 1 == 1) (fld w 1 1 == 1)) else
    .error .reservedField
  else
  if fld w 3 5 = 1 then
    if fld w 0 1 = 0 then legal (.vsub (Fin.ofNat 32 (fld w 21 5)) (Fin.ofNat 32 (fld w 16 5)) (Fin.ofNat 32 (fld w 11 5)) (Fin.ofNat 8 (fld w 8 3)) (fld w 2 1 == 1) (fld w 1 1 == 1)) else
    .error .reservedField
  else
  if fld w 3 5 = 2 then
    if fld w 0 1 = 0 then legal (.vmul (Fin.ofNat 32 (fld w 21 5)) (Fin.ofNat 32 (fld w 16 5)) (Fin.ofNat 32 (fld w 11 5)) (Fin.ofNat 8 (fld w 8 3)) (fld w 2 1 == 1) (fld w 1 1 == 1)) else
    .error .reservedField
  else
  if fld w 3 5 = 3 then
    if fld w 0 2 = 0 then legal (.vmulh (Fin.ofNat 32 (fld w 21 5)) (Fin.ofNat 32 (fld w 16 5)) (Fin.ofNat 32 (fld w 11 5)) (Fin.ofNat 8 (fld w 8 3)) (fld w 2 1 == 1)) else
    .error .reservedField
  else
  if fld w 3 5 = 4 then
    if fld w 0 2 = 0 then legal (.vmin (Fin.ofNat 32 (fld w 21 5)) (Fin.ofNat 32 (fld w 16 5)) (Fin.ofNat 32 (fld w 11 5)) (Fin.ofNat 8 (fld w 8 3)) (fld w 2 1 == 1)) else
    .error .reservedField
  else
  if fld w 3 5 = 5 then
    if fld w 0 2 = 0 then legal (.vmax (Fin.ofNat 32 (fld w 21 5)) (Fin.ofNat 32 (fld w 16 5)) (Fin.ofNat 32 (fld w 11 5)) (Fin.ofNat 8 (fld w 8 3)) (fld w 2 1 == 1)) else
    .error .reservedField
  else
  if fld w 3 5 = 6 then
    if fld w 0 3 = 0 then legal (.vand (Fin.ofNat 32 (fld w 21 5)) (Fin.ofNat 32 (fld w 16 5)) (Fin.ofNat 32 (fld w 11 5)) (Fin.ofNat 8 (fld w 8 3))) else
    .error .reservedField
  else
  if fld w 3 5 = 7 then
    if fld w 0 3 = 0 then legal (.vor (Fin.ofNat 32 (fld w 21 5)) (Fin.ofNat 32 (fld w 16 5)) (Fin.ofNat 32 (fld w 11 5)) (Fin.ofNat 8 (fld w 8 3))) else
    .error .reservedField
  else
  if fld w 3 5 = 8 then
    if fld w 0 3 = 0 then legal (.vxor (Fin.ofNat 32 (fld w 21 5)) (Fin.ofNat 32 (fld w 16 5)) (Fin.ofNat 32 (fld w 11 5)) (Fin.ofNat 8 (fld w 8 3))) else
    .error .reservedField
  else
  if fld w 3 5 = 9 then
    if fld w 0 1 = 0 then legal (.vshl (Fin.ofNat 32 (fld w 21 5)) (Fin.ofNat 32 (fld w 16 5)) (Fin.ofNat 32 (fld w 11 5)) (Fin.ofNat 8 (fld w 8 3)) (fld w 2 1 == 1) (fld w 1 1 == 1)) else
    .error .reservedField
  else
  if fld w 3 5 = 10 then
    if fld w 0 3 = 0 then legal (.vshr (Fin.ofNat 32 (fld w 21 5)) (Fin.ofNat 32 (fld w 16 5)) (Fin.ofNat 32 (fld w 11 5)) (Fin.ofNat 8 (fld w 8 3))) else
    .error .reservedField
  else
  if fld w 3 5 = 11 then
    if fld w 0 3 = 0 then legal (.vsar (Fin.ofNat 32 (fld w 21 5)) (Fin.ofNat 32 (fld w 16 5)) (Fin.ofNat 32 (fld w 11 5)) (Fin.ofNat 8 (fld w 8 3))) else
    .error .reservedField
  else
  if fld w 3 5 = 12 then
    if fld w 11 5 = 0 ∧ fld w 2 1 = 0 ∧ fld w 0 1 = 0 then legal (.vabs (Fin.ofNat 32 (fld w 21 5)) (Fin.ofNat 32 (fld w 16 5)) (Fin.ofNat 8 (fld w 8 3)) (fld w 1 1 == 1)) else
    .error .reservedField
  else
  if fld w 3 5 = 13 then
    if fld w 11 5 = 0 ∧ fld w 2 1 = 0 ∧ fld w 0 1 = 0 then legal (.vneg (Fin.ofNat 32 (fld w 21 5)) (Fin.ofNat 32 (fld w 16 5)) (Fin.ofNat 8 (fld w 8 3)) (fld w 1 1 == 1)) else
    .error .reservedField
  else
  if fld w 3 5 = 14 then
    if fld w 0 3 = 0 then legal (.vsel (Fin.ofNat 32 (fld w 21 5)) (Fin.ofNat 32 (fld w 16 5)) (Fin.ofNat 32 (fld w 11 5)) (Fin.ofNat 8 (fld w 8 3))) else
    .error .reservedField
  else
  .error .unassigned

/-- The words of vector major 0x02: VFADD, VFSUB, VFMUL, VFDIV, VFMA, VFSQRT, VFMIN, VFMAX, VFEXP2, VFRCP. -/
def decodeVec02 (w : Nat) : Except DecodeError Instr :=
  if fld w 3 5 = 0 then
    withCode (Rnd.ofCode (fld w 0 3)) fun r => legal (.vfadd (Fin.ofNat 32 (fld w 21 5)) (Fin.ofNat 32 (fld w 16 5)) (Fin.ofNat 32 (fld w 11 5)) (Fin.ofNat 8 (fld w 8 3)) r)
  else
  if fld w 3 5 = 1 then
    withCode (Rnd.ofCode (fld w 0 3)) fun r => legal (.vfsub (Fin.ofNat 32 (fld w 21 5)) (Fin.ofNat 32 (fld w 16 5)) (Fin.ofNat 32 (fld w 11 5)) (Fin.ofNat 8 (fld w 8 3)) r)
  else
  if fld w 3 5 = 2 then
    withCode (Rnd.ofCode (fld w 0 3)) fun r => legal (.vfmul (Fin.ofNat 32 (fld w 21 5)) (Fin.ofNat 32 (fld w 16 5)) (Fin.ofNat 32 (fld w 11 5)) (Fin.ofNat 8 (fld w 8 3)) r)
  else
  if fld w 3 5 = 3 then
    withCode (Rnd.ofCode (fld w 0 3)) fun r => legal (.vfdiv (Fin.ofNat 32 (fld w 21 5)) (Fin.ofNat 32 (fld w 16 5)) (Fin.ofNat 32 (fld w 11 5)) (Fin.ofNat 8 (fld w 8 3)) r)
  else
  if fld w 3 5 = 4 then
    withCode (Rnd.ofCode (fld w 0 3)) fun r => legal (.vfma (Fin.ofNat 32 (fld w 21 5)) (Fin.ofNat 32 (fld w 16 5)) (Fin.ofNat 32 (fld w 11 5)) (Fin.ofNat 8 (fld w 8 3)) r)
  else
  if fld w 3 5 = 5 then
    if fld w 11 5 = 0 then withCode (Rnd.ofCode (fld w 0 3)) fun r => legal (.vfsqrt (Fin.ofNat 32 (fld w 21 5)) (Fin.ofNat 32 (fld w 16 5)) (Fin.ofNat 8 (fld w 8 3)) r) else
    .error .reservedField
  else
  if fld w 3 5 = 6 then
    if fld w 0 3 = 0 then legal (.vfmin (Fin.ofNat 32 (fld w 21 5)) (Fin.ofNat 32 (fld w 16 5)) (Fin.ofNat 32 (fld w 11 5)) (Fin.ofNat 8 (fld w 8 3))) else
    .error .reservedField
  else
  if fld w 3 5 = 7 then
    if fld w 0 3 = 0 then legal (.vfmax (Fin.ofNat 32 (fld w 21 5)) (Fin.ofNat 32 (fld w 16 5)) (Fin.ofNat 32 (fld w 11 5)) (Fin.ofNat 8 (fld w 8 3))) else
    .error .reservedField
  else
  if fld w 3 5 = 8 then
    if fld w 11 5 = 0 ∧ fld w 0 3 = 0 then legal (.vfexp2 (Fin.ofNat 32 (fld w 21 5)) (Fin.ofNat 32 (fld w 16 5)) (Fin.ofNat 8 (fld w 8 3))) else
    .error .reservedField
  else
  if fld w 3 5 = 9 then
    if fld w 11 5 = 0 then withCode (Rnd.ofCode (fld w 0 3)) fun r => legal (.vfrcp (Fin.ofNat 32 (fld w 21 5)) (Fin.ofNat 32 (fld w 16 5)) (Fin.ofNat 8 (fld w 8 3)) r) else
    .error .reservedField
  else
  .error .unassigned

/-- The words of vector major 0x03: VCMP, MAND, MOR, MNOT, MPOPC, MFIRST. -/
def decodeVec03 (w : Nat) : Except DecodeError Instr :=
  if fld w 5 3 = 0 then
    if fld w 24 2 = 0 ∧ fld w 8 3 = 0 then withCode (Pred.ofCode (fld w 0 3)) fun p => legal (.vcmp (Fin.ofNat 8 (fld w 21 3)) (Fin.ofNat 32 (fld w 16 5)) (Fin.ofNat 32 (fld w 11 5)) (fld w 4 1 == 1) (fld w 3 1 == 1) p) else
    .error .reservedField
  else
  if fld w 5 3 = 1 then
    if fld w 24 2 = 0 ∧ fld w 19 2 = 0 ∧ fld w 14 2 = 0 ∧ fld w 0 5 = 0 ∧ fld w 8 3 = 0 then legal (.mand (Fin.ofNat 8 (fld w 21 3)) (Fin.ofNat 8 (fld w 16 3)) (Fin.ofNat 8 (fld w 11 3))) else
    .error .reservedField
  else
  if fld w 5 3 = 2 then
    if fld w 24 2 = 0 ∧ fld w 19 2 = 0 ∧ fld w 14 2 = 0 ∧ fld w 0 5 = 0 ∧ fld w 8 3 = 0 then legal (.mor (Fin.ofNat 8 (fld w 21 3)) (Fin.ofNat 8 (fld w 16 3)) (Fin.ofNat 8 (fld w 11 3))) else
    .error .reservedField
  else
  if fld w 5 3 = 3 then
    if fld w 24 2 = 0 ∧ fld w 19 2 = 0 ∧ fld w 0 5 = 0 ∧ fld w 8 8 = 0 then legal (.mnot (Fin.ofNat 8 (fld w 21 3)) (Fin.ofNat 8 (fld w 16 3))) else
    .error .reservedField
  else
  if fld w 5 3 = 4 then
    if fld w 23 3 = 0 ∧ fld w 19 2 = 0 ∧ fld w 0 5 = 0 ∧ fld w 8 8 = 0 then legal (.mpopc (Fin.ofNat 4 (fld w 21 2)) (Fin.ofNat 8 (fld w 16 3))) else
    .error .reservedField
  else
  if fld w 5 3 = 5 then
    if fld w 23 3 = 0 ∧ fld w 19 2 = 0 ∧ fld w 0 5 = 0 ∧ fld w 8 8 = 0 then legal (.mfirst (Fin.ofNat 4 (fld w 21 2)) (Fin.ofNat 8 (fld w 16 3))) else
    .error .reservedField
  else
  .error .unassigned

/-- The words of vector major 0x04: VCVT, VQENC, VQDEC, VUNPK3, VTACC. -/
def decodeVec04 (w : Nat) : Except DecodeError Instr :=
  if fld w 5 3 = 0 then
    if fld w 15 1 = 0 ∧ fld w 4 1 = 0 then withCode (Ty.ofCode (fld w 11 4)) fun s => withCode (Ty.ofCode (fld w 0 4)) fun t => legal (.vcvt (Fin.ofNat 32 (fld w 21 5)) (Fin.ofNat 32 (fld w 16 5)) s (Fin.ofNat 8 (fld w 8 3)) t) else
    .error .reservedField
  else
  if fld w 5 3 = 1 then
    if fld w 0 5 = 0 ∧ fld w 8 8 = 0 then legal (.vqenc (Fin.ofNat 32 (fld w 21 5)) (Fin.ofNat 32 (fld w 16 5))) else
    .error .reservedField
  else
  if fld w 5 3 = 2 then
    if fld w 0 5 = 0 ∧ fld w 8 8 = 0 then legal (.vqdec (Fin.ofNat 32 (fld w 21 5)) (Fin.ofNat 32 (fld w 16 5))) else
    .error .reservedField
  else
  if fld w 5 3 = 3 then
    if fld w 11 5 = 0 ∧ fld w 0 5 = 0 then legal (.vunpk3 (Fin.ofNat 32 (fld w 21 5)) (Fin.ofNat 32 (fld w 16 5)) (Fin.ofNat 8 (fld w 8 3))) else
    .error .reservedField
  else
  if fld w 5 3 = 4 then
    legal (.vtacc (Fin.ofNat 32 (fld w 21 5)) (Fin.ofNat 32 (fld w 16 5)) (Fin.ofNat 32 (fld w 11 5)) (Fin.ofNat 8 (fld w 8 3)) (Fin.ofNat 32 (fld w 0 5)))
  else
  .error .unassigned

/-- The words of vector major 0x05: VPERM, VSLIDE, VBCAST, VIOTA. -/
def decodeVec05 (w : Nat) : Except DecodeError Instr :=
  if fld w 6 2 = 0 then
    if fld w 0 6 = 0 then legal (.vperm (Fin.ofNat 32 (fld w 21 5)) (Fin.ofNat 32 (fld w 16 5)) (Fin.ofNat 32 (fld w 11 5)) (Fin.ofNat 8 (fld w 8 3))) else
    .error .reservedField
  else
  if fld w 6 2 = 1 then
    legal (.vslide (Fin.ofNat 32 (fld w 21 5)) (Fin.ofNat 32 (fld w 16 5)) (Fin.ofNat 32 (fld w 11 5)) (Fin.ofNat 8 (fld w 8 3)) (Fin.ofNat 64 (fld w 0 6)))
  else
  if fld w 6 2 = 2 then
    if fld w 11 5 = 0 then legal (.vbcast (Fin.ofNat 32 (fld w 21 5)) (Fin.ofNat 32 (fld w 16 5)) (Fin.ofNat 8 (fld w 8 3)) (Fin.ofNat 64 (fld w 0 6))) else
    .error .reservedField
  else
  if fld w 6 2 = 3 then
    if fld w 11 10 = 0 then legal (.viota (Fin.ofNat 32 (fld w 21 5)) (Fin.ofNat 8 (fld w 8 3)) (Fin.ofNat 64 (fld w 0 6))) else
    .error .reservedField
  else
  .error .unassigned

/-- The words of vector major 0x06: VRSUM, VRFSUM, VRMIN, VRMAX. -/
def decodeVec06 (w : Nat) : Except DecodeError Instr :=
  if fld w 6 2 = 0 then
    if fld w 23 3 = 0 ∧ fld w 11 5 = 0 ∧ fld w 5 1 = 0 ∧ fld w 0 4 = 0 then legal (.vrsum (Fin.ofNat 4 (fld w 21 2)) (Fin.ofNat 32 (fld w 16 5)) (Fin.ofNat 8 (fld w 8 3)) (fld w 4 1 == 1)) else
    .error .reservedField
  else
  if fld w 6 2 = 1 then
    if fld w 23 3 = 0 ∧ fld w 11 5 = 0 ∧ fld w 0 6 = 0 then legal (.vrfsum (Fin.ofNat 4 (fld w 21 2)) (Fin.ofNat 32 (fld w 16 5)) (Fin.ofNat 8 (fld w 8 3))) else
    .error .reservedField
  else
  if fld w 6 2 = 2 then
    if fld w 23 3 = 0 ∧ fld w 11 5 = 0 ∧ fld w 0 3 = 0 then legal (.vrmin (Fin.ofNat 4 (fld w 21 2)) (Fin.ofNat 32 (fld w 16 5)) (Fin.ofNat 8 (fld w 8 3)) (fld w 5 1 == 1) (fld w 4 1 == 1) (fld w 3 1 == 1)) else
    .error .reservedField
  else
  if fld w 6 2 = 3 then
    if fld w 23 3 = 0 ∧ fld w 11 5 = 0 ∧ fld w 0 3 = 0 then legal (.vrmax (Fin.ofNat 4 (fld w 21 2)) (Fin.ofNat 32 (fld w 16 5)) (Fin.ofNat 8 (fld w 8 3)) (fld w 5 1 == 1) (fld w 4 1 == 1) (fld w 3 1 == 1)) else
    .error .reservedField
  else
  .error .unassigned

/-- The words of vector major 0x07: VLD, VST, VLDS, VSTS, VGATH, VSCAT. -/
def decodeVec07 (w : Nat) : Except DecodeError Instr :=
  if fld w 5 3 = 0 then
    if fld w 15 6 = 0 then legal (.vld (Fin.ofNat 32 (fld w 21 5)) (Fin.ofNat 16 (fld w 11 4)) (Fin.ofNat 8 (fld w 8 3)) (BitVec.ofNat 5 (fld w 0 5))) else
    .error .reservedField
  else
  if fld w 5 3 = 1 then
    if fld w 15 6 = 0 then legal (.vst (Fin.ofNat 32 (fld w 21 5)) (Fin.ofNat 16 (fld w 11 4)) (Fin.ofNat 8 (fld w 8 3)) (BitVec.ofNat 5 (fld w 0 5))) else
    .error .reservedField
  else
  if fld w 5 3 = 2 then
    if fld w 20 1 = 0 ∧ fld w 15 1 = 0 then legal (.vlds (Fin.ofNat 32 (fld w 21 5)) (Fin.ofNat 16 (fld w 16 4)) (Fin.ofNat 16 (fld w 11 4)) (Fin.ofNat 8 (fld w 8 3)) (BitVec.ofNat 5 (fld w 0 5))) else
    .error .reservedField
  else
  if fld w 5 3 = 3 then
    if fld w 20 1 = 0 ∧ fld w 15 1 = 0 then legal (.vsts (Fin.ofNat 32 (fld w 21 5)) (Fin.ofNat 16 (fld w 16 4)) (Fin.ofNat 16 (fld w 11 4)) (Fin.ofNat 8 (fld w 8 3)) (BitVec.ofNat 5 (fld w 0 5))) else
    .error .reservedField
  else
  if fld w 5 3 = 4 then
    if fld w 15 1 = 0 then legal (.vgath (Fin.ofNat 32 (fld w 21 5)) (Fin.ofNat 32 (fld w 16 5)) (Fin.ofNat 16 (fld w 11 4)) (Fin.ofNat 8 (fld w 8 3)) (BitVec.ofNat 5 (fld w 0 5))) else
    .error .reservedField
  else
  if fld w 5 3 = 5 then
    if fld w 15 1 = 0 then legal (.vscat (Fin.ofNat 32 (fld w 21 5)) (Fin.ofNat 32 (fld w 16 5)) (Fin.ofNat 16 (fld w 11 4)) (Fin.ofNat 8 (fld w 8 3)) (BitVec.ofNat 5 (fld w 0 5))) else
    .error .reservedField
  else
  .error .unassigned

/-- The words of vector major 0x08: VPUSHC, VPOPF, VSTAT. -/
def decodeVec08 (w : Nat) : Except DecodeError Instr :=
  if fld w 6 2 = 0 then
    if fld w 21 5 = 0 ∧ fld w 11 5 = 0 ∧ fld w 3 3 = 0 then legal (.vpushc (Fin.ofNat 32 (fld w 16 5)) (Fin.ofNat 8 (fld w 8 3)) (Fin.ofNat 8 (fld w 0 3))) else
    .error .reservedField
  else
  if fld w 6 2 = 1 then
    if fld w 3 3 = 0 ∧ fld w 8 8 = 0 then legal (.vpopf (Fin.ofNat 32 (fld w 21 5)) (Fin.ofNat 32 (fld w 16 5)) (Fin.ofNat 8 (fld w 0 3))) else
    .error .reservedField
  else
  if fld w 6 2 = 2 then
    if fld w 23 3 = 0 ∧ fld w 17 4 = 0 ∧ fld w 3 3 = 0 ∧ fld w 8 8 = 0 then legal (.vstat (Fin.ofNat 4 (fld w 21 2)) (fld w 16 1 == 1) (Fin.ofNat 8 (fld w 0 3))) else
    .error .reservedField
  else
  .error .unassigned

/-- The words of vector major 0x09: VLKUP. -/
def decodeVec09 (w : Nat) : Except DecodeError Instr :=
  if fld w 4 4 = 0 then legal (.vlkup (Fin.ofNat 32 (fld w 21 5)) (Fin.ofNat 32 (fld w 16 5)) (Fin.ofNat 32 (fld w 11 5)) (Fin.ofNat 8 (fld w 8 3)) (Fin.ofNat 16 (fld w 0 4))) else
  .error .reservedField

/-- The words of vector major 0x0A: VRAND, VRSEED, VRSKIP. -/
def decodeVec0A (w : Nat) : Except DecodeError Instr :=
  if fld w 6 2 = 0 then
    if fld w 11 10 = 0 ∧ fld w 2 4 = 0 then legal (.vrand (Fin.ofNat 32 (fld w 21 5)) (Fin.ofNat 8 (fld w 8 3)) (Fin.ofNat 4 (fld w 0 2))) else
    .error .reservedField
  else
  if fld w 6 2 = 1 then
    if fld w 2 4 = 0 ∧ fld w 8 8 = 0 then legal (.vrseed (Fin.ofNat 32 (fld w 21 5)) (Fin.ofNat 32 (fld w 16 5)) (Fin.ofNat 4 (fld w 0 2))) else
    .error .reservedField
  else
  if fld w 6 2 = 2 then
    if fld w 21 5 = 0 ∧ fld w 2 4 = 0 ∧ fld w 8 8 = 0 then legal (.vrskip (Fin.ofNat 32 (fld w 16 5)) (Fin.ofNat 4 (fld w 0 2))) else
    .error .reservedField
  else
  .error .unassigned

/-- The words of vector major 0x0B: VSHAPE. -/
def decodeVec0B (w : Nat) : Except DecodeError Instr :=
  if fld w 21 5 = 0 ∧ fld w 2 9 = 0 then withCode (EW.ofCode (fld w 0 2)) fun e => legal (.vshape (Fin.ofNat 1024 (fld w 11 10)) e) else
  .error .reservedField

/-- The words of vector major 0x3E: VEND. -/
def decodeVec3E (w : Nat) : Except DecodeError Instr :=
  if fld w 0 26 = 0 then legal .vend else
  .error .reservedField

/-- A word of the vector section (R38): its major opcode selects the row. -/
def decodeVec (w : Nat) : Except DecodeError Instr :=
  match fld w 26 6 with
  | 1 => decodeVec01 w
  | 2 => decodeVec02 w
  | 3 => decodeVec03 w
  | 4 => decodeVec04 w
  | 5 => decodeVec05 w
  | 6 => decodeVec06 w
  | 7 => decodeVec07 w
  | 8 => decodeVec08 w
  | 9 => decodeVec09 w
  | 10 => decodeVec0A w
  | 11 => decodeVec0B w
  | 62 => decodeVec3E w
  | 63 => .error .neverAssigned
  | _ => .error .reservedMajor

/-- The words of matrix major 0x01: MWLD. -/
noncomputable def decodeMx01 (w : Nat) : Except DecodeError Instr :=
  if fld w 0 13 = 0 then withCode (Ty.ofCode (fld w 14 4)) fun t => legal (.mwld (Tok.ofCode (fld w 23 4)) (Fin.ofNat 32 (fld w 18 5)) t (fld w 13 1 == 1)) else
  .error .reservedField

/-- The words of matrix major 0x02: MSWAP. -/
noncomputable def decodeMx02 (w : Nat) : Except DecodeError Instr :=
  if fld w 0 23 = 0 then legal (.mswap (Tok.ofCode (fld w 23 4))) else
  .error .reservedField

/-- The words of matrix major 0x03: MSTRM. -/
noncomputable def decodeMx03 (w : Nat) : Except DecodeError Instr :=
  if fld w 0 14 = 0 then withCode (Ty.ofCode (fld w 14 4)) fun t => legal (.mstrm (Tok.ofCode (fld w 23 4)) (Fin.ofNat 32 (fld w 18 5)) t) else
  .error .reservedField

/-- The words of matrix major 0x04: MMAC. -/
noncomputable def decodeMx04 (w : Nat) : Except DecodeError Instr :=
  if fld w 0 5 = 0 then legal (.mmac (Tok.ofCode (fld w 23 4)) (Fin.ofNat 4 (fld w 21 2)) (Fin.ofNat 64 (fld w 15 6)) (Fin.ofNat 64 (fld w 9 6)) (Fin.ofNat 16 (fld w 5 4))) else
  .error .reservedField

/-- The words of matrix major 0x05: MZERO. -/
noncomputable def decodeMx05 (w : Nat) : Except DecodeError Instr :=
  if fld w 0 8 = 0 then legal (.mzero (Tok.ofCode (fld w 23 4)) (Fin.ofNat 4 (fld w 21 2)) (Fin.ofNat 64 (fld w 15 6)) (Fin.ofNat 64 (fld w 9 6)) (fld w 8 1 == 1)) else
  .error .reservedField

/-- The words of matrix major 0x06: MDRAIN_MEM, MDRAIN_ACC, MDRAIN_STR. -/
noncomputable def decodeMx06 (w : Nat) : Except DecodeError Instr :=
  if fld w 3 2 = 0 then withCode (Ty.ofCode (fld w 5 4)) fun o => legal (.mdrainMem (Tok.ofCode (fld w 23 4)) (Fin.ofNat 4 (fld w 21 2)) (Fin.ofNat 64 (fld w 15 6)) (Fin.ofNat 64 (fld w 9 6)) o (fld w 2 1 == 1) (Fin.ofNat 4 (fld w 0 2))) else
  if fld w 3 2 = 1 then withCode (Ty.ofCode (fld w 5 4)) fun o => legal (.mdrainAcc (Tok.ofCode (fld w 23 4)) (Fin.ofNat 4 (fld w 21 2)) (Fin.ofNat 64 (fld w 15 6)) (Fin.ofNat 64 (fld w 9 6)) o (fld w 2 1 == 1) (Fin.ofNat 4 (fld w 0 2))) else
  if fld w 3 2 = 2 then withCode (Ty.ofCode (fld w 5 4)) fun o => legal (.mdrainStr (Tok.ofCode (fld w 23 4)) (Fin.ofNat 4 (fld w 21 2)) (Fin.ofNat 64 (fld w 15 6)) (Fin.ofNat 64 (fld w 9 6)) o (fld w 2 1 == 1) (Fin.ofNat 4 (fld w 0 2))) else
  .error .reservedField

/-- The words of matrix major 0x07: MLOOP, MLOOP_REG. -/
noncomputable def decodeMx07 (w : Nat) : Except DecodeError Instr :=
  if fld w 22 1 = 0 then legal (.mloop (Tok.ofCode (fld w 23 4)) (Fin.ofNat 4096 (fld w 10 12)) (Fin.ofNat 1024 (fld w 0 10))) else
  if fld w 22 1 = 1 ∧ fld w 10 8 = 0 then legal (.mloopReg (Tok.ofCode (fld w 23 4)) (Fin.ofNat 16 (fld w 18 4)) (Fin.ofNat 1024 (fld w 0 10))) else
  .error .reservedField

/-- The words of matrix major 0x08: MWAITB. -/
noncomputable def decodeMx08 (w : Nat) : Except DecodeError Instr :=
  if fld w 0 18 = 0 then legal (.mwaitb (Tok.ofCode (fld w 23 4)) (Fin.ofNat 16 (fld w 19 4)) (fld w 18 1 == 1)) else
  .error .reservedField

/-- The words of matrix major 0x1E: MEND. -/
noncomputable def decodeMx1E (w : Nat) : Except DecodeError Instr :=
  if fld w 0 23 = 0 then legal (.mend (Tok.ofCode (fld w 23 4))) else
  .error .reservedField

/-- A word of the matrix section (R39, R40): its major opcode selects the row. -/
noncomputable def decodeMx (w : Nat) : Except DecodeError Instr :=
  match fld w 27 5 with
  | 1 => decodeMx01 w
  | 2 => decodeMx02 w
  | 3 => decodeMx03 w
  | 4 => decodeMx04 w
  | 5 => decodeMx05 w
  | 6 => decodeMx06 w
  | 7 => decodeMx07 w
  | 8 => decodeMx08 w
  | 30 => decodeMx1E w
  | 31 => .error .neverAssigned
  | _ => .error .reservedMajor

/-- The words of transfer major 0x01: XCOPY. -/
noncomputable def decodeXf01 (w : Nat) : Except DecodeError Instr :=
  if fld w 0 5 = 0 then withCode (XLoc.ofCode (fld w 17 6)) fun s => withCode (XLoc.ofCode (fld w 11 6)) fun t => legal (.xcopy (Tok.ofCode (fld w 23 4)) s t (Fin.ofNat 16 (fld w 7 4)) (fld w 6 1 == 1) (fld w 5 1 == 1)) else
  .error .reservedField

/-- The words of transfer major 0x02: XGATH, XGATH_C. -/
noncomputable def decodeXf02 (w : Nat) : Except DecodeError Instr :=
  if fld w 0 1 = 1 then withCode (XLoc.ofCode (fld w 13 6)) fun t => legal (.xgath (Tok.ofCode (fld w 23 4)) (Fin.ofNat 16 (fld w 19 4)) t (Fin.ofNat 16 (fld w 9 4)) (Fin.ofNat 16 (fld w 5 4)) (Fin.ofNat 16 (fld w 1 4))) else
  if fld w 9 4 = 0 ∧ fld w 0 1 = 0 then withCode (XLoc.ofCode (fld w 13 6)) fun t => legal (.xgathC (Tok.ofCode (fld w 23 4)) (Fin.ofNat 16 (fld w 19 4)) t (Fin.ofNat 16 (fld w 5 4)) (Fin.ofNat 16 (fld w 1 4))) else
  .error .reservedField

/-- The words of transfer major 0x03: XSCAT, XSCAT_C. -/
noncomputable def decodeXf03 (w : Nat) : Except DecodeError Instr :=
  if fld w 0 1 = 1 then withCode (XLoc.ofCode (fld w 17 6)) fun s => legal (.xscat (Tok.ofCode (fld w 23 4)) s (Fin.ofNat 16 (fld w 13 4)) (Fin.ofNat 16 (fld w 9 4)) (Fin.ofNat 16 (fld w 5 4)) (Fin.ofNat 16 (fld w 1 4))) else
  if fld w 9 4 = 0 ∧ fld w 0 1 = 0 then withCode (XLoc.ofCode (fld w 17 6)) fun s => legal (.xscatC (Tok.ofCode (fld w 23 4)) s (Fin.ofNat 16 (fld w 13 4)) (Fin.ofNat 16 (fld w 5 4)) (Fin.ofNat 16 (fld w 1 4))) else
  .error .reservedField

/-- The words of transfer major 0x04: XFILL. -/
noncomputable def decodeXf04 (w : Nat) : Except DecodeError Instr :=
  if fld w 0 8 = 0 then withCode (XLoc.ofCode (fld w 17 6)) fun t => legal (.xfill (Tok.ofCode (fld w 23 4)) t (Fin.ofNat 16 (fld w 13 4)) (Fin.ofNat 16 (fld w 9 4)) (fld w 8 1 == 1)) else
  .error .reservedField

/-- The words of transfer major 0x05: XRED. -/
noncomputable def decodeXf05 (w : Nat) : Except DecodeError Instr :=
  withCode (XLoc.ofCode (fld w 17 6)) fun s => withCode (UpdTag.ofCode (fld w 5 4)) fun g => legal (.xred (Tok.ofCode (fld w 23 4)) s (Fin.ofNat 16 (fld w 13 4)) (Fin.ofNat 16 (fld w 9 4)) g (Fin.ofNat 16 (fld w 1 4)) (fld w 0 1 == 1))

/-- The words of transfer major 0x06: XSEND. -/
noncomputable def decodeXf06 (w : Nat) : Except DecodeError Instr :=
  if fld w 0 4 = 0 then withCode (XLoc.ofCode (fld w 17 6)) fun s => legal (.xsend (Tok.ofCode (fld w 23 4)) s (Fin.ofNat 256 (fld w 9 8)) (Fin.ofNat 16 (fld w 5 4)) (fld w 4 1 == 1)) else
  .error .reservedField

/-- The words of transfer major 0x07: XRECV. -/
noncomputable def decodeXf07 (w : Nat) : Except DecodeError Instr :=
  if fld w 0 4 = 0 then withCode (XLoc.ofCode (fld w 17 6)) fun t => legal (.xrecv (Tok.ofCode (fld w 23 4)) t (Fin.ofNat 256 (fld w 9 8)) (Fin.ofNat 16 (fld w 5 4)) (fld w 4 1 == 1)) else
  .error .reservedField

/-- The words of transfer major 0x08: XLOOP, XLOOP_REG. -/
noncomputable def decodeXf08 (w : Nat) : Except DecodeError Instr :=
  if fld w 22 1 = 0 then legal (.xloop (Tok.ofCode (fld w 23 4)) (Fin.ofNat 4096 (fld w 10 12)) (Fin.ofNat 1024 (fld w 0 10))) else
  if fld w 22 1 = 1 ∧ fld w 10 8 = 0 then legal (.xloopReg (Tok.ofCode (fld w 23 4)) (Fin.ofNat 16 (fld w 18 4)) (Fin.ofNat 1024 (fld w 0 10))) else
  .error .reservedField

/-- The words of transfer major 0x09: XWAITB. -/
noncomputable def decodeXf09 (w : Nat) : Except DecodeError Instr :=
  if fld w 0 18 = 0 then legal (.xwaitb (Tok.ofCode (fld w 23 4)) (Fin.ofNat 16 (fld w 19 4)) (fld w 18 1 == 1)) else
  .error .reservedField

/-- The words of transfer major 0x1E: XEND. -/
noncomputable def decodeXf1E (w : Nat) : Except DecodeError Instr :=
  if fld w 0 23 = 0 then legal (.xend (Tok.ofCode (fld w 23 4))) else
  .error .reservedField

/-- A word of the transfer section (R39, R40): its major opcode selects the row. -/
noncomputable def decodeXf (w : Nat) : Except DecodeError Instr :=
  match fld w 27 5 with
  | 1 => decodeXf01 w
  | 2 => decodeXf02 w
  | 3 => decodeXf03 w
  | 4 => decodeXf04 w
  | 5 => decodeXf05 w
  | 6 => decodeXf06 w
  | 7 => decodeXf07 w
  | 8 => decodeXf08 w
  | 9 => decodeXf09 w
  | 30 => decodeXf1E w
  | 31 => .error .neverAssigned
  | _ => .error .reservedMajor

/-- The decoder of a section (R31): a number that is no 32-bit word is refused. -/
noncomputable def decode (sec : CodeSection) (w : Nat) : Except DecodeError Instr :=
  if 2 ^ 32 ≤ w then .error .notAWord else
  if w = 0xFFFFFFFF then .error .neverAssigned else
  match sec with
  | .sq => decodeSq w
  | .vec => decodeVec w
  | .mx => decodeMx w
  | .xf => decodeXf w

/-- The section an instruction's word stands in; none for the device's other steps, which have no word. -/
def Instr.codeSection : Instr → Option CodeSection
  | .nop => some .sq
  | .yield => some .sq
  | .pause _ => some .sq
  | .halt => some .sq
  | .trap _ => some .sq
  | .tret => some .sq
  | .bkpt _ => some .sq
  | .iflush => some .sq
  | .add _ _ _ => some .sq
  | .sub _ _ _ => some .sq
  | .mul _ _ _ => some .sq
  | .mulh _ _ _ => some .sq
  | .div _ _ _ => some .sq
  | .divn _ _ _ => some .sq
  | .rem _ _ _ => some .sq
  | .remn _ _ _ => some .sq
  | .and _ _ _ => some .sq
  | .or _ _ _ => some .sq
  | .xor _ _ _ => some .sq
  | .andn _ _ _ => some .sq
  | .shl _ _ _ => some .sq
  | .shr _ _ _ => some .sq
  | .sar _ _ _ => some .sq
  | .min _ _ _ => some .sq
  | .max _ _ _ => some .sq
  | .minn _ _ _ => some .sq
  | .maxn _ _ _ => some .sq
  | .slt _ _ _ => some .sq
  | .sltn _ _ _ => some .sq
  | .seq _ _ _ => some .sq
  | .sel _ _ _ _ => some .sq
  | .clz _ _ => some .sq
  | .ctz _ _ => some .sq
  | .popc _ _ => some .sq
  | .ext _ _ _ => some .sq
  | .ins _ _ _ => some .sq
  | .addImm _ _ _ => some .sq
  | .mulImm _ _ _ => some .sq
  | .andImm _ _ _ => some .sq
  | .orImm _ _ _ => some .sq
  | .xorImm _ _ _ => some .sq
  | .shlImm _ _ _ => some .sq
  | .shrImm _ _ _ => some .sq
  | .sarImm _ _ _ => some .sq
  | .sltImm _ _ _ => some .sq
  | .sltnImm _ _ _ => some .sq
  | .seqImm _ _ _ => some .sq
  | .minImm _ _ _ => some .sq
  | .maxImm _ _ _ => some .sq
  | .minnImm _ _ _ => some .sq
  | .maxnImm _ _ _ => some .sq
  | .extImm _ _ _ _ _ => some .sq
  | .insImm _ _ _ _ => some .sq
  | .lim _ _ _ _ => some .sq
  | .fadd _ _ _ _ _ => some .sq
  | .fsub _ _ _ _ _ => some .sq
  | .fmul _ _ _ _ _ => some .sq
  | .fdiv _ _ _ _ _ => some .sq
  | .fsqrt _ _ _ _ => some .sq
  | .ffma _ _ _ _ _ => some .sq
  | .fmin _ _ _ _ => some .sq
  | .fmax _ _ _ _ => some .sq
  | .fcmp _ _ _ _ _ => some .sq
  | .fcvt _ _ _ _ _ => some .sq
  | .fkey _ _ => some .sq
  | .beq _ _ _ => some .sq
  | .bne _ _ _ => some .sq
  | .blt _ _ _ => some .sq
  | .bge _ _ _ => some .sq
  | .bltn _ _ _ => some .sq
  | .bgen _ _ _ => some .sq
  | .j _ => some .sq
  | .jl _ => some .sq
  | .jr _ => some .sq
  | .jlr _ _ => some .sq
  | .loop _ _ => some .sq
  | .loopImm _ _ => some .sq
  | .lbrk => some .sq
  | .lbrkSq _ => some .sq
  | .lidx _ _ => some .sq
  | .lset _ _ => some .sq
  | .lsetAdd _ _ => some .sq
  | .vrun _ _ => some .sq
  | .xrun _ _ => some .sq
  | .mtask _ _ => some .sq
  | .wait _ _ _ _ => some .sq
  | .vget _ _ => some .sq
  | .slack _ _ => some .sq
  | .bankm _ _ => some .sq
  | .ldb _ _ _ => some .sq
  | .ldbn _ _ _ => some .sq
  | .ldh _ _ _ => some .sq
  | .ldhn _ _ _ => some .sq
  | .ldw _ _ _ => some .sq
  | .ldwn _ _ _ => some .sq
  | .ldd _ _ _ => some .sq
  | .stb _ _ _ => some .sq
  | .sth _ _ _ => some .sq
  | .stw _ _ _ => some .sq
  | .std _ _ _ => some .sq
  | .amoSwap _ _ _ _ _ _ => some .sq
  | .amoAdd _ _ _ _ _ _ => some .sq
  | .amoAnd _ _ _ _ _ _ => some .sq
  | .amoOr _ _ _ _ _ _ => some .sq
  | .amoXor _ _ _ _ _ _ => some .sq
  | .amoMin _ _ _ _ _ _ => some .sq
  | .amoMax _ _ _ _ _ _ => some .sq
  | .amoMinn _ _ _ _ _ _ => some .sq
  | .amoMaxn _ _ _ _ _ _ => some .sq
  | .cas _ _ _ _ _ _ => some .sq
  | .updAddI32 _ _ _ => some .sq
  | .updAddI64 _ _ _ => some .sq
  | .updAddF32 _ _ _ => some .sq
  | .updAddBf16x2 _ _ _ => some .sq
  | .updMaxI32 _ _ _ => some .sq
  | .updMinI32 _ _ _ => some .sq
  | .updMaxN32 _ _ _ => some .sq
  | .updMinN32 _ _ _ => some .sq
  | .updMaxF32 _ _ _ => some .sq
  | .updMinF32 _ _ _ => some .sq
  | .updOr _ _ _ => some .sq
  | .updAnd _ _ _ => some .sq
  | .updXor _ _ _ => some .sq
  | .phase _ _ => some .sq
  | .fence _ => some .sq
  | .waita _ _ _ _ _ => some .sq
  | .pfhL1 _ _ => some .sq
  | .pfhL2 _ _ => some .sq
  | .rsdKeep _ _ => some .sq
  | .rsdLow _ _ => some .sq
  | .rsdClean _ _ => some .sq
  | .barinit _ _ _ => some .sq
  | .barexp _ _ _ => some .sq
  | .bararr _ _ _ _ => some .sq
  | .barwait _ _ _ _ => some .sq
  | .bartest _ _ _ _ => some .sq
  | .enq _ _ _ => some .sq
  | .waitq _ _ => some .sq
  | .dq _ _ _ => some .sq
  | .treeNew _ _ => some .sq
  | .treeClose _ _ => some .sq
  | .treeKill _ _ => some .sq
  | .spawn _ _ _ => some .sq
  | .pick _ _ => some .sq
  | .done _ => some .sq
  | .join _ _ => some .sq
  | .reprio _ _ _ => some .sq
  | .reprioSub _ _ _ => some .sq
  | .cancelSoft _ _ => some .sq
  | .cancelHard _ _ => some .sq
  | .tstat _ _ _ => some .sq
  | .nalloc _ _ _ => some .sq
  | .nallocFree _ _ _ => some .sq
  | .ninit _ _ _ => some .sq
  | .nrd _ _ _ => some .sq
  | .nvl _ _ => some .sq
  | .nback _ _ => some .sq
  | .nbackAlt _ _ => some .sq
  | .nsel _ _ => some .sq
  | .bcfg _ _ _ => some .sq
  | .bsub _ _ _ => some .sq
  | .bclose _ _ => some .sq
  | .aconfig _ _ _ => some .sq
  | .ktload _ _ _ => some .sq
  | .ktloadSt _ _ _ => some .sq
  | .ktlock _ _ => some .sq
  | .ktlockUn _ _ => some .sq
  | .kappend _ _ => some .sq
  | .aquery _ => some .sq
  | .aqueryLoose _ => some .sq
  | .ksplice _ _ _ => some .sq
  | .krepairSel _ => some .sq
  | .krepairPut _ => some .sq
  | .krstatSeq _ _ => some .sq
  | .krstatSpan _ _ _ => some .sq
  | .krstatDelta _ _ _ => some .sq
  | .krstatPool _ _ => some .sq
  | .kalloc _ _ _ => some .sq
  | .kfree _ _ => some .sq
  | .kfreeEnt _ _ _ => some .sq
  | .kfork _ _ => some .sq
  | .kreclaim _ _ => some .sq
  | .csrr _ _ => some .sq
  | .csrw _ _ _ => some .sq
  | .csrs _ _ _ => some .sq
  | .csrc _ _ _ => some .sq
  | .vadd _ _ _ _ _ _ => some .vec
  | .vsub _ _ _ _ _ _ => some .vec
  | .vmul _ _ _ _ _ _ => some .vec
  | .vmulh _ _ _ _ _ => some .vec
  | .vmin _ _ _ _ _ => some .vec
  | .vmax _ _ _ _ _ => some .vec
  | .vand _ _ _ _ => some .vec
  | .vor _ _ _ _ => some .vec
  | .vxor _ _ _ _ => some .vec
  | .vshl _ _ _ _ _ _ => some .vec
  | .vshr _ _ _ _ => some .vec
  | .vsar _ _ _ _ => some .vec
  | .vabs _ _ _ _ => some .vec
  | .vneg _ _ _ _ => some .vec
  | .vsel _ _ _ _ => some .vec
  | .vfadd _ _ _ _ _ => some .vec
  | .vfsub _ _ _ _ _ => some .vec
  | .vfmul _ _ _ _ _ => some .vec
  | .vfdiv _ _ _ _ _ => some .vec
  | .vfma _ _ _ _ _ => some .vec
  | .vfsqrt _ _ _ _ => some .vec
  | .vfmin _ _ _ _ => some .vec
  | .vfmax _ _ _ _ => some .vec
  | .vfexp2 _ _ _ => some .vec
  | .vfrcp _ _ _ _ => some .vec
  | .vcmp _ _ _ _ _ _ => some .vec
  | .mand _ _ _ => some .vec
  | .mor _ _ _ => some .vec
  | .mnot _ _ => some .vec
  | .mpopc _ _ => some .vec
  | .mfirst _ _ => some .vec
  | .vcvt _ _ _ _ _ => some .vec
  | .vqenc _ _ => some .vec
  | .vqdec _ _ => some .vec
  | .vunpk3 _ _ _ => some .vec
  | .vtacc _ _ _ _ _ => some .vec
  | .vperm _ _ _ _ => some .vec
  | .vslide _ _ _ _ _ => some .vec
  | .vbcast _ _ _ _ => some .vec
  | .viota _ _ _ => some .vec
  | .vrsum _ _ _ _ => some .vec
  | .vrfsum _ _ _ => some .vec
  | .vrmin _ _ _ _ _ _ => some .vec
  | .vrmax _ _ _ _ _ _ => some .vec
  | .vld _ _ _ _ => some .vec
  | .vst _ _ _ _ => some .vec
  | .vlds _ _ _ _ _ => some .vec
  | .vsts _ _ _ _ _ => some .vec
  | .vgath _ _ _ _ _ => some .vec
  | .vscat _ _ _ _ _ => some .vec
  | .vpushc _ _ _ => some .vec
  | .vpopf _ _ _ => some .vec
  | .vstat _ _ _ => some .vec
  | .vlkup _ _ _ _ _ => some .vec
  | .vrand _ _ _ => some .vec
  | .vrseed _ _ _ => some .vec
  | .vrskip _ _ => some .vec
  | .vshape _ _ => some .vec
  | .vend => some .vec
  | .mwld _ _ _ _ => some .mx
  | .mswap _ => some .mx
  | .mstrm _ _ _ => some .mx
  | .mmac _ _ _ _ _ => some .mx
  | .mzero _ _ _ _ _ => some .mx
  | .mdrainMem _ _ _ _ _ _ _ => some .mx
  | .mdrainAcc _ _ _ _ _ _ _ => some .mx
  | .mdrainStr _ _ _ _ _ _ _ => some .mx
  | .mloop _ _ _ => some .mx
  | .mloopReg _ _ _ => some .mx
  | .mwaitb _ _ _ => some .mx
  | .mend _ => some .mx
  | .xcopy _ _ _ _ _ _ => some .xf
  | .xgath _ _ _ _ _ _ => some .xf
  | .xgathC _ _ _ _ _ => some .xf
  | .xscat _ _ _ _ _ _ => some .xf
  | .xscatC _ _ _ _ _ => some .xf
  | .xfill _ _ _ _ _ => some .xf
  | .xred _ _ _ _ _ _ _ => some .xf
  | .xsend _ _ _ _ _ => some .xf
  | .xrecv _ _ _ _ _ => some .xf
  | .xloop _ _ _ => some .xf
  | .xloopReg _ _ _ => some .xf
  | .xwaitb _ _ _ => some .xf
  | .xend _ => some .xf
  | .pauseEnd _ => none
  | .loopEndCheck _ => none
  | .loadDataReturn _ _ => none
  | .waitaWake _ => none
  | .barwaitWake _ => none
  | .barrierCredit _ => none
  | .waitqWake _ => none
  | .ringmasterSelect _ => none
  | .taskStart _ => none
  | .cancelForward _ => none
  | .cancelReclaim _ => none
  | .walkForward _ => none
  | .barkerWindowExpiry _ _ => none
  | .barkerLaunch _ _ => none
  | .attnCommandRun _ _ => none
  | .aqueryWaitEnd _ _ => none
  | .vectorBlockStart _ => none
  | .mwldLoadDone _ _ => none
  | .tileTaskIssue _ => none
  | .xredContribution _ => none
  | .transferProgramStart _ _ => none
  | .circuitUnitSend _ => none
  | .circuitUnitArrive _ => none
  | .storeArrival _ _ => none
  | .commitMarker _ _ => none
  | .commitFlip _ => none
  | .flipNotice _ _ => none
  | .fenceMarker _ _ => none
  | .markerAck _ _ => none
  | .homeReadRequest _ => none
  | .homeGrantRequest _ => none
  | .homeUpdRequest _ => none
  | .fullMerge _ => none
  | .writeBack _ => none
  | .parkedPartial _ => none
  | .probeRead _ => none
  | .probeInvalidate _ => none
  | .probeMerge _ => none
  | .dataReply _ => none
  | .shootdown _ => none
  | .leaseExpiry _ => none
  | .remoteAccess _ _ _ _ => none
  | .remoteCommitBatch _ _ _ => none
  | .fabricTimeout _ => none
  | .taskEnd _ => none
  | .instanceStart _ => none
  | .taskAbort _ => none
  | .strandPreempt _ => none
  | .engineContinuationStop _ _ => none
  | .contextResume _ => none
  | .recordTake _ => none
  | .gangStart _ => none
  | .launchComplete _ => none
  | .queueSwitchIn _ => none
  | .queueSwitchOut _ => none
  | .tailWrite _ _ => none
  | .enqueueWindowWrite _ _ _ => none
  | .fabricRecord _ _ _ _ _ => none
  | .hostRead _ _ => none
  | .hostWrite _ _ => none
  | .asqtail _ => none
  | .adminRingBaseWrite _ _ => none
  | .registerWrite _ _ => none
  | .ctxCreate _ => none
  | .ctxDestroy _ => none
  | .qCreate _ => none
  | .qBind _ => none
  | .qArm _ => none
  | .qDestroy _ => none
  | .memMap _ => none
  | .memUnmap _ => none
  | .codeLoad _ => none
  | .kvPool _ => none
  | .kvReserve _ => none
  | .limits _ => none
  | .carousel _ => none
  | .attest _ => none
  | .journalRead _ => none
  | .clusterReset _ => none
  | .telemetry _ => none
  | .residencyReport => none
  | .uncorrectableError _ => none
  | .correctedError => none
  | .coldReset => none
  | .warmReset => none
  | .devassign _ => none
  | .pStateChange _ => none
  | .powerCapExceeded => none
  | .powerCapRecover => none
  | .thermalThrottle => none
  | .thermalRecover => none
  | .thermtrip => none
  | .illegalInstruction _ _ => none
  | .fetchFault _ => none
  | .probeAnswer _ => none
  | .fabricAnswer _ _ => none
  | .perstRelease => none
  | .jtagDebugger _ _ => none

/-- The word of an instruction (R33..R40): its opcode fields and each operand at its place; 0 for a step without a word. -/
def encode : Instr → Nat
  | .nop => 0x00000000
  | .yield => 0x00000001
  | .pause n => 0x00000002 + n.toNat * 64
  | .halt => 0x00000003
  | .trap k => 0x00000004 + k.toNat * 64
  | .tret => 0x00000005
  | .bkpt k => 0x00000006 + k.toNat * 64
  | .iflush => 0x00000007
  | .add d a b => 0x04000000 + d.val * 2097152 + a.val * 65536 + b.val * 2048
  | .sub d a b => 0x04000020 + d.val * 2097152 + a.val * 65536 + b.val * 2048
  | .mul d a b => 0x04000040 + d.val * 2097152 + a.val * 65536 + b.val * 2048
  | .mulh d a b => 0x04000060 + d.val * 2097152 + a.val * 65536 + b.val * 2048
  | .div d a b => 0x04000080 + d.val * 2097152 + a.val * 65536 + b.val * 2048
  | .divn d a b => 0x040000A0 + d.val * 2097152 + a.val * 65536 + b.val * 2048
  | .rem d a b => 0x040000C0 + d.val * 2097152 + a.val * 65536 + b.val * 2048
  | .remn d a b => 0x040000E0 + d.val * 2097152 + a.val * 65536 + b.val * 2048
  | .and d a b => 0x04000100 + d.val * 2097152 + a.val * 65536 + b.val * 2048
  | .or d a b => 0x04000120 + d.val * 2097152 + a.val * 65536 + b.val * 2048
  | .xor d a b => 0x04000140 + d.val * 2097152 + a.val * 65536 + b.val * 2048
  | .andn d a b => 0x04000160 + d.val * 2097152 + a.val * 65536 + b.val * 2048
  | .shl d a b => 0x04000180 + d.val * 2097152 + a.val * 65536 + b.val * 2048
  | .shr d a b => 0x040001A0 + d.val * 2097152 + a.val * 65536 + b.val * 2048
  | .sar d a b => 0x040001C0 + d.val * 2097152 + a.val * 65536 + b.val * 2048
  | .min d a b => 0x040001E0 + d.val * 2097152 + a.val * 65536 + b.val * 2048
  | .max d a b => 0x04000200 + d.val * 2097152 + a.val * 65536 + b.val * 2048
  | .minn d a b => 0x04000220 + d.val * 2097152 + a.val * 65536 + b.val * 2048
  | .maxn d a b => 0x04000240 + d.val * 2097152 + a.val * 65536 + b.val * 2048
  | .slt d a b => 0x04000260 + d.val * 2097152 + a.val * 65536 + b.val * 2048
  | .sltn d a b => 0x04000280 + d.val * 2097152 + a.val * 65536 + b.val * 2048
  | .seq d a b => 0x040002A0 + d.val * 2097152 + a.val * 65536 + b.val * 2048
  | .sel d a b c => 0x040002C0 + d.val * 2097152 + a.val * 65536 + b.val * 2048 + c.val
  | .clz d a => 0x040002E0 + d.val * 2097152 + a.val * 65536
  | .ctz d a => 0x04000300 + d.val * 2097152 + a.val * 65536
  | .popc d a => 0x04000320 + d.val * 2097152 + a.val * 65536
  | .ext d a b => 0x04000340 + d.val * 2097152 + a.val * 65536 + b.val * 2048
  | .ins d a b => 0x04000360 + d.val * 2097152 + a.val * 65536 + b.val * 2048
  | .addImm d a i => 0x08000000 + d.val * 2097152 + a.val * 65536 + i.toNat
  | .mulImm d a i => 0x0C000000 + d.val * 2097152 + a.val * 65536 + i.toNat
  | .andImm d a i => 0x10000000 + d.val * 2097152 + a.val * 65536 + i.toNat
  | .orImm d a i => 0x14000000 + d.val * 2097152 + a.val * 65536 + i.toNat
  | .xorImm d a i => 0x18000000 + d.val * 2097152 + a.val * 65536 + i.toNat
  | .shlImm d a s => 0x1C000000 + d.val * 2097152 + a.val * 65536 + s.val
  | .shrImm d a s => 0x1C000040 + d.val * 2097152 + a.val * 65536 + s.val
  | .sarImm d a s => 0x1C000080 + d.val * 2097152 + a.val * 65536 + s.val
  | .sltImm d a i => 0x20000000 + d.val * 2097152 + a.val * 65536 + i.toNat
  | .sltnImm d a i => 0x24000000 + d.val * 2097152 + a.val * 65536 + i.toNat
  | .seqImm d a i => 0x28000000 + d.val * 2097152 + a.val * 65536 + i.toNat
  | .minImm d a i => 0x2C000000 + d.val * 2097152 + a.val * 65536 + i.toNat
  | .maxImm d a i => 0x2C004000 + d.val * 2097152 + a.val * 65536 + i.toNat
  | .minnImm d a i => 0x2C008000 + d.val * 2097152 + a.val * 65536 + i.toNat
  | .maxnImm d a i => 0x2C00C000 + d.val * 2097152 + a.val * 65536 + i.toNat
  | .extImm d a g p l => 0x30000000 + d.val * 2097152 + a.val * 65536 + g.toNat * 4096 + p.val * 64 + l.val
  | .insImm d a p l => 0x34000000 + d.val * 2097152 + a.val * 65536 + p.val * 64 + l.val
  | .lim d k n i => 0x38000000 + d.val * 2097152 + k.toNat * 262144 + n.val * 65536 + i.toNat
  | .fadd d a b r t => 0x40000000 + d.val * 2097152 + a.val * 65536 + b.val * 2048 + r.code * 16 + t.code * 4
  | .fsub d a b r t => 0x40000080 + d.val * 2097152 + a.val * 65536 + b.val * 2048 + r.code * 16 + t.code * 4
  | .fmul d a b r t => 0x40000100 + d.val * 2097152 + a.val * 65536 + b.val * 2048 + r.code * 16 + t.code * 4
  | .fdiv d a b r t => 0x40000180 + d.val * 2097152 + a.val * 65536 + b.val * 2048 + r.code * 16 + t.code * 4
  | .fsqrt d a r t => 0x40000200 + d.val * 2097152 + a.val * 65536 + r.code * 16 + t.code * 4
  | .ffma d a b r t => 0x40000280 + d.val * 2097152 + a.val * 65536 + b.val * 2048 + r.code * 16 + t.code * 4
  | .fmin d a b t => 0x40000300 + d.val * 2097152 + a.val * 65536 + b.val * 2048 + t.code * 4
  | .fmax d a b t => 0x40000380 + d.val * 2097152 + a.val * 65536 + b.val * 2048 + t.code * 4
  | .fcmp d a b p t => 0x40000400 + d.val * 2097152 + a.val * 65536 + b.val * 2048 + p.code * 16 + t.code * 4
  | .fcvt d a s r t => 0x40000480 + d.val * 2097152 + a.val * 65536 + s.code * 2048 + r.code * 16 + t.code
  | .fkey d a => 0x40000500 + d.val * 2097152 + a.val * 65536
  | .beq a b o => 0x44000000 + a.val * 2097152 + b.val * 65536 + o.toNat
  | .bne a b o => 0x48000000 + a.val * 2097152 + b.val * 65536 + o.toNat
  | .blt a b o => 0x4C000000 + a.val * 2097152 + b.val * 65536 + o.toNat
  | .bge a b o => 0x50000000 + a.val * 2097152 + b.val * 65536 + o.toNat
  | .bltn a b o => 0x54000000 + a.val * 2097152 + b.val * 65536 + o.toNat
  | .bgen a b o => 0x58000000 + a.val * 2097152 + b.val * 65536 + o.toNat
  | .j o => 0x60000000 + o.toNat
  | .jl o => 0x64000000 + o.toNat
  | .jr a => 0x68000000 + a.val * 65536
  | .jlr d a => 0x68000080 + d.val * 2097152 + a.val * 65536
  | .loop a e => 0x6C000000 + a.val * 2097152 + e.toNat
  | .loopImm c e => 0x6C100000 + c.toNat * 256 + e.toNat
  | .lbrk => 0x70000000
  | .lbrkSq a => 0x70000080 + a.val * 65536
  | .lidx d k => 0x70000100 + d.val * 2097152 + k.val
  | .lset n a => 0x70000180 + n.val * 2097152 + a.val * 65536
  | .lsetAdd n a => 0x700001C0 + n.val * 2097152 + a.val * 65536
  | .vrun a m => 0x74000000 + a.val * 65536 + m.toNat
  | .xrun a m => 0x75000000 + a.val * 65536 + m.toNat
  | .mtask a m => 0x76000000 + a.val * 65536 + m.toNat
  | .wait l s c t => 0x78000000 + l.val * 1048576 + s.val * 16384 + c.val * 256 + t.val * 4
  | .vget d n => 0x7C000000 + d.val * 2097152 + n.val
  | .slack d a => 0x7C000080 + d.val * 2097152 + a.val * 65536
  | .bankm d a => 0x7C000100 + d.val * 2097152 + a.val * 65536
  | .ldb d a o => 0x80000000 + d.val * 2097152 + a.val * 65536 + o.toNat * 2
  | .ldbn d a o => 0x80000001 + d.val * 2097152 + a.val * 65536 + o.toNat * 2
  | .ldh d a o => 0x84000000 + d.val * 2097152 + a.val * 65536 + o.toNat * 2
  | .ldhn d a o => 0x84000001 + d.val * 2097152 + a.val * 65536 + o.toNat * 2
  | .ldw d a o => 0x88000000 + d.val * 2097152 + a.val * 65536 + o.toNat * 2
  | .ldwn d a o => 0x88000001 + d.val * 2097152 + a.val * 65536 + o.toNat * 2
  | .ldd d a o => 0x8C000000 + d.val * 2097152 + a.val * 65536 + o.toNat * 2
  | .stb d a o => 0x90000000 + d.val * 2097152 + a.val * 65536 + o.toNat * 2
  | .sth d a o => 0x94000000 + d.val * 2097152 + a.val * 65536 + o.toNat * 2
  | .stw d a o => 0x98000000 + d.val * 2097152 + a.val * 65536 + o.toNat * 2
  | .std d a o => 0x9C000000 + d.val * 2097152 + a.val * 65536 + o.toNat * 2
  | .amoSwap d a b z o s => 0xA0000000 + d.val * 2097152 + a.val * 65536 + b.val * 2048 + z.toNat * 32 + o.code * 8 + s.code
  | .amoAdd d a b z o s => 0xA0000080 + d.val * 2097152 + a.val * 65536 + b.val * 2048 + z.toNat * 32 + o.code * 8 + s.code
  | .amoAnd d a b z o s => 0xA0000100 + d.val * 2097152 + a.val * 65536 + b.val * 2048 + z.toNat * 32 + o.code * 8 + s.code
  | .amoOr d a b z o s => 0xA0000180 + d.val * 2097152 + a.val * 65536 + b.val * 2048 + z.toNat * 32 + o.code * 8 + s.code
  | .amoXor d a b z o s => 0xA0000200 + d.val * 2097152 + a.val * 65536 + b.val * 2048 + z.toNat * 32 + o.code * 8 + s.code
  | .amoMin d a b z o s => 0xA0000280 + d.val * 2097152 + a.val * 65536 + b.val * 2048 + z.toNat * 32 + o.code * 8 + s.code
  | .amoMax d a b z o s => 0xA0000300 + d.val * 2097152 + a.val * 65536 + b.val * 2048 + z.toNat * 32 + o.code * 8 + s.code
  | .amoMinn d a b z o s => 0xA0000380 + d.val * 2097152 + a.val * 65536 + b.val * 2048 + z.toNat * 32 + o.code * 8 + s.code
  | .amoMaxn d a b z o s => 0xA0000400 + d.val * 2097152 + a.val * 65536 + b.val * 2048 + z.toNat * 32 + o.code * 8 + s.code
  | .cas d a b z o s => 0xA0000480 + d.val * 2097152 + a.val * 65536 + b.val * 2048 + z.toNat * 32 + o.code * 8 + s.code
  | .updAddI32 a b s => 0xA4000080 + a.val * 65536 + b.val * 2048 + s.code
  | .updAddI64 a b s => 0xA4000100 + a.val * 65536 + b.val * 2048 + s.code
  | .updAddF32 a b s => 0xA4000180 + a.val * 65536 + b.val * 2048 + s.code
  | .updAddBf16x2 a b s => 0xA4000200 + a.val * 65536 + b.val * 2048 + s.code
  | .updMaxI32 a b s => 0xA4000280 + a.val * 65536 + b.val * 2048 + s.code
  | .updMinI32 a b s => 0xA4000300 + a.val * 65536 + b.val * 2048 + s.code
  | .updMaxN32 a b s => 0xA4000380 + a.val * 65536 + b.val * 2048 + s.code
  | .updMinN32 a b s => 0xA4000400 + a.val * 65536 + b.val * 2048 + s.code
  | .updMaxF32 a b s => 0xA4000480 + a.val * 65536 + b.val * 2048 + s.code
  | .updMinF32 a b s => 0xA4000500 + a.val * 65536 + b.val * 2048 + s.code
  | .updOr a b s => 0xA4000580 + a.val * 65536 + b.val * 2048 + s.code
  | .updAnd a b s => 0xA4000600 + a.val * 65536 + b.val * 2048 + s.code
  | .updXor a b s => 0xA4000680 + a.val * 65536 + b.val * 2048 + s.code
  | .phase d s => 0xA8000000 + d.val * 2097152 + s.code
  | .fence s => 0xA8000080 + s.code
  | .waita d a b z s => 0xAC000000 + d.val * 2097152 + a.val * 65536 + b.val * 2048 + z.toNat * 32 + s.code
  | .pfhL1 a b => 0xAC000080 + a.val * 65536 + b.val * 2048
  | .pfhL2 a b => 0xAC000081 + a.val * 65536 + b.val * 2048
  | .rsdKeep a b => 0xAC000100 + a.val * 65536 + b.val * 2048
  | .rsdLow a b => 0xAC000101 + a.val * 65536 + b.val * 2048
  | .rsdClean a b => 0xAC000102 + a.val * 65536 + b.val * 2048
  | .barinit a b s => 0xB0000000 + a.val * 65536 + b.val * 2048 + s.code
  | .barexp a b s => 0xB0000080 + a.val * 65536 + b.val * 2048 + s.code
  | .bararr d a b s => 0xB0000100 + d.val * 2097152 + a.val * 65536 + b.val * 2048 + s.code
  | .barwait d a b s => 0xB0000180 + d.val * 2097152 + a.val * 65536 + b.val * 2048 + s.code
  | .bartest d a b s => 0xB0000200 + d.val * 2097152 + a.val * 65536 + b.val * 2048 + s.code
  | .enq d a b => 0xB4000000 + d.val * 2097152 + a.val * 65536 + b.val * 2048
  | .waitq d a => 0xB4000080 + d.val * 2097152 + a.val * 65536
  | .dq d a b => 0xB4000100 + d.val * 2097152 + a.val * 65536 + b.val * 2048
  | .treeNew d a => 0xC0000000 + d.val * 2097152 + a.val * 65536
  | .treeClose d a => 0xC0000001 + d.val * 2097152 + a.val * 65536
  | .treeKill d a => 0xC0000002 + d.val * 2097152 + a.val * 65536
  | .spawn d a b => 0xC0000080 + d.val * 2097152 + a.val * 65536 + b.val * 2048
  | .pick d a => 0xC0000100 + d.val * 2097152 + a.val * 65536
  | .done a => 0xC0000180 + a.val * 65536
  | .join a b => 0xC0000200 + a.val * 65536 + b.val * 2048
  | .reprio d a b => 0xC0000280 + d.val * 2097152 + a.val * 65536 + b.val * 2048
  | .reprioSub d a b => 0xC00002C0 + d.val * 2097152 + a.val * 65536 + b.val * 2048
  | .cancelSoft d a => 0xC0000300 + d.val * 2097152 + a.val * 65536
  | .cancelHard d a => 0xC0000380 + d.val * 2097152 + a.val * 65536
  | .tstat d a k => 0xC0000400 + d.val * 2097152 + a.val * 65536 + k.toNat * 64
  | .nalloc d a b => 0xC4000000 + d.val * 2097152 + a.val * 65536 + b.val * 2048
  | .nallocFree d a b => 0xC4000040 + d.val * 2097152 + a.val * 65536 + b.val * 2048
  | .ninit a b m => 0xC4000080 + a.val * 65536 + b.val * 2048 + m.toNat
  | .nrd d a k => 0xC4000100 + d.val * 2097152 + a.val * 65536 + k.val
  | .nvl a b => 0xC4000180 + a.val * 65536 + b.val * 2048
  | .nback a b => 0xC4000200 + a.val * 65536 + b.val * 2048
  | .nbackAlt a b => 0xC4000280 + a.val * 65536 + b.val * 2048
  | .nsel d a => 0xC4000300 + d.val * 2097152 + a.val * 65536
  | .bcfg d a b => 0xC8000000 + d.val * 2097152 + a.val * 65536 + b.val * 2048
  | .bsub d a b => 0xC8000080 + d.val * 2097152 + a.val * 65536 + b.val * 2048
  | .bclose d a => 0xC8000100 + d.val * 2097152 + a.val * 65536
  | .aconfig d a b => 0xD0000000 + d.val * 2097152 + a.val * 65536 + b.val * 2048
  | .ktload d a b => 0xD0000080 + d.val * 2097152 + a.val * 65536 + b.val * 2048
  | .ktloadSt d a b => 0xD00000C0 + d.val * 2097152 + a.val * 65536 + b.val * 2048
  | .ktlock d a => 0xD0000100 + d.val * 2097152 + a.val * 65536
  | .ktlockUn d a => 0xD0000140 + d.val * 2097152 + a.val * 65536
  | .kappend d a => 0xD0000180 + d.val * 2097152 + a.val * 65536
  | .aquery a => 0xD0000200 + a.val * 65536
  | .aqueryLoose a => 0xD0000240 + a.val * 65536
  | .ksplice d a b => 0xD0000280 + d.val * 2097152 + a.val * 65536 + b.val * 2048
  | .krepairSel a => 0xD0000300 + a.val * 65536
  | .krepairPut a => 0xD0000340 + a.val * 65536
  | .krstatSeq d a => 0xD0000380 + d.val * 2097152 + a.val * 65536
  | .krstatSpan d a b => 0xD0000381 + d.val * 2097152 + a.val * 65536 + b.val * 2048
  | .krstatDelta d a b => 0xD0000382 + d.val * 2097152 + a.val * 65536 + b.val * 2048
  | .krstatPool d a => 0xD0000383 + d.val * 2097152 + a.val * 65536
  | .kalloc d a b => 0xD4000000 + d.val * 2097152 + a.val * 65536 + b.val * 2048
  | .kfree d a => 0xD4000080 + d.val * 2097152 + a.val * 65536
  | .kfreeEnt d a b => 0xD40000C0 + d.val * 2097152 + a.val * 65536 + b.val * 2048
  | .kfork d a => 0xD4000100 + d.val * 2097152 + a.val * 65536
  | .kreclaim d a => 0xD4000180 + d.val * 2097152 + a.val * 65536
  | .csrr d c => 0xE0000000 + d.val * 2097152 + c.toNat
  | .csrw d a c => 0xE0004000 + d.val * 2097152 + a.val * 65536 + c.toNat
  | .csrs d a c => 0xE0008000 + d.val * 2097152 + a.val * 65536 + c.toNat
  | .csrc d a c => 0xE000C000 + d.val * 2097152 + a.val * 65536 + c.toNat
  | .vadd d a b k n s => 0x04000000 + d.val * 2097152 + a.val * 65536 + b.val * 2048 + k.val * 256 + n.toNat * 4 + s.toNat * 2
  | .vsub d a b k n s => 0x04000008 + d.val * 2097152 + a.val * 65536 + b.val * 2048 + k.val * 256 + n.toNat * 4 + s.toNat * 2
  | .vmul d a b k n s => 0x04000010 + d.val * 2097152 + a.val * 65536 + b.val * 2048 + k.val * 256 + n.toNat * 4 + s.toNat * 2
  | .vmulh d a b k n => 0x04000018 + d.val * 2097152 + a.val * 65536 + b.val * 2048 + k.val * 256 + n.toNat * 4
  | .vmin d a b k n => 0x04000020 + d.val * 2097152 + a.val * 65536 + b.val * 2048 + k.val * 256 + n.toNat * 4
  | .vmax d a b k n => 0x04000028 + d.val * 2097152 + a.val * 65536 + b.val * 2048 + k.val * 256 + n.toNat * 4
  | .vand d a b k => 0x04000030 + d.val * 2097152 + a.val * 65536 + b.val * 2048 + k.val * 256
  | .vor d a b k => 0x04000038 + d.val * 2097152 + a.val * 65536 + b.val * 2048 + k.val * 256
  | .vxor d a b k => 0x04000040 + d.val * 2097152 + a.val * 65536 + b.val * 2048 + k.val * 256
  | .vshl d a b k n s => 0x04000048 + d.val * 2097152 + a.val * 65536 + b.val * 2048 + k.val * 256 + n.toNat * 4 + s.toNat * 2
  | .vshr d a b k => 0x04000050 + d.val * 2097152 + a.val * 65536 + b.val * 2048 + k.val * 256
  | .vsar d a b k => 0x04000058 + d.val * 2097152 + a.val * 65536 + b.val * 2048 + k.val * 256
  | .vabs d a k s => 0x04000060 + d.val * 2097152 + a.val * 65536 + k.val * 256 + s.toNat * 2
  | .vneg d a k s => 0x04000068 + d.val * 2097152 + a.val * 65536 + k.val * 256 + s.toNat * 2
  | .vsel d a b k => 0x04000070 + d.val * 2097152 + a.val * 65536 + b.val * 2048 + k.val * 256
  | .vfadd d a b k r => 0x08000000 + d.val * 2097152 + a.val * 65536 + b.val * 2048 + k.val * 256 + r.code
  | .vfsub d a b k r => 0x08000008 + d.val * 2097152 + a.val * 65536 + b.val * 2048 + k.val * 256 + r.code
  | .vfmul d a b k r => 0x08000010 + d.val * 2097152 + a.val * 65536 + b.val * 2048 + k.val * 256 + r.code
  | .vfdiv d a b k r => 0x08000018 + d.val * 2097152 + a.val * 65536 + b.val * 2048 + k.val * 256 + r.code
  | .vfma d a b k r => 0x08000020 + d.val * 2097152 + a.val * 65536 + b.val * 2048 + k.val * 256 + r.code
  | .vfsqrt d a k r => 0x08000028 + d.val * 2097152 + a.val * 65536 + k.val * 256 + r.code
  | .vfmin d a b k => 0x08000030 + d.val * 2097152 + a.val * 65536 + b.val * 2048 + k.val * 256
  | .vfmax d a b k => 0x08000038 + d.val * 2097152 + a.val * 65536 + b.val * 2048 + k.val * 256
  | .vfexp2 d a k => 0x08000040 + d.val * 2097152 + a.val * 65536 + k.val * 256
  | .vfrcp d a k r => 0x08000048 + d.val * 2097152 + a.val * 65536 + k.val * 256 + r.code
  | .vcmp d a b f n p => 0x0C000000 + d.val * 2097152 + a.val * 65536 + b.val * 2048 + f.toNat * 16 + n.toNat * 8 + p.code
  | .mand d a b => 0x0C000020 + d.val * 2097152 + a.val * 65536 + b.val * 2048
  | .mor d a b => 0x0C000040 + d.val * 2097152 + a.val * 65536 + b.val * 2048
  | .mnot d a => 0x0C000060 + d.val * 2097152 + a.val * 65536
  | .mpopc n a => 0x0C000080 + n.val * 2097152 + a.val * 65536
  | .mfirst n a => 0x0C0000A0 + n.val * 2097152 + a.val * 65536
  | .vcvt d a s k t => 0x10000000 + d.val * 2097152 + a.val * 65536 + s.code * 2048 + k.val * 256 + t.code
  | .vqenc d a => 0x10000020 + d.val * 2097152 + a.val * 65536
  | .vqdec d a => 0x10000040 + d.val * 2097152 + a.val * 65536
  | .vunpk3 d a k => 0x10000060 + d.val * 2097152 + a.val * 65536 + k.val * 256
  | .vtacc d a b k c => 0x10000080 + d.val * 2097152 + a.val * 65536 + b.val * 2048 + k.val * 256 + c.val
  | .vperm d a b k => 0x14000000 + d.val * 2097152 + a.val * 65536 + b.val * 2048 + k.val * 256
  | .vslide d a b k s => 0x14000040 + d.val * 2097152 + a.val * 65536 + b.val * 2048 + k.val * 256 + s.val
  | .vbcast d a k s => 0x14000080 + d.val * 2097152 + a.val * 65536 + k.val * 256 + s.val
  | .viota d k s => 0x140000C0 + d.val * 2097152 + k.val * 256 + s.val
  | .vrsum n a k u => 0x18000000 + n.val * 2097152 + a.val * 65536 + k.val * 256 + u.toNat * 16
  | .vrfsum n a k => 0x18000040 + n.val * 2097152 + a.val * 65536 + k.val * 256
  | .vrmin n a k x u f => 0x18000080 + n.val * 2097152 + a.val * 65536 + k.val * 256 + x.toNat * 32 + u.toNat * 16 + f.toNat * 8
  | .vrmax n a k x u f => 0x180000C0 + n.val * 2097152 + a.val * 65536 + k.val * 256 + x.toNat * 32 + u.toNat * 16 + f.toNat * 8
  | .vld d l k o => 0x1C000000 + d.val * 2097152 + l.val * 2048 + k.val * 256 + o.toNat
  | .vst d l k o => 0x1C000020 + d.val * 2097152 + l.val * 2048 + k.val * 256 + o.toNat
  | .vlds d m l k o => 0x1C000040 + d.val * 2097152 + m.val * 65536 + l.val * 2048 + k.val * 256 + o.toNat
  | .vsts d m l k o => 0x1C000060 + d.val * 2097152 + m.val * 65536 + l.val * 2048 + k.val * 256 + o.toNat
  | .vgath d a l k o => 0x1C000080 + d.val * 2097152 + a.val * 65536 + l.val * 2048 + k.val * 256 + o.toNat
  | .vscat d a l k o => 0x1C0000A0 + d.val * 2097152 + a.val * 65536 + l.val * 2048 + k.val * 256 + o.toNat
  | .vpushc a k p => 0x20000000 + a.val * 65536 + k.val * 256 + p.val
  | .vpopf d a p => 0x20000040 + d.val * 2097152 + a.val * 65536 + p.val
  | .vstat n r p => 0x20000080 + n.val * 2097152 + r.toNat * 65536 + p.val
  | .vlkup d a b k t => 0x24000000 + d.val * 2097152 + a.val * 65536 + b.val * 2048 + k.val * 256 + t.val
  | .vrand d k s => 0x28000000 + d.val * 2097152 + k.val * 256 + s.val
  | .vrseed d a s => 0x28000040 + d.val * 2097152 + a.val * 65536 + s.val
  | .vrskip a s => 0x28000080 + a.val * 65536 + s.val
  | .vshape l e => 0x2C000000 + l.val * 2048 + e.code
  | .vend => 0xF8000000
  | .mwld tok s t p => 0x08000000 + tok.code * 8388608 + s.val * 262144 + t.code * 16384 + p.toNat * 8192
  | .mswap tok => 0x10000000 + tok.code * 8388608
  | .mstrm tok s t => 0x18000000 + tok.code * 8388608 + s.val * 262144 + t.code * 16384
  | .mmac tok t r m p => 0x20000000 + tok.code * 8388608 + t.val * 2097152 + r.val * 32768 + m.val * 512 + p.val * 32
  | .mzero tok t r m k => 0x28000000 + tok.code * 8388608 + t.val * 2097152 + r.val * 32768 + m.val * 512 + k.toNat * 256
  | .mdrainMem tok t r m o c e => 0x30000000 + tok.code * 8388608 + t.val * 2097152 + r.val * 32768 + m.val * 512 + o.code * 32 + c.toNat * 4 + e.val
  | .mdrainAcc tok t r m o c e => 0x30000008 + tok.code * 8388608 + t.val * 2097152 + r.val * 32768 + m.val * 512 + o.code * 32 + c.toNat * 4 + e.val
  | .mdrainStr tok t r m o c e => 0x30000010 + tok.code * 8388608 + t.val * 2097152 + r.val * 32768 + m.val * 512 + o.code * 32 + c.toNat * 4 + e.val
  | .mloop tok n b => 0x38000000 + tok.code * 8388608 + n.val * 1024 + b.val
  | .mloopReg tok l b => 0x38400000 + tok.code * 8388608 + l.val * 262144 + b.val
  | .mwaitb tok l t => 0x40000000 + tok.code * 8388608 + l.val * 524288 + t.toNat * 262144
  | .mend tok => 0xF0000000 + tok.code * 8388608
  | .xcopy tok s t l p q => 0x08000000 + tok.code * 8388608 + s.code * 131072 + t.code * 2048 + l.val * 128 + p.toNat * 64 + q.toNat * 32
  | .xgath tok b t i n s => 0x10000001 + tok.code * 8388608 + b.val * 524288 + t.code * 8192 + i.val * 512 + n.val * 32 + s.val * 2
  | .xgathC tok b t n s => 0x10000000 + tok.code * 8388608 + b.val * 524288 + t.code * 8192 + n.val * 32 + s.val * 2
  | .xscat tok s b i n k => 0x18000001 + tok.code * 8388608 + s.code * 131072 + b.val * 8192 + i.val * 512 + n.val * 32 + k.val * 2
  | .xscatC tok s b n k => 0x18000000 + tok.code * 8388608 + s.code * 131072 + b.val * 8192 + n.val * 32 + k.val * 2
  | .xfill tok t p n d => 0x20000000 + tok.code * 8388608 + t.code * 131072 + p.val * 8192 + n.val * 512 + d.toNat * 256
  | .xred tok s d n g r p => 0x28000000 + tok.code * 8388608 + s.code * 131072 + d.val * 8192 + n.val * 512 + g.code * 32 + r.val * 2 + p.toNat
  | .xsend tok s c n p => 0x30000000 + tok.code * 8388608 + s.code * 131072 + c.val * 512 + n.val * 32 + p.toNat * 16
  | .xrecv tok t c n p => 0x38000000 + tok.code * 8388608 + t.code * 131072 + c.val * 512 + n.val * 32 + p.toNat * 16
  | .xloop tok n b => 0x40000000 + tok.code * 8388608 + n.val * 1024 + b.val
  | .xloopReg tok l b => 0x40400000 + tok.code * 8388608 + l.val * 262144 + b.val
  | .xwaitb tok l t => 0x48000000 + tok.code * 8388608 + l.val * 524288 + t.toNat * 262144
  | .xend tok => 0xF0000000 + tok.code * 8388608
  | .pauseEnd _ => 0
  | .loopEndCheck _ => 0
  | .loadDataReturn _ _ => 0
  | .waitaWake _ => 0
  | .barwaitWake _ => 0
  | .barrierCredit _ => 0
  | .waitqWake _ => 0
  | .ringmasterSelect _ => 0
  | .taskStart _ => 0
  | .cancelForward _ => 0
  | .cancelReclaim _ => 0
  | .walkForward _ => 0
  | .barkerWindowExpiry _ _ => 0
  | .barkerLaunch _ _ => 0
  | .attnCommandRun _ _ => 0
  | .aqueryWaitEnd _ _ => 0
  | .vectorBlockStart _ => 0
  | .mwldLoadDone _ _ => 0
  | .tileTaskIssue _ => 0
  | .xredContribution _ => 0
  | .transferProgramStart _ _ => 0
  | .circuitUnitSend _ => 0
  | .circuitUnitArrive _ => 0
  | .storeArrival _ _ => 0
  | .commitMarker _ _ => 0
  | .commitFlip _ => 0
  | .flipNotice _ _ => 0
  | .fenceMarker _ _ => 0
  | .markerAck _ _ => 0
  | .homeReadRequest _ => 0
  | .homeGrantRequest _ => 0
  | .homeUpdRequest _ => 0
  | .fullMerge _ => 0
  | .writeBack _ => 0
  | .parkedPartial _ => 0
  | .probeRead _ => 0
  | .probeInvalidate _ => 0
  | .probeMerge _ => 0
  | .dataReply _ => 0
  | .shootdown _ => 0
  | .leaseExpiry _ => 0
  | .remoteAccess _ _ _ _ => 0
  | .remoteCommitBatch _ _ _ => 0
  | .fabricTimeout _ => 0
  | .taskEnd _ => 0
  | .instanceStart _ => 0
  | .taskAbort _ => 0
  | .strandPreempt _ => 0
  | .engineContinuationStop _ _ => 0
  | .contextResume _ => 0
  | .recordTake _ => 0
  | .gangStart _ => 0
  | .launchComplete _ => 0
  | .queueSwitchIn _ => 0
  | .queueSwitchOut _ => 0
  | .tailWrite _ _ => 0
  | .enqueueWindowWrite _ _ _ => 0
  | .fabricRecord _ _ _ _ _ => 0
  | .hostRead _ _ => 0
  | .hostWrite _ _ => 0
  | .asqtail _ => 0
  | .adminRingBaseWrite _ _ => 0
  | .registerWrite _ _ => 0
  | .ctxCreate _ => 0
  | .ctxDestroy _ => 0
  | .qCreate _ => 0
  | .qBind _ => 0
  | .qArm _ => 0
  | .qDestroy _ => 0
  | .memMap _ => 0
  | .memUnmap _ => 0
  | .codeLoad _ => 0
  | .kvPool _ => 0
  | .kvReserve _ => 0
  | .limits _ => 0
  | .carousel _ => 0
  | .attest _ => 0
  | .journalRead _ => 0
  | .clusterReset _ => 0
  | .telemetry _ => 0
  | .residencyReport => 0
  | .uncorrectableError _ => 0
  | .correctedError => 0
  | .coldReset => 0
  | .warmReset => 0
  | .devassign _ => 0
  | .pStateChange _ => 0
  | .powerCapExceeded => 0
  | .powerCapRecover => 0
  | .thermalThrottle => 0
  | .thermalRecover => 0
  | .thermtrip => 0
  | .illegalInstruction _ _ => 0
  | .fetchFault _ => 0
  | .probeAnswer _ => 0
  | .fabricAnswer _ _ => 0
  | .perstRelease => 0
  | .jtagDebugger _ _ => 0

/-! ### The table's own fixed bits -/

/-- Value and mask of the fixed bits of each sequencer row (R31). -/
def rowsSq : List (Nat × Nat) :=
  [(0x0, 0xFFFFFFFF), (0x1, 0xFFFFFFFF), (0x2, 0xFFFF003F), (0x3, 0xFFFFFFFF), (0x4, 0xFFFF003F),
   (0x5, 0xFFFFFFFF), (0x6, 0xFFFF003F), (0x7, 0xFFFFFFFF), (0x4000000, 0xFC0007FF), (0x4000020, 0xFC0007FF),
   (0x4000040, 0xFC0007FF), (0x4000060, 0xFC0007FF), (0x4000080, 0xFC0007FF), (0x40000A0, 0xFC0007FF), (0x40000C0, 0xFC0007FF),
   (0x40000E0, 0xFC0007FF), (0x4000100, 0xFC0007FF), (0x4000120, 0xFC0007FF), (0x4000140, 0xFC0007FF), (0x4000160, 0xFC0007FF),
   (0x4000180, 0xFC0007FF), (0x40001A0, 0xFC0007FF), (0x40001C0, 0xFC0007FF), (0x40001E0, 0xFC0007FF), (0x4000200, 0xFC0007FF),
   (0x4000220, 0xFC0007FF), (0x4000240, 0xFC0007FF), (0x4000260, 0xFC0007FF), (0x4000280, 0xFC0007FF), (0x40002A0, 0xFC0007FF)]
  ++
  [(0x40002C0, 0xFC0007E0), (0x40002E0, 0xFC00FFFF), (0x4000300, 0xFC00FFFF), (0x4000320, 0xFC00FFFF), (0x4000340, 0xFC0007FF),
   (0x4000360, 0xFC0007FF), (0x8000000, 0xFC000000), (0xC000000, 0xFC000000), (0x10000000, 0xFC000000), (0x14000000, 0xFC000000),
   (0x18000000, 0xFC000000), (0x1C000000, 0xFC00FFC0), (0x1C000040, 0xFC00FFC0), (0x1C000080, 0xFC00FFC0), (0x20000000, 0xFC000000),
   (0x24000000, 0xFC000000), (0x28000000, 0xFC000000), (0x2C000000, 0xFC00C000), (0x2C004000, 0xFC00C000), (0x2C008000, 0xFC00C000),
   (0x2C00C000, 0xFC00C000), (0x30000000, 0xFC00E000), (0x34000000, 0xFC00F000), (0x38000000, 0xFC180000), (0x40000000, 0xFC000783),
   (0x40000080, 0xFC000783), (0x40000100, 0xFC000783), (0x40000180, 0xFC000783), (0x40000200, 0xFC00FF83), (0x40000280, 0xFC000783)]
  ++
  [(0x40000300, 0xFC0007F3), (0x40000380, 0xFC0007F3), (0x40000400, 0xFC000783), (0x40000480, 0xFC008780), (0x40000500, 0xFC00FFFF),
   (0x44000000, 0xFC000000), (0x48000000, 0xFC000000), (0x4C000000, 0xFC000000), (0x50000000, 0xFC000000), (0x54000000, 0xFC000000),
   (0x58000000, 0xFC000000), (0x60000000, 0xFC000000), (0x64000000, 0xFC000000), (0x68000000, 0xFFE0FFFF), (0x68000080, 0xFC00FFFF),
   (0x6C000000, 0xFC1FFF00), (0x6C100000, 0xFFF00000), (0x70000000, 0xFFFFFFFF), (0x70000080, 0xFFE0FFFF), (0x70000100, 0xFC1FFFF8),
   (0x70000180, 0xFC00FFFF), (0x700001C0, 0xFC00FFFF), (0x74000000, 0xFFE00000), (0x75000000, 0xFFE00000), (0x76000000, 0xFFE00000),
   (0x78000000, 0xFC000003), (0x7C000000, 0xFC1FFFFC), (0x7C000080, 0xFC00FFFF), (0x7C000100, 0xFC00FFFF), (0x80000000, 0xFC000001)]
  ++
  [(0x80000001, 0xFC000001), (0x84000000, 0xFC000001), (0x84000001, 0xFC000001), (0x88000000, 0xFC000001), (0x88000001, 0xFC000001),
   (0x8C000000, 0xFC000001), (0x90000000, 0xFC000001), (0x94000000, 0xFC000001), (0x98000000, 0xFC000001), (0x9C000000, 0xFC000001),
   (0xA0000000, 0xFC0007C0), (0xA0000080, 0xFC0007C0), (0xA0000100, 0xFC0007C0), (0xA0000180, 0xFC0007C0), (0xA0000200, 0xFC0007C0),
   (0xA0000280, 0xFC0007C0), (0xA0000300, 0xFC0007C0), (0xA0000380, 0xFC0007C0), (0xA0000400, 0xFC0007C0), (0xA0000480, 0xFC0007C0),
   (0xA4000080, 0xFFE007F8), (0xA4000100, 0xFFE007F8), (0xA4000180, 0xFFE007F8), (0xA4000200, 0xFFE007F8), (0xA4000280, 0xFFE007F8),
   (0xA4000300, 0xFFE007F8), (0xA4000380, 0xFFE007F8), (0xA4000400, 0xFFE007F8), (0xA4000480, 0xFFE007F8), (0xA4000500, 0xFFE007F8)]
  ++
  [(0xA4000580, 0xFFE007F8), (0xA4000600, 0xFFE007F8), (0xA4000680, 0xFFE007F8), (0xA8000000, 0xFC1FFFF8), (0xA8000080, 0xFFFFFFF8),
   (0xAC000000, 0xFC0007D8), (0xAC000080, 0xFFE007FF), (0xAC000081, 0xFFE007FF), (0xAC000100, 0xFFE007FF), (0xAC000101, 0xFFE007FF),
   (0xAC000102, 0xFFE007FF), (0xB0000000, 0xFFE007F8), (0xB0000080, 0xFFE007F8), (0xB0000100, 0xFC0007F8), (0xB0000180, 0xFC0007F8),
   (0xB0000200, 0xFC0007F8), (0xB4000000, 0xFC0007FF), (0xB4000080, 0xFC00FFFF), (0xB4000100, 0xFC0007FF), (0xC0000000, 0xFC00FFFF),
   (0xC0000001, 0xFC00FFFF), (0xC0000002, 0xFC00FFFF), (0xC0000080, 0xFC0007FF), (0xC0000100, 0xFC00FFFF), (0xC0000180, 0xFFE0FFFF),
   (0xC0000200, 0xFFE007FF), (0xC0000280, 0xFC0007FF), (0xC00002C0, 0xFC0007FF), (0xC0000300, 0xFC00FFFF), (0xC0000380, 0xFC00FFFF)]
  ++
  [(0xC0000400, 0xFC00FFBF), (0xC4000000, 0xFC0007FF), (0xC4000040, 0xFC0007FF), (0xC4000080, 0xFFE007F0), (0xC4000100, 0xFC00FFFC),
   (0xC4000180, 0xFFE007FF), (0xC4000200, 0xFFE007FF), (0xC4000280, 0xFFE007FF), (0xC4000300, 0xFC00FFFF), (0xC8000000, 0xFC0007FF),
   (0xC8000080, 0xFC0007FF), (0xC8000100, 0xFC00FFFF), (0xD0000000, 0xFC0007FF), (0xD0000080, 0xFC0007FF), (0xD00000C0, 0xFC0007FF),
   (0xD0000100, 0xFC00FFFF), (0xD0000140, 0xFC00FFFF), (0xD0000180, 0xFC00FFFF), (0xD0000200, 0xFFE0FFFF), (0xD0000240, 0xFFE0FFFF),
   (0xD0000280, 0xFC0007FF), (0xD0000300, 0xFFE0FFFF), (0xD0000340, 0xFFE0FFFF), (0xD0000380, 0xFC00FFFF), (0xD0000381, 0xFC0007FF),
   (0xD0000382, 0xFC0007FF), (0xD0000383, 0xFC00FFFF), (0xD4000000, 0xFC0007FF), (0xD4000080, 0xFC00FFFF), (0xD40000C0, 0xFC0007FF)]
  ++
  [(0xD4000100, 0xFC00FFFF), (0xD4000180, 0xFC00FFFF), (0xE0000000, 0xFC1FF000), (0xE0004000, 0xFC00F000), (0xE0008000, 0xFC00F000),
   (0xE000C000, 0xFC00F000)]

/-- Value and mask of the fixed bits of each vector row (R31). -/
def rowsVec : List (Nat × Nat) :=
  [(0x4000000, 0xFC0000F9), (0x4000008, 0xFC0000F9), (0x4000010, 0xFC0000F9), (0x4000018, 0xFC0000FB), (0x4000020, 0xFC0000FB),
   (0x4000028, 0xFC0000FB), (0x4000030, 0xFC0000FF), (0x4000038, 0xFC0000FF), (0x4000040, 0xFC0000FF), (0x4000048, 0xFC0000F9),
   (0x4000050, 0xFC0000FF), (0x4000058, 0xFC0000FF), (0x4000060, 0xFC00F8FD), (0x4000068, 0xFC00F8FD), (0x4000070, 0xFC0000FF),
   (0x8000000, 0xFC0000F8), (0x8000008, 0xFC0000F8), (0x8000010, 0xFC0000F8), (0x8000018, 0xFC0000F8), (0x8000020, 0xFC0000F8),
   (0x8000028, 0xFC00F8F8), (0x8000030, 0xFC0000FF), (0x8000038, 0xFC0000FF), (0x8000040, 0xFC00F8FF), (0x8000048, 0xFC00F8F8),
   (0xC000000, 0xFC0007E0), (0xC000020, 0xFC0007FF), (0xC000040, 0xFC0007FF), (0xC000060, 0xFC00FFFF), (0xC000080, 0xFF80FFFF)]
  ++
  [(0xC0000A0, 0xFF80FFFF), (0x10000000, 0xFC0080F0), (0x10000020, 0xFC00FFFF), (0x10000040, 0xFC00FFFF), (0x10000060, 0xFC00F8FF),
   (0x10000080, 0xFC0000E0), (0x14000000, 0xFC0000FF), (0x14000040, 0xFC0000C0), (0x14000080, 0xFC00F8C0), (0x140000C0, 0xFC1FF8C0),
   (0x18000000, 0xFF80F8EF), (0x18000040, 0xFF80F8FF), (0x18000080, 0xFF80F8C7), (0x180000C0, 0xFF80F8C7), (0x1C000000, 0xFC1F80E0),
   (0x1C000020, 0xFC1F80E0), (0x1C000040, 0xFC1080E0), (0x1C000060, 0xFC1080E0), (0x1C000080, 0xFC0080E0), (0x1C0000A0, 0xFC0080E0),
   (0x20000000, 0xFFE0F8F8), (0x20000040, 0xFC00FFF8), (0x20000080, 0xFF9EFFF8), (0x24000000, 0xFC0000F0), (0x28000000, 0xFC1FF8FC),
   (0x28000040, 0xFC00FFFC), (0x28000080, 0xFFE0FFFC), (0x2C000000, 0xFFE007FC), (0xF8000000, 0xFFFFFFFF)]

/-- Value and mask of the fixed bits of each matrix row (R31). -/
def rowsMx : List (Nat × Nat) :=
  [(0x8000000, 0xF8001FFF), (0x10000000, 0xF87FFFFF), (0x18000000, 0xF8003FFF), (0x20000000, 0xF800001F), (0x28000000, 0xF80000FF),
   (0x30000000, 0xF8000018), (0x30000008, 0xF8000018), (0x30000010, 0xF8000018), (0x38000000, 0xF8400000), (0x38400000, 0xF843FC00),
   (0x40000000, 0xF803FFFF), (0xF0000000, 0xF87FFFFF)]

/-- Value and mask of the fixed bits of each transfer row (R31). -/
def rowsXf : List (Nat × Nat) :=
  [(0x8000000, 0xF800001F), (0x10000001, 0xF8000001), (0x10000000, 0xF8001E01), (0x18000001, 0xF8000001), (0x18000000, 0xF8001E01),
   (0x20000000, 0xF80000FF), (0x28000000, 0xF8000000), (0x30000000, 0xF800000F), (0x38000000, 0xF800000F), (0x40000000, 0xF8400000),
   (0x40400000, 0xF843FC00), (0x48000000, 0xF803FFFF), (0xF0000000, 0xF87FFFFF)]

/-- The fewest bits of a word that are set outside the fixed bits of a row that fits it; 33 if none fits. -/
def operandBits (rows : List (Nat × Nat)) (w : Nat) : Nat :=
  rows.foldl (fun n r => if w &&& r.2 = r.1 then min n ((List.range 32).countP fun k => w.testBit k && !r.2.testBit k) else n) 33

/-- The same, of a section whose decoder accepts the word; else 33. -/
noncomputable def sectionBits (sec : CodeSection) (w : Nat) : Nat :=
  match decode sec w, sec with
  | .error _, _ => 33
  | .ok _, .sq => operandBits rowsSq w
  | .ok _, .vec => operandBits rowsVec w
  | .ok _, .mx => operandBits rowsMx w
  | .ok _, .xf => operandBits rowsXf w

/-- The section in which a word of the opcode table is read: the table names none, and the four sections share words. It is the one in
whose legal reading of the word fewest operand bits are set; of equals, the first of sequencer, vector, matrix and transfer (log 8). -/
noncomputable def tableSection (w : Nat) : CodeSection :=
  let a := sectionBits .sq w
  let b := sectionBits .vec w
  let c := sectionBits .mx w
  let d := sectionBits .xf w
  if a ≤ b && a ≤ c && a ≤ d then .sq else if b ≤ c && b ≤ d then .vec else if c ≤ d then .mx else .xf

/-- The instruction of a word of the opcode table: rows have 32 bits, and a shorter row's upper bits are zero. -/
noncomputable def decodeTableWord (nbits w : Nat) : Option Instr :=
  let v := w % 2 ^ nbits
  match decode (tableSection v) v with
  | .ok i => some i
  | .error _ => none

end Sys2Proof
end

