-- ==== Sys2Proof/Machine/State.lean ====
section
/-! DEFINITION. State.lean: all the state the spec gives the machine, as plain data: the strand of each core (R43, R44, R254),
its command queues and engines (R74, R187), the clusters (R19, R270..R279), memory and its coherence (R283..R317), the search
blocks (R113..R137), the chiplets (R225..R250), queues, launches and firmware (R254..R260, R376..R399). -/

namespace Sys2Proof.Machine

/-- The cause codes of R354. -/
inductive Cause where
  | illegal | fetchtgt | fetch | loopdepth | loopnest | badopnd | swtrap | bkpt | taskctx | noderef | txmiss | staleblk
  | addrform | align | pageflt | prot | buserr | remote | scope
  | blocklen | ewidth | lregcap | streamfull | lkupdesc | tritbyte
  | channel | proglen | steploop | notfifo | noplane | format | tilekind | sparsemeta | draindesc | barerr | xradmit | circuit
  | kvempty | recrefuse | engfetch | barcredit | ecc | residue | lostline | cancel | crash | shape
  deriving DecidableEq, Repr

def Cause.code : Cause → Nat
  | .illegal => 0x01 | .fetchtgt => 0x02 | .fetch => 0x03 | .loopdepth => 0x04 | .loopnest => 0x05 | .badopnd => 0x06
  | .swtrap => 0x07 | .bkpt => 0x08 | .taskctx => 0x09 | .noderef => 0x0A | .txmiss => 0x0B | .staleblk => 0x0C
  | .addrform => 0x10 | .align => 0x11 | .pageflt => 0x12 | .prot => 0x13 | .buserr => 0x14 | .remote => 0x15 | .scope => 0x16
  | .blocklen => 0x20 | .ewidth => 0x21 | .lregcap => 0x22 | .streamfull => 0x23 | .lkupdesc => 0x24 | .tritbyte => 0x25
  | .channel => 0x26 | .proglen => 0x27 | .steploop => 0x28 | .notfifo => 0x29 | .noplane => 0x2A | .format => 0x2B
  | .tilekind => 0x2C | .sparsemeta => 0x2D | .draindesc => 0x2E | .barerr => 0x2F | .xradmit => 0x30 | .circuit => 0x31
  | .kvempty => 0x32 | .recrefuse => 0x33 | .engfetch => 0x34 | .barcredit => 0x35 | .ecc => 0x40 | .residue => 0x41
  | .lostline => 0x42 | .cancel => 0x48 | .crash => 0x49 | .shape => 0x4A

/-! ### The strand -/

/-- Who makes a step; `attn` stands for a chiplet that runs a command of the core, `tile` for the cluster's tile scheduler, which reads the
core's records. -/
inductive Agent where
  | seq | vec | xin | xout | arr0 | arr1 | attn | tile
  deriving DecidableEq, Repr

/-- An entry of the loop-index stack (R70): the body's first and last block, the count, the index and the instance number. -/
structure LoopEntry where
  start : W64
  endblk : W64
  count : Nat
  idx : Nat
  inst : Nat
  deriving DecidableEq, Repr

/-- A trap bank (R355). -/
structure TrapBank where
  epc : W64
  ecause : W64
  eval : W64
  etask : W64
  estat : W64
  deriving DecidableEq, Repr

/-- How a task ends (R85, R120, R121). -/
inductive EndKind where
  | halt
  | done (x : W64)
  | join (desc x : W64)
  deriving DecidableEq, Repr

/-- What the sequencer is doing. -/
inductive SeqState where
  /-- the strand has no task (R254) -/
  | idle
  | run
  /-- PAUSE until a core cycle (R83) -/
  | pause (wake : Nat)
  /-- execution left the innermost loop's end block, the block before pc: the check of R71 is due -/
  | endCheck
  /-- asleep in WAITA: destination, cell address, width, awaited-against value (R102) -/
  | waita (gd : Reg) (addr w : Nat) (val : W64)
  /-- asleep in BARWAIT: destination, cell address of the object, awaited turn (R105) -/
  | barwait (gd : Reg) (addr : Nat) (turn : Bool)
  /-- asleep in WAITQ: destination, queue (R110) -/
  | waitq (gd : Reg) (q : Nat)
  /-- asleep in PICK: the named trees, the cycle it went to sleep (R118, R322) -/
  | pick (trees : W64) (since : Nat)
  /-- HALT, DONE or JOIN waits for the task's commands (R85) -/
  | ending (k : EndKind)
  /-- stopped at a BKPT by the debugger (R83) -/
  | stopped
  /-- pre-empted; the strand's context is in its save area (R364) -/
  | preempted
  deriving DecidableEq, Repr

/-- How execution reached the block at pc: decides the fault when it cannot be fetched (R358). -/
inductive Reach where
  /-- past the last word, a loop end check that continues after the loop, TRET, or a trap's entry -/
  | along
  /-- a loop end check that returns to the body's start (R71) -/
  | loop
  /-- a taken branch or jump at this address -/
  | jump (from_ : W64)
  deriving DecidableEq, Repr

/-- A fault report (R362). -/
structure FaultReport where
  faddr : W64
  waddr : W64
  taskid : W32
  offset : Nat
  popped : Nat
  stream : Option Nat
  engine : Nat
  core : Nat
  code : Nat
  deriving DecidableEq, Repr

/-- A load whose data has not returned (R90): the bytes known so far; its register is g0 once another word has written the one it names
(log 55). Cell addresses are physical addresses of this device, or
remoteBase plus bits [62:0] of a global address of another device. -/
structure PendingLoad where
  gd : Reg
  signed : Bool
  addr : Nat
  bytes : List (Option Byte)
  deriving DecidableEq, Repr

/-- A line under snapshot (R286): its number and its 128 bytes. -/
structure Snapshot where
  line : Nat
  bytes : List Byte
  deriving DecidableEq, Repr

/-- An update not yet accepted (R78, R100): the issuing core, the tag, the cell address, the operand. -/
structure PendingUpd where
  core : Nat
  tag : UpdTag
  addr : Nat
  b : W64
  deriving DecidableEq, Repr

/-- A commit under way (R284): destinations of the markers, those a marker has reached, those whose acknowledgement has come,
the number once flipped, and whether it is an implicit boundary's (R287). -/
structure CommitRec where
  dests : List Nat
  marked : List Nat
  acked : List Nat
  number : Option Nat
  implied : Bool
  deriving DecidableEq, Repr

/-- A fence under way (R93, R281, R313): destinations of the markers, those reached, those whose acknowledgement has come. -/
structure FenceRec where
  dests : List Nat
  marked : List Nat
  acked : List Nat
  deriving DecidableEq, Repr

/-- A request sent over the fabric for which an agent of the core waits, and its answer (R87, R109, R385); for a walk the node that it has
been passed on to since (R334). -/
structure RemoteReq where
  who : Agent
  dev : Nat
  addr : W64
  since : Nat
  answer : Option FabricReply
  reached : Option W64 := none
  deriving DecidableEq, Repr

/-- A granule of a hint at another device (R103): address, bytes, the fabric cycle it was sent; the form 0 PFH.l1, 1 PFH.l2, 2 RSD.keep,
3 RSD.low, 4 RSD.clean. -/
structure HintReq where
  addr : W64
  n : Nat
  since : Nat
  form : Nat
  deriving DecidableEq, Repr

/-- NSEL between two reads (R132): the parent's root, the first child, how many there are, the next to read, the best so far with its
score. -/
structure Scan where
  sq : Nat
  child : W64
  n : Nat
  i : Nat
  best : Option (Nat × Nat)
  deriving DecidableEq, Repr

/-- The body of a launch instance (R254): launch, linear number, task id (R113). -/
structure Body where
  launch : Nat
  linear : Nat
  taskid : W32
  deriving DecidableEq, Repr

/-- A command of one of the five queues (R74): what it captured at issue. -/
structure Cmd where
  num : Nat
  addr : W64
  mask : BitVec 16
  regs : Vector W64 16
  rm : RMode
  /-- instance number and index of every loop entry, innermost first -/
  tag : List (Nat × Nat)
  started : Bool
  deriving DecidableEq, Repr

/-- A running vector block (R161, R165): its command, the word it is at, its sticky flags IV, OF, UF, NX, TRIT, and the lines of other
devices that the word's stores may write (R91). -/
structure VecRun where
  cmd : Cmd
  start : W64
  pc : W64
  flags : BitVec 5
  seen : List Nat
  /-- the blocks fetched for it (R86) -/
  code : List (W64 × List W32)
  /-- VSH when the block began, which CSRR shows until it ends (R82) -/
  vsh0 : W64 := 0x102
  /-- the word's stores have found VQUOTA passed: their boundary comes once (R90, R287) -/
  passed : Bool := false
  deriving DecidableEq, Repr

/-- A running step program of a channel or an array (R187..R195). -/
structure ProgRun where
  cmd : Cmd
  /-- core that issued it -/
  core : Nat
  start : W64
  pc : W64
  /-- private copies of the loop registers (R190) -/
  regs : Vector W64 16
  /-- step loops, innermost first: start, end, count, index -/
  loops : List (W64 × W64 × Nat × Nat)
  /-- where the current step stands (R192): 0 before its ready token, 1 before its free token, 2 at work, 3 before its ready token is
  sent, 4 before its free token is sent -/
  stage : Nat
  /-- the program stands at an interruptible point (R219) -/
  point : Bool
  /-- pieces, rows, units or lines of the current step performed -/
  done : Nat
  /-- the bytes of a unit being pushed or popped within the current step -/
  buf : List Byte
  /-- the index of the row being moved (R214), or the drain descriptor of the step (R205), once read -/
  idx : Option Nat
  /-- streams the program has named (R363) -/
  streams : List Nat
  /-- token queues upstream and downstream, if any (R262) -/
  up : Option Nat
  down : Option Nat
  /-- the blocks fetched for it (R86) -/
  code : List (W64 × List W32)
  /-- the stream it is blocked on, if any (R81, R277) -/
  waits : Option Nat
  /-- an engine fault found, raised at the next boundary (R200) -/
  fault : Option FaultReport
  /-- an XSEND or XRECV of the program is under way (R316) -/
  circuit : Bool
  /-- stopped at an interruptible point by a pre-emption (R219) -/
  stopped : Bool
  /-- its step waits for a slot, a token or a turn: a cut may land (R363) -/
  idle : Bool := false
  /-- its fault is raised once the line of the status can be written (R212, R284) -/
  failing : Bool := false
  deriving DecidableEq, Repr

/-- A core: one strand, its queues, its vector engine and channels. -/
structure Core where
  id : Nat
  /-- context of the strand, if any -/
  ctx : Option Nat
  pc : W64
  g : Vector W64 32
  l : Vector W64 16
  loops : List LoopEntry
  nextInst : Nat
  /-- pick return point and its register (R118) -/
  pickRet : Option (W64 × Reg)
  /-- slacks: vector, in-channel, out-channel, matrix, attention (R79) -/
  slack : Vector Nat 5
  v : Vector VWord 32
  /-- m1..m7 at indices 1..7; index 0 is never read -/
  m : Vector W256 8
  q : Vector W64 4
  ports : Vector (List W32) 8
  /-- token queues: ready and free counters (R262) -/
  tq : Vector (Nat × Nat) 4
  gens : Vector W256 4
  /-- stream 3's pending 16-bit half (R160) -/
  genHalf : Option (BitVec 16)
  status : W64
  taskid : W32
  treeid : W32
  fctl : W64
  vsh : W64
  rngcfg : W64
  vquota : W64
  lasttag : W64
  hintdrop : W64
  lease1 : W64
  lease2 : W64
  carbase : W64
  xrbase : W64
  acclive : W64
  fpu : W64
  cpuct : W64
  vlv : W64
  repthr : W64
  tvec : W64
  crashbase : W64
  bank0 : TrapBank
  bank1 : TrapBank
  seq : SeqState
  reach : Reach
  /-- parts done of the instruction at pc when it has several (fence, effect, boundary) -/
  micro : Nat
  /-- the cell address that the instruction at pc has been checked for, while it has parts to do (R87, R297) -/
  target : Option Nat := none
  /-- the line that the atomic at this address has asked to own (R97, R280) -/
  claim : Option (Nat × W64) := none
  /-- hints sent to other devices and not answered (R103) -/
  hints : List HintReq := []
  /-- acknowledgements awaited for commits: their number, the device (R92) -/
  acks : List (Nat × Nat) := []
  /-- the fabric cycle of its last observation of a turn or of a command's completion: leased copies asked for before it serve it no more
  (R94, R106) -/
  acquired : Nat := 0
  /-- the scan that the NSEL at pc has begun (R132) -/
  scan : Option Scan := none
  body : Option Body
  /-- leaf instances this strand has still to run, by linear number (R257) -/
  todo : List Nat
  launch : Option Nat
  /-- control block of the current Ringmaster task: die, index -/
  ring : Option (Nat × Nat)
  /-- errors charged to the task and not yet taken (R357, R361), oldest first -/
  held : List FaultReport
  /-- fetched sequencer blocks (R42, R86) -/
  code : List (W64 × List W32)
  /-- cached vector blocks and step programs (R86) -/
  ecode : List (W64 × List W32)
  /-- debugger attached, break enabled (R83) -/
  debugger : Bool
  breakOn : Bool
  loads : List PendingLoad
  /-- plain stores on their way to their home slice: destination, cell addresses (R78, R284) -/
  stores : List (Nat × List Nat)
  version : List Host.Cell
  versionId : Option Nat
  snaps : List Snapshot
  /-- an implicit boundary is due (R287) -/
  implicit : Bool
  commit : Option CommitRec
  fence : Option FenceRec
  /-- destinations of Q messages since the last fence or commit (R313) -/
  path : List Nat
  remote : Option RemoteReq
  vq : List Cmd
  xinq : List Cmd
  xoutq : List Cmd
  mq : List Cmd
  aq : List Cmd
  nextCmd : Nat
  vrun : Option VecRun
  xin : Option ProgRun
  xout : Option ProgRun
  deriving DecidableEq, Repr

/-! ### The cluster -/

/-- A bank (R81, R275, R276): mode 0 cache, 1 scratch, 2 FIFO; slot size code; the counters; the filled slots, oldest first; the claims after
them in ring order, each with the engine that made it and the bytes once it has filled its slot; and the engine that is reading the oldest
slot (0..3 in-channels, 4 and 5 the arrays, 6..9 out-channels, 10 and 11 the arrays' plane loads). -/
structure Bank where
  mode : Nat
  slot : Nat
  pushed : BitVec 16
  popped : BitVec 16
  slots : List (List Byte)
  claims : List (Nat × Option (List Byte))
  consumer : Option Nat
  deriving DecidableEq, Repr

/-- A pinned page of the scratch window (R273). -/
structure Frame where
  frame : Nat
  ctx : Nat
  page : Nat
  last : Nat
  /-- the physical page of its backing lines, in 4 KiB -/
  base : Nat := 0
  deriving DecidableEq, Repr

/-- The state of a weight plane (R196). -/
inductive PlaneState where
  | empty | loading | loaded
  deriving DecidableEq, Repr

/-- A weight plane (R196..R200): state, format (type, sparse), stream, bytes. -/
structure Plane where
  state : PlaneState
  fmt : Option (Ty × Bool)
  stream : Nat
  bytes : List Byte
  deriving DecidableEq, Repr

/-- A tile row (R196): kind F when float, else I; 256 words of 32 bits. -/
structure TileRow where
  float : Bool
  w : List W32
  deriving DecidableEq, Repr

/-- A tile-task record accepted by the tile scheduler (R52, R209); `waited` and `waited1` once BAR0's and BAR1's turn has been seen on another
device; the fabric cycles of the last question for each. -/
structure TileRec where
  core : Nat
  cmd : Cmd
  ctx : Nat
  words : List W64
  waited : Bool
  waited1 : Bool := false
  asked0 : Nat := 0
  asked1 : Nat := 0
  deriving DecidableEq, Repr

/-- A matrix array (R196..R212): the planes; the stream and format of the last MWLD, and its address or that of the MMAC that started the
load; the A stream and its type; the tiles. -/
structure MatArray where
  active : Plane
  shadow : Plane
  last : Option (Nat × Ty × Bool)
  loadWord : W64
  aStream : Option (Nat × Ty)
  tiles : Vector (List (Nat × TileRow)) 4
  run : Option ProgRun
  rcd : Option TileRec
  /-- the status bits gathered: PRE 7, NAN 6, OF 5, SAT 4, TRIT 3 (R212) -/
  bits : Nat
  deriving DecidableEq, Repr

/-- A partial of a line in U (R100, R304): 128 bytes and a touched bit per element. -/
structure Partial where
  tag : UpdTag
  bytes : List Byte
  touched : List Bool
  deriving DecidableEq, Repr

/-- The stable states of an L1 copy (R302). -/
inductive LineSt where
  | i | s | m | o | u
  deriving DecidableEq, Repr

/-- The transient states of an L1 copy (R303). -/
inductive Xs where
  | none | is | im | sm | iu | mi | ui
  deriving DecidableEq, Repr

/-- The probes (R303). -/
inductive Probe where
  | read | invalidate | merge
  deriving DecidableEq, Repr

/-- A cluster filter entry (R302), kept also for a write-back buffer (R311): the snapshot holders, the tag and partial while in U, the probes held meanwhile. -/
structure FilterEntry where
  line : Nat
  hold : List Nat
  xs : Xs
  st : LineSt
  part : Option Partial
  /-- updates waiting for admission, in arrival order (R303) -/
  queue : List PendingUpd
  heldProbes : List (Probe × Option Nat)
  /-- the fabric cycle of its last access (R271) -/
  last : Nat := 0
  deriving DecidableEq, Repr

/-- An entry of a snapshot hold buffer (R286): the slice (core of the cluster), the line, the strands it serves. -/
structure HoldEntry where
  slice : Nat
  line : Nat
  holders : List Nat
  deriving DecidableEq, Repr

/-- A monitor of WAITA (R102). -/
structure Monitor where
  core : Nat
  line : Nat
  deriving DecidableEq, Repr

/-- A cached translation (R307): context, page of the virtual address, the leaf, and the regions its walk read. -/
structure Translation where
  ctx : Nat
  vpage : Nat
  leaf : W64
  level : Nat
  regions : List Nat
  deriving DecidableEq, Repr

/-- A copy of a line of another device (R293): bytes and expiry; the strands that hold a snapshot of it (R286), the fabric cycle of
its last access (R271), for an L2 copy the clusters that may no longer fill from it (R98), and the fabric cycle it was asked for (R106). -/
structure Lease where
  line : Nat
  bytes : List Byte
  expiry : W32
  hold : List Nat := []
  last : Nat := 0
  barred : List Nat := []
  asked : Nat := 0
  deriving DecidableEq, Repr

/-- A cluster (R19). -/
structure Cluster where
  banks : Vector Bank 32
  frames : List Frame
  arr0 : MatArray
  arr1 : MatArray
  records : List TileRec
  monitors : List Monitor
  filter : List FilterEntry
  holdBuf : List HoldEntry
  tlb : List Translation
  leases : List Lease
  deriving DecidableEq, Repr

/-! ### Homes -/

/-- The state of a line at its home (R300). -/
inductive HomeSt where
  | unc | shd | own | upd | cmt | mrg
  deriving DecidableEq, Repr

/-- A directory line field (R300), with the clusters whose probe answer is awaited, the leaves a merge has received, the parked
partials and the fabric partial (R304, R100), the cores whose acknowledged commit holds bytes of the line (R284), and the state a
merge leads to. -/
structure DirLine where
  line : Nat
  hs : HomeSt
  op : Option UpdTag
  owner : Nat
  await : List Nat
  leaves : List (Nat × Partial)
  parks : List (Nat × Partial)
  fab : Option Partial
  commits : List Nat
  deriving DecidableEq, Repr

/-- The region part of a directory entry (R300): WALK bits and PRES; and whether the entry is being evicted (R301). -/
structure DirRegion where
  region : Nat
  walk0 : Bool
  walk1 : Bool
  pres : List Nat
  evicting : Bool := false
  deriving DecidableEq, Repr

/-- The protocol messages of R303..R311 in flight: the cluster, the line, and what it asks or answers. -/
inductive Msg where
  | readReq (g line : Nat)
  | grantReq (g line : Nat)
  | updReq (g line : Nat) (tag : UpdTag)
  | writeBack (g line : Nat)
  | parked (g line : Nat) (p : Partial)
  | probe (g line : Nat) (k : Probe) (req : Option Nat)
  /-- data or grant: the stable state it installs, and the partial for an admission to U -/
  | reply (g line : Nat) (st : LineSt) (part : Option Partial)
  /-- acknowledgement of a write-back or a parked partial -/
  | wbAck (g line : Nat)
  /-- a probe's answer: the partial it sends, whether the copy is kept, whether it supplied the requester -/
  | answer (g line : Nat) (part : Option Partial) (kept sup : Bool)
  /-- a shootdown of a region for the translation caches of a die (R307) -/
  | shootdown (die region : Nat)
  deriving DecidableEq, Repr

/-- A slice's pending notice of a flip (R284): the core, the slice, the lines. -/
structure Notice where
  core : Nat
  slice : Nat
  lines : List Nat
  deriving DecidableEq, Repr

/-- What a line carries beside its bytes (R97, R292): its sequence tag and its scope record, the scope and the issuing core. -/
structure LineInfo where
  line : Nat
  tag : W32
  scope : Option (Scope × Nat)
  deriving DecidableEq, Repr

/-- A credit on its way to a barrier object (R104): cell address, the address as named, count, error; the core, context, task and word it
is charged to (R10). -/
structure Credit where
  addr : Nat
  va : W64
  count : Nat
  err : Bool
  core : Nat
  task : W32
  word : W64
  engine : Nat
  ctx : Nat := 0
  deriving DecidableEq, Repr

/-! ### Search blocks -/

/-- The states of a task control block (R115). -/
inductive TcbState where
  | free | ready | bound | running | joined | drain | aborting
  deriving DecidableEq, Repr

/-- A task control block (R114), with its place among ties and, when bound or running, its core. -/
structure Tcb where
  key : W32
  parent : W32
  succ : W32
  arg : W64
  entry : BitVec 26
  owner : BitVec 24
  pend : Nat
  tree : Nat
  gen : Nat
  own : Bool
  canf : Bool
  state : TcbState
  order : Nat
  core : Nat
  deriving DecidableEq, Repr

/-- A tree (R113, R116, R322). -/
structure Tree where
  gen : Nat
  live : Bool
  ctx : Nat
  launch : Nat
  image : Nat
  quantum : Nat
  closed : Bool
  killed : Bool
  defi : Nat
  deriving DecidableEq, Repr

/-- A node record (R126): its context and 256 bits; err while an uncorrectable error stands in it (R370). -/
structure Node where
  ctx : Nat
  bits : W256
  err : Bool
  deriving DecidableEq, Repr

/-- A bin of the Barker (R133..R137). -/
structure Bin where
  ctx : Nat
  core : Nat
  win : Nat
  nslot : Nat
  bsize : Nat
  ring : W64
  tmpl : W64
  wsid : W64
  members : List W64
  t0 : Nat
  seq : Nat
  slot : Nat
  /-- why it is closing, and CYCLE at the close -/
  closing : Option (Nat × Nat)
  deriving DecidableEq, Repr

/-- An owner tag waiting for its last task before reclaim (R328): the tasks of the subtree that carry it, and the roots of the cancel. -/
structure Reclaim where
  ctx : Nat
  owner : BitVec 24
  tasks : List W32
  roots : List W32 := []
  deriving DecidableEq, Repr

/-- A cancel forwarded to the other die (R327): the ids already covered, its kind; the instruction that waits for the whole count: core,
address, task, register, blocks acted on so far (none for TREE.kill, which answers 0); and the ids the cancel named. -/
structure CancelFwd where
  die : Nat
  roots : List W32
  hard : Bool
  core : Nat
  pc : W64
  task : W32
  gd : Reg
  count : Option Nat
  named : List W32 := []
  deriving DecidableEq, Repr

/-- A walk on its way to its next node (R131, R334): the instruction that waits for it, and where the walk stands. -/
structure WalkFwd where
  core : Nat
  pc : W64
  task : W32
  ctx : Nat
  kind : Nat
  node : W64
  v : W32
  d : Nat
  k : Nat
  /-- the device that asked, for a walk begun elsewhere, and the reference it asked with -/
  src : Option Nat := none
  asked : W64 := 0
  deriving DecidableEq, Repr

/-- The search blocks and launch engine of a die (R17). Control blocks, trees, nodes and bins are kept by number, ascending, and
one not listed is free. -/
structure Die where
  tcbs : List (Nat × Tcb)
  trees : List (Nat × Tree)
  ptr : Option Nat
  nextOrder : Nat
  nodes : List (Nat × Node)
  bins : List (Nat × Bin)
  bodyNo : Nat
  reclaims : List Reclaim
  deriving DecidableEq, Repr

/-! ### Attention chiplets -/

/-- A page frame of a chiplet (R225): context, owner tag, whether the owner's hold stands, the share count. -/
structure KvFrame where
  ctx : Nat
  owner : BitVec 24
  ohold : Bool
  share : Nat
  deriving DecidableEq, Repr

/-- A span of a sequence (R231); DELTA as a signed number. -/
structure KvSpan where
  start : Nat
  cnt : Nat
  plist : Nat
  off : Nat
  delta : Int
  prov : Nat
  rwm : Nat
  stale : Bool
  spl : Bool
  deriving DecidableEq, Repr

/-- A model descriptor (R235), its codes resolved: HD, TPP and bytes per element. -/
structure KvModel where
  rbase : Nat
  scl : Nat
  model : Nat
  ropeid : Nat
  roth : Nat
  pair : Bool
  layers : Nat
  kvh : Nat
  gqa : Nat
  hd : Nat
  tpp : Nat
  kvfmt : Nat
  deriving DecidableEq, Repr

/-- What a queued attention command is (R236). -/
inductive AttnKind where
  | append | query (loose : Bool) | sel | put
  deriving DecidableEq, Repr

/-- A queued attention command (R236..R238): the issuing core, context and task, its number in the core's queue, the address of the
instruction, the descriptor's quadwords; what its check copied: HEAD's entry index and owner tag, the model descriptor, the spans, the
tokens each shows it, the frames resolved by slot, the frames it holds, the segments its check used, a put's positions, REPTHR;
whether it waits as a STRICT query (R244), and PARTIAL. Then how far it has come: begun, its input, the tokens written, its stage (0
reads, 1 acts, 2 writes its output, 3 writes its header), the output still to write, COUNT, the bytes written, FORKED, its fault. -/
structure AttnCmd where
  core : Nat
  ctx : Nat
  task : W32
  num : Nat
  word : W64
  kind : AttnKind
  desc : List W64
  head : Nat
  owner : BitVec 24
  model : KvModel
  spans : List KvSpan
  shown : List Nat
  frames : List (Nat × Nat)
  holds : List Nat
  segs : List Nat
  posns : List Nat
  thr : W32
  waiting : Bool
  partial_ : Bool
  begun : Bool
  input : List Byte
  tokens : Nat
  stage : Nat
  output : List Byte
  count : Nat
  wrote : Nat
  forked : Bool
  fault : Option FaultReport
  deriving DecidableEq, Repr

/-- The barrier of a command: descriptor bits [255:192]. -/
def AttnCmd.bar (c : AttnCmd) : W64 := c.desc.getD 3 0

/-- An attention chiplet (R225..R250). Frames, their bytes, entries, locks and models are kept by number, ascending; one not
listed is free. -/
structure Chip where
  pgsz : Nat
  npg : Nat
  reserve : Nat
  frames : List (Nat × KvFrame)
  /-- page bytes, keyed by frame times page size plus offset -/
  bytes : List Host.Cell
  entries : List (Nat × BitVec 128)
  /-- the context that has locked a segment (R234) -/
  locks : List (Nat × Nat)
  /-- model descriptors by context times 16 plus slot (R235) -/
  models : List (Nat × KvModel)
  cmds : List AttnCmd
  /-- sequences to be freed when their last hold ends (R228): context and entry of the HEAD -/
  doomed : List (Nat × Nat)
  deriving DecidableEq, Repr

/-! ### Contexts, launches, queues, firmware -/

/-- A loaded image (R391): handle, address and size of the sequencer section, measurement. -/
structure Image where
  handle : W64
  sqAddr : W64
  sqSize : Nat
  measure : W256
  deriving DecidableEq, Repr

/-- A context (R390). -/
structure Context where
  id : Nat
  /-- physical addresses of the root tables, local and global -/
  rootL : Nat
  rootG : Nat
  tvec : W64
  rngcfg : W64
  stackBytes : Nat
  stackBase : Nat
  spillBytes : Nat
  xrbase : W64
  images : List Image
  nextHandle : Nat
  limTrees : Nat
  limClusters : Nat
  limSegs : Nat
  limNodes : Nat
  params : List W64
  deriving DecidableEq, Repr

/-- Where a launch came from (R260, R331, R381). -/
inductive LaunchSrc where
  | queue (q recno : Nat)
  | barker (die bin : Nat) (slot : W64)
  deriving DecidableEq, Repr

/-- The stage of a launch (R258, R264, R382). -/
inductive LaunchSt where
  | waiting | running | preempting | preempted
  deriving DecidableEq, Repr

/-- A launch (R50, R256..R260): the record's quadwords, the clusters it holds, the leaf instances still to end, the first error
charged; when pre-empted, the number of the next launch at that moment (R382). -/
structure Launch where
  id : Nat
  src : LaunchSrc
  ctx : Nat
  rcd : List W64
  st : LaunchSt
  clusters : List Nat
  left : Nat
  err : Option (Nat × Option FaultReport)
  preAt : Nat
  /-- its context was saved by a part of another shape: it does not resume (R368) -/
  shape : Bool := false
  deriving DecidableEq, Repr

/-- A completion that waits for queue order (R381): record number, none for QFULL; status, UTAG, report. -/
structure Completion where
  recno : Option Nat
  after : Nat
  status : Nat
  utag : W64
  report : Option FaultReport
  deriving DecidableEq, Repr

/-- A work queue (R377..R383). -/
structure Queue where
  id : Nat
  ctx : Nat
  window : Bool
  log2n : Nat
  ring : Nat
  cring : Nat
  pclass : Nat
  weight : Nat
  tail : Nat
  taken : Nat
  done : Nat
  /-- records whose completion has been written (R381) -/
  recDone : Nat
  /-- DONE and TAKEN as last written back (R382) -/
  wbDone : Nat
  wbTaken : Nat
  vec : Nat
  vecOn : Bool
  switching : Bool
  resident : Bool
  waitingSince : Option Nat
  lastTaken : Nat
  errFlag : Bool
  armable : Bool
  boundTo : Option Nat
  sources : List (Nat × Nat)
  /-- records held for DQ: number and quadwords (R379) -/
  records : List (Nat × List W64)
  /-- records taken by DQ whose task has not ended: number, core, task id, UTAG (R111) -/
  dequeued : List (Nat × Nat × W32 × W64)
  comps : List Completion
  /-- records of the current WEIGHT count (R382) -/
  burst : Nat
  /-- destroyed, with completions still to be written (R390) -/
  closing : Bool := false
  deriving DecidableEq, Repr

/-- A circuit unit (R218, R317): the circuit, the die, the bytes; ready at its source, under way until a cycle, or in the
receiver's buffer. -/
structure CircuitUnit where
  die : Nat
  circuit : Nat
  src : Nat
  dst : Nat
  bytes : List Byte
  sent : Bool
  arriveAt : Nat
  buffered : Bool
  deriving DecidableEq, Repr

/-- A pre-empted strand's saved context (R364..R368): with the lane count of the part that saved it, and its circuit buffers. -/
structure Saved where
  launch : Nat
  core : Core
  lanes : Nat := 64
  units : List CircuitUnit := []
  deriving DecidableEq, Repr

/-- A pre-empted cluster's saved banks, arrays and records (R219, R279), with the rows and columns of the arrays (R368). -/
structure SavedCluster where
  launch : Nat
  g : Nat
  banks : Vector Bank 32
  arr0 : MatArray
  arr1 : MatArray
  records : List TileRec
  geometry : Nat × Nat := (128, 256)
  deriving DecidableEq, Repr

/-- The admin registers and Ralzer's state (R388..R393). -/
structure Admin where
  asqbase : W64
  acq : W64
  asqtail : Nat
  served : Nat
  acqdone : Nat
  ready : Bool
  warm : Bool
  jwrap : Bool
  jnext : Nat
  /-- the command taken and not yet performed, with its journal number -/
  pending : Option (AdminCmd × Nat)
  mirror : List (Nat × List Byte)
  xmssIndex : Nat
  xmssBlock : Nat
  deriving DecidableEq, Repr

/-- Telemetry (R369, R376, R387): corrected errors, dropped host writes, report period, destination and number, and the context of the
TELEMETRY that set them. -/
structure Telemetry where
  corrected : Nat
  droppedWrites : Nat
  period : Nat
  dest : W64
  reports : Nat
  lastReport : Nat
  ctx : Nat := 0
  deriving DecidableEq, Repr

/-- A bank of the flash (R395): whether its bundle's signature holds under the fused root key, and the bundle's security version. -/
structure FlashBank where
  signed : Bool
  version : W32
  deriving DecidableEq, Repr

/-- The flash and the fuse of the least security version (R395). -/
structure Flash where
  bank0 : FlashBank
  bank1 : FlashBank
  least : W32
  deriving DecidableEq, Repr

/-- Power and thermal state (R397, R398): PSTATE, the highest state allowed (0..2 P0..P2, 3 S1); the state of the clocks; steps down for
the cap and for heat; POWERCAP; THERMTRIP; core power removed. -/
structure Power where
  allowed : Nat
  current : Nat
  capSteps : Nat
  heatSteps : Nat
  powercap : W64
  thermtrip : Bool
  off : Bool
  deriving DecidableEq, Repr

/-- A message out on the fabric (R385): class (0 A, 1 E, 2 W, 3 C), device, address, core, bytes, the question or the answer it carries,
for a question passed on for another device that device (R334), and for a credit what it is charged to (R104). -/
structure FabricMsg where
  cls : Nat
  dev : Nat
  addr : W64
  core : Nat
  data : List Host.Cell
  op : Option RemoteOp
  reply : Option FabricReply := none
  via : Option Nat := none
  credit : Option Credit := none
  deriving DecidableEq, Repr

/-- A contribution of XRED on its way, or waiting in its slice's admission buffer (R216, R217): the barrier it credits, the task and
the word it comes from. -/
structure XredMsg where
  ctx : Nat
  rid : Nat
  line : Nat
  core : Nat
  tag : UpdTag
  bytes : List Byte
  bar : W64
  task : W32
  word : W64
  arrived : Bool
  deriving DecidableEq, Repr

/-- An open round of a reduction (R217): context, reduction, line, the entry's core ids, the position to apply next. -/
structure XredRound where
  ctx : Nat
  rid : Nat
  line : Nat
  ids : List Nat
  next : Nat
  skip : List Nat
  deriving DecidableEq, Repr

/-- A die's Carousel (R314..R316): the context that holds it, the table its grant named, the loaded table's address and its entries. -/
structure Carousel where
  holder : Option Nat
  granted : W64
  base : W64
  table : List (BitVec 128)
  deriving DecidableEq, Repr

/-! ### The schedule and the whole machine -/

/-- One of several things that happen in one cycle (R280, R321, R329): a step of the device, a message that reaches its destination, the
next word of an agent of a core. -/
inductive Part where
  | event (i : Instr)
  | message (m : Msg)
  | strand (core : Nat) (a : Agent)
  deriving DecidableEq, Repr

/-- What happens next, where the spec leaves it open or the outside world decides (log 4): a step of the device, a move of an agent
of the current core, several things in one cycle, at the search blocks of a die in the order of R321, another core becomes the current one,
fabric cycles pass, a home can no longer keep the parked partials of a line, fetched code is dropped, bring-up takes its next step
(R399). -/
inductive Turn where
  | event (i : Instr)
  | agent (a : Agent)
  | together (die : Nat) (parts : List Part)
  | select (core : Nat)
  | tick (n : Nat)
  | pressure (line : Nat)
  | dropCode
  | bringUp
  deriving DecidableEq, Repr

/-- The machine. `core` is the core whose strand moves next; every other core not in `others`, and every cluster not in
`clusters`, is as after reset. -/
structure State where
  core : Core
  others : List Core
  clusters : List (Nat × Cluster)
  /-- the committed value of every byte (R283) that is not zero -/
  mem : List Host.Cell
  lines : List LineInfo
  dir : List DirLine
  regions : List DirRegion
  msgs : List Msg
  /-- requests that wait at their homes, in slice order (R300) -/
  homeQ : List Msg
  notices : List Notice
  credits : List Credit
  commitNo : Nat
  lost : List Nat
  /-- lines marked by RSD in the L1 of a cluster, by 2^64 times the cluster plus the line: 0 keep, 1 low (R103) -/
  retain : List (Nat × Nat)
  /-- live copies in the L2 of a die (R293) -/
  l2leases : List (Nat × Lease)
  l2tlb : List (Nat × Translation)
  xreds : List XredMsg
  rounds : List XredRound
  units : List CircuitUnit
  car0 : Carousel
  car1 : Carousel
  die0 : Die
  die1 : Die
  cancels : List CancelFwd
  walks : List WalkFwd
  chip0 : Chip
  chip1 : Chip
  contexts : List Context
  launches : List Launch
  nextLaunch : Nat
  queues : List Queue
  /-- round-robin pointers by die times 4 plus class (R382) -/
  rrptr : List (Nat × Nat)
  /-- strands of contexts that are not on their core now, by context times 1,024 plus core (R44) -/
  strands : List (Nat × Core)
  saved : List Saved
  savedClusters : List SavedCluster
  admin : Admin
  /-- page-table pages taken from the firmware region (R374, log 12) -/
  tables : Nat
  telemetry : Telemetry
  devid : Nat
  devValid : Bool
  fabric : List FabricMsg
  /-- MSI-X vectors raised, latest first (R381) -/
  msix : List Nat
  /-- the answer to the last host read (R376) -/
  hostData : List Byte
  /-- bring-up steps done (R399) -/
  bringup : Nat
  pcieTrained : Bool
  power : Power
  /-- debug over JTAG is fuse-enabled (R399) -/
  jtag : Bool
  /-- the firmware bundles in the two banks of the flash (R395) -/
  flash : Flash
  /-- fabric cycles since cold reset (R22, R44) -/
  clock : Nat
  /-- the model's own: the counter that free values are drawn with -/
  freeCount : Nat
  /-- the model's own: who acts in this step -/
  unit : Agent
  /-- the model's own: whose turn the default order reaches next -/
  rr : Nat
  /-- the model's own: what happens next, where the outside or an open order decides -/
  schedule : List Turn
  deriving DecidableEq, Repr

/-! ### Stops -/

/-- Why the machine stops. -/
inductive Fault where
  /-- the step of a module whose core power has been removed at 110 °C (R398): nothing runs; raised by step; safe -/
  | powerRemoved
  deriving DecidableEq, Repr

/-- Why a step is given no meaning. -/
inductive Refusal where
  /-- an instruction of the opcode table whose arm in exec has no meaning yet; no arm of exec raises it; safe -/
  | notModelled (mnemonic : String)
  deriving DecidableEq, Repr

/-! ### Reset -/

def TrapBank.reset : TrapBank := { epc := 0, ecause := 0, eval := 0, etask := 0, estat := 0 }

/-- A core after reset (R44, R254): CSRs at the values R44 gives, no strand running. The rest is DESIGN CHOICE (log 3). -/
def Core.reset (id : Nat) : Core :=
  { id := id, ctx := none, pc := 0, g := Vector.replicate 32 0, l := Vector.replicate 16 0
    loops := [], nextInst := 0, pickRet := none, slack := Vector.replicate 5 0
    v := Vector.replicate 32 0, m := Vector.replicate 8 0, q := Vector.replicate 4 0
    ports := Vector.replicate 8 [], tq := Vector.replicate 4 (0, 0)
    gens := Vector.replicate 4 0, genHalf := none
    status := 0, taskid := 0, treeid := 0, fctl := 0, vsh := 0x102, rngcfg := 0
    vquota := 0x10000, lasttag := 0, hintdrop := 0, lease1 := 16384, lease2 := 65536
    carbase := 0, xrbase := 0, acclive := 0, fpu := 0, cpuct := 0x3FC00000, vlv := 0x3F800000
    repthr := 0x3C23D70A, tvec := 0, crashbase := 0
    bank0 := TrapBank.reset, bank1 := TrapBank.reset
    seq := .idle, reach := .along, micro := 0
    body := none, todo := [], launch := none, ring := none, held := []
    code := [], ecode := [], debugger := false, breakOn := false
    loads := [], stores := [], version := [], versionId := none, snaps := [], implicit := false
    commit := none, fence := none, path := [], remote := none
    vq := [], xinq := [], xoutq := [], mq := [], aq := [], nextCmd := 0
    vrun := none, xin := none, xout := none }

def Bank.reset : Bank :=
  { mode := 0, slot := 0, pushed := 0, popped := 0, slots := [], claims := [], consumer := none }

def Plane.reset : Plane := { state := .empty, fmt := none, stream := 0, bytes := [] }

/-- An array after reset (R196): planes empty; a tile row not listed is +0.0 of kind F. -/
def MatArray.reset : MatArray :=
  { active := Plane.reset, shadow := Plane.reset, last := none, loadWord := 0, aStream := none, tiles := Vector.replicate 4 []
    run := none, rcd := none, bits := 0 }

/-- A cluster after reset (R81): every bank in cache mode with slot size 0. -/
def Cluster.reset : Cluster :=
  { banks := Vector.replicate 32 Bank.reset, frames := [], arr0 := MatArray.reset, arr1 := MatArray.reset
    records := [], monitors := [], filter := [], holdBuf := [], tlb := [], leases := [] }

def Die.reset : Die :=
  { tcbs := [], trees := [], ptr := none, nextOrder := 0, nodes := [], bins := [], bodyNo := 0, reclaims := [] }

/-- A chiplet after reset (R225): pages of 64 KiB, 4,194,304 of them, no reserve. -/
def Chip.reset : Chip :=
  { pgsz := 65536, npg := 4194304, reserve := 0, frames := [], bytes := [], entries := [], locks := []
    models := [], cmds := [], doomed := [] }

/-- The machine right after power-good and before bring-up (R399): no context, no queue, no launch, memory with nothing listed,
the clock at 0. -/
def State.reset : State :=
  { core := Core.reset 0, others := [], clusters := [], mem := [], lines := [], dir := [], regions := []
    msgs := [], homeQ := [], notices := [], credits := [], commitNo := 0, lost := [], retain := []
    l2leases := [], l2tlb := [], xreds := [], rounds := [], units := []
    car0 := { holder := none, granted := 0, base := 0, table := [] }, car1 := { holder := none, granted := 0, base := 0, table := [] }
    die0 := Die.reset, die1 := Die.reset, cancels := [], walks := []
    chip0 := Chip.reset, chip1 := Chip.reset, contexts := [], launches := [], nextLaunch := 0, queues := [], rrptr := []
    strands := [], saved := [], savedClusters := []
    admin := { asqbase := 0, acq := 0, asqtail := 0, served := 0, acqdone := 0, ready := false, warm := false
               jwrap := false, jnext := 1, pending := none, mirror := [], xmssIndex := 0, xmssBlock := 0 }
    tables := 0
    telemetry := { corrected := 0, droppedWrites := 0, period := 0, dest := 0, reports := 0, lastReport := 0 }
    devid := 0, devValid := false, fabric := [], msix := [], hostData := [], bringup := 0, pcieTrained := false
    power := { allowed := 0, current := 0, capSteps := 0, heatSteps := 0, powercap := 2400, thermtrip := false, off := false }
    jtag := true, flash := { bank0 := { signed := true, version := 0 }, bank1 := { signed := true, version := 0 }, least := 0 }
    clock := 0, freeCount := 0, unit := .seq, rr := 0, schedule := [] }

end Sys2Proof.Machine
end

