-- ==== Sys2Proof/Machine/Bits.lean ====
section
/-! DEFINITION. Bits.lean: bit fields, sign extension, little-endian bytes (R2), lists kept by ascending key, and lists of memory
cells in their one canonical form. -/

namespace Sys2Proof.Machine

/-- Bits [hi:lo] of a 64-bit value, as a number. -/
def bitsOf (x : W64) (hi lo : Nat) : Nat := x.toNat / 2 ^ lo % 2 ^ (hi + 1 - lo)

/-- x with bits [hi:lo] replaced by the low bits of v. -/
def setBits (x : W64) (hi lo : Nat) (v : Nat) : W64 :=
  let m := BitVec.ofNat 64 ((2 ^ (hi + 1 - lo) - 1) * 2 ^ lo)
  (x &&& ~~~m) ||| (BitVec.ofNat 64 (v % 2 ^ (hi + 1 - lo) * 2 ^ lo))

/-- The low n bits of v, sign-extended to 64 bits. -/
def sext (n v : Nat) : W64 :=
  let r := v % 2 ^ n
  if 2 ^ n ≤ 2 * r then BitVec.ofNat 64 (r + (2 ^ 64 - 2 ^ n)) else BitVec.ofNat 64 r

/-- The low n bits of v as a signed number. -/
def sval (n v : Nat) : Int :=
  let r := v % 2 ^ n
  if 2 ^ n ≤ 2 * r then (r : Int) - 2 ^ n else r

/-- A signed number as n bits, wrapping. -/
def wrapInt (n : Nat) (x : Int) : Nat := (x % (2 ^ n : Int)).toNat

/-- The number that little-endian bytes spell (R2). -/
def leVal : List Byte → Nat
  | [] => 0
  | b :: t => b.toNat + 256 * leVal t

/-- The n little-endian bytes of a number (R2). -/
def leBytes : Nat → Nat → List Byte
  | 0, _ => []
  | n + 1, v => BitVec.ofNat 8 v :: leBytes n (v / 256)

/-- The bytes cut into pieces of n. -/
def chunks (n : Nat) (bs : List Byte) : List (List Byte) :=
  (List.range (bs.length / n)).map fun k => (bs.drop (k * n)).take n

/-- The value at a key of a list kept by ascending key. -/
def assoc {α : Type} (k : Nat) : List (Nat × α) → Option α
  | [] => none
  | (j, x) :: t => if j = k then some x else assoc k t

/-- Put a value at a key, keeping the order. -/
def assocPut {α : Type} (k : Nat) (v : α) : List (Nat × α) → List (Nat × α)
  | [] => [(k, v)]
  | (j, x) :: t => if k < j then (k, v) :: (j, x) :: t else if j = k then (k, v) :: t else (j, x) :: assocPut k v t

/-- Drop a key. -/
def assocDrop {α : Type} (k : Nat) (l : List (Nat × α)) : List (Nat × α) := l.filter fun e => e.1 ≠ k

/-- The n-th element replaced. -/
def setAt {α : Type} (n : Nat) (x : α) (l : List α) : List α := l.set n x

/-- The n-th element left out. -/
def dropAt {α : Type} (n : Nat) (l : List α) : List α := l.take n ++ l.drop (n + 1)

/-- Insert a number into an ascending list without repeats. -/
def insertNat (n : Nat) : List Nat → List Nat
  | [] => [n]
  | a :: t => if n < a then n :: a :: t else if a = n then a :: t else a :: insertNat n t

/-- The byte at an address: an unlisted address reads 0 (log 2). -/
def cellGet (m : List Host.Cell) (a : Nat) : Byte :=
  match m with
  | [] => 0
  | (x, y) :: t => if x = a then y else cellGet t a

/-- Write a byte, keeping addresses rising and no entry equal to 0. -/
def cellPut (m : List Host.Cell) (a : Nat) (b : Byte) : List Host.Cell :=
  match m with
  | [] => if b = 0 then [] else [(a, b)]
  | (x, y) :: t =>
    if a < x then (if b = 0 then (x, y) :: t else (a, b) :: (x, y) :: t)
    else if x = a then (if b = 0 then t else (a, b) :: t)
    else (x, y) :: cellPut t a b

/-- The n bytes from an address up. -/
def cellBytes (m : List Host.Cell) (a : Nat) : Nat → List Byte
  | 0 => []
  | n + 1 => cellGet m a :: cellBytes m (a + 1) n

/-- Write bytes from an address up. -/
def cellPutBytes (m : List Host.Cell) (a : Nat) : List Byte → List Host.Cell
  | [] => m
  | b :: t => cellPutBytes (cellPut m a b) (a + 1) t

/-- Memory is in its canonical form: addresses strictly rising, no entry equal to what an unlisted address reads as. -/
def Memory.wf : List Host.Cell → Bool
  | [] => true
  | [(_, b)] => b != 0
  | (a, b) :: (c, d) :: t => decide (a < c) && b != 0 && Memory.wf ((c, d) :: t)

/-- A byte of a version, if it holds one; versions keep every byte stored, zeros included. -/
def verGet (v : List Host.Cell) (a : Nat) : Option Byte :=
  match v with
  | [] => none
  | (x, y) :: t => if x = a then some y else verGet t a

/-- Put a byte into a version. -/
def verPut (v : List Host.Cell) (a : Nat) (b : Byte) : List Host.Cell :=
  match v with
  | [] => [(a, b)]
  | (x, y) :: t =>
    if a < x then (a, b) :: (x, y) :: t else if x = a then (a, b) :: t else (x, y) :: verPut t a b

def verPutBytes (v : List Host.Cell) (a : Nat) : List Byte → List Host.Cell
  | [] => v
  | b :: t => verPutBytes (verPut v a b) (a + 1) t

/-- The number of a cell's line of 128 bytes. -/
def lineOf (a : Nat) : Nat := a / 128

/-- The lines a list of cells touches, ascending. -/
def linesOf (v : List Host.Cell) : List Nat := v.foldl (fun acc c => insertNat (lineOf c.1) acc) []

/-- The lines of the n bytes from an address up. -/
def linesAt (a n : Nat) : List Nat :=
  if n = 0 then [] else (List.range ((a + n - 1) / 128 - a / 128 + 1)).map (· + a / 128)

/-- The quadwords of bytes. -/
def quads (bs : List Byte) : List W64 := (chunks 8 bs).map fun c => BitVec.ofNat 64 (leVal c)

/-- Element k of a list of quadwords, 0 past its end. -/
def quad (l : List W64) (k : Nat) : W64 := l.getD k 0

end Sys2Proof.Machine
end

