-- ==== Sys2Proof/Machine/Float.lean ====
section
/-! DEFINITION. Float.lean: the floating-point formats (R139..R142), rounding (R147, R148), flags (R150), the operations of R63..R65
on codes, the group sums of R153, the exponential path (R154..R156) and the random-bit generators (R157..R160). -/

namespace Sys2Proof.Machine

/-! ### Formats -/

/-- A format of R139: exponent bits, mantissa bits, and whether its top exponent holds finite values (e4m3). -/
structure Fmt where
  eb : Nat
  mb : Nat
  ocp : Bool
  deriving DecidableEq, Repr

def Fmt.f32 : Fmt := { eb := 8, mb := 23, ocp := false }
def Fmt.bf16 : Fmt := { eb := 8, mb := 7, ocp := false }
def Fmt.f16 : Fmt := { eb := 5, mb := 10, ocp := false }
def Fmt.e4m3 : Fmt := { eb := 4, mb := 3, ocp := true }
def Fmt.e5m2 : Fmt := { eb := 5, mb := 2, ocp := false }

def Fmt.bias (f : Fmt) : Int := 2 ^ (f.eb - 1) - 1
def Fmt.width (f : Fmt) : Nat := 1 + f.eb + f.mb
/-- The smallest normal exponent. -/
def Fmt.emin (f : Fmt) : Int := 1 - f.bias
/-- The largest finite exponent. -/
def Fmt.emax (f : Fmt) : Int := if f.ocp then 2 ^ f.eb - 1 - f.bias else 2 ^ f.eb - 2 - f.bias
def Fmt.signBit (f : Fmt) : Nat := 2 ^ (f.eb + f.mb)
/-- The code of +infinity in a format that has one. -/
def Fmt.infCode (f : Fmt) : Nat := (2 ^ f.eb - 1) * 2 ^ f.mb
/-- The code of the largest finite value. -/
def Fmt.maxCode (f : Fmt) : Nat := if f.ocp then f.signBit - 2 else f.infCode - 1
/-- The NaN an operation produces (R139, R140): the sign is kept only in the two 8-bit formats. -/
def Fmt.nanCode (f : Fmt) (neg : Bool) : Nat :=
  (if f.ocp then f.signBit - 1 else f.infCode + 2 ^ (f.mb - 1)) + (if neg && f.width == 8 then f.signBit else 0)

/-- A decoded value: a NaN (signalling, sign), an infinity, or sign and m times 2^e. -/
inductive FVal where
  | nan (sig neg : Bool)
  | inf (neg : Bool)
  | fin (neg : Bool) (m : Nat) (e : Int)
  deriving DecidableEq, Repr

/-- The value of a code (R139, R140). -/
def Fmt.decode (f : Fmt) (c : Nat) : FVal :=
  let neg := c / f.signBit % 2 == 1
  let x := c / 2 ^ f.mb % 2 ^ f.eb
  let m := c % 2 ^ f.mb
  if f.ocp && x == 2 ^ f.eb - 1 && m == 2 ^ f.mb - 1 then .nan false neg
  else if !f.ocp && x == 2 ^ f.eb - 1 then
    (if m = 0 then .inf neg else .nan (m < 2 ^ (f.mb - 1)) neg)
  else if x = 0 then .fin neg m (f.emin - f.mb)
  else .fin neg (m + 2 ^ f.mb) ((x : Int) - f.bias - f.mb)

/-- The exponent of an operand that R153 names: unbiased when normal, the minimum when subnormal. -/
def Fmt.expOf (f : Fmt) (c : Nat) : Int :=
  let x := c / 2 ^ f.mb % 2 ^ f.eb
  if x = 0 then f.emin else (x : Int) - f.bias

/-! ### Flags -/

/-- The sticky flags in FCTL's places: IV 1, OF 2, UF 4, NX 8, TRIT 16 (R45). -/
abbrev Flags := BitVec 5

def Flags.iv : Flags := 1
def Flags.of : Flags := 2
def Flags.uf : Flags := 4
def Flags.nx : Flags := 8
def Flags.trit : Flags := 16

def flagIf (b : Bool) (f : Flags) : Flags := if b then f else 0

/-! ### Rounding -/

/-- An exact real magnitude: m times 2^e, or strictly between m and m + 1 times 2^e when sticky. -/
structure Exact where
  neg : Bool
  m : Nat
  e : Int
  sticky : Bool
  deriving DecidableEq, Repr

/-- The exponent of the leading bit of m times 2^e. -/
def Exact.top (x : Exact) : Int := x.e + Nat.log2 x.m

/-- The multiple of 2^q that the mode picks, and whether it differs from x (R147, R148): r is the 16-bit fraction SR draws. -/
def Exact.roundAt (x : Exact) (q : Int) (mode : RMode) (r : Nat) : Nat × Bool :=
  if q ≤ x.e then (x.m * 2 ^ (x.e - q).toNat, x.sticky)
  else
    let p := 2 ^ (q - x.e).toNat
    let n := x.m / p
    let rem := x.m % p
    let inexact := rem ≠ 0 || x.sticky
    let up := match mode with
      | .rne => 2 * rem > p || (2 * rem == p && (x.sticky || n % 2 == 1))
      | .rtz => false
      | .rdn => x.neg && inexact
      | .rup => !x.neg && inexact
      | .sr => 2 ^ 16 ≤ rem * 2 ^ 16 / p + r
    (if up then n + 1 else n, inexact)

/-- The code with sign, and magnitude n times 2^q in the format, q at least the subnormal weight and n at most 2^(mb+1). -/
def Fmt.pack (f : Fmt) (neg : Bool) (n : Nat) (q : Int) : Nat :=
  let s := if neg then f.signBit else 0
  if n = 2 ^ (f.mb + 1) then s + (q + 1 + f.mb + f.bias).toNat * 2 ^ f.mb
  else if n < 2 ^ f.mb then s + n
  else s + (q + f.mb + f.bias).toNat * 2 ^ f.mb + (n - 2 ^ f.mb)

/-- What a result beyond the largest finite value becomes (R65, R147). -/
def Fmt.overflow (f : Fmt) (neg : Bool) (mode : RMode) : Nat :=
  let toMax := f.ocp || (match mode with
    | .rne | .sr => false | .rtz => true | .rdn => !neg | .rup => neg)
  (if toMax then f.maxCode else f.infCode) + (if neg then f.signBit else 0)

/-- Round an exact value into a format (R147..R150): the code and the flags. -/
def Fmt.round (f : Fmt) (mode : RMode) (r : Nat) (x : Exact) : Nat × Flags :=
  if x.m = 0 then (if x.neg then f.signBit else 0, flagIf x.sticky (Flags.nx ||| Flags.uf))
  else
    let q := max x.top f.emin - f.mb
    let (n, inexact) := x.roundAt q mode r
    let qu := x.top - f.mb
    let (nu, _) := x.roundAt qu mode r
    let tiny := x.top < f.emin && !(nu == 2 ^ (f.mb + 1) && x.top + 1 == f.emin)
    let big := f.emax < q + f.mb || (q + f.mb == f.emax && (if f.ocp then 2 ^ (f.mb + 1) - 1 ≤ n else 2 ^ (f.mb + 1) ≤ n))
    if big && n ≠ 0 then (f.overflow x.neg mode, Flags.of ||| Flags.nx)
    else (f.pack x.neg n q, flagIf inexact Flags.nx ||| flagIf (tiny && inexact) Flags.uf)

/-- A signed dyadic number m times 2^e as an exact value. -/
def exactOf (m : Int) (e : Int) : Exact := { neg := m < 0, m := m.natAbs, e := e, sticky := false }

/-- Sum of two dyadic numbers. -/
def dyAdd (a b : Int × Int) : Int × Int :=
  let e := min a.2 b.2
  (a.1 * 2 ^ (a.2 - e).toNat + b.1 * 2 ^ (b.2 - e).toNat, e)

/-- The signed dyadic number of a finite value. -/
def signed (neg : Bool) (m : Nat) : Int := if neg then -(m : Int) else m

/-- The integer square root, from the bits of the root downwards. -/
def isqrt (n : Nat) : Nat → Nat → Nat
  | 0, r => r
  | k + 1, r => if (r + 2 ^ k) * (r + 2 ^ k) ≤ n then isqrt n k (r + 2 ^ k) else isqrt n k r

/-! ### Operations on codes (R63) -/

def FVal.sNaN : FVal → Bool
  | .nan s _ => s
  | .inf _ | .fin _ _ _ => false

def FVal.isNaN : FVal → Bool
  | .nan _ _ => true
  | .inf _ | .fin _ _ _ => false

/-- A code with its sign inverted. -/
def Fmt.negate (f : Fmt) (c : Nat) : Nat := if c / f.signBit % 2 = 1 then c - f.signBit else c + f.signBit

/-- The sum of finite values rounded once; an exact zero is +0, or −0 under RDN, unless both terms are −0. -/
def Fmt.addFin (f : Fmt) (mode : RMode) (r : Nat) (na : Bool) (ma : Nat) (ea : Int) (nb : Bool) (mb : Nat) (eb : Int) :
    Nat × Flags :=
  let d := dyAdd (signed na ma, ea) (signed nb mb, eb)
  if d.1 = 0 then
    let neg := if ma = 0 && mb = 0 && na == nb then na else mode == .rdn
    (if neg then f.signBit else 0, 0)
  else f.round mode r (exactOf d.1 d.2)

/-- Addition (R63). -/
def Fmt.add (f : Fmt) (mode : RMode) (r : Nat) (a b : Nat) : Nat × Flags :=
  let x := f.decode a
  let y := f.decode b
  let iv := flagIf (x.sNaN || y.sNaN) Flags.iv
  match x, y with
  | .nan _ _, _ => (f.nanCode false, iv)
  | _, .nan _ _ => (f.nanCode false, iv)
  | .inf s, .inf t => if s = t then (a, 0) else (f.nanCode false, Flags.iv)
  | .inf _, .fin _ _ _ => (a, 0)
  | .fin _ _ _, .inf _ => (b, 0)
  | .fin na ma ea, .fin nb mb eb => f.addFin mode r na ma ea nb mb eb

/-- Subtraction (R63). -/
def Fmt.sub (f : Fmt) (mode : RMode) (r : Nat) (a b : Nat) : Nat × Flags :=
  if (f.decode b).isNaN then f.add mode r a b else f.add mode r a (f.negate b)

/-- Multiplication (R63). -/
def Fmt.mul (f : Fmt) (mode : RMode) (r : Nat) (a b : Nat) : Nat × Flags :=
  let x := f.decode a
  let y := f.decode b
  let iv := flagIf (x.sNaN || y.sNaN) Flags.iv
  let infc := fun (s : Bool) => f.infCode + (if s then f.signBit else 0)
  match x, y with
  | .nan _ _, _ => (f.nanCode false, iv)
  | _, .nan _ _ => (f.nanCode false, iv)
  | .inf s, .inf t => (infc (s != t), 0)
  | .inf s, .fin t m _ => if m = 0 then (f.nanCode false, Flags.iv) else (infc (s != t), 0)
  | .fin s m _, .inf t => if m = 0 then (f.nanCode false, Flags.iv) else (infc (s != t), 0)
  | .fin s ma ea, .fin t mb eb => f.round mode r { neg := s != t, m := ma * mb, e := ea + eb, sticky := false }

/-- Division (R62, R63): a finite nonzero value over zero is an infinity and sets no flag. -/
def Fmt.div (f : Fmt) (mode : RMode) (r : Nat) (a b : Nat) : Nat × Flags :=
  let x := f.decode a
  let y := f.decode b
  let iv := flagIf (x.sNaN || y.sNaN) Flags.iv
  let sgn := fun (s : Bool) => if s then f.signBit else 0
  match x, y with
  | .nan _ _, _ => (f.nanCode false, iv)
  | _, .nan _ _ => (f.nanCode false, iv)
  | .inf _, .inf _ => (f.nanCode false, Flags.iv)
  | .inf s, .fin t _ _ => (f.infCode + sgn (s != t), 0)
  | .fin s _ _, .inf t => (sgn (s != t), 0)
  | .fin s ma ea, .fin t mb eb =>
    if mb = 0 then (if ma = 0 then (f.nanCode false, Flags.iv) else (f.infCode + sgn (s != t), 0))
    else if ma = 0 then (sgn (s != t), 0)
    else
      let k := 80 + Nat.log2 mb
      f.round mode r { neg := s != t, m := ma * 2 ^ k / mb, e := ea - eb - k, sticky := ma * 2 ^ k % mb ≠ 0 }

/-- Square root (R63). -/
def Fmt.sqrt (f : Fmt) (mode : RMode) (r : Nat) (a : Nat) : Nat × Flags :=
  match f.decode a with
  | .nan s _ => (f.nanCode false, flagIf s Flags.iv)
  | .inf s => if s then (f.nanCode false, Flags.iv) else (a, 0)
  | .fin s m e =>
    if m = 0 then (a, 0)
    else if s then (f.nanCode false, Flags.iv)
    else
      let sh : Nat := if e % 2 = 0 then 120 else 121
      let n := m * 2 ^ sh
      let root := isqrt n 90 0
      f.round mode r { neg := false, m := root, e := (e - sh) / 2, sticky := root * root ≠ n }

/-- a times b plus c, rounded once (R63). -/
def Fmt.fma (f : Fmt) (mode : RMode) (r : Nat) (a b c : Nat) : Nat × Flags :=
  let x := f.decode a
  let y := f.decode b
  let z := f.decode c
  let iv := flagIf (x.sNaN || y.sNaN || z.sNaN) Flags.iv
  let nan := f.nanCode false
  let zeroInf := match x, y with
    | .inf _, .fin _ 0 _ => true
    | .fin _ 0 _, .inf _ => true
    | _, _ => false
  if x.isNaN || y.isNaN then (nan, iv)
  else if zeroInf then (nan, Flags.iv)
  else if z.isNaN then (nan, iv)
  else
    let prodInf := match x, y with
      | .inf s, .inf t => some (s != t)
      | .inf s, .fin t _ _ => some (s != t)
      | .fin s _ _, .inf t => some (s != t)
      | _, _ => none
    match prodInf, z with
    | some s, .inf t => if s = t then (c, 0) else (nan, Flags.iv)
    | some s, _ => (f.infCode + (if s then f.signBit else 0), 0)
    | none, .inf _ => (c, 0)
    | none, .fin nc mc ec =>
      match x, y with
      | .fin s ma ea, .fin t mb eb => f.addFin mode r (s != t) (ma * mb) (ea + eb) nc mc ec
      | _, _ => (nan, 0)
    | none, .nan _ _ => (nan, iv)

/-- Whether a is below b, for codes that are not NaN, with −0 below +0 when `zeros` is set (R63, R64). -/
def Fmt.below (f : Fmt) (zeros : Bool) (a b : Nat) : Bool :=
  let key := fun (c : Nat) =>
    let m := c % f.signBit
    if c / f.signBit % 2 = 1 then -(m : Int) - (if zeros then 1 else 0) else (m : Int)
  key a < key b

/-- The lesser, or the greater (R63): of a NaN and a number, the number; of two NaNs, the canonical NaN. -/
def Fmt.minmax (f : Fmt) (greater : Bool) (a b : Nat) : Nat × Flags :=
  let x := f.decode a
  let y := f.decode b
  let iv := flagIf (x.sNaN || y.sNaN) Flags.iv
  let v := if x.isNaN && y.isNaN then f.nanCode false
    else if x.isNaN then b else if y.isNaN then a
    else if f.below true a b == greater then b else a
  (v, iv)

/-- A comparison (R64). -/
def Fmt.cmp (f : Fmt) (p : Pred) (a b : Nat) : Bool × Flags :=
  let x := f.decode a
  let y := f.decode b
  let nan := x.isNaN || y.isNaN
  let lt := f.below false a b
  let gt := f.below false b a
  let v := match p with
    | .eq => !nan && !lt && !gt
    | .ne => nan || lt || gt
    | .lt => !nan && lt
    | .le => !nan && !gt
    | .gt => !nan && gt
    | .ge => !nan && !lt
  let iv := match p with
    | .eq | .ne => x.sNaN || y.sNaN
    | .lt | .le | .gt | .ge => nan
  (v, flagIf iv Flags.iv)

/-! ### Conversions (R65, R172) -/

/-- The float format of a type. -/
def tyFmt : Ty → Option Fmt
  | .f32 => some Fmt.f32 | .bf16 => some Fmt.bf16 | .f16 => some Fmt.f16
  | .e4m3 => some Fmt.e4m3 | .e5m2 => some Fmt.e5m2
  | .i8 | .i16 | .i32 | .i64 | .n8 | .n16 | .n32 | .n64 | .q4b | .t3 => none

/-- Width in bits of an element type; q4b and t3 elements are not addressed so. -/
def tyWidth : Ty → Nat
  | .i8 | .n8 | .e4m3 | .e5m2 => 8
  | .i16 | .n16 | .bf16 | .f16 => 16
  | .i32 | .n32 | .f32 => 32
  | .i64 | .n64 => 64
  | .q4b | .t3 => 8

def tySigned : Ty → Bool
  | .i8 | .i16 | .i32 | .i64 => true
  | .n8 | .n16 | .n32 | .n64 | .f32 | .bf16 | .f16 | .e4m3 | .e5m2 | .q4b | .t3 => false

/-- The least and greatest value of an integer type (R138). -/
def tyRange (t : Ty) : Int × Int :=
  if tySigned t then (-(2 ^ (tyWidth t - 1)), 2 ^ (tyWidth t - 1) - 1) else (0, 2 ^ tyWidth t - 1)

/-- The integer a code of an integer type spells. -/
def tyInt (t : Ty) (c : Nat) : Int := if tySigned t then sval (tyWidth t) c else (c % 2 ^ tyWidth t : Nat)

/-- Float to float: one rounding; a NaN source gives the destination's NaN. -/
def cvtFF (src dst : Fmt) (mode : RMode) (r : Nat) (c : Nat) : Nat × Flags :=
  match src.decode c with
  | .nan s neg => (dst.nanCode neg, flagIf s Flags.iv)
  | .inf neg => if dst.ocp then (dst.overflow neg mode, Flags.of ||| Flags.nx)
      else (dst.infCode + (if neg then dst.signBit else 0), 0)
  | .fin neg m e => if m = 0 then (if neg then dst.signBit else 0, 0)
      else dst.round mode r { neg := neg, m := m, e := e, sticky := false }

/-- Integer to float. -/
def cvtIF (src : Ty) (dst : Fmt) (mode : RMode) (r : Nat) (c : Nat) : Nat × Flags :=
  let v := tyInt src c
  if v = 0 then (0, 0) else dst.round mode r (exactOf v 0)

/-- Float to integer: a value beyond the range gives the nearest bound and sets IV; NaN gives 0 and sets IV. NX follows R150. -/
def cvtFI (src : Fmt) (dst : Ty) (mode : RMode) (r : Nat) (c : Nat) : Nat × Flags :=
  let (lo, hi) := tyRange dst
  let w := tyWidth dst
  match src.decode c with
  | .nan _ _ => (0, Flags.iv)
  | .inf neg => (wrapInt w (if neg then lo else hi), Flags.iv ||| Flags.nx)
  | .fin neg m e =>
    let (n, inexact) := Exact.roundAt { neg := neg, m := m, e := e, sticky := false } 0 mode r
    let v := signed neg n
    if v < lo then (wrapInt w lo, Flags.iv ||| Flags.nx)
    else if hi < v then (wrapInt w hi, Flags.iv ||| Flags.nx)
    else (wrapInt w v, flagIf inexact Flags.nx)

/-- Integer to integer: saturates and sets IV, and NX since the result differs (R150, R172). -/
def cvtII (src dst : Ty) (c : Nat) : Nat × Flags :=
  let (lo, hi) := tyRange dst
  let v := tyInt src c
  if v < lo then (wrapInt (tyWidth dst) lo, Flags.iv ||| Flags.nx)
  else if hi < v then (wrapInt (tyWidth dst) hi, Flags.iv ||| Flags.nx)
  else (wrapInt (tyWidth dst) v, 0)

/-- Any conversion between the types FCVT and VCVT accept. -/
def convert (src dst : Ty) (mode : RMode) (r : Nat) (c : Nat) : Nat × Flags :=
  match tyFmt src, tyFmt dst with
  | some f, some g => cvtFF f g mode r c
  | some f, none => cvtFI f dst mode r c
  | none, some g => cvtIF src g mode r c
  | none, none => cvtII src dst c

/-! ### Plain f32 and bf16 arithmetic without flags, rounding RNE -/

def f32add (a b : Nat) : Nat := (Fmt.f32.add .rne 0 a b).1
def f32sub (a b : Nat) : Nat := (Fmt.f32.sub .rne 0 a b).1
def f32mul (a b : Nat) : Nat := (Fmt.f32.mul .rne 0 a b).1
def f32div (a b : Nat) : Nat := (Fmt.f32.div .rne 0 a b).1
def f32sqrt (a : Nat) : Nat := (Fmt.f32.sqrt .rne 0 a).1
def f32max (a b : Nat) : Nat := (Fmt.f32.minmax true a b).1
def f32min (a b : Nat) : Nat := (Fmt.f32.minmax false a b).1
def f32ofNat (n : Nat) : Nat := if n = 0 then 0 else (Fmt.f32.round .rne 0 (exactOf n 0)).1
/-- An exact dyadic number rounded RNE to f32. -/
def f32ofDy (m : Int) (e : Int) : Nat := if m = 0 then 0 else (Fmt.f32.round .rne 0 (exactOf m e)).1
/-- bf16 widened exactly to f32. -/
def f32ofBf16 (c : Nat) : Nat := c * 2 ^ 16

/-! ### Group sums (R153) -/

/-- An operand of an array product: its value and the exponent E of R153. -/
abbrev Operand := FVal × Int

/-- An operand of R153 from a code. -/
def operandOf (f : Fmt) (c : Nat) : Operand := (f.decode c, f.expOf c)

def fvMul : FVal → FVal → FVal
  | .nan _ _, _ => .nan false false
  | _, .nan _ _ => .nan false false
  | .inf s, .inf t => .inf (s != t)
  | .inf s, .fin t m _ => if m = 0 then .nan false false else .inf (s != t)
  | .fin s m _, .inf t => if m = 0 then .nan false false else .inf (s != t)
  | .fin s ma ea, .fin t mb eb => .fin (s != t) (ma * mb) (ea + eb)

/-- The product of two operands, with the exponent R153 aligns it by. -/
def opMul (a b : Operand) : FVal × Int := (fvMul a.1 b.1, a.2 + b.2)

/-- m times 2^e truncated towards zero to a multiple of 2^q, in units of 2^q. -/
def truncTo (m : Nat) (e q : Int) : Nat := if q ≤ e then m * 2 ^ (e - q).toNat else m / 2 ^ (q - e).toNat

/-- The sum S of one group of products: the f32 code (R153). -/
def groupSum (ps : List (FVal × Int)) : Nat :=
  let nan := ps.any fun p => p.1.isNaN
  let pos := ps.any fun p => p.1 == .inf false
  let neg := ps.any fun p => p.1 == .inf true
  if nan || (pos && neg) then Fmt.f32.nanCode false
  else if pos then Fmt.f32.infCode
  else if neg then Fmt.f32.infCode + Fmt.f32.signBit
  else
    let es := ps.filterMap fun p => match p.1 with | .fin _ m _ => if m = 0 then none else some p.2 | _ => none
    match es with
    | [] => 0
    | e0 :: t =>
      let q := t.foldl max e0 - 26
      let sum := ps.foldl (fun acc p => match p.1 with
        | .fin s m e => acc + signed s (truncTo m e q)
        | _ => acc) (0 : Int)
      if sum = 0 then 0 else (Fmt.f32.round .rtz 0 (exactOf sum q)).1

/-- One group accumulated (R153). -/
def groupAcc (acc : Nat) (ps : List (FVal × Int)) : Nat := f32add acc (groupSum ps)

/-! ### The exponential path (R154..R156) -/

/-- M_k of R154, eight to a row. -/
def expTable : List Nat :=
  [16777216, 16596492, 16417715, 16240863, 16065917, 15892855, 15721658, 15552304]
  ++ [15384775, 15219050, 15055111, 14892937, 14732511, 14573813, 14416824, 14261526]
  ++ [14107901, 13955931, 13805598, 13656884, 13509772, 13364245, 13220286, 13077877]
  ++ [12937002, 12797645, 12659789, 12523418, 12388516, 12255067, 12123055, 11992466]
  ++ [11863283, 11735492, 11609078, 11484025, 11360319, 11237946, 11116891, 10997140]
  ++ [10878679, 10761494, 10645571, 10530897, 10417458, 10305242, 10194234, 10084422]
  ++ [9975792, 9868333, 9762032, 9656875, 9552851, 9449948, 9348154, 9247455]
  ++ [9147842, 9049301, 8951823, 8855394, 8760003, 8665641, 8572295, 8479954]
  ++ [8388608]

/-- 2^x by the path, for an f32 code: the code and the flags. -/
def expPath (c : Nat) : Nat × Flags :=
  match Fmt.f32.decode c with
  | .nan s _ => (Fmt.f32.nanCode false, flagIf s Flags.iv)
  | .inf neg => (if neg then 0 else Fmt.f32.infCode, 0)
  | .fin neg m e =>
    if m = 0 then (0x3F800000, 0)
    -- |x| of 256 and more overflows, or underflows to 0, whatever the rest of x
    else if 9 ≤ e + Nat.log2 m then
      (if neg then (0, Flags.uf ||| Flags.nx) else (Fmt.f32.infCode, Flags.of ||| Flags.nx))
    else
      let d := min e 0
      let y : Int := -(signed neg m) * 2 ^ (e - d).toNat       -- −x in units of 2^d
      let u : Int := 2 ^ (-d).toNat
      let n := y / u
      let f := y % u                                            -- in units of 2^d
      let k := (64 * f / u).toNat
      let t := 64 * f % u
      let ck := expTable.getD k 0
      let ck1 := expTable.getD (k + 1) 0
      let dd := f32ofDy ((ck1 : Int) - ck) (-24)
      let tt := Fmt.f32.decode dd
      let prod := match tt with
        | .fin s mm ee => f32ofDy (signed s mm * t) (ee + d)
        | _ => 0
      let y2 := f32add (f32ofDy ck (-24)) prod
      match Fmt.f32.decode y2 with
      | .fin s mm ee => Fmt.f32.round .rne 0 { neg := s, m := mm, e := ee - n, sticky := false }
      | _ => (y2, 0)

/-! ### Random bits (R157..R160) -/

/-- One round of Philox4x32 (R158). -/
def philoxRound (c : Nat × Nat × Nat × Nat) (k : Nat × Nat) : Nat × Nat × Nat × Nat :=
  let p0 := 0xD2511F53 * c.1
  let p1 := 0xCD9E8D57 * c.2.2.1
  ((p1 / 2 ^ 32) ^^^ c.2.1 ^^^ k.1, p1 % 2 ^ 32, (p0 / 2 ^ 32) ^^^ c.2.2.2 ^^^ k.2, p0 % 2 ^ 32)

def philoxRounds : Nat → Nat × Nat × Nat × Nat → Nat × Nat → Nat × Nat × Nat × Nat
  | 0, c, _ => c
  | n + 1, c, k => philoxRounds n (philoxRound c k) ((k.1 + 0x9E3779B9) % 2 ^ 32, (k.2 + 0xBB67AE85) % 2 ^ 32)

/-- Word `pos` of a block (R158). -/
def philoxWord (ctr key pos : Nat) : W32 :=
  let r := philoxRounds 10 (ctr % 2 ^ 32, ctr / 2 ^ 32 % 2 ^ 32, ctr / 2 ^ 64 % 2 ^ 32, ctr / 2 ^ 96 % 2 ^ 32)
    (key % 2 ^ 32, key / 2 ^ 32 % 2 ^ 32)
  BitVec.ofNat 32 (if pos = 0 then r.1 else if pos = 1 then r.2.1 else if pos = 2 then r.2.2.1 else r.2.2.2)

/-- The next word of a stream in P mode (false) or L mode (true), and its state afterwards (R158, R159). -/
def genNext (lmode : Bool) (st : W256) : W32 × W256 :=
  let v := st.toNat
  if lmode then
    let inc := v / 2 ^ 128 % 2 ^ 64
    let x := (6364136223846793005 * (v / 2 ^ 192) + inc) % 2 ^ 64
    (BitVec.ofNat 32 (x / 2 ^ 32), BitVec.ofNat 256 (x * 2 ^ 192 + v % 2 ^ 192))
  else
    let ctr := v / 2 ^ 128
    let key := v / 2 ^ 64 % 2 ^ 64
    let pos := v % 4
    let w := philoxWord ctr key pos
    let v' := if pos = 3 then (ctr + 1) % 2 ^ 128 * 2 ^ 128 + key * 2 ^ 64 + (v % 2 ^ 64 - pos) else v + 1
    (w, BitVec.ofNat 256 v')

/-- The doubling steps of an L-mode skip (R159), one per bit of n. -/
def lcgSkip : Nat → Nat → Nat × Nat × Nat × Nat → Nat × Nat
  | 0, _, a => (a.1, a.2.1)
  | k + 1, n, (a, c, m, s) =>
    if n = 0 then (a, c)
    else
      let w := 2 ^ 64
      let (a, c) := if n % 2 = 1 then (a * m % w, (c * m + s) % w) else (a, c)
      lcgSkip k (n / 2) (a, c, m * m % w, (m + 1) * s % w)

/-- A stream's state after a skip by n words (R158, R159). -/
def genSkip (lmode : Bool) (st : W256) (n : Nat) : W256 :=
  let v := st.toNat
  if lmode then
    let inc := v / 2 ^ 128 % 2 ^ 64
    let (a, c) := lcgSkip 64 n (1, 0, 6364136223846793005, inc)
    BitVec.ofNat 256 ((a * (v / 2 ^ 192) + c) % 2 ^ 64 * 2 ^ 192 + v % 2 ^ 192)
  else
    let t := v % 4 + n
    BitVec.ofNat 256 ((v / 2 ^ 128 + t / 4) % 2 ^ 128 * 2 ^ 128 + v / 2 ^ 64 % 2 ^ 64 * 2 ^ 64 + (v % 2 ^ 64 - v % 4) + t % 4)

/-- A stream's state at context creation (R157). -/
def genSeed (lmode : Bool) (ctx core s : Nat) : W256 :=
  let z := ctx * 2 ^ 32 + core * 4 + s
  if lmode then BitVec.ofNat 256 (z * 2 ^ 192 + (2 * z + 1) % 2 ^ 64 * 2 ^ 128) else BitVec.ofNat 256 (z * 2 ^ 64)

/-- The next 16-bit fraction of stream 3 (R160): the word's low half, then its high half. -/
def Core.draw16 (c : Core) : Nat × Core :=
  match c.genHalf with
  | some h => (h.toNat, { c with genHalf := none })
  | none =>
    let (w, st) := genNext (c.rngcfg.toNat % 2 == 1) c.gens[3]
    (w.toNat % 2 ^ 16, { c with gens := c.gens.set 3 st, genHalf := some (BitVec.ofNat 16 (w.toNat / 2 ^ 16)) })

end Sys2Proof.Machine
end

