-- ==== Sys2Proof/Machine/Mem.lean ====
section
/-! DEFINITION. Mem.lean: reaching a core, a cluster, a die; addresses (R27..R29, R272, R296), the checks of R87 and R292 in their
order, line records, and where a line's home is. -/

namespace Sys2Proof.Machine

/-! ### Parts of the machine -/

/-- Core c. -/
def State.coreAt (s : State) (c : Nat) : Core :=
  if s.core.id = c then s.core else (s.others.find? fun x => x.id = c).getD (Core.reset c)

/-- Keep a core among the others, by ascending number. -/
def insertCore (x : Core) : List Core → List Core
  | [] => [x]
  | y :: t => if x.id < y.id then x :: y :: t else if y.id = x.id then x :: t else y :: insertCore x t

def State.putCore (s : State) (x : Core) : State :=
  if s.core.id = x.id then { s with core := x } else { s with others := insertCore x s.others }

/-- Make core c the current one. -/
def State.focus (s : State) (c : Nat) : State :=
  if s.core.id = c then s
  else { s with core := s.coreAt c, others := insertCore s.core (s.others.filter fun x => x.id ≠ c) }

def State.cluster (s : State) (g : Nat) : Cluster := (assoc g s.clusters).getD Cluster.reset

def State.putCluster (s : State) (g : Nat) (c : Cluster) : State := { s with clusters := assocPut g c s.clusters }

/-- The die with number d (R25). -/
def State.die (s : State) (d : Nat) : Die := if d = 0 then s.die0 else s.die1

def State.putDie (s : State) (d : Nat) (x : Die) : State := if d = 0 then { s with die0 := x } else { s with die1 := x }

def State.chip (s : State) (d : Nat) : Chip := if d = 0 then s.chip0 else s.chip1

def State.putChip (s : State) (d : Nat) (x : Chip) : State := if d = 0 then { s with chip0 := x } else { s with chip1 := x }

/-- Cluster of a core (R25). -/
def clusterOf (c : Nat) : Nat := c / 4

/-- Die of a core (R25). -/
def dieOf (c : Nat) : Nat := c / 512

/-- CYCLE (R44): core cycles since cold reset; two fabric cycles each (R22). -/
def State.cycle (s : State) : Nat := s.clock / 2

/-- The context with an identifier. -/
def State.ctx? (s : State) (i : Nat) : Option Context := s.contexts.find? fun c => c.id = i

/-- Change the context with an identifier. -/
def State.mapCtx (s : State) (i : Nat) (f : Context → Context) : State :=
  { s with contexts := s.contexts.map fun c => if c.id = i then f c else c }

def State.launch? (s : State) (i : Nat) : Option Launch := s.launches.find? fun l => l.id = i

def State.mapLaunch (s : State) (i : Nat) (f : Launch → Launch) : State :=
  { s with launches := s.launches.map fun l => if l.id = i then f l else l }

def State.queue? (s : State) (i : Nat) : Option Queue := s.queues.find? fun q => q.id == i && !q.closing

def State.mapQueue (s : State) (i : Nat) (f : Queue → Queue) : State :=
  { s with queues := s.queues.map fun q => if q.id = i then f q else q }

/-! ### Physical addresses -/

/-- The first physical address above the data stacks (R29). -/
def physTop : Nat := 0x8000000000

/-- Cell addresses from here on are bytes of other devices: this base plus bits [62:0] of a global address. -/
def remoteBase : Nat := 2 ^ 64

/-- The device a cell of another device belongs to (R27). -/
def remoteDev (a : Nat) : Nat := (a - remoteBase) / 2 ^ 43 % 2 ^ 20

/-- The global address of such a cell. -/
def remoteAddr (a : Nat) : W64 := BitVec.ofNat 64 (2 ^ 63 + (a - remoteBase))

/-- A line of another device. -/
def remoteLine (l : Nat) : Bool := remoteBase / 128 ≤ l

/-- The home slice of a physical address, with its die (R25, R29). -/
def homeSlice (pa : Nat) : Nat :=
  let f := fun lo => BitVec.ofNat 4 (pa / 2 ^ lo)
  pa / 2 ^ 38 % 2 * 16 + (f 9 ^^^ f 13 ^^^ f 17).toNat

/-- The strip positions of a cluster and of a slice on its die (R14): cluster strip n holds clusters 8n to 8n + 7 of the die (R25). -/
def stripOfCluster (g : Nat) : Nat :=
  [0, 1, 3, 4, 6, 7, 9, 10, 14, 15, 17, 18, 20, 21, 23, 24].getD (g % 128 / 8) 0
def stripOfSlice (l2 : Nat) : Nat := [2, 5, 8, 11, 13, 16, 19, 22].getD (l2 % 16 / 2) 0

/-- The home slice of a line. -/
def lineHome (l : Nat) : Nat := homeSlice (l * 128)

/-- The firmware region (R374). -/
def inFirmware (pa : Nat) : Bool := 0x3C00000000 ≤ pa && pa < 0x4000000000

/-- The first address of the doorbell blocks (R373). -/
def doorbellBase : Nat := 0x8001000000

/-- The queue whose doorbell block holds a physical address (R373). -/
def doorbellQueue (pa : Nat) : Option Nat :=
  if doorbellBase ≤ pa && pa < 0x8001800000 then some ((pa - doorbellBase) / 64) else none

/-! ### Page tables (R296) -/

/-- A leaf: where the page starts, its size, and its permissions. -/
abbrev Leaf := Nat × Nat × Bool × Bool × Bool

/-- The number at 8 bytes of committed memory. -/
def read64 (m : List Host.Cell) (a : Nat) : W64 := BitVec.ofNat 64 (leVal (cellBytes m a 8))

/-- What a valid entry says at the level with a shift: a leaf, the next table, or nothing (R296). -/
def entryLeaf (e : W64) (shift : Nat) : Option (Leaf ⊕ Nat) :=
  let span := bitsOf e 6 5
  let leaf := bitsOf e 1 1 = 1
  let ppn := bitsOf e 51 12 * 4096
  let size := 2 ^ shift * (if span = 1 then 16 else if span = 2 then 256 else 1)
  let perm := (bitsOf e 2 2 == 1, bitsOf e 3 3 == 1, bitsOf e 4 4 == 1)
  if bitsOf e 0 0 = 0 || bitsOf e 63 52 ≠ 0 || bitsOf e 11 7 ≠ 0 || span = 3 then none
  else if !leaf then (if shift = 12 || span ≠ 0 then none else some (.inr ppn))
  else if shift = 39 || shift = 30 || (shift = 12 && span = 2) || ppn % size ≠ 0 then none
  else some (.inl (ppn, size, perm))

/-- A walk from a table down the levels with these shifts. -/
def walkTables (m : List Host.Cell) (table va : Nat) : List Nat → Option Leaf
  | [] => none
  | sh :: rest =>
    match entryLeaf (read64 m (table + 8 * (va / 2 ^ sh % 512))) sh with
    | none => none
    | some (.inl leaf) => some leaf
    | some (.inr next) => walkTables m next va rest

/-- The leaf of a page of the context's tables, read from committed memory (R297). -/
def translate (m : List Host.Cell) (root va : Nat) : Option Leaf := walkTables m root va [39, 30, 21, 12]

/-- The regions of table entries a walk reads (R307). -/
def walkRegions (m : List Host.Cell) (table va : Nat) : List Nat → List Nat
  | [] => []
  | sh :: rest =>
    let e := table + 8 * (va / 2 ^ sh % 512)
    match entryLeaf (read64 m e) sh with
    | some (.inr next) => e / 512 :: walkRegions m next va rest
    | _ => [e / 512]

/-- The lines of table entries a walk reads (R370). -/
def walkReads (m : List Host.Cell) (table va : Nat) : List Nat → List Nat
  | [] => []
  | sh :: rest =>
    let e := table + 8 * (va / 2 ^ sh % 512)
    match entryLeaf (read64 m e) sh with
    | some (.inr next) => e / 128 :: walkReads m next va rest
    | _ => [e / 128]

/-! ### Virtual addresses -/

/-- The backing address of a scratch-window address used on a cluster (R272); any other address is itself. -/
def backing (g : Nat) (va : W64) : W64 :=
  let w := va.toNat
  if 0xFF0000000000 ≤ w && w < 0xFF0001000000 then BitVec.ofNat 64 (0xFE0000000000 + g * 2 ^ 24 + (w - 0xFF0000000000)) else va

/-- A global address (R27). -/
def isGlobal (va : W64) : Bool := va.toNat / 2 ^ 63 == 1

/-- The device a global address names (R27). -/
def globalDev (va : W64) : Nat := bitsOf va 62 43

/-- A global address of another device; before a device id is assigned every global address is one (R28, R399). -/
def State.isRemote (s : State) (va : W64) : Bool := isGlobal va && !(s.devValid && globalDev va == s.devid)

/-- What an access asks of the page (R87, R296). -/
inductive Need where
  | read | write | fetch
  deriving DecidableEq, Repr

/-- A failed check: the cause and EVAL's value. -/
abbrev Fail := Cause × W64

/-- The leaf for an address of this device in a context. -/
def State.leafOf (s : State) (ctx : Nat) (va : W64) : Option Leaf :=
  match s.ctx? ctx with
  | none => none
  | some c => if isGlobal va then translate s.mem c.rootG (va.toNat % 2 ^ 43) else translate s.mem c.rootL (va.toNat % 2 ^ 48)

/-- Whether a physical address may be accessed by a strand or an engine: memory, or a queue's doorbell block by an aligned 8 B
load of PROG, TAKEN or STAT or an 8 B store of TAIL, in a queue of the context (R373). -/
def State.busOk (s : State) (ctx pa n : Nat) (need : Need) : Bool :=
  if pa + n ≤ physTop then true
  else match doorbellQueue pa with
    | none => false
    | some q =>
      n == 8 && (match need with
        | .read => pa % 64 == 8 || pa % 64 == 16 || pa % 64 == 24
        | .write => pa % 64 == 0
        | .fetch => false)
      && (match s.queue? q with | some x => x.ctx == ctx | none => false)

/-- Causes 1 to 6 of R87 for n bytes at an address used on a cluster, without the alignment: the physical address, or the cell
address of another device, whose own checks its home makes. -/
def State.checkPage (s : State) (ctx g : Nat) (va : W64) (n : Nat) (need : Need) : Except Fail Nat :=
  if !isGlobal va && bitsOf va 62 48 ≠ 0 then .error (.addrform, va)
  else if s.isRemote va then
    (if s.devValid then .ok (remoteBase + va.toNat % 2 ^ 63) else .error (.remote, va))
  else
    let b := backing g va
    match s.leafOf ctx b with
    | none => .error (.pageflt, va)
    | some (base, size, r, w, x) =>
      let pa := base + b.toNat % size
      if !r || (need = .write && !w) || (need = .fetch && !x) then .error (.prot, va)
      else if !s.busOk ctx pa n need then .error (.buserr, va)
      else .ok pa

/-! ### Scopes (R291, R292) -/

/-- The unit of a scope that contains an issuer, numbered; an issuer is 1,024 times its device plus its core. -/
def scopeUnit (s : Scope) (issuer : Nat) : Nat :=
  match s with
  | .c => issuer
  | .k => issuer / 4
  | .d => issuer / 512
  | .p => issuer / 1024
  | .o => issuer / 2 ^ 20
  | .x => 0

/-- The unit of scope s containing issuer includes the recorded unit (R291). -/
def scopeIncludes (s : Scope) (issuer : Nat) (r : Scope × Nat) : Bool :=
  r.1.code ≤ s.code && scopeUnit s issuer == scopeUnit s r.2

def State.issuer (s : State) (c : Nat) : Nat := s.devid * 1024 + c

/-- What line l carries (R97, R292); a line not listed has tag 0 and an empty record. -/
def State.lineInfo (s : State) (l : Nat) : LineInfo :=
  (s.lines.find? fun x => x.line = l).getD { line := l, tag := 0, scope := none }

def insertLine (x : LineInfo) : List LineInfo → List LineInfo
  | [] => [x]
  | y :: t => if x.line < y.line then x :: y :: t else if y.line = x.line then x :: t else y :: insertLine x t

def State.putLine (s : State) (x : LineInfo) : State := { s with lines := insertLine x s.lines }

/-- The scope of level 0 of the current strand's launch record (R292); none bounds a strand without a launch. -/
def State.launchScope (s : State) : Option Nat :=
  match s.core.launch with
  | none => none
  | some i => (s.launch? i).map fun l => bitsOf (quad l.rcd 4) 7 4

/-- Check 1 of R292: the scope is no wider than the launch's. -/
def State.scopeInLaunch (s : State) (sc : Scope) : Bool :=
  match s.launchScope with
  | none => true
  | some b => sc.code ≤ b

/-- The checks of R87 and R292 in their order, for the current strand: width and alignment w, and the scope of a synchronisation
access, which no doorbell quadword takes (R373); `record` is false for BARINIT, which skips check 3. -/
def State.check (s : State) (va : W64) (w : Nat) (need : Need) (sc : Option Scope) (record : Bool) : Except Fail Nat :=
  if !isGlobal va && bitsOf va 62 48 ≠ 0 then .error (.addrform, va)
  else if va.toNat % w ≠ 0 then .error (.align, va)
  else
    match sc with
    | none => s.checkPage (s.core.ctx.getD 0) (clusterOf s.core.id) va w need
    | some q =>
      if !s.scopeInLaunch q || (s.isRemote va && q.code < 4) then .error (.scope, va)
      else match s.checkPage (s.core.ctx.getD 0) (clusterOf s.core.id) va w need with
        | .error e => .error e
        | .ok a =>
          if physTop ≤ a && a < remoteBase then .error (.buserr, va)
          else match (s.lineInfo (lineOf a)).scope with
          | some r =>
            if record && a < remoteBase && !scopeIncludes q (s.issuer s.core.id) r then .error (.scope, va) else .ok a
          | none => .ok a

/-- Record the scope of a synchronisation access that passed (R292). -/
def State.recordScope (s : State) (a : Nat) (sc : Scope) : State :=
  s.putLine { s.lineInfo (lineOf a) with scope := some (sc, s.issuer s.core.id) }

end Sys2Proof.Machine
end

