-- ==== Sys2Proof/Machine/Operands.lean ====
section
/-! DEFINITION. Operands.lean: operand forms: the registers of a strand (R43, R56), offsets and targets (R37), loop indices (R73),
immediates (R58), update operators (R99), the sequencer registers an instruction reads (R90). -/

namespace Sys2Proof.Machine

/-! ### Registers -/

/-- A sequencer register: g0 reads 0 (R43, R56). -/
def Core.getG (c : Core) (r : Reg) : W64 := if r = 0 then 0 else c.g[r]

/-- The loads of a core when a register is written: one still on its way to it no longer writes it, and stays a read whose data has not
returned (R78, R90, log 55). -/
def Core.orphan (c : Core) (r : Reg) : List PendingLoad := c.loads.map fun p => if p.gd = r then { p with gd := 0 } else p

/-- Write a sequencer register: a write to g0 is discarded (R43, R56). -/
def Core.setG (c : Core) (r : Reg) (x : W64) : Core :=
  if r = 0 then c else { c with g := c.g.set r x, loads := c.orphan r }

/-- A loop register. -/
def Core.getL (c : Core) (r : LReg) : W64 := c.l[r]

/-- Write a vector result latch. -/
def Core.setQ (c : Core) (n : Fin 4) (x : W64) : Core := { c with q := c.q.set n x }

/-! ### STATUS, FCTL, VSH (R45) -/

def Core.lvl (c : Core) : Nat := bitsOf c.status 4 3
def Core.canf (c : Core) : Bool := bitsOf c.status 2 2 == 1
def Core.px (c : Core) : Bool := bitsOf c.status 0 0 == 1
def Core.setLvl (c : Core) (k : Nat) : Core :=
  { c with status := setBits (setBits c.status 4 3 k) 5 5 (if k = 0 then 0 else 1) }
def Core.setCanf (c : Core) (b : Bool) : Core := { c with status := setBits c.status 2 2 b.toNat }
def Core.setPx (c : Core) (b : Bool) : Core := { c with status := setBits c.status 0 0 b.toNat }
/-- FCTL.RM; its illegal codes are never stored (R82) and read as RNE. -/
def Core.rm (c : Core) : RMode := (RMode.ofCode (bitsOf c.fctl 7 5)).getD .rne
def Core.triten (c : Core) : Bool := bitsOf c.fctl 8 8 == 1
/-- Set sticky flags of FCTL. -/
def Core.addFlags (c : Core) (f : Flags) : Core := { c with fctl := c.fctl ||| f.zeroExtend 64 }
/-- VSH.VL: the elements. -/
def Core.vl (c : Core) : Nat := bitsOf c.vsh 10 2
/-- VSH.EW as a width in bits. -/
def Core.ew (c : Core) : Nat := 8 * 2 ^ bitsOf c.vsh 1 0

/-- The rounding mode of an FP word (R62). -/
def Core.mode (c : Core) (r : Rnd) : RMode :=
  match r with
  | .mode m => m
  | .dyn => c.rm

/-! ### Addresses of the sequencer -/

/-- The first word of the block holding an address (R56). -/
def blk (a : W64) : W64 := a &&& ~~~0x3F

/-- The target of a branch or jump with a signed count of blocks of n bits (R37). -/
def blockTarget (pc : W64) (n off : Nat) : W64 := blk pc + (sext n off) * 64

/-- The address of a load or store (R37). -/
def Core.memAddr (c : Core) (a : Reg) (o : BitVec 15) : W64 := c.getG a + sext 15 o.toNat

/-- A sign-extended immediate (R58). -/
def immS {n : Nat} (i : BitVec n) : W64 := sext n i.toNat

/-- A zero-extended immediate (R58). -/
def immZ {n : Nat} (i : BitVec n) : W64 := BitVec.ofNat 64 i.toNat

/-- Continue with the next word; running past a block's last word out of the innermost loop's end block makes the end check due
(R42, R71). -/
def Core.next (c : Core) : Core :=
  let pc := c.pc + 4
  let due := pc.toNat % 64 == 0 && (match c.loops with | e :: _ => e.endblk == blk c.pc | [] => false)
  { c with pc := pc, seq := if due then .endCheck else .run, reach := if pc.toNat % 64 = 0 then .along else c.reach, micro := 0 }

/-! ### Update operators (R99) -/

/-- Width in bytes of an update operator. -/
def updBytes : UpdTag → Nat
  | .addI64 | .or | .and | .xor => 8
  | .addI32 | .addF32 | .addBf16x2 | .maxI32 | .minI32 | .maxN32 | .minN32 | .maxF32 | .minF32 => 4

/-- The identity of an operator, as the element's code. -/
def updIdentity : UpdTag → Nat
  | .addI32 | .addI64 | .addF32 | .addBf16x2 | .maxN32 | .or | .xor => 0
  | .maxI32 => 2 ^ 31
  | .minI32 => 2 ^ 31 - 1
  | .minN32 => 2 ^ 32 - 1
  | .maxF32 => 0xFF800000
  | .minF32 => 0x7F800000
  | .and => 2 ^ 64 - 1

/-- RNE_BF16 of a sum, NaN made canonical. -/
def bf16add (a b : Nat) : Nat := (Fmt.bf16.add .rne 0 a b).1

/-- The combination of two elements (R99, R305). -/
def updOp (t : UpdTag) (p b : Nat) : Nat :=
  match t with
  | .addI32 => (p + b) % 2 ^ 32
  | .addI64 => (p + b) % 2 ^ 64
  | .addF32 => f32add p b
  | .addBf16x2 => bf16add (p % 2 ^ 16) (b % 2 ^ 16) + 2 ^ 16 * bf16add (p / 2 ^ 16) (b / 2 ^ 16)
  | .maxI32 => if sval 32 p < sval 32 b then b else p
  | .minI32 => if sval 32 b < sval 32 p then b else p
  | .maxN32 => max p b
  | .minN32 => min p b
  | .maxF32 => f32max p b
  | .minF32 => f32min p b
  | .or => p ||| b
  | .and => p &&& b
  | .xor => p ^^^ b

/-- The bytes a touched bit covers: an element, or a 16-bit half under tag 4 (R304). -/
def updGrain : UpdTag → Nat
  | .addBf16x2 => 2
  | t => updBytes t

/-- The combination of two grains: that of elements, or of halves under tag 4. -/
def updOpGrain (t : UpdTag) (p b : Nat) : Nat :=
  match t with
  | .addBf16x2 => bf16add p b
  | t => updOp t p b

/-- A partial with every element at the identity (R100). -/
def Partial.identity (t : UpdTag) : Partial :=
  { tag := t, bytes := (List.range (128 / updBytes t)).flatMap fun _ => leBytes (updBytes t) (updIdentity t)
    touched := List.replicate (128 / updGrain t) false }

/-- Apply an operand to the element at a byte offset of a partial, and set its touched bits (R100, R304). -/
def Partial.apply (p : Partial) (off : Nat) (b : Nat) : Partial :=
  let w := updBytes p.tag
  let x := leVal ((p.bytes.drop off).take w)
  let y := updOp p.tag x (b % 2 ^ (8 * w))
  { p with
    bytes := p.bytes.take off ++ leBytes w y ++ p.bytes.drop (off + w)
    touched := (List.range (128 / updGrain p.tag)).map fun k =>
      p.touched.getD k false || (off ≤ k * updGrain p.tag && k * updGrain p.tag < off + w) }

/-- Pairwise combination, left to right, an odd last entry carried up, until one is left (R305); fuel is the number of leaves. -/
def pairUp (t : UpdTag) : List Nat → List Nat
  | a :: b :: rest => updOpGrain t a b :: pairUp t rest
  | l => l

def combineLeaves (t : UpdTag) : Nat → List Nat → Nat
  | 0, l => l.headD 0
  | n + 1, l => if l.length ≤ 1 then l.headD 0 else combineLeaves t n (pairUp t l)

/-- The merged bytes of a line: memory, then the partials that touched each grain in the order given (R305). -/
def mergeLine (t : UpdTag) (mem : List Byte) (parts : List Partial) : List Byte :=
  let w := updGrain t
  (List.range (128 / w)).flatMap fun k =>
    let at_ := fun (bs : List Byte) => leVal ((bs.drop (k * w)).take w)
    let leaves := at_ mem :: (parts.filter fun p => p.touched.getD k false).map fun p => at_ p.bytes
    leBytes w (combineLeaves t leaves.length leaves)

end Sys2Proof.Machine
end

