-- ==== Sys2Proof/Machine/Flags.lean ====
section
/-! DEFINITION. Flags.lean: how words set flags: the scalar results that carry flags (R62, R151), those of a vector block (R161, R165), and
the field rules of a CSR write (R6, R82). -/

namespace Sys2Proof.Machine

/-- A scalar result with its flags into a register, and on to the next word (R62). -/
def Core.putResult (c : Core) (d : Reg) (r : Nat × Flags) : Core := ((c.addFlags r.2).setG d (BitVec.ofNat 64 r.1)).next

/-- The flags of a vector word join those of its block (R151). -/
def VecRun.addFlags (v : VecRun) (f : Flags) : VecRun := { v with flags := v.flags ||| f }

/-- The block's sticky flags join FCTL as it ends (R82, R161, R165). -/
def Core.joinBlock (c : Core) (v : VecRun) : Core := c.addFlags v.flags

/-- A CSR write (R82): op 1 CSRW, 2 CSRS, 3 CSRC; rw and w1c mark the fields; other bits are res. Bits of RW fields follow the
operation; W1C fields take the bits written as ones to clear (R6), which CSRC writes as zeros (log 29). -/
def csrNew (op : Nat) (old g rw w1c : W64) : W64 :=
  let w := if op = 1 then g else if op = 2 then (old &&& rw ||| g &&& rw) ||| (g &&& w1c) else old &&& ~~~g &&& rw
  (w &&& rw) ||| (old &&& w1c &&& ~~~w)

end Sys2Proof.Machine
end

