-- ==== Sys2Proof/Machine/Lines.lean ====
section
/-! DEFINITION. Lines.lean: lines at their homes and in the clusters' L1 (R270, R286, R300..R307): snapshots and hold buffers,
requests and probes, merges, and the accesses performed at the home at once (engine and host reads and writes, R283). -/

namespace Sys2Proof.Machine

/-! ### Directory and filter -/

def DirLine.unc (l : Nat) : DirLine :=
  { line := l, hs := .unc, op := none, owner := 0, await := [], leaves := [], parks := [], fab := none, commits := [] }

def State.dirLine (s : State) (l : Nat) : DirLine := (s.dir.find? fun d => d.line = l).getD (DirLine.unc l)

def insertDir (x : DirLine) : List DirLine → List DirLine
  | [] => [x]
  | y :: t => if x.line < y.line then x :: y :: t else if y.line = x.line then x :: t else y :: insertDir x t

def State.putDir (s : State) (x : DirLine) : State := { s with dir := insertDir x s.dir }

/-- A request for the line waits at its home: BUSY, or HS is CMT or MRG (R300). -/
def DirLine.blocked (d : DirLine) : Bool := !d.await.isEmpty || d.hs == .cmt || d.hs == .mrg

/-- The region part of a line's directory entry (R300). -/
def State.region (s : State) (r : Nat) : DirRegion :=
  (s.regions.find? fun x => x.region = r).getD { region := r, walk0 := false, walk1 := false, pres := [] }

def insertRegion (x : DirRegion) : List DirRegion → List DirRegion
  | [] => [x]
  | y :: t => if x.region < y.region then x :: y :: t else if y.region = x.region then x :: t else y :: insertRegion x t

def State.putRegion (s : State) (x : DirRegion) : State := { s with regions := insertRegion x s.regions }

/-- PRES of a line's region (R300). -/
def State.pres (s : State) (l : Nat) : List Nat := (s.region (l / 4)).pres

def State.addPres (s : State) (l g : Nat) : State :=
  let r := s.region (l / 4)
  s.putRegion { r with pres := insertNat g r.pres }

/-- The filter entry of a line in a cluster. -/
def Cluster.entry (c : Cluster) (l : Nat) : Option FilterEntry := c.filter.find? fun e => e.line = l

def insertEntry (x : FilterEntry) : List FilterEntry → List FilterEntry
  | [] => [x]
  | y :: t => if x.line < y.line then x :: y :: t else if y.line = x.line then x :: t else y :: insertEntry x t

def Cluster.putEntry (c : Cluster) (x : FilterEntry) : Cluster := { c with filter := insertEntry x c.filter }

def Cluster.dropEntry (c : Cluster) (l : Nat) : Cluster := { c with filter := c.filter.filter fun e => e.line ≠ l }

/-- An entry without a copy, in a transient state. -/
def FilterEntry.empty (l : Nat) (x : Xs) : FilterEntry :=
  { line := l, hold := [], xs := x, st := .i, part := none, queue := [], heldProbes := [] }

/-- The clusters that hold an entry for the line, ascending. -/
def State.holders (s : State) (l : Nat) : List Nat :=
  (s.clusters.filter fun c => (c.2.entry l).isSome).map fun c => c.1

/-! ### Snapshots and hold buffers (R286, R287) -/

/-- The cache-mode banks of a cluster, ascending (R270). -/
def Cluster.cacheBanks (c : Cluster) : List Nat :=
  (List.range 32).filter fun b => match c.banks[b]? with | some x => x.mode == 0 | none => false

/-- The line address x of R270. -/
def lineX (l : Nat) : Nat := if remoteLine l then l - remoteBase / 128 else l

/-- The bank and the set of a line (R270). -/
def Cluster.place (c : Cluster) (l : Nat) : Nat × Nat :=
  let n := max 1 c.cacheBanks.length
  (c.cacheBanks.getD (lineX l % n) 0, lineX l / n % 64)

/-- The core of the cluster whose slice holds a line (R270). -/
def Cluster.slice (c : Cluster) (l : Nat) : Nat := (c.place l).1 / 8

/-- The line lies in a page pinned in a scratch frame (R273). -/
def Cluster.pinned (c : Cluster) (l : Nat) : Bool := c.frames.any fun f => f.base == l / 32

/-- The strand of core c loses its snapshot of a line and owes an implicit boundary (R287). -/
def State.dropSnap (s : State) (c l : Nat) : State :=
  let x := s.coreAt c
  s.putCore { x with snaps := x.snaps.filter fun n => n.line ≠ l, implicit := true }

/-- A copy of which strands hold a snapshot moves to the hold buffer of its slice; into a full buffer it is dropped (R286, R287). -/
def State.intoHold (s : State) (g l : Nat) (holders : List Nat) : State :=
  let cl := s.cluster g
  if holders.isEmpty then s
  else if (cl.holdBuf.filter fun h => h.slice == cl.slice l).length < 64 then
    s.putCluster g { cl with holdBuf := cl.holdBuf ++ [{ slice := cl.slice l, line := l, holders := holders }] }
  else holders.foldl (fun t c => t.dropSnap c l) s

/-- The copy of a line moves to the hold buffer of its slice when strands hold a snapshot of it (R286, R287). -/
def State.holdCopy (s : State) (g l : Nat) : State :=
  match (s.cluster g).entry l with
  | none => s
  | some e => s.intoHold g l e.hold

/-- A cluster loses its leased copy of a line of another device, if it has one (R98, R286, R293, R295). -/
def State.dropL1 (s : State) (g l : Nat) : State :=
  match (s.cluster g).leases.find? fun x => x.line == l with
  | none => s
  | some x =>
    let t := s.intoHold g l x.hold
    t.putCluster g { t.cluster g with leases := (t.cluster g).leases.filter fun y => y.line ≠ l }

/-- A cluster gives up its copy of a line. -/
def State.dropCopy (s : State) (g l : Nat) : State :=
  let s1 := s.holdCopy g l
  s1.putCluster g ((s1.cluster g).dropEntry l)

/-- Every snapshot of the strand of core c is released (R92): its marks in the filter and the hold buffers go. -/
def State.releaseSnaps (s : State) (c : Nat) : State :=
  let x := s.coreAt c
  let cl := s.cluster (clusterOf c)
  let s1 := s.putCore { x with snaps := [] }
  if x.snaps.isEmpty then s1
  else s1.putCluster (clusterOf c) { cl with
    filter := cl.filter.map fun e => { e with hold := e.hold.filter (· ≠ c) }
    leases := cl.leases.map fun e => { e with hold := e.hold.filter (· ≠ c) }
    holdBuf := (cl.holdBuf.map fun h => { h with holders := h.holders.filter (· ≠ c) }).filter fun h => !h.holders.isEmpty }

/-- The snapshot of a line that a strand holds. -/
def Core.snap? (c : Core) (l : Nat) : Option Snapshot := c.snaps.find? fun n => n.line = l

/-- A lease has ended (R293). -/
def leaseEnded (cycle : Nat) (expiry : W32) : Bool := (BitVec.ofNat 32 cycle - expiry).toNat < 2 ^ 31

/-- The bytes of a valid copy that serves reads of a cluster: an L1 copy of a line of this device, which holds the committed bytes
(R283), or a live leased copy of a line of another device in the cluster's L1 (R293), for a strand that has acquired nothing since it was asked for
(R106, log 68). -/
def State.copyBytes (s : State) (g l acquired : Nat) : Option (List Byte) :=
  let cl := s.cluster g
  if remoteLine l then
    match cl.leases.find? fun x => x.line == l && !leaseEnded s.cycle x.expiry && decide (acquired ≤ x.asked) with
    | some x => some x.bytes
    | none => none
  else
    match cl.entry l with
    | some e =>
      if (e.st == .s || e.st == .m || e.st == .o) && (e.xs == .none || e.xs == .sm) then some (cellBytes s.mem (l * 128) 128) else none
    | none => none

/-- Put the bytes of a snapshot into a pending load of its line (R90). -/
def PendingLoad.fill (p : PendingLoad) (l : Nat) (bs : List Byte) : PendingLoad :=
  if lineOf p.addr ≠ l then p
  else { p with bytes := p.bytes.zipIdx.map fun b => match b.1 with | some x => some x | none => bs[p.addr % 128 + b.2]? }

/-- The strand of core c takes a snapshot of a line from a valid copy with these bytes; its pending loads of the line get theirs. -/
def State.takeSnap (s : State) (c l : Nat) (bs : List Byte) : State :=
  let x := s.coreAt c
  let s1 := s.putCore { x with
    snaps := if (x.snap? l).isSome then x.snaps else x.snaps ++ [{ line := l, bytes := bs }]
    loads := x.loads.map fun p => p.fill l bs }
  let cl := s1.cluster (clusterOf c)
  match cl.entry l with
  | some e => s1.putCluster (clusterOf c) (cl.putEntry { e with hold := insertNat c e.hold, last := s.clock })
  | none => s1.putCluster (clusterOf c) { cl with
      leases := cl.leases.map fun e => if e.line = l then { e with hold := insertNat c e.hold, last := s.clock } else e }

/-- An L1 copy is evicted (R303): S silently, M and O through a write-back, U by parking its partial. A snapshot held in it moves to the
hold buffer. -/
def State.evict (s : State) (g l : Nat) : State :=
  match (s.cluster g).entry l with
  | none => s
  | some e =>
    if e.xs ≠ .none then s
    else
      let s1 := s.holdCopy g l
      let put := fun (t : State) (x : FilterEntry) (m : Msg) =>
        { t.putCluster g ((t.cluster g).putEntry x) with msgs := t.msgs ++ [m] }
      match e.st, e.part with
      | .u, some p => put s1 { e with xs := .ui, part := none, hold := [] } (.parked g l p)
      | .m, _ | .o, _ => put s1 { e with xs := .mi, hold := [] } (.writeBack g l)
      | _, _ => s1.putCluster g ((s1.cluster g).dropEntry l)

/-- A cluster loses its copy of a line whose place in the L1 goes: what awaits a grant goes on without its copy (R81, R303). -/
def State.expel (s : State) (g l : Nat) : State :=
  match (s.cluster g).entry l with
  | none => s.dropL1 g l
  | some e =>
    if e.xs == .sm then
      let t := s.holdCopy g l
      t.putCluster g ((t.cluster g).putEntry { e with st := .i, xs := .im, hold := [] })
    else s.evict g l

/-- A pinned page leaves its frame, its lines written back (R273). -/
def State.unpin (s : State) (g : Nat) (f : Frame) : State :=
  let cl := s.cluster g
  (List.range 32).foldl (fun t k => t.expel g (f.base * 32 + k))
    (s.putCluster g { cl with frames := cl.frames.filter fun x => x.frame ≠ f.frame })

/-! ### Replacement (R270, R271) -/

/-- The other lines in the ways of a line's set, each with its last access and whether it is stable; lines of pinned pages are in
frames. -/
def Cluster.ways (c : Cluster) (l : Nat) : List (Nat × Nat × Bool) :=
  let here := fun (k : Nat) => k != l && !c.pinned k && c.place k == c.place l
  (((c.filter.filter fun e => e.st != .i && e.xs != .mi && e.xs != .ui).map fun e => (e.line, e.last, e.xs == .none))
    ++ c.leases.map fun e => (e.line, e.last, true)).filter fun w => here w.1

/-- The least recently used of some ways; the first of several used in one cycle (log 56). -/
def oldestWay : List (Nat × Nat × Bool) → Option (Nat × Nat × Bool)
  | [] => none
  | w :: t => match oldestWay t with
    | some o => if o.2.1 < w.2.1 then some o else some w
    | none => some w

/-- Where a mark of RSD is kept. -/
def retainKey (g l : Nat) : Nat := g * 2 ^ 64 + l

/-- The line that leaves a full set for another: one marked low first, one kept last (R103, R271). -/
def State.evictee (s : State) (g l : Nat) : Option Nat :=
  let ws := (s.cluster g).ways l
  let free := ws.filter fun w => w.2.2
  let mark := fun (w : Nat × Nat × Bool) => assoc (retainKey g w.1) s.retain
  if ws.length < 8 then none
  else ((oldestWay (free.filter fun w => mark w == some 1)).orElse fun _ =>
    (oldestWay (free.filter fun w => mark w == none)).orElse fun _ => oldestWay free).map fun w => w.1

/-- Room in the L1 for a line (R271): the mark of the line that leaves ends. -/
def State.makeWay (s : State) (g l : Nat) : State :=
  match s.evictee g l with
  | none => s
  | some x => { (s.evict g x).dropL1 g x with retain := s.retain.filter fun r => r.1 ≠ retainKey g x }

/-! ### Requests -/

/-- Ask for a line on behalf of a cluster, unless a request is outstanding (R303): xs is the transient state, q the request. A
U partial is sent to the home first. -/
def State.request (s : State) (g l : Nat) (xs : Xs) (q : Msg) : State :=
  let cl := s.cluster g
  match cl.entry l with
  | none => { s.putCluster g (cl.putEntry (FilterEntry.empty l xs)) with msgs := s.msgs ++ [q] }
  | some e =>
    if e.xs ≠ .none then s
    else match e.part with
      | some p => { s.putCluster g (cl.putEntry { e with xs := xs, st := .i, part := none }) with
          msgs := s.msgs ++ [.parked g l p, q] }
      | none => { s.putCluster g (cl.putEntry { e with xs := xs }) with msgs := s.msgs ++ [q] }

/-- Ask for a line to read it. -/
def State.needLine (s : State) (g l : Nat) : State := s.request g l .is (.readReq g l)

/-- Ask for exclusive ownership of a line (R97): an S or O copy stays until the grant (SM, OM). -/
def State.needOwn (s : State) (g l : Nat) : State :=
  match (s.cluster g).entry l with
  | some e => if e.st == .s || e.st == .o then s.request g l .sm (.grantReq g l) else s.request g l .im (.grantReq g l)
  | none => s.request g l .im (.grantReq g l)

/-! ### Merges (R305) -/

/-- Insert a leaf by ascending cluster id. -/
def insertLeaf (x : Nat × Partial) : List (Nat × Partial) → List (Nat × Partial)
  | [] => [x]
  | y :: t => if x.1 < y.1 then x :: y :: t else if y.1 = x.1 then x :: t else y :: insertLeaf x t

/-- The committed bytes of a merged line: its memory, then the leaves in ascending cluster id, then the fabric partial. -/
def State.merged (s : State) (d : DirLine) (leaves : List (Nat × Partial)) : List Byte :=
  match d.op with
  | none => cellBytes s.mem (d.line * 128) 128
  | some t => mergeLine t (cellBytes s.mem (d.line * 128) 128) (leaves.map (·.2) ++ d.fab.toList)

/-- The partials the clusters hold, with those parked at the home. -/
def State.allLeaves (s : State) (d : DirLine) : List (Nat × Partial) :=
  s.clusters.foldl (fun acc c => match c.2.entry d.line with
    | some e => match e.part with | some p => insertLeaf (c.1, p) acc | none => acc
    | none => acc) (d.parks.foldl (fun acc p => insertLeaf p acc) (d.leaves.foldl (fun acc p => insertLeaf p acc) []))

/-- A merge started and completed in one step, for an access performed at the home. -/
def State.mergeNow (s : State) (l : Nat) : State :=
  let d := s.dirLine l
  if d.hs ≠ .upd then s
  else
    let bytes := s.merged d (s.allLeaves d)
    let s1 := (s.holders l).foldl (fun t g => match (t.cluster g).entry l with
      | some e => if e.part.isSome then t.dropCopy g l else t
      | none => t) s
    { s1.putDir (DirLine.unc l) with mem := cellPutBytes s1.mem (l * 128) bytes }

/-- A data reply or a grant of the line is on its way to the cluster (R309). -/
def State.replying (s : State) (g l : Nat) : Bool := s.msgs.any fun m => match m with | .reply h k _ _ => h == g && k == l | _ => false

/-- No protocol step is under way for a line that an access at the home would have to wait for (R284, R300). -/
def State.settled (s : State) (l : Nat) : Bool :=
  remoteLine l || (!(s.dirLine l).blocked
    && !(s.msgs.any fun m => match m with | .parked _ k _ => k == l | .reply _ k _ _ => k == l | _ => false))

/-- Every L1 copy of a line is withdrawn, snapshots moving to the hold buffers (R286), and a line in U is merged: the home holds the
only copy. -/
def State.withdraw (s : State) (l : Nat) : State :=
  let s1 := s.mergeNow l
  let s2 := (s1.holders l).foldl (fun t g => match (t.cluster g).entry l with
    | some e =>
      if e.xs == .none then t.dropCopy g l
      else if e.xs == .sm then
        let t1 := t.holdCopy g l
        t1.putCluster g ((t1.cluster g).putEntry { e with st := .i, xs := .im, hold := [] })
      else t
    | none => t) s1
  let r := s2.region (l / 4)
  let d := s2.dirLine l
  if d.hs == .unc && r.pres.isEmpty then s2 else s2.putDir (DirLine.unc l)

/-- The translation caches of a die drop what they derived from a region, which no longer counts them (R307). -/
def State.forget (s : State) (die region : Nat) : State :=
  let keep := fun (x : Translation) => !x.regions.contains region
  let r := s.region region
  { s.putRegion (if die = 0 then { r with walk0 := false } else { r with walk1 := false }) with
    clusters := s.clusters.map fun c => if c.1 / 128 = die then (c.1, { c.2 with tlb := c.2.tlb.filter keep }) else c
    l2tlb := s.l2tlb.filter fun x => x.1 != die || keep x.2 }

/-- The dies whose translation caches used a region (R307). -/
def DirRegion.walkers (r : DirRegion) : List Nat := (if r.walk0 then [0] else []) ++ if r.walk1 then [1] else []

/-- A change of a byte in a region that translation caches used shoots their translations down before it completes (R307). -/
def State.shoot (s : State) (l : Nat) : State := (s.region (l / 4)).walkers.foldl (fun t d => t.forget d (l / 4)) s

/-- Bytes written at their homes at once, as an engine or host write (R283, R194): copies are withdrawn first, a write of a whole
line clears its entry in the lost-line table (R370). -/
def State.homeWrite (s : State) (a : Nat) (bs : List Byte) : State :=
  let ls := linesAt a bs.length
  let s1 := ls.foldl (fun t l => (t.withdraw l).shoot l) s
  { s1 with
    mem := cellPutBytes s1.mem a bs
    lost := s1.lost.filter fun l => !(ls.contains l && decide (a ≤ l * 128 ∧ l * 128 + 128 ≤ a + bs.length)) }

/-- The committed bytes, merged first if in U (R101). -/
def State.homeRead (s : State) (a n : Nat) : List Byte × State :=
  let s1 := (linesAt a n).foldl (fun t l => t.mergeNow l) s
  (cellBytes s1.mem a n, s1)

/-- Every line of a range is settled. -/
def State.rangeSettled (s : State) (a n : Nat) : Bool := (linesAt a n).all fun l => s.settled l

/-! ### The home's answers (R300..R306) -/

/-- Start a full merge: probe every cluster of PRES (R305). -/
def State.startMerge (s : State) (d : DirLine) : State :=
  let hs := s.pres d.line
  let s1 := s.putDir { d with hs := .mrg, await := hs }
  { s1 with msgs := s1.msgs ++ hs.map fun g => .probe g d.line .merge none }

/-- Probe clusters of a line. -/
def State.sendProbes (s : State) (d : DirLine) (gs : List Nat) (k : Probe) (req : Option Nat) : State :=
  let s1 := s.putDir { d with await := gs }
  { s1 with msgs := s1.msgs ++ gs.map fun g => .probe g d.line k req }

/-- The clusters that must give up their copies before a line is granted: those of PRES, while the line is not free at the home (R302). -/
def State.sharers (s : State) (d : DirLine) (g : Nat) : List Nat :=
  match d.hs with
  | .shd | .own => (s.pres d.line).filter (· ≠ g)
  | .unc | .upd | .cmt | .mrg => []

/-- A request is served, or waits, at the home of its line (R300, R303, R306). One that must wait for probes stands first in the
queue. -/
def State.serve (s : State) (m : Msg) : State :=
  let front : State → State := fun t => { t with homeQ := m :: t.homeQ }
  let back : State := { s with homeQ := s.homeQ ++ [m] }
  match m with
  | .readReq g l =>
    let d := s.dirLine l
    if d.blocked then back
    else match d.hs with
      | .own => if d.owner = g then { s with msgs := s.msgs ++ [.reply g l .m none] }
          else front (s.sendProbes d [d.owner] .read (some g))
      | .upd => front (s.startMerge d)
      | .unc | .shd | .cmt | .mrg =>
        let s1 := (s.putDir { d with hs := .shd }).addPres l g
        { s1 with msgs := s1.msgs ++ [.reply g l .s none] }
  | .grantReq g l =>
    let d := s.dirLine l
    if d.blocked then back
    else match d.hs with
      | .upd => front (s.startMerge d)
      | .unc | .shd | .own | .cmt | .mrg =>
        if (s.sharers d g).isEmpty then
          let s1 := (s.putDir { d with hs := .own, owner := g }).addPres l g
          { s1 with msgs := s1.msgs ++ [.reply g l .m none] }
        else front (s.sendProbes d (s.sharers d g) .invalidate none)
  | .updReq g l t =>
    let d := s.dirLine l
    if d.blocked then back
    else match d.hs with
      | .upd =>
        if d.op = some t then
          let p := ((d.parks.find? fun x => x.1 = g).map (·.2)).getD (Partial.identity t)
          let s1 := (s.putDir { d with parks := d.parks.filter fun x => x.1 ≠ g }).addPres l g
          { s1 with msgs := s1.msgs ++ [.reply g l .u (some p)] }
        else front (s.startMerge d)
      | .unc | .shd | .own | .cmt | .mrg =>
        if (s.sharers d g).isEmpty then
          let s1 := (s.putDir { DirLine.unc l with hs := .upd, op := some t }).addPres l g
          { s1 with msgs := s1.msgs ++ [.reply g l .u (some (Partial.identity t))] }
        else front (s.sendProbes d (s.sharers d g) .invalidate none)
  | _ => s

def Msg.line : Msg → Nat
  | .readReq _ l | .grantReq _ l | .updReq _ l _ | .writeBack _ l | .parked _ l _ | .probe _ l _ _ | .reply _ l _ _ | .wbAck _ l
  | .answer _ l _ _ _ => l
  | .shootdown _ r => r * 4

/-! ### The entries of a directory (R300, R301) -/

/-- The directory and its set that hold the entry of a region: 32,768 entries in 16 ways by region address (R300, log 56). -/
def regionSet (r : Nat) : Nat × Nat := (lineHome (r * 4), r / 16 % 2048)

/-- A region's entry is in use. -/
def State.entryUsed (s : State) (r : Nat) : Bool :=
  let x := s.region r
  !x.pres.isEmpty || x.walk0 || x.walk1 || x.evicting || s.dir.any fun d => d.line / 4 == r && d.hs != .unc

/-- The regions whose entries are in use in the set of a region. -/
def State.setRegions (s : State) (r : Nat) : List Nat :=
  ((s.regions.map DirRegion.region ++ s.dir.map fun (d : DirLine) => d.line / 4).filter fun x => regionSet x == regionSet r && s.entryUsed x).foldl
    (fun l x => insertNat x l) []

/-- A region has its entry, or a way of its set is free (R300). -/
def State.hasRoom (s : State) (r : Nat) : Bool := s.entryUsed r || decide ((s.setRegions r).length < 16)

/-- A request can be served now: its line is neither BUSY nor in CMT or MRG, and its entry is there and stays (R300, R301). -/
def State.servable (s : State) (l : Nat) : Bool := !(s.dirLine l).blocked && !(s.region (l / 4)).evicting && s.hasRoom (l / 4)

/-- An entry is evicted for the set of a region (R301): a line in U is merged, and the clusters of PRES are probed for the others. The
entry is the first with no line BUSY, in CMT or in MRG (log 56). -/
def State.startEvict (s : State) (r : Nat) : State :=
  match (s.setRegions r).find? fun x => (List.range 4).all fun k => !(s.dirLine (x * 4 + k)).blocked with
  | none => s
  | some x => (List.range 4).foldl (fun t k =>
      let d := t.dirLine (x * 4 + k)
      match d.hs with
      | .upd => t.startMerge d
      | .shd | .own => if (t.pres d.line).isEmpty then t.putDir (DirLine.unc d.line) else t.sendProbes d (t.pres d.line) .invalidate none
      | .unc | .cmt | .mrg => t) (s.putRegion { s.region x with evicting := true })

/-- An entry whose eviction has ended is free: no cluster and no translation cache is counted in it (R301). -/
def State.freeEntry (s : State) (r : Nat) : State :=
  let t := s.shoot (r * 4)
  t.putRegion { t.region r with pres := [], evicting := false }

/-- Nothing of an entry's eviction is still awaited. -/
def State.evicted (s : State) (r : Nat) : Bool :=
  (s.region r).evicting && (List.range 4).all fun k => (s.dirLine (r * 4 + k)).hs == .unc && (s.dirLine (r * 4 + k)).await.isEmpty

/-- What waits in the set of a region goes on, in slice order (R300, R301): ended evictions free their entries, requests that can be
served are, and a request that finds no way has an entry evicted. -/
def State.drain (s : State) (r : Nat) : Nat → State
  | 0 => s
  | n + 1 =>
    match (s.setRegions r).find? s.evicted with
    | some x => (s.freeEntry x).drain r n
    | none =>
      let same := fun (m : Msg) => regionSet (m.line / 4) == regionSet r
      match s.homeQ.find? fun m => same m && s.servable m.line with
      | some m => ({ s with homeQ := s.homeQ.erase m }.serve m).drain r n
      | none =>
        if (s.homeQ.any fun m => same m && !s.hasRoom (m.line / 4)) && !(s.setRegions r).any fun x => (s.region x).evicting then
          (s.startEvict r).drain r n
        else s

/-- Serve what waits for a line, or for a place in its set. -/
def State.serveWaiting (s : State) (l : Nat) : State := s.drain (l / 4) (3 * s.homeQ.length + 3)

/-- A request reaches its home (R300, R301). -/
def State.arrive (s : State) (m : Msg) : State :=
  if s.servable m.line then s.serve m else { s with homeQ := s.homeQ ++ [m] }.serveWaiting m.line

end Sys2Proof.Machine
end

