-- ==== Sys2Proof/Machine/Pool.lean ====
section
/-! DEFINITION. Pool.lean: an attention chiplet's page pool and translation memory (R225..R234, R237): fields of entries, lookups, slots,
holds, and freeing a sequence. -/

namespace Sys2Proof.Machine

/-! ### Entries (R229..R231) -/

/-- Bits [hi:lo] of a number. -/
def fieldOf (v hi lo : Nat) : Nat := v / 2 ^ lo % 2 ^ (hi + 1 - lo)

/-- A number with bits [hi:lo] replaced. -/
def withField (v hi lo x : Nat) : Nat := v - fieldOf v hi lo * 2 ^ lo + x % 2 ^ (hi + 1 - lo) * 2 ^ lo

/-- The page number that means no page (R225). -/
def noPage : Nat := 0xFFFFFF

/-- The bits of an entry; one not listed is FREE. -/
def Chip.entry (c : Chip) (e : Nat) : Nat := match assoc e c.entries with | some v => v.toNat | none => 0

/-- Write an entry. -/
def Chip.putEntry (c : Chip) (e v : Nat) : Chip :=
  { c with entries := if v % 2 ^ 128 = 0 then assocDrop e c.entries else assocPut e (BitVec.ofNat 128 v) c.entries }

/-- KIND of an entry (R230): 0 FREE, 1 HEAD, 2 SPAN, 3 PAGES, 4 PROV. -/
def kindOf (v : Nat) : Nat := fieldOf v 127 124

def headMd (v : Nat) : Nat := fieldOf v 123 120
def headNspan (v : Nat) : Nat := fieldOf v 119 112
def headCap (v : Nat) : Nat := fieldOf v 111 104
def headLib (v : Nat) : Nat := fieldOf v 103 103
def headOwner (v : Nat) : Nat := fieldOf v 99 76
def headLen (v : Nat) : Nat := fieldOf v 75 52
def headAlay (v : Nat) : Nat := fieldOf v 51 44
def headApp (v : Nat) : Nat := fieldOf v 43 32
def headVer (v : Nat) : Nat := fieldOf v 31 8

/-- The span an entry describes (R231). -/
def spanOf (v : Nat) : KvSpan :=
  { start := fieldOf v 123 100, cnt := fieldOf v 99 76, plist := fieldOf v 75 56, off := fieldOf v 55 49
    delta := sval 20 (fieldOf v 48 29), prov := fieldOf v 28 11, rwm := fieldOf v 10 3
    stale := fieldOf v 2 2 == 1, spl := fieldOf v 1 1 == 1 }

/-- The entry of a span. -/
def KvSpan.value (x : KvSpan) : Nat :=
  2 * 2 ^ 124 + x.start % 2 ^ 24 * 2 ^ 100 + x.cnt % 2 ^ 24 * 2 ^ 76 + x.plist % 2 ^ 20 * 2 ^ 56 + x.off % 2 ^ 7 * 2 ^ 49
    + wrapInt 20 x.delta * 2 ^ 29 + x.prov % 2 ^ 18 * 2 ^ 11 + x.rwm % 2 ^ 8 * 2 ^ 3 + x.stale.toNat * 4 + x.spl.toNat * 2

/-- A flagged span (R231). -/
def KvSpan.flagged (x : KvSpan) : Bool := x.stale || x.spl

/-- The blocks a span holds (R350). -/
def KvSpan.blocks (x : KvSpan) (tpp : Nat) : Nat := (x.off + x.cnt + tpp - 1) / tpp

/-- The slots a span uses (R231). -/
def KvSpan.slots (x : KvSpan) (m : KvModel) : List Nat := (List.range (x.blocks m.tpp * m.layers)).map (· + x.plist)

/-- The slot and place of token i at a layer (R231). -/
def KvSpan.tokenAt (x : KvSpan) (m : KvModel) (i layer : Nat) : Nat × Nat :=
  (x.plist + (x.off + i) / m.tpp * m.layers + layer, (x.off + i) % m.tpp)

/-- The distinct slots of spans, ascending. -/
def slotsOf (m : KvModel) (xs : List KvSpan) : List Nat := (xs.flatMap fun x => x.slots m).foldl (fun l k => insertNat k l) []

/-- The value of a PROV entry (R231). -/
def provValue (m : KvModel) (ver lib : Nat) : Nat :=
  4 * 2 ^ 124 + m.model * 2 ^ 108 + m.ropeid * 2 ^ 100 + m.layers * 2 ^ 92 + m.kvfmt * 2 ^ 88 + ver % 2 ^ 24 * 2 ^ 64 + lib % 2 ^ 18 * 2 ^ 45

/-- The four fields that provenance compares (R345), of a descriptor and of a PROV entry. -/
def KvModel.quad (m : KvModel) : Nat × Nat × Nat × Nat := (m.model, m.ropeid, m.layers, m.kvfmt)
def provQuad (v : Nat) : Nat × Nat × Nat × Nat := (fieldOf v 123 108, fieldOf v 107 100, fieldOf v 99 92, fieldOf v 91 88)

/-- A PAGES entry whose slots are all empty. -/
def emptyPages : Nat := 3 * 2 ^ 124 + (2 ^ 96 - 1)

/-! ### Lookups (R232, R347) -/

/-- The reference of an entry of chiplet d (R229). -/
def entryRef (d e : Nat) : W64 := BitVec.ofNat 64 (d * 2 ^ 18 + e % 2 ^ 18)

/-- The reference of a slot of chiplet d (R226). -/
def slotRef (d k : Nat) : W64 := BitVec.ofNat 64 (d * 2 ^ 20 + k % 2 ^ 20)

/-- The context has locked the segment of an entry. -/
def Chip.mine (c : Chip) (ctx e : Nat) : Bool := e < 262144 && assoc (e / 256) c.locks == some ctx

/-- Every entry's segment is locked, or the first that is not (R347). -/
def Chip.needMine (c : Chip) (ctx d : Nat) (es : List Nat) : Except Fail Unit :=
  match es.find? fun e => !c.mine ctx e with
  | some e => .error (.txmiss, entryRef d e)
  | none => .ok ()

/-- The lookup of an entry of a kind: its bits. -/
def Chip.look (c : Chip) (ctx d kind e : Nat) : Except Fail Nat :=
  if c.mine ctx e && kindOf (c.entry e) == kind then .ok (c.entry e) else .error (.txmiss, entryRef d e)

/-- The lookup of a HEAD, with its model descriptor. -/
def Chip.lookHead (c : Chip) (ctx d e : Nat) : Except Fail (Nat × KvModel) :=
  match c.look ctx d 1 e with
  | .error f => .error f
  | .ok v => match assoc (ctx * 16 + headMd v) c.models with
    | some m => .ok (v, m)
    | none => .error (.txmiss, entryRef d e)

/-- The lookups of the entries from e up, of one kind, each read by f. -/
def Chip.lookMany {α : Type} (c : Chip) (ctx d kind : Nat) (f : Nat → α) (e : Nat) : Nat → Except Fail (List α)
  | 0 => .ok []
  | n + 1 => match c.look ctx d kind e with
    | .error x => .error x
    | .ok v => match c.lookMany ctx d kind f (e + 1) n with
      | .error x => .error x
      | .ok l => .ok (f v :: l)

/-- The spans of a sequence. -/
def Chip.lookSpans (c : Chip) (ctx d e head : Nat) : Except Fail (List KvSpan) := c.lookMany ctx d 2 spanOf (e + 1) (headNspan head)

/-- The page number and the SH bit of a slot. -/
def Chip.slot (c : Chip) (k : Nat) : Nat × Bool :=
  let v := c.entry (k / 4)
  (fieldOf v (24 * (k % 4) + 23) (24 * (k % 4)), fieldOf v (120 + k % 4) (120 + k % 4) == 1)

/-- Set a slot. -/
def Chip.putSlot (c : Chip) (k page : Nat) (sh : Bool) : Chip :=
  let v := c.entry (k / 4)
  c.putEntry (k / 4) (withField (withField v (24 * (k % 4) + 23) (24 * (k % 4)) page) (120 + k % 4) (120 + k % 4) sh.toNat)

/-- The lookup of a slot being written: it lies in a PAGES entry. -/
def Chip.lookSlot (c : Chip) (ctx d k : Nat) : Except Fail Unit :=
  if !c.mine ctx (k / 4) then .error (.txmiss, entryRef d (k / 4))
  else if kindOf (c.entry (k / 4)) = 3 then .ok () else .error (.txmiss, slotRef d k)

/-- The lookup of a slot being read: it holds a page of the context. The frame. -/
def Chip.lookPage (c : Chip) (ctx d k : Nat) : Except Fail Nat :=
  match c.lookSlot ctx d k with
  | .error f => .error f
  | .ok _ =>
    let p := (c.slot k).1
    if p = noPage then .error (.txmiss, slotRef d k)
    else match assoc p c.frames with
      | some f => if f.ctx = ctx then .ok p else .error (.txmiss, BitVec.ofNat 64 p)
      | none => .error (.txmiss, BitVec.ofNat 64 p)

/-- A check of every element of a list, in order. -/
def eachOk {α β : Type} (f : α → Except Fail β) : List α → Except Fail (List β)
  | [] => .ok []
  | a :: t => match f a with
    | .error e => .error e
    | .ok b => match eachOk f t with
      | .error e => .error e
      | .ok l => .ok (b :: l)

/-! ### Frames (R225, R226, R237) -/

/-- The free frames of a chiplet (R249). -/
def Chip.free (c : Chip) : Nat := c.npg - (c.frames.filter fun f => f.1 < c.npg).length

/-- The lowest number from k up that an ascending list leaves out. -/
def lowestMissing {α : Type} (k : Nat) : List (Nat × α) → Nat
  | [] => k
  | (j, _) :: t => if j = k then lowestMissing (k + 1) t else if j < k then lowestMissing k t else k

/-- The lowest-numbered free frame goes to a context with an owner tag (R226). -/
def Chip.take (c : Chip) (ctx owner : Nat) : Option (Nat × Chip) :=
  let f := lowestMissing 0 c.frames
  if c.npg ≤ f then none
  else some (f, { c with frames := assocPut f { ctx := ctx, owner := BitVec.ofNat 24 owner, ohold := true, share := 0 } c.frames })

/-- A queued command holds a frame (R237). -/
def Chip.holdsFrame (c : Chip) (f : Nat) : Bool := c.cmds.any fun m => m.holds.contains f

/-- A queued command holds the sequence of a HEAD (R237). -/
def Chip.holdsSeq (c : Chip) (e : Nat) : Bool := c.cmds.any fun m => m.head == e

/-- A frame without holds is free (R225, R237). -/
def Chip.settle (c : Chip) (f : Nat) : Chip :=
  match assoc f c.frames with
  | some x => if !x.ohold && x.share = 0 && !c.holdsFrame f then { c with frames := assocDrop f c.frames } else c
  | none => c

/-- Change the holds of a frame. -/
def Chip.rehold (c : Chip) (f : Nat) (g : KvFrame → KvFrame) : Chip :=
  match assoc f c.frames with
  | some x => { c with frames := assocPut f (g x) c.frames }.settle f
  | none => c

/-- A shared hold on a frame ends, or the owner's does (R227). -/
def KvFrame.drop (sh : Bool) (x : KvFrame) : KvFrame := if sh then { x with share := x.share - 1 } else { x with ohold := false }

/-- Release a slot (R227): whether it held a page. A frame that is not the context's keeps its holds. -/
def Chip.release (c : Chip) (ctx k : Nat) : Bool × Chip :=
  let (p, sh) := c.slot k
  if p = noPage then (false, c)
  else
    let c1 := c.putSlot k noPage false
    match assoc p c1.frames with
    | some x => (true, if x.ctx = ctx then c1.rehold p (KvFrame.drop sh) else c1)
    | none => (true, c1)

/-- KFREE of the sequence of a HEAD (R227): every lookup comes before the first change. -/
def Chip.freeSeq (c : Chip) (ctx d e : Nat) : Except Fail Chip :=
  match c.lookHead ctx d e with
  | .error f => .error f
  | .ok (v, m) => match c.lookSpans ctx d e v with
    | .error f => .error f
    | .ok xs =>
      let slots := slotsOf m xs
      let provs := (xs.filter fun x => x.prov != 0).map fun x => x.prov
      let own := (List.range (headCap v + 1)).map (· + e)
      match c.needMine ctx d (own ++ provs), eachOk (c.lookSlot ctx d) slots with
      | .error f, _ => .error f
      | _, .error f => .error f
      | .ok _, .ok _ =>
        let c1 := slots.foldl (fun t k => (t.release ctx k).2) c
        let gone := own ++ provs.filter fun p => kindOf (c.entry p) == 4
        .ok (gone.foldl (fun t k => t.putEntry k 0) c1)

/-- Sequences whose last hold has ended are freed (R228); one whose lookups fail stays as it is. -/
def Chip.reap (c : Chip) (d : Nat) : Chip :=
  c.doomed.foldl (fun t x =>
    if t.holdsSeq x.2 then t
    else
      let u := { t with doomed := t.doomed.filter (· ≠ x) }
      match u.freeSeq x.1 d x.2 with | .ok v => v | .error _ => u) c

/-- Commands leave a chiplet: their holds end (R237). -/
def Chip.dropCmds (c : Chip) (d : Nat) (p : AttnCmd → Bool) : Chip :=
  let gone := c.cmds.filter p
  if gone.isEmpty then c
  else
    let c1 := { c with cmds := c.cmds.filter fun m => !p m }
    ((gone.flatMap fun m => m.holds).foldl Chip.settle c1).reap d

/-- KRECLAIM on one chiplet (R228): the frames it frees, and the chiplet. -/
def Chip.reclaim (c : Chip) (ctx d owner : Nat) : Nat × Chip :=
  let heads := (c.entries.filter fun e => kindOf e.2.toNat == 1 && headOwner e.2.toNat == owner && c.mine ctx e.1).map fun e => e.1
  let c1 := heads.foldl (fun t e =>
    if t.holdsSeq e then { t with doomed := t.doomed ++ [(ctx, e)] }
    else match t.freeSeq ctx d e with | .ok u => u | .error _ => t) c
  let tagged := (c1.frames.filter fun f => f.2.ctx == ctx && f.2.owner.toNat == owner).map fun f => f.1
  let c2 := tagged.foldl (fun t f => t.rehold f (KvFrame.drop false)) c1
  (c.frames.length - c2.frames.length, c2)

end Sys2Proof.Machine
end

