-- ==== Sys2Proof/Machine/Tasks.lean ====
section
/-! DEFINITION. Tasks.lean: reports and the journal (R362, R393), task control blocks and trees (R113..R125, R322..R324), the ends
of tasks, bodies and launches (R119, R254, R260, R381), credits to barrier objects in flight (R104), and the course of an abort
(R222, R360, R361, R363). -/

namespace Sys2Proof.Machine

/-- What every meaning answers. -/
abbrev Out := Host.Outcome State Fault Refusal

/-! ### Reports and the journal -/

/-- A fault report as a number of 256 bits (R362). -/
def FaultReport.value (r : FaultReport) : Nat :=
  1 + r.code * 2 ^ 8 + r.core % 1024 * 2 ^ 29 + r.engine % 8 * 2 ^ 39
    + (match r.stream with | some f => f % 32 * 2 ^ 42 + 2 ^ 47 + r.popped % 2 ^ 16 * 2 ^ 48 | none => 0)
    + r.offset % 2 ^ 32 * 2 ^ 64 + r.taskid.toNat * 2 ^ 96 + r.waddr.toNat * 2 ^ 128 + r.faddr.toNat * 2 ^ 192

/-- The 32 bytes of a report, or zeros for none. -/
def reportBytes (r : Option FaultReport) : List Byte :=
  match r with
  | some x => leBytes 32 x.value
  | none => leBytes 32 0

/-- A report with no stream and no offset. -/
def simpleReport (cause : Cause) (faddr waddr : W64) (task : W32) (engine core : Nat) : FaultReport :=
  { faddr := faddr, waddr := waddr, taskid := task, offset := 0, popped := 0, stream := none, engine := engine, core := core
    code := cause.code }

def journalBase : Nat := 0x3C00000000

/-- The 128 bytes of a journal entry (R393). -/
def journalBytes (j kind ctx status cycle body : Nat) (rep : Option FaultReport) : List Byte :=
  leBytes 64 body ++ leBytes 8 j ++ leBytes 8 cycle ++ leBytes 16 (kind + status * 2 ^ 8 + ctx * 2 ^ 32) ++ reportBytes rep

/-- Write the bytes of entry j, mirrored among the last 256 (R393). -/
def State.putJournal (s : State) (j : Nat) (bs : List Byte) : State :=
  let s1 := s.homeWrite (journalBase + 128 * (j % 2 ^ 20)) bs
  let n := max s1.admin.jnext (j + 1)
  { s1 with admin := { s1.admin with mirror := (assocPut j bs s1.admin.mirror).filter fun e => decide (n ≤ e.1 + 256) } }

/-- Write the next journal entry (R393). -/
def State.journal (s : State) (kind ctx status body : Nat) (rep : Option FaultReport) : State :=
  let j := s.admin.jnext
  let s1 := s.putJournal j (journalBytes j kind ctx status s.cycle body rep)
  { s1 with admin := { s1.admin with jnext := j + 1, jwrap := s1.admin.jwrap || decide (2 ^ 20 < j) } }

/-! ### Task control blocks -/

def taskDie (id : W32) : Nat := id.toNat / 2 ^ 31
def taskGen (id : W32) : Nat := id.toNat / 2 ^ 20 % 2 ^ 11
def taskIdx (id : W32) : Nat := id.toNat % 2 ^ 20

/-- The id of a block (R113). -/
def taskId (die gen idx : Nat) : W32 := BitVec.ofNat 32 (die * 2 ^ 31 + gen % 2 ^ 11 * 2 ^ 20 + idx % 2 ^ 20)

/-- The live block an id names (R113). -/
def State.tcb? (s : State) (id : W32) : Option Tcb :=
  if taskGen id = 0 then none
  else match assoc (taskIdx id) (s.die (taskDie id)).tcbs with
    | some b => if b.gen = taskGen id && b.state ≠ .free then some b else none
    | none => none

def State.putTcb (s : State) (id : W32) (b : Tcb) : State :=
  let d := s.die (taskDie id)
  s.putDie (taskDie id) { d with tcbs := assocPut (taskIdx id) b d.tcbs }

/-- The live tree with a number. -/
def Die.tree? (d : Die) (n : Nat) : Option Tree :=
  match assoc n d.trees with
  | some t => if t.live then some t else none
  | none => none

/-- The live block an id names, if its tree is the context's (R112). -/
def State.taskOf (s : State) (ctx : Nat) (id : W32) : Option Tcb :=
  match s.tcb? id with
  | none => none
  | some b => match (s.die (taskDie id)).tree? b.tree with
    | some t => if t.ctx = ctx then some b else none
    | none => none

def Die.putTree (d : Die) (n : Nat) (t : Tree) : Die := { d with trees := assocPut n t d.trees }

/-- The live trees, ascending (R322). -/
def Die.liveTrees (d : Die) : List Nat := (d.trees.filter fun t => t.2.live).map fun t => t.1

/-- The pointer arrives at a tree, which gains its quantum (R322). -/
def Die.arrive (d : Die) (n : Nat) : Die :=
  match d.tree? n with
  | some t => { d.putTree n { t with defi := min (t.defi + t.quantum) 65535 } with ptr := some n }
  | none => { d with ptr := none }

/-- The pointer moves to the next live tree after number n in the ring (R322). -/
def Die.advance (d : Die) (n : Nat) : Die :=
  match d.liveTrees.find? fun k => n < k with
  | some k => d.arrive k
  | none => match d.liveTrees with
    | k :: _ => d.arrive k
    | [] => { d with ptr := none }

/-- A tree is freed (R116, R322). -/
def Die.freeTree (d : Die) (n : Nat) : Die :=
  match d.tree? n with
  | none => d
  | some t =>
    let d1 := d.putTree n { t with live := false }
    if d.ptr = some n then d1.advance n else d1

/-- The live blocks of a tree. -/
def Die.treeBlocks (d : Die) (n : Nat) : List (Nat × Tcb) := d.tcbs.filter fun b => b.2.tree == n && b.2.state != .free

/-- A block becomes FREE; a killed tree goes with its last block (R115, R116). -/
def State.freeBlock (s : State) (id : W32) (b : Tcb) : State :=
  let s1 := s.putTcb id { b with state := .free }
  let d := s1.die (taskDie id)
  match d.tree? b.tree with
  | some t => if t.killed && (d.treeBlocks b.tree).isEmpty then s1.putDie (taskDie id) (d.freeTree b.tree) else s1
  | none => s1

/-- A block becomes READY at the tail of its ties (R114, R115). -/
def State.readyBlock (s : State) (id : W32) (b : Tcb) : State :=
  let d := s.die (taskDie id)
  s.putDie (taskDie id) { d with
    tcbs := assocPut (taskIdx id) { b with state := .ready, order := d.nextOrder } d.tcbs
    nextOrder := d.nextOrder + 1 }

/-- The end of a block with a value, and the delivery to its successor (R119); a successor that would become READY with CANF set is
revoked instead (R324). Fuel is the number of blocks. -/
def State.endBlock (s : State) (id : W32) (x : W64) : Nat → State
  | 0 => s
  | n + 1 =>
    match s.tcb? id with
    | none => s
    | some b =>
      let s1 := if b.pend = 0 then s.freeBlock id b else s.putTcb id { b with state := .drain }
      match s1.tcb? b.succ with
      | none => s1
      | some d =>
        let d1 := { d with arg := d.arg + x, pend := d.pend - 1 }
        if d1.pend = 0 && d1.state == .joined then
          (if d1.canf then (s1.putTcb b.succ d1).endBlock b.succ 0 n else s1.readyBlock b.succ d1)
        else if d1.pend = 0 && d1.state == .drain then s1.freeBlock b.succ d1
        else s1.putTcb b.succ d1

/-- Fuel enough for every chain of successors. -/
def State.blockFuel (s : State) : Nat := s.die0.tcbs.length + s.die1.tcbs.length + 1

def State.endTask (s : State) (id : W32) (x : W64) : State := s.endBlock id x s.blockFuel

/-- JOIN turns the block into its continuation (R121), revoked when CANF is set (R324). -/
def State.joinTask (s : State) (id : W32) (desc x : W64) : State :=
  match s.tcb? id with
  | none => s
  | some b =>
    let b1 := { b with
      key := BitVec.ofNat 32 (bitsOf desc 63 32), entry := BitVec.ofNat 26 (bitsOf desc 31 6), arg := b.arg + x }
    if b.canf then (s.putTcb id b1).endTask id 0
    else if b.pend = 0 then s.readyBlock id b1
    else s.putTcb id { b1 with state := .joined }

/-! ### Completions, launches, bodies -/

/-- A record's completion becomes due (R381); it waits for queue order. -/
def State.complete (s : State) (q recno status : Nat) (utag : W64) (rep : Option FaultReport) : State :=
  s.mapQueue q fun x => { x with
    comps := x.comps ++ [{ recno := some recno, after := recno, status := status, utag := utag, report := rep }] }

/-- The records that the task with this id took with DQ complete with its end (R111). -/
def State.endDequeued (s : State) (c : Nat) (task : W32) (status : Nat) (rep : Option FaultReport) : State :=
  { s with queues := s.queues.map fun q =>
      let mine := q.dequeued.filter fun d => d.2.1 == c && d.2.2.1 == task
      { q with
        dequeued := q.dequeued.filter fun d => !(d.2.1 == c && d.2.2.1 == task)
        comps := q.comps ++ mine.map fun d =>
          { recno := some d.1, after := d.1, status := status, utag := d.2.2.2, report := rep } } }

/-- UTAG of a launch record (R50). -/
def rcdUtag (l : List W64) : W64 := quad l 13

/-- Every leaf instance of a launch has ended: its clusters and its armed queue are free again, and its completion becomes due
(R260, R331). -/
def State.finishLaunch (s : State) (l : Launch) : State :=
  let free := fun (c : Core) => if c.launch = some l.id then { c with launch := none } else c
  let s1 := { s with
    launches := s.launches.filter fun x => x.id ≠ l.id
    core := free s.core
    others := s.others.map free
    queues := s.queues.map fun q => if q.boundTo = some l.id then { q with boundTo := none } else q }
  match l.src with
  | .queue q recno =>
    match l.err with
    | none => s1.complete q recno 0 (rcdUtag l.rcd) none
    | some (st, rep) => s1.complete q recno st (rcdUtag l.rcd) rep
  | .barker _ _ _ => s1

/-- The body of core c ends: its strand is idle and goes on to its next instance, if any (R254, R260). -/
def State.bodyEnd (s : State) (c : Nat) (err : Option (Nat × Option FaultReport)) : State :=
  let x := s.coreAt c
  match x.body with
  | none => s
  | some b =>
    let s1 := s.endDequeued c b.taskid (match err with | some _ => 2 | none => 0) (err.bind fun e => e.2)
    let y := s1.coreAt c
    let s2 := s1.putCore { y with body := none, seq := .idle, pickRet := none, loops := [], held := [], ring := none }
    match s2.launch? b.launch with
    | none => s2
    | some l =>
      let l1 := { l with left := l.left - 1, err := match l.err with | some e => some e | none => err }
      let s3 := s2.mapLaunch l.id fun _ => l1
      if l1.left = 0 then s3.finishLaunch l1 else s3

/-- A Ringmaster task of core c has ended with a status: the strand returns to its launch body at the pick return point (R118). -/
def State.returnToBody (s : State) (c : Nat) (status : Nat) : State :=
  let x := s.coreAt c
  match x.pickRet with
  | none => s.putCore { x with ring := none, held := [], loops := [], seq := .idle }
  | some (pc, gd) =>
    let y := { x with
      ring := none, pickRet := none, held := [], loops := [], treeid := 0
      taskid := (match x.body with | some b => b.taskid | none => 0), pc := pc, seq := .run, reach := .jump x.pc, micro := 0 }
    s.putCore ((y.setCanf false).setG gd (BitVec.ofNat 64 status))

/-! ### Errors charged to a task -/

/-- The context of core c's strand. -/
def Core.context (c : Core) : Nat := c.ctx.getD 0

/-- The journal body of an error of core c: the template's UTAG and the slot address for a launch of the Barker (R331). -/
def State.errorBody (s : State) (x : Core) : Nat :=
  match x.launch.bind s.launch? with
  | some l => match l.src with
    | .barker _ _ slot => (rcdUtag l.rcd).toNat + slot.toNat * 2 ^ 64
    | .queue _ _ => 0
  | none => 0

/-- An engine fault or machine error is charged to the task of core c: journaled, and held until its abort lands (R357, R361, R362). -/
def State.charge (s : State) (c : Nat) (r : FaultReport) : State :=
  let x := s.coreAt c
  let s1 := s.journal 1 x.context 0 (s.errorBody x) (some r)
  let y := s1.coreAt c
  s1.putCore { y with held := y.held ++ [r] }

/-- The same for an error that the word meets again each time it is tried: one entry (R357, R372). -/
def State.chargeOnce (s : State) (c : Nat) (r : FaultReport) : State := if (s.coreAt c).held.contains r then s else s.charge c r

/-- A fault found late is charged to the task that caused it, or journaled for its context once that task is no longer the core's
(R10). -/
def State.chargeLate (s : State) (c ctx : Nat) (r : FaultReport) : State :=
  let x := s.coreAt c
  if x.context = ctx ∧ x.taskid = r.taskid ∧ x.seq ≠ .idle then s.charge c r else s.journal 1 ctx 0 0 (some r)

/-- A credit is on its way to a barrier object at a cell address (R104). -/
def State.sendCredit (s : State) (a : Nat) (va : W64) (count : Nat) (err : Bool) (core ctx : Nat) (task : W32) (word : W64) (engine : Nat) :
    State :=
  { s with credits := s.credits ++
      [{ addr := a, va := va, count := count, err := err, core := core, task := task, word := word, engine := engine, ctx := ctx }] }

/-! ### Cutting engines (R222, R363) -/

def Cluster.bank (c : Cluster) (b : Nat) : Bank := c.banks.getD b Bank.reset

def Cluster.putBank (c : Cluster) (b : Nat) (x : Bank) : Cluster := { c with banks := c.banks.setIfInBounds b x }

/-- Every filled or claimed slot of a stream is freed: POPPED := PUSHED (R363). -/
def Bank.flush (b : Bank) : Bank := { b with popped := b.pushed, slots := [], claims := [], consumer := none }

/-- Flush streams of a cluster. -/
def State.flushStreams (s : State) (g : Nat) (fs : List Nat) : State :=
  let cl := s.cluster g
  if fs.isEmpty then s
  else s.putCluster g (fs.foldl (fun k f => k.putBank f (k.bank f).flush) cl)

/-- A credit at a virtual address of the context of core c, checked under causes 1 to 6 of R87 with width 16 (R104). -/
def State.creditVa (s : State) (c : Nat) (va : W64) (count : Nat) (err : Bool) (word : W64) (engine : Nat) : State :=
  let x := s.coreAt c
  if va.toNat % 16 ≠ 0 then s.charge c (simpleReport .barcredit va word x.taskid engine c)
  else match s.checkPage x.context (clusterOf c) va 16 .write with
    | .ok a => s.sendCredit a va count err c x.context x.taskid word engine
    | .error (cause, _) => s.charge c (simpleReport cause va word x.taskid engine c)

/-! ### The streams a program names (R188, R363) -/

/-- The cluster stream that a field names in a program of a core (R188). -/
def streamOf (core f : Nat) : Nat := (f + 8 * (core % 4)) % 32

/-- The stream fields of a transfer word (R41, R213..R218). -/
def xferFields (w : Nat) : List Nat :=
  let at_ := fun (k : Nat) => w / 2 ^ k % 64
  (match w / 2 ^ 27 with
    | 1 => [at_ 17, at_ 11]
    | 2 => [at_ 13]
    | 3 | 4 | 5 | 6 | 7 => [at_ 17]
    | _ => []).filter fun f => f < 32

/-- The stream fields of a matrix word (R41, R200, R202); for a drain into a stream, `desc` gives the stream of its descriptor (R205). -/
def matFields (desc : Nat → List Nat) (w : Nat) : List Nat :=
  match w / 2 ^ 27 with
  | 1 | 3 => [w / 2 ^ 18 % 32]
  | 6 => if w / 2 ^ 3 % 4 = 2 then desc (w % 4) else []
  | _ => []

/-- The number in 4 or 32 bytes of committed memory of this device at an address of core c's context, if it may be accessed so. -/
def State.peekMem (s : State) (c : Nat) (va : W64) (n : Nat) (need : Need) : Option Nat :=
  match s.checkPage (s.coreAt c).context (clusterOf c) va n need with
  | .ok a => if a < physTop then some (leVal (cellBytes s.mem a n)) else none
  | .error _ => none

/-- The word of a program at an address: among the blocks fetched for it and by its core, or in memory (R86). -/
def State.peekWord (s : State) (p : ProgRun) (a : W64) : Option Nat :=
  match (p.code ++ (s.coreAt p.core).ecode).find? fun b => b.1 == blk a with
  | some b => (b.2[a.toNat % 64 / 4]?).map fun w => w.toNat
  | none => s.peekMem p.core a 4 .fetch

/-- The streams that a program's words name from an address on, up to its end word (R363). -/
def State.namedFrom (s : State) (p : ProgRun) (fields : Nat → List Nat) (a : W64) : Nat → List Nat
  | 0 => []
  | n + 1 => match s.peekWord p a with
    | none => []
    | some w => if w / 2 ^ 27 = 30 then [] else (fields w).map (streamOf p.core) ++ s.namedFrom p fields (a + 4) n

/-- Every stream that a program names as a source or a target, its words not reached included (R363). -/
def State.namedStreams (s : State) (p : ProgRun) (arg : Option W64) : List Nat :=
  let fields := match arg with
    | none => xferFields
    | some x => matFields fun e => match s.peekMem p.core (x + BitVec.ofNat 64 (32 * e)) 32 .read with
        | some d => [d / 2 ^ 160 % 32]
        | none => []
  (s.namedFrom p fields p.start 4096).foldl (fun l f => insertNat f l) p.streams

/-- A running transfer program is cut: its barrier takes an error credit, its streams are flushed (R194, R222, R363). -/
def State.cutProgram (s : State) (p : ProgRun) (engine : Nat) : State :=
  let s1 := s.flushStreams (clusterOf p.core) (s.namedStreams p none)
  if p.cmd.mask.getLsbD 15 && p.cmd.regs[15] ≠ 0 then s1.creditVa p.core p.cmd.regs[15] 0 true p.pc engine else s1

/-- The words of a tile-task record (R52). -/
def TileRec.arg (r : TileRec) : W64 := quad r.words 6
def TileRec.staddr (r : TileRec) : W64 := quad r.words 5
def TileRec.donebar (r : TileRec) : W64 := quad r.words 4
def TileRec.prog (r : TileRec) : W64 := quad r.words 1

/-- The checks of an engine's access (R87, causes 1 to 6): the pages above memory are not for engines (R373). -/
def State.engPage (s : State) (ctx g : Nat) (va : W64) (n : Nat) (need : Need) : Except Fail Nat :=
  match s.checkPage ctx g va n need with
  | .error f => .error f
  | .ok a => if physTop ≤ a && a < remoteBase then .error (.buserr, va) else .ok a

/-- A tile task ends by a fault or a cut: its status is written at STADDR unless STADDR is 0; a failing check drops the write (R209, R210,
R212). -/
def State.tileStatus (s : State) (r : TileRec) (v : Nat) : State :=
  if r.staddr = 0 then s
  else match s.engPage r.ctx (clusterOf r.core) r.staddr 8 .write with
    | .error _ => s
    | .ok a =>
      if remoteBase ≤ a then
        { s with fabric := s.fabric ++
          [{ cls := 0, dev := remoteDev a, addr := remoteAddr a, core := r.core, data := [], op := some (.write (leBytes 8 v)) }] }
      else s.homeWrite a (leBytes 8 v)

/-- The line of a record's status can be written now (R284). -/
def State.statusFree (s : State) (r : TileRec) : Bool :=
  r.staddr = 0 || (match s.engPage r.ctx (clusterOf r.core) r.staddr 8 .write with
    | .error _ => true
    | .ok a => decide (remoteBase ≤ a) || s.rangeSettled a 8)

def Cluster.arr (c : Cluster) (k : Nat) : MatArray := if k = 0 then c.arr0 else c.arr1

def Cluster.putArr (c : Cluster) (k : Nat) (x : MatArray) : Cluster := if k = 0 then { c with arr0 := x } else { c with arr1 := x }

/-- The array of a cluster stops a tile task of core c: status CUT and ERR with the bits gathered, then credit(0, true) (R212,
R222). -/
def State.cutArray (s : State) (g k c : Nat) : State :=
  let a := (s.cluster g).arr k
  match a.run, a.rcd with
  | some p, some r =>
    if p.core ≠ c then s
    else
      let s1 := s.flushStreams g (s.namedStreams p (some r.arg))
      let s2 := s1.tileStatus r (2 ^ 8 + 2 + a.bits)
      let s3 := s2.putCluster g ((s2.cluster g).putArr k { a with run := none, rcd := none })
      if r.donebar = 0 then s3 else s3.creditVa c r.donebar 0 true p.pc 3
  | _, _ => s

/-- Every running program of core c stands where a cut may land, and its status can be written (R222, R284, R363). -/
def State.cuttable (s : State) (c : Core) : Bool :=
  let at_ := fun (p : Option ProgRun) => match p with | some r => r.core != c.id || r.point || r.idle || r.stopped | none => true
  let cl := s.cluster (clusterOf c.id)
  let status := fun (a : MatArray) => match a.rcd with | some r => r.core != c.id || s.statusFree r | none => true
  at_ c.xin && at_ c.xout && at_ cl.arr0.run && at_ cl.arr1.run && status cl.arr0 && status cl.arr1

/-! ### The course of an abort (R361) -/

/-- The reductions of core c's context that list it go on without it (R217). -/
def State.skipXred (s : State) (c : Nat) : State :=
  let i := (s.coreAt c).context
  { s with
    xreds := s.xreds.filter fun m => !(m.core == c && m.ctx == i)
    rounds := s.rounds.map fun r => if r.ctx == i && r.ids.contains c && !r.skip.contains c then { r with skip := r.skip ++ [c] } else r }

/-- The attention commands of a core stop, their barriers taking an error credit (R238). -/
def State.cutAttn (s : State) (c : Nat) : State :=
  let stop := fun (t : State) (k : Nat) =>
    let ch := t.chip k
    let mine := ch.cmds.filter fun m => m.core == c
    let t1 := t.putChip k (ch.dropCmds k fun m => m.core == c)
    mine.foldl (fun u m => if m.bar = 0 then u else u.creditVa c m.bar 0 true m.word 4) t1
  stop (stop s 0) 1

/-- A commit that has not flipped is taken back: its lines at the homes are free again, and what waits for them is served (R94). -/
def State.withdrawCommit (s : State) (c : Nat) : State :=
  let x := s.coreAt c
  match x.commit with
  | some { number := none, .. } =>
    (linesOf x.version).foldl (fun t l =>
      let d := t.dirLine l
      if !d.commits.contains c then t
      else
        let rest := d.commits.filter (· ≠ c)
        let hs := if !rest.isEmpty then d.hs else if (t.pres l).isEmpty then .unc else .shd
        (t.putDir { d with commits := rest, hs := hs }).serveWaiting l) s
  | _ => s

/-- What an abort discards and stops: the version, snapshots, loads, queued commands, running programs (R80, R94, R222, R361). -/
def State.discardTask (s : State) (c : Nat) : State :=
  let x := s.coreAt c
  let s1 := (s.withdrawCommit c).releaseSnaps c
  let y := s1.coreAt c
  let s2 := s1.putCore { y with
    version := [], versionId := none, stores := [], commit := none, fence := none, remote := none, implicit := false
    loads := [], loops := [], vq := [], xinq := [], xoutq := [], mq := [], aq := [], vrun := none, xin := none, xout := none
    micro := 0, target := none, claim := none, hints := [], fctl := match y.vrun with | some v => y.fctl ||| v.flags.zeroExtend 64 | none => y.fctl }
  let g := clusterOf c
  let cl := s2.cluster g
  let s3 := if (cl.monitors.any fun m => m.core == c) || (cl.records.any fun r => r.core == c) then
      s2.putCluster g { cl with
        monitors := cl.monitors.filter fun m => m.core ≠ c, records := cl.records.filter fun r => r.core ≠ c }
    else s2
  let s4 := match x.xin with | some p => s3.cutProgram p 1 | none => s3
  let s5 := match x.xout with | some p => s4.cutProgram p 2 | none => s4
  let s6 := (s5.cutArray g 0 c).cutArray g 1 c
  let s7 := { s6 with units := s6.units.filter fun u => !(u.src == c && !u.sent) }
  (s7.skipXred c).cutAttn c

/-- The task of core c aborts with a report: what it holds is discarded, and the strand goes on as after an abort (R118, R119, R361). -/
def State.abortTask (s : State) (c : Nat) (rep : Option FaultReport) : State :=
  let s1 := s.discardTask c
  let x := s1.coreAt c
  let task := x.taskid
  let s2 := s1.putCore ({ x with held := [] }.setLvl 0)
  match x.ring with
  | some (die, idx) =>
    let s3 := s2.endDequeued c task 2 rep
    match assoc idx (s3.die die).tcbs with
    | some b => (s3.endTask (taskId die b.gen idx) 0).returnToBody c 2
    | none => s3.returnToBody c 2
  | none => s2.bodyEnd c (some (2, rep))

end Sys2Proof.Machine
end

