-- ==== Sys2Proof/Machine/Ops.lean ====
section
/-! DEFINITION. Ops.lean: the named operations that meanings share: the result of a word, taking a trap and returning from one
(R356..R360, R84), phase boundaries and fences (R92, R93, R287), the strand's view of memory (R90, R286), questions to other devices
(R385). -/

namespace Sys2Proof.Machine

/-- A state with another current core. -/
def State.upd (s : State) (c : Core) : State := { s with core := c }

/-- A word that writes one register and goes on. -/
def State.write (s : State) (d : Reg) (x : W64) : Out := .next (s.upd (s.core.setG d x).next)

/-- A word that only goes on. -/
def State.pass (s : State) : Out := .next (s.upd s.core.next)

/-! ### Traps (R356, R359, R360) -/

/-- The report of a task aborted by a T cause: from trap bank values (R356). -/
def bankReport (b : TrapBank) (core : Nat) (code : Nat) : FaultReport :=
  { faddr := b.eval, waddr := b.epc, taskid := BitVec.ofNat 32 (bitsOf b.etask 31 0), offset := 0, popped := 0, stream := none
    engine := 7, core := core, code := code }

/-- An abort can land: an error charged to the task is held at level 0 (R357, R361). -/
def Core.abortDue (c : Core) : Bool := !c.held.isEmpty && c.lvl == 0

/-- The task of the current strand is to abort for a T cause (R85, R356, R372): it is journaled and joins the errors charged to the task, whose
first one is reported; at level 0 nothing holds the abort back but the programs it cuts (R222, R357). -/
def State.abortFrom (s : State) (r : FaultReport) : State :=
  let t := s.journal 1 s.core.context 0 (s.errorBody s.core) (some r)
  t.upd ({ t.core with held := t.core.held ++ [r] }.setLvl 0)

/-- HALT at level 1 or 2 (R85): the task that trapped aborts, reported from bank LVL − 1 unless an error was charged to it before (R357). -/
def State.haltLevel (s : State) : State :=
  let b := if s.core.lvl = 1 then s.core.bank0 else s.core.bank1
  s.abortFrom (bankReport b s.core.id (bitsOf b.ecause 7 0))

/-- The crash record as a number of 1,024 bits (R359). -/
def crashRecord (c : Core) (code : Nat) (eval epc : W64) (cycle : Nat) : Nat :=
  1 + bitsOf c.bank0.ecause 7 0 * 2 ^ 48 + bitsOf c.bank1.ecause 7 0 * 2 ^ 56 + code * 2 ^ 64 + c.id % 1024 * 2 ^ 74
    + c.context % 4096 * 2 ^ 84 + c.taskid.toNat * 2 ^ 96 + c.bank0.epc.toNat * 2 ^ 128 + c.bank0.eval.toNat * 2 ^ 192
    + c.bank1.epc.toNat * 2 ^ 256 + c.bank1.eval.toNat * 2 ^ 320 + epc.toNat * 2 ^ 384 + eval.toNat * 2 ^ 448
    + cycle % 2 ^ 64 * 2 ^ 512

/-- Where the crash record of the current strand goes: a cell address, if CRASHBASE passes (R359). -/
def State.crashAt (s : State) : Option Nat :=
  let base := s.core.crashbase
  if base = 0 || base.toNat % 128 ≠ 0 then none
  else match s.checkPage s.core.context (clusterOf s.core.id) base 128 .write with
    | .ok a => some a
    | .error _ => none

/-- A T cause at level 2 (R359, R360): the record is written at CRASHBASE if that address passes, by its home when that is another device,
and the task aborts with code CRASH, which resets the strand. -/
def State.crash (s : State) (cause : Cause) (eval epc : W64) : State :=
  let bs := leBytes 128 (crashRecord s.core cause.code eval epc s.cycle)
  let s1 : State := match s.crashAt with
    | none => s
    | some a =>
      if remoteBase ≤ a then { s with fabric := s.fabric ++
        [{ cls := 0, dev := remoteDev a, addr := remoteAddr a, core := s.core.id, data := [], op := some (.write bs) }] }
      else s.homeWrite a bs
  s1.abortFrom (simpleReport .crash eval epc s1.core.taskid 7 s1.core.id)

/-- The strand's registers after a crash (R360): those of a new context's strand (R43, R182, R262). -/
def Core.wiped (c : Core) : Core :=
  { c with
    v := Vector.replicate 32 0, m := Vector.replicate 8 0, q := Vector.replicate 4 0
    ports := Vector.replicate 8 [], tq := Vector.replicate 4 (0, 0) }

/-- The bank that a trap at the current level fills (R355, R356). -/
def Core.bankOf (c : Core) (cause : Cause) (eval epc : W64) (kept : Bool) : TrapBank :=
  { epc := epc, ecause := BitVec.ofNat 64 cause.code, eval := eval, etask := c.taskid.zeroExtend 64
    estat := BitVec.ofNat 64 (kept.toNat * 2 ^ 15 + c.loops.length * 2 ^ 12 + bitsOf c.status 5 0) }

/-- Level, status and bank of a taken trap (R356). -/
def Core.enterTrap (c : Core) (cause : Cause) (eval epc : W64) (kept : Bool) : Core :=
  let b := c.bankOf cause eval epc kept
  let c1 := if c.lvl = 0 then { c with bank0 := b } else { c with bank1 := b }
  { c1.setLvl (c.lvl + 1) with pc := c.tvec, seq := .run, reach := .along, micro := 0 }

/-- The current strand takes a T cause (R356); one that comes with an engine fault or machine error at level 0 is taken as that (R357). -/
def State.trap (s : State) (cause : Cause) (eval epc : W64) (kept : Bool) : State :=
  if s.core.abortDue then s
  else if s.core.lvl = 2 then s.crash cause eval epc
  else
    let c := s.core.enterTrap cause eval epc kept
    if s.core.tvec = 0 then (s.upd c).haltLevel else s.upd c

/-- The word traps; a crash waits until the line of its record can be written (R284, R359). -/
def State.traps (s : State) (cause : Cause) (eval epc : W64) (kept : Bool) : Out :=
  let held := s.core.lvl == 2 && (match s.crashAt with | some a => decide (a < remoteBase) && !s.rangeSettled a 128 | none => false)
  if held then .next s else .next (s.trap cause eval epc kept)

/-- A precise trap of the word at pc (R9). -/
def State.precise (s : State) (cause : Cause) (eval : W64) : Out := s.traps cause eval s.core.pc false

/-- A precise trap whose value is the instruction's word. -/
def State.preciseWord (s : State) (cause : Cause) (i : Instr) : Out := s.precise cause (BitVec.ofNat 64 (encode i))

/-- The return from the handler of level k + 1 (R84). -/
def Core.leaveTrap (c : Core) : Core :=
  let k := c.lvl - 1
  { c.setLvl k with pc := (if k = 0 then c.bank0 else c.bank1).epc, seq := .run, reach := .along, micro := 0 }

/-! ### Checked addresses (R87, R273) -/

/-- The lowest free frame of scratch banks among a list of cluster banks (R273). -/
def Cluster.freeFrame (c : Cluster) (banks : List Nat) : Option Nat :=
  ((banks.filter fun b => (c.bank b).mode == 1).flatMap fun b => (List.range 16).map fun k => b * 16 + k).find? fun f =>
    !c.frames.any fun x => x.frame == f

/-- The least recently accessed pinned page. -/
def oldestFrame : List Frame → Option Frame
  | [] => none
  | f :: t => match oldestFrame t with
    | some o => if o.last < f.last then some o else some f
    | none => some f

/-- A translation cache of die d becomes a sharer of regions, if each has its place in the directory (R300, R307). -/
def State.share (s : State) (d : Nat) : List Nat → Option State
  | [] => some s
  | r :: rest =>
    let y := s.region r
    if !s.hasRoom r || y.evicting then none
    else (s.putRegion (if d = 0 then { y with walk0 := true } else { y with walk1 := true })).share d rest

/-- The lines of table entries that a walk for an address reads (R296, R297). -/
def State.walkLines (s : State) (ctx : Nat) (b : W64) : List Nat :=
  match s.ctx? ctx with
  | none => []
  | some x =>
    if isGlobal b then walkReads s.mem x.rootG (b.toNat % 2 ^ 43) [39, 30, 21, 12]
    else walkReads s.mem x.rootL (b.toNat % 2 ^ 48) [39, 30, 21, 12]

/-- A walk that reads a lost line is charged to the task of the core it is for (R370); a cached translation needs none (R307). -/
def State.walkLost (s : State) (c ctx : Nat) (va : W64) : State :=
  let b := backing (clusterOf c) va
  if s.lost.isEmpty || s.isRemote b || (s.cluster (clusterOf c)).tlb.any fun x => x.ctx == ctx && x.vpage == b.toNat / 4096 then s
  else match (s.walkLines ctx b).find? s.lost.contains with
    | some l => s.chargeOnce c (simpleReport .lostline (BitVec.ofNat 64 (l * 128)) (s.coreAt c).pc (s.coreAt c).taskid 5 c)
    | none => s

/-- The translation of an access is kept in the caches of the cluster and the die, which become sharers of the entries read (R307). -/
def State.cacheWalk (s : State) (c ctx : Nat) (va : W64) : State :=
  let b := backing (clusterOf c) va
  let cl := s.cluster (clusterOf c)
  let page := b.toNat / 4096
  let hit := fun (x : Translation) => x.ctx == ctx && x.vpage == page
  if s.isRemote b || cl.tlb.any hit then s
  else match s.ctx? ctx, s.leafOf ctx b with
    | some x, some (base, size, _, _, _) =>
      let rs := if isGlobal b then walkRegions s.mem x.rootG (b.toNat % 2 ^ 43) [39, 30, 21, 12]
        else walkRegions s.mem x.rootL (b.toNat % 2 ^ 48) [39, 30, 21, 12]
      let tr : Translation := { ctx := ctx, vpage := page, leaf := BitVec.ofNat 64 base, level := if size < 2 ^ 21 then 3 else 2, regions := rs }
      let d := dieOf c
      match s.share d rs with
      | none => s
      | some s1 =>
        let s2 := s1.putCluster (clusterOf c) { cl with tlb := cl.tlb ++ [tr] }
        if s2.l2tlb.any fun y => y.1 == d && hit y.2 then s2 else { s2 with l2tlb := s2.l2tlb ++ [(d, tr)] }
    | _, _ => s

/-- An access to a scratch-window page pins it (R273). -/
def State.pinPage (s : State) (c ctx : Nat) (va : W64) : State :=
  let w := va.toNat
  if w < 0xFF0000000000 || 0xFF0001000000 ≤ w then s
  else
    let g := clusterOf c
    let cl := s.cluster g
    let page := (w - 0xFF0000000000) / 4096
    match s.leafOf ctx (backing g va) with
    | none => s
    | some (b, size, _) =>
      let base := (b + (backing g va).toNat % size) / 4096
      let mk := fun f => { frame := f, ctx := ctx, page := page, last := s.clock, base := base : Frame }
      let rest := cl.frames.filter fun x => !(x.ctx == ctx && x.page == page)
      match cl.frames.find? fun x => x.ctx == ctx && x.page == page with
      | some f => s.putCluster g { cl with frames := rest ++ [mk f.frame] }
      | none =>
        match cl.freeFrame ((List.range 8).map (· + 8 * (c % 4))), cl.freeFrame (List.range 32), oldestFrame cl.frames with
        | some f, _, _ => s.putCluster g { cl with frames := cl.frames ++ [mk f] }
        | none, some f, _ => s.putCluster g { cl with frames := cl.frames ++ [mk f] }
        | none, none, some o =>
          let t := s.unpin g o
          t.putCluster g { t.cluster g with frames := (t.cluster g).frames ++ [mk o.frame] }
        | none, none, none => s

/-- What an access that passed its checks leaves beside its data: its translation cached, its scratch page pinned. -/
def State.pin (s : State) (c ctx : Nat) (va : W64) : State := ((s.walkLost c ctx va).cacheWalk c ctx va).pinPage c ctx va

/-- The same for every page of n bytes. -/
def State.pinSpan (s : State) (c ctx : Nat) (va : W64) (n : Nat) : State :=
  (List.range ((va.toNat % 4096 + n + 4095) / 4096)).foldl (fun t k =>
    t.pin c ctx (if k = 0 then va else BitVec.ofNat 64 ((va.toNat / 4096 + k) * 4096))) s

/-- The checks of an address in their order, then k with its cell address; a failing one is a precise trap (R87). -/
def State.addressed (s : State) (va : W64) (w : Nat) (need : Need) (sc : Option Scope) (record : Bool) (k : State → Nat → Out) : Out :=
  match s.check va w need sc record with
  | .error (c, v) => (if c = .pageflt ∨ c = .prot ∨ c = .buserr then s.walkLost s.core.id s.core.context va else s).precise c v
  | .ok a => k (s.pin s.core.id s.core.context va) a

/-! ### Boundaries (R92, R94, R287) -/

/-- Where a boundary stands: it waits, or it is done with the number of its commit. -/
inductive BStep where
  | wait (s : State)
  | done (n : Nat) (s : State)

/-- The home slices of this device's lines in a version (R284). -/
def versionDests (v : List Host.Cell) : List Nat :=
  (linesOf v).foldl (fun acc l => if remoteLine l then acc else insertNat (lineHome l) acc) []

/-- A boundary's waits for remote homes (R92): those of the scope that has any, .o or .x. -/
def State.homeInScope (s : State) (sc : Option Scope) (dev : Nat) : Bool :=
  match sc with
  | some .o => dev / 1024 == s.devid / 1024
  | some .x => true
  | _ => false

/-- A load on its way still lacks bytes of a line of the version (R90, log 57). -/
def Core.loadsVersion (c : Core) : Bool :=
  c.loads.any fun p => p.bytes.any (fun b => b.isNone) && (linesOf c.version).contains (lineOf p.addr)

/-- The commit part of a boundary of the current strand (R92, R284, R313): the device's steps between its parts are events of their own.
Inside a vector block (R287) it does not wait for the blocks issued before it. -/
def State.boundary (s : State) (sc : Option Scope) (inVec implied : Bool) : BStep :=
  if !inVec && !s.core.vq.isEmpty then .wait s
  else match s.core.commit with
    | none =>
      if s.core.version.isEmpty then .done 0 (s.releaseSnaps s.core.id)
      else if s.core.loadsVersion then .wait s
      else .wait (s.upd { s.core with
        commit := some { dests := s.core.path.foldl (fun l d => insertNat d l) (versionDests s.core.version)
                         marked := [], acked := [], number := none, implied := implied } })
    | some r =>
      match r.number with
      | none => .wait s
      | some n =>
        if s.core.acks.any fun a => a.1 == n && s.homeInScope sc a.2 then .wait s
        else .done n ((s.upd { s.core with commit := none }).releaseSnaps s.core.id)

/-- The strand begins a new phase as an instruction it slept in returns (R102, R106, R110): no snapshot stays. -/
def State.newPhase (s : State) : State := s.releaseSnaps s.core.id

/-- An implicit boundary that is due comes before the instruction begins (R287). -/
def State.withImplicit (s : State) (k : State → Out) : Out :=
  if s.core.implicit && s.core.micro == 0 && (match s.core.commit with | some r => r.implied | none => true) then
    match s.boundary none false true with
    | .wait t => .next t
    | .done _ t => .next (t.upd ({ t.core with implicit := false }.setPx true))
  else k s

/-- An instruction that is a boundary at a scope, if it has one, and then does k (R88, R92). -/
def State.atBoundary (s : State) (sc : Option Scope) (k : State → Out) : Out :=
  match s.boundary sc false false with
  | .wait t => .next t
  | .done _ t => k t

/-- The waiting part of a fence (R93, R281): every update of the strand accepted, and at scope .d and wider every destination of the path
record acknowledged. -/
def State.fenceWait (s : State) (sc : Scope) : BStep :=
  let pending := (s.cluster (clusterOf s.core.id)).filter.any fun e => e.queue.any fun u => u.core == s.core.id
  if pending then .wait s
  else if sc.code ≤ 1 then .done 0 s
  else match s.core.fence with
    | none =>
      if s.core.path.isEmpty then .done 0 s
      else .wait (s.upd { s.core with fence := some { dests := s.core.path, marked := [], acked := [] } })
    | some f =>
      if f.dests.all f.acked.contains then .done 0 (s.upd { s.core with fence := none, path := [] }) else .wait s

/-- Mark part n of the instruction at pc as begun. -/
def State.part (s : State) (n : Nat) : State := s.upd { s.core with micro := n }

/-- The parts of FENCE.s as part of an instruction (R93): the wait, then the boundary; k when both are done. -/
def State.fenced (s : State) (sc : Scope) (k : State → Out) : Out :=
  if s.core.micro = 0 ∨ s.core.micro = 4 then
    match s.fenceWait sc with
    | .wait t => .next t
    | .done _ t => .next (t.part 1)
  else if s.core.micro = 1 then s.atBoundary (some sc) fun t => k (t.part 2)
  else k s

/-- Note a destination in the path record (R313). -/
def Core.addPath (c : Core) (dest : Nat) : Core := { c with path := insertNat dest c.path }

/-! ### Questions to other devices (R87, R385) -/

/-- The address of the word that the acting agent executes. -/
def State.wordAddr (s : State) : W64 :=
  let at_ := fun (p : Option ProgRun) => match p with | some r => r.pc | none => s.core.pc
  match s.unit with
  | .seq | .attn | .tile => s.core.pc
  | .vec => match s.core.vrun with | some v => v.pc | none => s.core.pc
  | .xin => at_ s.core.xin
  | .xout => at_ s.core.xout
  | .arr0 => at_ ((s.cluster (clusterOf s.core.id)).arr 0).run
  | .arr1 => at_ ((s.cluster (clusterOf s.core.id)).arr 1).run

/-- The bytes of data that answer a question; none for one answered without data (R385). -/
def answerBytes : RemoteOp → Option Nat
  | .load n _ => some n
  | .fetch => some 64
  | .atomic _ size _ _ _ => some (if size then 12 else 8)
  | .barrier _ _ _ => some 16
  | .accRow _ _ _ | .nodeRead _ | .nodeSelect _ _ _ | .nodeScan _ _ _ _ _ => some 8
  | .upd _ _ _ | .write _ | .check _ _ _ _ | .walk _ _ _ _ | .nodeInit _ _ | .nodeFree _ => none

/-- The home found the line lost (R370): the task is charged, and the bytes have no value (log 11). -/
def State.lostAnswer (s : State) (op : RemoteOp) (v : W64) : State × FabricReply :=
  let t := s.charge s.core.id (simpleReport .lostline v s.wordAddr s.core.taskid 5 s.core.id)
  let n := (answerBytes op).getD 0
  ({ t with freeCount := t.freeCount + n }, .data ((List.range n).map fun k => Config.freeByte (t.freeCount + k)))

/-- Ask another device on behalf of an agent of the current core, and go on with the answer when it has come (R385): its words wait until
then. -/
def State.ask (s : State) (who : Agent) (addr : W64) (op : RemoteOp) (k : State → FabricReply → Out) : Out :=
  match s.core.remote with
  | none =>
    .next { s.upd { s.core with
        remote := some { who := who, dev := globalDev addr, addr := addr, since := s.clock, answer := none } } with
      fabric := s.fabric ++ [{ cls := 0, dev := globalDev addr, addr := addr, core := s.core.id, data := [], op := some op }] }
  | some r =>
    if r.who ≠ who || r.addr ≠ addr then .next s
    else match r.answer with
      | none => .next s
      | some a =>
        let u := s.upd { s.core with remote := none }
        match a with
        | .refused c v =>
          if c = Cause.lostline.code then
            let r := u.lostAnswer op v
            k r.1 r.2
          else k u a
        | .data _ | .status _ | .done | .ack _ | .creditFault _ _ _ _ _ => k u a

/-- A refused answer is a trap of the instruction at pc (R87). -/
def causeOf (n : Nat) : Cause :=
  if n = Cause.pageflt.code then .pageflt else if n = Cause.prot.code then .prot else if n = Cause.buserr.code then .buserr
  else if n = Cause.scope.code then .scope else if n = Cause.noderef.code then .noderef
  else if n = Cause.badopnd.code then .badopnd else .remote

/-- An instruction that has more to do before its effect (R9, R87, R97, R105): its checks first, those of another device's home too, as
part 4; from then on the address they gave stands for it (R297). -/
def State.staged (s : State) (va : W64) (w : Nat) (need : Need) (sc : Scope) (k : State → Nat → Out) : Out :=
  match s.core.micro, s.core.target with
  | 0, _ | _, none =>
    s.withImplicit fun t => t.addressed va w need (some sc) true fun u pa =>
      let checked := fun (x : State) => Host.Outcome.next (x.upd { x.core with micro := 4, target := some pa })
      if pa < remoteBase then checked u
      else u.ask .seq va (.check (need == .write) w (some sc) true) fun x r => match r with
        | .refused c _ => x.precise (causeOf c) va
        | .data _ | .status _ | .done | .ack _ | .creditFault _ _ _ _ _ => checked x
  | _, some pa => k s pa

/-! ### The strand's view (R90, R286, R293) -/

/-- The strand has observed what orders engine writes before its next phase: a turn, or a command's completion (R94, R106, log 68). -/
def State.acquire (s : State) : State := s.upd { s.core with acquired := s.clock }

/-- When the question that waits for its answer was asked. -/
def State.askedAt (s : State) : Nat := match s.core.remote with | some r => r.since | none => s.clock

/-- A leased copy of a line, asked for at a fabric cycle, enters the L1 of the current strand's cluster (R270, R293). -/
def State.fillL1 (s : State) (asked l : Nat) (bs : List Byte) : State :=
  let g := clusterOf s.core.id
  let t := (s.dropL1 g l).makeWay g l
  t.putCluster g { t.cluster g with leases := (t.cluster g).leases ++
    [{ line := l, bytes := bs, expiry := BitVec.ofNat 32 s.cycle + BitVec.ofNat 32 s.core.lease1.toNat, last := s.clock, asked := asked }] }

/-- The bytes of a remote line, asked for at a fabric cycle, are leased to the cluster's L1 and the die's L2 (R293). -/
def State.lease (s : State) (asked l : Nat) (bs : List Byte) : State :=
  let d := dieOf s.core.id
  { s.fillL1 asked l bs with
    l2leases := s.l2leases.filter (fun x => x.1 ≠ d || x.2.line ≠ l)
      ++ [(d, { line := l, bytes := bs, expiry := BitVec.ofNat 32 s.cycle + BitVec.ofNat 32 s.core.lease2.toNat, asked := asked })] }

/-- A live L2 copy of a remote line fills the L1 (R293), but for a cluster whose atomic has made it fetch from the home (R98, R290). -/
def State.refill (s : State) (l : Nat) : State :=
  let g := clusterOf s.core.id
  if (s.copyBytes g l s.core.acquired).isSome || !remoteLine l then s
  else match s.l2leases.find? fun x => x.1 == dieOf s.core.id && x.2.line == l && !leaseEnded s.cycle x.2.expiry
      && !x.2.barred.contains g && decide (s.core.acquired ≤ x.2.asked) with
    | some (_, x) => s.fillL1 x.asked l x.bytes
    | none => s

/-- What the version and the snapshots say of n bytes at a cell address. -/
def Core.known (c : Core) (a n : Nat) : List (Option Byte) :=
  (List.range n).map fun k =>
    match verGet c.version (a + k) with
    | some b => some b
    | none => match c.snap? (lineOf (a + k)) with
      | some sn => sn.bytes[(a + k) % 128]?
      | none => none

/-- A read of a lost line is charged to the task (R370). -/
def State.noteLost (s : State) (l : Nat) : State :=
  if s.lost.contains l then
    s.chargeOnce s.core.id (simpleReport .lostline (BitVec.ofNat 64 (l * 128)) s.wordAddr s.core.taskid 5 s.core.id)
  else s

/-- The first read of a line in the phase (R286): a valid copy serves a snapshot, otherwise the line is asked for. -/
def State.touchLine (s : State) (l : Nat) : State :=
  if (s.core.snap? l).isSome then s
  else
    let s1 := s.refill l
    match s1.copyBytes (clusterOf s1.core.id) l s1.core.acquired with
    | some bs => (s1.noteLost l).takeSnap s1.core.id l bs
    | none =>
      if remoteLine l then s1
      else
        let s2 := s1.noteLost l
        (s2.upd (s2.core.addPath (lineHome l))).needLine (clusterOf s2.core.id) l

/-- The lines of n bytes at a cell address of which the version does not hold every byte wanted. -/
def Core.missing (c : Core) (a n : Nat) : List Nat :=
  (linesAt a n).filter fun l => (c.known a n).zipIdx.any fun b => b.1.isNone && lineOf (a + b.2) == l

/-- Look at n bytes at a cell address: snapshots are taken or lines asked for. -/
def State.look (s : State) (a n : Nat) : State :=
  (s.core.missing a n).foldl (fun t l => t.touchLine l) s

/-- All bytes, if every one is known. -/
def allBytes (l : List (Option Byte)) : Option (List Byte) := if l.all Option.isSome then some (l.map fun b => b.getD 0) else none

/-- The bytes as the strand's loads read them (R90), for an instruction that waits for them: k with the bytes once they are there. A
line of another device is asked for (R91, R293). -/
def State.readAs (s : State) (who : Agent) (a n : Nat) (k : State → List Byte → Out)
    (refuse : State → Cause → W64 → Out) : Out :=
  let s1 := s.look a n
  match allBytes (s1.core.known a n) with
  | some bs => k s1 bs
  | none =>
    match (s1.core.missing a n).find? remoteLine with
    | none => .next s1
    | some l =>
      s1.ask who (remoteAddr (l * 128)) (.load 128 none) fun t r => match r with
        | .data bs => .next ((t.lease s1.askedAt l bs).takeSnap t.core.id l bs)
        | .refused c v => refuse t (causeOf c) v
        | .status _ | .done | .ack _ | .creditFault _ _ _ _ _ => .next t

/-! ### Stores (R90) -/

/-- The size of a version: 128 bytes for each line (R90). -/
def versionSize (v : List Host.Cell) : Nat := 128 * (linesOf v).length

/-- The version ids in use, by strands on their cores and by pre-empted ones (R288). -/
def State.usedVersions (s : State) : List Nat :=
  ((s.core :: s.others).filterMap fun c => c.versionId) ++ s.saved.filterMap fun v => v.core.versionId

/-- The lowest free version id of 65,536 (R288). -/
def State.freeVersion (s : State) : Option Nat :=
  let used := s.usedVersions
  ((List.range (used.length + 1)).find? fun k => !used.contains k).filter fun k => k < 65536

/-- Bytes enter the version under its id; the plain store is on its way to its home slice (R78, R284, R288). -/
def Core.intoVersion (c : Core) (id a : Nat) (bs : List Byte) : Core :=
  { c with
    version := verPutBytes c.version a bs
    versionId := some id
    stores := c.stores ++ (linesAt a bs.length).filterMap fun l => if remoteLine l then none else some (lineHome l, [l]) }

/-- The version would pass VQUOTA with these bytes (R90). -/
def Core.overQuota (c : Core) (a : Nat) (bs : List Byte) : Bool :=
  !c.version.isEmpty && decide (c.vquota.toNat < versionSize (verPutBytes c.version a bs))

/-- A plain store (R90): one that would take the version beyond VQUOTA first owes an implicit boundary; one that finds no free version
id waits (R288). -/
def State.store (s : State) (a : Nat) (bs : List Byte) (k : State → Out) : Out :=
  if s.core.commit.isSome then .next s
  else if s.core.overQuota a bs then .next (s.upd { s.core with implicit := true })
  else match (match s.core.versionId with | some v => some v | none => s.freeVersion) with
    | none => .next s
    | some v => k (s.upd (s.core.intoVersion v a bs))

end Sys2Proof.Machine
end

