-- ==== Sys2Proof/Machine/Fetch.lean ====
section
/-! DEFINITION. Fetch.lean: reaching code (R31, R42, R86): the blocks a core has fetched, the registers a word waits for (R90), and what each
agent does next. -/

namespace Sys2Proof.Machine

/-- The sequencer registers a word reads (R90). -/
def sourcesOf : Instr → List Reg
  | .add _ a b => [a, b]
  | .sub _ a b => [a, b]
  | .mul _ a b => [a, b]
  | .mulh _ a b => [a, b]
  | .div _ a b => [a, b]
  | .divn _ a b => [a, b]
  | .rem _ a b => [a, b]
  | .remn _ a b => [a, b]
  | .and _ a b => [a, b]
  | .or _ a b => [a, b]
  | .xor _ a b => [a, b]
  | .andn _ a b => [a, b]
  | .shl _ a b => [a, b]
  | .shr _ a b => [a, b]
  | .sar _ a b => [a, b]
  | .min _ a b => [a, b]
  | .max _ a b => [a, b]
  | .minn _ a b => [a, b]
  | .maxn _ a b => [a, b]
  | .slt _ a b => [a, b]
  | .sltn _ a b => [a, b]
  | .seq _ a b => [a, b]
  | .sel _ a b c => [a, b, c]
  | .clz _ a => [a]
  | .ctz _ a => [a]
  | .popc _ a => [a]
  | .ext _ a b => [a, b]
  | .ins d a b => [d, a, b]
  | .addImm _ a _ => [a]
  | .mulImm _ a _ => [a]
  | .andImm _ a _ => [a]
  | .orImm _ a _ => [a]
  | .xorImm _ a _ => [a]
  | .shlImm _ a _ => [a]
  | .shrImm _ a _ => [a]
  | .sarImm _ a _ => [a]
  | .sltImm _ a _ => [a]
  | .sltnImm _ a _ => [a]
  | .seqImm _ a _ => [a]
  | .minImm _ a _ => [a]
  | .maxImm _ a _ => [a]
  | .minnImm _ a _ => [a]
  | .maxnImm _ a _ => [a]
  | .extImm _ a _ _ _ => [a]
  | .insImm d a _ _ => [d, a]
  | .lim d _ _ _ => [d]
  | .fadd _ a b _ _ => [a, b]
  | .fsub _ a b _ _ => [a, b]
  | .fmul _ a b _ _ => [a, b]
  | .fdiv _ a b _ _ => [a, b]
  | .fsqrt _ a _ _ => [a]
  | .ffma d a b _ _ => [d, a, b]
  | .fmin _ a b _ => [a, b]
  | .fmax _ a b _ => [a, b]
  | .fcmp _ a b _ _ => [a, b]
  | .fcvt _ a _ _ _ => [a]
  | .fkey _ a => [a]
  | .beq a b _ => [a, b]
  | .bne a b _ => [a, b]
  | .blt a b _ => [a, b]
  | .bge a b _ => [a, b]
  | .bltn a b _ => [a, b]
  | .bgen a b _ => [a, b]
  | .jr a => [a]
  | .jlr _ a => [a]
  | .loop a _ => [a]
  | .lbrkSq a => [a]
  | .lset _ a => [a]
  | .lsetAdd _ a => [a]
  | .vrun a _ => [a]
  | .xrun a _ => [a]
  | .mtask a _ => [a]
  | .slack _ a => [a]
  | .bankm _ a => [a]
  | .ldb _ a _ => [a]
  | .ldbn _ a _ => [a]
  | .ldh _ a _ => [a]
  | .ldhn _ a _ => [a]
  | .ldw _ a _ => [a]
  | .ldwn _ a _ => [a]
  | .ldd _ a _ => [a]
  | .stb d a _ => [d, a]
  | .sth d a _ => [d, a]
  | .stw d a _ => [d, a]
  | .std d a _ => [d, a]
  | .amoSwap _ a b _ _ _ => [a, b]
  | .amoAdd _ a b _ _ _ => [a, b]
  | .amoAnd _ a b _ _ _ => [a, b]
  | .amoOr _ a b _ _ _ => [a, b]
  | .amoXor _ a b _ _ _ => [a, b]
  | .amoMin _ a b _ _ _ => [a, b]
  | .amoMax _ a b _ _ _ => [a, b]
  | .amoMinn _ a b _ _ _ => [a, b]
  | .amoMaxn _ a b _ _ _ => [a, b]
  | .cas d a b _ _ _ => [d, a, b]
  | .updAddI32 a b _ => [a, b]
  | .updAddI64 a b _ => [a, b]
  | .updAddF32 a b _ => [a, b]
  | .updAddBf16x2 a b _ => [a, b]
  | .updMaxI32 a b _ => [a, b]
  | .updMinI32 a b _ => [a, b]
  | .updMaxN32 a b _ => [a, b]
  | .updMinN32 a b _ => [a, b]
  | .updMaxF32 a b _ => [a, b]
  | .updMinF32 a b _ => [a, b]
  | .updOr a b _ => [a, b]
  | .updAnd a b _ => [a, b]
  | .updXor a b _ => [a, b]
  | .waita _ a b _ _ => [a, b]
  | .pfhL1 a b => [a, b]
  | .pfhL2 a b => [a, b]
  | .rsdKeep a b => [a, b]
  | .rsdLow a b => [a, b]
  | .rsdClean a b => [a, b]
  | .barinit a b _ => [a, b]
  | .barexp a b _ => [a, b]
  | .bararr _ a b _ => [a, b]
  | .barwait _ a b _ => [a, b]
  | .bartest _ a b _ => [a, b]
  | .enq _ a b => [a, b]
  | .waitq _ a => [a]
  | .dq _ a b => [a, b]
  | .treeNew _ a => [a]
  | .treeClose _ a => [a]
  | .treeKill _ a => [a]
  | .spawn d a b => [d, a, b]
  | .pick _ a => [a]
  | .done a => [a]
  | .join a b => [a, b]
  | .reprio _ a b => [a, b]
  | .reprioSub _ a b => [a, b]
  | .cancelSoft _ a => [a]
  | .cancelHard _ a => [a]
  | .tstat _ a _ => [a]
  | .nalloc _ a b => [a, b]
  | .nallocFree _ a b => [a, b]
  | .ninit a b _ => [a, b]
  | .nrd _ a _ => [a]
  | .nvl a b => [a, b]
  | .nback a b => [a, b]
  | .nbackAlt a b => [a, b]
  | .nsel _ a => [a]
  | .bcfg _ a b => [a, b]
  | .bsub _ a b => [a, b]
  | .bclose _ a => [a]
  | .aconfig _ a b => [a, b]
  | .ktload _ a b => [a, b]
  | .ktloadSt _ a b => [a, b]
  | .ktlock _ a => [a]
  | .ktlockUn _ a => [a]
  | .kappend _ a => [a]
  | .aquery a => [a]
  | .aqueryLoose a => [a]
  | .ksplice d a b => [d, a, b]
  | .krepairSel a => [a]
  | .krepairPut a => [a]
  | .krstatSeq _ a => [a]
  | .krstatSpan _ a b => [a, b]
  | .krstatDelta _ a b => [a, b]
  | .krstatPool _ a => [a]
  | .kalloc _ a b => [a, b]
  | .kfree _ a => [a]
  | .kfreeEnt _ a b => [a, b]
  | .kfork _ a => [a]
  | .kreclaim _ a => [a]
  | .csrw _ a _ => [a]
  | .csrs _ a _ => [a]
  | .csrc _ a _ => [a]
  | _ => []

/-- The words of a block's bytes. -/
def codeWords (bs : List Byte) : List W32 := (chunks 4 bs).map fun c => BitVec.ofNat 32 (leVal c)

/-- The sixteen words of a block of the context, read from committed memory, if it can be fetched (R358). -/
def State.fetchBlock (s : State) (ctx g : Nat) (b : W64) : Option (List W32) :=
  match s.checkPage ctx g b 64 .fetch with
  | .error _ => none
  | .ok a =>
    if remoteBase ≤ a then none
    else some (codeWords (cellBytes s.mem a 64))

/-- A block among those fetched. -/
def findBlock (l : List (W64 × List W32)) (b : W64) : Option (List W32) :=
  match l with
  | [] => none
  | (x, ws) :: t => if x = b then some ws else findBlock t b

/-- The word at an address, from a list of fetched blocks or from memory; and the list with its block. -/
def State.wordAt (s : State) (ctx g : Nat) (have_ : List (W64 × List W32)) (pc : W64) : Option (W32 × List (W64 × List W32)) :=
  match findBlock have_ (blk pc) with
  | some ws => some (ws.getD (pc.toNat % 64 / 4) 0, have_)
  | none => match s.fetchBlock ctx g (blk pc) with
    | some ws => some (ws.getD (pc.toNat % 64 / 4) 0, have_ ++ [(blk pc, ws)])
    | none => none

/-- What a block needs before an agent of the current core fetches it: an engine's read of its line (R101, R284, R370), or the answer of
the device that holds it (R87, R358); then k, which takes the block or, when it cannot be fetched, the fault. `keep` holds a block that came
from another device, or whose line is lost. -/
def State.fetchFirst (s : State) (who : Agent) (kept : List (W64 × List W32)) (b : W64) (keep : State → List W32 → State) (wait : Out)
    (k : State → Out) : Out :=
  if (findBlock kept b).isSome then k s
  else match s.checkPage s.core.context (clusterOf s.core.id) b 64 .fetch with
    | .error _ => k s
    | .ok a =>
      if remoteBase ≤ a then
        s.ask who b .fetch fun t r => match r with
          | .data bs => .next (keep t (codeWords bs))
          | .refused _ _ => k t
          | .status _ | .done | .ack _ | .creditFault _ _ _ _ _ => .next t
      else if !s.rangeSettled a 64 then wait
      else if (s.dirLine (lineOf a)).hs = .upd then .next (s.mergeNow (lineOf a))
      else if s.lost.contains (lineOf a) then
        .next (keep (s.charge s.core.id (simpleReport .lostline (BitVec.ofNat 64 a) b s.core.taskid 5 s.core.id)) (codeWords (cellBytes s.mem a 64)))
      else k s

/-- The same for a command's first block, kept with the core's. -/
def State.fetchCmd (s : State) (who : Agent) (va : W64) (wait : Out) (k : State → Out) : Out :=
  s.fetchFirst who s.core.ecode (blk va) (fun t ws => t.upd { t.core with ecode := t.core.ecode ++ [(blk va, ws)] }) wait k

/-- A load into one of these registers has not returned its data (R90). -/
def Core.waitsFor (c : Core) (rs : List Reg) : Bool := rs.any fun r => r != 0 && c.loads.any fun p => p.gd == r

/-- The first load whose data is all there. -/
def Core.readyLoad (c : Core) : Option Nat := c.loads.findIdx? fun p => p.bytes.all Option.isSome

/-- A pre-emption is pending for the cluster of a core, and its strand is at level 0 (R264). -/
def State.preemptDue (s : State) (c : Core) : Bool :=
  c.lvl == 0 && (match c.launch.bind s.launch? with
    | some l => l.st == .preempting && l.clusters.contains (clusterOf c.id)
    | none => false)

end Sys2Proof.Machine
end

