-- ==== Sys2Proof/Machine/Carousel.lean ====
section
/-! DEFINITION. Carousel.lean: the Carousel's table and its check (R314..R317). -/

namespace Sys2Proof.Machine

def State.car (s : State) (d : Nat) : Carousel := if d = 0 then s.car0 else s.car1

def State.putCar (s : State) (d : Nat) (x : Carousel) : State := if d = 0 then { s with car0 := x } else { s with car1 := x }

abbrev CarEntry := BitVec 128

def CarEntry.v (e : CarEntry) : Bool := e.getLsbD 47
def CarEntry.per (e : CarEntry) : Nat := e.toNat / 2 ^ 43 % 16
def CarEntry.slot (e : CarEntry) : Nat := e.toNat / 2 ^ 34 % 512
def CarEntry.dst (e : CarEntry) : Nat := e.toNat / 2 ^ 10 % 1024
def CarEntry.src (e : CarEntry) : Nat := e.toNat % 1024
def CarEntry.res (e : CarEntry) : Bool := e.toNat / 2 ^ 48 ≠ 0 || e.toNat / 2 ^ 20 % 2 ^ 14 ≠ 0

/-- The position of a core's cluster strip (R14, R25). -/
def stripPos (c : Nat) : Nat := stripOfCluster (clusterOf c)

def rowOf (c : Nat) : Nat := c / 4 % 8

/-- An entry that a load refuses (R315, R316). -/
def CarEntry.bad (e : CarEntry) (die : Nat) : Bool :=
  e.v && (e.res || decide (9 < e.per) || decide (2 ^ e.per ≤ e.slot) || dieOf e.src != die || dieOf e.dst != die
    || rowOf e.src != rowOf e.dst || stripPos e.src == stripPos e.dst)

/-- Two valid entries on one chain direction of one row share a hop and an owned slot (R316). -/
def carClash (x y : CarEntry) : Bool :=
  let east := fun (e : CarEntry) => decide (stripPos e.src < stripPos e.dst)
  let lo := fun (e : CarEntry) => if east e then stripPos e.src else stripPos e.dst + 1
  let hi := fun (e : CarEntry) => if east e then stripPos e.dst else stripPos e.src + 1
  x.v && y.v && rowOf x.src == rowOf y.src && east x == east y && decide (lo x < hi y) && decide (lo y < hi x)
    && x.slot % 2 ^ min x.per y.per == y.slot % 2 ^ min x.per y.per

/-- The table is refused for a die. -/
def carTableBad (es : List CarEntry) (die : Nat) : Bool :=
  (es.any fun e => e.bad die) || es.zipIdx.any fun x => (es.drop (x.2 + 1)).any fun y => carClash x.1 y

/-- The table at an address of a context, read as committed bytes for a die; none where the load is refused (R316). -/
def State.carTable (s : State) (ctx core : Nat) (va : W64) : Option (List CarEntry) :=
  if va.toNat % 4096 ≠ 0 then none
  else match s.checkPage ctx (clusterOf core) va 4096 .read with
    | .error _ => none
    | .ok a =>
      if remoteBase ≤ a then none
      else
        let es := (chunks 16 (cellBytes s.mem a 4096)).map fun b => BitVec.ofNat 128 (leVal b)
        if carTableBad es (dieOf core) then none else some es

/-- What a load of the table needs first, an engine's read of its lines (R101, R284, R316): nothing, or the state once some of it is done. -/
def State.carFirst (s : State) (ctx core : Nat) (va : W64) : Option State :=
  if va = 0 || va.toNat % 4096 ≠ 0 then none
  else match s.checkPage ctx (clusterOf core) va 4096 .read with
    | .error _ => none
    | .ok a =>
      if remoteBase ≤ a then none
      else if !s.rangeSettled a 4096 then some s
      else if (linesAt a 4096).any fun l => (s.dirLine l).hs == .upd then some (s.homeRead a 4096).2
      else none

/-- A program of the context runs an XSEND or XRECV on the die (R316): a transfer program with units of its circuits under way. -/
def State.carBusy (s : State) (ctx die : Nat) : Bool :=
  (s.core :: s.others).any fun c => c.ctx == some ctx && dieOf c.id == die
    && ((match c.xin with | some p => p.circuit | none => false) || (match c.xout with | some p => p.circuit | none => false))

end Sys2Proof.Machine
end

