-- ==== Sys2Proof/Machine/Control.lean ====
section
/-! DEFINITION. Control.lean: branches, jumps and hardware loops (R67..R73, R80), the system instructions (R83..R86), the end of a task
(R85, R120, R121). -/

namespace Sys2Proof.Machine

/-! ### Branches and jumps -/

/-- The innermost loop ends in the block at pc (R71). -/
def Core.inEndBlock (c : Core) : Bool := match c.loops with | e :: _ => e.endblk == blk c.pc | [] => false

/-- Continue at a taken target; out of the innermost end block into the next block makes the end check due (R71). -/
def Core.goto (c : Core) (t : W64) : Core :=
  { c with pc := t, reach := .jump c.pc, micro := 0, seq := if c.inEndBlock && t == blk c.pc + 64 then .endCheck else .run }

/-- A branch (R67). -/
def State.branch (s : State) (taken : Bool) (o : BitVec 16) : Out :=
  if taken then .next (s.upd (s.core.goto (blockTarget s.core.pc 16 o.toNat))) else s.pass

/-- BEQ (R67). -/
def execBeq (a b : Reg) (o : BitVec 16) (s : State) : Out := s.branch (s.core.getG a == s.core.getG b) o

/-- BNE (R67). -/
def execBne (a b : Reg) (o : BitVec 16) (s : State) : Out := s.branch (s.core.getG a != s.core.getG b) o

/-- BLT (R67). -/
def execBlt (a b : Reg) (o : BitVec 16) (s : State) : Out := s.branch ((s.core.getG a).slt (s.core.getG b)) o

/-- BGE (R67). -/
def execBge (a b : Reg) (o : BitVec 16) (s : State) : Out := s.branch (!(s.core.getG a).slt (s.core.getG b)) o

/-- BLTN (R67). -/
def execBltn (a b : Reg) (o : BitVec 16) (s : State) : Out := s.branch ((s.core.getG a).ult (s.core.getG b)) o

/-- BGEN (R67). -/
def execBgen (a b : Reg) (o : BitVec 16) (s : State) : Out := s.branch (!(s.core.getG a).ult (s.core.getG b)) o

/-- J (R68). -/
def execJ (o : BitVec 26) (s : State) : Out := .next (s.upd (s.core.goto (blockTarget s.core.pc 26 o.toNat)))

/-- A call's link and target; in the innermost end block it is refused before it writes (R68, R71). -/
def State.call (s : State) (d : Reg) (t : W64) : Out :=
  if s.core.inEndBlock then s.precise .loopnest (blk s.core.pc)
  else .next (s.upd ((s.core.setG d (blk s.core.pc + 64)).goto t))

/-- JL (R68). -/
def execJl (o : BitVec 26) (s : State) : Out := s.call 1 (blockTarget s.core.pc 26 o.toNat)

/-- JR (R42, R68). -/
def execJr (a : Reg) (s : State) : Out :=
  let t := s.core.getG a
  if t.toNat % 64 ≠ 0 then s.precise .fetchtgt t else .next (s.upd (s.core.goto t))

/-- JLR (R42, R68, R71). DESIGN CHOICE (log 64): with a target that is no block's first word in the innermost loop's end block it traps
FETCHTGT, not LOOPNEST. -/
def execJlr (d a : Reg) (s : State) : Out :=
  let t := s.core.getG a
  if t.toNat % 64 ≠ 0 then s.precise .fetchtgt t else s.call d t

/-! ### Loops -/

/-- LOOP with a count, its end at a distance in blocks (R70). -/
def State.openLoop (s : State) (i : Instr) (n : W64) (e : BitVec 8) : Out :=
  let c := s.core
  let b := blk c.pc
  let last := b + BitVec.ofNat 64 (e.toNat * 64)
  if 0xFFFFFFFF < n.toNat then s.precise .badopnd n
  else if (match c.loops with | x :: _ => x.endblk.ult last | [] => false) then s.precise .loopnest last
  else if n = 0 then .next (s.upd { c with pc := last + 64, reach := .along, micro := 0 })
  else if c.loops.length = 6 then s.preciseWord .loopdepth i
  else
    let x : LoopEntry := { start := b + 64, endblk := last, count := n.toNat, idx := 0, inst := c.nextInst }
    .next (s.upd { c with loops := x :: c.loops, nextInst := c.nextInst + 1, pc := b + 64, reach := .along, micro := 0 })

/-- LOOP ga, label (R70). -/
def execLoop (a : Reg) (e : BitVec 8) (s : State) : Out := s.openLoop (.loop a e) (s.core.getG a) e

/-- LOOP k, label (R70). -/
def execLoopImm (n : BitVec 12) (e : BitVec 8) (s : State) : Out := s.openLoop (.loopImm n e) (immZ n) e

/-- The command is under the loop instance with an index beyond the cutoff, and has not started (R80). -/
def Cmd.squashed (m : Cmd) (inst cut : Nat) : Bool := !m.started && m.tag.any fun t => t.1 == inst && decide (cut < t.2)

/-- Commands are squashed in every queue of the current core (R80). -/
def State.squash (s : State) (inst cut : Nat) : State :=
  let c := s.core
  let keep := fun (q : List Cmd) => q.filter fun m => !m.squashed inst cut
  let gone := fun (q : List Cmd) => (q.filter fun m => m.squashed inst cut).map fun m => m.num
  let mgone := gone c.mq
  let agone := gone c.aq
  let s1 := s.upd { c with vq := keep c.vq, xinq := keep c.xinq, xoutq := keep c.xoutq, mq := keep c.mq, aq := keep c.aq }
  let g := clusterOf c.id
  let cl := s1.cluster g
  let s2 := if cl.records.any fun r => r.core == c.id && mgone.contains r.cmd.num then
      s1.putCluster g { cl with records := cl.records.filter fun r => !(r.core == c.id && mgone.contains r.cmd.num) }
    else s1
  let lost := fun (m : AttnCmd) => m.core == c.id && agone.contains m.num
  if agone.isEmpty then s2 else { s2 with chip0 := s2.chip0.dropCmds 0 lost, chip1 := s2.chip1.dropCmds 1 lost }

/-- The innermost loop is left (R73). -/
def Core.leaveLoop (c : Core) (e : LoopEntry) (rest : List LoopEntry) : Core :=
  { c with loops := rest, pc := e.endblk + 64, reach := .along, micro := 0 }

/-- LBRK (R73). -/
def execLbrk (s : State) : Out :=
  match s.core.loops with
  | [] => s.preciseWord .loopdepth .lbrk
  | e :: rest => .next (s.upd (s.core.leaveLoop e rest))

/-- LBRK.sq (R73, R80). -/
def execLbrkSq (a : Reg) (s : State) : Out :=
  match s.core.loops with
  | [] => s.preciseWord .loopdepth (.lbrkSq a)
  | e :: rest =>
    let t := s.squash e.inst ((s.core.getG a).toNat % 2 ^ 32)
    .next (t.upd (t.core.leaveLoop e rest))

/-- LIDX (R73). -/
def execLidx (d : Reg) (k : Fin 8) (s : State) : Out :=
  match s.core.loops[k.val]? with
  | none => s.preciseWord .loopdepth (.lidx d k)
  | some e => s.write d (BitVec.ofNat 64 e.idx)

/-- LSET (R73). -/
def execLset (n : LReg) (a : Reg) (s : State) : Out := .next (s.upd { s.core with l := s.core.l.set n (s.core.getG a) }.next)

/-- LSET.add (R73). -/
def execLsetAdd (n : LReg) (a : Reg) (s : State) : Out :=
  .next (s.upd { s.core with l := s.core.l.set n (s.core.getL n + s.core.getG a) }.next)

/-- The end check of R71 for the end block b: entries that end there advance or pop, innermost first. -/
def endCheck (b : W64) : List LoopEntry → W64 × Bool × List LoopEntry
  | [] => (b + 64, false, [])
  | e :: t =>
    if e.endblk ≠ b then (b + 64, false, e :: t)
    else if e.idx + 1 < e.count then (e.start, true, { e with idx := e.idx + 1 } :: t)
    else endCheck b t

/-- LOOP_END_CHECK (R71). A taken branch that goes on at its own target keeps the fault of a taken target (R69, R358). -/
def execLoopEndCheck (c : Nat) (s : State) : Out :=
  let t := s.focus c
  if t.core.seq = .endCheck then
    let r := endCheck (blk t.core.pc - 64) t.core.loops
    .next (t.upd { t.core with
      pc := r.1, loops := r.2.2, seq := .run, micro := 0, reach := if r.2.1 then .loop else t.core.reach })
  else .next s

/-! ### System instructions -/

/-- NOP (R83). -/
def execNop (s : State) : Out := s.pass

/-- YIELD (R83): a pre-emption point, where STRAND_PREEMPT lands; otherwise nothing. -/
def execYield (s : State) : Out := s.pass

/-- PAUSE (R83). -/
def execPause (n : BitVec 10) (s : State) : Out := .next (s.upd { s.core with seq := .pause (s.cycle + n.toNat) })

/-- PAUSE_END (R83). -/
def execPauseEnd (c : Nat) (s : State) : Out :=
  let t := s.focus c
  match t.core.seq with
  | .pause w => if w ≤ t.cycle then t.pass else .next s
  | _ => .next s

/-- HALT (R85): at level 0 the task ends once its commands have completed; in a handler the task that trapped aborts. -/
def execHalt (s : State) : Out :=
  if s.core.lvl = 0 then .next (s.upd { s.core with seq := .ending .halt }) else .next s.haltLevel

/-- TRAP (R83). -/
def execTrap (k : BitVec 10) (s : State) : Out := s.traps .swtrap (immZ k) (s.core.pc + 4) false

/-- TRET (R84). -/
def execTret (s : State) : Out :=
  if s.core.lvl = 0 then s.preciseWord .illegal .tret else .next (s.upd s.core.leaveTrap)

/-- BKPT (R83). -/
def execBkpt (k : BitVec 10) (s : State) : Out :=
  if s.core.debugger && s.core.breakOn then .next (s.upd { s.core with seq := .stopped })
  else s.traps .bkpt (immZ k) (s.core.pc + 4) false

/-- IFLUSH (R86). -/
def execIflush (s : State) : Out := .next (s.upd { s.core with code := [], ecode := [] }.next)

/-- JTAG_DEBUGGER (R83, R399): debug functions are reached only when debug is fuse-enabled. A resumed core goes on past its BKPT. -/
def execJtagDebugger (c : Nat) (act : DebugAct) (s : State) : Out :=
  let t := s.focus c
  if !t.jtag then .next s
  else match act with
    | .attach b => .next (t.upd { t.core with debugger := true, breakOn := b })
    | .detach => .next (t.upd { t.core with debugger := false, breakOn := false })
    | .resume => if t.core.seq = .stopped then t.pass else .next s

/-! ### The end of a task -/

/-- Every command of the task has completed (R85). -/
def Core.drained (c : Core) : Bool := c.vq.isEmpty && c.xinq.isEmpty && c.xoutq.isEmpty && c.mq.isEmpty && c.aq.isEmpty

/-- The strand after its task's end boundary (R118, R119, R254, R260). -/
def State.taskOver (s : State) (k : EndKind) : State :=
  let c := s.core
  let s1 := s.upd { c with implicit := false, loops := [] }
  match c.ring with
  | some (die, idx) =>
    let s2 := s1.endDequeued c.id c.taskid 0 none
    let gen := match assoc idx (s2.die die).tcbs with | some b => b.gen | none => 0
    match k with
    | .halt => (s2.endTask (taskId die gen idx) 0).returnToBody c.id 0
    | .done x => (s2.endTask (taskId die gen idx) x).returnToBody c.id 0
    | .join d x => (s2.joinTask (taskId die gen idx) d x).returnToBody c.id 1
  | none => if c.body.isSome then s1.bodyEnd c.id none else s1.upd { s1.core with seq := .idle }

/-- TASK_END (R85, R94): when the task's commands have completed and no error is held, its end boundary commits and it ends; an end
whose commit has begun goes through. -/
def execTaskEnd (c : Nat) (s : State) : Out :=
  let t := s.focus c
  match t.core.seq with
  | .ending k =>
    if !t.core.drained || (!t.core.held.isEmpty && t.core.commit.isNone) then .next s
    else t.atBoundary none fun u => .next ((if t.core.implicit then u.upd (u.core.setPx true) else u).taskOver k)
  | _ => .next s

end Sys2Proof.Machine
end

