-- ==== Sys2Proof/Machine/Commands.lean ====
section
/-! DEFINITION. Commands.lean: engine commands and what waits for them (R74..R81): VRUN, XRUN, MTASK, WAIT, VGET, SLACK, BANKM, and the return
of a load's data (R90). -/

namespace Sys2Proof.Machine

/-! ### Issue (R74..R76) -/

/-- What a command captures at issue (R74). -/
def Core.capture (c : Core) (addr : W64) (m : BitVec 16) : Cmd :=
  { num := c.nextCmd, addr := addr, mask := m, regs := c.l, rm := c.rm, tag := c.loops.map fun e => (e.inst, e.idx), started := false }

/-- A command can issue: fewer than s outstanding, or none for slack 0 (R75). -/
def canIssue (slack outstanding : Nat) : Bool := if slack = 0 then outstanding == 0 else decide (outstanding < slack)

/-- The parts of a command's issue (R75): the stall, the issue, and under slack 0 the wait for its completion. -/
def State.issue (s : State) (slack : Nat) (queue : Core → List Cmd) (enter : Core → Core) : Out :=
  if s.core.micro = 1 then (if (queue s.core).isEmpty then s.pass else .next s)
  else if !canIssue slack (queue s.core).length then .next s
  else
    let c := enter { s.core with nextCmd := s.core.nextCmd + 1 }
    if slack = 0 then .next (s.upd { c with micro := 1 }) else .next (s.upd c.next)

/-- VRUN (R76). -/
def execVrun (a : Reg) (m : BitVec 16) (s : State) : Out :=
  let va := s.core.getG a
  if va.toNat % 64 ≠ 0 then s.precise .align va
  else s.issue s.core.slack[0] (·.vq) fun c => { c with vq := c.vq ++ [s.core.capture va m] }

/-- The channel of a program by its first word's step code (R76): false for the in-channel, true for the out-channel. -/
def channelOf (w : W32) : Option Bool :=
  match w.toNat / 2 ^ 27 with
  | 1 | 2 | 4 | 7 => some false
  | 3 | 5 | 6 => some true
  | _ => none

/-- XRUN (R76): the program's first word, read at issue, chooses the channel. -/
def execXrun (a : Reg) (m : BitVec 16) (s : State) : Out :=
  let va := s.core.getG a
  if va.toNat % 64 ≠ 0 then s.precise .align va
  else s.fetchCmd .seq va (.next s) fun u => match u.wordAt u.core.context (clusterOf u.core.id) u.core.ecode va with
    | none => u.precise .fetchtgt va
    | some (w, blocks) =>
      let t := u.upd { u.core with ecode := blocks }
      match channelOf w with
      | none => u.precise .badopnd va
      | some false => t.issue t.core.slack[1] (·.xinq) fun c => { c with xinq := c.xinq ++ [t.core.capture va m] }
      | some true => t.issue t.core.slack[2] (·.xoutq) fun c => { c with xoutq := c.xoutq ++ [t.core.capture va m] }

/-- MTASK (R76). -/
def execMtask (a : Reg) (m : BitVec 16) (s : State) : Out :=
  let va := s.core.getG a
  if va.toNat % 64 ≠ 0 then s.precise .align va
  else s.issue s.core.slack[3] (·.mq) fun c => { c with mq := c.mq ++ [s.core.capture va m] }

/-! ### Waiting (R77, R78) -/

/-- Updates of core c not yet accepted by a home slice (R78). -/
def State.updsOut (s : State) (c : Nat) : Nat :=
  (s.cluster (clusterOf c)).filter.foldl (fun n e => n + (e.queue.filter fun u => u.core == c).length) 0

/-- The counts of WAIT are each at or below their field (R78). -/
def State.waitMet (s : State) (ld st cp tl : Nat) : Bool :=
  s.core.vq.isEmpty && decide (s.core.loads.length ≤ ld) && decide (s.core.stores.length + s.updsOut s.core.id ≤ st)
    && decide (s.core.xinq.length + s.core.xoutq.length ≤ cp) && decide (s.core.mq.length ≤ tl)

/-- WAIT (R78). -/
def execWait (l st c t : Fin 64) (s : State) : Out := if s.waitMet l.val st.val c.val t.val then s.acquire.pass else .next s

/-- VGET (R77). -/
def execVget (d : Reg) (n : Fin 4) (s : State) : Out := if s.core.vq.isEmpty then s.write d s.core.q[n] else .next s

/-- LOAD_DATA_RETURN (R90): the k-th load of core c, its bytes all there, writes its register. -/
def execLoadDataReturn (c k : Nat) (s : State) : Out :=
  let t := s.focus c
  match t.core.loads[k]? with
  | none => .next s
  | some p =>
    match allBytes p.bytes with
    | none => .next s
    | some bs =>
      let v := leVal bs
      let x := if p.signed then sext (8 * bs.length) v else BitVec.ofNat 64 v
      .next (t.upd ({ t.core with loads := t.core.loads.eraseIdx k }.setG p.gd x))

/-! ### Settings (R79, R81) -/

/-- The five slacks in the layout of the launch record's SLACK field (R50, R79). -/
def slackWord (v : Vector Nat 5) : W64 := BitVec.ofNat 64 (v[0] + v[1] * 2 ^ 5 + v[2] * 2 ^ 10 + v[3] * 2 ^ 15 + v[4] * 2 ^ 20)

def slackFields (x : W64) : Vector Nat 5 := #v[bitsOf x 4 0, bitsOf x 9 5, bitsOf x 14 10, bitsOf x 19 15, bitsOf x 24 20]

/-- A settings value is refused: a field above 16 or a nonzero bit in [63:25] (R79). -/
def slackBad (x : W64) : Bool := bitsOf x 63 25 ≠ 0 || (slackFields x).toList.any fun n => decide (16 < n)

/-- SLACK (R79). -/
def execSlack (d a : Reg) (s : State) : Out :=
  let x := s.core.getG a
  if slackBad x then s.precise .badopnd x
  else (s.upd { s.core with slack := slackFields x }).write d (slackWord s.core.slack)

/-- An engine of the cluster is blocked on a stream (R81, R277). -/
def State.streamWaited (s : State) (g f : Nat) : Bool :=
  let cl := s.cluster g
  let on := fun (p : Option ProgRun) => match p with | some r => r.waits == some f | none => false
  let load := fun (a : MatArray) => a.shadow.state == .loading && a.shadow.stream == f
  ((List.range 4).any fun k => on (s.coreAt (4 * g + k)).xin || on (s.coreAt (4 * g + k)).xout)
    || on cl.arr0.run || on cl.arr1.run || load cl.arr0 || load cl.arr1

/-- The mode and slot size BANKM asks of bank b (R81). -/
def Bank.wanted (x : Bank) (v : W64) (b : Nat) : Nat × Nat :=
  let m := bitsOf v (2 * b + 1) (2 * b)
  if m = 3 then (x.mode, x.slot) else (m, if m = 2 then bitsOf v (2 * b + 17) (2 * b + 16) else x.slot)

/-- A requested switch fails: it takes a bank out of FIFO mode or changes its slot size while a slot is filled, claimed or being read
or an engine is blocked on the stream (R81, R277). -/
def Bank.refuses (x : Bank) (want : Nat × Nat) (waited : Bool) : Bool :=
  x.mode == 2 && want != (x.mode, x.slot) && (!x.slots.isEmpty || !x.claims.isEmpty || x.consumer.isSome || waited)

/-- A bank after a switch (R81). -/
def Bank.switched (x : Bank) (want : Nat × Nat) : Bank :=
  if want = (x.mode, x.slot) then x else { Bank.reset with mode := want.1, slot := want.2 }

/-- The held copies of a cluster that lie in another slice now move to its hold buffer (R81, R287). -/
def State.reslice (s : State) (g : Nat) : State :=
  let cl := s.cluster g
  let moved := fun (h : HoldEntry) => cl.slice h.line != h.slice
  (cl.holdBuf.filter moved).foldl (fun t h => t.intoHold g h.line h.holders)
    (s.putCluster g { cl with holdBuf := cl.holdBuf.filter fun h => !moved h })

/-- What a cluster's change of bank modes does to its pages and lines (R81, R273): pages pinned in banks that are no longer scratch are
unpinned; lines of banks that are no longer cache, and lines whose slice moves, leave the L1, and their snapshots move to the hold
buffer of the new slice. -/
def State.rebank (s : State) (g : Nat) (old : Cluster) : State :=
  let cl := s.cluster g
  let s1 := (cl.frames.filter fun f => (cl.bank (f.frame / 16)).mode ≠ 1).foldl (fun t f => t.unpin g f) s
  let gone := fun (l : Nat) => !cl.pinned l && ((cl.bank (old.place l).1).mode != 0 || old.slice l != cl.slice l)
  (((old.filter.map (·.line)) ++ old.leases.map (·.line)).foldl (fun t l => if gone l then t.expel g l else t) s1).reslice g

/-- The modes BANKM would give the core's eight banks: for each its wanted mode, and whether the switch fails (R81). -/
def State.bankPlan (s : State) (v : W64) : List (Nat × Nat × Bool) :=
  let g := clusterOf s.core.id
  let cl := s.cluster g
  (List.range 8).map fun b =>
    let n := 8 * (s.core.id % 4) + b
    let w := (cl.bank n).wanted v b
    (w.1, w.2, (cl.bank n).refuses w (s.streamWaited g n))

/-- The bits of failed switches (R81). -/
def failBits (plan : List (Nat × Nat × Bool)) : Nat :=
  (plan.zipIdx.map fun p => if p.1.2.2 then 2 ^ p.2 else 0).foldl (· + ·) 0

/-- BANKM (R81). -/
def execBankm (d a : Reg) (s : State) : Out :=
  let v := s.core.getG a
  let g := clusterOf s.core.id
  let cl := s.cluster g
  let base := 8 * (s.core.id % 4)
  let bad := (List.range 8).any fun b => bitsOf v (2 * b + 1) (2 * b) == 2 && bitsOf v (2 * b + 17) (2 * b + 16) == 3
  if bitsOf v 63 32 ≠ 0 || bad then s.precise .badopnd v
  else
    let plan := s.bankPlan v
    let after := plan.zipIdx.map fun p => if p.1.2.2 then (cl.bank (base + p.2)).mode else p.1.1
    if !after.any (· == 0) then s.write d 0x100
    else
      let cl1 := plan.zipIdx.foldl (fun k p =>
        if p.1.2.2 then k else k.putBank (base + p.2) ((k.bank (base + p.2)).switched (p.1.1, p.1.2.1))) cl
      ((s.putCluster g cl1).rebank g cl).write d (BitVec.ofNat 64 (failBits plan))

end Sys2Proof.Machine
end

