-- ==== Sys2Proof/Machine/Memory.lean ====
section
/-! DEFINITION. Memory.lean: loads and stores (R89..R91), boundaries and fences (R92, R93), atomics (R95..R98), updates (R99..R101), WAITA
(R102) and the hints (R103). -/

namespace Sys2Proof.Machine

/-! ### The doorbell block (R373, R378) -/

/-- A quadword of a queue's doorbell block as read (R378, R382): SW, then PROG or TAKEN as last written back while it is 1. -/
def State.doorbellRead (s : State) (q off : Nat) : W64 :=
  match s.queue? q with
  | none => 0
  | some x =>
    let sw := x.switching.toNat * 2 ^ 63
    if off = 8 then BitVec.ofNat 64 (sw + (if x.switching then x.wbDone else x.done) % 2 ^ 63)
    else if off = 16 then BitVec.ofNat 64 (sw + (if x.switching then x.wbTaken else x.taken) % 2 ^ 63)
    else if off = 24 then
      BitVec.ofNat 64 (2 ^ 7 + x.boundTo.isSome.toNat * 2 ^ 6 + x.resident.toNat * 2 ^ 5 + x.window.toNat * 2 ^ 4
        + x.pclass % 4 * 2 ^ 2 + x.errFlag.toNat * 2)
    else 0

/-! ### Loads and stores -/

/-- A load on its way: its bytes as known at issue (R90). An earlier load to its register no longer writes it (log 55). -/
def Core.startLoad (c : Core) (d : Reg) (signed : Bool) (a : Nat) (bytes : List (Option Byte)) : Core :=
  { c with loads := c.orphan d ++ [{ gd := d, signed := signed, addr := a, bytes := bytes }] }

/-- A load of w bytes (R89, R90, R91). -/
def State.load (s : State) (d a : Reg) (o : BitVec 15) (w : Nat) (signed : Bool) : Out :=
  s.withImplicit fun t =>
    t.addressed (t.core.memAddr a o) w .read none false fun u pa =>
      match doorbellQueue pa with
      | some q =>
        let bs := leBytes 8 (u.doorbellRead q (pa % 64)).toNat
        .next (u.upd (u.core.startLoad d signed pa (bs.map some)).next)
      | none =>
        if remoteBase ≤ pa then
          u.readAs .seq pa w (fun x bs => .next (x.upd (x.core.startLoad d signed pa (bs.map some)).next))
            fun x c _ => x.precise c (x.core.memAddr a o)
        else
          let x := u.look pa w
          .next (x.upd (x.core.startLoad d signed pa (x.core.known pa w)).next)

/-- LDB (R89). -/
def execLdb (d a : Reg) (o : BitVec 15) (s : State) : Out := s.load d a o 1 true
/-- LDBN (R89). -/
def execLdbn (d a : Reg) (o : BitVec 15) (s : State) : Out := s.load d a o 1 false
/-- LDH (R89). -/
def execLdh (d a : Reg) (o : BitVec 15) (s : State) : Out := s.load d a o 2 true
/-- LDHN (R89). -/
def execLdhn (d a : Reg) (o : BitVec 15) (s : State) : Out := s.load d a o 2 false
/-- LDW (R89). -/
def execLdw (d a : Reg) (o : BitVec 15) (s : State) : Out := s.load d a o 4 true
/-- LDWN (R89). -/
def execLdwn (d a : Reg) (o : BitVec 15) (s : State) : Out := s.load d a o 4 false
/-- LDD (R89). -/
def execLdd (d a : Reg) (o : BitVec 15) (s : State) : Out := s.load d a o 8 false

/-- Plain bytes stored at a checked address (R90); a line of another device is translated there before the store retires (R91). -/
def State.storeAt (s : State) (va : W64) (pa : Nat) (bs : List Byte) (k : State → Out) : Out :=
  if pa < remoteBase then s.store pa bs k
  else s.ask .seq va (.check true bs.length none false) fun t r => match r with
    | .refused c _ => t.precise (causeOf c) va
    | .data _ | .status _ | .done | .ack _ | .creditFault _ _ _ _ _ => t.store pa bs k

/-- A store of the low w bytes of a register (R89, R90). -/
def State.storeReg (s : State) (d a : Reg) (o : BitVec 15) (w : Nat) : Out :=
  s.withImplicit fun t =>
    let va := t.core.memAddr a o
    t.addressed va w .write none false fun u pa => u.storeAt va pa (leBytes w (u.core.getG d).toNat) State.pass

/-- STB (R89). -/
def execStb (d a : Reg) (o : BitVec 15) (s : State) : Out := s.storeReg d a o 1
/-- STH (R89). -/
def execSth (d a : Reg) (o : BitVec 15) (s : State) : Out := s.storeReg d a o 2
/-- STW (R89). -/
def execStw (d a : Reg) (o : BitVec 15) (s : State) : Out := s.storeReg d a o 4
/-- STD (R89). -/
def execStd (d a : Reg) (o : BitVec 15) (s : State) : Out := s.storeReg d a o 8

/-! ### Boundaries and fences -/

/-- PHASE (R92, R292). -/
def execPhase (d : Reg) (sc : Scope) (s : State) : Out :=
  if !s.scopeInLaunch sc then s.preciseWord .scope (.phase d sc)
  else s.withImplicit fun t =>
    match t.boundary (some sc) false false with
    | .wait u => .next u
    | .done n u => (u.upd (u.core.setPx false)).write d (BitVec.ofNat 64 (u.core.px.toNat * 2 ^ 63 + n))

/-- FENCE (R93, R292). -/
def execFence (sc : Scope) (s : State) : Out :=
  if !s.scopeInLaunch sc then s.preciseWord .scope (.fence sc)
  else s.withImplicit fun t => t.fenced sc State.pass

/-! ### Atomics -/

/-- The value an atomic leaves, if it writes (R96): operation code, width in bytes, old value, operand, compare value. -/
def amoNew (op w old b cmp : Nat) : Option Nat :=
  match op with
  | 0 => some b
  | 1 => some ((old + b) % 2 ^ (8 * w))
  | 2 => some (old &&& b)
  | 3 => some (old ||| b)
  | 4 => some (old ^^^ b)
  | 5 => some (if sval (8 * w) b < sval (8 * w) old then b else old)
  | 6 => some (if sval (8 * w) old < sval (8 * w) b then b else old)
  | 7 => some (min old b)
  | 8 => some (max old b)
  | _ => if old = cmp then some b else none

/-- What an atomic writes to its register (R96). -/
def amoResult (op w old : Nat) : W64 := if (op = 5 ∨ op = 6) ∧ w = 4 then sext 32 old else BitVec.ofNat 64 old

/-- The committed bytes of a line change outside a commit: translations derived from it are dropped (R307). -/
def State.pokeMem (s : State) (a : Nat) (bs : List Byte) : State :=
  { s.shoot (lineOf a) with mem := cellPutBytes s.mem a bs }

/-- An atomic performed in the copy that its cluster owns (R97, R98): the old value, and the state with the new value, the tag, the
scope record, LASTTAG and the path record. -/
def State.amoHere (s : State) (a op w b cmp : Nat) (sc : Scope) : Nat × State :=
  let l := lineOf a
  let g := clusterOf s.core.id
  let s1 := (s.noteLost l).holdCopy g l
  let s2 := match (s1.cluster g).entry l with
    | some e => s1.putCluster g ((s1.cluster g).putEntry { e with hold := [], last := s.clock })
    | none => s1
  let old := leVal (cellBytes s2.mem a w)
  let s3 := match amoNew op w old b cmp with
    | some n => s2.pokeMem a (leBytes w n)
    | none => s2
  let info := s3.lineInfo l
  let s4 := (s3.putLine { info with tag := info.tag + 1 }).recordScope a sc
  (old, s4.upd ({ s4.core with lasttag := (info.tag + 1).zeroExtend 64, claim := none }.addPath (lineHome l)))

/-- The last part of an atomic: its register, then under acquire order the boundary (R97). -/
def State.amoEnd (s : State) (d : Reg) (x : W64) (o : Order) : Out :=
  if o = .acq ∨ o = .ar then .next ((s.upd (s.core.setG d x)).part 3) else s.write d x

/-- An atomic on a line of another device drops the leased copy of the issuing cluster, which then fetches the line from its home
(R98, R290). -/
def State.dropOwn (s : State) (l : Nat) : State :=
  let g := clusterOf s.core.id
  { s.dropL1 g l with
    l2leases := s.l2leases.map fun x =>
      if x.1 = dieOf s.core.id ∧ x.2.line = l then (x.1, { x.2 with barred := insertNat g x.2.barred }) else x }

/-- The leased copies of a line of another device on the die of the current strand are dropped (R295). -/
def State.dropLease (s : State) (l : Nat) : State :=
  let d := dieOf s.core.id
  { (s.clusters.filter fun c => c.1 / 128 == d).foldl (fun t c => t.dropL1 c.1 l) s with
    l2leases := s.l2leases.filter fun x => x.1 ≠ d || x.2.line ≠ l }

/-- The strand asks for exclusive ownership of a line: the line, once there, is its to act on (R97, R280). -/
def State.claimLine (s : State) (l : Nat) : State :=
  let t := s.needOwn (clusterOf s.core.id) l
  t.upd ({ t.core with claim := some (l, t.core.pc) }.addPath (lineHome l))

/-- The effect of an atomic once its line can be had (R97). -/
def State.amoEffect (s : State) (d : Reg) (va : W64) (a op w b cmp : Nat) (o : Order) (sc : Scope) : Out :=
  if a < remoteBase then
    let g := clusterOf s.core.id
    match (s.cluster g).entry (lineOf a) with
    | some e =>
      if e.st == .m && e.xs == .none then
        let r := s.amoHere a op w b cmp sc
        r.2.amoEnd d (amoResult op w r.1) o
      else .next (s.claimLine (lineOf a))
    | none => .next (s.claimLine (lineOf a))
  else
    let t := s.dropOwn (lineOf a)
    t.ask .seq va (.atomic op (w == 8) (BitVec.ofNat 64 b) (BitVec.ofNat 64 cmp) sc) fun u r => match r with
      | .data bs =>
        let tag := BitVec.ofNat 64 (leVal ((bs.drop w).take 4))
        (u.upd { u.core with lasttag := tag }).amoEnd d (amoResult op w (leVal (bs.take w))) o
      | .refused c _ => u.precise (causeOf c) va
      | .status _ | .done | .ack _ | .creditFault _ _ _ _ _ => .next u

/-- An atomic (R97, R98): the checks; under release order the fence; the effect; under acquire order the boundary. DESIGN CHOICE (log 65): a
relaxed atomic holds the strand until it is performed, so that it always comes before the strand's later stores. -/
def State.atomic (s : State) (d a b : Reg) (op : Nat) (z : Bool) (o : Order) (sc : Scope) : Out :=
  let va := s.core.getG a
  let w := if z then 8 else 4
  let effect := fun (x : State) (pa : Nat) =>
    x.amoEffect d va pa op w ((x.core.getG b).toNat % 2 ^ (8 * w)) ((x.core.getG d).toNat % 2 ^ (8 * w)) o sc
  if s.core.micro = 3 then s.atBoundary (some sc) State.pass
  else if o = .rel ∨ o = .ar then s.staged va w .write sc fun u pa => u.fenced sc fun x => effect x pa
  else s.withImplicit fun t => t.addressed va w .write (some sc) true effect

/-- AMO.SWAP (R96). -/
def execAmoSwap (d a b : Reg) (z : Bool) (o : Order) (sc : Scope) (s : State) : Out := s.atomic d a b 0 z o sc
/-- AMO.ADD (R96). -/
def execAmoAdd (d a b : Reg) (z : Bool) (o : Order) (sc : Scope) (s : State) : Out := s.atomic d a b 1 z o sc
/-- AMO.AND (R96). -/
def execAmoAnd (d a b : Reg) (z : Bool) (o : Order) (sc : Scope) (s : State) : Out := s.atomic d a b 2 z o sc
/-- AMO.OR (R96). -/
def execAmoOr (d a b : Reg) (z : Bool) (o : Order) (sc : Scope) (s : State) : Out := s.atomic d a b 3 z o sc
/-- AMO.XOR (R96). -/
def execAmoXor (d a b : Reg) (z : Bool) (o : Order) (sc : Scope) (s : State) : Out := s.atomic d a b 4 z o sc
/-- AMO.MIN (R96). -/
def execAmoMin (d a b : Reg) (z : Bool) (o : Order) (sc : Scope) (s : State) : Out := s.atomic d a b 5 z o sc
/-- AMO.MAX (R96). -/
def execAmoMax (d a b : Reg) (z : Bool) (o : Order) (sc : Scope) (s : State) : Out := s.atomic d a b 6 z o sc
/-- AMO.MINN (R96). -/
def execAmoMinn (d a b : Reg) (z : Bool) (o : Order) (sc : Scope) (s : State) : Out := s.atomic d a b 7 z o sc
/-- AMO.MAXN (R96). -/
def execAmoMaxn (d a b : Reg) (z : Bool) (o : Order) (sc : Scope) (s : State) : Out := s.atomic d a b 8 z o sc
/-- CAS (R97). -/
def execCas (d a b : Reg) (z : Bool) (o : Order) (sc : Scope) (s : State) : Out := s.atomic d a b 9 z o sc

/-! ### Updates -/

/-- The updates that wait at a cluster's L1 are applied while its partial takes them; otherwise the line is asked for under the first one's
tag (R100, R303). Fuel is the number of them. -/
def State.pumpUpds (s : State) (g l : Nat) : Nat → State
  | 0 => s
  | n + 1 =>
    let cl := s.cluster g
    match cl.entry l with
    | none => s
    | some e =>
      match e.queue with
      | [] => s
      | u :: rest =>
        if e.xs ≠ .none then s
        else
          let ask := fun (t : State) => t.request g l .iu (.updReq g l u.tag)
          match e.st, e.part with
          | .u, some p =>
            if p.tag = u.tag then
              let t := s.putCluster g (cl.putEntry { e with
                part := some (p.apply (u.addr % 128) u.b.toNat), queue := rest, last := s.clock })
              (t.shoot l).pumpUpds g l n
            else ask s
          | .m, _ | .o, _ => s.evict g l
          | _, _ =>
            let t := s.holdCopy g l
            ask (t.putCluster g ((t.cluster g).putEntry { e with st := .i, hold := [] }))

/-- An update arrives at the L1 slice of its cluster (R100). -/
def State.updHere (s : State) (a : Nat) (tag : UpdTag) (b : W64) (sc : Scope) : State :=
  let l := lineOf a
  let g := clusterOf s.core.id
  let cl := s.cluster g
  let u : PendingUpd := { core := s.core.id, tag := tag, addr := a, b := b }
  let e := (cl.entry l).getD (FilterEntry.empty l .none)
  let s1 := (s.putCluster g (cl.putEntry { e with queue := e.queue ++ [u] })).recordScope a sc
  (s1.upd (s1.core.addPath (lineHome l))).pumpUpds g l (e.queue.length + 1)

/-- An update (R100). -/
def State.update (s : State) (a b : Reg) (tag : UpdTag) (sc : Scope) : Out :=
  s.withImplicit fun t =>
    let va := t.core.getG a
    t.addressed va (updBytes tag) .write (some sc) true fun u pa =>
      if pa < remoteBase then (u.updHere pa tag (u.core.getG b) sc).pass
      else (u.dropLease (lineOf pa)).ask .seq va (.upd tag (u.core.getG b) sc) fun x r => match r with
        | .refused c _ => x.precise (causeOf c) va
        | .data _ | .status _ | .done | .ack _ | .creditFault _ _ _ _ _ => x.pass

/-- UPD.ADD.i32 (R99). -/
def execUpdAddI32 (a b : Reg) (sc : Scope) (s : State) : Out := s.update a b .addI32 sc
/-- UPD.ADD.i64 (R99). -/
def execUpdAddI64 (a b : Reg) (sc : Scope) (s : State) : Out := s.update a b .addI64 sc
/-- UPD.ADD.f32 (R99). -/
def execUpdAddF32 (a b : Reg) (sc : Scope) (s : State) : Out := s.update a b .addF32 sc
/-- UPD.ADD.bf16x2 (R99). -/
def execUpdAddBf16x2 (a b : Reg) (sc : Scope) (s : State) : Out := s.update a b .addBf16x2 sc
/-- UPD.MAX.i32 (R99). -/
def execUpdMaxI32 (a b : Reg) (sc : Scope) (s : State) : Out := s.update a b .maxI32 sc
/-- UPD.MIN.i32 (R99). -/
def execUpdMinI32 (a b : Reg) (sc : Scope) (s : State) : Out := s.update a b .minI32 sc
/-- UPD.MAX.n32 (R99). -/
def execUpdMaxN32 (a b : Reg) (sc : Scope) (s : State) : Out := s.update a b .maxN32 sc
/-- UPD.MIN.n32 (R99). -/
def execUpdMinN32 (a b : Reg) (sc : Scope) (s : State) : Out := s.update a b .minN32 sc
/-- UPD.MAX.f32 (R99). -/
def execUpdMaxF32 (a b : Reg) (sc : Scope) (s : State) : Out := s.update a b .maxF32 sc
/-- UPD.MIN.f32 (R99). -/
def execUpdMinF32 (a b : Reg) (sc : Scope) (s : State) : Out := s.update a b .minF32 sc
/-- UPD.OR (R99). -/
def execUpdOr (a b : Reg) (sc : Scope) (s : State) : Out := s.update a b .or sc
/-- UPD.AND (R99). -/
def execUpdAnd (a b : Reg) (sc : Scope) (s : State) : Out := s.update a b .and sc
/-- UPD.XOR (R99). -/
def execUpdXor (a b : Reg) (sc : Scope) (s : State) : Out := s.update a b .xor sc

/-! ### WAITA -/

/-- n committed bytes of this device, merged first if in U, when nothing at the home holds the read back (R101, R284). -/
def State.committed (s : State) (a n : Nat) : Option (List Byte × State) := if s.rangeSettled a n then some (s.homeRead a n) else none

/-- The monitor of a core is released. -/
def State.dropMonitor (s : State) (c : Nat) : State :=
  let g := clusterOf c
  let cl := s.cluster g
  s.putCluster g { cl with monitors := cl.monitors.filter fun m => m.core ≠ c }

/-- The current core holds a monitor on the line of an address; a lost line is noted. -/
def State.addMonitor (s : State) (a : Nat) : State :=
  let g := clusterOf s.core.id
  let cl := s.cluster g
  (s.putCluster g { cl with monitors := cl.monitors ++ [{ core := s.core.id, line := lineOf a }] }).noteLost (lineOf a)

/-- The value awaited at an address (R102): k with it when it can be read, and with whether it comes from another device just now. A line of
another device is read through its lease. -/
def State.watched (s : State) (a w : Nat) (k : State → Nat → Bool → Out) : Out :=
  if a < remoteBase then
    match s.committed a w with
    | none => .next s
    | some (bs, t) => k t (leVal bs) false
  else
    let t := s.refill (lineOf a)
    match t.copyBytes (clusterOf t.core.id) (lineOf a) t.core.acquired with
    | some bs => k t (leVal ((bs.drop (a % 128)).take w)) false
    | none => t.ask .seq (remoteAddr (lineOf a * 128)) (.load 128 none) fun u r => match r with
      | .data bs => k (u.lease t.askedAt (lineOf a) bs) (leVal ((bs.drop (a % 128)).take w)) true
      | .refused c _ => (u.dropMonitor u.core.id).precise (causeOf c) (remoteAddr a)
      | .status _ | .done | .ack _ | .creditFault _ _ _ _ _ => .next u

/-- WAITA's compare (R102): it returns a status in a new phase, or sleeps. -/
def State.waitaTest (s : State) (d : Reg) (a w : Nat) (val : W64) (v : Nat) (asleep : State → Out) : Out :=
  if v ≠ val.toNat then (s.dropMonitor s.core.id).newPhase.write d 0
  else if s.core.canf then (s.dropMonitor s.core.id).newPhase.write d 2
  else asleep (s.upd { s.core with seq := .waita d a w val })

/-- WAITA (R102): the checks, the boundary, the monitor, the compare; a value that cannot be read at once is compared at the wake. -/
def execWaita (d a b : Reg) (z : Bool) (sc : Scope) (s : State) : Out :=
  let w := if z then 8 else 4
  let val := BitVec.ofNat 64 ((s.core.getG b).toNat % 2 ^ (8 * w))
  s.staged (s.core.getG a) w .read sc fun u pa =>
    if u.core.micro = 4 then u.atBoundary (some sc) fun x => .next ((if pa < remoteBase then x.recordScope pa sc else x).part 1)
    else if 32 ≤ (u.cluster (clusterOf u.core.id)).monitors.length then u.newPhase.write d 1
    else if remoteBase ≤ pa then u.watched pa w fun x v _ => (x.addMonitor pa).waitaTest d pa w val v .next
    else
      let x := u.addMonitor pa
      match x.committed pa w with
      | some (bs, y) => y.waitaTest d pa w val (leVal bs) .next
      | none => .next (x.upd { x.core with seq := .waita d pa w val })

/-- WAITA_WAKE (R102): the awaited value has changed, or the task is being cancelled; a copy whose lease has ended is read again. -/
def execWaitaWake (c : Nat) (s : State) : Out :=
  let t := s.focus c
  match t.core.seq with
  | .waita d a w val =>
    if a < remoteBase && (t.committed a w).isNone then .next s
    else t.watched a w fun u v fresh => u.waitaTest d a w val v fun x => if fresh then .next x else .next s
  | _ => .next s

/-! ### Hints -/

/-- The bytes of a hint's range (R103): addresses granule by granule, each with its length. -/
def hintGranules (va : W64) (n : Nat) : List (W64 × Nat) :=
  if n = 0 then []
  else
    let first := va.toNat / 4096
    let last := (va.toNat + n - 1) / 4096
    (List.range (last - first + 1)).map fun k =>
      let lo := max va.toNat ((first + k) * 4096)
      let hi := min (va.toNat + n) ((first + k + 1) * 4096)
      (BitVec.ofNat 64 lo, hi - lo)

/-- A granule of a hint is dropped and counted (R103). -/
def Core.dropHint (c : Core) : Core := { c with hintdrop := if c.hintdrop = BitVec.allOnes 64 then c.hintdrop else c.hintdrop + 1 }

/-- A form of hint acts on a line of this device (R103): PFH.l1 fetches it, RSD.keep and RSD.low mark it; PFH.l2 and RSD.clean change no
committed byte. -/
def State.hintLine (s : State) (form l : Nat) : State :=
  let g := clusterOf s.core.id
  match form with
  | 0 => match (s.cluster g).entry l with
    | some _ => s
    | none => (s.upd (s.core.addPath (lineHome l))).needLine g l
  | 2 => { s with retain := assocPut (retainKey g l) 0 s.retain }
  | 3 => { s with retain := assocPut (retainKey g l) 1 s.retain }
  | _ => s

/-- A granule of another device (R103): its home is asked for whole lines by PFH.l1, and otherwise whether the granule passes; nothing
waits. -/
def State.hintAway (s : State) (form : Nat) (va : W64) (n : Nat) : State :=
  let lo := va.toNat / 128 * 128
  let m := (va.toNat + n + 127) / 128 * 128 - lo
  let at_ := BitVec.ofNat 64 lo
  let q : HintReq := { addr := at_, n := m, since := s.clock, form := form }
  { s.upd { s.core with hints := s.core.hints ++ [q] } with
    fabric := s.fabric ++ [{ cls := 0, dev := globalDev va, addr := at_, core := s.core.id, data := []
                             op := some (if form = 0 then .load m none else .check false 1 none false) }] }

/-- A hint (R103): each granule that passes the checks is acted on line by line; one that does not is dropped and counted. -/
def State.hint (s : State) (a b : Reg) (form : Nat) : Out :=
  let n := min (s.core.getG b).toNat (2 ^ 21)
  let one := fun (t : State) (x : W64 × Nat) =>
    match t.checkPage t.core.context (clusterOf t.core.id) x.1 1 .read with
    | .error _ => t.upd t.core.dropHint
    | .ok pa => if remoteBase ≤ pa then t.hintAway form x.1 x.2 else (linesAt pa x.2).foldl (fun u l => u.hintLine form l) t
  ((hintGranules (s.core.getG a) n).foldl one s).pass

/-- PFH.l1 (R103). -/
def execPfhL1 (a b : Reg) (s : State) : Out := s.hint a b 0

/-- PFH.l2 (R103). -/
def execPfhL2 (a b : Reg) (s : State) : Out := s.hint a b 1

/-- RSD.keep (R103). -/
def execRsdKeep (a b : Reg) (s : State) : Out := s.hint a b 2

/-- RSD.low (R103). -/
def execRsdLow (a b : Reg) (s : State) : Out := s.hint a b 3

/-- RSD.clean (R103). -/
def execRsdClean (a b : Reg) (s : State) : Out := s.hint a b 4

end Sys2Proof.Machine
end

