-- ==== Sys2Proof/Machine/QueueOps.lean ====
section
/-! DEFINITION. QueueOps.lean: queue handles (R108), records in a queue (R379, R380), ENQ, WAITQ and DQ (R109..R111). -/

namespace Sys2Proof.Machine

/-! ### Records (R379, R380) -/

/-- The number of records and of completions of a queue (R377). -/
def Queue.size (q : Queue) : Nat := 2 ^ q.log2n

/-- The address of record k (R379). -/
def Queue.recAddr (q : Queue) (k : Nat) : Nat := q.ring + 128 * (k % q.size)

/-- A queue with records to take that is not resident waits for a place (R382). -/
def Queue.awaken (q : Queue) (now : Nat) : Queue :=
  if !q.resident && !q.switching && q.waitingSince.isNone && decide (q.taken < q.tail) then { q with waitingSince := some now } else q

/-- A TAIL value is applied to a ring-mode queue (R378, R383). -/
def Queue.raiseTail (q : Queue) (v : W64) (now : Nat) : Queue :=
  if q.window || q.closing || bitsOf v 63 63 = 1 then q else { q with tail := max q.tail v.toNat }.awaken now

/-- A record is inserted into a window-mode queue (R380): 0 and the new state, 1 when full, 2 when the queue takes none. -/
def State.insertRecord (s : State) (q : Nat) (bs : List Byte) : Nat × State :=
  match s.queue? q with
  | none => (2, s)
  | some x =>
    if !x.window then (2, s)
    else if x.tail - x.taken = x.size then (1, s)
    else
      let t := s.homeWrite (x.recAddr x.tail) bs
      (0, t.mapQueue q fun y => { y with tail := y.tail + 1 }.awaken t.clock)

/-- The place of the next record is free for an engine write. -/
def State.insertSettled (s : State) (q : Nat) : Bool :=
  match s.queue? q with
  | some x => s.rangeSettled (x.recAddr x.tail) 128
  | none => true

/-- Records of an armed queue that no DQ has taken (R110). -/
def Queue.waiting (q : Queue) : Nat := q.records.length + (if q.resident && !q.switching then q.tail - q.taken else 0)

/-- The engine takes the next record of a queue: its quadwords (R379). -/
def State.takeRecord (s : State) (q : Queue) : List W64 × State :=
  let r := s.homeRead (q.recAddr q.taken) 128
  (quads r.1, r.2.mapQueue q.id fun y => { y with taken := y.taken + 1, lastTaken := r.2.clock })

/-- The head record of an armed queue, with the queue engine's take of it when it is still in the ring (R111, R379). -/
def State.headRecord (s : State) (q : Queue) : Option ((Nat × List W64) × State) :=
  match q.records with
  | r :: rest => some (r, s.mapQueue q.id fun y => { y with records := rest })
  | [] =>
    if q.waiting = 0 then none
    else
      let r := s.takeRecord q
      some ((q.taken, r.1), r.2)

/-! ### Handles (R108) -/

def handleBad (h : W64) : Bool := bitsOf h 43 17 ≠ 0
def handleDev (h : W64) : Nat := bitsOf h 63 44
def handleQueue (h : W64) : Nat := bitsOf h 16 0

/-- The queue a handle names, if it is armed to the current strand's launch (R110). -/
def State.armed (s : State) (h : W64) : Option Queue :=
  if handleBad h || handleDev h ≠ s.devid then none
  else (s.queue? (handleQueue h)).filter fun q => q.boundTo.isSome && q.boundTo == s.core.launch

/-! ### ENQ (R109) -/

/-- A record for a queue of this device. -/
def State.enqHere (s : State) (d : Reg) (q : Nat) (bs : List Byte) : Out :=
  match s.queue? q with
  | none => s.write d 2
  | some x =>
    if x.ctx ≠ s.core.context then s.write d 2
    else if !s.insertSettled q then .next s
    else
      let r := s.insertRecord q bs
      r.2.write d (BitVec.ofNat 64 r.1)

/-- A record for a queue of another device, in class E. -/
def State.enqFar (s : State) (d : Reg) (h : W64) (bs : List Byte) : Out :=
  if !s.devValid then s.precise .remote h
  else match s.core.remote with
    | none =>
      .next { s.upd { s.core with
          remote := some { who := .seq, dev := handleDev h, addr := h, since := s.clock, answer := none } } with
        fabric := s.fabric ++
          [{ cls := 1, dev := handleDev h, addr := h, core := s.core.id, data := bs.zipIdx.map fun b => (b.2, b.1), op := none }] }
    | some r =>
      if r.who ≠ .seq || r.addr ≠ h then .next s
      else match r.answer with
      | none => .next s
      | some (.status n) => (s.upd { s.core with remote := none }).write d (BitVec.ofNat 64 n)
      | some (.refused _ _) => (s.upd { s.core with remote := none }).precise .remote h
      | some (.data _) | some .done | some (.ack _) | some (.creditFault _ _ _ _ _) => .next s

/-- ENQ (R109). DESIGN CHOICE (log 64): a malformed handle traps BADOPND before R87's causes for the record's address are looked at. -/
def execEnq (d a b : Reg) (s : State) : Out :=
  let h := s.core.getG b
  if handleBad h then s.precise .badopnd h
  else s.withImplicit fun t =>
    let va := t.core.getG a
    t.addressed va 128 .read none false fun u pa =>
      let send := fun (x : State) (bs : List Byte) =>
        if handleDev h = x.devid then x.enqHere d (handleQueue h) bs else x.enqFar d h bs
      u.readAs .seq pa 128 send fun x c _ => x.precise c va

/-! ### WAITQ and DQ (R110, R111) -/

/-- WAITQ (R110): it returns in a new phase. -/
def execWaitq (d a : Reg) (s : State) : Out :=
  let h := s.core.getG a
  match s.armed h with
  | none => s.precise .badopnd h
  | some q =>
    s.withImplicit fun t =>
      if t.core.micro = 0 then t.atBoundary none fun x => .next (x.part 1)
      else if q.waiting ≠ 0 then t.newPhase.write d (BitVec.ofNat 64 q.waiting)
      else if t.core.canf then t.newPhase.write d 0
      else .next (t.upd { t.core with seq := .waitq d q.id })

/-- WAITQ_WAKE (R110): the queue holds a record, or the task is being cancelled. -/
def execWaitqWake (c : Nat) (s : State) : Out :=
  let t := s.focus c
  match t.core.seq with
  | .waitq d n =>
    match t.queue? n with
    | some q =>
      if q.waiting ≠ 0 then t.newPhase.write d (BitVec.ofNat 64 q.waiting)
      else if t.core.canf then t.newPhase.write d 0
      else .next s
    | none => if t.core.canf then t.newPhase.write d 0 else .next s
  | _ => .next s

/-- DQ (R111): the head record goes into the strand's version; its completion waits for the end of the task. DESIGN CHOICE (log 64): BADOPND
for the handle comes before R87's causes for the address. -/
def execDq (d a b : Reg) (s : State) : Out :=
  let h := s.core.getG a
  match s.armed h with
  | none => s.precise .badopnd h
  | some q =>
    s.withImplicit fun t =>
      let va := t.core.getG b
      t.addressed va 128 .write none false fun u pa =>
        if q.records.isEmpty && q.waiting ≠ 0 && !u.rangeSettled (q.recAddr q.taken) 128 then .next u
        else match u.headRecord q with
          | none => u.write d 1
          | some ((k, ws), _) =>
            u.storeAt va pa (ws.flatMap fun w => leBytes 8 w.toNat) fun x =>
              let y := match x.headRecord q with | some r => r.2 | none => x
              let z := y.mapQueue q.id fun n => { n with
                dequeued := n.dequeued ++ [(k, y.core.id, y.core.taskid, rcdUtag ws)] }
              z.write d 0

end Sys2Proof.Machine
end

