-- ==== Sys2Proof/Machine/Launch.lean ====
section
/-! DEFINITION. Launch.lean: launch records and their checks (R50, R51, R256), placement (R257), gangs and instances (R258, R259), the queue
engine: records, completions, switching (R379..R383), and the ways a record reaches a window (R380, R386, R401). -/

namespace Sys2Proof.Machine

/-! ### The record (R50, R51, R256) -/

def rcdVer (r : List W64) : Nat := bitsOf (quad r 0) 7 0
def rcdNlev (r : List W64) : Nat := bitsOf (quad r 0) 15 8
def rcdClass (r : List W64) : Nat := bitsOf (quad r 0) 17 16
def rcdArmed (r : List W64) : Bool := bitsOf (quad r 0) 24 24 == 1
def rcdSlack (r : List W64) : W64 := BitVec.ofNat 64 (bitsOf (quad r 0) 63 32)
def rcdArmq (r : List W64) : Nat := bitsOf (quad r 12) 16 0

/-- A level: domain, scope code, count. -/
structure LevelDesc where
  dom : Nat
  scope : Nat
  count : Nat
  res : Bool
  deriving DecidableEq, Repr

def rcdLevel (r : List W64) (k : Nat) : LevelDesc :=
  let w := quad r (4 + k)
  { dom := bitsOf w 3 0, scope := bitsOf w 7 4, count := bitsOf w 31 8, res := bitsOf w 63 32 ≠ 0 }

/-- The levels in use, outermost first. -/
def rcdLevels (r : List W64) : List LevelDesc := (List.range (rcdNlev r)).map (rcdLevel r)

/-- The least scope of a domain (R255). -/
def leastScope (dom : Nat) : Nat :=
  match dom with
  | 0 | 1 => 0
  | 2 => 1
  | 3 | 4 => 2
  | 5 => 3
  | 6 => 4
  | _ => 5

/-- The image a record names. -/
def State.rcdImage (s : State) (ctx : Nat) (r : List W64) : Option Image :=
  (s.ctx? ctx).bind fun c => c.images.find? fun i => i.handle == quad r 1

/-- A nonzero res bit of a record. -/
def rcdRes (r : List W64) : Bool :=
  bitsOf (quad r 0) 23 18 ≠ 0 || bitsOf (quad r 0) 31 25 ≠ 0 || bitsOf (quad r 0) 63 57 ≠ 0 || bitsOf (quad r 12) 63 17 ≠ 0
    || quad r 14 ≠ 0 || quad r 15 ≠ 0

/-- The refusals of R51, with that of R390 for a queue that may not be armed. -/
def State.rcdRefused (s : State) (ctx : Nat) (r : List W64) : Bool :=
  rcdVer r ≠ 1 || rcdRes r || rcdNlev r = 0 || decide (8 < rcdNlev r)
    || ((List.range 8).any fun k => decide (rcdNlev r ≤ k) && quad r (4 + k) ≠ 0)
    || ((rcdLevels r).any fun l => l.count == 0 || decide (7 < l.dom) || decide (5 < l.scope) || l.res)
    || slackBad (rcdSlack r)
    || (match s.rcdImage ctx r with
        | none => true
        | some i => (quad r 2).toNat % 64 != 0 || decide (i.sqSize ≤ (quad r 2).toNat))
    || (rcdArmed r && (match s.queue? (rcdArmq r) with | some q => q.ctx != ctx || !q.armable | none => true))

/-- Each neighbouring pair of levels, outer first, meets a condition. -/
def levelPairs (p : LevelDesc → LevelDesc → Bool) (l : List LevelDesc) : Bool := (l.zip (l.drop 1)).all fun x => p x.1 x.2

/-- The checks of R256 but the last, in the order of their statuses; 0 when none holds. -/
def levelRefusal (ls : List LevelDesc) : Nat :=
  if !levelPairs (fun x y => decide (y.dom < x.dom)) ls then 0x10
  else if (ls.dropLast).any fun l => l.dom == 0 then 0x11
  else if ls.any fun l => decide (l.scope < leastScope l.dom) then 0x12
  else if !levelPairs (fun x y => decide (y.scope ≤ x.scope)) ls then 0x13
  else if (ls.any fun l => decide (6 ≤ l.dom) && l.count != 1) || (ls.any fun l => l.dom == 0 && decide (256 < l.count))
      || !ls.any (fun l => decide (1 ≤ l.dom)) then 0x14
  else 0

/-! ### Placement (R257) -/

/-- Cores in a unit of a placing domain. -/
def unitCores (dom : Nat) : Nat :=
  match dom with
  | 1 => 1
  | 2 => 4
  | 3 => 32
  | 4 => 512
  | _ => 1024

/-- The placing levels: size of the unit in cores, and count. A launch with none places one instance on its die. -/
def placingLevels (ls : List LevelDesc) : List (Nat × Nat) :=
  match ls.filter fun l => decide (1 ≤ l.dom) && decide (l.dom ≤ 5) with
  | [] => [(512, 1)]
  | l => l.map fun x => (unitCores x.dom, x.count)

/-- The units of one size inside a unit, each as its first core. -/
def unitsIn (lo size unit : Nat) : List Nat := (List.range (size / unit)).map fun k => lo + k * unit

/-- Every cluster that a unit contains, or that contains it, is free. -/
def unitFree (free : Nat → Bool) (lo unit : Nat) : Bool := (List.range ((unit + 3) / 4)).all fun k => free (lo / 4 + k)

/-- The core of each leaf instance, in ascending linear number; none when too few units are free. -/
def placeLevels (free : Nat → Bool) : List (Nat × Nat) → Nat → Nat → Option (List Nat)
  | [], lo, _ => some [lo]
  | (unit, n) :: rest, lo, size =>
    let u := min n (size / unit)
    let us := ((unitsIn lo size unit).filter fun k => unitFree free k unit).take u
    if us.length < u || u = 0 then none
    else
      ((List.range n).map fun j => placeLevels free rest (us.getD (j % u) 0) unit).foldl
        (fun acc x => match acc, x with | some a, some b => some (a ++ b) | _, _ => none) (some [])

/-- The cores of a record's leaf instances for a queue of a die. -/
def placement (free : Nat → Bool) (r : List W64) (die : Nat) : Option (List Nat) :=
  let ls := placingLevels (rcdLevels r)
  match ls with
  | (unit, _) :: _ => if 512 < unit then placeLevels free ls 0 1024 else placeLevels free ls (512 * die) 512
  | [] => none

/-- The distinct clusters of some cores, ascending. -/
def clustersOf (cores : List Nat) : List Nat := cores.foldl (fun acc c => insertNat (clusterOf c) acc) []

/-- The status of a record that the launch engine refuses (R51, R256); 0 when it takes it. -/
def State.rcdStatus (s : State) (ctx : Nat) (r : List W64) (die : Nat) : Nat :=
  if s.rcdRefused ctx r then 0x01
  else
    let l := levelRefusal (rcdLevels r)
    if l ≠ 0 then l
    else match placement (fun _ => true) r die, s.ctx? ctx with
      | some cores, some c => if c.limClusters < (clustersOf cores).length then 0x15 else 0
      | _, _ => 0x15

/-- A record that the launch engine takes waits for its clusters (R258). -/
def State.addLaunch (s : State) (src : LaunchSrc) (ctx : Nat) (r : List W64) : State :=
  { s with
    launches := s.launches ++
      [{ id := s.nextLaunch, src := src, ctx := ctx, rcd := r, st := .waiting, clusters := [], left := 0, err := none, preAt := 0 }]
    nextLaunch := s.nextLaunch + 1 }

/-- The die of a queue (R377). -/
def queueDie (q : Nat) : Nat := q / 65536 % 2

/-- A record of a queue goes to the launch engine: it is refused with a completion, or waits (R51, R256, R379). -/
def State.launchRecord (s : State) (q : Queue) (k : Nat) (r : List W64) : State :=
  let st := s.rcdStatus q.ctx r (queueDie q.id)
  if st ≠ 0 then s.complete q.id k st (rcdUtag r) none else s.addLaunch (.queue q.id k) q.ctx r

/-! ### The queue engine (R379, R381..R383) -/

def Queue.ready (q : Queue) : Bool := q.resident && !q.switching && decide (q.taken < q.tail)

/-- The queue whose turn it is to have a record taken on a die, and whether its count is fresh (R382). -/
def State.chosenQueue (s : State) (die : Nat) : Option (Queue × Bool) :=
  let mine := s.queues.filter fun q => queueDie q.id == die && q.resident
  let ready := mine.filter Queue.ready
  match (ready.map (·.pclass)).foldl max 0, ready with
  | _, [] => none
  | c, _ =>
    let ring := mine.filter fun q => q.pclass == c
    let p := (assoc (die * 4 + c) s.rrptr).getD ((ring.head?.map (·.id)).getD 0)
    let at_ := ring.find? fun q => q.id == p
    let later := ring.filter fun q => decide (p < q.id)
    let earlier := ring.filter fun q => decide (q.id ≤ p)
    match at_.filter fun q => q.ready && decide (q.burst < q.weight) with
    | some q => some (q, false)
    | none => ((later ++ earlier).find? Queue.ready).map fun q => (q, true)

/-- The pointer leaves a queue that has had its WEIGHT of records or has none left (R382): the next queue of the ring with records starts a
fresh count; while there is none, it is found at the next take. -/
def State.movePointer (s : State) (die c q : Nat) : State :=
  let ring := s.queues.filter fun x => queueDie x.id == die && x.resident && x.pclass == c
  match ring.find? fun x => x.id == q with
  | none => s
  | some x =>
    if x.ready && decide (x.burst < x.weight) then s
    else match ((ring.filter fun y => decide (q < y.id)) ++ ring.filter fun y => decide (y.id ≤ q)).find? Queue.ready with
      | some y => { s.mapQueue y.id fun z => { z with burst := 0 } with rrptr := assocPut (die * 4 + c) y.id s.rrptr }
      | none => s.mapQueue q fun z => { z with burst := z.weight }

/-- RECORD_TAKE (R379): the chosen queue's next record is held for DQ or launched. -/
def execRecordTake (q : Nat) (s : State) : Out :=
  match s.chosenQueue (queueDie q) with
  | none => .next s
  | some (x, fresh) =>
    if x.id ≠ q || !s.rangeSettled (x.recAddr x.taken) 128 then .next s
    else
      let r := s.takeRecord x
      let t := r.2.mapQueue q fun y => { y with burst := if fresh then 1 else y.burst + 1 }
      let u := { t with rrptr := assocPut (queueDie q * 4 + x.pclass) q t.rrptr }.movePointer (queueDie q) x.pclass q
      if x.boundTo.isSome then .next (u.mapQueue q fun y => { y with records := y.records ++ [(x.taken, r.1)] })
      else .next (u.launchRecord x x.taken r.1)

/-- The completion that queue order lets through next (R381). -/
def Queue.nextComp (q : Queue) : Option Completion :=
  match q.comps.find? fun c => c.recno.isNone && decide (c.after ≤ q.recDone) with
  | some c => some c
  | none => q.comps.find? fun c => c.recno == some q.recDone

/-- The 64 bytes of completion j (R381). -/
def compBytes (q : Queue) (c : Completion) (j : Nat) : List Byte :=
  leBytes 8 ((1 - j / 2 ^ q.log2n % 2) + c.status * 2 ^ 8) ++ leBytes 8 0
    ++ leBytes 8 (match c.recno with | some k => k | none => 2 ^ 64 - 1) ++ leBytes 8 c.utag.toNat ++ reportBytes c.report

/-- A destroyed queue is gone with the last completion it owes (R390). -/
def Queue.finished (q : Queue) : Bool := q.closing && q.comps.isEmpty && q.recDone == q.taken

/-- LAUNCH_COMPLETE (R381): the next completion of a queue is written, and the vector is raised. -/
def execLaunchComplete (q : Nat) (s : State) : Out :=
  match s.queues.find? fun x => x.id == q with
  | none => .next s
  | some x =>
    let a := x.cring + 64 * (x.done % x.size)
    match x.nextComp with
    | none => .next s
    | some c =>
      if !s.rangeSettled a 64 then .next s
      else
        let t := (s.homeWrite a (compBytes x c x.done)).mapQueue q fun y => { y with
          comps := y.comps.erase c, done := y.done + 1
          recDone := if c.recno.isSome then y.recDone + 1 else y.recDone
          errFlag := y.errFlag || c.status != 0
          wbDone := if (y.done + 1) % 64 = 0 then y.done + 1 else y.wbDone }
        .next { t with msix := if x.vecOn then x.vec :: t.msix else t.msix, queues := t.queues.filter fun y => !y.finished }

/-- Places of a die that are taken or being taken (R377). -/
def State.residents (s : State) (die : Nat) : Nat :=
  (s.queues.filter fun q => queueDie q.id == die && (q.resident || q.switching)).length

/-- x goes before y among waiting queues: the higher class, then the longer wait (R382). -/
def Queue.beats (x y : Queue) : Bool :=
  decide (y.pclass < x.pclass) || (x.pclass == y.pclass && decide (x.waitingSince.getD 0 < y.waitingSince.getD 0))

/-- QUEUE_SWITCH_IN (R382): a waiting queue begins to switch in, with SW 1 and its counts written back; a queue switching in becomes
resident, with the descriptor's TAIL (R383). -/
def execQueueSwitchIn (q : Nat) (s : State) : Out :=
  match s.queue? q with
  | none => .next s
  | some x =>
    if x.resident then .next s
    else if x.switching then .next (s.mapQueue q fun y => { y with switching := false, resident := true, waitingSince := none })
    else if x.waitingSince.isNone || 256 ≤ s.residents (queueDie q)
        || s.queues.any (fun y => queueDie y.id == queueDie q && y.waitingSince.isSome && !y.switching && y.beats x) then
      .next s
    else .next (s.mapQueue q fun y => { y with switching := true, wbDone := y.done, wbTaken := y.taken })

/-- A resident queue that may be switched out (R382). -/
def Queue.idle (q : Queue) : Bool := q.resident && !q.switching && q.taken == q.tail && q.boundTo.isNone

/-- QUEUE_SWITCH_OUT (R382): with no free place and a queue waiting, the idle queue taken from least recently begins to switch out; a
queue switching out leaves, and waits for a place again if it has records (R383). -/
def execQueueSwitchOut (q : Nat) (s : State) : Out :=
  match s.queue? q with
  | none => .next s
  | some x =>
    if x.resident && x.switching then
      .next (s.mapQueue q fun y => { y with switching := false, resident := false }.awaken s.clock)
    else if !x.idle || s.residents (queueDie q) < 256
        || !s.queues.any (fun y => queueDie y.id == queueDie q && y.waitingSince.isSome && !y.switching)
        || s.queues.any (fun y => queueDie y.id == queueDie q && y.idle && decide (y.lastTaken < x.lastTaken)) then
      .next s
    else .next (s.mapQueue q fun y => { y with switching := true, wbDone := y.done, wbTaken := y.taken })

/-- TAIL_WRITE (R378, R383). -/
def execTailWrite (q : Nat) (v : W64) (s : State) : Out := .next (s.mapQueue q fun x => x.raiseTail v s.clock)

/-! ### Records from outside (R380, R386, R401) -/

/-- The BODY of a KIND 2 entry for a dropped record (R401): event code, queue, source, its device, UTAG. -/
def dropBody (code q src dev utag : Nat) : Nat := code + q % 2 ^ 17 * 2 ^ 8 + src * 2 ^ 40 + dev % 2 ^ 20 * 2 ^ 44 + utag * 2 ^ 64

/-- UTAG of arriving bytes, when its bytes 104..111 arrived (R401). -/
def arrivedUtag (off : Nat) (data : List Byte) : Nat :=
  if off ≤ 104 ∧ 112 ≤ off + data.length then leVal ((data.drop (104 - off)).take 8) else 0

/-- A record arrives at a window from the host or the fabric (R380): inserted, or refused with QFULL, or dropped and journaled. -/
def State.windowRecord (s : State) (q off : Nat) (data : List Byte) (src dev : Nat) : State :=
  let utag := arrivedUtag off data
  match s.queue? q with
  | none => if off ≠ 0 || data.length ≠ 128 then s.journal 2 0 0 (dropBody 2 q src dev utag) none else s
  | some x =>
    if off ≠ 0 || data.length ≠ 128 then s.journal 2 x.ctx 0 (dropBody 2 q src dev utag) none
    else if !x.window then s.journal 2 x.ctx 0 (dropBody 3 q src dev utag) none
    else
      let r := s.insertRecord q data
      if r.1 = 1 then
        s.mapQueue q fun y => { y with comps := y.comps ++
          [{ recno := none, after := y.tail, status := 3, utag := BitVec.ofNat 64 utag, report := none }] }
      else r.2

/-- ENQUEUE_WINDOW_WRITE (R380): a host write to the window of a queue. -/
def execEnqueueWindowWrite (q off : Nat) (data : List Byte) (s : State) : Out :=
  if !s.pcieTrained || !s.insertSettled q then .next s else .next (s.windowRecord q off data 0 0)

/-- A source device lies in one of a queue's ranges (R386). -/
def Queue.admits (q : Queue) (src : Nat) : Bool := q.sources.any fun r => decide (r.1 ≤ src) && decide (src ≤ r.2)

/-- FABRIC_RECORD (R386): a record from another device, an ENQ's with its answer in class C, or a fabric write. -/
def execFabricRecord (src q off : Nat) (data : List Byte) (enq : Bool) (s : State) : Out :=
  if !s.insertSettled q then .next s
  else
    let answer := fun (n : Nat) (t : State) =>
      if enq then { t with fabric := t.fabric ++
        [{ cls := 3, dev := src, addr := BitVec.ofNat 64 q, core := 0, data := [], op := none, reply := some (.status n) }] } else t
    match s.queue? q with
    | none => if enq then .next (answer 2 s) else .next (s.journal 2 0 0 (dropBody 4 q 1 src (arrivedUtag off data)) none)
    | some x =>
      if !x.window || !x.admits src then
        if enq then .next (answer 2 s)
        else .next (s.journal 2 x.ctx 0
          (dropBody (if !x.window then 3 else 4) q 1 src (arrivedUtag off data)) none)
      else if enq then
        let r := s.insertRecord q data
        .next (answer r.1 r.2)
      else .next (s.windowRecord q off data 1 src)

/-! ### Gangs (R258, R382) -/

/-- A cluster is free of launches. -/
def State.clusterFree (s : State) (g : Nat) : Bool :=
  !s.launches.any fun l => (l.st == .running || l.st == .preempting) && l.clusters.contains g

/-- The die of a launch. -/
def Launch.die (l : Launch) : Nat :=
  match l.src with
  | .queue q _ => queueDie q
  | .barker d _ _ => d

/-- The strand of a context on a core as it is when the context is created (R44, R157, R316, R390). -/
def State.freshStrand (s : State) (old : Core) (ctx : Context) : Core :=
  let c := Core.reset old.id
  let lmode := bitsOf ctx.rngcfg 0 0 == 1
  let car := if dieOf old.id = 0 then s.car0 else s.car1
  { c with
    ctx := some ctx.id, tvec := ctx.tvec, rngcfg := ctx.rngcfg, xrbase := ctx.xrbase
    carbase := if car.holder = some ctx.id then car.granted else 0
    gens := #v[genSeed lmode ctx.id old.id 0, genSeed lmode ctx.id old.id 1, genSeed lmode ctx.id old.id 2, genSeed lmode ctx.id old.id 3]
    debugger := old.debugger, breakOn := old.breakOn }

/-- A core takes the strand of a context; the strand it had is put aside (R44). -/
def State.bindStrand (s : State) (c : Nat) (ctx : Context) : State :=
  let x := s.coreAt c
  if x.ctx = some ctx.id then s
  else
    let aside := match x.ctx with
      | some k => assocPut (k * 1024 + c) x s.strands
      | none => s.strands
    let key := ctx.id * 1024 + c
    let y := match assoc key aside with
      | some z => { z with debugger := x.debugger, breakOn := x.breakOn }
      | none => s.freshStrand x ctx
    { s.putCore y with strands := assocDrop key aside }

/-- The linear numbers of the instances placed on a core. -/
def todoOf (cores : List Nat) (c : Nat) : List Nat := (cores.zipIdx.filter fun p => p.1 == c).map fun p => p.2

/-- Every strand of a launch starts together on the cores placed (R258). -/
def State.startGang (s : State) (l : Launch) (ctx : Context) (cores : List Nat) : State :=
  let distinct := cores.foldl (fun acc c => insertNat c acc) []
  let s1 := distinct.foldl (fun t c =>
    let u := t.bindStrand c ctx
    u.putCore { u.coreAt c with launch := some l.id, todo := todoOf cores c, seq := .idle }) s
  let s2 := s1.mapLaunch l.id fun x => { x with st := .running, clusters := clustersOf cores, left := cores.length }
  if rcdArmed l.rcd then s2.mapQueue (rcdArmq l.rcd) fun q => { q with boundTo := some l.id } else s2

/-- A cluster lies where a record of a queue of a die may be placed (R257). -/
def mayHold (r : List W64) (die g : Nat) : Bool :=
  match placingLevels (rcdLevels r) with
  | (unit, _) :: _ => decide (512 < unit) || g / 128 == die
  | [] => false

/-- The launch that is pre-empted next for a launch (R382): of those that hold clusters where it may be placed, of the lowest class below
its own, the youngest that runs. -/
def State.victim (s : State) (w : Launch) : Option Launch :=
  (s.launches.filter fun l =>
    l.st == .running && decide (rcdClass l.rcd < rcdClass w.rcd) && l.clusters.any (mayHold w.rcd w.die)).foldl (fun best l => match best with
    | none => some l
    | some b =>
      if rcdClass l.rcd < rcdClass b.rcd || (rcdClass l.rcd == rcdClass b.rcd && decide (b.id < l.id)) then some l else best) none

/-- A pre-empted launch of the same class that must resume first (R382). -/
def State.resumesFirst (s : State) (l : Launch) : Bool :=
  s.launches.any fun p => p.st == .preempted && !p.shape && rcdClass p.rcd == rcdClass l.rcd && decide (p.preAt ≤ l.id)

/-- INSTANCE_START's linear number cut into the indices of the levels (R259): counts of the levels, outermost first. -/
def mixedDigits : List Nat → Nat → List Nat
  | [], _ => []
  | n :: rest, v =>
    let under := rest.foldl (· * ·) 1
    (v / under % max 1 n) :: mixedDigits rest (v % under)

/-- The registers at the start of an instance (R259). -/
def instanceRegs (l : Launch) (ctx : Context) (core linear : Nat) : Vector W64 32 :=
  let ls := rcdLevels l.rcd
  let digits := mixedDigits ((ls.filter fun x => decide (1 ≤ x.dom)).map (·.count)) linear
  let idx := fun (k : Nat) => match ls[k]? with
    | some x => if x.dom = 0 then x.count else digits.getD k 0
    | none => 0
  Vector.ofFn fun (r : Fin 32) =>
    if r.val = 2 then BitVec.ofNat 64 (0xFD0000000000 + (core + 1) * ctx.stackBytes)
    else if r.val = 3 then quad l.rcd 3
    else if r.val = 4 then BitVec.ofNat 64 linear
    else if 5 ≤ r.val ∧ r.val < 5 + ls.length then BitVec.ofNat 64 (idx (r.val - 5))
    else 0

/-- The number of the next instance body of a die (R113). -/
def nextBody (n : Nat) : Nat := if n + 1 < 2 ^ 20 then n + 1 else 1

/-- INSTANCE_START (R259): an idle strand of a running launch begins its next instance. -/
def execInstanceStart (c : Nat) (s : State) : Out :=
  let t := s.focus c
  match t.core.seq, t.core.todo, t.core.launch.bind t.launch? with
  | .idle, n :: rest, some l =>
    match t.ctx? l.ctx, t.rcdImage l.ctx l.rcd with
    | some ctx, some i =>
      if l.st ≠ .running then .next s
      else
        let k := dieOf c
        let no := nextBody (t.die k).bodyNo
        let id := taskId k 0 no
        let u := t.putDie k { t.die k with bodyNo := no }
        .next (u.upd { (u.core.setCanf false).setPx false with
          g := instanceRegs l ctx c n, l := Vector.replicate 16 0, loops := [], slack := slackFields (rcdSlack l.rcd)
          pc := i.sqAddr + quad l.rcd 2, seq := .run, reach := .along, micro := 0, pickRet := none
          taskid := id, treeid := 0, ring := none, held := [], loads := []
          body := some { launch := l.id, linear := n, taskid := id }, todo := rest })
    | _, _ => .next s
  | _, _, _ => .next s

end Sys2Proof.Machine
end

