-- ==== Sys2Proof/Machine/Barrier.lean ====
section
/-! DEFINITION. Barrier.lean: barrier objects: credits (R104), the barrier instructions (R105, R106). -/

namespace Sys2Proof.Machine

/-- The fields of a barrier object (R104). -/
structure Bar where
  expect : Nat
  arrived : Nat
  res : Nat
  err : Bool
  turn : Bool
  deriving DecidableEq, Repr

def barOf (v : Nat) : Bar :=
  { expect := v / 2 ^ 80 % 2 ^ 48, arrived := v / 2 ^ 32 % 2 ^ 48, res := v / 4 % 2 ^ 30
    err := v / 2 % 2 == 1, turn := v % 2 == 1 }

def Bar.value (b : Bar) : Nat := b.turn.toNat + b.err.toNat * 2 + b.res * 4 + b.arrived * 2 ^ 32 + b.expect * 2 ^ 80

/-- credit(c, e) (R104). -/
def Bar.credit (b : Bar) (c : Nat) (e : Bool) : Bar :=
  if e then { b with err := true, arrived := 0, turn := !b.turn }
  else
    let x0 := b.arrived + c
    let full := b.expect ≠ 0 && decide (b.expect ≤ x0)
    let x1 := if full then x0 - b.expect else x0
    let past := full && decide (b.expect ≤ x1)
    let x2 := if past then 0 else x1
    let big := decide (2 ^ 48 - 1 < x2)
    { b with
      arrived := if big then 2 ^ 48 - 1 else x2
      err := b.err || past || big
      turn := if full then !b.turn else b.turn }

/-- The barrier object at a cell address of this device, merged first if in U. -/
def State.barAt (s : State) (a : Nat) : Option (Bar × State) := (s.committed a 16).map fun r => (barOf (leVal r.1), r.2)

/-- Store a barrier object at its home. -/
def State.putBar (s : State) (a : Nat) (b : Bar) : State := s.homeWrite a (leBytes 16 b.value)

/-- A malformed object faults the crediting task, and stays as it is (R104). -/
def State.barFault (s : State) (va : W64) (core ctx : Nat) (task : W32) (word : W64) (engine : Nat) : State :=
  s.chargeLate core ctx (simpleReport .barcredit va word task engine core)

/-- A credit made at the object's home. -/
def State.creditAt (s : State) (a : Nat) (va : W64) (b : Bar) (count : Nat) (err : Bool) (core ctx : Nat) (task : W32) (word : W64)
    (engine : Nat) : State :=
  if b.res ≠ 0 then s.barFault va core ctx task word engine else s.putBar a (b.credit count err)

/-- BARRIER_CREDIT (R104): the k-th credit on its way is performed, or sent to the device of its object. -/
def execBarrierCredit (k : Nat) (s : State) : Out :=
  match s.credits[k]? with
  | none => .next s
  | some c =>
    let rest := { s with credits := s.credits.eraseIdx k }
    if remoteBase ≤ c.addr then
      .next { rest with fabric := rest.fabric ++
        [{ cls := 0, dev := remoteDev c.addr, addr := remoteAddr c.addr, core := c.core, data := []
           op := some (.barrier (if c.err then 3 else 2) c.count none), credit := some c }] }
    else match rest.barAt c.addr with
      | none => .next s
      | some (b, t) => .next (t.creditAt c.addr c.va b c.count c.err c.core c.ctx c.task c.word c.engine)

/-! ### The instructions (R105) -/

/-- An action on an object: here with its bytes once its home can act, or at the home on another device, which adds a 17th byte to those
of a malformed object (R104). -/
def State.barAct (s : State) (va : W64) (a : Nat) (op : RemoteOp) (here : State → Bar → Out) (far : State → List Byte → Out) : Out :=
  if a < remoteBase then
    match s.barAt a with
    | none => .next s
    | some (b, t) => here t b
  else s.ask .seq va op fun t r => match r with
    | .refused c v => t.precise (causeOf c) (if causeOf c = .badopnd then v else va)
    | .data bs =>
      if bs.length = 17 then
        far (t.charge t.core.id (simpleReport .barcredit va t.core.pc t.core.taskid 7 t.core.id)) bs
      else far t bs
    | .status _ | .done | .ack _ | .creditFault _ _ _ _ _ => far t []

/-- BARINIT (R105). -/
def execBarinit (a b : Reg) (sc : Scope) (s : State) : Out :=
  let v := s.core.getG b
  if bitsOf v 63 48 ≠ 0 then s.precise .badopnd v
  else s.withImplicit fun t =>
    let va := t.core.getG a
    t.addressed va 16 .write (some sc) false fun u pa =>
      u.barAct va pa (.barrier 0 v.toNat (some sc))
        (fun x _ =>
          ((x.putBar pa { expect := v.toNat, arrived := 0, res := 0, err := false, turn := false }).recordScope pa sc).pass)
        fun x _ => x.pass

/-- BAREXP (R105). -/
def execBarexp (a b : Reg) (sc : Scope) (s : State) : Out :=
  s.withImplicit fun t =>
    let va := t.core.getG a
    let v := t.core.getG b
    t.addressed va 16 .write (some sc) true fun u pa =>
      u.barAct va pa (.barrier 1 v.toNat (some sc))
        (fun y o =>
          let x := y.noteLost (lineOf pa)
          if 2 ^ 48 - 1 < o.expect + v.toNat then x.precise .badopnd v
          else
            ((x.creditAt pa va { o with expect := o.expect + v.toNat } 0 false x.core.id x.core.context x.core.taskid x.core.pc 7).recordScope
              pa sc).pass)
        fun x _ => x.pass

/-- BARARR (R105). -/
def execBararr (d a b : Reg) (sc : Scope) (s : State) : Out :=
  let v := s.core.getG b
  if bitsOf v 63 48 ≠ 0 then s.precise .badopnd v
  else
    let va := s.core.getG a
    s.staged va 16 .write sc fun u pa =>
      u.fenced sc fun y =>
        y.barAct va pa (.barrier 2 v.toNat (some sc))
          (fun z o =>
            let x := (z.noteLost (lineOf pa)).upd ((z.noteLost (lineOf pa)).core.addPath (lineHome (lineOf pa)))
            ((x.creditAt pa va o v.toNat false x.core.id x.core.context x.core.taskid x.core.pc 7).recordScope pa sc).write d
              (BitVec.ofNat 64 o.turn.toNat))
          fun x bs => x.write d (BitVec.ofNat 64 (barOf (leVal bs)).turn.toNat)

/-- What BARWAIT does with the object it sees (R105): it returns in a new phase, with ERR at the awaited turn, with 2 when the task is being
cancelled, and sleeps otherwise. -/
def State.barwaitTest (s : State) (d : Reg) (a : Nat) (turn : Bool) (o : Bar) (asleep : State → Out) : Out :=
  if o.turn = turn then s.newPhase.acquire.write d (BitVec.ofNat 64 o.err.toNat)
  else if s.core.canf then s.newPhase.write d 2
  else asleep (s.upd { s.core with seq := .barwait d a turn })

/-- BARWAIT (R105): the checks, the boundary, then the object. -/
def execBarwait (d a b : Reg) (sc : Scope) (s : State) : Out :=
  let va := s.core.getG a
  let turn := bitsOf (s.core.getG b) 0 0 == 1
  s.staged va 16 .read sc fun u pa =>
    if u.core.micro = 4 then u.atBoundary (some sc) fun x => .next ((if pa < remoteBase then x.recordScope pa sc else x).part 1)
    else u.barAct va pa (.load 16 (some sc)) (fun x o => (x.noteLost (lineOf pa)).barwaitTest d pa turn o .next)
      fun x bs => x.barwaitTest d pa turn (barOf (leVal bs)) .next

/-- BARWAIT_WAKE (R106): the object has the awaited turn, or the task is being cancelled. -/
def execBarwaitWake (c : Nat) (s : State) : Out :=
  let t := s.focus c
  match t.core.seq with
  | .barwait d a turn =>
    if a < remoteBase then
      match t.barAt a with
      | none => .next s
      | some (o, u) => u.barwaitTest d a turn o fun _ => .next s
    else if t.core.canf then t.newPhase.write d 2
    else t.barAct (remoteAddr a) a (.load 16 none) (fun _ _ => .next s)
      fun x bs => x.barwaitTest d a turn (barOf (leVal bs)) .next
  | _ => .next s

/-- BARTEST (R105): at the turn named, a boundary and 1 with ERR above it; otherwise 0. -/
def execBartest (d a b : Reg) (sc : Scope) (s : State) : Out :=
  if s.core.micro = 1 ∨ s.core.micro = 2 then
    s.atBoundary (some sc) fun t => t.write d (BitVec.ofNat 64 (1 + 2 * (s.core.micro - 1)))
  else s.withImplicit fun t =>
    let va := t.core.getG a
    let turn := bitsOf (t.core.getG b) 0 0 == 1
    let test := fun (x : State) (o : Bar) => if o.turn = turn then .next (x.acquire.part (1 + o.err.toNat)) else x.write d 0
    t.addressed va 16 .read (some sc) true fun u pa =>
      u.barAct va pa (.load 16 (some sc)) (fun x o => test ((x.noteLost (lineOf pa)).recordScope pa sc) o) fun x bs => test x (barOf (leVal bs))

end Sys2Proof.Machine
end

