-- ==== Sys2Proof/Machine/Coherence.lean ====
section
/-! DEFINITION. Coherence.lean: what happens on the die by itself: stores, markers, flips and notices of commits (R280, R281, R284, R295, R313),
requests, probes and replies of lines (R300..R311), shootdowns (R307), leases (R293). -/

namespace Sys2Proof.Machine

/-! ### Stores and markers (R280, R281, R284, R313) -/

/-- STORE_ARRIVAL (R284): the k-th plain store of core c on its way reaches its home slice, behind the earlier ones for that slice. -/
def execStoreArrival (c k : Nat) (s : State) : Out :=
  let t := s.focus c
  match t.core.stores[k]? with
  | none => .next s
  | some x =>
    if (t.core.stores.take k).any fun y => y.1 == x.1 then .next s
    else .next (t.upd { t.core with stores := t.core.stores.eraseIdx k })

/-- The lines of a version whose home is a slice. -/
def versionLines (v : List Host.Cell) (dest : Nat) : List Nat := (linesOf v).filter fun l => !remoteLine l && lineHome l == dest

/-- The chain or bridge that a message from a core takes to a home slice (R12..R15, R312, R313): 0 the strip's switch, 1 the east chain, 2 the
west chain, 3 a UCIe bridge. -/
def pathOf (core dest : Nat) : Nat :=
  if dieOf core ≠ dest / 16 then 3
  else
    let a := stripOfCluster (clusterOf core)
    let b := stripOfSlice dest
    if a = b then 0 else if a < b then 1 else 2

/-- A message of class Q of a core's cluster is on its way to a home (R308): a marker does not pass it. -/
def State.behindQ (s : State) (core dest : Nat) : Bool :=
  s.msgs.any fun m => match m with
    | .readReq g l | .grantReq g l | .updReq g l _ | .writeBack g l | .parked g l _ => g == clusterOf core && lineHome l == dest
    | _ => false

/-- A grant request for a line waits at its home (R280). -/
def State.waitsAtHome (s : State) (l : Nat) : Bool := s.homeQ.any fun m => match m with | .grantReq _ k => k == l | _ => false

/-- The slice enters CMT for a line of a core's version: an owner is probed (R284, R303). -/
def State.enterCmt (s : State) (c l : Nat) : State :=
  let d := s.dirLine l
  let d1 := { d with commits := insertNat c d.commits, hs := .cmt }
  if d.hs = .own then s.sendProbes d1 [d.owner] .invalidate none else s.putDir d1

/-- COMMIT_MARKER (R284): the marker of core c's commit reaches a slice, behind its stores. A line in U is merged first (R101), and a
request that came earlier is served first (R280). -/
def execCommitMarker (c dest : Nat) (s : State) : Out :=
  let t := s.focus c
  match t.core.commit with
  | none => .next s
  | some r =>
    let ls := versionLines t.core.version dest
    let stuck := fun (l : Nat) =>
      let d := t.dirLine l
      !d.await.isEmpty || d.hs == .mrg || t.waitsAtHome l
        || t.msgs.any fun m => match m with | .parked _ k _ | .reply _ k _ _ => k == l | _ => false
    if r.number.isSome || !r.dests.contains dest || r.marked.contains dest || t.core.stores.any (fun x => x.1 == dest)
        || t.behindQ t.core.id dest || ls.any stuck then
      .next s
    else if ls.any fun l => (t.region (l / 4)).evicting || !t.hasRoom (l / 4) then
      match ls.find? fun l => !t.hasRoom (l / 4) && !(t.setRegions (l / 4)).any fun x => (t.region x).evicting with
      | some l => .next ((t.startEvict (l / 4)).serveWaiting l)
      | none => .next s
    else if ls.any fun l => (t.dirLine l).hs == .upd then
      .next ((ls.filter fun l => (t.dirLine l).hs == .upd).foldl (fun u l => u.startMerge (u.dirLine l)) t)
    else
      let u := ls.foldl (fun x l => x.enterCmt c l) t
      .next (u.upd { u.core with commit := some { r with marked := insertNat dest r.marked } })

/-- FENCE_MARKER (R281, R313): the marker of core c's fence reaches a destination behind the strand's earlier messages. -/
def execFenceMarker (c dest : Nat) (s : State) : Out :=
  let t := s.focus c
  match t.core.fence with
  | none => .next s
  | some f =>
    if !f.dests.contains dest || f.marked.contains dest || t.core.stores.any (fun x => x.1 == dest) || t.behindQ t.core.id dest then
      .next s
    else .next (t.upd { t.core with fence := some { f with marked := insertNat dest f.marked } })

/-- MARKER_ACK (R284, R313): a slice that a marker has reached acknowledges it, once the owners of the version's lines have given
them up. -/
def execMarkerAck (c dest : Nat) (s : State) : Out :=
  let t := s.focus c
  let fence : Out := match t.core.fence with
    | some f =>
      if f.marked.contains dest && !f.acked.contains dest then
        .next (t.upd { t.core with fence := some { f with acked := insertNat dest f.acked } })
      else .next s
    | none => .next s
  match t.core.commit with
  | some r =>
    if r.number.isNone && r.marked.contains dest && !r.acked.contains dest
        && (versionLines t.core.version dest).all (fun l => (t.dirLine l).await.isEmpty) then
      .next (t.upd { t.core with commit := some { r with acked := insertNat dest r.acked } })
    else fence
  | none => fence

/-! ### Flips (R92, R284, R295) -/

/-- The commit number after n: 48 bits, 0 never assigned (R283). -/
def nextCommit (n : Nat) : Nat := if n = 2 ^ 48 - 1 then 1 else n + 1

/-- A version writes every byte of a line. -/
def writesLine (v : List Host.Cell) (l : Nat) : Bool := (List.range 128).all fun k => (verGet v (l * 128 + k)).isSome

/-- The cells of a version in memory, and the TAIL values it stores to doorbells (R373). -/
def versionMem (v : List Host.Cell) : List Host.Cell := v.filter fun c => c.1 < physTop
def versionTails (v : List Host.Cell) : List (Nat × W64) :=
  (v.filter fun c => decide (physTop ≤ c.1 ∧ c.1 < remoteBase) && c.1 % 64 == 0).filterMap fun c =>
    (doorbellQueue c.1).map fun q =>
      (q, BitVec.ofNat 64 (leVal ((List.range 8).map fun k => (verGet v (c.1 + k)).getD 0)))

/-- The devices a version holds bytes of, ascending, and its bytes for one of them. -/
def versionDevs (v : List Host.Cell) : List Nat :=
  v.foldl (fun l c => if remoteBase ≤ c.1 then insertNat (remoteDev c.1) l else l) []
def versionFor (v : List Host.Cell) (dev : Nat) : List Host.Cell := v.filter fun c => decide (remoteBase ≤ c.1) && remoteDev c.1 == dev

/-- The bytes of a version become the committed value of its lines: full lines lose their scope record and their mark in the lost-line
table (R92, R283, R292, R370). -/
def State.applyVersion (s : State) (v : List Host.Cell) : State :=
  let full := (linesOf (versionMem v)).filter (writesLine v)
  { s with
    mem := (versionMem v).foldl (fun m c => cellPut m c.1 c.2) s.mem
    lines := s.lines.map fun x => if full.contains x.line then { x with scope := none } else x
    lost := s.lost.filter fun l => !full.contains l
    queues := (versionTails v).foldl (fun qs t => qs.map fun q => if q.id = t.1 then q.raiseTail t.2 s.clock else q) s.queues }

/-- COMMIT_FLIP (R284): every acknowledgement has come; the commit sequencer numbers the version of core c, which is committed. The bytes
for other devices leave in class W (R295). -/
def execCommitFlip (c : Nat) (s : State) : Out :=
  let t := s.focus c
  match t.core.commit with
  | none => .next s
  | some r =>
    if r.number.isSome || !r.dests.all r.acked.contains then .next s
    else
      let v := t.core.version
      let n := nextCommit t.commitNo
      let devs := versionDevs v
      let t1 := t.applyVersion v
      let t2 := ((linesOf v).filter remoteLine).foldl (fun u l => u.dropLease l) t1
      let t3 := { t2 with
        commitNo := n
        notices := t2.notices ++ r.dests.map fun d => ({ core := c, slice := d, lines := versionLines v d } : Notice)
        fabric := t2.fabric ++ devs.map fun d =>
          ({ cls := 2, dev := d, addr := 0, core := c, data := versionFor v d, op := none } : FabricMsg) }
      let used := (versionDests v).map (pathOf c)
      .next (t3.upd { t3.core with
        version := [], versionId := none, path := t3.core.path.filter fun d => !used.contains (pathOf c d)
        acks := t3.core.acks ++ devs.map fun d => (n, d)
        commit := some { r with number := some n } })

/-- A line of a flip at its slice: the copies go, snapshots moving to the hold buffers; what waited is served (R284, R286, R307). -/
def State.noticeLine (s : State) (c l : Nat) : State :=
  let s1 := (s.holders l).foldl (fun t g => match (t.cluster g).entry l with
    | some e =>
      if e.xs == .none then t.dropCopy g l
      else if e.xs == .sm then
        let t1 := t.holdCopy g l
        t1.putCluster g ((t1.cluster g).putEntry { e with st := .i, xs := .im, hold := [] })
      else t
    | none => t) s
  let d := s1.dirLine l
  let rest := d.commits.filter (· ≠ c)
  (s1.putDir { d with commits := rest, hs := if rest.isEmpty then .unc else .cmt }).serveWaiting l

/-- A shootdown of a region is on its way to the translation caches of a die (R307). -/
def State.shootingDown (s : State) (die region : Nat) : Bool :=
  s.msgs.any fun m => match m with | .shootdown d r => d == die && r == region | _ => false

/-- FLIP_NOTICE (R284, R297, R307): a slice learns of a flip of core c. Translation caches that used the regions of its lines drop what they
derived from them before the notice completes. -/
def execFlipNotice (c slice : Nat) (s : State) : Out :=
  match s.notices.find? fun n => n.core == c && n.slice == slice with
  | none => .next s
  | some n =>
    let regions := n.lines.foldl (fun l x => insertNat (x / 4) l) []
    let due := regions.flatMap fun r => (s.region r).walkers.map fun d => (d, r)
    let fresh := due.filter fun x => !s.shootingDown x.1 x.2
    if due.isEmpty then .next (n.lines.foldl (fun t l => t.noticeLine c l) { s with notices := s.notices.erase n })
    else if fresh.isEmpty then .next s
    else .next { s with msgs := s.msgs ++ fresh.map fun x => Msg.shootdown x.1 x.2 }

/-! ### Messages of the protocol (R303, R308..R311) -/

/-- Class and direction of a message: Q, P, D to a cluster, D to a home; and its cluster. -/
def Msg.route : Msg → Nat × Nat
  | .readReq g _ | .grantReq g _ | .updReq g _ _ | .writeBack g _ | .parked g _ _ => (0, g)
  | .probe g _ _ _ => (1, g)
  | .reply g _ _ _ | .wbAck g _ => (2, g)
  | .answer g _ _ _ _ => (3, g)
  | .shootdown d _ => (4, d)

/-- Message k, when none of its class from its source to its destination stands before it (R308), and the state without it. -/
def State.takeMsg (s : State) (k : Nat) : Option (Msg × State) :=
  match s.msgs[k]? with
  | none => none
  | some m =>
    if (s.msgs.take k).any fun x => x.route == m.route && lineHome x.line == lineHome m.line then none
    else some (m, { s with msgs := s.msgs.eraseIdx k })

def State.send (s : State) (m : Msg) : State := { s with msgs := s.msgs ++ [m] }

/-- HOME_READ_REQUEST (R300, R301, R303). -/
def execHomeReadRequest (k : Nat) (s : State) : Out :=
  match s.takeMsg k with
  | some (.readReq g l, t) => .next (t.arrive (.readReq g l))
  | _ => .next s

/-- HOME_GRANT_REQUEST (R97, R280, R303). -/
def execHomeGrantRequest (k : Nat) (s : State) : Out :=
  match s.takeMsg k with
  | some (.grantReq g l, t) => .next (t.arrive (.grantReq g l))
  | _ => .next s

/-- HOME_UPD_REQUEST (R100, R306). -/
def execHomeUpdRequest (k : Nat) (s : State) : Out :=
  match s.takeMsg k with
  | some (.updReq g l u, t) => .next (t.arrive (.updReq g l u))
  | _ => .next s

/-- FULL_MERGE (R305): every holder has answered; the leaves are combined and the line leaves U. -/
def execFullMerge (line : Nat) (s : State) : Out :=
  let d := s.dirLine line
  let late := s.msgs.any fun m => match m with | .parked _ l _ => l == line | _ => false
  if d.hs ≠ .mrg || !d.await.isEmpty || late then .next s
  else
    let leaves := d.parks.foldl (fun acc p => insertLeaf p acc) (d.leaves.foldl (fun acc p => insertLeaf p acc) [])
    let t := { s.putDir (DirLine.unc line) with mem := cellPutBytes s.mem (line * 128) (s.merged d leaves) }
    .next ((t.shoot line).serveWaiting line)

/-- WRITE_BACK (R311): written or superseded, and acknowledged. -/
def execWriteBack (k : Nat) (s : State) : Out :=
  match s.takeMsg k with
  | some (.writeBack g l, t) =>
    let d := t.dirLine l
    let u := if d.hs = .own && d.owner = g then t.putDir { d with hs := .shd } else t
    .next ((u.send (.wbAck g l)).serveWaiting l)
  | _ => .next s

/-- PARKED_PARTIAL (R304): kept as the cluster's leaf, and acknowledged. -/
def execParkedPartial (k : Nat) (s : State) : Out :=
  match s.takeMsg k with
  | some (.parked g l p, t) =>
    let d := t.dirLine l
    let u := if d.op = some p.tag && (d.hs == .upd || d.hs == .mrg) then t.putDir { d with parks := insertLeaf (g, p) d.parks }
      else { t with mem := cellPutBytes t.mem (l * 128) (mergeLine p.tag (cellBytes t.mem (l * 128) 128) [p]) }
    .next (u.send (.wbAck g l))
  | _ => .next s

/-! ### Probes at a cluster (R303, R309, R311) -/

/-- A cluster gives up its copy; an entry with waiting updates stays. -/
def State.giveUp (s : State) (g l : Nat) (xs : Xs) : State :=
  let s1 := s.holdCopy g l
  let cl := s1.cluster g
  match cl.entry l with
  | none => s1
  | some e =>
    if xs = .none && e.queue.isEmpty then s1.putCluster g (cl.dropEntry l)
    else s1.putCluster g (cl.putEntry { e with st := .i, xs := xs, part := none, hold := [] })

/-- A strand of the cluster has asked to own a line that it has been given and acts on next (R97, R280): the atomic comes before any probe. -/
def State.ownFirst (s : State) (g l : Nat) : Bool :=
  match (s.cluster g).entry l with
  | some e => e.st == .m && e.xs == .none && (List.range 4).any fun k =>
      let c := s.coreAt (4 * g + k)
      c.claim == some (l, c.pc) && c.seq == .run && !c.abortDue && !c.implicit && c.commit.isNone && c.fence.isNone && !s.preemptDue c
  | none => false

/-- A probe meets the filter: it waits for a reply on its way, or is answered from the copy, from the write-back buffer, or as
absent. -/
def State.probed (s : State) (g l : Nat) (k : Probe) (req : Option Nat) : State :=
  match (s.cluster g).entry l with
  | none => s.send (.answer g l none false false)
  | some e =>
    let waits := e.xs == .is || e.xs == .im || e.xs == .sm || e.xs == .iu
    if waits && s.replying g l then
      s.putCluster g ((s.cluster g).putEntry { e with heldProbes := e.heldProbes ++ [(k, req)] })
    else
      let data := e.st == .m || e.st == .o
      if e.xs == .mi then s.send (.answer g l none false true)
      else if e.xs == .ui then s.send (.answer g l none false false)
      else match k with
        | .read =>
          if data then (s.putCluster g ((s.cluster g).putEntry { e with st := .o })).send (.answer g l none true true)
          else s.send (.answer g l none (e.st == .s) false)
        | .invalidate => (s.giveUp g l (if e.xs == .sm then .im else e.xs)).send (.answer g l none false data)
        | .merge => (s.giveUp g l e.xs).send (.answer g l e.part false false)

/-- PROBE_READ (R303). -/
def execProbeRead (k : Nat) (s : State) : Out :=
  match s.takeMsg k with
  | some (.probe g l .read r, t) => if t.ownFirst g l then .next s else .next (t.probed g l .read r)
  | _ => .next s

/-- PROBE_INVALIDATE (R286, R303). -/
def execProbeInvalidate (k : Nat) (s : State) : Out :=
  match s.takeMsg k with
  | some (.probe g l .invalidate r, t) => if t.ownFirst g l then .next s else .next (t.probed g l .invalidate r)
  | _ => .next s

/-- PROBE_MERGE (R303, R305). -/
def execProbeMerge (k : Nat) (s : State) : Out :=
  match s.takeMsg k with
  | some (.probe g l .merge r, t) => .next (t.probed g l .merge r)
  | _ => .next s

/-- A cluster found absent leaves PRES when it holds no other line of the region (R302). -/
def State.absent (s : State) (g l : Nat) : State :=
  if (List.range 4).any fun k => ((s.cluster g).entry (l / 4 * 4 + k)).isSome then s
  else
    let r := s.region (l / 4)
    s.putRegion { r with pres := r.pres.filter (· ≠ g) }

/-- The last probe of a line is answered: the reader of a forwarded line gets its data; after an invalidation the line is free at the
home, and what waits is served (R300, R303). -/
def State.answered (s : State) (l : Nat) (kept : Bool) : State :=
  let d := s.dirLine l
  match d.hs with
  | .mrg => s
  | .cmt => s
  | .own | .shd | .unc | .upd =>
    match (s.homeQ.find? fun m => m.line == l).filter fun _ => !(s.region (l / 4)).evicting with
    | some (.readReq g _) =>
      let hs : HomeSt := if kept && d.hs == .own then .own else .shd
      let t := ({ s with homeQ := s.homeQ.erase (.readReq g l) }.putDir { d with hs := hs }).addPres l g
      (t.send (.reply g l .s none)).serveWaiting l
    | _ => (s.putDir { d with hs := if kept then d.hs else .unc }).serveWaiting l

/-- PROBE_ANSWER (R300, R310): a cluster's answer reaches the home. -/
def execProbeAnswer (k : Nat) (s : State) : Out :=
  match s.takeMsg k with
  | some (.answer g l part kept sup, t) =>
    let d := t.dirLine l
    let d1 := { d with
      await := d.await.filter (· ≠ g)
      leaves := match part with | some p => if d.hs = .mrg then insertLeaf (g, p) d.leaves else d.leaves | none => d.leaves }
    let u := if kept || sup then t.putDir d1 else (t.putDir d1).absent g l
    .next (if d1.await.isEmpty then u.answered l kept else u)
  | _ => .next s

/-! ### Replies (R303, R309) -/

/-- The loads of a cluster's strands that wait for a line are served by its copy, or ask for it (R90, R313). -/
def State.serveLoads (s : State) (g l : Nat) : State :=
  (List.range 4).foldl (fun t k =>
    let c := 4 * g + k
    if (t.coreAt c).loads.any fun p => (linesAt p.addr p.bytes.length).contains l && p.bytes.any fun b => b.isNone then
      match t.copyBytes g l (t.coreAt c).acquired with
      | some bs => t.takeSnap c l bs
      | none => (t.putCore ((t.coreAt c).addPath (lineHome l))).needLine g l
    else t) s

/-- The entry is stable again: held probes come back, waiting updates and loads go on; a partial just installed takes the updates first
(R303). -/
def State.settledEntry (s : State) (g l : Nat) (held : List (Probe × Option Nat)) : State :=
  let s1 := { s with msgs := held.map (fun (p : Probe × Option Nat) => Msg.probe g l p.1 p.2) ++ s.msgs }
  let e := ((s1.cluster g).entry l).getD (FilterEntry.empty l .none)
  let n := e.queue.length + 1
  if e.st == .u then (s1.pumpUpds g l n).serveLoads g l else (s1.serveLoads g l).pumpUpds g l n

/-- DATA_REPLY (R303, R309): a data reply, a grant, an admission to U or an acknowledgement settles a cluster's transient state. -/
def execDataReply (k : Nat) (s : State) : Out :=
  match s.takeMsg k with
  | some (.reply g l st part, t) =>
    let u := t.makeWay g l
    let cl := u.cluster g
    let e := (cl.entry l).getD (FilterEntry.empty l .none)
    let hold := if e.st == .i then [] else e.hold
    let new := { e with xs := .none, st := st, part := part, hold := hold, heldProbes := [], last := t.clock }
    .next ((u.putCluster g (cl.putEntry new)).settledEntry g l e.heldProbes)
  | some (.wbAck g l, t) =>
    let cl := t.cluster g
    match cl.entry l with
    | none => .next t
    | some e =>
      if e.xs ≠ .mi && e.xs ≠ .ui then .next t
      else if e.queue.isEmpty then .next ((t.putCluster g (cl.dropEntry l)).settledEntry g l e.heldProbes)
      else .next ((t.putCluster g (cl.putEntry { e with xs := .none, st := .i, part := none, hold := [], heldProbes := [] })).settledEntry g l
        e.heldProbes)
  | _ => .next s

/-! ### Translations and leases -/

/-- SHOOTDOWN (R307): the caches of a die drop the translations derived from a region, and WALK is cleared for it. -/
def execShootdown (k : Nat) (s : State) : Out :=
  match s.takeMsg k with
  | some (.shootdown die r, t) => .next (t.forget die r)
  | _ => .next s

/-- The leased copies: those of the clusters in order, then those of the L2s. -/
def State.allLeases (s : State) : List (Option Nat × Nat × Lease) :=
  (s.clusters.flatMap fun c => c.2.leases.map fun x => (some c.1, c.1, x)) ++ s.l2leases.map fun x => (none, x.1, x.2)

/-- LEASE_EXPIRY (R293): the k-th leased copy has expired and is gone. -/
def execLeaseExpiry (k : Nat) (s : State) : Out :=
  match s.allLeases[k]? with
  | none => .next s
  | some (c, n, x) =>
    if !leaseEnded s.cycle x.expiry then .next s
    else match c with
      | some g => .next (s.dropL1 g x.line)
      | none => .next { s with l2leases := s.l2leases.filter (· ≠ (n, x)) }

end Sys2Proof.Machine
end

