-- ==== Sys2Proof/Machine/Programs.lean ====
section
/-! DEFINITION. Programs.lean: step programs (R187..R195, R262): the course of a step, its tokens and loops, streams (R188, R189, R276), engine
reads and writes (R194), faults and their ends (R195, R212, R363). A meaning of a step word acts on the program that the acting engine
of the current core runs. -/

namespace Sys2Proof.Machine

/-! ### The program of the acting engine -/

/-- ENGINE of a fault report (R362). -/
def engineCode : Agent → Nat
  | .vec => 0 | .xin => 1 | .xout => 2 | .arr0 => 3 | .arr1 => 3 | .attn => 4 | .seq => 7 | .tile => 3

/-- The number under which the acting engine claims and reads slots. -/
def State.engineNo (s : State) : Nat :=
  match s.unit with
  | .xin => s.core.id % 4
  | .arr0 => 4
  | .arr1 => 5
  | .xout => 6 + s.core.id % 4
  | .seq | .vec | .attn | .tile => 12

/-- The program that an array runs for the current core. -/
def State.arrProg (s : State) (k : Nat) : Option ProgRun :=
  match ((s.cluster (clusterOf s.core.id)).arr k).run with
  | some p => if p.core = s.core.id then some p else none
  | none => none

/-- The program of the acting engine. -/
def State.prog? (s : State) : Option ProgRun :=
  match s.unit with
  | .xin => s.core.xin
  | .xout => s.core.xout
  | .arr0 => s.arrProg 0
  | .arr1 => s.arrProg 1
  | .seq | .vec | .attn | .tile => none

/-- The acting array. -/
def State.unitArr (s : State) : Nat := if s.unit = .arr1 then 1 else 0

def State.array (s : State) : MatArray := (s.cluster (clusterOf s.core.id)).arr s.unitArr

def State.putArray (s : State) (a : MatArray) : State :=
  let g := clusterOf s.core.id
  s.putCluster g ((s.cluster g).putArr s.unitArr a)

/-- The acting engine's program, as it is kept. -/
def State.putRun (s : State) (p : ProgRun) : State :=
  match s.unit with
  | .xin => s.upd { s.core with xin := some p }
  | .xout => s.upd { s.core with xout := some p }
  | .arr0 | .arr1 => s.putArray { s.array with run := some p }
  | .seq | .vec | .attn | .tile => s

/-- The acting engine's program goes on. -/
def State.putProg (s : State) (p : ProgRun) : State := s.putRun { p with idle := false }

/-- The acting engine's program and its command are over. -/
def State.dropProg (s : State) (p : ProgRun) : State :=
  match s.unit with
  | .xin => s.upd { s.core with xin := none, xinq := s.core.xinq.drop 1 }
  | .xout => s.upd { s.core with xout := none, xoutq := s.core.xoutq.drop 1 }
  | .arr0 | .arr1 =>
    let t := s.upd { s.core with mq := s.core.mq.filter fun m => m.num ≠ p.cmd.num }
    t.putArray { t.array with run := none, rcd := none, bits := 0 }
  | .seq | .vec | .attn | .tile => s

/-! ### Faults (R195, R200, R363) -/

/-- The report of a fault of the program's current step: the bytes of it performed, and a stream with its popped slots. -/
def State.progReport (s : State) (p : ProgRun) (cause : Cause) (faddr : W64) (off : Nat) (str : Option (Nat × Nat)) : FaultReport :=
  { simpleReport cause faddr p.pc s.core.taskid (engineCode s.unit) s.core.id with
    offset := off, stream := str.map fun x => x.1, popped := match str with | some x => x.2 | none => 0 }

/-- The acting engine's program ends with a fault: its streams are flushed, its barrier takes an error credit, an array writes its
status first, when its line can be written, and the fault is charged to the task (R195, R212, R284). -/
def State.progFail (s : State) (p : ProgRun) (r : FaultReport) : Out :=
  match s.unit with
  | .arr0 | .arr1 =>
    let a := s.array
    match a.rcd with
    | none => .next (((s.flushStreams (clusterOf s.core.id) p.streams).dropProg p).charge s.core.id r)
    | some rec_ =>
      if !s.statusFree rec_ then .next (s.putRun { p with fault := some r, failing := true, idle := true })
      else
        let s1 := s.flushStreams (clusterOf s.core.id) (s.namedStreams p (some rec_.arg))
        let step := (r.waddr - p.start).toNat / 4 % 2 ^ 16
        let s2 := s1.tileStatus rec_ (step * 2 ^ 48 + r.code * 2 ^ 40 + a.bits + 2)
        let s3 := s2.dropProg p
        let s4 := if rec_.donebar = 0 then s3 else s3.creditVa s.core.id rec_.donebar 0 true r.waddr 3
        .next (s4.charge s.core.id r)
  | .xin | .xout | .seq | .vec | .attn | .tile => .next (((s.dropProg p).cutProgram p (engineCode s.unit)).charge s.core.id r)

/-- A fault of the current step after bytes of its work. -/
def State.faultAt (s : State) (p : ProgRun) (cause : Cause) (faddr : W64) (off : Nat) : Out :=
  s.progFail p (s.progReport p cause faddr off none)

def State.progFault (s : State) (p : ProgRun) (cause : Cause) (faddr : W64) : Out := s.faultAt p cause faddr 0

/-- The step waits for a slot, a token or a turn, and may be cut there (R363). A fault found meanwhile is raised at once (R200, R217). -/
def State.hold (s : State) (p : ProgRun) : Out :=
  match p.fault with
  | some r => s.progFail p r
  | none => .next (s.putRun { p with idle := true })

/-- A fault found earlier is raised (R200, R212, R217). -/
def State.raised (s : State) (p : ProgRun) (k : Out) : Out :=
  match p.fault with
  | some r => s.progFail p r
  | none => k

/-- Before a word is executed: a fault found earlier is raised, and the program's length is checked (R187). -/
def State.bounded (s : State) (p : ProgRun) (k : Out) : Out :=
  s.raised p (if 4 * 4096 ≤ (p.pc - p.start).toNat then s.progFault p .proglen 0 else k)

/-! ### The course of a step (R187, R191, R192) -/

/-- Where execution goes past an address: the enclosing loops that end there repeat or end (R191). -/
def stepPast : List (W64 × W64 × Nat × Nat) → W64 → List (W64 × W64 × Nat × Nat) × W64
  | [], a => ([], a + 4)
  | (st, en, cnt, idx) :: rest, a =>
    if en ≠ a then ((st, en, cnt, idx) :: rest, a + 4)
    else if idx + 1 < cnt then ((st, en, cnt, idx + 1) :: rest, st)
    else stepPast rest a

/-- The program stands before a word, with these loops. -/
def ProgRun.standAt (p : ProgRun) (loops : List (W64 × W64 × Nat × Nat)) (pc : W64) : ProgRun :=
  { p with loops := loops, pc := pc, stage := 0, point := true, done := 0, buf := [], idx := none, waits := none, circuit := false }

/-- The program goes on past its current word. -/
def ProgRun.past (p : ProgRun) : ProgRun :=
  let r := stepPast p.loops p.pc
  p.standAt r.1 r.2

/-- j0 and j1 (R190). -/
def ProgRun.j (p : ProgRun) (k : Nat) : Nat := match p.loops[k]? with | some x => x.2.2.2 | none => 0

/-- The counters of a token queue: ready, free (R262). -/
def Core.tok (c : Core) (q : Nat) : Nat × Nat := c.tq.getD q (0, 0)
def Core.putTok (c : Core) (q : Nat) (x : Nat × Nat) : Core := { c with tq := c.tq.setIfInBounds q x }

/-- PFREE is waited for and consumed (R192). -/
def State.tokFree (s : State) (p : ProgRun) (tok : Tok) (k : State → ProgRun → Out) : Out :=
  match tok.pfree, p.down with
  | true, some q =>
    let x := s.core.tok q
    if x.2 = 0 then s.hold p else k (s.upd (s.core.putTok q (x.1, x.2 - 1))) { p with stage := 2 }
  | _, _ => k s { p with stage := 2 }

/-- PRDY is waited for and consumed, then PFREE (R192). -/
def State.tokWait (s : State) (p : ProgRun) (tok : Tok) (k : State → ProgRun → Out) : Out :=
  if p.stage = 0 then
    match tok.prdy, p.up with
    | true, some q =>
      let x := s.core.tok q
      if x.1 = 0 then s.hold p
      else (s.upd (s.core.putTok q (x.1 - 1, x.2))).tokFree { p with stage := 1 } tok k
    | _, _ => s.tokFree { p with stage := 1 } tok k
  else s.tokFree p tok k

/-- SFREE is sent; a full counter stalls the step (R192, R262). -/
def State.sendFree (s : State) (p : ProgRun) (tok : Tok) (fin : State → ProgRun → Out) : Out :=
  match tok.sfree, p.up with
  | true, some q =>
    let x := s.core.tok q
    if x.2 = 255 then .next (s.putRun { p with stage := 4, idle := true }) else fin (s.upd (s.core.putTok q (x.1, x.2 + 1))) p
  | _, _ => fin s p

/-- A completed step sends its tokens, ready before free, and then fin (R192). -/
def State.tokSend (s : State) (p : ProgRun) (tok : Tok) (fin : State → ProgRun → Out) : Out :=
  if p.stage = 4 then s.sendFree p tok fin
  else match tok.srdy, p.down with
    | true, some q =>
      let x := s.core.tok q
      if x.1 = 255 then .next (s.putRun { p with stage := 3, idle := true })
      else (s.upd (s.core.putTok q (x.1 + 1, x.2))).sendFree p tok fin
    | _, _ => s.sendFree p tok fin

/-- A step word of the acting engine (R187): its tokens, its work, and after its tokens are sent what follows it. -/
def State.stepWord (s : State) (tok : Tok) (work fin : State → ProgRun → Out) : Out :=
  match s.prog? with
  | none => .next s
  | some p =>
    if p.stopped || (s.core.seq = .preempted && s.core.vrun.isNone && p.point) then .next s
    else if p.failing then (match p.fault with | some r => s.progFail p r | none => .next s)
    else if p.stage ≤ 1 then s.bounded p (s.tokWait p tok fun t q => work (t.putProg q) q)
    else if p.stage = 2 then work s p
    else s.tokSend p tok fin

/-- What follows a step that is no loop and no end word. -/
def goOn (s : State) (p : ProgRun) : Out := .next (s.putProg p.past)

/-- A step word that is done in one go. -/
def State.stepDone (s : State) (p : ProgRun) (tok : Tok) : Out := s.tokSend p tok goOn

/-- A loop register the program's command captured (R190). -/
def State.preg (s : State) (p : ProgRun) (r : LReg) (k : W64 → Out) : Out :=
  if p.cmd.mask.getLsbD r.val then k p.regs[r] else s.progFault p .lregcap (BitVec.ofNat 64 r.val)

/-- The length or count in a loop register: its low 32 bits. -/
def low32 (x : W64) : Nat := x.toNat % 2 ^ 32

/-! ### Loops (R191) -/

/-- What follows a loop word: the body, or with a count of 0 what comes after it. -/
def loopOn (b count : Nat) (s : State) (p : ProgRun) : Out :=
  let e := p.pc + BitVec.ofNat 64 (4 * b)
  if count = 0 then
    let r := stepPast p.loops e
    .next (s.putProg (p.standAt r.1 r.2))
  else .next (s.putProg (p.standAt ((p.pc + 4, e, count, 0) :: p.loops) (p.pc + 4)))

/-- MLOOP and XLOOP: `count` from the word, or from a register. -/
def State.loopWord (s : State) (tok : Tok) (b : Nat) (count : Nat ⊕ LReg) : Out :=
  let n := fun (p : ProgRun) => match count with | .inl n => n | .inr r => low32 p.regs[r]
  s.stepWord tok
    (fun t p =>
      let e := p.pc + BitVec.ofNat 64 (4 * b)
      let bad := match p.loops with
        | [] => false
        | x :: rest => !rest.isEmpty || decide (x.2.1.toNat < e.toNat)
      if bad then t.progFault p .steploop 0
      else match count with
        | .inl n => t.tokSend p tok (loopOn b n)
        | .inr r => t.preg p r fun _ => t.tokSend p tok (loopOn b (n p)))
    fun t p => loopOn b (n p) t p

/-! ### Streams (R188, R189, R276) -/

/-- The cluster stream that a field names in a program of the current core (R188). -/
def State.stream (s : State) (f : Fin 32) : Nat := streamOf s.core.id f.val

/-- The slot size of a bank (R275). -/
def Bank.slotBytes (b : Bank) : Nat := 128 * 2 ^ b.slot

/-- The slots of a bank (R275). -/
def Bank.capacity (b : Bank) : Nat := 65536 / b.slotBytes

def State.bank (s : State) (f : Nat) : Bank := (s.cluster (clusterOf s.core.id)).bank f

def State.putBank (s : State) (f : Nat) (b : Bank) : State :=
  let g := clusterOf s.core.id
  s.putCluster g ((s.cluster g).putBank f b)

/-- The program reaches a stream it names, after bytes of its step's work; its bank must be in FIFO mode (R189, R363). -/
def State.reach (s : State) (p : ProgRun) (f off : Nat) (k : ProgRun → Out) : Out :=
  let q := { p with streams := insertNat f p.streams }
  if (s.bank f).mode ≠ 2 then s.progFail q (s.progReport q .notfifo 0 off (some (f, 0))) else k q

/-- Filled claims at the head of a ring become visible slots (R276). -/
def Bank.show (b : Bank) : List (Nat × Option (List Byte)) → Bank
  | (_, some bs) :: rest => { b with slots := b.slots ++ [bs], pushed := b.pushed + 1 }.show rest
  | l => { b with claims := l }

/-- The slot that an engine has claimed and not filled takes its bytes. -/
def fillClaim (me : Nat) (bs : List Byte) : List (Nat × Option (List Byte)) → List (Nat × Option (List Byte))
  | [] => []
  | x :: rest => if x.1 = me ∧ x.2.isNone then (me, some bs) :: rest else x :: fillClaim me bs rest

/-- An engine has claimed a slot of the bank that it has not filled. -/
def Bank.claimed (b : Bank) (me : Nat) : Bool := b.claims.any fun x => x.1 == me && x.2.isNone

/-- A slot that no one has filled or claimed (R276). -/
def Bank.roomy (b : Bank) : Bool := decide (b.slots.length + b.claims.length < b.capacity)

/-- An engine fills the slot that it has claimed, its tail with zeros (R189, R276). -/
def Bank.filled (b : Bank) (me : Nat) (bs : List Byte) : Bank :=
  b.show (fillClaim me (bs ++ List.replicate (b.slotBytes - bs.length) 0) b.claims)

/-- The next slot of a stream takes bytes (R276): it is claimed first, and then filled and zero-padded. -/
def State.pushSlot (s : State) (p : ProgRun) (f off : Nat) (bs : List Byte) (k : State → ProgRun → Out) : Out :=
  s.reach p f off fun q =>
    let b := s.bank f
    let me := s.engineNo
    if b.claimed me then k (s.putBank f (b.filled me bs)) { q with waits := none }
    else if b.roomy then .next ((s.putBank f { b with claims := b.claims ++ [(me, none)] }).putProg { q with waits := none })
    else s.hold { q with waits := some f }

/-- The oldest filled slot of a stream is read, and then free (R276). -/
def State.popSlot (s : State) (p : ProgRun) (f off : Nat) (k : State → ProgRun → List Byte → Out) : Out :=
  s.reach p f off fun q =>
    let b := s.bank f
    let me := s.engineNo
    match b.slots with
    | [] => s.hold { q with waits := some f }
    | x :: rest =>
      if b.consumer = some me then
        k (s.putBank f { b with slots := rest, popped := b.popped + 1, consumer := none }) { q with waits := none } x
      else if b.consumer.isNone then .next ((s.putBank f { b with consumer := some me }).putProg { q with waits := none })
      else s.hold { q with waits := some f }

/-- A unit of n bytes is popped whole into the program's buffer, its tail discarded (R189); k with its bytes. -/
def State.popUnit (s : State) (p : ProgRun) (f n off : Nat) (k : State → ProgRun → List Byte → Out) : Out :=
  if n ≤ p.buf.length then k s { p with buf := [] } (p.buf.take n)
  else s.popSlot p f off fun t q bs => .next (t.putProg { q with buf := q.buf ++ bs, point := false })

/-- A slot of the bytes in the program's buffer is pushed (R189); `pt` says whether the program may stop once none is left. -/
def State.pushBuf (s : State) (p : ProgRun) (f off : Nat) (pt : Bool) : Out :=
  let z := (s.bank f).slotBytes
  s.pushSlot p f off (p.buf.take z) fun t q => .next (t.putProg { q with buf := q.buf.drop z, point := pt && (q.buf.drop z).isEmpty })

/-- The slots of a unit already gone, of n pushed (R362). -/
def State.slotsGone (s : State) (f n : Nat) : Nat := n - min n (s.bank f).slots.length

/-! ### Engine reads and writes (R87, R194) -/

/-- The checks of n bytes page by page (R87, causes 1 to 6; R213): their cell addresses, or the lowest failing address. -/
def State.engSpans (s : State) (va : W64) (need : Need) : Nat → Nat → Except Fail (List (Nat × Nat))
  | 0, _ => .ok []
  | fuel + 1, n =>
    if n = 0 then .ok []
    else
      let m := min n (4096 - va.toNat % 4096)
      match s.engPage s.core.context (clusterOf s.core.id) va m need with
      | .error f => .error f
      | .ok a => match s.engSpans (va + BitVec.ofNat 64 m) need fuel (n - m) with
        | .error f => .error f
        | .ok l => .ok ((a, m) :: l)

def State.engCheck (s : State) (va : W64) (n : Nat) (need : Need) : Except Fail (List (Nat × Nat)) :=
  s.engSpans va need (n / 4096 + 2) n

/-- A span read at its home, merged first; a lost line is charged (R370). -/
def State.spanRead (s : State) (a n : Nat) : List Byte × State := ((linesAt a n).foldl (fun t l => t.noteLost l) s).homeRead a n

/-- Bytes read at the homes of spans. -/
def State.spansRead (s : State) (spans : List (Nat × Nat)) : List Byte × State :=
  spans.foldl (fun (acc : List Byte × State) x =>
    let y := acc.2.spanRead x.1 x.2
    (acc.1 ++ y.1, y.2)) ([], s)

/-- Bytes written at the homes of spans. -/
def State.spansWrite (s : State) (spans : List (Nat × Nat)) (bs : List Byte) : State :=
  (spans.foldl (fun (acc : List Byte × State) x => (acc.1.drop x.2, acc.2.homeWrite x.1 (acc.1.take x.2))) (bs, s)).2

/-- An engine read (R194): k with the bytes; `bad` with the cause and the failing address. -/
def State.engRead (s : State) (p : ProgRun) (va : W64) (n : Nat) (bad : State → Cause → W64 → Out) (k : State → List Byte → Out) : Out :=
  match s.engCheck va n .read with
  | .error (c, v) => bad s c v
  | .ok spans =>
    if s.isRemote va then
      (s.putProg p).ask s.unit va (.load n none) fun t r => match r with
        | .data bs => k t bs
        | .refused c v => bad t (causeOf c) v
        | .status _ | .done | .ack _ | .creditFault _ _ _ _ _ => k t (List.replicate n 0)
    else if spans.all fun x => s.rangeSettled x.1 x.2 then
      let r := (s.pinSpan s.core.id s.core.context va n).spansRead spans
      k r.2 r.1
    else .next (s.putProg p)

/-- An engine write (R194). -/
def State.engWrite (s : State) (p : ProgRun) (va : W64) (bs : List Byte) (bad : State → Cause → W64 → Out) (k : State → Out) : Out :=
  match s.engCheck va bs.length .write with
  | .error (c, v) => bad s c v
  | .ok spans =>
    if s.isRemote va && !bs.isEmpty then
      (s.putProg p).ask s.unit va (.write bs) fun t r => match r with
        | .refused c v => bad t (causeOf c) v
        | .data _ | .status _ | .done | .ack _ | .creditFault _ _ _ _ _ => k t
    else if spans.all fun x => s.rangeSettled x.1 x.2 then
      k ((s.pinSpan s.core.id s.core.context va bs.length).spansWrite spans bs)
    else .next (s.putProg p)

/-! ### Barriers (R193) -/

/-- MWAITB and XWAITB (R193): the turn of the object at a loop register. -/
def State.waitb (s : State) (tok : Tok) (l : LReg) (turn : Bool) : Out :=
  s.stepWord tok
    (fun t p => t.preg p l fun va =>
      let see := fun (u : State) (b : Bar) =>
        if b.turn ≠ turn then u.hold p
        else if b.err then u.progFault p .barerr va
        else u.stepDone p tok
      match t.check va 16 .read none false with
      | .error (c, v) => t.progFault p c v
      | .ok a =>
        if a < remoteBase then
          match (t.pin t.core.id t.core.context va).barAt a with
          | none => .next (t.putProg p)
          | some (b, u) => see u b
        else (t.putProg p).ask t.unit va (.load 16 none) fun u r => match r with
          | .data bs => see u (barOf (leVal bs))
          | .refused c v => u.progFault p (causeOf c) v
          | .status _ | .done | .ack _ | .creditFault _ _ _ _ _ => u.hold p)
    goOn

end Sys2Proof.Machine
end

