-- ==== Sys2Proof/Machine/Vector.lean ====
section
/-! DEFINITION. Vector.lean: the vector engine (R161..R186). A meaning acts on the running block of the current core, whose word it is. -/

namespace Sys2Proof.Machine

/-! ### Registers as elements (R162, R163) -/

/-- Element e of width w of a register. -/
def VWord.elem (v : VWord) (w e : Nat) : Nat := v.toNat / 2 ^ (w * e) % 2 ^ w

/-- A register with element e of width w replaced. -/
def VWord.put (v : VWord) (w e x : Nat) : VWord :=
  BitVec.ofNat 2048 (v.toNat - VWord.elem v w e * 2 ^ (w * e) + x % 2 ^ w * 2 ^ (w * e))

/-- A register with elements replaced. -/
def VWord.puts (v : VWord) (w : Nat) (xs : List (Nat × Nat)) : VWord := xs.foldl (fun a x => VWord.put a w x.1 x.2) v

/-- The n bytes of a register from byte k up. -/
def VWord.bytes (v : VWord) (k n : Nat) : List Byte := leBytes n (v.toNat / 2 ^ (8 * k))

/-- A register with bytes replaced from byte k up. -/
def VWord.putBytes (v : VWord) (k : Nat) (bs : List Byte) : VWord :=
  VWord.puts v 8 (bs.zipIdx.map fun b => (k + b.2, b.1.toNat))

def Core.getV (c : Core) (r : VReg) : VWord := c.v[r]
def Core.setV (c : Core) (r : VReg) (x : VWord) : Core := { c with v := c.v.set r x }
def Core.getM (c : Core) (k : MaskSel) : W256 := c.m[k]
def Core.setM (c : Core) (k : MaskSel) (x : W256) : Core := { c with m := c.m.set k x }

/-- Element e of a vector register under the shape. -/
def Core.el (c : Core) (r : VReg) (e : Nat) : Nat := VWord.elem (c.getV r) c.ew e

/-- The active elements of a mask field (R163). -/
def Core.active (c : Core) (k : MaskSel) : List Nat := (List.range c.vl).filter fun e => k == 0 || (c.getM k).getLsbD e

/-- Replace elements of a register under the shape. -/
def Core.putEls (c : Core) (d : VReg) (xs : List (Nat × Nat)) : Core := c.setV d (VWord.puts (c.getV d) c.ew xs)

/-! ### The course of a block (R161, R165) -/

/-- The block's word is done: its flags join the block's, and the next word follows. -/
def Core.vnext (c : Core) (f : Flags) : Core :=
  match c.vrun with
  | none => c
  | some v => { c with vrun := some { v.addFlags f with pc := v.pc + 4, seen := [], passed := false } }

/-- An engine fault of a vector word ends its block (R165). -/
def State.vfault (s : State) (cause : Cause) (faddr : W64) : Out :=
  match s.core.vrun with
  | none => .next s
  | some v =>
    let c := { s.core.joinBlock v with vrun := none, vq := s.core.vq.drop 1 }
    .next ((s.upd c).charge s.core.id (simpleReport cause faddr v.pc s.core.taskid 0 s.core.id))

/-- A word of the running block (R161): the 4,097th is a fault whatever it is. -/
def State.vword (s : State) (k : VecRun → Out) : Out :=
  match s.core.vrun with
  | none => .next s
  | some v => if 4 * 4096 ≤ (v.pc - v.start).toNat then s.vfault .blocklen 0 else k v

/-- A word that its entry refuses under the shape (R165). -/
def State.needShape (s : State) (ok : Bool) (k : Out) : Out := if ok then k else s.vfault .ewidth s.core.vsh

/-- A loop register that the block's VRUN captured (R164). -/
def State.vreg (s : State) (v : VecRun) (r : LReg) (k : W64 → Out) : Out :=
  if v.cmd.mask.getLsbD r.val then k v.cmd.regs[r] else s.vfault .lregcap (BitVec.ofNat 64 r.val)

/-- VECTOR_BLOCK_START (R161, R76): the oldest block of core c starts; one that cannot be fetched is a fault. -/
def execVectorBlockStart (c : Nat) (s : State) : Out :=
  let t := s.focus c
  match t.core.vq with
  | [] => .next s
  | cmd :: rest =>
    if t.core.vrun.isSome || cmd.started || t.core.seq = .preempted || t.core.abortDue then .next s
    else t.fetchCmd .vec cmd.addr (.next s) fun t => match t.wordAt t.core.context (clusterOf c) t.core.ecode cmd.addr with
      | none =>
        .next ((t.upd { t.core with vq := rest }).charge c (simpleReport .engfetch cmd.addr cmd.addr t.core.taskid 0 c))
      | some (_, blocks) =>
        .next (t.upd { t.core with
          ecode := blocks, vq := { cmd with started := true } :: rest
          vrun := some { cmd := cmd, start := cmd.addr, pc := cmd.addr, flags := 0, seen := [], code := blocks.filter (fun b => b.1 == blk cmd.addr)
                         vsh0 := t.core.vsh } })

/-- VEND (R161). -/
def execVend (s : State) : Out :=
  s.vword fun v => .next (s.upd { s.core.joinBlock v with vrun := none, vq := s.core.vq.drop 1 })

/-- VSHAPE (R162). -/
def execVshape (l : Fin 1024) (e : EW) (s : State) : Out :=
  s.vword fun _ =>
    .next (s.upd ({ s.core with vsh := setBits (setBits s.core.vsh 10 2 l.val) 1 0 e.code }.vnext 0))

/-! ### Elementwise words -/

/-- A word that gives each active element of its destination a value, without flags. -/
def State.vmap (s : State) (d : VReg) (k : MaskSel) (f : Nat → Nat) : Out :=
  s.vword fun _ => .next (s.upd ((s.core.putEls d ((s.core.active k).map fun e => (e, f e))).vnext 0))

/-- An integer result narrowed to w bits: saturated to the type's range, or wrapped (R167). -/
def narrow (w : Nat) (unsigned sat : Bool) (x : Int) : Nat :=
  let lo : Int := if unsigned then 0 else -(2 ^ (w - 1))
  let hi : Int := if unsigned then 2 ^ w - 1 else 2 ^ (w - 1) - 1
  wrapInt w (if sat then (if x < lo then lo else if hi < x then hi else x) else x)

/-- An element as a number of its type (R167). -/
def elemInt (w : Nat) (unsigned : Bool) (x : Nat) : Int := if unsigned then (x : Int) else sval w x

/-- A binary integer word (R167): the exact result of two elements, narrowed. -/
def State.vint (s : State) (d a b : VReg) (k : MaskSel) (n sat : Bool) (f : Int → Int → Int) : Out :=
  let w := s.core.ew
  s.vmap d k fun e => narrow w n sat (f (elemInt w n (s.core.el a e)) (elemInt w n (s.core.el b e)))

/-- VADD (R167). -/
def execVadd (d a b : VReg) (k : MaskSel) (n t : Bool) (s : State) : Out := s.vint d a b k n t (· + ·)
/-- VSUB (R167). -/
def execVsub (d a b : VReg) (k : MaskSel) (n t : Bool) (s : State) : Out := s.vint d a b k n t (· - ·)
/-- VMUL (R167). -/
def execVmul (d a b : VReg) (k : MaskSel) (n t : Bool) (s : State) : Out := s.vint d a b k n t (· * ·)
/-- VMULH (R167): the high w bits of the product. -/
def execVmulh (d a b : VReg) (k : MaskSel) (n : Bool) (s : State) : Out :=
  s.vint d a b k n false fun x y => x * y / 2 ^ s.core.ew
/-- VMIN (R167). -/
def execVmin (d a b : VReg) (k : MaskSel) (n : Bool) (s : State) : Out := s.vint d a b k n false min
/-- VMAX (R167). -/
def execVmax (d a b : VReg) (k : MaskSel) (n : Bool) (s : State) : Out := s.vint d a b k n false max
/-- VAND (R167). -/
def execVand (d a b : VReg) (k : MaskSel) (s : State) : Out :=
  s.vmap d k fun e => s.core.el a e &&& s.core.el b e
/-- VOR (R167). -/
def execVor (d a b : VReg) (k : MaskSel) (s : State) : Out :=
  s.vmap d k fun e => s.core.el a e ||| s.core.el b e
/-- VXOR (R167). -/
def execVxor (d a b : VReg) (k : MaskSel) (s : State) : Out :=
  s.vmap d k fun e => s.core.el a e ^^^ s.core.el b e
/-- VSHL (R167, R168): the amount is read as unsigned; w or more gives 0, saturating or not. -/
def execVshl (d a b : VReg) (k : MaskSel) (n t : Bool) (s : State) : Out :=
  let w := s.core.ew
  s.vmap d k fun e =>
    if w ≤ s.core.el b e then 0 else narrow w n t (elemInt w n (s.core.el a e) * 2 ^ s.core.el b e)
/-- VSHR (R167, R168). -/
def execVshr (d a b : VReg) (k : MaskSel) (s : State) : Out :=
  s.vmap d k fun e => s.core.el a e / 2 ^ min (s.core.el b e) s.core.ew
/-- VSAR (R167, R168). -/
def execVsar (d a b : VReg) (k : MaskSel) (s : State) : Out :=
  let w := s.core.ew
  s.vmap d k fun e => wrapInt w (sval w (s.core.el a e) / 2 ^ min (s.core.el b e) w)
/-- VABS (R167, R168). -/
def execVabs (d a : VReg) (k : MaskSel) (t : Bool) (s : State) : Out :=
  s.vint d a a k false t fun x _ => if x < 0 then -x else x
/-- VNEG (R167, R168). -/
def execVneg (d a : VReg) (k : MaskSel) (t : Bool) (s : State) : Out :=
  s.vint d a a k false t fun x _ => -x
/-- VSEL (R167, R168): every element below VL. -/
def execVsel (d a b : VReg) (k : MaskSel) (s : State) : Out :=
  s.vmap d 0 fun e => if (s.core.getM k).getLsbD e then s.core.el a e else s.core.el b e

/-! ### Floating point (R169) -/

/-- Elements with their results and flags in ascending order, each drawing from stream 3 as it says (R149). -/
def Core.each (c : Core) (es : List Nat) (f : Core → Nat → (Nat × Flags) × Core) : List (Nat × Nat) × Flags × Core :=
  es.foldl (fun acc e =>
    let r := f acc.2.2 e
    (acc.1 ++ [(e, r.1.1)], acc.2.1 ||| r.1.2, r.2)) ([], 0, c)

/-- A rounded result under a mode; under SR it takes a draw (R148, R149). -/
def Core.drawn (c : Core) (m : RMode) (op : RMode → Nat → Nat × Flags) : (Nat × Flags) × Core :=
  match m with
  | .sr => let (r, c1) := c.draw16; (op .sr r, c1)
  | m => (op m 0, c)

/-- An FP word: f32 elements; under SR each active element takes one draw (R169). -/
def State.vfp (s : State) (d : VReg) (k : MaskSel) (r : Rnd) (f : Nat → RMode → Nat → Nat × Flags) : Out :=
  s.vword fun v => s.needShape (s.core.ew == 32) <|
    let m := match r with | .mode m => m | .dyn => v.cmd.rm
    let (xs, fl, c) := s.core.each (s.core.active k) fun c e => c.drawn m (f e)
    .next (s.upd ((c.putEls d xs).vnext fl))

/-- VFADD (R169). -/
def execVfadd (d a b : VReg) (k : MaskSel) (r : Rnd) (s : State) : Out :=
  s.vfp d k r fun e m x => Fmt.f32.add m x (s.core.el a e) (s.core.el b e)
/-- VFSUB (R169). -/
def execVfsub (d a b : VReg) (k : MaskSel) (r : Rnd) (s : State) : Out :=
  s.vfp d k r fun e m x => Fmt.f32.sub m x (s.core.el a e) (s.core.el b e)
/-- VFMUL (R169). -/
def execVfmul (d a b : VReg) (k : MaskSel) (r : Rnd) (s : State) : Out :=
  s.vfp d k r fun e m x => Fmt.f32.mul m x (s.core.el a e) (s.core.el b e)
/-- VFDIV (R169). -/
def execVfdiv (d a b : VReg) (k : MaskSel) (r : Rnd) (s : State) : Out :=
  s.vfp d k r fun e m x => Fmt.f32.div m x (s.core.el a e) (s.core.el b e)
/-- VFMA (R169). -/
def execVfma (d a b : VReg) (k : MaskSel) (r : Rnd) (s : State) : Out :=
  s.vfp d k r fun e m x => Fmt.f32.fma m x (s.core.el a e) (s.core.el b e) (s.core.el d e)
/-- VFSQRT (R169). -/
def execVfsqrt (d a : VReg) (k : MaskSel) (r : Rnd) (s : State) : Out :=
  s.vfp d k r fun e m x => Fmt.f32.sqrt m x (s.core.el a e)
/-- VFMIN (R169). -/
def execVfmin (d a b : VReg) (k : MaskSel) (s : State) : Out :=
  s.vfp d k (.mode .rne) fun e _ _ => Fmt.f32.minmax false (s.core.el a e) (s.core.el b e)
/-- VFMAX (R169). -/
def execVfmax (d a b : VReg) (k : MaskSel) (s : State) : Out :=
  s.vfp d k (.mode .rne) fun e _ _ => Fmt.f32.minmax true (s.core.el a e) (s.core.el b e)
/-- VFEXP2 (R155, R169). -/
def execVfexp2 (d a : VReg) (k : MaskSel) (s : State) : Out :=
  s.vfp d k (.mode .rne) fun e _ _ => expPath (s.core.el a e)
/-- VFRCP (R169). -/
def execVfrcp (d a : VReg) (k : MaskSel) (r : Rnd) (s : State) : Out :=
  s.vfp d k r fun e m x => Fmt.f32.div m x 0x3F800000 (s.core.el a e)

/-! ### Comparisons and masks (R170, R171) -/

/-- The elements below VL that satisfy p, as a mask; the bits from VL up are 0. -/
def Core.maskWhere (c : Core) (p : Nat → Bool) : W256 :=
  BitVec.ofNat 256 ((List.range c.vl).foldl (fun acc e => acc + if p e then 2 ^ e else 0) 0)

/-- A comparison of integers (R170). -/
def intCmp (p : Pred) (x y : Int) : Bool :=
  match p with
  | .eq => x == y | .ne => x != y | .lt => decide (x < y) | .le => decide (x ≤ y) | .gt => decide (y < x) | .ge => decide (y ≤ x)

/-- VCMP (R170). -/
def execVcmp (d : MaskSel) (a b : VReg) (f n : Bool) (p : Pred) (s : State) : Out :=
  s.vword fun _ =>
    let w := s.core.ew
    if f then s.needShape (w == 32) <|
      let r := fun e => Fmt.f32.cmp p (s.core.el a e) (s.core.el b e)
      let fl := (List.range s.core.vl).foldl (fun acc e => acc ||| (r e).2) (0 : Flags)
      .next (s.upd ((s.core.setM d (s.core.maskWhere fun e => (r e).1)).vnext fl))
    else
      .next (s.upd ((s.core.setM d (s.core.maskWhere fun e =>
        intCmp p (elemInt w n (s.core.el a e)) (elemInt w n (s.core.el b e)))).vnext 0))

/-- A mask word (R171). -/
def State.vmask (s : State) (d : MaskSel) (p : Nat → Bool) : Out :=
  s.vword fun _ => .next (s.upd ((s.core.setM d (s.core.maskWhere p)).vnext 0))

/-- MAND (R171). -/
def execMand (d a b : MaskSel) (s : State) : Out :=
  s.vmask d fun e => (s.core.getM a).getLsbD e && (s.core.getM b).getLsbD e
/-- MOR (R171). -/
def execMor (d a b : MaskSel) (s : State) : Out :=
  s.vmask d fun e => (s.core.getM a).getLsbD e || (s.core.getM b).getLsbD e
/-- MNOT (R171). -/
def execMnot (d a : MaskSel) (s : State) : Out := s.vmask d fun e => !(s.core.getM a).getLsbD e

/-- A word that writes a result latch. -/
def State.vlatch (s : State) (n : Fin 4) (x : W64) : Out :=
  s.vword fun _ => .next (s.upd ((s.core.setQ n x).vnext 0))

/-- MPOPC (R171). -/
def execMpopc (n : Fin 4) (a : MaskSel) (s : State) : Out :=
  s.vlatch n (BitVec.ofNat 64 ((List.range s.core.vl).filter fun e => (s.core.getM a).getLsbD e).length)
/-- MFIRST (R171). -/
def execMfirst (n : Fin 4) (a : MaskSel) (s : State) : Out :=
  s.vlatch n (match (List.range s.core.vl).find? fun e => (s.core.getM a).getLsbD e with
    | some e => BitVec.ofNat 64 e
    | none => BitVec.allOnes 64)

/-! ### Conversions (R172..R176) -/

/-- A conversion rounds a finite value, and under SR takes a draw for it (R148, R172; log 13). -/
def cvtRounds (src dst : Ty) (x : Nat) : Bool :=
  match tyFmt src with
  | some f => (match f.decode x with | .fin .. => true | .nan .. | .inf .. => false)
  | none => (tyFmt dst).isSome

/-- VCVT (R172). -/
def execVcvt (d a : VReg) (src : Ty) (k : MaskSel) (dst : Ty) (s : State) : Out :=
  s.vword fun v =>
    let sw := tyWidth src
    let dw := tyWidth dst
    s.needShape (decide (s.core.vl * max sw dw ≤ 2048)) <|
      let (xs, fl, c) := s.core.each (s.core.active k) fun c e =>
        let x := VWord.elem (s.core.getV a) sw e
        c.drawn (if cvtRounds src dst x then v.cmd.rm else if v.cmd.rm = .sr then .rne else v.cmd.rm) fun m r => convert src dst m r x
      .next (s.upd ((c.setV d (VWord.puts (c.getV d) dw xs)).vnext fl))

/-- Round a magnitude to an E2M1 code (R142): one beyond 6 becomes 6; a result of 0 has no sign. -/
def e2m1Round (m : RMode) (r : Nat) (x : Exact) : Nat × Flags :=
  if x.m = 0 then (0, 0)
  else
    let six := if 0 ≤ x.e then 6 < x.m * 2 ^ x.e.toNat else 6 * 2 ^ (-x.e).toNat < x.m
    if six then ((if x.neg then 8 else 0) + 7, Flags.of ||| Flags.nx)
    else
      let q := max x.top 0 - 1
      let (n, inexact) := Exact.roundAt { x with neg := false } q m r
      let c := Fmt.pack { eb := 2, mb := 1, ocp := true } false n q
      (if c = 0 then 0 else (if x.neg then 8 else 0) + c, flagIf inexact Flags.nx)

/-- The value of an element of a Q4B block by its code, scale and special (R143). -/
def q4bValue (c sc sp : Nat) : FVal :=
  if sc = 0xFF then .nan false false
  else if c = 8 then match Fmt.e4m3.decode sp with
    | .fin n m e => .fin n m (e + sc - 127)
    | .nan .. | .inf .. => .nan false false
  else .fin (decide (8 ≤ c)) ([0, 1, 2, 3, 4, 6, 8, 12].getD (c % 8) 0) ((sc : Int) - 128)

/-- VQENC's block of 32 f32 codes (R173): the element codes, the scale, the special, the flags, and the core after its draws. -/
def encodeBlock (c : Core) (m : RMode) (xs : List Nat) : List Nat × Nat × Nat × Flags × Core :=
  let vals := xs.map Fmt.f32.decode
  let iv := flagIf (vals.any FVal.sNaN) Flags.iv
  if vals.any fun v => match v with | .fin .. => false | .nan .. | .inf .. => true then (List.replicate 32 0, 0xFF, 0x7F, iv, c)
  else
    let mag := fun k => xs.getD k 0 % 2 ^ 31
    let o := (List.range 32).foldl (fun b k => if mag b < mag k then k else b) 0
    let a2 := ((List.range 32).filter (· ≠ o)).foldl (fun b k => max b (mag k)) 0
    let top := fun (x : Nat) => match Fmt.f32.decode x with | .fin _ n e => e + Nat.log2 n | .nan .. | .inf .. => 0
    let s0 := if a2 ≠ 0 then top a2 - 2 else if mag o ≠ 0 then top (mag o) - 2 else 0
    let s := min (max s0 (-127)) 127
    let exact := fun k => match vals.getD k (.fin false 0 0) with
      | .fin n mm e => { neg := n, m := mm, e := e - s, sticky := false }
      | .nan .. | .inf .. => { neg := false, m := 0, e := 0, sticky := false : Exact }
    let r := c.each ((List.range 32).filter (· ≠ o)) fun c k => c.drawn m fun md x => e2m1Round md x (exact k)
    let sp := r.2.2.drawn m fun md x => Fmt.e4m3.round md x (exact o)
    ((List.range 32).map fun k => if k = o then 8 else (assoc k r.1).getD 0, (s + 127).toNat, sp.1.1, r.2.1 ||| sp.1.2, sp.2)

/-- The 16 bytes of an element plane (R143). -/
def packPlane (codes : List Nat) : List Byte :=
  (List.range 16).map fun j => BitVec.ofNat 8 (codes.getD (2 * j) 0 + 16 * codes.getD (2 * j + 1) 0)

/-- The shape that VQENC and VQDEC require (R173, R174). -/
def Core.blockShape (c : Core) : Bool := c.ew == 32 && (c.vl == 32 || c.vl == 64)

/-- VQENC (R173). -/
def execVqenc (d a : VReg) (s : State) : Out :=
  s.vword fun v => s.needShape s.core.blockShape <|
    let r := (List.range (s.core.vl / 32)).foldl (fun (acc : VWord × Flags × Core) b =>
      let (codes, sc, sp, fl, c) := encodeBlock acc.2.2 v.cmd.rm ((List.range 32).map fun k => s.core.el a (32 * b + k))
      let w1 := VWord.putBytes acc.1 (16 * b) (packPlane codes)
      (VWord.putBytes w1 (32 + 2 * b) [BitVec.ofNat 8 sc, BitVec.ofNat 8 sp], acc.2.1 ||| fl, c)) (s.core.getV d, 0, s.core)
    .next (s.upd ((r.2.2.setV d r.1).vnext r.2.1))

/-- VQDEC (R174). -/
def execVqdec (d a : VReg) (s : State) : Out :=
  s.vword fun v => s.needShape s.core.blockShape <|
    let byte := fun k => VWord.elem (s.core.getV a) 8 k
    let (xs, fl, c) := s.core.each (List.range s.core.vl) fun c e =>
      let b := e / 32
      match q4bValue (byte (16 * b + e % 32 / 2) / 16 ^ (e % 2) % 16) (byte (32 + 2 * b)) (byte (33 + 2 * b)) with
      | .fin n m x => c.drawn v.cmd.rm fun md r => Fmt.f32.round md r { neg := n, m := m, e := x, sticky := false }
      | .nan .. | .inf .. => ((Fmt.f32.nanCode false, 0), c)
    .next (s.upd ((c.putEls d xs).vnext fl))

/-- The five weights of a t3 byte (R144, R145), none for an illegal one. -/
def tritDecode (b : Nat) : Option (List Int) :=
  if 242 < b then none
  else some ([65536, 21846, 7282, 2428, 810].map fun m =>
    let q : Nat := b * m / 2 ^ 16
    (Int.ofNat q) - 3 * Int.ofNat (q * 21846 / 2 ^ 16) - 1)

/-- A word that reads t3 bytes (R145): with TRITEN an illegal one is a fault, and else its weights are 0 and TRIT is set. -/
def State.vtrit (s : State) (bytes : List Nat) (k : Flags → Out) : Out :=
  let bad := bytes.any fun b => (tritDecode b).isNone
  if bad && s.core.triten then s.vfault .tritbyte 0 else k (flagIf bad Flags.trit)

def tritWeights (b : Nat) : List Int := (tritDecode b).getD [0, 0, 0, 0, 0]

/-- VUNPK3 (R175). -/
def execVunpk3 (d a : VReg) (k : MaskSel) (s : State) : Out :=
  s.vword fun _ => s.needShape (s.core.ew == 8) <|
    let byte := fun j => VWord.elem (s.core.getV a) 8 j
    let es := s.core.active k
    s.vtrit (es.map fun e => byte (e / 5)) fun fl =>
      .next (s.upd ((s.core.putEls d (es.map fun e => (e, wrapInt 8 ((tritWeights (byte (e / 5))).getD (e % 5) 0)))).vnext fl))

/-- VTACC (R176). -/
def execVtacc (d a b : VReg) (k : MaskSel) (c : Fin 32) (s : State) : Out :=
  s.vword fun _ => s.needShape (s.core.ew == 32) <|
    let byte := fun j => VWord.elem (s.core.getV a) 8 j
    let x := (List.range 5).map fun i => sval 8 (VWord.elem (s.core.getV b) 8 (5 * c.val + i))
    let es := s.core.active k
    s.vtrit (es.map byte) fun fl =>
      let sum := fun e => (List.zipWith (· * ·) (tritWeights (byte e)) x).foldl (· + ·) (s.core.el d e : Int)
      .next (s.upd ((s.core.putEls d (es.map fun e => (e, wrapInt 32 (sum e)))).vnext fl))

/-! ### Permutations (R177) -/

/-- VPERM (R177). -/
def execVperm (d a b : VReg) (k : MaskSel) (s : State) : Out :=
  s.vmap d k fun e => let t := s.core.el b e; if t < s.core.vl then s.core.el a t else 0
/-- VSLIDE (R177). -/
def execVslide (d a b : VReg) (k : MaskSel) (n : Fin 64) (s : State) : Out :=
  let vl := s.core.vl
  s.vmap d k fun e =>
    let t := e + n.val
    if t < vl then s.core.el a t else if t - vl < vl then s.core.el b (t - vl) else 0
/-- VBCAST (R177). -/
def execVbcast (d a : VReg) (k : MaskSel) (n : Fin 64) (s : State) : Out :=
  s.vmap d k fun _ => if n.val < s.core.vl then s.core.el a n.val else 0
/-- VIOTA (R177): every element below VL. -/
def execViota (d : VReg) (k : MaskSel) (n : Fin 64) (s : State) : Out :=
  s.vmap d 0 fun e => n.val + ((s.core.active k).filter fun j => decide (j < e)).length

/-! ### Reductions (R178, R179) -/

/-- VRSUM (R178). -/
def execVrsum (n : Fin 4) (a : VReg) (k : MaskSel) (u : Bool) (s : State) : Out :=
  s.vlatch n
    (BitVec.ofInt 64 (((s.core.active k).map fun e => elemInt s.core.ew u (s.core.el a e)).foldl (· + ·) 0))

/-- One level of VRFSUM's tree (R178). -/
def treePairs : List Nat → List Nat × Flags
  | x :: y :: rest =>
    let r := Fmt.f32.add .rne 0 x y
    let t := treePairs rest
    (r.1 :: t.1, r.2 ||| t.2)
  | l => (l, 0)

/-- VRFSUM's tree (R178); fuel is the number of entries. -/
def treeSum : Nat → List Nat → Flags → Nat × Flags
  | 0, l, f => (l.headD 0, f)
  | n + 1, l, f =>
    if l.length ≤ 1 then (l.headD 0, f)
    else let t := treePairs l; treeSum n t.1 (f ||| t.2)

/-- VRFSUM (R178): an only element stands as it is, but for a NaN, which is written as R139 gives it; a signalling one sets IV (R140). -/
def execVrfsum (n : Fin 4) (a : VReg) (k : MaskSel) (s : State) : Out :=
  s.vword fun _ => s.needShape (s.core.ew == 32) <|
    let xs := (s.core.active k).map fun e => s.core.el a e
    let r := treeSum xs.length xs 0
    let v := Fmt.f32.decode r.1
    let x := if v.isNaN then Fmt.f32.nanCode false else r.1
    .next (s.upd ((s.core.setQ n (BitVec.ofNat 64 x)).vnext (r.2 ||| flagIf v.sNaN Flags.iv)))

/-- The least or greatest of elements, ties to the first (R179). -/
def extreme (greater : Bool) (key : Nat → Int) : List Nat → Option Nat
  | [] => none
  | e :: t => match extreme greater key t with
    | none => some e
    | some b => if (if greater then key e < key b else key b < key e) then some b else some e

/-- The identity of a minimum or maximum of a type of w bits (R99, R179). -/
def redIdentity (greater u f : Bool) (w : Nat) : Int :=
  if f then (if greater then 0xFF800000 else 0x7F800000)
  else if u then (if greater then 0 else 2 ^ w - 1)
  else if greater then -(2 ^ (w - 1)) else 2 ^ (w - 1) - 1

/-- What the latch of VRMIN or VRMAX takes: the value extended to 64 bits, or with X its 32 bits below the index (R179). -/
def redLatch (x : Bool) (idx : Option Nat) (val : Int) : W64 :=
  if x then BitVec.ofNat 64 (wrapInt 32 val + 2 ^ 32 * idx.getD (2 ^ 32 - 1)) else BitVec.ofInt 64 val

/-- VRMIN and VRMAX (R179). -/
def State.vextreme (s : State) (greater : Bool) (n : Fin 4) (a : VReg) (k : MaskSel) (x u f : Bool) : Out :=
  s.vword fun _ => s.needShape (!f || s.core.ew == 32) <|
    let w := s.core.ew
    let es := s.core.active k
    let val := fun e => Fmt.f32.decode (s.core.el a e)
    let key := fun e => if f then
        (let c := s.core.el a e; if 2 ^ 31 ≤ c then -(c % 2 ^ 31 : Int) - 1 else (c : Int))
      else elemInt w u (s.core.el a e)
    let cand := if f then es.filter fun e => !(val e).isNaN else es
    let fl := flagIf (f && es.any fun e => (val e).sNaN) Flags.iv
    let q := match extreme greater key cand with
      | some e => redLatch x (some e) (if f then (s.core.el a e : Int) else elemInt w u (s.core.el a e))
      | none => redLatch x none (if f && !es.isEmpty then 0x7FC00000 else redIdentity greater u f w)
    .next (s.upd ((s.core.setQ n q).vnext fl))

/-- VRMIN (R179). -/
def execVrmin (n : Fin 4) (a : VReg) (k : MaskSel) (x u f : Bool) (s : State) : Out := s.vextreme false n a k x u f
/-- VRMAX (R179). -/
def execVrmax (n : Fin 4) (a : VReg) (k : MaskSel) (x u f : Bool) (s : State) : Out := s.vextreme true n a k x u f

/-! ### Memory (R180, R181) -/

/-- An implicit boundary that is due lands between two words of a block (R287). -/
def State.withImplicitVec (s : State) (k : State → Out) : Out :=
  if s.core.implicit then
    match s.boundary none true true with
    | .wait t => .next t
    | .done _ t => .next (t.upd ({ t.core with implicit := false }.setPx true))
  else k s

/-- The checks of elements at addresses, in ascending order (R181): their cell addresses, or the lowest failing one. Those before it on
other devices are checked there. -/
def State.vcells (s : State) (need : Need) (w : Nat) : List (Nat × W64) → List (Nat × W64 × Nat) × Option Fail
  | [] => ([], none)
  | (e, va) :: t =>
    match s.check va w need none false with
    | .error f => ([], some f)
    | .ok a => let r := s.vcells need w t; ((e, va, a) :: r.1, r.2)

/-- The reads of cells of n bytes, all of them at once (R181): k with their values when every byte is known. -/
def State.readMany (s : State) (who : Agent) (n : Nat) (cells : List (W64 × Nat)) (k : State → List Nat → Out)
    (refuse : State → Cause → W64 → Out) : Out :=
  let s1 := cells.foldl (fun t c => t.look c.2 n) s
  match cells.find? fun c => (s1.core.missing c.2 n).any remoteLine with
  | some c => s1.readAs who c.2 n (fun t _ => .next t) fun t cause _ => refuse t cause c.1
  | none =>
    match cells.mapM fun c => allBytes (s1.core.known c.2 n) with
    | some vs => k s1 (vs.map leVal)
    | none => .next s1

/-- The checks at other devices of a word's stores, one line after another (R91): k when all have passed. -/
def State.vremote (s : State) (v : VecRun) (cells : List (W64 × Nat)) (k : Out) : Out :=
  match cells.find? fun c => remoteBase ≤ c.2 && !v.seen.contains (lineOf c.2) with
  | none => k
  | some c =>
    s.ask .vec c.1 (.write []) fun t r => match r with
      | .refused cause _ => t.vfault (causeOf cause) c.1
      | .data _ | .status _ | .done | .ack _ | .creditFault _ _ _ _ _ =>
        .next (t.upd { t.core with vrun := t.core.vrun.map fun x => { x with seen := x.seen ++ [lineOf c.2] } })

/-- The accesses of a word pin the window pages they name (R273). -/
def State.pinAll (s : State) (cells : List (W64 × Nat)) : State :=
  cells.foldl (fun t c => t.pin t.core.id t.core.context c.1) s

/-- A load word of elements at addresses (R181). -/
def State.vload (s : State) (d : VReg) (els : List (Nat × W64)) : Out :=
  s.withImplicitVec fun s0 =>
    let n := s0.core.ew / 8
    let (ok, bad) := s0.vcells .read n els
    let cells := ok.map fun x => x.2
    match bad with
    | some (cause, va) =>
      -- those before it on other devices have their checks there first
      s0.readMany .vec n (cells.filter fun c => remoteBase ≤ c.2) (fun t _ => t.vfault cause va) fun t c a => t.vfault c a
    | none =>
      (s0.pinAll cells).readMany .vec n cells
        (fun t xs => .next (t.upd ((t.core.putEls d ((ok.map fun x => x.1).zip xs)).vnext 0)))
        fun t c a => t.vfault c a

/-- The bytes of a word's stores enter the version together, element by element in ascending order (R181). A word that takes the version
beyond VQUOTA first owes an implicit boundary, also where its own lines alone exceed it (R90, R287). -/
def State.vstores (s : State) (bs : List (Nat × List Byte)) (k : State → Out) : Out :=
  let after := bs.foldl (fun v x => verPutBytes v x.1 x.2) s.core.version
  let full := s.core.vrun.all (fun v => !v.passed) && decide (s.core.vquota.toNat < versionSize after)
  if s.core.commit.isSome then .next s
  else if bs.isEmpty then k s
  else if full then .next (s.upd { s.core with implicit := true, vrun := s.core.vrun.map fun v => { v with passed := true } })
  else match (match s.core.versionId with | some v => some v | none => s.freeVersion) with
    | none => .next s
    | some v => k (s.upd (bs.foldl (fun c x => c.intoVersion v x.1 x.2) s.core))

/-- A store word of elements at addresses (R181). -/
def State.vstore (s : State) (v : VecRun) (d : VReg) (els : List (Nat × W64)) : Out :=
  s.withImplicitVec fun s0 =>
    let n := s0.core.ew / 8
    let (ok, bad) := s0.vcells .write n els
    s0.vremote v (ok.map fun x => x.2) <|
      match bad with
      | some (cause, va) => s0.vfault cause va
      | none => (s0.pinAll (ok.map fun x => x.2)).vstores (ok.map fun x => (x.2.2, leBytes n (s0.core.el d x.1))) fun t => .next (t.upd (t.core.vnext 0))

/-- The base of a memory word: its loop register plus a signed count of 256 B (R180). -/
def State.vbase (s : State) (v : VecRun) (l : LReg) (o : BitVec 5) (k : W64 → Out) : Out :=
  s.vreg v l fun x => k (x + sext 5 o.toNat * 256)

/-- The addresses of consecutive elements, at a stride, or at indices (R180). -/
def Core.vline (c : Core) (k : MaskSel) (b : W64) : List (Nat × W64) :=
  (c.active k).map fun e => (e, b + BitVec.ofNat 64 (e * (c.ew / 8)))
def Core.vstride (c : Core) (k : MaskSel) (b st : W64) : List (Nat × W64) := (c.active k).map fun e => (e, b + BitVec.ofNat 64 e * st)
def Core.vindex (c : Core) (k : MaskSel) (b : W64) (a : VReg) : List (Nat × W64) :=
  (c.active k).map fun e => (e, b + BitVec.ofNat 64 (c.el a e * (c.ew / 8)))

/-- VLD (R180, R181). -/
def execVld (d : VReg) (l : LReg) (k : MaskSel) (o : BitVec 5) (s : State) : Out :=
  s.vword fun v => s.vbase v l o fun b => s.vload d (s.core.vline k b)
/-- VST (R180, R181). -/
def execVst (d : VReg) (l : LReg) (k : MaskSel) (o : BitVec 5) (s : State) : Out :=
  s.vword fun v => s.vbase v l o fun b => s.vstore v d (s.core.vline k b)
/-- VLDS (R180, R181). -/
def execVlds (d : VReg) (m l : LReg) (k : MaskSel) (o : BitVec 5) (s : State) : Out :=
  s.vword fun v => s.vbase v l o fun b => s.vreg v m fun st => s.vload d (s.core.vstride k b st)
/-- VSTS (R180, R181). -/
def execVsts (d : VReg) (m l : LReg) (k : MaskSel) (o : BitVec 5) (s : State) : Out :=
  s.vword fun v => s.vbase v l o fun b => s.vreg v m fun st => s.vstore v d (s.core.vstride k b st)
/-- VGATH (R180, R181). -/
def execVgath (d a : VReg) (l : LReg) (k : MaskSel) (o : BitVec 5) (s : State) : Out :=
  s.vword fun v => s.vbase v l o fun b => s.vload d (s.core.vindex k b a)
/-- VSCAT (R180, R181). -/
def execVscat (d a : VReg) (l : LReg) (k : MaskSel) (o : BitVec 5) (s : State) : Out :=
  s.vword fun v => s.vbase v l o fun b => s.vstore v d (s.core.vindex k b a)

/-! ### Conditional streams (R182, R183) -/

/-- VPUSHC (R183). -/
def execVpushc (a : VReg) (k : MaskSel) (p : Fin 8) (s : State) : Out :=
  s.vword fun _ =>
    let xs := (s.core.active k).map fun e => BitVec.ofNat 32 (s.core.el a e)
    if 1024 < s.core.ports[p].length + xs.length then s.vfault .streamfull (BitVec.ofNat 64 p.val)
    else .next (s.upd ({ s.core with ports := s.core.ports.set p (s.core.ports[p] ++ xs) }.vnext 0))

/-- VPOPF (R183). -/
def execVpopf (d a : VReg) (p : Fin 8) (s : State) : Out :=
  s.vword fun _ =>
    let got := s.core.ports[p].take s.core.vl
    let xs := (List.range s.core.vl).map fun e => (e, match got[e]? with | some x => x.toNat | none => s.core.el a e)
    .next (s.upd (({ s.core with ports := s.core.ports.set p (s.core.ports[p].drop s.core.vl) }.putEls d xs).vnext 0))

/-- VSTAT (R183). -/
def execVstat (n : Fin 4) (r : Bool) (p : Fin 8) (s : State) : Out :=
  s.vword fun _ =>
    let c := s.core.setQ n (BitVec.ofNat 64 s.core.ports[p].length)
    .next (s.upd ((if r then { c with ports := c.ports.set p [] } else c).vnext 0))

/-! ### Hash lookup (R184, R185) -/

/-- What a read of VLKUP meets: its value, bytes still to be read, or a failing check. -/
inductive Peek where
  | val (x : Nat)
  | need (va : W64) (a n : Nat)
  | bad (f : Fail)

/-- Bytes as the strand reads them, if they are known. -/
def State.peek (s : State) (va : W64) (n : Nat) : Peek :=
  match s.check va n .read none false with
  | .error f => .bad f
  | .ok a => match allBytes (s.core.known a n) with
    | some bs => .val (leVal bs)
    | none => .need va a n

/-- The fields of a lookup descriptor (R184). -/
def lkBase (d : Nat) : W64 := BitVec.ofNat 64 d
def lkLog (d : Nat) : Nat := d / 2 ^ 64 % 2 ^ 5
def lkPlim (d : Nat) : Nat := d / 2 ^ 80 % 2 ^ 16
def lkMiss (d : Nat) : Nat := d / 2 ^ 96 % 2 ^ 32
def lkSeed (d : Nat) : W64 := BitVec.ofNat 64 (d / 2 ^ 128)

/-- A descriptor is malformed (R184). -/
def lkBad (d : Nat) : Bool :=
  d / 2 ^ 192 ≠ 0 || d / 2 ^ 69 % 2 ^ 11 ≠ 0 || lkPlim d == 0 || decide (24 < lkLog d) || d % 16 ≠ 0

/-- The first entry a key probes (R185). -/
def lkHash (d : Nat) (k : W64) : Nat :=
  if lkLog d = 0 then 0 else ((k ^^^ lkSeed d) * 0x9E3779B97F4A7C15).toNat / 2 ^ (64 - lkLog d)

/-- The probes of a key from probe j on (R185); fuel is the probes left. -/
def State.lkProbe (s : State) (d : Nat) (k : W64) (h : Nat) : Nat → Nat → Peek
  | 0, _ => .val (lkMiss d)
  | n + 1, j =>
    match s.peek (lkBase d + BitVec.ofNat 64 (16 * ((h + j) % 2 ^ lkLog d))) 16 with
    | .val x =>
      let state := x / 2 ^ 96
      if state = 0 then .val (lkMiss d)
      else if state = 1 ∧ x % 2 ^ 64 = k.toNat then .val (x / 2 ^ 64 % 2 ^ 32)
      else s.lkProbe d k h n (j + 1)
    | .need va a m => .need va a m
    | .bad f => .bad f

/-- The lookups of elements with their keys, in ascending order: their values, or what the first one that has none meets. -/
def State.lkAll (s : State) (d : Nat) : List (Nat × W64) → List (Nat × Nat) × Option Peek
  | [] => ([], none)
  | (e, k) :: t =>
    match s.lkProbe d k (lkHash d k) (min (lkPlim d) (2 ^ lkLog d)) 0 with
    | .val y => let r := s.lkAll d t; ((e, y) :: r.1, r.2)
    | p => ([], some p)

/-- A word reads on: it begins again once these bytes are known, or ends in a fault. -/
def State.peekOn (s : State) (p : Peek) : Out :=
  match p with
  | .val _ => .next s
  | .need va a n =>
    (s.pin s.core.id s.core.context va).readAs .vec a n (fun t _ => .next t) fun t c _ => t.vfault c va
  | .bad (c, va) => s.vfault c va

/-- VLKUP (R185). -/
def execVlkup (d a b : VReg) (k : MaskSel) (t : LReg) (s : State) : Out :=
  s.vword fun v => s.needShape (s.core.ew == 32) <| s.vreg v t fun la =>
    if la.toNat % 32 ≠ 0 then s.vfault .lkupdesc la
    else s.withImplicitVec fun s0 => match s0.peek la 32 with
      | .val desc =>
        if lkBad desc then s0.vfault .lkupdesc la
        else
          let keys := (s0.core.active k).map fun e => (e, BitVec.ofNat 64 (s0.core.el a e * 2 ^ 32 + s0.core.el b e))
          match s0.lkAll desc keys with
          | (_, some p) => s0.peekOn p
          | (xs, none) => .next (s0.upd ((s0.core.putEls d xs).vnext 0))
      | p => s0.peekOn p

/-! ### Random bits (R186) -/

def Core.lmode (c : Core) : Bool := c.rngcfg.toNat % 2 == 1

/-- A pending half is discarded, whichever stream the word names (R160). -/
def Core.dropHalf (c : Core) : Core := { c with genHalf := none }

/-- VRAND (R186). -/
def execVrand (d : VReg) (k : MaskSel) (n : Fin 4) (s : State) : Out :=
  s.vword fun _ =>
    let (xs, _, c) := s.core.dropHalf.each (s.core.active k) fun c _ =>
      let r := genNext c.lmode c.gens[n]
      ((r.1.toNat, 0), { c with gens := c.gens.set n r.2 })
    .next (s.upd ((c.putEls d xs).vnext 0))

/-- A generator state as loaded: res fields 0, INC0 1 (R157, R186). -/
def genLoad (lmode : Bool) (v : Nat) : W256 :=
  BitVec.ofNat 256 (if lmode then (v / 2 ^ 129 * 2 + 1) * 2 ^ 128 else v / 2 ^ 64 * 2 ^ 64 + v % 4)

/-- VRSEED (R186). -/
def execVrseed (d a : VReg) (n : Fin 4) (s : State) : Out :=
  s.vword fun _ =>
    let c := s.core.dropHalf
    let c1 := c.setV d (VWord.put (c.getV d) 256 0 c.gens[n].toNat)
    .next (s.upd ({ c1 with gens := c1.gens.set n (genLoad c.lmode (VWord.elem (c.getV a) 256 0)) }.vnext 0))

/-- VRSKIP (R186). -/
def execVrskip (a : VReg) (n : Fin 4) (s : State) : Out :=
  s.vword fun _ =>
    let c := s.core.dropHalf
    .next (s.upd ({ c with gens := c.gens.set n (genSkip c.lmode c.gens[n] (VWord.elem (c.getV a) 64 0)) }.vnext 0))

end Sys2Proof.Machine
end

