-- ==== Sys2Proof/Machine/Matrix.lean ====
section
/-! DEFINITION. Matrix.lean: the matrix arrays (R196..R208) and tile tasks (R209..R212). -/

namespace Sys2Proof.Machine

/-! ### Planes and products (R152, R153, R197..R199) -/

/-- The pair of a weight format and an A type is in the table of R197. -/
def pairOk (w : Ty × Bool) (a : Ty) : Bool :=
  match w.1 with
  | .i8 => a == .i8
  | .e4m3 | .e5m2 => a == .e4m3 || a == .e5m2
  | .bf16 => a == .bf16 && !w.2
  | .q4b => a == .q4b && !w.2
  | .t3 => a == .i8 && !w.2
  | .i16 | .i32 | .i64 | .n8 | .n16 | .n32 | .n64 | .f32 | .f16 => false

/-- K rows of a plane, its bytes in the stream, and the bytes of an A row (R197). -/
def planeK (w : Ty × Bool) : Nat :=
  match w.1 with
  | .q4b | .t3 => 256
  | .bf16 => 128
  | _ => if w.2 then 256 else 128
def planeBytes (w : Ty × Bool) : Nat :=
  match w.1 with
  | .bf16 => 65536
  | .q4b => 36864
  | .t3 => 13312
  | _ => if w.2 then 40960 else 32768
def rowBytes (w : Ty × Bool) : Nat :=
  match w.1 with
  | .bf16 => 256
  | .q4b => 144
  | .t3 => 256
  | _ => if w.2 then 256 else 128

/-- The mode is integer (R152). -/
def intMode (w : Ty × Bool) : Bool := w.1 == .i8 || w.1 == .t3

/-- The operand of an element of a Q4B block (R143, R153). -/
def q4bOperand (c sc sp : Nat) : Operand :=
  let e : Int := if c = 8 then Fmt.e4m3.expOf sp else max ((c / 2 % 4 : Nat) : Int) 1 - 1
  (q4bValue c sc sp, e + sc - 127)

/-- The 32 operands of a Q4B block from its element plane and side entry. -/
def q4bBlock (plane side : List Byte) : List Operand :=
  (List.range 32).map fun i =>
    q4bOperand ((plane.getD (i / 2) 0).toNat / 16 ^ (i % 2) % 16) (side.getD 0 0).toNat (side.getD 1 0).toNat

/-- A list cut into groups of 32. -/
def groups32 {α : Type} (l : List α) : List (List α) := (List.range (l.length / 32)).map fun k => (l.drop (32 * k)).take 32

/-- The operands of an A row, in groups of 32 logical rows (R199). -/
def actGroups (a : Ty) (k : Nat) (bs : List Byte) : List (List Operand) :=
  match a with
  | .q4b => (List.range 8).map fun g => q4bBlock ((bs.drop (16 * g)).take 16) ((bs.drop (128 + 2 * g)).take 2)
  | .bf16 => groups32 (((chunks 2 bs).take k).map fun c => operandOf .bf16 (leVal c))
  | .e4m3 => groups32 ((bs.take k).map fun b => operandOf .e4m3 b.toNat)
  | _ => groups32 ((bs.take k).map fun b => operandOf .e5m2 b.toNat)

/-- The sparsity nibbles of a quad, column by column (R198). -/
def quadNibbles (meta_ : List (List Byte)) (q : Nat) : List Nat := meta_.map fun m => (m.getD (q / 2) 0).toNat / 16 ^ (q % 2) % 16

/-- A metadata byte names a row twice or in the wrong order: a nibble with a ≥ b (R200). -/
def badMeta (b : Byte) : Bool := let n := b.toNat; decide (n / 4 % 4 ≤ n % 4) || decide (n / 64 ≤ n / 16 % 4)

/-- One group's products for each of the 256 columns: activations against rows of weights. -/
def denseGroup (xs : List Operand) (rows : List (List Operand)) : List (List (FVal × Int)) :=
  (xs.zip rows).foldl (fun acc xr => List.zipWith (fun l w => opMul xr.1 w :: l) acc xr.2) (List.replicate 256 [])

/-- The same of a sparse plane: 8 quads, 16 physical rows; a row that carries no weight contributes nothing (R153, R198). -/
def sparseGroup (xs : List Operand) (rows : List (List Operand)) (nibs : List (List Nat)) : List (List (FVal × Int)) :=
  let zero : Operand := (.fin false 0 0, 0)
  (rows.zipIdx).foldl (fun acc rp =>
    let q := rp.2 / 2
    List.zipWith (fun l wn =>
      let k := 4 * q + (if rp.2 % 2 = 0 then wn.2 % 4 else wn.2 / 4)
      opMul (xs.getD k zero) wn.1 :: l) acc (rp.1.zip (nibs.getD q []))) (List.replicate 256 [])

/-- One A row accumulated into a tile row in a float mode, group by group (R153, R203). -/
def macFloat (w : Ty × Bool) (plane : List Byte) (groups : List (List Operand)) (acc : List W32) : List W32 :=
  let cells : List (List (List (FVal × Int))) :=
    match w.1 with
    | .q4b =>
      let cols := (List.range 256).map fun n => (((plane.drop (128 * n)).take 128), ((plane.drop (32768 + 16 * n)).take 16))
      groups.zipIdx.map fun xg => cols.map fun c =>
        List.zipWith opMul xg.1 (q4bBlock ((c.1.drop (16 * xg.2)).take 16) ((c.2.drop (2 * xg.2)).take 2))
    | .bf16 =>
      let rows := (chunks 512 plane).map fun r => (chunks 2 r).map fun c => operandOf .bf16 (leVal c)
      groups.zipIdx.map fun xg => denseGroup xg.1 ((rows.drop (32 * xg.2)).take 32)
    | t =>
      let f := if t = .e4m3 then Fmt.e4m3 else Fmt.e5m2
      let rows := (chunks 256 (plane.take 32768)).map fun r => r.map fun b => operandOf f b.toNat
      if w.2 then
        let meta_ := chunks 32 (plane.drop 32768)
        groups.zipIdx.map fun xg =>
          sparseGroup xg.1 ((rows.drop (16 * xg.2)).take 16) ((List.range 8).map fun q => quadNibbles meta_ (8 * xg.2 + q))
      else groups.zipIdx.map fun xg => denseGroup xg.1 ((rows.drop (32 * xg.2)).take 32)
  cells.foldl (fun a g => List.zipWith (fun x ps => BitVec.ofNat 32 (groupAcc x.toNat ps)) a g) acc

/-- One A row accumulated into a tile row in an integer mode (R152, R203). -/
def macInt (w : Ty × Bool) (plane : List Byte) (x : List Int) (acc : List W32) : List W32 :=
  let add := fun (a : W32) (v : Int) => a + BitVec.ofInt 32 v
  if w.1 = .t3 then
    List.zipWith (fun a col => add a ((List.zipWith (· * ·) x (col.flatMap fun b => tritWeights b.toNat)).foldl (· + ·) 0)) acc (chunks 52 plane)
  else
    let rows := (chunks 256 (plane.take 32768)).map fun r => r.map fun b => sval 8 b.toNat
    if w.2 then
      let meta_ := chunks 32 (plane.drop 32768)
      rows.zipIdx.foldl (fun a rp =>
        let q := rp.2 / 2
        List.zipWith (fun v wn => add v (wn.1 * x.getD (4 * q + (if rp.2 % 2 = 0 then wn.2 % 4 else wn.2 / 4)) 0)) a
          (rp.1.zip (quadNibbles meta_ q))) acc
    else (x.zip rows).foldl (fun a xr => List.zipWith (fun v w => add v (xr.1 * w)) a xr.2) acc

/-- An A row against the whole active plane (R203). -/
def macRow (w : Ty × Bool) (a : Ty) (plane row : List Byte) (acc : List W32) : List W32 :=
  if intMode w then macInt w plane ((row.take (planeK w)).map fun b => sval 8 b.toNat) acc
  else macFloat w plane (actGroups a (planeK w) row) acc

/-! ### Tiles (R196) -/

/-- Row r of tile t: +0.0 of kind F unless written. -/
def MatArray.row (a : MatArray) (t : Fin 4) (r : Nat) : TileRow :=
  (assoc r a.tiles[t]).getD { float := true, w := List.replicate 256 0 }

def MatArray.putRow (a : MatArray) (t : Fin 4) (r : Nat) (x : TileRow) : MatArray :=
  { a with tiles := a.tiles.set t (assocPut r x a.tiles[t]) }

/-- Gather status bits (R212). -/
def MatArray.addBits (a : MatArray) (b : Nat) : MatArray := { a with bits := a.bits ||| b }

/-! ### Loading and swapping planes (R200, R201) -/

/-- The shadow plane begins to load (R200). -/
def MatArray.startLoad (a : MatArray) (f : Nat) (fmt : Ty × Bool) (word : W64) : MatArray :=
  { a with
    shadow := { state := .loading, fmt := some fmt, stream := f, bytes := [] }, last := some (f, fmt.1, fmt.2), loadWord := word }

/-- The planes exchanged (R201). -/
def MatArray.swap (a : MatArray) : MatArray := { a with active := a.shadow, shadow := a.active }

/-- MWLD (R200). -/
def execMwld (tok : Tok) (f : Fin 32) (t : Ty) (sp : Bool) (s : State) : Out :=
  s.stepWord tok
    (fun u p =>
      if u.array.shadow.state = .loading || p.fault.isSome then u.hold p
      else u.reach p (u.stream f) 0 fun q => (u.putArray (u.array.startLoad (u.stream f) (t, sp) q.pc)).stepDone q tok)
    goOn

/-- The load of an array's shadow plane meets a fault: it is raised at the array's next step boundary (R200). -/
def State.loadFault (s : State) (p : ProgRun) (cause : Cause) (f : Nat) : State :=
  let a := s.array
  let r := { simpleReport cause 0 a.loadWord s.core.taskid 3 s.core.id with stream := some f, popped := a.shadow.bytes.length / (s.bank f).slotBytes }
  s.putArray { a with shadow := Plane.reset, run := some { p with fault := some r } }

/-- MWLD_LOAD_DONE (R200): the load of the shadow plane of an array takes a slot of its stream, and with the last one the plane is
loaded. -/
def execMwldLoadDone (g arr : Nat) (s : State) : Out :=
  match ((s.cluster g).arr arr).run with
  | none => .next s
  | some p =>
    let t := { s.focus p.core with unit := if arr = 0 then .arr0 else .arr1 }
    let a := t.array
    let f := a.shadow.stream
    let b := t.bank f
    let me := 10 + arr
    match a.shadow.fmt with
    | none => .next s
    | some w =>
      if a.shadow.state ≠ .loading || p.stopped || p.fault.isSome then .next s
      else if b.mode ≠ 2 then .next (t.loadFault p .notfifo f)
      else match b.slots with
        | [] => .next s
        | x :: rest =>
          if b.consumer.isNone then .next (t.putBank f { b with consumer := some me })
          else if b.consumer ≠ some me then .next s
          else
            let t1 := t.putBank f { b with slots := rest, popped := b.popped + 1, consumer := none }
            let have_ := a.shadow.bytes.length
            let bytes := (a.shadow.bytes ++ x).take (planeBytes w)
            if w.2 && ((bytes.drop (max have_ 32768)).any badMeta) then .next (t1.loadFault p .sparsemeta f)
            else
              let full := decide (planeBytes w ≤ bytes.length)
              .next (t1.putArray { t1.array with
                shadow := { a.shadow with bytes := bytes, state := if full then .loaded else .loading } })

/-- MSWAP (R201). -/
def execMswap (tok : Tok) (s : State) : Out :=
  s.stepWord tok
    (fun u p =>
      if u.array.shadow.state = .loading || p.fault.isSome then u.hold p
      else if u.array.shadow.state = .empty then u.progFault p .noplane 0
      else (u.putArray u.array.swap).stepDone p tok)
    goOn

/-- MSTRM (R202). -/
def execMstrm (tok : Tok) (f : Fin 32) (t : Ty) (s : State) : Out :=
  s.stepWord tok
    (fun u p =>
      (u.putArray { u.array with aStream := some (u.stream f, t) }).stepDone { p with streams := insertNat (u.stream f) p.streams } tok)
    goOn

/-! ### Products (R203, R204) -/

/-- The checks of MMAC before the rows of a plane (R203): the fault, if any. -/
def State.mmacBad (s : State) (t : Fin 4) (r m : Nat) : Option Cause :=
  let a := s.array
  match a.aStream, a.active.fmt with
  | none, _ => some .format
  | some _, none => some .noplane
  | some (_, at_), some w =>
    if a.active.state ≠ .loaded then some .noplane
    else if !pairOk w at_ then some .format
    else if (List.range m).any fun k => (a.row t (r + k)).float == intMode w then some .tilekind
    else none

/-- An illegal byte of a t3 plane sets TRIT (R145, R203). -/
def tritBits (w : Ty × Bool) (plane : List Byte) : Nat := if w.1 = .t3 && plane.any fun b => decide (242 < b.toNat) then 8 else 0

/-- The bytes of A rows that an MMAC of this many rows has performed (R362): of its units done, one in rows + 1 is a swap (log 59). -/
def ProgRun.macBytes (p : ProgRun) (a : MatArray) (rows : Nat) : Nat :=
  (p.done - p.done / (rows + 1)) * (match a.active.fmt with | some w => rowBytes w | none => 0)

/-- MMAC (R203): unit u of its work is a row or, before each plane but the first, a swap. -/
def execMmac (tok : Tok) (t : Fin 4) (r m : Fin 64) (pl : Fin 16) (s : State) : Out :=
  s.stepWord tok
    (fun u p =>
      let rows := m.val + 1
      let planes := pl.val + 1
      let plane := (p.done + 1) / (rows + 1)
      let pos := (p.done + 1) % (rows + 1)
      if planes ≤ plane then u.stepDone p tok
      else if pos = 0 then
        -- the swap before a plane, an interruptible point
        let a := u.array
        if a.shadow.state = .loading || p.fault.isSome then u.hold p
        else if a.shadow.state = .empty then u.faultAt p .noplane 0 (p.macBytes a rows)
        else
          let a1 := a.swap
          let u1 := u.putArray a1
          match u1.mmacBad t r.val rows with
          | some c => u1.faultAt p c 0 (p.macBytes a rows)
          | none =>
            let a2 := match a.last with
              | some (f, w) => if plane + 1 < planes then a1.startLoad f w p.pc else a1
              | none => a1
            .next ((u1.putArray a2).putProg { p with done := p.done + 1, point := true })
      else
        match (if p.done = 0 && p.buf.isEmpty then u.mmacBad t r.val rows else none), u.array.aStream, u.array.active.fmt with
        | some c, _, _ => u.progFault p c 0
        | none, some (f, at_), some w =>
          u.popUnit p f (rowBytes w) (p.macBytes u.array rows) fun v q bs =>
            let a := v.array
            let k := r.val + pos - 1
            let row := a.row t k
            let a1 := (a.putRow t k { row with w := macRow w at_ a.active.bytes bs row.w }).addBits (tritBits w a.active.bytes)
            let q1 := { q with done := q.done + 1, point := false }
            if planes ≤ (q1.done + 1) / (rows + 1) then (v.putArray a1).stepDone q1 tok
            else .next ((v.putArray a1).putProg q1)
        | none, _, _ => u.progFault p .format 0)
    goOn

/-- MZERO (R204). -/
def execMzero (tok : Tok) (t : Fin 4) (r m : Fin 64) (k : Bool) (s : State) : Out :=
  s.stepWord tok
    (fun u p =>
      let a := (List.range (m.val + 1)).foldl (fun a j => a.putRow t (r.val + j) { float := !k, w := List.replicate 256 0 }) u.array
      (u.putArray a).stepDone p tok)
    goOn

/-! ### Draining (R205..R208) -/

/-- The fields of a drain descriptor (R205). -/
def dscBase (d : Nat) : W64 := BitVec.ofNat 64 d
def dscStride (d : Nat) : Nat := d / 2 ^ 64 % 2 ^ 32
def dscJ0 (d : Nat) : W64 := sext 32 (d / 2 ^ 96)
def dscJ1 (d : Nat) : W64 := sext 32 (d / 2 ^ 128)
def dscStream (d : Nat) : Fin 32 := Fin.ofNat 32 (d / 2 ^ 160)

/-- The output is of kind F (R206). -/
def outFloat (o : Ty) : Bool := (tyFmt o).isSome

def clampTo (w : Nat) (x : Int) : Int := max (-(2 ^ (w - 1))) (min x (2 ^ (w - 1) - 1))

/-- An element as a drain writes it (R207), added to what is there for `.acc`: its code and its status bits SAT 4, OF 5, NAN 6. -/
def drainElem (o : Ty) (c : Bool) (old : Option Nat) (x : W32) : Nat × Nat :=
  match tyFmt o with
  | none =>
    let w := tyWidth o
    let v0 := sval 32 x.toNat
    let sum := match old with | some y => v0 + sval w y | none => v0
    let v1 := if old.isNone then v0 else if c then clampTo 32 sum else sval 32 (wrapInt 32 sum)
    let v2 := if c then clampTo w v1 else v1
    (wrapInt w v2, if c && (v2 != v1 || (old.isSome && v1 != sum)) then 2 ^ 4 else 0)
  | some f =>
    let (y, fl) := match old with
      | some b => Fmt.f32.add .rne 0 (cvtFF f .f32 .rne 0 b).1 x.toNat
      | none => (x.toNat, 0)
    let of0 := fl &&& Flags.of != 0
    if o = .f32 then
      let nan := (Fmt.f32.decode y).isNaN
      (if nan then Fmt.f32.nanCode false else y, (if nan then 2 ^ 6 else 0) + if of0 then 2 ^ 5 else 0)
    else
      let z := cvtFF .f32 f .rne 0 y
      let nan := (f.decode z.1).isNaN
      let of1 := z.2 &&& Flags.of != 0
      let sat := c && of1 && !f.ocp
      let code := if sat then z.1 - 1 else z.1
      (code, (if nan then 2 ^ 6 else 0) + (if of0 || of1 then 2 ^ 5 else 0) + if sat then 2 ^ 4 else 0)

/-- A tile row as a drain writes it: its bytes and the status bits. -/
def drainRow (o : Ty) (c : Bool) (old : Option (List Byte)) (row : List W32) : List Byte × Nat :=
  let ow := tyWidth o / 8
  let olds := match old with
    | some bs => (chunks ow bs).map fun b => some (leVal b)
    | none => List.replicate 256 none
  let xs := List.zipWith (fun y x => drainElem o c y x) olds row
  (xs.flatMap fun e => leBytes ow e.1, xs.foldl (fun b e => b ||| e.2) 0)

/-- The three targets of a drain (R206). -/
inductive DrainTo where
  | mem | acc | str
  deriving DecidableEq, Repr

/-- The address of a tile row in memory (R206). -/
def drainAddr (p : ProgRun) (d row : Nat) : W64 :=
  dscBase d + BitVec.ofNat 64 (row * dscStride d) + BitVec.ofNat 64 (p.j 0) * dscJ0 d + BitVec.ofNat 64 (p.j 1) * dscJ1 d

/-- An accumulating drain's row at its home (R208): the status bits and the state, or none while a line is not to be had. -/
def State.accHere (s : State) (spans : List (Nat × Nat)) (o : Ty) (c : Bool) (row : List W32) : Option (Nat × State) :=
  if !spans.all fun x => s.rangeSettled x.1 x.2 then none
  else
    let r := s.spansRead spans
    let new := drainRow o c (some r.1) row
    some (new.2, r.2.spansWrite spans new.1)

/-- MDRAIN's descriptor, read as the step begins (R205, R206): k with it. -/
def State.drainDesc (s : State) (p : ProgRun) (rcd : TileRec) (e : Fin 4) (k : State → ProgRun → Nat → Out) : Out :=
  match p.idx with
  | some d => k s p d
  | none =>
    let va := rcd.arg + BitVec.ofNat 64 (32 * e.val)
    if va.toNat % 32 ≠ 0 then s.progFault p .draindesc va
    else s.engRead p va 32 (fun t c v => t.progFault p c v) fun t bs =>
      let d := leVal bs
      if d / 2 ^ 165 ≠ 0 then t.progFault p .draindesc va
      else .next (t.putProg { p with idx := some d, point := false })

/-- A row of a drain goes to its target (R206). -/
def State.drainOne (s : State) (p : ProgRun) (tgt : DrainTo) (o : Ty) (c : Bool) (d row : Nat) (w : List W32) (k : State → Nat → Out) : Out :=
  let va := drainAddr p d row
  let ow := tyWidth o / 8
  let off := 256 * ow * p.done
  let bad := fun (t : State) (cause : Cause) (v : W64) => t.faultAt p cause v off
  match tgt with
  | .str =>
    let x := drainRow o c none w
    s.reach p (s.stream (dscStream d)) off fun q =>
      .next ((s.putArray (s.array.addBits x.2)).putProg { q with buf := x.1, done := q.done + 1, point := false })
  | .mem => match s.check va ow .write none false with
    | .error (cause, v) => bad s cause v
    | .ok _ =>
      let x := drainRow o c none w
      s.engWrite p va x.1 bad fun t => k t x.2
  | .acc => match s.check va ow .write none false, s.engCheck va (256 * ow) .write with
    | .error (cause, v), _ => bad s cause v
    | .ok _, .error (cause, v) => bad s cause v
    | .ok _, .ok spans =>
      if s.isRemote va then
        (s.putProg p).ask s.unit va (.accRow o c w) fun t r => match r with
          | .data bs => k t (leVal bs)
          | .refused cause v => bad t (causeOf cause) v
          | .status _ | .done | .ack _ | .creditFault _ _ _ _ _ => k t 0
      else match (s.pinSpan s.core.id s.core.context va (256 * ow)).accHere spans o c w with
        | none => .next (s.putProg p)
        | some (bits, t) => k t bits

/-- MDRAIN in its three forms (R206). -/
def State.mdrain (s : State) (tok : Tok) (tgt : DrainTo) (t : Fin 4) (r m : Fin 64) (o : Ty) (c : Bool) (e : Fin 4) : Out :=
  s.stepWord tok
    (fun u p => match u.array.rcd with
      | none => .next s
      | some rcd => u.drainDesc p rcd e fun v q d =>
        if !q.buf.isEmpty then v.pushBuf q (v.stream (dscStream d)) (256 * (tyWidth o / 8) * q.done) false
        else if m.val < q.done then
          let bytes := 256 * (tyWidth o / 8) * (m.val + 1)
          let v1 := if tgt = .str || rcd.donebar = 0 then v else v.creditVa v.core.id rcd.donebar bytes false q.pc 3
          v1.stepDone q tok
        else
          let row := r.val + q.done
          let x := v.array.row t row
          if x.float ≠ outFloat o then v.faultAt q .tilekind 0 (256 * (tyWidth o / 8) * q.done)
          else v.drainOne q tgt o c d row x.w fun w bits =>
            .next ((w.putArray (w.array.addBits bits)).putProg { q with done := q.done + 1, point := false }))
    goOn

/-- MDRAIN to memory (R206). -/
def execMdrainMem (tok : Tok) (t : Fin 4) (r m : Fin 64) (o : Ty) (c : Bool) (e : Fin 4) (s : State) : Out :=
  s.mdrain tok .mem t r m o c e
/-- MDRAIN accumulating into memory (R206, R208). -/
def execMdrainAcc (tok : Tok) (t : Fin 4) (r m : Fin 64) (o : Ty) (c : Bool) (e : Fin 4) (s : State) : Out :=
  s.mdrain tok .acc t r m o c e
/-- MDRAIN into a stream (R206). -/
def execMdrainStr (tok : Tok) (t : Fin 4) (r m : Fin 64) (o : Ty) (c : Bool) (e : Fin 4) (s : State) : Out :=
  s.mdrain tok .str t r m o c e

/-! ### Loops, waits, the end -/

/-- MLOOP with a constant count (R191). -/
def execMloop (tok : Tok) (n : Fin 4096) (b : Fin 1024) (s : State) : Out := s.loopWord tok b.val (.inl n.val)

/-- MLOOP with a count from a register (R191). -/
def execMloopReg (tok : Tok) (l : LReg) (b : Fin 1024) (s : State) : Out := s.loopWord tok b.val (.inr l)

/-- MWAITB (R193). -/
def execMwaitb (tok : Tok) (l : LReg) (turn : Bool) (s : State) : Out := s.waitb tok l turn

/-- MEND (R76, R210): every drain has credited; the status is written and credited; then the MTASK is complete. -/
def execMend (tok : Tok) (s : State) : Out :=
  let fin := fun (t : State) (p : ProgRun) => Host.Outcome.next (t.dropProg p)
  s.stepWord tok
    (fun t p => match t.array.rcd with
      | none => .next s
      | some rcd =>
        if t.credits.any fun c => c.core == t.core.id && c.engine == 3 then t.hold p
        else if p.done = 1 || rcd.staddr = 0 then t.tokSend p tok fin
        else t.engWrite p rcd.staddr (leBytes 8 (t.array.bits + 1)) (fun u cause va => u.progFault p cause va) fun u =>
          .next ((if rcd.donebar = 0 then u else u.creditVa u.core.id rcd.donebar 8 false p.pc 3).putProg { p with done := 1, point := false }))
    fin

/-! ### The tile scheduler (R52, R53, R209) -/

/-- The scheduler refuses a record (R53). -/
def tileRefused (ws : List W64) : Bool :=
  let w := quad ws 0
  bitsOf w 7 0 ≠ 1 || bitsOf w 15 10 ≠ 0 || bitsOf w 31 21 ≠ 0 || bitsOf w 63 39 ≠ 0 || quad ws 7 ≠ 0
    || bitsOf w 9 8 == 3 || decide (16 < bitsOf w 38 34) || bitsOf (quad ws 1) 5 0 ≠ 0
    || (bitsOf w 16 16 == 1 && bitsOf (quad ws 2) 3 0 ≠ 0) || (bitsOf w 17 17 == 1 && bitsOf (quad ws 3) 3 0 ≠ 0)
    || bitsOf (quad ws 5) 2 0 ≠ 0

def TileRec.tw (r : TileRec) : Bool := bitsOf (quad r.words 0) 18 18 == 1
def TileRec.tq (r : TileRec) : Nat := bitsOf (quad r.words 0) 33 32
def TileRec.tcnt (r : TileRec) : Nat := if r.tw then bitsOf (quad r.words 0) 38 34 else 0
/-- Awaited barrier k: whether it is awaited, its turn, its address. -/
def TileRec.bar (r : TileRec) (k : Nat) : Bool × Bool × W64 :=
  (bitsOf (quad r.words 0) (16 + k) (16 + k) == 1, bitsOf (quad r.words 0) (19 + k) (19 + k) == 1, quad r.words (2 + k))

/-- The array numbers a record may take (R52). -/
def TileRec.arrays (r : TileRec) : List Nat :=
  let a := bitsOf (quad r.words 0) 9 8
  if a = 0 then [0] else if a = 1 then [1] else [0, 1]

/-- What the scheduler sees of an awaited barrier. -/
inductive BarLook where
  | met | unmet | ask
  | bad (f : Fail)

def lookAt (b : Bar) (turn : Bool) (va : W64) : BarLook :=
  if b.turn ≠ turn then .unmet else if b.err then .bad (.barerr, va) else .met

/-- An awaited barrier of a record of the current core, its turn seen before or not (R209). -/
def State.barLook (s : State) (x : Bool × Bool × W64) (seen : Bool) : BarLook :=
  if !x.1 || seen then .met
  else match s.checkPage s.core.context (clusterOf s.core.id) x.2.2 16 .read with
    | .error f => .bad f
    | .ok a =>
      if remoteBase ≤ a then .ask
      else match s.barAt a with
        | some (b, _) => lookAt b x.2.1 x.2.2
        | none => .unmet

/-- A question of the scheduler to another device. -/
def State.askTile (s : State) (va : W64) (n : Nat) : State :=
  { s.upd { s.core with remote := some { who := .tile, dev := globalDev va, addr := va, since := s.clock, answer := none } } with
    fabric := s.fabric ++ [{ cls := 0, dev := globalDev va, addr := va, core := s.core.id, data := [], op := some (.load n none) }] }

/-- The scheduler's question of the current core is answered: the address asked, the answer, and the state without it. -/
def State.tileAnswer (s : State) : Option (W64 × FabricReply × State) :=
  match s.core.remote with
  | some q => if q.who = .tile then q.answer.map fun r => (q.addr, r, s.upd { s.core with remote := none }) else none
  | none => none

/-- A record leaves the scheduler with its command. -/
def State.dropRecord (s : State) (g : Nat) (r : TileRec) : State :=
  let cl := s.cluster g
  let s1 := s.putCluster g { cl with records := cl.records.filter fun x => !(x.core == r.core && x.cmd.num == r.cmd.num) }
  let c := s1.coreAt r.core
  s1.putCore { c with mq := c.mq.filter fun m => m.num ≠ r.cmd.num }

/-- An awaited barrier with an error, or at an address that fails its checks, ends the record (R209). -/
def State.failRecord (s : State) (g : Nat) (r : TileRec) (f : Fail) : State :=
  let s1 := s.tileStatus r (f.1.code * 2 ^ 40 + 2)
  let s2 := s1.dropRecord g r
  let s3 := if r.donebar = 0 then s2 else s2.creditVa r.core r.donebar 0 true r.prog 3
  s3.charge r.core (simpleReport f.1 f.2 0 (s3.coreAt r.core).taskid 3 r.core)

/-- A record issues on an array (R209, R196, R262). -/
def State.issueRecord (s : State) (g k : Nat) (r : TileRec) : State :=
  let cl := s.cluster g
  let c := s.core
  let x := c.tok r.tq
  let s1 := s.upd (if r.tcnt = 0 then c else c.putTok r.tq (x.1 - r.tcnt, x.2))
  let p : ProgRun :=
    { cmd := r.cmd, core := r.core, start := r.prog, pc := r.prog, regs := r.cmd.regs, loops := [], stage := 0, point := true, done := 0
      buf := [], idx := none, streams := [], up := some r.tq, down := some (r.tq ^^^ 1), code := [], waits := none, fault := none
      circuit := false, stopped := false }
  let a := { cl.arr k with active := Plane.reset, shadow := Plane.reset, last := none, aStream := none, run := some p, rcd := some r, bits := 0 }
  s1.putCluster g (({ cl with records := cl.records.filter fun y => !(y.core == r.core && y.cmd.num == r.cmd.num) }).putArr k a)

/-- Two records are one. -/
def TileRec.same (r x : TileRec) : Bool := x.core == r.core && x.cmd.num == r.cmd.num

/-- A record of the scheduler is changed. -/
def State.mapRecord (s : State) (g : Nat) (r : TileRec) (f : TileRec → TileRec) : State :=
  let cl := s.cluster g
  s.putCluster g { cl with records := cl.records.map fun y => if r.same y then f y else y }

/-- The scheduler acts for a core: its strand is not pre-empted and no abort is due. -/
def Core.tileRuns (c : Core) : Bool := c.seq != .preempted && !c.abortDue

/-- What the scheduler sees of a record's two barriers. -/
def State.looks (s : State) (r : TileRec) : BarLook × BarLook := (s.barLook (r.bar 0) r.waited, s.barLook (r.bar 1) r.waited1)

/-- A record fails for a barrier that it cannot wait for, or issues when it is ready and an array is free: the next state, if either (R209). -/
def State.tryRecord (s : State) (g : Nat) (r : TileRec) : Option State :=
  let t := s.focus r.core
  if !t.core.tileRuns then none
  else match t.looks r with
    | (.bad f, _) | (_, .bad f) => if t.statusFree r then some (t.failRecord g r f) else none
    | (.met, .met) =>
      if (t.core.tok r.tq).1 < r.tcnt then none
      else (r.arrays.find? fun k => ((t.cluster g).arr k).run.isNone).map fun k => t.issueRecord g k r
    | (.met, .unmet) | (.met, .ask) | (.unmet, .met) | (.unmet, .unmet) | (.unmet, .ask) | (.ask, .met) | (.ask, .unmet) | (.ask, .ask) => none

/-- The barrier that a record still has to ask another device for, of two the one asked for longer ago. -/
def State.wants (s : State) (r : TileRec) : Option Nat :=
  match (s.focus r.core).looks r with
  | (.ask, .ask) => some (if r.asked1 < r.asked0 then 1 else 0)
  | (.ask, .met) | (.ask, .unmet) | (.ask, .bad _) => some 0
  | (.met, .ask) | (.unmet, .ask) | (.bad _, .ask) => some 1
  | (.met, .met) | (.met, .unmet) | (.met, .bad _) | (.unmet, .met) | (.unmet, .unmet) | (.unmet, .bad _) | (.bad _, .met) | (.bad _, .unmet)
  | (.bad _, .bad _) => none

/-- Of some records the one whose last question is the oldest; of several, the oldest record. -/
def leastAsked : List TileRec → Option TileRec
  | [] => none
  | r :: t => match leastAsked t with
    | some o => if max o.asked0 o.asked1 < max r.asked0 r.asked1 then some o else some r
    | none => some r

/-- The scheduler asks another device for a barrier of a record of core c, the record asked for the longest time ago first (R209). -/
def State.pollRecord (s : State) (g c : Nat) : Option State :=
  let t := s.focus c
  if !t.core.tileRuns || t.core.remote.isSome then none
  else
    match leastAsked ((t.cluster g).records.filter fun r => r.core == c && (t.wants r).isSome) with
    | none => none
    | some r => (t.wants r).map fun k =>
        (t.askTile (r.bar k).2.2 16).mapRecord g r fun y => if k = 0 then { y with asked0 := t.clock } else { y with asked1 := t.clock }

/-- The record that core c's oldest MTASK without one names has been read: it joins the scheduler, or is refused (R53, R209). DESIGN CHOICE
(log 32): RECREFUSE reports the record's address in FADDR and 0 in WADDR. -/
def State.acceptRecord (s : State) (g c : Nat) (cmd : Cmd) (bs : List Byte) : State :=
  let ws := quads bs
  if tileRefused ws then
    (s.upd { s.core with mq := s.core.mq.filter fun m => m.num ≠ cmd.num }).charge c
      (simpleReport .recrefuse cmd.addr 0 s.core.taskid 3 c)
  else
    let cl := s.cluster g
    let u := s.upd { s.core with mq := s.core.mq.map fun m => if m.num = cmd.num then { m with started := true } else m }
    u.putCluster g { cl with
      records := cl.records ++ [{ core := c, cmd := { cmd with started := true }, ctx := s.core.context, words := ws, waited := false }] }

/-- A record that cannot be read is a fault of its task (R76). -/
def State.loseRecord (s : State) (c : Nat) (cmd : Cmd) (f : Fail) : State :=
  (s.upd { s.core with mq := s.core.mq.filter fun m => m.num ≠ cmd.num }).charge c (simpleReport f.1 f.2 0 s.core.taskid 3 c)

/-- The oldest MTASK of core c whose record has not arrived, with the record once it is read (R209): the next state. -/
def State.recordArrives (s : State) (g c : Nat) : Option State :=
  let t := s.focus c
  match t.core.mq.find? fun m => !m.started with
  | none => none
  | some cmd =>
    if !t.core.tileRuns then none
    else match t.checkPage t.core.context g cmd.addr 64 .read with
      | .error f => some (t.loseRecord c cmd f)
      | .ok a =>
        if a < remoteBase then
          (if t.rangeSettled a 64 then
            let r := (t.pin c t.core.context cmd.addr).spanRead a 64
            some (r.2.acceptRecord g c cmd r.1)
          else none)
        else if t.core.remote.isNone then some (t.askTile cmd.addr 64) else none

/-- An answer to the scheduler: a record, or the barriers of the records that wait at its address (R209). -/
def State.tileHears (s : State) (g c : Nat) : Option State :=
  (s.focus c).tileAnswer.map fun (va, r, t) =>
    let cmd := t.core.mq.find? fun m => !m.started && m.addr == va
    let at_ := fun (k : Nat) (y : TileRec) => y.core == c && (y.bar k).1 && (y.bar k).2.2 == va
    let barFail := fun (f : Fail) => match (t.cluster g).records.find? fun y => at_ 0 y || at_ 1 y with
      | some y => if t.statusFree y then t.failRecord g y f else t
      | none => t
    match r with
    | .refused k v => match cmd with
      | some m => t.loseRecord c m (causeOf k, v)
      | none => barFail (causeOf k, v)
    | .data bs =>
      if bs.length = 64 then (match cmd with | some m => t.acceptRecord g c m bs | none => t)
      else
        let b := barOf (leVal bs)
        let hit := fun (k : Nat) (y : TileRec) => at_ k y && b.turn == (y.bar k).2.1
        match (t.cluster g).records.find? fun y => b.err && (hit 0 y || hit 1 y) with
        | some y => if t.statusFree y then t.failRecord g y (.barerr, va) else t
        | none =>
          let cl := t.cluster g
          t.putCluster g { cl with
            records := cl.records.map fun y => { y with waited := y.waited || hit 0 y, waited1 := y.waited1 || hit 1 y } }
    | .status _ | .done | .ack _ | .creditFault _ _ _ _ _ => t

/-- TILE_TASK_ISSUE (R209): an answer or a record arrives at the cluster's scheduler, lower core first; or the oldest record that is ready
issues, or one fails; or another device is asked for a barrier. -/
def execTileTaskIssue (g : Nat) (s : State) : Out :=
  let cores := (List.range 4).map fun k => 4 * g + k
  match ((cores.findSome? fun c => s.tileHears g c).orElse fun _ => (cores.findSome? fun c => s.recordArrives g c).orElse fun _ =>
      ((s.cluster g).records.findSome? fun r => s.tryRecord g r).orElse fun _ => cores.findSome? fun c => s.pollRecord g c) with
  | some t => .next t
  | none => .next s

end Sys2Proof.Machine
end

