-- ==== Sys2Proof/Machine/NodeStore.lean ====
section
/-! DEFINITION. NodeStore.lean: node references (R30) and records (R126), and the node-store instructions (R127..R132, R332..R335). -/

namespace Sys2Proof.Machine

/-! ### References and records -/

def refDev (x : W64) : Nat := bitsOf x 63 44
def refDie (x : W64) : Nat := bitsOf x 43 42
def refIdx (x : W64) : Nat := bitsOf x 19 0

/-- A reference that R30 refuses. -/
def nodeRefBad (x : W64) : Bool := decide (1 < refDie x) || bitsOf x 41 20 ≠ 0

def nodeRef (dev die idx : Nat) : W64 := BitVec.ofNat 64 (dev * 2 ^ 44 + die * 2 ^ 42 + idx)

/-- Bits [hi:lo] of a record. -/
def recBits (x : W256) (hi lo : Nat) : Nat := x.toNat / 2 ^ lo % 2 ^ (hi + 1 - lo)

/-- A record with bits [hi:lo] replaced. -/
def recSet (x : W256) (hi lo v : Nat) : W256 :=
  BitVec.ofNat 256 (x.toNat - recBits x hi lo * 2 ^ lo + v % 2 ^ (hi + 1 - lo) * 2 ^ lo)

/-- The record of this device that a reference names, allocated to a context. -/
def State.node? (s : State) (ctx : Nat) (x : W64) : Option Node :=
  if nodeRefBad x || refDev x ≠ s.devid then none
  else (assoc (refIdx x) (s.die (refDie x)).nodes).filter fun n => n.ctx == ctx

def State.putNode (s : State) (x : W64) (n : Node) : State :=
  let d := s.die (refDie x)
  s.putDie (refDie x) { d with nodes := assocPut (refIdx x) n d.nodes }

/-- An error in a node record aborts the instruction's task (R370). -/
def State.nodeEcc (s : State) (x : W64) : State :=
  s.charge s.core.id (simpleReport .ecc x s.core.pc s.core.taskid 5 s.core.id)

/-- The question to another device that a reference names (R127). -/
def State.askNode (s : State) (x : W64) (op : RemoteOp) (k : State → List Byte → Out) : Out :=
  if !s.devValid then s.precise .remote x
  else match s.core.remote with
    | none =>
      .next { s.upd { s.core with
          remote := some { who := .seq, dev := refDev x, addr := x, since := s.clock, answer := none } } with
        fabric := s.fabric ++ [{ cls := 0, dev := refDev x, addr := x, core := s.core.id, data := [], op := some op }] }
    | some r =>
      if r.who ≠ .seq || r.addr ≠ x then .next s
      else match r.answer with
        | none => .next s
        | some (.refused c v) =>
          let t := s.upd { s.core with remote := none }
          if c = Cause.ecc.code then (t.nodeEcc v).pass else t.precise (causeOf c) v
        | some (.data bs) => k (s.upd { s.core with remote := none }) bs
        | some (.status _) | some .done | some (.ack _) | some (.creditFault _ _ _ _ _) => k (s.upd { s.core with remote := none }) []

/-! ### NALLOC (R128) -/

/-- The lowest run of n free records, given those allocated in ascending order. -/
def lowestRun (n : Nat) : Nat → List (Nat × Node) → Option Nat
  | start, [] => if start + n ≤ 2 ^ 20 then some start else none
  | start, (k, _) :: t => if start + n ≤ k then some start else lowestRun n (k + 1) t

/-- A record just allocated: zero with V. -/
def Node.fresh (ctx : Nat) : Node := { ctx := ctx, bits := BitVec.ofNat 256 (2 ^ 112), err := false }

/-- The records a context holds on a die. -/
def Die.nodeCount (d : Die) (ctx : Nat) : Nat := (d.nodes.filter fun n => n.2.ctx == ctx).length

/-- NALLOC (R128). -/
def execNalloc (d a b : Reg) (s : State) : Out :=
  let n := (s.core.getG a).toNat
  let w := s.core.getG b
  if n = 0 || 65535 < n then s.precise .badopnd (s.core.getG a)
  else if bitsOf w 63 1 ≠ 0 then s.precise .badopnd w
  else
    let die := bitsOf w 0 0
    let x := s.die die
    let ctx := s.core.context
    let room := match s.ctx? ctx with | some c => decide (x.nodeCount ctx + n ≤ c.limNodes) | none => false
    match room, lowestRun n 0 x.nodes with
    | true, some k =>
      let nodes := (List.range n).foldl (fun l i => assocPut (k + i) (Node.fresh ctx) l) x.nodes
      (s.putDie die { x with nodes := nodes }).write d (nodeRef s.devid die k)
    | _, _ => s.write d (BitVec.allOnes 64)

/-- Records of this device freed for a context (R128, R335); none when one of them is not allocated to it. -/
def State.freeNodes (s : State) (ctx : Nat) (x : W64) (n : Nat) : Option State :=
  let k := refIdx x
  let d := s.die (refDie x)
  if nodeRefBad x || 2 ^ 20 < k + n || !(List.range n).all (fun i => match assoc (k + i) d.nodes with | some y => y.ctx == ctx | none => false)
  then none
  else some (s.putDie (refDie x) { d with nodes := d.nodes.filter fun e => !(decide (k ≤ e.1) && decide (e.1 < k + n)) })

/-- NALLOC.free (R128). DESIGN CHOICE (log 64): whichever record of the run is at fault, EVAL of NODEREF is the first reference. -/
def execNallocFree (d a b : Reg) (s : State) : Out :=
  let x := s.core.getG a
  let n := (s.core.getG b).toNat
  if n = 0 || 65535 < n then s.precise .badopnd (s.core.getG b)
  else if nodeRefBad x then s.precise .noderef x
  else if refDev x ≠ s.devid then s.askNode x (.nodeFree n) fun t _ => t.write d 0
  else match s.freeNodes s.core.context x n with
    | none => s.precise .noderef x
    | some t => t.write d 0

/-! ### NINIT and NRD (R129, R130) -/

/-- The groups of a mask replaced from an image (R129). -/
def nodeInit (old img : W256) (m : Nat) : W256 :=
  let put := fun (on : Bool) (hi lo : Nat) (x : W256) => if on then recSet x hi lo (recBits img hi lo) else x
  let x1 := put (m % 2 == 1) 79 0 old
  let shape := m / 2 % 2 == 1
  let x2 := put shape 95 80 (put shape 111 96 (put shape 127 120 (put shape 115 113 x1)))
  let x3 := put (m / 4 % 2 == 1) 191 128 x2
  recSet (recSet (put (m / 8 % 2 == 1) 255 192 x3) 112 112 1) 119 116 0

/-- NINIT at a record's home; a whole replacement clears its error (R129, R370). -/
def Node.init (n : Node) (img : List Byte) (m : Nat) : Node :=
  { n with bits := nodeInit n.bits (BitVec.ofNat 256 (leVal img)) m, err := n.err && m != 15 }

/-- NINIT (R129). -/
def execNinit (a b : Reg) (m : BitVec 4) (s : State) : Out :=
  let x := s.core.getG a
  let va := s.core.getG b
  if nodeRefBad x then s.precise .noderef x
  else s.withImplicit fun t =>
    t.addressed va 32 .read none false fun u pa =>
      u.readAs .seq pa 32 (fun y img =>
        if refDev x ≠ y.devid then y.askNode x (.nodeInit m.toNat img) fun z _ => z.pass
        else match y.node? y.core.context x with
          | none => y.precise .noderef x
          | some n => ((if n.err && m ≠ 15 then y.nodeEcc x else y).putNode x (n.init img m.toNat)).pass)
        fun y c _ => y.precise c va

/-- Quadword k of a record. -/
def Node.quadword (n : Node) (k : Nat) : W64 := BitVec.ofNat 64 (n.bits.toNat / 2 ^ (64 * k))

/-- NRD (R130). -/
def execNrd (d a : Reg) (k : Fin 4) (s : State) : Out :=
  let x := s.core.getG a
  if nodeRefBad x then s.precise .noderef x
  else if refDev x ≠ s.devid then s.askNode x (.nodeRead k.val) fun t bs => t.write d (BitVec.ofNat 64 (leVal bs))
  else match s.node? s.core.context x with
    | none => s.precise .noderef x
    | some n => if n.err then (s.nodeEcc x).pass else s.write d (n.quadword k.val)

/-! ### Walks (R131, R334) -/

/-- The action of a walk on one record: kind 0 NVL, 1 NBACK, 2 NBACK.alt. -/
def nodeStep (kind : Nat) (u : W32) (d : Nat) (b : W256) : W256 :=
  let vl := recBits b 79 64
  if kind = 0 then recSet b 79 64 (min (vl + d) 65535)
  else
    recSet (recSet (recSet b 31 0 (min (recBits b 31 0 + 1) (2 ^ 32 - 1))) 63 32 (f32add (recBits b 63 32) u.toNat)) 79 64 (vl - d)

/-- What a walk's step at one node leads to: its end, or the next node with the value it carries there and the steps made. -/
inductive WalkEnd where
  | done
  | trap (x : W64)
  | ecc (x : W64)
  | on (x : W64) (u : W32) (k : Nat)

/-- A walk's step at its node's home on this device (R131, R332); a node of another device is not stepped on here. -/
def State.walkStep (s : State) (f : WalkFwd) : WalkEnd × State :=
  let x := f.node
  if nodeRefBad x || f.k = 4096 then (.trap x, s)
  else if refDev x ≠ s.devid then (.on x f.v f.k, s)
  else match s.node? f.ctx x with
    | none => (.trap x, s)
    | some y =>
      if y.err then (.ecc x, s)
      else
        let s1 := s.putNode x { y with bits := nodeStep f.kind f.v f.d y.bits }
        if recBits y.bits 113 113 = 1 then (.done, s1)
        else (.on (y.quadword 2) (if f.kind = 2 then f.v ^^^ 0x80000000 else f.v) (f.k + 1), s1)

/-- The strand is still at the instruction that waits for a walk. -/
def WalkFwd.waited (f : WalkFwd) (c : Core) : Bool := c.micro == 1 && c.pc == f.pc && c.taskid == f.task && c.seq == .run

/-- An answer to another device in class C (R385). -/
def State.replyTo (s : State) (dev : Nat) (addr : W64) (r : FabricReply) : State :=
  { s with fabric := s.fabric ++ [{ cls := 3, dev := dev, addr := addr, core := 0, data := [], op := none, reply := some r }] }

/-- A walk takes a step at its node (R131, R332, R334): its end comes back to the strand that waits, or to the device that asked; otherwise it
is on its way to the next node. -/
def State.walkFrom (s : State) (f : WalkFwd) : Out :=
  let r := s.walkStep f
  let on := fun (x : W64) (u : W32) (k : Nat) => Host.Outcome.next { r.2 with walks := r.2.walks ++ [{ f with node := x, v := u, k := k }] }
  match f.src with
  | some dev =>
    let back := fun (x : FabricReply) => Host.Outcome.next (r.2.replyTo dev f.asked x)
    match r.1 with
    | .done => back .done
    | .trap x => back (.refused Cause.noderef.code x)
    | .ecc x => back (.refused Cause.ecc.code x)
    | .on x u k => on x u k
  | none =>
    let t := r.2.focus f.core
    let waits := f.waited t.core
    match r.1 with
    | .done => if waits then t.pass else .next r.2
    | .trap x => if waits then t.precise .noderef x else .next r.2
    | .ecc x => if waits then (t.nodeEcc x).pass else .next r.2
    | .on x u k => on x u k

/-- A walk begun on another device leaves this one (R334): that device hears which node it goes to, and its end is answered there. -/
def State.walkOn (s : State) (f : WalkFwd) (dev : Nat) : State :=
  let t := s.replyTo dev f.asked (.data (leBytes 8 f.node.toNat))
  { t with fabric := t.fabric ++ [{ cls := 0, dev := refDev f.node, addr := f.node, core := 0, data := []
                                    op := some (.walk f.kind f.v f.d f.k), via := some dev }] }

/-- A walk leaves for another device in class A, and its strand waits for the answer (R334). -/
def State.walkAway (s : State) (f : WalkFwd) : Out :=
  let t := s.focus f.core
  if !f.waited t.core then .next s
  else if !t.devValid then t.precise .remote f.node
  else .next { t.upd { t.core with
      micro := 2, remote := some { who := .seq, dev := refDev f.node, addr := f.node, since := t.clock, answer := none } } with
    fabric := t.fabric ++ [{ cls := 0, dev := refDev f.node, addr := f.node, core := f.core, data := []
                             op := some (.walk f.kind f.v f.d f.k) }] }

/-- A walk instruction (R131): its step at the first node, the rest as forwarded steps. -/
def State.walkInstr (s : State) (x : W64) (kind d : Nat) (v : W32) : Out :=
  if s.core.micro = 1 then .next s
  else if s.core.micro = 2 then
    match s.core.remote with
    | none => .next s
    | some r => match r.answer with
      | none => .next s
      | some (.refused c y) =>
        let t := s.upd { s.core with remote := none }
        if c = Cause.ecc.code then (t.nodeEcc y).pass else t.precise (causeOf c) y
      | some (.data _) | some (.status _) | some .done | some (.ack _) | some (.creditFault _ _ _ _ _) => (s.upd { s.core with remote := none }).pass
  else if nodeRefBad x then s.precise .noderef x
  else
    (s.part 1).walkFrom
      { core := s.core.id, pc := s.core.pc, task := s.core.taskid, ctx := s.core.context, kind := kind, node := x, v := v, d := d, k := 0 }

/-- NVL (R131). -/
def execNvl (a b : Reg) (s : State) : Out :=
  let w := s.core.getG b
  if bitsOf w 63 16 ≠ 0 then s.precise .badopnd w else s.walkInstr (s.core.getG a) 0 (bitsOf w 15 0) 0

/-- NBACK (R131). -/
def execNback (a b : Reg) (s : State) : Out :=
  let w := s.core.getG b
  if bitsOf w 63 48 ≠ 0 then s.precise .badopnd w
  else s.walkInstr (s.core.getG a) 1 (bitsOf w 47 32) (BitVec.ofNat 32 w.toNat)

/-- NBACK.alt (R131). -/
def execNbackAlt (a b : Reg) (s : State) : Out :=
  let w := s.core.getG b
  if bitsOf w 63 48 ≠ 0 then s.precise .badopnd w
  else s.walkInstr (s.core.getG a) 2 (bitsOf w 47 32) (BitVec.ofNat 32 w.toNat)

/-- WALK_FORWARD (R332, R334): the k-th walk on its way takes its step at its next node's home, or leaves for another device. -/
def execWalkForward (k : Nat) (s : State) : Out :=
  match s.walks[k]? with
  | none => .next s
  | some f =>
    let t := { s with walks := s.walks.eraseIdx k }
    if nodeRefBad f.node || refDev f.node = s.devid then t.walkFrom f
    else match f.src with
      | some dev => .next (t.walkOn f dev)
      | none =>
        if f.waited (s.coreAt f.core) && (s.coreAt f.core).remote.isSome then .next s else t.walkAway f

/-! ### NSEL (R132) -/

/-- score > best: zeros equal, a NaN below every number. -/
def scoreAbove (a b : Nat) : Bool :=
  if (Fmt.f32.decode b).isNaN then !(Fmt.f32.decode a).isNaN else (Fmt.f32.cmp .gt a b).1

/-- The score of a child (R132). -/
def childScore (b : W256) (sq fpu cpuct vlv : Nat) : Nat :=
  let n := recBits b 31 0
  let vl := recBits b 79 64
  let c := n + vl
  let q := if c = 0 then fpu else f32div (f32sub (recBits b 63 32) (f32mul (f32ofNat vl) vlv)) (f32ofNat c)
  let t := f32div (f32mul (f32mul cpuct (f32ofBf16 (recBits b 111 96))) sq) (f32ofNat (c + 1))
  f32add q t

/-- The square root that NSEL takes of the parent's visits (R132). -/
def parentRoot (b : W256) : Nat := f32sqrt (f32ofNat (recBits b 31 0 + recBits b 79 64))

/-- How a scan ends: the best child's number, a refused reference, or a record in error. -/
inductive ScanEnd where
  | best (i : Nat)
  | trap (x : W64)
  | ecc (x : W64)

/-- The scan of NSEL for another device over the children left, from child i on, with the best so far and its score (R132); it is one step
(log 61). -/
def State.scan (s : State) (ctx : Nat) (child : W64) (sq fpu cpuct vlv : Nat) : Nat → Nat → Option (Nat × Nat) → ScanEnd
  | 0, _, best => .best (match best with | some b => b.1 | none => 0)
  | n + 1, i, best =>
    let x := child + BitVec.ofNat 64 i
    if nodeRefBad child || 2 ^ 20 ≤ refIdx child + i then .trap x
    else match s.node? ctx x with
      | none => .trap x
      | some y =>
        if y.err then .ecc x
        else
          let sc := childScore y.bits sq fpu cpuct vlv
          let up := match best with | none => true | some b => scoreAbove sc b.2
          s.scan ctx child sq fpu cpuct vlv n (i + 1) (if up then some (i, sc) else best)

/-- The f32 a CSR holds. -/
def csrF32 (x : W64) : Nat := x.toNat % 2 ^ 32

/-- NSEL reads its next child (R132, R332): after the last one the best is the result. -/
def State.scanStep (s : State) (d : Reg) (z : Scan) : Out :=
  let x := z.child + BitVec.ofNat 64 z.i
  let c := s.core
  if nodeRefBad z.child || 2 ^ 20 ≤ refIdx z.child + z.i then s.precise .noderef x
  else match s.node? c.context x with
    | none => s.precise .noderef x
    | some y =>
      if y.err then (s.nodeEcc x).pass
      else
        let sc := childScore y.bits z.sq (csrF32 c.fpu) (csrF32 c.cpuct) (csrF32 c.vlv)
        let best := match z.best with | none => (z.i, sc) | some b => if scoreAbove sc b.2 then (z.i, sc) else b
        if z.i + 1 = z.n then s.write d (z.child + BitVec.ofNat 64 best.1)
        else .next (s.upd { c with micro := 1, scan := some { z with i := z.i + 1, best := some best } })

/-- NSEL (R132): the parent is read, then its children one after another; those on another device are scanned there. -/
def execNsel (d a : Reg) (s : State) : Out :=
  let x := s.core.getG a
  let c := s.core
  if c.micro = 1 then (match c.scan with | some z => s.scanStep d z | none => .next s)
  else if nodeRefBad x then s.precise .noderef x
  else if refDev x ≠ s.devid then
    s.askNode x (.nodeSelect c.fpu c.cpuct c.vlv) fun t bs => t.write d (BitVec.ofNat 64 (leVal bs))
  else match s.node? c.context x with
    | none => s.precise .noderef x
    | some p =>
      let n := recBits p.bits 95 80
      let child := p.quadword 3
      let sq := parentRoot p.bits
      if p.err then (s.nodeEcc x).pass
      else if recBits p.bits 114 114 = 0 || n = 0 then s.write d (BitVec.allOnes 64)
      else if !nodeRefBad child && refDev child ≠ s.devid then
        s.askNode child (.nodeScan n (BitVec.ofNat 32 sq) c.fpu c.cpuct c.vlv) fun t bs => t.write d (BitVec.ofNat 64 (leVal bs))
      else .next (s.upd { c with micro := 1, scan := some { sq := sq, child := child, n := n, i := 0, best := none } })

end Sys2Proof.Machine
end

