-- ==== Sys2Proof/Machine/Fabric.lean ====
section
/-! DEFINITION. Fabric.lean: the device as a home for other devices (R127, R131, R132, R295, R385), answers that come back and answers
that do not (R87, R384), the residency report (R387). -/

namespace Sys2Proof.Machine

/-! ### Time -/

/-- Fabric cycles in a microsecond (R397). -/
def State.mhz (s : State) : Nat :=
  match s.power.current with
  | 0 => 1400
  | 1 => 1050
  | _ => 700

/-- The fabric's timeout for a device, in microseconds: 50 over UALink, 5,000 over Ultra Ethernet (R384). -/
def State.timeout (s : State) (dev : Nat) : Nat := if dev / 1024 = s.devid / 1024 then 50 else 5000

/-! ### Accesses at home for another device (R385) -/

/-- The checks of n bytes of a context's address, page by page (R87, causes 3 to 5): their physical spans. -/
def State.homeSpans (s : State) (ctx : Nat) (need : Need) : Nat → W64 → Nat → Except Fail (List (Nat × Nat))
  | 0, _, _ => .ok []
  | fuel + 1, va, n =>
    let m := min n (4096 - va.toNat % 4096)
    match s.checkPage ctx 0 va m need with
    | .error f => .error f
    | .ok a =>
      if n ≤ m then .ok [(a, m)]
      else match s.homeSpans ctx need fuel (va + BitVec.ofNat 64 m) (n - m) with
        | .error f => .error f
        | .ok l => .ok ((a, m) :: l)

/-- The committed bytes of spans: memory, merged first, or a doorbell register (R101, R378). -/
def State.spanBytes (s : State) (spans : List (Nat × Nat)) : List Byte × State :=
  spans.foldl (fun (acc : List Byte × State) x =>
    match doorbellQueue x.1 with
    | some q => (acc.1 ++ leBytes x.2 (acc.2.doorbellRead q (x.1 % 64)).toNat, acc.2)
    | none =>
      let r := acc.2.homeRead x.1 x.2
      (acc.1 ++ r.1, r.2)) ([], s)

/-- A line of the spans is lost (R370). -/
def State.lostSpans (s : State) (spans : List (Nat × Nat)) : Bool := spans.any fun x => (linesAt x.1 x.2).any s.lost.contains

/-- The scope of an access of another device is recorded on its line (R292). -/
def State.recordFor (s : State) (src a : Nat) (sc : Option Scope) : State :=
  match sc with
  | none => s
  | some q => s.putLine { s.lineInfo (lineOf a) with scope := some (q, src * 1024) }

/-- An access of another device that passes its home's checks (R87, R292); a refused one is answered with its cause. One that its line cannot
serve yet has not been performed. -/
def State.forRemote (s : State) (src ctx : Nat) (va : W64) (n : Nat) (need : Need) (reads : Bool) (sc : Option Scope) (record : Bool)
    (k : State → List (Nat × Nat) → Out) : Out :=
  let no := fun (c : Cause) => Host.Outcome.next (s.replyTo src va (.refused c.code va))
  if (s.ctx? ctx).isNone then no .remote
  else match s.homeSpans ctx need (n / 4096 + 2) va n with
    | .error (c, _) => no c
    | .ok spans =>
      let a := (spans.headD (0, 0)).1
      let l := lineOf a
      if spans.any fun x => !s.rangeSettled x.1 x.2 then .next s
      else if sc.isSome && physTop ≤ a then no .buserr
      else
        let passes := !record || (match sc, (s.lineInfo l).scope with | some q, some r => scopeIncludes q (src * 1024) r | _, _ => true)
        if !passes then no .scope
        else if reads && s.lostSpans spans then .next ((s.recordFor src a sc).replyTo src va (.refused Cause.lostline.code va))
        else k s spans

/-- An atomic at home (R96, R97, R98): the old bytes and the tag are the answer. -/
def State.remoteAtomic (s : State) (src : Nat) (va : W64) (a op w b cmp : Nat) : State :=
  let l := lineOf a
  let r := s.homeRead a w
  let old := leVal r.1
  let t := match amoNew op w old (b % 2 ^ (8 * w)) (cmp % 2 ^ (8 * w)) with
    | some n => r.2.homeWrite a (leBytes w n)
    | none => r.2
  let info := t.lineInfo l
  let u := t.putLine { info with tag := info.tag + 1 }
  u.replyTo src va (.data (r.1 ++ leBytes 4 (info.tag + 1).toNat))

/-- A place in the directory for a region, an entry of its set evicted at once if none is free (R301): its lines are merged and their copies
withdrawn. -/
def State.roomNow (s : State) (r : Nat) : State :=
  if s.hasRoom r then s
  else match (s.setRegions r).find? fun x => (List.range 4).all fun k => s.settled (x * 4 + k) with
    | none => s
    | some x => ((List.range 4).foldl (fun t k => t.withdraw (x * 4 + k)) s).freeEntry x

/-- An update at home joins the fabric's one partial of the line (R100, R304). -/
def State.remoteUpd (s0 : State) (a : Nat) (tag : UpdTag) (b : W64) : State :=
  let l := lineOf a
  let s := s0.roomNow (l / 4)
  let s1 := if (s.dirLine l).hs = .upd && (s.dirLine l).op = some tag then s
    else (s.withdraw l).putDir { DirLine.unc l with hs := .upd, op := some tag }
  let d := s1.dirLine l
  let p := (d.fab.getD (Partial.identity tag)).apply (a % 128) b.toNat
  (s1.putDir { d with fab := some p }).shoot l

/-- An action on a barrier object at home (R104, R105): the bytes it had are the answer, with a 17th for a malformed one. A BAREXP whose sum is
too large changes nothing, the line's scope record included. -/
def State.remoteBar (s : State) (src : Nat) (va : W64) (a k v : Nat) (sc : Option Scope) : State :=
  let r0 := s.homeRead a 16
  let r := (r0.1, r0.2.recordFor src a sc)
  let b := barOf (leVal r.1)
  let data := fun (t : State) => t.replyTo src va (.data r.1)
  if k = 0 then data (r.2.putBar a { expect := v % 2 ^ 48, arrived := 0, res := 0, err := false, turn := false })
  else if k = 1 && decide (2 ^ 48 - 1 < b.expect + v) then r0.2.replyTo src va (.refused Cause.badopnd.code (BitVec.ofNat 64 v))
  else if b.res ≠ 0 then r.2.replyTo src va (.data (r.1 ++ [1]))
  else if k = 1 then data (r.2.putBar a ({ b with expect := b.expect + v }.credit 0 false))
  else data (r.2.putBar a (b.credit v (k != 2)))

/-- A record that a node-store instruction of another device names (R127). -/
def State.remoteNode (s : State) (src ctx : Nat) (x : W64) (k : Node → Out) : Out :=
  match s.node? ctx x with
  | none => .next (s.replyTo src x (.refused Cause.noderef.code x))
  | some n => k n

/-- How a scan for another device answers (R132). -/
def State.remoteScan (s : State) (src ctx : Nat) (at_ child : W64) (n sq : Nat) (fpu cpuct vlv : W64) : State :=
  match s.scan ctx child sq (csrF32 fpu) (csrF32 cpuct) (csrF32 vlv) n 0 none with
  | .trap y => s.replyTo src at_ (.refused Cause.noderef.code y)
  | .ecc y => s.replyTo src at_ (.refused Cause.ecc.code y)
  | .best i => s.replyTo src at_ (.data (leBytes 8 (child + BitVec.ofNat 64 i).toNat))

/-- NSEL for another device: children on a third device are scanned there (R127, R132). -/
def State.remoteSelect (s : State) (src ctx : Nat) (x : W64) (p : Node) (fpu cpuct vlv : W64) : State :=
  let n := recBits p.bits 95 80
  let child := p.quadword 3
  let sq := parentRoot p.bits
  if p.err then s.replyTo src x (.refused Cause.ecc.code x)
  else if recBits p.bits 114 114 = 0 || n = 0 then s.replyTo src x (.data (leBytes 8 (2 ^ 64 - 1)))
  else if !nodeRefBad child && refDev child ≠ s.devid then
    { s with fabric := s.fabric ++ [{ cls := 0, dev := refDev child, addr := child, core := 0, data := []
                                      op := some (.nodeScan n (BitVec.ofNat 32 sq) fpu cpuct vlv), via := some src }] }
  else s.remoteScan src ctx x child n sq fpu cpuct vlv

/-- REMOTE_ACCESS (R385): a class A message of another device for a context of this one is performed at its home and answered in class C. -/
def execRemoteAccess (src ctx : Nat) (addr : W64) (op : RemoteOp) (s : State) : Out :=
  let node := fun (k : Out) => if !s.devValid || nodeRefBad addr || refDev addr ≠ s.devid then .next s
    else if (s.ctx? ctx).isNone then .next (s.replyTo src addr (.refused Cause.remote.code addr)) else k
  let mem := fun (k : Out) => if !s.devValid || !isGlobal addr || globalDev addr ≠ s.devid then .next s else k
  match op with
  | .load n sc => mem (s.forRemote src ctx addr (max 1 n) .read true sc true fun t spans =>
      let r := (t.recordFor src (spans.headD (0, 0)).1 sc).spanBytes spans
      .next (r.2.replyTo src addr (.data (r.1.take n))))
  | .check w n sc rec => mem (s.forRemote src ctx addr (max 1 n) (if w then .write else .read) false sc rec fun t spans =>
      .next ((t.recordFor src (spans.headD (0, 0)).1 sc).replyTo src addr .done))
  | .fetch => mem (s.forRemote src ctx addr 64 .fetch true none false fun t spans =>
      let r := t.spanBytes spans
      .next (r.2.replyTo src addr (.data r.1)))
  | .atomic op size b cmp sc =>
    let w := if size then 8 else 4
    mem (s.forRemote src ctx addr w .write true (some sc) true fun t spans =>
      let a := (spans.headD (0, 0)).1
      .next ((t.recordFor src a (some sc)).remoteAtomic src addr a op w b.toNat cmp.toNat))
  | .upd tag b sc => mem (s.forRemote src ctx addr (updBytes tag) .write false (some sc) true fun t spans =>
      let a := (spans.headD (0, 0)).1
      .next (((t.recordFor src a (some sc)).remoteUpd a tag b).replyTo src addr .done))
  | .barrier k v sc => mem (s.forRemote src ctx addr 16 .write (k != 0) sc (k != 0) fun t spans =>
      .next (t.remoteBar src addr (spans.headD (0, 0)).1 k v sc))
  | .write bytes => mem (s.forRemote src ctx addr (max 1 bytes.length) .write false none false fun t spans =>
      if spans.any fun x => physTop ≤ x.1 then .next (t.replyTo src addr (.refused Cause.buserr.code addr))
      else .next ((if bytes.isEmpty then t else t.spansWrite spans bytes).replyTo src addr .done))
  | .accRow o c row => mem (s.forRemote src ctx addr (256 * (tyWidth o / 8)) .write true none false fun t spans =>
      match t.accHere spans o c row with
      | some (bits, u) => .next (u.replyTo src addr (.data (leBytes 8 bits)))
      | none => .next s)
  | .walk kind v d k => node (s.walkFrom
      { core := 0, pc := 0, task := 0, ctx := ctx, kind := kind, node := addr, v := v, d := d, k := k, src := some src
        asked := addr })
  | .nodeRead k => node (s.remoteNode src ctx addr fun n =>
      .next (s.replyTo src addr (if n.err then .refused Cause.ecc.code addr else .data (leBytes 8 (n.quadword (k % 4)).toNat))))
  | .nodeInit m image => node (s.remoteNode src ctx addr fun n =>
      .next ((s.putNode addr (n.init image m)).replyTo src addr
        (if n.err && m % 16 ≠ 15 then .refused Cause.ecc.code addr else .done)))
  | .nodeFree n => node (match s.freeNodes ctx addr n with
      | some t => .next (t.replyTo src addr .done)
      | none => .next (s.replyTo src addr (.refused Cause.noderef.code addr)))
  | .nodeSelect fpu cpuct vlv => node (s.remoteNode src ctx addr fun p => .next (s.remoteSelect src ctx addr p fpu cpuct vlv))
  | .nodeScan n sq fpu cpuct vlv => node (.next (s.remoteScan src ctx addr addr n sq.toNat fpu cpuct vlv))

/-! ### Commits of other devices (R295) -/

/-- The cell of a byte that another device's version holds at an offset of the context's global segment: memory, or a doorbell's TAIL; none
when it may no longer be written. -/
def State.batchCell (s : State) (ctx : Nat) (c : Nat × Byte) : Option (Nat × Byte) :=
  let va := BitVec.ofNat 64 (2 ^ 63 + s.devid * 2 ^ 43 + c.1 % 2 ^ 43)
  match s.checkPage ctx 0 va 1 .write, s.checkPage ctx 0 (va &&& ~~~7) 8 .write with
  | .ok a, _ => some (a, c.2)
  | .error _, .ok a => some (a + va.toNat % 8, c.2)
  | .error _, .error _ => none

/-- REMOTE_COMMIT_BATCH (R295): the batch is one commit of this device with a number of its own, and is acknowledged. -/
def execRemoteCommitBatch (src ctx : Nat) (cells : List (Nat × Byte)) (s : State) : Out :=
  let v := (cells.filterMap (s.batchCell ctx)).foldl (fun acc c => verPut acc c.1 c.2) []
  let ls := linesOf (versionMem v)
  if !s.devValid || !ls.all s.settled then .next s
  else
    let t := (ls.foldl (fun u l => (u.withdraw l).shoot l) s).applyVersion v
    .next ({ t with commitNo := nextCommit t.commitNo }.replyTo src 0 (.ack s.devid))

/-! ### Answers (R87, R384, R385) -/

/-- The question that a core's request stands for. -/
def State.question (s : State) (c : Nat) (q : RemoteReq) : Option FabricMsg :=
  s.fabric.reverse.find? fun m => m.core == c && m.addr == q.addr && m.reply.isNone && decide (m.cls ≤ 1)

/-- An answer is one to the question (R109, R385). -/
def State.fits (s : State) (c : Nat) (q : RemoteReq) (r : FabricReply) : Bool :=
  match r with
  | .refused _ _ => true
  | .ack _ | .creditFault _ _ _ _ _ => false
  | .status n => (match s.question c q with | some m => m.op.isNone && decide (n ≤ 2) | none => false)
  | .data bs => (match (s.question c q).bind (·.op) with
      | some (.barrier _ _ _) => bs.length == 16 || bs.length == 17
      | some (.walk _ _ _ _) => bs.length == 8
      | some op => answerBytes op == some bs.length
      | none => false)
  | .done => (match (s.question c q).bind (·.op) with | some op => (answerBytes op).isNone | none => false)

/-- The request once it has an answer; a walk that has been passed on waits for the node it was passed to (R334). -/
def State.heard (s : State) (c : Nat) (q : RemoteReq) (r : FabricReply) : RemoteReq :=
  match (s.question c q).bind (·.op), r with
  | some (.walk _ _ _ _), .data bs =>
    let x := BitVec.ofNat 64 (leVal bs)
    { q with dev := refDev x, since := s.clock, reached := some x }
  | _, _ => { q with answer := some r }

/-- The credit that a core has sent to an address of another device for a word of a task. -/
def State.creditSent (s : State) (c : Nat) (addr : W64) (task : W32) (word : W64) (engine : Nat) : Option Credit :=
  (s.fabric.filterMap fun m => m.credit).find? fun k =>
    k.core == c && remoteAddr k.addr == addr && k.task == task && k.word == word && k.engine == engine

/-- The answer to a hint (R103): lines that PFH.l1 asked for enter the L1, marks are set; a granule that its home refuses is dropped and
counted. -/
def State.hintAnswer (s : State) (h : HintReq) (r : FabricReply) : State :=
  let first := (remoteBase + h.addr.toNat % 2 ^ 63) / 128
  let lines := (List.range (h.n / 128)).map (first + ·)
  match r with
  | .refused _ _ => s.upd s.core.dropHint
  | .data bs => (chunks 128 bs).zipIdx.foldl (fun t b => t.lease h.since (first + b.2) b.1) s
  | .done | .status _ | .ack _ | .creditFault _ _ _ _ _ => lines.foldl (fun t l => t.hintLine h.form l) s

/-- An answer is one to a hint. -/
def HintReq.fits (h : HintReq) (r : FabricReply) : Bool :=
  match r with
  | .refused _ _ => true
  | .data bs => h.form == 0 && bs.length == h.n
  | .done => h.form != 0
  | .status _ | .ack _ | .creditFault _ _ _ _ _ => false

/-- FABRIC_ANSWER (R92, R103, R104, R109, R385): an answer for a core's request or one of its hints, an acknowledgement of its commit, or a fault of
its credit. An acknowledgement that nothing awaits any more changes nothing. -/
def execFabricAnswer (c : Nat) (r : FabricReply) (s : State) : Out :=
  let x := s.coreAt c
  let hint : Out :=
    match x.hints.find? fun h => h.fits r with
    | some h =>
      let t := s.focus c
      .next (t.upd { t.core with hints := t.core.hints.erase h } |>.hintAnswer h r)
    | none => .next s
  match r with
  | .ack dev => match x.acks.find? fun a => a.2 == dev with
    | some a => .next (s.putCore { x with acks := x.acks.erase a })
    | none => .next s
  | .creditFault cause addr task word engine =>
    match s.creditSent c addr task word engine with
    | none => .next s
    | some k =>
      if !([Cause.pageflt, .prot, .buserr, .remote, .barcredit].any fun k => k.code == cause) then .next s
      else .next (s.chargeLate c k.ctx { simpleReport .barcredit addr word task engine c with code := cause })
  | .data _ | .status _ | .done | .refused _ _ => match x.remote with
    | some q =>
      if q.answer.isNone && s.fits c q r then .next (s.putCore { x with remote := some (s.heard c q r) }) else hint
    | none => hint

/-- The hint of a core whose home has not answered in time (R103, R384). -/
def State.lateHint (s : State) (x : Core) : Option HintReq :=
  x.hints.find? fun h => decide (h.since + s.timeout (globalDev h.addr) * s.mhz ≤ s.clock)

/-- FABRIC_TIMEOUT (R87, R103, R109, R334, R384): the device has not answered in time. -/
def execFabricTimeout (c : Nat) (s : State) : Out :=
  let x := s.coreAt c
  let hint : Out := match s.lateHint x with
    | some h => .next (s.putCore { x.dropHint with hints := x.hints.erase h })
    | none => .next s
  match x.remote with
  | some q =>
    if q.answer.isNone && decide (q.since + s.timeout q.dev * s.mhz ≤ s.clock) then
      .next (s.putCore { x with remote := some { q with answer := some (.refused Cause.remote.code (q.reached.getD q.addr)) } })
    else hint
  | none => hint

/-! ### The residency report (R387) -/

def Die.freeTcbs (d : Die) : Nat := 2 ^ 20 - (d.tcbs.filter fun b => b.2.state != .free).length
def Die.freeTrees (d : Die) : Nat := 4096 - d.liveTrees.length
def Chip.freeFrames (c : Chip) : Nat := c.npg - c.frames.length

/-- Resident queues and clusters free of launches, of a die. -/
def State.residentQueues (s : State) (die : Nat) : Nat := (s.queues.filter fun q => queueDie q.id == die && q.resident).length
def State.freeClusters (s : State) (die : Nat) : Nat := ((List.range 128).filter fun k => s.clusterFree (die * 128 + k)).length

/-- Contexts with a running or pre-empted launch. -/
def State.busyContexts (s : State) : Nat :=
  (s.contexts.filter fun c => s.launches.any fun l => l.ctx == c.id && l.st != .waiting).length

/-- The 512 bits of a report. -/
def State.residency (s : State) (seq : Nat) : Nat :=
  1 + s.busyContexts % 2 ^ 13 * 2 ^ 221 + s.freeClusters 0 % 2 ^ 8 * 2 ^ 234 + s.freeClusters 1 % 2 ^ 8 * 2 ^ 242
    + s.residentQueues 0 % 2 ^ 9 * 2 ^ 250 + s.residentQueues 1 % 2 ^ 9 * 2 ^ 259
    + s.die0.freeTrees % 2 ^ 13 * 2 ^ 268 + s.die1.freeTrees % 2 ^ 13 * 2 ^ 281
    + s.die0.freeTcbs % 2 ^ 21 * 2 ^ 294 + s.die1.freeTcbs % 2 ^ 21 * 2 ^ 315
    + s.chip0.freeFrames % 2 ^ 24 * 2 ^ 336 + s.chip1.freeFrames % 2 ^ 24 * 2 ^ 360
    + s.devid % 2 ^ 20 * 2 ^ 384 + seq % 2 ^ 32 * 2 ^ 416 + s.cycle % 2 ^ 64 * 2 ^ 448

/-- A report for this device's own memory is written there, in the context whose TELEMETRY asked for it; an address that fails its checks gets
none (R28, R387, log 62). -/
def State.reportHere (s : State) (bs : List Byte) : State :=
  match s.engPage s.telemetry.ctx 0 s.telemetry.dest 64 .write with
  | .error _ => s
  | .ok a => s.homeWrite a bs

/-- The lines of a report for this device's own memory can be written now (R284). -/
def State.reportFree (s : State) : Bool :=
  s.isRemote s.telemetry.dest || (match s.engPage s.telemetry.ctx 0 s.telemetry.dest 64 .write with
    | .error _ => true
    | .ok a => s.rangeSettled a 64)

/-- RESIDENCY_REPORT (R387): a period has passed; the report leaves in class C, or is written on this device. -/
def execResidencyReport (s : State) : Out :=
  let m := s.telemetry
  if m.period = 0 || !s.devValid || s.clock < m.lastReport + m.period * s.mhz || !s.reportFree then .next s
  else
    let n := m.reports + 1
    let bs := leBytes 64 (s.residency n)
    let t := { s with telemetry := { m with reports := n, lastReport := m.lastReport + m.period * s.mhz } }
    if !s.isRemote m.dest then .next (t.reportHere bs)
    else .next { t with fabric := t.fabric ++
      [{ cls := 3, dev := globalDev m.dest, addr := m.dest, core := 0, data := bs.zipIdx.map fun b => (b.2, b.1), op := none }] }

end Sys2Proof.Machine
end

