-- ==== Sys2Proof/Machine/PageTable.lean ====
section
/-! DEFINITION. PageTable.lean: Ralzer's own writes of memory (R374, R390): whole pages of zeros, page tables and their leaves (R296). -/

namespace Sys2Proof.Machine

/-! ### Ranges -/

/-- A line lies in n bytes from an address. -/
def lineIn (a n l : Nat) : Bool := decide (a ≤ l * 128 + 127) && decide (l * 128 < a + n)

/-- Nothing holds back an access at the home to any line of a range (R284, R300). -/
def State.quiet (s : State) (a n : Nat) : Bool :=
  ((s.dir.map (·.line) ++ s.msgs.map Msg.line).filter (lineIn a n)).all s.settled

/-- Zeros written at their homes over whole lines (R283). -/
def State.zeroHome (s : State) (a n : Nat) : State :=
  let ls := (s.dir.map (·.line) ++ s.clusters.flatMap fun c => c.2.filter.map (·.line)).filter (lineIn a n)
  let s1 := ls.foldl (fun t l => t.withdraw l) s
  let s2 := (s1.regions.filter fun r => (r.walk0 || r.walk1) && decide (a ≤ r.region * 512) && decide (r.region * 512 < a + n)).foldl
    (fun t r => t.shoot (r.region * 4)) s1
  { s2 with
    mem := s2.mem.filter fun c => decide (c.1 < a) || decide (a + n ≤ c.1)
    lost := s2.lost.filter fun l => !lineIn a n l }

/-- The lines of pages just mapped have tag 0 and an empty scope record (R97, R292, R390). -/
def State.freshLines (s : State) (a n : Nat) : State := { s with lines := s.lines.filter fun x => !lineIn a n x.line }

/-- A range that overlaps the firmware region (R374). -/
def overFirmware (a n : Nat) : Bool := decide (a < 0x4000000000) && decide (0x3C00000000 < a + n)

/-- A range of data memory that a command may write or map for the host (R374). -/
def dataRange (a n : Nat) : Bool := decide (a + n ≤ physTop) && !overFirmware a n

/-! ### Tables in the firmware region (R374, log 12) -/

/-- The first page that may hold a page table: after the journal. -/
def tableBase : Nat := 0x3C08000000

/-- The version spill areas of all contexts, taken from the top of the region. -/
def State.spillTotal (s : State) : Nat := s.contexts.foldl (fun n c => n + c.spillBytes) 0

/-- Page-table pages and spill areas fit the region. -/
def State.roomInFirmware (s : State) : Bool := decide (tableBase + 4096 * s.tables + s.spillTotal ≤ 0x4000000000)

/-- A new table, empty. -/
def State.newTable (s : State) : Nat × State :=
  let a := tableBase + 4096 * s.tables
  (a, { s.zeroHome a 4096 with tables := s.tables + 1 })

/-- An entry written at its home. -/
def State.putEntry (s : State) (a v : Nat) : State := if (read64 s.mem a).toNat = v then s else s.homeWrite a (leBytes 8 v)

/-- Entries of a span (R296). -/
def spanGroup (span : Nat) : Nat := if span = 1 then 16 else if span = 2 then 256 else 1

/-- PPN of an entry as an address. -/
def entryBase (e : W64) : Nat := bitsOf e 51 12 * 4096

/-- The entry for an address in a table at a level. -/
def entryAddr (table va sh : Nat) : Nat := table + 8 * (va / 2 ^ sh % 512)

def isLeaf (e : W64) (sh : Nat) : Bool := match entryLeaf e sh with | some (.inl _) => true | _ => false

/-- A spanned leaf becomes leaves of one entry each, which translate as it did. -/
def State.unspan (s : State) (table va sh : Nat) : State :=
  let e := read64 s.mem (entryAddr table va sh)
  let n := spanGroup (bitsOf e 6 5)
  if !isLeaf e sh || n = 1 then s
  else
    let i := va / 2 ^ sh % 512 / n * n
    (List.range n).foldl (fun t k => t.putEntry (table + 8 * (i + k)) (entryBase e + k * 2 ^ sh + e.toNat % 32)) s

/-- A level-2 leaf becomes a table of leaves, which translate as it did. -/
def State.splitLeaf (s : State) (table va : Nat) : State × Nat :=
  let s1 := s.unspan table va 21
  let a := entryAddr table va 21
  let e := read64 s1.mem a
  let r := s1.newTable
  let t := (List.range 512).foldl (fun t k => t.putEntry (r.1 + 8 * k) (entryBase e + k * 4096 + e.toNat % 32)) r.2
  (t.putEntry a (r.1 + 1), r.1)

/-- The table for an address below the levels with these shifts; tables missing on the way are made. -/
def State.descend (s : State) (table va : Nat) : List Nat → State × Nat
  | [] => (s, table)
  | sh :: rest =>
    match entryLeaf (read64 s.mem (entryAddr table va sh)) sh with
    | some (.inr next) => s.descend next va rest
    | some (.inl _) =>
      let r := s.splitLeaf table va
      r.1.descend r.2 va rest
    | none =>
      let r := s.newTable
      (r.2.putEntry (entryAddr table va sh) (r.1 + 1)).descend r.1 va rest

/-- Level, span and bytes of a page-size code (R390). -/
def pageShift (code : Nat) : Nat := if code ≤ 1 then 12 else 21
def pageSpan (code : Nat) : Nat := match code with | 1 => 1 | 3 => 1 | 4 => 2 | _ => 0
def pageBytes (code : Nat) : Nat := 2 ^ pageShift code * spanGroup (pageSpan code)

/-- Permissions of a leaf: R, W, X (R296). -/
abbrev Perm := Bool × Bool × Bool

/-- A leaf's value without its page (R296). -/
def leafBits (code : Nat) (p : Perm) : Nat := pageSpan code * 32 + p.2.2.toNat * 16 + p.2.1.toNat * 8 + p.1.toNat * 4 + 3

/-- One page mapped. -/
def State.mapPage (s : State) (root va pa code : Nat) (p : Perm) : State :=
  let sh := pageShift code
  let r := s.descend root va (if sh = 12 then [39, 30, 21] else [39, 30])
  (List.range (spanGroup (pageSpan code))).foldl (fun t k =>
    let v := va + k * 2 ^ sh
    (t.unspan r.2 v sh).putEntry (entryAddr r.2 v sh) (pa + leafBits code p)) r.1

/-- A range mapped with pages of one size, its lines fresh. -/
def State.mapRange (s : State) (root va pa n code : Nat) (p : Perm) : State :=
  let z := pageBytes code
  ((List.range (n / z)).foldl (fun t k => t.mapPage root (va + k * z) (pa + k * z) code p) s).freshLines pa n

/-- The largest page size that suits a range. -/
def bestPage (va pa n : Nat) : Nat :=
  ([4, 3, 2, 1].find? fun c => va % pageBytes c = 0 && pa % pageBytes c = 0 && n % pageBytes c = 0).getD 0

/-- The table for an address below levels, if all of them exist. -/
def tableAt (m : List Host.Cell) (table va : Nat) : List Nat → Option Nat
  | [] => some table
  | sh :: rest => match entryLeaf (read64 m (entryAddr table va sh)) sh with
    | some (.inr next) => tableAt m next va rest
    | _ => none

/-- A 4 KiB page unmapped. -/
def State.unmapSmall (s : State) (root va : Nat) : State :=
  let r := s.descend root va [39, 30, 21]
  (r.1.unspan r.2 va 12).putEntry (entryAddr r.2 va 12) 0

/-- A range of n bytes unmapped; fuel is its number of 4 KiB pages. -/
def State.unmapRange (s : State) (root va n : Nat) : Nat → State
  | 0 => s
  | fuel + 1 =>
    if n = 0 then s
    else
      let small := min n 4096
      let big := min n (2 ^ 21 - va % 2 ^ 21)
      match tableAt s.mem root va [39, 30] with
      | none => s.unmapRange root (va + big) (n - big) fuel
      | some t2 =>
        match entryLeaf (read64 s.mem (entryAddr t2 va 21)) 21 with
        | none => s.unmapRange root (va + big) (n - big) fuel
        | some (.inl _) =>
          if big = 2 ^ 21 then ((s.unspan t2 va 21).putEntry (entryAddr t2 va 21) 0).unmapRange root (va + big) (n - big) fuel
          else (s.unmapSmall root va).unmapRange root (va + small) (n - small) fuel
        | some (.inr _) => (s.unmapSmall root va).unmapRange root (va + small) (n - small) fuel

/-- Some page of a range is mapped. -/
def State.anyMapped (s : State) (root va n : Nat) : Bool := (List.range ((n + 4095) / 4096)).any fun k => (translate s.mem root (va + k * 4096)).isSome

/-- A physical line is mapped by the tables below one table. -/
def tableMaps (m : List Host.Cell) (line : Nat) : List Nat → Nat → Bool
  | [], _ => false
  | sh :: rest, table => (List.range 512).any fun k =>
    match entryLeaf (read64 m (table + 8 * k)) sh with
    | some (.inl (base, size, _)) => decide (base ≤ line * 128) && decide (line * 128 < base + size)
    | some (.inr next) => tableMaps m line rest next
    | none => false

/-- A context maps a physical line. -/
def Context.maps (c : Context) (m : List Host.Cell) (line : Nat) : Bool :=
  tableMaps m line [39, 30, 21, 12] c.rootL || tableMaps m line [39, 30, 21, 12] c.rootG

end Sys2Proof.Machine
end

