-- ==== Sys2Proof/Machine/Admin.lean ====
section
/-! DEFINITION. Admin.lean: Ralzer's admin queue (R388, R389, R392) and the commands for contexts, queues, memory, the KV pools, limits and the
Carousel (R316, R377, R386, R390). -/

namespace Sys2Proof.Machine

/-! ### The queue of commands (R388, R389, R392) -/

/-- A command's 64 bytes (R389). -/
def cmdOf (bs : List Byte) : AdminCmd :=
  let q := quads bs
  let h := quad q 0
  { opc := BitVec.ofNat 8 (bitsOf h 7 0), ctx := BitVec.ofNat 12 (bitsOf h 43 32), cid := BitVec.ofNat 16 (bitsOf h 31 16)
    res := BitVec.ofNat 28 (bitsOf h 63 44 * 2 ^ 8 + bitsOf h 15 8)
    p0 := quad q 1, p1 := quad q 2, p2 := quad q 3, p3 := quad q 4, p4 := quad q 5, p5 := quad q 6, p6 := quad q 7 }

def allOnes64 : Nat := 2 ^ 64 - 1

/-- The bits that the row of an opcode names in P0, P1, ...; none for an unassigned opcode (R390). -/
def adminMasks : Nat → Option (List Nat)
  | 0x01 => some [allOnes64 - 0x3E, allOnes64, allOnes64, allOnes64, allOnes64]
  | 0x02 => some []
  | 0x10 => some [0x1FFFF, allOnes64 - 0xFE0, allOnes64 - 0xFFF, 0xFFF0001FF03]
  | 0x11 => some [0x1FFFF, 2 ^ 41 - 1, 2 ^ 41 - 1, 2 ^ 41 - 1, 2 ^ 41 - 1]
  | 0x12 => some [0x1FFFF, 1]
  | 0x13 => some [0x1FFFF]
  | 0x20 => some [allOnes64, allOnes64, allOnes64, 0x1FF]
  | 0x21 => some [allOnes64, 0, allOnes64, 8]
  | 0x30 => some [allOnes64, allOnes64, allOnes64, allOnes64]
  | 0x40 => some [0xF1]
  | 0x41 => some [0xFFFFFF01]
  | 0x50 => some [allOnes64, allOnes64, allOnes64, allOnes64]
  | 0x51 => some [3, allOnes64]
  | 0x60 => some [allOnes64, allOnes64]
  | 0x70 => some [allOnes64, allOnes64, allOnes64]
  | 0x80 => some [allOnes64]
  | 0x90 => some [allOnes64, allOnes64, allOnes64]
  | _ => none

def cmdParams (c : AdminCmd) : List W64 := [c.p0, c.p1, c.p2, c.p3, c.p4, c.p5, c.p6]

/-- BADCMD: an unassigned opcode, or a res bit that is set (R390). -/
def cmdBad (c : AdminCmd) : Bool :=
  c.res != 0 || (match adminMasks c.opc.toNat with
    | none => true
    | some ms => (cmdParams c).zipIdx.any fun p => p.1 &&& ~~~(BitVec.ofNat 64 (ms.getD p.2 0)) != 0)

/-- The commands that need no context (R390). -/
def wideOpcodes : List Nat := [0x01, 0x40, 0x41, 0x51, 0x80]

/-- Statuses of R389. -/
def stDone : Nat := 0x00
def stBadcmd : Nat := 0x01
def stNoctx : Nat := 0x02
def stNores : Nat := 0x03
def stBusy : Nat := 0x04
def stBadimg : Nat := 0x05
def stExhausted : Nat := 0x06
def stResetlost : Nat := 0x07
def stRange : Nat := 0x08

/-- How a command's effect goes: it cannot be made yet, part of it is made, or it ends with a status and results. -/
inductive Served where
  | stuck
  | part (s : State)
  | done (status : Nat) (res0 res1 : Nat) (s : State)

/-- A refusal: nothing has changed (R390). -/
def State.refuse (s : State) (st : Nat) : Served := .done st 0 0 s

/-- The bytes of journal entry j: from the mirror when its line is lost (R393). -/
def State.journalEntry (s : State) (j : Nat) : List Byte :=
  let a := journalBase + 128 * (j % 2 ^ 20)
  if s.lost.contains (lineOf a) then
    match assoc j s.admin.mirror with
    | some bs => bs
    | none => cellBytes s.mem a 128
  else cellBytes s.mem a 128

/-- The entry with another STATUS. -/
def State.journalStatus (s : State) (j st : Nat) : State :=
  if j + 2 ^ 20 < s.admin.jnext then s else s.putJournal j (setAt 81 (BitVec.ofNat 8 st) (s.journalEntry j))

/-- Ring fields of ASQBASE and ACQ (R388). -/
def ringBase (r : W64) : Nat := bitsOf r 63 12 * 4096
def ringLog (r : W64) : Nat := bitsOf r 3 0
def ringOn (r : W64) : Bool := decide (1 ≤ ringLog r) && decide (ringLog r ≤ 12)

/-- A completion is written for the command served (R389, R392). -/
def State.finishCmd (s : State) (cmd : AdminCmd) (j st res0 res1 : Nat) : State :=
  let i := s.admin.served
  let a := ringBase s.admin.acq + 32 * (i % 2 ^ ringLog s.admin.asqbase)
  let ph := 1 - i / 2 ^ ringLog s.admin.acq % 2
  let bs := leBytes 8 (ph + cmd.cid.toNat * 2 ^ 16 + st * 2 ^ 32) ++ leBytes 8 j ++ leBytes 8 res0 ++ leBytes 8 res1
  let s1 := s.journalStatus j st
  let s2 := if dataRange a 32 then s1.homeWrite a bs else s1
  { s2 with
    admin := { s2.admin with pending := none, served := i + 1, acqdone := i + 1 }
    msix := 0 :: s2.msix }

/-- A step of the command that Ralzer serves (R392): it is taken and journaled; then it is refused, or has its effect, and is completed. A
command with an unassigned opcode may be served through any row. -/
def State.adminStep (s : State) (opc : Nat) (cmd : AdminCmd) (effect : State → Served) : Out :=
  let a := s.admin
  match a.pending with
  | none =>
    let pa := ringBase a.asqbase + 64 * (a.served % 2 ^ ringLog a.asqbase)
    if !a.ready || a.asqtail ≤ a.served || !ringOn a.asqbase || !ringOn a.acq || !s.quiet pa 64
        || (cmd.opc.toNat != opc && (adminMasks cmd.opc.toNat).isSome) then .next s
    else
      let r := s.homeRead pa 64
      if cmdOf r.1 ≠ cmd then .next s
      else
        let t := r.2.journal 0 cmd.ctx.toNat 0xFF (leVal r.1) none
        .next { t with admin := { t.admin with pending := some (cmd, a.jnext) } }
  | some (c, j) =>
    let ca := ringBase a.acq + 32 * (a.served % 2 ^ ringLog a.asqbase)
    if c ≠ cmd || (cmd.opc.toNat != opc && (adminMasks cmd.opc.toNat).isSome) || !s.quiet ca 32 then .next s
    else if cmdBad cmd then .next (s.finishCmd cmd j stBadcmd 0 0)
    else if !wideOpcodes.contains opc && (s.ctx? cmd.ctx.toNat).isNone then .next (s.finishCmd cmd j stNoctx 0 0)
    else match effect s with
      | .stuck => .next s
      | .part t => .next t
      | .done st r0 r1 t => .next (t.finishCmd cmd j st r0 r1)

/-! ### Contexts (R390) -/

/-- The context a command acts on. -/
def State.cmdCtx (s : State) (cmd : AdminCmd) (k : Context → Served) : Served :=
  match s.ctx? cmd.ctx.toNat with
  | some c => k c
  | none => s.refuse stNoctx

/-- The lowest free identifier from 1 (R390). -/
def State.freeCtx (s : State) : Option Nat :=
  ((List.range (s.contexts.length + 1)).map (· + 1)).find? fun i => (s.ctx? i).isNone && decide (i < 4096)

/-- The base of the stacks (R390). -/
def stackBase : Nat := 0xFD0000000000

/-- A context's parameters and empty tables, its stacks mapped (R390). Its limits before LIMITS are the device's own (log 15). -/
def State.newCtx (s : State) (cmd : AdminCmd) (i : Nat) : State :=
  let l := s.newTable
  let g := l.2.newTable
  let c : Context :=
    { id := i, rootL := l.1, rootG := g.1
      tvec := cmd.p0 &&& ~~~0x3F, rngcfg := BitVec.ofNat 64 (bitsOf cmd.p0 0 0)
      stackBytes := cmd.p1.toNat, stackBase := cmd.p2.toNat, spillBytes := cmd.p3.toNat, xrbase := cmd.p4
      images := [], nextHandle := 1, limTrees := 4096, limClusters := 256, limSegs := 2 ^ 20, limNodes := 2 ^ 20
      params := [cmd.p0, cmd.p1, cmd.p2, cmd.p3, cmd.p4] }
  let n := 1024 * cmd.p1.toNat
  let t := g.2.mapRange l.1 stackBase cmd.p2.toNat n (bestPage stackBase cmd.p2.toNat n) (true, true, false)
  { t with contexts := t.contexts ++ [c] }

/-- CTX_CREATE (R390). -/
def execCtxCreate (cmd : AdminCmd) (s : State) : Out :=
  s.adminStep 0x01 cmd fun t =>
    let p1 := cmd.p1.toNat
    if p1 % 4096 ≠ 0 || p1 < 4096 || 2 ^ 24 < p1 || cmd.p2.toNat % 4096 ≠ 0 || !dataRange cmd.p2.toNat (1024 * p1)
        || cmd.p3.toNat % 2 ^ 21 ≠ 0 || cmd.p4.toNat % 64 ≠ 0 || 2 ^ 48 ≤ cmd.p4.toNat then t.refuse stRange
    else match t.freeCtx with
      | none => t.refuse stNores
      | some i =>
        let u := t.newCtx cmd i
        if u.roomInFirmware then .done stDone i 0 u else t.refuse stNores

/-- A core whose context or launch goes: its work is discarded, and it has no strand. -/
def State.stopCore (s : State) (c : Nat) : State :=
  let s1 := s.discardTask c
  let x := s1.coreAt c
  s1.putCore { Core.reset c with debugger := x.debugger, breakOn := x.breakOn }

/-- A queue is destroyed (R390): untaken records and records held for DQ complete with a status; it stays until its completions are
written. -/
def State.closeQueue (s : State) (q : Queue) (st : Nat) : State :=
  let comp := fun (k : Nat) (u : W64) => ({ recno := some k, after := k, status := st, utag := u, report := none } : Completion)
  let held := q.records.map fun r => comp r.1 (rcdUtag r.2)
  let taken := q.dequeued.map fun r => comp r.1 r.2.2.2
  let s1 := (List.range (q.tail - q.taken)).foldl (fun t k => (t.homeRead (q.recAddr (q.taken + k)) 128).2) s
  let rest := (List.range (q.tail - q.taken)).map fun k =>
    comp (q.taken + k) (rcdUtag (quads (cellBytes s1.mem (q.recAddr (q.taken + k)) 128)))
  let t := s1.mapQueue q.id fun y => { y with
    comps := y.comps ++ held ++ taken ++ rest, records := [], dequeued := [], taken := y.tail, closing := true
    resident := false, switching := false, waitingSince := none, boundTo := none }
  { t with queues := t.queues.filter fun y => !y.finished }

/-- The records of a queue not yet taken can be read (R284). -/
def State.recordsQuiet (s : State) (q : Queue) : Bool := (List.range (q.tail - q.taken)).all fun k => s.quiet (q.recAddr (q.taken + k)) 128

/-- Every core of a context stands where its work can be cut (R222). -/
def State.ctxCuttable (s : State) (i : Nat) : Bool := (s.core :: s.others).all fun c => c.ctx != some i || s.cuttable c

/-- What a die keeps for a context is freed (R390). -/
def Die.dropCtx (d : Die) (i : Nat) : Die :=
  let mine := (d.trees.filter fun t => t.2.live && t.2.ctx == i).map (·.1)
  let d1 := mine.foldl Die.freeTree d
  { d1 with
    tcbs := d1.tcbs.map fun b => if mine.contains b.2.tree then (b.1, { b.2 with state := .free }) else b
    nodes := d1.nodes.filter fun n => n.2.ctx ≠ i, bins := d1.bins.filter fun b => b.2.ctx ≠ i
    reclaims := d1.reclaims.filter fun r => r.ctx ≠ i }

/-- What a chiplet keeps for a context is freed (R390). -/
def Chip.dropCtx (c : Chip) (i : Nat) : Chip :=
  { c with
    frames := c.frames.filter fun f => f.2.ctx ≠ i, locks := c.locks.filter fun l => l.2 ≠ i
    models := c.models.filter fun m => m.1 / 16 ≠ i, cmds := c.cmds.filter fun m => m.ctx ≠ i
    doomed := c.doomed.filter fun d => d.1 ≠ i }

/-- A Carousel no context holds (R314, R316). -/
def Carousel.none_ : Carousel := { holder := none, granted := 0, base := 0, table := [] }

def Carousel.dropCtx (c : Carousel) (i : Nat) : Carousel := if c.holder = some i then Carousel.none_ else c

/-- A context's tasks abort, its launches and untaken records complete with status 0x05, and everything it held is freed (R390). The context
itself stays. -/
def State.stopCtx (s : State) (i : Nat) : State :=
  let cores := ((s.core :: s.others).filter fun c => c.ctx == some i).map (·.id)
  let mine := s.launches.filter fun l => l.ctx == i
  let ids := mine.map (·.id)
  let s1 := cores.foldl State.stopCore s
  let s2 := mine.foldl (fun t l => match l.src with
    | .queue q k => t.complete q k 0x05 (rcdUtag l.rcd) none
    | .barker _ _ _ => t) s1
  let s3 := (s2.queues.filter fun q => q.ctx == i && !q.closing).foldl (fun t q => t.closeQueue q 0x05) s2
  { s3 with
    launches := s3.launches.filter fun l => l.ctx ≠ i
    die0 := s3.die0.dropCtx i, die1 := s3.die1.dropCtx i, chip0 := s3.chip0.dropCtx i, chip1 := s3.chip1.dropCtx i
    car0 := s3.car0.dropCtx i, car1 := s3.car1.dropCtx i
    units := s3.units.filter fun u => (if u.die = 0 then s3.car0 else s3.car1).holder ≠ some i
    xreds := s3.xreds.filter fun x => x.ctx ≠ i, rounds := s3.rounds.filter fun x => x.ctx ≠ i
    walks := s3.walks.filter fun w => w.ctx ≠ i
    strands := s3.strands.filter fun x => x.1 / 1024 ≠ i
    saved := s3.saved.filter fun x => !ids.contains x.launch
    savedClusters := s3.savedClusters.filter fun x => !ids.contains x.launch
    clusters := s3.clusters.map fun c => (c.1, { c.2 with
      frames := c.2.frames.filter fun f => f.ctx ≠ i, tlb := c.2.tlb.filter fun t => t.ctx ≠ i
      records := c.2.records.filter fun r => r.ctx ≠ i })
    l2tlb := s3.l2tlb.filter fun t => t.2.ctx ≠ i }

/-- A context is destroyed. -/
def State.dropCtx (s : State) (i : Nat) : State :=
  let t := s.stopCtx i
  { t with contexts := t.contexts.filter fun c => c.id ≠ i }

/-- CTX_DESTROY (R390): it ends once the completions it makes due are written. -/
def execCtxDestroy (cmd : AdminCmd) (s : State) : Out :=
  s.adminStep 0x02 cmd fun t =>
    let i := cmd.ctx.toNat
    let open_ := t.queues.any fun q => q.ctx == i && !q.closing
    let due := fun (x : State) => x.queues.any fun q => q.ctx == i && q.closing
    let unread := t.queues.any fun q => q.ctx == i && !q.closing && !t.recordsQuiet q
    if due t && !open_ && !t.launches.any (fun l => l.ctx == i) then .stuck
    else if unread || !t.ctxCuttable i then .stuck
    else
      let u := t.stopCtx i
      if due u then .part u else .done stDone 0 0 { u with contexts := u.contexts.filter fun c => c.id ≠ i }

/-! ### Queues (R377, R386, R390) -/

/-- The queue a command names, if it is the context's (R390). -/
def State.cmdQueue (s : State) (cmd : AdminCmd) (k : Queue → Served) : Served :=
  match s.queue? cmd.p0.toNat with
  | some q => if q.ctx = cmd.ctx.toNat then k q else s.refuse stRange
  | none => s.refuse stRange

/-- Queues stand by ascending number. -/
def insertQueue (q : Queue) : List Queue → List Queue
  | [] => [q]
  | x :: t => if q.id < x.id then q :: x :: t else x :: insertQueue q t

/-- Q_CREATE (R377, R390). -/
def execQCreate (cmd : AdminCmd) (s : State) : Out :=
  s.adminStep 0x10 cmd fun t =>
    let n := bitsOf cmd.p1 4 0
    let ring := bitsOf cmd.p1 63 12 * 4096
    let cring := cmd.p2.toNat
    let weight := bitsOf cmd.p3 15 8
    let vec := bitsOf cmd.p3 42 32
    let on := bitsOf cmd.p3 43 43 == 1
    if n < 1 || 16 < n || weight = 0 || (on && vec == 0) || !dataRange ring (128 * 2 ^ n) || !dataRange cring (64 * 2 ^ n) then
      t.refuse stRange
    else if t.queues.any fun q => q.id == cmd.p0.toNat then t.refuse stBusy
    else
      let q : Queue := {
        id := cmd.p0.toNat, ctx := cmd.ctx.toNat, window := bitsOf cmd.p3 16 16 == 1, log2n := n, ring := ring, cring := cring,
        pclass := bitsOf cmd.p3 1 0, weight := weight, tail := 0, taken := 0, done := 0, recDone := 0, wbDone := 0, wbTaken := 0,
        vec := vec, vecOn := on, switching := false, resident := false, waitingSince := none, lastTaken := 0, errFlag := false,
        armable := false, boundTo := none, sources := [], records := [], dequeued := [], comps := [], burst := 0 }
      .done stDone 0 0 { t with queues := insertQueue q t.queues }

/-- Q_BIND (R386): the four source ranges. -/
def execQBind (cmd : AdminCmd) (s : State) : Out :=
  s.adminStep 0x11 cmd fun t => t.cmdQueue cmd fun q =>
    let valid := [cmd.p1, cmd.p2, cmd.p3, cmd.p4].filter fun p => bitsOf p 40 40 == 1
    .done stDone 0 0 (t.mapQueue q.id fun x => { x with sources := valid.map fun p => (bitsOf p 19 0, bitsOf p 39 20) })

/-- Q_ARM (R390). -/
def execQArm (cmd : AdminCmd) (s : State) : Out :=
  s.adminStep 0x12 cmd fun t => t.cmdQueue cmd fun q =>
    .done stDone 0 0 (t.mapQueue q.id fun x => { x with armable := bitsOf cmd.p1 0 0 == 1 })

/-- Q_DESTROY (R390). -/
def execQDestroy (cmd : AdminCmd) (s : State) : Out :=
  s.adminStep 0x13 cmd fun t => t.cmdQueue cmd fun q =>
    if q.boundTo.isSome then t.refuse stBusy else if !t.recordsQuiet q then .stuck else .done stDone 0 0 (t.closeQueue q 0x05)

/-! ### Memory (R296, R373, R374, R390) -/

/-- The root table a mapping command acts on, and the bits of its addresses. -/
def Context.rootFor (c : Context) (global : Bool) : Nat × Nat := if global then (c.rootG, 43) else (c.rootL, 48)

/-- A range of doorbell blocks (R373). -/
def inDoorbells (a n : Nat) : Bool := decide (doorbellBase ≤ a) && decide (a + n ≤ 0x8001800000)

/-- MEM_MAP (R390): leaves for a range; doorbell blocks only with the DOORBELL flag (log 16). -/
def execMemMap (cmd : AdminCmd) (s : State) : Out :=
  s.adminStep 0x20 cmd fun t => t.cmdCtx cmd fun c =>
    let va := cmd.p0.toNat
    let pa := cmd.p1.toNat
    let n := cmd.p2.toNat
    let f := fun k => bitsOf cmd.p3 k k == 1
    let code := bitsOf cmd.p3 7 5
    let z := pageBytes code
    let root := c.rootFor (f 3)
    if 4 < code || n = 0 || va % z ≠ 0 || pa % z ≠ 0 || n % z ≠ 0 || 2 ^ root.2 < va + n || 2 ^ 52 < pa + n || overFirmware pa n
        || (if f 8 then !inDoorbells pa n else decide (pa < 0x8001800000) && decide (doorbellBase < pa + n)) then t.refuse stRange
    else if f 4 && !t.quiet pa n then .stuck
    else
      let u := t.mapRange root.1 va pa n code (f 0, f 1, f 2)
      let w := if f 4 && pa + n ≤ physTop then u.zeroHome pa n else u
      if w.roomInFirmware then .done stDone 0 0 w else t.refuse stNores

/-- A shootdown is under way (R307). -/
def State.shooting (s : State) : Bool := s.msgs.any fun m => match m with | .shootdown _ _ => true | _ => false

/-- MEM_UNMAP (R390): the leaves go; it ends after every shootdown. -/
def execMemUnmap (cmd : AdminCmd) (s : State) : Out :=
  s.adminStep 0x21 cmd fun t => t.cmdCtx cmd fun c =>
    let va := cmd.p0.toNat
    let n := cmd.p2.toNat
    let root := c.rootFor (bitsOf cmd.p3 3 3 == 1)
    if n = 0 || va % 4096 ≠ 0 || n % 4096 ≠ 0 || 2 ^ root.2 < va + n then t.refuse stRange
    else if !t.anyMapped root.1 va n then (if t.shooting then .stuck else .done stDone 0 0 t)
    else
      let u := t.unmapRange root.1 va n (n / 4096)
      if !u.roomInFirmware then t.refuse stNores else if u.shooting then .part u else .done stDone 0 0 u

/-! ### Pools, limits, the Carousel (R225, R316, R390) -/

/-- KV_POOL (R225, R390). -/
def execKvPool (cmd : AdminCmd) (s : State) : Out :=
  s.adminStep 0x40 cmd fun t =>
    let k := bitsOf cmd.p0 0 0
    let code := bitsOf cmd.p0 7 4
    let ch := t.chip k
    let z := 2 ^ (14 + code)
    if 6 < code then t.refuse stRange
    else if !ch.frames.isEmpty then t.refuse stBusy
    else .done stDone 0 0 (t.putChip k { ch with pgsz := z, npg := min (2 ^ 38 / z) 0xFFFFFE })

/-- KV_RESERVE (R225, R390). -/
def execKvReserve (cmd : AdminCmd) (s : State) : Out :=
  s.adminStep 0x41 cmd fun t =>
    let k := bitsOf cmd.p0 0 0
    .done stDone 0 0 (t.putChip k { t.chip k with reserve := bitsOf cmd.p0 31 8 })

/-- LIMITS (R116, R128, R234, R256, R390). -/
def execLimits (cmd : AdminCmd) (s : State) : Out :=
  s.adminStep 0x50 cmd fun t =>
    .done stDone 0 0 (t.mapCtx cmd.ctx.toNat fun c =>
      { c with limTrees := cmd.p0.toNat, limClusters := cmd.p1.toNat, limSegs := cmd.p2.toNat, limNodes := cmd.p3.toNat })

/-- CARBASE of every strand of a context on a die (R316). -/
def State.setCarbase (s : State) (i die : Nat) (v : W64) : State :=
  let f := fun (c : Core) => if c.ctx = some i && dieOf c.id = die then { c with carbase := v } else c
  { s with
    core := f s.core, others := s.others.map f, strands := s.strands.map fun x => (x.1, f x.2)
    saved := s.saved.map fun x => { x with core := f x.core } }

/-- CAROUSEL (R316, R390): a grant loads the table it names, once no transfer of the context uses circuits of the die; a release unloads
it. -/
def execCarousel (cmd : AdminCmd) (s : State) : Out :=
  s.adminStep 0x51 cmd fun t =>
    let die := bitsOf cmd.p0 0 0
    let i := cmd.ctx.toNat
    let car := t.car die
    if car.holder.isSome && car.holder != some i then t.refuse stBusy
    else if bitsOf cmd.p0 1 1 = 0 then
      .done stDone 0 0 (if car.holder.isNone then t else (t.putCar die Carousel.none_).setCarbase i die 0)
    else if bitsOf cmd.p1 63 48 ≠ 0 then t.refuse stRange
    else match t.carFirst i (512 * die) cmd.p1, (if cmd.p1 = 0 then (if (t.ctx? i).isSome then some [] else none) else t.carTable i (512 * die) cmd.p1) with
      | some u, _ => if u = t then .stuck else .part u
      | none, none => t.refuse stRange
      | none, some es =>
        if t.carBusy i die then .stuck
        else .done stDone 0 0
          ((t.putCar die { holder := some i, granted := cmd.p1, base := cmd.p1, table := es }).setCarbase i die cmd.p1)

end Sys2Proof.Machine
end

