-- ==== Sys2Proof/Machine/Alu.lean ====
section
/-! DEFINITION. Alu.lean: integer and bit operations of the sequencer (R58..R61). None of them traps or touches FCTL. -/

namespace Sys2Proof.Machine

/-- 1 or 0. -/
def bit1 (b : Bool) : W64 := if b then 1 else 0

/-- The high half of the signed 128-bit product (R58). -/
def mulHigh (a b : W64) : W64 := BitVec.ofInt 64 (a.toInt * b.toInt / 2 ^ 64)

/-- Signed quotient towards zero; all ones for a divisor of 0 (R59). -/
def divS (a b : W64) : W64 := if b = 0 then BitVec.allOnes 64 else BitVec.ofInt 64 (a.toInt.tdiv b.toInt)

def divU (a b : W64) : W64 := if b = 0 then BitVec.allOnes 64 else BitVec.ofNat 64 (a.toNat / b.toNat)

/-- Remainder with the dividend's sign; the dividend for a divisor of 0 (R59). -/
def remS (a b : W64) : W64 := if b = 0 then a else BitVec.ofInt 64 (a.toInt.tmod b.toInt)

def remU (a b : W64) : W64 := if b = 0 then a else BitVec.ofNat 64 (a.toNat % b.toNat)

def minS (a b : W64) : W64 := if a.slt b then a else b
def maxS (a b : W64) : W64 := if a.slt b then b else a
def minU (a b : W64) : W64 := if a.ult b then a else b
def maxU (a b : W64) : W64 := if a.ult b then b else a

/-- Leading zero bits, 64 for 0. -/
def leadingZeros (x : W64) : Nat := if x = 0 then 64 else 63 - Nat.log2 x.toNat

/-- Trailing zero bits, 64 for 0. -/
def trailingZeros (x : W64) : Nat := ((List.range 64).find? fun k => x.getLsbD k).getD 64

/-- The number of one bits. -/
def onesOf (x : W64) : Nat := ((List.range 64).filter fun k => x.getLsbD k).length

/-- A field of len bits at p, extended (R60). -/
def extField (x : W64) (signed : Bool) (p len : Nat) : W64 :=
  let f := x.toNat / 2 ^ p % 2 ^ len
  if signed then sext len f else BitVec.ofNat 64 f

/-- The low len bits of y placed at p in x (R60). -/
def insField (x y : W64) (p len : Nat) : W64 :=
  let m : W64 := BitVec.ofNat 64 ((2 ^ len - 1) * 2 ^ p)
  (x &&& ~~~m) ||| ((y <<< p) &&& m)

/-- ADD: g[ga] + g[gb] (R58). -/
def execAdd (d a b : Reg) (s : State) : Out := s.write d ((s.core.getG a) + (s.core.getG b))

/-- SUB: g[ga] − g[gb] (R58). -/
def execSub (d a b : Reg) (s : State) : Out := s.write d ((s.core.getG a) - (s.core.getG b))

/-- MUL: the low 64 bits of the product (R58). -/
def execMul (d a b : Reg) (s : State) : Out := s.write d ((s.core.getG a) * (s.core.getG b))

/-- MULH: the high 64 bits of the signed product (R58). -/
def execMulh (d a b : Reg) (s : State) : Out := s.write d (mulHigh (s.core.getG a) (s.core.getG b))

/-- DIV (R59). -/
def execDiv (d a b : Reg) (s : State) : Out := s.write d (divS (s.core.getG a) (s.core.getG b))

/-- DIVN (R59). -/
def execDivn (d a b : Reg) (s : State) : Out := s.write d (divU (s.core.getG a) (s.core.getG b))

/-- REM (R59). -/
def execRem (d a b : Reg) (s : State) : Out := s.write d (remS (s.core.getG a) (s.core.getG b))

/-- REMN (R59). -/
def execRemn (d a b : Reg) (s : State) : Out := s.write d (remU (s.core.getG a) (s.core.getG b))

/-- AND (R58). -/
def execAnd (d a b : Reg) (s : State) : Out := s.write d ((s.core.getG a) &&& (s.core.getG b))

/-- OR (R58). -/
def execOr (d a b : Reg) (s : State) : Out := s.write d ((s.core.getG a) ||| (s.core.getG b))

/-- XOR (R58). -/
def execXor (d a b : Reg) (s : State) : Out := s.write d ((s.core.getG a) ^^^ (s.core.getG b))

/-- ANDN: g[ga] & ~g[gb] (R58). -/
def execAndn (d a b : Reg) (s : State) : Out := s.write d ((s.core.getG a) &&& ~~~(s.core.getG b))

/-- SHL by b[5:0] (R58). -/
def execShl (d a b : Reg) (s : State) : Out := s.write d ((s.core.getG a) <<< ((s.core.getG b).toNat % 64))

/-- SHR by b[5:0] (R58). -/
def execShr (d a b : Reg) (s : State) : Out := s.write d ((s.core.getG a) >>> ((s.core.getG b).toNat % 64))

/-- SAR by b[5:0] (R58). -/
def execSar (d a b : Reg) (s : State) : Out := s.write d ((s.core.getG a).sshiftRight ((s.core.getG b).toNat % 64))

/-- MIN as i64 (R58). -/
def execMin (d a b : Reg) (s : State) : Out := s.write d (minS (s.core.getG a) (s.core.getG b))

/-- MAX as i64 (R58). -/
def execMax (d a b : Reg) (s : State) : Out := s.write d (maxS (s.core.getG a) (s.core.getG b))

/-- MINN as n64 (R58). -/
def execMinn (d a b : Reg) (s : State) : Out := s.write d (minU (s.core.getG a) (s.core.getG b))

/-- MAXN as n64 (R58). -/
def execMaxn (d a b : Reg) (s : State) : Out := s.write d (maxU (s.core.getG a) (s.core.getG b))

/-- SLT: 1 if g[ga] < g[gb] as i64 (R58). -/
def execSlt (d a b : Reg) (s : State) : Out := s.write d (bit1 ((s.core.getG a).slt (s.core.getG b)))

/-- SLTN: 1 if g[ga] < g[gb] as n64 (R58). -/
def execSltn (d a b : Reg) (s : State) : Out := s.write d (bit1 ((s.core.getG a).ult (s.core.getG b)))

/-- SEQ: 1 if g[ga] = g[gb] (R58). -/
def execSeq (d a b : Reg) (s : State) : Out := s.write d (bit1 ((s.core.getG a) == (s.core.getG b)))

/-- SEL: g[ga] if g[gc] is not 0, else g[gb] (R58). -/
def execSel (d a b c : Reg) (s : State) : Out := s.write d (if s.core.getG c ≠ 0 then s.core.getG a else s.core.getG b)

/-- CLZ (R58). -/
def execClz (d a : Reg) (s : State) : Out := s.write d (BitVec.ofNat 64 (leadingZeros (s.core.getG a)))

/-- CTZ (R58). -/
def execCtz (d a : Reg) (s : State) : Out := s.write d (BitVec.ofNat 64 (trailingZeros (s.core.getG a)))

/-- POPC (R58). -/
def execPopc (d a : Reg) (s : State) : Out := s.write d (BitVec.ofNat 64 (onesOf (s.core.getG a)))

/-- EXT with the field from g[gb], cut at bit 63 (R60). -/
def execExt (d a b : Reg) (s : State) : Out :=
  let p := bitsOf (s.core.getG b) 11 6
  s.write d (extField (s.core.getG a) (bitsOf (s.core.getG b) 12 12 == 1) p (min (bitsOf (s.core.getG b) 5 0 + 1) (64 - p)))

/-- INS with the field from g[gb], cut at bit 63 (R60). -/
def execIns (d a b : Reg) (s : State) : Out :=
  let p := bitsOf (s.core.getG b) 11 6
  s.write d (insField (s.core.getG d) (s.core.getG a) p (min (bitsOf (s.core.getG b) 5 0 + 1) (64 - p)))

/-- ADD with a sign-extended constant (R58). -/
def execAddImm (d a : Reg) (i : BitVec 16) (s : State) : Out := s.write d ((s.core.getG a) + (immS i))

/-- MUL with a sign-extended constant (R58). -/
def execMulImm (d a : Reg) (i : BitVec 16) (s : State) : Out := s.write d ((s.core.getG a) * (immS i))

/-- AND with a zero-extended constant (R58). -/
def execAndImm (d a : Reg) (i : BitVec 16) (s : State) : Out := s.write d ((s.core.getG a) &&& (immZ i))

/-- OR with a zero-extended constant (R58). -/
def execOrImm (d a : Reg) (i : BitVec 16) (s : State) : Out := s.write d ((s.core.getG a) ||| (immZ i))

/-- XOR with a zero-extended constant (R58). -/
def execXorImm (d a : Reg) (i : BitVec 16) (s : State) : Out := s.write d ((s.core.getG a) ^^^ (immZ i))

/-- SHL by a constant (R58). -/
def execShlImm (d a : Reg) (i : Fin 64) (s : State) : Out := s.write d ((s.core.getG a) <<< i.val)

/-- SHR by a constant (R58). -/
def execShrImm (d a : Reg) (i : Fin 64) (s : State) : Out := s.write d ((s.core.getG a) >>> i.val)

/-- SAR by a constant (R58). -/
def execSarImm (d a : Reg) (i : Fin 64) (s : State) : Out := s.write d ((s.core.getG a).sshiftRight i.val)

/-- SLT with a sign-extended constant (R58). -/
def execSltImm (d a : Reg) (i : BitVec 16) (s : State) : Out := s.write d (bit1 ((s.core.getG a).slt (immS i)))

/-- SLTN with a zero-extended constant (R58). -/
def execSltnImm (d a : Reg) (i : BitVec 16) (s : State) : Out := s.write d (bit1 ((s.core.getG a).ult (immZ i)))

/-- SEQ with a sign-extended constant (R58). -/
def execSeqImm (d a : Reg) (i : BitVec 16) (s : State) : Out := s.write d (bit1 ((s.core.getG a) == (immS i)))

/-- MIN with a sign-extended constant (R58). -/
def execMinImm (d a : Reg) (i : BitVec 14) (s : State) : Out := s.write d (minS (s.core.getG a) (immS i))

/-- MAX with a sign-extended constant (R58). -/
def execMaxImm (d a : Reg) (i : BitVec 14) (s : State) : Out := s.write d (maxS (s.core.getG a) (immS i))

/-- MINN with a zero-extended constant (R58). -/
def execMinnImm (d a : Reg) (i : BitVec 14) (s : State) : Out := s.write d (minU (s.core.getG a) (immZ i))

/-- MAXN with a zero-extended constant (R58). -/
def execMaxnImm (d a : Reg) (i : BitVec 14) (s : State) : Out := s.write d (maxU (s.core.getG a) (immZ i))

/-- EXT with a constant field; l is its length less 1 (R60). -/
def execExtImm (d a : Reg) (g : Bool) (p l : Fin 64) (s : State) : Out := s.write d (extField (s.core.getG a) g p.val (l.val + 1))

/-- INS with a constant field; l is its length less 1 (R60). -/
def execInsImm (d a : Reg) (p l : Fin 64) (s : State) : Out :=
  s.write d (insField (s.core.getG d) (s.core.getG a) p.val (l.val + 1))

/-- LIM: a constant into one lane of gd; with keep the other lanes stay (R61). -/
def execLim (d : Reg) (k : Bool) (n : Fin 4) (i : BitVec 16) (s : State) : Out :=
  let v := immZ i <<< (16 * n.val)
  s.write d (if k then (s.core.getG d &&& ~~~((0xFFFF : W64) <<< (16 * n.val))) ||| v else v)

end Sys2Proof.Machine
end

