-- ==== Sys2Proof/Machine/AttnMath.lean ====
section
/-! DEFINITION. AttnMath.lean: the arithmetic of the attention engines: the rotation of keys (R242), one query's attention (R243) and the
deviation of a recomputed key (R246). -/

namespace Sys2Proof.Machine

/-! ### θ (R242) -/

/-- m times 2^e is at most n times 2^f, for natural m and n. -/
def dyLe (m : Nat) (e : Int) (n : Nat) (f : Int) : Bool :=
  if f ≤ e then m * 2 ^ (e - f).toNat ≤ n else m ≤ n * 2 ^ (f - e).toNat

/-- A positive dyadic m times 2^e is at most R^(−i ÷ h), R the value of an f32 code: its power h times R^i is at most 1. -/
def belowPower (rbase h i : Nat) (m : Nat) (e : Int) : Bool :=
  match Fmt.f32.decode rbase with
  | .fin _ rm re => dyLe (m ^ h * rm ^ i) (h * e + i * re) 1 0
  | _ => false

/-- The greatest code below 2^k steps from c up whose value passes a test that larger values fail. -/
def greatestCode (ok : Nat → Bool) : Nat → Nat → Nat
  | 0, c => c
  | k + 1, c => greatestCode ok k (if ok (c + 2 ^ k) then c + 2 ^ k else c)

/-- A positive f32 code as a dyadic. -/
def f32dy (c : Nat) : Nat × Int := match Fmt.f32.decode c with | .fin _ m e => (m, e) | _ => (2 ^ 24, 104)

/-- θ := RNE_FP32(RBASE^(−i ÷ ROTH)) (R242): the code at or below it, or the next when the power lies above the middle of the two, or on
it and the code is odd. -/
def thetaOf (rbase roth i : Nat) : Nat :=
  if i = 0 then 0x3F800000
  else
    let c := greatestCode (fun c => let x := f32dy c; belowPower rbase roth i x.1 x.2) 30 0
    let x := f32dy c
    let y := f32dy (c + 1)
    let e := min x.2 y.2
    let mid := x.1 * 2 ^ (x.2 - e).toNat + y.1 * 2 ^ (y.2 - e).toNat
    if !belowPower rbase roth i mid (e - 1) then c
    else
      let exact := match Fmt.f32.decode rbase with
        | .fin _ rm re => dyLe 1 0 (mid ^ roth * rm ^ i) (roth * (e - 1) + i * re)
        | _ => false
      if exact && c % 2 == 0 then c else c + 1

/-! ### Sine and cosine, in units of 2^−640 -/

def fixBits : Nat := 640
def fixOne : Int := 2 ^ fixBits

/-- The arc tangent of 1 ÷ n: p is ±1 ÷ n^k, terms from k up. Fuel is the number of terms. -/
def atanTerms (n : Int) : Nat → Int → Int → Int
  | 0, _, _ => 0
  | j + 1, p, k => p / k + atanTerms n j (-(p / (n * n))) (k + 2)

def atanInv (n : Int) : Int := atanTerms n 300 (fixOne / n) 1

/-- π = 16 atan(1 ÷ 5) − 4 atan(1 ÷ 239). -/
def fixPi : Int := 16 * atanInv 5 - 4 * atanInv 239

/-- The terms t, t·a²÷((k + 1)(k + 2)), … with alternating signs. -/
def trigTerms (sq : Int) : Nat → Int → Int → Int
  | 0, _, _ => 0
  | j + 1, t, k => t + trigTerms sq j (-(t * sq / fixOne / ((k + 1) * (k + 2)))) (k + 2)

/-- An angle brought into [−π, π]. -/
def reduceAngle (a : Int) : Int := a - (a + fixPi) / (2 * fixPi) * (2 * fixPi)

/-- A fixed-point number rounded RNE to f32; it stands for a real that is no dyadic (log 14). -/
def fixToF32 (x : Int) : Nat := (Fmt.f32.round .rne 0 { neg := x < 0, m := x.natAbs, e := -fixBits, sticky := true }).1

/-- c and s of R242 for an angle of m times 2^e. -/
def cosSin (m : Int) (e : Int) : Nat × Nat :=
  let s := e + fixBits
  let a := reduceAngle (if 0 ≤ s then m * 2 ^ s.toNat else m / 2 ^ (-s).toNat)
  let sq := a * a / fixOne
  (fixToF32 (trigTerms sq 100 fixOne 0), fixToF32 (trigTerms sq 100 a 1))

/-! ### Rotation (R242) -/

/-- a × x + b × y of finite codes, exact and rounded once to bf16; otherwise as IEEE 754 gives, every NaN 0x7FC0. -/
def rotTerm (a x b y : Nat) : Nat :=
  match fvMul (Fmt.bf16.decode a) (Fmt.f32.decode x), fvMul (Fmt.bf16.decode b) (Fmt.f32.decode y) with
  | .fin s m e, .fin t n f =>
    let r := dyAdd (signed s m, e) (signed t n, f)
    if r.1 = 0 then (if s && t then 0x8000 else 0) else (Fmt.bf16.round .rne 0 (exactOf r.1 r.2)).1
  | .inf s, .inf t => if s = t then 0x7F80 + (if s then 0x8000 else 0) else 0x7FC0
  | .inf s, .fin _ _ _ | .fin _ _ _, .inf s => 0x7F80 + (if s then 0x8000 else 0)
  | _, _ => 0x7FC0

/-- A key as a query reads it: rotated by DELTA (R242). -/
def rotateKey (m : KvModel) (delta : Int) (k : List Nat) : List Nat :=
  if delta = 0 then k
  else
    let pair := fun (i : Nat) => if m.pair then (i, i + m.roth) else (2 * i, 2 * i + 1)
    (List.range m.roth).foldl (fun acc i =>
      let (p, q) := pair i
      let th := f32dy (thetaOf m.rbase m.roth i)
      let (c, s) := cosSin (delta * th.1) th.2
      let a := k.getD p 0
      let b := k.getD q 0
      (acc.set p (rotTerm a c b (Fmt.f32.negate s))).set q (rotTerm a s b c)) k

/-! ### Attention (R243) -/

/-- Products accumulated in groups of 32 from an accumulator (R153). Fuel is the number of products. -/
def accumulate : Nat → Nat → List (FVal × Int) → Nat
  | 0, acc, _ => acc
  | n + 1, acc, ps => if ps.isEmpty then acc else accumulate n (groupAcc acc (ps.take 32)) (ps.drop 32)

/-- The f32 dot product of two bf16 vectors. -/
def dotBf16 (q k : List Nat) : Nat :=
  let ps := List.zipWith (fun a b => opMul (operandOf .bf16 a) (operandOf .bf16 b)) q k
  accumulate ps.length 0 ps

/-- m, l and O of a query in progress; none once a score was a NaN. -/
structure Soft where
  m : Nat
  l : Nat
  o : List Nat
  nan : Bool
  deriving DecidableEq, Repr

/-- One group of keys and values (R243). -/
def Soft.group (x : Soft) (scl : Nat) (q : List Nat) (kvs : List (List Nat × List Nat)) : Soft :=
  let ss := kvs.map fun kv => f32mul (dotBf16 q kv.1) scl
  if x.nan || ss.any fun s => (Fmt.f32.decode s).isNaN then { x with nan := true }
  else
    let m := ss.foldl f32max x.m
    let c := if x.m = 0xFF800000 then 0 else (expPath (f32sub x.m m)).1
    let ps := ss.map fun s => operandOf .bf16 (cvtFF .f32 .bf16 .rne 0 (expPath (f32sub s m)).1).1
    let one := operandOf .bf16 0x3F80
    { x with
      m := m
      l := groupAcc (f32mul x.l c) (ps.map fun p => opMul p one)
      o := x.o.zipIdx.map fun od =>
        groupAcc (f32mul od.1 c) (List.zipWith (fun p kv => opMul p (operandOf .bf16 (kv.2.getD od.2 0))) ps kvs) }

/-- The groups of 32 keys in order. Fuel is the number of keys. -/
def Soft.groups (scl : Nat) (q : List Nat) : Nat → Soft → List (List Nat × List Nat) → Soft
  | 0, x, _ => x
  | n + 1, x, kvs => if kvs.isEmpty then x else Soft.groups scl q n (x.group scl q (kvs.take 32)) (kvs.drop 32)

/-- The output record of one query token and head over the keys it sees (R240, R241, R243). -/
def attend (hd scl : Nat) (q : List Nat) (kvs : List (List Nat × List Nat)) : List Byte :=
  let x := Soft.groups scl q kvs.length { m := 0xFF800000, l := 0, o := List.replicate hd 0, nan := false } kvs
  let nan := Fmt.f32.nanCode false
  let o := if x.nan then x.o.map fun _ => nan else if kvs.isEmpty then x.o else x.o.map fun v => f32div v x.l
  o.flatMap (leBytes 4) ++ leBytes 4 (if x.nan then nan else x.m) ++ leBytes 4 (if x.nan then nan else x.l)

/-! ### Deviation (R246) -/

/-- The sum of squares of f32 codes. -/
def sumSquares (xs : List Nat) : Nat :=
  let ps := xs.map fun x => opMul (operandOf .f32 x) (operandOf .f32 x)
  accumulate ps.length 0 ps

/-- dev exceeds the threshold, or is a NaN: kn and kc are f32 codes. -/
def deviates (kn kc : List Nat) (thr : Nat) : Bool :=
  let num := sumSquares (List.zipWith f32sub kn kc)
  let den := sumSquares kc
  let zero := (Fmt.f32.cmp .eq den 0).1
  let dev := if zero then (if (Fmt.f32.cmp .gt num 0).1 then Fmt.f32.infCode else 0) else f32div num den
  (Fmt.f32.decode dev).isNaN || (Fmt.f32.cmp .gt dev thr).1

end Sys2Proof.Machine
end

