-- ==== Sys2Proof/Machine/Attention.lean ====
section
/-! DEFINITION. Attention.lean: the immediate commands of the attention chiplets (R223..R235, R245, R249, R250) and the checks of the queued
ones (R236, R237, R239, R240, R244, R246, R247). -/

namespace Sys2Proof.Machine

/-! ### What commands share -/

/-- Bytes read as the strand's loads read them (R90), at an address checked for width w: a descriptor or an image (R224). -/
def State.readData (s : State) (va : W64) (w : Nat) (k : State → List Byte → Out) : Out :=
  s.withImplicit fun t => t.addressed va w .read none false fun u pa =>
    u.readAs .seq pa w k fun x c _ => x.precise c va

/-- A check's answer: its trap, or go on. -/
def State.checked {α : Type} (s : State) (r : Except Fail α) (k : α → Out) : Out :=
  match r with
  | .error (c, v) => s.precise c v
  | .ok x => k x

/-- A command whose status is n. -/
def State.answer (s : State) (d : Reg) (n : Nat) : Out := s.write d (BitVec.ofNat 64 n)

/-- Chiplet and entry of a reference (R229). -/
def refChip (x : W64) : Nat := bitsOf x 18 18
def refEntry (x : W64) : Nat := bitsOf x 17 0
def refBad (x : W64) : Bool := bitsOf x 63 19 ≠ 0

/-- Chiplet and slot of a slot reference (R226). -/
def slotChip (x : W64) : Nat := bitsOf x 20 20
def slotIdx (x : W64) : Nat := bitsOf x 19 0
def slotBad (x : W64) : Bool := bitsOf x 63 21 ≠ 0

/-- The owner tag of the current Ringmaster task, or 0 (R226). -/
def State.ownTag (s : State) : Nat :=
  match s.core.ring with
  | some (die, idx) => match assoc idx (s.die die).tcbs with | some b => b.owner.toNat | none => 0
  | none => 0

/-- Write back a sequence's HEAD and spans. -/
def Chip.putSeq (c : Chip) (e head : Nat) (xs : List KvSpan) : Chip :=
  xs.zipIdx.foldl (fun t x => t.putEntry (e + 1 + x.2) x.1.value) (c.putEntry e (withField head 119 112 xs.length))

/-! ### Model descriptors (R235) -/

/-- HD of HDC. -/
def hdOf (n : Nat) : Nat := match n with | 0 => 64 | 1 => 128 | _ => 256

/-- The descriptor that 8 quadwords give. -/
def modelOf (q : List W64) : KvModel :=
  { rbase := bitsOf (quad q 2) 63 32, scl := bitsOf (quad q 2) 31 0
    model := bitsOf (quad q 1) 63 48, ropeid := bitsOf (quad q 1) 47 40, roth := bitsOf (quad q 1) 39 32, pair := bitsOf (quad q 1) 31 31 == 1
    layers := bitsOf (quad q 1) 23 16, kvh := bitsOf (quad q 1) 15 8, gqa := bitsOf (quad q 1) 7 0
    hd := hdOf (bitsOf (quad q 0) 63 62), tpp := 16 * 2 ^ bitsOf (quad q 0) 61 60, kvfmt := bitsOf (quad q 0) 59 56 }

/-- Bytes of a cached element. -/
def KvModel.ew (m : KvModel) : Nat := if m.kvfmt = 9 then 2 else 1

/-- RBASE is finite and above 1. -/
def baseOk (c : Nat) : Bool := match Fmt.f32.decode c with | .fin neg _ _ => !neg && decide (0x3F800000 < c) | _ => false

/-- Every field is in range, and a page holds a layer (R235). -/
def KvModel.ok (m : KvModel) (hdc pgsz : Nat) : Bool :=
  baseOk m.rbase && decide (m.roth ≤ m.hd / 2) && decide (1 ≤ m.layers) && decide (1 ≤ m.kvh ∧ m.kvh ≤ 64)
    && decide (1 ≤ m.gqa ∧ m.gqa ≤ 64) && decide (hdc < 3) && (m.kvfmt == 9 || m.kvfmt == 11 || m.kvfmt == 12)
    && decide (2 * m.kvh * m.tpp * m.hd * m.ew ≤ pgsz)

/-- The first quadword with a nonzero res bit. -/
def modelRes (q : List W64) : Option W64 :=
  let bad := fun (k : Nat) => match k with
    | 0 => bitsOf (quad q 0) 55 0 != 0
    | 1 => bitsOf (quad q 1) 30 24 != 0
    | 2 => false
    | _ => quad q k != 0
  ((List.range 8).find? bad).map (quad q)

/-- ACONFIG (R235). -/
def execAconfig (d a b : Reg) (s : State) : Out :=
  let x := s.core.getG b
  if bitsOf x 63 5 ≠ 0 then s.precise .badopnd x
  else s.readData (s.core.getG a) 64 fun t bs =>
    let q := quads bs
    match modelRes q with
    | some w => t.precise .badopnd w
    | none =>
      let k := bitsOf x 4 4
      let ch := t.chip k
      let ctx := t.core.context
      let m := modelOf q
      if !m.ok (bitsOf (quad q 0) 63 62) ch.pgsz then t.answer d 3
      else if ch.entries.any fun e => kindOf e.2.toNat == 1 && headMd e.2.toNat == bitsOf x 3 0 && ch.mine ctx e.1 then t.answer d 1
      else (t.putChip k { ch with models := assocPut (ctx * 16 + bitsOf x 3 0) m ch.models }).answer d 0

/-! ### Segments (R233, R234, R348) -/

/-- A queued command's check used an entry of the segment. -/
def Chip.segBusy (c : Chip) (n : Nat) : Bool := c.cmds.any fun m => m.segs.contains n

def segBad (x : W64) : Bool := bitsOf x 63 11 ≠ 0

/-- KTLOAD (R233, R348). -/
def execKtload (d a b : Reg) (s : State) : Out :=
  let x := s.core.getG b
  let k := bitsOf x 10 10
  let n := bitsOf x 9 0
  if segBad x then s.precise .badopnd x
  else if (s.chip k).segBusy n then .next s
  else if (assoc n (s.chip k).locks).isSome then s.answer d 1
  else s.readData (s.core.getG a) 4096 fun t bs =>
    let ch := t.chip k
    let es := (List.range 256).map fun e => leVal ((bs.drop (16 * e)).take 16)
    (t.putChip k (es.zipIdx.foldl (fun c e => c.putEntry (256 * n + e.2) e.1) ch)).answer d 0

/-- KTLOAD.st (R233, R348). -/
def execKtloadSt (d a b : Reg) (s : State) : Out :=
  let x := s.core.getG b
  let k := bitsOf x 10 10
  let n := bitsOf x 9 0
  let ch := s.chip k
  if segBad x then s.precise .badopnd x
  else if ch.segBusy n then .next s
  else if (match assoc n ch.locks with | some o => o != s.core.context | none => false) then s.answer d 2
  else s.withImplicit fun t =>
    let va := t.core.getG a
    t.addressed va 4096 .write none false fun u pa =>
      u.storeAt va pa ((List.range 256).flatMap fun e => leBytes 16 (ch.entry (256 * n + e))) fun y => y.answer d 0

/-- KTLOCK (R234). -/
def execKtlock (d a : Reg) (s : State) : Out :=
  let x := s.core.getG a
  let k := bitsOf x 10 10
  let n := bitsOf x 9 0
  let ch := s.chip k
  let ctx := s.core.context
  if segBad x then s.precise .badopnd x
  else match assoc n ch.locks with
    | some o => s.answer d (if o = ctx then 0 else 1)
    | none =>
      let lim := match s.ctx? ctx with | some c => c.limSegs | none => 0
      if lim ≤ (ch.locks.filter fun l => l.2 == ctx).length then s.answer d 2
      else (s.putChip k { ch with locks := assocPut n ctx ch.locks }).answer d 0

/-- KTLOCK.un (R234). -/
def execKtlockUn (d a : Reg) (s : State) : Out :=
  let x := s.core.getG a
  let k := bitsOf x 10 10
  let n := bitsOf x 9 0
  let ch := s.chip k
  if segBad x then s.precise .badopnd x
  else if assoc n ch.locks = some s.core.context then (s.putChip k { ch with locks := assocDrop n ch.locks }).answer d 0
  else s.answer d 1

/-! ### The page pool (R226..R228) -/

/-- Fill slots with fresh frames (R226). -/
def Chip.fillSlots (c : Chip) (ctx owner : Nat) (ks : List Nat) : Chip :=
  ks.foldl (fun t k => match t.take ctx owner with | some (f, u) => u.putSlot k f false | none => t) c

/-- KALLOC (R226). -/
def execKalloc (d a b : Reg) (s : State) : Out :=
  let x := s.core.getG a
  let y := s.core.getG b
  let n := bitsOf y 11 0
  let ctx := s.core.context
  if slotBad x then s.precise .badopnd x
  else if bitsOf y 15 12 ≠ 0 || bitsOf y 63 40 ≠ 0 || n = 0 then s.precise .badopnd y
  else
    let k := slotChip x
    let ch := s.chip k
    let slots := (List.range n).map (· + slotIdx x)
    s.checked (eachOk (ch.lookSlot ctx k) slots) fun _ =>
      if slots.any fun i => (ch.slot i).1 != noPage then s.answer d 2
      else if ch.free < ch.reserve + n then s.answer d 1
      else
        let tag := if bitsOf y 39 16 = 0 then s.ownTag else bitsOf y 39 16
        (s.putChip k (ch.fillSlots ctx tag slots)).answer d 0

/-- KFREE (R227). -/
def execKfree (d a : Reg) (s : State) : Out :=
  let x := s.core.getG a
  let k := refChip x
  let ch := s.chip k
  let ctx := s.core.context
  if refBad x then s.precise .badopnd x
  else s.checked (ch.lookHead ctx k (refEntry x)) fun _ =>
    if ch.holdsSeq (refEntry x) then s.answer d 1
    else s.checked (ch.freeSeq ctx k (refEntry x)) fun c => (s.putChip k c).answer d 0

/-- KFREE.ent (R227). -/
def execKfreeEnt (d a b : Reg) (s : State) : Out :=
  let x := s.core.getG a
  let y := s.core.getG b
  let ctx := s.core.context
  if slotBad x then s.precise .badopnd x
  else if bitsOf y 63 12 ≠ 0 then s.precise .badopnd y
  else
    let k := slotChip x
    let ch := s.chip k
    let slots := (List.range (bitsOf y 11 0)).map (· + slotIdx x)
    s.checked (eachOk (ch.lookSlot ctx k) slots) fun _ =>
      let r := slots.foldl (fun (acc : Nat × Chip) i =>
        let z := acc.2.release ctx i
        (acc.1 + z.1.toNat, z.2)) (0, ch)
      (s.putChip k r.2).answer d r.1

/-- KRECLAIM on both chiplets for a context (R228). -/
def State.reclaimTag (s : State) (ctx owner : Nat) : Nat × State :=
  let r0 := s.chip0.reclaim ctx 0 owner
  let r1 := s.chip1.reclaim ctx 1 owner
  (r0.1 + r1.1, { s with chip0 := r0.2, chip1 := r1.2 })

/-- KRECLAIM (R228). -/
def execKreclaim (d a : Reg) (s : State) : Out :=
  let x := s.core.getG a
  if bitsOf x 63 24 ≠ 0 || x = 0 then s.precise .badopnd x
  else
    let r := s.reclaimTag s.core.context x.toNat
    r.2.answer d r.1

/-- CANCEL_RECLAIM (R328): the k-th owed reclaim of the dies, once the whole cancel has been applied and no task of the subtree that
carries the tag is RUNNING or ABORTING. -/
def execCancelReclaim (k : Nat) (s : State) : Out :=
  match (s.die0.reclaims ++ s.die1.reclaims)[k]? with
  | none => .next s
  | some r =>
    let busy := r.tasks.any fun id => match s.tcb? id with | some b => b.state == .running || b.state == .aborting | none => false
    if busy || s.cancels.any fun f => f.named = r.roots then .next s
    else
      let n := s.die0.reclaims.length
      let t := if k < n then { s with die0 := { s.die0 with reclaims := s.die0.reclaims.eraseIdx k } }
        else { s with die1 := { s.die1 with reclaims := s.die1.reclaims.eraseIdx (k - n) } }
      .next (t.reclaimTag r.ctx r.owner.toNat).2

/-! ### Status (R249) -/

/-- A sequence looked up for KRSTAT. -/
def State.statSeq (s : State) (x : W64) (k : Chip → Nat → KvModel → List KvSpan → Out) : Out :=
  let n := refChip x
  let ch := s.chip n
  if refBad x then s.precise .badopnd x
  else s.checked (ch.lookHead s.core.context n (refEntry x)) fun h =>
    s.checked (ch.lookSpans s.core.context n (refEntry x) h.1) fun xs => k ch h.1 h.2 xs

/-- KRSTAT.seq (R249). -/
def execKrstatSeq (d a : Reg) (s : State) : Out :=
  let x := s.core.getG a
  s.statSeq x fun ch v m xs =>
    let fl := (xs.filter fun y => y.flagged).map fun y => y.rwm
    let least := match fl with | [] => m.layers | r :: t => t.foldl min r
    s.answer d (headLen v * 2 ^ 40 + headNspan v * 2 ^ 32 + least * 2 ^ 24 + headApp v * 2 ^ 12 + headAlay v * 2 ^ 4 + headLib v * 8
      + (ch.holdsSeq (refEntry x)).toNat * 4)

/-- A span that KRSTAT names: its entry is the only one looked up beside the HEAD (R347). -/
def State.statSpan (s : State) (a b : Reg) (k : KvSpan → Out) : Out :=
  let x := s.core.getG a
  let y := s.core.getG b
  let n := refChip x
  let ch := s.chip n
  if refBad x then s.precise .badopnd x
  else s.checked (ch.lookHead s.core.context n (refEntry x)) fun h =>
    if headNspan h.1 ≤ y.toNat then s.precise .badopnd y
    else s.checked (ch.look s.core.context n 2 (refEntry x + 1 + y.toNat)) fun v => k (spanOf v)

/-- KRSTAT.span (R249). -/
def execKrstatSpan (d a b : Reg) (s : State) : Out :=
  s.statSpan a b fun z => s.answer d (z.start * 2 ^ 40 + z.cnt * 2 ^ 16 + z.rwm * 2 ^ 8 + z.spl.toNat * 2 + z.stale.toNat)

/-- KRSTAT.delta (R249). -/
def execKrstatDelta (d a b : Reg) (s : State) : Out := s.statSpan a b fun z => s.write d (BitVec.ofInt 64 z.delta)

/-- KRSTAT.pool (R249). -/
def execKrstatPool (d a : Reg) (s : State) : Out :=
  let x := s.core.getG a
  if bitsOf x 63 1 ≠ 0 then s.precise .badopnd x
  else
    let ch := s.chip (bitsOf x 0 0)
    s.answer d (ch.free % 2 ^ 24 * 2 ^ 40 + ch.reserve % 2 ^ 24 * 2 ^ 16)

/-! ### Splicing (R245, R339) -/

/-- The spans of a sequence with the one that contains position p split there (R245). -/
def splitAt (m : KvModel) (p : Nat) (xs : List KvSpan) : List KvSpan :=
  xs.flatMap fun x =>
    if x.start < p && p < x.start + x.cnt then
      let k := p - x.start
      [{ x with cnt := k },
       { x with start := p, cnt := x.cnt - k, off := (x.off + k) % m.tpp, plist := x.plist + (x.off + k) / m.tpp * m.layers }]
    else [x]

/-- The place of a slot among slots. -/
def placeOf (slots : List Nat) (k : Nat) : Nat := (slots.takeWhile fun i => i ≠ k).length

/-- The spans of S after block B of length len, its slots copied from first up, is spliced in at p (R245). -/
def splicedSpans (m : KvModel) (p len prov first : Nat) (xs bs : List KvSpan) : List KvSpan :=
  let slots := slotsOf m bs
  let cut := splitAt m p xs
  let mid := bs.map fun x =>
    { x with start := p + x.start, delta := x.delta + p, plist := first + placeOf slots x.plist, prov := prov, spl := true, rwm := 0 }
  let late := (cut.filter fun x => p ≤ x.start).map fun x =>
    { x with start := x.start + len, delta := x.delta + len, stale := true, rwm := 0 }
  cut.filter (fun x => x.start < p) ++ mid ++ late

/-- A DELTA outside i20. -/
def deltaBad (x : KvSpan) : Bool := x.delta < -(2 ^ 19) || 2 ^ 19 ≤ x.delta

/-- Copies of slots in fresh PAGES entries, each page gaining a shared hold (R245, R250). -/
def Chip.shareSlots (c : Chip) (first : Nat) (pages : List Nat) : Chip :=
  pages.zipIdx.foldl (fun t p => (t.putSlot (first + p.2) p.1 true).rehold p.1 fun x => { x with share := x.share + 1 }) c

/-- PAGES entries with empty slots from e up. -/
def Chip.emptyRun (c : Chip) (e n : Nat) : Chip := (List.range n).foldl (fun t k => t.putEntry (e + k) emptyPages) c

/-- KSPLICE (R245). -/
def execKsplice (d a b : Reg) (s : State) : Out :=
  let x := s.core.getG a
  let y := s.core.getG b
  let z := s.core.getG d
  let ctx := s.core.context
  if bitsOf y 39 19 ≠ 0 then s.precise .badopnd y
  else if refBad x then s.precise .badopnd x
  else if refBad z then s.precise .badopnd z
  else
    let k := refChip x
    let ch := s.chip k
    let e := refEntry x
    let p := bitsOf y 63 40
    let eb := bitsOf y 17 0
    s.checked (ch.lookHead ctx k e) fun h =>
    if bitsOf y 18 18 ≠ k then s.precise .txmiss (BitVec.ofNat 64 (bitsOf y 18 0)) else
    s.checked (ch.lookHead ctx k eb) fun g =>
    s.checked (ch.lookSpans ctx k e h.1) fun xs =>
    s.checked (ch.lookSpans ctx k eb g.1) fun bs =>
    let slots := slotsOf g.2 bs
    let run := refEntry z
    let n := 1 + (slots.length + 3) / 4
    if refChip z ≠ k then s.precise .txmiss z else
    s.checked (ch.needMine ctx k ((List.range n).map (· + run))) fun _ =>
    let repair := ch.cmds.any fun m => m.head == e && (m.kind == .sel || m.kind == .put)
    if headLib g.1 ≠ 1 || headLib h.1 = 1 then s.answer d 4
    else if g.2.quad ≠ h.2.quad then s.precise .staleblk (entryRef k eb)
    else if headLen h.1 < p || headApp h.1 ≠ 0 || repair then s.answer d 2
    else if bs.any fun q => q.flagged || q.prov != 0 then s.answer d 4
    else if headCap h.1 < headNspan h.1 + headNspan g.1 + 1 then s.answer d 1
    else if (List.range n).any (fun i => kindOf (ch.entry (run + i)) != 0) || run / 256 ≠ (run + n - 1) / 256 then s.answer d 3
    else
      let out := splicedSpans h.2 p (headLen g.1) run (4 * (run + 1)) xs bs
      match out.find? deltaBad with
      | some q => s.precise .badopnd (BitVec.ofInt 64 q.delta)
      | none =>
        s.checked (ch.needMine ctx k ((List.range out.length).map (· + (e + 1)))) fun _ =>
        s.checked (eachOk (ch.lookPage ctx k) slots) fun pages =>
        let c1 := (ch.putEntry run (provValue g.2 (headVer g.1) eb)).emptyRun (run + 1) (n - 1)
        let c2 := c1.shareSlots (4 * (run + 1)) pages
        let c3 := c2.putSeq e (withField h.1 75 52 (headLen h.1 + headLen g.1)) out
        (s.putChip k c3).answer d 0

/-! ### Prefix forks (R250, R349) -/

/-- The spans below T, the last cut there. -/
def keptSpans (t : Nat) (xs : List KvSpan) : List KvSpan :=
  (xs.filter fun x => x.start < t).map fun x => { x with cnt := min x.cnt (t - x.start) }

/-- The slots of the cut block when it is partly matched, else none. -/
def cutSlots (m : KvModel) (xs : List KvSpan) : List Nat :=
  match xs.getLast? with
  | some x => if (x.off + x.cnt) % m.tpp = 0 then [] else (x.slots m).drop ((x.blocks m.tpp - 1) * m.layers)
  | none => []

/-- The places of a slot's page that tokens of the spans occupy. -/
def placesOf (m : KvModel) (xs : List KvSpan) (k : Nat) : List Nat :=
  (List.range m.tpp).filter fun p => xs.any fun x =>
    x.plist ≤ k && k < x.plist + x.blocks m.tpp * m.layers
      && (let b := (k - x.plist) / m.layers
          decide (x.off ≤ b * m.tpp + p ∧ b * m.tpp + p < x.off + x.cnt))

/-- The offset of head h's key at a place, and of the value (R235). -/
def KvModel.keyOff (m : KvModel) (h p : Nat) : Nat := m.ew * ((h * m.tpp + p) * m.hd)
def KvModel.valOff (m : KvModel) (h p : Nat) : Nat := m.keyOff h p + m.kvh * m.tpp * m.hd * m.ew

/-- Bytes of a page. -/
def Chip.pageBytes (c : Chip) (f off n : Nat) : List Byte := cellBytes c.bytes (f * c.pgsz + off) n
def Chip.putPage (c : Chip) (f off : Nat) (bs : List Byte) : Chip := { c with bytes := cellPutBytes c.bytes (f * c.pgsz + off) bs }

/-- The keys and values of places copied from a page to another. -/
def Chip.copyPlaces (c : Chip) (m : KvModel) (src dst : Nat) (ps : List Nat) : Chip :=
  let n := m.hd * m.ew
  ps.foldl (fun t p => (List.range m.kvh).foldl (fun u h =>
    (u.putPage dst (m.keyOff h p) (u.pageBytes src (m.keyOff h p) n)).putPage dst (m.valOff h p) (u.pageBytes src (m.valOff h p) n)) t) c

/-- The fork's run of PAGES entries: fully matched pages shared, partly matched ones copied into new frames (R250). -/
def Chip.forkRun (c : Chip) (ctx owner first : Nat) (m : KvModel) (xs : List KvSpan) (priv : List Nat) (slots : List (Nat × Nat)) : Chip :=
  slots.zipIdx.foldl (fun t x =>
    let k := x.1.1
    let page := x.1.2
    if priv.contains k then
      match t.take ctx owner with
      | some (f, u) => (u.copyPlaces m page f (placesOf m xs k)).putSlot (first + x.2) f false
      | none => t
    else (t.putSlot (first + x.2) page true).rehold page fun f => { f with share := f.share + 1 }) c

/-- KFORK (R250, R349). -/
def execKfork (d a : Reg) (s : State) : Out :=
  s.readData (s.core.getG a) 32 fun t bs =>
    let q := quads bs
    let w := quad q 0
    let ctx := t.core.context
    let len := bitsOf (quad q 3) 63 40
    if bitsOf w 0 0 ≠ 0 then t.precise .badopnd w
    else if quad q 1 ≠ 0 then t.precise .badopnd (quad q 1)
    else if quad q 2 ≠ 0 then t.precise .badopnd (quad q 2)
    else if bitsOf (quad q 3) 39 0 ≠ 0 then t.precise .badopnd (quad q 3)
    else
      let k := bitsOf w 63 63
      let e := bitsOf w 62 45
      let new := bitsOf w 44 27
      let cap := bitsOf w 26 19
      let run := bitsOf w 18 1
      let ch := t.chip k
      t.checked (ch.lookHead ctx k e) fun h =>
      if headLen h.1 < len then t.precise .badopnd (quad q 3) else
      t.checked (ch.lookSpans ctx k e h.1) fun xs =>
      let kept := keptSpans len xs
      let slots := slotsOf h.2 kept
      let priv := cutSlots h.2 kept
      let n := (slots.length + 3) / 4
      let ents := (List.range (cap + 1)).map (· + new) ++ (List.range n).map (· + run)
      if headApp h.1 ≠ 0 || cap < kept.length then t.answer d 2 else
      t.checked (ch.needMine ctx k ents) fun _ =>
      if ents.any fun i => kindOf (ch.entry i) != 0 then t.answer d 3
      else if !priv.isEmpty && decide (ch.free < ch.reserve + h.2.layers) then t.answer d 1
      else
        t.checked (eachOk (ch.lookPage ctx k) slots) fun pages =>
        let c1 := (ch.emptyRun run n).forkRun ctx t.ownTag (4 * run) h.2 kept priv (slots.zip pages)
        let head := 2 ^ 124 + headMd h.1 * 2 ^ 120 + cap * 2 ^ 104 + t.ownTag * 2 ^ 76 + len * 2 ^ 52
        let out := kept.map fun x => { x with plist := 4 * run + placeOf slots x.plist }
        (t.putChip k (c1.putSeq new head out)).answer d 0

/-! ### The checks of queued commands -/

/-- The descriptor's fields (R239, R240, R246, R247). -/
def AttnKind.count (k : AttnKind) (w : W64) : Nat := match k with | .sel => bitsOf w 12 1 | .append | .query _ | .put => bitsOf w 36 25
def AttnKind.res (k : AttnKind) (w : W64) : Nat :=
  match k with | .append => bitsOf w 24 0 | .query _ | .sel => bitsOf w 0 0 | .put => bitsOf w 23 0

/-- The first quadword of the descriptor with a field outside its limits. -/
def AttnKind.bad (k : AttnKind) (q : List W64) : Option W64 :=
  let w := quad q 0
  if k.res w ≠ 0 || (k.count w = 0 && k != .put) then some w
  else if (quad q 2).toNat % 16 ≠ 0 then some (quad q 2)
  else none

/-- A command just checked. -/
def State.newCmd (s : State) (kind : AttnKind) (q : List W64) (e head : Nat) (m : KvModel) (xs : List KvSpan) : AttnCmd :=
  { core := s.core.id, ctx := s.core.context, task := s.core.taskid, num := s.core.nextCmd, word := s.core.pc, kind := kind, desc := q
    head := e, owner := BitVec.ofNat 24 (headOwner head), model := m, spans := xs, shown := [], frames := [], holds := [], segs := []
    posns := [], thr := BitVec.ofNat 32 s.core.repthr.toNat, waiting := false, partial_ := false, begun := false, input := [], tokens := 0
    stage := 0, output := [], count := 0, wrote := 0, forked := false, fault := none }

/-- The slots a command reads or writes are resolved and held (R237), and the segments its check used are noted (R348). -/
def Chip.resolve (c : Chip) (ctx d : Nat) (m : AttnCmd) (slots used : List Nat) : Except Fail AttnCmd :=
  match eachOk (c.lookPage ctx d) slots with
  | .error f => .error f
  | .ok pages =>
    let ents := m.head :: (List.range m.spans.length).map (· + (m.head + 1)) ++ slots.map (· / 4) ++ used
    .ok { m with
      frames := slots.zip pages
      holds := pages.foldl (fun l p => insertNat p l) []
      segs := ents.foldl (fun l e => insertNat (e / 256) l) [] }

/-- The tail span an append at layer 0 goes to (R239, R340); none when CAP is reached. -/
def tailSpans (m : KvModel) (e cap : Nat) (xs : List KvSpan) : Option (List KvSpan) :=
  match xs.getLast? with
  | none =>
    if cap = 0 then none
    else some [{ start := 0, cnt := 0, plist := 4 * (e + 1 + cap), off := 0, delta := 0, prov := 0, rwm := m.layers, stale := false
                 spl := false }]
  | some t =>
    if !t.flagged && t.delta = 0 then some xs
    else if xs.length = cap then none
    else some (xs ++ [{ start := t.start + t.cnt, cnt := 0, plist := t.plist + (t.off + t.cnt) / m.tpp * m.layers
                        off := (t.off + t.cnt) % m.tpp, delta := 0, prov := 0, rwm := m.layers, stale := false, spl := false }])

/-- The slots of layer l that tokens i..i + n − 1 of a span lie in, ascending. -/
def layerSlots (m : KvModel) (x : KvSpan) (l i n : Nat) : List Nat :=
  (List.range n).foldl (fun acc j => insertNat (x.tokenAt m (i + j) l).1 acc) []

/-- The blocks an append opens: their slots (R239). -/
def openedSlots (m : KvModel) (t : KvSpan) (n : Nat) : List Nat :=
  ({ t with cnt := t.cnt + n }.slots m).drop (t.slots m).length

/-- HEAD and spans after an append's check at layer l (R239). -/
def appended (m : KvModel) (v l app : Nat) (xs : List KvSpan) : Nat × List KvSpan :=
  let v1 := withField (withField v 43 32 app) 51 44 (l + 1)
  if l + 1 ≠ m.layers then (v1, xs)
  else
    (withField (withField (withField v1 75 52 (headLen v + app)) 43 32 0) 51 44 0,
     xs.dropLast ++ (xs.getLast?.map fun t => { t with cnt := t.cnt + app }).toList)

/-- The check of KAPPEND (R239): a status, or the chiplet and the command. -/
def Chip.checkAppend (c : Chip) (d : Nat) (cmd : AttnCmd) (v : Nat) : Except Fail (Nat ⊕ (Chip × AttnCmd)) :=
  let m := cmd.model
  let w := quad cmd.desc 0
  let l := bitsOf w 44 37
  let n := bitsOf w 36 25
  let app := headApp v
  let finish : Chip → List KvSpan → List Nat → Except Fail (Nat ⊕ (Chip × AttnCmd)) := fun c1 ys used =>
    match ys.getLast? with
    | none => .error (.txmiss, entryRef d (cmd.head + 1))
    | some t =>
      match c1.resolve cmd.ctx d { cmd with spans := ys } (layerSlots m t l t.cnt n) used,
          c1.needMine cmd.ctx d [cmd.head + ys.length] with
      | .error f, _ => .error f
      | _, .error f => .error f
      | .ok r, .ok _ =>
        let z := appended m v l n ys
        .ok (.inr (c1.putSeq cmd.head z.1 z.2, r))
  if headLib v = 1 || l ≠ headAlay v || (l = 0 && app ≠ 0) || (0 < l && n ≠ app) then .ok (.inl 2)
  else if 0 < l then finish c cmd.spans []
  else match tailSpans m cmd.head (headCap v) cmd.spans with
    | none => .ok (.inl 3)
    | some ys =>
      let need := (ys.getLast?.map fun t => openedSlots m t n).getD []
      match c.needMine cmd.ctx d (need.map (· / 4)) with
      | .error f => .error f
      | .ok _ =>
        if need.any fun k => kindOf (c.entry (k / 4)) != 3 || (c.slot k).1 != noPage then .ok (.inl 3)
        else if c.free < need.length then .ok (.inl 1)
        else finish (c.fillSlots cmd.ctx (headOwner v) need) ys (need.map (· / 4))

/-- The provenance check of a span (R240, R345). -/
def Chip.checkProv (c : Chip) (ctx d : Nat) (m : KvModel) (at_ : Nat) (x : KvSpan) : Except Fail (List Nat) :=
  if x.prov = 0 then .ok []
  else match c.look ctx d 4 x.prov with
    | .error f => .error f
    | .ok v =>
      let lib := fieldOf v 62 45
      let h := c.entry lib
      if kindOf h = 1 && c.mine ctx lib && headLib h = 1 && headVer h = fieldOf v 87 64 && provQuad v = m.quad then .ok [x.prov, lib]
      else .error (.staleblk, entryRef d at_)

/-- The tokens of each span that a query at layer l sees: those below V (R240). -/
def shownOf (v l : Nat) (xs : List KvSpan) : List Nat :=
  let more := if l < headAlay v then headApp v else 0
  let vis := headLen v + more
  xs.zipIdx.map fun x => min (x.1.cnt + (if x.2 + 1 = xs.length then more else 0)) (vis - x.1.start)

/-- A span below its watermark at layer l (R244). -/
def KvSpan.below (x : KvSpan) (l : Nat) : Bool := x.flagged && decide (x.rwm ≤ l)

/-- The check of AQUERY (R240, R241, R244). -/
def Chip.checkQuery (c : Chip) (d : Nat) (cmd : AttnCmd) (v : Nat) (loose : Bool) : Except Fail AttnCmd :=
  let m := cmd.model
  let l := bitsOf (quad cmd.desc 0) 44 37
  let shown := shownOf v l cmd.spans
  let pairs := cmd.spans.zip shown
  let slots := (pairs.flatMap fun x => layerSlots m x.1 l 0 x.2).foldl (fun a k => insertNat k a) []
  let low := pairs.any fun x => x.1.below l && x.2 != 0
  let seen := headLen v + (if l < headAlay v then headApp v else 0)
  match c.resolve cmd.ctx d cmd slots [] with
  | .error f => .error f
  | .ok r =>
    match eachOk (fun x : KvSpan × Nat => c.checkProv cmd.ctx d m (cmd.head + 1 + x.2) x.1) (if seen = 0 then [] else cmd.spans.zipIdx) with
    | .error f => .error f
    | .ok used =>
      .ok { r with shown := shown, waiting := low && !loose, partial_ := low && loose
                   segs := used.flatten.foldl (fun a e => insertNat (e / 256) a) r.segs }

/-- The span that holds a position, and the token's number in it. -/
def spanAt (xs : List KvSpan) (p : Nat) : Option (KvSpan × Nat) :=
  (xs.find? fun x => x.start ≤ p && p < x.start + x.cnt).map fun x => (x, p - x.start)

/-- The positions KREPAIR.sel compares: those in flagged spans (R246). -/
def selPosns (w : W64) (xs : List KvSpan) : List Nat :=
  ((List.range (bitsOf w 12 1)).map (· + bitsOf w 36 13)).filter fun p =>
    match spanAt xs p with | some y => y.1.flagged | none => false

/-- The check of KREPAIR over the positions it touches (R246, R247). -/
def Chip.checkRepair (c : Chip) (d : Nat) (cmd : AttnCmd) (ps : List Nat) : Except Fail AttnCmd :=
  let l := bitsOf (quad cmd.desc 0) 44 37
  let slots := ps.foldl (fun a p => match spanAt cmd.spans p with
    | some y => insertNat (y.1.tokenAt cmd.model y.2 l).1 a
    | none => a) []
  c.resolve cmd.ctx d { cmd with posns := ps } slots []

/-- A checked command enters the chiplet and the core's attention queue (R223). A STRICT query that waits has started. -/
def State.enqueue (s : State) (k : Nat) (ch : Chip) (cmd : AttnCmd) (st : Core → Core) : Out :=
  let t := s.putChip k { ch with cmds := ch.cmds ++ [cmd] }
  let q : Cmd := { t.core.capture cmd.word 0 with started := cmd.waiting }
  let c := st { t.core with nextCmd := t.core.nextCmd + 1, aq := t.core.aq ++ [q] }
  if t.core.slack[4] = 0 then .next (t.upd { c with micro := 2 }) else .next (t.upd c.next)

/-- The course of a queued command: the stall, its descriptor, the lookup of its sequence, its own check; under slack 0 the wait for its
completion (R75, R223, R236). -/
def State.queued (s : State) (a : Reg) (kind : AttnKind) (k : State → Nat → Chip → AttnCmd → Nat → Out) : Out :=
  if s.core.micro = 2 then (if s.core.aq.isEmpty then s.acquire.pass else .next s)
  else if !canIssue s.core.slack[4] s.core.aq.length then .next s
  else s.readData (s.core.getG a) 32 fun t bs =>
    let q := quads bs
    match kind.bad q with
    | some w => t.precise .badopnd w
    | none =>
      let w := quad q 0
      let n := bitsOf w 63 63
      let ch := t.chip n
      t.checked (ch.lookHead t.core.context n (bitsOf w 62 45)) fun h =>
      if kind != .append && h.2.layers ≤ bitsOf w 44 37 then t.precise .badopnd w else
      t.checked (ch.lookSpans t.core.context n (bitsOf w 62 45) h.1) fun xs =>
      k t n ch (t.newCmd kind q (bitsOf w 62 45) h.1 h.2 xs) h.1

/-- KAPPEND (R239). -/
def execKappend (d a : Reg) (s : State) : Out :=
  s.queued a .append fun t n ch cmd v =>
    t.checked (ch.checkAppend n cmd v) fun r =>
      match r with
      | .inl st => t.answer d st
      | .inr (c, m) => t.enqueue n c m fun x => x.setG d 0

/-- AQUERY (R240, R244). -/
def execAquery (a : Reg) (s : State) : Out :=
  s.queued a (.query false) fun t n ch cmd v => t.checked (ch.checkQuery n cmd v false) fun m => t.enqueue n ch m id

/-- AQUERY.loose (R240, R244). -/
def execAqueryLoose (a : Reg) (s : State) : Out :=
  s.queued a (.query true) fun t n ch cmd v => t.checked (ch.checkQuery n cmd v true) fun m => t.enqueue n ch m id

/-- KREPAIR.sel (R246). -/
def execKrepairSel (a : Reg) (s : State) : Out :=
  s.queued a .sel fun t n ch cmd _ =>
    t.checked (ch.checkRepair n cmd (selPosns (quad cmd.desc 0) cmd.spans)) fun m => t.enqueue n ch m id

/-- The positions of KREPAIR.put, read at its check as an engine reads (R236, R247). -/
def State.readPosns (s : State) (va : W64) (n : Nat) (k : State → List Nat → Out) : Out :=
  if n = 0 then k s []
  else match s.engCheck va n .read with
    | .error (c, v) => s.precise c v
    | .ok spans =>
      let nums := fun (bs : List Byte) => (chunks 4 bs).map leVal
      if s.isRemote va then
        s.ask .seq va (.load n none) fun t r => match r with
          | .data bs => k t (nums bs)
          | .refused c v => t.precise (causeOf c) v
          | .status _ | .done | .ack _ | .creditFault _ _ _ _ _ => .next t
      else if spans.all fun x => s.rangeSettled x.1 x.2 then
        let r := (s.pinSpan s.core.id s.core.context va n).spansRead spans
        k r.2 (nums r.1)
      else .next s

/-- KREPAIR.put (R247). -/
def execKrepairPut (a : Reg) (s : State) : Out :=
  s.queued a .put fun t _ _ cmd v =>
    let w := quad cmd.desc 0
    t.readPosns (quad cmd.desc 2 + 16) (4 * bitsOf w 36 25) fun u ps =>
      match ps.find? fun p => headLen v ≤ p || (spanAt cmd.spans p).isNone with
      | some p => u.precise .badopnd (BitVec.ofNat 64 p)
      | none =>
        let n := bitsOf w 63 63
        u.checked ((u.chip n).checkRepair n cmd ps) fun m => u.enqueue n (u.chip n) m id

end Sys2Proof.Machine
end

