-- ==== Sys2Proof/Machine/AttnRun.lean ====
section
/-! DEFINITION. AttnRun.lean: queued attention commands run (R237..R248): reads, page writes with forks, outputs, header, completion. A command
runs move by move in one ATTN_COMMAND_RUN: up to a page of input, a token's key and value, the whole of a query's or a selection's
computation, up to a page of output, the header; it stops short only where it must wait for a line or for another device. -/

namespace Sys2Proof.Machine

/-! ### Which command may move (R74, R237) -/

/-- The commands of core c that the chiplets have not begun and that do not wait as STRICT queries. -/
def State.unbegun (s : State) (c n : Nat) : Bool :=
  (s.chip0.cmds ++ s.chip1.cmds).any fun m => m.core == c && decide (m.num < n) && !m.begun && !m.waiting

/-- Command k of a chiplet may move: it has begun, or it begins in issue order of its queue and, on its sequence, in check order, with
none of the sequence under way. -/
def State.mayRun (s : State) (d k : Nat) (m : AttnCmd) : Bool :=
  let cs := (s.chip d).cmds
  !m.waiting && (m.begun
    || (!s.unbegun m.core m.num && !((cs.take k).any fun x => x.head == m.head && !x.waiting)
      && !(cs.any fun x => x.head == m.head && x.begun)))

/-! ### Pages (R235, R242, R248) -/

/-- The elements of one head's key or value as bf16. -/
def bf16s (m : KvModel) (bs : List Byte) : List Nat :=
  let f : Ty := if m.kvfmt = 11 then .e4m3 else .e5m2
  if m.kvfmt = 9 then (chunks 2 bs).map leVal else bs.map fun b => (convert f .bf16 .rne 0 b.toNat).1

/-- The key and the value of a head at a place of a frame. -/
def Chip.keyAt (c : Chip) (m : KvModel) (f h p : Nat) : List Nat := bf16s m (c.pageBytes f (m.keyOff h p) (m.hd * m.ew))
def Chip.valAt (c : Chip) (m : KvModel) (f h p : Nat) : List Nat := bf16s m (c.pageBytes f (m.valOff h p) (m.hd * m.ew))

/-- One token's keys then values, in a page (R239). -/
def Chip.putToken (c : Chip) (m : KvModel) (f p : Nat) (bs : List Byte) : Chip :=
  let n := m.hd * m.ew
  (List.range m.kvh).foldl (fun t h =>
    (t.putPage f (m.keyOff h p) ((bs.drop (h * n)).take n)).putPage f (m.valOff h p) ((bs.drop ((m.kvh + h) * n)).take n)) c

/-- The spans of the sequence of a HEAD as they stand. -/
def Chip.liveSpans (c : Chip) (head : Nat) : List KvSpan :=
  (List.range (headNspan (c.entry head))).map fun i => spanOf (c.entry (head + 1 + i))

/-- The frame a write through a slot goes to, forking a shared page first (R248): the places that tokens of the sequence occupy are copied
(R350); none when no frame is free. A slot emptied meanwhile is written in the frame resolved at the check (R237). -/
def Chip.target (c : Chip) (m : AttnCmd) (k : Nat) : Option (Nat × Bool × Chip) :=
  let (p, sh) := c.slot k
  if p = noPage then some ((assoc k m.frames).getD 0, false, c)
  else if !sh then some (p, false, c)
  else match c.take m.ctx m.owner.toNat with
    | none => none
    | some (f, c1) =>
      let c2 := (c1.copyPlaces m.model p f (placesOf m.model (c.liveSpans m.head) k)).putSlot k f false
      some (f, true, c2.rehold p (KvFrame.drop true))

/-! ### What a command reads and writes -/

/-- Bytes of a token's keys and values. -/
def KvModel.tokenBytes (m : KvModel) : Nat := 2 * m.kvh * m.hd * m.ew

/-- Bytes of input, from the address at descriptor bits [127:64] up. -/
def AttnCmd.needs (m : AttnCmd) : Nat :=
  let n := m.kind.count (quad m.desc 0)
  match m.kind with
  | .append | .put => n * m.model.tokenBytes
  | .query _ => n * (m.model.kvh * m.model.gqa) * m.model.hd * 2
  | .sel => n * m.model.kvh * m.model.hd * 2

def AttnCmd.layer (m : AttnCmd) : Nat := bitsOf (quad m.desc 0) 44 37

/-- Slot and place of the n-th token an append or a put writes. -/
def AttnCmd.tokenAt (m : AttnCmd) (n : Nat) : Option (Nat × Nat) :=
  match m.kind with
  | .append => m.spans.getLast?.map fun t => t.tokenAt m.model (t.cnt + n) m.layer
  | .put => (m.posns[n]?).bind fun p => (spanAt m.spans p).map fun y => y.1.tokenAt m.model y.2 m.layer
  | .query _ | .sel => none

/-- Where a query's keys lie: position, DELTA, slot and place, in order (R240, R243). -/
def AttnCmd.keys (m : AttnCmd) : List (Nat × Int × Nat × Nat) :=
  (m.spans.zip m.shown).flatMap fun x => (List.range x.2).map fun i =>
    let y := x.1.tokenAt m.model i m.layer
    (x.1.start + i, x.1.delta, y.1, y.2)

/-- A query's output: the records, and the keys seen summed over its tokens (R238, R240..R243). -/
def Chip.attendAll (c : Chip) (m : AttnCmd) : List Byte × Nat :=
  let d := m.model
  let w := quad m.desc 0
  let nq := bitsOf w 36 25
  let keys := m.keys
  let kvs := (List.range d.kvh).map fun h => keys.map fun k =>
    let f := (assoc k.2.2.1 m.frames).getD 0
    (rotateKey d k.2.1 (c.keyAt d f h k.2.2.2), c.valAt d f h k.2.2.2)
  let qs := (chunks 2 m.input).map leVal
  let heads := d.kvh * d.gqa
  let sees := fun (t : Nat) (k : Nat × Int × Nat × Nat) => decide (k.1 ≤ bitsOf w 24 1 + t)
  let out := (List.range nq).flatMap fun t => (List.range heads).flatMap fun h =>
    let q := (qs.drop ((t * heads + h) * d.hd)).take d.hd
    let mine := (keys.zip (kvs.getD (h / d.gqa) [])).filter fun x => sees t x.1
    attend d.hd d.scl q (mine.map fun x => x.2)
  (out, (List.range nq).foldl (fun n t => n + (keys.filter (sees t)).length) 0)

/-- The positions KREPAIR.sel lists (R246). -/
def Chip.select (c : Chip) (m : AttnCmd) : List Nat :=
  let d := m.model
  let row := d.kvh * d.hd
  let kn := (chunks 2 m.input).map fun b => f32ofBf16 (leVal b)
  m.posns.filter fun p =>
    match spanAt m.spans p with
    | none => false
    | some y =>
      let at_ := y.1.tokenAt d y.2 m.layer
      let f := (assoc at_.1 m.frames).getD 0
      let kc := (List.range d.kvh).flatMap fun h => (c.keyAt d f h at_.2).map f32ofBf16
      deviates ((kn.drop ((p - bitsOf (quad m.desc 0) 36 13) * row)).take row) kc m.thr.toNat

/-- The watermarks that a put with W = 1 advances when it completes (R247, R341). -/
def Chip.advance (c : Chip) (m : AttnCmd) : Chip :=
  (List.range (headNspan (c.entry m.head))).foldl (fun t i =>
    let e := m.head + 1 + i
    let x := spanOf (t.entry e)
    if !x.flagged || x.rwm ≠ m.layer then t
    else
      let y := { x with rwm := m.layer + 1 }
      t.putEntry e (if m.layer + 1 = m.model.layers then { y with stale := false, spl := false } else y).value) c

/-- The result header (R238). -/
def AttnCmd.header (m : AttnCmd) : Nat :=
  let code := match m.fault with | some r => r.code | none => 0
  let n := if m.fault.isSome then 0 else min m.count (2 ^ 24 - 1)
  n * 2 ^ 104 + code * 2 ^ 40 + m.forked.toNat * 4 + m.partial_.toNat * 2 + 1

/-! ### Its accesses -/

/-- The command after a move. -/
def State.putCmd (s : State) (d k : Nat) (m : AttnCmd) : State :=
  let c := s.chip d
  s.putChip d { c with cmds := c.cmds.set k m }

/-- The command is over (R237, R238): its holds end, it leaves the core's queue, its barrier takes its credit, a fault is charged. -/
def State.endCmd (s : State) (d : Nat) (m : AttnCmd) : State :=
  let c := s.chip d
  let s1 := s.putChip d (c.dropCmds d fun x => x.core == m.core && x.num == m.num)
  let s2 := s1.upd { s1.core with aq := s1.core.aq.filter fun q => q.num ≠ m.num }
  let s3 := if m.bar = 0 then s2
    else if m.fault.isSome then s2.creditVa m.core m.bar 0 true m.word 4
    else s2.creditVa m.core m.bar (m.wrote + 16) false m.word 4
  match m.fault with
  | some r => s3.charge m.core r
  | none => s3

/-- The bytes a command has written, to memory and into pages (R362). -/
def AttnCmd.performed (m : AttnCmd) : Nat := m.wrote + m.tokens * m.model.tokenBytes

/-- An engine fault: the header comes next (R238). -/
def AttnCmd.fail (m : AttnCmd) (cause : Cause) (va : W64) : AttnCmd :=
  { m with fault := some { simpleReport cause va m.word m.task 4 m.core with offset := m.performed }, stage := 3, output := [] }

/-- The lost lines of a span are charged to the command's task (R370). -/
def State.lostAt (s : State) (m : AttnCmd) (a n : Nat) : State :=
  (linesAt a n).foldl (fun t l =>
    if t.lost.contains l then t.chargeOnce m.core (simpleReport .lostline (BitVec.ofNat 64 (l * 128)) m.word m.task 5 m.core) else t) s

/-- The answer of another device to the command of the current core, asked for once (R385). -/
def State.attnAsk (s : State) (va : W64) (op : RemoteOp) (k : State → FabricReply → Out) : Out :=
  match s.core.remote with
  | none => s.ask .attn va op k
  | some r => if r.who = .attn && r.addr == va && r.answer.isSome then s.ask .attn va op k else .next s

/-- The next piece of an access: up to the end of its page. -/
def pieceOf (va : W64) (n : Nat) : Nat := min n (4096 - va.toNat % 4096)

/-- An engine read of a piece (R194, R236). -/
def State.attnRead (s : State) (m : AttnCmd) (va : W64) (n : Nat) (k : State → List Byte → Out) (bad : State → Cause → W64 → Out) : Out :=
  match s.engPage m.ctx (clusterOf m.core) va n .read with
  | .error (c, v) => bad s c v
  | .ok a =>
    if remoteBase ≤ a then
      s.attnAsk va (.load n none) fun t r => match r with
        | .data bs => k t bs
        | .refused c v => bad t (causeOf c) v
        | .status _ | .done | .ack _ | .creditFault _ _ _ _ _ => k t (List.replicate n 0)
    else if !s.rangeSettled a n then .next s
    else
      let r := ((s.pin m.core m.ctx va).lostAt m a n).homeRead a n
      k r.2 r.1

/-- An engine write of a piece (R194, R238). -/
def State.attnWrite (s : State) (m : AttnCmd) (va : W64) (bs : List Byte) (k : State → Out) (bad : State → Cause → W64 → Out) : Out :=
  match s.engPage m.ctx (clusterOf m.core) va bs.length .write with
  | .error (c, v) => bad s c v
  | .ok a =>
    if remoteBase ≤ a then
      s.attnAsk va (.write bs) fun t r => match r with
        | .refused c v => bad t (causeOf c) v
        | .data _ | .status _ | .done | .ack _ | .creditFault _ _ _ _ _ => k t
    else if !s.rangeSettled a bs.length then .next s
    else k ((s.pin m.core m.ctx va).homeWrite a bs)

/-! ### The moves -/

/-- Stage 1: a token written, or the whole result computed. -/
def State.attnAct (s : State) (d k : Nat) (m : AttnCmd) : State :=
  let c := s.chip d
  match m.kind with
  | .query _ =>
    let r := c.attendAll m
    s.putCmd d k { m with output := r.1, count := r.2, stage := 2 }
  | .sel =>
    let l := c.select m
    s.putCmd d k { m with output := l.flatMap (leBytes 4), count := l.length, stage := 2 }
  | .append | .put =>
    let n := m.kind.count (quad m.desc 0)
    if m.tokens = n then s.putCmd d k { m with count := n, stage := 3 }
    else match m.tokenAt m.tokens with
      | none => s.putCmd d k { m with tokens := m.tokens + 1 }
      | some (slot, place) =>
        let z := m.model.tokenBytes
        match c.target m slot with
        | none => s.putCmd d k (m.fail .kvempty 0)
        | some (f, forked, c1) =>
          let c2 := c1.putToken m.model f place ((m.input.drop (m.tokens * z)).take z)
          (s.putChip d c2).putCmd d k { m with tokens := m.tokens + 1, forked := m.forked || forked }

/-- The header is performed: a put with W = 1 that met no fault advances the watermarks, and the command is over (R247, R336, R341). -/
def State.completeCmd (s : State) (d : Nat) (m : AttnCmd) : State :=
  (if m.kind = .put ∧ bitsOf (quad m.desc 0) 24 24 = 1 ∧ m.fault = none then s.putChip d ((s.chip d).advance m) else s).endCmd d m

/-- One move of a command that may move. -/
def State.attnMove (s : State) (d k : Nat) (m : AttnCmd) : Out :=
  let fail := fun (t : State) (c : Cause) (v : W64) => Host.Outcome.next (t.putCmd d k (m.fail c v))
  match m.stage with
  | 0 =>
    let n := m.needs - m.input.length
    if n = 0 then .next (s.putCmd d k { m with stage := 1 })
    else
      let va := quad m.desc 1 + BitVec.ofNat 64 m.input.length
      s.attnRead m va (pieceOf va n) (fun t bs => .next (t.putCmd d k { m with input := m.input ++ bs })) fail
  | 1 => .next (s.attnAct d k m)
  | 2 =>
    if m.output.isEmpty then .next (s.putCmd d k { m with stage := 3 })
    else
      let va := quad m.desc 2 + 16 + BitVec.ofNat 64 m.wrote
      let n := pieceOf va m.output.length
      s.attnWrite m va (m.output.take n)
        (fun t => .next (t.putCmd d k { m with output := m.output.drop n, wrote := m.wrote + n })) fail
  | _ =>
    s.attnWrite m (quad m.desc 2) (leBytes 16 m.header) (fun t => .next (t.completeCmd d m)) fun t c v =>
      .next (t.endCmd d (if m.fault.isSome then m else m.fail c v))

/-- Moves enough for a whole command: its input, its tokens, its output. -/
def AttnCmd.moves (m : AttnCmd) : Nat :=
  let n := m.kind.count (quad m.desc 0)
  m.needs + n * (m.model.kvh * m.model.gqa * (4 * m.model.hd + 8) + 5) + 8

/-- The command at a place in the list stands as it did: its move waits. -/
def State.stands (s : State) (d k : Nat) (m : AttnCmd) : Bool := (s.chip d).cmds[k]? == some m

/-- The command with a number runs on until it ends or must wait. -/
def State.attnRuns (d core num : Nat) : Nat → State → State
  | 0, s => s
  | n + 1, s =>
    let cs := (s.chip d).cmds
    let k := (cs.takeWhile fun m => !(m.core == core && m.num == num)).length
    match cs[k]? with
    | none => s
    | some m => match s.attnMove d k m with
      | .next t => if t.stands d k m then t else State.attnRuns d core num n t
      | .fault _ | .refused _ => s

/-- ATTN_COMMAND_RUN (R237, R238): command k of a chiplet runs. -/
def execAttnCommandRun (chip k : Nat) (s : State) : Out :=
  if 1 < chip then .next s
  else match (s.chip chip).cmds[k]? with
    | none => .next s
    | some m =>
      if !s.mayRun chip k m then .next s
      else
        let t := s.focus m.core
        let c := { t.core with aq := t.core.aq.map fun q => if q.num = m.num then { q with started := true } else q }
        let b := { m with begun := true }
        match ({ t.upd c with unit := .attn }.putCmd chip k b).attnMove chip k b with
        | .next u =>
          if !u.stands chip k b then .next (State.attnRuns chip m.core m.num m.moves u)
          else if u.core.remote = t.core.remote then .next s else .next u
        | .fault f => .fault f
        | .refused r => .refused r

/-! ### STRICT queries (R244, R344) -/

/-- Slot and place of every token a waiting query read at its check (R344). -/
def AttnCmd.watched (m : AttnCmd) : List (Nat × Nat) :=
  (m.spans.zip m.shown).flatMap fun x => (List.range x.2).map fun i => x.1.tokenAt m.model i m.layer

/-- A token at a slot and place lies in a live span that is still below its watermark. -/
def stillBelow (m : AttnCmd) (live : List KvSpan) (t : Nat × Nat) : Bool :=
  let inside := fun (x : KvSpan) =>
    let base := x.plist + m.layer
    let b := (t.1 - base) / m.model.layers
    decide (base ≤ t.1) && (t.1 - base) % m.model.layers == 0
      && decide (x.off ≤ b * m.model.tpp + t.2 ∧ b * m.model.tpp + t.2 < x.off + x.cnt)
  match live.find? inside with
  | some x => x.below m.layer
  | none => false

/-- A query that proceeds reads the tokens of its check through their live slots (R244, R344). -/
def Chip.resolveAgain (c : Chip) (m : AttnCmd) : AttnCmd :=
  let slots := m.watched.foldl (fun l t => insertNat t.1 l) []
  let live := fun (k : Nat) => let p := (c.slot k).1; if p = noPage then (assoc k m.frames).getD 0 else p
  { m with
    waiting := false
    frames := m.frames.map fun x => if slots.contains x.1 then (x.1, live x.1) else x
    holds := slots.foldl (fun l k => insertNat (live k) l) m.holds }

/-- AQUERY_WAIT_END (R244, R344): command k of a chiplet waits no longer. -/
def execAqueryWaitEnd (chip k : Nat) (s : State) : Out :=
  if 1 < chip then .next s
  else
    let c := s.chip chip
    match c.cmds[k]? with
    | none => .next s
    | some m =>
      if !m.waiting || m.watched.any (stillBelow m (c.liveSpans m.head)) then .next s
      else .next (s.putCmd chip k (c.resolveAgain m))

end Sys2Proof.Machine
end

