-- ==== Sys2Proof/Machine/Barker.lean ====
section
/-! DEFINITION. Barker.lean: the batch former: bins and their instructions (R133..R137), windows (R329), batches and their launches (R330,
R331, R400). -/

namespace Sys2Proof.Machine

/-- The bin of a die for a key and a context. -/
def Die.binOf (d : Die) (ctx : Nat) (wsid : W64) : Option (Nat × Bin) := d.bins.find? fun b => b.2.wsid == wsid && b.2.ctx == ctx

def Die.putBin (d : Die) (n : Nat) (b : Bin) : Die := { d with bins := assocPut n b d.bins }

/-- The bin whose window has passed before this cycle has closed at its end (R136, R329). -/
def Bin.expire (b : Bin) (past : Nat) : Bin :=
  if !b.members.isEmpty && b.closing.isNone && decide (b.t0 + b.win ≤ past) then { b with closing := some (1, b.t0 + b.win) } else b

/-! ### Configuration (R133, R135) -/

/-- A bin's configuration from its block's quadwords: empty, at slot 0, with SEQ 1. -/
def binOfBlock (ctx core : Nat) (q : List W64) : Bin :=
  { ctx := ctx, core := core, win := bitsOf (quad q 3) 39 16 + 1, nslot := bitsOf (quad q 3) 15 8 + 1
    bsize := bitsOf (quad q 3) 7 0 + 1, ring := quad q 2, tmpl := quad q 1, wsid := quad q 0
    members := [], t0 := 0, seq := 1, slot := 0, closing := none }

/-- The template of a bin has ARMED = 1, as far as it can be read. -/
def State.armedTemplate (s : State) (ctx core : Nat) (va : W64) : Bool :=
  match s.checkPage ctx (clusterOf core) va 128 .read with
  | .ok a => a < remoteBase && rcdArmed (quads (s.homeRead a 128).1)
  | .error _ => false

/-- A block that BCFG refuses with 3. -/
def State.badBlock (s : State) (ctx core : Nat) (q : List W64) : Bool :=
  bitsOf (quad q 3) 63 40 ≠ 0 || (quad q 2).toNat % 4096 ≠ 0 || (quad q 1).toNat % 128 ≠ 0 || s.armedTemplate ctx core (quad q 1)

/-- BCFG (R135). -/
def execBcfg (d a b : Reg) (s : State) : Out :=
  let w := s.core.getG a
  let va := s.core.getG b
  let k := dieOf s.core.id
  let n := bitsOf w 5 0
  let ctx := s.core.context
  let old := assoc n (s.die k).bins
  if bitsOf w 63 6 ≠ 0 then s.precise .badopnd w
  else if (match old with | some o => o.ctx != ctx | none => false) then s.write d 4
  else if (match old with | some o => !o.members.isEmpty || o.closing.isSome | none => false) then s.write d 1
  else if va = 0 then (s.putDie k { s.die k with bins := assocDrop n (s.die k).bins }).write d 0
  else s.withImplicit fun t =>
    t.addressed va 32 .read none false fun u pa =>
      u.readAs .seq pa 32 (fun x bs =>
        let q := quads bs
        if x.badBlock ctx x.core.id q then x.write d 3
        else if (x.die k).bins.any fun o => o.1 ≠ n && o.2.wsid == quad q 0 then x.write d 2
        else (x.putDie k ((x.die k).putBin n (binOfBlock ctx x.core.id q))).write d 0)
        fun x c _ => x.precise c va

/-! ### Members and windows (R136, R137, R329) -/

/-- A member arrives at an open bin at a cycle (R136). -/
def Bin.accept (b : Bin) (arg : W64) (now : Nat) : Bin :=
  let ms := b.members ++ [arg]
  { b with
    members := ms
    t0 := if b.members.isEmpty then now else b.t0
    closing := if ms.length = b.bsize then some (0, now) else none }

/-- BSUB (R136). -/
def execBsub (d a b : Reg) (s : State) : Out :=
  let k := dieOf s.core.id
  match (s.die k).binOf s.core.context (s.core.getG a) with
  | none => s.write d 2
  | some (n, o) =>
    let x := o.expire (s.cycle - 1)
    if x.closing.isSome then (s.putDie k ((s.die k).putBin n x)).write d 1
    else (s.putDie k ((s.die k).putBin n (x.accept (s.core.getG b) s.cycle))).write d 0

/-- BCLOSE (R137). -/
def execBclose (d a : Reg) (s : State) : Out :=
  let k := dieOf s.core.id
  match (s.die k).binOf s.core.context (s.core.getG a) with
  | none => s.write d (BitVec.allOnes 64)
  | some (n, o) =>
    let x := o.expire (s.cycle - 1)
    if x.closing.isSome || x.members.isEmpty then (s.putDie k ((s.die k).putBin n x)).write d 0
    else (s.putDie k ((s.die k).putBin n { x with closing := some (2, s.cycle) })).write d (BitVec.ofNat 64 x.members.length)

/-- BARKER_WINDOW_EXPIRY (R136, R329). -/
def execBarkerWindowExpiry (die bin : Nat) (s : State) : Out :=
  match assoc bin (s.die die).bins with
  | none => .next s
  | some o =>
    let x := o.expire s.cycle
    if die < 2 && x.closing ≠ o.closing then .next (s.putDie die ((s.die die).putBin bin x)) else .next s

/-! ### Batches (R134, R137, R330, R331, R400) -/

/-- The address of a bin's next slot. -/
def Bin.slotVa (b : Bin) : W64 := b.ring + BitVec.ofNat 64 (4096 * b.slot)

/-- The checks of an engine access of the Barker on this device (R400). -/
def State.barkerPage (s : State) (b : Bin) (va : W64) (n : Nat) (need : Need) : Except Fail Nat :=
  if s.isRemote va then .error (.remote, va) else s.checkPage b.ctx (clusterOf b.core) va n need

/-- The bytes of a batch: header and members (R134). -/
def Bin.batch (b : Bin) (why closed : Nat) : List Byte :=
  leBytes 8 (1 + why * 2 ^ 8 + b.members.length * 2 ^ 16) ++ leBytes 8 closed ++ leBytes 8 b.wsid.toNat ++ leBytes 8 b.seq
    ++ leBytes 32 0 ++ b.members.flatMap fun m => leBytes 8 m.toNat

/-- The bin after a close has been handed on. -/
def Bin.emptied (b : Bin) : Bin := { b with members := [], closing := none, seq := b.seq + 1, slot := (b.slot + 1) % max 1 b.nslot }

/-- A closing bin's slot is free, or its address fails: its batch can be handed on. -/
def State.binReady (s : State) (b : Bin) : Bool :=
  b.closing.isSome && (match s.barkerPage b b.slotVa 64 .read with
    | .error _ => true
    | .ok a => s.rangeSettled a (64 + 8 * b.members.length) && (s.homeRead a 1).1 == [0])

/-- The template's UTAG, 0 where the template cannot be read (R331, R400; DESIGN CHOICE, log 32). -/
def State.templateUtag (s : State) (b : Bin) : W64 :=
  match s.barkerPage b b.tmpl 128 .read with
  | .error _ => 0
  | .ok t => rcdUtag (quads (s.homeRead t 128).1)

/-- A failure of the Barker is journaled (R331, R400). DESIGN CHOICE (log 32): its report's CORE is the core that configured the bin and its
WADDR is 0. -/
def State.barkerJournal (s : State) (b : Bin) (e : Option Fail) : State :=
  let rep := e.map fun f => simpleReport f.1 f.2 0 0 6 b.core
  s.journal 1 b.ctx 0 ((s.templateUtag b).toNat + b.slotVa.toNat * 2 ^ 64) rep

/-- The template's lines can be read now (R284). -/
def State.templateSettled (s : State) (b : Bin) : Bool :=
  match s.barkerPage b b.tmpl 128 .read with
  | .error _ => true
  | .ok t => s.rangeSettled t 128

/-- The launch of a written batch: a copy of the template with ARGP at the slot, or STATE 2 (R137, R331, R400). -/
def State.barkerLaunch (s : State) (die bin : Nat) (b : Bin) (slot : Nat) : State :=
  match s.barkerPage b b.tmpl 128 .read with
  | .error e => (s.homeWrite slot [2]).barkerJournal b (some e)
  | .ok t =>
    let r := s.homeRead t 128
    let rcd := setAt 3 b.slotVa (quads r.1)
    if r.2.rcdStatus b.ctx rcd die ≠ 0 then (r.2.homeWrite slot [2]).barkerJournal b none
    else r.2.addLaunch (.barker die bin b.slotVa) b.ctx rcd

/-- x closed before y (R330). -/
def closedBefore (x y : Nat × Bin) : Bool :=
  match x.2.closing, y.2.closing with
  | some p, some q => decide (p.2 < q.2) || (p.2 == q.2 && decide (x.1 < y.1))
  | _, _ => false

/-- BARKER_LAUNCH (R137, R330, R400): in close order, a closing bin's batch is written and launched, or dropped. A bin whose window has passed
counts as closed at its end. -/
def execBarkerLaunch (die bin : Nat) (s : State) : Out :=
  match assoc bin (s.die die).bins with
  | none => .next s
  | some b =>
    let first := !(s.die die).bins.any fun o =>
      let x := o.2.expire s.cycle
      closedBefore (o.1, x) (bin, b) && s.binReady x
    if !(die < 2 && s.binReady b && s.templateSettled b && first) then .next s
    else
      let n := 64 + 8 * b.members.length
      let done := fun (t : State) => t.putDie die ((t.die die).putBin bin b.emptied)
      let why := match b.closing with | some c => c | none => (0, 0)
      match s.barkerPage b b.slotVa 64 .read, s.barkerPage b b.slotVa n .write with
      | .error e, _ | _, .error e => .next (done (s.barkerJournal b (some e)))
      | .ok _, .ok a => .next (done ((s.homeWrite a (b.batch why.1 why.2)).barkerLaunch die bin b a))

end Sys2Proof.Machine
end

