-- ==== Sys2Proof/Machine/Csr.lean ====
section
/-! DEFINITION. Csr.lean: the CSRs by number (R44, R45, R355) and the four CSR instructions (R82, R146, R316). -/

namespace Sys2Proof.Machine

/-- The access of a CSR (R44): read-only, writable only in a handler, its RW bits, its W1C bits. -/
structure CsrRow where
  ro : Bool
  sup : Bool
  rw : W64
  w1c : W64
  deriving DecidableEq, Repr

def csrRO : CsrRow := { ro := true, sup := false, rw := 0, w1c := 0 }
def csrRW (rw : W64) : CsrRow := { ro := false, sup := false, rw := rw, w1c := 0 }
def csrSup (rw : W64) : CsrRow := { ro := false, sup := true, rw := rw, w1c := 0 }

/-- The rows of R44 and R355. -/
def csrRow (n : Nat) : Option CsrRow :=
  match n with
  | 0x000 | 0x001 | 0x002 | 0x003 | 0x004 | 0x005 | 0x006 | 0x011 | 0x012 | 0x021 => some csrRO
  | 0x010 => some { ro := false, sup := false, rw := 0x1E0, w1c := 0x1F }
  | 0x020 => some (csrRW (BitVec.allOnes 64))
  | 0x022 => some (csrRW 0)
  | 0x023 | 0x024 | 0x030 | 0x031 | 0x100 | 0x101 => some (csrSup (BitVec.allOnes 64))
  | 0x032 => some (csrRW 0xFF)
  | 0x040 | 0x041 | 0x042 | 0x050 => some (csrRW 0xFFFFFFFF)
  | 0x110 | 0x112 | 0x118 | 0x11A => some (csrSup (BitVec.allOnes 64))
  | 0x111 | 0x119 => some (csrSup 0xFF)
  | 0x113 | 0x11B => some (csrSup 0xFFFFFFFF)
  | 0x114 | 0x11C => some (csrSup 0xF03F)
  | _ => none

/-- The value of a numbered CSR (R44). -/
def State.csrGet (s : State) (n : Nat) : W64 :=
  let c := s.core
  match n with
  | 0x000 => c.status
  | 0x001 => BitVec.ofNat 64 (c.id % 1024)
  | 0x002 => BitVec.ofNat 64 (s.devid % 2 ^ 20)
  | 0x003 => c.taskid.zeroExtend 64
  | 0x004 => c.treeid.zeroExtend 64
  | 0x005 => BitVec.ofNat 64 s.cycle
  | 0x006 => BitVec.ofNat 64 (c.context % 4096)
  | 0x010 => c.fctl
  | 0x011 => (c.vrun.map fun v => v.vsh0).getD c.vsh
  | 0x012 => c.rngcfg
  | 0x020 => c.vquota
  | 0x021 => c.lasttag
  | 0x022 => c.hintdrop
  | 0x023 => c.lease1
  | 0x024 => c.lease2
  | 0x030 => c.carbase
  | 0x031 => c.xrbase
  | 0x032 => c.acclive
  | 0x040 => c.fpu
  | 0x041 => c.cpuct
  | 0x042 => c.vlv
  | 0x050 => c.repthr
  | 0x100 => c.tvec
  | 0x101 => c.crashbase
  | 0x110 => c.bank0.epc
  | 0x111 => c.bank0.ecause
  | 0x112 => c.bank0.eval
  | 0x113 => c.bank0.etask
  | 0x114 => c.bank0.estat
  | 0x118 => c.bank1.epc
  | 0x119 => c.bank1.ecause
  | 0x11A => c.bank1.eval
  | 0x11B => c.bank1.etask
  | 0x11C => c.bank1.estat
  | _ => 0

/-- Store a writable CSR. -/
def Core.csrPut (c : Core) (n : Nat) (x : W64) : Core :=
  match n with
  | 0x010 => { c with fctl := x }
  | 0x020 => { c with vquota := x }
  | 0x023 => { c with lease1 := x }
  | 0x024 => { c with lease2 := x }
  | 0x030 => { c with carbase := x }
  | 0x031 => { c with xrbase := x }
  | 0x032 => { c with acclive := x }
  | 0x040 => { c with fpu := x }
  | 0x041 => { c with cpuct := x }
  | 0x042 => { c with vlv := x }
  | 0x050 => { c with repthr := x }
  | 0x100 => { c with tvec := x }
  | 0x101 => { c with crashbase := x }
  | 0x110 => { c with bank0 := { c.bank0 with epc := x } }
  | 0x111 => { c with bank0 := { c.bank0 with ecause := x } }
  | 0x112 => { c with bank0 := { c.bank0 with eval := x } }
  | 0x113 => { c with bank0 := { c.bank0 with etask := x } }
  | 0x114 => { c with bank0 := { c.bank0 with estat := x } }
  | 0x118 => { c with bank1 := { c.bank1 with epc := x } }
  | 0x119 => { c with bank1 := { c.bank1 with ecause := x } }
  | 0x11A => { c with bank1 := { c.bank1 with eval := x } }
  | 0x11B => { c with bank1 := { c.bank1 with etask := x } }
  | 0x11C => { c with bank1 := { c.bank1 with estat := x } }
  | _ => c

/-- A value read clears the RC field (R6, R44). -/
def Core.csrRead (c : Core) (n : Nat) : Core := if n = 0x022 then { c with hintdrop := 0 } else c

/-- The illegal codes of R82. -/
def csrIllegal (n : Nat) (x : W64) : Bool :=
  match n with
  | 0x010 => decide (4 < bitsOf x 7 5)
  | 0x020 => x.toNat % 4096 != 0 || decide (x.toNat < 4096) || decide (2 ^ 20 < x.toNat)
  | 0x023 | 0x024 => x.toNat == 0 || decide (2 ^ 30 < x.toNat)
  | 0x100 => x.toNat % 64 != 0
  | _ => false

/-- The table a write of CARBASE asks for (R316): none where the write is an illegal code; some [] unloads. -/
def State.carWanted (s : State) (x : W64) : Option (List CarEntry) :=
  let k := s.car (dieOf s.core.id)
  if (match k.holder with | some h => h != s.core.context | none => false) then none
  else if x = 0 then some []
  else s.carTable s.core.context s.core.id x

/-- A CSR write that has passed its checks: CARBASE loads or unloads the die's table once no program of the context runs a circuit on it
(R316); a change of TRITEN waits for the vector blocks (R146). -/
def State.csrWrite (s : State) (i : Instr) (op n : Nat) (d : Reg) (old x : W64) : Out :=
  let done := fun (t : State) => (t.upd ((t.core.csrRead n).csrPut n x)).write d old
  if n = 0x030 && op != 3 then
    let k := dieOf s.core.id
    match s.carFirst s.core.context s.core.id x, s.carWanted x with
    | some t, _ => .next t
    | none, none => s.preciseWord .illegal i
    | none, some es =>
      if x ≠ 0 && s.carBusy s.core.context k then .next s
      else done (s.putCar k { s.car k with base := x, table := es })
  else if n = 0x010 && bitsOf old 8 8 ≠ bitsOf x 8 8 && !s.core.vq.isEmpty then .next s
  else done s

/-- A CSR instruction (R82): op 0 reads, 1 CSRW, 2 CSRS, 3 CSRC. -/
def State.csr (s : State) (i : Instr) (op : Nat) (d a : Reg) (n : Nat) : Out :=
  match csrRow n with
  | none => s.preciseWord .illegal i
  | some r =>
    let writes := op == 1 || (op != 0 && a != 0)
    let old := s.csrGet n
    if !writes then (s.upd (s.core.csrRead n)).write d old
    else if r.ro || (r.sup && s.core.lvl == 0) then s.preciseWord .illegal i
    else
      let x := csrNew op old (s.core.getG a) r.rw r.w1c
      if csrIllegal n x then s.preciseWord .illegal i else s.csrWrite i op n d old x

/-- CSRR (R82). -/
def execCsrr (d : Reg) (c : BitVec 12) (s : State) : Out := s.csr (.csrr d c) 0 d 0 c.toNat

/-- CSRW (R82). -/
def execCsrw (d a : Reg) (c : BitVec 12) (s : State) : Out := s.csr (.csrw d a c) 1 d a c.toNat

/-- CSRS (R82). -/
def execCsrs (d a : Reg) (c : BitVec 12) (s : State) : Out := s.csr (.csrs d a c) 2 d a c.toNat

/-- CSRC (R82). -/
def execCsrc (d a : Reg) (c : BitVec 12) (s : State) : Out := s.csr (.csrc d a c) 3 d a c.toNat

end Sys2Proof.Machine
end

