-- ==== Sys2Proof/Machine/Ringmaster.lean ====
section
/-! DEFINITION. Ringmaster.lean: trees and tasks (R112..R125), selection (R321..R323), cancels (R324..R327). -/

namespace Sys2Proof.Machine

/-! ### Handles and ids (R112, R113) -/

/-- A tree handle with a nonzero res bit. -/
def treeBad (h : W64) : Bool := bitsOf h 63 28 ≠ 0 || bitsOf h 15 13 ≠ 0

/-- A task id held in a register with a nonzero bit above it. -/
def taskBad (x : W64) : Bool := bitsOf x 63 32 ≠ 0

def treeDie (h : W64) : Nat := bitsOf h 12 12
def treeNum (h : W64) : Nat := bitsOf h 11 0

/-- The handle of a tree. -/
def treeHandle (die num gen : Nat) : W64 := BitVec.ofNat 64 (gen * 2 ^ 16 + die * 2 ^ 12 + num)

/-- The live tree of the context that a handle names. -/
def State.treeOf (s : State) (ctx : Nat) (h : W64) : Option Tree :=
  ((s.die (treeDie h)).tree? (treeNum h)).filter fun t => t.gen == bitsOf h 27 16 && t.ctx == ctx

/-- The id of the current Ringmaster task, with its block. -/
def State.current (s : State) : Option (W32 × Tcb) :=
  match s.core.ring with
  | none => none
  | some (die, idx) => (assoc idx (s.die die).tcbs).map fun b => (taskId die b.gen idx, b)

/-- The lowest number below a limit at which a list holds nothing live. -/
def lowestFree {α : Type} (live : α → Bool) (l : List (Nat × α)) (limit : Nat) : Option Nat :=
  ((List.range (l.length + 1)).find? fun k => match assoc k l with | some x => !live x | none => true).filter fun k => k < limit

/-! ### Trees (R116) -/

/-- The image of the current strand's launch. -/
def State.launchImage (s : State) : Nat := match s.core.launch.bind s.launch? with | some l => (quad l.rcd 1).toNat | none => 0

/-- The live trees of a context on a die. -/
def Die.treeCount (d : Die) (ctx : Nat) : Nat := (d.trees.filter fun t => t.2.live && t.2.ctx == ctx).length

/-- A new tree on a die (R116, R322). -/
def Die.newTree (d : Die) (n ctx launch image quantum : Nat) : Die :=
  let gen := match assoc n d.trees with | some t => t.gen % 4095 + 1 | none => 1
  let t : Tree := { gen := gen, live := true, ctx := ctx, launch := launch, image := image, quantum := quantum, closed := false
                    killed := false, defi := 0 }
  let first := d.liveTrees.isEmpty
  let d1 := d.putTree n t
  if first then d1.arrive n else d1

/-- TREE.new (R116). -/
def execTreeNew (d a : Reg) (s : State) : Out :=
  let v := s.core.getG a
  if v.toNat = 0 || 65535 < v.toNat then s.precise .badopnd v
  else
    let k := dieOf s.core.id
    let ctx := s.core.context
    let full := match s.ctx? ctx with | some c => decide (c.limTrees ≤ (s.die k).treeCount ctx) | none => true
    match full, lowestFree (·.live) (s.die k).trees 4096 with
    | false, some n =>
      let x := (s.die k).newTree n ctx (s.core.launch.getD 0) s.launchImage v.toNat
      let gen := match assoc n x.trees with | some t => t.gen | none => 0
      (s.putDie k x).write d (treeHandle k n gen)
    | _, _ => s.write d 0

/-- TREE.close (R116). -/
def execTreeClose (d a : Reg) (s : State) : Out :=
  let h := s.core.getG a
  if treeBad h then s.precise .badopnd h
  else match s.treeOf s.core.context h with
    | none => s.write d (BitVec.allOnes 64)
    | some t =>
      let k := treeDie h
      (s.putDie k ((s.die k).putTree (treeNum h) { t with closed := true })).write d 0

/-! ### Cancels (R123, R324, R327) -/

/-- The block with this id lies in the subtree of one of the roots, by its PARENT chain through live blocks (R324). Fuel is the number of
blocks. -/
def State.under (s : State) (roots : List W32) : Nat → W32 → Bool
  | 0, _ => false
  | n + 1, id => roots.contains id || (match s.tcb? id with | some b => s.under roots n b.parent | none => false)

/-- The ids of the blocks of a die that lie in the subtree of the roots, ascending. -/
def State.subtree (s : State) (die : Nat) (roots : List W32) : List W32 :=
  ((s.die die).tcbs.filter fun b => b.2.state != .free && s.under roots s.blockFuel (taskId die b.2.gen b.1)).map
    fun b => taskId die b.2.gen b.1

/-- Change the strand that runs the task of a block, on its core or pre-empted. -/
def State.onStrand (s : State) (id : W32) (b : Tcb) (f : Core → Core) : State :=
  let r := some (taskDie id, taskIdx id)
  let x := s.coreAt b.core
  if x.ring = r then s.putCore (f x)
  else { s with saved := s.saved.map fun v => if v.core.ring = r then { v with core := f v.core } else v }

/-- A cancel acts on a block in one of these states (R123). -/
def Tcb.cancellable (b : Tcb) : Bool := b.state == .ready || b.state == .joined || b.state == .bound || b.state == .running

/-- The tasks of a subtree that carry an owner tag. -/
def State.carriers (s : State) (roots : List W32) (owner : BitVec 24) : List W32 :=
  (s.subtree 0 roots ++ s.subtree 1 roots).filter fun k => match s.tcb? k with | some x => x.owner == owner | none => false

/-- The owner tag of a cancelled block is reclaimed once the tasks of the subtree that carry it have ended (R123, R328). -/
def State.oweReclaim (s : State) (named roots : List W32) (id : W32) (b : Tcb) : State :=
  if !b.own then s
  else
    let d := s.die (taskDie id)
    let ctx := match d.tree? b.tree with | some t => t.ctx | none => 0
    let r : Reclaim := { ctx := ctx, owner := b.owner, tasks := s.carriers roots b.owner, roots := named }
    s.putDie (taskDie id) { d with reclaims := d.reclaims ++ [r] }

/-- The second step of a cancel finds the carriers that joined the subtree since the first (R327, R328). -/
def State.joinReclaims (s : State) (named roots : List W32) : State :=
  let more := fun (r : Reclaim) => if r.roots = named then { r with tasks := r.tasks ++ s.carriers roots r.owner } else r
  { s with die0 := { s.die0 with reclaims := s.die0.reclaims.map more }, die1 := { s.die1 with reclaims := s.die1.reclaims.map more } }

/-- The report of an abort by CANCEL.hard (R123, R354). -/
def cancelReport (id : W32) (core : Nat) : FaultReport := simpleReport .cancel 0 0 id 7 core

/-- A cancel acts on one block (R123): a block not running is revoked, a running task is told to stop or aborts. DESIGN CHOICE (log 67): a
PICK whose binding is revoked keeps the cycle at which it went to sleep, by which R322 orders the sleeping strands. -/
def State.cancelBlock (s : State) (hard : Bool) (id : W32) : State :=
  match s.tcb? id with
  | none => s
  | some b =>
    match b.state with
    | .ready | .joined | .bound => s.endTask id 0
    | .running =>
      if hard then
        let r := cancelReport id b.core
        let s1 := s.putTcb id { b with state := .aborting }
        let ctx := match (s1.die (taskDie id)).tree? b.tree with | some t => t.ctx | none => 0
        (s1.journal 1 ctx 0 0 (some r)).onStrand id b fun c => { c.setCanf true with held := c.held ++ [r] }
      else s.onStrand id b fun c => c.setCanf true
    | .free | .drain | .aborting => s

/-- CANF enters a block. -/
def State.markCanf (s : State) (id : W32) : State :=
  match s.tcb? id with
  | some b => s.putTcb id { b with canf := true }
  | none => s

/-- A cancel on the blocks of one die under some roots, as one step (R123, R327): the ids it acted on, and the state. -/
def State.cancelOn (s : State) (die : Nat) (named roots : List W32) (hard : Bool) : List W32 × State :=
  let all := s.subtree die roots
  let acted := all.filter fun id => match s.tcb? id with | some b => b.cancellable | none => false
  let s1 := acted.foldl (fun t id => match t.tcb? id with | some b => t.oweReclaim named roots id b | none => t) s
  let s2 := acted.foldl State.markCanf s1
  (acted, acted.foldl (fun t id => t.cancelBlock hard id) s2)

/-- A cancel with its first step applied (R327): when the other die holds a part of the subtree the cancel is forwarded there, and the
instruction waits. -/
def State.cancelFrom (s : State) (die : Nat) (roots : List W32) (hard counted : Bool) (d : Reg) (after : State → State) : Out :=
  let far := s.subtree (1 - die) roots
  let covered := s.subtree die roots
  let r := s.cancelOn die roots roots hard
  let t := after r.2
  if far.isEmpty then t.write d (if counted then BitVec.ofNat 64 r.1.length else 0)
  else
    .next { t.part 1 with cancels := t.cancels ++
      [{ die := 1 - die, roots := covered, hard := hard, core := t.core.id, pc := t.core.pc, task := t.core.taskid, gd := d
         count := if counted then some r.1.length else none, named := roots }] }

/-- CANCEL on the task named by a register (R123). -/
def State.cancelTask (s : State) (d a : Reg) (hard : Bool) : Out :=
  if s.core.micro = 1 then .next s
  else
    let x := s.core.getG a
    let id := BitVec.ofNat 32 x.toNat
    if taskBad x then s.precise .badopnd x
    else match s.taskOf s.core.context id with
      | none => s.write d (BitVec.allOnes 64)
      | some _ => s.cancelFrom (taskDie id) [id] hard true d fun t => t

/-- CANCEL.soft (R123). -/
def execCancelSoft (d a : Reg) (s : State) : Out := s.cancelTask d a false

/-- CANCEL.hard (R123). -/
def execCancelHard (d a : Reg) (s : State) : Out := s.cancelTask d a true

/-- CANCEL_FORWARD (R327): the second step of a cancel, on the other die; the waiting instruction retires with the whole count. -/
def execCancelForward (k : Nat) (s : State) : Out :=
  match s.cancels[k]? with
  | none => .next s
  | some f =>
    let r := ({ s with cancels := s.cancels.eraseIdx k }.joinReclaims f.named f.roots).cancelOn f.die f.named f.roots f.hard
    let c := r.2.coreAt f.core
    if c.micro = 1 && c.pc = f.pc && c.taskid = f.task && c.seq = .run then
      .next (r.2.putCore (c.setG f.gd (match f.count with | some n => BitVec.ofNat 64 (n + r.1.length) | none => 0)).next)
    else .next r.2

/-- TREE.kill (R116): every task of the tree takes CANCEL.hard; the tree accepts no SPAWN, and goes with its last block. -/
def execTreeKill (d a : Reg) (s : State) : Out :=
  if s.core.micro = 1 then .next s
  else
    let h := s.core.getG a
    if treeBad h then s.precise .badopnd h
    else match s.treeOf s.core.context h with
      | none => s.write d (BitVec.allOnes 64)
      | some t =>
        let k := treeDie h
        let n := treeNum h
        let s1 := s.putDie k ((s.die k).putTree n { t with closed := true, killed := true })
        let roots := ((s1.die k).treeBlocks n).map fun b => taskId k b.2.gen b.1
        s1.cancelFrom k roots true false d fun u =>
          if ((u.die k).treeBlocks n).isEmpty then u.putDie k ((u.die k).freeTree n) else u

/-! ### SPAWN and REPRIO (R117, R122) -/

/-- A READY task in a block of a tree (R117). -/
def State.spawnIn (s : State) (die num : Nat) (idx : Nat) (desc arg : W64) : W32 × State :=
  let x := s.die die
  let gen := match assoc idx x.tcbs with | some b => b.gen % 2047 + 1 | none => 1
  let cur := s.current
  let j := bitsOf desc 0 0 == 1
  let t := bitsOf desc 1 1 == 1
  let id := taskId die gen idx
  let b : Tcb :=
    { key := BitVec.ofNat 32 (bitsOf desc 63 32)
      parent := match cur with | some c => c.1 | none => 0
      succ := match cur with | some c => if j then c.1 else 0 | none => 0
      arg := arg, entry := BitVec.ofNat 26 (bitsOf desc 31 6)
      owner := if t then BitVec.ofNat 24 (die * 2 ^ 23 + ((gen - 1) % 7 + 1) * 2 ^ 20 + idx)
        else match cur with | some c => c.2.owner | none => 0
      pend := 0, tree := num, gen := gen, own := t, canf := false, state := .ready, order := 0, core := 0 }
  let s1 := s.readyBlock id b
  match j, cur with
  | true, some c => (id, match s1.tcb? c.1 with | some k => s1.putTcb c.1 { k with pend := k.pend + 1 } | none => s1)
  | _, _ => (id, s1)

/-- SPAWN (R117, R324). -/
def execSpawn (d a b : Reg) (s : State) : Out :=
  let desc := s.core.getG a
  let given := s.core.getG d
  let h := if given ≠ 0 then given else s.core.treeid.zeroExtend 64
  let j := bitsOf desc 0 0 == 1
  if bitsOf desc 5 2 ≠ 0 then s.precise .badopnd desc
  else if treeBad given then s.precise .badopnd given
  else if h = 0 || (j && s.core.ring.isNone) then s.preciseWord .taskctx (.spawn d a b)
  else
    let k := treeDie h
    let stopped := match s.current with
      | some c => c.2.canf || c.2.state == .aborting || (j && c.2.pend == 65535)
      | none => false
    match s.treeOf s.core.context h, lowestFree (fun (x : Tcb) => x.state != .free) (s.die k).tcbs (2 ^ 20) with
    | some t, some idx =>
      if t.closed || stopped then s.write d 0
      else
        let r := s.spawnIn k (treeNum h) idx desc (s.core.getG b)
        r.2.write d (r.1.zeroExtend 64)
    | _, _ => s.write d 0

/-- A block takes a key; a READY one whose key changes moves to the tail of its ties (R114, R122). -/
def State.rekey (s : State) (id : W32) (f : W32 → W32) : State :=
  match s.tcb? id with
  | none => s
  | some b =>
    let k := f b.key
    if b.state == .ready && k ≠ b.key then s.readyBlock id { b with key := k } else s.putTcb id { b with key := k }

/-- The keys of some blocks change as one step; how many (R122, R324). DESIGN CHOICE (log 66): blocks that become ready under one key stand in
the order of the list, die 0 first and by rising block number. -/
def State.reprio (s : State) (ids : List W32) (f : W32 → W32) : Nat × State :=
  let on := ids.filter fun id => match s.tcb? id with | some b => !b.canf | none => false
  (on.length, on.foldl (fun t id => t.rekey id f) s)

/-- REPRIO (R122). -/
def execReprio (d a b : Reg) (s : State) : Out :=
  let x := s.core.getG a
  let id := BitVec.ofNat 32 x.toNat
  if taskBad x then s.precise .badopnd x
  else match s.taskOf s.core.context id with
    | none => s.write d (BitVec.allOnes 64)
    | some _ =>
      let r := s.reprio [id] fun _ => BitVec.ofNat 32 (s.core.getG b).toNat
      r.2.write d (BitVec.ofNat 64 r.1)

/-- A key moved by a signed amount, saturated (R122). -/
def keyAdd (k : W32) (v : Nat) : W32 := BitVec.ofNat 32 (max 0 (min ((k.toNat : Int) + sval 32 v) (2 ^ 32 - 1))).toNat

/-- REPRIO.sub (R122). -/
def execReprioSub (d a b : Reg) (s : State) : Out :=
  let x := s.core.getG a
  let id := BitVec.ofNat 32 x.toNat
  if taskBad x then s.precise .badopnd x
  else match s.taskOf s.core.context id with
    | none => s.write d (BitVec.allOnes 64)
    | some _ =>
      let r := s.reprio (s.subtree 0 [id] ++ s.subtree 1 [id]) fun k => keyAdd k (s.core.getG b).toNat
      r.2.write d (BitVec.ofNat 64 r.1)

/-! ### PICK (R118, R322) -/

/-- The value that names every tree of the context on the issuing die (R118). -/
def allTrees (h : W64) : Bool := h == BitVec.allOnes 64 || h == 0xFFFFFFFF

/-- A tree that can give its sleepers nothing more (R118). -/
def State.treeOver (s : State) (die num : Nat) (t : Tree) : Bool :=
  t.closed && !((s.die die).treeBlocks num).any fun b => b.2.cancellable

/-- Every tree a PICK of a core names is closed and holds no task it could start (R118). -/
def State.pickOver (s : State) (c : Core) (h : W64) : Bool :=
  if allTrees h then
    (s.die (dieOf c.id)).trees.all fun t => !t.2.live || t.2.ctx != c.context || s.treeOver (dieOf c.id) t.1 t.2
  else match s.treeOf c.context h with
    | none => true
    | some t => s.treeOver (treeDie h) (treeNum h) t

/-- A strand whose PICK returns because the named trees are over (R118). -/
def Core.pickDone (c : Core) (d : Reg) (ret : W64) : Core :=
  { c.setG d 3 with pickRet := none, pc := ret, seq := .run, reach := .jump c.pc, micro := 0 }

/-- PICK (R118, R361): once the body's commands have completed, the boundary, then the strand sleeps; it returns 3 as soon as the named
trees are over. -/
def execPick (d a : Reg) (s : State) : Out :=
  let h := s.core.getG a
  let ret := blk s.core.pc + 64
  match s.core.seq with
  | .pick k _ => .next (if s.pickOver s.core k then s.upd (s.core.pickDone d ret) else s)
  | _ =>
    if s.core.ring.isSome || s.core.lvl ≠ 0 then s.preciseWord .taskctx (.pick d a)
    else if !allTrees h && (treeBad h || (s.core.commit.isNone && (s.treeOf s.core.context h).isNone)) then s.precise .badopnd h
    else if !s.core.drained then .next s
    else s.withImplicit fun t => t.atBoundary none fun u =>
      if u.pickOver u.core h then .next (u.upd (u.core.pickDone d ret))
      else .next (u.upd { u.core with pickRet := some (ret, d), seq := .pick h u.clock, micro := 0 })

/-- A core asleep in PICK and not bound is eligible for a tree (R322). -/
def State.eligible (s : State) (die num : Nat) (t : Tree) (c : Core) : Option Nat :=
  match c.seq with
  | .pick h since =>
    let bound := (s.die0.tcbs ++ s.die1.tcbs).any fun b => b.2.state == .bound && b.2.core == c.id
    let named := if allTrees h then dieOf c.id == die && t.ctx == c.context
      else treeDie h == die && treeNum h == num && bitsOf h 27 16 == t.gen && t.ctx == c.context
    if named && !bound then some since else none
  | _ => none

/-- The oldest eligible sleeper of a tree: the cycle it went to sleep, then its core (R322). -/
def State.sleeper (s : State) (die num : Nat) (t : Tree) : Option (Nat × Nat) :=
  (s.core :: s.others).foldl (fun best c => match s.eligible die num t c with
    | none => best
    | some k => match best with
      | none => some (k, c.id)
      | some b => if k < b.1 || (k == b.1 && decide (c.id < b.2)) then some (k, c.id) else best) none

/-- The head of a tree (R322): the READY block with the largest key, the earliest insertion among equals. -/
def Die.head (d : Die) (num : Nat) : Option (Nat × Tcb) :=
  ((d.treeBlocks num).filter fun b => b.2.state == .ready).foldl (fun best b => match best with
    | none => some b
    | some x => if x.2.key.ult b.2.key || (x.2.key == b.2.key && decide (b.2.order < x.2.order)) then some b else best) none

/-- The selection step from the tree at the pointer (R322). Fuel is the number of trees and one. -/
def State.select (s : State) (die : Nat) : Nat → State
  | 0 => s
  | n + 1 =>
    let d := s.die die
    match d.ptr with
    | none => s
    | some p =>
      match d.tree? p with
      | none => s
      | some t =>
        match d.head p, s.sleeper die p t with
        | some (idx, b), some (_, core) =>
          if 1 ≤ t.defi then
            s.putDie die { d.putTree p { t with defi := t.defi - 1 } with
              tcbs := assocPut idx { b with state := .bound, core := core } d.tcbs }
          else (s.putDie die (d.advance p)).select die n
        | none, _ => (s.putDie die ((d.putTree p { t with defi := 0 }).advance p)).select die n
        | some _, none => (s.putDie die (d.advance p)).select die n

/-- RINGMASTER_SELECT (R322). -/
def execRingmasterSelect (die : Nat) (s : State) : Out :=
  let d := s.die die
  let can := d.liveTrees.any fun n => (d.head n).isSome && (match d.tree? n with | some t => (s.sleeper die n t).isSome | none => false)
  if die < 2 && can then .next (s.select die (d.liveTrees.length + 1)) else .next s

/-- The block bound to a sleeping core. -/
def State.boundTo (s : State) (c : Nat) : Option (Nat × Nat × Tcb) :=
  let look := fun (die : Nat) => ((s.die die).tcbs.find? fun b => b.2.state == .bound && b.2.core == c).map fun b => (die, b.1, b.2)
  match look 0 with
  | some x => some x
  | none => look 1

/-- The address of the sequencer section of an image of a context (R118, R391). -/
def State.imageBase (s : State) (ctx handle : Nat) : W64 :=
  match (s.ctx? ctx).bind fun c => c.images.find? fun i => i.handle.toNat = handle with
  | some i => i.sqAddr
  | none => 0

/-- TASK_START (R118): the bound task starts on the strand asleep in PICK. -/
def execTaskStart (c : Nat) (s : State) : Out :=
  let t := s.focus c
  match t.core.seq, t.boundTo c with
  | .pick _ _, some (die, idx, b) =>
    let id := taskId die b.gen idx
    let tr := (t.die die).tree? b.tree
    let image := match tr with | some x => x.image | none => 0
    let gen := match tr with | some x => x.gen | none => 0
    let u := t.newPhase.putTcb id { b with state := .running, arg := 0 }
    let k := ((u.core.setG 3 b.arg).setG 4 (id.zeroExtend 64)).setCanf b.canf
    .next (u.upd { k with
      taskid := id, treeid := BitVec.ofNat 32 (treeHandle die b.tree gen).toNat, ring := some (die, idx), loops := []
      pc := t.imageBase t.core.context image + BitVec.ofNat 64 (b.entry.toNat * 64), seq := .run
      reach := .jump t.core.pc, micro := 0 })
  | _, _ => .next s

/-! ### Ends and state (R120, R121, R125) -/

/-- DONE (R120). -/
def execDone (a : Reg) (s : State) : Out :=
  if s.core.ring.isNone || s.core.lvl ≠ 0 then s.preciseWord .taskctx (.done a)
  else .next (s.upd { s.core with seq := .ending (.done (s.core.getG a)) })

/-- JOIN (R121). -/
def execJoin (a b : Reg) (s : State) : Out :=
  let desc := s.core.getG a
  if s.core.ring.isNone || s.core.lvl ≠ 0 then s.preciseWord .taskctx (.join a b)
  else if bitsOf desc 5 0 ≠ 0 then s.precise .badopnd desc
  else .next (s.upd { s.core with seq := .ending (.join desc (s.core.getG b)) })

def TcbState.code : TcbState → Nat
  | .free => 0 | .ready => 1 | .bound => 2 | .running => 3 | .joined => 4 | .drain => 5 | .aborting => 6

/-- What TSTAT says of a block (R125). -/
def Tcb.status (b : Tcb) : W64 :=
  BitVec.ofNat 64 (b.key.toNat * 2 ^ 32 + b.pend % 2 ^ 16 * 2 ^ 16 + b.tree % 2 ^ 12 * 2 ^ 4 + b.own.toNat * 8 + b.state.code)

/-- What TSTAT says of a tree (R125). -/
def Die.treeStatus (d : Die) (num : Nat) (t : Tree) : W64 :=
  let bs := d.treeBlocks num
  BitVec.ofNat 64 ((if t.killed then 2 else if t.closed then 1 else 0) * 2 ^ 42 + bs.length % 2 ^ 21 * 2 ^ 21
    + (bs.filter fun b => b.2.state == .ready).length % 2 ^ 21)

/-- TSTAT (R125). -/
def execTstat (d a : Reg) (k : Bool) (s : State) : Out :=
  let x := s.core.getG a
  if k then
    if treeBad x then s.precise .badopnd x
    else match s.treeOf s.core.context x with
      | none => s.write d (BitVec.allOnes 64)
      | some t => s.write d ((s.die (treeDie x)).treeStatus (treeNum x) t)
  else if taskBad x then s.precise .badopnd x
  else match s.taskOf s.core.context (BitVec.ofNat 32 x.toNat) with
    | none => s.write d 0
    | some b => s.write d b.status

end Sys2Proof.Machine
end

