-- ==== Sys2Proof/Machine/Preempt.lean ====
section
/-! DEFINITION. Preempt.lean: where an abort lands (R361), pre-emption of strands and engines, saved contexts and their resumption (R219, R264,
R279, R323, R364..R367, R382), the start of gangs (R258). -/

namespace Sys2Proof.Machine

/-! ### Aborts (R361) -/

/-- TASK_ABORT (R361): an error held at level 0 aborts the task; a boundary under way goes through first, and running programs reach a
point where they may be cut. After a crash the strand's registers are reset (R360). -/
def execTaskAbort (c : Nat) (s : State) : Out :=
  let t := s.focus c
  let busy := match t.core.commit with | some r => !r.implied | none => false
  if !t.core.abortDue || busy || !t.cuttable t.core || t.core.seq = .preempted || t.core.seq = .stopped then .next s
  else
    let u := if t.core.held.any fun r => r.code == Cause.crash.code then t.upd t.core.wiped else t
    .next (u.abortTask c u.core.held.head?)

/-! ### Pre-emption of a strand (R264, R364) -/

/-- The strand stands at a point of R264. -/
def State.atPoint (s : State) (c : Core) : Bool :=
  let quiet := c.commit.isNone && c.fence.isNone && (match c.remote with | some r => r.who != .seq | none => true)
  quiet && (match c.seq with
    | .run =>
      c.micro == 0 && (c.loops.isEmpty || (c.reach == .loop && c.pc.toNat % 64 == 0)
        || (match s.wordAt c.context (clusterOf c.id) c.code c.pc with | some (w, _) => w == 1 | none => false))
    | .pick _ _ | .waita _ _ _ _ | .barwait _ _ _ | .waitq _ _ => true
    | .ending _ => c.loops.isEmpty
    | .idle | .pause _ | .endCheck | .stopped | .preempted => false)

/-- The binding of a sleeping PICK is revoked: the task is READY again at its place, and its tree gains 1 back; a cancelled one ends
(R323, R324). -/
def State.revokeBinding (s : State) (c : Nat) : State :=
  match s.boundTo c with
  | none => s
  | some (die, idx, b) =>
    if b.canf then s.endTask (taskId die b.gen idx) 0
    else
      let d := s.die die
      let d1 := { d with tcbs := assocPut idx { b with state := .ready } d.tcbs }
      s.putDie die (match d1.tree? b.tree with
        | some t => d1.putTree b.tree { t with defi := min (t.defi + 1) 65535 }
        | none => d1)

/-- STRAND_PREEMPT (R364): issue stops at a point of R264; the strand will execute its instruction again. -/
def execStrandPreempt (c : Nat) (s : State) : Out :=
  let t := s.focus c
  if !t.preemptDue t.core || !t.atPoint t.core then .next s
  else
    let u := match t.core.seq with
      | .pick _ _ => t.revokeBinding c
      | .waita _ _ _ _ => t.dropMonitor c
      | _ => t
    .next (u.upd { u.core with seq := .preempted, micro := 0 })

/-! ### Continuations (R219) -/

/-- Unit 0 is the in-channel, 1 the out-channel, 2 and 3 the arrays of the cluster. -/
def Core.agentOf (unit : Nat) : Agent := match unit with | 0 => .xin | 1 => .xout | 2 => .arr0 | _ => .arr1

/-- A program can stop: it stands at a point, is not stopped yet and waits for no answer from another device. -/
def Core.stops (c : Core) (p : ProgRun) (a : Agent) : Bool :=
  !p.stopped && p.point && (match c.remote with | some r => r.who != a | none => true)

/-- ENGINE_CONTINUATION_STOP (R219, R221): a running program of a pre-empted strand stops; an array's status records PRE. -/
def execEngineContinuationStop (c unit : Nat) (s : State) : Out :=
  let x := s.coreAt c
  if x.seq ≠ .preempted || x.vrun.isSome then .next s
  else match unit with
    | 0 => match x.xin with
      | some p => if x.stops p .xin then .next (s.putCore { x with xin := some { p with stopped := true } })
          else .next s
      | none => .next s
    | 1 => match x.xout with
      | some p => if x.stops p .xout then .next (s.putCore { x with xout := some { p with stopped := true } })
          else .next s
      | none => .next s
    | n =>
      let g := clusterOf c
      let a := (s.cluster g).arr (n - 2)
      match a.run with
      | some p =>
        if p.core = c && x.stops p (Core.agentOf n) then
          .next (s.putCluster g ((s.cluster g).putArr (n - 2)
            { a with run := some { p with stopped := true }, bits := a.bits ||| 2 ^ 7 }))
        else .next s
      | none => .next s

/-! ### Saving and restoring (R279, R364..R367) -/

/-- A strand and its engines have stopped, and no circuit unit is on its way to it (R364, R365). -/
def State.strandStopped (s : State) (c : Core) : Bool :=
  let cl := s.cluster (clusterOf c.id)
  let still := fun (p : Option ProgRun) => match p with | some r => r.core != c.id || r.stopped | none => true
  (c.seq == .preempted || c.seq == .idle) && c.vrun.isNone && still c.xin && still c.xout && still cl.arr0.run && still cl.arr1.run
    && !((s.chip0.cmds ++ s.chip1.cmds).any fun m => m.core == c.id)
    && !(s.units.any fun u => u.dst == c.id && u.sent && !u.buffered)

/-- The cores that hold strands of a launch. -/
def State.launchCores (s : State) (l : Nat) : List Core := (s.core :: s.others).filter fun c => c.launch == some l

/-- The circuit units of a strand's buffers: those it has not sent, and those it has received (R218, R365). -/
def CircuitUnit.ofCore (u : CircuitUnit) (c : Nat) : Bool := (u.src == c && !u.sent) || (u.dst == c && u.buffered)

/-- The strand's context goes to its save area: its snapshot copies and its circuit buffers with it, its stores all arrived (R288, R365,
R366). -/
def State.saveStrand (s : State) (l c : Nat) : State :=
  let x := s.coreAt c
  let s1 := s.releaseSnaps c
  let blank := { Core.reset c with debugger := x.debugger, breakOn := x.breakOn }
  { s1.putCore blank with
    units := s1.units.filter fun u => !u.ofCore c
    saved := s1.saved ++ [{ launch := l, core := { x with stores := [] }, units := s1.units.filter fun u => u.ofCore c }] }

/-- A bank as the next launch finds it (R81): in its mode, a FIFO empty. -/
def Bank.left (b : Bank) : Bank := { Bank.reset with mode := b.mode, slot := b.slot }

/-- A cluster's banks, arrays and unstarted records are saved; pinned pages are unpinned (R273, R279). The tiles keep their contents
(R196). -/
def State.saveCluster (s : State) (l g : Nat) : State :=
  let s0 := (s.cluster g).frames.foldl (fun t f => t.unpin g f) s
  let c := s0.cluster g
  { s0.putCluster g { c with
      banks := c.banks.map Bank.left, arr0 := { MatArray.reset with tiles := c.arr0.tiles }
      arr1 := { MatArray.reset with tiles := c.arr1.tiles }, records := [] } with
    savedClusters := s0.savedClusters ++
      [{ launch := l, g := g, banks := c.banks, arr0 := c.arr0, arr1 := c.arr1, records := c.records }] }

/-- A launch whose strands have all stopped is pre-empted: its clusters are taken (R264, R364). -/
def State.park (s : State) (l : Launch) : State :=
  let s1 := (s.launchCores l.id).foldl (fun t c => t.saveStrand l.id c.id) s
  let s2 := l.clusters.foldl (fun t g => t.saveCluster l.id g) s1
  s2.mapLaunch l.id fun x => { x with st := .preempted, preAt := s.nextLaunch }

/-- Every launch under pre-emption whose strands have all stopped is saved. -/
def State.parkStopped (s : State) : State :=
  (s.launches.filter fun l => l.st == .preempting).foldl (fun t l =>
    if (t.launchCores l.id).all t.strandStopped then t.park l else t) s

/-- A saved snapshot copy enters the hold buffer of its slice; one that does not fit costs an implicit boundary (R366). -/
def State.restoreSnap (s : State) (c : Nat) (n : Snapshot) : State :=
  let g := clusterOf c
  let cl := s.cluster g
  let sl := cl.slice n.line
  if (cl.holdBuf.filter fun h => h.slice == sl).length < 64 then
    s.putCluster g { cl with holdBuf := cl.holdBuf ++ [{ slice := sl, line := n.line, holders := [c] }] }
  else s.dropSnap c n.line

/-- The lanes of this part (R23). -/
def partLanes : Nat := 64

/-- Vector registers laid out for this part (R368): elements below VL keep their values, the others are zero; mask bits follow. -/
def Core.relaid (c : Core) : Core :=
  { c with
    v := c.v.map fun x => BitVec.ofNat _ (x.toNat % 2 ^ (c.vl * c.ew))
    m := c.m.map fun x => BitVec.ofNat _ (x.toNat % 2 ^ c.vl) }

/-- A saved strand's elements do not fit a register of this part (R368). -/
def Saved.wide (v : Saved) : Bool := decide (partLanes * 4 < v.core.vl * (v.core.ew / 8))

/-- Arrays of another geometry have saved a cluster (R368). -/
def SavedCluster.foreign (v : SavedCluster) : Bool := v.geometry != (128, 256)

/-- A saved strand goes on its core: it executes its instruction again, its latches read 0, its loads ask for their lines again (R43,
R364..R368). -/
def State.restoreStrand (s : State) (v : Saved) : State :=
  let x := v.core.relaid
  let old := s.coreAt x.id
  let aside := match old.ctx with | some k => assocPut (k * 1024 + x.id) old s.strands | none => s.strands
  let go := fun (p : Option ProgRun) => p.map fun r => { r with stopped := false }
  let y := { x with
    seq := if x.seq = .preempted then .run else x.seq, q := Vector.replicate 4 0, xin := go x.xin, xout := go x.xout
    debugger := old.debugger, breakOn := old.breakOn }
  let s1 := { s.putCore y with strands := aside, units := v.units ++ s.units }
  let s2 := y.snaps.foldl (fun t n => t.restoreSnap x.id n) s1
  let s3 := s2.focus x.id
  (s3.core.loads.foldl (fun t p => if p.bytes.all Option.isSome then t else t.look p.addr p.bytes.length) s3).focus s.core.id

/-- Tiles not marked live read as +0.0 (R219). -/
def MatArray.liveTiles (a : MatArray) (k : Nat) (live : Nat) : MatArray :=
  { a with
    tiles := Vector.ofFn fun (t : Fin 4) => if live / 2 ^ (4 * k + t.val) % 2 = 1 then a.tiles[t] else []
    run := a.run.map fun r => { r with stopped := false } }

/-- A cluster's L1 gives up every line (R279). -/
def State.emptyCache (s : State) (g : Nat) : State :=
  let cl := s.cluster g
  (cl.filter.map (·.line) ++ cl.leases.map (·.line)).foldl (fun t l => t.expel g l) s

/-- A saved cluster gets its banks, arrays and records back, its cache banks empty (R279); pages pinned in banks that are no longer
scratch leave them (R81). -/
def State.restoreCluster (s : State) (v : SavedCluster) (live : Nat) : State :=
  let s1 := s.emptyCache v.g
  let c := s1.cluster v.g
  (s1.putCluster v.g { c with
    banks := v.banks, arr0 := v.arr0.liveTiles 0 live, arr1 := v.arr1.liveTiles 1 live, records := v.records }).rebank v.g c

/-- The queue that a launch names as ARMQ, if any, is not bound (R110). -/
def State.armFree (s : State) (l : Launch) : Bool :=
  !rcdArmed l.rcd || (match s.queue? (rcdArmq l.rcd) with | some q => q.boundTo.isNone | none => false)

/-- Where a waiting launch fits, when the launches of lower classes give way (R382). -/
def State.fits? (s : State) (l : Launch) : Option (List Nat) :=
  placement (fun g => !s.launches.any fun x =>
    (x.st == .running || x.st == .preempting) && decide (rcdClass l.rcd ≤ rcdClass x.rcd) && x.clusters.contains g) l.rcd l.die

/-- A waiting launch of a higher class fits by pre-emption, and has not started yet: what was pre-empted for it stays so (R382). -/
def State.claimed (s : State) (l : Launch) : Bool :=
  s.launches.any fun w => w.st == .waiting && decide (rcdClass l.rcd < rcdClass w.rcd) && s.armFree w && (s.fits? w).isSome

/-- A context saved by a part of another shape does not resume (R368): the fault is journaled once. -/
def State.shapeFault (s : State) (l : Launch) (v : Option Saved) : State :=
  let c := match v with | some x => x.core | none => Core.reset 0
  (s.journal 1 l.ctx 0 0 (some (simpleReport .shape 0 c.pc c.taskid 7 c.id))).mapLaunch l.id fun x => { x with shape := true }

/-- CONTEXT_RESUME (R368, R382): a pre-empted launch resumes on the clusters it held, once all are free and no launch of a higher class is
about to take them. -/
def execContextResume (launch : Nat) (s : State) : Out :=
  let t := s.parkStopped
  match t.launch? launch with
  | none => .next s
  | some l =>
    let mine := t.saved.filter fun v => v.launch == launch
    let cls := t.savedClusters.filter fun v => v.launch == launch
    if l.st ≠ .preempted || l.shape || !l.clusters.all t.clusterFree || t.claimed l then .next s
    else if mine.any Saved.wide || cls.any SavedCluster.foreign then .next (t.shapeFault l ((mine.find? Saved.wide).orElse fun _ => mine.head?))
    else
      let t1 := { t with
        saved := t.saved.filter fun v => v.launch != launch, savedClusters := t.savedClusters.filter fun v => v.launch != launch }
      let live := fun (g : Nat) =>
        (mine.filter fun v => clusterOf v.core.id == g).foldl (fun n v => n ||| v.core.acclive.toNat) 0
      let t2 := cls.foldl (fun u v => u.restoreCluster v (live v.g)) t1
      let t3 := mine.foldl (fun u v => u.restoreStrand v) t2
      .next (t3.mapLaunch launch fun x => { x with st := .running })

/-- An earlier launch of the same Barker, of the same class or above, still waits for its clusters (R330). -/
def State.barkerAhead (s : State) (l : Launch) : Bool :=
  match l.src with
  | .queue _ _ => false
  | .barker die _ _ => s.launches.any fun w => w.st == .waiting && decide (w.id < l.id) && decide (rcdClass l.rcd ≤ rcdClass w.rcd)
      && (match w.src with | .barker k _ _ => k == die | .queue _ _ => false)

/-- GANG_START (R258, R330, R382): a waiting launch starts on free clusters; or the launch of a lower class that stands in its way is told to
stop. -/
def execGangStart (launch : Nat) (s : State) : Out :=
  let t := s.parkStopped
  match t.launch? launch with
  | none => .next s
  | some l =>
    match t.ctx? l.ctx with
    | none => .next s
    | some ctx =>
      let soon := fun g => !t.launches.any fun x => x.st == .running && x.clusters.contains g
      if l.st ≠ .waiting || t.resumesFirst l || t.barkerAhead l || !t.armFree l then .next s
      else match placement t.clusterFree l.rcd l.die with
        | some cores => .next (t.startGang l ctx cores)
        | none =>
          if (placement soon l.rcd l.die).isSome || (t.fits? l).isNone then .next s
          else match t.victim l with
            | none => .next s
            | some v => .next (t.mapLaunch v.id fun x => { x with st := .preempting })

end Sys2Proof.Machine
end

