-- ==== Sys2Proof/Machine/Hash.lean ====
section
/-! DEFINITION. Hash.lean: SHAKE256 (R391, R396), the function of FIPS 202 that the spec names and does not write out (log 7). -/

namespace Sys2Proof.Machine

/-- The rotation of each lane, at place x + 5 y. -/
def keccakTurns : List Nat := [0, 1, 62, 28, 27, 36, 44, 6, 55, 20, 3, 10, 43, 25, 39, 41, 45, 15, 21, 8, 18, 2, 61, 56, 14]

/-- The constant of each of the 24 rounds. -/
def keccakConsts : List W64 :=
  [0x0000000000000001, 0x0000000000008082, 0x800000000000808A, 0x8000000080008000, 0x000000000000808B, 0x0000000080000001,
   0x8000000080008081, 0x8000000000008009, 0x000000000000008A, 0x0000000000000088, 0x0000000080008009, 0x000000008000000A] ++
  [0x000000008000808B, 0x800000000000008B, 0x8000000000008089, 0x8000000000008003, 0x8000000000008002, 0x8000000000000080,
   0x000000000000800A, 0x800000008000000A, 0x8000000080008081, 0x8000000000008080, 0x0000000080000001, 0x8000000080008008]

/-- One round on 25 lanes. -/
def keccakRound (a : List W64) (rc : W64) : List W64 :=
  let at_ := fun (l : List W64) (k : Nat) => l.getD k 0
  let c := (List.range 5).map fun x => at_ a x ^^^ at_ a (x + 5) ^^^ at_ a (x + 10) ^^^ at_ a (x + 15) ^^^ at_ a (x + 20)
  let d := (List.range 5).map fun x => at_ c ((x + 4) % 5) ^^^ (at_ c ((x + 1) % 5)).rotateLeft 1
  let e := a.zipIdx.map fun p => p.1 ^^^ at_ d (p.2 % 5)
  let b := (List.range 25).map fun k =>
    let src := (k % 5 + 3 * (k / 5)) % 5 + 5 * (k % 5)
    (at_ e src).rotateLeft (keccakTurns.getD src 0)
  b.zipIdx.map fun p =>
    let row := p.2 / 5 * 5
    let x := p.1 ^^^ (~~~(at_ b (row + (p.2 + 1) % 5)) &&& at_ b (row + (p.2 + 2) % 5))
    if p.2 = 0 then x ^^^ rc else x

def keccak (a : List W64) : List W64 := keccakConsts.foldl keccakRound a

/-- A message with its padding, a multiple of 136 bytes long. -/
def shakePad (bs : List Byte) : List Byte :=
  let n := 136 - bs.length % 136
  bs ++ (if n = 1 then [0x9F] else 0x1F :: (List.replicate (n - 2) 0 ++ [0x80]))

/-- SHAKE256 with 32 bytes of output, the first byte lowest. -/
def shake256 (bs : List Byte) : W256 :=
  let a := (chunks 136 (shakePad bs)).foldl (fun s c =>
    keccak (s.zipIdx.map fun p => p.1 ^^^ BitVec.ofNat 64 (leVal ((c.drop (8 * p.2)).take 8)))) (List.replicate 25 (0 : W64))
  BitVec.ofNat 256 (leVal ((a.take 4).flatMap fun x => leBytes 8 x.toNat))

end Sys2Proof.Machine
end

