-- ==== Sys2Proof/Machine/Xmss.lean ====
section
/-! DEFINITION. Xmss.lean: the identity key's signatures (R396), XMSS-SHAKE256_20_256 of RFC 8391 and SP 800-208, which the spec names and does
not write out (log 7): Winternitz chains, hash trees and the signature, over key material that is a free value. -/

namespace Sys2Proof.Machine

/-- A number in n bytes, the highest first. -/
def beBytes (n v : Nat) : List Byte := (leBytes n v).reverse

/-- The keyed hash with a domain number over a key and a message. -/
def xmssHash (dom : Nat) (key msg : List Byte) : List Byte := leBytes 32 (shake256 (beBytes 32 dom ++ key ++ msg)).toNat

def xorBytes (a b : List Byte) : List Byte := (a.zip b).map fun x => x.1 ^^^ x.2

/-- A hash address of a tree alone: layer 0, tree 0, the kind of use (0 chain, 1 L-tree, 2 hash tree) and its four words. -/
def xmssAddr (kind a b c mask : Nat) : List Byte := beBytes 12 0 ++ beBytes 4 kind ++ beBytes 4 a ++ beBytes 4 b ++ beBytes 4 c ++ beBytes 4 mask

/-- The pseudorandom bytes of an address under the public seed. -/
def xmssMask (kind a b c mask : Nat) : List Byte := xmssHash 3 (leBytes 32 Config.xmssSeed.toNat) (xmssAddr kind a b c mask)

/-- Two nodes hashed into one. -/
def xmssJoin (kind a b c : Nat) (l r : List Byte) : List Byte :=
  xmssHash 1 (xmssMask kind a b c 0) (xorBytes l (xmssMask kind a b c 1) ++ xorBytes r (xmssMask kind a b c 2))

/-- A chain of a one-time key: n steps from its secret. -/
def wotsChain (leaf chain : Nat) : Nat → List Byte
  | 0 => leBytes 32 (Config.wotsKey leaf chain).toNat
  | n + 1 => xmssHash 0 (xmssMask 0 leaf chain n 0) (xorBytes (wotsChain leaf chain n) (xmssMask 0 leaf chain n 1))

/-- The 67 digits of 4 bits that a 32-byte digest signs: its own, the highest first, and three of their checksum. -/
def wotsDigits (m : List Byte) : List Nat :=
  let ds := m.flatMap fun b => [b.toNat / 16, b.toNat % 16]
  let sum := ds.foldl (fun n d => n + (15 - d)) 0
  ds ++ [sum / 256 % 16, sum / 16 % 16, sum % 16]

/-- One level of an L-tree; an odd last node is carried up. -/
def ltreeLevel (leaf height : Nat) : Nat → List (List Byte) → List (List Byte)
  | k, l :: r :: rest => xmssJoin 1 leaf height k l r :: ltreeLevel leaf height (k + 1) rest
  | _, l => l

/-- An L-tree from a level up. Fuel is the levels left. -/
def ltree (leaf : Nat) : Nat → Nat → List (List Byte) → List Byte
  | 0, _, l => l.headD []
  | n + 1, height, l => ltree leaf n (height + 1) (ltreeLevel leaf height 0 l)

/-- A node of the hash tree: a leaf is the L-tree of a one-time public key. -/
def xmssNode : Nat → Nat → List Byte
  | 0, k => ltree k 7 0 ((List.range 67).map fun c => wotsChain k c 15)
  | h + 1, k => xmssJoin 2 0 h k (xmssNode h (2 * k)) (xmssNode h (2 * k + 1))

/-- The signature with a one-time index over a message: the index in 4 bytes, the randomiser, the 67 chain values, the 20 nodes of the path,
2,820 bytes. -/
def xmssSign (i : Nat) (msg : List Byte) : List Byte :=
  let r := xmssHash 3 (leBytes 32 Config.xmssPrf.toNat) (beBytes 32 i)
  let digest := xmssHash 2 (r ++ xmssNode 20 0 ++ beBytes 32 i) msg
  beBytes 4 i ++ r ++ (wotsDigits digest).zipIdx.flatMap (fun d => wotsChain i d.2 d.1)
    ++ (List.range 20).flatMap fun h => xmssNode h (i / 2 ^ h ^^^ 1)

end Sys2Proof.Machine
end

