-- ==== Sys2Proof/Machine/Firmware.lean ====
section
/-! DEFINITION. Firmware.lean: the admin commands that load images (R54, R391), attest (R396), read the journal (R393), reset a cluster (R81,
R262) and report telemetry (R387, R390). -/

namespace Sys2Proof.Machine

/-! ### Images (R54, R391) -/

/-- The number in n bytes of an image. -/
def leAt (bs : List Byte) (off n : Nat) : Nat := leVal ((bs.drop off).take n)

def nameBytes (x : String) : List Byte := x.toList.map fun c => BitVec.ofNat 8 c.toNat

/-- The sections of R54, with the permissions of R391. -/
def sectionNames : List (List Byte × Perm) :=
  [(nameBytes ".qx.sq", (true, false, true)), (nameBytes ".qx.vec", (true, false, true)), (nameBytes ".qx.mx", (true, false, true)),
   (nameBytes ".qx.xf", (true, false, true)), (nameBytes ".qx.launch", (true, false, false)), (nameBytes ".qx.data", (true, true, false))]

/-- A section to load: its kind as a place in sectionNames, its address and its bytes. -/
structure Section where
  kind : Nat
  addr : Nat
  align : Nat
  bytes : List Byte
  deriving DecidableEq, Repr

/-- The bytes that hold the number of pages of a section (R391). -/
def Section.span (x : Section) : Nat := (x.bytes.length + 4095) / 4096 * 4096

/-- A section's header at an offset: name, type, address, offset, size, alignment. -/
def elfHeader (bs : List Byte) (o : Nat) : Nat × Nat × Nat × Nat × Nat × Nat :=
  (leAt bs o 4, leAt bs (o + 4) 4, leAt bs (o + 16) 8, leAt bs (o + 24) 8, leAt bs (o + 32) 8, leAt bs (o + 48) 8)

/-- The bytes of a header's section: zeros for a section without bytes in the file; none when they lie outside it. -/
def elfBytes (bs : List Byte) (h : Nat × Nat × Nat × Nat × Nat × Nat) : Option (List Byte) :=
  if h.2.1 = 8 then some (List.replicate h.2.2.2.2.1 0)
  else if bs.length < h.2.2.2.1 + h.2.2.2.2.1 then none
  else some ((bs.drop h.2.2.2.1).take h.2.2.2.2.1)

/-- A section of a kind the loader takes; some none for one it ignores. -/
def elfSection (bs names : List Byte) (h : Nat × Nat × Nat × Nat × Nat × Nat) : Option (Option Section) :=
  let name := (names.drop h.1).takeWhile fun b => b != 0
  match sectionNames.findIdx? fun x => x.1 == name with
  | none => some none
  | some k => (elfBytes bs h).map fun d => some { kind := k, addr := h.2.2.1, align := h.2.2.2.2.2, bytes := d }

/-- The sections of an image by ascending address; none for a file that breaks R54. A file without a section table has none; a count or a name
table beyond 16 bits stands in the first section's header, as ELF64 has it (log 7). -/
def elfSections (bs : List Byte) : Option (List Section) :=
  let shoff := leAt bs 40 8
  let num := if leAt bs 60 2 = 0 ∧ shoff ≠ 0 then leAt bs (shoff + 32) 8 else leAt bs 60 2
  let idx := if leAt bs 62 2 = 0xFFFF then leAt bs (shoff + 40) 4 else leAt bs 62 2
  if bs.length < 64 || leAt bs 0 4 ≠ 0x464C457F || leAt bs 4 1 ≠ 2 || leAt bs 5 1 ≠ 1 || leAt bs 16 2 ≠ 2 || leAt bs 18 2 ≠ 0x4F51
      || leAt bs 48 4 ≠ 1 || (num ≠ 0 && (leAt bs 58 2 != 64 || decide (bs.length < shoff + 64 * num) || decide (num ≤ idx))) then none
  else if num = 0 ∨ idx = 0 then some []
  else
    let hs := (List.range num).map fun k => elfHeader bs (shoff + 64 * k)
    match elfBytes bs (hs.getD idx (0, 0, 0, 0, 0, 0)) with
    | none => none
    | some names => (hs.map (elfSection bs names)).foldl (fun acc x => match acc, x with
        | some l, some (some y) => some (l ++ [y])
        | some l, some none => some l
        | _, _ => none) (some [])

/-- Sections by ascending address. -/
def insertSection (x : Section) : List Section → List Section
  | [] => [x]
  | y :: t => if x.addr < y.addr then x :: y :: t else y :: insertSection x t

/-- What R54 and R391 ask of the sections: one of each name, their alignments, addresses that do not overlap. -/
def sectionsBad (l : List Section) : Bool :=
  (l.any fun x => decide (x.align < 64) || x.addr % 4096 != 0 || decide (2 ^ 48 ≤ x.addr) || decide (2 ^ 48 < x.addr + x.bytes.length))
    || (l.zipIdx.any fun x => (l.drop (x.2 + 1)).any fun y =>
      y.kind == x.1.kind || (decide (x.1.addr < y.addr + y.bytes.length) && decide (y.addr < x.1.addr + x.1.bytes.length)))

/-- The copy of a section: in the launch section the handle stands in the IMAGE field of every template (R50, R391). DESIGN CHOICE (log 62): bytes
of the section that fill no whole template are copied as they are. -/
def Section.copy (x : Section) (handle : Nat) : List Byte :=
  if x.kind = 4 then (chunks 128 x.bytes).flatMap (fun t => t.take 8 ++ leBytes 8 handle ++ t.drop 16)
      ++ x.bytes.drop (x.bytes.length / 128 * 128)
  else x.bytes

/-- The sections placed one after another in the load area, and mapped (R391). -/
def State.placeSections (s : State) (root handle : Nat) : List Section → Nat → State
  | [], _ => s
  | x :: rest, pa =>
    let bs := x.copy handle
    let full := bs ++ List.replicate (x.span - bs.length) 0
    let perm := (sectionNames.getD x.kind ([], (false, false, false))).2
    ((s.homeWrite pa full).mapRange root x.addr pa x.span 0 perm).placeSections root handle rest (pa + x.span)

/-- CODE_LOAD (R54, R391). -/
def execCodeLoad (cmd : AdminCmd) (s : State) : Out :=
  s.adminStep 0x30 cmd fun t => t.cmdCtx cmd fun c =>
    let img := cmd.p0.toNat
    let n := cmd.p1.toNat
    let area := cmd.p2.toNat
    let room := cmd.p3.toNat
    if !dataRange img n || area % 4096 ≠ 0 || !dataRange area room then t.refuse stRange
    else if !t.quiet img n || !t.quiet area room then .stuck
    else
      let r := t.homeRead img n
      match elfSections r.1 with
      | none => t.refuse stBadimg
      | some l =>
        let secs := l.foldl (fun acc x => insertSection x acc) []
        let total := secs.foldl (fun k x => k + x.span) 0
        if sectionsBad secs then t.refuse stBadimg
        else if secs.any fun x => t.anyMapped c.rootL x.addr x.bytes.length then t.refuse stBusy
        else if room < total then t.refuse stRange
        else
          let h := c.nextHandle
          let sq := secs.find? fun x => x.kind == 0
          let i : Image :=
            { handle := BitVec.ofNat 64 h, sqAddr := BitVec.ofNat 64 ((sq.map (·.addr)).getD 0)
              sqSize := (sq.map (·.bytes.length)).getD 0, measure := shake256 r.1 }
          let u := (r.2.placeSections c.rootL h secs area).mapCtx c.id fun x =>
            { x with images := x.images ++ [i], nextHandle := h + 1 }
          if u.roomInFirmware then .done stDone h 0 u else t.refuse stNores

/-! ### Attestation (R395, R396) -/

/-- A bundle passes (R395): its signature holds and its security version is not below the fused minimum. -/
def Flash.passes (f : Flash) (b : FlashBank) : Bool := b.signed && decide (f.least.toNat ≤ b.version.toNat)

/-- A bank of the flash holds a bundle that passes (R395). -/
def State.verified (s : State) : Bool := s.flash.passes s.flash.bank0 || s.flash.passes s.flash.bank1

/-- The bank whose bundle is in use: the first that passed (R395). -/
def State.bundle (s : State) : Nat := if s.flash.passes s.flash.bank0 then 0 else 1

/-- The 256 bytes of a report's header (R396); the order of a configuration's numbers under the hash is the model's (log 7). -/
def State.attestHeader (s : State) (c : Context) (nonce : List Byte) : List Byte :=
  let conf := shake256 (c.params.flatMap (fun p => leBytes 8 p.toNat)
    ++ [c.limTrees, c.limClusters, c.limSegs, c.limNodes].flatMap fun n => leBytes 8 n)
  let code := shake256 (c.images.flatMap fun i => leBytes 32 i.measure.toNat)
  nonce ++ leBytes 32 Config.romMeasure.toNat ++ leBytes 32 (Config.bundleMeasure s.bundle).toNat ++ leBytes 32 conf.toNat ++ leBytes 32 code.toNat
    ++ leBytes 4 s.devid ++ leBytes 4 c.id ++ leBytes 8 s.cycle ++ leBytes 4 c.images.length ++ leBytes 4 (if s.bundle = 0 then s.flash.bank0 else s.flash.bank1).version.toNat
    ++ leBytes 1 s.jtag.toNat ++ leBytes 71 0

/-- The next one-time index: the first of a new block raises the counter first (R396). -/
def Admin.signIndex (a : Admin) : Option (Nat × Admin) :=
  if a.xmssIndex < a.xmssBlock then some (a.xmssIndex, { a with xmssIndex := a.xmssIndex + 1 })
  else if 2 ^ 20 < a.xmssBlock + 64 then none
  else some (a.xmssBlock, { a with xmssIndex := a.xmssBlock + 1, xmssBlock := a.xmssBlock + 64 })

/-- ATTEST (R396). -/
def execAttest (cmd : AdminCmd) (s : State) : Out :=
  s.adminStep 0x60 cmd fun t => t.cmdCtx cmd fun c =>
    let na := cmd.p0.toNat
    let out := cmd.p1.toNat
    if !dataRange na 32 || out % 4096 ≠ 0 || !dataRange out 3076 then t.refuse stRange
    else if !t.quiet na 32 || !t.quiet out 3076 then .stuck
    else match t.admin.signIndex with
      | none => t.refuse stExhausted
      | some (i, a) =>
        let r := t.homeRead na 32
        let head := r.2.attestHeader c r.1
        .done stDone 3076 0 ({ r.2 with admin := a }.homeWrite out (head ++ xmssSign i head))

/-! ### The journal, telemetry -/

/-- The journal still holds entry j (R393). -/
def State.holdsEntry (s : State) (j : Nat) : Bool := decide (1 ≤ j) && decide (j < s.admin.jnext) && decide (s.admin.jnext ≤ j + 2 ^ 20)

/-- JOURNAL_READ (R390, R393). -/
def execJournalRead (cmd : AdminCmd) (s : State) : Out :=
  s.adminStep 0x70 cmd fun t =>
    let j := cmd.p0.toNat
    let n := cmd.p1.toNat
    let out := cmd.p2.toNat
    if n = 0 || 4096 < n || !dataRange out (128 * n) then t.refuse stRange
    else if !t.quiet out (128 * n) then .stuck
    else
      let js := (List.range n).map (j + ·)
      let bs := js.flatMap fun k => if t.holdsEntry k then t.journalEntry k else List.replicate 128 0
      .done stDone (js.filter t.holdsEntry).length 0 (t.homeWrite out bs)

/-- TELEMETRY (R387, R390): a snapshot of counters, whose layout the spec does not give (log 11), and the reports' period. -/
def execTelemetry (cmd : AdminCmd) (s : State) : Out :=
  s.adminStep 0x90 cmd fun t =>
    let out := cmd.p0.toNat
    if !dataRange out 4096 || (cmd.p2 ≠ 0 && !isGlobal cmd.p1) then t.refuse stRange
    else if !t.quiet out 4096 then .stuck
    else
      let bs := (List.range 4096).map fun k => Config.freeByte (t.freeCount + k)
      let u := { t with
        freeCount := t.freeCount + 4096
        telemetry := { t.telemetry with period := cmd.p2.toNat, dest := cmd.p1, lastReport := t.clock, ctx := cmd.ctx.toNat } }
      .done stDone 0 0 (u.homeWrite out bs)

/-! ### CLUSTER.RESET (R81, R262, R390) -/

/-- The instances of a core's launch that run or wait on it end with status 0x04, and the task it runs for the Ringmaster aborts. -/
def State.resetCore (s : State) (c : Nat) : State :=
  let x := s.coreAt c
  match x.launch.bind s.launch? with
  | none => s.stopCore c
  | some l =>
    let s1 := s.mapLaunch l.id fun y =>
      { y with left := y.left - x.todo.length, err := some (0x04, match y.err with | some e => e.2 | none => none) }
    let s2 := s1.putCore { s1.coreAt c with todo := [] }
    let s3 := if x.ring.isSome then s2.abortTask c none else s2
    if (s3.coreAt c).body.isSome then s3.abortTask c none
    else match s3.launch? l.id with
      | some y => if y.left = 0 then s3.finishLaunch y else s3
      | none => s3

/-- The cluster's store, arrays and L1 after a reset: partials are merged first, and lines with a request under way keep it. -/
def State.resetStore (s : State) (g : Nat) : State :=
  let ls := (s.cluster g).filter.filter fun e => e.part.isSome
  let s1 := ls.foldl (fun t e => t.mergeNow e.line) s
  let cl := s1.cluster g
  s1.putCluster g { Cluster.reset with
    filter := (cl.filter.filter fun e => e.xs != .none).map fun e => { e with hold := [], queue := [] } }

/-- CLUSTER_RESET (R390): tasks on the cluster abort, and banks and token counters are reset. -/
def execClusterReset (cmd : AdminCmd) (s : State) : Out :=
  s.adminStep 0x80 cmd fun t =>
    let g := cmd.p0.toNat
    let cores := (List.range 4).map (4 * g + ·)
    if 255 < g then t.refuse stRange
    else if !cores.all fun c => t.cuttable (t.coreAt c) then .stuck
    else
      let u := (cores.foldl State.resetCore t).resetStore g
      let v := cores.foldl (fun v c => v.putCore { v.coreAt c with tq := Vector.replicate 4 (0, 0) }) u
      .done stDone 0 0 { v with
        strands := v.strands.map fun x => (x.1, if clusterOf (x.1 % 1024) = g then { x.2 with tq := Vector.replicate 4 (0, 0) } else x.2) }

end Sys2Proof.Machine
end

