-- ==== Sys2Proof/Machine/Errors.lean ====
section
/-! DEFINITION. Errors.lean: storage errors (R369, R370), the arrays' residue check (R371), words that no table assigns (R41) and blocks that
cannot be fetched (R358). -/

namespace Sys2Proof.Machine

/-! ### Storage errors (R369, R370) -/

/-- CORRECTED_ERROR (R369). -/
def execCorrectedError (s : State) : Out :=
  .next { s with telemetry := { s.telemetry with corrected := s.telemetry.corrected + 1 } }

/-- An error is reported to the task that found it, or only journaled (R370, R372). -/
def State.reportEcc (s : State) (faddr : W64) (ctx : Nat) (finder : Option Nat) : State :=
  match finder with
  | some c => s.charge c (simpleReport .ecc faddr (s.coreAt c).pc (s.coreAt c).taskid 5 c)
  | none => s.journal 1 ctx 0 0 (some (simpleReport .ecc faddr 0 0 5 0))

/-- A clean L1 copy is dropped; one that serves snapshots is fetched again (R370). -/
def State.dropClean (s : State) (g l : Nat) : State :=
  let cl := s.cluster g
  match cl.entry l with
  | none => s
  | some e =>
    let t := s.putCluster g (cl.dropEntry l)
    if e.hold.isEmpty then t else t.needLine g l

/-- The bytes of a line have no value any more (log 11). -/
def State.freeLine (s : State) (l : Nat) : State :=
  let bs := (List.range 128).map fun k => Config.freeByte (s.freeCount + k)
  { s with mem := cellPutBytes s.mem (l * 128) bs, freeCount := s.freeCount + 128 }

/-- The only copy of a line is lost: it enters its home slice's table, or the contexts that map it are destroyed when the table is full
(R370, R401). -/
def State.loseLine (s : State) (l : Nat) (finder : Option Nat) : State :=
  let s1 := ((s.withdraw l).freeLine l).reportEcc (BitVec.ofNat 64 (l * 128)) 0 finder
  if s1.lost.contains l then s1
  else if (s1.lost.filter fun k => lineHome k == lineHome l).length < 256 then { s1 with lost := insertNat l s1.lost }
  else
    (s1.contexts.filter fun c => c.maps s1.mem l).foldl
      (fun t c => (t.dropCtx c.id).journal 2 c.id 0 (0x05 + l * 128 / 2 ^ 8 % 2 ^ 44 * 2 ^ 8) none) s1

/-- TREE.kill by the device (R370). -/
def State.killTree (s : State) (die n : Nat) : State :=
  match (s.die die).tree? n with
  | none => s
  | some t =>
    let s1 := s.putDie die ((s.die die).putTree n { t with closed := true, killed := true })
    let roots := ((s1.die die).treeBlocks n).map fun b => taskId die b.2.gen b.1
    let far := s1.subtree (1 - die) roots
    let covered := s1.subtree die roots
    let u := (s1.cancelOn die roots roots true).2
    let v := if ((u.die die).treeBlocks n).isEmpty then u.putDie die ((u.die die).freeTree n) else u
    if far.isEmpty then v
    else { v with cancels := v.cancels ++
      [{ die := 1 - die, roots := covered, named := roots, hard := true, core := 0, pc := 0, task := 0, gd := 0, count := none }] }

/-- The word that a program stands at. -/
def ProgRun.word (p : ProgRun) : Option W32 := (findBlock p.code (blk p.pc)).bind fun ws => ws[p.pc.toNat % 64 / 4]?

/-- The rows of a tile get words without a value (R371, log 6). -/
def MatArray.freeRows (a : MatArray) (t : Fin 4) (r n k : Nat) : MatArray :=
  (List.range n).foldl (fun b j =>
    b.putRow t (r + j) { b.row t (r + j) with w := (List.range 256).map fun i => Config.freeWord (k + 256 * j + i) }) a

/-- A residue mismatch at a running MMAC (R371): its rows are left undefined, and its program ends with the fault. -/
def State.residue (s : State) (g k : Nat) : Out :=
  match ((s.cluster g).arr k).run with
  | none => .next s
  | some p =>
    match p.word with
    | none => .next s
    | some w =>
      if w.toNat / 2 ^ 27 ≠ 4 || p.stage ≠ 2 then .next s
      else
        let t := { s.focus p.core with unit := if k = 1 then .arr1 else .arr0 }
        let n := w.toNat / 2 ^ 9 % 64 + 1
        let a := t.array.freeRows (Fin.ofNat 4 (w.toNat / 2 ^ 21)) (w.toNat / 2 ^ 15 % 64) n t.freeCount
        ({ t.putArray a with freeCount := t.freeCount + 256 * n }).faultAt p .residue 0 (p.macBytes t.array n)

/-- UNCORRECTABLE_ERROR (R370, R371). -/
def execUncorrectableError (u : StorageUnit) (s : State) : Out :=
  match u with
  | .cleanLine g l =>
    match (s.cluster g).entry l with
    | some e => if e.st = .s && e.xs = .none then .next (s.dropClean g l) else .next s
    | none =>
      if (s.cluster g).leases.any fun x => x.line == l then
        .next (s.putCluster g { s.cluster g with leases := (s.cluster g).leases.filter fun x => x.line ≠ l })
      else .next s
  | .onlyCopy l finder =>
    if physTop ≤ l * 128 || !s.settled l then .next s else .next (s.loseLine l finder)
  | .node die i finder =>
    let d := s.die die
    match assoc i d.nodes with
    | none => .next s
    | some n =>
      .next ((s.putDie die { d with nodes := assocPut i { n with err := true } d.nodes }).reportEcc (nodeRef s.devid (die % 2) i) n.ctx finder)
  | .tcb die i =>
    match assoc i (s.die die).tcbs with
    | none => .next s
    | some b =>
      if b.state = .free then .next s
      else
        let ctx := match (s.die die).tree? b.tree with | some t => t.ctx | none => 0
        let id := taskId die b.gen i
        .next ((s.journal 1 ctx 0 0 (some (simpleReport .ecc 0 0 id 5 0))).killTree die b.tree)
  | .residue g k => s.residue g k

/-! ### Illegal words (R41, R165, R195) -/

/-- ILLEGAL_INSTRUCTION (R41): a sequencer word traps with EVAL holding it; a vector or step word is the fault of its block or program, whose
length is checked first. -/
def execIllegalInstruction (sec : CodeSection) (w : W32) (s : State) : Out :=
  match sec with
  | .sq => s.precise .illegal (w.zeroExtend 64)
  | .vec => s.vword fun _ => s.vfault .illegal 0
  | .mx | .xf => match s.prog? with
    | none => .next s
    | some p => s.bounded p (s.progFault p .illegal 0)

/-! ### Blocks that cannot be fetched (R76, R358) -/

/-- The word that the acting engine stands at cannot be fetched after issue (R76): ENGFETCH, unless the length is passed first. -/
def State.engFetchFault (s : State) : Out :=
  match s.unit with
  | .vec => match s.core.vrun with
    | none => .next s
    | some v => s.vword fun _ => s.vfault .engfetch v.pc
  | .xin | .xout | .arr0 | .arr1 => match s.prog? with
    | none => .next s
    | some p => s.bounded p (s.progFault p .engfetch p.pc)
  | .seq | .attn | .tile => .next s

/-- FETCH_FAULT (R42, R69, R358): the block at the pc of core c cannot be fetched; the fault depends on how execution reached it. -/
def execFetchFault (c : Nat) (s : State) : Out :=
  let t := s.focus c
  if t.unit ≠ .seq then t.engFetchFault
  else if t.core.seq ≠ .run || (t.wordAt t.core.context (clusterOf c) t.core.code t.core.pc).isSome then .next s
  else match t.core.reach with
    | .along | .loop => t.traps .fetch t.core.pc t.core.pc false
    | .jump from_ => t.traps .fetchtgt t.core.pc from_ true

end Sys2Proof.Machine
end

