-- ==== Sys2Proof/Machine/HostLink.lean ====
section
/-! DEFINITION. HostLink.lean: the host's reads and writes through BAR0 and BAR2 (R373..R376, R378, R388): addresses are physical, those of BAR0
from 0x80_0000_0000 up. -/

namespace Sys2Proof.Machine

/-! ### Register pages (R6, R7, R373, R378, R388) -/

/-- Where the admin registers and the management registers lie (R373). -/
def adminPage : Nat := 0x8001800000
def managePage : Nat := 0x8001801000

/-- The admin register at an offset (R388): res bits read zero, ASQTAIL is write-only. -/
def State.adminReg (s : State) (off : Nat) : W64 :=
  let a := s.admin
  match off with
  | 0x000 => a.asqbase
  | 0x008 => a.acq
  | 0x018 => BitVec.ofNat 64 a.acqdone
  | 0x020 => BitVec.ofNat 64 (a.ready.toNat * 4 + a.warm.toNat * 2 + a.jwrap.toNat)
  | 0x028 => BitVec.ofNat 64 a.jnext
  | _ => 0

/-- The management register at an offset; the offsets are the model's (log 17): PSTATE, POWERCAP, the temperatures (free
values, log 17), THERMTRIP, DEVASSIGN. -/
def State.manageReg (s : State) (off : Nat) : W64 :=
  match off with
  | 0x000 => BitVec.ofNat 64 s.power.allowed
  | 0x008 => s.power.powercap
  | 0x010 => BitVec.ofNat 64 (leVal ((List.range 8).map fun k => Config.freeByte (s.freeCount + k)))
  | 0x018 => BitVec.ofNat 64 (leVal ((List.range 8).map fun k => Config.freeByte (s.freeCount + 8 + k)))
  | 0x020 => BitVec.ofNat 64 s.power.thermtrip.toNat
  | 0x028 => BitVec.ofNat 64 (s.devValid.toNat * 2 ^ 20 + s.devid)
  | _ => 0

/-- The register that 8 bytes of BAR0 hold. -/
def State.hostReg (s : State) (pa : Nat) : W64 :=
  match doorbellQueue pa with
  | some q => s.doorbellRead q (pa % 64)
  | none =>
    if adminPage ≤ pa && pa < managePage then s.adminReg (pa - adminPage)
    else if managePage ≤ pa && pa < managePage + 0x1000 then s.manageReg (pa - managePage)
    else 0

/-- A host read of BAR0: registers are read byte by byte, but a doorbell block only by an aligned 8 B access (R378). -/
def State.bar0Read (s : State) (pa n : Nat) : List Byte :=
  (List.range n).map fun k =>
    let a := pa + k
    if (doorbellQueue a).isSome && (n != 8 || pa % 8 != 0) then 0
    else BitVec.ofNat 8 ((s.hostReg (a / 8 * 8)).toNat / 2 ^ (8 * (a % 8)))

/-- A write to ASQBASE or ACQ: ignored while commands are pending; res bits are not stored (R388). -/
def State.ringWrite (s : State) (acq : Bool) (v : W64) : State :=
  let w := v &&& ~~~0xFF0
  if s.admin.served < s.admin.asqtail then s
  else if acq then { s with admin := { s.admin with acq := w } } else { s with admin := { s.admin with asqbase := w } }

/-- A write to ASQTAIL (R388). -/
def State.asqtailWrite (s : State) (v : W64) : State := { s with admin := { s.admin with asqtail := max s.admin.asqtail v.toNat } }

/-- A write of 8 B to a register with no behaviour of its own (R6): PSTATE and POWERCAP are stored; RO registers and unlisted offsets
ignore it. -/
def State.plainWrite (s : State) (pa : Nat) (v : W64) : State :=
  if pa = managePage then { s with power := { s.power with allowed := bitsOf v 1 0 } }
  else if pa = managePage + 8 then { s with power := { s.power with powercap := v } }
  else s

/-- A host write of BAR0 of bytes at an address (R373, R376, R378, R380, R388): to a window it is a record; elsewhere only an aligned 8 B
write has an effect. -/
def State.bar0Write (s : State) (pa : Nat) (bs : List Byte) : State :=
  let v := BitVec.ofNat 64 (leVal bs)
  if pa < doorbellBase then s.windowRecord ((pa - physTop) / 128) (pa % 128) bs 0 0
  else if bs.length ≠ 8 || pa % 8 ≠ 0 then s
  else match doorbellQueue pa with
    | some q => if pa % 64 = 0 then s.mapQueue q fun x => x.raiseTail v s.clock else s
    | none =>
      if pa = adminPage then s.ringWrite false v
      else if pa = adminPage + 8 then s.ringWrite true v
      else if pa = adminPage + 0x10 then s.asqtailWrite v
      else s.plainWrite pa v

/-- ASQTAIL (R388). -/
def execAsqtail (v : W64) (s : State) : Out := if !s.pcieTrained then .next s else .next (s.asqtailWrite v)

/-- ADMIN_RING_BASE_WRITE (R388). -/
def execAdminRingBaseWrite (acq : Bool) (v : W64) (s : State) : Out :=
  if !s.pcieTrained then .next s else .next (s.ringWrite acq v)

/-- REGISTER_WRITE (R6, R7): 8 B to a register of BAR0 without a behaviour of its own, at an offset of BAR0. -/
def execRegisterWrite (off : Nat) (v : W64) (s : State) : Out :=
  if !s.pcieTrained then .next s else .next (s.plainWrite (physTop + off) v)

/-! ### Data memory (R374, R376) -/

/-- A byte as the host reads it: in the firmware region only the journal shows, entries of lost lines from the mirror (R376, R393). -/
def State.hostByte (s : State) (a : Nat) : Byte :=
  if !inFirmware a then cellGet s.mem a
  else if a < tableBase then
    match s.lost.contains (lineOf a), s.admin.mirror.find? fun e => e.1 % 2 ^ 20 == (a - journalBase) / 128 with
    | true, some e => e.2.getD (a % 128) 0
    | _, _ => cellGet s.mem a
  else 0

/-- The host reaches an address (R399): nothing before the link is trained, and no data memory before the stacks are. -/
def State.hostServed (s : State) (a : Nat) : Bool := s.pcieTrained && (decide (physTop ≤ a) || decide (4 ≤ s.bringup))

/-- HOST_READ (R376): committed bytes of BAR2, a line in U merged first, or registers of BAR0. -/
def execHostRead (a n : Nat) (s : State) : Out :=
  if !s.hostServed a then .next s
  else if physTop ≤ a then .next { s with hostData := s.bar0Read a n, freeCount := s.freeCount + 16 }
  else if physTop < a + n || !s.quiet a n then .next s
  else
    let t := (s.homeRead a n).2
    .next { t with hostData := (List.range n).map fun k => t.hostByte (a + k) }

/-- The parts of a write outside the firmware region (R374, R376). -/
def hostParts (a : Nat) (bs : List Byte) : List (Nat × List Byte) :=
  let lo := bs.take (0x3C00000000 - a)
  let k := 0x4000000000 - a
  (if lo.isEmpty then [] else [(a, lo)]) ++ (if k < bs.length then [(a + k, bs.drop k)] else [])

/-- HOST_WRITE (R376): an engine write of BAR2, dropped and counted within the firmware region; or a write of BAR0. -/
def execHostWrite (a : Nat) (bs : List Byte) (s : State) : Out :=
  if !s.hostServed a then .next s
  else if physTop ≤ a then
    (if a < doorbellBase && !s.insertSettled ((a - physTop) / 128) then .next s else .next (s.bar0Write a bs))
  else if physTop < a + bs.length || !s.quiet a bs.length then .next s
  else
    let t := if overFirmware a bs.length && !bs.isEmpty then
        { s with telemetry := { s.telemetry with droppedWrites := s.telemetry.droppedWrites + 1 } } else s
    .next ((hostParts a bs).foldl (fun u p => u.homeWrite p.1 p.2) t)

end Sys2Proof.Machine
end

