-- ==== Sys2Proof/Machine/Power.lean ====
section
/-! DEFINITION. Power.lean: bring-up and resets (R394, R395, R399), the device id (R399), power and thermal states (R397, R398). -/

namespace Sys2Proof.Machine

/-! ### Resets and bring-up (R393, R394, R399, R401) -/

/-- What survives the loss of power: the counters of one-time indices, a block begun being lost (R396), the fuse of JTAG, the flash, THERMTRIP on
standby power; and the model's own schedule. -/
def State.cold (s : State) : State :=
  { State.reset with
    admin := { State.reset.admin with xmssIndex := s.admin.xmssBlock, xmssBlock := s.admin.xmssBlock }
    power := { State.reset.power with thermtrip := s.power.thermtrip }
    jtag := s.jtag, flash := s.flash, freeCount := s.freeCount, unit := s.unit, rr := s.rr, schedule := s.schedule }


/-- COLD_RESET (R395, R399): power good; the ROM and the bundle's verification run, and bring-up goes on when PERST# is released. -/
def execColdReset (s : State) : Out := .next { s.cold with bringup := if s.verified then 2 else 1 }

/-- PERST_RELEASE (R395, R399): the link trains, with READY 0; without a bundle that passes, the module answers nothing but recovery. -/
def execPerstRelease (s : State) : Out :=
  if s.pcieTrained || s.power.off then .next s
  else if s.bringup ≠ 2 then .next s
  else .next { s with pcieTrained := true, bringup := 3 }

/-- The steps of bring-up after the link is trained (R393, R399): the stacks are trained and the journal is opened with its first entry;
then the chiplets are loaded and the admin queue is served. -/
def State.bringUp (s : State) : Option State :=
  if s.bringup = 3 then some { s.journal 2 0 0 0x00 none with bringup := 4 }
  else if s.bringup = 4 then some { s with bringup := 5, admin := { s.admin with ready := true } }
  else none

/-- Every partial of a line in U, those on their way included (R304, R305). -/
def State.finalLeaves (s : State) (d : DirLine) : List (Nat × Partial) :=
  s.msgs.foldl (fun acc m => match m with
    | .parked g l p => if l = d.line then insertLeaf (g, p) acc else acc
    | .answer g l (some p) _ _ => if l = d.line then insertLeaf (g, p) acc else acc
    | _ => acc) (s.allLeaves d)

/-- Memory with every accepted update merged (R101). -/
def State.mergedMem (s : State) : List Host.Cell :=
  (s.dir.filter fun d => d.hs == .upd || d.hs == .mrg).foldl
    (fun m d => cellPutBytes m (d.line * 128) (s.merged d (s.finalLeaves d))) s.mem

/-- The command that was pending is lost (R394). -/
def State.resetPending (s : State) : State :=
  match s.admin.pending with
  | some (_, j) => s.journalStatus j stResetlost
  | none => s

/-- WARM_RESET (R394). -/
def execWarmReset (s : State) : Out :=
  if s.bringup ≠ 5 then .next s
  else
    let t : State := { State.reset with
      mem := s.mergedMem, lost := s.lost, commitNo := s.commitNo
      admin := { State.reset.admin with
        warm := true, jwrap := s.admin.jwrap, jnext := s.admin.jnext, pending := s.admin.pending, mirror := s.admin.mirror
        xmssIndex := s.admin.xmssBlock, xmssBlock := s.admin.xmssBlock }
      devid := s.devid, devValid := s.devValid, fabric := s.fabric, bringup := 5, pcieTrained := true
      power := s.power, jtag := s.jtag, flash := s.flash, clock := s.clock
      freeCount := s.freeCount, unit := s.unit, rr := s.rr, schedule := s.schedule }
    let u := t.resetPending.journal 2 0 0 0x01 none
    .next { u with admin := { u.admin with pending := none, ready := true } }

/-- DEVASSIGN (R399): the id is written once per cold reset, after bring-up. -/
def execDevassign (v : W64) (s : State) : Out :=
  if s.bringup ≠ 5 then .next s
  else if s.devValid || bitsOf v 20 20 = 0 then .next s
  else .next { s with devid := bitsOf v 19 0, devValid := true }

/-! ### Power and heat (R314, R397, R398) -/

/-- The state the clocks should be in: PSTATE, lower by the steps for the cap and for heat, no lower than P2; or S1. -/
def Power.target (p : Power) : Nat := if p.allowed = 3 then 3 else min 2 (p.allowed + p.capSteps + p.heatSteps)

/-- P_STATE_CHANGE (R397): at a Carousel revolution boundary the clocks take the state they should be in; out of S1 they return to P0. -/
def execPStateChange (n : Nat) (s : State) : Out :=
  let p := s.power
  let to_ := if p.current = 3 then 0 else p.target
  if p.current = p.target || n ≠ to_ || s.clock % 512 ≠ 0 then .next s
  else .next { s with power := { p with current := n } }

/-- One state down, while there is one (R398). -/
def Power.roomDown (p : Power) : Bool := decide (p.allowed + p.capSteps + p.heatSteps < 2)

/-- POWER_CAP_EXCEEDED (R398). -/
def execPowerCapExceeded (s : State) : Out :=
  .next { s with power := if s.power.roomDown then { s.power with capSteps := s.power.capSteps + 1 } else s.power }

/-- POWER_CAP_RECOVER (R398). -/
def execPowerCapRecover (s : State) : Out :=
  if s.power.capSteps = 0 then .next s
  else .next { s with power := { s.power with capSteps := s.power.capSteps - 1 } }

/-- THERMAL_THROTTLE (R398). -/
def execThermalThrottle (s : State) : Out :=
  .next { s with power := if s.power.roomDown then { s.power with heatSteps := s.power.heatSteps + 1 } else s.power }

/-- THERMAL_RECOVER (R398). -/
def execThermalRecover (s : State) : Out :=
  if s.power.heatSteps = 0 then .next s
  else .next { s with power := { s.power with heatSteps := s.power.heatSteps - 1 } }

/-- THERMTRIP (R398): core power goes. -/
def execThermtrip (s : State) : Out := .next { s with power := { s.power with thermtrip := true, off := true } }

end Sys2Proof.Machine
end

