-- ==== Sys2Proof/Machine/ScalarFp.lean ====
section
/-! DEFINITION. ScalarFp.lean: scalar floating point (R62..R66). -/

namespace Sys2Proof.Machine

def ftyFmt : FTy → Fmt
  | .f32 => .f32
  | .bf16 => .bf16
  | .f16 => .f16

/-- An operand's code: the low bits of its register (R62). -/
def Core.fp (c : Core) (t : FTy) (r : Reg) : Nat := (c.getG r).toNat % 2 ^ (ftyFmt t).width

/-- A result was rounded, and takes a draw under SR (R148; log 13): it is finite, exact ones included, or it overflowed. -/
def drawsFor (f : Fmt) (r : Nat × Flags) : Bool :=
  match f.decode r.1 with
  | .fin .. => true
  | .inf _ => r.2 &&& Flags.of != 0
  | .nan .. => false

/-- An operation whose result is rounded once under a mode; under SR it takes one fraction of stream 3, and first waits for the vector
blocks issued before it (R62, R148). `op mode r` is the result for a fraction r. -/
def State.rounded (s : State) (d : Reg) (m : RMode) (f : Fmt) (op : RMode → Nat → Nat × Flags) : Out :=
  if m = .sr then
    if !s.core.vq.isEmpty then .next s
    else if drawsFor f (op .rne 0) then
      let (r, c) := s.core.draw16
      .next (s.upd (c.putResult d (op .sr r)))
    else .next (s.upd (s.core.putResult d (op .sr 0)))
  else .next (s.upd (s.core.putResult d (op m 0)))

/-- FADD (R63). -/
def execFadd (d a b : Reg) (r : Rnd) (t : FTy) (s : State) : Out :=
  s.rounded d (s.core.mode r) (ftyFmt t) fun m x => (ftyFmt t).add m x (s.core.fp t a) (s.core.fp t b)

/-- FSUB (R63). -/
def execFsub (d a b : Reg) (r : Rnd) (t : FTy) (s : State) : Out :=
  s.rounded d (s.core.mode r) (ftyFmt t) fun m x => (ftyFmt t).sub m x (s.core.fp t a) (s.core.fp t b)

/-- FMUL (R63). -/
def execFmul (d a b : Reg) (r : Rnd) (t : FTy) (s : State) : Out :=
  s.rounded d (s.core.mode r) (ftyFmt t) fun m x => (ftyFmt t).mul m x (s.core.fp t a) (s.core.fp t b)

/-- FDIV (R62, R63): a finite nonzero value over zero gives a signed infinity and no flag. -/
def execFdiv (d a b : Reg) (r : Rnd) (t : FTy) (s : State) : Out :=
  s.rounded d (s.core.mode r) (ftyFmt t) fun m x => (ftyFmt t).div m x (s.core.fp t a) (s.core.fp t b)

/-- FSQRT (R63). -/
def execFsqrt (d a : Reg) (r : Rnd) (t : FTy) (s : State) : Out :=
  let x := s.core.fp t a
  s.rounded d (s.core.mode r) (ftyFmt t) fun m y => (ftyFmt t).sqrt m y x

/-- FFMA: ga × gb + gd, rounded once (R63). -/
def execFfma (d a b : Reg) (r : Rnd) (t : FTy) (s : State) : Out :=
  s.rounded d (s.core.mode r) (ftyFmt t) fun m x =>
    (ftyFmt t).fma m x (s.core.fp t a) (s.core.fp t b) (s.core.fp t d)

/-- FMIN (R63). -/
def execFmin (d a b : Reg) (t : FTy) (s : State) : Out :=
  .next (s.upd (s.core.putResult d ((ftyFmt t).minmax false (s.core.fp t a) (s.core.fp t b))))

/-- FMAX (R63). -/
def execFmax (d a b : Reg) (t : FTy) (s : State) : Out :=
  .next (s.upd (s.core.putResult d ((ftyFmt t).minmax true (s.core.fp t a) (s.core.fp t b))))

/-- FCMP (R64). -/
def execFcmp (d a b : Reg) (p : Pred) (t : FTy) (s : State) : Out :=
  let r := (ftyFmt t).cmp p (s.core.fp t a) (s.core.fp t b)
  .next (s.upd (s.core.putResult d (r.1.toNat, r.2)))

/-- A source code of a type, the low bits of a register (R65). -/
def Core.typed (c : Core) (t : Ty) (r : Reg) : Nat := (c.getG r).toNat % 2 ^ tyWidth t

/-- A conversion's result as it stands in a register: i32 sign-extended, anything else zero-extended (R65). -/
def cvtReg (t : Ty) (c : Nat) : Nat := if t = .i32 then (sext 32 c).toNat else c

/-- FCVT (R65). A conversion of a finite value takes a draw under SR (log 13). -/
def execFcvt (d a : Reg) (src : Ty) (r : Rnd) (dst : Ty) (s : State) : Out :=
  let x := s.core.typed src a
  let finite := match tyFmt src with
    | some f => (match f.decode x with | .fin .. => true | .nan .. | .inf .. => false)
    | none => true
  let op := fun m k => let y := convert src dst m k x; (cvtReg dst y.1, y.2)
  if s.core.mode r = .sr then
    if !s.core.vq.isEmpty then .next s
    else if finite then
      let (k, c) := s.core.draw16
      .next (s.upd (c.putResult d (op .sr k)))
    else .next (s.upd (s.core.putResult d (op .sr 0)))
  else .next (s.upd (s.core.putResult d (op (s.core.mode r) 0)))

/-- The priority key of an f32 value (R66). -/
def fkey (b : Nat) : Nat :=
  match Fmt.f32.decode b with
  | .nan .. => 0
  | _ => if 2 ^ 31 ≤ b then 2 ^ 32 - 1 - b else b + 2 ^ 31

/-- FKEY (R66). -/
def execFkey (d a : Reg) (s : State) : Out := s.write d (BitVec.ofNat 64 (fkey ((s.core.getG a).toNat % 2 ^ 32)))

end Sys2Proof.Machine
end

