-- ==== Sys2Proof/Machine/Transfer.lean ====
section
/-! DEFINITION. Transfer.lean: the channels' step words (R213..R218), reductions (R216, R217), Carousel circuits (R218, R314..R317). -/

namespace Sys2Proof.Machine

/-- TRANSFER_PROGRAM_START (R76, R187): the oldest program of a channel of core c starts; one that cannot be fetched is a fault. -/
def execTransferProgramStart (c : Nat) (out : Bool) (s : State) : Out :=
  let t := s.focus c
  let q := if out then t.core.xoutq else t.core.xinq
  let busy := if out then t.core.xout.isSome else t.core.xin.isSome
  let engine := if out then 2 else 1
  let put := fun (k : Core) (l : List Cmd) => if out then { k with xoutq := l } else { k with xinq := l }
  match q with
  | [] => .next s
  | cmd :: rest =>
    if busy || cmd.started || t.core.seq = .preempted || t.core.abortDue then .next s
    else t.fetchCmd (if out then .xout else .xin) cmd.addr (.next s) fun t =>
      let tok := some (if cmd.mask.getLsbD 14 then bitsOf cmd.regs[14] 1 0 else if out then 1 else 0)
      let p : ProgRun :=
        { cmd := cmd, core := c, start := cmd.addr, pc := cmd.addr, regs := cmd.regs, loops := [], stage := 0, point := true, done := 0
          buf := [], idx := none, streams := [], up := if out then tok else none, down := if out then none else tok
          code := t.core.ecode.filter fun b => b.1 == blk cmd.addr, waits := none, fault := none, circuit := false, stopped := false }
      match t.wordAt t.core.context (clusterOf c) t.core.ecode cmd.addr with
      | none =>
        .next (((t.upd (put t.core rest)).cutProgram p engine).charge c
          (simpleReport .engfetch cmd.addr cmd.addr t.core.taskid engine c))
      | some (_, blocks) =>
        let c1 := { put t.core ({ cmd with started := true } :: rest) with ecode := blocks }
        let p1 := { p with code := blocks.filter fun b => b.1 == blk cmd.addr }
        .next (t.upd (if out then { c1 with xout := some p1 } else { c1 with xin := some p1 }))

/-- A transfer step of one channel's class (R76, R195); the steps of both classes are loops, waits and the end. -/
def State.xword (s : State) (out : Bool) (tok : Tok) (work : State → ProgRun → Out) : Out :=
  if s.unit = (if out then .xin else .xout) then
    match s.prog? with
    | none => .next s
    | some p => s.bounded p (s.progFault p .channel 0)
  else s.stepWord tok work goOn

/-- The register of a source or target in memory (R188): its address, or 0 for a stream. -/
def State.xloc (s : State) (p : ProgRun) (x : XLoc) (k : W64 → Out) : Out :=
  match x with
  | .stream _ => k 0
  | .mem r => s.preg p r k

/-- A memory register of the program is advanced (R190). -/
def ProgRun.advance (p : ProgRun) (x : XLoc) (n : Nat) : ProgRun :=
  match x with
  | .stream _ => p
  | .mem r => { p with regs := p.regs.set r (p.regs[r] + BitVec.ofNat 64 n) }

def ProgRun.advReg (p : ProgRun) (r : LReg) (n : Nat) : ProgRun := p.advance (.mem r) n

/-- A step credits the barrier at the captured l15 with the bytes it wrote to memory (R194). -/
def State.stepCredit (s : State) (p : ProgRun) (n : Nat) : State :=
  if p.cmd.mask.getLsbD 15 && p.cmd.regs[15] ≠ 0 && n ≠ 0 then
    s.creditVa s.core.id p.cmd.regs[15] n false p.pc (engineCode s.unit)
  else s

/-- A fault of a step with the bytes performed, naming its stream if it has one, of whose unit `pushed` bytes were pushed. -/
def State.moveFault (s : State) (p : ProgRun) (x : XLoc) (off pushed : Nat) (cause : Cause) (va : W64) : Out :=
  let str := match x with
    | .stream f =>
      let g := s.stream f
      some (g, s.slotsGone g ((pushed + (s.bank g).slotBytes - 1) / (s.bank g).slotBytes))
    | .mem _ => none
  s.progFail p (s.progReport p cause va off str)

/-- Units go into a target in ascending order (R213..R215, R218): unit k of `total`, at `off k` of a memory target, has the bytes that `get`
gives; `unit k` bytes of the stream's unit stand pushed before it. -/
def State.intoTarget (s : State) (p : ProgRun) (x : XLoc) (base : W64) (total : Nat) (off unit : Nat → Nat)
    (get : State → ProgRun → Nat → (State → ProgRun → List Byte → Out) → Out) (fin : State → ProgRun → Out) : Out :=
  match x with
  | .stream f =>
    if !p.buf.isEmpty then s.pushBuf p (s.stream f) (off (p.done - 1)) true
    else if total ≤ p.done then fin s p
    else s.reach p (s.stream f) (off p.done) fun q => get s q q.done fun t r bs =>
      .next (t.putProg { r with buf := bs, done := r.done + 1, idx := none, point := false })
  | .mem _ =>
    if !p.buf.isEmpty then
      s.engWrite p (base + BitVec.ofNat 64 (off p.done)) p.buf
        (fun t c va => t.moveFault p x (off p.done) (unit p.done) c va)
        fun t => .next (t.putProg { p with buf := [], done := p.done + 1, idx := none, point := true })
    else if total ≤ p.done then fin s p
    else get s p p.done fun t r bs => .next (t.putProg { r with buf := bs, point := false })

/-- The 4 KiB pieces of L bytes (R213). -/
def pieces (L : Nat) : Nat := (L + 4095) / 4096
def pieceSize (L k : Nat) : Nat := min 4096 (L - 4096 * k)

/-- XCOPY (R213). -/
def execXcopy (tok : Tok) (x y : XLoc) (l : LReg) (ps pd : Bool) (s : State) : Out :=
  s.xword false tok fun t p =>
    t.xloc p x fun a => t.xloc p y fun b => t.preg p l fun n =>
      let L := low32 n
      t.intoTarget p y b (pieces L) (4096 * ·) (4096 * ·)
        (fun u q k give => u.engRead q (a + BitVec.ofNat 64 (4096 * k)) (pieceSize L k)
          (fun v c va => v.moveFault q y (4096 * k) (4096 * k) c va) fun v bs => give v q bs)
        fun u q =>
          let u1 := match y with | .mem _ => u.stepCredit q L | .stream _ => u
          let q1 := if ps then q.advance x L else q
          u1.stepDone (if pd then q1.advance y L else q1) tok

/-- XFILL (R215). -/
def execXfill (tok : Tok) (y : XLoc) (pat l : LReg) (pd : Bool) (s : State) : Out :=
  s.xword false tok fun t p =>
    t.xloc p y fun b => t.preg p pat fun v => t.preg p l fun n =>
      let L := low32 n
      t.intoTarget p y b (pieces L) (4096 * ·) (4096 * ·)
        (fun u q k give => give u q ((List.range (pieceSize L k)).map fun i => BitVec.ofNat 8 (v.toNat / 2 ^ (8 * (i % 4)))))
        fun u q =>
          let u1 := match y with | .mem _ => u.stepCredit q L | .stream _ => u
          u1.stepDone (if pd then q.advance y L else q) tok

/-- The index of row k, read from the list at an address when there is one (R214), and kept while the row moves. -/
def State.rowIndex (s : State) (p : ProgRun) (list : Option W64) (k : Nat) (bad : State → Cause → W64 → Out) (give : State → Nat → Out) :
    Out :=
  match list, p.idx with
  | none, _ => give s k
  | some _, some i => give s i
  | some a, none =>
    let va := a + BitVec.ofNat 64 (4 * k)
    if va.toNat % 4 ≠ 0 then bad s .align va
    else s.engRead p va 4 bad fun t bs => .next (t.putProg { p with idx := some (leVal bs), point := false })

/-- XGATH in both forms (R214). -/
def State.gather (s : State) (tok : Tok) (b : LReg) (y : XLoc) (i : Option LReg) (n : LReg) (sz : Nat) : Out :=
  s.xword false tok fun t p =>
    let row := 16 * 2 ^ sz
    t.preg p b fun base => t.xloc p y fun dst => t.preg p n fun cnt =>
      let rows := low32 cnt
      let go := fun (list : Option W64) =>
        t.intoTarget p y dst rows (row * ·) (fun _ => 0)
          (fun u q k give =>
            let bad := fun (v : State) (c : Cause) (va : W64) => v.moveFault q y (row * k) 0 c va
            u.rowIndex q list k bad fun v j =>
              v.engRead q (base + BitVec.ofNat 64 (j * row)) row bad fun w bs => give w q bs)
          fun u q =>
            let u1 := match y with | .mem _ => u.stepCredit q (rows * row) | .stream _ => u
            let q1 := match i with | some r => q.advReg r (4 * rows) | none => q
            u1.stepDone (q1.advance y (rows * row)) tok
      match i with
      | some r => t.preg p r fun a => go (some a)
      | none => go none

/-- XGATH (R214). -/
def execXgath (tok : Tok) (b : LReg) (y : XLoc) (i n : LReg) (sz : Fin 16) (s : State) : Out :=
  s.gather tok b y (some i) n sz.val

/-- XGATH.c (R214). -/
def execXgathC (tok : Tok) (b : LReg) (y : XLoc) (n : LReg) (sz : Fin 16) (s : State) : Out :=
  s.gather tok b y none n sz.val

/-- The bytes of a unit from a stream or from memory, gathered in the program's buffer (R189, R214, R218): k once they are all there. -/
def State.fromSource (s : State) (p : ProgRun) (x : XLoc) (va : W64) (n off : Nat) (bad : State → Cause → W64 → Out)
    (k : State → ProgRun → List Byte → Out) : Out :=
  if n ≤ p.buf.length then k s p (p.buf.take n)
  else match x with
    | .stream f => s.popSlot p (s.stream f) off fun t q bs => .next (t.putProg { q with buf := q.buf ++ bs, point := false })
    | .mem _ => s.engRead p va n bad fun t bs => .next (t.putProg { p with buf := bs, point := false })

/-- XSCAT in both forms (R214): each row's addresses are checked before it moves. -/
def State.scatter (s : State) (tok : Tok) (x : XLoc) (b : LReg) (i : Option LReg) (n : LReg) (sz : Nat) : Out :=
  s.xword true tok fun t p =>
    let row := 16 * 2 ^ sz
    t.xloc p x fun src => t.preg p b fun base => t.preg p n fun cnt =>
      let rows := low32 cnt
      let bad := fun (v : State) (c : Cause) (va : W64) =>
        v.progFail p (v.progReport p c va (row * p.done) (match x with
          | .stream f => some (v.stream f, p.buf.length / (v.bank (v.stream f)).slotBytes)
          | .mem _ => none))
      let go := fun (list : Option W64) =>
        if rows ≤ p.done then
          let q1 := match i with | some r => p.advReg r (4 * rows) | none => p.advReg b (rows * row)
          (t.stepCredit p (rows * row)).stepDone (q1.advance x (rows * row)) tok
        else t.rowIndex p list p.done bad fun u j =>
          let dst := base + BitVec.ofNat 64 (j * row)
          match u.engCheck dst row .write with
          | .error (c, va) => bad u c va
          | .ok _ => u.fromSource p x (src + BitVec.ofNat 64 (p.done * row)) row (row * p.done) bad fun v q bs =>
            v.engWrite q dst bs bad fun w =>
              .next (w.putProg { q with buf := [], done := q.done + 1, idx := none, point := true })
      match i with
      | some r => t.preg p r fun a => go (some a)
      | none => go none

/-- XSCAT (R214). -/
def execXscat (tok : Tok) (x : XLoc) (b i n : LReg) (sz : Fin 16) (s : State) : Out := s.scatter tok x b (some i) n sz.val

/-- XSCAT.c (R214). -/
def execXscatC (tok : Tok) (x : XLoc) (b n : LReg) (sz : Fin 16) (s : State) : Out := s.scatter tok x b none n sz.val

/-! ### Reductions (R216, R217) -/

/-- XRED (R216): one contribution for each line, from what the source gives; the step completes when all have been accepted. A fault of a
contribution ends it at once (R217). -/
def execXred (tok : Tok) (x : XLoc) (d n : LReg) (g : UpdTag) (r : LReg) (post : Bool) (s : State) : Out :=
  s.xword true tok fun t p => t.raised p <|
    t.xloc p x fun src => t.preg p d fun dst => t.preg p n fun cnt => t.preg p r fun rid =>
      let L := low32 cnt
      let bad := fun (v : State) (c : Cause) (va : W64) =>
        v.progFail p (v.progReport p c va (128 * p.done) (match x with
          | .stream f => some (v.stream f, (128 * p.done + p.buf.length) / (v.bank (v.stream f)).slotBytes)
          | .mem _ => none))
      if dst.toNat % 128 ≠ 0 || L % 128 ≠ 0 then bad t .align dst
      else if t.isRemote dst then bad t .remote dst
      else if L / 128 ≤ p.done then
        if t.xreds.any fun m => m.core == t.core.id && !m.arrived then t.hold p
        else
          let q := if post then (p.advance x L).advReg d L else p
          t.stepDone q tok
      else
        let va := dst + BitVec.ofNat 64 (128 * p.done)
        match t.check va 128 .write none false with
        | .error (c, v) => bad t c v
        | .ok a => t.fromSource p x (src + BitVec.ofNat 64 (128 * p.done)) 128 (128 * p.done) bad fun u q bs =>
          let m : XredMsg :=
            { ctx := u.core.context, rid := rid.toNat % 2 ^ 12, line := lineOf a, core := u.core.id, tag := g, bytes := bs
              bar := if q.cmd.mask.getLsbD 15 then q.cmd.regs[15] else 0
              task := u.core.taskid, word := q.pc, arrived := false }
          .next ({ u with xreds := u.xreds ++ [m] }.putProg { q with buf := q.buf.drop 128, done := q.done + 1, point := true })

/-- Entry r of the admission table of core c: its source ids; or XRADMIT's value (R217). -/
def State.admission (s : State) (c rid : Nat) : Except Fail (List Nat) :=
  let x := s.coreAt c
  let va := x.xrbase + BitVec.ofNat 64 (64 * rid)
  match s.checkPage x.context (clusterOf c) va 64 .read with
  | .error f => .error f
  | .ok a =>
    if remoteBase ≤ a then .error (.remote, va)
    else
      let bs := (s.homeRead a 64).1
      let at_ := fun k => leVal ((bs.drop (2 * k)).take 2)
      let ids := (List.range (at_ 0)).map fun k => at_ (k + 1)
      if at_ 0 = 0 || 31 < at_ 0 then .error (.xradmit, va)
      else if ids.zipIdx.any fun x => (ids.take x.2).contains x.1 then .error (.xradmit, va)
      else .ok ids

/-- A source whose step waits for its contribution is at fault (R217); a step that is over leaves the fault to its task (R10). -/
def State.xredFault (s : State) (m : XredMsg) (f : Fail) : State :=
  let x := s.coreAt m.core
  let rep := simpleReport f.1 f.2 m.word m.task 2 m.core
  let s1 := { s with xreds := s.xreds.filter fun y => y != m && !(y.core == m.core && y.word == m.word && !y.arrived) }
  match x.xout with
  | some p =>
    if p.pc = m.word ∧ p.stage = 2 then s1.putCore { x with xout := some { p with fault := some { rep with offset := 128 * p.done } } }
    else s1.chargeLate m.core m.ctx rep
  | none => s1.chargeLate m.core m.ctx rep

/-- Positions of aborted sources count as applied (R217). -/
def XredRound.skipTo (r : XredRound) : Nat → XredRound
  | 0 => r
  | n + 1 => match r.ids[r.next]? with
    | some c => if r.skip.contains c then { r with next := r.next + 1 }.skipTo n else r
    | none => r

/-- The round of a contribution. -/
def State.round? (s : State) (m : XredMsg) : Option XredRound :=
  s.rounds.find? fun r => r.ctx == m.ctx && r.rid == m.rid && r.line == m.line

def State.putRound (s : State) (r : XredRound) : State :=
  let rest := s.rounds.filter fun x => !(x.ctx == r.ctx && x.rid == r.rid && x.line == r.line)
  let r1 := r.skipTo r.ids.length
  { s with rounds := if r1.ids.length ≤ r1.next then rest else rest ++ [r1] }

/-- Elements of w bytes combined one by one (R99, R216). -/
def combineBytes (t : UpdTag) (old new : List Byte) : List Byte :=
  (List.zipWith (fun a b => leBytes (updBytes t) (updOp t (leVal a) (leVal b))) (chunks (updBytes t) old) (chunks (updBytes t) new)).flatten

/-- A contribution is applied at its slice, and credited (R216). -/
def State.applyXred (s : State) (m : XredMsg) (r : XredRound) : State :=
  let h := s.homeRead (m.line * 128) 128
  let s1 := h.2.homeWrite (m.line * 128) (combineBytes m.tag h.1 m.bytes)
  let s2 := s1.putRound { r with next := r.next + 1 }
  if m.bar = 0 then s2
  else
    let bad := fun (c : Cause) => s2.chargeLate m.core m.ctx (simpleReport c m.bar m.word m.task 2 m.core)
    if m.bar.toNat % 16 ≠ 0 then bad .barcredit
    else match s2.checkPage m.ctx (clusterOf m.core) m.bar 16 .write with
      | .ok a => s2.sendCredit a m.bar 128 false m.core m.ctx m.task m.word 2
      | .error (c, _) => bad c

/-- An earlier contribution of the same source to the same round comes before the k-th. -/
def State.xredBehind (s : State) (m : XredMsg) (k : Nat) : Bool :=
  (s.xreds.take k).any fun y => y.core == m.core && y.ctx == m.ctx && y.rid == m.rid && y.line == m.line

/-- XRED_CONTRIBUTION (R217): the k-th contribution opens its round if need be, and is applied in its turn, or waits in the admission
buffer of its slice; a full buffer refuses it for now. -/
def execXredContribution (k : Nat) (s : State) : Out :=
  match s.xreds[k]? with
  | none => .next s
  | some m =>
    if !s.settled m.line || s.xredBehind m k then .next s
    else
      let fresh := (s.admission m.core m.rid).map fun ids =>
        { ctx := m.ctx, rid := m.rid, line := m.line, ids := ids, next := 0, skip := [] : XredRound }
      let opened := match s.round? m with
        | some r =>
          let r1 := r.skipTo r.ids.length
          if r1.ids.length ≤ r1.next then fresh else .ok r1
        | none => fresh
      match opened with
      | .error f => .next (s.xredFault m f)
      | .ok r =>
        match r.ids.findIdx? (· == m.core) with
        | none => .next (s.xredFault m (.xradmit, BitVec.ofNat 64 (m.line * 128)))
        | some pos =>
          if pos = r.next then .next ({ s with xreds := s.xreds.eraseIdx k }.applyXred m r)
          else if m.arrived then .next s
          else
            let here := s.xreds.filter fun x => x.arrived && lineHome x.line == lineHome m.line
            if 64 ≤ here.length then .next s
            else .next ({ s with xreds := s.xreds.set k { m with arrived := true } }.putRound r)

/-! ### Circuits (R218, R314..R317) -/

/-- The entry of a circuit that a core may use: the loaded table of its die is the one at its CARBASE, and the entry is valid (R316). -/
def State.circuit? (s : State) (c : Nat) : Option CarEntry :=
  let car := s.car (dieOf s.core.id)
  if car.base = 0 || car.base ≠ s.core.carbase then none
  else match car.table[c]? with
    | some e => if CarEntry.v e then some e else none
    | none => none

/-- XSEND (R218): one unit after the other leaves on the circuit's slots. -/
def execXsend (tok : Tok) (x : XLoc) (c : Fin 256) (n : LReg) (post : Bool) (s : State) : Out :=
  s.xword true tok fun t p =>
    match t.circuit? c.val with
    | none => t.progFault p .circuit (BitVec.ofNat 64 c.val)
    | some e =>
      if CarEntry.src e ≠ t.core.id then t.progFault p .circuit (BitVec.ofNat 64 c.val)
      else t.xloc p x fun src => t.preg p n fun cnt =>
        let units := low32 cnt
        let q := { p with circuit := true }
        let bad := fun (v : State) (cause : Cause) (va : W64) =>
          v.progFail p (v.progReport p cause va (512 * p.done) (match x with
            | .stream f => some (v.stream f, p.buf.length / (v.bank (v.stream f)).slotBytes)
            | .mem _ => none))
        if t.units.any fun u => u.src == t.core.id && !u.sent then t.hold q
        else if units ≤ q.done then t.stepDone (if post then q.advance x (512 * units) else q) tok
        else t.fromSource q x (src + BitVec.ofNat 64 (512 * q.done)) 512 (512 * q.done) bad fun u r bs =>
          let unit : CircuitUnit :=
            { die := dieOf u.core.id, circuit := c.val, src := u.core.id, dst := CarEntry.dst e, bytes := bs, sent := false
              arriveAt := 0, buffered := false }
          .next ({ u with units := u.units ++ [unit] }.putProg { r with buf := [], done := r.done + 1, point := true })

/-- XRECV (R218). -/
def execXrecv (tok : Tok) (y : XLoc) (c : Fin 256) (n : LReg) (post : Bool) (s : State) : Out :=
  s.xword false tok fun t p =>
    match t.circuit? c.val with
    | none => t.progFault p .circuit (BitVec.ofNat 64 c.val)
    | some e =>
      if CarEntry.dst e ≠ t.core.id then t.progFault p .circuit (BitVec.ofNat 64 c.val)
      else t.xloc p y fun dst => t.preg p n fun cnt =>
        let units := low32 cnt
        t.intoTarget { p with circuit := true } y dst units (512 * ·) (fun _ => 0)
          (fun u q _ give =>
            match u.units.findIdx? fun x => x.buffered && x.circuit == c.val && x.dst == u.core.id with
            | none => u.hold q
            | some k => give { u with units := u.units.eraseIdx k } q ((u.units[k]?.map fun x => x.bytes).getD []))
          fun u q =>
            let u1 := match y with | .mem _ => u.stepCredit q (512 * units) | .stream _ => u
            u1.stepDone (if post then q.advance y (512 * units) else q) tok

/-- The entry of a unit's circuit in the loaded table of its die. -/
def State.unitEntry (s : State) (u : CircuitUnit) : Option CarEntry := (s.car u.die).table[u.circuit]?

/-- An owned slot of the circuit passes its source's position now (R314, R315). -/
def CarEntry.passes (e : CarEntry) (clock : Nat) : Bool :=
  let ps := stripPos e.src
  let p := if ps < stripPos e.dst then ps else 24 - ps
  (clock + 512 - p) % 512 % 2 ^ e.per == e.slot

/-- Two units travel on one circuit. -/
def CircuitUnit.onCircuit (x u : CircuitUnit) : Bool := x.die == u.die && x.circuit == u.circuit

/-- CIRCUIT_UNIT_SEND (R317): a ready unit takes the owned slot that passes, while its receiver has room for it. -/
def execCircuitUnitSend (k : Nat) (s : State) : Out :=
  match s.units[k]? with
  | none => .next s
  | some u =>
    match s.unitEntry u with
    | none => .next s
    | some e =>
      let held := s.units.filter fun x => x.onCircuit u && x.buffered
      let behind := (s.units.take k).any fun x => x.onCircuit u && !x.sent
      if u.sent || behind || !CarEntry.passes e s.clock || decide (4 ≤ held.length) then .next s
      else
        let ps := stripPos e.src
        let pd := stripPos e.dst
        .next { s with units := s.units.set k { u with sent := true, arriveAt := s.clock + (max ps pd - min ps pd) + 2 } }

/-- CIRCUIT_UNIT_ARRIVE (R218, R317): a unit reaches its receiver's buffer, behind the units sent before it; one that finds four there waits
(log 60). -/
def execCircuitUnitArrive (k : Nat) (s : State) : Out :=
  match s.units[k]? with
  | none => .next s
  | some u =>
    let behind := (s.units.take k).any fun x => x.onCircuit u && x.sent && !x.buffered
    let held := s.units.filter fun x => x.onCircuit u && x.buffered
    if !u.sent || u.buffered || behind || s.clock < u.arriveAt || decide (4 ≤ held.length) then .next s
    else .next { s with units := s.units.set k { u with buffered := true } }

/-! ### Loops, waits, the end -/

/-- XLOOP with a constant count (R191). -/
def execXloop (tok : Tok) (n : Fin 4096) (b : Fin 1024) (s : State) : Out := s.loopWord tok b.val (.inl n.val)

/-- XLOOP with a count from a register (R191). -/
def execXloopReg (tok : Tok) (l : LReg) (b : Fin 1024) (s : State) : Out := s.loopWord tok b.val (.inr l)

/-- XWAITB (R193). -/
def execXwaitb (tok : Tok) (l : LReg) (turn : Bool) (s : State) : Out := s.waitb tok l turn

/-- XEND (R187): its tokens act, and the program and its command are complete, once its credits are performed: a fault of one is a fault of
its task (R104). -/
def execXend (tok : Tok) (s : State) : Out :=
  let fin := fun (t : State) (p : ProgRun) => Host.Outcome.next (t.dropProg p)
  s.stepWord tok
    (fun t p =>
      if t.credits.any fun c => c.core == t.core.id && c.engine == engineCode t.unit then t.hold p else t.tokSend p tok fin)
    fin

end Sys2Proof.Machine
end

