-- ==== Sys2Proof/Machine/Dispatch.lean ====
section
/-! DEFINITION. Dispatch.lean: one arm for each constructor of Instr: its meaning, called directly. -/

namespace Sys2Proof.Machine

def exec (i : Instr) (s : State) : Host.Outcome State Fault Refusal :=
  match i with
  | .nop => Sys2Proof.Machine.execNop s
  | .yield => Sys2Proof.Machine.execYield s
  | .pause n => Sys2Proof.Machine.execPause n s
  | .halt => Sys2Proof.Machine.execHalt s
  | .trap k => Sys2Proof.Machine.execTrap k s
  | .tret => Sys2Proof.Machine.execTret s
  | .bkpt k => Sys2Proof.Machine.execBkpt k s
  | .iflush => Sys2Proof.Machine.execIflush s
  | .add d a b => Sys2Proof.Machine.execAdd d a b s
  | .sub d a b => Sys2Proof.Machine.execSub d a b s
  | .mul d a b => Sys2Proof.Machine.execMul d a b s
  | .mulh d a b => Sys2Proof.Machine.execMulh d a b s
  | .div d a b => Sys2Proof.Machine.execDiv d a b s
  | .divn d a b => Sys2Proof.Machine.execDivn d a b s
  | .rem d a b => Sys2Proof.Machine.execRem d a b s
  | .remn d a b => Sys2Proof.Machine.execRemn d a b s
  | .and d a b => Sys2Proof.Machine.execAnd d a b s
  | .or d a b => Sys2Proof.Machine.execOr d a b s
  | .xor d a b => Sys2Proof.Machine.execXor d a b s
  | .andn d a b => Sys2Proof.Machine.execAndn d a b s
  | .shl d a b => Sys2Proof.Machine.execShl d a b s
  | .shr d a b => Sys2Proof.Machine.execShr d a b s
  | .sar d a b => Sys2Proof.Machine.execSar d a b s
  | .min d a b => Sys2Proof.Machine.execMin d a b s
  | .max d a b => Sys2Proof.Machine.execMax d a b s
  | .minn d a b => Sys2Proof.Machine.execMinn d a b s
  | .maxn d a b => Sys2Proof.Machine.execMaxn d a b s
  | .slt d a b => Sys2Proof.Machine.execSlt d a b s
  | .sltn d a b => Sys2Proof.Machine.execSltn d a b s
  | .seq d a b => Sys2Proof.Machine.execSeq d a b s
  | .sel d a b c => Sys2Proof.Machine.execSel d a b c s
  | .clz d a => Sys2Proof.Machine.execClz d a s
  | .ctz d a => Sys2Proof.Machine.execCtz d a s
  | .popc d a => Sys2Proof.Machine.execPopc d a s
  | .ext d a b => Sys2Proof.Machine.execExt d a b s
  | .ins d a b => Sys2Proof.Machine.execIns d a b s
  | .addImm d a im => Sys2Proof.Machine.execAddImm d a im s
  | .mulImm d a im => Sys2Proof.Machine.execMulImm d a im s
  | .andImm d a im => Sys2Proof.Machine.execAndImm d a im s
  | .orImm d a im => Sys2Proof.Machine.execOrImm d a im s
  | .xorImm d a im => Sys2Proof.Machine.execXorImm d a im s
  | .shlImm d a sc => Sys2Proof.Machine.execShlImm d a sc s
  | .shrImm d a sc => Sys2Proof.Machine.execShrImm d a sc s
  | .sarImm d a sc => Sys2Proof.Machine.execSarImm d a sc s
  | .sltImm d a im => Sys2Proof.Machine.execSltImm d a im s
  | .sltnImm d a im => Sys2Proof.Machine.execSltnImm d a im s
  | .seqImm d a im => Sys2Proof.Machine.execSeqImm d a im s
  | .minImm d a im => Sys2Proof.Machine.execMinImm d a im s
  | .maxImm d a im => Sys2Proof.Machine.execMaxImm d a im s
  | .minnImm d a im => Sys2Proof.Machine.execMinnImm d a im s
  | .maxnImm d a im => Sys2Proof.Machine.execMaxnImm d a im s
  | .extImm d a g p l => Sys2Proof.Machine.execExtImm d a g p l s
  | .insImm d a p l => Sys2Proof.Machine.execInsImm d a p l s
  | .lim d k n im => Sys2Proof.Machine.execLim d k n im s
  | .fadd d a b r t => Sys2Proof.Machine.execFadd d a b r t s
  | .fsub d a b r t => Sys2Proof.Machine.execFsub d a b r t s
  | .fmul d a b r t => Sys2Proof.Machine.execFmul d a b r t s
  | .fdiv d a b r t => Sys2Proof.Machine.execFdiv d a b r t s
  | .fsqrt d a r t => Sys2Proof.Machine.execFsqrt d a r t s
  | .ffma d a b r t => Sys2Proof.Machine.execFfma d a b r t s
  | .fmin d a b t => Sys2Proof.Machine.execFmin d a b t s
  | .fmax d a b t => Sys2Proof.Machine.execFmax d a b t s
  | .fcmp d a b p t => Sys2Proof.Machine.execFcmp d a b p t s
  | .fcvt d a sc r t => Sys2Proof.Machine.execFcvt d a sc r t s
  | .fkey d a => Sys2Proof.Machine.execFkey d a s
  | .beq a b o => Sys2Proof.Machine.execBeq a b o s
  | .bne a b o => Sys2Proof.Machine.execBne a b o s
  | .blt a b o => Sys2Proof.Machine.execBlt a b o s
  | .bge a b o => Sys2Proof.Machine.execBge a b o s
  | .bltn a b o => Sys2Proof.Machine.execBltn a b o s
  | .bgen a b o => Sys2Proof.Machine.execBgen a b o s
  | .j o => Sys2Proof.Machine.execJ o s
  | .jl o => Sys2Proof.Machine.execJl o s
  | .jr a => Sys2Proof.Machine.execJr a s
  | .jlr d a => Sys2Proof.Machine.execJlr d a s
  | .loop a e => Sys2Proof.Machine.execLoop a e s
  | .loopImm c e => Sys2Proof.Machine.execLoopImm c e s
  | .lbrk => Sys2Proof.Machine.execLbrk s
  | .lbrkSq a => Sys2Proof.Machine.execLbrkSq a s
  | .lidx d k => Sys2Proof.Machine.execLidx d k s
  | .lset n a => Sys2Proof.Machine.execLset n a s
  | .lsetAdd n a => Sys2Proof.Machine.execLsetAdd n a s
  | .vrun a m => Sys2Proof.Machine.execVrun a m s
  | .xrun a m => Sys2Proof.Machine.execXrun a m s
  | .mtask a m => Sys2Proof.Machine.execMtask a m s
  | .wait l sc c t => Sys2Proof.Machine.execWait l sc c t s
  | .vget d n => Sys2Proof.Machine.execVget d n s
  | .slack d a => Sys2Proof.Machine.execSlack d a s
  | .bankm d a => Sys2Proof.Machine.execBankm d a s
  | .ldb d a o => Sys2Proof.Machine.execLdb d a o s
  | .ldbn d a o => Sys2Proof.Machine.execLdbn d a o s
  | .ldh d a o => Sys2Proof.Machine.execLdh d a o s
  | .ldhn d a o => Sys2Proof.Machine.execLdhn d a o s
  | .ldw d a o => Sys2Proof.Machine.execLdw d a o s
  | .ldwn d a o => Sys2Proof.Machine.execLdwn d a o s
  | .ldd d a o => Sys2Proof.Machine.execLdd d a o s
  | .stb d a o => Sys2Proof.Machine.execStb d a o s
  | .sth d a o => Sys2Proof.Machine.execSth d a o s
  | .stw d a o => Sys2Proof.Machine.execStw d a o s
  | .std d a o => Sys2Proof.Machine.execStd d a o s
  | .amoSwap d a b z o sc => Sys2Proof.Machine.execAmoSwap d a b z o sc s
  | .amoAdd d a b z o sc => Sys2Proof.Machine.execAmoAdd d a b z o sc s
  | .amoAnd d a b z o sc => Sys2Proof.Machine.execAmoAnd d a b z o sc s
  | .amoOr d a b z o sc => Sys2Proof.Machine.execAmoOr d a b z o sc s
  | .amoXor d a b z o sc => Sys2Proof.Machine.execAmoXor d a b z o sc s
  | .amoMin d a b z o sc => Sys2Proof.Machine.execAmoMin d a b z o sc s
  | .amoMax d a b z o sc => Sys2Proof.Machine.execAmoMax d a b z o sc s
  | .amoMinn d a b z o sc => Sys2Proof.Machine.execAmoMinn d a b z o sc s
  | .amoMaxn d a b z o sc => Sys2Proof.Machine.execAmoMaxn d a b z o sc s
  | .cas d a b z o sc => Sys2Proof.Machine.execCas d a b z o sc s
  | .updAddI32 a b sc => Sys2Proof.Machine.execUpdAddI32 a b sc s
  | .updAddI64 a b sc => Sys2Proof.Machine.execUpdAddI64 a b sc s
  | .updAddF32 a b sc => Sys2Proof.Machine.execUpdAddF32 a b sc s
  | .updAddBf16x2 a b sc => Sys2Proof.Machine.execUpdAddBf16x2 a b sc s
  | .updMaxI32 a b sc => Sys2Proof.Machine.execUpdMaxI32 a b sc s
  | .updMinI32 a b sc => Sys2Proof.Machine.execUpdMinI32 a b sc s
  | .updMaxN32 a b sc => Sys2Proof.Machine.execUpdMaxN32 a b sc s
  | .updMinN32 a b sc => Sys2Proof.Machine.execUpdMinN32 a b sc s
  | .updMaxF32 a b sc => Sys2Proof.Machine.execUpdMaxF32 a b sc s
  | .updMinF32 a b sc => Sys2Proof.Machine.execUpdMinF32 a b sc s
  | .updOr a b sc => Sys2Proof.Machine.execUpdOr a b sc s
  | .updAnd a b sc => Sys2Proof.Machine.execUpdAnd a b sc s
  | .updXor a b sc => Sys2Proof.Machine.execUpdXor a b sc s
  | .phase d sc => Sys2Proof.Machine.execPhase d sc s
  | .fence sc => Sys2Proof.Machine.execFence sc s
  | .waita d a b z sc => Sys2Proof.Machine.execWaita d a b z sc s
  | .pfhL1 a b => Sys2Proof.Machine.execPfhL1 a b s
  | .pfhL2 a b => Sys2Proof.Machine.execPfhL2 a b s
  | .rsdKeep a b => Sys2Proof.Machine.execRsdKeep a b s
  | .rsdLow a b => Sys2Proof.Machine.execRsdLow a b s
  | .rsdClean a b => Sys2Proof.Machine.execRsdClean a b s
  | .barinit a b sc => Sys2Proof.Machine.execBarinit a b sc s
  | .barexp a b sc => Sys2Proof.Machine.execBarexp a b sc s
  | .bararr d a b sc => Sys2Proof.Machine.execBararr d a b sc s
  | .barwait d a b sc => Sys2Proof.Machine.execBarwait d a b sc s
  | .bartest d a b sc => Sys2Proof.Machine.execBartest d a b sc s
  | .enq d a b => Sys2Proof.Machine.execEnq d a b s
  | .waitq d a => Sys2Proof.Machine.execWaitq d a s
  | .dq d a b => Sys2Proof.Machine.execDq d a b s
  | .treeNew d a => Sys2Proof.Machine.execTreeNew d a s
  | .treeClose d a => Sys2Proof.Machine.execTreeClose d a s
  | .treeKill d a => Sys2Proof.Machine.execTreeKill d a s
  | .spawn d a b => Sys2Proof.Machine.execSpawn d a b s
  | .pick d a => Sys2Proof.Machine.execPick d a s
  | .done a => Sys2Proof.Machine.execDone a s
  | .join a b => Sys2Proof.Machine.execJoin a b s
  | .reprio d a b => Sys2Proof.Machine.execReprio d a b s
  | .reprioSub d a b => Sys2Proof.Machine.execReprioSub d a b s
  | .cancelSoft d a => Sys2Proof.Machine.execCancelSoft d a s
  | .cancelHard d a => Sys2Proof.Machine.execCancelHard d a s
  | .tstat d a k => Sys2Proof.Machine.execTstat d a k s
  | .nalloc d a b => Sys2Proof.Machine.execNalloc d a b s
  | .nallocFree d a b => Sys2Proof.Machine.execNallocFree d a b s
  | .ninit a b m => Sys2Proof.Machine.execNinit a b m s
  | .nrd d a k => Sys2Proof.Machine.execNrd d a k s
  | .nvl a b => Sys2Proof.Machine.execNvl a b s
  | .nback a b => Sys2Proof.Machine.execNback a b s
  | .nbackAlt a b => Sys2Proof.Machine.execNbackAlt a b s
  | .nsel d a => Sys2Proof.Machine.execNsel d a s
  | .bcfg d a b => Sys2Proof.Machine.execBcfg d a b s
  | .bsub d a b => Sys2Proof.Machine.execBsub d a b s
  | .bclose d a => Sys2Proof.Machine.execBclose d a s
  | .aconfig d a b => Sys2Proof.Machine.execAconfig d a b s
  | .ktload d a b => Sys2Proof.Machine.execKtload d a b s
  | .ktloadSt d a b => Sys2Proof.Machine.execKtloadSt d a b s
  | .ktlock d a => Sys2Proof.Machine.execKtlock d a s
  | .ktlockUn d a => Sys2Proof.Machine.execKtlockUn d a s
  | .kappend d a => Sys2Proof.Machine.execKappend d a s
  | .aquery a => Sys2Proof.Machine.execAquery a s
  | .aqueryLoose a => Sys2Proof.Machine.execAqueryLoose a s
  | .ksplice d a b => Sys2Proof.Machine.execKsplice d a b s
  | .krepairSel a => Sys2Proof.Machine.execKrepairSel a s
  | .krepairPut a => Sys2Proof.Machine.execKrepairPut a s
  | .krstatSeq d a => Sys2Proof.Machine.execKrstatSeq d a s
  | .krstatSpan d a b => Sys2Proof.Machine.execKrstatSpan d a b s
  | .krstatDelta d a b => Sys2Proof.Machine.execKrstatDelta d a b s
  | .krstatPool d a => Sys2Proof.Machine.execKrstatPool d a s
  | .kalloc d a b => Sys2Proof.Machine.execKalloc d a b s
  | .kfree d a => Sys2Proof.Machine.execKfree d a s
  | .kfreeEnt d a b => Sys2Proof.Machine.execKfreeEnt d a b s
  | .kfork d a => Sys2Proof.Machine.execKfork d a s
  | .kreclaim d a => Sys2Proof.Machine.execKreclaim d a s
  | .csrr d c => Sys2Proof.Machine.execCsrr d c s
  | .csrw d a c => Sys2Proof.Machine.execCsrw d a c s
  | .csrs d a c => Sys2Proof.Machine.execCsrs d a c s
  | .csrc d a c => Sys2Proof.Machine.execCsrc d a c s
  | .vadd d a b k n sc => Sys2Proof.Machine.execVadd d a b k n sc s
  | .vsub d a b k n sc => Sys2Proof.Machine.execVsub d a b k n sc s
  | .vmul d a b k n sc => Sys2Proof.Machine.execVmul d a b k n sc s
  | .vmulh d a b k n => Sys2Proof.Machine.execVmulh d a b k n s
  | .vmin d a b k n => Sys2Proof.Machine.execVmin d a b k n s
  | .vmax d a b k n => Sys2Proof.Machine.execVmax d a b k n s
  | .vand d a b k => Sys2Proof.Machine.execVand d a b k s
  | .vor d a b k => Sys2Proof.Machine.execVor d a b k s
  | .vxor d a b k => Sys2Proof.Machine.execVxor d a b k s
  | .vshl d a b k n sc => Sys2Proof.Machine.execVshl d a b k n sc s
  | .vshr d a b k => Sys2Proof.Machine.execVshr d a b k s
  | .vsar d a b k => Sys2Proof.Machine.execVsar d a b k s
  | .vabs d a k sc => Sys2Proof.Machine.execVabs d a k sc s
  | .vneg d a k sc => Sys2Proof.Machine.execVneg d a k sc s
  | .vsel d a b k => Sys2Proof.Machine.execVsel d a b k s
  | .vfadd d a b k r => Sys2Proof.Machine.execVfadd d a b k r s
  | .vfsub d a b k r => Sys2Proof.Machine.execVfsub d a b k r s
  | .vfmul d a b k r => Sys2Proof.Machine.execVfmul d a b k r s
  | .vfdiv d a b k r => Sys2Proof.Machine.execVfdiv d a b k r s
  | .vfma d a b k r => Sys2Proof.Machine.execVfma d a b k r s
  | .vfsqrt d a k r => Sys2Proof.Machine.execVfsqrt d a k r s
  | .vfmin d a b k => Sys2Proof.Machine.execVfmin d a b k s
  | .vfmax d a b k => Sys2Proof.Machine.execVfmax d a b k s
  | .vfexp2 d a k => Sys2Proof.Machine.execVfexp2 d a k s
  | .vfrcp d a k r => Sys2Proof.Machine.execVfrcp d a k r s
  | .vcmp d a b f n p => Sys2Proof.Machine.execVcmp d a b f n p s
  | .mand d a b => Sys2Proof.Machine.execMand d a b s
  | .mor d a b => Sys2Proof.Machine.execMor d a b s
  | .mnot d a => Sys2Proof.Machine.execMnot d a s
  | .mpopc n a => Sys2Proof.Machine.execMpopc n a s
  | .mfirst n a => Sys2Proof.Machine.execMfirst n a s
  | .vcvt d a sc k t => Sys2Proof.Machine.execVcvt d a sc k t s
  | .vqenc d a => Sys2Proof.Machine.execVqenc d a s
  | .vqdec d a => Sys2Proof.Machine.execVqdec d a s
  | .vunpk3 d a k => Sys2Proof.Machine.execVunpk3 d a k s
  | .vtacc d a b k c => Sys2Proof.Machine.execVtacc d a b k c s
  | .vperm d a b k => Sys2Proof.Machine.execVperm d a b k s
  | .vslide d a b k sc => Sys2Proof.Machine.execVslide d a b k sc s
  | .vbcast d a k sc => Sys2Proof.Machine.execVbcast d a k sc s
  | .viota d k sc => Sys2Proof.Machine.execViota d k sc s
  | .vrsum n a k u => Sys2Proof.Machine.execVrsum n a k u s
  | .vrfsum n a k => Sys2Proof.Machine.execVrfsum n a k s
  | .vrmin n a k x u f => Sys2Proof.Machine.execVrmin n a k x u f s
  | .vrmax n a k x u f => Sys2Proof.Machine.execVrmax n a k x u f s
  | .vld d l k o => Sys2Proof.Machine.execVld d l k o s
  | .vst d l k o => Sys2Proof.Machine.execVst d l k o s
  | .vlds d m l k o => Sys2Proof.Machine.execVlds d m l k o s
  | .vsts d m l k o => Sys2Proof.Machine.execVsts d m l k o s
  | .vgath d a l k o => Sys2Proof.Machine.execVgath d a l k o s
  | .vscat d a l k o => Sys2Proof.Machine.execVscat d a l k o s
  | .vpushc a k p => Sys2Proof.Machine.execVpushc a k p s
  | .vpopf d a p => Sys2Proof.Machine.execVpopf d a p s
  | .vstat n r p => Sys2Proof.Machine.execVstat n r p s
  | .vlkup d a b k t => Sys2Proof.Machine.execVlkup d a b k t s
  | .vrand d k sc => Sys2Proof.Machine.execVrand d k sc s
  | .vrseed d a sc => Sys2Proof.Machine.execVrseed d a sc s
  | .vrskip a sc => Sys2Proof.Machine.execVrskip a sc s
  | .vshape l e => Sys2Proof.Machine.execVshape l e s
  | .vend => Sys2Proof.Machine.execVend s
  | .mwld tok sc t p => Sys2Proof.Machine.execMwld tok sc t p s
  | .mswap tok => Sys2Proof.Machine.execMswap tok s
  | .mstrm tok sc t => Sys2Proof.Machine.execMstrm tok sc t s
  | .mmac tok t r m p => Sys2Proof.Machine.execMmac tok t r m p s
  | .mzero tok t r m k => Sys2Proof.Machine.execMzero tok t r m k s
  | .mdrainMem tok t r m o c e => Sys2Proof.Machine.execMdrainMem tok t r m o c e s
  | .mdrainAcc tok t r m o c e => Sys2Proof.Machine.execMdrainAcc tok t r m o c e s
  | .mdrainStr tok t r m o c e => Sys2Proof.Machine.execMdrainStr tok t r m o c e s
  | .mloop tok n b => Sys2Proof.Machine.execMloop tok n b s
  | .mloopReg tok l b => Sys2Proof.Machine.execMloopReg tok l b s
  | .mwaitb tok l t => Sys2Proof.Machine.execMwaitb tok l t s
  | .mend tok => Sys2Proof.Machine.execMend tok s
  | .xcopy tok sc t l p q => Sys2Proof.Machine.execXcopy tok sc t l p q s
  | .xgath tok b t im n sc => Sys2Proof.Machine.execXgath tok b t im n sc s
  | .xgathC tok b t n sc => Sys2Proof.Machine.execXgathC tok b t n sc s
  | .xscat tok sc b im n k => Sys2Proof.Machine.execXscat tok sc b im n k s
  | .xscatC tok sc b n k => Sys2Proof.Machine.execXscatC tok sc b n k s
  | .xfill tok t p n d => Sys2Proof.Machine.execXfill tok t p n d s
  | .xred tok sc d n g r p => Sys2Proof.Machine.execXred tok sc d n g r p s
  | .xsend tok sc c n p => Sys2Proof.Machine.execXsend tok sc c n p s
  | .xrecv tok t c n p => Sys2Proof.Machine.execXrecv tok t c n p s
  | .xloop tok n b => Sys2Proof.Machine.execXloop tok n b s
  | .xloopReg tok l b => Sys2Proof.Machine.execXloopReg tok l b s
  | .xwaitb tok l t => Sys2Proof.Machine.execXwaitb tok l t s
  | .xend tok => Sys2Proof.Machine.execXend tok s
  | .pauseEnd c => Sys2Proof.Machine.execPauseEnd c s
  | .loopEndCheck c => Sys2Proof.Machine.execLoopEndCheck c s
  | .loadDataReturn c k => Sys2Proof.Machine.execLoadDataReturn c k s
  | .waitaWake c => Sys2Proof.Machine.execWaitaWake c s
  | .barwaitWake c => Sys2Proof.Machine.execBarwaitWake c s
  | .barrierCredit k => Sys2Proof.Machine.execBarrierCredit k s
  | .waitqWake c => Sys2Proof.Machine.execWaitqWake c s
  | .ringmasterSelect die => Sys2Proof.Machine.execRingmasterSelect die s
  | .taskStart c => Sys2Proof.Machine.execTaskStart c s
  | .cancelForward k => Sys2Proof.Machine.execCancelForward k s
  | .cancelReclaim k => Sys2Proof.Machine.execCancelReclaim k s
  | .walkForward k => Sys2Proof.Machine.execWalkForward k s
  | .barkerWindowExpiry die bin => Sys2Proof.Machine.execBarkerWindowExpiry die bin s
  | .barkerLaunch die bin => Sys2Proof.Machine.execBarkerLaunch die bin s
  | .attnCommandRun chip k => Sys2Proof.Machine.execAttnCommandRun chip k s
  | .aqueryWaitEnd chip k => Sys2Proof.Machine.execAqueryWaitEnd chip k s
  | .vectorBlockStart c => Sys2Proof.Machine.execVectorBlockStart c s
  | .mwldLoadDone g arr => Sys2Proof.Machine.execMwldLoadDone g arr s
  | .tileTaskIssue g => Sys2Proof.Machine.execTileTaskIssue g s
  | .xredContribution k => Sys2Proof.Machine.execXredContribution k s
  | .transferProgramStart c out => Sys2Proof.Machine.execTransferProgramStart c out s
  | .circuitUnitSend k => Sys2Proof.Machine.execCircuitUnitSend k s
  | .circuitUnitArrive k => Sys2Proof.Machine.execCircuitUnitArrive k s
  | .storeArrival c k => Sys2Proof.Machine.execStoreArrival c k s
  | .commitMarker c dest => Sys2Proof.Machine.execCommitMarker c dest s
  | .commitFlip c => Sys2Proof.Machine.execCommitFlip c s
  | .flipNotice c slice => Sys2Proof.Machine.execFlipNotice c slice s
  | .fenceMarker c dest => Sys2Proof.Machine.execFenceMarker c dest s
  | .markerAck c dest => Sys2Proof.Machine.execMarkerAck c dest s
  | .homeReadRequest k => Sys2Proof.Machine.execHomeReadRequest k s
  | .homeGrantRequest k => Sys2Proof.Machine.execHomeGrantRequest k s
  | .homeUpdRequest k => Sys2Proof.Machine.execHomeUpdRequest k s
  | .fullMerge line => Sys2Proof.Machine.execFullMerge line s
  | .writeBack k => Sys2Proof.Machine.execWriteBack k s
  | .parkedPartial k => Sys2Proof.Machine.execParkedPartial k s
  | .probeRead k => Sys2Proof.Machine.execProbeRead k s
  | .probeInvalidate k => Sys2Proof.Machine.execProbeInvalidate k s
  | .probeMerge k => Sys2Proof.Machine.execProbeMerge k s
  | .dataReply k => Sys2Proof.Machine.execDataReply k s
  | .shootdown k => Sys2Proof.Machine.execShootdown k s
  | .leaseExpiry k => Sys2Proof.Machine.execLeaseExpiry k s
  | .remoteAccess src ctx addr op => Sys2Proof.Machine.execRemoteAccess src ctx addr op s
  | .remoteCommitBatch src ctx cells => Sys2Proof.Machine.execRemoteCommitBatch src ctx cells s
  | .fabricTimeout c => Sys2Proof.Machine.execFabricTimeout c s
  | .taskEnd c => Sys2Proof.Machine.execTaskEnd c s
  | .instanceStart c => Sys2Proof.Machine.execInstanceStart c s
  | .taskAbort c => Sys2Proof.Machine.execTaskAbort c s
  | .strandPreempt c => Sys2Proof.Machine.execStrandPreempt c s
  | .engineContinuationStop c unit => Sys2Proof.Machine.execEngineContinuationStop c unit s
  | .contextResume launch => Sys2Proof.Machine.execContextResume launch s
  | .recordTake q => Sys2Proof.Machine.execRecordTake q s
  | .gangStart launch => Sys2Proof.Machine.execGangStart launch s
  | .launchComplete q => Sys2Proof.Machine.execLaunchComplete q s
  | .queueSwitchIn q => Sys2Proof.Machine.execQueueSwitchIn q s
  | .queueSwitchOut q => Sys2Proof.Machine.execQueueSwitchOut q s
  | .tailWrite q v => Sys2Proof.Machine.execTailWrite q v s
  | .enqueueWindowWrite q off data => Sys2Proof.Machine.execEnqueueWindowWrite q off data s
  | .fabricRecord src q off data enq => Sys2Proof.Machine.execFabricRecord src q off data enq s
  | .hostRead off n => Sys2Proof.Machine.execHostRead off n s
  | .hostWrite off data => Sys2Proof.Machine.execHostWrite off data s
  | .asqtail v => Sys2Proof.Machine.execAsqtail v s
  | .adminRingBaseWrite acq v => Sys2Proof.Machine.execAdminRingBaseWrite acq v s
  | .registerWrite off v => Sys2Proof.Machine.execRegisterWrite off v s
  | .ctxCreate cmd => Sys2Proof.Machine.execCtxCreate cmd s
  | .ctxDestroy cmd => Sys2Proof.Machine.execCtxDestroy cmd s
  | .qCreate cmd => Sys2Proof.Machine.execQCreate cmd s
  | .qBind cmd => Sys2Proof.Machine.execQBind cmd s
  | .qArm cmd => Sys2Proof.Machine.execQArm cmd s
  | .qDestroy cmd => Sys2Proof.Machine.execQDestroy cmd s
  | .memMap cmd => Sys2Proof.Machine.execMemMap cmd s
  | .memUnmap cmd => Sys2Proof.Machine.execMemUnmap cmd s
  | .codeLoad cmd => Sys2Proof.Machine.execCodeLoad cmd s
  | .kvPool cmd => Sys2Proof.Machine.execKvPool cmd s
  | .kvReserve cmd => Sys2Proof.Machine.execKvReserve cmd s
  | .limits cmd => Sys2Proof.Machine.execLimits cmd s
  | .carousel cmd => Sys2Proof.Machine.execCarousel cmd s
  | .attest cmd => Sys2Proof.Machine.execAttest cmd s
  | .journalRead cmd => Sys2Proof.Machine.execJournalRead cmd s
  | .clusterReset cmd => Sys2Proof.Machine.execClusterReset cmd s
  | .telemetry cmd => Sys2Proof.Machine.execTelemetry cmd s
  | .residencyReport => Sys2Proof.Machine.execResidencyReport s
  | .uncorrectableError u => Sys2Proof.Machine.execUncorrectableError u s
  | .correctedError => Sys2Proof.Machine.execCorrectedError s
  | .coldReset => Sys2Proof.Machine.execColdReset s
  | .warmReset => Sys2Proof.Machine.execWarmReset s
  | .devassign v => Sys2Proof.Machine.execDevassign v s
  | .pStateChange n => Sys2Proof.Machine.execPStateChange n s
  | .powerCapExceeded => Sys2Proof.Machine.execPowerCapExceeded s
  | .powerCapRecover => Sys2Proof.Machine.execPowerCapRecover s
  | .thermalThrottle => Sys2Proof.Machine.execThermalThrottle s
  | .thermalRecover => Sys2Proof.Machine.execThermalRecover s
  | .thermtrip => Sys2Proof.Machine.execThermtrip s
  | .illegalInstruction sec w => Sys2Proof.Machine.execIllegalInstruction sec w s
  | .fetchFault c => Sys2Proof.Machine.execFetchFault c s
  | .probeAnswer k => Sys2Proof.Machine.execProbeAnswer k s
  | .fabricAnswer c r => Sys2Proof.Machine.execFabricAnswer c r s
  | .perstRelease => Sys2Proof.Machine.execPerstRelease s
  | .jtagDebugger c act => Sys2Proof.Machine.execJtagDebugger c act s

end Sys2Proof.Machine
end

