-- ==== Sys2Proof/Machine/Schedule.lean ====
section
/-! DEFINITION. Schedule.lean: what a step is (log 4, log 5): the next word of the sequencer, of the vector engine or of a step program
(R31, R42, R86, R90, R161, R187), or a step of the device; the order in which the model takes them where the spec leaves it open; and the state
in which a given word is the next one. -/

namespace Sys2Proof.Machine

/-! ### The next word of each agent -/

/-- The instruction a word is in a section; one that no table assigns is ILLEGAL_INSTRUCTION (R41). -/
noncomputable def readWord (sec : CodeSection) (w : W32) : Instr :=
  match decode sec w.toNat with
  | .ok i => i
  | .error _ => .illegalInstruction sec w

/-- A word of a block or program: among the blocks it has fetched, those the core keeps, or in memory; with both lists as they are then
(R86). -/
def State.engineWord (s : State) (own : List (W64 × List W32)) (pc : W64) : Option (W32 × List (W64 × List W32) × List (W64 × List W32)) :=
  let c := s.core
  match findBlock own (blk pc) with
  | some ws => some (ws.getD (pc.toNat % 64 / 4) 0, own, c.ecode)
  | none => match s.wordAt c.context (clusterOf c.id) c.ecode pc with
    | some (w, blocks) => some (w, own ++ (blocks.filter fun b => b.1 == blk pc).take 1, blocks)
    | none => none

/-- The sequencer must wait: it is not running, an abort lands first (R357, R361), a pre-emption stops it here (R264), or the clocks
stand. -/
def State.seqHeld (s : State) : Bool :=
  let c := s.core
  let begun := match c.commit with | some r => !r.implied | none => false
  let asleep := match c.seq with | .run => false | .pick h _ => !(s.pickOver c h) | _ => true
  asleep || (c.abortDue && !begun) || (s.preemptDue c && s.atPoint c)

/-- The sequencer's next word, when it can issue (R90): the instruction, and the state in which it executes. -/
noncomputable def State.seqMove (s : State) : Option (Instr × State) :=
  let c := s.core
  if s.seqHeld then none
  else match s.wordAt c.context (clusterOf c.id) c.code c.pc with
    | none => some (.fetchFault c.id, { s with unit := .seq })
    | some (w, blocks) =>
      let i := readWord .sq w
      if c.waitsFor (sourcesOf i) then none else some (i, { s with core := { c with code := blocks }, unit := .seq })

/-- The vector engine's next word. -/
noncomputable def State.vecMove (s : State) : Option (Instr × State) :=
  match s.core.vrun with
  | none => none
  | some v => match s.engineWord v.code v.pc with
    | none => some (.fetchFault s.core.id, { s with unit := .vec })
    | some (w, own, kept) =>
      some (readWord .vec w, { s with core := { s.core with vrun := some { v with code := own }, ecode := kept }, unit := .vec })

/-- The next word of a channel's or an array's program. -/
noncomputable def State.progMove (s : State) (a : Agent) (sec : CodeSection) : Option (Instr × State) :=
  let t := { s with unit := a }
  match t.prog? with
  | none => none
  | some p =>
    if p.stopped then none
    else match t.engineWord p.code p.pc with
      | none => some (.fetchFault s.core.id, t)
      | some (w, own, kept) =>
        let u := t.putProg { p with code := own }
        some (readWord sec w, { u with core := { u.core with ecode := kept } })

/-- What an agent of the current core does next; nothing while the clocks stand (R397). -/
noncomputable def State.moveOf (s : State) (a : Agent) : Option (Instr × State) :=
  if s.power.current = 3 then none
  else match a with
    | .seq => s.seqMove
    | .vec => s.vecMove
    | .xin => s.progMove .xin .xf
    | .xout => s.progMove .xout .xf
    | .arr0 => s.progMove .arr0 .mx
    | .arr1 => s.progMove .arr1 .mx
    | .attn | .tile => none

/-! ### Steps of the device -/

/-- A row of the opcode table without a word that the device or the outside world performs. -/
def isEvent (i : Instr) : Bool :=
  match i with
  | .illegalInstruction _ _ | .fetchFault _ => false
  | i => i.codeSection.isNone

/-- What goes on while the clocks stand in S1 (R397): management and its commands, the host's accesses, resets, power and the links. -/
def awake (i : Instr) : Bool :=
  match i with
  | .pStateChange _ | .devassign _ | .coldReset | .warmReset | .perstRelease | .asqtail _ | .adminRingBaseWrite _ _ | .registerWrite _ _
  | .powerCapExceeded | .powerCapRecover | .thermalThrottle | .thermalRecover | .thermtrip | .tailWrite _ _ | .hostRead _ _ | .hostWrite _ _
  | .enqueueWindowWrite _ _ _ | .ctxCreate _ | .ctxDestroy _ | .qCreate _ | .qBind _ | .qArm _ | .qDestroy _ | .memMap _ | .memUnmap _
  | .codeLoad _ | .kvPool _ | .kvReserve _ | .limits _ | .carousel _ | .attest _ | .journalRead _ | .clusterReset _ | .telemetry _ => true
  | _ => false

/-- The steps of a core that may be due. -/
noncomputable def State.coreEvents (s : State) : List Instr :=
  let x := s.core
  let c := x.id
  let g := clusterOf c
  let dests := (match x.commit with | some r => r.dests | none => []) ++ (match x.fence with | some f => f.dests | none => [])
  [Instr.taskAbort c, Instr.strandPreempt c, Instr.pauseEnd c, Instr.loopEndCheck c, Instr.waitaWake c, Instr.barwaitWake c, Instr.waitqWake c, Instr.taskStart c,
   Instr.vectorBlockStart c, Instr.transferProgramStart c false, Instr.transferProgramStart c true, Instr.commitFlip c, Instr.fabricTimeout c, Instr.taskEnd c,
   Instr.instanceStart c]
  ++ ((List.range x.loads.length).map fun k => Instr.loadDataReturn c k)
  ++ ((List.range x.stores.length).map fun k => Instr.storeArrival c k)
  ++ (dests.flatMap fun d => [Instr.commitMarker c d, Instr.fenceMarker c d, Instr.markerAck c d])
  ++ ((List.range 4).map fun k => Instr.engineContinuationStop c k)
  ++ [Instr.mwldLoadDone g 0, Instr.mwldLoadDone g 1, Instr.tileTaskIssue g]

/-- The step that a message of the protocol makes. -/
noncomputable def Msg.event (m : Msg) (k : Nat) : Instr :=
  match m with
  | .readReq _ _ => Instr.homeReadRequest k
  | .grantReq _ _ => Instr.homeGrantRequest k
  | .updReq _ _ _ => Instr.homeUpdRequest k
  | .writeBack _ _ => Instr.writeBack k
  | .parked _ _ _ => Instr.parkedPartial k
  | .probe _ _ .read _ => Instr.probeRead k
  | .probe _ _ .invalidate _ => Instr.probeInvalidate k
  | .probe _ _ .merge _ => Instr.probeMerge k
  | .reply _ _ _ _ | .wbAck _ _ => Instr.dataReply k
  | .answer _ _ _ _ _ => Instr.probeAnswer k
  | .shootdown _ _ => Instr.shootdown k

/-- The row that serves a command. -/
noncomputable def adminRow (c : AdminCmd) : Instr :=
  match c.opc.toNat with
  | 0x02 => .ctxDestroy c
  | 0x10 => .qCreate c
  | 0x11 => .qBind c
  | 0x12 => .qArm c
  | 0x13 => .qDestroy c
  | 0x20 => .memMap c
  | 0x21 => .memUnmap c
  | 0x30 => .codeLoad c
  | 0x40 => .kvPool c
  | 0x41 => .kvReserve c
  | 0x50 => .limits c
  | 0x51 => .carousel c
  | 0x60 => .attest c
  | 0x70 => .journalRead c
  | 0x80 => .clusterReset c
  | 0x90 => .telemetry c
  | _ => .ctxCreate c

/-- The command that Ralzer serves next, if there is one (R392). -/
noncomputable def State.adminEvents (s : State) : List Instr :=
  let a := s.admin
  match a.pending with
  | some (c, _) => [adminRow c]
  | none =>
    if !a.ready || a.asqtail ≤ a.served then []
    else [adminRow (cmdOf (cellBytes s.mem (ringBase a.asqbase + 64 * (a.served % 2 ^ ringLog a.asqbase)) 64))]

/-- The steps of the search blocks, the chiplets and the launch and queue engines that may be due. -/
noncomputable def State.engineEvents (s : State) : List Instr :=
  let bins := fun (d : Nat) => (s.die d).bins.flatMap fun b => [Instr.barkerWindowExpiry d b.1, Instr.barkerLaunch d b.1]
  let cmds := fun (d : Nat) => (List.range (s.chip d).cmds.length).flatMap fun k => [Instr.aqueryWaitEnd d k, Instr.attnCommandRun d k]
  [Instr.ringmasterSelect 0, Instr.ringmasterSelect 1]
  ++ ((List.range s.cancels.length).map fun k => Instr.cancelForward k)
  ++ ((List.range (s.die0.reclaims.length + s.die1.reclaims.length)).map fun k => Instr.cancelReclaim k)
  ++ ((List.range s.walks.length).map fun k => Instr.walkForward k)
  ++ bins 0 ++ bins 1 ++ cmds 0 ++ cmds 1
  ++ (s.launches.flatMap fun l => [Instr.contextResume l.id, Instr.gangStart l.id])
  ++ (s.queues.flatMap fun q => [Instr.launchComplete q.id, Instr.recordTake q.id, Instr.queueSwitchIn q.id, Instr.queueSwitchOut q.id])

/-- The steps of the homes, the fabric, the Carousel and the module that may be due. -/
noncomputable def State.homeEvents (s : State) : List Instr :=
  ((List.range s.credits.length).map fun k => Instr.barrierCredit k)
  ++ (s.notices.map fun n => Instr.flipNotice n.core n.slice)
  ++ (s.msgs.zipIdx.map fun m => m.1.event m.2)
  ++ ((s.dir.filter fun d => d.hs == .mrg).map fun d => Instr.fullMerge d.line)
  ++ ((List.range s.xreds.length).map fun k => Instr.xredContribution k)
  ++ ((List.range s.units.length).flatMap fun k => [Instr.circuitUnitSend k, Instr.circuitUnitArrive k])
  ++ ((List.range s.allLeases.length).map fun k => Instr.leaseExpiry k)
  ++ s.adminEvents ++ [.residencyReport, Instr.pStateChange (if s.power.current = 3 then 0 else s.power.target)]

/-! ### Turns -/

/-- The clocks of the cores and the fabric stand (R397). -/
def State.asleep (s : State) : Bool := s.power.current == 3

/-- A core cycle passes. -/
def State.ticked (s : State) : State := if s.asleep then s else { s with clock := s.clock + 2 }

/-- The next state of an outcome, when there is one. -/
def nextOf : Out → Option State
  | .next t => some t
  | .fault _ => none
  | .refused _ => none

/-- Where an agent's next word comes from: the blocks it finds there, the block, and a state that keeps a block for it (R86). -/
def State.fetchPlace (s : State) (a : Agent) : List (W64 × List W32) × W64 × (State → List W32 → State) :=
  let c := s.core
  let keepE := fun (b : W64) (t : State) (ws : List W32) => { t with core := { t.core with ecode := t.core.ecode ++ [(b, ws)] } }
  let ofProg := fun (p : Option ProgRun) => match p with
    | some p => (p.code ++ c.ecode, blk p.pc, keepE (blk p.pc))
    | none => (c.ecode, 0, keepE 0)
  match a with
  | .seq => (c.code, blk c.pc, fun t ws => { t with core := { t.core with code := t.core.code ++ [(blk c.pc, ws)] } })
  | .vec => match c.vrun with
    | some v => (v.code ++ c.ecode, blk v.pc, keepE (blk v.pc))
    | none => (c.ecode, 0, keepE 0)
  | .xin | .xout | .arr0 | .arr1 | .attn | .tile => ofProg { s with unit := a }.prog?

/-- An agent of the current core makes its next move, if it has one (R86, R90): the block of its word is fetched first. -/
noncomputable def State.agentStep (s : State) (a : Agent) : Option State :=
  match s.moveOf a with
  | none => none
  | some _ =>
    let f := s.fetchPlace a
    nextOf (s.fetchFirst a f.1 f.2.1 f.2.2 (.next s) fun t =>
      match t.moveOf a with
      | some m => exec m.1 m.2
      | none => .next t)

/-- A step of the device happens, if it is due: one that is not changes nothing. -/
noncomputable def State.eventStep (s : State) (i : Instr) : Option State :=
  if !(isEvent i) || (s.asleep && !(awake i)) then none else (nextOf (exec i s)).filter fun t => t ≠ s

/-- One of several things of a cycle happens, if it can. -/
noncomputable def State.partStep (s : State) : Part → Option State
  | .event i => s.eventStep i
  | .message m => (s.msgs.findIdx? (· == m)).bind fun k => s.eventStep (m.event k)
  | .strand c a => ((s.focus c).agentStep a).map fun t => t.focus s.core.id

/-- The place of a part in its cycle: at a home, east chain, west chain, UCIe (R280), its own strip first (log 58); at the search blocks of a die, its own
clusters by ascending core, the other die, class A from other devices (R321); then the Barker's windows and launches by ascending bin (R329,
R330), and the Ringmaster's selection last. -/
def Part.key (die : Nat) : Part → Nat
  | .message m => pathOf (4 * m.route.2) (lineHome m.line)
  | .event (.commitMarker c d) => pathOf c d
  | .event (.fenceMarker c d) => pathOf c d
  | .strand c _ => if dieOf c = die then 4 + c else 2 ^ 12 + c
  | .event (.barkerWindowExpiry _ b) => 2 ^ 20 + b
  | .event (.barkerLaunch _ b) => 2 ^ 40 + b
  | .event (.ringmasterSelect _) => 2 ^ 60
  | .event (.cancelForward _) => 2 ^ 13
  | .event (.walkForward _) => 2 ^ 13
  | .event _ => 2 ^ 14

/-- A part behind those of its place and before those of later places. -/
def insertPart (die : Nat) (p : Part) : List Part → List Part
  | [] => [p]
  | q :: t => if p.key die ≤ q.key die then p :: q :: t else q :: insertPart die p t

/-- The parts of a cycle in their order; those of one place stay as they are given. -/
def inOrder (die : Nat) (ps : List Part) : List Part := ps.foldr (insertPart die) []

/-- A turn, if what it names can happen. -/
noncomputable def State.turn (s : State) (t : Turn) : Option State :=
  match t with
  | .agent a => (s.agentStep a).map State.ticked
  | .event i => (s.eventStep i).map State.ticked
  | .together die ps => some ((inOrder die ps).foldl (fun u p => (u.partStep p).getD u) s).ticked
  | .select n => if n < 1024 then some (s.focus n) else none
  | .tick n => if s.asleep then none else some { s with clock := s.clock + n }
  | .pressure l =>
    let d := s.dirLine l
    if d.hs = .upd && !d.parks.isEmpty && d.await.isEmpty then some (s.startMerge d) else none
  | .bringUp => s.bringUp.map State.ticked
  | .dropCode => if s.core.micro = 0 then some (s.upd { s.core with code := [], ecode := [] }) else none

/-- The core that comes after the current one, in ascending order and again from the lowest. -/
def State.nextCore (s : State) : Nat :=
  match s.others.find? fun c => decide (s.core.id < c.id), s.others with
  | some c, _ => c.id
  | none, c :: _ => c.id
  | none, [] => s.core.id

/-- The turns the model considers when nothing is scheduled. -/
noncomputable def State.candidates (s : State) : List Turn :=
  [Turn.bringUp, Turn.agent .seq, Turn.agent .vec, Turn.agent .xin, Turn.agent .xout, Turn.agent .arr0, Turn.agent .arr1]
  ++ (s.coreEvents ++ s.engineEvents ++ s.homeEvents).map Turn.event

/-- The first of some turns that can happen, with the number of those behind it. -/
noncomputable def State.firstTurn (s : State) : List Turn → Option (State × Nat)
  | [] => none
  | t :: rest => match s.turn t with
    | some o => some (o, rest.length)
    | none => s.firstTurn rest

/-- With nothing scheduled, the candidates of a core have their turns from the last to the first, each at most once; then a core cycle
passes and the next core has its own (R265). A running place of 0 stands for the start. -/
noncomputable def State.defaultTurn (s : State) : State :=
  let l := s.candidates
  match s.firstTurn (if s.rr = 0 then l else l.take s.rr).reverse with
  | some (t, n + 1) => { t with rr := n + 1 }
  | some (t, 0) => { t.focus t.nextCore with rr := 0 }
  | none => { s.ticked.focus s.nextCore with rr := 0 }

/-- A step of the machine. Without core power nothing happens but power-good (R398); what cannot happen changes nothing. -/
noncomputable def State.advance (s : State) : Out :=
  match s.schedule with
  | [] => if s.power.off then .fault .powerRemoved else .next s.defaultTurn
  | t :: rest =>
    let u := { s with schedule := rest }
    if s.power.off && t != .event .coldReset then .fault .powerRemoved else .next ((u.turn t).getD u)

/-! ### A word placed where it is fetched next (log 18) -/

/-- The page that holds the word: its virtual and its physical address. -/
def codePage : Nat := 0x5000

/-- Tables at 0x1000..0x4FFF that map the page for reading and fetching, and the word in it. -/
def codeMem (m : List Host.Cell) (w : Nat) : List Host.Cell :=
  cellPutBytes (cellPutBytes (cellPutBytes (cellPutBytes (cellPutBytes m 0x1000 (leBytes 8 0x2001)) 0x2000 (leBytes 8 0x3001))
    0x3000 (leBytes 8 0x4001)) 0x4028 (leBytes 8 0x5017)) codePage (leBytes 4 w)

/-- A context whose local addresses those tables map. -/
def codeContext : Context :=
  { id := 1, rootL := 0x1000, rootG := 0x6000, tvec := 0, rngcfg := 0, stackBytes := 4096, stackBase := 0x100000, spillBytes := 0
    xrbase := 0, images := [], nextHandle := 1, limTrees := 4096, limClusters := 256, limSegs := 2 ^ 20, limNodes := 2 ^ 20, params := [] }

/-- A command that captured every loop register. -/
def codeCmd (c : Core) : Cmd :=
  { num := 0, addr := BitVec.ofNat 64 codePage, mask := BitVec.allOnes 16, regs := c.l, rm := c.rm, tag := [], started := true }

/-- A program that stands at the word. -/
def codeProg (c : Core) : ProgRun :=
  { cmd := codeCmd c, core := c.id, start := BitVec.ofNat 64 codePage, pc := BitVec.ofNat 64 codePage, regs := c.l, loops := []
    stage := 0, point := true, done := 0, buf := [], idx := none, streams := [], up := none, down := none, code := [], waits := none
    fault := none, circuit := false, stopped := false }

/-- The state with a word of the opcode table as the next one: of the sequencer, or of the engine of its section, whose turn it is. -/
noncomputable def State.placeWord (s : State) (nbits w : Nat) : State :=
  let v := w % 2 ^ nbits
  let c := { s.core with ctx := some 1, code := [], ecode := [] }
  let t := { s with mem := codeMem s.mem v, contexts := [codeContext] }
  match tableSection v with
  | .sq => { t with
      core := { c with pc := BitVec.ofNat 64 codePage, seq := .run, reach := .along, micro := 0 }, schedule := [.agent .seq] }
  | .vec => { t with
      core := { c with
        vq := [codeCmd c]
        vrun := some { cmd := codeCmd c, start := BitVec.ofNat 64 codePage, pc := BitVec.ofNat 64 codePage, flags := 0, seen := [], code := [] } }
      schedule := [.agent .vec] }
  | .mx =>
    let g := clusterOf c.id
    let r : TileRec := { core := c.id, cmd := codeCmd c, ctx := 1, words := [1, 0, 0, 0, 0, 0, 0, 0], waited := false }
    { t.putCluster g { t.cluster g with arr0 := { MatArray.reset with run := some (codeProg c), rcd := some r } } with
      core := { c with mq := [codeCmd c] }, schedule := [.agent .arr0] }
  | .xf =>
    if channelOf (BitVec.ofNat 32 v) = some true then { t with
      core := { c with xoutq := [codeCmd c], xout := some (codeProg c) }, schedule := [.agent .xout] }
    else { t with core := { c with xinq := [codeCmd c], xin := some (codeProg c) }, schedule := [.agent .xin] }

end Sys2Proof.Machine
end

