-- ==== Sys2Proof/Machine/Step.lean ====
section
/-! DEFINITION. Step.lean: one step of the machine, and the state in which a given word is the next one. -/

namespace Sys2Proof.Machine

/-- One step of the machine. -/
noncomputable def step (s : State) : Host.Outcome State Fault Refusal := s.advance

/-- The state with a word of the opcode table placed where step fetches its next instruction. -/
noncomputable def State.withFetchWord (s : State) (nbits w : Nat) : State := s.placeWord nbits w

end Sys2Proof.Machine
end

