-- ==== Sys2Proof/Safety.lean ====
section
/-! DEFINITION. Safety.lean: what counts as a safe run, and the conditions on states that statements name. -/

namespace Sys2Proof.Machine

/-- A list kept by key: keys strictly rising. -/
def risingKeys {α : Type} (l : List (Nat × α)) : Prop := l.Pairwise fun a b => a.1 < b.1

/-- Memory has its one canonical form: committed memory, and the page bytes of both chiplets. -/
def MemWf (s : State) : Prop :=
  Memory.wf s.mem = true ∧ Memory.wf s.chip0.bytes = true ∧ Memory.wf s.chip1.bytes = true

/-- A step goes on: neither the power-off fault nor a refusal. -/
def Goes (o : Host.Outcome State Fault Refusal) : Prop := ∃ t, o = .next t

/-- A run of n steps is safe when each of them goes on. -/
def SafeRun : Nat → State → Prop
  | 0, _ => True
  | n + 1, s => ∃ t, step s = .next t ∧ SafeRun n t

end Sys2Proof.Machine
end

