-- ==== Sys2Proof/Certificates/Slice0/Obligations.lean ====
section
/-! DEFINITION. Obligations.lean: the statements for the provers, and the tables of the spec that they are stated in. -/

namespace Sys2Proof.Rules

open Sys2Proof.Machine

/-! ### Words the sequencer executes -/

/-- A register as an i64. -/
abbrev iv (s : State) (r : Reg) : Int := (s.core.getG r).toInt

/-- A register as an n64. -/
abbrev nv (s : State) (r : Reg) : Nat := (s.core.getG r).toNat

/-- The outcome of a word that writes the low 64 bits of a number to gd, and after it the next word stands at pc: nothing else changes. -/
def puts (s : State) (d : Reg) (z : Int) : Host.Outcome State Fault Refusal :=
  .next (s.upd ((s.core.setG d (BitVec.ofInt 64 z)).next))

/-- 1 or 0. -/
def one (p : Prop) [Decidable p] : Int := if p then 1 else 0

/-- An immediate of n bits, sign-extended, as a number. -/
def simm {n : Nat} (i : BitVec n) : Int := i.toInt

/-- The number of leading zero bits of an n64, 0..64. -/
def clz (x : Nat) : Nat := ((List.range 64).find? fun k => decide (2 ^ (63 - k) ≤ x)).getD 64

/-- The number of trailing zero bits of an n64, 0..64. -/
def ctz (x : Nat) : Nat := ((List.range 64).find? fun k => decide (x % 2 ^ (k + 1) ≠ 0)).getD 64

/-- The number of 1 bits of an n64. -/
def ones (x : Nat) : Nat := ((List.range 64).map fun k => x / 2 ^ k % 2).sum

/-- EXT (R60): len bits at p, as an unsigned or a signed number. -/
def field (x : Nat) (signed : Bool) (p len : Nat) : Int :=
  let f := x / 2 ^ p % 2 ^ len
  if signed && decide (2 ^ (len - 1) ≤ f) then (f : Int) - 2 ^ len else f

/-- INS (R60): the low len bits of y replace len bits at p of x. -/
def insert (x y p len : Nat) : Int :=
  let hole := x / 2 ^ p % 2 ^ len * 2 ^ p
  (x : Int) - hole + (y % 2 ^ len * 2 ^ p : Nat)

/-- The field that EXT and INS take from a register (R60): position, and length cut at bit 63. -/
def fieldPos (b : Nat) : Nat := b / 2 ^ 6 % 2 ^ 6
def fieldLen (b : Nat) : Nat := min (b % 2 ^ 6 + 1) (64 - fieldPos b)

end Sys2Proof.Rules

open Sys2Proof Sys2Proof.Machine Sys2Proof.Rules

/-- Going on to the next word (R42). The step past a word moves pc by 4, whether the next word stands in the same block or the next one; it
runs on, unless it leaves the innermost loop's end block past its sixteenth word, when the end check of R71 is due; nothing else of the
strand changes. -/
def Obligations.NextWordAdvancesPc : Prop :=
  ∀ c : Core,
    c.next.pc = c.pc + 4 ∧
    (c.next.seq = .endCheck ∨ c.next.seq = .run) ∧
    (c.next.seq = .endCheck ↔ (c.pc + 4).toNat % 64 = 0 ∧ ∃ e rest, c.loops = e :: rest ∧ e.endblk = (c.pc >>> 6) <<< 6) ∧
    { c.next with pc := c.pc, seq := c.seq, reach := c.reach, micro := c.micro } = c

/-- Sequencer registers and g0 (R56). A read of g0 yields 0 and a write to g0 changes nothing; a write to any other register is what the
next read of it yields, every other register reads as before, and nothing else of the strand changes, but that a load on its way to that
register no longer writes it when it returns (log 55). -/
def Obligations.RegisterZeroAndWrites : Prop :=
  (∀ c : Core, c.getG 0 = 0) ∧
  (∀ (c : Core) (x : W64), c.setG 0 x = c) ∧
  (∀ (c : Core) (r : Reg) (x : W64), r ≠ 0 → (c.setG r x).getG r = x) ∧
  (∀ (c : Core) (r k : Reg) (x : W64), k ≠ r → (c.setG r x).getG k = c.getG k) ∧
  (∀ (c : Core) (r : Reg) (x : W64), { c.setG r x with g := c.g, loads := c.loads } = c) ∧
  (∀ (c : Core) (r : Reg) (x : W64), r ≠ 0 →
    (c.setG r x).loads = c.loads.map fun p => if p.gd = r then { p with gd := 0 } else p)

/-- Integer and bit operations write the result of R58, R60 and R61 (R56, R58, R59, R60, R61). Every integer and bit operation in its
register form (R58, R59), in every state, writes the low 64 bits of the number the table gives to gd (nothing for g0) from its operands as
they stood before, goes on to the next word, and changes nothing else: no flag, no trap, no memory. Every integer and bit operation in its
immediate form, in every state, writes the low 64 bits of the number that R58, R60 and R61 give to gd, with the constant sign-extended or
zero-extended as R58 says, goes on to the next word, and changes nothing else; EXT and INS for every field within 64 bits. -/
def Obligations.IntegerForms : Prop :=
  (∀ (s : State) (d a b c : Reg),
     exec (.add d a b) s = puts s d (iv s a + iv s b) ∧
     exec (.sub d a b) s = puts s d (iv s a - iv s b) ∧
     exec (.mul d a b) s = puts s d (iv s a * iv s b) ∧
     exec (.mulh d a b) s = puts s d (iv s a * iv s b / 2 ^ 64) ∧
     exec (.div d a b) s = puts s d (if iv s b = 0 then -1 else (iv s a).tdiv (iv s b)) ∧
     exec (.divn d a b) s = puts s d (if nv s b = 0 then -1 else (nv s a / nv s b : Nat)) ∧
     exec (.rem d a b) s = puts s d (if iv s b = 0 then iv s a else (iv s a).tmod (iv s b)) ∧
     exec (.remn d a b) s = puts s d (if nv s b = 0 then nv s a else (nv s a % nv s b : Nat)) ∧
     exec (.and d a b) s = puts s d (nv s a &&& nv s b : Nat) ∧
     exec (.or d a b) s = puts s d (nv s a ||| nv s b : Nat) ∧
     exec (.xor d a b) s = puts s d (nv s a ^^^ nv s b : Nat) ∧
     exec (.andn d a b) s = puts s d (nv s a &&& (2 ^ 64 - 1 - nv s b) : Nat) ∧
     exec (.shl d a b) s = puts s d (nv s a * 2 ^ (nv s b % 64) : Nat) ∧
     exec (.shr d a b) s = puts s d (nv s a / 2 ^ (nv s b % 64) : Nat) ∧
     exec (.sar d a b) s = puts s d (iv s a / 2 ^ (nv s b % 64)) ∧
     exec (.min d a b) s = puts s d (min (iv s a) (iv s b)) ∧
     exec (.max d a b) s = puts s d (max (iv s a) (iv s b)) ∧
     exec (.minn d a b) s = puts s d (min (nv s a) (nv s b) : Nat) ∧
     exec (.maxn d a b) s = puts s d (max (nv s a) (nv s b) : Nat) ∧
     exec (.slt d a b) s = puts s d (one (iv s a < iv s b)) ∧
     exec (.sltn d a b) s = puts s d (one (nv s a < nv s b)) ∧
     exec (.seq d a b) s = puts s d (one (nv s a = nv s b)) ∧
     exec (.sel d a b c) s = puts s d (if nv s c ≠ 0 then iv s a else iv s b) ∧
     exec (.clz d a) s = puts s d (clz (nv s a)) ∧
     exec (.ctz d a) s = puts s d (ctz (nv s a)) ∧
     exec (.popc d a) s = puts s d (ones (nv s a)) ∧
     exec (.ext d a b) s = puts s d (field (nv s a) (nv s b / 2 ^ 12 % 2 = 1) (fieldPos (nv s b)) (fieldLen (nv s b))) ∧
     exec (.ins d a b) s = puts s d (insert (nv s d) (nv s a) (fieldPos (nv s b)) (fieldLen (nv s b)))) ∧
  (∀ (s : State) (d a : Reg),
     (∀ i : BitVec 16,
       exec (.addImm d a i) s = puts s d (iv s a + simm i) ∧
       exec (.mulImm d a i) s = puts s d (iv s a * simm i) ∧
       exec (.andImm d a i) s = puts s d (nv s a &&& i.toNat : Nat) ∧
       exec (.orImm d a i) s = puts s d (nv s a ||| i.toNat : Nat) ∧
       exec (.xorImm d a i) s = puts s d (nv s a ^^^ i.toNat : Nat) ∧
       exec (.sltImm d a i) s = puts s d (one (iv s a < simm i)) ∧
       exec (.sltnImm d a i) s = puts s d (one (nv s a < i.toNat)) ∧
       exec (.seqImm d a i) s = puts s d (one (iv s a = simm i))) ∧
     (∀ i : BitVec 14,
       exec (.minImm d a i) s = puts s d (min (iv s a) (simm i)) ∧
       exec (.maxImm d a i) s = puts s d (max (iv s a) (simm i)) ∧
       exec (.minnImm d a i) s = puts s d (min (nv s a) i.toNat : Nat) ∧
       exec (.maxnImm d a i) s = puts s d (max (nv s a) i.toNat : Nat)) ∧
     (∀ k : Fin 64,
       exec (.shlImm d a k) s = puts s d (nv s a * 2 ^ k.val : Nat) ∧
       exec (.shrImm d a k) s = puts s d (nv s a / 2 ^ k.val : Nat) ∧
       exec (.sarImm d a k) s = puts s d (iv s a / 2 ^ k.val)) ∧
     (∀ p l : Fin 64, p.val + l.val + 1 ≤ 64 →
       (∀ g : Bool, exec (.extImm d a g p l) s = puts s d (field (nv s a) g p.val (l.val + 1))) ∧
       exec (.insImm d a p l) s = puts s d (insert (nv s d) (nv s a) p.val (l.val + 1))) ∧
     (∀ (lane : Fin 4) (i : BitVec 16),
       exec (.lim d false lane i) s = puts s d (i.toNat * 2 ^ (16 * lane.val) : Nat) ∧
       exec (.lim d true lane i) s = puts s d (insert (nv s d) i.toNat (16 * lane.val) 16)))

namespace Sys2Proof.Rules

open Sys2Proof.Machine

/-- The outcome of a scalar result with its flags: the flags join FCTL, the code goes to gd zero-extended, the next word stands at pc. -/
def putsF (s : State) (d : Reg) (r : Nat × Flags) : Host.Outcome State Fault Refusal :=
  .next (s.upd (((s.core.addFlags r.2).setG d (BitVec.ofNat 64 r.1)).next))

/-- The outcome of a result rounded under SR (R62, R148): it takes one 16-bit fraction of generator stream 3 when it is rounded. -/
def putsDrawn (s : State) (d : Reg) (f : Fmt) (op : Nat → Nat × Flags) (exact : Nat × Flags) : Host.Outcome State Fault Refusal :=
  if drawsFor f exact then .next (s.upd (s.core.draw16.2.putResult d (op s.core.draw16.1)))
  else putsF s d (op 0)

/-- An n-bit number as signed. -/
def asSigned (n v : Nat) : Int := if v < 2 ^ (n - 1) then v else (v : Int) - 2 ^ n

/-- The bias of a format (R139). -/
def biasOf (f : Fmt) : ℤ := 2 ^ (f.eb - 1) - 1

/-- The real number that a code spells (R139); none for an infinity or a NaN. -/
noncomputable def codeVal (f : Fmt) (c : Nat) : Option ℝ :=
  let s := c / 2 ^ (f.eb + f.mb) % 2
  let e := c / 2 ^ f.mb % 2 ^ f.eb
  let m := c % 2 ^ f.mb
  if e = 2 ^ f.eb - 1 ∧ (f.ocp = false ∨ m = 2 ^ f.mb - 1) then none
  else some ((-1) ^ s *
    (if e = 0 then (m : ℝ) / 2 ^ f.mb * 2 ^ (1 - biasOf f) else (1 + (m : ℝ) / 2 ^ f.mb) * 2 ^ ((e : ℤ) - biasOf f)))

/-- The largest finite value and the smallest normal one (R139). -/
noncomputable def maxVal (f : Fmt) : ℝ := if f.ocp then 448 else (2 - 2 ^ (-(f.mb : ℤ))) * 2 ^ biasOf f
noncomputable def minNormal (f : Fmt) : ℝ := 2 ^ (1 - biasOf f)

/-- The weight of the least significant bit at x (R148): the subnormal weight below the normal range, or as if the exponent range had no
lower end (R150). -/
noncomputable def ulpAt (f : Fmt) (unbounded : Bool) (x : ℝ) : ℝ :=
  2 ^ ((if unbounded then Int.log 2 |x| else max (Int.log 2 |x|) (1 - biasOf f)) - f.mb)

/-- The multiple y of u that a mode picks for x (R147), under SR with the fraction k (R148). -/
def picks (mode : RMode) (k : Nat) (u x y : ℝ) : Prop :=
  ∃ n : ℤ, y = n * u ∧ match mode with
    | .rne => |x - y| ≤ u / 2 ∧ (|x - y| = u / 2 → n % 2 = 0)
    | .rtz => 0 ≤ x * y ∧ |y| ≤ |x| ∧ |x| < |y| + u
    | .rdn => y ≤ x ∧ x < y + u
    | .rup => x ≤ y ∧ y < x + u
    | .sr => 0 ≤ x * y ∧ |y| = ⌊(⌊|x| / (u / 2 ^ 16)⌋ + (k : ℝ)) * (u / 2 ^ 16) / u⌋ * u

/-- A code and flags are the exact nonzero x rounded into a format (R147, R148, R150): the value picked, with the sign of x; NX when it is not
x, UF when it is also tiny as if the exponent range had no lower end; beyond the largest finite value OF, NX, and the mode's bound. -/
def rounds (f : Fmt) (mode : RMode) (k : Nat) (x : ℝ) (r : Nat × Flags) : Prop :=
  ∃ y z : ℝ, picks mode k (ulpAt f false x) x y ∧ picks mode k (ulpAt f true x) x z ∧
    (|y| ≤ maxVal f → codeVal f r.1 = some y ∧ r.1 < 2 ^ f.width ∧ (2 ^ (f.eb + f.mb) ≤ r.1 ↔ x < 0) ∧
      (y = x → r.2 = 0) ∧ (y ≠ x → |z| < minNormal f → r.2 = Flags.uf ||| Flags.nx) ∧ (y ≠ x → minNormal f ≤ |z| → r.2 = Flags.nx)) ∧
    (maxVal f < |y| → r.2 = Flags.of ||| Flags.nx ∧
      let sign := if x < 0 then 2 ^ (f.eb + f.mb) else 0
      let toInf := f.ocp = false ∧ (mode = .rne ∨ mode = .sr ∨ mode = .rup ∧ 0 < x ∨ mode = .rdn ∧ x < 0)
      (toInf → r.1 = (2 ^ f.eb - 1) * 2 ^ f.mb + sign) ∧
      (¬ toInf → codeVal f r.1 = some (if x < 0 then -(maxVal f) else maxVal f)))

/-- A NaN's code, signalling or not, in a format that has infinities (R139, R140). -/
def isNaNCode (f : Fmt) (c : Nat) : Prop := c / 2 ^ f.mb % 2 ^ f.eb = 2 ^ f.eb - 1 ∧ c % 2 ^ f.mb ≠ 0
def isSNaN (f : Fmt) (c : Nat) : Prop := isNaNCode f c ∧ c % 2 ^ f.mb < 2 ^ (f.mb - 1)

/-- The NaN that an operation writes, and the infinity of a sign, of such a format (R139, R140). -/
def theNaN (f : Fmt) : Nat := (2 ^ f.eb - 1) * 2 ^ f.mb + 2 ^ (f.mb - 1)
def infinity (f : Fmt) (neg : Bool) : Nat := (2 ^ f.eb - 1) * 2 ^ f.mb + if neg then 2 ^ (f.eb + f.mb) else 0

/-- The value of a finite code in units of 2^u. -/
def inUnits (neg : Bool) (m : Nat) (e u : Int) : Int := (if neg then -1 else 1) * (m * 2 ^ (e - u).toNat : Nat)

end Sys2Proof.Rules

/-- FKEY orders f32 values (R66). FKEY writes, zero-extended, key 0 for a NaN, the code's complement for a negative code and the code with
bit 31 set otherwise; for two f32 codes that are no NaN, a lesser value (in units of 2^-149, an infinity beyond every finite value) has a
lesser key, and it sets no flag. -/
def Obligations.FkeyOrdersValues : Prop :=
  (∀ (s : State) (d a : Reg), ∃ k : Nat, exec (.fkey d a) s = puts s d k ∧
    (∀ b : BitVec 32, b.toNat = nv s a % 2 ^ 32 →
      k = if 0x7F800000 < b.toNat % 2 ^ 31 then 0 else if b.msb then (~~~b).toNat else (b ||| 0x80000000).toNat)) ∧
  (∀ (x y : Nat) (nx ny : Bool) (mx my : Nat) (ex ey : Int), x < 2 ^ 32 → y < 2 ^ 32 →
    Fmt.f32.decode x = .fin nx mx ex → Fmt.f32.decode y = .fin ny my ey →
    inUnits nx mx ex (-149) < inUnits ny my ey (-149) → fkey x < fkey y) ∧
  (∀ (x y : Nat) (nx : Bool) (mx : Nat) (ex : Int), x < 2 ^ 32 → y < 2 ^ 32 → Fmt.f32.decode x = .fin nx mx ex →
    (Fmt.f32.decode y = .inf false → fkey x < fkey y) ∧ (Fmt.f32.decode y = .inf true → fkey y < fkey x)) ∧
  fkey 0x80000000 = 0x7FFFFFFF ∧ fkey 0 = 0x80000000

/-- Scalar floating point: results, comparisons, stochastic draws and sticky flags (R62, R63, R64, R65, R66, R148, R45). In every state and
under every rounding mode but SR, FADD, FSUB, FMUL, FDIV, FSQRT, FFMA, FMIN, FMAX, FCMP and FCVT write the rounded result of their type's
operation on the low bits of their operands zero-extended to gd (an i32 sign-extended), join its flags to FCTL and go on, and nothing else
changes; FKEY writes its key and touches no flag. Under SR with no vector block issued and not ended, a rounded scalar operation completes
with one 16-bit fraction of generator stream 3 if its result is rounded (log 13) and none otherwise; with a block outstanding it waits and
changes nothing. Rounded results, for f32, bf16 and f16: on finite codes, FADD, FSUB, FMUL, FDIV, FSQRT and FFMA give the exact real result
rounded as R147 and R148 say, with the flags of R150; an exact 0 gives a zero and no flag, x ÷ 0 a signed infinity and no flag, 0 ÷ 0, ∞ − ∞,
0 × ∞ and the root of a negative number NaN with IV; a NaN operand gives the type's NaN, with IV when one is signalling. FMIN and
FMAX give the lesser or greater value, −0 below +0, a number rather than a NaN, and the canonical NaN of two. A conversion of a finite value
rounds it to the destination's values, or to an integer, a value beyond the integer's range giving the nearest bound with IV and NX; a NaN
becomes the destination's NaN or the integer 0 with IV, an infinity the destination's infinity, ±448 in e4m3, or the integer's bound. For f32, bf16 and f16: on finite codes every predicate of FCMP holds exactly when the values it names stand so (−0 and +0
equal), with no flag; with a NaN only ne holds, IV is set under lt, le, gt and ge for any NaN and under eq and ne only for a signalling one.
A scalar floating-point word that goes on keeps every bit of FCTL that was set and sets none but IV, OF, UF and NX; it changes nothing of
the machine but gd, FCTL, the generator's stream 3 under SR, and where the strand stands. -/
def Obligations.ScalarFloatingPoint : Prop :=
  (∀ (s : State) (d a b : Reg) (r : Rnd) (t : FTy),
     (s.core.mode r ≠ .sr →
       exec (.fadd d a b r t) s = putsF s d ((ftyFmt t).add (s.core.mode r) 0 (nv s a % 2 ^ (ftyFmt t).width) (nv s b % 2 ^ (ftyFmt t).width)) ∧
       exec (.fsub d a b r t) s = putsF s d ((ftyFmt t).sub (s.core.mode r) 0 (nv s a % 2 ^ (ftyFmt t).width) (nv s b % 2 ^ (ftyFmt t).width)) ∧
       exec (.fmul d a b r t) s = putsF s d ((ftyFmt t).mul (s.core.mode r) 0 (nv s a % 2 ^ (ftyFmt t).width) (nv s b % 2 ^ (ftyFmt t).width)) ∧
       exec (.fdiv d a b r t) s = putsF s d ((ftyFmt t).div (s.core.mode r) 0 (nv s a % 2 ^ (ftyFmt t).width) (nv s b % 2 ^ (ftyFmt t).width)) ∧
       exec (.fsqrt d a r t) s = putsF s d ((ftyFmt t).sqrt (s.core.mode r) 0 (nv s a % 2 ^ (ftyFmt t).width)) ∧
       exec (.ffma d a b r t) s = putsF s d ((ftyFmt t).fma (s.core.mode r) 0 (nv s a % 2 ^ (ftyFmt t).width)
         (nv s b % 2 ^ (ftyFmt t).width) (nv s d % 2 ^ (ftyFmt t).width)) ∧
       (∀ src dst : Ty, exec (.fcvt d a src r dst) s =
         let y := convert src dst (s.core.mode r) 0 (nv s a % 2 ^ tyWidth src)
         putsF s d ((if dst = .i32 then (BitVec.ofNat 32 y.1).signExtend 64 |>.toNat else y.1), y.2))) ∧
     exec (.fmin d a b t) s = putsF s d ((ftyFmt t).minmax false (nv s a % 2 ^ (ftyFmt t).width) (nv s b % 2 ^ (ftyFmt t).width)) ∧
     exec (.fmax d a b t) s = putsF s d ((ftyFmt t).minmax true (nv s a % 2 ^ (ftyFmt t).width) (nv s b % 2 ^ (ftyFmt t).width)) ∧
     (∀ p : Pred, exec (.fcmp d a b p t) s =
       let y := (ftyFmt t).cmp p (nv s a % 2 ^ (ftyFmt t).width) (nv s b % 2 ^ (ftyFmt t).width)
       putsF s d ((if y.1 then 1 else 0), y.2)) ∧
     exec (.fkey d a) s = puts s d (fkey (nv s a % 2 ^ 32))) ∧
  (∀ (s : State) (d a b : Reg) (r : Rnd) (t : FTy), s.core.mode r = .sr →
     let f := ftyFmt t
     let x := nv s a % 2 ^ f.width
     let y := nv s b % 2 ^ f.width
     (s.core.vq = [] →
       exec (.fadd d a b r t) s = putsDrawn s d f (fun k => f.add .sr k x y) (f.add .rne 0 x y) ∧
       exec (.fsub d a b r t) s = putsDrawn s d f (fun k => f.sub .sr k x y) (f.sub .rne 0 x y) ∧
       exec (.fmul d a b r t) s = putsDrawn s d f (fun k => f.mul .sr k x y) (f.mul .rne 0 x y) ∧
       exec (.fdiv d a b r t) s = putsDrawn s d f (fun k => f.div .sr k x y) (f.div .rne 0 x y) ∧
       exec (.fsqrt d a r t) s = putsDrawn s d f (fun k => f.sqrt .sr k x) (f.sqrt .rne 0 x) ∧
       (let z := nv s d % 2 ^ f.width
        exec (.ffma d a b r t) s = putsDrawn s d f (fun k => f.fma .sr k x y z) (f.fma .rne 0 x y z)) ∧
       (∀ src dst : Ty,
         let v := nv s a % 2 ^ tyWidth src
         let op := fun (k : Nat) =>
           let y := convert src dst .sr k v
           ((if dst = .i32 then (BitVec.ofNat 32 y.1).signExtend 64 |>.toNat else y.1), y.2)
         ((∀ g, tyFmt src = some g → (codeVal g v).isSome) →
           exec (.fcvt d a src r dst) s = .next (s.upd (s.core.draw16.2.putResult d (op s.core.draw16.1)))) ∧
         (∀ g, tyFmt src = some g → codeVal g v = none → exec (.fcvt d a src r dst) s = putsF s d (op 0)))) ∧
     (s.core.vq ≠ [] →
       exec (.fadd d a b r t) s = .next s ∧ exec (.fsub d a b r t) s = .next s ∧ exec (.fmul d a b r t) s = .next s ∧
       exec (.fdiv d a b r t) s = .next s ∧ exec (.fsqrt d a r t) s = .next s ∧ exec (.ffma d a b r t) s = .next s ∧
       ∀ src dst : Ty, exec (.fcvt d a src r dst) s = .next s)) ∧
  (∀ (t : FTy) (mode : RMode) (k a b c : Nat) (x y z : ℝ) (s q : Bool),
     let f := ftyFmt t
     let zero := fun (r : Nat × Flags) => codeVal f r.1 = some 0 ∧ r.2 = 0
     k < 2 ^ 16 → a < 2 ^ f.width → b < 2 ^ f.width → c < 2 ^ f.width →
     (codeVal f a = some x → codeVal f b = some y →
       (x + y ≠ 0 → rounds f mode k (x + y) (f.add mode k a b)) ∧ (x + y = 0 → zero (f.add mode k a b)) ∧
       (x - y ≠ 0 → rounds f mode k (x - y) (f.sub mode k a b)) ∧ (x - y = 0 → zero (f.sub mode k a b)) ∧
       (x * y ≠ 0 → rounds f mode k (x * y) (f.mul mode k a b)) ∧ (x * y = 0 → zero (f.mul mode k a b)) ∧
       (x ≠ 0 → y ≠ 0 → rounds f mode k (x / y) (f.div mode k a b)) ∧ (x = 0 → y ≠ 0 → zero (f.div mode k a b)) ∧
       (x ≠ 0 → y = 0 → f.div mode k a b = (infinity f (a / 2 ^ (f.eb + f.mb) != b / 2 ^ (f.eb + f.mb)), 0)) ∧
       (x = 0 → y = 0 → f.div mode k a b = (theNaN f, Flags.iv)) ∧
       (0 < x → rounds f mode k (Real.sqrt x) (f.sqrt mode k a)) ∧ (x = 0 → f.sqrt mode k a = (a, 0)) ∧
       (x < 0 → f.sqrt mode k a = (theNaN f, Flags.iv)) ∧
       (codeVal f c = some z →
         (x * y + z ≠ 0 → rounds f mode k (x * y + z) (f.fma mode k a b c)) ∧ (x * y + z = 0 → zero (f.fma mode k a b c))) ∧
       (x = 0 → f.mul mode k a (infinity f s) = (theNaN f, Flags.iv) ∧ f.mul mode k (infinity f s) a = (theNaN f, Flags.iv))) ∧
     f.add mode k (infinity f s) (infinity f !s) = (theNaN f, Flags.iv) ∧ f.sub mode k (infinity f s) (infinity f s) = (theNaN f, Flags.iv) ∧
     f.div mode k (infinity f s) (infinity f q) = (theNaN f, Flags.iv) ∧
     (isNaNCode f a ∨ isNaNCode f b → ∀ op ∈ [f.add mode k a b, f.sub mode k a b, f.mul mode k a b, f.div mode k a b], op.1 = theNaN f ∧
       (isSNaN f a ∨ isSNaN f b → op.2 = Flags.iv) ∧ (¬ isSNaN f a → ¬ isSNaN f b → op.2 = 0)) ∧
     (isNaNCode f a ∨ isNaNCode f b ∨ isNaNCode f c → (f.fma mode k a b c).1 = theNaN f ∧
       (isSNaN f a ∨ isSNaN f b ∨ isSNaN f c → (f.fma mode k a b c).2 = Flags.iv)) ∧
     (∀ greater : Bool,
       let r := f.minmax greater a b
       (isSNaN f a ∨ isSNaN f b → r.2 = Flags.iv) ∧ (¬ isSNaN f a → ¬ isSNaN f b → r.2 = 0) ∧
       (isNaNCode f a → isNaNCode f b → r.1 = theNaN f) ∧
       (isNaNCode f a → ¬ isNaNCode f b → r.1 = b) ∧ (¬ isNaNCode f a → isNaNCode f b → r.1 = a) ∧
       (codeVal f a = some x → codeVal f b = some y → codeVal f r.1 = some (if greater then max x y else min x y) ∧ (r.1 = a ∨ r.1 = b)) ∧
       (codeVal f a = some 0 → codeVal f b = some 0 → (r.1 = 0 ↔ if greater then a = 0 ∨ b = 0 else a = 0 ∧ b = 0)) ∧
       ((codeVal f b).isSome → f.minmax greater b (infinity f s) = f.minmax greater (infinity f s) b) ∧
       ((codeVal f b).isSome → (f.minmax greater b (infinity f s)).1 = if greater = s then b else infinity f s))) ∧
  (∀ (src dst : Ty) (mode : RMode) (k c : Nat), k < 2 ^ 16 → c < 2 ^ tyWidth src →
     let w := tyWidth dst
     let lo : ℤ := if tySigned dst then -(2 ^ (w - 1)) else 0
     let hi : ℤ := if tySigned dst then 2 ^ (w - 1) - 1 else 2 ^ w - 1
     let code := fun (v : ℤ) => (v % 2 ^ w).toNat
     let r := convert src dst mode k c
     (∀ f x, tyFmt src = some f → codeVal f c = some x →
       (∀ g, tyFmt dst = some g → (x ≠ 0 → rounds g mode k x r) ∧ (x = 0 → codeVal g r.1 = some 0 ∧ r.2 = 0)) ∧
       (tyFmt dst = none → ∃ n : ℤ, picks mode k 1 x n ∧
         (n < lo → r = (code lo, Flags.iv ||| Flags.nx)) ∧ (hi < n → r = (code hi, Flags.iv ||| Flags.nx)) ∧
         (lo ≤ n → n ≤ hi → r.1 = code n ∧ (n = x → r.2 = 0) ∧ (n ≠ x → r.2 = Flags.nx)))) ∧
     (∀ g, tyFmt src = none → tyFmt dst = some g →
       let v : ℤ := if tySigned src then asSigned (tyWidth src) c else c
       (v ≠ 0 → rounds g mode k v r) ∧ (v = 0 → r = (0, 0))) ∧
     (∀ f, tyFmt src = some f → codeVal f c = none →
       let neg := 2 ^ (f.eb + f.mb) ≤ c
       let nan := f.ocp ∨ isNaNCode f c
       let sig := f.ocp = false ∧ isSNaN f c
       (∀ g, tyFmt dst = some g →
         let sign := if neg then 2 ^ (g.eb + g.mb) else 0
         (nan → r.1 = (if g.ocp then 0x7F else theNaN g) + (if g.width = 8 then sign else 0) ∧
           (sig → r.2 = Flags.iv) ∧ (¬ sig → r.2 = 0)) ∧
         (¬ nan → r = if g.ocp then (0x7E + sign, Flags.of ||| Flags.nx) else (infinity g neg, 0))) ∧
       (tyFmt dst = none →
         (nan → r = (0, Flags.iv)) ∧ (¬ nan → r = (code (if neg then lo else hi), Flags.iv ||| Flags.nx))))) ∧
  (∀ (t : FTy) (x y : Nat), x < 2 ^ (ftyFmt t).width → y < 2 ^ (ftyFmt t).width →
     let f := ftyFmt t
     let u := f.emin - f.mb
     (∀ (nx ny : Bool) (mx my : Nat) (ex ey : Int), f.decode x = .fin nx mx ex → f.decode y = .fin ny my ey →
       let a := inUnits nx mx ex u
       let b := inUnits ny my ey u
       f.cmp .eq x y = (decide (a = b), 0) ∧ f.cmp .ne x y = (decide (a ≠ b), 0) ∧ f.cmp .lt x y = (decide (a < b), 0) ∧
       f.cmp .le x y = (decide (a ≤ b), 0) ∧ f.cmp .gt x y = (decide (b < a), 0) ∧ f.cmp .ge x y = (decide (b ≤ a), 0)) ∧
     ((f.decode x).isNaN ∨ (f.decode y).isNaN →
       (∀ p : Pred, (f.cmp p x y).1 = decide (p = .ne)) ∧
       (∀ p : Pred, p = .lt ∨ p = .le ∨ p = .gt ∨ p = .ge → (f.cmp p x y).2 = Flags.iv) ∧
       (∀ p : Pred, p = .eq ∨ p = .ne → (f.cmp p x y).2 = if (f.decode x).sNaN ∨ (f.decode y).sNaN then Flags.iv else 0))) ∧
  (∀ (i : Instr) (s t : State) (d a b : Reg) (r : Rnd) (y : FTy) (p : Pred) (src dst : Ty),
     (i = .fadd d a b r y ∨ i = .fsub d a b r y ∨ i = .fmul d a b r y ∨ i = .fdiv d a b r y ∨ i = .fsqrt d a r y ∨
       i = .ffma d a b r y ∨ i = .fmin d a b y ∨ i = .fmax d a b y ∨ i = .fcmp d a b p y ∨ i = .fcvt d a src r dst ∨ i = .fkey d a) →
     exec i s = .next t →
     { t with core := s.core } = s ∧
     { t.core with g := s.core.g, loads := s.core.loads, fctl := s.core.fctl, gens := s.core.gens, genHalf := s.core.genHalf
                   pc := s.core.pc, seq := s.core.seq, reach := s.core.reach, micro := s.core.micro } = s.core ∧
     (∀ k : Reg, k ≠ d → t.core.getG k = s.core.getG k) ∧
     (∀ k : Fin 3, t.core.gens[k] = s.core.gens[k]) ∧
     (∀ k, s.core.fctl.getLsbD k → t.core.fctl.getLsbD k) ∧
     (∀ k, 4 ≤ k → t.core.fctl.getLsbD k = s.core.fctl.getLsbD k) ∧
     (∀ x, cellGet t.mem x = cellGet s.mem x))

namespace Sys2Proof.Rules

open Sys2Proof.Machine

/-- The first word of the 64-byte block that holds an address. -/
def block (a : W64) : W64 := BitVec.ofNat 64 (a.toNat / 64 * 64)

/-- The target of a branch or jump (R37): a signed count of blocks from the block of the instruction. -/
def target (s : State) (o : Int) : W64 := BitVec.ofInt 64 ((block s.core.pc).toNat + 64 * o)

/-- The innermost loop ends in the block that holds pc (R71). -/
def inEndBlock (s : State) : Prop := ∃ e rest, s.core.loops = e :: rest ∧ e.endblk = block s.core.pc

open Classical in
/-- The core after a taken branch or jump (R67, R68, R71): only where it stands has changed; the end check of R71 is due when it leaves
the innermost end block for the next block. -/
noncomputable def jumpedCore (s : State) (c : Core) (t : W64) : Core :=
  { c with
    pc := t
    reach := .jump s.core.pc
    micro := 0
    seq := if inEndBlock s ∧ t = block s.core.pc + 64 then .endCheck else .run }

/-- The outcome of a taken branch or jump. -/
noncomputable def jumps (s : State) (t : W64) : Host.Outcome State Fault Refusal := .next { s with core := jumpedCore s s.core t }

/-- The outcome of a word that only goes on. -/
def passes (s : State) : Host.Outcome State Fault Refusal := .next { s with core := s.core.next }

/-- The core that has taken a T cause at level 0 or 1 (R356). -/
def trapped (c : Core) (code : Nat) (eval epc : W64) : Core :=
  let b : TrapBank :=
    { epc := epc, ecause := BitVec.ofNat 64 code, eval := eval, etask := c.taskid.zeroExtend 64
      estat := BitVec.ofNat 64 (c.loops.length * 2 ^ 12 + c.status.toNat % 64) }
  { c with
    bank0 := if c.lvl = 0 then b else c.bank0
    bank1 := if c.lvl = 0 then c.bank1 else b
    status := BitVec.ofNat 64 (c.status.toNat / 64 * 64 + 32 + (c.lvl + 1) * 8 + c.status.toNat % 8)
    pc := c.tvec
    seq := .run
    reach := .along
    micro := 0 }

/-- The outcome of a precise trap at level 0 or 1 with a handler. -/
def traps (s : State) (code : Nat) (eval epc : W64) : Host.Outcome State Fault Refusal :=
  .next { s with core := trapped s.core code eval epc }

/-- The strand can enter a handler: it is at level 0 or 1, TVEC is not 0, and no error charged to its task is to abort it first (R357). -/
def handles (s : State) : Prop := s.core.lvl < 2 ∧ s.core.tvec ≠ 0 ∧ (s.core.lvl = 0 → s.core.held = [])

/-- The word of an instruction, as EVAL holds it. -/
def wordOf (i : Instr) : W64 := BitVec.ofNat 64 (encode i)

end Sys2Proof.Rules

/-- Branches, jumps and calls (R67, R37, R71, R68, R42, R57, R356). BEQ, BNE, BLT, BGE, BLTN and BGEN, in every state: when the comparison
of R67 holds, the strand stands at BLK(PC) plus 64 times the signed offset with the end check of R71 due exactly when it leaves the
innermost end block for the next block; otherwise at the next word; nothing else changes. J goes to its target; JR and JLR go to g[ga] when
it is a block's first word; outside the innermost loop's end block JL and JLR first write the address of the next block to g1 or gd (gd may
be ga, and g0 takes no link); nothing else changes. With a handler at level 0 or 1: JR and JLR to an address that is no block's first word
trap FETCHTGT with EVAL the target; JL, and JLR to a block's first word, in the innermost loop's end block trap LOOPNEST with EVAL that
block; EPC is the jump and no register is written. -/
def Obligations.BranchesJumpsAndCalls : Prop :=
  (∀ (s : State) (a b : Reg) (o : BitVec 16),
     exec (.beq a b o) s = (if nv s a = nv s b then jumps s (target s o.toInt) else passes s) ∧
     exec (.bne a b o) s = (if nv s a ≠ nv s b then jumps s (target s o.toInt) else passes s) ∧
     exec (.blt a b o) s = (if iv s a < iv s b then jumps s (target s o.toInt) else passes s) ∧
     exec (.bge a b o) s = (if iv s b ≤ iv s a then jumps s (target s o.toInt) else passes s) ∧
     exec (.bltn a b o) s = (if nv s a < nv s b then jumps s (target s o.toInt) else passes s) ∧
     exec (.bgen a b o) s = (if nv s b ≤ nv s a then jumps s (target s o.toInt) else passes s)) ∧
  (∀ (s : State) (d a : Reg) (o : BitVec 26),
     exec (.j o) s = jumps s (target s o.toInt) ∧
     (nv s a % 64 = 0 → exec (.jr a) s = jumps s (s.core.getG a)) ∧
     (¬ inEndBlock s →
       exec (.jl o) s = .next { s with core := jumpedCore s (s.core.setG 1 (block s.core.pc + 64)) (target s o.toInt) } ∧
       (nv s a % 64 = 0 →
         exec (.jlr d a) s = .next { s with core := jumpedCore s (s.core.setG d (block s.core.pc + 64)) (s.core.getG a) }))) ∧
  (∀ (s : State) (d a : Reg) (o : BitVec 26), handles s →
     (nv s a % 64 ≠ 0 → exec (.jr a) s = traps s 0x02 (s.core.getG a) s.core.pc ∧
       exec (.jlr d a) s = traps s 0x02 (s.core.getG a) s.core.pc) ∧
     (inEndBlock s → exec (.jl o) s = traps s 0x05 (block s.core.pc) s.core.pc ∧
       (nv s a % 64 = 0 → exec (.jlr d a) s = traps s 0x05 (block s.core.pc) s.core.pc)))

/-- Loops open, repeat, end and are read (R70, R57, R356, R71, R73, R80, R72). LOOP with a count n and its end e = BLK(PC) + 64 × end: n
above 0xFFFF_FFFF traps BADOPND; otherwise an end beyond the enclosing end traps LOOPNEST; otherwise n = 0 goes to e + 64 and pushes
nothing; otherwise a full stack traps LOOPDEPTH with the word; otherwise the entry is pushed with the strand's next instance number and the
body's first block follows; nothing else changes. The traps are stated with a handler at level 0 or 1. LBRK and LBRK.sq pop the innermost
entry and go to the block after its end (LBRK.sq also removes from every queue the commands not started that were issued under the loop
left with an index beyond the cutoff in ga, and keeps the others; with no command queued nothing else changes); LIDX reads the index of
entry k; LSET and LSET.add set a loop register; LBRK, LBRK.sq and LIDX trap LOOPDEPTH with their word where their entry is missing.
LOOP_END_CHECK takes an innermost entry that ends in the block left back to its start with its index one up while it has iterations left,
and otherwise pops it and checks the next; where no entry ends there it goes on at the block after, reached as it was. -/
def Obligations.LoopsOpenAndEnd : Prop :=
  (∀ (s : State) (i : Instr) (n : W64) (e : BitVec 8),
     ((∃ a, i = .loop a e ∧ n = s.core.getG a) ∨ (∃ k : BitVec 12, i = .loopImm k e ∧ n = BitVec.ofNat 64 k.toNat)) →
     let last := block s.core.pc + BitVec.ofNat 64 (64 * e.toNat)
     let beyond := ∃ x rest, s.core.loops = x :: rest ∧ x.endblk.toNat < last.toNat
     let body := block s.core.pc + 64
     (0xFFFFFFFF < n.toNat → handles s → exec i s = traps s 0x06 n s.core.pc) ∧
     (n.toNat ≤ 0xFFFFFFFF → beyond → handles s → exec i s = traps s 0x05 last s.core.pc) ∧
     (n = 0 → ¬ beyond → exec i s = .next { s with core := { s.core with pc := last + 64, reach := .along, micro := 0 } }) ∧
     (n ≠ 0 → n.toNat ≤ 0xFFFFFFFF → ¬ beyond → s.core.loops.length = 6 → handles s →
       exec i s = traps s 0x04 (wordOf i) s.core.pc) ∧
     (n ≠ 0 → n.toNat ≤ 0xFFFFFFFF → ¬ beyond → s.core.loops.length ≠ 6 →
       exec i s = .next { s with core := { s.core with
         loops := { start := body, endblk := last, count := n.toNat, idx := 0, inst := s.core.nextInst } :: s.core.loops
         nextInst := s.core.nextInst + 1
         pc := body
         reach := .along
         micro := 0 } })) ∧
  ((∀ (s : State) (e : LoopEntry) (rest : List LoopEntry) (a : Reg), s.core.loops = e :: rest →
     let left := { s.core with loops := rest, pc := e.endblk + 64, reach := .along, micro := 0 }
     exec .lbrk s = .next { s with core := left } ∧
     (let stays := fun (m : Cmd) => m.started || !(m.tag.any fun t => t.1 == e.inst && decide (nv s a % 2 ^ 32 < t.2))
      ∃ t, exec (.lbrkSq a) s = .next t ∧ t.core = { left with
        vq := s.core.vq.filter stays, xinq := s.core.xinq.filter stays, xoutq := s.core.xoutq.filter stays
        mq := s.core.mq.filter stays, aq := s.core.aq.filter stays }) ∧
     (s.core.vq = [] → s.core.xinq = [] → s.core.xoutq = [] → s.core.mq = [] → s.core.aq = [] →
       exec (.lbrkSq a) s = .next { s with core := left })) ∧
   (∀ (s : State) (d : Reg) (k : Fin 8) (e : LoopEntry), s.core.loops[k.val]? = some e → exec (.lidx d k) s = puts s d e.idx) ∧
   (∀ (s : State) (n : LReg) (a : Reg),
     exec (.lset n a) s = .next { s with core := { s.core with l := s.core.l.set n (s.core.getG a) }.next } ∧
     exec (.lsetAdd n a) s = .next { s with core := { s.core with l := s.core.l.set n (s.core.l[n] + s.core.getG a) }.next }) ∧
   (∀ (s : State) (d a : Reg) (k : Fin 8), handles s →
     (s.core.loops = [] → exec .lbrk s = traps s 0x04 (wordOf .lbrk) s.core.pc ∧
       exec (.lbrkSq a) s = traps s 0x04 (wordOf (.lbrkSq a)) s.core.pc) ∧
     (s.core.loops.length ≤ k.val → exec (.lidx d k) s = traps s 0x04 (wordOf (.lidx d k)) s.core.pc)) ∧
   (∀ (s : State), s.core.seq = .endCheck →
     let b := block s.core.pc - 64
     let go := fun (pc : W64) (loops : List LoopEntry) (r : Reach) =>
       { s with core := { s.core with pc := pc, loops := loops, seq := .run, micro := 0, reach := r } }
     (s.core.loops = [] → exec (.loopEndCheck s.core.id) s = .next (go (b + 64) [] s.core.reach)) ∧
     (∀ e rest, s.core.loops = e :: rest → e.endblk ≠ b →
       exec (.loopEndCheck s.core.id) s = .next (go (b + 64) (e :: rest) s.core.reach)) ∧
     (∀ e rest, s.core.loops = e :: rest → e.endblk = b → e.idx + 1 < e.count →
       exec (.loopEndCheck s.core.id) s = .next (go e.start ({ e with idx := e.idx + 1 } :: rest) .loop)) ∧
     (∀ e rest, s.core.loops = e :: rest → e.endblk = b → e.count ≤ e.idx + 1 →
       exec (.loopEndCheck s.core.id) s = exec (.loopEndCheck s.core.id) (s.upd { s.core with loops := rest }))))

/-- Taking a trap and returning from it (R356, R84). At level k = 0 or 1 with TVEC not 0 and no error held at level 0, a T cause saves the address, code, value, task and
{K, loop depth, STATUS[5:0]} in bank k, sets STATUS.LVL to k + 1 and SV to 1 and the pc to TVEC, and changes nothing else: the version, the
loop stack, the queues, the slacks, every register, the other bank and memory stay. With TVEC 0 the task then aborts as HALT at the new
level does; at level 2 the strand crashes instead; and beside an error held at level 0 the trap is not taken, since that error aborts the
task (R357). A word that traps below level 2 answers that state. TRET at level 1 or 2 sets the pc to EPC of bank LVL − 1, LVL to LVL − 1 and SV to 1 exactly
if that is not 0, and changes nothing else; at level 0 with a handler it traps ILLEGAL with its word. -/
def Obligations.TrapsAreTakenAndLeft : Prop :=
  (∀ (s : State) (cause : Cause) (eval epc : W64) (kept : Bool),
     (s.core.lvl < 2 → s.traps cause eval epc kept = .next (s.trap cause eval epc kept)) ∧
     (s.core.lvl = 0 → s.core.held ≠ [] → s.trap cause eval epc kept = s) ∧
     (s.core.lvl < 2 → (s.core.lvl = 0 → s.core.held = []) →
       let k := s.core.lvl
       let bank : TrapBank :=
         { epc := epc, ecause := BitVec.ofNat 64 cause.code, eval := eval, etask := s.core.taskid.zeroExtend 64
           estat := BitVec.ofNat 64 ((if kept then 2 ^ 15 else 0) + s.core.loops.length * 2 ^ 12 + s.core.status.toNat % 64) }
       let entered : Core := { s.core with
         bank0 := if k = 0 then bank else s.core.bank0
         bank1 := if k = 0 then s.core.bank1 else bank
         status := BitVec.ofNat 64 (s.core.status.toNat / 64 * 64 + 32 + (k + 1) * 8 + s.core.status.toNat % 8)
         pc := s.core.tvec
         seq := .run
         reach := .along
         micro := 0 }
       entered.lvl = k + 1 ∧
       (s.core.tvec ≠ 0 → s.trap cause eval epc kept = { s with core := entered }) ∧
       (s.core.tvec = 0 → Host.Outcome.next (s.trap cause eval epc kept) = exec .halt { s with core := entered })) ∧
     (s.core.lvl = 2 → s.trap cause eval epc kept = s.crash cause eval epc)) ∧
  (∀ s : State,
     (∀ k : Nat, k < 2 → s.core.lvl = k + 1 →
       exec .tret s = .next { s with core := { s.core with
         pc := if k = 0 then s.core.bank0.epc else s.core.bank1.epc
         status := BitVec.ofNat 64 (s.core.status.toNat / 64 * 64 + (if k = 0 then 0 else 32) + k * 8 + s.core.status.toNat % 8)
         seq := .run
         reach := .along
         micro := 0 } }) ∧
     (s.core.lvl = 0 → s.core.tvec ≠ 0 → s.core.held = [] → exec .tret s = traps s 0x01 (wordOf .tret) s.core.pc))

namespace Sys2Proof.Rules

open Sys2Proof.Machine

/-- A strand whose task may end at once: no command outstanding, no error held, a version of no byte, no commit under way, no implicit
boundary due (R85, R94). -/
def quietTask (c : Core) : Prop :=
  c.vq = [] ∧ c.xinq = [] ∧ c.xoutq = [] ∧ c.mq = [] ∧ c.aq = [] ∧ c.held = [] ∧ c.version = [] ∧ c.commit = none ∧ c.implicit = false

/-- The end status of a Ringmaster task that its PICK returns (R118): 1 after JOIN. -/
def endStatus : EndKind → W64
  | .halt => 0
  | .done _ => 0
  | .join _ _ => 1

end Sys2Proof.Rules

/-- System instructions, and a task ends when its commands have completed (R83, R85, R86, R399, R118, R119, R120, R121, R254, R260). NOP and
YIELD only go on; PAUSE n stops issue until n core cycles have passed and PAUSE_END then goes on; HALT at level 0 issues nothing more and
ends the task with its commands, and at level 1 or 2 it sets LVL and SV to 0 and charges the task with the error of bank LVL − 1, from which
TASK_ABORT then aborts it; TRAP k and BKPT k without a debugger trap with EVAL k and EPC the next word; BKPT with the debugger attached and
break enabled stops the core with no other effect; IFLUSH discards fetched code; the debugger attaches, detaches and resumes a stopped core
past its BKPT. TASK_END of a strand that ends with its five queues empty, no error held and a version of no byte: the strand of a Ringmaster
task returns to the PICK return point with 0 in its register, or 1 after JOIN, and the launch's task id; after DONE or HALT the block is free
(in DRAIN while tasks it waits for are pending), its successor's ARG gains the value (0 for HALT) and its PEND goes down by one, to READY as
a joined continuation or to FREE in DRAIN when it reaches 0; after JOIN the block has the descriptor's key and entry and ARG with the value
added, READY or, with PEND not 0, JOINED; the body of a launch instance ends, its strand is idle and the launch has one leaf instance less
to wait for, its completion due with the last; a strand with neither goes idle. With a command outstanding nothing happens yet. -/
def Obligations.SystemInstructionsAndTaskEnd : Prop :=
  ((∀ s : State,
     exec .nop s = .next (s.upd s.core.next) ∧ exec .yield s = .next (s.upd s.core.next) ∧
     (∀ n : BitVec 10, exec (.pause n) s = .next { s with core := { s.core with seq := .pause (s.clock / 2 + n.toNat) } }) ∧
     exec .iflush s = .next { s with core := { s.core with code := [], ecode := [] }.next } ∧
     (s.core.lvl = 0 → exec .halt s = .next { s with core := { s.core with seq := .ending .halt } }) ∧
     (s.core.lvl ≠ 0 →
       let b := if s.core.lvl = 1 then s.core.bank0 else s.core.bank1
       ∃ t r, exec .halt s = .next t ∧ t.core.held = s.core.held ++ [r] ∧ t.core.lvl = 0 ∧ t.core.status.getLsbD 5 = false ∧
         t.core.pc = s.core.pc ∧ t.core.g = s.core.g ∧ t.core.seq = s.core.seq ∧
         r.faddr = b.eval ∧ r.waddr = b.epc ∧ r.taskid.toNat = b.etask.toNat % 2 ^ 32 ∧ r.code = b.ecause.toNat % 2 ^ 8 ∧
         r.core = s.core.id)) ∧
   (∀ (s : State) (k : BitVec 10), handles s →
     exec (.trap k) s = traps s 0x07 (BitVec.ofNat 64 k.toNat) (s.core.pc + 4) ∧
     (¬ (s.core.debugger = true ∧ s.core.breakOn = true) →
       exec (.bkpt k) s = traps s 0x08 (BitVec.ofNat 64 k.toNat) (s.core.pc + 4))) ∧
   (∀ (s : State) (k : BitVec 10), s.core.debugger = true → s.core.breakOn = true →
     exec (.bkpt k) s = .next { s with core := { s.core with seq := .stopped } }) ∧
   (∀ (s : State) (w : Nat), s.core.seq = .pause w → w ≤ s.clock / 2 →
     exec (.pauseEnd s.core.id) s = .next (s.upd s.core.next)) ∧
   (∀ (s : State) (b : Bool), s.jtag = true →
     exec (.jtagDebugger s.core.id (.attach b)) s = .next { s with core := { s.core with debugger := true, breakOn := b } } ∧
     exec (.jtagDebugger s.core.id .detach) s = .next { s with core := { s.core with debugger := false, breakOn := false } } ∧
     (s.core.seq = .stopped → exec (.jtagDebugger s.core.id .resume) s = .next (s.upd s.core.next)))) ∧
  (∀ (s : State) (k : EndKind), s.core.seq = .ending k →
     (quietTask s.core → s.core.ring = none → s.core.body = none →
       exec (.taskEnd s.core.id) s =
         let u := s.releaseSnaps s.core.id
         .next { u with core := { u.core with implicit := false, loops := [], seq := .idle } }) ∧
     (s.core.vq ≠ [] ∨ s.core.xinq ≠ [] ∨ s.core.xoutq ≠ [] ∨ s.core.mq ≠ [] ∨ s.core.aq ≠ [] →
       exec (.taskEnd s.core.id) s = .next s)) ∧
  (∀ (s : State) (k : EndKind) (die idx : Nat) (b : Tcb), s.core.seq = .ending k → quietTask s.core → s.core.ring = some (die, idx) →
     die < 2 → idx < 2 ^ 20 → assoc idx (s.die die).tcbs = some b → b.state ≠ .free → 0 < b.gen → b.gen < 2 ^ 11 →
     let id := taskId die b.gen idx
     ∃ t, exec (.taskEnd s.core.id) s = .next t ∧ t.core.ring = none ∧ t.core.loops = [] ∧
       (∀ pc gd, s.core.pickRet = some (pc, gd) →
         t.core.pc = pc ∧ t.core.seq = .run ∧ t.core.pickRet = none ∧ t.core.treeid = 0 ∧
         t.core.taskid = (match s.core.body with | some y => y.taskid | none => 0) ∧
         (gd ≠ 0 → t.core.getG gd = endStatus k) ∧ (∀ r, r ≠ gd → t.core.getG r = s.core.getG r)) ∧
       (∀ x, (k = .halt ∧ x = 0) ∨ k = .done x →
         let left := if b.pend = 0 then none else some { b with state := TcbState.drain }
         (s.tcb? b.succ = none → t.tcb? id = left) ∧
         (∀ d, s.tcb? b.succ = some d → b.succ ≠ id → ¬ (d.pend ≤ 1 ∧ d.state = .joined ∧ d.canf = true) →
           let d1 := { d with arg := d.arg + x, pend := d.pend - 1 }
           t.tcb? id = left ∧
           (d1.pend = 0 ∧ d.state = .joined → ∃ o, t.tcb? b.succ = some { d1 with state := .ready, order := o }) ∧
           (d1.pend = 0 ∧ d.state = .drain → t.tcb? b.succ = none) ∧
           (¬ (d1.pend = 0 ∧ (d.state = .joined ∨ d.state = .drain)) → t.tcb? b.succ = some d1))) ∧
       (∀ desc x, k = .join desc x → b.canf = false →
         let b1 := { b with
           key := BitVec.ofNat 32 (desc.toNat / 2 ^ 32), entry := BitVec.ofNat 26 (desc.toNat / 2 ^ 6), arg := b.arg + x }
         (b.pend = 0 → ∃ o, t.tcb? id = some { b1 with state := .ready, order := o }) ∧
         (b.pend ≠ 0 → t.tcb? id = some { b1 with state := .joined }))) ∧
  (∀ (s : State) (k : EndKind) (y : Body) (l : Launch), s.core.seq = .ending k → quietTask s.core → s.core.ring = none →
     s.core.body = some y → s.launch? y.launch = some l →
     ∃ t, exec (.taskEnd s.core.id) s = .next t ∧ t.core.body = none ∧ t.core.seq = .idle ∧ t.core.loops = [] ∧
       (1 < l.left → t.launch? y.launch = some { l with left := l.left - 1 }) ∧
       (l.left ≤ 1 → t.launch? y.launch = none ∧ ∀ q n z, l.src = .queue q n → s.queue? q = some z →
         ∃ z', t.queue? q = some z' ∧
           { recno := some n, after := n, status := (match l.err with | some e => e.1 | none => 0), utag := l.rcd.getD 13 0
             report := (match l.err with | some e => e.2 | none => none) } ∈ z'.comps))

namespace Sys2Proof.Rules

open Sys2Proof.Machine

/-- The value a CSR write puts (R82, R6), bit by bit: op 1 CSRW, 2 CSRS, 3 CSRC; a bit that is neither RW nor W1C reads 0. -/
def csrPuts (op : Nat) (old g : W64) (r : CsrRow) (w : W64) : Prop :=
  ∀ k, k < 64 → w.getLsbD k =
    if r.rw.getLsbD k then (if op = 1 then g.getLsbD k else if op = 2 then old.getLsbD k || g.getLsbD k else old.getLsbD k && !g.getLsbD k)
    else if r.w1c.getLsbD k then (if op = 3 then old.getLsbD k else old.getLsbD k && !g.getLsbD k)
    else false

/-- The three writing CSR instructions. -/
def csrOp (op : Nat) (d a : Reg) (n : BitVec 12) : Instr := if op = 1 then .csrw d a n else if op = 2 then .csrs d a n else .csrc d a n

/-- The strand after a CSR was read: HINTDROP is cleared (R6, R44). -/
def afterRead (c : Core) (n : Nat) : Core := { c with hintdrop := if n = 0x022 then 0 else c.hintdrop }

end Sys2Proof.Rules

/-- CSR writes that trap (R44). With a handler: a write of a read-only CSR, a write at level 0 of a CSR marked S, and a write of an illegal
code (FCTL.RM 5..7, VQUOTA not a multiple of 4 KiB within 4 KiB..1 MiB, LEASE1 or LEASE2 outside 1..2^30, TVEC with [5:0] not 0) trap
ILLEGAL with the word and write nothing. -/
def Obligations.CsrForbiddenWritesTrap : Prop :=
  ∀ (s : State) (op : Nat) (d a : Reg) (n : BitVec 12) (r : CsrRow), handles s →
    (op = 1 ∨ (op = 2 ∨ op = 3) ∧ a ≠ 0) → csrRow n.toNat = some r →
    let trap := traps s 0x01 (wordOf (csrOp op d a n)) s.core.pc
    ((n.toNat ≤ 6 ∨ n.toNat = 0x011 ∨ n.toNat = 0x012 ∨ n.toNat = 0x021) → exec (csrOp op d a n) s = trap) ∧
    ((n.toNat = 0x023 ∨ n.toNat = 0x024 ∨ n.toNat = 0x030 ∨ n.toNat = 0x031 ∨ 0x100 ≤ n.toNat) → s.core.lvl = 0 →
      exec (csrOp op d a n) s = trap) ∧
    (∀ w : W64, csrPuts op (s.csrGet n.toNat) (s.core.getG a) r w →
      ((n.toNat = 0x010 ∧ 5 ≤ w.toNat / 2 ^ 5 % 8) ∨
        (n.toNat = 0x020 ∧ (w.toNat % 4096 ≠ 0 ∨ w.toNat < 4096 ∨ 2 ^ 20 < w.toNat)) ∨
        ((n.toNat = 0x023 ∨ n.toNat = 0x024) ∧ (w.toNat = 0 ∨ 2 ^ 30 < w.toNat)) ∨
        (n.toNat = 0x100 ∧ w.toNat % 64 ≠ 0)) →
      exec (csrOp op d a n) s = trap)

/-- CSR reads and writes, and what they store (R44, R82, R6, R316, R146, R45, R355). CSRR of a numbered CSR, and CSRS or CSRC of one with ga
= g0, write its value to gd (clearing HINTDROP when that was read), go on, and change nothing else, at every level; with a handler an
unnumbered one traps ILLEGAL with the word. CSRW, and CSRS or CSRC with ga not g0, of a CSR that is writable at the level, with a value w
that R82 gives and no illegal code in it: the CSR takes w, gd its old value, the strand goes on and nothing else changes. A change of TRITEN
waits while a vector block is outstanding; CARBASE (but for CSRC, log entry 29) also loads or unloads the die's table when R316 allows it,
no circuit of the context is in use and the table's lines can be read as an engine reads them, and until then waits. Storing a value of its writable bits in a CSR makes a read of that CSR give it, and every other
CSR, every sequencer register, loop register, vector register, trap state not written, the queues and memory read as before. -/
def Obligations.CsrReadsAndWrites : Prop :=
  (∀ (s : State) (d a : Reg) (n : BitVec 12),
     ((csrRow n.toNat).isSome →
       let t := s.upd ((afterRead s.core n.toNat).setG d (s.csrGet n.toNat)).next
       exec (.csrr d n) s = .next t ∧ exec (.csrs d 0 n) s = .next t ∧ exec (.csrc d 0 n) s = .next t) ∧
     (csrRow n.toNat = none → handles s →
       exec (.csrr d n) s = traps s 0x01 (wordOf (.csrr d n)) s.core.pc ∧
       exec (.csrw d a n) s = traps s 0x01 (wordOf (.csrw d a n)) s.core.pc ∧
       exec (.csrs d a n) s = traps s 0x01 (wordOf (.csrs d a n)) s.core.pc ∧
       exec (.csrc d a n) s = traps s 0x01 (wordOf (.csrc d a n)) s.core.pc)) ∧
  (∀ (s : State) (op : Nat) (d a : Reg) (n : BitVec 12) (r : CsrRow) (w : W64),
     (op = 1 ∨ (op = 2 ∨ op = 3) ∧ a ≠ 0) → csrRow n.toNat = some r → r.ro = false → (r.sup = true → s.core.lvl ≠ 0) →
     csrPuts op (s.csrGet n.toNat) (s.core.getG a) r w → csrIllegal n.toNat w = false →
     let done := fun (t : State) => t.upd ((((afterRead t.core n.toNat).csrPut n.toNat w).setG d (s.csrGet n.toNat)).next)
     (n.toNat ≠ 0x030 ∨ op = 3 →
       (n.toNat = 0x010 → w.getLsbD 8 = s.core.fctl.getLsbD 8 ∨ s.core.vq = []) → exec (csrOp op d a n) s = .next (done s)) ∧
     (n.toNat = 0x010 → w.getLsbD 8 ≠ s.core.fctl.getLsbD 8 → s.core.vq ≠ [] → exec (csrOp op d a n) s = .next s) ∧
     (n.toNat = 0x030 → op ≠ 3 → ∀ es, s.carWanted w = some es → s.carFirst s.core.context s.core.id w = none →
       (w = 0 ∨ s.carBusy s.core.context (dieOf s.core.id) = false →
         let k := dieOf s.core.id
         exec (csrOp op d a n) s = .next (done (s.putCar k { s.car k with base := w, table := es }))) ∧
       (w ≠ 0 → s.carBusy s.core.context (dieOf s.core.id) = true → exec (csrOp op d a n) s = .next s)) ∧
     (n.toNat = 0x030 → op ≠ 3 → ∀ t, s.carFirst s.core.context s.core.id w = some t → exec (csrOp op d a n) s = .next t)) ∧
  (∀ (s : State) (n m : BitVec 12) (r : CsrRow) (w : W64), csrRow n.toNat = some r → r.ro = false → n.toNat ≠ 0x022 →
     let t := s.upd (s.core.csrPut n.toNat w)
     t.csrGet n.toNat = w ∧
     (m ≠ n → t.csrGet m.toNat = s.csrGet m.toNat) ∧
     (∀ k : Reg, t.core.getG k = s.core.getG k) ∧ t.core.l = s.core.l ∧ t.core.v = s.core.v ∧ t.core.m = s.core.m ∧
     t.core.pc = s.core.pc ∧ t.core.vq = s.core.vq ∧ t.core.version = s.core.version ∧ (∀ x, cellGet t.mem x = cellGet s.mem x))

namespace Sys2Proof.Rules

open Sys2Proof.Machine

/-- What a command captures at issue (R74): its number, its program's address, the loop registers its mask names, FCTL.RM, and the instance
and index of every loop entry, innermost first. -/
def captured (s : State) (va : W64) (mask : BitVec 16) : Cmd :=
  { num := s.core.nextCmd, addr := va, mask := mask, regs := s.core.l, rm := s.core.rm,
    tag := s.core.loops.map (fun e => (e.inst, e.idx)), started := false }

/-- A command may issue under its slack (R75): fewer outstanding than the slack, or none under slack 0. -/
def mayIssue (slack outstanding : Nat) : Prop := outstanding < slack ∨ slack = 0 ∧ outstanding = 0

/-- The block of a command's address is on the core, or its line can be read as it stands: nothing of it is in U, lost, or under way (R86,
R101, R284, R370). -/
def blockReady (s : State) (kept : List (W64 × List W32)) (va : W64) : Prop :=
  (findBlock kept (block va)).isSome ∨
  (∃ f, s.checkPage s.core.context (clusterOf s.core.id) (block va) 64 .fetch = .error f) ∨
  ∃ a, s.checkPage s.core.context (clusterOf s.core.id) (block va) 64 .fetch = .ok a ∧ a < remoteBase ∧ s.rangeSettled a 64 = true ∧
    (s.dirLine (lineOf a)).hs ≠ .upd ∧ s.lost.contains (lineOf a) = false

/-- The channel that a program's first word chooses (R76): the in-channel, the out-channel, or none. -/
def inStep (w : W32) : Prop := w.toNat / 2 ^ 27 = 1 ∨ w.toNat / 2 ^ 27 = 2 ∨ w.toNat / 2 ^ 27 = 4 ∨ w.toNat / 2 ^ 27 = 7
def outStep (w : W32) : Prop := w.toNat / 2 ^ 27 = 3 ∨ w.toNat / 2 ^ 27 = 5 ∨ w.toNat / 2 ^ 27 = 6

/-- The core that has issued a command: under slack 0 the instruction then waits for its completion, otherwise the next word follows. -/
def issued (slack : Nat) (c : Core) : Core := if slack = 0 then { c with micro := 1 } else c.next

end Sys2Proof.Rules

/-- VRUN, XRUN and MTASK issue; WAIT, VGET, SLACK and a load that returns (R74, R75, R76, R77, R78, R79, R90). VRUN and MTASK of an
aligned address, and XRUN of an aligned address whose block can be read as it stands and whose first word names a channel's step, with
fewer commands outstanding than the slack (none under slack 0), append to their queue a command that captures its number, address, mask,
loop registers, rounding mode and loop tags, and go on (under slack 0 they wait in place until the queue is empty); with the slack used up
they wait and change nothing (but the block XRUN fetched). With a handler an address that is not a multiple of 64 traps ALIGN; XRUN traps
FETCHTGT when the block cannot be fetched and BADOPND when its first word is no channel's step, with the address as EVAL. WAIT goes on when no vector block is outstanding and the
outstanding loads, stores and updates, transfers and tile tasks are each at or below its field, and otherwise changes nothing; VGET reads
its latch once no block is outstanding and otherwise waits; SLACK with five fields of 0..16 and nothing in [63:25] sets the slacks and gives
the old ones in the same layout, and with a handler traps BADOPND otherwise; LOAD_DATA_RETURN of a load whose bytes have come writes them, little-endian and
extended, and the load is no longer outstanding. -/
def Obligations.CommandsWaitsAndSettings : Prop :=
  (∀ (s : State) (a : Reg) (m : BitVec 16),
     let va := s.core.getG a
     (va.toNat % 64 = 0 → s.core.micro = 0 →
       (mayIssue s.core.slack[0] s.core.vq.length → exec (.vrun a m) s = .next (s.upd
         (issued s.core.slack[0] { s.core with nextCmd := s.core.nextCmd + 1, vq := s.core.vq ++ [captured s va m] }))) ∧
       (¬ mayIssue s.core.slack[0] s.core.vq.length → exec (.vrun a m) s = .next s) ∧
       (mayIssue s.core.slack[3] s.core.mq.length → exec (.mtask a m) s = .next (s.upd
         (issued s.core.slack[3] { s.core with nextCmd := s.core.nextCmd + 1, mq := s.core.mq ++ [captured s va m] }))) ∧
       (¬ mayIssue s.core.slack[3] s.core.mq.length → exec (.mtask a m) s = .next s) ∧
       (blockReady s s.core.ecode va →
         (∀ w blocks, s.wordAt s.core.context (clusterOf s.core.id) s.core.ecode va = some (w, blocks) →
           let f := { s.core with ecode := blocks }
           (inStep w → mayIssue s.core.slack[1] s.core.xinq.length → exec (.xrun a m) s = .next (s.upd
             (issued s.core.slack[1] { f with nextCmd := s.core.nextCmd + 1, xinq := s.core.xinq ++ [captured s va m] }))) ∧
           (inStep w → ¬ mayIssue s.core.slack[1] s.core.xinq.length → exec (.xrun a m) s = .next (s.upd f)) ∧
           (outStep w → mayIssue s.core.slack[2] s.core.xoutq.length → exec (.xrun a m) s = .next (s.upd
             (issued s.core.slack[2] { f with nextCmd := s.core.nextCmd + 1, xoutq := s.core.xoutq ++ [captured s va m] }))) ∧
           (outStep w → ¬ mayIssue s.core.slack[2] s.core.xoutq.length → exec (.xrun a m) s = .next (s.upd f)) ∧
           (¬ inStep w → ¬ outStep w → handles s → exec (.xrun a m) s = traps s 0x06 va s.core.pc)) ∧
         (s.wordAt s.core.context (clusterOf s.core.id) s.core.ecode va = none → handles s →
           exec (.xrun a m) s = traps s 0x02 va s.core.pc))) ∧
     (va.toNat % 64 = 0 → s.core.micro = 1 →
       exec (.vrun a m) s = (if s.core.vq = [] then passes s else .next s) ∧
       exec (.mtask a m) s = (if s.core.mq = [] then passes s else .next s) ∧
       (∀ ws, findBlock s.core.ecode va = some ws →
         (inStep (ws.getD 0 0) → exec (.xrun a m) s = (if s.core.xinq = [] then passes s else .next s)) ∧
         (outStep (ws.getD 0 0) → exec (.xrun a m) s = (if s.core.xoutq = [] then passes s else .next s)))) ∧
     (va.toNat % 64 ≠ 0 → handles s →
       exec (.vrun a m) s = traps s 0x11 va s.core.pc ∧ exec (.xrun a m) s = traps s 0x11 va s.core.pc ∧
       exec (.mtask a m) s = traps s 0x11 va s.core.pc)) ∧
  ((∀ (s : State) (l st c t : Fin 64),
     exec (.wait l st c t) s =
       if s.core.vq = [] ∧ s.core.loads.length ≤ l.val ∧ s.core.stores.length + s.updsOut s.core.id ≤ st.val ∧
         s.core.xinq.length + s.core.xoutq.length ≤ c.val ∧ s.core.mq.length ≤ t.val
       then passes { s with core := { s.core with acquired := s.clock } } else .next s) ∧
   (∀ (s : State) (d : Reg) (n : Fin 4),
     exec (.vget d n) s = if s.core.vq = [] then puts s d s.core.q[n].toInt else .next s) ∧
   (∀ (s : State) (d a : Reg) (f : Vector Nat 5),
     nv s a = f[0] + 2 ^ 5 * f[1] + 2 ^ 10 * f[2] + 2 ^ 15 * f[3] + 2 ^ 20 * f[4] → (∀ k : Fin 5, f[k] < 32) →
     ((∀ k : Fin 5, f[k] ≤ 16) →
       let o := s.core.slack
       exec (.slack d a) s = puts { s with core := { s.core with slack := f } } d
         (o[0] + 2 ^ 5 * o[1] + 2 ^ 10 * o[2] + 2 ^ 15 * o[3] + 2 ^ 20 * o[4] : Nat)) ∧
     ((∃ k : Fin 5, 16 < f[k]) → handles s → exec (.slack d a) s = traps s 0x06 (s.core.getG a) s.core.pc)) ∧
   (∀ (s : State) (d a : Reg), nv s a / 2 ^ 25 ≠ 0 → handles s → exec (.slack d a) s = traps s 0x06 (s.core.getG a) s.core.pc) ∧
   (∀ (s : State) (k : Nat) (p : PendingLoad) (bs : List Byte), s.core.loads[k]? = some p → p.bytes = bs.map some →
     let x := if p.signed then sext (8 * bs.length) (leVal bs) else BitVec.ofNat 64 (leVal bs)
     let c : Core := { s.core with loads := s.core.loads.eraseIdx k }
     exec (.loadDataReturn s.core.id k) s = .next { s with core := c.setG p.gd x }))

namespace Sys2Proof.Rules

open Sys2Proof.Machine

/-- An engine of the cluster waits on a stream (R81, R277): a channel or an array that is blocked on it, or a plane load that reads it. -/
def waitsOn (s : State) (g f : Nat) : Prop :=
  (∃ k r, k < 4 ∧ ((s.coreAt (4 * g + k)).xin = some r ∨ (s.coreAt (4 * g + k)).xout = some r) ∧ r.waits = some f) ∨
  ∃ m, (m = (s.cluster g).arr0 ∨ m = (s.cluster g).arr1) ∧
    ((∃ r, m.run = some r ∧ r.waits = some f) ∨ m.shadow.state = .loading ∧ m.shadow.stream = f)

end Sys2Proof.Rules

/-- BANKM switches the core's banks (R81, R275, R276). A switch fails exactly when it takes a bank out of FIFO mode, or changes its slot
size, while a slot is filled, claimed or being read or an engine waits on the stream. BANKM with no bit in [63:32] and no slot size 3 for a
bank that enters FIFO mode: if no cache bank would be left it changes nothing but gd := 0x100; otherwise gd gets the bits of the failed
switches, each other bank of the core has the mode and slot size asked (a FIFO bank entered, or given another slot size, with both counters 0
and no slot filled or claimed), each failing bank and each bank to stay as it is does, the banks of the cluster's other cores keep theirs,
and of the pinned pages exactly those in scratch banks stay pinned. The next word stands at pc; beside gd nothing changes but the lines and
pages of the cluster, the write-backs sent, and the snapshots of strands whose copies found the hold buffer full, which owe an implicit
boundary: no byte of memory, no other register of any core, no other cluster. With a handler a bad operand traps BADOPND with its value. -/
def Obligations.BankModesSwitch : Prop :=
  ∀ (s : State) (d a : Reg),
    let v := s.core.getG a
    let g := clusterOf s.core.id
    let bank := fun (t : State) (b : Nat) => (t.cluster g).bank (8 * (s.core.id % 4) + b)
    let asked := fun (b : Nat) => v.toNat / 2 ^ (2 * b) % 4
    let size := fun (b : Nat) => v.toNat / 2 ^ (2 * b + 16) % 4
    let bad := v.toNat / 2 ^ 32 ≠ 0 ∨ ∃ b, b < 8 ∧ asked b = 2 ∧ size b = 3
    (bad → handles s → exec (.bankm d a) s = traps s 0x06 v s.core.pc) ∧
    (¬ bad → ∃ (t : State) (fails : Nat → Bool),
      exec (.bankm d a) s = .next t ∧
      (∀ b, b < 8 → (fails b = true ↔ (bank s b).mode = 2 ∧ asked b ≠ 3 ∧ (asked b = 2 → size b ≠ (bank s b).slot) ∧
        ((bank s b).slots ≠ [] ∨ (bank s b).claims ≠ [] ∨ (bank s b).consumer ≠ none ∨ waitsOn s g (8 * (s.core.id % 4) + b)))) ∧
      (let after := fun (b : Nat) => if fails b || asked b = 3 then (bank s b).mode else asked b
       ((∀ b, b < 8 → after b ≠ 0) → exec (.bankm d a) s = puts s d 0x100) ∧
       ((∃ b, b < 8 ∧ after b = 0) →
         (d ≠ 0 → ∀ b, (t.core.getG d).getLsbD b = (decide (b < 8) && fails b)) ∧
         (∀ b, b < 8 → (bank t b).mode = after b ∧
           (fails b = true ∨ asked b = 3 ∨ (asked b = (bank s b).mode ∧ (asked b = 2 → size b = (bank s b).slot)) → bank t b = bank s b) ∧
           (fails b = false → asked b = 2 → (bank t b).slot = size b ∧
             ((bank s b).mode ≠ 2 ∨ (bank s b).slot ≠ size b →
               (bank t b).pushed = 0 ∧ (bank t b).popped = 0 ∧ (bank t b).slots = [] ∧ (bank t b).claims = []))) ∧
         (∀ n, n / 8 ≠ s.core.id % 4 → (t.cluster g).bank n = (s.cluster g).bank n) ∧
         (∀ f, f ∈ (t.cluster g).frames ↔ f ∈ (s.cluster g).frames ∧ ((t.cluster g).bank (f.frame / 16)).mode = 1) ∧
         { t with core := s.core, others := s.others, clusters := s.clusters, msgs := s.msgs } = s ∧
         (∀ h, h ≠ g → t.cluster h = s.cluster h) ∧
         { t.core with snaps := s.core.snaps, implicit := s.core.implicit } = (s.core.setG d (t.core.getG d)).next ∧
         (∀ c, c ≠ s.core.id → { t.coreAt c with snaps := (s.coreAt c).snaps, implicit := (s.coreAt c).implicit } = s.coreAt c))))

namespace Sys2Proof.Rules

open Sys2Proof.Machine

/-- An access of the current strand to n bytes at an address passes every check, in this device's memory, at this cell address, with no
implicit boundary due and no line of its page tables lost (R87, R370). -/
def passesChecks (s : State) (va : W64) (n : Nat) (need : Need) (sc : Option Scope) (record : Bool) (a : Nat) : Prop :=
  s.check va n need sc record = .ok a ∧ a + n ≤ physTop ∧ s.core.implicit = false ∧
    ∀ l ∈ s.walkLines s.core.context (backing (clusterOf s.core.id) va), l ∉ s.lost

/-- A store of n bytes would take the version beyond VQUOTA (R90): a version holds 128 B for each distinct line. -/
def quotaPassed (c : Core) (a n : Nat) : Prop :=
  c.version ≠ [] ∧
    c.vquota.toNat < 128 * ((c.version.map fun (x : Host.Cell) => x.1 / 128) ++ (List.range n).map fun j => (a + j) / 128).toFinset.card

/-- The state in which an agent of the current core has asked another device a question and waits for the answer (R385). -/
def asks (s : State) (who : Agent) (va : W64) (op : RemoteOp) : State :=
  { s with
    core := { s.core with
      remote := some { who := who, dev := va.toNat / 2 ^ 43 % 2 ^ 20, addr := va, since := s.clock, answer := none } }
    fabric := s.fabric ++
      [{ cls := 0, dev := va.toNat / 2 ^ 43 % 2 ^ 20, addr := va, core := s.core.id, data := [], op := some op }] }

/-- The address of a load or store (R37). -/
def accessAddr (s : State) (a : Reg) (o : BitVec 15) : W64 := s.core.getG a + BitVec.ofInt 64 o.toInt

/-- The bytes of memory outside n bytes at an address read as before. -/
def sameOutside (s t : State) (a n : Nat) : Prop := ∀ x, x < a ∨ a + n ≤ x → cellGet t.mem x = cellGet s.mem x

/-- The loads of R89 with their width and whether they sign-extend. -/
def loadOf (k : Fin 7) (d a : Reg) (o : BitVec 15) : Instr × Nat × Bool :=
  match k with
  | 0 => (.ldb d a o, 1, true)
  | 1 => (.ldbn d a o, 1, false)
  | 2 => (.ldh d a o, 2, true)
  | 3 => (.ldhn d a o, 2, false)
  | 4 => (.ldw d a o, 4, true)
  | 5 => (.ldwn d a o, 4, false)
  | 6 => (.ldd d a o, 8, false)

/-- The stores of R89 with their width. -/
def storeOf (k : Fin 4) (d a : Reg) (o : BitVec 15) : Instr × Nat :=
  match k with
  | 0 => (.stb d a o, 1)
  | 1 => (.sth d a o, 2)
  | 2 => (.stw d a o, 4)
  | 3 => (.std d a o, 8)

end Sys2Proof.Rules

/-- Memory: a byte written is the byte read, and equal memories are equal data (R2, R283). On memory in its canonical form, reading the
address written gives the byte, every other address reads as before, and bytes written in a row read back in a row (little-endian numbers of
n bytes read back modulo 2^8n). Two memories in the canonical form that read the same at every address are the same list. -/
def Obligations.MemoryReadsWhatIsWritten : Prop :=
  ((∀ (m : List Host.Cell) (a : Nat) (b : Byte), Memory.wf m = true →
     cellGet (cellPut m a b) a = b ∧ ∀ x, x ≠ a → cellGet (cellPut m a b) x = cellGet m x) ∧
   (∀ (m : List Host.Cell) (a : Nat) (bs : List Byte), Memory.wf m = true →
     cellBytes (cellPutBytes m a bs) a bs.length = bs ∧
     ∀ x, x < a ∨ a + bs.length ≤ x → cellGet (cellPutBytes m a bs) x = cellGet m x) ∧
   (∀ n v : Nat, leVal (leBytes n v) = v % 2 ^ (8 * n))) ∧
  (∀ m n : List Host.Cell, Memory.wf m = true → Memory.wf n = true → (∀ a, cellGet m a = cellGet n a) → m = n)

/-- Loads read the version, then the snapshot, then the committed line; stores enter the version, within its quota; both reach other devices
(R89, R90, R91, R87, R286, R287, R288, R293). A load of each form of R89, at an address that passes its checks in this device's memory, in a
line that is not lost, goes on with a load outstanding for gd of its width and extension: each byte is the version's byte if the version
holds it, otherwise the snapshot's byte if the line is under snapshot, otherwise, from a valid copy in the cluster, the committed byte, and
then the strand holds a snapshot of the 128 committed bytes; without a copy the byte is still to come and the line has been asked for. Any
other load outstanding for gd no longer writes it; no byte of memory and no other register changes. A store of each form of R89, at an
address that passes its checks in this device's memory, with no commit under way: when the version would pass VQUOTA, at 128 B for each line,
the store owes an implicit boundary and stands where it is; otherwise, with a version id held or free, it goes on, the w bytes of the version
at the checked address hold gd's low bytes, little-endian, every other byte of the version stays, no byte of committed memory changes, and no
register but the pc. A load or store that owes an implicit boundary whose commit has its number (or whose version is empty) ends the phase:
STATUS.PX is 1, no snapshot is left, nothing is owed, and the word stands to be done again. A line of another device that the cluster holds
no copy of is asked for at its home; the answer's bytes are a snapshot of the strand and a copy in the cluster's L1 under LEASE1 and in the
die's L2 under LEASE2; a load goes on with the bytes of the snapshot or of a live copy, and a refusal of the home traps with its cause. A
store to another device asks its home to check the address, and accepted enters the version like any other. -/
def Obligations.LoadsAndStores : Prop :=
  (∀ (s : State) (k : Fin 7) (d a : Reg) (o : BitVec 15) (pa : Nat),
     let i := loadOf k d a o
     let w := i.2.1
     let u := s.pin s.core.id s.core.context (accessAddr s a o)
     let l := lineOf pa
     passesChecks s (accessAddr s a o) w .read none false pa → l ∉ s.lost →
     ∃ (t : State) (bs : List (Option Byte)),
       exec i.1 s = .next t ∧
       t.core.pc = s.core.pc + 4 ∧
       (∃ rest, t.core.loads = rest ++ [{ gd := d, signed := i.2.2, addr := pa, bytes := bs }] ∧ (d ≠ 0 → ∀ p ∈ rest, p.gd ≠ d)) ∧
       bs.length = w ∧
       (∀ j, j < w →
         (∀ b, verGet s.core.version (pa + j) = some b → bs[j]? = some (some b)) ∧
         (verGet s.core.version (pa + j) = none →
           (∀ sn, u.core.snap? l = some sn → bs[j]? = some sn.bytes[(pa + j) % 128]?) ∧
           (u.core.snap? l = none →
             (u.copyBytes (clusterOf s.core.id) l u.core.acquired ≠ none →
               bs[j]? = some (some (cellGet s.mem (pa + j))) ∧ t.core.snap? l = some { line := l, bytes := cellBytes s.mem (l * 128) 128 }) ∧
             (u.copyBytes (clusterOf s.core.id) l u.core.acquired = none →
               bs[j]? = some none ∧ ∃ e, (t.cluster (clusterOf s.core.id)).entry l = some e ∧ e.xs ≠ .none)))) ∧
       (∀ x, cellGet t.mem x = cellGet s.mem x) ∧
       { t.core with pc := s.core.pc, seq := s.core.seq, reach := s.core.reach, micro := s.core.micro, path := s.core.path
                     loads := s.core.loads, snaps := s.core.snaps, implicit := s.core.implicit } = s.core) ∧
  (∀ (s : State) (k : Fin 4) (d a : Reg) (o : BitVec 15) (pa : Nat),
     let i := storeOf k d a o
     let w := i.2
     let u := s.pin s.core.id s.core.context (accessAddr s a o)
     passesChecks s (accessAddr s a o) w .write none false pa → s.core.commit = none →
     (quotaPassed s.core pa w → exec i.1 s = .next (u.upd { u.core with implicit := true })) ∧
     (∀ id, ¬ quotaPassed s.core pa w → (s.core.versionId = some id ∨ s.core.versionId = none ∧ u.freeVersion = some id) →
     ∃ t, exec i.1 s = .next t ∧
       t.core.pc = s.core.pc + 4 ∧
       t.core.versionId = some id ∧
       (s.core.version.Pairwise (fun x y => x.1 < y.1) →
         (∀ j, j < w → verGet t.core.version (pa + j) = some (BitVec.ofNat 8 (nv s d / 2 ^ (8 * j)))) ∧
         (∀ x, x < pa ∨ pa + w ≤ x → verGet t.core.version x = verGet s.core.version x)) ∧
       (∀ x, cellGet t.mem x = cellGet s.mem x) ∧
       { t.core with pc := s.core.pc, seq := s.core.seq, reach := s.core.reach, micro := s.core.micro, snaps := s.core.snaps
                     implicit := s.core.implicit, version := s.core.version, versionId := s.core.versionId
                     stores := s.core.stores } = s.core)) ∧
  (∀ (s : State) (k : Fin 7) (j : Fin 4) (d a : Reg) (o : BitVec 15) (i : Instr),
     i = (loadOf k d a o).1 ∨ i = (storeOf j d a o).1 → s.core.implicit = true → s.core.micro = 0 → s.core.vq = [] →
     (s.core.commit = none ∧ s.core.version = [] ∨ (∃ r n, s.core.commit = some r ∧ r.implied = true ∧ r.number = some n)) →
     ∃ t, exec i s = .next t ∧ t.core.status.getLsbD 0 = true ∧ t.core.snaps = [] ∧ t.core.implicit = false ∧ t.core.commit = none ∧
       (∀ x, cellGet t.mem x = cellGet s.mem x) ∧
       { t.core with status := s.core.status, snaps := s.core.snaps, implicit := s.core.implicit, commit := s.core.commit } = s.core) ∧
  (∀ (s : State) (k : Fin 7) (d a : Reg) (o : BitVec 15) (pa : Nat),
     let i := loadOf k d a o
     let w := i.2.1
     let l := lineOf pa
     let g := clusterOf s.core.id
     let line := remoteAddr (l * 128)
     s.check (accessAddr s a o) w .read none false = .ok pa → remoteBase ≤ pa → s.core.implicit = false →
     (∀ bs, ((∀ j, j < w → verGet s.core.version (pa + j) = none) ∧ bs.length = 128 ∧
         (s.core.snap? l = some { line := l, bytes := bs } ∨
           s.core.snap? l = none ∧ s.lost = [] ∧ s.copyBytes g l s.core.acquired = some bs)) →
       ∃ t rest, exec i.1 s = .next t ∧ t.core.pc = s.core.pc + 4 ∧ t.core.snap? l = some { line := l, bytes := bs } ∧
         t.core.loads = rest ++ [{ gd := d, signed := i.2.2, addr := pa, bytes := ((bs.drop (pa % 128)).take w).map some }]) ∧
     ((∃ j, j < w ∧ verGet s.core.version (pa + j) = none) → s.core.snap? l = none → s.copyBytes g l s.core.acquired = none →
       (∀ y ∈ s.l2leases, y.2.line ≠ l) →
       (s.core.remote = none → exec i.1 s = .next (asks s .seq line (.load 128 none))) ∧
       (∀ r bs, s.core.remote = some r → r.who = .seq → r.addr = line → r.answer = some (.data bs) →
         ∃ t, exec i.1 s = .next t ∧ t.core.pc = s.core.pc ∧ t.core.remote = none ∧ t.core.snap? l = some { line := l, bytes := bs } ∧
           (∃ x ∈ (t.cluster g).leases, x.line = l ∧ x.bytes = bs ∧
             x.expiry.toNat = (s.cycle + s.core.lease1.toNat) % 2 ^ 32) ∧
           (∃ y ∈ t.l2leases, y.1 = dieOf s.core.id ∧ y.2.line = l ∧ y.2.bytes = bs ∧
             y.2.expiry.toNat = (s.cycle + s.core.lease2.toNat) % 2 ^ 32)) ∧
       (∀ (r : RemoteReq) (c : Cause) (v : W64), s.core.remote = some r → r.who = .seq → r.addr = line →
         (c = .pageflt ∨ c = .prot ∨ c = .buserr ∨ c = .remote) → r.answer = some (.refused c.code v) → handles s →
         exec i.1 s = traps (s.upd { s.core with remote := none }) c.code (accessAddr s a o) s.core.pc))) ∧
  (∀ (s : State) (k : Fin 4) (d a : Reg) (o : BitVec 15) (pa id : Nat),
     let i := storeOf k d a o
     let w := i.2
     let va := accessAddr s a o
     s.check va w .write none false = .ok pa → remoteBase ≤ pa → s.core.implicit = false →
     (s.core.remote = none → exec i.1 s = .next (asks s .seq va (.check true w none false))) ∧
     (∀ r : RemoteReq, s.core.remote = some r → r.who = .seq → r.addr = va →
       (r.answer = some .done → s.core.commit = none → ¬ quotaPassed s.core pa w →
         (s.core.versionId = some id ∨ s.core.versionId = none ∧ s.freeVersion = some id) →
         ∃ t, exec i.1 s = .next t ∧ t.core.pc = s.core.pc + 4 ∧ t.core.remote = none ∧
           (s.core.version.Pairwise (fun x y => x.1 < y.1) →
             (∀ j, j < w → verGet t.core.version (pa + j) = some (BitVec.ofNat 8 (nv s d / 2 ^ (8 * j)))) ∧
             (∀ x, x < pa ∨ pa + w ≤ x → verGet t.core.version x = verGet s.core.version x)) ∧
           (∀ x, cellGet t.mem x = cellGet s.mem x)) ∧
       (∀ (c : Cause) (v : W64), (c = .pageflt ∨ c = .prot ∨ c = .buserr ∨ c = .remote) → r.answer = some (.refused c.code v) → handles s →
         exec i.1 s = traps (s.upd { s.core with remote := none }) c.code va s.core.pc)))

namespace Sys2Proof.Rules

open Sys2Proof.Machine

/-- The atomics of R96 by their code. -/
def atomicOf (k : Fin 10) (d a b : Reg) (z : Bool) (o : Order) (sc : Scope) : Instr :=
  match k with
  | 0 => .amoSwap d a b z o sc
  | 1 => .amoAdd d a b z o sc
  | 2 => .amoAnd d a b z o sc
  | 3 => .amoOr d a b z o sc
  | 4 => .amoXor d a b z o sc
  | 5 => .amoMin d a b z o sc
  | 6 => .amoMax d a b z o sc
  | 7 => .amoMinn d a b z o sc
  | 8 => .amoMaxn d a b z o sc
  | 9 => .cas d a b z o sc

/-- The updates of R99 with their tag and width. -/
def updateOf (k : Fin 13) (a b : Reg) (sc : Scope) : Instr × UpdTag × Nat :=
  match k with
  | 0 => (.updAddI32 a b sc, .addI32, 4)
  | 1 => (.updAddI64 a b sc, .addI64, 8)
  | 2 => (.updAddF32 a b sc, .addF32, 4)
  | 3 => (.updAddBf16x2 a b sc, .addBf16x2, 4)
  | 4 => (.updMaxI32 a b sc, .maxI32, 4)
  | 5 => (.updMinI32 a b sc, .minI32, 4)
  | 6 => (.updMaxN32 a b sc, .maxN32, 4)
  | 7 => (.updMinN32 a b sc, .minN32, 4)
  | 8 => (.updMaxF32 a b sc, .maxF32, 4)
  | 9 => (.updMinF32 a b sc, .minF32, 4)
  | 10 => (.updOr a b sc, .or, 8)
  | 11 => (.updAnd a b sc, .and, 8)
  | 12 => (.updXor a b sc, .xor, 8)

/-- The accesses to one address of R87's file: the instruction, the address, the width, what it asks of the page, the scope of a
synchronisation access, and whether check 3 of R292 is made (R89, R97, R100, R102, R105, R109, R111, R292). -/
inductive Accesses (s : State) : Instr → W64 → Nat → Need → Option Scope → Bool → Prop where
  | load (k : Fin 7) (d a : Reg) (o : BitVec 15) : Accesses s (loadOf k d a o).1 (accessAddr s a o) (loadOf k d a o).2.1 .read none false
  | store (k : Fin 4) (d a : Reg) (o : BitVec 15) : Accesses s (storeOf k d a o).1 (accessAddr s a o) (storeOf k d a o).2 .write none false
  | atomic (k : Fin 10) (d a b : Reg) (z : Bool) (o : Order) (sc : Scope) : s.core.micro = 0 →
      Accesses s (atomicOf k d a b z o sc) (s.core.getG a) (if z then 8 else 4) .write (some sc) true
  | update (k : Fin 13) (a b : Reg) (sc : Scope) : Accesses s (updateOf k a b sc).1 (s.core.getG a) (updateOf k a b sc).2.2 .write (some sc) true
  | waita (d a b : Reg) (z : Bool) (sc : Scope) : s.core.micro = 0 →
      Accesses s (.waita d a b z sc) (s.core.getG a) (if z then 8 else 4) .read (some sc) true
  | barinit (a b : Reg) (sc : Scope) : nv s b < 2 ^ 48 → Accesses s (.barinit a b sc) (s.core.getG a) 16 .write (some sc) false
  | barexp (a b : Reg) (sc : Scope) : Accesses s (.barexp a b sc) (s.core.getG a) 16 .write (some sc) true
  | bararr (d a b : Reg) (sc : Scope) : nv s b < 2 ^ 48 → s.core.micro = 0 →
      Accesses s (.bararr d a b sc) (s.core.getG a) 16 .write (some sc) true
  | barwait (d a b : Reg) (sc : Scope) : s.core.micro = 0 → Accesses s (.barwait d a b sc) (s.core.getG a) 16 .read (some sc) true
  | bartest (d a b : Reg) (sc : Scope) : s.core.micro = 0 → Accesses s (.bartest d a b sc) (s.core.getG a) 16 .read (some sc) true
  | enq (d a b : Reg) : bitsOf (s.core.getG b) 43 17 = 0 → Accesses s (.enq d a b) (s.core.getG a) 128 .read none false
  | dq (d a b : Reg) (q : Queue) : s.armed (s.core.getG a) = some q → Accesses s (.dq d a b) (s.core.getG b) 128 .write none false

/-- Cause 1 of R87: a local address with a nonzero bit in [62:48]. -/
def malformed (va : W64) : Prop := va.toNat < 2 ^ 63 ∧ va.toNat / 2 ^ 48 % 2 ^ 15 ≠ 0

/-- A global address that does not name this device (R27, R28). -/
def elsewhere (s : State) (va : W64) : Prop := 2 ^ 63 ≤ va.toNat ∧ ¬ (s.devValid = true ∧ va.toNat / 2 ^ 43 % 2 ^ 20 = s.devid)

/-- Checks 1 and 2 of R292 fail: a scope wider than the launch's, or narrower than .o for a line of another device. -/
def scopeRefused (s : State) (va : W64) (sc : Option Scope) : Prop :=
  ∃ q, sc = some q ∧ ((∃ b, s.launchScope = some b ∧ b < q.code) ∨ elsewhere s va ∧ q.code < 4)

/-- A plain access that a doorbell block of the context's takes: 8 bytes of PROG, TAKEN or STAT to read, or of TAIL to write (R373). -/
def doorbellTakes (s : State) (pa w : Nat) (need : Need) (sc : Option Scope) : Prop :=
  sc = none ∧ w = 8 ∧ (need = .read ∧ (pa % 64 = 8 ∨ pa % 64 = 16 ∨ pa % 64 = 24) ∨ need = .write ∧ pa % 64 = 0) ∧
  ∃ q x, doorbellQueue pa = some q ∧ s.queue? q = some x ∧ x.ctx = s.core.ctx.getD 0

/-- Check 3 of R292 fails: the line's record names a unit that the unit of the access's scope does not include. -/
def recordRefuses (s : State) (pa : Nat) (q : Scope) : Prop :=
  ∃ r, (s.lineInfo (lineOf pa)).scope = some r ∧ ¬ (r.1.code ≤ q.code ∧ scopeUnit q (s.issuer s.core.id) = scopeUnit q r.2)

end Sys2Proof.Rules

/-- An address that fails its checks traps with the first cause in the order of R87 (R87, R89, R97, R100, R102, R105, R109, R111, R291,
R292, R356, R373). With a handler at level 0 or 1, no implicit boundary due and none of the lines of its page tables lost, each load, store,
atomic, update, WAITA and barrier instruction, ENQ and DQ, once its other operands are right and before any of its later parts, traps with
the first of these that its address meets: ADDRFORM for a local address with a nonzero bit in [62:48]; ALIGN for one that is no multiple of
the width; SCOPE for a synchronisation access whose scope is wider than the launch's, or narrower than .o at another device's address;
REMOTE for another device's address while this one has no device id; and for an address of this device PAGEFLT without a leaf, PROT for a
leaf that gives no reading, or no writing to a write, BUSERR for bytes that are neither memory nor a doorbell quadword that the access may
use, and SCOPE for a line whose record the scope does not include (BARINIT never). EVAL is the address, EPC the instruction, and nothing
else changes. -/
def Obligations.BadAddressesTrap : Prop :=
  ∀ (s : State) (i : Instr) (va : W64) (w : Nat) (need : Need) (sc : Option Scope) (third : Bool),
    Accesses s i va w need sc third → handles s → s.core.implicit = false →
    (∀ l ∈ s.walkLines s.core.context (backing (clusterOf s.core.id) va), l ∉ s.lost) →
    let stops := fun (code : Nat) => exec i s = traps s code va s.core.pc
    let b := backing (clusterOf s.core.id) va
    (malformed va → stops 0x10) ∧
    (¬ malformed va → va.toNat % w ≠ 0 → stops 0x11) ∧
    (¬ malformed va → va.toNat % w = 0 → scopeRefused s va sc → stops 0x16) ∧
    (¬ malformed va → va.toNat % w = 0 → ¬ scopeRefused s va sc →
      (elsewhere s va → s.devValid = false → stops 0x15) ∧
      (¬ elsewhere s va → s.leafOf (s.core.ctx.getD 0) b = none → stops 0x12) ∧
      (¬ elsewhere s va → ∀ base size r wr x, s.leafOf (s.core.ctx.getD 0) b = some (base, size, r, wr, x) →
        let pa := base + b.toNat % size
        let forbidden := r = false ∨ need = .write ∧ wr = false
        (forbidden → stops 0x13) ∧
        (¬ forbidden → physTop < pa + w → ¬ doorbellTakes s pa w need sc → stops 0x14) ∧
        (¬ forbidden → pa + w ≤ physTop → third = true → ∀ q, sc = some q → recordRefuses s pa q → stops 0x16)))

namespace Sys2Proof.Rules

open Sys2Proof.Machine

/-- A load on its way still lacks bytes of a line that the version holds (log 57: its boundary waits for it). -/
def lacksBytes (c : Core) : Prop := ∃ p ∈ c.loads, none ∈ p.bytes ∧ ∃ x ∈ c.version, x.1 / 128 = p.addr / 128

/-- The commit that a boundary starts (R92, R284, R313): markers go to every destination the strand's messages and its version's stores have. -/
def starts (c : Core) (implied : Bool) (r : CommitRec) : Prop :=
  (∀ x, x ∈ r.dests ↔ x ∈ c.path ∨ ∃ y ∈ c.version, y.1 < remoteBase ∧ x = homeSlice (y.1 / 128 * 128)) ∧
  r.marked = [] ∧ r.acked = [] ∧ r.number = none ∧ r.implied = implied

/-- A remote home within the scope has not acknowledged the stores of commit n (R92). -/
def owed (s : State) (sc : Scope) (n : Nat) : Prop := ∃ q ∈ s.core.acks, q.1 = n ∧ (sc = .o ∧ q.2 / 1024 = s.devid / 1024 ∨ sc = .x)

end Sys2Proof.Rules

/-- PHASE and FENCE (R92, R93, R94, R284). Within the launch's scope and with no implicit boundary due and no vector block outstanding:
PHASE of a version of no byte gives PX above number 0 and clears PX at once; with bytes it starts a commit of the version's lines (once no
load lacks bytes of them, the model's choice of log 57), waits for its number and, at .o and .x, for every remote home in the scope that owes
an acknowledgement of it, and then gives PX above that number, ends the commit and clears PX, its snapshots released. FENCE first waits until
no update of the strand waits and, at .d and wider, every destination of the path record has acknowledged; then it makes the same boundary,
writes no register and leaves PX. -/
def Obligations.PhasesAndFencesComplete : Prop :=
  (∀ (s : State) (d : Reg) (sc : Scope), s.scopeInLaunch sc = true → s.core.implicit = false → s.core.vq = [] →
    let answer := fun (t : State) (n : Nat) =>
      t.upd ((({ t.core with status := t.core.status &&& ~~~1 } : Core).setG d (BitVec.ofNat 64 (t.core.status.toNat % 2 * 2 ^ 63 + n))).next)
    (s.core.commit = none → s.core.version = [] → exec (.phase d sc) s = .next (answer (s.releaseSnaps s.core.id) 0)) ∧
    (s.core.commit = none → s.core.version ≠ [] → lacksBytes s.core → exec (.phase d sc) s = .next s) ∧
    (s.core.commit = none → s.core.version ≠ [] → ¬ lacksBytes s.core →
      ∃ r, exec (.phase d sc) s = .next (s.upd { s.core with commit := some r }) ∧ starts s.core false r) ∧
    (∀ r n, s.core.commit = some r → r.number = some n →
      (¬ owed s sc n → exec (.phase d sc) s = .next (answer (({ s with core := { s.core with commit := none } }).releaseSnaps s.core.id) n)) ∧
      (owed s sc n → exec (.phase d sc) s = .next s)) ∧
    (∀ r, s.core.commit = some r → r.number = none → exec (.phase d sc) s = .next s)) ∧
  (∀ (s : State) (sc : Scope), s.scopeInLaunch sc = true → s.core.implicit = false → s.core.vq = [] →
    let waits := ((s.cluster (clusterOf s.core.id)).filter.any fun e => e.queue.any fun u => u.core == s.core.id) = true
    (s.core.micro = 0 → waits → exec (.fence sc) s = .next s) ∧
    (s.core.micro = 0 → ¬ waits → (sc = .c ∨ sc = .k ∨ s.core.fence = none ∧ s.core.path = []) →
      exec (.fence sc) s = .next { s with core := { s.core with micro := 1 } }) ∧
    (s.core.micro = 0 → ¬ waits → sc ≠ .c → sc ≠ .k → s.core.fence = none → s.core.path ≠ [] →
      exec (.fence sc) s = .next { s with core := { s.core with fence := some { dests := s.core.path, marked := [], acked := [] } } }) ∧
    (s.core.micro = 0 → ¬ waits → sc ≠ .c → sc ≠ .k → ∀ f, s.core.fence = some f →
      ((∀ x ∈ f.dests, x ∈ f.acked) →
        exec (.fence sc) s = .next { s with core := { s.core with fence := none, path := [], micro := 1 } }) ∧
      (¬ (∀ x ∈ f.dests, x ∈ f.acked) → exec (.fence sc) s = .next s)) ∧
    (s.core.micro = 1 →
      let ends := fun (t : State) => (t.releaseSnaps s.core.id).upd { (t.releaseSnaps s.core.id).core with micro := 2 }
      (s.core.commit = none → s.core.version = [] → exec (.fence sc) s = .next ((ends s).upd (ends s).core.next)) ∧
      (s.core.commit = none → s.core.version ≠ [] → lacksBytes s.core → exec (.fence sc) s = .next s) ∧
      (s.core.commit = none → s.core.version ≠ [] → ¬ lacksBytes s.core →
        ∃ r, exec (.fence sc) s = .next (s.upd { s.core with commit := some r }) ∧ starts s.core false r) ∧
      (∀ r, s.core.commit = some r → r.number = none → exec (.fence sc) s = .next s) ∧
      (∀ r n, s.core.commit = some r → r.number = some n →
        let e := ends (s.upd { s.core with commit := none })
        (¬ owed s sc n → exec (.fence sc) s = .next (e.upd e.core.next)) ∧ (owed s sc n → exec (.fence sc) s = .next s))))

namespace Sys2Proof.Rules

open Sys2Proof.Machine

/-- The value an atomic leaves at its address (R96): n bits, old, operand b, compare value c. -/
def atomicNew (k : Fin 10) (n old b c : Nat) : Nat :=
  match k with
  | 0 => b
  | 1 => (old + b) % 2 ^ n
  | 2 => old &&& b
  | 3 => old ||| b
  | 4 => old ^^^ b
  | 5 => if asSigned n b < asSigned n old then b else old
  | 6 => if asSigned n old < asSigned n b then b else old
  | 7 => min old b
  | 8 => max old b
  | 9 => if old = c then b else old

/-- What an atomic gives its register (R96). -/
def atomicResult (k : Fin 10) (w old : Nat) : Int := if (k = 5 ∨ k = 6) ∧ w = 4 then asSigned 32 old else old

/-- The integer and bitwise combinations of R99; the floating-point ones are not numbers here. -/
def combined (k : Fin 13) (p b : Nat) : Option Nat :=
  match k with
  | 0 => some ((p + b) % 2 ^ 32)
  | 1 => some ((p + b) % 2 ^ 64)
  | 4 => some (if asSigned 32 p < asSigned 32 b then b else p)
  | 5 => some (if asSigned 32 b < asSigned 32 p then b else p)
  | 6 => some (max p b)
  | 7 => some (min p b)
  | 10 => some (p ||| b)
  | 11 => some (p &&& b)
  | 12 => some (p ^^^ b)
  | _ => none

/-- The forms that have more to do before their effect and check their address first (R9, R87, R97, R102, R105): an atomic under release
order, BARARR, BARWAIT and WAITA; the register with the address, the width, what is asked of the page, the scope. -/
inductive ChecksFirst (s : State) : Instr → Reg → Nat → Need → Scope → Prop where
  | atomic (k : Fin 10) (d a b : Reg) (z : Bool) (o : Order) (sc : Scope) : o = .rel ∨ o = .ar →
      ChecksFirst s (atomicOf k d a b z o sc) a (if z then 8 else 4) .write sc
  | bararr (d a b : Reg) (sc : Scope) : nv s b < 2 ^ 48 → ChecksFirst s (.bararr d a b sc) a 16 .write sc
  | barwait (d a b : Reg) (sc : Scope) : ChecksFirst s (.barwait d a b sc) a 16 .read sc
  | waita (d a b : Reg) (z : Bool) (sc : Scope) : ChecksFirst s (.waita d a b z sc) a (if z then 8 else 4) .read sc

/-- The state once the address of an instruction has been checked and its translation and page noted. -/
abbrev pinned (s : State) (va : W64) : State := s.pin s.core.id s.core.context va

/-- An atomic comes to its effect at a cell address (R97): its checks passed just now or, under release order, with its fence done. -/
def reaches (s : State) (va : W64) (w : Nat) (o : Order) (sc : Scope) (pa : Nat) : Prop :=
  (o = .rlx ∨ o = .acq) ∧ s.core.micro ≠ 3 ∧ s.core.implicit = false ∧ s.check va w .write (some sc) true = .ok pa ∨
  (o = .rel ∨ o = .ar) ∧ s.core.micro = 2 ∧ s.core.target = some pa

end Sys2Proof.Rules

/-- Atomics act on the owned line; updates join the cluster's partial (R95, R96, R97, R98, R87, R99, R100, R313). An atomic of every operation
and size that comes to its effect at an address of this device, in a line that is not lost (nor one of its page tables) and that its cluster owns (M): the w bytes there
become the value of R96, every other byte of memory stays, gd gets the old value as R96 says, the line's tag and LASTTAG go up by 1, the
line's scope record names the scope and the issuer, and no other register changes; without acquire order the next word follows, with it the
boundary at the same word (then, with an empty version, it goes on). An atomic in a line its cluster does not hold asks for ownership and
stays. In a line of another device it drops the cluster's copy and asks the home; the answer's bytes are the old value and the tag. Under
release order an atomic first makes its checks (a line of another device is checked at its home, whose refusal traps before anything is
committed), as BARARR, BARWAIT and WAITA do; then the fence; then the effect. An update at an address that passes its checks in this device's
memory goes on, changes no committed byte and no register, records its scope on the line and its destination in the path record. Where the
cluster holds the line in U under its tag with no update waiting, the element of its partial becomes the combination of R99 and its touched
bit is set; where it holds nothing of the line, the update waits and its home is asked. An update of another device's line asks its home and
goes on when it has answered. -/
def Obligations.AtomicsAndUpdates : Prop :=
  (∀ (s : State) (k : Fin 10) (d a b : Reg) (z : Bool) (o : Order) (sc : Scope) (pa : Nat),
     let w := if z then 8 else 4
     let va := s.core.getG a
     let i := atomicOf k d a b z o sc
     let old := leVal (cellBytes s.mem pa w)
     let arg := nv s b % 2 ^ (8 * w)
     let cmp := nv s d % 2 ^ (8 * w)
     let g := clusterOf s.core.id
     let u := if o = .rlx ∨ o = .acq then pinned s va else s
     (reaches s va w o sc pa → pa + w ≤ physTop → Memory.wf s.mem = true → lineOf pa ∉ s.lost →
       (∀ l ∈ s.walkLines s.core.context (backing g va), l ∉ s.lost) →
       (∀ e, (u.cluster g).entry (lineOf pa) = some e → e.st = .m → e.xs = .none →
         ∃ t, exec i s = .next t ∧
           leVal (cellBytes t.mem pa w) = atomicNew k (8 * w) old arg cmp ∧ sameOutside s t pa w ∧
           (d ≠ 0 → t.core.getG d = BitVec.ofInt 64 (atomicResult k w old)) ∧
           (∀ r : Reg, r ≠ d → t.core.getG r = s.core.getG r) ∧
           t.core.lasttag = ((s.lineInfo (lineOf pa)).tag + 1).zeroExtend 64 ∧
           t.lineInfo (lineOf pa) = { line := lineOf pa, tag := (s.lineInfo (lineOf pa)).tag + 1, scope := some (sc, s.issuer s.core.id) } ∧
           t.core.l = s.core.l ∧ t.core.v = s.core.v ∧ t.core.fctl = s.core.fctl ∧ t.core.status = s.core.status ∧
           t.core.version = s.core.version ∧
           (if o = .acq ∨ o = .ar then t.core.pc = s.core.pc ∧ t.core.micro = 3 else t.core.pc = s.core.pc + 4)) ∧
       ((u.cluster g).entry (lineOf pa) = none →
         ∃ t, exec i s = .next t ∧ t.core = { u.core with claim := some (lineOf pa, s.core.pc), path := t.core.path } ∧
           lineHome (lineOf pa) ∈ t.core.path ∧ (∀ x ∈ s.core.path, x ∈ t.core.path) ∧
           (∀ x, cellGet t.mem x = cellGet s.mem x) ∧ Msg.grantReq g (lineOf pa) ∈ t.msgs)) ∧
     (reaches s va w o sc pa → remoteBase ≤ pa →
       (s.core.remote = none → ∃ t, exec i s = .next t ∧ t.core.pc = s.core.pc ∧ (∀ x ∈ (t.cluster g).leases, x.line ≠ lineOf pa) ∧
         t.core.remote = (asks s .seq va (.atomic k.val z (BitVec.ofNat 64 arg) (BitVec.ofNat 64 cmp) sc)).core.remote ∧
         t.fabric = (asks s .seq va (.atomic k.val z (BitVec.ofNat 64 arg) (BitVec.ofNat 64 cmp) sc)).fabric) ∧
       (∀ r bs, s.core.remote = some r → r.who = .seq → r.addr = va → r.answer = some (.data bs) →
         ∃ t, exec i s = .next t ∧ t.core.remote = none ∧ (∀ x, cellGet t.mem x = cellGet s.mem x) ∧
           (d ≠ 0 → t.core.getG d = BitVec.ofInt 64 (atomicResult k w (leVal (bs.take w)))) ∧
           (∀ q : Reg, q ≠ d → t.core.getG q = s.core.getG q) ∧
           t.core.lasttag = BitVec.ofNat 64 (leVal ((bs.drop w).take 4)) ∧
           (if o = .acq ∨ o = .ar then t.core.pc = s.core.pc ∧ t.core.micro = 3 else t.core.pc = s.core.pc + 4))) ∧
     (o = .rel ∨ o = .ar → ∀ q, s.core.target = some q → s.core.vq = [] →
       (s.core.micro = 4 → ((s.cluster g).filter.any fun e => e.queue.any fun u => u.core == s.core.id) = false →
         (sc = .c ∨ sc = .k ∨ s.core.fence = none ∧ s.core.path = []) → exec i s = .next (s.upd { s.core with micro := 1 })) ∧
       (s.core.micro = 1 → s.core.commit = none → s.core.version = [] →
         let t := s.releaseSnaps s.core.id
         exec i s = exec i (t.upd { t.core with micro := 2 }))) ∧
     (s.core.micro = 3 → s.core.vq = [] → s.core.commit = none → s.core.version = [] →
       exec i s = .next ((s.releaseSnaps s.core.id).upd (s.releaseSnaps s.core.id).core.next))) ∧
  (∀ (s : State) (i : Instr) (a : Reg) (w : Nat) (need : Need) (sc : Scope) (pa : Nat), ChecksFirst s i a w need sc → s.core.micro = 0 →
     let va := s.core.getG a
     (passesChecks s va w need (some sc) true pa →
       exec i s = .next ((pinned s va).upd { (pinned s va).core with micro := 4, target := some pa })) ∧
     (s.core.implicit = false → s.check va w need (some sc) true = .ok pa → remoteBase ≤ pa →
       (s.core.remote = none → exec i s = .next (asks s .seq va (.check (need == .write) w (some sc) true))) ∧
       (∀ r : RemoteReq, s.core.remote = some r → r.who = .seq → r.addr = va →
         (r.answer = some .done → exec i s = .next (s.upd { s.core with remote := none, micro := 4, target := some pa })) ∧
         (∀ (c : Cause) (v : W64), (c = .pageflt ∨ c = .prot ∨ c = .buserr ∨ c = .scope ∨ c = .remote) → r.answer = some (.refused c.code v) →
           handles s → exec i s = traps (s.upd { s.core with remote := none }) c.code va s.core.pc)))) ∧
  (∀ (s : State) (k : Fin 13) (a b : Reg) (sc : Scope) (pa : Nat),
     let i := updateOf k a b sc
     let w := i.2.2
     let g := clusterOf s.core.id
     let l := lineOf pa
     let va := s.core.getG a
     (passesChecks s va w .write (some sc) true pa →
       (∃ t, exec i.1 s = .next t ∧ t.core.pc = s.core.pc + 4 ∧ (∀ x, cellGet t.mem x = cellGet s.mem x) ∧
         (∀ r : Reg, t.core.getG r = s.core.getG r) ∧ t.core.fctl = s.core.fctl ∧ t.core.version = s.core.version ∧
         (t.lineInfo l).scope = some (sc, s.issuer s.core.id) ∧ lineHome l ∈ t.core.path ∧
         (((pinned s va).cluster g).entry l = none → Msg.updReq g l i.2.1 ∈ t.msgs ∧
           ∃ e, (t.cluster g).entry l = some e ∧ e.queue = [{ core := s.core.id, tag := i.2.1, addr := pa, b := s.core.getG b }])) ∧
       (∀ e p, ((pinned s va).cluster g).entry l = some e → e.st = .u → e.xs = .none → e.queue = [] → e.part = some p → p.tag = i.2.1 →
         p.bytes.length = 128 →
         ∃ t q f, exec i.1 s = .next t ∧ (t.cluster g).entry l = some f ∧ f.part = some q ∧ f.queue = [] ∧
           q.tag = p.tag ∧
           (∀ n, combined k (leVal ((p.bytes.drop (pa % 128)).take w)) (nv s b % 2 ^ (8 * w)) = some n →
             leVal ((q.bytes.drop (pa % 128)).take w) = n) ∧
           (∀ j, j < 128 → (j < pa % 128 ∨ pa % 128 + w ≤ j) → q.bytes[j]? = p.bytes[j]?))) ∧
     (s.core.implicit = false → s.check va w .write (some sc) true = .ok pa → remoteBase ≤ pa →
       (s.core.remote = none → ∃ t, exec i.1 s = .next t ∧ t.core.pc = s.core.pc ∧ (∀ x ∈ (t.cluster g).leases, x.line ≠ l) ∧
         t.core.remote = (asks s .seq va (.upd i.2.1 (s.core.getG b) sc)).core.remote ∧
         t.fabric = (asks s .seq va (.upd i.2.1 (s.core.getG b) sc)).fabric) ∧
       (∀ r : RemoteReq, s.core.remote = some r → r.who = .seq → r.addr = va → r.answer = some .done →
         ∃ t, exec i.1 s = .next t ∧ t.core.pc = s.core.pc + 4 ∧ t.core.remote = none ∧ (∀ x, cellGet t.mem x = cellGet s.mem x) ∧
           (∀ q : Reg, t.core.getG q = s.core.getG q))))

namespace Sys2Proof.Rules

open Sys2Proof.Machine

/-- The strand of the current core returns from a wait with a value: it stands at the next word in a new phase, no snapshot left, holding
no monitor; no byte of memory and no other register changes (R102, R105, R110). -/
def returns (s t : State) (d : Reg) (x : W64) : Prop :=
  t.core.pc = s.core.pc + 4 ∧ (d ≠ 0 → t.core.getG d = x) ∧ (∀ r : Reg, r ≠ d → t.core.getG r = s.core.getG r) ∧ t.core.snaps = [] ∧
  (∀ a, cellGet t.mem a = cellGet s.mem a)

end Sys2Proof.Rules

/-- WAITA compares, sleeps and wakes; hints change no byte (R102, R101, R94, R103, R271). WAITA whose checks have passed, at an address of
this device: first the boundary (with an empty version it takes one step), which records the scope; then with all 32 monitors of the cluster
held it gives 1; otherwise, when the committed value there can be read and the line is not lost, a value that differs gives 0, an equal one
gives 2 for a task being cancelled, and else the strand sleeps with a monitor, as it does when the value cannot be read yet; one asleep is
woken by a value that differs with 0, and otherwise by a cancel with 2, and else sleeps on; each return begins a new phase and releases the
monitor. PFH.l1, PFH.l2, RSD.keep, RSD.low and RSD.clean, in every state and for every range, go on to the next word; no byte of memory, no
register but the pc and no special register but HINTDROP changes; a range that fails its check in one 4 KiB granule adds 1 to HINTDROP, which
stays at its maximum; a granule of another device asks its home and waits for nothing; PFH.l1 of a line its cluster does not hold asks for
it, and RSD.keep and RSD.low mark it in the cluster. -/
def Obligations.WaitaAndHints : Prop :=
  ((∀ (s : State) (d a b : Reg) (z : Bool) (sc : Scope) (pa : Nat),
     let w := if z then 8 else 4
     let g := clusterOf s.core.id
     let val := nv s b % 2 ^ (8 * w)
     s.core.target = some pa → pa % w = 0 → pa + w ≤ physTop → lineOf pa ∉ s.lost →
     (s.core.micro = 4 → s.core.vq = [] → s.core.commit = none → s.core.version = [] →
       ∃ t, exec (.waita d a b z sc) s = .next t ∧ t.core.micro = 1 ∧ t.core.pc = s.core.pc ∧ t.core.target = some pa ∧ t.core.snaps = [] ∧
         (t.lineInfo (lineOf pa)).scope = some (sc, s.issuer s.core.id)) ∧
     (s.core.micro = 1 →
       (32 ≤ (s.cluster g).monitors.length → ∃ t, exec (.waita d a b z sc) s = .next t ∧ returns s t d 1) ∧
       ((s.cluster g).monitors.length < 32 → s.rangeSettled pa w = false →
         ∃ t, exec (.waita d a b z sc) s = .next t ∧ t.core = { s.core with seq := .waita d pa w (BitVec.ofNat 64 val) } ∧
           { core := s.core.id, line := lineOf pa } ∈ (t.cluster g).monitors) ∧
       ((s.cluster g).monitors.length < 32 → s.rangeSettled pa w = true → (s.dirLine (lineOf pa)).hs ≠ .upd →
         let v := leVal (cellBytes s.mem pa w)
         (v ≠ val → ∃ t, exec (.waita d a b z sc) s = .next t ∧ returns s t d 0) ∧
         (v = val → s.core.canf = true → ∃ t, exec (.waita d a b z sc) s = .next t ∧ returns s t d 2) ∧
         (v = val → s.core.canf = false →
           ∃ t, exec (.waita d a b z sc) s = .next t ∧ t.core = { s.core with seq := .waita d pa w (BitVec.ofNat 64 val) } ∧
             { core := s.core.id, line := lineOf pa } ∈ (t.cluster g).monitors)))) ∧
   (∀ (s : State) (d : Reg) (a w : Nat) (val : W64), s.core.seq = .waita d a w val → a + w ≤ physTop → a % 128 + w ≤ 128 → 0 < w →
     let v := leVal (cellBytes s.mem a w)
     (s.rangeSettled a w = true → (s.dirLine (lineOf a)).hs ≠ .upd →
       (v ≠ val.toNat → ∃ t, exec (.waitaWake s.core.id) s = .next t ∧ returns s t d 0 ∧
         ∀ m ∈ (t.cluster (clusterOf s.core.id)).monitors, m.core ≠ s.core.id) ∧
       (v = val.toNat → s.core.canf = true → ∃ t, exec (.waitaWake s.core.id) s = .next t ∧ returns s t d 2 ∧
         ∀ m ∈ (t.cluster (clusterOf s.core.id)).monitors, m.core ≠ s.core.id) ∧
       (v = val.toNat → s.core.canf = false → exec (.waitaWake s.core.id) s = .next s)) ∧
     (s.rangeSettled a w = false → exec (.waitaWake s.core.id) s = .next s))) ∧
  ((∀ (s : State) (a b : Reg),
     let goes := fun (t : State) =>
       t.core.pc = s.core.pc + 4 ∧ t.mem = s.mem ∧
       { t.core with pc := s.core.pc, seq := s.core.seq, reach := s.core.reach, micro := s.core.micro, hintdrop := s.core.hintdrop
                     hints := s.core.hints, path := s.core.path } = s.core ∧
       (nv s b = 0 → t = { s with core := s.core.next }) ∧
       (nv s b ≠ 0 → nv s a % 4096 + nv s b ≤ 4096 →
         (∀ c v, s.checkPage (s.core.ctx.getD 0) (clusterOf s.core.id) (s.core.getG a) 1 .read = .error (c, v) →
           t.core.hintdrop.toNat = min (2 ^ 64 - 1) (s.core.hintdrop.toNat + 1)) ∧
         (∀ pa, s.checkPage (s.core.ctx.getD 0) (clusterOf s.core.id) (s.core.getG a) 1 .read = .ok pa →
           t.core.hintdrop = s.core.hintdrop ∧
           (pa < remoteBase → t.core.hints = s.core.hints) ∧
           (remoteBase ≤ pa → ∃ q m, t.core.hints = s.core.hints ++ [q] ∧ t.fabric = s.fabric ++ [m] ∧ m.core = s.core.id ∧
             m.dev = globalDev (s.core.getG a) ∧ m.addr = q.addr ∧ q.addr.toNat = nv s a / 128 * 128)))
     (∃ t, exec (.pfhL1 a b) s = .next t ∧ goes t) ∧ (∃ t, exec (.pfhL2 a b) s = .next t ∧ goes t) ∧
     (∃ t, exec (.rsdKeep a b) s = .next t ∧ goes t) ∧ (∃ t, exec (.rsdLow a b) s = .next t ∧ goes t) ∧
     (∃ t, exec (.rsdClean a b) s = .next t ∧ goes t)) ∧
   (∀ (s : State) (a b : Reg) (pa : Nat), 0 < nv s b → pa % 128 + nv s b ≤ 128 → nv s a % 4096 + nv s b ≤ 4096 → pa < physTop →
     s.checkPage (s.core.ctx.getD 0) (clusterOf s.core.id) (s.core.getG a) 1 .read = .ok pa →
     let g := clusterOf s.core.id
     ((s.cluster g).entry (lineOf pa) = none → ∃ t, exec (.pfhL1 a b) s = .next t ∧ Msg.readReq g (lineOf pa) ∈ t.msgs) ∧
     (∃ t, exec (.rsdKeep a b) s = .next t ∧ assoc (g * 2 ^ 64 + lineOf pa) t.retain = some 0) ∧
     (∃ t, exec (.rsdLow a b) s = .next t ∧ assoc (g * 2 ^ 64 + lineOf pa) t.retain = some 1)))

namespace Sys2Proof.Rules

open Sys2Proof.Machine

/-- The value of a barrier object (R104): EXPECT [127:80], ARRIVED [79:32], res [31:2], ERR [1], TURN [0]. -/
def barrierValue (expect arrived : Nat) (err turn : Bool) : Nat :=
  expect * 2 ^ 80 + arrived * 2 ^ 32 + (if err then 2 else 0) + (if turn then 1 else 0)

/-- The object stands at an address: 16 settled bytes of this device's memory with a clear res field, in no lost line and not in U. -/
def barrierAt (s : State) (a expect arrived : Nat) (err turn : Bool) : Prop :=
  a % 16 = 0 ∧ a + 16 ≤ physTop ∧ expect < 2 ^ 48 ∧ arrived < 2 ^ 48 ∧ Memory.wf s.mem = true ∧
  leVal (cellBytes s.mem a 16) = barrierValue expect arrived err turn ∧
  s.rangeSettled a 16 = true ∧ (s.dirLine (lineOf a)).hs ≠ .upd ∧ lineOf a ∉ s.lost

/-- The object that credit(c, e) leaves (R104), as its value. -/
def credited (expect arrived : Nat) (err turn : Bool) (c : Nat) (e : Bool) : Nat :=
  if e then barrierValue expect 0 true (!turn)
  else
    let x := arrived + c
    if expect ≠ 0 ∧ expect ≤ x then
      let y := x - expect
      if expect ≤ y then barrierValue expect 0 true (!turn)
      else if 2 ^ 48 - 1 < y then barrierValue expect (2 ^ 48 - 1) true (!turn)
      else barrierValue expect y err (!turn)
    else if 2 ^ 48 - 1 < x then barrierValue expect (2 ^ 48 - 1) true turn
    else barrierValue expect x err turn

end Sys2Proof.Rules

/-- Barrier instructions, credits and waits (R104, R105, R93, R106). On a well-formed object in this device's memory that its home can act
on: BARINIT sets EXPECT and clears the rest (whatever stood there); BAREXP adds to EXPECT and makes credit(0, false) while the sum fits, and
with a handler traps BADOPND otherwise; BARARR, its fence done, credits and gives the turn as it stood; each changes no other byte and goes
on. A credit in flight to the object, performed by BARRIER_CREDIT, leaves the object of R104's credit and no other byte changed; one to
another device goes out to it. On a well-formed object: BARWAIT, its checks passed, first makes its boundary (one step with an empty version)
and then gives ERR when the object has the awaited turn, 2 for a task being cancelled, and otherwise sleeps; one asleep is woken with ERR by
the turn and with 2 by a cancel and else sleeps on; each return begins a new phase, and one that saw the turn acquires; BARTEST gives 0 at the
other turn and, at the awaited one, after a boundary 1 with ERR above it. No byte of memory changes. For an object of another device each of
the five asks its home and acts on the answer. -/
def Obligations.BarriersTakeCreditsAndWait : Prop :=
  ((∀ (s : State) (d a b : Reg) (sc : Scope) (pa expect arrived : Nat) (err turn : Bool),
     let va := s.core.getG a
     (barrierAt (pinned s va) pa expect arrived err turn →
       (passesChecks s va 16 .write (some sc) false pa → nv s b < 2 ^ 48 →
         ∃ t, exec (.barinit a b sc) s = .next t ∧ t.core.pc = s.core.pc + 4 ∧
           leVal (cellBytes t.mem pa 16) = barrierValue (nv s b) 0 false false ∧ sameOutside s t pa 16) ∧
       (passesChecks s va 16 .write (some sc) true pa →
         (expect + nv s b < 2 ^ 48 →
           ∃ t, exec (.barexp a b sc) s = .next t ∧ t.core.pc = s.core.pc + 4 ∧
             leVal (cellBytes t.mem pa 16) = credited (expect + nv s b) arrived err turn 0 false ∧ sameOutside s t pa 16) ∧
         (2 ^ 48 ≤ expect + nv s b → handles s → ∃ t, exec (.barexp a b sc) s = .next t ∧
           t.core.pc = s.core.tvec ∧ (s.core.lvl = 0 → t.core.bank0.ecause = 6 ∧ t.core.bank0.eval = s.core.getG b ∧ t.core.bank0.epc = s.core.pc) ∧
           t.mem = s.mem ∧ t.lines = s.lines))) ∧
     (barrierAt s pa expect arrived err turn → s.core.target = some pa → nv s b < 2 ^ 48 → s.core.micro = 2 →
       ∃ t, exec (.bararr d a b sc) s = .next t ∧ t.core.pc = s.core.pc + 4 ∧
         (d ≠ 0 → t.core.getG d = if turn then 1 else 0) ∧
         leVal (cellBytes t.mem pa 16) = credited expect arrived err turn (nv s b) false ∧ sameOutside s t pa 16)) ∧
   (∀ (s : State) (b : Reg) (a d : Reg) (sc : Scope), handles s → 2 ^ 48 ≤ nv s b →
     exec (.barinit a b sc) s = traps s 0x06 (s.core.getG b) s.core.pc ∧
     exec (.bararr d a b sc) s = traps s 0x06 (s.core.getG b) s.core.pc) ∧
   (∀ (s : State) (k : Nat) (c : Credit) (expect arrived : Nat) (err turn : Bool), s.credits[k]? = some c →
     (barrierAt s c.addr expect arrived err turn →
       ∃ t, exec (.barrierCredit k) s = .next t ∧ t.credits = s.credits.eraseIdx k ∧
         leVal (cellBytes t.mem c.addr 16) = credited expect arrived err turn c.count c.err ∧ sameOutside s t c.addr 16) ∧
     (remoteBase ≤ c.addr →
       ∃ m, exec (.barrierCredit k) s = .next { s with credits := s.credits.eraseIdx k, fabric := s.fabric ++ [m] } ∧
         m.cls = 0 ∧ m.dev = remoteDev c.addr ∧ m.addr = remoteAddr c.addr ∧ m.credit = some c ∧
         m.op = some (.barrier (if c.err then 3 else 2) c.count none)))) ∧
  ((∀ (s : State) (d a b : Reg) (sc : Scope) (pa expect arrived : Nat) (err turn : Bool),
     let va := s.core.getG a
     let want := decide (nv s b % 2 = 1)
     (s.core.target = some pa → barrierAt s pa expect arrived err turn →
       (s.core.micro = 4 → s.core.vq = [] → s.core.commit = none → s.core.version = [] →
         ∃ t, exec (.barwait d a b sc) s = .next t ∧ t.core.micro = 1 ∧ t.core.pc = s.core.pc ∧ t.core.target = some pa ∧ t.core.snaps = [] ∧
           t.mem = s.mem ∧ (t.lineInfo (lineOf pa)).scope = some (sc, s.issuer s.core.id)) ∧
       (s.core.micro = 1 →
         (turn = want → ∃ t, exec (.barwait d a b sc) s = .next t ∧ returns s t d (if err then 1 else 0) ∧ t.core.acquired = s.clock) ∧
         (turn ≠ want → s.core.canf = true → ∃ t, exec (.barwait d a b sc) s = .next t ∧ returns s t d 2) ∧
         (turn ≠ want → s.core.canf = false →
           exec (.barwait d a b sc) s = .next (s.upd { s.core with seq := .barwait d pa want })))) ∧
     (barrierAt (pinned s va) pa expect arrived err turn → passesChecks s va 16 .read (some sc) true pa → s.core.micro = 0 →
       (turn ≠ want → ∃ t, exec (.bartest d a b sc) s = .next t ∧ t.core.pc = s.core.pc + 4 ∧ (d ≠ 0 → t.core.getG d = 0) ∧ t.mem = s.mem) ∧
       (turn = want →
         ∃ t, exec (.bartest d a b sc) s = .next t ∧ t.core.pc = s.core.pc ∧ t.core.micro = (if err then 2 else 1) ∧
           t.core.acquired = s.clock ∧ t.mem = s.mem))) ∧
   (∀ (s : State) (d a b : Reg) (sc : Scope), s.core.vq = [] → s.core.commit = none → s.core.version = [] →
     let t := s.releaseSnaps s.core.id
     (s.core.micro = 1 → exec (.bartest d a b sc) s = .next (t.upd (t.core.setG d 1).next)) ∧
     (s.core.micro = 2 → exec (.bartest d a b sc) s = .next (t.upd (t.core.setG d 3).next))) ∧
   (∀ (s : State) (d : Reg) (pa expect arrived : Nat) (err turn want : Bool), s.core.seq = .barwait d pa want →
     barrierAt s pa expect arrived err turn →
     (turn = want → ∃ t, exec (.barwaitWake s.core.id) s = .next t ∧ returns s t d (if err then 1 else 0) ∧ t.core.acquired = s.clock) ∧
     (turn ≠ want → s.core.canf = true → ∃ t, exec (.barwaitWake s.core.id) s = .next t ∧ returns s t d 2) ∧
     (turn ≠ want → s.core.canf = false → exec (.barwaitWake s.core.id) s = .next s))) ∧
  (∀ (s : State) (d a b : Reg) (sc : Scope) (pa : Nat), remoteBase ≤ pa → s.core.implicit = false →
    let va := s.core.getG a
    let want := nv s b % 2
    let u := s.upd { s.core with remote := none }
    let heard := fun (x : FabricReply) => ∃ r, s.core.remote = some r ∧ r.who = .seq ∧ r.addr = va ∧ r.answer = some x
    let checked := fun (need : Need) (record : Bool) => s.check va 16 need (some sc) record = .ok pa
    (checked .write false → nv s b < 2 ^ 48 →
      (s.core.remote = none → exec (.barinit a b sc) s = .next (asks s .seq va (.barrier 0 (nv s b) (some sc)))) ∧
      (heard .done → exec (.barinit a b sc) s = .next (u.upd u.core.next))) ∧
    (checked .write true →
      (s.core.remote = none → exec (.barexp a b sc) s = .next (asks s .seq va (.barrier 1 (nv s b) (some sc)))) ∧
      (heard .done → exec (.barexp a b sc) s = .next (u.upd u.core.next))) ∧
    (s.core.micro = 2 → s.core.target = some pa → nv s b < 2 ^ 48 →
      (s.core.remote = none → exec (.bararr d a b sc) s = .next (asks s .seq va (.barrier 2 (nv s b) (some sc)))) ∧
      (∀ bs, heard (.data bs) → bs.length = 16 →
        exec (.bararr d a b sc) s = .next (u.upd (u.core.setG d (BitVec.ofNat 64 (leVal bs % 2))).next))) ∧
    (s.core.micro = 1 → s.core.target = some pa →
      (s.core.remote = none → exec (.barwait d a b sc) s = .next (asks s .seq va (.load 16 (some sc)))) ∧
      (∀ bs, heard (.data bs) → bs.length = 16 → leVal bs % 2 = want →
        ∃ t, exec (.barwait d a b sc) s = .next t ∧ returns s t d (BitVec.ofNat 64 (leVal bs / 2 % 2)) ∧ t.core.acquired = s.clock)) ∧
    (s.core.micro = 0 → checked .read true →
      (s.core.remote = none → exec (.bartest d a b sc) s = .next (asks s .seq va (.load 16 (some sc)))) ∧
      (∀ bs, heard (.data bs) → bs.length = 16 → leVal bs % 2 ≠ want →
        exec (.bartest d a b sc) s = .next (u.upd (u.core.setG d 0).next))))

/-- ENQ, WAITQ and DQ (R108, R109, R110, R111, R379, R380). ENQ to this device of a record whose 128 bytes the strand's version holds: gives
2 for no queue of the context or a ring-mode one, 1 for a full one, and otherwise writes the record at its place, makes TAIL one more and
gives 0; a handle with a res bit traps BADOPND; a record for another device goes out in class E, the answer's status goes to gd, and a refusal
traps REMOTE with the handle. WAITQ of a queue bound to the strand's launch makes its boundary, then gives the number of records that wait, 0
for a task being cancelled, and otherwise sleeps until either; a return begins a new phase. DQ of one puts the head record, held by the engine
or still in the ring, into the version and gives 0, or gives 1 when none waits. A handle of any other queue traps BADOPND. -/
def Obligations.QueueInstructionsComplete : Prop :=
  (∀ (s : State) (d a b : Reg) (pa : Nat) (bs : List Byte), passesChecks s (s.core.getG a) 128 .read none false pa →
    bs.length = 128 → (∀ j, j < 128 → verGet s.core.version (pa + j) = bs[j]?) →
    bitsOf (s.core.getG b) 43 17 = 0 →
    let h := s.core.getG b
    let u := pinned s (s.core.getG a)
    (bitsOf h 63 44 = s.devid →
      let q := bitsOf h 16 0
      let ends := fun (x : Int) => ∃ t, exec (.enq d a b) s = .next t ∧ t.core.pc = s.core.pc + 4 ∧ (d ≠ 0 → t.core.getG d = BitVec.ofInt 64 x) ∧ t.mem = s.mem
      ((s.queue? q = none ∨ ∃ x, s.queue? q = some x ∧ x.ctx ≠ s.core.ctx.getD 0) → ends 2) ∧
      (∀ x, s.queue? q = some x → x.ctx = s.core.ctx.getD 0 → u.rangeSettled (x.ring + 128 * (x.tail % 2 ^ x.log2n)) 128 = true →
        (x.window = false → ends 2) ∧
        (x.window = true → x.tail - x.taken = 2 ^ x.log2n → ends 1) ∧
        (x.window = true → x.tail - x.taken ≠ 2 ^ x.log2n → Memory.wf s.mem = true →
          (u.dirLine (lineOf (x.ring + 128 * (x.tail % 2 ^ x.log2n)))).hs ≠ .upd → x.ring % 128 = 0 →
          ∃ t, exec (.enq d a b) s = .next t ∧ t.core.pc = s.core.pc + 4 ∧ (d ≠ 0 → t.core.getG d = 0) ∧
            cellBytes t.mem (x.ring + 128 * (x.tail % 2 ^ x.log2n)) 128 = bs ∧
            sameOutside s t (x.ring + 128 * (x.tail % 2 ^ x.log2n)) 128 ∧
            t.queues = s.queues.map fun y => if y.id = q then { y with tail := y.tail + 1 }.awaken s.clock else y))) ∧
    (bitsOf h 63 44 ≠ s.devid → s.devValid = true →
      (s.core.remote = none → ∃ t m, exec (.enq d a b) s = .next t ∧ t.core.pc = s.core.pc ∧ t.fabric = s.fabric ++ [m] ∧ m.cls = 1 ∧
        m.dev = bitsOf h 63 44 ∧ m.addr = h ∧ m.data.map (·.2) = bs ∧
        ∃ r, t.core.remote = some r ∧ r.who = .seq ∧ r.addr = h ∧ r.answer = none) ∧
      (∀ r, s.core.remote = some r → r.who = .seq → r.addr = h →
        (∀ n, r.answer = some (.status n) → ∃ t, exec (.enq d a b) s = .next t ∧ t.core.pc = s.core.pc + 4 ∧ t.core.remote = none ∧
          (d ≠ 0 → t.core.getG d = BitVec.ofNat 64 n) ∧ t.mem = s.mem) ∧
        (∀ c v, r.answer = some (.refused c v) → handles s →
          ∃ t, exec (.enq d a b) s = .next t ∧ t.core.pc = s.core.tvec ∧ t.mem = s.mem ∧ (∀ k : Reg, t.core.getG k = s.core.getG k) ∧
            t.core.version = s.core.version ∧
            (s.core.lvl = 0 → t.core.bank0.ecause = BitVec.ofNat 64 Cause.remote.code ∧ t.core.bank0.eval = h ∧ t.core.bank0.epc = s.core.pc))))) ∧
  (∀ (s : State) (d a b : Reg), handles s →
    (bitsOf (s.core.getG b) 43 17 ≠ 0 → exec (.enq d a b) s = traps s 0x06 (s.core.getG b) s.core.pc) ∧
    (s.armed (s.core.getG a) = none → exec (.waitq d a) s = traps s 0x06 (s.core.getG a) s.core.pc ∧
      exec (.dq d a b) s = traps s 0x06 (s.core.getG a) s.core.pc)) ∧
  (∀ (s : State) (d a : Reg) (q : Queue), s.armed (s.core.getG a) = some q → s.core.implicit = false →
    (s.core.micro = 0 → s.core.vq = [] → s.core.commit = none → s.core.version = [] →
      let t := s.releaseSnaps s.core.id
      exec (.waitq d a) s = .next (t.upd { t.core with micro := 1 })) ∧
    (s.core.micro = 1 →
      (q.waiting ≠ 0 → ∃ t, exec (.waitq d a) s = .next t ∧ returns s t d (BitVec.ofNat 64 q.waiting)) ∧
      (q.waiting = 0 → s.core.canf = true → ∃ t, exec (.waitq d a) s = .next t ∧ returns s t d 0) ∧
      (q.waiting = 0 → s.core.canf = false → exec (.waitq d a) s = .next { s with core := { s.core with seq := .waitq d q.id } }))) ∧
  (∀ (s : State) (d : Reg) (n : Nat) (q : Queue), s.core.seq = .waitq d n → s.queue? n = some q →
    (q.waiting ≠ 0 → ∃ t, exec (.waitqWake s.core.id) s = .next t ∧ returns s t d (BitVec.ofNat 64 q.waiting)) ∧
    (q.waiting = 0 → s.core.canf = true → ∃ t, exec (.waitqWake s.core.id) s = .next t ∧ returns s t d 0) ∧
    (q.waiting = 0 → s.core.canf = false → exec (.waitqWake s.core.id) s = .next s)) ∧
  (∀ (s : State) (d a b : Reg) (q : Queue) (pa : Nat), s.armed (s.core.getG a) = some q →
    passesChecks s (s.core.getG b) 128 .write none false pa →
    let u := pinned s (s.core.getG b)
    (q.waiting = 0 → ∃ t, exec (.dq d a b) s = .next t ∧ t.core.pc = s.core.pc + 4 ∧ (d ≠ 0 → t.core.getG d = 1) ∧ t.mem = s.mem) ∧
    (∀ k ws rest id, q.records = (k, ws) :: rest → s.core.commit = none →
      ¬ quotaPassed s.core pa (8 * ws.length) → s.core.versionId = some id →
      ∃ t, exec (.dq d a b) s = .next t ∧ t.core.pc = s.core.pc + 4 ∧ (d ≠ 0 → t.core.getG d = 0) ∧ t.mem = s.mem ∧
        t.core.version = verPutBytes s.core.version pa (ws.flatMap fun w => leBytes 8 w.toNat) ∧
        (∀ y ∈ t.queues, y.id = q.id → y.records = rest ∧ (k, s.core.id, s.core.taskid, rcdUtag ws) ∈ y.dequeued)) ∧
    (∀ id, q.records = [] → q.waiting ≠ 0 → s.core.commit = none → ¬ quotaPassed s.core pa 128 → s.core.versionId = some id →
      q.ring % 128 = 0 → u.rangeSettled (q.ring + 128 * (q.taken % 2 ^ q.log2n)) 128 = true →
      (u.dirLine (lineOf (q.ring + 128 * (q.taken % 2 ^ q.log2n)))).hs ≠ .upd →
      ∃ t, exec (.dq d a b) s = .next t ∧ t.core.pc = s.core.pc + 4 ∧ (d ≠ 0 → t.core.getG d = 0) ∧ t.mem = s.mem ∧
        t.core.version = verPutBytes s.core.version pa (cellBytes s.mem (q.ring + 128 * (q.taken % 2 ^ q.log2n)) 128) ∧
        ∃ y ∈ t.queues, y.id = q.id ∧ y.taken = q.taken + 1))

namespace Sys2Proof.Rules

open Sys2Proof.Machine

/-- The outcome that goes on to the next word with a value in gd; nothing is said of what else changed. -/
def answers (i : Instr) (s : State) (d : Reg) (x : W64) (more : State → Prop) : Prop :=
  ∃ t, exec i s = .next t ∧ t.core.pc = s.core.pc + 4 ∧ (d ≠ 0 → t.core.getG d = x) ∧ (∀ r : Reg, r ≠ d → t.core.getG r = s.core.getG r) ∧
    t.mem = s.mem ∧ more t

/-- The context of the strand, as a number. -/
def ctxOf (s : State) : Nat := s.core.ctx.getD 0

/-- All ones. -/
def allOnes : W64 := BitVec.ofNat 64 (2 ^ 64 - 1)

end Sys2Proof.Rules

/-- Trees, and SPAWN, DONE and JOIN (R112, R113, R116, R322, R114, R115, R117, R120, R121, R324). TREE.new with a quantum of 1..65,535
within the context's limit creates a live, open tree of that quantum in the lowest free number with the next generation and gives its
handle, at the limit gives 0, and with another value traps BADOPND; TREE.close and TREE.kill of a live tree of the context give 0 and leave
it closed (a killed tree with no block is gone), of any other handle give all ones, and with a res bit set trap BADOPND. No task and no byte
of memory changes under new and close. SPAWN into an open live tree of the context, by a task that is not cancelled, aborting or (with J)
full, with a free block, creates a READY task with the descriptor's key and entry, the argument, no pending child, the tree, the spawning
task as parent (and with J as successor, whose PEND goes up by 1), at the tail of its ties, and gives its id; with no such tree or no free
block, or a closed tree, it gives 0. DONE and JOIN of a Ringmaster task at level 0 end the task with what they name once its commands have
completed; elsewhere they trap TASKCTX. -/
def Obligations.TreesAndTasks : Prop :=
  (∀ (s : State) (d a : Reg),
     let v := nv s a
     let k := dieOf s.core.id
     let h := s.core.getG a
     let badHandle := h.toNat / 2 ^ 28 ≠ 0 ∨ h.toNat / 2 ^ 13 % 8 ≠ 0
     (1 ≤ v → v ≤ 65535 → ∀ c, s.ctx? (ctxOf s) = some c →
       (∀ n, (s.die k).treeCount (ctxOf s) < c.limTrees → lowestFree (fun (x : Tree) => x.live) (s.die k).trees 4096 = some n →
         let gen := match assoc n (s.die k).trees with | some x => x.gen % 4095 + 1 | none => 1
         answers (.treeNew d a) s d (BitVec.ofNat 64 (gen * 2 ^ 16 + k * 2 ^ 12 + n)) fun t =>
           (t.die k).tcbs = (s.die k).tcbs ∧
           ∃ x, assoc n (t.die k).trees = some x ∧ x.gen = gen ∧ x.live = true ∧ x.ctx = ctxOf s ∧ x.quantum = v ∧
             x.closed = false ∧ x.killed = false) ∧
       (c.limTrees ≤ (s.die k).treeCount (ctxOf s) → exec (.treeNew d a) s = puts s d 0)) ∧
     ((v = 0 ∨ 65535 < v) → handles s → exec (.treeNew d a) s = traps s 0x06 h s.core.pc) ∧
     (badHandle → handles s → exec (.treeClose d a) s = traps s 0x06 h s.core.pc ∧
       (s.core.micro = 0 → exec (.treeKill d a) s = traps s 0x06 h s.core.pc)) ∧
     (¬ badHandle → s.treeOf (ctxOf s) h = none → exec (.treeClose d a) s = puts s d (-1) ∧
       (s.core.micro = 0 → exec (.treeKill d a) s = puts s d (-1))) ∧
     (¬ badHandle → ∀ x, s.treeOf (ctxOf s) h = some x →
       let die := bitsOf h 12 12
       let n := bitsOf h 11 0
       answers (.treeClose d a) s d 0 (fun t => (t.die die).tcbs = (s.die die).tcbs ∧ assoc n (t.die die).trees = some { x with closed := true }) ∧
       (s.core.micro = 0 → (s.die die).treeBlocks n = [] →
         answers (.treeKill d a) s d 0 fun t => ∃ y, assoc n (t.die die).trees = some y ∧ y.live = false ∧ y.closed = true ∧ y.killed = true))) ∧
  ((∀ (s : State) (d a b : Reg),
     let desc := s.core.getG a
     let given := s.core.getG d
     let h := if given ≠ 0 then given else s.core.treeid.zeroExtend 64
     let die := bitsOf h 12 12
     let n := bitsOf h 11 0
     let j := bitsOf desc 0 0 = 1
     bitsOf desc 5 2 = 0 → given.toNat / 2 ^ 28 = 0 → given.toNat / 2 ^ 13 % 8 = 0 → h ≠ 0 →
     (∀ tr idx, s.treeOf (ctxOf s) h = some tr → tr.closed = false →
       lowestFree (fun (x : Tcb) => x.state != .free) (s.die die).tcbs (2 ^ 20) = some idx →
       let gen := match assoc idx (s.die die).tcbs with | some x => x.gen % 2047 + 1 | none => 1
       let id := taskId die gen idx
       (s.core.ring = none → ¬ j →
         answers (.spawn d a b) s d (id.zeroExtend 64) fun t => ∃ x, assoc idx (t.die die).tcbs = some x ∧
           x.state = .ready ∧ x.key = BitVec.ofNat 32 (bitsOf desc 63 32) ∧ x.entry = BitVec.ofNat 26 (bitsOf desc 31 6) ∧
           x.arg = s.core.getG b ∧ x.pend = 0 ∧ x.tree = n ∧ x.gen = gen ∧ x.parent = 0 ∧ x.succ = 0 ∧ x.canf = false ∧
           x.order = (s.die die).nextOrder) ∧
       (∀ pd pi p, s.core.ring = some (pd, pi) → assoc pi (s.die pd).tcbs = some p → p.state = .running → p.canf = false →
         p.pend < 65535 → pd < 2 → pi < 2 ^ 20 → 0 < p.gen → p.gen < 2 ^ 11 → idx < 2 ^ 20 → die < 2 → 
         answers (.spawn d a b) s d (id.zeroExtend 64) fun t =>
           (∃ x, assoc idx (t.die die).tcbs = some x ∧ x.state = .ready ∧ x.parent = taskId pd p.gen pi ∧
             x.succ = (if j then taskId pd p.gen pi else 0) ∧ x.arg = s.core.getG b) ∧
           ((pd, pi) ≠ (die, idx) → assoc pi (t.die pd).tcbs = some { p with pend := if j then p.pend + 1 else p.pend }))) ∧
     ((¬ j ∨ s.core.ring.isSome) → (s.treeOf (ctxOf s) h = none ∨ (∃ tr, s.treeOf (ctxOf s) h = some tr ∧ tr.closed = true)) →
       exec (.spawn d a b) s = puts s d 0)) ∧
   (∀ (s : State) (a b : Reg), s.core.ring.isSome → s.core.lvl = 0 →
     exec (.done a) s = .next { s with core := { s.core with seq := .ending (.done (s.core.getG a)) } } ∧
     (bitsOf (s.core.getG a) 5 0 = 0 →
       exec (.join a b) s = .next { s with core := { s.core with seq := .ending (.join (s.core.getG a) (s.core.getG b)) } })) ∧
   (∀ (s : State) (d a b : Reg), handles s →
     ((s.core.ring = none ∨ s.core.lvl ≠ 0) →
       exec (.done a) s = traps s 0x09 (wordOf (.done a)) s.core.pc ∧ exec (.join a b) s = traps s 0x09 (wordOf (.join a b)) s.core.pc) ∧
     (bitsOf (s.core.getG a) 5 2 ≠ 0 → exec (.spawn d a b) s = traps s 0x06 (s.core.getG a) s.core.pc)))

/-- PICK and its selection; REPRIO, CANCEL and TSTAT (R118, R112, R322, R122, R123, R125, R324, R327). PICK of a launch body at level 0 with
no command outstanding and an empty version, of a live tree of the context or of all trees: when every tree it names is over it gives 3 at
the first word of the next block, and otherwise it records that return point and sleeps; with a current Ringmaster task or at another level
it traps TASKCTX. RINGMASTER_SELECT with a READY head and an eligible sleeper at a tree pointed to with DEF of at least 1 binds that head to
the oldest sleeper and takes 1 from DEF. TASK_START of a bound task makes it RUNNING with TASKID, TREEID, CANF, g3 = ARG and g4 = its id, an
empty loop stack, at the tree's image base plus ENTRY × 64. On an id of a live block of the context: REPRIO gives 1 and sets its key unless
CANF is set, when it gives 0; REPRIO.sub gives how many blocks of the subtree it rekeyed, each moved by the signed amount and saturated;
CANCEL.soft and CANCEL.hard with the whole subtree on the task's die give how many blocks they acted on; the one block of a task without
children has CANF set and, when it is running, its strand's STATUS.CANF too, told to stop by a soft cancel and aborting under a hard one with
a CANCEL report held against it; a READY block without children and successor is free again; a part on the other die takes a second step there
before they give the whole count; TSTAT gives its key, PEND, tree, owner bit and state, or a tree's state and counts. An id of no such block gives all ones (TSTAT 0),
and one with bits above 31 set traps BADOPND. -/
def Obligations.PickAndTaskControl : Prop :=
  ((∀ (s : State) (d a : Reg), s.core.seq = .run → 
     let h := s.core.getG a
     let named := h = allOnes ∨ h = BitVec.ofNat 64 (2 ^ 32 - 1) ∨
       (h.toNat / 2 ^ 28 = 0 ∧ h.toNat / 2 ^ 13 % 8 = 0 ∧ (s.treeOf (ctxOf s) h).isSome)
     let u := s.releaseSnaps s.core.id
     (s.core.ring = none → s.core.lvl = 0 → named → s.core.vq = [] → s.core.xinq = [] → s.core.xoutq = [] → s.core.mq = [] →
       s.core.aq = [] → s.core.implicit = false → s.core.commit = none → s.core.version = [] →
       (u.pickOver u.core h = false → exec (.pick d a) s = .next { u with core := { u.core with
         pickRet := some (block s.core.pc + 64, d), seq := .pick h s.clock, micro := 0 } }) ∧
       (u.pickOver u.core h = true → ∃ t, exec (.pick d a) s = .next t ∧ t.core.pc = block s.core.pc + 64 ∧ t.core.seq = .run ∧
         (d ≠ 0 → t.core.getG d = 3) ∧ t.core.pickRet = none ∧ t.mem = s.mem)) ∧
     ((s.core.ring.isSome ∨ s.core.lvl ≠ 0) → handles s → exec (.pick d a) s = traps s 0x09 (wordOf (.pick d a)) s.core.pc)) ∧
   (∀ (s : State) (d a : Reg) (h : W64) (since : Nat), s.core.seq = .pick h since →
     (s.pickOver s.core h = false → exec (.pick d a) s = .next s) ∧
     (s.pickOver s.core h = true → ∃ t, exec (.pick d a) s = .next t ∧ t.core.pc = block s.core.pc + 64 ∧ t.core.seq = .run ∧
       (d ≠ 0 → t.core.getG d = 3) ∧ t.core.pickRet = none ∧ t.mem = s.mem)) ∧
   (∀ (s : State) (die p idx core since : Nat) (tr : Tree) (b : Tcb), die < 2 → (s.die die).ptr = some p → (s.die die).tree? p = some tr →
     p ∈ (s.die die).liveTrees → (s.die die).head p = some (idx, b) → s.sleeper die p tr = some (since, core) → 1 ≤ tr.defi →
     exec (.ringmasterSelect die) s = .next (s.putDie die { s.die die with
       trees := assocPut p { tr with defi := tr.defi - 1 } (s.die die).trees
       tcbs := assocPut idx { b with state := .bound, core := core } (s.die die).tcbs })) ∧
   (∀ (s : State) (h : W64) (since die idx : Nat) (b : Tcb) (tr : Tree), s.core.seq = .pick h since →
     s.boundTo s.core.id = some (die, idx, b) → (s.die die).tree? b.tree = some tr → die < 2 → idx < 2 ^ 20 → 
     ∃ t, exec (.taskStart s.core.id) s = .next t ∧
       t.core.taskid = taskId die b.gen idx ∧ t.core.ring = some (die, idx) ∧ t.core.getG 3 = b.arg ∧
       t.core.getG 4 = (taskId die b.gen idx).zeroExtend 64 ∧ t.core.canf = b.canf ∧ t.core.loops = [] ∧ t.core.seq = .run ∧ t.core.snaps = [] ∧
       t.core.treeid = BitVec.ofNat 32 (tr.gen * 2 ^ 16 + die * 2 ^ 12 + b.tree) ∧
       t.core.pc = s.imageBase (ctxOf s) tr.image + BitVec.ofNat 64 (b.entry.toNat * 64) ∧
       assoc idx (t.die die).tcbs = some { b with state := .running, arg := 0 } ∧
       (∀ r : Reg, r ≠ 3 → r ≠ 4 → t.core.getG r = s.core.getG r) ∧ t.mem = s.mem)) ∧
  ((∀ (s : State) (d a b : Reg), nv s a < 2 ^ 32 →
     let id := BitVec.ofNat 32 (nv s a)
     (s.taskOf (ctxOf s) id = none →
       exec (.reprio d a b) s = puts s d (-1) ∧ exec (.reprioSub d a b) s = puts s d (-1) ∧ exec (.tstat d a false) s = puts s d 0 ∧
       (s.core.micro = 0 → exec (.cancelSoft d a) s = puts s d (-1) ∧ exec (.cancelHard d a) s = puts s d (-1))) ∧
     (∀ x, s.taskOf (ctxOf s) id = some x →
       (x.canf = true → exec (.reprio d a b) s = puts s d 0) ∧
       (x.canf = false → x.state = .running → answers (.reprio d a b) s d 1 fun t =>
         t.tcb? id = some { x with key := BitVec.ofNat 32 (nv s b) }) ∧
       (x.canf = false → x.state = .ready → x.key ≠ BitVec.ofNat 32 (nv s b) → answers (.reprio d a b) s d 1 fun t =>
         t.tcb? id = some { x with key := BitVec.ofNat 32 (nv s b), order := (s.die (taskDie id)).nextOrder }) ∧
       (∃ n, answers (.reprioSub d a b) s d (BitVec.ofNat 64 n) fun t => t.others = s.others ∧ t.clusters = s.clusters) ∧
       (s.core.micro = 0 →
         (s.subtree (1 - taskDie id) [id] = [] →
           (∃ t, exec (.cancelSoft d a) s = .next t ∧
             t = ((s.cancelOn (taskDie id) [id] [id] false).2).upd
               (((s.cancelOn (taskDie id) [id] [id] false).2.core.setG d
                 (BitVec.ofNat 64 (s.cancelOn (taskDie id) [id] [id] false).1.length)).next)) ∧
           (∃ t, exec (.cancelHard d a) s = .next t ∧
             t = ((s.cancelOn (taskDie id) [id] [id] true).2).upd
               (((s.cancelOn (taskDie id) [id] [id] true).2.core.setG d
                 (BitVec.ofNat 64 (s.cancelOn (taskDie id) [id] [id] true).1.length)).next))) ∧
         (s.subtree (1 - taskDie id) [id] = [] → s.subtree (taskDie id) [id] = [id] → 
           (x.state = .running → x.core ≠ s.core.id → (s.coreAt x.core).ring = some (taskDie id, taskIdx id) →
             (∃ t, exec (.cancelSoft d a) s = .next t ∧ (d ≠ 0 → t.core.getG d = 1) ∧ t.tcb? id = some { x with canf := true } ∧
               (t.coreAt x.core).canf = true ∧ (t.coreAt x.core).held = (s.coreAt x.core).held) ∧
             (∃ t r, exec (.cancelHard d a) s = .next t ∧ (d ≠ 0 → t.core.getG d = 1) ∧
               t.tcb? id = some { x with canf := true, state := .aborting } ∧
               (t.coreAt x.core).canf = true ∧ (t.coreAt x.core).held = (s.coreAt x.core).held ++ [r] ∧ r.code = Cause.cancel.code ∧ r.taskid = id)) ∧
           (x.state = .ready → x.pend = 0 → s.tcb? x.succ = none →
             (∃ t, exec (.cancelSoft d a) s = .next t ∧ (d ≠ 0 → t.core.getG d = 1) ∧ t.tcb? id = none) ∧
             (∃ t, exec (.cancelHard d a) s = .next t ∧ (d ≠ 0 → t.core.getG d = 1) ∧ t.tcb? id = none))) ∧
         (s.subtree (1 - taskDie id) [id] ≠ [] →
           (∃ t f, exec (.cancelSoft d a) s = .next t ∧ t.core.micro = 1 ∧ f ∈ t.cancels ∧ f.die = 1 - taskDie id ∧ f.hard = false) ∧
           (∃ t f, exec (.cancelHard d a) s = .next t ∧ t.core.micro = 1 ∧ f ∈ t.cancels ∧ f.die = 1 - taskDie id ∧ f.hard = true))) ∧
       exec (.tstat d a false) s = puts s d (x.key.toNat * 2 ^ 32 + x.pend % 2 ^ 16 * 2 ^ 16 + x.tree % 2 ^ 12 * 2 ^ 4 +
         (if x.own then 8 else 0) + x.state.code : Nat))) ∧
   (∀ (s : State) (d a : Reg) (x : Tree), (s.core.getG a).toNat / 2 ^ 28 = 0 → (s.core.getG a).toNat / 2 ^ 13 % 8 = 0 →
     s.treeOf (ctxOf s) (s.core.getG a) = some x →
     let bs := (s.die (bitsOf (s.core.getG a) 12 12)).treeBlocks (bitsOf (s.core.getG a) 11 0)
     exec (.tstat d a true) s = puts s d ((if x.killed then 2 else if x.closed then 1 else 0) * 2 ^ 42 + bs.length % 2 ^ 21 * 2 ^ 21 +
       (bs.filter fun b => b.2.state == .ready).length % 2 ^ 21 : Nat)) ∧
   (∀ (s : State) (d a b : Reg), handles s → 2 ^ 32 ≤ nv s a →
     exec (.reprio d a b) s = traps s 0x06 (s.core.getG a) s.core.pc ∧ exec (.reprioSub d a b) s = traps s 0x06 (s.core.getG a) s.core.pc ∧
     exec (.tstat d a false) s = traps s 0x06 (s.core.getG a) s.core.pc ∧
     (s.core.micro = 0 → exec (.cancelSoft d a) s = traps s 0x06 (s.core.getG a) s.core.pc ∧
       exec (.cancelHard d a) s = traps s 0x06 (s.core.getG a) s.core.pc)) ∧
   (∀ (s : State) (k : Nat) (f : CancelFwd), s.cancels[k]? = some f →
     let r := ({ s with cancels := s.cancels.eraseIdx k }.joinReclaims f.named f.roots).cancelOn f.die f.named f.roots f.hard
     let c := r.2.coreAt f.core
     let waits := c.micro = 1 ∧ c.pc = f.pc ∧ c.taskid = f.task ∧ c.seq = .run
     (waits → ∀ n, f.count = some n →
       exec (.cancelForward k) s = .next (r.2.putCore (c.setG f.gd (BitVec.ofNat 64 (n + r.1.length))).next)) ∧
     (waits → f.count = none → exec (.cancelForward k) s = .next (r.2.putCore (c.setG f.gd 0).next)) ∧
     (¬ waits → exec (.cancelForward k) s = .next r.2)))

namespace Sys2Proof.Rules

open Sys2Proof.Machine

/-- A reference to a record of this device: die in range, clear res bits, this device's id (R30). -/
def localRef (s : State) (x : W64) : Prop := x.toNat / 2 ^ 44 = s.devid ∧ x.toNat / 2 ^ 42 % 4 < 2 ∧ x.toNat / 2 ^ 20 % 2 ^ 22 = 0

/-- The record of the strand's context at a reference of this device, with no error in it. -/
def recordAt (s : State) (x : W64) (y : Node) : Prop :=
  localRef s x ∧ assoc (x.toNat % 2 ^ 20) (s.die (x.toNat / 2 ^ 42 % 4)).nodes = some y ∧ y.ctx = ctxOf s ∧ y.err = false

/-- Records along parent references on one die, the last of them a root (R131). -/
def upward (s : State) (die : Nat) : List (W64 × Node) → Prop
  | [] => False
  | [(x, y)] => recordAt s x y ∧ x.toNat / 2 ^ 42 % 4 = die ∧ y.bits.getLsbD 113 = true
  | (x, y) :: (p, z) :: r => recordAt s x y ∧ x.toNat / 2 ^ 42 % 4 = die ∧ y.bits.getLsbD 113 = false ∧
      p = BitVec.ofNat 64 (y.bits.toNat / 2 ^ 128) ∧ upward s die ((p, z) :: r)

/-- What a step of NVL (kind 0), NBACK (1) or NBACK.alt (2) leaves in the k-th record from the start (R131): N, W and VL in bits
[79:0]. -/
def climbed (kind k : Nat) (v : W32) (d : Nat) (b : W256) : Nat :=
  let b0 := b.toNat
  let n := b0 % 2 ^ 32
  let w := b0 / 2 ^ 32 % 2 ^ 32
  let vl := b0 / 2 ^ 64 % 2 ^ 16
  let sign := if kind = 2 ∧ k % 2 = 1 then 2 ^ 31 else 0
  if kind = 0 then b0 / 2 ^ 80 * 2 ^ 80 + min (vl + d) 65535 * 2 ^ 64 + w * 2 ^ 32 + n
  else b0 / 2 ^ 80 * 2 ^ 80 + (vl - d) * 2 ^ 64 + f32add w (v.toNat ^^^ sign) % 2 ^ 32 * 2 ^ 32 + min (n + 1) (2 ^ 32 - 1)

/-- The walk instruction of a kind and its operand: NVL d, NBACK and NBACK.alt with v and d. -/
def walkOf (kind : Nat) (a b : Reg) : Instr := if kind = 0 then .nvl a b else if kind = 1 then .nback a b else .nbackAlt a b

/-- The outcome of performing an instruction n times, one after another. -/
def again (i : Instr) : Nat → State → Host.Outcome State Fault Refusal
  | 0, s => .next s
  | n + 1, s => match exec i s with
    | .next t => again i n t
    | o => o

/-- The outcome of n further steps of the walk that set out last (R332). -/
noncomputable def climbs : Nat → State → Host.Outcome State Fault Refusal
  | 0, s => .next s
  | n + 1, s => match exec (.walkForward (s.walks.length - 1)) s with
    | .next t => climbs n t
    | o => o

/-- The state in which the strand has asked the home of a node reference and waits for the answer (R127). -/
def asksNode (s : State) (x : W64) (op : RemoteOp) : State :=
  { s with
    core := { s.core with remote := some { who := .seq, dev := x.toNat / 2 ^ 44, addr := x, since := s.clock, answer := none } }
    fabric := s.fabric ++ [{ cls := 0, dev := x.toNat / 2 ^ 44, addr := x, core := s.core.id, data := [], op := some op }] }

/-- The version holds n given bytes at a cell address. -/
def versionHolds (s : State) (a : Nat) (bs : List Byte) : Prop := ∀ j, j < bs.length → verGet s.core.version (a + j) = bs[j]?

end Sys2Proof.Rules

/-- Node records are allocated, written, read and freed (R30, R126, R128, R129, R130). NALLOC of 1..65,535 records within the context's
limit gives the reference of the lowest free run, whose records are then allocated to the context with V alone set, and all ones when there
is no room; NALLOC.free frees exactly the records named when all are the context's, and traps NODEREF otherwise; NINIT replaces exactly the
bit groups of its mask, sets V and clears bits [119:116]; NRD gives the quadword; a reference to no record of the context traps NODEREF and
a count outside 1..65,535 BADOPND. No byte of memory changes. NRD, NALLOC.free and NINIT of another device's record ask its home and go on
when it has answered. -/
def Obligations.NodeRecordsComplete : Prop :=
  (∀ (s : State) (d a b : Reg),
    let n := nv s a
    let w := s.core.getG b
    let die := nv s b % 2
    let x := s.die die
    (1 ≤ n → n ≤ 65535 → nv s b < 2 → ∀ c, s.ctx? (ctxOf s) = some c →
      (∀ k, x.nodeCount (ctxOf s) + n ≤ c.limNodes → lowestRun n 0 x.nodes = some k →
        answers (.nalloc d a b) s d (BitVec.ofNat 64 (s.devid * 2 ^ 44 + die * 2 ^ 42 + k)) fun t =>
          ∀ j, assoc j (t.die die).nodes =
            if k ≤ j ∧ j < k + n then some { ctx := ctxOf s, bits := BitVec.ofNat 256 (2 ^ 112), err := false } else assoc j x.nodes) ∧
      ((c.limNodes < x.nodeCount (ctxOf s) + n ∨ lowestRun n 0 x.nodes = none) → exec (.nalloc d a b) s = puts s d (-1))) ∧
    (handles s → (n = 0 ∨ 65535 < n) → exec (.nalloc d a b) s = traps s 0x06 (s.core.getG a) s.core.pc ∧
      exec (.nallocFree d b a) s = traps s 0x06 (s.core.getG a) s.core.pc) ∧
    (handles s → 1 ≤ n → n ≤ 65535 → 2 ≤ nv s b → exec (.nalloc d a b) s = traps s 0x06 w s.core.pc)) ∧
  (∀ (n start : Nat) (l : List (Nat × Node)) (k : Nat), 0 < n → (∀ e ∈ l, start ≤ e.1) → (l.map fun e => e.1).Pairwise (· < ·) →
    lowestRun n start l = some k →
    (∀ j, k ≤ j → j < k + n → assoc j l = none) ∧ k + n ≤ 2 ^ 20 ∨ (∃ e ∈ l, 2 ^ 20 ≤ e.1)) ∧
  (∀ (s : State) (d a b : Reg), localRef s (s.core.getG a) → 1 ≤ nv s b → nv s b ≤ 65535 →
    let k := nv s a % 2 ^ 20
    let die := nv s a / 2 ^ 42 % 4
    let all := k + nv s b ≤ 2 ^ 20 ∧ ∀ j, k ≤ j → j < k + nv s b → ∃ y, assoc j (s.die die).nodes = some y ∧ y.ctx = ctxOf s
    (all → answers (.nallocFree d a b) s d 0 fun t =>
      ∀ j, assoc j (t.die die).nodes = if k ≤ j ∧ j < k + nv s b then none else assoc j (s.die die).nodes) ∧
    (¬ all → handles s → exec (.nallocFree d a b) s = traps s 0x0A (s.core.getG a) s.core.pc)) ∧
  (∀ (s : State) (d a : Reg) (k : Fin 4),
    (∀ y, recordAt s (s.core.getG a) y → exec (.nrd d a k) s = puts s d ((y.bits.toNat / 2 ^ (64 * k.val) : Nat) : Int)) ∧
    (handles s → localRef s (s.core.getG a) → assoc (nv s a % 2 ^ 20) (s.die (nv s a / 2 ^ 42 % 4)).nodes = none →
      exec (.nrd d a k) s = traps s 0x0A (s.core.getG a) s.core.pc) ∧
    (handles s → (2 ≤ nv s a / 2 ^ 42 % 4 ∨ nv s a / 2 ^ 20 % 2 ^ 22 ≠ 0) → exec (.nrd d a k) s = traps s 0x0A (s.core.getG a) s.core.pc)) ∧
  (∀ (s : State) (a b : Reg) (m : BitVec 4) (pa : Nat) (img : List Byte) (y : Node), recordAt s (s.core.getG a) y →
    passesChecks s (s.core.getG b) 32 .read none false pa → img.length = 32 → versionHolds s pa img →
    ∃ t z, exec (.ninit a b m) s = .next t ∧ t.core.pc = s.core.pc + 4 ∧ t.core.g = s.core.g ∧ t.mem = s.mem ∧
      assoc (nv s a % 2 ^ 20) (t.die (nv s a / 2 ^ 42 % 4)).nodes = some z ∧ z.ctx = y.ctx ∧ z.err = false ∧
      ∀ i, i < 256 → z.bits.getLsbD i =
        if i = 112 then true else if 116 ≤ i ∧ i ≤ 119 then false
        else if m.getLsbD (if i < 80 then 0 else if i < 128 then 1 else if i < 192 then 2 else 3) then (leVal img).testBit i
        else y.bits.getLsbD i) ∧
  (∀ (s : State) (d a b : Reg) (k : Fin 4), s.devValid = true → nv s a / 2 ^ 44 ≠ s.devid → nv s a / 2 ^ 42 % 4 < 2 → nv s a / 2 ^ 20 % 2 ^ 22 = 0 →
    let x := s.core.getG a
    let u := s.upd { s.core with remote := none }
    let heard := fun (y : FabricReply) => ∃ r, s.core.remote = some r ∧ r.who = .seq ∧ r.addr = x ∧ r.answer = some y
    (s.core.remote = none → exec (.nrd d a k) s = .next (asksNode s x (.nodeRead k.val))) ∧
    (∀ bs, heard (.data bs) → exec (.nrd d a k) s = .next (u.upd (u.core.setG d (BitVec.ofNat 64 (leVal bs))).next)) ∧
    (1 ≤ nv s b → nv s b ≤ 65535 →
      (s.core.remote = none → exec (.nallocFree d a b) s = .next (asksNode s x (.nodeFree (nv s b)))) ∧
      (heard .done → exec (.nallocFree d a b) s = .next (u.upd (u.core.setG d 0).next))) ∧
    (∀ (m : BitVec 4) (pa : Nat) (img : List Byte), passesChecks s (s.core.getG b) 32 .read none false pa → img.length = 32 →
      versionHolds s pa img →
      (s.core.remote = none → exec (.ninit a b m) s = .next (asksNode (pinned s (s.core.getG b)) x (.nodeInit m.toNat img))) ∧
      (heard .done → ∃ t, exec (.ninit a b m) s = .next t ∧ t.core.pc = s.core.pc + 4 ∧ t.core.remote = none ∧ t.core.g = s.core.g ∧
        t.mem = s.mem)))

/-- Walks and selection on node records; the batch former (R131, R132, R332, R126, R133, R134, R135, R136, R137, R329, R330). A walk
instruction takes its step at its first node and at a root goes on; from another node the walk sets out for the parent, the strand waiting,
and WALK_FORWARD takes one step at a time. From a record of this device whose parent references stay on its die up to a root within 4,096
steps, once those steps are taken with nothing between them, NVL has added to every VL on the path, saturated; NBACK has added 1 to every N,
its value to every W and taken VL down, stopping at 0, and NBACK.alt has negated the value at each step; no other bit and no other record
changes, and the strand has gone on. NSEL of a record without children gives all ones, and of one whose children are all records of the
context on this device, read one after another with nothing between them, gives the first child that no other child's score exceeds; each
read stands by itself. An operand with res bits set traps BADOPND. BCFG gives 4 for another context's
bin, 1 for one that is not empty, frees an empty one for a zero address, gives 3 for a bad block and 2 for a key in use, and otherwise
configures the bin and gives 0; BSUB gives 2 for no bin, 1 for a closing or expired one and otherwise adds the member, starts the window
with the first, closes the bin when it is full and gives 0; BCLOSE gives all ones for no bin, 0 for one with nothing to close, and otherwise
closes it and gives its count; a window that has passed closes its bin, and one that has not changes nothing; of the closing bins whose slots
are free the first is written, launched from
its template, and empty again at its next slot. -/
def Obligations.WalksSelectionAndBatches : Prop :=
  ((∀ (s : State) (kind : Nat) (a b : Reg) (die : Nat) (path : List (W64 × Node)), kind < 3 → s.core.micro = 0 → s.core.seq = .run →
     upward s die path → path.length ≤ 4096 → (path.map fun e => e.1).Nodup → path.head?.map (fun e => e.1) = some (s.core.getG a) →
     (if kind = 0 then nv s b < 2 ^ 16 else nv s b < 2 ^ 48) →
     let d := if kind = 0 then nv s b else nv s b / 2 ^ 32
     let v : W32 := if kind = 0 then 0 else BitVec.ofNat 32 (nv s b)
     ∃ s1 t, exec (walkOf kind a b) s = .next s1 ∧ climbs (path.length - 1) s1 = .next t ∧
       t.core.pc = s.core.pc + 4 ∧ t.core.g = s.core.g ∧ t.mem = s.mem ∧ t.walks = s.walks ∧
       (∀ (k : Nat) (x : W64) (y : Node), path[k]? = some (x, y) → ∃ z, assoc (x.toNat % 2 ^ 20) (t.die die).nodes = some z ∧
         z = { y with bits := BitVec.ofNat 256 (climbed kind k v d y.bits) }) ∧
       (∀ j, (∀ e ∈ path, e.1.toNat % 2 ^ 20 ≠ j) → assoc j (t.die die).nodes = assoc j (s.die die).nodes)) ∧
   (∀ (s : State) (a b : Reg) (y : Node), s.core.micro = 0 → s.core.seq = .run → recordAt s (s.core.getG a) y →
     let x := s.core.getG a
     let die := x.toNat / 2 ^ 42 % 4
     let step := fun (kind : Nat) (v : W32) (d : Nat) (t : State) =>
       assoc (x.toNat % 2 ^ 20) (t.die die).nodes = some { y with bits := BitVec.ofNat 256 (climbed kind 0 v d y.bits) } ∧
       (y.bits.getLsbD 113 = true → t.core = { s.core with micro := 1 }.next ∧ t.walks = s.walks) ∧
       (y.bits.getLsbD 113 = false → t.core = { s.core with micro := 1 } ∧ ∃ f, t.walks = s.walks ++ [f] ∧ f.core = s.core.id ∧
         f.node = BitVec.ofNat 64 (y.bits.toNat / 2 ^ 128) ∧ f.k = 1 ∧ f.kind = kind ∧ f.d = d ∧
         f.v = (if kind = 2 then v ^^^ 0x80000000 else v))
     (nv s b < 2 ^ 16 → ∃ t, exec (.nvl a b) s = .next t ∧ step 0 0 (nv s b) t) ∧
     (nv s b < 2 ^ 48 →
       (∃ t, exec (.nback a b) s = .next t ∧ step 1 (BitVec.ofNat 32 (nv s b)) (nv s b / 2 ^ 32) t) ∧
       (∃ t, exec (.nbackAlt a b) s = .next t ∧ step 2 (BitVec.ofNat 32 (nv s b)) (nv s b / 2 ^ 32) t))) ∧
   (∀ (s : State) (a b : Reg), handles s → (2 ^ 16 ≤ nv s b → exec (.nvl a b) s = traps s 0x06 (s.core.getG b) s.core.pc) ∧
     (2 ^ 48 ≤ nv s b → exec (.nback a b) s = traps s 0x06 (s.core.getG b) s.core.pc ∧
       exec (.nbackAlt a b) s = traps s 0x06 (s.core.getG b) s.core.pc)) ∧
   (∀ (s : State) (d a : Reg) (p : Node), recordAt s (s.core.getG a) p →
     let n := p.bits.toNat / 2 ^ 80 % 2 ^ 16
     let child := BitVec.ofNat 64 (p.bits.toNat / 2 ^ 192)
     (s.core.micro = 0 → (p.bits.getLsbD 114 = false ∨ n = 0) → exec (.nsel d a) s = puts s d (-1)) ∧
     (p.bits.getLsbD 114 = true → 0 < n → ∀ y : Nat → Node, child.toNat % 2 ^ 20 + n ≤ 2 ^ 20 →
       (∀ j, j < n → recordAt s (child + BitVec.ofNat 64 j) (y j)) →
       let score := fun j => childScore (y j).bits (parentRoot p.bits) (s.core.fpu.toNat % 2 ^ 32) (s.core.cpuct.toNat % 2 ^ 32)
         (s.core.vlv.toNat % 2 ^ 32)
       s.core.micro = 0 →
       exec (.nsel d a) s = .next (s.upd { s.core with
         micro := 1, scan := some { sq := parentRoot p.bits, child := child, n := n, i := 0, best := none } }) ∧
       ∃ i t, i < n ∧ (∀ j, j < n → scoreAbove (score j) (score i) = false) ∧ (∀ j, j < i → scoreAbove (score i) (score j) = true) ∧
         again (.nsel d a) (n + 1) s = .next t ∧ t.core.pc = s.core.pc + 4 ∧ (d ≠ 0 → t.core.getG d = child + BitVec.ofNat 64 i) ∧
         (∀ r : Reg, r ≠ d → t.core.getG r = s.core.getG r) ∧ t.mem = s.mem ∧ t.die0.nodes = s.die0.nodes ∧ t.die1.nodes = s.die1.nodes)) ∧
   (∀ (s : State) (d a : Reg) (z : Scan) (y : Node), s.core.micro = 1 → s.core.scan = some z → z.child.toNat % 2 ^ 20 + z.i < 2 ^ 20 →
     localRef s z.child → recordAt s (z.child + BitVec.ofNat 64 z.i) y →
     let sc := childScore y.bits z.sq (s.core.fpu.toNat % 2 ^ 32) (s.core.cpuct.toNat % 2 ^ 32) (s.core.vlv.toNat % 2 ^ 32)
     let best := match z.best with | none => (z.i, sc) | some b => if scoreAbove sc b.2 then (z.i, sc) else b
     (z.i + 1 = z.n → exec (.nsel d a) s = .next (s.upd (s.core.setG d (z.child + BitVec.ofNat 64 best.1)).next)) ∧
     (z.i + 1 ≠ z.n → exec (.nsel d a) s = .next (s.upd { s.core with micro := 1, scan := some { z with i := z.i + 1, best := some best } })))) ∧
  ((∀ (s : State) (d a b : Reg), nv s a < 64 →
     let k := dieOf s.core.id
     let n := nv s a
     let old := assoc n (s.die k).bins
     ((∃ o, old = some o ∧ o.ctx ≠ ctxOf s) → exec (.bcfg d a b) s = puts s d 4) ∧
     ((∃ o, old = some o ∧ o.ctx = ctxOf s ∧ (o.members ≠ [] ∨ o.closing.isSome)) → exec (.bcfg d a b) s = puts s d 1) ∧
     ((∀ o, old = some o → o.ctx = ctxOf s ∧ o.members = [] ∧ o.closing = none) →
       (s.core.getG b = 0 → answers (.bcfg d a b) s d 0 fun t => assoc n (t.die k).bins = none) ∧
       (∀ pa bs, s.core.getG b ≠ 0 → passesChecks s (s.core.getG b) 32 .read none false pa → bs.length = 32 → versionHolds s pa bs →
         let u := s.pin s.core.id (ctxOf s) (s.core.getG b)
         (u.badBlock (ctxOf s) s.core.id (quads bs) = true → answers (.bcfg d a b) s d 3 fun t => t.die k = u.die k) ∧
         (u.badBlock (ctxOf s) s.core.id (quads bs) = false → (∃ o ∈ (s.die k).bins, o.1 ≠ n ∧ o.2.wsid = quad (quads bs) 0) →
           answers (.bcfg d a b) s d 2 fun t => t.die k = u.die k) ∧
         (u.badBlock (ctxOf s) s.core.id (quads bs) = false → (∀ o ∈ (s.die k).bins, o.1 ≠ n → o.2.wsid ≠ quad (quads bs) 0) →
           answers (.bcfg d a b) s d 0 fun t => assoc n (t.die k).bins = some
             ({ ctx := ctxOf s, core := s.core.id, win := bitsOf (quad (quads bs) 3) 39 16 + 1,
                 nslot := bitsOf (quad (quads bs) 3) 15 8 + 1, bsize := bitsOf (quad (quads bs) 3) 7 0 + 1,
                 ring := quad (quads bs) 2, tmpl := quad (quads bs) 1, wsid := quad (quads bs) 0,
                 members := [], t0 := 0, seq := 1, slot := 0, closing := none } : Bin)))) ∧
   (∀ (s : State) (d a b : Reg), handles s → 64 ≤ nv s a → exec (.bcfg d a b) s = traps s 0x06 (s.core.getG a) s.core.pc) ∧
   (∀ (s : State) (d a b : Reg),
     let k := dieOf s.core.id
     ((s.die k).binOf (ctxOf s) (s.core.getG a) = none → exec (.bsub d a b) s = puts s d 2 ∧ exec (.bclose d a) s = puts s d (-1)) ∧
     (∀ n o, (s.die k).binOf (ctxOf s) (s.core.getG a) = some (n, o) →
       (o.closing.isSome → answers (.bsub d a b) s d 1 (fun t => assoc n (t.die k).bins = some o) ∧
         answers (.bclose d a) s d 0 fun t => assoc n (t.die k).bins = some o) ∧
       (o.closing = none → o.members = [] →
         answers (.bsub d a b) s d 0 (fun t => assoc n (t.die k).bins = some { o with
           members := [s.core.getG b], t0 := s.cycle, closing := if o.bsize = 1 then some (0, s.cycle) else none }) ∧
         answers (.bclose d a) s d 0 fun t => assoc n (t.die k).bins = some o) ∧
       (o.closing = none → o.members ≠ [] → s.cycle - 1 < o.t0 + o.win →
         answers (.bsub d a b) s d 0 (fun t => assoc n (t.die k).bins = some { o with
           members := o.members ++ [s.core.getG b]
           closing := if o.members.length + 1 = o.bsize then some (0, s.cycle) else none }) ∧
         answers (.bclose d a) s d (BitVec.ofNat 64 o.members.length) fun t =>
           assoc n (t.die k).bins = some { o with closing := some (2, s.cycle) }) ∧
       (o.closing = none → o.members ≠ [] → o.t0 + o.win ≤ s.cycle - 1 →
         answers (.bsub d a b) s d 1 (fun t => assoc n (t.die k).bins = some { o with closing := some (1, o.t0 + o.win) }) ∧
         answers (.bclose d a) s d 0 fun t => assoc n (t.die k).bins = some { o with closing := some (1, o.t0 + o.win) }))) ∧
   (∀ (s : State) (die bin : Nat) (o : Bin), die < 2 → assoc bin (s.die die).bins = some o → o.members ≠ [] → o.closing = none →
     (o.t0 + o.win ≤ s.cycle → exec (.barkerWindowExpiry die bin) s = .next (s.putDie die { s.die die with
       bins := assocPut bin { o with closing := some (1, o.t0 + o.win) } (s.die die).bins })) ∧
     (s.cycle < o.t0 + o.win → exec (.barkerWindowExpiry die bin) s = .next s)) ∧
   (∀ (s : State) (die bin : Nat) (b : Bin) (why closed : Nat), die < 2 → assoc bin (s.die die).bins = some b →
     b.closing = some (why, closed) → s.binReady b = true → s.templateSettled b = true →
     (∀ o ∈ (s.die die).bins, closedBefore (o.1, o.2.expire s.cycle) (bin, b) = true → s.binReady (o.2.expire s.cycle) = false) →
     let slot := b.ring + BitVec.ofNat 64 (4096 * b.slot)
     ∀ r a ta, s.barkerPage b slot 64 .read = .ok r → s.barkerPage b slot (64 + 8 * b.members.length) .write = .ok a →
     let u := s.homeWrite a (b.batch why closed)
     u.barkerPage b b.tmpl 128 .read = .ok ta →
     let rcd := setAt 3 slot (quads (u.homeRead ta 128).1)
     (u.homeRead ta 128).2.rcdStatus b.ctx rcd die = 0 →
     ∃ t l, exec (.barkerLaunch die bin) s = .next t ∧ l ∈ t.launches ∧ l.src = .barker die bin slot ∧ l.ctx = b.ctx ∧ l.rcd = rcd ∧
       l.st = .waiting ∧ assoc bin (t.die die).bins = some { b with
         members := [], closing := none, seq := b.seq + 1, slot := (b.slot + 1) % max 1 b.nslot })))

namespace Sys2Proof.Rules

open Sys2Proof.Machine

/-- A step of the device that is not due changes nothing (log 63). -/
def notNow (i : Instr) (s : State) : Prop := exec i s = .next s

/-- A step of core c is the same step with that core as the current one, or is not due in either and changes nothing. -/
def asFocus (i : Instr) (c : Nat) (s : State) : Prop :=
  exec i s = exec i (s.focus c) ∨ exec i s = .next s ∧ exec i (s.focus c) = .next (s.focus c)

end Sys2Proof.Rules

/-- The queue engine, and records from the host and other devices (R378, R379, R381, R382, R383, R51, R256, R380, R386, R401). RECORD_TAKE
of the queue whose turn it is makes TAKEN one more; the record is held for DQ when the queue is bound, becomes a waiting launch when its
status is 0, and otherwise a completion with that status. LAUNCH_COMPLETE writes the 64 bytes of the next completion in queue order at its
place, changes no other byte, makes DONE one more and raises the queue's vector when it is on. A waiting queue begins to switch in and then
becomes resident; a queue told to leave begins to switch out and then leaves. TAIL_WRITE raises the TAIL of an open ring-mode queue to a
value with bit 63 clear. Nothing of the host's arrives before the link is trained. A host write to a window that is not a record of 128
bytes from offset 0 is journaled with event code 2, whether or not a queue is there, and a record for a ring-mode queue with 3; a record for
the window of no queue changes nothing; one for a full window gets a QFULL completion, and any other is written at its place and makes TAIL
one more. A record from another device for a queue that is not there, is in ring mode or does not admit its source is answered 2 when it came
from ENQ and otherwise journaled with code 3 for a ring-mode queue and 4 for the others; one admitted goes as a host's, an ENQ's with its
answer 0 or 1 in class C. That records for no queue are journaled under context 0 is the model's choice (log 62). -/
def Obligations.QueuesAndRecords : Prop :=
  ((∀ (s : State) (q : Nat) (x : Queue) (fresh : Bool), s.chosenQueue (queueDie q) = some (x, fresh) → x.id = q →
     s.rangeSettled (x.recAddr x.taken) 128 = true →
     let r := quads (s.homeRead (x.recAddr x.taken) 128).1
     ∃ t, exec (.recordTake q) s = .next t ∧
       (∀ y ∈ t.queues, y.id = q → ∃ z ∈ s.queues, z.id = q ∧ y.taken = z.taken + 1) ∧
       (x.boundTo.isSome → ∀ y ∈ t.queues, y.id = q → y.records.getLast? = some (x.taken, r)) ∧
       (x.boundTo = none → s.rcdStatus x.ctx r (queueDie q) = 0 → ∃ l ∈ t.launches, l.id = s.nextLaunch ∧ l.src = .queue q x.taken ∧
         l.ctx = x.ctx ∧ l.rcd = r ∧ l.st = .waiting) ∧
       (x.boundTo = none → s.rcdStatus x.ctx r (queueDie q) ≠ 0 → ∀ y ∈ t.queues, y.id = q → y.comps.getLast? =
         some { recno := some x.taken, after := x.taken, status := s.rcdStatus x.ctx r (queueDie q), utag := quad r 13, report := none })) ∧
   (∀ (s : State) (q : Nat) (x : Queue) (c : Completion), s.queues.find? (fun y => y.id == q) = some x → x.nextComp = some c →
     let a := x.cring + 64 * (x.done % 2 ^ x.log2n)
     s.rangeSettled a 64 = true → x.cring % 64 = 0 → Memory.wf s.mem = true → (s.dirLine (lineOf a)).hs ≠ .upd →
     ∃ t, exec (.launchComplete q) s = .next t ∧
       cellBytes t.mem a 64 = leBytes 8 ((1 - x.done / 2 ^ x.log2n % 2) + c.status * 2 ^ 8) ++ leBytes 8 0 ++
         leBytes 8 (match c.recno with | some k => k | none => 2 ^ 64 - 1) ++ leBytes 8 c.utag.toNat ++ reportBytes c.report ∧
       sameOutside s t a 64 ∧ t.msix = (if x.vecOn then x.vec :: s.msix else s.msix) ∧
       (∀ y ∈ t.queues, y.id = q → ∃ z ∈ s.queues, z.id = q ∧ y.done = z.done + 1 ∧ y.comps = z.comps.erase c ∧
         y.recDone = (if c.recno.isSome then z.recDone + 1 else z.recDone) ∧ y.taken = z.taken ∧ y.tail = z.tail)) ∧
   (∀ (s : State) (q : Nat) (x : Queue), s.queue? q = some x →
     (x.resident = false → x.switching = true → exec (.queueSwitchIn q) s = .next { s with
       queues := s.queues.map fun y => if y.id = q then { y with switching := false, resident := true, waitingSince := none } else y }) ∧
     (x.resident = false → x.switching = false → x.waitingSince.isSome → s.residents (queueDie q) < 256 →
       (∀ y ∈ s.queues, queueDie y.id = queueDie q → y.waitingSince.isSome → y.switching = false → y.beats x = false) →
       exec (.queueSwitchIn q) s = .next { s with
         queues := s.queues.map fun y => if y.id = q then { y with switching := true, wbDone := y.done, wbTaken := y.taken } else y }) ∧
     (x.resident = true → x.switching = true → exec (.queueSwitchOut q) s = .next { s with
       queues := s.queues.map fun y => if y.id = q then { y with switching := false, resident := false }.awaken s.clock else y }) ∧
     (x.idle = true → 256 ≤ s.residents (queueDie q) →
       (∃ y ∈ s.queues, queueDie y.id = queueDie q ∧ y.waitingSince.isSome ∧ y.switching = false) →
       (∀ y ∈ s.queues, queueDie y.id = queueDie q → y.idle = true → x.lastTaken ≤ y.lastTaken) →
       exec (.queueSwitchOut q) s = .next { s with
         queues := s.queues.map fun y => if y.id = q then { y with switching := true, wbDone := y.done, wbTaken := y.taken } else y }) ∧
     (x.resident = true → notNow (.queueSwitchIn q) s)) ∧
   (∀ (s : State) (q : Nat) (v : W64), exec (.tailWrite q v) s = .next { s with queues := s.queues.map fun y =>
     if y.id = q ∧ y.window = false ∧ y.closing = false ∧ v.toNat < 2 ^ 63 then { y with tail := max y.tail v.toNat }.awaken s.clock else y })) ∧
  ((∀ (s : State) (q off : Nat) (data : List Byte), s.pcieTrained = false → exec (.enqueueWindowWrite q off data) s = .next s) ∧
   (∀ (s : State) (q off : Nat) (data : List Byte), s.queue? q = none →
     (s.pcieTrained = true → off = 0 → data.length = 128 → exec (.enqueueWindowWrite q off data) s = .next s) ∧
     (s.pcieTrained = true → (off ≠ 0 ∨ data.length ≠ 128) → exec (.enqueueWindowWrite q off data) s =
       .next (s.journal 2 0 0 (dropBody 2 q 0 0 (arrivedUtag off data)) none)) ∧
     (∀ src, exec (.fabricRecord src q off data true) s = .next { s with fabric := s.fabric ++
         [{ cls := 3, dev := src, addr := BitVec.ofNat 64 q, core := 0, data := [], op := none, reply := some (.status 2) }] } ∧
       exec (.fabricRecord src q off data false) s = .next (s.journal 2 0 0 (dropBody 4 q 1 src (arrivedUtag off data)) none))) ∧
   (∀ (s : State) (q off : Nat) (data : List Byte) (x : Queue), s.queue? q = some x → s.rangeSettled (x.recAddr x.tail) 128 = true →
     (s.pcieTrained = true → (off ≠ 0 ∨ data.length ≠ 128) → exec (.enqueueWindowWrite q off data) s =
       .next (s.journal 2 x.ctx 0 (dropBody 2 q 0 0 (arrivedUtag off data)) none)) ∧
     (s.pcieTrained = true → off = 0 → data.length = 128 → x.window = false → exec (.enqueueWindowWrite q off data) s =
       .next (s.journal 2 x.ctx 0 (dropBody 3 q 0 0 (arrivedUtag off data)) none)) ∧
     (s.pcieTrained = true → off = 0 → data.length = 128 → x.window = true → x.tail - x.taken = 2 ^ x.log2n → exec (.enqueueWindowWrite q off data) s =
       .next { s with queues := s.queues.map fun y => if y.id = q then { y with comps := y.comps ++
         [{ recno := none, after := y.tail, status := 3, utag := BitVec.ofNat 64 (arrivedUtag off data), report := none }] } else y }) ∧
     (data.length = 128 → x.window = true → x.tail - x.taken ≠ 2 ^ x.log2n → x.ring % 128 = 0 → Memory.wf s.mem = true →
       (s.dirLine (lineOf (x.recAddr x.tail))).hs ≠ .upd →
       let ends := fun (i : Instr) (f : List FabricMsg) => ∃ t, exec i s = .next t ∧ cellBytes t.mem (x.recAddr x.tail) 128 = data ∧
         sameOutside s t (x.recAddr x.tail) 128 ∧ t.fabric = s.fabric ++ f ∧
         t.queues = s.queues.map fun y => if y.id = q then { y with tail := y.tail + 1 }.awaken s.clock else y
       (s.pcieTrained = true → off = 0 → ends (.enqueueWindowWrite q off data) []) ∧
       (∀ src, x.sources.any (fun r => decide (r.1 ≤ src) && decide (src ≤ r.2)) = true →
         (off = 0 → ends (.fabricRecord src q off data false) []) ∧
         ends (.fabricRecord src q off data true)
           [{ cls := 3, dev := src, addr := BitVec.ofNat 64 q, core := 0, data := [], op := none, reply := some (.status 0) }])) ∧
     (∀ src, (x.window = false ∨ x.sources.any (fun r => decide (r.1 ≤ src) && decide (src ≤ r.2)) = false) →
       exec (.fabricRecord src q off data true) s = .next { s with fabric := s.fabric ++
         [{ cls := 3, dev := src, addr := BitVec.ofNat 64 q, core := 0, data := [], op := none, reply := some (.status 2) }] } ∧
       exec (.fabricRecord src q off data false) s = .next (s.journal 2 x.ctx 0
         (dropBody (if x.window then 4 else 3) q 1 src (arrivedUtag off data)) none)) ∧
     (∀ src, x.window = true → x.sources.any (fun r => decide (r.1 ≤ src) && decide (src ≤ r.2)) = true → x.tail - x.taken = 2 ^ x.log2n →
       exec (.fabricRecord src q off data true) s = .next { s with fabric := s.fabric ++
         [{ cls := 3, dev := src, addr := BitVec.ofNat 64 q, core := 0, data := [], op := none, reply := some (.status 1) }] })))

/-- Gangs start together and instances begin (R258, R259, R254, R110, R382). GANG_START of a waiting launch that fits on free clusters, with
none of its class to resume first and its armed queue free, makes it running on those clusters with every placed core's strand of its
context, idle, with the instances placed there to run, and binds the armed queue. INSTANCE_START begins the next one: g2 the top of the
core's stack, g3 ARGP, g4 the linear number, no loop, loop registers 0, the record's slacks, TASKID with generation 0 and the die's next
body number, TREEID 0, CANF and PX clear, at the image's base plus the record's entry. -/
def Obligations.GangsAndInstancesStart : Prop :=
  (∀ (s : State) (n : Nat) (l : Launch) (ctx : Context) (cores : List Nat), (∀ x ∈ s.launches, x.st ≠ .preempting) →
    s.launch? n = some l → s.ctx? l.ctx = some ctx → l.st = .waiting → s.resumesFirst l = false → s.barkerAhead l = false →
    s.armFree l = true → placement s.clusterFree l.rcd l.die = some cores →
    (∀ c ∈ cores, c < 1024) → (∀ c ∈ cores, ∀ z, assoc (l.ctx * 1024 + c) s.strands = some z → z.id = c ∧ z.ctx = some l.ctx) →
    ∃ t, exec (.gangStart n) s = .next t ∧ t.mem = s.mem ∧
      (∀ x ∈ t.launches, x.id = n → x.st = .running ∧ x.clusters = clustersOf cores ∧ x.left = cores.length) ∧
      (∀ c ∈ cores, (t.coreAt c).ctx = some l.ctx ∧ (t.coreAt c).launch = some n ∧ (t.coreAt c).seq = .idle ∧
        ∀ k, k ∈ (t.coreAt c).todo ↔ cores[k]? = some c) ∧
      (rcdArmed l.rcd = true → ∀ q ∈ t.queues, q.id = rcdArmq l.rcd → q.boundTo = some n)) ∧
  (∀ (s : State) (k n : Nat) (rest : List Nat) (l : Launch) (ctx : Context) (i : Image), s.core.seq = .idle → s.core.todo = n :: rest →
    s.core.launch = some k → s.launch? k = some l → l.st = .running → s.ctx? l.ctx = some ctx → s.rcdImage l.ctx l.rcd = some i →
    rcdNlev l.rcd ≤ 8 →
    let d := dieOf s.core.id
    let no := if (s.die d).bodyNo + 1 < 2 ^ 20 then (s.die d).bodyNo + 1 else 1
    ∃ t, exec (.instanceStart s.core.id) s = .next t ∧ t.mem = s.mem ∧ t.others = s.others ∧ (t.die d).bodyNo = no ∧
      t.core.seq = .run ∧ t.core.pc = i.sqAddr + quad l.rcd 2 ∧ t.core.todo = rest ∧ t.core.loops = [] ∧ t.core.loads = [] ∧
      t.core.taskid = BitVec.ofNat 32 (d * 2 ^ 31 + no) ∧ t.core.treeid = 0 ∧ t.core.canf = false ∧ t.core.status.getLsbD 0 = false ∧
      t.core.body = some { launch := l.id, linear := n, taskid := BitVec.ofNat 32 (d * 2 ^ 31 + no) } ∧
      t.core.slack = slackFields (BitVec.ofNat 64 ((quad l.rcd 0).toNat / 2 ^ 32)) ∧
      t.core.getG 2 = BitVec.ofNat 64 (0xFD0000000000 + (s.core.id + 1) * ctx.stackBytes) ∧ t.core.getG 3 = quad l.rcd 3 ∧
      t.core.getG 4 = BitVec.ofNat 64 n ∧ t.core.getG 1 = 0 ∧ (∀ r : Reg, 13 ≤ r.val → t.core.getG r = 0) ∧
      (∀ j : LReg, t.core.getL j = 0) ∧ t.core.v = s.core.v ∧ t.core.fctl = s.core.fctl)

/-- Aborts, pre-emption and resumption; an event of a core acts on that core (R219, R221, R264, R361, R364, R382, R118, R119, R355).
TASK_ABORT of a strand at level 0 with a held error, no boundary under way and its programs where they may be cut discards its version,
loads, loops and queued commands; a Ringmaster task's strand goes to its pick return point with 2, a launch body's becomes idle.
STRAND_PREEMPT of a strand that stands at a point of R264 stops it there, its instruction to be executed again. ENGINE_CONTINUATION_STOP
stops a running program at its point, an array's recording PRE. CONTEXT_RESUME of a pre-empted launch whose clusters are free and that no
higher class claims makes it running again and takes up what was saved; when a saved strand's VL elements do not fit the vector registers of
this part, the launch stays pre-empted and SHAPE is journaled (the report's FADDR 0, WADDR the saved pc and ENGINE 7 are the model's choice,
log 32). For the event rows named here, each of which names a core, executing the event in a state is executing it in the same state with that
core as the current one, or is not due in either and changes nothing; the statements about these events speak of the current core and reach
every core through this one. -/
def Obligations.AbortsAndPreemption : Prop :=
  ((∀ (s : State), s.core.abortDue = true → s.core.commit = none → s.cuttable s.core = true → s.core.seq ≠ .preempted →
     s.core.seq ≠ .stopped →
     ∃ t, exec (.taskAbort s.core.id) s = .next t ∧ t.core.id = s.core.id ∧ t.core.version = [] ∧ t.core.loads = [] ∧ t.core.loops = [] ∧
       t.core.vq = [] ∧ t.core.xinq = [] ∧ t.core.xoutq = [] ∧ t.core.mq = [] ∧ t.core.aq = [] ∧ t.core.snaps = [] ∧
       (s.core.ring = none → s.core.body.isSome → t.core.seq = .idle ∧ t.core.held = [] ∧ t.core.body = none) ∧
       (∀ pc gd, s.core.ring.isSome → s.core.pickRet = some (pc, gd) → t.core.pc = pc ∧ t.core.seq = .run ∧ t.core.held = [] ∧
         t.core.ring = none ∧ t.core.treeid = 0 ∧ (gd ≠ 0 → t.core.getG gd = 2))) ∧
   (∀ (s : State), s.preemptDue s.core = true → s.atPoint s.core = true →
     ∃ t, exec (.strandPreempt s.core.id) s = .next t ∧ t.core = { s.core with seq := .preempted, micro := 0 } ∧ t.others = s.others ∧
       t.mem = s.mem) ∧
   (∀ (s : State) (c : Nat) (p : ProgRun),
     let x := s.coreAt c
     x.seq = .preempted → x.vrun = none → p.stopped = false → p.point = true →
     (x.xin = some p → (∀ r, x.remote = some r → r.who ≠ .xin) →
       exec (.engineContinuationStop c 0) s = .next (s.putCore { x with xin := some { p with stopped := true } })) ∧
     (x.xout = some p → (∀ r, x.remote = some r → r.who ≠ .xout) →
       exec (.engineContinuationStop c 1) s = .next (s.putCore { x with xout := some { p with stopped := true } })) ∧
     (∀ k, k < 2 → ((s.cluster (clusterOf c)).arr k).run = some p → p.core = c →
       (∀ r, x.remote = some r → r.who ≠ if k = 0 then .arr0 else .arr1) →
       exec (.engineContinuationStop c (k + 2)) s = .next (s.putCluster (clusterOf c) ((s.cluster (clusterOf c)).putArr k
         { (s.cluster (clusterOf c)).arr k with
           run := some { p with stopped := true }, bits := ((s.cluster (clusterOf c)).arr k).bits ||| 2 ^ 7 })))) ∧
   (∀ (s : State) (n : Nat) (l : Launch), (∀ x ∈ s.launches, x.st ≠ .preempting) → s.launch? n = some l → l.st = .preempted →
     (∀ g ∈ l.clusters, s.clusterFree g = true) → s.claimed l = false → l.shape = false →
     ((∀ v ∈ s.saved, v.launch = n → v.wide = false) → (∀ v ∈ s.savedClusters, v.launch = n → v.foreign = false) →
       ∃ t, exec (.contextResume n) s = .next t ∧ (∀ x ∈ t.launches, x.id = n → x.st = .running) ∧ (∀ v ∈ t.saved, v.launch ≠ n) ∧
         (∀ v ∈ t.savedClusters, v.launch ≠ n)) ∧
     (∀ v, s.saved.find? (fun y => y.launch == n && y.wide) = some v → ∃ t, exec (.contextResume n) s = .next t ∧ t.saved = s.saved ∧
       (∀ x ∈ t.launches, x.id = n → x.st = .preempted ∧ x.shape = true) ∧
       t = (s.journal 1 l.ctx 0 0 (some { faddr := 0, waddr := v.core.pc, taskid := v.core.taskid, offset := 0, popped := 0, stream := none
                                          engine := 7, core := v.core.id, code := Cause.shape.code })).mapLaunch n
         fun x => { x with shape := true }))) ∧
  (∀ (s : State) (c k : Nat),
     asFocus (.taskStart c) c s ∧
     asFocus (.instanceStart c) c s ∧
     asFocus (.taskAbort c) c s ∧
     asFocus (.strandPreempt c) c s ∧
     asFocus (.storeArrival c k) c s ∧
     asFocus (.commitMarker c k) c s ∧
     asFocus (.fenceMarker c k) c s ∧
     asFocus (.markerAck c k) c s ∧
     asFocus (.commitFlip c) c s ∧
     asFocus (.taskEnd c) c s ∧
     asFocus (.loopEndCheck c) c s ∧
     asFocus (.loadDataReturn c k) c s ∧
     asFocus (.barwaitWake c) c s ∧
     asFocus (.waitqWake c) c s)

namespace Sys2Proof.Rules

open Sys2Proof.Machine

/-- Message k may be taken from those in flight: none of its class and route stands before it (R308). -/
def arrives (s : State) (k : Nat) (m : Msg) : Prop := ∃ t, s.takeMsg k = some (m, t)

/-- The messages left when message k has been taken. -/
def restMsgs (s : State) (k : Nat) : List Msg := s.msgs.eraseIdx k

/-- A request at its home that needs no place in the directory (R300): its region is held by some cluster already, and its entry stays. -/
def placed (s : State) (l : Nat) : Prop := (s.region (l / 4)).pres ≠ [] ∧ (s.region (l / 4)).evicting = false

/-- In the directory set of a line nothing that waits can be served or needs a way, and no eviction has ended (R300, R301). -/
def quietSet (s : State) (l : Nat) : Prop :=
  (∀ m ∈ s.homeQ, regionSet (m.line / 4) = regionSet (l / 4) → s.servable m.line = false ∧ s.hasRoom (m.line / 4) = true) ∧
  ∀ r ∈ s.setRegions (l / 4), s.evicted r = false

/-- Addresses rise strictly. -/
def rising (v : List Host.Cell) : Prop := (v.map fun c => c.1).Pairwise (· < ·)

end Sys2Proof.Rules

/-- A commit goes through its slices, flips, and becomes the committed value (R92, R280, R281, R283, R284, R295, R313). Of a core's commit:
a plain store behind no other for its slice arrives; the marker reaches a slice of the version once its stores and its cluster's other
messages of class Q for the slice have arrived, its lines have their directory entries and no protocol step holds them, and the lines then
wait in CMT; a fence's marker reaches a destination behind the same messages; a marked slice whose owners have answered acknowledges; with
every acknowledgement the flip gives the version the next number (48 bits, never 0), makes each of its bytes of this device's memory the
committed one and no other, empties the version, and sends the bytes of other devices in class W, whose acknowledgements it awaits and of
whose lines the cluster's leased copies go; and each slice learns of the flip, memory unchanged, after the translation caches that used a
region of its lines have been told to drop what they derived from it and have done so. -/
def Obligations.CommitsGoThrough : Prop :=
  (∀ (s : State) (k dest : Nat) (ls : List Nat), s.core.stores[k]? = some (dest, ls) → (∀ y ∈ s.core.stores.take k, y.1 ≠ dest) →
    exec (.storeArrival s.core.id k) s = .next { s with core := { s.core with stores := s.core.stores.eraseIdx k } }) ∧
  (∀ (s : State) (dest : Nat) (r : CommitRec), s.core.commit = some r → r.number = none → dest ∈ r.dests → dest ∉ r.marked →
    (∀ x ∈ s.core.stores, x.1 ≠ dest) → s.behindQ s.core.id dest = false →
    (∀ l ∈ versionLines s.core.version dest, (s.dirLine l).await = [] ∧ (s.dirLine l).hs ≠ .mrg ∧ (s.dirLine l).hs ≠ .upd ∧
      (s.region (l / 4)).evicting = false ∧ s.hasRoom (l / 4) = true ∧ s.waitsAtHome l = false ∧ (∀ g p, .parked g l p ∉ s.msgs) ∧ (∀ g st p, .reply g l st p ∉ s.msgs)) →
    ∃ t, exec (.commitMarker s.core.id dest) s = .next t ∧ t.mem = s.mem ∧ t.core.version = s.core.version ∧
      t.core.commit = some { r with marked := insertNat dest r.marked } ∧
      ∀ l ∈ versionLines s.core.version dest, (t.dirLine l).hs = .cmt ∧ s.core.id ∈ (t.dirLine l).commits) ∧
  (∀ (s : State) (dest : Nat) (f : FenceRec), s.core.fence = some f → dest ∈ f.dests →
    (dest ∉ f.marked → (∀ x ∈ s.core.stores, x.1 ≠ dest) → s.behindQ s.core.id dest = false → exec (.fenceMarker s.core.id dest) s =
      .next { s with core := { s.core with fence := some { f with marked := insertNat dest f.marked } } }) ∧
    (dest ∈ f.marked → dest ∉ f.acked → s.core.commit = none → exec (.markerAck s.core.id dest) s =
      .next { s with core := { s.core with fence := some { f with acked := insertNat dest f.acked } } })) ∧
  (∀ (s : State) (dest : Nat) (r : CommitRec), s.core.commit = some r → r.number = none → dest ∈ r.marked → dest ∉ r.acked →
    (∀ l ∈ versionLines s.core.version dest, (s.dirLine l).await = []) →
    exec (.markerAck s.core.id dest) s =
      .next { s with core := { s.core with commit := some { r with acked := insertNat dest r.acked } } }) ∧
  (∀ (s : State) (r : CommitRec), s.core.commit = some r → r.number = none → (∀ d ∈ r.dests, d ∈ r.acked) →
    Memory.wf s.mem = true → rising s.core.version →
    let n := if s.commitNo = 2 ^ 48 - 1 then 1 else s.commitNo + 1
    ∃ t, exec (.commitFlip s.core.id) s = .next t ∧ t.commitNo = n ∧ t.core.version = [] ∧ t.core.versionId = none ∧
      (∃ x, t.core.commit = some x ∧ x.number = some n ∧ x.dests = r.dests) ∧
      t.core.acks = s.core.acks ++ (versionDevs s.core.version).map (fun d => (n, d)) ∧
      (∀ l ∈ linesOf s.core.version, remoteLine l = true → ∀ x ∈ (t.cluster (clusterOf s.core.id)).leases, x.line ≠ l) ∧
      (∀ a, cellGet t.mem a = match verGet s.core.version a with
        | some b => if a < physTop then b else cellGet s.mem a
        | none => cellGet s.mem a) ∧
      t.notices = s.notices ++ (r.dests.map fun d => ({ core := s.core.id, slice := d, lines := versionLines s.core.version d } : Notice)) ∧
      t.fabric = s.fabric ++ ((versionDevs s.core.version).map fun d =>
        ({ cls := 2, dev := d, addr := 0, core := s.core.id, data := versionFor s.core.version d, op := none } : FabricMsg))) ∧
  (∀ (s : State) (c slice : Nat) (n : Notice), s.notices.find? (fun n => n.core == c && n.slice == slice) = some n →
    ((∀ l ∈ n.lines, (s.region (l / 4)).walkers = []) →
      ∃ t, exec (.flipNotice c slice) s = .next t ∧ t.notices = s.notices.erase n ∧ t.mem = s.mem) ∧
    ((∃ l ∈ n.lines, ∃ d ∈ (s.region (l / 4)).walkers, s.shootingDown d (l / 4) = false) →
      ∃ ms, exec (.flipNotice c slice) s = .next { s with msgs := s.msgs ++ ms } ∧ ∀ m, m ∈ ms ↔
        ∃ l ∈ n.lines, ∃ d ∈ (s.region (l / 4)).walkers, s.shootingDown d (l / 4) = false ∧ m = .shootdown d (l / 4)) ∧
    ((∃ l ∈ n.lines, (s.region (l / 4)).walkers ≠ []) →
      (∀ l ∈ n.lines, ∀ d ∈ (s.region (l / 4)).walkers, s.shootingDown d (l / 4) = true) → notNow (.flipNotice c slice) s))

/-- Requests at their home (R97, R100, R300, R302, R303, R305, R306). A request that arrives for a line in a region its directory already
holds: while the line is blocked and nothing else of its set is due, it waits behind the others; a read of a line uncached or shared is
answered with an S copy, of a line another cluster owns by a probe of the owner, and of a line in U starts its merge; a grant or an update of
a line not in U with no other cluster in PRES, or of one that is free at the home, is answered with M and ownership, or with U and an empty
partial under the update's tag; a grant with other clusters in PRES probes them; a holder of the line in U asking with the same tag gets its
parked partial back. A merge whose probes have all been answered writes the combined leaves to the line and nothing else, and with nothing
waiting the line is uncached. No other step here changes memory. -/
def Obligations.RequestsAreServed : Prop :=
  (∀ (s : State) (k g l : Nat), placed s l →
    (arrives s k (.readReq g l) →
      let d := s.dirLine l
      (d.blocked = true → quietSet s l → exec (.homeReadRequest k) s = .next { s with msgs := restMsgs s k, homeQ := s.homeQ ++ [.readReq g l] }) ∧
      (d.blocked = false → (d.hs = .unc ∨ d.hs = .shd) → ∃ t, exec (.homeReadRequest k) s = .next t ∧
        t.msgs = restMsgs s k ++ [.reply g l .s none] ∧ (t.dirLine l).hs = .shd ∧ g ∈ t.pres l ∧ t.mem = s.mem) ∧
      (d.blocked = false → d.hs = .own → d.owner ≠ g → ∃ t, exec (.homeReadRequest k) s = .next t ∧
        t.msgs = restMsgs s k ++ [.probe d.owner l .read (some g)] ∧ t.homeQ = .readReq g l :: s.homeQ ∧
        (t.dirLine l).await = [d.owner] ∧ t.mem = s.mem) ∧
      (d.blocked = false → d.hs = .upd → ∃ t, exec (.homeReadRequest k) s = .next t ∧ (t.dirLine l).hs = .mrg ∧
        t.homeQ = .readReq g l :: s.homeQ ∧ t.mem = s.mem)) ∧
    (arrives s k (.grantReq g l) →
      let d := s.dirLine l
      let others := s.sharers d g
      (d.blocked = true → quietSet s l → exec (.homeGrantRequest k) s = .next { s with msgs := restMsgs s k, homeQ := s.homeQ ++ [.grantReq g l] }) ∧
      (d.blocked = false → d.hs ≠ .upd → others = [] → ∃ t, exec (.homeGrantRequest k) s = .next t ∧
        t.msgs = restMsgs s k ++ [.reply g l .m none] ∧ (t.dirLine l).hs = .own ∧ (t.dirLine l).owner = g ∧ g ∈ t.pres l ∧ t.mem = s.mem) ∧
      (d.blocked = false → d.hs ≠ .upd → others ≠ [] → ∃ t, exec (.homeGrantRequest k) s = .next t ∧
        t.msgs = restMsgs s k ++ (others.map fun h => Msg.probe h l .invalidate none) ∧ t.homeQ = .grantReq g l :: s.homeQ ∧
        (t.dirLine l).await = others ∧ t.mem = s.mem)) ∧
    (∀ u, arrives s k (.updReq g l u) →
      let d := s.dirLine l
      let others := s.sharers d g
      (d.blocked = true → quietSet s l → exec (.homeUpdRequest k) s = .next { s with msgs := restMsgs s k, homeQ := s.homeQ ++ [.updReq g l u] }) ∧
      (d.blocked = false → d.hs ≠ .upd → others = [] → ∃ t, exec (.homeUpdRequest k) s = .next t ∧
        t.msgs = restMsgs s k ++ [.reply g l .u (some (Partial.identity u))] ∧ (t.dirLine l).hs = .upd ∧ (t.dirLine l).op = some u ∧
        g ∈ t.pres l ∧ t.mem = s.mem) ∧
      (d.blocked = false → d.hs = .upd → d.op = some u → ∀ p, d.parks.find? (fun x => x.1 = g) = some (g, p) →
        ∃ t, exec (.homeUpdRequest k) s = .next t ∧ t.msgs = restMsgs s k ++ [.reply g l .u (some p)] ∧ (t.dirLine l).hs = .upd ∧
          (∀ x ∈ (t.dirLine l).parks, x.1 ≠ g) ∧ t.mem = s.mem))) ∧
  (∀ (s : State) (l : Nat), let d := s.dirLine l
    d.hs = .mrg → d.await = [] → (∀ g p, .parked g l p ∉ s.msgs) → Memory.wf s.mem = true →
    let leaves := d.parks.foldl (fun acc p => insertLeaf p acc) (d.leaves.foldl (fun acc p => insertLeaf p acc) [])
    (s.merged d leaves).length = 128 →
    ∃ t, exec (.fullMerge l) s = .next t ∧ cellBytes t.mem (l * 128) 128 = s.merged d leaves ∧ sameOutside s t (l * 128) 128 ∧
      (s.homeQ = [] → t.dirLine l = DirLine.unc l))

/-- Clusters, homes and caches answer the protocol's messages (R302, R303, R304, R307, R308, R309, R310, R311, R293). A write-back ends the
ownership of a line its cluster still owns and is acknowledged; a parked partial of the line's tag is kept as the cluster's leaf, one for a
line no longer in U or merging is applied at once, and it is acknowledged; a probe of a line a cluster does not hold is answered as absent,
one that must wait for a reply on its way is kept, and a read or invalidating probe of a line a strand has just been granted waits for its
atomic; a read probe of M or O is answered with data and leaves O, of S as kept, an invalidation and a merge take the copy, the merge with its
partial; an answer is taken off the awaited ones, and with the last one a reader that waits is answered; a data reply into a set with room
settles the entry in the state it brings; an acknowledgement ends a write-back; a shootdown drops the die's translations of its region and
clears its WALK; an expired lease is gone. -/
def Obligations.ProtocolMessagesComplete : Prop :=
  (∀ (s : State) (k g l : Nat), arrives s k (.writeBack g l) →
    let d := s.dirLine l
    quietSet s l → ∃ t, exec (.writeBack k) s = .next t ∧ t.msgs = restMsgs s k ++ [.wbAck g l] ∧ t.mem = s.mem ∧
      (t.dirLine l) = if d.hs = .own ∧ d.owner = g then { d with hs := .shd } else d) ∧
  (∀ (s : State) (k g l : Nat) (p : Partial), arrives s k (.parked g l p) →
    let d := s.dirLine l
    (d.op = some p.tag → (d.hs = .upd ∨ d.hs = .mrg) → ∃ t, exec (.parkedPartial k) s = .next t ∧
      t.msgs = restMsgs s k ++ [.wbAck g l] ∧ (g, p) ∈ (t.dirLine l).parks ∧ t.mem = s.mem) ∧
    (d.hs ≠ .upd → d.hs ≠ .mrg → exec (.parkedPartial k) s = .next { s with
      msgs := restMsgs s k ++ [.wbAck g l]
      mem := cellPutBytes s.mem (l * 128) (mergeLine p.tag (cellBytes s.mem (l * 128) 128) [p]) })) ∧
  (∀ (s : State) (k g l : Nat) (r : Option Nat),
    ((s.cluster g).entry l = none →
      (arrives s k (.probe g l .read r) → exec (.probeRead k) s = .next { s with msgs := restMsgs s k ++ [.answer g l none false false] }) ∧
      (arrives s k (.probe g l .invalidate r) →
        exec (.probeInvalidate k) s = .next { s with msgs := restMsgs s k ++ [.answer g l none false false] }) ∧
      (arrives s k (.probe g l .merge r) →
        exec (.probeMerge k) s = .next { s with msgs := restMsgs s k ++ [.answer g l none false false] })) ∧
    (∀ e, (s.cluster g).entry l = some e →
      (arrives s k (.probe g l .read r) →
        (s.ownFirst g l = true → notNow (.probeRead k) s) ∧
        (e.xs = .none → (e.st = .m ∨ e.st = .o) → s.ownFirst g l = false → ∃ t, exec (.probeRead k) s = .next t ∧ t.msgs = restMsgs s k ++ [.answer g l none true true] ∧
          (t.cluster g).entry l = some { e with st := .o } ∧ t.mem = s.mem) ∧
        (e.xs = .none → e.st = .s → exec (.probeRead k) s = .next { s with msgs := restMsgs s k ++ [.answer g l none true false] }) ∧
        (e.xs = .is → { s with msgs := restMsgs s k }.replying g l = true → ∃ t, exec (.probeRead k) s = .next t ∧ t.msgs = restMsgs s k ∧
          (t.cluster g).entry l = some { e with heldProbes := e.heldProbes ++ [(.read, r)] } ∧ t.mem = s.mem)) ∧
      (arrives s k (.probe g l .invalidate r) → s.ownFirst g l = true → notNow (.probeInvalidate k) s) ∧
      (arrives s k (.probe g l .invalidate r) → e.xs = .none → e.hold = [] → e.queue = [] → s.ownFirst g l = false →
        ∃ t, exec (.probeInvalidate k) s = .next t ∧ t.mem = s.mem ∧ (t.cluster g).entry l = none ∧
          t.msgs = restMsgs s k ++ [.answer g l none false (e.st == .m || e.st == .o)]) ∧
      (arrives s k (.probe g l .merge r) → e.xs = .none → e.hold = [] → e.queue = [] →
        ∃ t, exec (.probeMerge k) s = .next t ∧ t.mem = s.mem ∧ (t.cluster g).entry l = none ∧
          t.msgs = restMsgs s k ++ [.answer g l e.part false false]))) ∧
  (∀ (s : State) (k g l : Nat) (part : Option Partial) (kept sup : Bool), arrives s k (.answer g l part kept sup) →
    let d := s.dirLine l
    (d.await.filter (· ≠ g) ≠ [] → ∃ t, exec (.probeAnswer k) s = .next t ∧ (t.dirLine l).await = d.await.filter (· ≠ g) ∧
      (t.dirLine l).hs = d.hs ∧ t.msgs = restMsgs s k ∧ t.mem = s.mem ∧
      (∀ p, part = some p → d.hs = .mrg → (g, p) ∈ (t.dirLine l).leaves)) ∧
    (d.await.filter (· ≠ g) = [] → (d.hs = .mrg ∨ d.hs = .cmt) → ∃ t, exec (.probeAnswer k) s = .next t ∧ (t.dirLine l).await = [] ∧
      (t.dirLine l).hs = d.hs ∧ t.mem = s.mem) ∧
    (d.await.filter (· ≠ g) = [] → ∃ t, exec (.probeAnswer k) s = .next t ∧ t.mem = s.mem ∧
      (∀ h, (d.hs = .own ∨ d.hs = .shd) → s.homeQ.find? (fun m => m.line == l) = some (.readReq h l) →
        (s.region (l / 4)).evicting = false → .reply h l .s none ∈ t.msgs))) ∧
  (∀ (s : State) (k g l : Nat),
    (∀ st part e, arrives s k (.reply g l st part) → (s.cluster g).entry l = some e → e.queue = [] → e.heldProbes = [] → s.evictee g l = none →
      (∀ j, j < 4 → (s.coreAt (4 * g + j)).loads = []) →
      ∃ t, exec (.dataReply k) s = .next t ∧ t.mem = s.mem ∧ t.msgs = restMsgs s k ∧ (t.cluster g).entry l = some { e with
        xs := .none, st := st, part := part, hold := if e.st = .i then [] else e.hold, heldProbes := [], last := s.clock }) ∧
    (∀ e, arrives s k (.wbAck g l) → (s.cluster g).entry l = some e → (e.xs = .mi ∨ e.xs = .ui) → e.queue = [] → e.heldProbes = [] →
      (∀ j, j < 4 → (s.coreAt (4 * g + j)).loads = []) →
      ∃ t, exec (.dataReply k) s = .next t ∧ t.mem = s.mem ∧ t.msgs = restMsgs s k ∧ (t.cluster g).entry l = none)) ∧
  (∀ (s : State) (k die r : Nat), arrives s k (.shootdown die r) → ∃ t, exec (.shootdown k) s = .next t ∧ t.msgs = restMsgs s k ∧
    t.mem = s.mem ∧ die ∉ (t.region r).walkers ∧ (∀ x ∈ t.l2tlb, x.1 = die → r ∉ x.2.regions) ∧
    (∀ c ∈ t.clusters, c.1 / 128 = die → ∀ x ∈ c.2.tlb, r ∉ x.regions)) ∧
  (∀ (s : State) (k g : Nat) (x : Lease), s.allLeases[k]? = some (some g, g, x) →
    (leaseEnded s.cycle x.expiry = true → ∃ t, exec (.leaseExpiry k) s = .next t ∧ x ∉ (t.cluster g).leases ∧ t.mem = s.mem) ∧
    (leaseEnded s.cycle x.expiry = false → notNow (.leaseExpiry k) s)) ∧
  (∀ (s : State) (k d : Nat) (x : Lease), s.allLeases[k]? = some (none, d, x) → leaseEnded s.cycle x.expiry = true →
    exec (.leaseExpiry k) s = .next { s with l2leases := s.l2leases.filter (· ≠ (d, x)) })

namespace Sys2Proof.Rules

open Sys2Proof.Machine

/-- The strand's version holds these bytes at an address that passes the checks of a read of as many bytes (R87, R90). -/
def dataAt (s : State) (va : W64) (bs : List Byte) : Prop :=
  ∃ pa, passesChecks s va bs.length .read none false pa ∧ versionHolds s pa bs

/-- Keys rise strictly. -/
def keysRise {α : Type} (l : List (Nat × α)) : Prop := (l.map fun e => e.1).Pairwise (· < ·)

/-- A failing lookup traps with its cause and value. -/
def lookupTraps (s : State) (i : Instr) (f : Fail) : Prop := exec i s = traps s f.1.code f.2 s.core.pc

end Sys2Proof.Rules

/-- Model descriptors, translation memory and its status (R224, R230, R231, R232, R233, R234, R235, R249). ACONFIG of a descriptor without
res bits gives 3 when a field is out of range or a page too small, 1 when a sequence uses its slot, and otherwise stores it and gives 0;
KTLOAD of an unlocked segment sets exactly its 256 entries from the image and gives 0, of a locked one gives 1; KTLOAD.st stores the
entries' image into the version and gives 0, of another context's segment gives 2, and both wait while a queued command's check used the
segment; KTLOCK gives 0 for the context's own or a newly taken segment, 1 for another's, 2 beyond the context's limit; KTLOCK.un frees the
context's and gives 0, else 1; KRSTAT gives the fields of the sequence, of a span of it, its DELTA, each of the latter from the HEAD and that
span's entry alone, and of the pool; a span beyond NSPAN traps BADOPND. A lookup that fails traps with its cause. -/
def Obligations.AttentionTablesComplete : Prop :=
  (∀ (s : State) (d a b : Reg) (bs : List Byte), nv s b < 32 → bs.length = 64 → dataAt s (s.core.getG a) bs → modelRes (quads bs) = none →
    let k := nv s b / 16
    let md := nv s b % 16
    let m := modelOf (quads bs)
    let fits := m.ok (bitsOf (quad (quads bs) 0) 63 62) (s.chip k).pgsz
    let used := ∃ e ∈ (s.chip k).entries, kindOf e.2.toNat = 1 ∧ headMd e.2.toNat = md ∧ (s.chip k).mine (ctxOf s) e.1 = true
    (fits = false → answers (.aconfig d a b) s d 3 fun t => t.chip k = s.chip k) ∧
    (fits = true → used → answers (.aconfig d a b) s d 1 fun t => t.chip k = s.chip k) ∧
    (fits = true → ¬ used → answers (.aconfig d a b) s d 0 fun t =>
      t.chip k = { s.chip k with models := assocPut (ctxOf s * 16 + md) m (s.chip k).models })) ∧
  (∀ (s : State) (d a b : Reg), nv s b < 2 ^ 11 →
    let k := nv s b / 2 ^ 10
    let n := nv s b % 2 ^ 10
    let ch := s.chip k
    (ch.segBusy n = true → exec (.ktload d a b) s = .next s ∧ exec (.ktloadSt d a b) s = .next s) ∧
    (ch.segBusy n = false → (assoc n ch.locks).isSome → exec (.ktload d a b) s = puts s d 1) ∧
    (ch.segBusy n = false → assoc n ch.locks = none → ∀ bs, bs.length = 4096 → dataAt s (s.core.getG a) bs →
      answers (.ktload d a b) s d 0 fun t =>
        (∀ e, e < 256 → (t.chip k).entry (256 * n + e) = leVal ((bs.drop (16 * e)).take 16)) ∧
        (∀ e, e / 256 ≠ n → (t.chip k).entry e = ch.entry e) ∧ (t.chip k).frames = ch.frames ∧ (t.chip k).locks = ch.locks) ∧
    (ch.segBusy n = false → (∃ o, assoc n ch.locks = some o ∧ o ≠ ctxOf s) → exec (.ktloadSt d a b) s = puts s d 2) ∧
    (ch.segBusy n = false → (assoc n ch.locks = none ∨ assoc n ch.locks = some (ctxOf s)) →
      let image := (List.range 256).flatMap fun e => leBytes 16 (ch.entry (256 * n + e))
      ∀ pa id, passesChecks s (s.core.getG a) 4096 .write none false pa → s.core.commit = none → ¬ quotaPassed s.core pa 4096 →
      s.core.versionId = some id → answers (.ktloadSt d a b) s d 0 fun t =>
        t.chip k = ch ∧ t.core.version = verPutBytes s.core.version pa image)) ∧
  (∀ (s : State) (d a : Reg), nv s a < 2 ^ 11 →
    let k := nv s a / 2 ^ 10
    let n := nv s a % 2 ^ 10
    let ch := s.chip k
    (assoc n ch.locks = some (ctxOf s) → exec (.ktlock d a) s = puts s d 0 ∧ answers (.ktlockUn d a) s d 0 fun t =>
      assoc n (t.chip k).locks = none ∧ (t.chip k).entries = ch.entries) ∧
    (∀ o, assoc n ch.locks = some o → o ≠ ctxOf s → exec (.ktlock d a) s = puts s d 1 ∧ exec (.ktlockUn d a) s = puts s d 1) ∧
    (assoc n ch.locks = none → exec (.ktlockUn d a) s = puts s d 1 ∧ ∀ c, s.ctx? (ctxOf s) = some c →
      let held := (ch.locks.filter fun l => l.2 == ctxOf s).length
      (c.limSegs ≤ held → exec (.ktlock d a) s = puts s d 2) ∧
      (held < c.limSegs → answers (.ktlock d a) s d 0 fun t => t.chip k = { ch with locks := assocPut n (ctxOf s) ch.locks }))) ∧
  (∀ (s : State) (d a b : Reg), nv s a < 2 ^ 19 →
    let k := nv s a / 2 ^ 18
    let e := nv s a % 2 ^ 18
    let ch := s.chip k
    (∀ v m xs, ch.lookHead (ctxOf s) k e = .ok (v, m) → ch.lookSpans (ctxOf s) k e v = .ok xs →
      let least := ((xs.filter fun y => y.stale || y.spl).map fun y => y.rwm).min?.getD m.layers
      exec (.krstatSeq d a) s = puts s d (headLen v * 2 ^ 40 + headNspan v * 2 ^ 32 + least * 2 ^ 24 + headApp v * 2 ^ 12 +
        headAlay v * 2 ^ 4 + headLib v * 8 + (if ch.holdsSeq e then 4 else 0) : Nat)) ∧
    (∀ v m f, ch.lookHead (ctxOf s) k e = .ok (v, m) → ch.lookSpans (ctxOf s) k e v = .error f → handles s →
      lookupTraps s (.krstatSeq d a) f) ∧
    (∀ v m, ch.lookHead (ctxOf s) k e = .ok (v, m) →
      (∀ x, nv s b < headNspan v → ch.look (ctxOf s) k 2 (e + 1 + nv s b) = .ok x →
        let z := spanOf x
        exec (.krstatSpan d a b) s = puts s d (z.start * 2 ^ 40 + z.cnt * 2 ^ 16 + z.rwm * 2 ^ 8 + (if z.spl then 2 else 0) +
          (if z.stale then 1 else 0) : Nat) ∧
        exec (.krstatDelta d a b) s = puts s d z.delta) ∧
      (∀ f, nv s b < headNspan v → ch.look (ctxOf s) k 2 (e + 1 + nv s b) = .error f → handles s →
        lookupTraps s (.krstatSpan d a b) f ∧ lookupTraps s (.krstatDelta d a b) f) ∧
      (headNspan v ≤ nv s b → handles s → exec (.krstatSpan d a b) s = traps s 0x06 (s.core.getG b) s.core.pc ∧
        exec (.krstatDelta d a b) s = traps s 0x06 (s.core.getG b) s.core.pc)) ∧
    (∀ f, ch.lookHead (ctxOf s) k e = .error f → handles s → lookupTraps s (.krstatSeq d a) f ∧ lookupTraps s (.krstatSpan d a b) f ∧
      lookupTraps s (.krstatDelta d a b) f)) ∧
  (∀ (s : State) (d a : Reg), nv s a < 2 →
    exec (.krstatPool d a) s = puts s d ((s.chip (nv s a)).free % 2 ^ 24 * 2 ^ 40 + (s.chip (nv s a)).reserve % 2 ^ 24 * 2 ^ 16 : Nat)) ∧
  (∀ (s : State) (d a b : Reg), handles s → (32 ≤ nv s b → exec (.aconfig d a b) s = traps s 0x06 (s.core.getG b) s.core.pc) ∧
    (2 ^ 11 ≤ nv s b → exec (.ktload d a b) s = traps s 0x06 (s.core.getG b) s.core.pc ∧
      exec (.ktloadSt d a b) s = traps s 0x06 (s.core.getG b) s.core.pc ∧ exec (.ktlock d b) s = traps s 0x06 (s.core.getG b) s.core.pc ∧
      exec (.ktlockUn d b) s = traps s 0x06 (s.core.getG b) s.core.pc))

/-- Pages are allocated, freed, reclaimed, spliced and forked (R225, R226, R227, R228, R245, R250, R328). KALLOC of n slots of the context's
PAGES entries gives 2 when one holds a page, 1 when the pool beyond the reserve is too small, and otherwise fills each with the page number
of a frame that was free, now the context's under the tag asked or the task's, and gives 0; KFREE gives 1 for a held sequence, and otherwise
frees its HEAD and span entries and gives 0; KFREE.ent empties the slots and gives how many held a page; KRECLAIM and a due CANCEL_RECLAIM (the
whole cancel applied, no task with the tag running or aborting) reclaim the tag on both chiplets, KRECLAIM giving the count of frames freed; KSPLICE of a block into a sequence that admits it makes the
sequence longer by the block and gives 0; KFORK of a prefix makes a HEAD of that length in free entries and gives 0. A lookup that fails
traps with its cause. -/
def Obligations.AttentionPoolCompletes : Prop :=
  (∀ (s : State) (d a b : Reg), nv s a < 2 ^ 21 → nv s b < 2 ^ 40 → nv s b / 2 ^ 12 % 16 = 0 → nv s b % 2 ^ 12 ≠ 0 →
    let k := nv s a / 2 ^ 20
    let i0 := nv s a % 2 ^ 20
    let n := nv s b % 2 ^ 12
    let ch := s.chip k
    (∀ i, i < n → ch.lookSlot (ctxOf s) k (i0 + i) = .ok ()) →
    ((∃ i, i < n ∧ (ch.slot (i0 + i)).1 ≠ noPage) → exec (.kalloc d a b) s = puts s d 2) ∧
    ((∀ i, i < n → (ch.slot (i0 + i)).1 = noPage) → ch.free < ch.reserve + n → exec (.kalloc d a b) s = puts s d 1) ∧
    ((∀ i, i < n → (ch.slot (i0 + i)).1 = noPage) → ch.reserve + n ≤ ch.free → keysRise ch.frames → ch.npg < 2 ^ 24 →
      answers (.kalloc d a b) s d 0 fun t => (t.chip k).free = ch.free - n ∧
        ∀ i, i < n → ∃ f x, (t.chip k).slot (i0 + i) = (f, false) ∧ f < ch.npg ∧ assoc f ch.frames = none ∧
          assoc f (t.chip k).frames = some x ∧ x.ctx = ctxOf s ∧ x.ohold = true ∧ x.share = 0 ∧
          (nv s b / 2 ^ 16 ≠ 0 → x.owner = BitVec.ofNat 24 (nv s b / 2 ^ 16)) ∧
          (nv s b / 2 ^ 16 = 0 → x.owner = BitVec.ofNat 24 s.ownTag))) ∧
  (∀ (s : State) (d a : Reg), nv s a < 2 ^ 19 →
    let k := nv s a / 2 ^ 18
    let e := nv s a % 2 ^ 18
    let ch := s.chip k
    (∀ f, ch.lookHead (ctxOf s) k e = .error f → handles s → lookupTraps s (.kfree d a) f) ∧
    (∀ v m, ch.lookHead (ctxOf s) k e = .ok (v, m) →
      (ch.holdsSeq e = true → exec (.kfree d a) s = puts s d 1) ∧
      (∀ c, ch.holdsSeq e = false → ch.freeSeq (ctxOf s) k e = .ok c → answers (.kfree d a) s d 0 fun t => t.chip k = c ∧
        ∀ i, i ≤ headCap v → (t.chip k).entry (e + i) = 0))) ∧
  (∀ (s : State) (d a b : Reg), nv s a < 2 ^ 21 → nv s b < 2 ^ 12 →
    let k := nv s a / 2 ^ 20
    let i0 := nv s a % 2 ^ 20
    (∀ i, i < nv s b → (s.chip k).lookSlot (ctxOf s) k (i0 + i) = .ok ()) →
    answers (.kfreeEnt d a b) s d
      (BitVec.ofNat 64 ((List.range (nv s b)).filter fun i => decide (((s.chip k).slot (i0 + i)).1 ≠ noPage)).length) fun t =>
      ∀ i, i < nv s b → ((t.chip k).slot (i0 + i)).1 = noPage) ∧
  (∀ (s : State) (d a : Reg), nv s a ≠ 0 → nv s a < 2 ^ 24 →
    let r0 := s.chip0.reclaim (ctxOf s) 0 (nv s a)
    let r1 := s.chip1.reclaim (ctxOf s) 1 (nv s a)
    answers (.kreclaim d a) s d (BitVec.ofNat 64 (r0.1 + r1.1)) fun t => t.chip0 = r0.2 ∧ t.chip1 = r1.2) ∧
  (∀ (s : State) (k : Nat) (r : Reclaim), (s.die0.reclaims ++ s.die1.reclaims)[k]? = some r →
    (∀ id ∈ r.tasks, ∀ b, s.tcb? id = some b → b.state ≠ .running ∧ b.state ≠ .aborting) → (∀ f ∈ s.cancels, f.named ≠ r.roots) →
    ∃ t, exec (.cancelReclaim k) s = .next t ∧ t.chip0 = (s.chip0.reclaim r.ctx 0 r.owner.toNat).2 ∧
      t.chip1 = (s.chip1.reclaim r.ctx 1 r.owner.toNat).2 ∧ t.core = s.core ∧ t.mem = s.mem ∧
      t.die0.reclaims ++ t.die1.reclaims = (s.die0.reclaims ++ s.die1.reclaims).eraseIdx k) ∧
  (∀ (s : State) (d a b : Reg), nv s a < 2 ^ 19 → nv s d < 2 ^ 19 → nv s b / 2 ^ 19 % 2 ^ 21 = 0 →
    let k := nv s a / 2 ^ 18
    let e := nv s a % 2 ^ 18
    let run := nv s d % 2 ^ 18
    let p := nv s b / 2 ^ 40
    let ch := s.chip k
    nv s b / 2 ^ 18 % 2 = k → nv s d / 2 ^ 18 = k → ∀ h g mh mg xs bs, ch.lookHead (ctxOf s) k e = .ok (h, mh) →
    ch.lookHead (ctxOf s) k (nv s b % 2 ^ 18) = .ok (g, mg) → ch.lookSpans (ctxOf s) k e h = .ok xs →
    ch.lookSpans (ctxOf s) k (nv s b % 2 ^ 18) g = .ok bs →
    let n := 1 + ((slotsOf mg bs).length + 3) / 4
    ch.needMine (ctxOf s) k ((List.range n).map (· + run)) = .ok () →
    ((headLib g ≠ 1 ∨ headLib h = 1) → exec (.ksplice d a b) s = puts s d 4) ∧
    (headLib g = 1 → headLib h ≠ 1 → mg.quad ≠ mh.quad → handles s →
      exec (.ksplice d a b) s = traps s 0x0C (BitVec.ofNat 64 (k * 2 ^ 18 + nv s b % 2 ^ 18)) s.core.pc) ∧
    (headLib g = 1 → headLib h ≠ 1 → mg.quad = mh.quad → (headLen h < p ∨ headApp h ≠ 0) → exec (.ksplice d a b) s = puts s d 2) ∧
    (headLib g = 1 → headLib h ≠ 1 → mg.quad = mh.quad → p ≤ headLen h → headApp h = 0 →
      (∀ c ∈ ch.cmds, c.head = e → c.kind ≠ .sel ∧ c.kind ≠ .put) → (∀ q ∈ bs, q.stale = false ∧ q.spl = false ∧ q.prov = 0) →
      (headCap h < headNspan h + headNspan g + 1 → exec (.ksplice d a b) s = puts s d 1) ∧
      (headNspan h + headNspan g + 1 ≤ headCap h →
        (((∃ i, i < n ∧ kindOf (ch.entry (run + i)) ≠ 0) ∨ run / 256 ≠ (run + n - 1) / 256) → exec (.ksplice d a b) s = puts s d 3) ∧
        ((∀ i, i < n → kindOf (ch.entry (run + i)) = 0) → run / 256 = (run + n - 1) / 256 →
          let out := splicedSpans mh p (headLen g) run (4 * (run + 1)) xs bs
          (∀ q ∈ out, -(2 ^ 19) ≤ q.delta ∧ q.delta < 2 ^ 19) → ∀ pages,
          ch.needMine (ctxOf s) k ((List.range out.length).map (· + (e + 1))) = .ok () →
          eachOk (ch.lookPage (ctxOf s) k) (slotsOf mg bs) = .ok pages →
          answers (.ksplice d a b) s d 0 fun t => headLen ((t.chip k).entry e) = (headLen h + headLen g) % 2 ^ 24 ∧
            headNspan ((t.chip k).entry e) = out.length % 256 ∧ kindOf ((t.chip k).entry e) = 1)))) ∧
  (∀ (s : State) (d a : Reg) (bs : List Byte), bs.length = 32 → dataAt s (s.core.getG a) bs →
    let w := quad (quads bs) 0
    let len := bitsOf (quad (quads bs) 3) 63 40
    bitsOf w 0 0 = 0 → quad (quads bs) 1 = 0 → quad (quads bs) 2 = 0 → bitsOf (quad (quads bs) 3) 39 0 = 0 →
    let k := bitsOf w 63 63
    let new := bitsOf w 44 27
    let cap := bitsOf w 26 19
    let run := bitsOf w 18 1
    let ch := s.chip k
    (∀ f, ch.lookHead (ctxOf s) k (bitsOf w 62 45) = .error f → handles s →
      ∃ t, exec (.kfork d a) s = .next t ∧ t.core.pc = s.core.tvec ∧ t.mem = s.mem ∧
        (s.core.lvl = 0 → t.core.bank0.ecause = BitVec.ofNat 64 f.1.code ∧ t.core.bank0.eval = f.2 ∧ t.core.bank0.epc = s.core.pc)) ∧
    (∀ v m xs, ch.lookHead (ctxOf s) k (bitsOf w 62 45) = .ok (v, m) → len ≤ headLen v →
      ch.lookSpans (ctxOf s) k (bitsOf w 62 45) v = .ok xs →
      let kept := keptSpans len xs
      let slots := slotsOf m kept
      let ents := (List.range (cap + 1)).map (· + new) ++ (List.range ((slots.length + 3) / 4)).map (· + run)
      let still := fun (t : State) => t.chip k = ch
      ((headApp v ≠ 0 ∨ cap < kept.length) → answers (.kfork d a) s d 2 still) ∧
      (headApp v = 0 → kept.length ≤ cap → ch.needMine (ctxOf s) k ents = .ok () →
        ((∃ i ∈ ents, kindOf (ch.entry i) ≠ 0) → answers (.kfork d a) s d 3 still) ∧
        ((∀ i ∈ ents, kindOf (ch.entry i) = 0) →
          (cutSlots m kept ≠ [] → ch.free < ch.reserve + m.layers → answers (.kfork d a) s d 1 still) ∧
          (∀ pages, (cutSlots m kept = [] ∨ ch.reserve + m.layers ≤ ch.free) → eachOk (ch.lookPage (ctxOf s) k) slots = .ok pages →
            answers (.kfork d a) s d 0 fun t => kindOf ((t.chip k).entry new) = 1 ∧ headLen ((t.chip k).entry new) = len ∧
              headCap ((t.chip k).entry new) = cap ∧ headNspan ((t.chip k).entry new) = kept.length ∧
              headLib ((t.chip k).entry new) = 0)))))

/-- Queued attention commands are checked, enter their queue and run (R223, R236, R237, R238, R239, R240, R244, R246, R247). KAPPEND,
AQUERY, AQUERY.loose, KREPAIR.sel and KREPAIR.put with a free place in the attention queue, a descriptor whose fields are in range, a
sequence whose lookups succeed and a check that succeeds enter the chiplet and the core's queue and go on (under slack 0 they wait in place
until the queue is empty), KAPPEND giving 0; KAPPEND whose check gives a status gives that status and enqueues nothing; with the queue full
they wait. A command that may run makes its moves; one that puts no token ends with a header of V alone at its result address, no other byte
changed, and leaves the queues. A STRICT query whose spans are no longer below their watermarks waits no more. -/
def Obligations.QueuedAttentionCompletes : Prop :=
  (∀ (s : State) (d a : Reg), s.core.micro = 0 → s.core.aq.length ≥ s.core.slack[4] → s.core.slack[4] ≠ 0 →
    exec (.kappend d a) s = .next s ∧ exec (.aquery a) s = .next s ∧ exec (.aqueryLoose a) s = .next s ∧ exec (.krepairSel a) s = .next s ∧
    exec (.krepairPut a) s = .next s) ∧
  (∀ (s : State) (d a : Reg) (bs : List Byte) (v : Nat) (m : KvModel) (xs : List KvSpan), s.core.micro = 0 →
    mayIssue s.core.slack[4] s.core.aq.length → bs.length = 32 → dataAt s (s.core.getG a) bs →
    let q := quads bs
    let w := quad q 0
    let n := bitsOf w 63 63
    let e := bitsOf w 62 45
    let ch := s.chip n
    ch.lookHead (ctxOf s) n e = .ok (v, m) → ch.lookSpans (ctxOf s) n e v = .ok xs →
    let cmd := fun (kind : AttnKind) => s.newCmd kind q e v m xs
    let enters := fun (i : Instr) (c : Chip) (x : AttnCmd) => ∃ t, exec i s = .next t ∧ t.mem = s.mem ∧
      (t.chip n).cmds = c.cmds ++ [x] ∧ (t.chip n).entries = c.entries ∧ t.core.nextCmd = s.core.nextCmd + 1 ∧
      t.core.aq.length = s.core.aq.length + 1 ∧
      (if s.core.slack[4] = 0 then t.core.pc = s.core.pc ∧ t.core.micro = 2 else t.core.pc = s.core.pc + 4 ∧ t.core.micro = 0)
    (AttnKind.append.bad q = none →
      (∀ st, ch.checkAppend n (cmd .append) v = .ok (.inl st) → answers (.kappend d a) s d (BitVec.ofNat 64 st) fun t => t.chip n = ch) ∧
      (∀ c x, ch.checkAppend n (cmd .append) v = .ok (.inr (c, x)) → enters (.kappend d a) c x)) ∧
    (bitsOf w 44 37 < m.layers →
      (∀ x, (AttnKind.query false).bad q = none → ch.checkQuery n (cmd (.query false)) v false = .ok x → enters (.aquery a) ch x) ∧
      (∀ x, (AttnKind.query true).bad q = none → ch.checkQuery n (cmd (.query true)) v true = .ok x → enters (.aqueryLoose a) ch x) ∧
      (∀ x, AttnKind.sel.bad q = none → ch.checkRepair n (cmd .sel) (selPosns w xs) = .ok x → enters (.krepairSel a) ch x) ∧
      (∀ x, AttnKind.put.bad q = none → bitsOf w 36 25 = 0 → ch.checkRepair n (cmd .put) [] = .ok x → enters (.krepairPut a) ch x))) ∧
  (∀ (s : State) (d a : Reg), s.core.micro = 2 →
    let ends := fun (i : Instr) => exec i s =
      if s.core.aq = [] then passes { s with core := { s.core with acquired := s.clock } } else .next s
    ends (.kappend d a) ∧ ends (.aquery a) ∧ ends (.aqueryLoose a) ∧ ends (.krepairSel a) ∧ ends (.krepairPut a)) ∧
  (∀ (s : State) (chip k : Nat) (m : AttnCmd), chip < 2 → (s.chip chip).cmds[k]? = some m → s.mayRun chip k m = true →
    (m.stage = 1 → ∃ t, exec (.attnCommandRun chip k) s = .next t) ∧
    (m.stage = 0 → m.needs ≤ m.input.length → ∃ t, exec (.attnCommandRun chip k) s = .next t) ∧
    (∀ pa, m.stage = 0 → m.core = s.core.id →
      let va := quad m.desc 1 + BitVec.ofNat 64 m.input.length
      let n := pieceOf va (m.needs - m.input.length)
      s.checkPage m.ctx (clusterOf m.core) va n .read = .ok pa → pa < remoteBase → s.rangeSettled pa n = true →
      ∃ t, exec (.attnCommandRun chip k) s = .next t) ∧
    (∀ pa, m.core = s.core.id → m.kind = .put → bitsOf (quad m.desc 0) 36 25 = 0 → bitsOf (quad m.desc 0) 24 24 = 0 → m.stage = 0 →
      m.input = [] → m.tokens = 0 → m.fault = none → m.forked = false → m.partial_ = false → m.bar = 0 →
      (∀ j x, (s.chip chip).cmds[j]? = some x → x.core = m.core → x.num = m.num → j = k) →
      s.checkPage m.ctx (clusterOf m.core) (quad m.desc 2) 16 .write = .ok pa → pa % 16 = 0 → pa + 16 ≤ physTop →
      s.rangeSettled pa 16 = true → (s.dirLine (lineOf pa)).hs ≠ .upd → Memory.wf s.mem = true →
      ∃ t, exec (.attnCommandRun chip k) s = .next t ∧ leVal (cellBytes t.mem pa 16) = 1 ∧ sameOutside s t pa 16 ∧
        (∀ x ∈ (t.chip chip).cmds, ¬ (x.core = m.core ∧ x.num = m.num)) ∧ ∀ x ∈ t.core.aq, x.num ≠ m.num)) ∧
  (∀ (s : State) (chip k : Nat) (m : AttnCmd), chip < 2 → (s.chip chip).cmds[k]? = some m →
    let live := (List.range (headNspan ((s.chip chip).entry m.head))).map fun i => spanOf ((s.chip chip).entry (m.head + 1 + i))
    (m.waiting = true → (∀ x ∈ m.watched, stillBelow m live x = false) → ∃ t x, exec (.aqueryWaitEnd chip k) s = .next t ∧
      (t.chip chip).cmds[k]? = some x ∧ x.waiting = false ∧ x.num = m.num ∧ x.core = m.core ∧ t.mem = s.mem ∧ t.core = s.core) ∧
    ((m.waiting = false ∨ ∃ x ∈ m.watched, stillBelow m live x = true) → notNow (.aqueryWaitEnd chip k) s))

namespace Sys2Proof.Rules

open Sys2Proof.Machine

/-- A vector block of the core runs, its word is not beyond the 4,096th, and the shape fits a register (R161, R162). -/
def blockRuns (s : State) (v : VecRun) : Prop :=
  s.core.vrun = some v ∧ (v.pc - v.start).toNat < 4 * 4096 ∧ s.core.vl * s.core.ew ≤ 2048

/-- Element e of a vector register under the shape (R162). -/
def velt (c : Core) (r : VReg) (e : Nat) : Nat := c.v[r].toNat / 2 ^ (c.ew * e) % 2 ^ c.ew

/-- Element e of n bits of a vector register. -/
def vbits (c : Core) (r : VReg) (n e : Nat) : Nat := c.v[r].toNat / 2 ^ (n * e) % 2 ^ n

/-- Element e is active under a mask field (R163). -/
def vact (c : Core) (k : MaskSel) (e : Nat) : Prop := e < c.vl ∧ (k.val = 0 ∨ c.m[k].getLsbD e = true)

/-- The block's word is done with flags f: the next word of the block follows, and the strand and memory stay as they are. -/
def vgoes (i : Instr) (s : State) (v : VecRun) (f : Flags) (more : Core → Prop) : Prop :=
  ∃ t, exec i s = .next t ∧ t.core.vrun = some { v with flags := v.flags ||| f, pc := v.pc + 4, seen := [], passed := false } ∧
    t.core.g = s.core.g ∧ t.core.pc = s.core.pc ∧ t.core.fctl = s.core.fctl ∧ t.core.l = s.core.l ∧ t.core.vsh = s.core.vsh ∧
    t.mem = s.mem ∧ more t.core

/-- A word that gives the elements of d that satisfy p the low bits of a number each, and changes no other element, vector register,
mask or latch. -/
def vmaps (i : Instr) (s : State) (v : VecRun) (f : Flags) (d : VReg) (p : Nat → Prop) (x : Nat → Int) : Prop :=
  vgoes i s v f fun c =>
    (∀ e, p e → (velt c d e : Int) = x e % 2 ^ s.core.ew) ∧ (∀ e, ¬ p e → e < 2048 / s.core.ew → velt c d e = velt s.core d e) ∧
    (∀ r : VReg, r ≠ d → c.v[r] = s.core.v[r]) ∧ c.m = s.core.m ∧ c.q = s.core.q ∧ c.ports = s.core.ports

/-- A word that ends its block in an engine fault (R165). -/
def vfaults (i : Instr) (s : State) (v : VecRun) (code : Nat) (faddr : W64) : Prop :=
  ∃ t r, exec i s = .next t ∧ t.core.vrun = none ∧ t.core.vq = s.core.vq.drop 1 ∧ t.core.v = s.core.v ∧ t.core.m = s.core.m ∧
    t.core.pc = s.core.pc ∧ t.core.fctl = s.core.fctl ||| v.flags.zeroExtend 64 ∧ t.core.held = s.core.held ++ [r] ∧
    r.code = code ∧ r.faddr = faddr ∧ r.waddr = v.pc ∧ r.engine = 0 ∧ r.core = s.core.id

/-- An element as a number: unsigned, or two's complement. -/
def vnum (w : Nat) (u : Bool) (x : Nat) : Int := if u then x else asSigned w x

/-- An exact result saturated to the range of its type, if asked (R167). -/
def vsat (w : Nat) (u sat : Bool) (x : Int) : Int :=
  if sat then (if u then max 0 (min x (2 ^ w - 1)) else max (-(2 ^ (w - 1))) (min x (2 ^ (w - 1) - 1))) else x

/-- The number of active elements below e. -/
def actBelow (c : Core) (k : MaskSel) (e : Nat) : Nat := ((c.active k).filter fun j => decide (j < e)).length

end Sys2Proof.Rules

/-- Integer, logical, shift and permutation words of the vector engine (R162, R163, R167, R168, R177, R165). In a running block, VADD, VSUB,
VMUL, VMULH, VMIN, VMAX, VAND, VOR, VXOR, VSHL, VSHR, VSAR, VABS, VNEG, VPERM, VSLIDE and VBCAST give each active element of vd the exact
result of its rule, saturated where asked and narrowed to the element's width, VSHL 0 for an amount of the width or more, VSEL and VIOTA each element below VL; every inactive element,
other vector register, mask, latch, flag, register and byte of memory stays, and the next word of the block follows. The 4,097th word of a
block ends it with BLOCKLEN. -/
def Obligations.IntegerVectorWords : Prop :=
  (∀ (s : State) (v : VecRun) (d a b : VReg) (k : MaskSel) (n t : Bool) (j : Fin 64), blockRuns s v →
    let w := s.core.ew
    let vl := s.core.vl
    let x := fun (e : Nat) => vnum w n (velt s.core a e)
    let y := fun (e : Nat) => vnum w n (velt s.core b e)
    let ua := fun (e : Nat) => velt s.core a e
    let ub := fun (e : Nat) => velt s.core b e
    let on := vact s.core k
    vmaps (.vadd d a b k n t) s v 0 d on (fun e => vsat w n t (x e + y e)) ∧
    vmaps (.vsub d a b k n t) s v 0 d on (fun e => vsat w n t (x e - y e)) ∧
    vmaps (.vmul d a b k n t) s v 0 d on (fun e => vsat w n t (x e * y e)) ∧
    vmaps (.vmulh d a b k n) s v 0 d on (fun e => (x e * y e) / 2 ^ w) ∧
    vmaps (.vmin d a b k n) s v 0 d on (fun e => min (x e) (y e)) ∧
    vmaps (.vmax d a b k n) s v 0 d on (fun e => max (x e) (y e)) ∧
    vmaps (.vand d a b k) s v 0 d on (fun e => (ua e &&& ub e : Nat)) ∧
    vmaps (.vor d a b k) s v 0 d on (fun e => (ua e ||| ub e : Nat)) ∧
    vmaps (.vxor d a b k) s v 0 d on (fun e => (ua e ^^^ ub e : Nat)) ∧
    vmaps (.vshl d a b k n t) s v 0 d on (fun e => if w ≤ ub e then 0 else vsat w n t (x e * 2 ^ ub e)) ∧
    vmaps (.vshr d a b k) s v 0 d on (fun e => (ua e / 2 ^ ub e : Nat)) ∧
    vmaps (.vsar d a b k) s v 0 d on (fun e => asSigned w (ua e) / 2 ^ ub e) ∧
    vmaps (.vabs d a k t) s v 0 d on (fun e => vsat w false t |asSigned w (ua e)|) ∧
    vmaps (.vneg d a k t) s v 0 d on (fun e => vsat w false t (-(asSigned w (ua e)))) ∧
    vmaps (.vsel d a b k) s v 0 d (fun e => e < vl) (fun e => if s.core.m[k].getLsbD e then ua e else ub e) ∧
    vmaps (.vperm d a b k) s v 0 d on (fun e => if ub e < vl then ua (ub e) else 0) ∧
    vmaps (.vslide d a b k j) s v 0 d on
      (fun e => if e + j.val < vl then ua (e + j.val) else if e + j.val - vl < vl then ub (e + j.val - vl) else 0) ∧
    vmaps (.vbcast d a k j) s v 0 d on (fun _ => if j.val < vl then ua j.val else 0) ∧
    vmaps (.viota d k j) s v 0 d (fun e => e < vl) (fun e => (j.val + actBelow s.core k e : Nat))) ∧
  (∀ (s : State) (v : VecRun) (d a b : VReg) (k : MaskSel) (n t : Bool), s.core.vrun = some v → 4 * 4096 ≤ (v.pc - v.start).toNat →
    vfaults (.vadd d a b k n t) s v 0x20 0 ∧ vfaults (.vand d a b k) s v 0x20 0 ∧ vfaults .vend s v 0x20 0)

/-- Floating-point words of the vector engine (R162, R163, R165, R169, R148, R149, R155). In a running block under 32-bit elements, VFADD,
VFSUB, VFMUL, VFDIV, VFMA, VFSQRT and VFRCP, under a mode other than SR, and VFMIN, VFMAX and VFEXP2 give each active element of vd the
result of the f32 operation on its operands (whose rounding ScalarFloatingPoint states), join the flags of the active elements to the block's and change nothing else; under SR the j-th
active element takes the j-th draw of generator stream 3. Under another element width they end the block with EWIDTH and VSH as the address.
-/
def Obligations.FloatVectorWords : Prop :=
  (∀ (s : State) (v : VecRun) (d a b : VReg) (k : MaskSel) (r : Rnd), blockRuns s v →
    let x := fun (e : Nat) => velt s.core a e
    let y := fun (e : Nat) => velt s.core b e
    let z := fun (e : Nat) => velt s.core d e
    let m := match r with | .mode m => m | .dyn => v.cmd.rm
    let words : List (Instr × (Nat → RMode → Nat → Nat × Flags)) :=
      [(.vfadd d a b k r, fun e m q => Fmt.f32.add m q (x e) (y e)), (.vfsub d a b k r, fun e m q => Fmt.f32.sub m q (x e) (y e)),
       (.vfmul d a b k r, fun e m q => Fmt.f32.mul m q (x e) (y e)), (.vfdiv d a b k r, fun e m q => Fmt.f32.div m q (x e) (y e)),
       (.vfma d a b k r, fun e m q => Fmt.f32.fma m q (x e) (y e) (z e)), (.vfsqrt d a k r, fun e m q => Fmt.f32.sqrt m q (x e)),
       (.vfrcp d a k r, fun e m q => Fmt.f32.div m q 0x3F800000 (x e))]
    let plain : List (Instr × (Nat → Nat × Flags)) :=
      [(.vfmin d a b k, fun e => Fmt.f32.minmax false (x e) (y e)), (.vfmax d a b k, fun e => Fmt.f32.minmax true (x e) (y e)),
       (.vfexp2 d a k, fun e => expPath (x e))]
    let flagsOf := fun (f : Nat → Nat × Flags) => (s.core.active k).foldl (fun g e => g ||| (f e).2) (0 : Flags)
    (s.core.ew = 32 →
      (m ≠ .sr → ∀ p ∈ words, vmaps p.1 s v (flagsOf fun e => p.2 e m 0) d (vact s.core k) fun e => (p.2 e m 0).1) ∧
      (∀ p ∈ plain, vmaps p.1 s v (flagsOf p.2) d (vact s.core k) fun e => (p.2 e).1) ∧
      (m = .sr → ∀ p ∈ words, ∃ (cs : Nat → Core) (f : Flags), cs 0 = s.core ∧ (∀ j, cs (j + 1) = (cs j).draw16.2) ∧
        vgoes p.1 s v f fun c => c.gens = (cs (s.core.active k).length).gens ∧ c.genHalf = (cs (s.core.active k).length).genHalf ∧
          (∀ j e, (s.core.active k)[j]? = some e → velt c d e = (p.2 e .sr (cs j).draw16.1).1 % 2 ^ 32) ∧
          (∀ e, ¬ vact s.core k e → e < 64 → velt c d e = z e) ∧ ∀ q : VReg, q ≠ d → c.v[q] = s.core.v[q])) ∧
    (s.core.ew ≠ 32 → (∀ p ∈ words, vfaults p.1 s v 0x21 s.core.vsh) ∧ ∀ p ∈ plain, vfaults p.1 s v 0x21 s.core.vsh))

namespace Sys2Proof.Rules

open Sys2Proof.Machine

/-- A word that writes one result latch and changes no vector register, mask or port. -/
def vlatches (i : Instr) (s : State) (v : VecRun) (f : Flags) (n : Fin 4) (x : Int) : Prop :=
  vgoes i s v f fun c => c.q = s.core.q.set n (BitVec.ofInt 64 x) ∧ c.v = s.core.v ∧ c.m = s.core.m ∧ c.ports = s.core.ports

/-- A word that writes one mask: bit e below VL as p says, 0 from VL up. -/
def vmasks (i : Instr) (s : State) (v : VecRun) (f : Flags) (d : MaskSel) (p : Nat → Bool) : Prop :=
  vgoes i s v f fun c => (∀ e, e < 256 → c.m[d].getLsbD e = (decide (e < s.core.vl) && p e)) ∧
    (∀ r : MaskSel, r ≠ d → c.m[r] = s.core.m[r]) ∧ c.v = s.core.v ∧ c.q = s.core.q

/-- The comparison a predicate names. -/
def holdsFor (p : Pred) (x y : Int) : Prop :=
  match p with | .eq => x = y | .ne => x ≠ y | .lt => x < y | .le => x ≤ y | .gt => y < x | .ge => y ≤ x

/-- Weight i of a legal t3 byte (R144): its base-3 digit less 1. -/
def tritOf (b i : Nat) : Int := ((b / 3 ^ i % 3 : Nat) : Int) - 1

/-- The key by which VRMIN and VRMAX order the codes of f32 numbers: a greater value has a greater key, −0 below +0. -/
def codeKey (c : Nat) : Int := if 2 ^ 31 ≤ c then -((c - 2 ^ 31 : Nat) : Int) - 1 else c

open Classical in
/-- e is the first of the elements that satisfy p whose key none of theirs beats (R179). -/
def firstBest (greater : Bool) (p : Nat → Prop) (key : Nat → Int) (e : Nat) : Prop :=
  p e ∧ (∀ j, p j → if greater then key j ≤ key e else key e ≤ key j) ∧ (∀ j, p j → key j = key e → e ≤ j)

/-- What the latch of VRMIN or VRMAX takes from a value and its element's number (R179). -/
def latched (x : Bool) (val : Int) (idx : Nat) : Int := if x then val % 2 ^ 32 + 2 ^ 32 * idx else val

end Sys2Proof.Rules

/-- Comparison, mask, reduction, conversion and packed-format words of the vector engine (R143, R144, R145, R170, R171, R172, R173, R174,
R175, R176, R178, R179). In a running block: VCMP sets bit e of its mask for e below VL as the integer or f32 comparison stands, and clears
the bits from VL up; MAND, MOR and MNOT likewise; MPOPC and MFIRST give the count and the first of the bits below VL (all ones for none);
VRSUM gives the sum of the active elements; VRFSUM the f32 sum of its tree, an only element as it stands but a NaN as
0x7FC0_0000, IV for a signalling one; VRMIN and VRMAX the first least or greatest active element,
sign- or zero-extended or with X its 32 bits below its number, NaNs set aside, and for no element the identity. f32 forms need 32-bit
elements and otherwise end the block with EWIDTH. Nothing else changes. In a running block, under a mode other than SR: VCVT within a
register gives each active element its conversion between the two types' widths, and otherwise ends the block with EWIDTH; VQENC and VQDEC
under 32 or 64 elements of 32 bits write each block's element plane, scale and special, or the values that a code, scale and special give,
and under another shape end the block with EWIDTH; VUNPK3 gives active byte elements the weights of legal t3 bytes, VTACC adds to each
active element the sum of its byte's five weights times five bytes, wrapped; an illegal byte ends the block with TRITBYTE under TRITEN and
otherwise sets TRIT. -/
def Obligations.MaskReductionAndConversionWords : Prop :=
  (∀ (s : State) (v : VecRun) (a b : VReg) (d k p q : MaskSel) (n : Fin 4) (x u : Bool) (pr : Pred), blockRuns s v →
     let w := s.core.ew
     let vl := s.core.vl
     let xa := fun (e : Nat) => velt s.core a e
     let xb := fun (e : Nat) => velt s.core b e
     let bit := fun (r : MaskSel) (e : Nat) => s.core.m[r].getLsbD e
     let es := s.core.active k
     (∃ g : Nat → Bool, (∀ e, e < vl → (g e = true ↔ holdsFor pr (vnum w u (xa e)) (vnum w u (xb e)))) ∧ vmasks (.vcmp d a b false u pr) s v 0 d g) ∧
     (w = 32 → ∃ f, vmasks (.vcmp d a b true false pr) s v f d fun e => (Fmt.f32.cmp pr (xa e) (xb e)).1) ∧
     (w ≠ 32 → vfaults (.vcmp d a b true false pr) s v 0x21 s.core.vsh) ∧
     vmasks (.mand d p q) s v 0 d (fun e => bit p e && bit q e) ∧
     vmasks (.mor d p q) s v 0 d (fun e => bit p e || bit q e) ∧
     vmasks (.mnot d p) s v 0 d (fun e => !bit p e) ∧
     vlatches (.mpopc n p) s v 0 n ((List.range vl).filter (bit p)).length ∧
     (∀ e, e < vl → bit p e = true → (∀ j, j < e → bit p j = false) → vlatches (.mfirst n p) s v 0 n e) ∧
     ((∀ e, e < vl → bit p e = false) → vlatches (.mfirst n p) s v 0 n (-1)) ∧
     vlatches (.vrsum n a k u) s v 0 n (es.map fun e => vnum w u (xa e)).sum ∧
     (w = 32 → (es = [] → vlatches (.vrfsum n a k) s v 0 n 0) ∧
       (∀ e, es = [e] → (Fmt.f32.decode (xa e)).isNaN = false → vlatches (.vrfsum n a k) s v 0 n (xa e)) ∧
       (∀ e, es = [e] → (Fmt.f32.decode (xa e)).isNaN = true →
         vlatches (.vrfsum n a k) s v (if (Fmt.f32.decode (xa e)).sNaN then Flags.iv else 0) n 0x7FC00000) ∧
       (∀ e j, es = [e, j] → (Fmt.f32.decode (Fmt.f32.add .rne 0 (xa e) (xa j)).1).isNaN = false →
         vlatches (.vrfsum n a k) s v (Fmt.f32.add .rne 0 (xa e) (xa j)).2 n (Fmt.f32.add .rne 0 (xa e) (xa j)).1) ∧
       (∃ y f, vlatches (.vrfsum n a k) s v f n y)) ∧
     (w ≠ 32 → vfaults (.vrfsum n a k) s v 0x21 s.core.vsh ∧ vfaults (.vrmin n a k x false true) s v 0x21 s.core.vsh ∧
       vfaults (.vrmax n a k x false true) s v 0x21 s.core.vsh) ∧
     (∀ e, firstBest false (vact s.core k) (fun j => vnum w u (xa j)) e →
       vlatches (.vrmin n a k x u false) s v 0 n (latched x (vnum w u (xa e)) e)) ∧
     (∀ e, firstBest true (vact s.core k) (fun j => vnum w u (xa j)) e →
       vlatches (.vrmax n a k x u false) s v 0 n (latched x (vnum w u (xa e)) e)) ∧
     (es = [] →
       vlatches (.vrmin n a k false u false) s v 0 n (if u then 2 ^ w - 1 else 2 ^ (w - 1) - 1) ∧
       vlatches (.vrmax n a k false u false) s v 0 n (if u then 0 else -(2 ^ (w - 1)))) ∧
     (w = 32 → ∀ e, (∀ j, vact s.core k j → (Fmt.f32.decode (xa j)).sNaN = false) →
       let real := fun (j : Nat) => vact s.core k j ∧ (Fmt.f32.decode (xa j)).isNaN = false
       (firstBest false real (fun j => codeKey (xa j)) e → vlatches (.vrmin n a k x false true) s v 0 n (latched x (xa e) e)) ∧
       (firstBest true real (fun j => codeKey (xa j)) e → vlatches (.vrmax n a k x false true) s v 0 n (latched x (xa e) e)))) ∧
  ((∀ (s : State) (v : VecRun) (d a : VReg) (src dst : Ty) (k : MaskSel), blockRuns s v → v.cmd.rm ≠ .sr →
     let sw := tyWidth src
     let dw := tyWidth dst
     let y := fun (e : Nat) => convert src dst v.cmd.rm 0 (vbits s.core a sw e)
     (s.core.vl * sw ≤ 2048 → s.core.vl * dw ≤ 2048 →
       vgoes (.vcvt d a src k dst) s v ((s.core.active k).foldl (fun g e => g ||| (y e).2) (0 : Flags)) fun c =>
         (∀ e, vact s.core k e → vbits c d dw e = (y e).1 % 2 ^ dw) ∧
         (∀ e, ¬ vact s.core k e → e < 2048 / dw → vbits c d dw e = vbits s.core d dw e) ∧
         (∀ r : VReg, r ≠ d → c.v[r] = s.core.v[r]) ∧ c.m = s.core.m ∧ c.gens = s.core.gens) ∧
     (2048 < s.core.vl * max sw dw → vfaults (.vcvt d a src k dst) s v 0x21 s.core.vsh)) ∧
   (∀ (s : State) (v : VecRun) (d a : VReg), blockRuns s v → v.cmd.rm ≠ .sr →
     (s.core.ew = 32 → (s.core.vl = 32 ∨ s.core.vl = 64) →
       (∃ f, vgoes (.vqenc d a) s v f fun c =>
         (∀ b, b < s.core.vl / 32 →
           let r := encodeBlock s.core v.cmd.rm ((List.range 32).map fun k => velt s.core a (32 * b + k))
           (∀ j, j < 16 → vbits c d 8 (16 * b + j) = (r.1.getD (2 * j) 0 + 16 * r.1.getD (2 * j + 1) 0) % 256) ∧
           vbits c d 8 (32 + 2 * b) = r.2.1 % 256 ∧ vbits c d 8 (33 + 2 * b) = r.2.2.1 % 256) ∧
         (∀ j, 36 ≤ j → j < 256 → vbits c d 8 j = vbits s.core d 8 j) ∧ (∀ r : VReg, r ≠ d → c.v[r] = s.core.v[r])) ∧
       (∃ f, vgoes (.vqdec d a) s v f fun c =>
         (∀ e, e < s.core.vl →
           let b := e / 32
           let code := vbits s.core a 4 (e)
           velt c d e = match q4bValue code (vbits s.core a 8 (32 + 2 * b)) (vbits s.core a 8 (33 + 2 * b)) with
             | .fin n m x => (Fmt.f32.round v.cmd.rm 0 { neg := n, m := m, e := x, sticky := false }).1 % 2 ^ 32
             | .nan .. | .inf .. => Fmt.f32.nanCode false % 2 ^ 32) ∧
         (∀ r : VReg, r ≠ d → c.v[r] = s.core.v[r]))) ∧
     (¬ (s.core.ew = 32 ∧ (s.core.vl = 32 ∨ s.core.vl = 64)) → vfaults (.vqenc d a) s v 0x21 s.core.vsh ∧ vfaults (.vqdec d a) s v 0x21 s.core.vsh)) ∧
   (∀ (s : State) (v : VecRun) (d a b : VReg) (k : MaskSel) (n : Fin 32), blockRuns s v →
     let byte := fun (j : Nat) => vbits s.core a 8 j
     let x := fun (i : Nat) => asSigned 8 (vbits s.core b 8 (5 * n.val + i))
     (s.core.ew = 8 →
       ((∀ e, vact s.core k e → byte (e / 5) ≤ 242) → vmaps (.vunpk3 d a k) s v 0 d (vact s.core k) fun e => tritOf (byte (e / 5)) (e % 5)) ∧
       ((∃ e, vact s.core k e ∧ 242 < byte (e / 5)) →
         (s.core.fctl.getLsbD 8 = true → vfaults (.vunpk3 d a k) s v 0x25 0) ∧
         (s.core.fctl.getLsbD 8 = false → vmaps (.vunpk3 d a k) s v Flags.trit d (vact s.core k)
           fun e => if byte (e / 5) ≤ 242 then tritOf (byte (e / 5)) (e % 5) else 0))) ∧
     (s.core.ew = 32 →
       ((∀ e, vact s.core k e → byte e ≤ 242) → vmaps (.vtacc d a b k n) s v 0 d (vact s.core k) fun e =>
         (velt s.core d e : Int) + tritOf (byte e) 0 * x 0 + tritOf (byte e) 1 * x 1 + tritOf (byte e) 2 * x 2 + tritOf (byte e) 3 * x 3 +
           tritOf (byte e) 4 * x 4) ∧
       ((∃ e, vact s.core k e ∧ 242 < byte e) → s.core.fctl.getLsbD 8 = true → vfaults (.vtacc d a b k n) s v 0x25 0)) ∧
     (s.core.ew ≠ 8 → vfaults (.vunpk3 d a k) s v 0x21 s.core.vsh) ∧ (s.core.ew ≠ 32 → vfaults (.vtacc d a b k n) s v 0x21 s.core.vsh)))

namespace Sys2Proof.Rules

open Sys2Proof.Machine

/-- A loop register that the block's VRUN captured, with its value (R164). -/
def vcap (v : VecRun) (l : LReg) (x : W64) : Prop := v.cmd.mask.getLsbD l.val = true ∧ v.cmd.regs[l] = x

/-- The memory words of R180: the load and the store of each shape of addresses, and the address of element e. -/
def vmem (c : Core) (v : VecRun) (j : Fin 3) (d a : VReg) (m l : LReg) (k : MaskSel) (o : BitVec 5) : Instr × Instr × (Nat → W64) :=
  let b := v.cmd.regs[l] + BitVec.ofInt 64 (o.toInt * 256)
  match j with
  | 0 => (.vld d l k o, .vst d l k o, fun e => b + BitVec.ofNat 64 (e * (c.ew / 8)))
  | 1 => (.vlds d m l k o, .vsts d m l k o, fun e => b + BitVec.ofNat 64 e * v.cmd.regs[m])
  | 2 => (.vgath d a l k o, .vscat d a l k o, fun e => b + BitVec.ofNat 64 (velt c a e * (c.ew / 8)))

end Sys2Proof.Rules

/-- Vector loads and stores (R164, R165, R180, R181, R91). In a running block whose loop registers are captured, with no implicit boundary
due: VLD, VLDS and VGATH, when every active element's address passes its checks in this device's memory and the version holds its bytes,
give each active element its bytes, little-endian; VST, VSTS and VSCAT, with no commit under way, put the active elements'
bytes into the version in ascending order and change no committed byte, when the version stays within VQUOTA or the word has had its boundary
already; the first time a word takes the version beyond VQUOTA it owes an implicit boundary and stands where it is. The lowest active element whose check fails, those below it on this
device, ends the block with its cause and address and no effect of the word; a register not captured ends it with LREGCAP. -/
def Obligations.VectorMemoryWords : Prop :=
  ∀ (s : State) (v : VecRun) (j : Fin 3) (d a : VReg) (m l : LReg) (k : MaskSel) (o : BitVec 5), blockRuns s v →
    let p := vmem s.core v j d a m l k o
    let n := s.core.ew / 8
    let es := s.core.active k
    (v.cmd.mask.getLsbD l.val = false → vfaults p.1 s v 0x22 (BitVec.ofNat 64 l.val) ∧ vfaults p.2.1 s v 0x22 (BitVec.ofNat 64 l.val)) ∧
    (v.cmd.mask.getLsbD l.val = true → (j = 1 → v.cmd.mask.getLsbD m.val = true) → s.core.implicit = false →
      (∀ pa : Nat → Nat,
        ((∀ e ∈ es, passesChecks s (p.2.2 e) n .read none false (pa e)) →
          ∀ bs : Nat → List Byte, (∀ e ∈ es, (bs e).length = n ∧ versionHolds s (pa e) (bs e)) →
          vmaps p.1 s v 0 d (vact s.core k) fun e => (leVal (bs e) : Nat)) ∧
        ((∀ e ∈ es, passesChecks s (p.2.2 e) n .write none false (pa e)) → s.core.commit = none →
          let after := es.foldl (fun w e => verPutBytes w (pa e) (leBytes n (velt s.core d e))) s.core.version
          ((v.passed = true ∨ versionSize after ≤ s.core.vquota.toNat) → ∀ id, s.core.versionId = some id →
            vgoes p.2.1 s v 0 fun c => c.version = after ∧ c.v = s.core.v ∧ c.m = s.core.m ∧ c.q = s.core.q) ∧
          (v.passed = false → es ≠ [] → s.core.vquota.toNat < versionSize after →
            ∃ t, exec p.2.1 s = .next t ∧ t.core.implicit = true ∧ t.core.vrun = some { v with passed := true } ∧
              t.core.version = s.core.version ∧ t.core.v = s.core.v ∧ t.mem = s.mem))) ∧
      (∀ e0 f, e0 ∈ es → s.check (p.2.2 e0) n .read none false = .error f →
        (∀ e ∈ es, e < e0 → ∃ a, s.check (p.2.2 e) n .read none false = .ok a ∧ a < remoteBase) → vfaults p.1 s v f.1.code f.2) ∧
      (∀ e0 f, e0 ∈ es → s.check (p.2.2 e0) n .write none false = .error f →
        (∀ e ∈ es, e < e0 → ∃ a, s.check (p.2.2 e) n .write none false = .ok a ∧ a < remoteBase) → vfaults p.2.1 s v f.1.code f.2))

/-- Blocks, ports, lookups and random bits of the vector engine (R157, R160, R161, R162, R165, R182, R183, R184, R185, R186).
VECTOR_BLOCK_START of the oldest block of a core with none running, its first block readable as it stands, starts it at its address with no
flags, or charges ENGFETCH and drops it when it cannot be fetched; VSHAPE sets VL and EW in VSH; VEND ends the block, its flags joined to FCTL; VPUSHC appends the active elements
to a port, or with no room ends the block with STREAMFULL; VPOPF takes the port's oldest words for the first elements and va's for the rest;
VSTAT gives the port's count and with R empties it; VLKUP with an aligned descriptor the version holds gives each active element what its
probes find; VRAND gives active elements the generator's successive words, VRSEED exchanges its state and VRSKIP skips; each
discards a pending half. -/
def Obligations.BlocksPortsAndGenerators : Prop :=
  (∀ (s : State) (cmd : Cmd) (rest : List Cmd), s.core.vq = cmd :: rest → s.core.vrun = none → cmd.started = false →
    s.core.seq ≠ .preempted → s.core.abortDue = false → blockReady s s.core.ecode cmd.addr →
    (∀ w blocks, s.wordAt s.core.context (clusterOf s.core.id) s.core.ecode cmd.addr = some (w, blocks) →
      ∃ t, exec (.vectorBlockStart s.core.id) s = .next t ∧ t.core.vq = { cmd with started := true } :: rest ∧ t.mem = s.mem ∧
        ∃ v, t.core.vrun = some v ∧ v.cmd = cmd ∧ v.start = cmd.addr ∧ v.pc = cmd.addr ∧ v.flags = 0) ∧
    (s.wordAt s.core.context (clusterOf s.core.id) s.core.ecode cmd.addr = none →
      ∃ t r, exec (.vectorBlockStart s.core.id) s = .next t ∧ t.core.vq = rest ∧ t.core.vrun = none ∧ t.core.held = s.core.held ++ [r] ∧
        r.code = 0x34 ∧ r.faddr = cmd.addr)) ∧
  (∀ (s : State) (v : VecRun), blockRuns s v →
    (∃ t, exec .vend s = .next t ∧ t.core.vrun = none ∧ t.core.vq = s.core.vq.drop 1 ∧ t.core.v = s.core.v ∧ t.mem = s.mem ∧
      t.core.fctl = s.core.fctl ||| v.flags.zeroExtend 64) ∧
    (∀ (l : Fin 1024) (e : EW), ∃ t, exec (.vshape l e) s = .next t ∧ t.core.vrun = some { v with pc := v.pc + 4, seen := [], passed := false } ∧
      t.core.v = s.core.v ∧ t.mem = s.mem ∧
      t.core.vsh.toNat = s.core.vsh.toNat / 2 ^ 11 * 2 ^ 11 + l.val % 512 * 4 + (match e with | .w8 => 0 | .w16 => 1 | .w32 => 2))) ∧
  (∀ (s : State) (v : VecRun) (d a : VReg) (k : MaskSel) (p : Fin 8) (n : Fin 4) (r : Bool), blockRuns s v →
    let port := s.core.ports[p]
    let es := s.core.active k
    (port.length + es.length ≤ 1024 → vgoes (.vpushc a k p) s v 0 fun c => c.v = s.core.v ∧
      c.ports = s.core.ports.set p (port ++ es.map fun e => BitVec.ofNat 32 (velt s.core a e))) ∧
    (1024 < port.length + es.length → vfaults (.vpushc a k p) s v 0x23 (BitVec.ofNat 64 p.val)) ∧
    (vgoes (.vpopf d a p) s v 0 fun c => c.ports = s.core.ports.set p (port.drop s.core.vl) ∧ (∀ q : VReg, q ≠ d → c.v[q] = s.core.v[q]) ∧
      ∀ e, e < s.core.vl → velt c d e = match port[e]? with | some x => x.toNat % 2 ^ s.core.ew | none => velt s.core a e) ∧
    (vgoes (.vstat n r p) s v 0 fun c => c.q = s.core.q.set n (BitVec.ofNat 64 port.length) ∧ c.v = s.core.v ∧
      c.ports = if r then s.core.ports.set p [] else s.core.ports)) ∧
  (∀ (s : State) (v : VecRun) (d a b : VReg) (k : MaskSel) (l : LReg) (x : W64), blockRuns s v → s.core.ew = 32 →
    (v.cmd.mask.getLsbD l.val = false → vfaults (.vlkup d a b k l) s v 0x22 (BitVec.ofNat 64 l.val)) ∧
    (vcap v l x → x.toNat % 32 ≠ 0 → vfaults (.vlkup d a b k l) s v 0x24 x) ∧
    (∀ desc, vcap v l x → x.toNat % 32 = 0 → s.core.implicit = false → s.peek x 32 = .val desc →
      (lkBad desc = true → vfaults (.vlkup d a b k l) s v 0x24 x) ∧
      (lkBad desc = false → ∀ y : Nat → Nat,
        (∀ e ∈ s.core.active k, let key := BitVec.ofNat 64 (velt s.core a e * 2 ^ 32 + velt s.core b e)
          s.lkProbe desc key (lkHash desc key) (min (lkPlim desc) (2 ^ lkLog desc)) 0 = .val (y e)) →
        vmaps (.vlkup d a b k l) s v 0 d (vact s.core k) fun e => (y e : Nat)))) ∧
  (∀ (s : State) (v : VecRun) (d a : VReg) (k : MaskSel) (n : Fin 4), blockRuns s v →
    let lmode := s.core.rngcfg.toNat % 2 == 1
    (∃ g : Nat → W256, g 0 = s.core.gens[n] ∧ (∀ j, g (j + 1) = (genNext lmode (g j)).2) ∧ vgoes (.vrand d k n) s v 0 fun c =>
      c.gens = s.core.gens.set n (g (s.core.active k).length) ∧
      (∀ j e, (s.core.active k)[j]? = some e → velt c d e = (genNext lmode (g j)).1.toNat % 2 ^ s.core.ew) ∧
      (∀ q : VReg, q ≠ d → c.v[q] = s.core.v[q]) ∧ c.genHalf = none) ∧
    (vgoes (.vrseed d a n) s v 0 fun c => c.gens = s.core.gens.set n (genLoad lmode (s.core.v[a].toNat % 2 ^ 256)) ∧
      c.v[d].toNat % 2 ^ 256 = s.core.gens[n].toNat ∧ c.v[d].toNat / 2 ^ 256 = s.core.v[d].toNat / 2 ^ 256 ∧
      c.genHalf = none ∧ ∀ q : VReg, q ≠ d → c.v[q] = s.core.v[q]) ∧
    (vgoes (.vrskip a n) s v 0 fun c => c.gens = s.core.gens.set n (genSkip lmode s.core.gens[n] (s.core.v[a].toNat % 2 ^ 64)) ∧
      c.v = s.core.v ∧ c.genHalf = none))

namespace Sys2Proof.Rules

open Sys2Proof.Machine

/-- The acting engine's program p is at work on its current step: its tokens are consumed (R192). -/
def atWork (s : State) (p : ProgRun) : Prop :=
  s.prog? = some p ∧ p.stopped = false ∧ p.failing = false ∧ p.stage = 2 ∧ (s.core.seq = .preempted → s.core.vrun = none → p.point = false)

/-- The token bits of a step word (R40). -/
def tokOf (i : Instr) : Option Tok :=
  match i with
  | .mwld k _ _ _ | .mswap k | .mstrm k _ _ | .mmac k _ _ _ _ | .mzero k _ _ _ _ | .mdrainMem k _ _ _ _ _ _ | .mdrainAcc k _ _ _ _ _ _
  | .mdrainStr k _ _ _ _ _ _ | .mloop k _ _ | .mloopReg k _ _ | .mwaitb k _ _ | .mend k => some k
  | .xcopy k _ _ _ _ _ | .xgath k _ _ _ _ _ | .xgathC k _ _ _ _ | .xscat k _ _ _ _ _ | .xscatC k _ _ _ _ | .xfill k _ _ _ _
  | .xred k _ _ _ _ _ _ | .xsend k _ _ _ _ | .xrecv k _ _ _ _ | .xloop k _ _ | .xloopReg k _ _ | .xwaitb k _ _ | .xend k => some k
  | _ => none

/-- The words that only an in-channel executes, and those that only an out-channel does (R76). -/
def inOnly (i : Instr) : Prop := match i with
  | .xcopy _ _ _ _ _ _ | .xgath _ _ _ _ _ _ | .xgathC _ _ _ _ _ | .xfill _ _ _ _ _ | .xrecv _ _ _ _ _ => True
  | _ => False
def outOnly (i : Instr) : Prop := match i with
  | .xscat _ _ _ _ _ _ | .xscatC _ _ _ _ _ | .xred _ _ _ _ _ _ _ | .xsend _ _ _ _ _ => True
  | _ => False

/-- A completed step's tokens find room in their counters (R262). -/
def canSend (s : State) (p : ProgRun) (k : Tok) : Prop :=
  (∀ q, k.srdy = true → p.down = some q → (s.core.tok q).1 ≠ 255) ∧ (∀ q, k.sfree = true → p.up = some q → (s.core.tok q).2 ≠ 255)

/-- The state with a completed step's tokens sent: ready downstream, then free upstream (R192). -/
def sent (s : State) (p : ProgRun) (k : Tok) : State :=
  let c := match k.srdy, p.down with
    | true, some q => s.core.putTok q ((s.core.tok q).1 + 1, (s.core.tok q).2)
    | _, _ => s.core
  match k.sfree, p.up with
  | true, some q => s.upd (c.putTok q ((c.tok q).1, (c.tok q).2 + 1))
  | _, _ => s.upd c

/-- The outcome of a completed step: its tokens are sent, and the program goes on past its word. -/
def stepOn (s : State) (p : ProgRun) (k : Tok) : Host.Outcome State Fault Refusal := .next ((sent s p k).putProg p.past)

/-- The outcome of a step that waits. -/
def stepWaits (s : State) (p : ProgRun) : Host.Outcome State Fault Refusal := .next (s.putRun { p with idle := true })

/-- A loop register the program's command captured, with the program's copy of it (R190). -/
def pcap (p : ProgRun) (l : LReg) (x : W64) : Prop := p.cmd.mask.getLsbD l.val = true ∧ p.regs[l] = x

/-- The lines of n bytes at an address of this device's memory can be read and written at their homes: nothing holds them back, none is in U
and none is lost. -/
def atHome (s : State) (a n : Nat) : Prop :=
  a + n ≤ physTop ∧ Memory.wf s.mem = true ∧ ∀ l ∈ linesAt a n, s.settled l = true ∧ (s.dirLine l).hs ≠ .upd ∧ l ∉ s.lost

/-- An engine access of n bytes at an address of this device passes its checks, within one page, at its cell address (R87, R194). -/
def engAt (s : State) (va : W64) (n : Nat) (need : Need) (a : Nat) : Prop :=
  s.engCheck va n need = .ok [(a, n)] ∧ s.isRemote va = false ∧ atHome s a n

/-- The engine fault of the current step (R195): the program ends with it. -/
def ends (i : Instr) (s : State) (p : ProgRun) (cause : Cause) (faddr : W64) : Prop := exec i s = s.progFault p cause faddr

end Sys2Proof.Rules

/-- Tokens, step loops and waits for barriers (R40, R187, R192, R262, R189, R190, R191, R193, R195). A step word at its beginning (program
running, no fault held, within the 4,096 words, on a channel of its class): with PRDY set and no ready token upstream the program waits;
then, with PFREE set and no free token downstream, it waits with the ready token consumed; otherwise both tokens it waits for are consumed,
one from each counter, and the word acts as it acts at work. Past the 4,096 words it ends with PROGLEN, before any token is consumed. A
program goes on at the next word, or from a loop's last word back to its start with the index one up, or past it when the count is reached.
MLOOP and XLOOP with a count above 0, within the two levels and the enclosing body, open a loop over the B words that follow; a count of 0
in a register skips them; a third level or a body that passes the enclosing one ends with STEPLOOP, a register not captured with LREGCAP.
MWAITB and XWAITB end with the cause of an address that fails its checks, wait for the turn of the barrier object at their register, end with
BARERR when it has ERR, and otherwise complete. -/
def Obligations.StepTokensLoopsAndWaits : Prop :=
  (∀ (s : State) (p : ProgRun) (i : Instr) (k : Tok),
     tokOf i = some k → s.prog? = some p → p.stopped = false → p.failing = false → p.stage = 0 → p.fault = none → s.core.seq ≠ .preempted →
     (inOnly i → s.unit ≠ .xout) → (outOnly i → s.unit ≠ .xin) →
     (4 * 4096 ≤ (p.pc - p.start).toNat → ends i s p .proglen 0) ∧
     ((p.pc - p.start).toNat < 4 * 4096 →
       let needR := ∃ q, k.prdy = true ∧ p.up = some q ∧ (s.core.tok q).1 = 0
       let c := match k.prdy, p.up with
         | true, some q => s.core.putTok q ((s.core.tok q).1 - 1, (s.core.tok q).2)
         | _, _ => s.core
       let needF := ∃ q, k.pfree = true ∧ p.down = some q ∧ (c.tok q).2 = 0
       let c2 := match k.pfree, p.down with
         | true, some q => c.putTok q ((c.tok q).1, (c.tok q).2 - 1)
         | _, _ => c
       (needR → exec i s = stepWaits s p) ∧
       (¬ needR → needF → exec i s = stepWaits (s.upd c) { p with stage := 1 }) ∧
       (¬ needR → ¬ needF → exec i s = exec i ((s.upd c2).putProg { p with stage := 2 })))) ∧
  ((∀ p : ProgRun,
     (p.loops = [] → p.past.pc = p.pc + 4 ∧ p.past.loops = []) ∧
     (∀ st en cnt ix rest, p.loops = (st, en, cnt, ix) :: rest →
       (en ≠ p.pc → p.past.pc = p.pc + 4 ∧ p.past.loops = p.loops) ∧
       (en = p.pc → ix + 1 < cnt → p.past.pc = st ∧ p.past.loops = (st, en, cnt, ix + 1) :: rest) ∧
       (en = p.pc → cnt ≤ ix + 1 → p.past = { p with loops := rest }.past)) ∧
     p.past.stage = 0 ∧ p.past.done = 0 ∧ p.past.buf = [] ∧ p.past.regs = p.regs ∧ p.past.streams = p.streams) ∧
   (∀ (s : State) (p : ProgRun) (k : Tok) (n : Fin 4096) (l : LReg) (b : Fin 1024), atWork s p → canSend s p k →
     let e := p.pc + BitVec.ofNat 64 (4 * b.val)
     let bad := ∃ x rest, p.loops = x :: rest ∧ (rest ≠ [] ∨ x.2.1.toNat < e.toNat)
     let opened := fun (cnt : Nat) => Host.Outcome.next ((sent s p k).putProg (p.standAt ((p.pc + 4, e, cnt, 0) :: p.loops) (p.pc + 4)))
     (bad → ends (.mloop k n b) s p .steploop 0 ∧ ends (.xloop k n b) s p .steploop 0 ∧
       ends (.mloopReg k l b) s p .steploop 0 ∧ ends (.xloopReg k l b) s p .steploop 0) ∧
     (¬ bad →
       (n.val ≠ 0 → exec (.mloop k n b) s = opened n.val ∧ exec (.xloop k n b) s = opened n.val) ∧
       (p.cmd.mask.getLsbD l.val = false →
         ends (.mloopReg k l b) s p .lregcap (BitVec.ofNat 64 l.val) ∧ ends (.xloopReg k l b) s p .lregcap (BitVec.ofNat 64 l.val)) ∧
       (∀ x, pcap p l x →
         (x.toNat % 2 ^ 32 ≠ 0 → exec (.mloopReg k l b) s = opened (x.toNat % 2 ^ 32) ∧ exec (.xloopReg k l b) s = opened (x.toNat % 2 ^ 32)) ∧
         (x.toNat % 2 ^ 32 = 0 → exec (.mloopReg k l b) s = stepOn s { p with pc := e } k ∧ exec (.xloopReg k l b) s = stepOn s { p with pc := e } k)))) ∧
   (∀ (s : State) (p : ProgRun) (k : Tok) (l : LReg) (turn : Bool), atWork s p → p.fault = none →
     (p.cmd.mask.getLsbD l.val = false →
       ends (.mwaitb k l turn) s p .lregcap (BitVec.ofNat 64 l.val) ∧ ends (.xwaitb k l turn) s p .lregcap (BitVec.ofNat 64 l.val)) ∧
     (∀ va c fa, pcap p l va → s.check va 16 .read none false = .error (c, fa) →
       ends (.mwaitb k l turn) s p c fa ∧ ends (.xwaitb k l turn) s p c fa) ∧
     (∀ va a expect arrived err t, pcap p l va → s.check va 16 .read none false = .ok a →
       let u := pinned s va
       barrierAt u a expect arrived err t →
       (t ≠ turn → exec (.mwaitb k l turn) s = stepWaits u p ∧ exec (.xwaitb k l turn) s = stepWaits u p) ∧
       (t = turn → err = true → exec (.mwaitb k l turn) s = u.progFault p .barerr va ∧ exec (.xwaitb k l turn) s = u.progFault p .barerr va) ∧
       (t = turn → err = false → canSend u p k → exec (.mwaitb k l turn) s = stepOn u p k ∧ exec (.xwaitb k l turn) s = stepOn u p k))))

/-- Transfer programs start, and programs end (R74, R76, R187, R210, R212, R262, R358). The oldest program of a channel starts, once the
channel is free, no error is due and its first word can be fetched, at its address, with the registers its command captured, its token queue
(l14's low bits when captured, else 0 for the in-channel and 1 for the out-channel) and no loop open; one that cannot be fetched leaves its
queue, and ENGFETCH is charged with its address. XEND with no credit of its program outstanding sends its tokens and ends the program and
its command. MEND with no credit of its drains outstanding writes the gathered status bits with DONE at STADDR and credits DONEBAR, where the
record names them, ends with the cause of an address that fails its checks, and, with no credit of the array's outstanding then, ends the
tile task and its command. -/
def Obligations.ProgramsStartAndEnd : Prop :=
  (∀ (s : State) (out : Bool) (cmd : Cmd) (rest : List Cmd),
    (if out then s.core.xoutq else s.core.xinq) = cmd :: rest → (if out then s.core.xout else s.core.xin) = none →
    cmd.started = false → s.core.seq ≠ .preempted → s.core.abortDue = false → blockReady s s.core.ecode cmd.addr →
    let c := s.core.id
    let word := s.wordAt s.core.context (clusterOf c) s.core.ecode cmd.addr
    let tok := if cmd.mask.getLsbD 14 then cmd.regs[14].toNat % 4 else if out then 1 else 0
    (∀ w blocks, word = some (w, blocks) → ∃ t p, exec (.transferProgramStart c out) s = .next t ∧
      (if out then t.core.xout else t.core.xin) = some p ∧ (if out then t.core.xoutq else t.core.xinq) = { cmd with started := true } :: rest ∧
      p.start = cmd.addr ∧ p.pc = cmd.addr ∧ p.regs = cmd.regs ∧ p.cmd = cmd ∧ p.loops = [] ∧ p.stage = 0 ∧ p.done = 0 ∧
      p.up = (if out then some tok else none) ∧ p.down = (if out then none else some tok) ∧ t.mem = s.mem) ∧
    (word = none → (cmd.mask.getLsbD 15 = false ∨ cmd.regs[15] = 0) → ∃ t, exec (.transferProgramStart c out) s = .next t ∧
      (if out then t.core.xoutq else t.core.xinq) = rest ∧ (if out then t.core.xout else t.core.xin) = none ∧
      ∃ r, t.core.held = s.core.held ++ [r] ∧ r.code = 0x34 ∧ r.faddr = cmd.addr ∧ r.engine = (if out then 2 else 1))) ∧
  (∀ (s : State) (p : ProgRun) (k : Tok), atWork s p → p.fault = none → canSend s p k →
    (s.unit = .xin → (s.credits.any (fun c => c.core == s.core.id && c.engine == 1)) = false → ∃ t, exec (.xend k) s = .next t ∧
      t.core = { (sent s p k).core with xin := none, xinq := s.core.xinq.drop 1 } ∧ t.mem = s.mem) ∧
    (s.unit = .xout → (s.credits.any (fun c => c.core == s.core.id && c.engine == 2)) = false → ∃ t, exec (.xend k) s = .next t ∧
      t.core = { (sent s p k).core with xout := none, xoutq := s.core.xoutq.drop 1 } ∧ t.mem = s.mem) ∧
    (s.unit = .xin → (s.credits.any (fun c => c.core == s.core.id && c.engine == 1)) = true → exec (.xend k) s = stepWaits s p) ∧
    (∀ r, s.array.rcd = some r → (s.unit = .arr0 ∨ s.unit = .arr1) →
      let over_ := fun (u : State) => ∃ t, exec (.mend k) s = .next t ∧ t.core.mq = s.core.mq.filter (fun m => m.num ≠ p.cmd.num) ∧
        (t.array).run = none ∧ (t.array).rcd = none ∧ t.mem = u.mem ∧ t.credits = u.credits
      (s.credits.any (fun c => c.core == s.core.id && c.engine == 3) = true → exec (.mend k) s = stepWaits s p) ∧
      (s.credits.any (fun c => c.core == s.core.id && c.engine == 3) = false →
        (p.done = 1 → over_ s) ∧
        (p.done = 0 → r.staddr = 0 → over_ s) ∧
        (∀ c fa, p.done = 0 → r.staddr ≠ 0 → s.engCheck r.staddr 8 .write = .error (c, fa) → ends (.mend k) s p c fa) ∧
        (∀ a, p.done = 0 → r.staddr ≠ 0 → engAt s r.staddr 8 .write a →
          ∃ u : State, exec (.mend k) s = .next ((if r.donebar = 0 then u else u.creditVa s.core.id r.donebar 8 false p.pc 3).putProg
              { p with done := 1, point := false }) ∧
            leVal (cellBytes u.mem a 8) = (s.array.bits + 1) % 2 ^ 64 ∧ sameOutside s u a 8))))

namespace Sys2Proof.Rules

open Sys2Proof.Machine

/-- A step with bytes in its buffer pushes a slot of them into a stream in FIFO mode (R189, R276): it claims a slot while the bank has one
that nobody has filled or claimed, and otherwise waits; the slot it has claimed takes the bytes, its tail zeros, and is a slot of the stream
when no earlier claim stands before it. The program may stop once nothing is left, if `pt`. -/
def pushes (i : Instr) (s : State) (p : ProgRun) (n : Nat) (pt : Bool) : Prop :=
  let b := s.bank n
  let q := { p with streams := insertNat n p.streams }
  let z := b.slotBytes
  let me := s.engineNo
  let slot := p.buf.take z ++ List.replicate (z - (p.buf.take z).length) 0
  let on := fun (x : Bank) => Host.Outcome.next ((s.putBank n x).putProg
    { q with waits := none, buf := p.buf.drop z, point := pt && (p.buf.drop z).isEmpty })
  (b.claims = [(me, none)] → exec i s = on { b with slots := b.slots ++ [slot], pushed := b.pushed + 1, claims := [] }) ∧
  (∀ o rest, b.claims = (o, none) :: rest → o ≠ me → b.claimed me = true → exec i s = on { b with claims := fillClaim me slot b.claims }) ∧
  (b.claimed me = false → b.slots.length + b.claims.length < b.capacity →
    exec i s = .next ((s.putBank n { b with claims := b.claims ++ [(me, none)] }).putProg { q with waits := none })) ∧
  (b.claimed me = false → b.capacity ≤ b.slots.length + b.claims.length → exec i s = stepWaits s { q with waits := some n })

/-- How a transfer step puts its units into a target (R189, R213, R276): a unit in the program's buffer goes to memory at its offset, or into
the stream slot by slot, each claimed before it is filled, zero-padded; with no slot free it waits, and a bank outside FIFO mode ends the
program. A filled slot is there for readers once no earlier claim is unfilled. -/
def intoPlace (i : Instr) (s : State) (p : ProgRun) (y : XLoc) (base : W64) (off : Nat → Nat) : Prop :=
  (∀ r a, y = .mem r → p.buf ≠ [] → engAt s (base + BitVec.ofNat 64 (off p.done)) p.buf.length .write a →
    ∃ t, exec i s = .next t ∧ t.prog? = some { p with buf := [], done := p.done + 1, idx := none, point := true, idle := false } ∧
      cellBytes t.mem a p.buf.length = p.buf ∧ sameOutside s t a p.buf.length) ∧
  (∀ f, y = .stream f → p.buf ≠ [] →
    let n := s.stream f
    ((s.bank n).mode ≠ 2 → exec i s = s.progFail { p with streams := insertNat n p.streams }
      (s.progReport { p with streams := insertNat n p.streams } .notfifo 0 (off (p.done - 1)) (some (n, 0)))) ∧
    ((s.bank n).mode = 2 → pushes i s p n true))

/-- How a step takes n bytes from a source, `off` bytes of its work done (R189, R194): from memory at once, from a stream slot by slot, claimed
before it is read; an empty stream, or one another engine reads, makes it wait. -/
def fromPlace (i : Instr) (s : State) (p : ProgRun) (x : XLoc) (va : W64) (n off : Nat) : Prop :=
  (∀ r a, x = .mem r → p.buf.length < n → engAt s va n .read a →
    ∃ t, exec i s = .next t ∧ t.prog? = some { p with buf := cellBytes s.mem a n, point := false, idle := false } ∧ t.mem = s.mem) ∧
  (∀ f, x = .stream f → p.buf.length < n →
    let j := s.stream f
    let b := s.bank j
    let q := { p with streams := insertNat j p.streams }
    (b.mode ≠ 2 → exec i s = s.progFail q (s.progReport q .notfifo 0 off (some (j, 0)))) ∧
    (b.mode = 2 → b.slots = [] → exec i s = stepWaits s { q with waits := some j }) ∧
    (∀ w rest, b.mode = 2 → b.slots = w :: rest →
      (b.consumer = none → exec i s = .next ((s.putBank j { b with consumer := some s.engineNo }).putProg { q with waits := none })) ∧
      (b.consumer = some s.engineNo → exec i s =
        .next ((s.putBank j { b with slots := rest, popped := b.popped + 1, consumer := none }).putProg
          { q with waits := none, buf := p.buf ++ w, point := false })) ∧
      (∀ e, b.consumer = some e → e ≠ s.engineNo → exec i s = stepWaits s { q with waits := some j })))

/-- A contribution that its slice refuses (R217): it and the others of its step that have not arrived are gone, and the step of its source,
where it stands at the word, holds the fault with the bytes it has sent. -/
def xredRefused (s : State) (k : Nat) (m : XredMsg) (c : Cause) (fa : W64) : Prop :=
  ∃ t, exec (.xredContribution k) s = .next t ∧
    (∀ y ∈ t.xreds, y ∈ s.xreds ∧ y ≠ m ∧ ¬ (y.core = m.core ∧ y.word = m.word ∧ y.arrived = false)) ∧
    ∀ p, (s.coreAt m.core).xout = some p → p.pc = m.word → p.stage = 2 → ∃ q r, (t.coreAt m.core).xout = some q ∧ q.fault = some r ∧
      q.pc = p.pc ∧ r.code = c.code ∧ r.faddr = fa ∧ r.waddr = m.word ∧ r.offset = 128 * p.done ∧ t.mem = s.mem

/-- The address a memory operand names, from the program's copy of its register; a stream has none. -/
def locAt (p : ProgRun) (x : XLoc) (va : W64) : Prop := match x with
  | .stream _ => va = 0
  | .mem r => pcap p r va

/-- The state after the credit a step makes for n bytes it wrote to memory: none without a barrier in the captured l15 (R194). -/
def afterCredit (s : State) (p : ProgRun) (n : Nat) : State :=
  if p.cmd.mask.getLsbD 15 = true ∧ p.cmd.regs[15] ≠ 0 ∧ n ≠ 0 then
    s.creditVa s.core.id p.cmd.regs[15] n false p.pc (if s.unit = .xin then 1 else 2)
  else s

/-- The same for a target: a stream takes no credit. -/
def afterInto (s : State) (p : ProgRun) (y : XLoc) (n : Nat) : State := match y with
  | .stream _ => s
  | .mem _ => afterCredit s p n

/-- A register that a memory operand names moves on by n bytes (R190). -/
def moved (p : ProgRun) (x : XLoc) (n : Nat) : ProgRun := match x with
  | .stream _ => p
  | .mem r => { p with regs := p.regs.set r (p.regs[r] + BitVec.ofNat 64 n) }

end Sys2Proof.Rules

/-- XCOPY, XFILL and XGATH move their bytes (R76, R87, R189, R190, R194, R213, R214, R215). On an in-channel, with the registers named
captured: XCOPY reads its bytes 4 KiB after 4 KiB from memory, XFILL gives the 4-byte pattern, XGATH and XGATH.c read row after row, at the
row's index from the list or at the row's number, times 16 x 2^sz from the base; each unit then goes to its place in memory or into the
stream. When all units are there, a step into memory credits the barrier in l15 with the bytes, the registers named move on as the word
says, its tokens are sent and the next word follows. A read that fails its checks ends the program with its cause. On an out-channel each
ends with CHANNEL; XSCAT, XSCAT.c, XRED and XSEND do so on an in-channel. -/
def Obligations.InChannelStepsComplete : Prop :=
  (∀ (s : State) (p : ProgRun) (k : Tok) (x y : XLoc) (l r : LReg) (ps pd : Bool) (src dst n v : W64),
    atWork s p → s.unit = .xin → p.fault = none → locAt p y dst → pcap p l n →
    let L := n.toNat % 2 ^ 32
    let units := (L + 4095) / 4096
    (locAt p x src →
      let i := Instr.xcopy k x y l ps pd
      intoPlace i s p y dst (fun j => 4096 * j) ∧
      (p.buf = [] → p.done < units → (∀ f, y = .stream f → (s.bank (s.stream f)).mode = 2) →
        let va := src + BitVec.ofNat 64 (4096 * p.done)
        let m := min 4096 (L - 4096 * p.done)
        (∀ a, engAt s va m .read a → ∃ t q, exec i s = .next t ∧ t.prog? = some q ∧ q.buf = cellBytes s.mem a m ∧ q.pc = p.pc ∧
          q.regs = p.regs ∧ q.done = (match y with | .stream _ => p.done + 1 | .mem _ => p.done) ∧ t.mem = s.mem) ∧
        (∀ c fa, s.engCheck va m .read = .error (c, fa) → ∃ t, exec i s = .next t ∧ t.core.xin = none ∧
          ∃ w, w ∈ t.core.held ∧ w.code = c.code ∧ w.faddr = fa ∧ w.waddr = p.pc ∧ w.offset = 4096 * p.done)) ∧
      (p.buf = [] → units ≤ p.done → canSend s p k →
        exec i s = stepOn (afterInto s p y L)
          (let q := if ps then moved p x L else p
           if pd then moved q y L else q) k)) ∧
    (pcap p r v →
      let i := Instr.xfill k y r l pd
      intoPlace i s p y dst (fun j => 4096 * j) ∧
      (p.buf = [] → p.done < units → (∀ f, y = .stream f → (s.bank (s.stream f)).mode = 2) →
        ∃ t q, exec i s = .next t ∧ t.prog? = some q ∧ q.buf.length = min 4096 (L - 4096 * p.done) ∧
          (∀ j b, q.buf[j]? = some b → b = BitVec.ofNat 8 (v.toNat / 2 ^ (8 * (j % 4)))) ∧ t.mem = s.mem) ∧
      (p.buf = [] → units ≤ p.done → canSend s p k →
        exec i s = stepOn (afterInto s p y L) (if pd then moved p y L else p) k))) ∧
  (∀ (s : State) (p : ProgRun) (k : Tok) (b l r : LReg) (y : XLoc) (sz : Fin 16) (base dst n list : W64),
    atWork s p → s.unit = .xin → p.fault = none → pcap p b base → locAt p y dst → pcap p l n →
    let rows := n.toNat % 2 ^ 32
    let row := 16 * 2 ^ sz.val
    let g := Instr.xgath k b y r l sz
    let c := Instr.xgathC k b y l sz
    let reads := fun (i : Instr) (index : Nat) => ∀ a, engAt s (base + BitVec.ofNat 64 (index * row)) row .read a →
      ∃ t q, exec i s = .next t ∧ t.prog? = some q ∧ q.buf = cellBytes s.mem a row ∧ t.mem = s.mem
    intoPlace c s p y dst (fun j => row * j) ∧
    (p.buf = [] → p.done < rows → (∀ f, y = .stream f → (s.bank (s.stream f)).mode = 2) → reads c p.done) ∧
    (p.buf = [] → rows ≤ p.done → canSend s p k → exec c s = stepOn (afterInto s p y (rows * row)) (moved p y (rows * row)) k) ∧
    (pcap p r list →
      intoPlace g s p y dst (fun j => row * j) ∧
      (p.buf = [] → p.done < rows → (∀ f, y = .stream f → (s.bank (s.stream f)).mode = 2) →
        (∀ index, p.idx = some index → reads g index) ∧
        (∀ a, p.idx = none → (list.toNat + 4 * p.done) % 4 = 0 → engAt s (list + BitVec.ofNat 64 (4 * p.done)) 4 .read a →
          ∃ t q, exec g s = .next t ∧ t.prog? = some q ∧ q.idx = some (leVal (cellBytes s.mem a 4)) ∧ q.done = p.done ∧ t.mem = s.mem)) ∧
      (p.buf = [] → rows ≤ p.done → canSend s p k →
        exec g s = stepOn (afterInto s p y (rows * row)) (moved (moved p (.mem r) (4 * rows)) y (rows * row)) k))) ∧
  (∀ (s : State) (p : ProgRun) (k : Tok) (x y : XLoc) (a b c d : LReg) (f g : Bool) (sz : Fin 16) (o : Fin 256) (u : UpdTag),
    s.prog? = some p →
    (s.unit = .xout → ends (.xcopy k x y a f g) s p .channel 0 ∧ ends (.xfill k y a b f) s p .channel 0 ∧
      ends (.xgath k a y b c sz) s p .channel 0 ∧ ends (.xgathC k a y b sz) s p .channel 0 ∧ ends (.xrecv k y o a f) s p .channel 0) ∧
    (s.unit = .xin → ends (.xscat k x a b c sz) s p .channel 0 ∧ ends (.xscatC k x a b sz) s p .channel 0 ∧
      ends (.xred k x a b u d f) s p .channel 0 ∧ ends (.xsend k x o a f) s p .channel 0))

/-- XSCAT and XRED take their bytes and send them (R87, R100, R189, R190, R194, R214, R216, R217). On an out-channel, with the registers
named captured: XSCAT and XSCAT.c take row after row from memory or from the stream and write it at base plus index (or row number) times
the row's size, whose address is checked before the row is taken; when all are written, the barrier in l15 is credited with the bytes and
the registers move on. XRED of an aligned line count takes 128 bytes for each line and sends a contribution with its tag, reduction, line
and bytes; it completes when every contribution of it has been accepted. A contribution in its turn combines its elements into the line and
nothing else; one out of turn waits in its slice's buffer while there is room, and none passes an earlier one of its source for its round. A
source the admission table does not name is at fault with XRADMIT, one whose table entry cannot be read with that read's cause: its other
contributions of the step go, and the step, where it stands at the word, holds the fault, with which it ends next. -/
def Obligations.OutChannelStepsComplete : Prop :=
  (∀ (s : State) (p : ProgRun) (k : Tok) (x : XLoc) (b l r : LReg) (sz : Fin 16) (src base n list : W64),
    atWork s p → s.unit = .xout → p.fault = none → locAt p x src → pcap p b base → pcap p l n →
    let rows := n.toNat % 2 ^ 32
    let row := 16 * 2 ^ sz.val
    let c := Instr.xscatC k x b l sz
    let g := Instr.xscat k x b r l sz
    let moves := fun (i : Instr) (index : Nat) =>
      let dst := base + BitVec.ofNat 64 (index * row)
      ∀ a, engAt s dst row .write a →
        fromPlace i s p x (src + BitVec.ofNat 64 (p.done * row)) row (row * p.done) ∧
        (p.buf.length = row → ∃ t, exec i s = .next t ∧ t.prog? = some { p with buf := [], done := p.done + 1, idx := none, point := true, idle := false } ∧
          cellBytes t.mem a row = p.buf ∧ sameOutside s t a row)
    (p.done < rows → moves c p.done) ∧
    (rows ≤ p.done → canSend s p k → exec c s = stepOn (afterCredit s p (rows * row)) (moved (moved p (.mem b) (rows * row)) x (rows * row)) k) ∧
    (pcap p r list →
      (∀ index, p.idx = some index → p.done < rows → moves g index) ∧
      (∀ a, p.idx = none → p.done < rows → (list.toNat + 4 * p.done) % 4 = 0 → engAt s (list + BitVec.ofNat 64 (4 * p.done)) 4 .read a →
        ∃ t, exec g s = .next t ∧ t.prog? = some { p with idx := some (leVal (cellBytes s.mem a 4)), point := false, idle := false } ∧ t.mem = s.mem) ∧
      (rows ≤ p.done → canSend s p k → exec g s = stepOn (afterCredit s p (rows * row)) (moved (moved p (.mem r) (4 * rows)) x (rows * row)) k))) ∧
  (∀ (s : State) (p : ProgRun) (k : Tok) (x : XLoc) (d n r : LReg) (u : UpdTag) (post : Bool) (src dst cnt rid : W64),
    atWork s p → s.unit = .xout → p.fault = none → locAt p x src → pcap p d dst → pcap p n cnt → pcap p r rid →
    let i := Instr.xred k x d n u r post
    let L := cnt.toNat % 2 ^ 32
    let va := dst + BitVec.ofNat 64 (128 * p.done)
    dst.toNat % 128 = 0 → L % 128 = 0 → s.isRemote dst = false →
    (∀ a, p.done < L / 128 → s.check va 128 .write none false = .ok a →
      fromPlace i s p x (src + BitVec.ofNat 64 (128 * p.done)) 128 (128 * p.done) ∧
      (128 ≤ p.buf.length → ∃ t, exec i s = .next t ∧ t.mem = s.mem ∧
        t.prog? = some { p with buf := p.buf.drop 128, done := p.done + 1, point := true, idle := false } ∧
        t.xreds = s.xreds ++ [{
          ctx := s.core.context, rid := rid.toNat % 4096, line := a / 128, core := s.core.id, tag := u, bytes := p.buf.take 128,
          bar := if p.cmd.mask.getLsbD 15 then p.cmd.regs[15] else 0, task := s.core.taskid, word := p.pc, arrived := false }])) ∧
    (L / 128 ≤ p.done →
      ((∃ m ∈ s.xreds, m.core = s.core.id ∧ m.arrived = false) → exec i s = stepWaits s p) ∧
      ((∀ m ∈ s.xreds, m.core = s.core.id → m.arrived = true) → canSend s p k →
        exec i s = stepOn s (if post then moved (moved p x L) (.mem d) L else p) k))) ∧
  (∀ (s : State) (k : Nat) (m : XredMsg) (ids : List Nat),
    s.xreds[k]? = some m → s.settled m.line = true → s.xredBehind m k = false → s.round? m = none →
    s.admission m.core m.rid = .ok ids →
    (m.core ∉ ids → xredRefused s k m .xradmit (BitVec.ofNat 64 (m.line * 128))) ∧
    (ids.head? = some m.core → m.bar = 0 → m.line * 128 + 128 ≤ physTop → Memory.wf s.mem = true → (s.dirLine m.line).hs ≠ .upd →
      (combineBytes m.tag (cellBytes s.mem (m.line * 128) 128) m.bytes).length = 128 →
      ∃ t, exec (.xredContribution k) s = .next t ∧ t.xreds = s.xreds.eraseIdx k ∧
        cellBytes t.mem (m.line * 128) 128 = combineBytes m.tag (cellBytes s.mem (m.line * 128) 128) m.bytes ∧
        sameOutside s t (m.line * 128) 128) ∧
    (m.core ∈ ids → ids.head? ≠ some m.core → m.arrived = false →
      (s.xreds.filter fun x => x.arrived && lineHome x.line == lineHome m.line).length < 64 →
      ∃ t, exec (.xredContribution k) s = .next t ∧ t.mem = s.mem ∧ t.xreds = s.xreds.set k { m with arrived := true })) ∧
  (∀ (s : State) (k : Nat) (m : XredMsg) (f : Fail),
    s.xreds[k]? = some m → s.settled m.line = true → s.xredBehind m k = false → s.round? m = none →
    s.admission m.core m.rid = .error f → xredRefused s k m f.1 f.2) ∧
  (∀ (s : State) (k : Nat) (m : XredMsg), s.xreds[k]? = some m → s.xredBehind m k = true → notNow (.xredContribution k) s)

/-- Circuits carry units of 512 bytes (R190, R218, R314, R315, R316, R317). XSEND on a valid circuit of the loaded table whose source is
this core takes 512 bytes after 512 bytes and readies each as a unit for the circuit's destination, one at a time; a ready unit, behind no
other of its circuit, leaves when an owned slot passes while fewer than 4 units of the circuit are buffered, and reaches the receiver's
buffer, behind those sent before it, after its distance on the strip and 2 cycles (that one which finds four buffered waits is the model's
choice, log 60); XRECV on a valid circuit whose destination is this core takes the oldest buffered unit of it, puts it in its
place, and waits while there is none. Both complete after their count of units. A circuit that is not valid, not loaded at CARBASE, or not
this core's ends the program with CIRCUIT and its number. -/
def Obligations.CircuitsComplete : Prop :=
  (∀ (s : State) (p : ProgRun) (k : Tok) (x : XLoc) (c : Fin 256) (n : LReg) (post : Bool) (src cnt : W64) (e : CarEntry),
    atWork s p → s.unit = .xout → p.fault = none → s.circuit? c.val = some e → CarEntry.src e = s.core.id → locAt p x src → pcap p n cnt →
    let i := Instr.xsend k x c n post
    let units := cnt.toNat % 2 ^ 32
    ((∃ u ∈ s.units, u.src = s.core.id ∧ u.sent = false) → exec i s = stepWaits s { p with circuit := true }) ∧
    ((∀ u ∈ s.units, u.src = s.core.id → u.sent = true) →
      (p.done < units → p.circuit = true → fromPlace i s p x (src + BitVec.ofNat 64 (512 * p.done)) 512 (512 * p.done)) ∧
      (p.done < units → 512 ≤ p.buf.length → ∃ t, exec i s = .next t ∧ t.mem = s.mem ∧
        t.prog? = some { p with circuit := true, buf := [], done := p.done + 1, point := true, idle := false } ∧
        t.units = s.units ++ [{ die := s.core.id / 512, circuit := c.val, src := s.core.id, dst := CarEntry.dst e, bytes := p.buf.take 512
                                sent := false, arriveAt := 0, buffered := false }]) ∧
      (units ≤ p.done → canSend s p k →
        exec i s = stepOn s (if post then moved { p with circuit := true } x (512 * units) else { p with circuit := true }) k))) ∧
  (∀ (s : State) (p : ProgRun) (k : Tok) (y : XLoc) (c : Fin 256) (n : LReg) (post : Bool) (dst cnt : W64) (e : CarEntry),
    atWork s p → s.unit = .xin → p.fault = none → s.circuit? c.val = some e → CarEntry.dst e = s.core.id → locAt p y dst → pcap p n cnt →
    let i := Instr.xrecv k y c n post
    let units := cnt.toNat % 2 ^ 32
    let mine := fun (u : CircuitUnit) => u.buffered && u.circuit == c.val && u.dst == s.core.id
    (p.circuit = true → intoPlace i s p y dst (fun j => 512 * j)) ∧
    (p.buf = [] → p.done < units → (∀ f, y = .stream f → (s.bank (s.stream f)).mode = 2) →
      (∀ u, s.units.find? mine = some u → ∃ t q, exec i s = .next t ∧ t.prog? = some q ∧ q.buf = u.bytes ∧ t.units = s.units.erase u ∧
        t.mem = s.mem) ∧
      (s.units.find? mine = none → ∃ t q, exec i s = .next t ∧ t.prog? = some q ∧ q.pc = p.pc ∧ q.done = p.done ∧ q.idle = true)) ∧
    (p.buf = [] → units ≤ p.done → canSend s p k →
      exec i s = stepOn (afterInto s p y (512 * units)) (if post then moved { p with circuit := true } y (512 * units) else { p with circuit := true }) k)) ∧
  (∀ (s : State) (p : ProgRun) (k : Tok) (x : XLoc) (c : Fin 256) (n : LReg) (post : Bool), atWork s p →
    (s.unit = .xout → (∀ e, s.circuit? c.val = some e → CarEntry.src e ≠ s.core.id) →
      ends (.xsend k x c n post) s p .circuit (BitVec.ofNat 64 c.val)) ∧
    (s.unit = .xin → (∀ e, s.circuit? c.val = some e → CarEntry.dst e ≠ s.core.id) →
      ends (.xrecv k x c n post) s p .circuit (BitVec.ofNat 64 c.val))) ∧
  (∀ (s : State) (k : Nat) (u : CircuitUnit) (e : CarEntry), s.units[k]? = some u →
    (s.unitEntry u = some e → u.sent = false →
      let ps := stripPos e.src
      let pd := stripPos e.dst
      let owned := e.passes s.clock = true
      let held := (s.units.filter fun x => x.die == u.die && x.circuit == u.circuit && x.buffered).length
      let first := ∀ x ∈ s.units.take k, x.die = u.die → x.circuit = u.circuit → x.sent = true
      (owned → held < 4 → first → exec (.circuitUnitSend k) s = .next { s with
        units := s.units.set k { u with sent := true, arriveAt := s.clock + (if ps < pd then pd - ps else ps - pd) + 2 } }) ∧
      ((¬ owned ∨ 4 ≤ held ∨ ¬ first) → notNow (.circuitUnitSend k) s)) ∧
    (u.sent = true → u.buffered = false →
      let held := (s.units.filter fun x => x.die == u.die && x.circuit == u.circuit && x.buffered).length
      let first := ∀ x ∈ s.units.take k, x.die = u.die → x.circuit = u.circuit → x.sent = true → x.buffered = true
      (u.arriveAt ≤ s.clock → held < 4 → first →
        exec (.circuitUnitArrive k) s = .next { s with units := s.units.set k { u with buffered := true } }) ∧
      ((s.clock < u.arriveAt ∨ 4 ≤ held ∨ ¬ first) → notNow (.circuitUnitArrive k) s)))

namespace Sys2Proof.Rules

open Sys2Proof.Machine

/-- The acting array's program p is at work, for a tile task's record. -/
def arrayWorks (s : State) (p : ProgRun) : Prop := atWork s p ∧ (s.unit = .arr0 ∨ s.unit = .arr1) ∧ p.fault = none

/-- Two arrays differ in nothing but their tiles. -/
def sameButTiles (a b : MatArray) : Prop := { a with tiles := b.tiles } = b

/-- Element n of the sum that an integer product of a dense 8-bit plane adds (R152): row elements times plane elements, over K rows of 256
bytes. -/
def denseSum (row plane : List Byte) (n : Nat) : Int :=
  ((List.range 128).map fun k => asSigned 8 (row.getD k 0).toNat * asSigned 8 (plane.getD (256 * k + n) 0).toNat).sum

/-- The first error that MMAC's checks find (R203): no A stream, no loaded plane, a pair the table does not have, or a row of the other
kind. -/
def macError (a : MatArray) (t : Fin 4) (r m : Nat) (c : Cause) : Prop :=
  (a.aStream = none ∧ c = .format) ∨
  (∃ f at_, a.aStream = some (f, at_) ∧
    ((a.active.state ≠ .loaded ∧ c = .noplane) ∨
     (a.active.state = .loaded ∧ ∃ w, a.active.fmt = some w ∧
       ((pairOk w at_ = false ∧ c = .format) ∨
        (pairOk w at_ = true ∧ (∃ k, k < m ∧ (a.row t (r + k)).float = intMode w) ∧ c = .tilekind)))))

/-- MMAC's checks find no error. -/
def macOk (a : MatArray) (t : Fin 4) (r m : Nat) (w : Ty × Bool) (f : Nat) (at_ : Ty) : Prop :=
  a.aStream = some (f, at_) ∧ a.active.state = .loaded ∧ a.active.fmt = some w ∧ pairOk w at_ = true ∧
  ∀ k, k < m → (a.row t (r + k)).float ≠ intMode w

end Sys2Proof.Rules

/-- Planes, the A stream and zeroed rows (R196, R199, R200, R201, R202, R204). On an array: MWLD waits while the shadow plane loads, and
otherwise starts loading it in its format from its stream and goes on; MWLD_LOAD_DONE claims the stream's oldest slot and then takes it, and
the plane is loaded when its bytes are all there; MSWAP waits while the shadow plane loads, ends with NOPLANE when it is empty, and
otherwise exchanges the planes; MSTRM names the A stream and its type; MZERO makes rows r..r+m of its tile 256 zeros of its kind and no
other row changes. -/
def Obligations.ArrayPlanesAndRows : Prop :=
  (∀ (s : State) (p : ProgRun) (k : Tok) (f : Fin 32) (t : Ty) (sp : Bool), arrayWorks s p →
    let a := s.array
    let j := s.stream f
    let q := { p with streams := insertNat j p.streams }
    (a.shadow.state = .loading → exec (.mwld k f t sp) s = stepWaits s p ∧ exec (.mswap k) s = stepWaits s p) ∧
    (a.shadow.state = .empty → ends (.mswap k) s p .noplane 0) ∧
    (canSend s p k →
      (a.shadow.state ≠ .loading →
        ((s.bank j).mode ≠ 2 → exec (.mwld k f t sp) s = s.progFail q (s.progReport q .notfifo 0 0 (some (j, 0)))) ∧
        ((s.bank j).mode = 2 → exec (.mwld k f t sp) s = stepOn (s.putArray { a with
          shadow := { state := .loading, fmt := some (t, sp), stream := j, bytes := [] }, last := some (j, t, sp), loadWord := p.pc }) q k)) ∧
      (a.shadow.state = .loaded → exec (.mswap k) s = stepOn (s.putArray { a with active := a.shadow, shadow := a.active }) p k) ∧
      exec (.mstrm k f t) s = stepOn (s.putArray { a with aStream := some (j, t) }) q k)) ∧
  (∀ (s : State) (p : ProgRun) (k : Tok) (t : Fin 4) (r m : Fin 64) (int : Bool), arrayWorks s p → canSend s p k →
    ∃ a, exec (.mzero k t r m int) s = stepOn (s.putArray a) p k ∧ sameButTiles a s.array ∧
      (∀ j, r.val ≤ j → j ≤ r.val + m.val → a.row t j = { float := !int, w := List.replicate 256 0 }) ∧
      (∀ t' j, (t' ≠ t ∨ j < r.val ∨ r.val + m.val < j) → a.row t' j = s.array.row t' j)) ∧
  (∀ (s : State) (k : Nat) (p : ProgRun) (w : Ty × Bool) (x : List Byte) (rest : List (List Byte)), k < 2 →
    let g := s.core.id / 4
    let a := (s.cluster g).arr k
    let j := a.shadow.stream
    let b := (s.cluster g).bank j
    a.run = some p → p.core = s.core.id → p.stopped = false → p.fault = none → a.shadow.state = .loading → a.shadow.fmt = some w → b.mode = 2 →
    b.slots = x :: rest → j < 32 →
    (b.consumer = none → ∃ t, exec (.mwldLoadDone g k) s = .next t ∧ (t.cluster g).bank j = { b with consumer := some (10 + k) } ∧
      (t.cluster g).arr k = a ∧ t.mem = s.mem) ∧
    (b.consumer = some (10 + k) → w.2 = false →
      let bytes := (a.shadow.bytes ++ x).take (planeBytes w)
      ∃ t, exec (.mwldLoadDone g k) s = .next t ∧
        (t.cluster g).bank j = { b with slots := rest, popped := b.popped + 1, consumer := none } ∧ t.mem = s.mem ∧
        (t.cluster g).arr k = { a with shadow := { a.shadow with
          bytes := bytes, state := if planeBytes w ≤ bytes.length then .loaded else .loading } }))

/-- MMAC accumulates rows against planes (R152, R153, R189, R196, R197, R201, R203, R212). MMAC's work is rows r..r+m for each of its
planes, with a swap before each plane but the first. Before the first row, and at a swap, its checks end the program with FORMAT, NOPLANE or
TILEKIND. A row takes its bytes from the A stream, slot by slot; once they are there the tile's row takes the product with the active plane
(for a dense i8 plane element n becomes the old one plus the sum over k of row[k] times plane[k][n], in 32 bits) and no other row changes;
TRIT is gathered from an illegal t3 byte. A swap waits while the shadow plane loads, ends with NOPLANE when it is empty, exchanges the
planes and, before a further plane, starts the next load. After the last row its tokens are sent and the next word follows. -/
def Obligations.MatrixProductsComplete : Prop :=
  ∀ (s : State) (p : ProgRun) (k : Tok) (t : Fin 4) (r m : Fin 64) (pl : Fin 16), arrayWorks s p →
    let i := Instr.mmac k t r m pl
    let a := s.array
    let per := m.val + 2
    let plane := (p.done + 1) / per
    let pos := (p.done + 1) % per
    plane ≤ pl.val →
    (∀ c, p.done = 0 → p.buf = [] → macError a t r.val (m.val + 1) c → ends i s p c 0) ∧
    (∀ w f at_, pos ≠ 0 → a.aStream = some (f, at_) → a.active.fmt = some w → (p.done = 0 → p.buf = [] → macOk a t r.val (m.val + 1) w f at_) →
      let row := r.val + pos - 1
      let n := rowBytes w
      let q := { p with streams := insertNat f p.streams }
      let b := s.bank f
      (p.buf.length < n → b.mode = 2 →
        (b.slots = [] → exec i s = stepWaits s { q with waits := some f }) ∧
        (∀ x rest, b.slots = x :: rest →
          (b.consumer = none → exec i s = .next ((s.putBank f { b with consumer := some s.engineNo }).putProg { q with waits := none })) ∧
          (b.consumer = some s.engineNo → exec i s =
            .next ((s.putBank f { b with slots := rest, popped := b.popped + 1, consumer := none }).putProg
              { q with waits := none, buf := p.buf ++ x, point := false })))) ∧
      (n ≤ p.buf.length → canSend s p k → ∃ a1,
        exec i s = (if p.done + 2 = (pl.val + 1) * per then stepOn (s.putArray a1) p k
          else .next ((s.putArray a1).putProg { p with buf := [], done := p.done + 1, point := false })) ∧
        sameButTiles { a1 with bits := a.bits } a ∧
        (∀ t' j, (t' ≠ t ∨ j ≠ row) → a1.row t' j = a.row t' j) ∧
        (a1.row t row).float = (a.row t row).float ∧
        (a1.row t row).w = macRow w at_ a.active.bytes (p.buf.take n) (a.row t row).w ∧
        (a1.bits = a.bits ∨ a1.bits = a.bits ||| 8) ∧
        (w = (.i8, false) → a.active.bytes.length = 32768 → (a.row t row).w.length = 256 →
          ∀ e, e < 256 → (a1.row t row).w[e]? =
            some ((a.row t row).w.getD e 0 + BitVec.ofInt 32 (denseSum p.buf a.active.bytes e))))) ∧
    (pos = 0 →
      let a1 := { a with active := a.shadow, shadow := a.active }
      (a.shadow.state = .loading → exec i s = stepWaits s p) ∧
      let done := (p.done - p.done / per) * (match a.active.fmt with | some w => rowBytes w | none => 0)
      (a.shadow.state = .empty → exec i s = s.faultAt p .noplane 0 done) ∧
      (∀ c, a.shadow.state = .loaded → macError a1 t r.val (m.val + 1) c → exec i s = (s.putArray a1).faultAt p c 0 done) ∧
      (∀ w f at_, a.shadow.state = .loaded → macOk a1 t r.val (m.val + 1) w f at_ → ∃ a2,
        exec i s = .next ((s.putArray a2).putProg { p with done := p.done + 1, point := true }) ∧
        a2.active = a.shadow ∧ a2.tiles = a.tiles ∧
        (plane = pl.val → a2 = a1) ∧
        (∀ g fm, plane < pl.val → a.last = some (g, fm) →
          a2.shadow = { state := .loading, fmt := some fm, stream := g, bytes := [] })))

/-- Drains write, accumulate or push their rows (R205, R206, R207, R208, R212). MDRAIN first reads its 32-byte descriptor at ARG plus 32 e
(a misaligned address or set res bits end it with DRAINDESC). A row whose kind is not its output's ends it with TILEKIND. A row then goes,
converted to the output type with its status bits gathered: to its address in memory; added to the elements that stand there; or into the
program's buffer and from there slot by slot into the stream. The addresses are base plus row times stride plus j0 and j1 times their
strides. After the last row a drain to memory credits DONEBAR with its bytes, the tokens are sent and the next word follows. -/
def Obligations.DrainsComplete : Prop :=
  ∀ (s : State) (p : ProgRun) (k : Tok) (t : Fin 4) (r m : Fin 64) (o : Ty) (c : Bool) (e : Fin 4) (j : Fin 3) (rcd : TileRec),
    arrayWorks s p → s.array.rcd = some rcd →
    let i := if j = 0 then Instr.mdrainMem k t r m o c e else if j = 1 then Instr.mdrainAcc k t r m o c e else Instr.mdrainStr k t r m o c e
    let desc := rcd.arg + BitVec.ofNat 64 (32 * e.val)
    let a := s.array
    let row := r.val + p.done
    let w := tyWidth o / 8
    (p.idx = none →
      (desc.toNat % 32 ≠ 0 → ends i s p .draindesc desc) ∧
      (∀ x, desc.toNat % 32 = 0 → engAt s desc 32 .read x →
        (2 ^ 165 ≤ leVal (cellBytes s.mem x 32) → ∃ u : State, exec i s = u.progFault p .draindesc desc ∧ u.mem = s.mem) ∧
        (leVal (cellBytes s.mem x 32) < 2 ^ 165 → ∃ u, exec i s = .next u ∧ u.mem = s.mem ∧
          u.prog? = some { p with idx := some (leVal (cellBytes s.mem x 32)), point := false, idle := false }))) ∧
    (∀ d, p.idx = some d → p.buf = [] →
      let f := s.stream (Fin.ofNat 32 (d / 2 ^ 160))
      let va := BitVec.ofNat 64 (d + row * (d / 2 ^ 64 % 2 ^ 32)) + BitVec.ofNat 64 (p.j 0) * sext 32 (d / 2 ^ 96) + BitVec.ofNat 64 (p.j 1) * sext 32 (d / 2 ^ 128)
      (p.done ≤ m.val →
        ((a.row t row).float ≠ (tyFmt o).isSome → exec i s = s.faultAt p .tilekind 0 (256 * w * p.done)) ∧
        ((a.row t row).float = (tyFmt o).isSome →
          let x := drainRow o c none (a.row t row).w
          (∀ pa, j = 0 → s.check va w .write none false = .ok pa → x.1.length = 256 * w → engAt s va (256 * w) .write pa →
            ∃ u, exec i s = .next u ∧ u.prog? = some { p with done := p.done + 1, point := false, idle := false } ∧
              cellBytes u.mem pa (256 * w) = x.1 ∧ sameOutside s u pa (256 * w) ∧ u.array.bits = a.bits ||| x.2 ∧ u.array.tiles = a.tiles) ∧
          (∀ pa, j = 1 → s.check va w .write none false = .ok pa → engAt s va (256 * w) .write pa →
            let y := drainRow o c (some (cellBytes s.mem pa (256 * w))) (a.row t row).w
            y.1.length = 256 * w →
            ∃ u, exec i s = .next u ∧ u.prog? = some { p with done := p.done + 1, point := false, idle := false } ∧
              cellBytes u.mem pa (256 * w) = y.1 ∧ sameOutside s u pa (256 * w) ∧ u.array.bits = a.bits ||| y.2 ∧ u.array.tiles = a.tiles) ∧
          (j = 2 → (s.bank f).mode = 2 → exec i s = .next ((s.putArray { a with bits := a.bits ||| x.2 }).putProg
            { p with streams := insertNat f p.streams, buf := x.1, done := p.done + 1, point := false })))) ∧
      (m.val < p.done → canSend s p k →
        (j = 2 ∨ rcd.donebar = 0 → exec i s = stepOn s p k) ∧
        (j ≠ 2 → rcd.donebar ≠ 0 →
          exec i s = stepOn (s.creditVa s.core.id rcd.donebar (256 * w * (m.val + 1)) false p.pc 3) p k))) ∧
    (∀ d, p.idx = some d → p.buf ≠ [] →
      let f := s.stream (Fin.ofNat 32 (d / 2 ^ 160))
      (s.bank f).mode = 2 → pushes i s p f false)

/-- Tile-task records arrive and issue (R52, R53, R74, R209, R262). The oldest MTASK of the lowest core that has one arrives with its
record's 64 bytes: a record the rules refuse, or at an address that fails its checks, leaves the queue and charges RECREFUSE, or the check's
cause, with its address; any other joins the cluster's records. With none to arrive, the oldest record, its awaited barriers turned without an
error and its ready tokens there, takes them and issues on a free array of those it may take: that array runs its program from its
start, its planes empty and its status bits clear. One that awaits a barrier with ERR that has turned, or at an address that fails its checks,
leaves with BARERR or the check's cause charged to its task. -/
def Obligations.TileTasksComplete : Prop :=
  (∀ (s : State) (cmd : Cmd) (rest : List Cmd), s.core.id % 4 = 0 → s.core.mq = cmd :: rest → cmd.started = false → s.core.seq ≠ .preempted →
    s.core.abortDue = false →
    let g := s.core.id / 4
    (∀ j, j < 4 → (s.coreAt (4 * g + j)).remote = none) →
    let gone := s.core.mq.filter fun m => m.num ≠ cmd.num
    let fails := fun (code : Nat) (fa : W64) => ∃ t r, exec (.tileTaskIssue g) s = .next t ∧ t.core.mq = gone ∧
      t.core.held = s.core.held ++ [r] ∧ r.code = code ∧ r.faddr = fa ∧ (t.cluster g).records = (s.cluster g).records
    (∀ a, s.checkPage s.core.context g cmd.addr 64 .read = .ok a → atHome s a 64 →
      (∀ l ∈ s.walkLines s.core.context (backing g cmd.addr), l ∉ s.lost) →
      let ws := quads (cellBytes s.mem a 64)
      (tileRefused ws = true → fails 0x33 cmd.addr) ∧
      (tileRefused ws = false → ∃ t, exec (.tileTaskIssue g) s = .next t ∧ t.mem = s.mem ∧
        (t.cluster g).records = (s.cluster g).records ++
          [{ core := s.core.id, cmd := { cmd with started := true }, ctx := s.core.context, words := ws, waited := false }])) ∧
    (∀ c fa, s.checkPage s.core.context g cmd.addr 64 .read = .error (c, fa) → fails c.code fa)) ∧
  (∀ (s : State) (r : TileRec) (rest : List TileRec) (k : Nat),
    let g := s.core.id / 4
    let cl := s.cluster g
    (∀ j, j < 4 → (s.coreAt (4 * g + j)).remote = none ∧ ∀ m ∈ (s.coreAt (4 * g + j)).mq, m.started = true) →
    cl.records = r :: rest → r.core = s.core.id → s.core.seq ≠ .preempted → s.core.abortDue = false →
    let seen := fun (b : Nat) => if b = 0 then r.waited else r.waited1
    let fails := fun (code : Nat) (fa : W64) => ∃ t rep, exec (.tileTaskIssue g) s = .next t ∧
      (∀ x ∈ (t.cluster g).records, x ∈ rest ∧ ¬ (x.core = r.core ∧ x.cmd.num = r.cmd.num)) ∧
      t.core.held = s.core.held ++ [rep] ∧ rep.code = code ∧ rep.faddr = fa ∧ rep.engine = 3
    (∀ b, b < 2 → (r.bar b).1 = true → seen b = false → (r.bar (1 - b)).1 = false → r.staddr = 0 → r.donebar = 0 →
      (∀ c fa, s.checkPage s.core.context g (r.bar b).2.2 16 .read = .error (c, fa) → fails c.code fa) ∧
      (∀ a expect arrived, s.checkPage s.core.context g (r.bar b).2.2 16 .read = .ok a →
        barrierAt s a expect arrived true (r.bar b).2.1 → s.isRemote (r.bar b).2.2 = false → fails 0x2F (r.bar b).2.2)) ∧
    ((∀ b, b < 2 → (r.bar b).1 = true → seen b = true ∨ ∃ a expect arrived, s.checkPage s.core.context g (r.bar b).2.2 16 .read = .ok a ∧
      barrierAt s a expect arrived false (r.bar b).2.1 ∧ s.isRemote (r.bar b).2.2 = false) →
    r.tcnt ≤ (s.core.tok r.tq).1 → r.arrays.find? (fun j => (cl.arr j).run.isNone) = some k → r.tq < 4 →
    ∃ t p, exec (.tileTaskIssue g) s = .next t ∧ ((t.cluster g).arr k).run = some p ∧ ((t.cluster g).arr k).rcd = some r ∧
      ((t.cluster g).arr k).active.state = .empty ∧ ((t.cluster g).arr k).shadow.state = .empty ∧ ((t.cluster g).arr k).bits = 0 ∧
      ((t.cluster g).arr k).tiles = (cl.arr k).tiles ∧
      p.start = quad r.words 1 ∧ p.pc = quad r.words 1 ∧ p.cmd = r.cmd ∧ p.core = r.core ∧ p.stage = 0 ∧ p.loops = [] ∧
      p.up = some r.tq ∧ p.down = some (r.tq ^^^ 1) ∧
      (r.tcnt ≠ 0 → (t.core.tok r.tq) = ((s.core.tok r.tq).1 - r.tcnt, (s.core.tok r.tq).2)) ∧ t.mem = s.mem))

namespace Sys2Proof.Rules

open Sys2Proof.Machine

/-- An access of another device to n bytes of a context's global address passes its checks at its home here, at its cell address (R87,
R385). -/
def homeAt (s : State) (ctx : Nat) (va : W64) (n : Nat) (need : Need) (a : Nat) : Prop :=
  s.devValid = true ∧ isGlobal va = true ∧ globalDev va = s.devid ∧ (s.ctx? ctx).isSome ∧ 0 < n ∧
  s.homeSpans ctx need (n / 4096 + 2) va n = .ok [(a, n)] ∧ atHome s a n

/-- The answer of a request goes to the device that asked, in class C (R385). -/
def answered (s t : State) (dev : Nat) (va : W64) (r : FabricReply) : Prop :=
  t.fabric = s.fabric ++ [{ cls := 3, dev := dev, addr := va, core := 0, data := [], op := none, reply := some r }]

/-- A request of another device is performed: the next state, its answer, and what else holds. -/
def performs (s : State) (src ctx : Nat) (va : W64) (op : RemoteOp) (r : FabricReply) (more : State → Prop) : Prop :=
  ∃ t, exec (.remoteAccess src ctx va op) s = .next t ∧ answered s t src va r ∧ more t

/-- The record of a context at a reference of this device, with no error in it. -/
def recordOf (s : State) (ctx : Nat) (x : W64) (y : Node) : Prop :=
  s.devValid = true ∧ (s.ctx? ctx).isSome ∧ localRef s x ∧ assoc (x.toNat % 2 ^ 20) (s.die (x.toNat / 2 ^ 42 % 4)).nodes = some y ∧
  y.ctx = ctx ∧ y.err = false

end Sys2Proof.Rules

/-- Accesses and commits of other devices are performed at home (R87, R96, R97, R100, R104, R105, R194, R208, R292, R295, R385). A class A
message for a context of this device, at an address that passes its checks here, is performed and answered in class C: a load with the
committed bytes; an engine write with its bytes written and nothing else; an atomic with the old bytes and the line's new tag, the w bytes
being the value of R96; an update by joining the line's fabric partial, no byte of memory changed; a credit by crediting the object; an
accumulating row by its sum and status bits. An address that fails a check, or a context unknown here, is answered with the cause. A commit
batch makes each of its bytes that may be written the committed one under the next commit number, and is acknowledged. -/
def Obligations.RemoteAccessesArePerformed : Prop :=
  (∀ (s : State) (src ctx a : Nat) (va : W64),
    (∀ n, homeAt s ctx va n .read a →
      performs s src ctx va (.load n none) (.data (cellBytes s.mem a n)) fun t => t.mem = s.mem) ∧
    (∀ bs : List Byte, homeAt s ctx va bs.length .write a →
      performs s src ctx va (.write bs) .done fun t => cellBytes t.mem a bs.length = bs ∧ sameOutside s t a bs.length) ∧
    (∀ (k : Fin 10) (z : Bool) (b c : W64) (sc : Scope),
      let w := if z then 8 else 4
      homeAt s ctx va w .write a → (s.lineInfo (lineOf a)).scope = none → a % w = 0 →
      let old := leVal (cellBytes s.mem a w)
      let tag := (s.lineInfo (lineOf a)).tag + 1
      performs s src ctx va (.atomic k.val z b c sc) (.data (cellBytes s.mem a w ++ leBytes 4 tag.toNat)) fun t =>
        leVal (cellBytes t.mem a w) = atomicNew k (8 * w) old (b.toNat % 2 ^ (8 * w)) (c.toNat % 2 ^ (8 * w)) ∧
        sameOutside s t a w ∧ (t.lineInfo (lineOf a)).tag = tag) ∧
    (∀ (u : UpdTag) (b : W64) (sc : Scope), homeAt s ctx va (updBytes u) .write a → (s.lineInfo (lineOf a)).scope = none →
      s.hasRoom (lineOf a / 4) = true →
      performs s src ctx va (.upd u b sc) .done fun t => t.mem = s.mem ∧ (t.dirLine (lineOf a)).hs = .upd ∧
        (t.dirLine (lineOf a)).op = some u ∧ (t.dirLine (lineOf a)).fab = some ((Partial.identity u).apply (a % 128) b.toNat)) ∧
    (∀ (e : Bool) (v expect arrived : Nat) (err turn : Bool), homeAt s ctx va 16 .write a → barrierAt s a expect arrived err turn →
      performs s src ctx va (.barrier (if e then 3 else 2) v none) (.data (cellBytes s.mem a 16)) fun t =>
        leVal (cellBytes t.mem a 16) = credited expect arrived err turn v e ∧ sameOutside s t a 16) ∧
    (∀ (o : Ty) (c : Bool) (row : List W32), homeAt s ctx va (256 * (tyWidth o / 8)) .write a →
      let x := drainRow o c (some (cellBytes s.mem a (256 * (tyWidth o / 8)))) row
      x.1.length = 256 * (tyWidth o / 8) →
      performs s src ctx va (.accRow o c row) (.data (leBytes 8 x.2)) fun t =>
        cellBytes t.mem a x.1.length = x.1 ∧ sameOutside s t a x.1.length) ∧
    (∀ (bs : List Byte) (n : Nat) (c : Cause) (fa : W64), s.devValid = true → isGlobal va = true → globalDev va = s.devid →
      ((s.ctx? ctx) = none → performs s src ctx va (.load n none) (.refused 0x15 va) (fun t => t.mem = s.mem) ∧
        performs s src ctx va (.write bs) (.refused 0x15 va) fun t => t.mem = s.mem) ∧
      ((s.ctx? ctx).isSome → 0 < n → s.homeSpans ctx .read (n / 4096 + 2) va n = .error (c, fa) →
        performs s src ctx va (.load n none) (.refused c.code va) fun t => t.mem = s.mem))) ∧
  (∀ (s : State) (src ctx : Nat) (cells : List Host.Cell), s.devValid = true →
    let v := (cells.filterMap (s.batchCell ctx)).foldl (fun acc c => verPut acc c.1 c.2) []
    (∀ c ∈ v, s.settled (lineOf c.1) = true ∧ (s.dirLine (lineOf c.1)).hs ≠ .upd) → Memory.wf s.mem = true →
    ∃ t, exec (.remoteCommitBatch src ctx cells) s = .next t ∧ answered s t src 0 (.ack s.devid) ∧
      t.commitNo = (if s.commitNo = 2 ^ 48 - 1 then 1 else s.commitNo + 1) ∧
      ∀ a, a < physTop → cellGet t.mem a = (match verGet v a with | some b => b | none => cellGet s.mem a))

/-- Node requests of other devices, forwarded walks, answers, timeouts and reports (R103, R127, R129, R130, R131, R132, R334, R385, R92, R104,
R384, R387). For another device: a read of a record's quadword answers it, NINIT replaces the mask's groups and answers done,
NALLOC.free frees its records, NSEL of a record without children answers all ones, and a walk from a root record acts on it and answers
done; a reference to no record of the context answers NODEREF. WALK_FORWARD takes a forwarded walk on: at a record of this device the
record takes its action; below a root the walk goes on to the parent, and at a root the strand that waits goes on to the next word, or the
device that asked is answered; a node of another device sends the walk there in class A, and its strand, or the device that asked, waits for
the answer. An acknowledgement ends the oldest one that the device owes the core;
a fault of a credit that the core sent is charged to the task that sent it while that task runs; an answer that fits the question a core
waits with becomes its answer, once, but for one that tells where a walk has gone on to, whose end is then awaited; a question unanswered for 50
microseconds (5 ms outside the pod) is answered with REMOTE at the node last reached; a hint refused or unanswered so long is dropped and
counted; an answer nobody waits for does not happen. When a report's period has passed, a report leaves in class C for its destination, or is
written there in this device's own memory, numbered one more than
the last, its low bits its version 1, the next period counted from this one's end. -/
def Obligations.NodeRequestsAndAnswers : Prop :=
  ((∀ (s : State) (src ctx : Nat) (x : W64),
     (∀ y, recordOf s ctx x y →
       let after := fun (t : State) => assoc (x.toNat % 2 ^ 20) (t.die (x.toNat / 2 ^ 42 % 4)).nodes
       (∀ k, k < 4 → performs s src ctx x (.nodeRead k) (.data (leBytes 8 (y.bits.toNat / 2 ^ (64 * k) % 2 ^ 64))) fun t => t.mem = s.mem) ∧
       (∀ m img, performs s src ctx x (.nodeInit m img) .done fun t =>
         after t = some { y with bits := nodeInit y.bits (BitVec.ofNat 256 (leVal img)) m } ∧ t.mem = s.mem) ∧
       performs s src ctx x (.nodeFree 1) .done (fun t => after t = none) ∧
       (∀ fpu cpuct vlv, y.bits.getLsbD 114 = false → performs s src ctx x (.nodeSelect fpu cpuct vlv) (.data (leBytes 8 (2 ^ 64 - 1))) fun t =>
         t.mem = s.mem ∧ after t = some y) ∧
       (∀ kind v d k, kind < 3 → k < 4096 → y.bits.getLsbD 113 = true → performs s src ctx x (.walk kind v d k) .done fun t =>
         ∃ z, after t = some { y with bits := z } ∧ z.toNat = climbed kind 0 v d y.bits ∧ t.mem = s.mem)) ∧
     (∀ k, s.devValid = true → localRef s x → (s.ctx? ctx).isSome → s.node? ctx x = none →
       performs s src ctx x (.nodeRead k) (.refused 0x0A x) fun t => t.mem = s.mem)) ∧
   (∀ (s : State) (k : Nat) (f : WalkFwd), s.walks[k]? = some f →
     (∀ y, recordOf s f.ctx f.node y → f.kind < 3 → f.k < 4096 →
       let acted := fun (t : State) => t.mem = s.mem ∧ ∃ z,
         assoc (f.node.toNat % 2 ^ 20) (t.die (f.node.toNat / 2 ^ 42 % 4)).nodes = some { y with bits := z } ∧
         z.toNat = climbed f.kind 0 f.v f.d y.bits
       let done := fun (t : State) => t.walks = s.walks.eraseIdx k ∧ acted t
       (y.bits.getLsbD 113 = false → ∃ t, exec (.walkForward k) s = .next t ∧ acted t ∧ t.core = s.core ∧
         t.walks = s.walks.eraseIdx k ++ [{ f with
           node := BitVec.ofNat 64 (y.bits.toNat / 2 ^ 128), v := if f.kind = 2 then f.v ^^^ 0x80000000 else f.v, k := f.k + 1 }]) ∧
       (y.bits.getLsbD 113 = true →
         (f.src = none → f.core = s.core.id → f.waited s.core = true → ∃ t, exec (.walkForward k) s = .next t ∧ done t ∧
           t.core = s.core.next) ∧
         (f.src = none → f.core = s.core.id → f.waited s.core = false → ∃ t, exec (.walkForward k) s = .next t ∧ done t ∧ t.core = s.core) ∧
         (∀ dev, f.src = some dev → ∃ t, exec (.walkForward k) s = .next t ∧ done t ∧ answered s t dev f.asked .done))) ∧
     (nodeRefBad f.node = false → refDev f.node ≠ s.devid →
       (f.src = none → f.core = s.core.id → f.waited s.core = true → s.core.remote = none →
         s.devValid = true → ∃ t, exec (.walkForward k) s = .next t ∧ t.walks = s.walks.eraseIdx k ∧ t.core.micro = 2 ∧
           t.core.pc = s.core.pc ∧ t.fabric = s.fabric ++ [{ cls := 0, dev := refDev f.node, addr := f.node, core := s.core.id, data := [], op := some (.walk f.kind f.v f.d f.k) }]) ∧
       (∀ dev, f.src = some dev → ∃ t, exec (.walkForward k) s = .next t ∧ t.walks = s.walks.eraseIdx k ∧ t.core = s.core ∧ t.mem = s.mem ∧
         t.fabric = s.fabric ++
           [{ cls := 3, dev := dev, addr := f.asked, core := 0, data := [], op := none, reply := some (.data (leBytes 8 f.node.toNat)) },
            { cls := 0, dev := refDev f.node, addr := f.node, core := 0, data := [], op := some (.walk f.kind f.v f.d f.k), via := some dev }])))) ∧
  ((∀ (s : State) (dev : Nat) (a : Nat × Nat), s.core.acks.find? (fun x => x.2 == dev) = some a →
     exec (.fabricAnswer s.core.id (.ack dev)) s = .next { s with core := { s.core with acks := s.core.acks.erase a } }) ∧
   (∀ (s : State) (c : Cause) (addr : W64) (task : W32) (word : W64) (engine : Nat) (k : Credit),
     s.creditSent s.core.id addr task word engine = some k → (c = .pageflt ∨ c = .prot ∨ c = .buserr ∨ c = .remote ∨ c = .barcredit) →
     let runs := s.core.context = k.ctx ∧ s.core.taskid = task ∧ s.core.seq ≠ .idle
     (runs → ∃ t r, exec (.fabricAnswer s.core.id (.creditFault c.code addr task word engine)) s = .next t ∧
       t.core.held = s.core.held ++ [r] ∧ r.code = c.code ∧ r.faddr = addr ∧ r.waddr = word ∧ r.engine = engine) ∧
     (¬ runs → ∃ t, exec (.fabricAnswer s.core.id (.creditFault c.code addr task word engine)) s = .next t ∧ t.core = s.core)) ∧
   (∀ (s : State) (q : RemoteReq) (r : FabricReply), s.core.remote = some q → q.answer = none → s.fits s.core.id q r = true →
     let walk := ∃ m k v d n, s.question s.core.id q = some m ∧ m.op = some (.walk k v d n)
     ((¬ walk ∨ ∀ bs, r ≠ .data bs) → exec (.fabricAnswer s.core.id r) s =
       .next { s with core := { s.core with remote := some { q with answer := some r } } }) ∧
     (∀ bs, walk → r = .data bs → exec (.fabricAnswer s.core.id r) s =
       .next { s with core := { s.core with remote := some { q with
         dev := refDev (BitVec.ofNat 64 (leVal bs)), since := s.clock, reached := some (BitVec.ofNat 64 (leVal bs)) } } })) ∧
   (∀ (s : State) (r : FabricReply), (∀ q, s.core.remote = some q → q.answer.isSome) → s.core.acks = [] → s.core.hints = [] →
     (∀ c a t w e, r ≠ .creditFault c a t w e) → notNow (.fabricAnswer s.core.id r) s) ∧
   (∀ (s : State) (h : HintReq) (rest : List HintReq), s.core.remote = none → s.core.hints = h :: rest →
     let mhz := if s.power.current = 0 then 1400 else if s.power.current = 1 then 1050 else 700
     let us := if globalDev h.addr / 1024 = s.devid / 1024 then 50 else 5000
     let dropped := fun (i : Instr) => ∃ t, exec i s = .next t ∧ t.core.hints = rest ∧ t.mem = s.mem ∧
       t.core.hintdrop = (if s.core.hintdrop = BitVec.allOnes 64 then s.core.hintdrop else s.core.hintdrop + 1)
     (∀ c v, dropped (.fabricAnswer s.core.id (.refused c v))) ∧
     (h.since + us * mhz ≤ s.clock → dropped (.fabricTimeout s.core.id))) ∧
   (∀ (s : State) (q : RemoteReq), s.core.remote = some q → q.answer = none →
     let mhz := if s.power.current = 0 then 1400 else if s.power.current = 1 then 1050 else 700
     let us := if q.dev / 1024 = s.devid / 1024 then 50 else 5000
     (q.since + us * mhz ≤ s.clock → exec (.fabricTimeout s.core.id) s =
       .next { s with core := { s.core with remote := some { q with answer := some (.refused 0x15 (q.reached.getD q.addr)) } } }) ∧
     (s.clock < q.since + us * mhz → s.core.hints = [] → notNow (.fabricTimeout s.core.id) s)) ∧
   (∀ (s : State),
     let m := s.telemetry
     let mhz := if s.power.current = 0 then 1400 else if s.power.current = 1 then 1050 else 700
     let next := { m with reports := m.reports + 1, lastReport := m.lastReport + m.period * mhz }
     let tells := fun (bs : List Byte) => bs.length = 64 ∧
       let x := leVal bs
       x % 2 ^ 8 = 1 ∧ x / 2 ^ 384 % 2 ^ 20 = s.devid % 2 ^ 20 ∧ x / 2 ^ 416 % 2 ^ 32 = (m.reports + 1) % 2 ^ 32 ∧
       x / 2 ^ 448 = s.clock / 2 % 2 ^ 64
     (m.period ≠ 0 → s.devValid = true → m.lastReport + m.period * mhz ≤ s.clock →
       (s.isRemote m.dest = true → ∃ t msg, exec .residencyReport s = .next t ∧
         t.fabric = s.fabric ++ [msg] ∧ msg.cls = 3 ∧ msg.dev = globalDev m.dest ∧ msg.addr = m.dest ∧ tells (msg.data.map fun c => c.2) ∧
         t.telemetry = next ∧ t.mem = s.mem) ∧
       (∀ a, s.isRemote m.dest = false → s.engPage m.ctx 0 m.dest 64 .write = .ok a → atHome s a 64 →
         ∃ t, exec .residencyReport s = .next t ∧ t.fabric = s.fabric ∧ tells (cellBytes t.mem a 64) ∧ sameOutside s t a 64 ∧
           t.telemetry = next)) ∧
     ((m.period = 0 ∨ s.devValid = false ∨ s.clock < m.lastReport + m.period * mhz) → notNow .residencyReport s)))

namespace Sys2Proof.Rules

open Sys2Proof.Machine

/-- Ralzer serves command cmd, taken with journal number j, of opcode opc: it is well formed, and its place in the completion ring is not
held back (R392). -/
def serves (s : State) (cmd : AdminCmd) (j opc : Nat) : Prop :=
  s.admin.pending = some (cmd, j) ∧ cmd.opc.toNat = opc ∧ cmdBad cmd = false ∧
  s.quiet (ringBase s.admin.acq + 32 * (s.admin.served % 2 ^ ringLog s.admin.asqbase)) 32 = true

/-- The command completes with a status and results in a state whose effect is made. -/
def completes (i : Instr) (cmd : AdminCmd) (j st res0 : Nat) (s u : State) : Prop := exec i s = .next (u.finishCmd cmd j st res0 0)

/-- The command is refused: nothing changes but its completion (R390). -/
def refuses (i : Instr) (s : State) (cmd : AdminCmd) (j st : Nat) : Prop := completes i cmd j st 0 s s

/-- The rows of the admin commands, by opcode (R390). -/
noncomputable def rowOf (cmd : AdminCmd) : List (Nat × Instr) :=
  [(0x01, .ctxCreate cmd), (0x02, .ctxDestroy cmd), (0x10, .qCreate cmd), (0x11, .qBind cmd), (0x12, .qArm cmd), (0x13, .qDestroy cmd),
   (0x20, .memMap cmd), (0x21, .memUnmap cmd)] ++
  [(0x30, .codeLoad cmd), (0x40, .kvPool cmd), (0x41, .kvReserve cmd), (0x50, .limits cmd), (0x51, .carousel cmd), (0x60, .attest cmd),
   (0x70, .journalRead cmd), (0x80, .clusterReset cmd), (0x90, .telemetry cmd)]

/-- A range of data memory outside the firmware region (R374). -/
def dataOk (a n : Nat) : Prop := a + n ≤ physTop ∧ (a + n ≤ 0x3C00000000 ∨ 0x4000000000 ≤ a)

end Sys2Proof.Rules

/-- The host's reads and writes; Ralzer takes, journals, refuses and completes commands (R6, R283, R373, R374, R376, R378, R388, R389, R390,
R392, R393, R399). A host read of data memory outside the firmware region, with nothing held back there, gives its committed bytes, and one
of the tables' part of the region zeros; a host write outside it writes its bytes and no other, and one within it is dropped and counted.
ASQTAIL is raised to the greater value; ASQBASE and ACQ take their fields, res bits clear, unless commands are pending; an 8-byte write to a
register without a behaviour of its own stores PSTATE or POWERCAP (at the model's offsets, log 17) or nothing; DEVASSIGN with its valid bit,
after bring-up, assigns the device id once. With READY, a command available and both rings on, the row of the next command's opcode takes
it: it is journaled under JNEXT with KIND 0 and STATUS 0xFF and is the one served. A served command with an unassigned opcode or a set res
bit completes with BADCMD, and one that needs a context with none of its number completes with NOCTX, nothing else changed. Before the link is trained nothing of
the host is served, and no data memory before the stacks are. A completion
puts PH, CID, STATUS, the journal number and the results into its 32 bytes of the ring, makes ACQDONE one more and raises vector 0; the
command is no longer pending. -/
def Obligations.HostAccessesAndAdminService : Prop :=
  ((∀ (s : State) (a n : Nat), s.pcieTrained = true → 4 ≤ s.bringup → a < physTop → a + n ≤ physTop → s.quiet a n = true → (∀ l ∈ linesAt a n, (s.dirLine l).hs ≠ .upd) →
     ((a + n ≤ 0x3C00000000 ∨ 0x4000000000 ≤ a) → ∃ t, exec (.hostRead a n) s = .next t ∧ t.hostData = cellBytes s.mem a n ∧ t.mem = s.mem ∧
       t.core = s.core) ∧
     (0x3C08000000 ≤ a → a + n ≤ 0x4000000000 → ∃ t, exec (.hostRead a n) s = .next t ∧ t.hostData = List.replicate n 0 ∧ t.mem = s.mem)) ∧
   (∀ (s : State) (a : Nat) (bs : List Byte), s.pcieTrained = true → 4 ≤ s.bringup → a + bs.length ≤ physTop → s.quiet a bs.length = true → bs ≠ [] → Memory.wf s.mem = true →
     (∀ l ∈ linesAt a bs.length, (s.dirLine l).hs ≠ .upd) →
     ((a + bs.length ≤ 0x3C00000000 ∨ 0x4000000000 ≤ a) → ∃ t, exec (.hostWrite a bs) s = .next t ∧ cellBytes t.mem a bs.length = bs ∧
       sameOutside s t a bs.length ∧ t.core = s.core ∧ t.telemetry = s.telemetry) ∧
     (0x3C00000000 ≤ a → a + bs.length ≤ 0x4000000000 → exec (.hostWrite a bs) s =
       .next { s with telemetry := { s.telemetry with droppedWrites := s.telemetry.droppedWrites + 1 } })) ∧
   (∀ (s : State) (v : W64) (n m : Nat) (acq : Bool) (bs : List Byte),
     (s.pcieTrained = false → notNow (.asqtail v) s ∧ notNow (.adminRingBaseWrite acq v) s ∧ notNow (.registerWrite n v) s ∧
       notNow (.hostRead n m) s ∧ notNow (.hostWrite n bs) s) ∧
     (s.bringup < 4 → n < physTop → notNow (.hostRead n m) s ∧ notNow (.hostWrite n bs) s)) ∧
   (∀ (s : State) (v : W64) (n : Nat), s.pcieTrained = true →
     exec (.asqtail v) s = .next { s with admin := { s.admin with asqtail := max s.admin.asqtail v.toNat } } ∧
     exec (.hostWrite 0x8001800010 (leBytes 8 v.toNat)) s = exec (.asqtail v) s ∧
     (s.admin.served < s.admin.asqtail → exec (.adminRingBaseWrite false v) s = .next s ∧ exec (.adminRingBaseWrite true v) s = .next s) ∧
     (s.admin.asqtail ≤ s.admin.served → ∃ w : W64, w.toNat = v.toNat / 2 ^ 12 * 2 ^ 12 + v.toNat % 16 ∧
       exec (.adminRingBaseWrite false v) s = .next { s with admin := { s.admin with asqbase := w } } ∧
       exec (.adminRingBaseWrite true v) s = .next { s with admin := { s.admin with acq := w } }) ∧
     exec (.registerWrite 0x1801000 v) s = .next { s with power := { s.power with allowed := v.toNat % 4 } } ∧
     exec (.registerWrite 0x1801008 v) s = .next { s with power := { s.power with powercap := v } } ∧
     (n ≠ 0x1801000 → n ≠ 0x1801008 → exec (.registerWrite n v) s = .next s)) ∧
   (∀ (s : State) (v : W64),
     (s.bringup = 5 → s.devValid = false → v.toNat / 2 ^ 20 % 2 = 1 → exec (.devassign v) s = .next { s with devid := v.toNat % 2 ^ 20, devValid := true }) ∧
     (s.bringup = 5 → (s.devValid = true ∨ v.toNat / 2 ^ 20 % 2 = 0) → exec (.devassign v) s = .next s) ∧
     (s.bringup ≠ 5 → notNow (.devassign v) s))) ∧
  ((∀ (s : State) (cmd : AdminCmd) (opc : Nat) (i : Instr), (opc, i) ∈ rowOf cmd →
     let pa := ringBase s.admin.asqbase + 64 * (s.admin.served % 2 ^ ringLog s.admin.asqbase)
     (s.admin.pending = none → s.admin.ready = true → s.admin.served < s.admin.asqtail → ringOn s.admin.asqbase = true → ringOn s.admin.acq = true →
       s.quiet pa 64 = true → (∀ l ∈ linesAt pa 64, (s.dirLine l).hs ≠ .upd) → cmdOf (cellBytes s.mem pa 64) = cmd → cmd.opc.toNat = opc →
       ∃ t, exec i s = .next t ∧ t.admin.pending = some (cmd, s.admin.jnext) ∧ t.admin.jnext = s.admin.jnext + 1 ∧
         t.admin.served = s.admin.served ∧ t.admin.mirror.find? (fun e => e.1 == s.admin.jnext) =
           some (s.admin.jnext, journalBytes s.admin.jnext 0 cmd.ctx.toNat 0xFF s.cycle (leVal (cellBytes s.mem pa 64)) none)) ∧
     (∀ j, s.admin.pending = some (cmd, j) → (cmd.opc.toNat = opc ∨ adminMasks cmd.opc.toNat = none) →
       s.quiet (ringBase s.admin.acq + 32 * (s.admin.served % 2 ^ ringLog s.admin.asqbase)) 32 = true →
       (cmdBad cmd = true → refuses i s cmd j 0x01) ∧
       (cmdBad cmd = false → opc ∉ [0x01, 0x40, 0x41, 0x51, 0x80] → s.ctx? cmd.ctx.toNat = none → refuses i s cmd j 0x02))) ∧
   (∀ (s : State) (cmd : AdminCmd) (j st r0 r1 : Nat),
     let k := s.admin.served
     let a := ringBase s.admin.acq + 32 * (k % 2 ^ ringLog s.admin.asqbase)
     let t := s.finishCmd cmd j st r0 r1
     t.admin.pending = none ∧ t.admin.acqdone = k + 1 ∧ t.admin.served = k + 1 ∧ t.msix = 0 :: s.msix ∧ t.core = s.core ∧
     (Memory.wf s.mem = true → dataOk a 32 → st < 256 →
       let x := leVal (cellBytes t.mem a 32)
       x % 2 = (if k / 2 ^ ringLog s.admin.acq % 2 = 0 then 1 else 0) ∧ x / 2 ^ 16 % 2 ^ 16 = cmd.cid.toNat ∧ x / 2 ^ 32 % 2 ^ 8 = st ∧
       x / 2 ^ 64 % 2 ^ 64 = j % 2 ^ 64 ∧ x / 2 ^ 128 % 2 ^ 64 = r0 % 2 ^ 64 ∧ x / 2 ^ 192 = r1 % 2 ^ 64)))

/-- Commands for contexts, queues, limits and the Carousel (R116, R128, R222, R234, R256, R284, R316, R377, R386, R390). CTX.CREATE within its ranges
makes the context of the lowest free identifier with its parameters and empty images, and gives the identifier; CTX.DESTROY of a context
with no queue, its work where it can be cut, removes it, and its launches, node records and frames with it. Q.CREATE makes the queue with its fields and all its counts 0,
refused BUSY when it exists; Q.BIND sets the valid source ranges, Q.ARM whether it may be named, Q.DESTROY is refused BUSY while it is
bound, and otherwise, its records readable, it is gone; a queue not the context's is RANGE. LIMITS sets the four limits. CAROUSEL is BUSY when another context holds it, releases it, or
grants it with the table named, its lines read as an engine reads them, once no circuit step of the context runs on the die; then CARBASE of the context's strands there is the
table's address, and 0 after a release. -/
def Obligations.ContextAndQueueCommandsComplete : Prop :=
  (∀ (s : State) (cmd : AdminCmd) (j i : Nat), serves s cmd j 0x01 →
    let p1 := cmd.p1.toNat
    let ok := p1 % 4096 = 0 ∧ 4096 ≤ p1 ∧ p1 ≤ 2 ^ 24 ∧ cmd.p2.toNat % 4096 = 0 ∧ dataOk cmd.p2.toNat (1024 * p1) ∧ cmd.p3.toNat % 2 ^ 21 = 0 ∧
      cmd.p4.toNat % 64 = 0 ∧ cmd.p4.toNat < 2 ^ 48
    (¬ ok → refuses (.ctxCreate cmd) s cmd j 0x08) ∧
    (ok → 1 ≤ i → i ≤ 4095 → s.ctx? i = none → (∀ k, 1 ≤ k → k < i → (s.ctx? k).isSome) → (s.newCtx cmd i).roomInFirmware = true →
      ∃ u c, completes (.ctxCreate cmd) cmd j 0 i s u ∧ u.contexts = s.contexts ++ [c] ∧ c.id = i ∧ c.tvec.toNat = cmd.p0.toNat / 64 * 64 ∧
        c.rngcfg.toNat = cmd.p0.toNat % 2 ∧ c.stackBytes = p1 ∧ c.spillBytes = cmd.p3.toNat ∧ c.xrbase = cmd.p4 ∧ c.images = [] ∧
        u.core = s.core)) ∧
  (∀ (s : State) (cmd : AdminCmd) (j : Nat) (c : Context), serves s cmd j 0x02 → s.ctx? cmd.ctx.toNat = some c →
    (∀ q ∈ s.queues, q.ctx ≠ c.id) → s.ctxCuttable c.id = true → ∃ u, completes (.ctxDestroy cmd) cmd j 0 0 s u ∧ u.ctx? c.id = none ∧
      (∀ l ∈ u.launches, l.ctx ≠ c.id) ∧ (∀ x ∈ u.die0.nodes, x.2.ctx ≠ c.id) ∧ (∀ x ∈ u.die1.nodes, x.2.ctx ≠ c.id) ∧
      (∀ x ∈ u.chip0.frames, x.2.ctx ≠ c.id) ∧ (∀ x ∈ u.chip1.frames, x.2.ctx ≠ c.id) ∧ u.car0.holder ≠ some c.id ∧ u.car1.holder ≠ some c.id) ∧
  (∀ (s : State) (cmd : AdminCmd) (j : Nat), serves s cmd j 0x10 → (s.ctx? cmd.ctx.toNat).isSome →
    let n := cmd.p1.toNat % 32
    let ring := cmd.p1.toNat / 4096 * 4096
    let w := cmd.p3.toNat / 2 ^ 8 % 2 ^ 8
    let vec := cmd.p3.toNat / 2 ^ 32 % 2 ^ 11
    let on := cmd.p3.toNat / 2 ^ 43 % 2 = 1
    let ok := 1 ≤ n ∧ n ≤ 16 ∧ w ≠ 0 ∧ (on → vec ≠ 0) ∧ dataOk ring (128 * 2 ^ n) ∧ dataOk cmd.p2.toNat (64 * 2 ^ n)
    (¬ ok → refuses (.qCreate cmd) s cmd j 0x08) ∧
    (ok → (∃ q ∈ s.queues, q.id = cmd.p0.toNat) → refuses (.qCreate cmd) s cmd j 0x04) ∧
    (ok → (∀ q ∈ s.queues, q.id ≠ cmd.p0.toNat) → ∃ u q, completes (.qCreate cmd) cmd j 0 0 s u ∧ u.queue? cmd.p0.toNat = some q ∧
      (∀ x, x ∈ u.queues ↔ x = q ∨ x ∈ s.queues) ∧ q.ctx = cmd.ctx.toNat ∧ q.log2n = n ∧ q.ring = ring ∧ q.cring = cmd.p2.toNat ∧
      q.pclass = cmd.p3.toNat % 4 ∧ q.weight = w ∧ (q.window = true ↔ cmd.p3.toNat / 2 ^ 16 % 2 = 1) ∧ q.vec = vec ∧ (q.vecOn = true ↔ on) ∧
      q.tail = 0 ∧ q.taken = 0 ∧ q.done = 0 ∧ q.resident = false ∧ q.sources = [] ∧ q.comps = [])) ∧
  (∀ (s : State) (cmd : AdminCmd) (j opc : Nat) (i : Instr), (opc, i) ∈ [(0x11, Instr.qBind cmd), (0x12, .qArm cmd), (0x13, .qDestroy cmd)] →
    serves s cmd j opc → (s.ctx? cmd.ctx.toNat).isSome →
    ((∀ q, s.queue? cmd.p0.toNat = some q → q.ctx ≠ cmd.ctx.toNat) → refuses i s cmd j 0x08) ∧
    (∀ q, s.queue? cmd.p0.toNat = some q → q.ctx = cmd.ctx.toNat →
      (opc = 0x11 → completes i cmd j 0 0 s (s.mapQueue cmd.p0.toNat fun x => { x with
        sources := ([cmd.p1, cmd.p2, cmd.p3, cmd.p4].filter fun p => p.toNat / 2 ^ 40 % 2 == 1).map fun p => (p.toNat % 2 ^ 20, p.toNat / 2 ^ 20 % 2 ^ 20) })) ∧
      (opc = 0x12 → completes i cmd j 0 0 s (s.mapQueue cmd.p0.toNat fun x => { x with armable := cmd.p1.toNat % 2 == 1 })) ∧
      (opc = 0x13 → q.boundTo.isSome → refuses i s cmd j 0x04) ∧
      (opc = 0x13 → q.boundTo = none → s.recordsQuiet q = true → ∃ u, completes i cmd j 0 0 s u ∧ u.queue? cmd.p0.toNat = none))) ∧
  (∀ (s : State) (cmd : AdminCmd) (j : Nat), serves s cmd j 0x50 → (s.ctx? cmd.ctx.toNat).isSome →
    completes (.limits cmd) cmd j 0 0 s (s.mapCtx cmd.ctx.toNat fun c => { c with
      limTrees := cmd.p0.toNat, limClusters := cmd.p1.toNat, limSegs := cmd.p2.toNat, limNodes := cmd.p3.toNat })) ∧
  (∀ (s : State) (cmd : AdminCmd) (j : Nat), serves s cmd j 0x51 →
    let die := cmd.p0.toNat % 2
    let grant := cmd.p0.toNat / 2 % 2 = 1
    let h := (s.car die).holder
    let me := cmd.ctx.toNat
    (∀ o, h = some o → o ≠ me → refuses (.carousel cmd) s cmd j 0x04) ∧
    (h = none → ¬ grant → refuses (.carousel cmd) s cmd j 0x00) ∧
    (h = some me → ¬ grant → ∃ u, completes (.carousel cmd) cmd j 0 0 s u ∧ (u.car die).holder = none ∧ (u.car die).table = [] ∧
      (u.core.ctx = some me → u.core.id / 512 = die → u.core.carbase = 0)) ∧
    ((h = none ∨ h = some me) → grant → (2 ^ 48 ≤ cmd.p1.toNat ∨ s.carFirst me (512 * die) cmd.p1 = none ∧
        (cmd.p1 ≠ 0 ∧ s.carTable me (512 * die) cmd.p1 = none ∨ cmd.p1 = 0 ∧ s.ctx? me = none)) →
      refuses (.carousel cmd) s cmd j 0x08) ∧
    (∀ es, (h = none ∨ h = some me) → grant → cmd.p1.toNat < 2 ^ 48 → s.carFirst me (512 * die) cmd.p1 = none →
      (cmd.p1 ≠ 0 ∧ s.carTable me (512 * die) cmd.p1 = some es ∨ cmd.p1 = 0 ∧ es = [] ∧ (s.ctx? me).isSome) → s.carBusy me die = false →
      ∃ u, completes (.carousel cmd) cmd j 0 0 s u ∧ (u.car die) = { holder := some me, granted := cmd.p1, base := cmd.p1, table := es } ∧
        (u.core.ctx = some me → u.core.id / 512 = die → u.core.carbase = cmd.p1)))

/-- Commands for memory, images, pools, attestation, the journal, clusters and telemetry (R54, R81, R225, R262, R296, R387, R390, R391,
R393, R396). MEM.MAP within its ranges writes the leaves of its range with its permissions, with zero-fill makes its bytes zero, and
completes; MEM.UNMAP of a range with nothing mapped completes once no shootdown is under way, and otherwise first takes
the range's leaves away; CODE.LOAD of an image that passes R54 and R391
gives its handle, and appends the image; KV.POOL sets the page size and the number of pages, BUSY while a frame is held; KV.RESERVE sets the
reserve; ATTEST with an index left writes its 3,076 bytes with the nonce first and, after the 256 bytes of
its header, the one-time index in 4 bytes, the most significant first, and uses the index; JOURNAL.READ writes the entries that are
held and zeros for others and gives their number; CLUSTER.RESET of a cluster with no launch, its work where it can be cut, leaves every bank in
cache mode and the token counters 0, those of strands put aside too; TELEMETRY sets the period and destination. Ranges not allowed give RANGE. -/
def Obligations.DeviceCommandsComplete : Prop :=
  (∀ (s : State) (cmd : AdminCmd) (j : Nat) (c : Context), s.ctx? cmd.ctx.toNat = some c →
    (serves s cmd j 0x20 →
      let n := cmd.p2.toNat
      let code := cmd.p3.toNat / 2 ^ 5 % 8
      let z := pageBytes code
      let f := fun k => cmd.p3.toNat / 2 ^ k % 2 = 1
      let root := if f 3 then (c.rootG, 43) else (c.rootL, 48)
      let ok := code ≤ 4 ∧ 0 < n ∧ cmd.p0.toNat % z = 0 ∧ cmd.p1.toNat % z = 0 ∧ n % z = 0 ∧ cmd.p0.toNat + n ≤ 2 ^ root.2 ∧
        cmd.p1.toNat + n ≤ physTop ∧ dataOk cmd.p1.toNat n ∧ ¬ f 8
      (n = 0 → refuses (.memMap cmd) s cmd j 0x08) ∧
      (ok → ¬ f 4 → (s.mapRange root.1 cmd.p0.toNat cmd.p1.toNat n code (decide (f 0), decide (f 1), decide (f 2))).roomInFirmware = true →
        completes (.memMap cmd) cmd j 0 0 s (s.mapRange root.1 cmd.p0.toNat cmd.p1.toNat n code (decide (f 0), decide (f 1), decide (f 2)))) ∧
      (ok → f 4 → s.quiet cmd.p1.toNat n = true → Memory.wf s.mem = true → ∀ u,
        u = s.mapRange root.1 cmd.p0.toNat cmd.p1.toNat n code (decide (f 0), decide (f 1), decide (f 2)) → u.roomInFirmware = true →
        ∃ v, completes (.memMap cmd) cmd j 0 0 s v ∧ ∀ x, cmd.p1.toNat ≤ x → x < cmd.p1.toNat + n → cellGet v.mem x = 0)) ∧
    (serves s cmd j 0x21 →
      let n := cmd.p2.toNat
      let root := if cmd.p3.toNat / 8 % 2 = 1 then (c.rootG, 43) else (c.rootL, 48)
      (n = 0 → refuses (.memUnmap cmd) s cmd j 0x08) ∧
      (0 < n → n % 4096 = 0 → cmd.p0.toNat % 4096 = 0 → cmd.p0.toNat + n ≤ 2 ^ root.2 → s.anyMapped root.1 cmd.p0.toNat n = false →
        s.shooting = false → completes (.memUnmap cmd) cmd j 0 0 s s) ∧
      (0 < n → n % 4096 = 0 → cmd.p0.toNat % 4096 = 0 → cmd.p0.toNat + n ≤ 2 ^ root.2 → s.anyMapped root.1 cmd.p0.toNat n = true →
        let u := s.unmapRange root.1 cmd.p0.toNat n (n / 4096)
        u.roomInFirmware = true →
        (u.shooting = false → completes (.memUnmap cmd) cmd j 0 0 s u) ∧ (u.shooting = true → exec (.memUnmap cmd) s = .next u))) ∧
    (serves s cmd j 0x30 →
      let img := cmd.p0.toNat
      let n := cmd.p1.toNat
      let ok := dataOk img n ∧ cmd.p2.toNat % 4096 = 0 ∧ dataOk cmd.p2.toNat cmd.p3.toNat ∧ s.quiet img n = true ∧
        s.quiet cmd.p2.toNat cmd.p3.toNat = true ∧ ∀ l ∈ linesAt img n, (s.dirLine l).hs ≠ .upd
      (ok → elfSections (cellBytes s.mem img n) = none → ∃ u, completes (.codeLoad cmd) cmd j 0x05 0 s u ∧ u.mem = s.mem) ∧
      (∀ l, ok → elfSections (cellBytes s.mem img n) = some l →
        let secs := l.foldl (fun acc x => insertSection x acc) []
        sectionsBad secs = false → (∀ x ∈ secs, s.anyMapped c.rootL x.addr x.bytes.length = false) →
        (secs.foldl (fun k x => k + x.span) 0) ≤ cmd.p3.toNat → c.nextHandle ≠ 0 →
        ∃ u st, completes (.codeLoad cmd) cmd j st (if st = 0 then c.nextHandle else 0) s u ∧ (st = 0 ∨ st = 3) ∧
          (st = 0 → ∃ d i, u.ctx? c.id = some d ∧ d.images = c.images ++ [i] ∧ i.handle = BitVec.ofNat 64 c.nextHandle ∧
            d.nextHandle = c.nextHandle + 1))) ∧
    (serves s cmd j 0x60 → dataOk cmd.p0.toNat 32 → cmd.p1.toNat % 4096 = 0 → dataOk cmd.p1.toNat 3076 → s.quiet cmd.p0.toNat 32 = true →
      s.quiet cmd.p1.toNat 3076 = true → (∀ l ∈ linesAt cmd.p0.toNat 32, (s.dirLine l).hs ≠ .upd) → Memory.wf s.mem = true →
      (s.admin.xmssBlock ≤ s.admin.xmssIndex → 2 ^ 20 < s.admin.xmssBlock + 64 → refuses (.attest cmd) s cmd j 0x06) ∧
      (s.admin.xmssIndex < s.admin.xmssBlock → ∃ u, completes (.attest cmd) cmd j 0 3076 s u ∧ u.admin.xmssIndex = s.admin.xmssIndex + 1 ∧
        u.admin.xmssBlock = s.admin.xmssBlock ∧ cellBytes u.mem cmd.p1.toNat 32 = cellBytes s.mem cmd.p0.toNat 32 ∧
        leVal (cellBytes u.mem (cmd.p1.toNat + 256) 4).reverse = s.admin.xmssIndex % 2 ^ 32) ∧
      (s.admin.xmssIndex = s.admin.xmssBlock → s.admin.xmssBlock + 64 ≤ 2 ^ 20 → ∃ u, completes (.attest cmd) cmd j 0 3076 s u ∧
        u.admin.xmssIndex = s.admin.xmssBlock + 1 ∧ u.admin.xmssBlock = s.admin.xmssBlock + 64)) ∧
    (serves s cmd j 0x70 → 1 ≤ cmd.p1.toNat → cmd.p1.toNat ≤ 4096 → dataOk cmd.p2.toNat (128 * cmd.p1.toNat) →
      s.quiet cmd.p2.toNat (128 * cmd.p1.toNat) = true → Memory.wf s.mem = true → (∀ k, (s.journalEntry k).length = 128) →
      ∃ u n, completes (.journalRead cmd) cmd j 0 n s u ∧ n ≤ cmd.p1.toNat ∧ ∀ k, k < cmd.p1.toNat →
        cellBytes u.mem (cmd.p2.toNat + 128 * k) 128 =
          if s.holdsEntry (cmd.p0.toNat + k) then s.journalEntry (cmd.p0.toNat + k) else List.replicate 128 0) ∧
    (serves s cmd j 0x90 → dataOk cmd.p0.toNat 4096 → (cmd.p2 ≠ 0 → isGlobal cmd.p1 = true) → s.quiet cmd.p0.toNat 4096 = true →
      ∃ u, completes (.telemetry cmd) cmd j 0 0 s u ∧
        u.telemetry = { s.telemetry with period := cmd.p2.toNat, dest := cmd.p1, lastReport := s.clock, ctx := cmd.ctx.toNat })) ∧
  (∀ (s : State) (cmd : AdminCmd) (j : Nat),
    let k := cmd.p0.toNat % 2
    (serves s cmd j 0x40 →
      let code := cmd.p0.toNat / 16 % 16
      (6 < code → refuses (.kvPool cmd) s cmd j 0x08) ∧
      (code ≤ 6 → (s.chip k).frames ≠ [] → refuses (.kvPool cmd) s cmd j 0x04) ∧
      (code ≤ 6 → (s.chip k).frames = [] → ∃ u, completes (.kvPool cmd) cmd j 0 0 s u ∧
        (u.chip k) = { s.chip k with pgsz := 2 ^ (14 + code), npg := min (2 ^ 38 / 2 ^ (14 + code)) 0xFFFFFE } ∧ u.chip (1 - k) = s.chip (1 - k))) ∧
    (serves s cmd j 0x41 → ∃ u, completes (.kvReserve cmd) cmd j 0 0 s u ∧
      (u.chip k) = { s.chip k with reserve := cmd.p0.toNat / 2 ^ 8 % 2 ^ 24 } ∧ u.chip (1 - k) = s.chip (1 - k)) ∧
    (serves s cmd j 0x80 →
      (256 ≤ cmd.p0.toNat → refuses (.clusterReset cmd) s cmd j 0x08) ∧
      (cmd.p0.toNat ≤ 255 → (∀ c, c / 4 = cmd.p0.toNat → (s.coreAt c).launch = none ∧ s.cuttable (s.coreAt c) = true) →
        ∃ u, completes (.clusterReset cmd) cmd j 0 0 s u ∧
          (∀ b, b < 32 → (u.cluster cmd.p0.toNat).bank b = Bank.reset) ∧
          (∀ c, c / 4 = cmd.p0.toNat → (u.coreAt c).tq = Vector.replicate 4 (0, 0)) ∧
          (∀ x ∈ u.strands, x.1 % 1024 / 4 = cmd.p0.toNat → x.2.tq = Vector.replicate 4 (0, 0)))))

namespace Sys2Proof.Rules

open Sys2Proof.Machine

/-- The bits of State that a reset of the module leaves empty: no context, queue, launch or Carousel grant stands. -/
def nothingRuns (t : State) : Prop :=
  t.contexts = [] ∧ t.queues = [] ∧ t.launches = [] ∧ t.car0.holder = none ∧ t.car1.holder = none ∧ t.core = Core.reset 0 ∧ t.others = [] ∧
  t.chip0 = Chip.reset ∧ t.chip1 = Chip.reset ∧ t.die0 = Die.reset ∧ t.die1 = Die.reset

end Sys2Proof.Rules

/-- Storage errors, illegal words and blocks that cannot be fetched (R41, R76, R86, R187, R195, R358, R369, R370, R371). A corrected error
is counted and changes nothing else. An uncorrectable error drops a clean copy; loses an only copy, which is then in the lost-line table,
with ECC reported to the task that found it; marks a node record; kills a task control block's tree and is journaled; and at a running MMAC
ends its program with RESIDUE. An illegal sequencer word traps ILLEGAL with EVAL the word; an illegal vector or step word is the engine
fault ILLEGAL of its block or program. A sequencer block that cannot be fetched traps FETCH with its address, or FETCHTGT from the jump that
reached it, ESTAT saying that its effects are kept; a step word that cannot be fetched ends its program with ENGFETCH and its address. -/
def Obligations.ErrorsAreHandled : Prop :=
  (∀ s : State, exec .correctedError s = .next { s with telemetry := { s.telemetry with corrected := s.telemetry.corrected + 1 } }) ∧
  (∀ (s : State) (g l : Nat) (e : FilterEntry), (s.cluster g).entry l = some e → e.st = .s → e.xs = .none → e.hold = [] →
    (∀ x ∈ (s.cluster g).filter, x ≠ e → x.line ≠ l) →
    ∃ t, exec (.uncorrectableError (.cleanLine g l)) s = .next t ∧ (t.cluster g).entry l = none ∧ t.mem = s.mem ∧ t.core = s.core) ∧
  (∀ (s : State) (l : Nat), l * 128 < physTop → s.settled l = true → l ∉ s.lost →
    (s.lost.filter fun k => lineHome k == lineHome l).length < 256 →
    ∃ t r, exec (.uncorrectableError (.onlyCopy l (some s.core.id))) s = .next t ∧ l ∈ t.lost ∧
      t.core.held = s.core.held ++ [r] ∧ r.code = 0x40 ∧ r.faddr = BitVec.ofNat 64 (l * 128)) ∧
  (∀ (s : State) (die i : Nat) (n : Node), die < 2 → assoc i (s.die die).nodes = some n →
    ∃ t, exec (.uncorrectableError (.node die i none)) s = .next t ∧ assoc i (t.die die).nodes = some { n with err := true } ∧
      t.admin.jnext = s.admin.jnext + 1) ∧
  (∀ (s : State) (die i : Nat) (b : Tcb) (x : Tree), die < 2 → assoc i (s.die die).tcbs = some b → b.state ≠ .free → (s.die die).tree? b.tree = some x →
    ∃ t, exec (.uncorrectableError (.tcb die i)) s = .next t ∧ s.admin.jnext < t.admin.jnext ∧
      ∀ y, (t.die die).tree? b.tree = some y → y.closed = true) ∧
  (∀ (s : State) (k : Nat) (p : ProgRun) (w : W32), k < 2 →
    let g := s.core.id / 4
    ((s.cluster g).arr k).run = some p → p.core = s.core.id → p.word = some w → w.toNat / 2 ^ 27 = 4 → p.stage = 2 →
    (∀ r, ((s.cluster g).arr k).rcd = some r → s.statusFree r = true) →
    ∃ t r, exec (.uncorrectableError (.residue g k)) s = .next t ∧ ((t.cluster g).arr k).run = none ∧ r ∈ t.core.held ∧ r.code = 0x41 ∧
      r.waddr = p.pc) ∧
  (∀ (s : State) (w : W32), handles s → exec (.illegalInstruction .sq w) s = traps s 0x01 (w.zeroExtend 64) s.core.pc) ∧
  (∀ (s : State) (w : W32) (v : VecRun), s.core.vrun = some v → (v.pc - v.start).toNat < 4 * 4096 → exec (.illegalInstruction .vec w) s = s.vfault .illegal 0) ∧
  (∀ (s : State) (w : W32) (p : ProgRun), s.prog? = some p → p.fault = none →
    (4 * 4096 ≤ (p.pc - p.start).toNat → ends (.illegalInstruction .mx w) s p .proglen 0 ∧ ends (.illegalInstruction .xf w) s p .proglen 0 ∧
      ends (.fetchFault s.core.id) s p .proglen 0) ∧
    ((p.pc - p.start).toNat < 4 * 4096 → ends (.illegalInstruction .mx w) s p .illegal 0 ∧ ends (.illegalInstruction .xf w) s p .illegal 0 ∧
      ends (.fetchFault s.core.id) s p .engfetch p.pc)) ∧
  (∀ s : State, s.unit = .seq → s.core.seq = .run → s.wordAt s.core.context (clusterOf s.core.id) s.core.code s.core.pc = none →
    ((s.core.reach = .along ∨ s.core.reach = .loop) → handles s → exec (.fetchFault s.core.id) s = traps s 0x03 s.core.pc s.core.pc) ∧
    (∀ f, s.core.reach = .jump f → handles s → s.core.loops.length < 8 → ∃ t, exec (.fetchFault s.core.id) s = .next t ∧ t.core.pc = s.core.tvec ∧ t.core.g = s.core.g ∧
      t.mem = s.mem ∧ t.core.loops = s.core.loops ∧
      let b := if s.core.lvl = 0 then t.core.bank0 else t.core.bank1
      b.ecause = 0x02 ∧ b.epc = f ∧ b.eval = s.core.pc ∧ b.estat.getLsbD 15 = true)) ∧
  (∀ s : State, s.unit = .seq → (s.wordAt s.core.context (clusterOf s.core.id) s.core.code s.core.pc).isSome →
    notNow (.fetchFault s.core.id) s)

/-- Resets, bring-up, power and heat (R314, R393, R394, R395, R396, R397, R398, R399, R401). COLD_RESET leaves no context, queue, launch, grant or
device id, memory as after power-on, JNEXT 1 and READY 0, but keeps THERMTRIP and the one-time counter, whose begun block is spent.
PERST_RELEASE trains the link with READY 0, once, and only if a bundle in the flash passed verification; bring-up then opens the journal with the
next entry and, last, sets READY. WARM_RESET after bring-up keeps memory outside the journal (no
line being in U or merging), the device id, the clock and JNEXT, which the entry it writes raises by 1; WARM and READY are set, and nothing
runs. A P state is taken at a revolution boundary, and only the one that PSTATE, the cap and heat ask for (out of S1, P0); the cap and heat
each step down while there is a state below and back up; THERMTRIP removes core power, and then nothing happens but power-good. -/
def Obligations.ResetsAndPowerComplete : Prop :=
  (∀ s : State, ∃ t, exec .coldReset s = .next t ∧ nothingRuns t ∧ t.mem = [] ∧ t.devValid = false ∧ t.admin.jnext = 1 ∧
    t.admin.ready = false ∧ t.admin.warm = false ∧ t.admin.pending = none ∧ t.clock = 0 ∧ t.lost = [] ∧ t.power.thermtrip = s.power.thermtrip ∧
    t.power.off = false ∧ t.admin.xmssIndex = s.admin.xmssBlock ∧ t.admin.xmssBlock = s.admin.xmssBlock ∧ t.jtag = s.jtag ∧ t.flash = s.flash ∧
    t.pcieTrained = false ∧
    let passes := fun (b : FlashBank) => b.signed = true ∧ s.flash.least.toNat ≤ b.version.toNat
    (passes s.flash.bank0 ∨ passes s.flash.bank1 → t.bringup = 2) ∧ (¬ (passes s.flash.bank0 ∨ passes s.flash.bank1) → t.bringup = 1)) ∧
  (∀ s : State,
    (s.pcieTrained = false → s.power.off = false → s.bringup = 2 →
      exec .perstRelease s = .next { s with pcieTrained := true, bringup := 3 }) ∧
    ((s.pcieTrained = true ∨ s.power.off = true ∨ s.bringup ≠ 2) → notNow .perstRelease s) ∧
    (∀ rest, s.schedule = .bringUp :: rest → s.power.off = false →
      (s.bringup = 3 → ∃ t, step s = .next t ∧ t.bringup = 4 ∧ t.admin.jnext = s.admin.jnext + 1 ∧ t.admin.ready = s.admin.ready) ∧
      (s.bringup = 4 → ∃ t, step s = .next t ∧ t.bringup = 5 ∧ t.admin.jnext = s.admin.jnext ∧ t.admin.ready = true) ∧
      (s.bringup ≠ 3 → s.bringup ≠ 4 → step s = .next { s with schedule := rest }))) ∧
  (∀ s : State, s.bringup = 5 → s.admin.pending = none → ∃ t, exec .warmReset s = .next t ∧ nothingRuns t ∧ t.admin.warm = true ∧
    t.admin.ready = true ∧ t.admin.jnext = s.admin.jnext + 1 ∧ t.admin.asqbase = 0 ∧ t.admin.acq = 0 ∧ t.admin.asqtail = 0 ∧ t.devid = s.devid ∧
    t.devValid = s.devValid ∧ t.clock = s.clock ∧ t.commitNo = s.commitNo ∧ t.power = s.power ∧
    ((∀ d ∈ s.dir, d.hs ≠ .upd ∧ d.hs ≠ .mrg) → Memory.wf s.mem = true →
      ∀ a, (a < 0x3C00000000 ∨ 0x3C08000000 ≤ a) → cellGet t.mem a = cellGet s.mem a)) ∧
  (∀ s : State, s.bringup ≠ 5 → notNow .warmReset s) ∧
  (∀ (s : State) (n : Nat),
    let p := s.power
    let asked := if p.allowed = 3 then 3 else min 2 (p.allowed + p.capSteps + p.heatSteps)
    (p.current ≠ asked → n = (if p.current = 3 then 0 else asked) → s.clock % 512 = 0 →
      exec (.pStateChange n) s = .next { s with power := { p with current := n } }) ∧
    ((p.current = asked ∨ s.clock % 512 ≠ 0) → notNow (.pStateChange n) s)) ∧
  (∀ s : State,
    let p := s.power
    let room := p.allowed + p.capSteps + p.heatSteps < 2
    (room → exec .powerCapExceeded s = .next { s with power := { p with capSteps := p.capSteps + 1 } } ∧
      exec .thermalThrottle s = .next { s with power := { p with heatSteps := p.heatSteps + 1 } }) ∧
    (¬ room → exec .powerCapExceeded s = .next s ∧ exec .thermalThrottle s = .next s) ∧
    (p.capSteps ≠ 0 → exec .powerCapRecover s = .next { s with power := { p with capSteps := p.capSteps - 1 } }) ∧
    (p.heatSteps ≠ 0 → exec .thermalRecover s = .next { s with power := { p with heatSteps := p.heatSteps - 1 } }) ∧
    exec .thermtrip s = .next { s with power := { p with thermtrip := true, off := true } } ∧
    (p.off = true → s.schedule = [] → step s = .fault .powerRemoved) ∧
    (∀ x rest, p.off = true → s.schedule = x :: rest →
      (x ≠ .event .coldReset → step s = .fault .powerRemoved) ∧
      (x = .event .coldReset → ∃ t, step s = .next t ∧ t.power.off = false ∧ t.power.thermtrip = p.thermtrip)))

namespace Sys2Proof.Rules

open Sys2Proof.Machine

/-- The state after a move that took a core cycle: two fabric cycles later, unless the clocks stand (log 5, R397). -/
def later (t : State) : State := if t.power.current = 3 then t else { t with clock := t.clock + 2 }

/-- The step is the meaning of an instruction in a state: whatever state that answers is the next one, a core cycle later. -/
def stepIs (s : State) (i : Instr) (u : State) : Prop := ∀ t, exec i u = .next t → step s = .next (later t)

/-- The instruction that a word is in a section: what the decoder reads, or the illegal word itself (R41). -/
noncomputable def readAs (sec : CodeSection) (w : W32) : Instr := match decode sec w.toNat with
  | .ok i => i
  | .error _ => .illegalInstruction sec w

end Sys2Proof.Rules

/-- A step runs the decoded instruction (R31, R41, R42, R86, R90, R161, R187, R358, R397, R398). When the step is the sequencer's (log 4), core power is
on, the clocks run and nothing holds the strand back, and the block of the word at its pc is kept or can be read as it stands, the step is the
decoded instruction's meaning
(of an unassigned word ILLEGAL_INSTRUCTION's) on the state with its block kept, two fabric cycles later (log 5); when the instruction's
sources wait for loads, the turn passes. A word that cannot be fetched is FETCH_FAULT's meaning. The same for the vector engine's next word,
and for the next word of a channel's or an array's program in its section. An event of the device that is due is its row's meaning; one that is
not changes nothing. In S1 no agent of a core moves and the clock stands. -/
def Obligations.StepRunsTheDecodedWord : Prop :=
  ∀ (s : State) (rest : List Turn),
    let u := { s with schedule := rest }
    s.power.off = false →
    (s.power.current = 3 → ∀ a n, (s.schedule = .agent a :: rest ∨ s.schedule = .tick n :: rest) → step s = .next u) ∧
    (s.power.current ≠ 3 → s.schedule = .agent .seq :: rest → u.seqHeld = false →
      (∀ w blocks, u.wordAt s.core.context (clusterOf s.core.id) s.core.code s.core.pc = some (w, blocks) →
        let i := readAs .sq w
        (s.core.waitsFor (sourcesOf i) = false → blockReady u s.core.code s.core.pc →
          stepIs s i { u with core := { s.core with code := blocks }, unit := .seq }) ∧
        (s.core.waitsFor (sourcesOf i) = true → step s = .next u)) ∧
      (u.wordAt s.core.context (clusterOf s.core.id) s.core.code s.core.pc = none → blockReady u s.core.code s.core.pc →
        stepIs s (.fetchFault s.core.id) { u with unit := .seq })) ∧
    (∀ v, s.power.current ≠ 3 → s.schedule = .agent .vec :: rest → s.core.vrun = some v → blockReady u (v.code ++ s.core.ecode) v.pc →
      (∀ w own kept, u.engineWord v.code v.pc = some (w, own, kept) →
        stepIs s (readAs .vec w) { u with core := { s.core with vrun := some { v with code := own }, ecode := kept }, unit := .vec }) ∧
      (u.engineWord v.code v.pc = none → stepIs s (.fetchFault s.core.id) { u with unit := .vec })) ∧
    (∀ a sec p, (a, sec) ∈ [(Agent.xin, CodeSection.xf), (.xout, .xf), (.arr0, .mx), (.arr1, .mx)] →
      s.power.current ≠ 3 → s.schedule = .agent a :: rest → { u with unit := a }.prog? = some p → p.stopped = false →
      blockReady u (p.code ++ s.core.ecode) p.pc →
      (∀ w own kept, { u with unit := a }.engineWord p.code p.pc = some (w, own, kept) →
        let t := { u with unit := a }.putProg { p with code := own }
        stepIs s (readAs sec w) { t with core := { t.core with ecode := kept } }) ∧
      ({ u with unit := a }.engineWord p.code p.pc = none → stepIs s (.fetchFault s.core.id) { u with unit := a })) ∧
    (∀ i t, s.schedule = .event i :: rest → isEvent i = true → (s.power.current = 3 → awake i = true) → exec i u = .next t →
      (t ≠ u → step s = .next (later t)) ∧ (t = u → step s = .next u))

/-- Words written out in the spec decode to their instructions (R31, R41, R44, R66, R78, R89, R129, R130, R167, R191, R193, R203). The words
that the spec writes out for FKEY g6, g5; WAIT 0, 0, 2, 0; CSRR g5, FCTL; STD g6, -16(g2); NINIT g6, g7 with mask 0b1010; NRD g5, g6, 2;
VADD.i32 v4, v5, v6, m2; VEND; MWAITB l3, 1; MLOOP 8, 3; MMAC a1, 0, 64, 2 and XLOOP l2, 1 decode, each in its section, to the instruction
with those operands; 0xFFFF_FFFF is no instruction in any section. -/
def Obligations.WrittenOutWordsDecode : Prop :=
  decode .sq 0x40C50500 = .ok (.fkey 6 5) ∧
  decode .sq 0x78000200 = .ok (.wait 0 0 2 0) ∧
  decode .sq 0xE0A00010 = .ok (.csrr 5 0x010) ∧
  decode .sq 0x9CC2FFE0 = .ok (.std 6 2 (BitVec.ofInt 15 (-16))) ∧
  decode .sq 0xC406388A = .ok (.ninit 6 7 0b1010) ∧
  decode .sq 0xC4A60102 = .ok (.nrd 5 6 2) ∧
  decode .vec 0x04853200 = .ok (.vadd 4 5 6 2 false false) ∧
  decode .vec 0xF8000000 = .ok .vend ∧
  decode .mx 0x401C0000 = .ok (.mwaitb { prdy := false, srdy := false, pfree := false, sfree := false } 3 true) ∧
  decode .mx 0x38002003 = .ok (.mloop { prdy := false, srdy := false, pfree := false, sfree := false } 8 3) ∧
  decode .mx 0x20207E20 = .ok (.mmac { prdy := false, srdy := false, pfree := false, sfree := false } 1 0 63 1) ∧
  decode .xf 0x40480001 = .ok (.xloopReg { prdy := false, srdy := false, pfree := false, sfree := false } 2 1) ∧
  (∀ sec, decode sec 0xFFFFFFFF = .error .neverAssigned)

/-- Encoding and decoding undo each other (R31, R32, R33, R37, R40, R41). For every well-formed instruction that has a word, the decoder of
its section reads the encoder's 32-bit word back as that instruction, with every operand at every value its entry allows; and whatever word
a section's decoder accepts is the encoding of the instruction it reads, which is well formed and of that section. -/
def Obligations.EncodingRoundTrips : Prop :=
  (∀ (i : Instr) (sec : CodeSection), i.codeSection = some sec → i.wf = true → encode i < 2 ^ 32 ∧ decode sec (encode i) = .ok i) ∧
  (∀ (i : Instr) (sec : CodeSection) (w : Nat), decode sec w = .ok i → encode i = w ∧ i.wf = true ∧ i.codeSection = some sec)

/-- Every step keeps memory in its one form (R2, R283, R225). For every state whose committed memory and chiplet page bytes are in canonical
form (addresses strictly rising, no byte listed that an unlisted address reads as), the next state of a step has them in that form again:
equal contents stay equal data. -/
def Obligations.StepKeepsMemoryForm : Prop :=
  ∀ s t : State, MemWf s → step s = .next t → MemWf t

/-- What reset leaves (R44, R81, R196, R225, R388, R399). After reset, at power-good before bring-up: no strand runs, TVEC and STATUS are 0,
VSH is 0x102, VQUOTA 0x10000, LEASE1 16,384, LEASE2 65,536, CPUCT, VLV and REPTHR the f32 codes the spec gives, every CSR is 0 that the spec
gives as 0; every bank is in cache mode with slot size 0 and every plane empty; each pool has pages of 64 KiB, 4,194,304 of them, and no
reserve; READY, WARM and JWRAP are 0 and JNEXT is 1; no device id is assigned; and memory (with the pages) is in canonical form. The general
registers are 0: that is the model's choice (log 3). -/
def Obligations.ResetState : Prop :=
  let s := State.reset
  let c := s.core
  s.others = [] ∧ c.seq = .idle ∧ c.tvec = 0 ∧ c.status = 0 ∧ c.vsh = 0x102 ∧ c.vquota = 0x10000 ∧ c.lease1 = 16384 ∧ c.lease2 = 65536 ∧
  c.cpuct = 0x3FC00000 ∧ c.vlv = 0x3F800000 ∧ c.repthr = 0x3C23D70A ∧ c.fctl = 0 ∧ c.crashbase = 0 ∧ c.carbase = 0 ∧ c.lasttag = 0 ∧
  c.hintdrop = 0 ∧ c.fpu = 0 ∧ c.rngcfg = 0 ∧ c.xrbase = 0 ∧
  (∀ r : Reg, c.getG r = 0) ∧ (∀ g b : Nat, ((s.cluster g).bank b).mode = 0 ∧ ((s.cluster g).bank b).slot = 0) ∧
  (∀ g : Nat, (s.cluster g).arr0.active.state = .empty ∧ (s.cluster g).arr1.shadow.state = .empty) ∧
  (∀ k : Nat, (s.chip k).pgsz = 65536 ∧ (s.chip k).npg = 4194304 ∧ (s.chip k).reserve = 0) ∧
  s.admin.ready = false ∧ s.admin.warm = false ∧ s.admin.jwrap = false ∧ s.admin.jnext = 1 ∧ s.admin.asqbase = 0 ∧ s.admin.acq = 0 ∧
  s.devValid = false ∧ s.contexts = [] ∧ MemWf s
end

