-- ==== Sys2Proof/Laws/Memory.lean ====
section
/-! SUPPORT. Laws/Memory.lean: reading after writing, and the canonical form that every memory operation keeps; the same for
lists kept by key and for versions. -/

namespace Sys2Proof.Machine

/-! ### The canonical form -/

/-- Every address of a list of cells is above a bound. -/
def cellsAbove (a : Nat) (m : List Host.Cell) : Prop := ∀ c ∈ m, a < c.1

theorem wf_cons (x : Nat) (y : Byte) (t : List Host.Cell) :
    Memory.wf ((x, y) :: t) = true ↔ y ≠ 0 ∧ cellsAbove x t ∧ Memory.wf t = true := by
  induction t generalizing x y with
  | nil => simp [Memory.wf, cellsAbove]
  | cons c t ih =>
    obtain ⟨z, w⟩ := c
    simp only [Memory.wf, Bool.and_eq_true, decide_eq_true_eq, bne_iff_ne, ih z w, cellsAbove, List.mem_cons]
    constructor
    · rintro ⟨⟨hx, hy⟩, hw, ha, ht⟩
      refine ⟨hy, ?_, hw, ha, ht⟩
      rintro d (rfl | hd)
      · exact hx
      · exact hx.trans (ha d hd)
    · rintro ⟨hy, ha, hw, hb, ht⟩
      exact ⟨⟨ha _ (Or.inl rfl), hy⟩, hw, hb, ht⟩

theorem wf_tail {x : Nat} {y : Byte} {t : List Host.Cell} (h : Memory.wf ((x, y) :: t) = true) : Memory.wf t = true :=
  ((wf_cons x y t).mp h).2.2

theorem cellPut_mem {m : List Host.Cell} {a : Nat} {b : Byte} {c : Host.Cell} (h : c ∈ cellPut m a b) : c.1 = a ∨ c ∈ m := by
  induction m with
  | nil => simp only [cellPut] at h; split at h <;> simp_all
  | cons d t ih =>
    obtain ⟨x, y⟩ := d
    simp only [cellPut] at h
    split at h
    · split at h
      · exact .inr h
      · rcases List.mem_cons.mp h with rfl | h
        · exact .inl rfl
        · exact .inr h
    · split at h
      · split at h
        · exact .inr (.tail _ h)
        · rcases List.mem_cons.mp h with rfl | h
          · exact .inl rfl
          · exact .inr (.tail _ h)
      · rcases List.mem_cons.mp h with rfl | h
        · exact .inr (.head _)
        · exact (ih h).imp id (.tail _)

theorem cellsAbove_cellPut {m : List Host.Cell} {x a : Nat} (b : Byte) (h : cellsAbove x m) (ha : x < a) :
    cellsAbove x (cellPut m a b) := fun c hc => by
  rcases cellPut_mem hc with e | e
  · omega
  · exact h c e

/-- Writing a byte keeps the canonical form. -/
theorem wf_cellPut {m : List Host.Cell} (a : Nat) (b : Byte) (h : Memory.wf m = true) : Memory.wf (cellPut m a b) = true := by
  induction m with
  | nil => simp only [cellPut]; split <;> simp_all [Memory.wf]
  | cons c t ih =>
    obtain ⟨x, y⟩ := c
    obtain ⟨hy, ha, ht⟩ := (wf_cons x y t).mp h
    simp only [cellPut]
    split
    · rename_i hax
      split
      · exact h
      · rename_i hb
        refine (wf_cons a b _).mpr ⟨hb, ?_, h⟩
        rintro d hd
        rcases List.mem_cons.mp hd with rfl | hd
        · exact hax
        · exact hax.trans (ha d hd)
    · split
      · rename_i hx
        subst hx
        split
        · exact ht
        · rename_i hb; exact (wf_cons _ b _).mpr ⟨hb, ha, ht⟩
      · exact (wf_cons x y _).mpr ⟨hy, cellsAbove_cellPut b ha (by omega), ih ht⟩

/-- Writing bytes keeps the canonical form. -/
theorem wf_cellPutBytes {m : List Host.Cell} (a : Nat) (bs : List Byte) (h : Memory.wf m = true) :
    Memory.wf (cellPutBytes m a bs) = true := by
  induction bs generalizing m a with
  | nil => exact h
  | cons b t ih => exact ih (a + 1) (wf_cellPut a b h)

/-- Dropping cells keeps the canonical form. -/
theorem wf_filter {m : List Host.Cell} (p : Host.Cell → Bool) (h : Memory.wf m = true) : Memory.wf (m.filter p) = true := by
  induction m with
  | nil => rfl
  | cons c t ih =>
    obtain ⟨x, y⟩ := c
    obtain ⟨hy, ha, ht⟩ := (wf_cons x y t).mp h
    simp only [List.filter_cons]
    split
    · exact (wf_cons x y _).mpr ⟨hy, fun d hd => ha d (List.mem_of_mem_filter hd), ih ht⟩
    · exact ih ht

/-- A fold of operations that each keep the canonical form keeps it. -/
theorem wf_foldl {α : Type} (f : List Host.Cell → α → List Host.Cell)
    (hf : ∀ m x, Memory.wf m = true → Memory.wf (f m x) = true) (l : List α) {m : List Host.Cell} (h : Memory.wf m = true) :
    Memory.wf (l.foldl f m) = true := by
  induction l generalizing m with
  | nil => exact h
  | cons x t ih => exact ih (hf m x h)

/-! ### Reading after writing -/

theorem cellGet_below {m : List Host.Cell} {a : Nat} (h : cellsAbove a m) : cellGet m a = 0 := by
  induction m with
  | nil => rfl
  | cons c t ih =>
    obtain ⟨x, y⟩ := c
    have hx := h (x, y) (.head _)
    simp only [cellGet]
    rw [if_neg (by simp at hx; omega)]
    exact ih fun d hd => h d (.tail _ hd)

/-- A byte reads as written, in a memory in canonical form. -/
theorem cellGet_cellPut_same {m : List Host.Cell} (a : Nat) (b : Byte) (h : Memory.wf m = true) :
    cellGet (cellPut m a b) a = b := by
  induction m with
  | nil => simp only [cellPut]; split <;> simp_all [cellGet]
  | cons c t ih =>
    obtain ⟨x, y⟩ := c
    obtain ⟨hy, ha, ht⟩ := (wf_cons x y t).mp h
    simp only [cellPut]
    split
    · rename_i hax
      split
      · rename_i hb
        rw [hb, cellGet, if_neg (by omega)]
        exact cellGet_below fun d hd => hax.trans (ha d hd)
      · simp [cellGet]
    · split
      · rename_i hx
        subst hx
        split
        · rename_i hb; rw [hb]; exact cellGet_below ha
        · simp [cellGet]
      · rename_i hx; rw [cellGet, if_neg hx]; exact ih ht

/-- Writing a byte leaves every other byte alone. -/
theorem cellGet_cellPut_other (m : List Host.Cell) {a c : Nat} (b : Byte) (h : c ≠ a) : cellGet (cellPut m a b) c = cellGet m c := by
  induction m with
  | nil => simp only [cellPut]; split <;> simp [cellGet, Ne.symm h]
  | cons d t ih =>
    obtain ⟨x, y⟩ := d
    simp only [cellPut]
    split
    · split
      · rfl
      · rw [cellGet, if_neg (Ne.symm h)]
    · split
      · rename_i hx
        subst hx
        split <;> simp [cellGet, Ne.symm h]
      · simp only [cellGet]; rw [ih]

/-- Writing bytes leaves every byte outside them alone. -/
theorem cellGet_cellPutBytes_other (m : List Host.Cell) (a : Nat) (bs : List Byte) {c : Nat} (h : c < a ∨ a + bs.length ≤ c) :
    cellGet (cellPutBytes m a bs) c = cellGet m c := by
  induction bs generalizing m a with
  | nil => rfl
  | cons b t ih =>
    simp only [List.length_cons] at h
    rw [cellPutBytes, ih _ _ (by omega), cellGet_cellPut_other _ _ (by omega)]

/-- Bytes read back as written, in a memory in canonical form. -/
theorem cellBytes_cellPutBytes_same {m : List Host.Cell} (a : Nat) (bs : List Byte) (h : Memory.wf m = true) :
    cellBytes (cellPutBytes m a bs) a bs.length = bs := by
  induction bs generalizing m a with
  | nil => rfl
  | cons b t ih =>
    simp only [List.length_cons, cellBytes, cellPutBytes]
    rw [ih (a + 1) (wf_cellPut a b h), cellGet_cellPutBytes_other _ _ _ (by omega), cellGet_cellPut_same a b h]

/-- Bytes outside those written read as before. -/
theorem cellBytes_cellPutBytes_other (m : List Host.Cell) (a : Nat) (bs : List Byte) (c n : Nat)
    (h : c + n ≤ a ∨ a + bs.length ≤ c) : cellBytes (cellPutBytes m a bs) c n = cellBytes m c n := by
  induction n generalizing c with
  | zero => rfl
  | succ n ih => rw [cellBytes, cellBytes, cellGet_cellPutBytes_other _ _ _ (by omega), ih _ (by omega)]

@[simp] theorem cellBytes_length (m : List Host.Cell) (a n : Nat) : (cellBytes m a n).length = n := by
  induction n generalizing a with
  | zero => rfl
  | succ n ih => simp [cellBytes, ih]

/-! ### Versions -/

@[simp] theorem verGet_verPut_same (v : List Host.Cell) (a : Nat) (b : Byte) : verGet (verPut v a b) a = some b := by
  induction v with
  | nil => simp [verPut, verGet]
  | cons c t ih =>
    obtain ⟨x, y⟩ := c
    simp only [verPut]
    split
    · simp [verGet]
    · split
      · simp [verGet]
      · rename_i hx; rw [verGet, if_neg hx]; exact ih

theorem verGet_verPut_other (v : List Host.Cell) {a c : Nat} (b : Byte) (h : c ≠ a) : verGet (verPut v a b) c = verGet v c := by
  induction v with
  | nil => simp [verPut, verGet, Ne.symm h]
  | cons d t ih =>
    obtain ⟨x, y⟩ := d
    simp only [verPut]
    split
    · rw [verGet, if_neg (Ne.symm h)]
    · split
      · rename_i hx
        subst hx
        simp [verGet, Ne.symm h]
      · simp only [verGet]; rw [ih]

/-! ### Lists kept by key -/

@[simp] theorem assoc_assocPut_same {α : Type} (k : Nat) (v : α) (l : List (Nat × α)) : assoc k (assocPut k v l) = some v := by
  induction l with
  | nil => simp [assocPut, assoc]
  | cons c t ih =>
    obtain ⟨j, x⟩ := c
    simp only [assocPut]
    split
    · simp [assoc]
    · split
      · simp [assoc]
      · rename_i hj; rw [assoc, if_neg hj]; exact ih

theorem assoc_assocPut_other {α : Type} {j k : Nat} (v : α) (l : List (Nat × α)) (h : j ≠ k) :
    assoc j (assocPut k v l) = assoc j l := by
  induction l with
  | nil => simp [assocPut, assoc, Ne.symm h]
  | cons c t ih =>
    obtain ⟨i, x⟩ := c
    simp only [assocPut]
    split
    · rw [assoc, if_neg (Ne.symm h)]
    · split
      · rename_i hx
        subst hx
        simp [assoc, Ne.symm h]
      · simp only [assoc]; rw [ih]

theorem assocPut_keys {α : Type} {k : Nat} {v : α} {l : List (Nat × α)} {c : Nat × α} (h : c ∈ assocPut k v l) :
    c.1 = k ∨ c ∈ l := by
  induction l with
  | nil => simp_all [assocPut]
  | cons d t ih =>
    obtain ⟨j, x⟩ := d
    simp only [assocPut] at h
    split at h
    · rcases List.mem_cons.mp h with rfl | h
      · exact .inl rfl
      · exact .inr h
    · split at h
      · rcases List.mem_cons.mp h with rfl | h
        · exact .inl rfl
        · exact .inr (.tail _ h)
      · rcases List.mem_cons.mp h with rfl | h
        · exact .inr (.head _)
        · exact (ih h).imp id (.tail _)

/-- Putting a value keeps the keys strictly rising. -/
theorem risingKeys_assocPut {α : Type} (k : Nat) (v : α) {l : List (Nat × α)} (h : risingKeys l) : risingKeys (assocPut k v l) := by
  induction l with
  | nil => simp [assocPut, risingKeys]
  | cons c t ih =>
    obtain ⟨j, x⟩ := c
    obtain ⟨ha, ht⟩ := List.pairwise_cons.mp h
    simp only [assocPut]
    split
    · refine List.pairwise_cons.mpr ⟨?_, h⟩
      intro d hd
      rcases List.mem_cons.mp hd with rfl | hd
      · assumption
      · exact lt_trans ‹k < j› (ha d hd)
    · split
      · rename_i hj; subst hj; exact List.pairwise_cons.mpr ⟨ha, ht⟩
      · refine List.pairwise_cons.mpr ⟨?_, ih ht⟩
        intro d hd
        rcases assocPut_keys hd with e | e
        · simp only; omega
        · exact ha d e

/-- Dropping a key keeps the keys strictly rising. -/
theorem risingKeys_assocDrop {α : Type} (k : Nat) {l : List (Nat × α)} (h : risingKeys l) : risingKeys (assocDrop k l) :=
  List.Pairwise.filter _ h

end Sys2Proof.Machine
end

