-- ==== Sys2Proof/Laws/State.lean ====
section
/-! SUPPORT. Laws/State.lean: one lemma for each field and each update of a state or a core, so that no proof unfolds an update. -/

namespace Sys2Proof.Machine


/-! ### State.upd -/

@[simp] theorem State.upd_core (s : State) (c : Core) : (s.upd c).core = c := rfl
@[simp] theorem State.upd_others (s : State) (c : Core) : (s.upd c).others = s.others := rfl
@[simp] theorem State.upd_clusters (s : State) (c : Core) : (s.upd c).clusters = s.clusters := rfl
@[simp] theorem State.upd_mem (s : State) (c : Core) : (s.upd c).mem = s.mem := rfl
@[simp] theorem State.upd_lines (s : State) (c : Core) : (s.upd c).lines = s.lines := rfl
@[simp] theorem State.upd_dir (s : State) (c : Core) : (s.upd c).dir = s.dir := rfl
@[simp] theorem State.upd_regions (s : State) (c : Core) : (s.upd c).regions = s.regions := rfl
@[simp] theorem State.upd_msgs (s : State) (c : Core) : (s.upd c).msgs = s.msgs := rfl
@[simp] theorem State.upd_homeQ (s : State) (c : Core) : (s.upd c).homeQ = s.homeQ := rfl
@[simp] theorem State.upd_notices (s : State) (c : Core) : (s.upd c).notices = s.notices := rfl
@[simp] theorem State.upd_credits (s : State) (c : Core) : (s.upd c).credits = s.credits := rfl
@[simp] theorem State.upd_commitNo (s : State) (c : Core) : (s.upd c).commitNo = s.commitNo := rfl
@[simp] theorem State.upd_lost (s : State) (c : Core) : (s.upd c).lost = s.lost := rfl
@[simp] theorem State.upd_retain (s : State) (c : Core) : (s.upd c).retain = s.retain := rfl
@[simp] theorem State.upd_l2leases (s : State) (c : Core) : (s.upd c).l2leases = s.l2leases := rfl
@[simp] theorem State.upd_l2tlb (s : State) (c : Core) : (s.upd c).l2tlb = s.l2tlb := rfl
@[simp] theorem State.upd_xreds (s : State) (c : Core) : (s.upd c).xreds = s.xreds := rfl
@[simp] theorem State.upd_rounds (s : State) (c : Core) : (s.upd c).rounds = s.rounds := rfl
@[simp] theorem State.upd_units (s : State) (c : Core) : (s.upd c).units = s.units := rfl
@[simp] theorem State.upd_car0 (s : State) (c : Core) : (s.upd c).car0 = s.car0 := rfl
@[simp] theorem State.upd_car1 (s : State) (c : Core) : (s.upd c).car1 = s.car1 := rfl
@[simp] theorem State.upd_die0 (s : State) (c : Core) : (s.upd c).die0 = s.die0 := rfl
@[simp] theorem State.upd_die1 (s : State) (c : Core) : (s.upd c).die1 = s.die1 := rfl
@[simp] theorem State.upd_cancels (s : State) (c : Core) : (s.upd c).cancels = s.cancels := rfl
@[simp] theorem State.upd_walks (s : State) (c : Core) : (s.upd c).walks = s.walks := rfl
@[simp] theorem State.upd_chip0 (s : State) (c : Core) : (s.upd c).chip0 = s.chip0 := rfl
@[simp] theorem State.upd_chip1 (s : State) (c : Core) : (s.upd c).chip1 = s.chip1 := rfl
@[simp] theorem State.upd_contexts (s : State) (c : Core) : (s.upd c).contexts = s.contexts := rfl
@[simp] theorem State.upd_launches (s : State) (c : Core) : (s.upd c).launches = s.launches := rfl
@[simp] theorem State.upd_nextLaunch (s : State) (c : Core) : (s.upd c).nextLaunch = s.nextLaunch := rfl
@[simp] theorem State.upd_queues (s : State) (c : Core) : (s.upd c).queues = s.queues := rfl
@[simp] theorem State.upd_rrptr (s : State) (c : Core) : (s.upd c).rrptr = s.rrptr := rfl
@[simp] theorem State.upd_strands (s : State) (c : Core) : (s.upd c).strands = s.strands := rfl
@[simp] theorem State.upd_saved (s : State) (c : Core) : (s.upd c).saved = s.saved := rfl
@[simp] theorem State.upd_savedClusters (s : State) (c : Core) : (s.upd c).savedClusters = s.savedClusters := rfl
@[simp] theorem State.upd_admin (s : State) (c : Core) : (s.upd c).admin = s.admin := rfl
@[simp] theorem State.upd_tables (s : State) (c : Core) : (s.upd c).tables = s.tables := rfl
@[simp] theorem State.upd_telemetry (s : State) (c : Core) : (s.upd c).telemetry = s.telemetry := rfl
@[simp] theorem State.upd_devid (s : State) (c : Core) : (s.upd c).devid = s.devid := rfl
@[simp] theorem State.upd_devValid (s : State) (c : Core) : (s.upd c).devValid = s.devValid := rfl
@[simp] theorem State.upd_fabric (s : State) (c : Core) : (s.upd c).fabric = s.fabric := rfl
@[simp] theorem State.upd_msix (s : State) (c : Core) : (s.upd c).msix = s.msix := rfl
@[simp] theorem State.upd_hostData (s : State) (c : Core) : (s.upd c).hostData = s.hostData := rfl
@[simp] theorem State.upd_bringup (s : State) (c : Core) : (s.upd c).bringup = s.bringup := rfl
@[simp] theorem State.upd_pcieTrained (s : State) (c : Core) : (s.upd c).pcieTrained = s.pcieTrained := rfl
@[simp] theorem State.upd_power (s : State) (c : Core) : (s.upd c).power = s.power := rfl
@[simp] theorem State.upd_jtag (s : State) (c : Core) : (s.upd c).jtag = s.jtag := rfl
@[simp] theorem State.upd_flash (s : State) (c : Core) : (s.upd c).flash = s.flash := rfl
@[simp] theorem State.upd_clock (s : State) (c : Core) : (s.upd c).clock = s.clock := rfl
@[simp] theorem State.upd_freeCount (s : State) (c : Core) : (s.upd c).freeCount = s.freeCount := rfl
@[simp] theorem State.upd_unit (s : State) (c : Core) : (s.upd c).unit = s.unit := rfl
@[simp] theorem State.upd_rr (s : State) (c : Core) : (s.upd c).rr = s.rr := rfl
@[simp] theorem State.upd_schedule (s : State) (c : Core) : (s.upd c).schedule = s.schedule := rfl

/-! ### State.putCluster -/

@[simp] theorem State.putCluster_core (s : State) (g : Nat) (x : Cluster) : (s.putCluster g x).core = s.core := rfl
@[simp] theorem State.putCluster_others (s : State) (g : Nat) (x : Cluster) : (s.putCluster g x).others = s.others := rfl
@[simp] theorem State.putCluster_clusters (s : State) (g : Nat) (x : Cluster) : (s.putCluster g x).clusters = assocPut g x s.clusters := rfl
@[simp] theorem State.putCluster_mem (s : State) (g : Nat) (x : Cluster) : (s.putCluster g x).mem = s.mem := rfl
@[simp] theorem State.putCluster_lines (s : State) (g : Nat) (x : Cluster) : (s.putCluster g x).lines = s.lines := rfl
@[simp] theorem State.putCluster_dir (s : State) (g : Nat) (x : Cluster) : (s.putCluster g x).dir = s.dir := rfl
@[simp] theorem State.putCluster_regions (s : State) (g : Nat) (x : Cluster) : (s.putCluster g x).regions = s.regions := rfl
@[simp] theorem State.putCluster_msgs (s : State) (g : Nat) (x : Cluster) : (s.putCluster g x).msgs = s.msgs := rfl
@[simp] theorem State.putCluster_homeQ (s : State) (g : Nat) (x : Cluster) : (s.putCluster g x).homeQ = s.homeQ := rfl
@[simp] theorem State.putCluster_notices (s : State) (g : Nat) (x : Cluster) : (s.putCluster g x).notices = s.notices := rfl
@[simp] theorem State.putCluster_credits (s : State) (g : Nat) (x : Cluster) : (s.putCluster g x).credits = s.credits := rfl
@[simp] theorem State.putCluster_commitNo (s : State) (g : Nat) (x : Cluster) : (s.putCluster g x).commitNo = s.commitNo := rfl
@[simp] theorem State.putCluster_lost (s : State) (g : Nat) (x : Cluster) : (s.putCluster g x).lost = s.lost := rfl
@[simp] theorem State.putCluster_retain (s : State) (g : Nat) (x : Cluster) : (s.putCluster g x).retain = s.retain := rfl
@[simp] theorem State.putCluster_l2leases (s : State) (g : Nat) (x : Cluster) : (s.putCluster g x).l2leases = s.l2leases := rfl
@[simp] theorem State.putCluster_l2tlb (s : State) (g : Nat) (x : Cluster) : (s.putCluster g x).l2tlb = s.l2tlb := rfl
@[simp] theorem State.putCluster_xreds (s : State) (g : Nat) (x : Cluster) : (s.putCluster g x).xreds = s.xreds := rfl
@[simp] theorem State.putCluster_rounds (s : State) (g : Nat) (x : Cluster) : (s.putCluster g x).rounds = s.rounds := rfl
@[simp] theorem State.putCluster_units (s : State) (g : Nat) (x : Cluster) : (s.putCluster g x).units = s.units := rfl
@[simp] theorem State.putCluster_car0 (s : State) (g : Nat) (x : Cluster) : (s.putCluster g x).car0 = s.car0 := rfl
@[simp] theorem State.putCluster_car1 (s : State) (g : Nat) (x : Cluster) : (s.putCluster g x).car1 = s.car1 := rfl
@[simp] theorem State.putCluster_die0 (s : State) (g : Nat) (x : Cluster) : (s.putCluster g x).die0 = s.die0 := rfl
@[simp] theorem State.putCluster_die1 (s : State) (g : Nat) (x : Cluster) : (s.putCluster g x).die1 = s.die1 := rfl
@[simp] theorem State.putCluster_cancels (s : State) (g : Nat) (x : Cluster) : (s.putCluster g x).cancels = s.cancels := rfl
@[simp] theorem State.putCluster_walks (s : State) (g : Nat) (x : Cluster) : (s.putCluster g x).walks = s.walks := rfl
@[simp] theorem State.putCluster_chip0 (s : State) (g : Nat) (x : Cluster) : (s.putCluster g x).chip0 = s.chip0 := rfl
@[simp] theorem State.putCluster_chip1 (s : State) (g : Nat) (x : Cluster) : (s.putCluster g x).chip1 = s.chip1 := rfl
@[simp] theorem State.putCluster_contexts (s : State) (g : Nat) (x : Cluster) : (s.putCluster g x).contexts = s.contexts := rfl
@[simp] theorem State.putCluster_launches (s : State) (g : Nat) (x : Cluster) : (s.putCluster g x).launches = s.launches := rfl
@[simp] theorem State.putCluster_nextLaunch (s : State) (g : Nat) (x : Cluster) : (s.putCluster g x).nextLaunch = s.nextLaunch := rfl
@[simp] theorem State.putCluster_queues (s : State) (g : Nat) (x : Cluster) : (s.putCluster g x).queues = s.queues := rfl
@[simp] theorem State.putCluster_rrptr (s : State) (g : Nat) (x : Cluster) : (s.putCluster g x).rrptr = s.rrptr := rfl
@[simp] theorem State.putCluster_strands (s : State) (g : Nat) (x : Cluster) : (s.putCluster g x).strands = s.strands := rfl
@[simp] theorem State.putCluster_saved (s : State) (g : Nat) (x : Cluster) : (s.putCluster g x).saved = s.saved := rfl
@[simp] theorem State.putCluster_savedClusters (s : State) (g : Nat) (x : Cluster) : (s.putCluster g x).savedClusters = s.savedClusters := rfl
@[simp] theorem State.putCluster_admin (s : State) (g : Nat) (x : Cluster) : (s.putCluster g x).admin = s.admin := rfl
@[simp] theorem State.putCluster_tables (s : State) (g : Nat) (x : Cluster) : (s.putCluster g x).tables = s.tables := rfl
@[simp] theorem State.putCluster_telemetry (s : State) (g : Nat) (x : Cluster) : (s.putCluster g x).telemetry = s.telemetry := rfl
@[simp] theorem State.putCluster_devid (s : State) (g : Nat) (x : Cluster) : (s.putCluster g x).devid = s.devid := rfl
@[simp] theorem State.putCluster_devValid (s : State) (g : Nat) (x : Cluster) : (s.putCluster g x).devValid = s.devValid := rfl
@[simp] theorem State.putCluster_fabric (s : State) (g : Nat) (x : Cluster) : (s.putCluster g x).fabric = s.fabric := rfl
@[simp] theorem State.putCluster_msix (s : State) (g : Nat) (x : Cluster) : (s.putCluster g x).msix = s.msix := rfl
@[simp] theorem State.putCluster_hostData (s : State) (g : Nat) (x : Cluster) : (s.putCluster g x).hostData = s.hostData := rfl
@[simp] theorem State.putCluster_bringup (s : State) (g : Nat) (x : Cluster) : (s.putCluster g x).bringup = s.bringup := rfl
@[simp] theorem State.putCluster_pcieTrained (s : State) (g : Nat) (x : Cluster) : (s.putCluster g x).pcieTrained = s.pcieTrained := rfl
@[simp] theorem State.putCluster_power (s : State) (g : Nat) (x : Cluster) : (s.putCluster g x).power = s.power := rfl
@[simp] theorem State.putCluster_jtag (s : State) (g : Nat) (x : Cluster) : (s.putCluster g x).jtag = s.jtag := rfl
@[simp] theorem State.putCluster_flash (s : State) (g : Nat) (x : Cluster) : (s.putCluster g x).flash = s.flash := rfl
@[simp] theorem State.putCluster_clock (s : State) (g : Nat) (x : Cluster) : (s.putCluster g x).clock = s.clock := rfl
@[simp] theorem State.putCluster_freeCount (s : State) (g : Nat) (x : Cluster) : (s.putCluster g x).freeCount = s.freeCount := rfl
@[simp] theorem State.putCluster_unit (s : State) (g : Nat) (x : Cluster) : (s.putCluster g x).unit = s.unit := rfl
@[simp] theorem State.putCluster_rr (s : State) (g : Nat) (x : Cluster) : (s.putCluster g x).rr = s.rr := rfl
@[simp] theorem State.putCluster_schedule (s : State) (g : Nat) (x : Cluster) : (s.putCluster g x).schedule = s.schedule := rfl

/-! ### State.putLine -/

@[simp] theorem State.putLine_core (s : State) (x : LineInfo) : (s.putLine x).core = s.core := rfl
@[simp] theorem State.putLine_others (s : State) (x : LineInfo) : (s.putLine x).others = s.others := rfl
@[simp] theorem State.putLine_clusters (s : State) (x : LineInfo) : (s.putLine x).clusters = s.clusters := rfl
@[simp] theorem State.putLine_mem (s : State) (x : LineInfo) : (s.putLine x).mem = s.mem := rfl
@[simp] theorem State.putLine_lines (s : State) (x : LineInfo) : (s.putLine x).lines = insertLine x s.lines := rfl
@[simp] theorem State.putLine_dir (s : State) (x : LineInfo) : (s.putLine x).dir = s.dir := rfl
@[simp] theorem State.putLine_regions (s : State) (x : LineInfo) : (s.putLine x).regions = s.regions := rfl
@[simp] theorem State.putLine_msgs (s : State) (x : LineInfo) : (s.putLine x).msgs = s.msgs := rfl
@[simp] theorem State.putLine_homeQ (s : State) (x : LineInfo) : (s.putLine x).homeQ = s.homeQ := rfl
@[simp] theorem State.putLine_notices (s : State) (x : LineInfo) : (s.putLine x).notices = s.notices := rfl
@[simp] theorem State.putLine_credits (s : State) (x : LineInfo) : (s.putLine x).credits = s.credits := rfl
@[simp] theorem State.putLine_commitNo (s : State) (x : LineInfo) : (s.putLine x).commitNo = s.commitNo := rfl
@[simp] theorem State.putLine_lost (s : State) (x : LineInfo) : (s.putLine x).lost = s.lost := rfl
@[simp] theorem State.putLine_retain (s : State) (x : LineInfo) : (s.putLine x).retain = s.retain := rfl
@[simp] theorem State.putLine_l2leases (s : State) (x : LineInfo) : (s.putLine x).l2leases = s.l2leases := rfl
@[simp] theorem State.putLine_l2tlb (s : State) (x : LineInfo) : (s.putLine x).l2tlb = s.l2tlb := rfl
@[simp] theorem State.putLine_xreds (s : State) (x : LineInfo) : (s.putLine x).xreds = s.xreds := rfl
@[simp] theorem State.putLine_rounds (s : State) (x : LineInfo) : (s.putLine x).rounds = s.rounds := rfl
@[simp] theorem State.putLine_units (s : State) (x : LineInfo) : (s.putLine x).units = s.units := rfl
@[simp] theorem State.putLine_car0 (s : State) (x : LineInfo) : (s.putLine x).car0 = s.car0 := rfl
@[simp] theorem State.putLine_car1 (s : State) (x : LineInfo) : (s.putLine x).car1 = s.car1 := rfl
@[simp] theorem State.putLine_die0 (s : State) (x : LineInfo) : (s.putLine x).die0 = s.die0 := rfl
@[simp] theorem State.putLine_die1 (s : State) (x : LineInfo) : (s.putLine x).die1 = s.die1 := rfl
@[simp] theorem State.putLine_cancels (s : State) (x : LineInfo) : (s.putLine x).cancels = s.cancels := rfl
@[simp] theorem State.putLine_walks (s : State) (x : LineInfo) : (s.putLine x).walks = s.walks := rfl
@[simp] theorem State.putLine_chip0 (s : State) (x : LineInfo) : (s.putLine x).chip0 = s.chip0 := rfl
@[simp] theorem State.putLine_chip1 (s : State) (x : LineInfo) : (s.putLine x).chip1 = s.chip1 := rfl
@[simp] theorem State.putLine_contexts (s : State) (x : LineInfo) : (s.putLine x).contexts = s.contexts := rfl
@[simp] theorem State.putLine_launches (s : State) (x : LineInfo) : (s.putLine x).launches = s.launches := rfl
@[simp] theorem State.putLine_nextLaunch (s : State) (x : LineInfo) : (s.putLine x).nextLaunch = s.nextLaunch := rfl
@[simp] theorem State.putLine_queues (s : State) (x : LineInfo) : (s.putLine x).queues = s.queues := rfl
@[simp] theorem State.putLine_rrptr (s : State) (x : LineInfo) : (s.putLine x).rrptr = s.rrptr := rfl
@[simp] theorem State.putLine_strands (s : State) (x : LineInfo) : (s.putLine x).strands = s.strands := rfl
@[simp] theorem State.putLine_saved (s : State) (x : LineInfo) : (s.putLine x).saved = s.saved := rfl
@[simp] theorem State.putLine_savedClusters (s : State) (x : LineInfo) : (s.putLine x).savedClusters = s.savedClusters := rfl
@[simp] theorem State.putLine_admin (s : State) (x : LineInfo) : (s.putLine x).admin = s.admin := rfl
@[simp] theorem State.putLine_tables (s : State) (x : LineInfo) : (s.putLine x).tables = s.tables := rfl
@[simp] theorem State.putLine_telemetry (s : State) (x : LineInfo) : (s.putLine x).telemetry = s.telemetry := rfl
@[simp] theorem State.putLine_devid (s : State) (x : LineInfo) : (s.putLine x).devid = s.devid := rfl
@[simp] theorem State.putLine_devValid (s : State) (x : LineInfo) : (s.putLine x).devValid = s.devValid := rfl
@[simp] theorem State.putLine_fabric (s : State) (x : LineInfo) : (s.putLine x).fabric = s.fabric := rfl
@[simp] theorem State.putLine_msix (s : State) (x : LineInfo) : (s.putLine x).msix = s.msix := rfl
@[simp] theorem State.putLine_hostData (s : State) (x : LineInfo) : (s.putLine x).hostData = s.hostData := rfl
@[simp] theorem State.putLine_bringup (s : State) (x : LineInfo) : (s.putLine x).bringup = s.bringup := rfl
@[simp] theorem State.putLine_pcieTrained (s : State) (x : LineInfo) : (s.putLine x).pcieTrained = s.pcieTrained := rfl
@[simp] theorem State.putLine_power (s : State) (x : LineInfo) : (s.putLine x).power = s.power := rfl
@[simp] theorem State.putLine_jtag (s : State) (x : LineInfo) : (s.putLine x).jtag = s.jtag := rfl
@[simp] theorem State.putLine_flash (s : State) (x : LineInfo) : (s.putLine x).flash = s.flash := rfl
@[simp] theorem State.putLine_clock (s : State) (x : LineInfo) : (s.putLine x).clock = s.clock := rfl
@[simp] theorem State.putLine_freeCount (s : State) (x : LineInfo) : (s.putLine x).freeCount = s.freeCount := rfl
@[simp] theorem State.putLine_unit (s : State) (x : LineInfo) : (s.putLine x).unit = s.unit := rfl
@[simp] theorem State.putLine_rr (s : State) (x : LineInfo) : (s.putLine x).rr = s.rr := rfl
@[simp] theorem State.putLine_schedule (s : State) (x : LineInfo) : (s.putLine x).schedule = s.schedule := rfl

/-! ### State.mapCtx -/

@[simp] theorem State.mapCtx_core (s : State) (i : Nat) (f : Context → Context) : (s.mapCtx i f).core = s.core := rfl
@[simp] theorem State.mapCtx_others (s : State) (i : Nat) (f : Context → Context) : (s.mapCtx i f).others = s.others := rfl
@[simp] theorem State.mapCtx_clusters (s : State) (i : Nat) (f : Context → Context) : (s.mapCtx i f).clusters = s.clusters := rfl
@[simp] theorem State.mapCtx_mem (s : State) (i : Nat) (f : Context → Context) : (s.mapCtx i f).mem = s.mem := rfl
@[simp] theorem State.mapCtx_lines (s : State) (i : Nat) (f : Context → Context) : (s.mapCtx i f).lines = s.lines := rfl
@[simp] theorem State.mapCtx_dir (s : State) (i : Nat) (f : Context → Context) : (s.mapCtx i f).dir = s.dir := rfl
@[simp] theorem State.mapCtx_regions (s : State) (i : Nat) (f : Context → Context) : (s.mapCtx i f).regions = s.regions := rfl
@[simp] theorem State.mapCtx_msgs (s : State) (i : Nat) (f : Context → Context) : (s.mapCtx i f).msgs = s.msgs := rfl
@[simp] theorem State.mapCtx_homeQ (s : State) (i : Nat) (f : Context → Context) : (s.mapCtx i f).homeQ = s.homeQ := rfl
@[simp] theorem State.mapCtx_notices (s : State) (i : Nat) (f : Context → Context) : (s.mapCtx i f).notices = s.notices := rfl
@[simp] theorem State.mapCtx_credits (s : State) (i : Nat) (f : Context → Context) : (s.mapCtx i f).credits = s.credits := rfl
@[simp] theorem State.mapCtx_commitNo (s : State) (i : Nat) (f : Context → Context) : (s.mapCtx i f).commitNo = s.commitNo := rfl
@[simp] theorem State.mapCtx_lost (s : State) (i : Nat) (f : Context → Context) : (s.mapCtx i f).lost = s.lost := rfl
@[simp] theorem State.mapCtx_retain (s : State) (i : Nat) (f : Context → Context) : (s.mapCtx i f).retain = s.retain := rfl
@[simp] theorem State.mapCtx_l2leases (s : State) (i : Nat) (f : Context → Context) : (s.mapCtx i f).l2leases = s.l2leases := rfl
@[simp] theorem State.mapCtx_l2tlb (s : State) (i : Nat) (f : Context → Context) : (s.mapCtx i f).l2tlb = s.l2tlb := rfl
@[simp] theorem State.mapCtx_xreds (s : State) (i : Nat) (f : Context → Context) : (s.mapCtx i f).xreds = s.xreds := rfl
@[simp] theorem State.mapCtx_rounds (s : State) (i : Nat) (f : Context → Context) : (s.mapCtx i f).rounds = s.rounds := rfl
@[simp] theorem State.mapCtx_units (s : State) (i : Nat) (f : Context → Context) : (s.mapCtx i f).units = s.units := rfl
@[simp] theorem State.mapCtx_car0 (s : State) (i : Nat) (f : Context → Context) : (s.mapCtx i f).car0 = s.car0 := rfl
@[simp] theorem State.mapCtx_car1 (s : State) (i : Nat) (f : Context → Context) : (s.mapCtx i f).car1 = s.car1 := rfl
@[simp] theorem State.mapCtx_die0 (s : State) (i : Nat) (f : Context → Context) : (s.mapCtx i f).die0 = s.die0 := rfl
@[simp] theorem State.mapCtx_die1 (s : State) (i : Nat) (f : Context → Context) : (s.mapCtx i f).die1 = s.die1 := rfl
@[simp] theorem State.mapCtx_cancels (s : State) (i : Nat) (f : Context → Context) : (s.mapCtx i f).cancels = s.cancels := rfl
@[simp] theorem State.mapCtx_walks (s : State) (i : Nat) (f : Context → Context) : (s.mapCtx i f).walks = s.walks := rfl
@[simp] theorem State.mapCtx_chip0 (s : State) (i : Nat) (f : Context → Context) : (s.mapCtx i f).chip0 = s.chip0 := rfl
@[simp] theorem State.mapCtx_chip1 (s : State) (i : Nat) (f : Context → Context) : (s.mapCtx i f).chip1 = s.chip1 := rfl
@[simp] theorem State.mapCtx_contexts (s : State) (i : Nat) (f : Context → Context) : (s.mapCtx i f).contexts = s.contexts.map fun c => if c.id = i then f c else c := rfl
@[simp] theorem State.mapCtx_launches (s : State) (i : Nat) (f : Context → Context) : (s.mapCtx i f).launches = s.launches := rfl
@[simp] theorem State.mapCtx_nextLaunch (s : State) (i : Nat) (f : Context → Context) : (s.mapCtx i f).nextLaunch = s.nextLaunch := rfl
@[simp] theorem State.mapCtx_queues (s : State) (i : Nat) (f : Context → Context) : (s.mapCtx i f).queues = s.queues := rfl
@[simp] theorem State.mapCtx_rrptr (s : State) (i : Nat) (f : Context → Context) : (s.mapCtx i f).rrptr = s.rrptr := rfl
@[simp] theorem State.mapCtx_strands (s : State) (i : Nat) (f : Context → Context) : (s.mapCtx i f).strands = s.strands := rfl
@[simp] theorem State.mapCtx_saved (s : State) (i : Nat) (f : Context → Context) : (s.mapCtx i f).saved = s.saved := rfl
@[simp] theorem State.mapCtx_savedClusters (s : State) (i : Nat) (f : Context → Context) : (s.mapCtx i f).savedClusters = s.savedClusters := rfl
@[simp] theorem State.mapCtx_admin (s : State) (i : Nat) (f : Context → Context) : (s.mapCtx i f).admin = s.admin := rfl
@[simp] theorem State.mapCtx_tables (s : State) (i : Nat) (f : Context → Context) : (s.mapCtx i f).tables = s.tables := rfl
@[simp] theorem State.mapCtx_telemetry (s : State) (i : Nat) (f : Context → Context) : (s.mapCtx i f).telemetry = s.telemetry := rfl
@[simp] theorem State.mapCtx_devid (s : State) (i : Nat) (f : Context → Context) : (s.mapCtx i f).devid = s.devid := rfl
@[simp] theorem State.mapCtx_devValid (s : State) (i : Nat) (f : Context → Context) : (s.mapCtx i f).devValid = s.devValid := rfl
@[simp] theorem State.mapCtx_fabric (s : State) (i : Nat) (f : Context → Context) : (s.mapCtx i f).fabric = s.fabric := rfl
@[simp] theorem State.mapCtx_msix (s : State) (i : Nat) (f : Context → Context) : (s.mapCtx i f).msix = s.msix := rfl
@[simp] theorem State.mapCtx_hostData (s : State) (i : Nat) (f : Context → Context) : (s.mapCtx i f).hostData = s.hostData := rfl
@[simp] theorem State.mapCtx_bringup (s : State) (i : Nat) (f : Context → Context) : (s.mapCtx i f).bringup = s.bringup := rfl
@[simp] theorem State.mapCtx_pcieTrained (s : State) (i : Nat) (f : Context → Context) : (s.mapCtx i f).pcieTrained = s.pcieTrained := rfl
@[simp] theorem State.mapCtx_power (s : State) (i : Nat) (f : Context → Context) : (s.mapCtx i f).power = s.power := rfl
@[simp] theorem State.mapCtx_jtag (s : State) (i : Nat) (f : Context → Context) : (s.mapCtx i f).jtag = s.jtag := rfl
@[simp] theorem State.mapCtx_flash (s : State) (i : Nat) (f : Context → Context) : (s.mapCtx i f).flash = s.flash := rfl
@[simp] theorem State.mapCtx_clock (s : State) (i : Nat) (f : Context → Context) : (s.mapCtx i f).clock = s.clock := rfl
@[simp] theorem State.mapCtx_freeCount (s : State) (i : Nat) (f : Context → Context) : (s.mapCtx i f).freeCount = s.freeCount := rfl
@[simp] theorem State.mapCtx_unit (s : State) (i : Nat) (f : Context → Context) : (s.mapCtx i f).unit = s.unit := rfl
@[simp] theorem State.mapCtx_rr (s : State) (i : Nat) (f : Context → Context) : (s.mapCtx i f).rr = s.rr := rfl
@[simp] theorem State.mapCtx_schedule (s : State) (i : Nat) (f : Context → Context) : (s.mapCtx i f).schedule = s.schedule := rfl

/-! ### State.mapLaunch -/

@[simp] theorem State.mapLaunch_core (s : State) (i : Nat) (f : Launch → Launch) : (s.mapLaunch i f).core = s.core := rfl
@[simp] theorem State.mapLaunch_others (s : State) (i : Nat) (f : Launch → Launch) : (s.mapLaunch i f).others = s.others := rfl
@[simp] theorem State.mapLaunch_clusters (s : State) (i : Nat) (f : Launch → Launch) : (s.mapLaunch i f).clusters = s.clusters := rfl
@[simp] theorem State.mapLaunch_mem (s : State) (i : Nat) (f : Launch → Launch) : (s.mapLaunch i f).mem = s.mem := rfl
@[simp] theorem State.mapLaunch_lines (s : State) (i : Nat) (f : Launch → Launch) : (s.mapLaunch i f).lines = s.lines := rfl
@[simp] theorem State.mapLaunch_dir (s : State) (i : Nat) (f : Launch → Launch) : (s.mapLaunch i f).dir = s.dir := rfl
@[simp] theorem State.mapLaunch_regions (s : State) (i : Nat) (f : Launch → Launch) : (s.mapLaunch i f).regions = s.regions := rfl
@[simp] theorem State.mapLaunch_msgs (s : State) (i : Nat) (f : Launch → Launch) : (s.mapLaunch i f).msgs = s.msgs := rfl
@[simp] theorem State.mapLaunch_homeQ (s : State) (i : Nat) (f : Launch → Launch) : (s.mapLaunch i f).homeQ = s.homeQ := rfl
@[simp] theorem State.mapLaunch_notices (s : State) (i : Nat) (f : Launch → Launch) : (s.mapLaunch i f).notices = s.notices := rfl
@[simp] theorem State.mapLaunch_credits (s : State) (i : Nat) (f : Launch → Launch) : (s.mapLaunch i f).credits = s.credits := rfl
@[simp] theorem State.mapLaunch_commitNo (s : State) (i : Nat) (f : Launch → Launch) : (s.mapLaunch i f).commitNo = s.commitNo := rfl
@[simp] theorem State.mapLaunch_lost (s : State) (i : Nat) (f : Launch → Launch) : (s.mapLaunch i f).lost = s.lost := rfl
@[simp] theorem State.mapLaunch_retain (s : State) (i : Nat) (f : Launch → Launch) : (s.mapLaunch i f).retain = s.retain := rfl
@[simp] theorem State.mapLaunch_l2leases (s : State) (i : Nat) (f : Launch → Launch) : (s.mapLaunch i f).l2leases = s.l2leases := rfl
@[simp] theorem State.mapLaunch_l2tlb (s : State) (i : Nat) (f : Launch → Launch) : (s.mapLaunch i f).l2tlb = s.l2tlb := rfl
@[simp] theorem State.mapLaunch_xreds (s : State) (i : Nat) (f : Launch → Launch) : (s.mapLaunch i f).xreds = s.xreds := rfl
@[simp] theorem State.mapLaunch_rounds (s : State) (i : Nat) (f : Launch → Launch) : (s.mapLaunch i f).rounds = s.rounds := rfl
@[simp] theorem State.mapLaunch_units (s : State) (i : Nat) (f : Launch → Launch) : (s.mapLaunch i f).units = s.units := rfl
@[simp] theorem State.mapLaunch_car0 (s : State) (i : Nat) (f : Launch → Launch) : (s.mapLaunch i f).car0 = s.car0 := rfl
@[simp] theorem State.mapLaunch_car1 (s : State) (i : Nat) (f : Launch → Launch) : (s.mapLaunch i f).car1 = s.car1 := rfl
@[simp] theorem State.mapLaunch_die0 (s : State) (i : Nat) (f : Launch → Launch) : (s.mapLaunch i f).die0 = s.die0 := rfl
@[simp] theorem State.mapLaunch_die1 (s : State) (i : Nat) (f : Launch → Launch) : (s.mapLaunch i f).die1 = s.die1 := rfl
@[simp] theorem State.mapLaunch_cancels (s : State) (i : Nat) (f : Launch → Launch) : (s.mapLaunch i f).cancels = s.cancels := rfl
@[simp] theorem State.mapLaunch_walks (s : State) (i : Nat) (f : Launch → Launch) : (s.mapLaunch i f).walks = s.walks := rfl
@[simp] theorem State.mapLaunch_chip0 (s : State) (i : Nat) (f : Launch → Launch) : (s.mapLaunch i f).chip0 = s.chip0 := rfl
@[simp] theorem State.mapLaunch_chip1 (s : State) (i : Nat) (f : Launch → Launch) : (s.mapLaunch i f).chip1 = s.chip1 := rfl
@[simp] theorem State.mapLaunch_contexts (s : State) (i : Nat) (f : Launch → Launch) : (s.mapLaunch i f).contexts = s.contexts := rfl
@[simp] theorem State.mapLaunch_launches (s : State) (i : Nat) (f : Launch → Launch) : (s.mapLaunch i f).launches = s.launches.map fun l => if l.id = i then f l else l := rfl
@[simp] theorem State.mapLaunch_nextLaunch (s : State) (i : Nat) (f : Launch → Launch) : (s.mapLaunch i f).nextLaunch = s.nextLaunch := rfl
@[simp] theorem State.mapLaunch_queues (s : State) (i : Nat) (f : Launch → Launch) : (s.mapLaunch i f).queues = s.queues := rfl
@[simp] theorem State.mapLaunch_rrptr (s : State) (i : Nat) (f : Launch → Launch) : (s.mapLaunch i f).rrptr = s.rrptr := rfl
@[simp] theorem State.mapLaunch_strands (s : State) (i : Nat) (f : Launch → Launch) : (s.mapLaunch i f).strands = s.strands := rfl
@[simp] theorem State.mapLaunch_saved (s : State) (i : Nat) (f : Launch → Launch) : (s.mapLaunch i f).saved = s.saved := rfl
@[simp] theorem State.mapLaunch_savedClusters (s : State) (i : Nat) (f : Launch → Launch) : (s.mapLaunch i f).savedClusters = s.savedClusters := rfl
@[simp] theorem State.mapLaunch_admin (s : State) (i : Nat) (f : Launch → Launch) : (s.mapLaunch i f).admin = s.admin := rfl
@[simp] theorem State.mapLaunch_tables (s : State) (i : Nat) (f : Launch → Launch) : (s.mapLaunch i f).tables = s.tables := rfl
@[simp] theorem State.mapLaunch_telemetry (s : State) (i : Nat) (f : Launch → Launch) : (s.mapLaunch i f).telemetry = s.telemetry := rfl
@[simp] theorem State.mapLaunch_devid (s : State) (i : Nat) (f : Launch → Launch) : (s.mapLaunch i f).devid = s.devid := rfl
@[simp] theorem State.mapLaunch_devValid (s : State) (i : Nat) (f : Launch → Launch) : (s.mapLaunch i f).devValid = s.devValid := rfl
@[simp] theorem State.mapLaunch_fabric (s : State) (i : Nat) (f : Launch → Launch) : (s.mapLaunch i f).fabric = s.fabric := rfl
@[simp] theorem State.mapLaunch_msix (s : State) (i : Nat) (f : Launch → Launch) : (s.mapLaunch i f).msix = s.msix := rfl
@[simp] theorem State.mapLaunch_hostData (s : State) (i : Nat) (f : Launch → Launch) : (s.mapLaunch i f).hostData = s.hostData := rfl
@[simp] theorem State.mapLaunch_bringup (s : State) (i : Nat) (f : Launch → Launch) : (s.mapLaunch i f).bringup = s.bringup := rfl
@[simp] theorem State.mapLaunch_pcieTrained (s : State) (i : Nat) (f : Launch → Launch) : (s.mapLaunch i f).pcieTrained = s.pcieTrained := rfl
@[simp] theorem State.mapLaunch_power (s : State) (i : Nat) (f : Launch → Launch) : (s.mapLaunch i f).power = s.power := rfl
@[simp] theorem State.mapLaunch_jtag (s : State) (i : Nat) (f : Launch → Launch) : (s.mapLaunch i f).jtag = s.jtag := rfl
@[simp] theorem State.mapLaunch_flash (s : State) (i : Nat) (f : Launch → Launch) : (s.mapLaunch i f).flash = s.flash := rfl
@[simp] theorem State.mapLaunch_clock (s : State) (i : Nat) (f : Launch → Launch) : (s.mapLaunch i f).clock = s.clock := rfl
@[simp] theorem State.mapLaunch_freeCount (s : State) (i : Nat) (f : Launch → Launch) : (s.mapLaunch i f).freeCount = s.freeCount := rfl
@[simp] theorem State.mapLaunch_unit (s : State) (i : Nat) (f : Launch → Launch) : (s.mapLaunch i f).unit = s.unit := rfl
@[simp] theorem State.mapLaunch_rr (s : State) (i : Nat) (f : Launch → Launch) : (s.mapLaunch i f).rr = s.rr := rfl
@[simp] theorem State.mapLaunch_schedule (s : State) (i : Nat) (f : Launch → Launch) : (s.mapLaunch i f).schedule = s.schedule := rfl

/-! ### State.mapQueue -/

@[simp] theorem State.mapQueue_core (s : State) (i : Nat) (f : Queue → Queue) : (s.mapQueue i f).core = s.core := rfl
@[simp] theorem State.mapQueue_others (s : State) (i : Nat) (f : Queue → Queue) : (s.mapQueue i f).others = s.others := rfl
@[simp] theorem State.mapQueue_clusters (s : State) (i : Nat) (f : Queue → Queue) : (s.mapQueue i f).clusters = s.clusters := rfl
@[simp] theorem State.mapQueue_mem (s : State) (i : Nat) (f : Queue → Queue) : (s.mapQueue i f).mem = s.mem := rfl
@[simp] theorem State.mapQueue_lines (s : State) (i : Nat) (f : Queue → Queue) : (s.mapQueue i f).lines = s.lines := rfl
@[simp] theorem State.mapQueue_dir (s : State) (i : Nat) (f : Queue → Queue) : (s.mapQueue i f).dir = s.dir := rfl
@[simp] theorem State.mapQueue_regions (s : State) (i : Nat) (f : Queue → Queue) : (s.mapQueue i f).regions = s.regions := rfl
@[simp] theorem State.mapQueue_msgs (s : State) (i : Nat) (f : Queue → Queue) : (s.mapQueue i f).msgs = s.msgs := rfl
@[simp] theorem State.mapQueue_homeQ (s : State) (i : Nat) (f : Queue → Queue) : (s.mapQueue i f).homeQ = s.homeQ := rfl
@[simp] theorem State.mapQueue_notices (s : State) (i : Nat) (f : Queue → Queue) : (s.mapQueue i f).notices = s.notices := rfl
@[simp] theorem State.mapQueue_credits (s : State) (i : Nat) (f : Queue → Queue) : (s.mapQueue i f).credits = s.credits := rfl
@[simp] theorem State.mapQueue_commitNo (s : State) (i : Nat) (f : Queue → Queue) : (s.mapQueue i f).commitNo = s.commitNo := rfl
@[simp] theorem State.mapQueue_lost (s : State) (i : Nat) (f : Queue → Queue) : (s.mapQueue i f).lost = s.lost := rfl
@[simp] theorem State.mapQueue_retain (s : State) (i : Nat) (f : Queue → Queue) : (s.mapQueue i f).retain = s.retain := rfl
@[simp] theorem State.mapQueue_l2leases (s : State) (i : Nat) (f : Queue → Queue) : (s.mapQueue i f).l2leases = s.l2leases := rfl
@[simp] theorem State.mapQueue_l2tlb (s : State) (i : Nat) (f : Queue → Queue) : (s.mapQueue i f).l2tlb = s.l2tlb := rfl
@[simp] theorem State.mapQueue_xreds (s : State) (i : Nat) (f : Queue → Queue) : (s.mapQueue i f).xreds = s.xreds := rfl
@[simp] theorem State.mapQueue_rounds (s : State) (i : Nat) (f : Queue → Queue) : (s.mapQueue i f).rounds = s.rounds := rfl
@[simp] theorem State.mapQueue_units (s : State) (i : Nat) (f : Queue → Queue) : (s.mapQueue i f).units = s.units := rfl
@[simp] theorem State.mapQueue_car0 (s : State) (i : Nat) (f : Queue → Queue) : (s.mapQueue i f).car0 = s.car0 := rfl
@[simp] theorem State.mapQueue_car1 (s : State) (i : Nat) (f : Queue → Queue) : (s.mapQueue i f).car1 = s.car1 := rfl
@[simp] theorem State.mapQueue_die0 (s : State) (i : Nat) (f : Queue → Queue) : (s.mapQueue i f).die0 = s.die0 := rfl
@[simp] theorem State.mapQueue_die1 (s : State) (i : Nat) (f : Queue → Queue) : (s.mapQueue i f).die1 = s.die1 := rfl
@[simp] theorem State.mapQueue_cancels (s : State) (i : Nat) (f : Queue → Queue) : (s.mapQueue i f).cancels = s.cancels := rfl
@[simp] theorem State.mapQueue_walks (s : State) (i : Nat) (f : Queue → Queue) : (s.mapQueue i f).walks = s.walks := rfl
@[simp] theorem State.mapQueue_chip0 (s : State) (i : Nat) (f : Queue → Queue) : (s.mapQueue i f).chip0 = s.chip0 := rfl
@[simp] theorem State.mapQueue_chip1 (s : State) (i : Nat) (f : Queue → Queue) : (s.mapQueue i f).chip1 = s.chip1 := rfl
@[simp] theorem State.mapQueue_contexts (s : State) (i : Nat) (f : Queue → Queue) : (s.mapQueue i f).contexts = s.contexts := rfl
@[simp] theorem State.mapQueue_launches (s : State) (i : Nat) (f : Queue → Queue) : (s.mapQueue i f).launches = s.launches := rfl
@[simp] theorem State.mapQueue_nextLaunch (s : State) (i : Nat) (f : Queue → Queue) : (s.mapQueue i f).nextLaunch = s.nextLaunch := rfl
@[simp] theorem State.mapQueue_queues (s : State) (i : Nat) (f : Queue → Queue) : (s.mapQueue i f).queues = s.queues.map fun q => if q.id = i then f q else q := rfl
@[simp] theorem State.mapQueue_rrptr (s : State) (i : Nat) (f : Queue → Queue) : (s.mapQueue i f).rrptr = s.rrptr := rfl
@[simp] theorem State.mapQueue_strands (s : State) (i : Nat) (f : Queue → Queue) : (s.mapQueue i f).strands = s.strands := rfl
@[simp] theorem State.mapQueue_saved (s : State) (i : Nat) (f : Queue → Queue) : (s.mapQueue i f).saved = s.saved := rfl
@[simp] theorem State.mapQueue_savedClusters (s : State) (i : Nat) (f : Queue → Queue) : (s.mapQueue i f).savedClusters = s.savedClusters := rfl
@[simp] theorem State.mapQueue_admin (s : State) (i : Nat) (f : Queue → Queue) : (s.mapQueue i f).admin = s.admin := rfl
@[simp] theorem State.mapQueue_tables (s : State) (i : Nat) (f : Queue → Queue) : (s.mapQueue i f).tables = s.tables := rfl
@[simp] theorem State.mapQueue_telemetry (s : State) (i : Nat) (f : Queue → Queue) : (s.mapQueue i f).telemetry = s.telemetry := rfl
@[simp] theorem State.mapQueue_devid (s : State) (i : Nat) (f : Queue → Queue) : (s.mapQueue i f).devid = s.devid := rfl
@[simp] theorem State.mapQueue_devValid (s : State) (i : Nat) (f : Queue → Queue) : (s.mapQueue i f).devValid = s.devValid := rfl
@[simp] theorem State.mapQueue_fabric (s : State) (i : Nat) (f : Queue → Queue) : (s.mapQueue i f).fabric = s.fabric := rfl
@[simp] theorem State.mapQueue_msix (s : State) (i : Nat) (f : Queue → Queue) : (s.mapQueue i f).msix = s.msix := rfl
@[simp] theorem State.mapQueue_hostData (s : State) (i : Nat) (f : Queue → Queue) : (s.mapQueue i f).hostData = s.hostData := rfl
@[simp] theorem State.mapQueue_bringup (s : State) (i : Nat) (f : Queue → Queue) : (s.mapQueue i f).bringup = s.bringup := rfl
@[simp] theorem State.mapQueue_pcieTrained (s : State) (i : Nat) (f : Queue → Queue) : (s.mapQueue i f).pcieTrained = s.pcieTrained := rfl
@[simp] theorem State.mapQueue_power (s : State) (i : Nat) (f : Queue → Queue) : (s.mapQueue i f).power = s.power := rfl
@[simp] theorem State.mapQueue_jtag (s : State) (i : Nat) (f : Queue → Queue) : (s.mapQueue i f).jtag = s.jtag := rfl
@[simp] theorem State.mapQueue_flash (s : State) (i : Nat) (f : Queue → Queue) : (s.mapQueue i f).flash = s.flash := rfl
@[simp] theorem State.mapQueue_clock (s : State) (i : Nat) (f : Queue → Queue) : (s.mapQueue i f).clock = s.clock := rfl
@[simp] theorem State.mapQueue_freeCount (s : State) (i : Nat) (f : Queue → Queue) : (s.mapQueue i f).freeCount = s.freeCount := rfl
@[simp] theorem State.mapQueue_unit (s : State) (i : Nat) (f : Queue → Queue) : (s.mapQueue i f).unit = s.unit := rfl
@[simp] theorem State.mapQueue_rr (s : State) (i : Nat) (f : Queue → Queue) : (s.mapQueue i f).rr = s.rr := rfl
@[simp] theorem State.mapQueue_schedule (s : State) (i : Nat) (f : Queue → Queue) : (s.mapQueue i f).schedule = s.schedule := rfl

/-! ### State.putDie -/

@[simp] theorem State.putDie_core (s : State) (d : Nat) (x : Die) : (s.putDie d x).core = s.core := by unfold State.putDie; split <;> rfl
@[simp] theorem State.putDie_others (s : State) (d : Nat) (x : Die) : (s.putDie d x).others = s.others := by unfold State.putDie; split <;> rfl
@[simp] theorem State.putDie_clusters (s : State) (d : Nat) (x : Die) : (s.putDie d x).clusters = s.clusters := by unfold State.putDie; split <;> rfl
@[simp] theorem State.putDie_mem (s : State) (d : Nat) (x : Die) : (s.putDie d x).mem = s.mem := by unfold State.putDie; split <;> rfl
@[simp] theorem State.putDie_lines (s : State) (d : Nat) (x : Die) : (s.putDie d x).lines = s.lines := by unfold State.putDie; split <;> rfl
@[simp] theorem State.putDie_dir (s : State) (d : Nat) (x : Die) : (s.putDie d x).dir = s.dir := by unfold State.putDie; split <;> rfl
@[simp] theorem State.putDie_regions (s : State) (d : Nat) (x : Die) : (s.putDie d x).regions = s.regions := by unfold State.putDie; split <;> rfl
@[simp] theorem State.putDie_msgs (s : State) (d : Nat) (x : Die) : (s.putDie d x).msgs = s.msgs := by unfold State.putDie; split <;> rfl
@[simp] theorem State.putDie_homeQ (s : State) (d : Nat) (x : Die) : (s.putDie d x).homeQ = s.homeQ := by unfold State.putDie; split <;> rfl
@[simp] theorem State.putDie_notices (s : State) (d : Nat) (x : Die) : (s.putDie d x).notices = s.notices := by unfold State.putDie; split <;> rfl
@[simp] theorem State.putDie_credits (s : State) (d : Nat) (x : Die) : (s.putDie d x).credits = s.credits := by unfold State.putDie; split <;> rfl
@[simp] theorem State.putDie_commitNo (s : State) (d : Nat) (x : Die) : (s.putDie d x).commitNo = s.commitNo := by unfold State.putDie; split <;> rfl
@[simp] theorem State.putDie_lost (s : State) (d : Nat) (x : Die) : (s.putDie d x).lost = s.lost := by unfold State.putDie; split <;> rfl
@[simp] theorem State.putDie_retain (s : State) (d : Nat) (x : Die) : (s.putDie d x).retain = s.retain := by unfold State.putDie; split <;> rfl
@[simp] theorem State.putDie_l2leases (s : State) (d : Nat) (x : Die) : (s.putDie d x).l2leases = s.l2leases := by unfold State.putDie; split <;> rfl
@[simp] theorem State.putDie_l2tlb (s : State) (d : Nat) (x : Die) : (s.putDie d x).l2tlb = s.l2tlb := by unfold State.putDie; split <;> rfl
@[simp] theorem State.putDie_xreds (s : State) (d : Nat) (x : Die) : (s.putDie d x).xreds = s.xreds := by unfold State.putDie; split <;> rfl
@[simp] theorem State.putDie_rounds (s : State) (d : Nat) (x : Die) : (s.putDie d x).rounds = s.rounds := by unfold State.putDie; split <;> rfl
@[simp] theorem State.putDie_units (s : State) (d : Nat) (x : Die) : (s.putDie d x).units = s.units := by unfold State.putDie; split <;> rfl
@[simp] theorem State.putDie_car0 (s : State) (d : Nat) (x : Die) : (s.putDie d x).car0 = s.car0 := by unfold State.putDie; split <;> rfl
@[simp] theorem State.putDie_car1 (s : State) (d : Nat) (x : Die) : (s.putDie d x).car1 = s.car1 := by unfold State.putDie; split <;> rfl
@[simp] theorem State.putDie_die0 (s : State) (d : Nat) (x : Die) : (s.putDie d x).die0 = if d = 0 then x else s.die0 := by unfold State.putDie; split <;> rfl
@[simp] theorem State.putDie_die1 (s : State) (d : Nat) (x : Die) : (s.putDie d x).die1 = if d = 0 then s.die1 else x := by unfold State.putDie; split <;> rfl
@[simp] theorem State.putDie_cancels (s : State) (d : Nat) (x : Die) : (s.putDie d x).cancels = s.cancels := by unfold State.putDie; split <;> rfl
@[simp] theorem State.putDie_walks (s : State) (d : Nat) (x : Die) : (s.putDie d x).walks = s.walks := by unfold State.putDie; split <;> rfl
@[simp] theorem State.putDie_chip0 (s : State) (d : Nat) (x : Die) : (s.putDie d x).chip0 = s.chip0 := by unfold State.putDie; split <;> rfl
@[simp] theorem State.putDie_chip1 (s : State) (d : Nat) (x : Die) : (s.putDie d x).chip1 = s.chip1 := by unfold State.putDie; split <;> rfl
@[simp] theorem State.putDie_contexts (s : State) (d : Nat) (x : Die) : (s.putDie d x).contexts = s.contexts := by unfold State.putDie; split <;> rfl
@[simp] theorem State.putDie_launches (s : State) (d : Nat) (x : Die) : (s.putDie d x).launches = s.launches := by unfold State.putDie; split <;> rfl
@[simp] theorem State.putDie_nextLaunch (s : State) (d : Nat) (x : Die) : (s.putDie d x).nextLaunch = s.nextLaunch := by unfold State.putDie; split <;> rfl
@[simp] theorem State.putDie_queues (s : State) (d : Nat) (x : Die) : (s.putDie d x).queues = s.queues := by unfold State.putDie; split <;> rfl
@[simp] theorem State.putDie_rrptr (s : State) (d : Nat) (x : Die) : (s.putDie d x).rrptr = s.rrptr := by unfold State.putDie; split <;> rfl
@[simp] theorem State.putDie_strands (s : State) (d : Nat) (x : Die) : (s.putDie d x).strands = s.strands := by unfold State.putDie; split <;> rfl
@[simp] theorem State.putDie_saved (s : State) (d : Nat) (x : Die) : (s.putDie d x).saved = s.saved := by unfold State.putDie; split <;> rfl
@[simp] theorem State.putDie_savedClusters (s : State) (d : Nat) (x : Die) : (s.putDie d x).savedClusters = s.savedClusters := by unfold State.putDie; split <;> rfl
@[simp] theorem State.putDie_admin (s : State) (d : Nat) (x : Die) : (s.putDie d x).admin = s.admin := by unfold State.putDie; split <;> rfl
@[simp] theorem State.putDie_tables (s : State) (d : Nat) (x : Die) : (s.putDie d x).tables = s.tables := by unfold State.putDie; split <;> rfl
@[simp] theorem State.putDie_telemetry (s : State) (d : Nat) (x : Die) : (s.putDie d x).telemetry = s.telemetry := by unfold State.putDie; split <;> rfl
@[simp] theorem State.putDie_devid (s : State) (d : Nat) (x : Die) : (s.putDie d x).devid = s.devid := by unfold State.putDie; split <;> rfl
@[simp] theorem State.putDie_devValid (s : State) (d : Nat) (x : Die) : (s.putDie d x).devValid = s.devValid := by unfold State.putDie; split <;> rfl
@[simp] theorem State.putDie_fabric (s : State) (d : Nat) (x : Die) : (s.putDie d x).fabric = s.fabric := by unfold State.putDie; split <;> rfl
@[simp] theorem State.putDie_msix (s : State) (d : Nat) (x : Die) : (s.putDie d x).msix = s.msix := by unfold State.putDie; split <;> rfl
@[simp] theorem State.putDie_hostData (s : State) (d : Nat) (x : Die) : (s.putDie d x).hostData = s.hostData := by unfold State.putDie; split <;> rfl
@[simp] theorem State.putDie_bringup (s : State) (d : Nat) (x : Die) : (s.putDie d x).bringup = s.bringup := by unfold State.putDie; split <;> rfl
@[simp] theorem State.putDie_pcieTrained (s : State) (d : Nat) (x : Die) : (s.putDie d x).pcieTrained = s.pcieTrained := by unfold State.putDie; split <;> rfl
@[simp] theorem State.putDie_power (s : State) (d : Nat) (x : Die) : (s.putDie d x).power = s.power := by unfold State.putDie; split <;> rfl
@[simp] theorem State.putDie_jtag (s : State) (d : Nat) (x : Die) : (s.putDie d x).jtag = s.jtag := by unfold State.putDie; split <;> rfl
@[simp] theorem State.putDie_flash (s : State) (d : Nat) (x : Die) : (s.putDie d x).flash = s.flash := by unfold State.putDie; split <;> rfl
@[simp] theorem State.putDie_clock (s : State) (d : Nat) (x : Die) : (s.putDie d x).clock = s.clock := by unfold State.putDie; split <;> rfl
@[simp] theorem State.putDie_freeCount (s : State) (d : Nat) (x : Die) : (s.putDie d x).freeCount = s.freeCount := by unfold State.putDie; split <;> rfl
@[simp] theorem State.putDie_unit (s : State) (d : Nat) (x : Die) : (s.putDie d x).unit = s.unit := by unfold State.putDie; split <;> rfl
@[simp] theorem State.putDie_rr (s : State) (d : Nat) (x : Die) : (s.putDie d x).rr = s.rr := by unfold State.putDie; split <;> rfl
@[simp] theorem State.putDie_schedule (s : State) (d : Nat) (x : Die) : (s.putDie d x).schedule = s.schedule := by unfold State.putDie; split <;> rfl

/-! ### State.putChip -/

@[simp] theorem State.putChip_core (s : State) (d : Nat) (x : Chip) : (s.putChip d x).core = s.core := by unfold State.putChip; split <;> rfl
@[simp] theorem State.putChip_others (s : State) (d : Nat) (x : Chip) : (s.putChip d x).others = s.others := by unfold State.putChip; split <;> rfl
@[simp] theorem State.putChip_clusters (s : State) (d : Nat) (x : Chip) : (s.putChip d x).clusters = s.clusters := by unfold State.putChip; split <;> rfl
@[simp] theorem State.putChip_mem (s : State) (d : Nat) (x : Chip) : (s.putChip d x).mem = s.mem := by unfold State.putChip; split <;> rfl
@[simp] theorem State.putChip_lines (s : State) (d : Nat) (x : Chip) : (s.putChip d x).lines = s.lines := by unfold State.putChip; split <;> rfl
@[simp] theorem State.putChip_dir (s : State) (d : Nat) (x : Chip) : (s.putChip d x).dir = s.dir := by unfold State.putChip; split <;> rfl
@[simp] theorem State.putChip_regions (s : State) (d : Nat) (x : Chip) : (s.putChip d x).regions = s.regions := by unfold State.putChip; split <;> rfl
@[simp] theorem State.putChip_msgs (s : State) (d : Nat) (x : Chip) : (s.putChip d x).msgs = s.msgs := by unfold State.putChip; split <;> rfl
@[simp] theorem State.putChip_homeQ (s : State) (d : Nat) (x : Chip) : (s.putChip d x).homeQ = s.homeQ := by unfold State.putChip; split <;> rfl
@[simp] theorem State.putChip_notices (s : State) (d : Nat) (x : Chip) : (s.putChip d x).notices = s.notices := by unfold State.putChip; split <;> rfl
@[simp] theorem State.putChip_credits (s : State) (d : Nat) (x : Chip) : (s.putChip d x).credits = s.credits := by unfold State.putChip; split <;> rfl
@[simp] theorem State.putChip_commitNo (s : State) (d : Nat) (x : Chip) : (s.putChip d x).commitNo = s.commitNo := by unfold State.putChip; split <;> rfl
@[simp] theorem State.putChip_lost (s : State) (d : Nat) (x : Chip) : (s.putChip d x).lost = s.lost := by unfold State.putChip; split <;> rfl
@[simp] theorem State.putChip_retain (s : State) (d : Nat) (x : Chip) : (s.putChip d x).retain = s.retain := by unfold State.putChip; split <;> rfl
@[simp] theorem State.putChip_l2leases (s : State) (d : Nat) (x : Chip) : (s.putChip d x).l2leases = s.l2leases := by unfold State.putChip; split <;> rfl
@[simp] theorem State.putChip_l2tlb (s : State) (d : Nat) (x : Chip) : (s.putChip d x).l2tlb = s.l2tlb := by unfold State.putChip; split <;> rfl
@[simp] theorem State.putChip_xreds (s : State) (d : Nat) (x : Chip) : (s.putChip d x).xreds = s.xreds := by unfold State.putChip; split <;> rfl
@[simp] theorem State.putChip_rounds (s : State) (d : Nat) (x : Chip) : (s.putChip d x).rounds = s.rounds := by unfold State.putChip; split <;> rfl
@[simp] theorem State.putChip_units (s : State) (d : Nat) (x : Chip) : (s.putChip d x).units = s.units := by unfold State.putChip; split <;> rfl
@[simp] theorem State.putChip_car0 (s : State) (d : Nat) (x : Chip) : (s.putChip d x).car0 = s.car0 := by unfold State.putChip; split <;> rfl
@[simp] theorem State.putChip_car1 (s : State) (d : Nat) (x : Chip) : (s.putChip d x).car1 = s.car1 := by unfold State.putChip; split <;> rfl
@[simp] theorem State.putChip_die0 (s : State) (d : Nat) (x : Chip) : (s.putChip d x).die0 = s.die0 := by unfold State.putChip; split <;> rfl
@[simp] theorem State.putChip_die1 (s : State) (d : Nat) (x : Chip) : (s.putChip d x).die1 = s.die1 := by unfold State.putChip; split <;> rfl
@[simp] theorem State.putChip_cancels (s : State) (d : Nat) (x : Chip) : (s.putChip d x).cancels = s.cancels := by unfold State.putChip; split <;> rfl
@[simp] theorem State.putChip_walks (s : State) (d : Nat) (x : Chip) : (s.putChip d x).walks = s.walks := by unfold State.putChip; split <;> rfl
@[simp] theorem State.putChip_chip0 (s : State) (d : Nat) (x : Chip) : (s.putChip d x).chip0 = if d = 0 then x else s.chip0 := by unfold State.putChip; split <;> rfl
@[simp] theorem State.putChip_chip1 (s : State) (d : Nat) (x : Chip) : (s.putChip d x).chip1 = if d = 0 then s.chip1 else x := by unfold State.putChip; split <;> rfl
@[simp] theorem State.putChip_contexts (s : State) (d : Nat) (x : Chip) : (s.putChip d x).contexts = s.contexts := by unfold State.putChip; split <;> rfl
@[simp] theorem State.putChip_launches (s : State) (d : Nat) (x : Chip) : (s.putChip d x).launches = s.launches := by unfold State.putChip; split <;> rfl
@[simp] theorem State.putChip_nextLaunch (s : State) (d : Nat) (x : Chip) : (s.putChip d x).nextLaunch = s.nextLaunch := by unfold State.putChip; split <;> rfl
@[simp] theorem State.putChip_queues (s : State) (d : Nat) (x : Chip) : (s.putChip d x).queues = s.queues := by unfold State.putChip; split <;> rfl
@[simp] theorem State.putChip_rrptr (s : State) (d : Nat) (x : Chip) : (s.putChip d x).rrptr = s.rrptr := by unfold State.putChip; split <;> rfl
@[simp] theorem State.putChip_strands (s : State) (d : Nat) (x : Chip) : (s.putChip d x).strands = s.strands := by unfold State.putChip; split <;> rfl
@[simp] theorem State.putChip_saved (s : State) (d : Nat) (x : Chip) : (s.putChip d x).saved = s.saved := by unfold State.putChip; split <;> rfl
@[simp] theorem State.putChip_savedClusters (s : State) (d : Nat) (x : Chip) : (s.putChip d x).savedClusters = s.savedClusters := by unfold State.putChip; split <;> rfl
@[simp] theorem State.putChip_admin (s : State) (d : Nat) (x : Chip) : (s.putChip d x).admin = s.admin := by unfold State.putChip; split <;> rfl
@[simp] theorem State.putChip_tables (s : State) (d : Nat) (x : Chip) : (s.putChip d x).tables = s.tables := by unfold State.putChip; split <;> rfl
@[simp] theorem State.putChip_telemetry (s : State) (d : Nat) (x : Chip) : (s.putChip d x).telemetry = s.telemetry := by unfold State.putChip; split <;> rfl
@[simp] theorem State.putChip_devid (s : State) (d : Nat) (x : Chip) : (s.putChip d x).devid = s.devid := by unfold State.putChip; split <;> rfl
@[simp] theorem State.putChip_devValid (s : State) (d : Nat) (x : Chip) : (s.putChip d x).devValid = s.devValid := by unfold State.putChip; split <;> rfl
@[simp] theorem State.putChip_fabric (s : State) (d : Nat) (x : Chip) : (s.putChip d x).fabric = s.fabric := by unfold State.putChip; split <;> rfl
@[simp] theorem State.putChip_msix (s : State) (d : Nat) (x : Chip) : (s.putChip d x).msix = s.msix := by unfold State.putChip; split <;> rfl
@[simp] theorem State.putChip_hostData (s : State) (d : Nat) (x : Chip) : (s.putChip d x).hostData = s.hostData := by unfold State.putChip; split <;> rfl
@[simp] theorem State.putChip_bringup (s : State) (d : Nat) (x : Chip) : (s.putChip d x).bringup = s.bringup := by unfold State.putChip; split <;> rfl
@[simp] theorem State.putChip_pcieTrained (s : State) (d : Nat) (x : Chip) : (s.putChip d x).pcieTrained = s.pcieTrained := by unfold State.putChip; split <;> rfl
@[simp] theorem State.putChip_power (s : State) (d : Nat) (x : Chip) : (s.putChip d x).power = s.power := by unfold State.putChip; split <;> rfl
@[simp] theorem State.putChip_jtag (s : State) (d : Nat) (x : Chip) : (s.putChip d x).jtag = s.jtag := by unfold State.putChip; split <;> rfl
@[simp] theorem State.putChip_flash (s : State) (d : Nat) (x : Chip) : (s.putChip d x).flash = s.flash := by unfold State.putChip; split <;> rfl
@[simp] theorem State.putChip_clock (s : State) (d : Nat) (x : Chip) : (s.putChip d x).clock = s.clock := by unfold State.putChip; split <;> rfl
@[simp] theorem State.putChip_freeCount (s : State) (d : Nat) (x : Chip) : (s.putChip d x).freeCount = s.freeCount := by unfold State.putChip; split <;> rfl
@[simp] theorem State.putChip_unit (s : State) (d : Nat) (x : Chip) : (s.putChip d x).unit = s.unit := by unfold State.putChip; split <;> rfl
@[simp] theorem State.putChip_rr (s : State) (d : Nat) (x : Chip) : (s.putChip d x).rr = s.rr := by unfold State.putChip; split <;> rfl
@[simp] theorem State.putChip_schedule (s : State) (d : Nat) (x : Chip) : (s.putChip d x).schedule = s.schedule := by unfold State.putChip; split <;> rfl

/-! ### State.putCar -/

@[simp] theorem State.putCar_core (s : State) (d : Nat) (x : Carousel) : (s.putCar d x).core = s.core := by unfold State.putCar; split <;> rfl
@[simp] theorem State.putCar_others (s : State) (d : Nat) (x : Carousel) : (s.putCar d x).others = s.others := by unfold State.putCar; split <;> rfl
@[simp] theorem State.putCar_clusters (s : State) (d : Nat) (x : Carousel) : (s.putCar d x).clusters = s.clusters := by unfold State.putCar; split <;> rfl
@[simp] theorem State.putCar_mem (s : State) (d : Nat) (x : Carousel) : (s.putCar d x).mem = s.mem := by unfold State.putCar; split <;> rfl
@[simp] theorem State.putCar_lines (s : State) (d : Nat) (x : Carousel) : (s.putCar d x).lines = s.lines := by unfold State.putCar; split <;> rfl
@[simp] theorem State.putCar_dir (s : State) (d : Nat) (x : Carousel) : (s.putCar d x).dir = s.dir := by unfold State.putCar; split <;> rfl
@[simp] theorem State.putCar_regions (s : State) (d : Nat) (x : Carousel) : (s.putCar d x).regions = s.regions := by unfold State.putCar; split <;> rfl
@[simp] theorem State.putCar_msgs (s : State) (d : Nat) (x : Carousel) : (s.putCar d x).msgs = s.msgs := by unfold State.putCar; split <;> rfl
@[simp] theorem State.putCar_homeQ (s : State) (d : Nat) (x : Carousel) : (s.putCar d x).homeQ = s.homeQ := by unfold State.putCar; split <;> rfl
@[simp] theorem State.putCar_notices (s : State) (d : Nat) (x : Carousel) : (s.putCar d x).notices = s.notices := by unfold State.putCar; split <;> rfl
@[simp] theorem State.putCar_credits (s : State) (d : Nat) (x : Carousel) : (s.putCar d x).credits = s.credits := by unfold State.putCar; split <;> rfl
@[simp] theorem State.putCar_commitNo (s : State) (d : Nat) (x : Carousel) : (s.putCar d x).commitNo = s.commitNo := by unfold State.putCar; split <;> rfl
@[simp] theorem State.putCar_lost (s : State) (d : Nat) (x : Carousel) : (s.putCar d x).lost = s.lost := by unfold State.putCar; split <;> rfl
@[simp] theorem State.putCar_retain (s : State) (d : Nat) (x : Carousel) : (s.putCar d x).retain = s.retain := by unfold State.putCar; split <;> rfl
@[simp] theorem State.putCar_l2leases (s : State) (d : Nat) (x : Carousel) : (s.putCar d x).l2leases = s.l2leases := by unfold State.putCar; split <;> rfl
@[simp] theorem State.putCar_l2tlb (s : State) (d : Nat) (x : Carousel) : (s.putCar d x).l2tlb = s.l2tlb := by unfold State.putCar; split <;> rfl
@[simp] theorem State.putCar_xreds (s : State) (d : Nat) (x : Carousel) : (s.putCar d x).xreds = s.xreds := by unfold State.putCar; split <;> rfl
@[simp] theorem State.putCar_rounds (s : State) (d : Nat) (x : Carousel) : (s.putCar d x).rounds = s.rounds := by unfold State.putCar; split <;> rfl
@[simp] theorem State.putCar_units (s : State) (d : Nat) (x : Carousel) : (s.putCar d x).units = s.units := by unfold State.putCar; split <;> rfl
@[simp] theorem State.putCar_car0 (s : State) (d : Nat) (x : Carousel) : (s.putCar d x).car0 = if d = 0 then x else s.car0 := by unfold State.putCar; split <;> rfl
@[simp] theorem State.putCar_car1 (s : State) (d : Nat) (x : Carousel) : (s.putCar d x).car1 = if d = 0 then s.car1 else x := by unfold State.putCar; split <;> rfl
@[simp] theorem State.putCar_die0 (s : State) (d : Nat) (x : Carousel) : (s.putCar d x).die0 = s.die0 := by unfold State.putCar; split <;> rfl
@[simp] theorem State.putCar_die1 (s : State) (d : Nat) (x : Carousel) : (s.putCar d x).die1 = s.die1 := by unfold State.putCar; split <;> rfl
@[simp] theorem State.putCar_cancels (s : State) (d : Nat) (x : Carousel) : (s.putCar d x).cancels = s.cancels := by unfold State.putCar; split <;> rfl
@[simp] theorem State.putCar_walks (s : State) (d : Nat) (x : Carousel) : (s.putCar d x).walks = s.walks := by unfold State.putCar; split <;> rfl
@[simp] theorem State.putCar_chip0 (s : State) (d : Nat) (x : Carousel) : (s.putCar d x).chip0 = s.chip0 := by unfold State.putCar; split <;> rfl
@[simp] theorem State.putCar_chip1 (s : State) (d : Nat) (x : Carousel) : (s.putCar d x).chip1 = s.chip1 := by unfold State.putCar; split <;> rfl
@[simp] theorem State.putCar_contexts (s : State) (d : Nat) (x : Carousel) : (s.putCar d x).contexts = s.contexts := by unfold State.putCar; split <;> rfl
@[simp] theorem State.putCar_launches (s : State) (d : Nat) (x : Carousel) : (s.putCar d x).launches = s.launches := by unfold State.putCar; split <;> rfl
@[simp] theorem State.putCar_nextLaunch (s : State) (d : Nat) (x : Carousel) : (s.putCar d x).nextLaunch = s.nextLaunch := by unfold State.putCar; split <;> rfl
@[simp] theorem State.putCar_queues (s : State) (d : Nat) (x : Carousel) : (s.putCar d x).queues = s.queues := by unfold State.putCar; split <;> rfl
@[simp] theorem State.putCar_rrptr (s : State) (d : Nat) (x : Carousel) : (s.putCar d x).rrptr = s.rrptr := by unfold State.putCar; split <;> rfl
@[simp] theorem State.putCar_strands (s : State) (d : Nat) (x : Carousel) : (s.putCar d x).strands = s.strands := by unfold State.putCar; split <;> rfl
@[simp] theorem State.putCar_saved (s : State) (d : Nat) (x : Carousel) : (s.putCar d x).saved = s.saved := by unfold State.putCar; split <;> rfl
@[simp] theorem State.putCar_savedClusters (s : State) (d : Nat) (x : Carousel) : (s.putCar d x).savedClusters = s.savedClusters := by unfold State.putCar; split <;> rfl
@[simp] theorem State.putCar_admin (s : State) (d : Nat) (x : Carousel) : (s.putCar d x).admin = s.admin := by unfold State.putCar; split <;> rfl
@[simp] theorem State.putCar_tables (s : State) (d : Nat) (x : Carousel) : (s.putCar d x).tables = s.tables := by unfold State.putCar; split <;> rfl
@[simp] theorem State.putCar_telemetry (s : State) (d : Nat) (x : Carousel) : (s.putCar d x).telemetry = s.telemetry := by unfold State.putCar; split <;> rfl
@[simp] theorem State.putCar_devid (s : State) (d : Nat) (x : Carousel) : (s.putCar d x).devid = s.devid := by unfold State.putCar; split <;> rfl
@[simp] theorem State.putCar_devValid (s : State) (d : Nat) (x : Carousel) : (s.putCar d x).devValid = s.devValid := by unfold State.putCar; split <;> rfl
@[simp] theorem State.putCar_fabric (s : State) (d : Nat) (x : Carousel) : (s.putCar d x).fabric = s.fabric := by unfold State.putCar; split <;> rfl
@[simp] theorem State.putCar_msix (s : State) (d : Nat) (x : Carousel) : (s.putCar d x).msix = s.msix := by unfold State.putCar; split <;> rfl
@[simp] theorem State.putCar_hostData (s : State) (d : Nat) (x : Carousel) : (s.putCar d x).hostData = s.hostData := by unfold State.putCar; split <;> rfl
@[simp] theorem State.putCar_bringup (s : State) (d : Nat) (x : Carousel) : (s.putCar d x).bringup = s.bringup := by unfold State.putCar; split <;> rfl
@[simp] theorem State.putCar_pcieTrained (s : State) (d : Nat) (x : Carousel) : (s.putCar d x).pcieTrained = s.pcieTrained := by unfold State.putCar; split <;> rfl
@[simp] theorem State.putCar_power (s : State) (d : Nat) (x : Carousel) : (s.putCar d x).power = s.power := by unfold State.putCar; split <;> rfl
@[simp] theorem State.putCar_jtag (s : State) (d : Nat) (x : Carousel) : (s.putCar d x).jtag = s.jtag := by unfold State.putCar; split <;> rfl
@[simp] theorem State.putCar_flash (s : State) (d : Nat) (x : Carousel) : (s.putCar d x).flash = s.flash := by unfold State.putCar; split <;> rfl
@[simp] theorem State.putCar_clock (s : State) (d : Nat) (x : Carousel) : (s.putCar d x).clock = s.clock := by unfold State.putCar; split <;> rfl
@[simp] theorem State.putCar_freeCount (s : State) (d : Nat) (x : Carousel) : (s.putCar d x).freeCount = s.freeCount := by unfold State.putCar; split <;> rfl
@[simp] theorem State.putCar_unit (s : State) (d : Nat) (x : Carousel) : (s.putCar d x).unit = s.unit := by unfold State.putCar; split <;> rfl
@[simp] theorem State.putCar_rr (s : State) (d : Nat) (x : Carousel) : (s.putCar d x).rr = s.rr := by unfold State.putCar; split <;> rfl
@[simp] theorem State.putCar_schedule (s : State) (d : Nat) (x : Carousel) : (s.putCar d x).schedule = s.schedule := by unfold State.putCar; split <;> rfl

/-! ### State.putCore -/

@[simp] theorem State.putCore_core (s : State) (x : Core) : (s.putCore x).core = if s.core.id = x.id then x else s.core := by unfold State.putCore; split <;> rfl
@[simp] theorem State.putCore_others (s : State) (x : Core) : (s.putCore x).others = if s.core.id = x.id then s.others else insertCore x s.others := by unfold State.putCore; split <;> rfl
@[simp] theorem State.putCore_clusters (s : State) (x : Core) : (s.putCore x).clusters = s.clusters := by unfold State.putCore; split <;> rfl
@[simp] theorem State.putCore_mem (s : State) (x : Core) : (s.putCore x).mem = s.mem := by unfold State.putCore; split <;> rfl
@[simp] theorem State.putCore_lines (s : State) (x : Core) : (s.putCore x).lines = s.lines := by unfold State.putCore; split <;> rfl
@[simp] theorem State.putCore_dir (s : State) (x : Core) : (s.putCore x).dir = s.dir := by unfold State.putCore; split <;> rfl
@[simp] theorem State.putCore_regions (s : State) (x : Core) : (s.putCore x).regions = s.regions := by unfold State.putCore; split <;> rfl
@[simp] theorem State.putCore_msgs (s : State) (x : Core) : (s.putCore x).msgs = s.msgs := by unfold State.putCore; split <;> rfl
@[simp] theorem State.putCore_homeQ (s : State) (x : Core) : (s.putCore x).homeQ = s.homeQ := by unfold State.putCore; split <;> rfl
@[simp] theorem State.putCore_notices (s : State) (x : Core) : (s.putCore x).notices = s.notices := by unfold State.putCore; split <;> rfl
@[simp] theorem State.putCore_credits (s : State) (x : Core) : (s.putCore x).credits = s.credits := by unfold State.putCore; split <;> rfl
@[simp] theorem State.putCore_commitNo (s : State) (x : Core) : (s.putCore x).commitNo = s.commitNo := by unfold State.putCore; split <;> rfl
@[simp] theorem State.putCore_lost (s : State) (x : Core) : (s.putCore x).lost = s.lost := by unfold State.putCore; split <;> rfl
@[simp] theorem State.putCore_retain (s : State) (x : Core) : (s.putCore x).retain = s.retain := by unfold State.putCore; split <;> rfl
@[simp] theorem State.putCore_l2leases (s : State) (x : Core) : (s.putCore x).l2leases = s.l2leases := by unfold State.putCore; split <;> rfl
@[simp] theorem State.putCore_l2tlb (s : State) (x : Core) : (s.putCore x).l2tlb = s.l2tlb := by unfold State.putCore; split <;> rfl
@[simp] theorem State.putCore_xreds (s : State) (x : Core) : (s.putCore x).xreds = s.xreds := by unfold State.putCore; split <;> rfl
@[simp] theorem State.putCore_rounds (s : State) (x : Core) : (s.putCore x).rounds = s.rounds := by unfold State.putCore; split <;> rfl
@[simp] theorem State.putCore_units (s : State) (x : Core) : (s.putCore x).units = s.units := by unfold State.putCore; split <;> rfl
@[simp] theorem State.putCore_car0 (s : State) (x : Core) : (s.putCore x).car0 = s.car0 := by unfold State.putCore; split <;> rfl
@[simp] theorem State.putCore_car1 (s : State) (x : Core) : (s.putCore x).car1 = s.car1 := by unfold State.putCore; split <;> rfl
@[simp] theorem State.putCore_die0 (s : State) (x : Core) : (s.putCore x).die0 = s.die0 := by unfold State.putCore; split <;> rfl
@[simp] theorem State.putCore_die1 (s : State) (x : Core) : (s.putCore x).die1 = s.die1 := by unfold State.putCore; split <;> rfl
@[simp] theorem State.putCore_cancels (s : State) (x : Core) : (s.putCore x).cancels = s.cancels := by unfold State.putCore; split <;> rfl
@[simp] theorem State.putCore_walks (s : State) (x : Core) : (s.putCore x).walks = s.walks := by unfold State.putCore; split <;> rfl
@[simp] theorem State.putCore_chip0 (s : State) (x : Core) : (s.putCore x).chip0 = s.chip0 := by unfold State.putCore; split <;> rfl
@[simp] theorem State.putCore_chip1 (s : State) (x : Core) : (s.putCore x).chip1 = s.chip1 := by unfold State.putCore; split <;> rfl
@[simp] theorem State.putCore_contexts (s : State) (x : Core) : (s.putCore x).contexts = s.contexts := by unfold State.putCore; split <;> rfl
@[simp] theorem State.putCore_launches (s : State) (x : Core) : (s.putCore x).launches = s.launches := by unfold State.putCore; split <;> rfl
@[simp] theorem State.putCore_nextLaunch (s : State) (x : Core) : (s.putCore x).nextLaunch = s.nextLaunch := by unfold State.putCore; split <;> rfl
@[simp] theorem State.putCore_queues (s : State) (x : Core) : (s.putCore x).queues = s.queues := by unfold State.putCore; split <;> rfl
@[simp] theorem State.putCore_rrptr (s : State) (x : Core) : (s.putCore x).rrptr = s.rrptr := by unfold State.putCore; split <;> rfl
@[simp] theorem State.putCore_strands (s : State) (x : Core) : (s.putCore x).strands = s.strands := by unfold State.putCore; split <;> rfl
@[simp] theorem State.putCore_saved (s : State) (x : Core) : (s.putCore x).saved = s.saved := by unfold State.putCore; split <;> rfl
@[simp] theorem State.putCore_savedClusters (s : State) (x : Core) : (s.putCore x).savedClusters = s.savedClusters := by unfold State.putCore; split <;> rfl
@[simp] theorem State.putCore_admin (s : State) (x : Core) : (s.putCore x).admin = s.admin := by unfold State.putCore; split <;> rfl
@[simp] theorem State.putCore_tables (s : State) (x : Core) : (s.putCore x).tables = s.tables := by unfold State.putCore; split <;> rfl
@[simp] theorem State.putCore_telemetry (s : State) (x : Core) : (s.putCore x).telemetry = s.telemetry := by unfold State.putCore; split <;> rfl
@[simp] theorem State.putCore_devid (s : State) (x : Core) : (s.putCore x).devid = s.devid := by unfold State.putCore; split <;> rfl
@[simp] theorem State.putCore_devValid (s : State) (x : Core) : (s.putCore x).devValid = s.devValid := by unfold State.putCore; split <;> rfl
@[simp] theorem State.putCore_fabric (s : State) (x : Core) : (s.putCore x).fabric = s.fabric := by unfold State.putCore; split <;> rfl
@[simp] theorem State.putCore_msix (s : State) (x : Core) : (s.putCore x).msix = s.msix := by unfold State.putCore; split <;> rfl
@[simp] theorem State.putCore_hostData (s : State) (x : Core) : (s.putCore x).hostData = s.hostData := by unfold State.putCore; split <;> rfl
@[simp] theorem State.putCore_bringup (s : State) (x : Core) : (s.putCore x).bringup = s.bringup := by unfold State.putCore; split <;> rfl
@[simp] theorem State.putCore_pcieTrained (s : State) (x : Core) : (s.putCore x).pcieTrained = s.pcieTrained := by unfold State.putCore; split <;> rfl
@[simp] theorem State.putCore_power (s : State) (x : Core) : (s.putCore x).power = s.power := by unfold State.putCore; split <;> rfl
@[simp] theorem State.putCore_jtag (s : State) (x : Core) : (s.putCore x).jtag = s.jtag := by unfold State.putCore; split <;> rfl
@[simp] theorem State.putCore_flash (s : State) (x : Core) : (s.putCore x).flash = s.flash := by unfold State.putCore; split <;> rfl
@[simp] theorem State.putCore_clock (s : State) (x : Core) : (s.putCore x).clock = s.clock := by unfold State.putCore; split <;> rfl
@[simp] theorem State.putCore_freeCount (s : State) (x : Core) : (s.putCore x).freeCount = s.freeCount := by unfold State.putCore; split <;> rfl
@[simp] theorem State.putCore_unit (s : State) (x : Core) : (s.putCore x).unit = s.unit := by unfold State.putCore; split <;> rfl
@[simp] theorem State.putCore_rr (s : State) (x : Core) : (s.putCore x).rr = s.rr := by unfold State.putCore; split <;> rfl
@[simp] theorem State.putCore_schedule (s : State) (x : Core) : (s.putCore x).schedule = s.schedule := by unfold State.putCore; split <;> rfl

/-! ### State.focus -/

@[simp] theorem State.focus_core (s : State) (n : Nat) : (s.focus n).core = s.coreAt n := by
  unfold State.focus; split
  · rename_i h; simp [State.coreAt, h]
  · rfl
@[simp] theorem State.focus_others (s : State) (n : Nat) : (s.focus n).others = if s.core.id = n then s.others else insertCore s.core (s.others.filter fun x => x.id ≠ n) := by unfold State.focus; split <;> rfl
@[simp] theorem State.focus_clusters (s : State) (n : Nat) : (s.focus n).clusters = s.clusters := by unfold State.focus; split <;> rfl
@[simp] theorem State.focus_mem (s : State) (n : Nat) : (s.focus n).mem = s.mem := by unfold State.focus; split <;> rfl
@[simp] theorem State.focus_lines (s : State) (n : Nat) : (s.focus n).lines = s.lines := by unfold State.focus; split <;> rfl
@[simp] theorem State.focus_dir (s : State) (n : Nat) : (s.focus n).dir = s.dir := by unfold State.focus; split <;> rfl
@[simp] theorem State.focus_regions (s : State) (n : Nat) : (s.focus n).regions = s.regions := by unfold State.focus; split <;> rfl
@[simp] theorem State.focus_msgs (s : State) (n : Nat) : (s.focus n).msgs = s.msgs := by unfold State.focus; split <;> rfl
@[simp] theorem State.focus_homeQ (s : State) (n : Nat) : (s.focus n).homeQ = s.homeQ := by unfold State.focus; split <;> rfl
@[simp] theorem State.focus_notices (s : State) (n : Nat) : (s.focus n).notices = s.notices := by unfold State.focus; split <;> rfl
@[simp] theorem State.focus_credits (s : State) (n : Nat) : (s.focus n).credits = s.credits := by unfold State.focus; split <;> rfl
@[simp] theorem State.focus_commitNo (s : State) (n : Nat) : (s.focus n).commitNo = s.commitNo := by unfold State.focus; split <;> rfl
@[simp] theorem State.focus_lost (s : State) (n : Nat) : (s.focus n).lost = s.lost := by unfold State.focus; split <;> rfl
@[simp] theorem State.focus_retain (s : State) (n : Nat) : (s.focus n).retain = s.retain := by unfold State.focus; split <;> rfl
@[simp] theorem State.focus_l2leases (s : State) (n : Nat) : (s.focus n).l2leases = s.l2leases := by unfold State.focus; split <;> rfl
@[simp] theorem State.focus_l2tlb (s : State) (n : Nat) : (s.focus n).l2tlb = s.l2tlb := by unfold State.focus; split <;> rfl
@[simp] theorem State.focus_xreds (s : State) (n : Nat) : (s.focus n).xreds = s.xreds := by unfold State.focus; split <;> rfl
@[simp] theorem State.focus_rounds (s : State) (n : Nat) : (s.focus n).rounds = s.rounds := by unfold State.focus; split <;> rfl
@[simp] theorem State.focus_units (s : State) (n : Nat) : (s.focus n).units = s.units := by unfold State.focus; split <;> rfl
@[simp] theorem State.focus_car0 (s : State) (n : Nat) : (s.focus n).car0 = s.car0 := by unfold State.focus; split <;> rfl
@[simp] theorem State.focus_car1 (s : State) (n : Nat) : (s.focus n).car1 = s.car1 := by unfold State.focus; split <;> rfl
@[simp] theorem State.focus_die0 (s : State) (n : Nat) : (s.focus n).die0 = s.die0 := by unfold State.focus; split <;> rfl
@[simp] theorem State.focus_die1 (s : State) (n : Nat) : (s.focus n).die1 = s.die1 := by unfold State.focus; split <;> rfl
@[simp] theorem State.focus_cancels (s : State) (n : Nat) : (s.focus n).cancels = s.cancels := by unfold State.focus; split <;> rfl
@[simp] theorem State.focus_walks (s : State) (n : Nat) : (s.focus n).walks = s.walks := by unfold State.focus; split <;> rfl
@[simp] theorem State.focus_chip0 (s : State) (n : Nat) : (s.focus n).chip0 = s.chip0 := by unfold State.focus; split <;> rfl
@[simp] theorem State.focus_chip1 (s : State) (n : Nat) : (s.focus n).chip1 = s.chip1 := by unfold State.focus; split <;> rfl
@[simp] theorem State.focus_contexts (s : State) (n : Nat) : (s.focus n).contexts = s.contexts := by unfold State.focus; split <;> rfl
@[simp] theorem State.focus_launches (s : State) (n : Nat) : (s.focus n).launches = s.launches := by unfold State.focus; split <;> rfl
@[simp] theorem State.focus_nextLaunch (s : State) (n : Nat) : (s.focus n).nextLaunch = s.nextLaunch := by unfold State.focus; split <;> rfl
@[simp] theorem State.focus_queues (s : State) (n : Nat) : (s.focus n).queues = s.queues := by unfold State.focus; split <;> rfl
@[simp] theorem State.focus_rrptr (s : State) (n : Nat) : (s.focus n).rrptr = s.rrptr := by unfold State.focus; split <;> rfl
@[simp] theorem State.focus_strands (s : State) (n : Nat) : (s.focus n).strands = s.strands := by unfold State.focus; split <;> rfl
@[simp] theorem State.focus_saved (s : State) (n : Nat) : (s.focus n).saved = s.saved := by unfold State.focus; split <;> rfl
@[simp] theorem State.focus_savedClusters (s : State) (n : Nat) : (s.focus n).savedClusters = s.savedClusters := by unfold State.focus; split <;> rfl
@[simp] theorem State.focus_admin (s : State) (n : Nat) : (s.focus n).admin = s.admin := by unfold State.focus; split <;> rfl
@[simp] theorem State.focus_tables (s : State) (n : Nat) : (s.focus n).tables = s.tables := by unfold State.focus; split <;> rfl
@[simp] theorem State.focus_telemetry (s : State) (n : Nat) : (s.focus n).telemetry = s.telemetry := by unfold State.focus; split <;> rfl
@[simp] theorem State.focus_devid (s : State) (n : Nat) : (s.focus n).devid = s.devid := by unfold State.focus; split <;> rfl
@[simp] theorem State.focus_devValid (s : State) (n : Nat) : (s.focus n).devValid = s.devValid := by unfold State.focus; split <;> rfl
@[simp] theorem State.focus_fabric (s : State) (n : Nat) : (s.focus n).fabric = s.fabric := by unfold State.focus; split <;> rfl
@[simp] theorem State.focus_msix (s : State) (n : Nat) : (s.focus n).msix = s.msix := by unfold State.focus; split <;> rfl
@[simp] theorem State.focus_hostData (s : State) (n : Nat) : (s.focus n).hostData = s.hostData := by unfold State.focus; split <;> rfl
@[simp] theorem State.focus_bringup (s : State) (n : Nat) : (s.focus n).bringup = s.bringup := by unfold State.focus; split <;> rfl
@[simp] theorem State.focus_pcieTrained (s : State) (n : Nat) : (s.focus n).pcieTrained = s.pcieTrained := by unfold State.focus; split <;> rfl
@[simp] theorem State.focus_power (s : State) (n : Nat) : (s.focus n).power = s.power := by unfold State.focus; split <;> rfl
@[simp] theorem State.focus_jtag (s : State) (n : Nat) : (s.focus n).jtag = s.jtag := by unfold State.focus; split <;> rfl
@[simp] theorem State.focus_flash (s : State) (n : Nat) : (s.focus n).flash = s.flash := by unfold State.focus; split <;> rfl
@[simp] theorem State.focus_clock (s : State) (n : Nat) : (s.focus n).clock = s.clock := by unfold State.focus; split <;> rfl
@[simp] theorem State.focus_freeCount (s : State) (n : Nat) : (s.focus n).freeCount = s.freeCount := by unfold State.focus; split <;> rfl
@[simp] theorem State.focus_unit (s : State) (n : Nat) : (s.focus n).unit = s.unit := by unfold State.focus; split <;> rfl
@[simp] theorem State.focus_rr (s : State) (n : Nat) : (s.focus n).rr = s.rr := by unfold State.focus; split <;> rfl
@[simp] theorem State.focus_schedule (s : State) (n : Nat) : (s.focus n).schedule = s.schedule := by unfold State.focus; split <;> rfl

/-! ### Core.next -/

@[simp] theorem Core.next_id (c : Core) : (c.next).id = c.id := rfl
@[simp] theorem Core.next_ctx (c : Core) : (c.next).ctx = c.ctx := rfl
@[simp] theorem Core.next_pc (c : Core) : (c.next).pc = c.pc + 4 := rfl
@[simp] theorem Core.next_g (c : Core) : (c.next).g = c.g := rfl
@[simp] theorem Core.next_l (c : Core) : (c.next).l = c.l := rfl
@[simp] theorem Core.next_loops (c : Core) : (c.next).loops = c.loops := rfl
@[simp] theorem Core.next_nextInst (c : Core) : (c.next).nextInst = c.nextInst := rfl
@[simp] theorem Core.next_pickRet (c : Core) : (c.next).pickRet = c.pickRet := rfl
@[simp] theorem Core.next_slack (c : Core) : (c.next).slack = c.slack := rfl
@[simp] theorem Core.next_v (c : Core) : (c.next).v = c.v := rfl
@[simp] theorem Core.next_m (c : Core) : (c.next).m = c.m := rfl
@[simp] theorem Core.next_q (c : Core) : (c.next).q = c.q := rfl
@[simp] theorem Core.next_ports (c : Core) : (c.next).ports = c.ports := rfl
@[simp] theorem Core.next_tq (c : Core) : (c.next).tq = c.tq := rfl
@[simp] theorem Core.next_gens (c : Core) : (c.next).gens = c.gens := rfl
@[simp] theorem Core.next_genHalf (c : Core) : (c.next).genHalf = c.genHalf := rfl
@[simp] theorem Core.next_status (c : Core) : (c.next).status = c.status := rfl
@[simp] theorem Core.next_taskid (c : Core) : (c.next).taskid = c.taskid := rfl
@[simp] theorem Core.next_treeid (c : Core) : (c.next).treeid = c.treeid := rfl
@[simp] theorem Core.next_fctl (c : Core) : (c.next).fctl = c.fctl := rfl
@[simp] theorem Core.next_vsh (c : Core) : (c.next).vsh = c.vsh := rfl
@[simp] theorem Core.next_rngcfg (c : Core) : (c.next).rngcfg = c.rngcfg := rfl
@[simp] theorem Core.next_vquota (c : Core) : (c.next).vquota = c.vquota := rfl
@[simp] theorem Core.next_lasttag (c : Core) : (c.next).lasttag = c.lasttag := rfl
@[simp] theorem Core.next_hintdrop (c : Core) : (c.next).hintdrop = c.hintdrop := rfl
@[simp] theorem Core.next_lease1 (c : Core) : (c.next).lease1 = c.lease1 := rfl
@[simp] theorem Core.next_lease2 (c : Core) : (c.next).lease2 = c.lease2 := rfl
@[simp] theorem Core.next_carbase (c : Core) : (c.next).carbase = c.carbase := rfl
@[simp] theorem Core.next_xrbase (c : Core) : (c.next).xrbase = c.xrbase := rfl
@[simp] theorem Core.next_acclive (c : Core) : (c.next).acclive = c.acclive := rfl
@[simp] theorem Core.next_fpu (c : Core) : (c.next).fpu = c.fpu := rfl
@[simp] theorem Core.next_cpuct (c : Core) : (c.next).cpuct = c.cpuct := rfl
@[simp] theorem Core.next_vlv (c : Core) : (c.next).vlv = c.vlv := rfl
@[simp] theorem Core.next_repthr (c : Core) : (c.next).repthr = c.repthr := rfl
@[simp] theorem Core.next_tvec (c : Core) : (c.next).tvec = c.tvec := rfl
@[simp] theorem Core.next_crashbase (c : Core) : (c.next).crashbase = c.crashbase := rfl
@[simp] theorem Core.next_bank0 (c : Core) : (c.next).bank0 = c.bank0 := rfl
@[simp] theorem Core.next_bank1 (c : Core) : (c.next).bank1 = c.bank1 := rfl
@[simp] theorem Core.next_micro (c : Core) : (c.next).micro = 0 := rfl
@[simp] theorem Core.next_target (c : Core) : (c.next).target = c.target := rfl
@[simp] theorem Core.next_claim (c : Core) : (c.next).claim = c.claim := rfl
@[simp] theorem Core.next_hints (c : Core) : (c.next).hints = c.hints := rfl
@[simp] theorem Core.next_acks (c : Core) : (c.next).acks = c.acks := rfl
@[simp] theorem Core.next_acquired (c : Core) : (c.next).acquired = c.acquired := rfl
@[simp] theorem Core.next_scan (c : Core) : (c.next).scan = c.scan := rfl
@[simp] theorem Core.next_body (c : Core) : (c.next).body = c.body := rfl
@[simp] theorem Core.next_todo (c : Core) : (c.next).todo = c.todo := rfl
@[simp] theorem Core.next_launch (c : Core) : (c.next).launch = c.launch := rfl
@[simp] theorem Core.next_ring (c : Core) : (c.next).ring = c.ring := rfl
@[simp] theorem Core.next_held (c : Core) : (c.next).held = c.held := rfl
@[simp] theorem Core.next_code (c : Core) : (c.next).code = c.code := rfl
@[simp] theorem Core.next_ecode (c : Core) : (c.next).ecode = c.ecode := rfl
@[simp] theorem Core.next_debugger (c : Core) : (c.next).debugger = c.debugger := rfl
@[simp] theorem Core.next_breakOn (c : Core) : (c.next).breakOn = c.breakOn := rfl
@[simp] theorem Core.next_loads (c : Core) : (c.next).loads = c.loads := rfl
@[simp] theorem Core.next_stores (c : Core) : (c.next).stores = c.stores := rfl
@[simp] theorem Core.next_version (c : Core) : (c.next).version = c.version := rfl
@[simp] theorem Core.next_versionId (c : Core) : (c.next).versionId = c.versionId := rfl
@[simp] theorem Core.next_snaps (c : Core) : (c.next).snaps = c.snaps := rfl
@[simp] theorem Core.next_implicit (c : Core) : (c.next).implicit = c.implicit := rfl
@[simp] theorem Core.next_commit (c : Core) : (c.next).commit = c.commit := rfl
@[simp] theorem Core.next_fence (c : Core) : (c.next).fence = c.fence := rfl
@[simp] theorem Core.next_path (c : Core) : (c.next).path = c.path := rfl
@[simp] theorem Core.next_remote (c : Core) : (c.next).remote = c.remote := rfl
@[simp] theorem Core.next_vq (c : Core) : (c.next).vq = c.vq := rfl
@[simp] theorem Core.next_xinq (c : Core) : (c.next).xinq = c.xinq := rfl
@[simp] theorem Core.next_xoutq (c : Core) : (c.next).xoutq = c.xoutq := rfl
@[simp] theorem Core.next_mq (c : Core) : (c.next).mq = c.mq := rfl
@[simp] theorem Core.next_aq (c : Core) : (c.next).aq = c.aq := rfl
@[simp] theorem Core.next_nextCmd (c : Core) : (c.next).nextCmd = c.nextCmd := rfl
@[simp] theorem Core.next_vrun (c : Core) : (c.next).vrun = c.vrun := rfl
@[simp] theorem Core.next_xin (c : Core) : (c.next).xin = c.xin := rfl
@[simp] theorem Core.next_xout (c : Core) : (c.next).xout = c.xout := rfl

/-! ### Core.setG -/

@[simp] theorem Core.setG_id (c : Core) (r : Reg) (x : W64) : (c.setG r x).id = c.id := by unfold Core.setG; split <;> rfl
@[simp] theorem Core.setG_ctx (c : Core) (r : Reg) (x : W64) : (c.setG r x).ctx = c.ctx := by unfold Core.setG; split <;> rfl
@[simp] theorem Core.setG_pc (c : Core) (r : Reg) (x : W64) : (c.setG r x).pc = c.pc := by unfold Core.setG; split <;> rfl
@[simp] theorem Core.setG_g (c : Core) (r : Reg) (x : W64) : (c.setG r x).g = if r = 0 then c.g else c.g.set r x := by unfold Core.setG; split <;> rfl
@[simp] theorem Core.setG_l (c : Core) (r : Reg) (x : W64) : (c.setG r x).l = c.l := by unfold Core.setG; split <;> rfl
@[simp] theorem Core.setG_loops (c : Core) (r : Reg) (x : W64) : (c.setG r x).loops = c.loops := by unfold Core.setG; split <;> rfl
@[simp] theorem Core.setG_nextInst (c : Core) (r : Reg) (x : W64) : (c.setG r x).nextInst = c.nextInst := by unfold Core.setG; split <;> rfl
@[simp] theorem Core.setG_pickRet (c : Core) (r : Reg) (x : W64) : (c.setG r x).pickRet = c.pickRet := by unfold Core.setG; split <;> rfl
@[simp] theorem Core.setG_slack (c : Core) (r : Reg) (x : W64) : (c.setG r x).slack = c.slack := by unfold Core.setG; split <;> rfl
@[simp] theorem Core.setG_v (c : Core) (r : Reg) (x : W64) : (c.setG r x).v = c.v := by unfold Core.setG; split <;> rfl
@[simp] theorem Core.setG_m (c : Core) (r : Reg) (x : W64) : (c.setG r x).m = c.m := by unfold Core.setG; split <;> rfl
@[simp] theorem Core.setG_q (c : Core) (r : Reg) (x : W64) : (c.setG r x).q = c.q := by unfold Core.setG; split <;> rfl
@[simp] theorem Core.setG_ports (c : Core) (r : Reg) (x : W64) : (c.setG r x).ports = c.ports := by unfold Core.setG; split <;> rfl
@[simp] theorem Core.setG_tq (c : Core) (r : Reg) (x : W64) : (c.setG r x).tq = c.tq := by unfold Core.setG; split <;> rfl
@[simp] theorem Core.setG_gens (c : Core) (r : Reg) (x : W64) : (c.setG r x).gens = c.gens := by unfold Core.setG; split <;> rfl
@[simp] theorem Core.setG_genHalf (c : Core) (r : Reg) (x : W64) : (c.setG r x).genHalf = c.genHalf := by unfold Core.setG; split <;> rfl
@[simp] theorem Core.setG_status (c : Core) (r : Reg) (x : W64) : (c.setG r x).status = c.status := by unfold Core.setG; split <;> rfl
@[simp] theorem Core.setG_taskid (c : Core) (r : Reg) (x : W64) : (c.setG r x).taskid = c.taskid := by unfold Core.setG; split <;> rfl
@[simp] theorem Core.setG_treeid (c : Core) (r : Reg) (x : W64) : (c.setG r x).treeid = c.treeid := by unfold Core.setG; split <;> rfl
@[simp] theorem Core.setG_fctl (c : Core) (r : Reg) (x : W64) : (c.setG r x).fctl = c.fctl := by unfold Core.setG; split <;> rfl
@[simp] theorem Core.setG_vsh (c : Core) (r : Reg) (x : W64) : (c.setG r x).vsh = c.vsh := by unfold Core.setG; split <;> rfl
@[simp] theorem Core.setG_rngcfg (c : Core) (r : Reg) (x : W64) : (c.setG r x).rngcfg = c.rngcfg := by unfold Core.setG; split <;> rfl
@[simp] theorem Core.setG_vquota (c : Core) (r : Reg) (x : W64) : (c.setG r x).vquota = c.vquota := by unfold Core.setG; split <;> rfl
@[simp] theorem Core.setG_lasttag (c : Core) (r : Reg) (x : W64) : (c.setG r x).lasttag = c.lasttag := by unfold Core.setG; split <;> rfl
@[simp] theorem Core.setG_hintdrop (c : Core) (r : Reg) (x : W64) : (c.setG r x).hintdrop = c.hintdrop := by unfold Core.setG; split <;> rfl
@[simp] theorem Core.setG_lease1 (c : Core) (r : Reg) (x : W64) : (c.setG r x).lease1 = c.lease1 := by unfold Core.setG; split <;> rfl
@[simp] theorem Core.setG_lease2 (c : Core) (r : Reg) (x : W64) : (c.setG r x).lease2 = c.lease2 := by unfold Core.setG; split <;> rfl
@[simp] theorem Core.setG_carbase (c : Core) (r : Reg) (x : W64) : (c.setG r x).carbase = c.carbase := by unfold Core.setG; split <;> rfl
@[simp] theorem Core.setG_xrbase (c : Core) (r : Reg) (x : W64) : (c.setG r x).xrbase = c.xrbase := by unfold Core.setG; split <;> rfl
@[simp] theorem Core.setG_acclive (c : Core) (r : Reg) (x : W64) : (c.setG r x).acclive = c.acclive := by unfold Core.setG; split <;> rfl
@[simp] theorem Core.setG_fpu (c : Core) (r : Reg) (x : W64) : (c.setG r x).fpu = c.fpu := by unfold Core.setG; split <;> rfl
@[simp] theorem Core.setG_cpuct (c : Core) (r : Reg) (x : W64) : (c.setG r x).cpuct = c.cpuct := by unfold Core.setG; split <;> rfl
@[simp] theorem Core.setG_vlv (c : Core) (r : Reg) (x : W64) : (c.setG r x).vlv = c.vlv := by unfold Core.setG; split <;> rfl
@[simp] theorem Core.setG_repthr (c : Core) (r : Reg) (x : W64) : (c.setG r x).repthr = c.repthr := by unfold Core.setG; split <;> rfl
@[simp] theorem Core.setG_tvec (c : Core) (r : Reg) (x : W64) : (c.setG r x).tvec = c.tvec := by unfold Core.setG; split <;> rfl
@[simp] theorem Core.setG_crashbase (c : Core) (r : Reg) (x : W64) : (c.setG r x).crashbase = c.crashbase := by unfold Core.setG; split <;> rfl
@[simp] theorem Core.setG_bank0 (c : Core) (r : Reg) (x : W64) : (c.setG r x).bank0 = c.bank0 := by unfold Core.setG; split <;> rfl
@[simp] theorem Core.setG_bank1 (c : Core) (r : Reg) (x : W64) : (c.setG r x).bank1 = c.bank1 := by unfold Core.setG; split <;> rfl
@[simp] theorem Core.setG_seq (c : Core) (r : Reg) (x : W64) : (c.setG r x).seq = c.seq := by unfold Core.setG; split <;> rfl
@[simp] theorem Core.setG_reach (c : Core) (r : Reg) (x : W64) : (c.setG r x).reach = c.reach := by unfold Core.setG; split <;> rfl
@[simp] theorem Core.setG_micro (c : Core) (r : Reg) (x : W64) : (c.setG r x).micro = c.micro := by unfold Core.setG; split <;> rfl
@[simp] theorem Core.setG_target (c : Core) (r : Reg) (x : W64) : (c.setG r x).target = c.target := by unfold Core.setG; split <;> rfl
@[simp] theorem Core.setG_claim (c : Core) (r : Reg) (x : W64) : (c.setG r x).claim = c.claim := by unfold Core.setG; split <;> rfl
@[simp] theorem Core.setG_hints (c : Core) (r : Reg) (x : W64) : (c.setG r x).hints = c.hints := by unfold Core.setG; split <;> rfl
@[simp] theorem Core.setG_acks (c : Core) (r : Reg) (x : W64) : (c.setG r x).acks = c.acks := by unfold Core.setG; split <;> rfl
@[simp] theorem Core.setG_acquired (c : Core) (r : Reg) (x : W64) : (c.setG r x).acquired = c.acquired := by unfold Core.setG; split <;> rfl
@[simp] theorem Core.setG_scan (c : Core) (r : Reg) (x : W64) : (c.setG r x).scan = c.scan := by unfold Core.setG; split <;> rfl
@[simp] theorem Core.setG_body (c : Core) (r : Reg) (x : W64) : (c.setG r x).body = c.body := by unfold Core.setG; split <;> rfl
@[simp] theorem Core.setG_todo (c : Core) (r : Reg) (x : W64) : (c.setG r x).todo = c.todo := by unfold Core.setG; split <;> rfl
@[simp] theorem Core.setG_launch (c : Core) (r : Reg) (x : W64) : (c.setG r x).launch = c.launch := by unfold Core.setG; split <;> rfl
@[simp] theorem Core.setG_ring (c : Core) (r : Reg) (x : W64) : (c.setG r x).ring = c.ring := by unfold Core.setG; split <;> rfl
@[simp] theorem Core.setG_held (c : Core) (r : Reg) (x : W64) : (c.setG r x).held = c.held := by unfold Core.setG; split <;> rfl
@[simp] theorem Core.setG_code (c : Core) (r : Reg) (x : W64) : (c.setG r x).code = c.code := by unfold Core.setG; split <;> rfl
@[simp] theorem Core.setG_ecode (c : Core) (r : Reg) (x : W64) : (c.setG r x).ecode = c.ecode := by unfold Core.setG; split <;> rfl
@[simp] theorem Core.setG_debugger (c : Core) (r : Reg) (x : W64) : (c.setG r x).debugger = c.debugger := by unfold Core.setG; split <;> rfl
@[simp] theorem Core.setG_breakOn (c : Core) (r : Reg) (x : W64) : (c.setG r x).breakOn = c.breakOn := by unfold Core.setG; split <;> rfl
@[simp] theorem Core.setG_loads (c : Core) (r : Reg) (x : W64) : (c.setG r x).loads = if r = 0 then c.loads else c.orphan r := by unfold Core.setG; split <;> rfl
@[simp] theorem Core.setG_stores (c : Core) (r : Reg) (x : W64) : (c.setG r x).stores = c.stores := by unfold Core.setG; split <;> rfl
@[simp] theorem Core.setG_version (c : Core) (r : Reg) (x : W64) : (c.setG r x).version = c.version := by unfold Core.setG; split <;> rfl
@[simp] theorem Core.setG_versionId (c : Core) (r : Reg) (x : W64) : (c.setG r x).versionId = c.versionId := by unfold Core.setG; split <;> rfl
@[simp] theorem Core.setG_snaps (c : Core) (r : Reg) (x : W64) : (c.setG r x).snaps = c.snaps := by unfold Core.setG; split <;> rfl
@[simp] theorem Core.setG_implicit (c : Core) (r : Reg) (x : W64) : (c.setG r x).implicit = c.implicit := by unfold Core.setG; split <;> rfl
@[simp] theorem Core.setG_commit (c : Core) (r : Reg) (x : W64) : (c.setG r x).commit = c.commit := by unfold Core.setG; split <;> rfl
@[simp] theorem Core.setG_fence (c : Core) (r : Reg) (x : W64) : (c.setG r x).fence = c.fence := by unfold Core.setG; split <;> rfl
@[simp] theorem Core.setG_path (c : Core) (r : Reg) (x : W64) : (c.setG r x).path = c.path := by unfold Core.setG; split <;> rfl
@[simp] theorem Core.setG_remote (c : Core) (r : Reg) (x : W64) : (c.setG r x).remote = c.remote := by unfold Core.setG; split <;> rfl
@[simp] theorem Core.setG_vq (c : Core) (r : Reg) (x : W64) : (c.setG r x).vq = c.vq := by unfold Core.setG; split <;> rfl
@[simp] theorem Core.setG_xinq (c : Core) (r : Reg) (x : W64) : (c.setG r x).xinq = c.xinq := by unfold Core.setG; split <;> rfl
@[simp] theorem Core.setG_xoutq (c : Core) (r : Reg) (x : W64) : (c.setG r x).xoutq = c.xoutq := by unfold Core.setG; split <;> rfl
@[simp] theorem Core.setG_mq (c : Core) (r : Reg) (x : W64) : (c.setG r x).mq = c.mq := by unfold Core.setG; split <;> rfl
@[simp] theorem Core.setG_aq (c : Core) (r : Reg) (x : W64) : (c.setG r x).aq = c.aq := by unfold Core.setG; split <;> rfl
@[simp] theorem Core.setG_nextCmd (c : Core) (r : Reg) (x : W64) : (c.setG r x).nextCmd = c.nextCmd := by unfold Core.setG; split <;> rfl
@[simp] theorem Core.setG_vrun (c : Core) (r : Reg) (x : W64) : (c.setG r x).vrun = c.vrun := by unfold Core.setG; split <;> rfl
@[simp] theorem Core.setG_xin (c : Core) (r : Reg) (x : W64) : (c.setG r x).xin = c.xin := by unfold Core.setG; split <;> rfl
@[simp] theorem Core.setG_xout (c : Core) (r : Reg) (x : W64) : (c.setG r x).xout = c.xout := by unfold Core.setG; split <;> rfl

/-! ### Core.putTok -/

@[simp] theorem Core.putTok_id (c : Core) (q : Nat) (x : Nat × Nat) : (c.putTok q x).id = c.id := rfl
@[simp] theorem Core.putTok_ctx (c : Core) (q : Nat) (x : Nat × Nat) : (c.putTok q x).ctx = c.ctx := rfl
@[simp] theorem Core.putTok_pc (c : Core) (q : Nat) (x : Nat × Nat) : (c.putTok q x).pc = c.pc := rfl
@[simp] theorem Core.putTok_g (c : Core) (q : Nat) (x : Nat × Nat) : (c.putTok q x).g = c.g := rfl
@[simp] theorem Core.putTok_l (c : Core) (q : Nat) (x : Nat × Nat) : (c.putTok q x).l = c.l := rfl
@[simp] theorem Core.putTok_loops (c : Core) (q : Nat) (x : Nat × Nat) : (c.putTok q x).loops = c.loops := rfl
@[simp] theorem Core.putTok_nextInst (c : Core) (q : Nat) (x : Nat × Nat) : (c.putTok q x).nextInst = c.nextInst := rfl
@[simp] theorem Core.putTok_pickRet (c : Core) (q : Nat) (x : Nat × Nat) : (c.putTok q x).pickRet = c.pickRet := rfl
@[simp] theorem Core.putTok_slack (c : Core) (q : Nat) (x : Nat × Nat) : (c.putTok q x).slack = c.slack := rfl
@[simp] theorem Core.putTok_v (c : Core) (q : Nat) (x : Nat × Nat) : (c.putTok q x).v = c.v := rfl
@[simp] theorem Core.putTok_m (c : Core) (q : Nat) (x : Nat × Nat) : (c.putTok q x).m = c.m := rfl
@[simp] theorem Core.putTok_q (c : Core) (q : Nat) (x : Nat × Nat) : (c.putTok q x).q = c.q := rfl
@[simp] theorem Core.putTok_ports (c : Core) (q : Nat) (x : Nat × Nat) : (c.putTok q x).ports = c.ports := rfl
@[simp] theorem Core.putTok_tq (c : Core) (q : Nat) (x : Nat × Nat) : (c.putTok q x).tq = c.tq.setIfInBounds q x := rfl
@[simp] theorem Core.putTok_gens (c : Core) (q : Nat) (x : Nat × Nat) : (c.putTok q x).gens = c.gens := rfl
@[simp] theorem Core.putTok_genHalf (c : Core) (q : Nat) (x : Nat × Nat) : (c.putTok q x).genHalf = c.genHalf := rfl
@[simp] theorem Core.putTok_status (c : Core) (q : Nat) (x : Nat × Nat) : (c.putTok q x).status = c.status := rfl
@[simp] theorem Core.putTok_taskid (c : Core) (q : Nat) (x : Nat × Nat) : (c.putTok q x).taskid = c.taskid := rfl
@[simp] theorem Core.putTok_treeid (c : Core) (q : Nat) (x : Nat × Nat) : (c.putTok q x).treeid = c.treeid := rfl
@[simp] theorem Core.putTok_fctl (c : Core) (q : Nat) (x : Nat × Nat) : (c.putTok q x).fctl = c.fctl := rfl
@[simp] theorem Core.putTok_vsh (c : Core) (q : Nat) (x : Nat × Nat) : (c.putTok q x).vsh = c.vsh := rfl
@[simp] theorem Core.putTok_rngcfg (c : Core) (q : Nat) (x : Nat × Nat) : (c.putTok q x).rngcfg = c.rngcfg := rfl
@[simp] theorem Core.putTok_vquota (c : Core) (q : Nat) (x : Nat × Nat) : (c.putTok q x).vquota = c.vquota := rfl
@[simp] theorem Core.putTok_lasttag (c : Core) (q : Nat) (x : Nat × Nat) : (c.putTok q x).lasttag = c.lasttag := rfl
@[simp] theorem Core.putTok_hintdrop (c : Core) (q : Nat) (x : Nat × Nat) : (c.putTok q x).hintdrop = c.hintdrop := rfl
@[simp] theorem Core.putTok_lease1 (c : Core) (q : Nat) (x : Nat × Nat) : (c.putTok q x).lease1 = c.lease1 := rfl
@[simp] theorem Core.putTok_lease2 (c : Core) (q : Nat) (x : Nat × Nat) : (c.putTok q x).lease2 = c.lease2 := rfl
@[simp] theorem Core.putTok_carbase (c : Core) (q : Nat) (x : Nat × Nat) : (c.putTok q x).carbase = c.carbase := rfl
@[simp] theorem Core.putTok_xrbase (c : Core) (q : Nat) (x : Nat × Nat) : (c.putTok q x).xrbase = c.xrbase := rfl
@[simp] theorem Core.putTok_acclive (c : Core) (q : Nat) (x : Nat × Nat) : (c.putTok q x).acclive = c.acclive := rfl
@[simp] theorem Core.putTok_fpu (c : Core) (q : Nat) (x : Nat × Nat) : (c.putTok q x).fpu = c.fpu := rfl
@[simp] theorem Core.putTok_cpuct (c : Core) (q : Nat) (x : Nat × Nat) : (c.putTok q x).cpuct = c.cpuct := rfl
@[simp] theorem Core.putTok_vlv (c : Core) (q : Nat) (x : Nat × Nat) : (c.putTok q x).vlv = c.vlv := rfl
@[simp] theorem Core.putTok_repthr (c : Core) (q : Nat) (x : Nat × Nat) : (c.putTok q x).repthr = c.repthr := rfl
@[simp] theorem Core.putTok_tvec (c : Core) (q : Nat) (x : Nat × Nat) : (c.putTok q x).tvec = c.tvec := rfl
@[simp] theorem Core.putTok_crashbase (c : Core) (q : Nat) (x : Nat × Nat) : (c.putTok q x).crashbase = c.crashbase := rfl
@[simp] theorem Core.putTok_bank0 (c : Core) (q : Nat) (x : Nat × Nat) : (c.putTok q x).bank0 = c.bank0 := rfl
@[simp] theorem Core.putTok_bank1 (c : Core) (q : Nat) (x : Nat × Nat) : (c.putTok q x).bank1 = c.bank1 := rfl
@[simp] theorem Core.putTok_seq (c : Core) (q : Nat) (x : Nat × Nat) : (c.putTok q x).seq = c.seq := rfl
@[simp] theorem Core.putTok_reach (c : Core) (q : Nat) (x : Nat × Nat) : (c.putTok q x).reach = c.reach := rfl
@[simp] theorem Core.putTok_micro (c : Core) (q : Nat) (x : Nat × Nat) : (c.putTok q x).micro = c.micro := rfl
@[simp] theorem Core.putTok_target (c : Core) (q : Nat) (x : Nat × Nat) : (c.putTok q x).target = c.target := rfl
@[simp] theorem Core.putTok_claim (c : Core) (q : Nat) (x : Nat × Nat) : (c.putTok q x).claim = c.claim := rfl
@[simp] theorem Core.putTok_hints (c : Core) (q : Nat) (x : Nat × Nat) : (c.putTok q x).hints = c.hints := rfl
@[simp] theorem Core.putTok_acks (c : Core) (q : Nat) (x : Nat × Nat) : (c.putTok q x).acks = c.acks := rfl
@[simp] theorem Core.putTok_acquired (c : Core) (q : Nat) (x : Nat × Nat) : (c.putTok q x).acquired = c.acquired := rfl
@[simp] theorem Core.putTok_scan (c : Core) (q : Nat) (x : Nat × Nat) : (c.putTok q x).scan = c.scan := rfl
@[simp] theorem Core.putTok_body (c : Core) (q : Nat) (x : Nat × Nat) : (c.putTok q x).body = c.body := rfl
@[simp] theorem Core.putTok_todo (c : Core) (q : Nat) (x : Nat × Nat) : (c.putTok q x).todo = c.todo := rfl
@[simp] theorem Core.putTok_launch (c : Core) (q : Nat) (x : Nat × Nat) : (c.putTok q x).launch = c.launch := rfl
@[simp] theorem Core.putTok_ring (c : Core) (q : Nat) (x : Nat × Nat) : (c.putTok q x).ring = c.ring := rfl
@[simp] theorem Core.putTok_held (c : Core) (q : Nat) (x : Nat × Nat) : (c.putTok q x).held = c.held := rfl
@[simp] theorem Core.putTok_code (c : Core) (q : Nat) (x : Nat × Nat) : (c.putTok q x).code = c.code := rfl
@[simp] theorem Core.putTok_ecode (c : Core) (q : Nat) (x : Nat × Nat) : (c.putTok q x).ecode = c.ecode := rfl
@[simp] theorem Core.putTok_debugger (c : Core) (q : Nat) (x : Nat × Nat) : (c.putTok q x).debugger = c.debugger := rfl
@[simp] theorem Core.putTok_breakOn (c : Core) (q : Nat) (x : Nat × Nat) : (c.putTok q x).breakOn = c.breakOn := rfl
@[simp] theorem Core.putTok_loads (c : Core) (q : Nat) (x : Nat × Nat) : (c.putTok q x).loads = c.loads := rfl
@[simp] theorem Core.putTok_stores (c : Core) (q : Nat) (x : Nat × Nat) : (c.putTok q x).stores = c.stores := rfl
@[simp] theorem Core.putTok_version (c : Core) (q : Nat) (x : Nat × Nat) : (c.putTok q x).version = c.version := rfl
@[simp] theorem Core.putTok_versionId (c : Core) (q : Nat) (x : Nat × Nat) : (c.putTok q x).versionId = c.versionId := rfl
@[simp] theorem Core.putTok_snaps (c : Core) (q : Nat) (x : Nat × Nat) : (c.putTok q x).snaps = c.snaps := rfl
@[simp] theorem Core.putTok_implicit (c : Core) (q : Nat) (x : Nat × Nat) : (c.putTok q x).implicit = c.implicit := rfl
@[simp] theorem Core.putTok_commit (c : Core) (q : Nat) (x : Nat × Nat) : (c.putTok q x).commit = c.commit := rfl
@[simp] theorem Core.putTok_fence (c : Core) (q : Nat) (x : Nat × Nat) : (c.putTok q x).fence = c.fence := rfl
@[simp] theorem Core.putTok_path (c : Core) (q : Nat) (x : Nat × Nat) : (c.putTok q x).path = c.path := rfl
@[simp] theorem Core.putTok_remote (c : Core) (q : Nat) (x : Nat × Nat) : (c.putTok q x).remote = c.remote := rfl
@[simp] theorem Core.putTok_vq (c : Core) (q : Nat) (x : Nat × Nat) : (c.putTok q x).vq = c.vq := rfl
@[simp] theorem Core.putTok_xinq (c : Core) (q : Nat) (x : Nat × Nat) : (c.putTok q x).xinq = c.xinq := rfl
@[simp] theorem Core.putTok_xoutq (c : Core) (q : Nat) (x : Nat × Nat) : (c.putTok q x).xoutq = c.xoutq := rfl
@[simp] theorem Core.putTok_mq (c : Core) (q : Nat) (x : Nat × Nat) : (c.putTok q x).mq = c.mq := rfl
@[simp] theorem Core.putTok_aq (c : Core) (q : Nat) (x : Nat × Nat) : (c.putTok q x).aq = c.aq := rfl
@[simp] theorem Core.putTok_nextCmd (c : Core) (q : Nat) (x : Nat × Nat) : (c.putTok q x).nextCmd = c.nextCmd := rfl
@[simp] theorem Core.putTok_vrun (c : Core) (q : Nat) (x : Nat × Nat) : (c.putTok q x).vrun = c.vrun := rfl
@[simp] theorem Core.putTok_xin (c : Core) (q : Nat) (x : Nat × Nat) : (c.putTok q x).xin = c.xin := rfl
@[simp] theorem Core.putTok_xout (c : Core) (q : Nat) (x : Nat × Nat) : (c.putTok q x).xout = c.xout := rfl

/-! ### Core.setLvl -/

@[simp] theorem Core.setLvl_id (c : Core) (n : Nat) : (c.setLvl n).id = c.id := rfl
@[simp] theorem Core.setLvl_ctx (c : Core) (n : Nat) : (c.setLvl n).ctx = c.ctx := rfl
@[simp] theorem Core.setLvl_pc (c : Core) (n : Nat) : (c.setLvl n).pc = c.pc := rfl
@[simp] theorem Core.setLvl_g (c : Core) (n : Nat) : (c.setLvl n).g = c.g := rfl
@[simp] theorem Core.setLvl_l (c : Core) (n : Nat) : (c.setLvl n).l = c.l := rfl
@[simp] theorem Core.setLvl_loops (c : Core) (n : Nat) : (c.setLvl n).loops = c.loops := rfl
@[simp] theorem Core.setLvl_nextInst (c : Core) (n : Nat) : (c.setLvl n).nextInst = c.nextInst := rfl
@[simp] theorem Core.setLvl_pickRet (c : Core) (n : Nat) : (c.setLvl n).pickRet = c.pickRet := rfl
@[simp] theorem Core.setLvl_slack (c : Core) (n : Nat) : (c.setLvl n).slack = c.slack := rfl
@[simp] theorem Core.setLvl_v (c : Core) (n : Nat) : (c.setLvl n).v = c.v := rfl
@[simp] theorem Core.setLvl_m (c : Core) (n : Nat) : (c.setLvl n).m = c.m := rfl
@[simp] theorem Core.setLvl_q (c : Core) (n : Nat) : (c.setLvl n).q = c.q := rfl
@[simp] theorem Core.setLvl_ports (c : Core) (n : Nat) : (c.setLvl n).ports = c.ports := rfl
@[simp] theorem Core.setLvl_tq (c : Core) (n : Nat) : (c.setLvl n).tq = c.tq := rfl
@[simp] theorem Core.setLvl_gens (c : Core) (n : Nat) : (c.setLvl n).gens = c.gens := rfl
@[simp] theorem Core.setLvl_genHalf (c : Core) (n : Nat) : (c.setLvl n).genHalf = c.genHalf := rfl
@[simp] theorem Core.setLvl_taskid (c : Core) (n : Nat) : (c.setLvl n).taskid = c.taskid := rfl
@[simp] theorem Core.setLvl_treeid (c : Core) (n : Nat) : (c.setLvl n).treeid = c.treeid := rfl
@[simp] theorem Core.setLvl_fctl (c : Core) (n : Nat) : (c.setLvl n).fctl = c.fctl := rfl
@[simp] theorem Core.setLvl_vsh (c : Core) (n : Nat) : (c.setLvl n).vsh = c.vsh := rfl
@[simp] theorem Core.setLvl_rngcfg (c : Core) (n : Nat) : (c.setLvl n).rngcfg = c.rngcfg := rfl
@[simp] theorem Core.setLvl_vquota (c : Core) (n : Nat) : (c.setLvl n).vquota = c.vquota := rfl
@[simp] theorem Core.setLvl_lasttag (c : Core) (n : Nat) : (c.setLvl n).lasttag = c.lasttag := rfl
@[simp] theorem Core.setLvl_hintdrop (c : Core) (n : Nat) : (c.setLvl n).hintdrop = c.hintdrop := rfl
@[simp] theorem Core.setLvl_lease1 (c : Core) (n : Nat) : (c.setLvl n).lease1 = c.lease1 := rfl
@[simp] theorem Core.setLvl_lease2 (c : Core) (n : Nat) : (c.setLvl n).lease2 = c.lease2 := rfl
@[simp] theorem Core.setLvl_carbase (c : Core) (n : Nat) : (c.setLvl n).carbase = c.carbase := rfl
@[simp] theorem Core.setLvl_xrbase (c : Core) (n : Nat) : (c.setLvl n).xrbase = c.xrbase := rfl
@[simp] theorem Core.setLvl_acclive (c : Core) (n : Nat) : (c.setLvl n).acclive = c.acclive := rfl
@[simp] theorem Core.setLvl_fpu (c : Core) (n : Nat) : (c.setLvl n).fpu = c.fpu := rfl
@[simp] theorem Core.setLvl_cpuct (c : Core) (n : Nat) : (c.setLvl n).cpuct = c.cpuct := rfl
@[simp] theorem Core.setLvl_vlv (c : Core) (n : Nat) : (c.setLvl n).vlv = c.vlv := rfl
@[simp] theorem Core.setLvl_repthr (c : Core) (n : Nat) : (c.setLvl n).repthr = c.repthr := rfl
@[simp] theorem Core.setLvl_tvec (c : Core) (n : Nat) : (c.setLvl n).tvec = c.tvec := rfl
@[simp] theorem Core.setLvl_crashbase (c : Core) (n : Nat) : (c.setLvl n).crashbase = c.crashbase := rfl
@[simp] theorem Core.setLvl_bank0 (c : Core) (n : Nat) : (c.setLvl n).bank0 = c.bank0 := rfl
@[simp] theorem Core.setLvl_bank1 (c : Core) (n : Nat) : (c.setLvl n).bank1 = c.bank1 := rfl
@[simp] theorem Core.setLvl_seq (c : Core) (n : Nat) : (c.setLvl n).seq = c.seq := rfl
@[simp] theorem Core.setLvl_reach (c : Core) (n : Nat) : (c.setLvl n).reach = c.reach := rfl
@[simp] theorem Core.setLvl_micro (c : Core) (n : Nat) : (c.setLvl n).micro = c.micro := rfl
@[simp] theorem Core.setLvl_target (c : Core) (n : Nat) : (c.setLvl n).target = c.target := rfl
@[simp] theorem Core.setLvl_claim (c : Core) (n : Nat) : (c.setLvl n).claim = c.claim := rfl
@[simp] theorem Core.setLvl_hints (c : Core) (n : Nat) : (c.setLvl n).hints = c.hints := rfl
@[simp] theorem Core.setLvl_acks (c : Core) (n : Nat) : (c.setLvl n).acks = c.acks := rfl
@[simp] theorem Core.setLvl_acquired (c : Core) (n : Nat) : (c.setLvl n).acquired = c.acquired := rfl
@[simp] theorem Core.setLvl_scan (c : Core) (n : Nat) : (c.setLvl n).scan = c.scan := rfl
@[simp] theorem Core.setLvl_body (c : Core) (n : Nat) : (c.setLvl n).body = c.body := rfl
@[simp] theorem Core.setLvl_todo (c : Core) (n : Nat) : (c.setLvl n).todo = c.todo := rfl
@[simp] theorem Core.setLvl_launch (c : Core) (n : Nat) : (c.setLvl n).launch = c.launch := rfl
@[simp] theorem Core.setLvl_ring (c : Core) (n : Nat) : (c.setLvl n).ring = c.ring := rfl
@[simp] theorem Core.setLvl_held (c : Core) (n : Nat) : (c.setLvl n).held = c.held := rfl
@[simp] theorem Core.setLvl_code (c : Core) (n : Nat) : (c.setLvl n).code = c.code := rfl
@[simp] theorem Core.setLvl_ecode (c : Core) (n : Nat) : (c.setLvl n).ecode = c.ecode := rfl
@[simp] theorem Core.setLvl_debugger (c : Core) (n : Nat) : (c.setLvl n).debugger = c.debugger := rfl
@[simp] theorem Core.setLvl_breakOn (c : Core) (n : Nat) : (c.setLvl n).breakOn = c.breakOn := rfl
@[simp] theorem Core.setLvl_loads (c : Core) (n : Nat) : (c.setLvl n).loads = c.loads := rfl
@[simp] theorem Core.setLvl_stores (c : Core) (n : Nat) : (c.setLvl n).stores = c.stores := rfl
@[simp] theorem Core.setLvl_version (c : Core) (n : Nat) : (c.setLvl n).version = c.version := rfl
@[simp] theorem Core.setLvl_versionId (c : Core) (n : Nat) : (c.setLvl n).versionId = c.versionId := rfl
@[simp] theorem Core.setLvl_snaps (c : Core) (n : Nat) : (c.setLvl n).snaps = c.snaps := rfl
@[simp] theorem Core.setLvl_implicit (c : Core) (n : Nat) : (c.setLvl n).implicit = c.implicit := rfl
@[simp] theorem Core.setLvl_commit (c : Core) (n : Nat) : (c.setLvl n).commit = c.commit := rfl
@[simp] theorem Core.setLvl_fence (c : Core) (n : Nat) : (c.setLvl n).fence = c.fence := rfl
@[simp] theorem Core.setLvl_path (c : Core) (n : Nat) : (c.setLvl n).path = c.path := rfl
@[simp] theorem Core.setLvl_remote (c : Core) (n : Nat) : (c.setLvl n).remote = c.remote := rfl
@[simp] theorem Core.setLvl_vq (c : Core) (n : Nat) : (c.setLvl n).vq = c.vq := rfl
@[simp] theorem Core.setLvl_xinq (c : Core) (n : Nat) : (c.setLvl n).xinq = c.xinq := rfl
@[simp] theorem Core.setLvl_xoutq (c : Core) (n : Nat) : (c.setLvl n).xoutq = c.xoutq := rfl
@[simp] theorem Core.setLvl_mq (c : Core) (n : Nat) : (c.setLvl n).mq = c.mq := rfl
@[simp] theorem Core.setLvl_aq (c : Core) (n : Nat) : (c.setLvl n).aq = c.aq := rfl
@[simp] theorem Core.setLvl_nextCmd (c : Core) (n : Nat) : (c.setLvl n).nextCmd = c.nextCmd := rfl
@[simp] theorem Core.setLvl_vrun (c : Core) (n : Nat) : (c.setLvl n).vrun = c.vrun := rfl
@[simp] theorem Core.setLvl_xin (c : Core) (n : Nat) : (c.setLvl n).xin = c.xin := rfl
@[simp] theorem Core.setLvl_xout (c : Core) (n : Nat) : (c.setLvl n).xout = c.xout := rfl

end Sys2Proof.Machine
end

