-- ==== Sys2Proof/Laws/Ops.lean ====
section
/-! SUPPORT. Laws/Ops.lean: for each shared operation, everything it can do, so that a proof cites the lemma instead of unfolding
the operation. -/

namespace Sys2Proof.Machine

/-! ### Traps and checked addresses -/

/-- A T cause (R356, R357, R359, R360): nothing beside an error that aborts the task; a crash at level 2; the end of the task without a
handler; else the entry. -/
theorem State.trap_cases (s : State) (cause : Cause) (eval epc : W64) (kept : Bool) :
    (s.core.abortDue = true ∧ s.trap cause eval epc kept = s) ∨
    (s.core.lvl = 2 ∧ s.trap cause eval epc kept = s.crash cause eval epc) ∨
    (s.core.lvl ≠ 2 ∧ s.core.tvec = 0 ∧ s.trap cause eval epc kept = (s.upd (s.core.enterTrap cause eval epc kept)).haltLevel) ∨
    (s.core.lvl ≠ 2 ∧ s.core.tvec ≠ 0 ∧ s.trap cause eval epc kept = s.upd (s.core.enterTrap cause eval epc kept)) := by
  unfold State.trap
  cases ha : s.core.abortDue with
  | true => exact .inl ⟨rfl, if_pos rfl⟩
  | false =>
    rw [if_neg (by simp)]
    by_cases h : s.core.lvl = 2
    · exact .inr (.inl ⟨h, if_pos h⟩)
    · by_cases z : s.core.tvec = 0
      · exact .inr (.inr (.inl ⟨h, z, by simp [h, z]⟩))
      · exact .inr (.inr (.inr ⟨h, z, by rw [if_neg h]; exact if_neg z⟩))

/-- A word that traps (R356, R284): a crash waits for the line of its record, else the trap is taken. -/
theorem State.traps_cases (s : State) (cause : Cause) (eval epc : W64) (kept : Bool) :
    (s.core.lvl = 2 ∧ s.traps cause eval epc kept = .next s) ∨ s.traps cause eval epc kept = .next (s.trap cause eval epc kept) := by
  by_cases h : s.core.lvl = 2
  · unfold State.traps
    dsimp only
    generalize (s.core.lvl == 2 && _) = b
    cases b with
    | true => exact .inl ⟨h, rfl⟩
    | false => exact .inr rfl
  · exact .inr (by simp [State.traps, h])

/-- Below level 2 a word that traps takes its trap at once. -/
theorem State.traps_next (s : State) (cause : Cause) (eval epc : W64) (kept : Bool) (h : s.core.lvl ≠ 2) :
    s.traps cause eval epc kept = .next (s.trap cause eval epc kept) :=
  (s.traps_cases cause eval epc kept).resolve_left fun x => h x.1

/-- A checked address (R87): a precise trap with the cause found, or the continuation at its cell address. -/
theorem State.addressed_cases (s : State) (va : W64) (w : Nat) (need : Need) (sc : Option Scope) (record : Bool) (k : State → Nat → Out) :
    (∃ c v t, s.check va w need sc record = .error (c, v) ∧ s.addressed va w need sc record k = t.precise c v ∧
      (t = s ∨ t = s.walkLost s.core.id s.core.context va)) ∨
    (∃ a, s.check va w need sc record = .ok a ∧ s.addressed va w need sc record k = k (s.pin s.core.id s.core.context va) a) := by
  unfold State.addressed
  cases h : s.check va w need sc record with
  | error e =>
    refine .inl ⟨e.1, e.2, _, rfl, rfl, ?_⟩
    split
    · exact .inr rfl
    · exact .inl rfl
  | ok a => exact .inr ⟨a, rfl, rfl⟩

/-! ### Boundaries (R92, R287) -/

/-- A boundary waits for its blocks, its loads, its commit or an acknowledgement, or is done. -/
theorem State.boundary_cases (s : State) (sc : Option Scope) (inVec implied : Bool) :
    s.boundary sc inVec implied = .wait s ∨
    (s.core.commit = none ∧ s.core.version = [] ∧ s.boundary sc inVec implied = .done 0 (s.releaseSnaps s.core.id)) ∨
    (s.core.commit = none ∧ s.core.version ≠ [] ∧ s.boundary sc inVec implied = .wait (s.upd { s.core with
      commit := some { dests := s.core.path.foldl (fun l d => insertNat d l) (versionDests s.core.version)
                       marked := [], acked := [], number := none, implied := implied } })) ∨
    (∃ r n, s.core.commit = some r ∧ r.number = some n ∧ (s.core.acks.any fun a => a.1 == n && s.homeInScope sc a.2) = false ∧
      s.boundary sc inVec implied = .done n ((s.upd { s.core with commit := none }).releaseSnaps s.core.id)) := by
  unfold State.boundary
  split
  · exact .inl rfl
  · cases h : s.core.commit with
    | none =>
      simp only
      split
      · rename_i e; exact .inr (.inl ⟨trivial, by simpa using e, rfl⟩)
      · split
        · exact .inl rfl
        · rename_i e _; exact .inr (.inr (.inl ⟨trivial, by simpa using e, rfl⟩))
    | some r =>
      simp only
      cases hn : r.number with
      | none => exact .inl rfl
      | some n =>
        simp only
        split
        · exact .inl rfl
        · rename_i e; exact .inr (.inr (.inr ⟨r, n, rfl, hn, Bool.eq_false_iff.mpr e, rfl⟩))

/-- With no implicit boundary due, an instruction begins at once. -/
theorem State.withImplicit_none (s : State) (k : State → Out) (h : s.core.implicit = false) : s.withImplicit k = k s := by
  unfold State.withImplicit; rw [h]; rfl

/-- An instruction behind a boundary that is due goes on with that boundary, or begins. -/
theorem State.withImplicit_cases (s : State) (k : State → Out) :
    s.withImplicit k = k s ∨
    (∃ t, s.boundary none false true = .wait t ∧ s.withImplicit k = .next t) ∨
    (∃ n t, s.boundary none false true = .done n t ∧
      s.withImplicit k = .next (t.upd ({ t.core with implicit := false }.setPx true))) := by
  unfold State.withImplicit
  cases hb : (s.core.implicit && s.core.micro == 0 && (match s.core.commit with | some r => r.implied | none => true)) with
  | false => exact .inl (if_neg (by simp))
  | true =>
    rw [if_pos rfl]
    cases h : s.boundary none false true with
    | wait t => exact .inr (.inl ⟨t, rfl, rfl⟩)
    | done n t => exact .inr (.inr ⟨n, t, rfl, rfl⟩)

/-- An instruction that is a boundary waits with it, or goes on behind it. -/
theorem State.atBoundary_cases (s : State) (sc : Option Scope) (k : State → Out) :
    (∃ t, s.boundary sc false false = .wait t ∧ s.atBoundary sc k = .next t) ∨
    (∃ n t, s.boundary sc false false = .done n t ∧ s.atBoundary sc k = k t) := by
  unfold State.atBoundary
  cases h : s.boundary sc false false with
  | wait t => exact .inl ⟨t, rfl, rfl⟩
  | done n t => exact .inr ⟨n, t, rfl, rfl⟩

/-- A fence waits, starts its markers, or is done (R93, R281). -/
theorem State.fenceWait_cases (s : State) (sc : Scope) :
    s.fenceWait sc = .wait s ∨ s.fenceWait sc = .done 0 s ∨
    (s.core.fence = none ∧ s.core.path ≠ [] ∧
      s.fenceWait sc = .wait (s.upd { s.core with fence := some { dests := s.core.path, marked := [], acked := [] } })) ∨
    (∃ f, s.core.fence = some f ∧ f.dests.all f.acked.contains ∧
      s.fenceWait sc = .done 0 (s.upd { s.core with fence := none, path := [] })) := by
  unfold State.fenceWait
  dsimp only
  split
  · exact .inl rfl
  · split
    · exact .inr (.inl rfl)
    · cases h : s.core.fence with
      | none =>
        simp only
        split
        · exact .inr (.inl rfl)
        · rename_i e; exact .inr (.inr (.inl ⟨trivial, by simpa using e, rfl⟩))
      | some f =>
        simp only
        split
        · exact .inr (.inr (.inr ⟨f, rfl, ‹_›, rfl⟩))
        · exact .inl rfl

/-- A store waits for a commit or a version id, owes a boundary, or enters the version (R90, R288). -/
theorem State.store_cases (s : State) (a : Nat) (bs : List Byte) (k : State → Out) :
    s.store a bs k = .next s ∨
    (s.core.overQuota a bs = true ∧ s.store a bs k = .next (s.upd { s.core with implicit := true })) ∨
    (∃ v, (s.core.versionId = some v ∨ s.freeVersion = some v) ∧ s.core.overQuota a bs = false ∧
      s.store a bs k = k (s.upd (s.core.intoVersion v a bs))) := by
  unfold State.store
  split
  · exact .inl rfl
  · split
    · exact .inr (.inl ⟨‹_›, rfl⟩)
    · have hq : s.core.overQuota a bs = false := by simpa using ‹¬ s.core.overQuota a bs = true›
      cases h : s.core.versionId with
      | some v => exact .inr (.inr ⟨v, .inl rfl, hq, rfl⟩)
      | none =>
        cases f : s.freeVersion with
        | some v => exact .inr (.inr ⟨v, .inr rfl, hq, rfl⟩)
        | none => exact .inl rfl

/-! ### Questions to other devices (R385) -/

/-- A question of an agent whose core asks nothing is sent; it waits without its answer; with it the continuation goes on. -/
theorem State.ask_cases (s : State) (who : Agent) (addr : W64) (op : RemoteOp) (k : State → FabricReply → Out) :
    (s.core.remote = none ∧ ∃ t, s.ask who addr op k = .next t ∧ t.mem = s.mem ∧ t.core.pc = s.core.pc ∧
      t.core.remote = some { who := who, dev := globalDev addr, addr := addr, since := s.clock, answer := none } ∧
      t.fabric = s.fabric ++ [{ cls := 0, dev := globalDev addr, addr := addr, core := s.core.id, data := [], op := some op }]) ∨
    (s.core.remote ≠ none ∧ s.ask who addr op k = .next s) ∨
    (∃ r a, s.core.remote = some r ∧ r.who = who ∧ r.addr = addr ∧ r.answer = some a ∧
      (s.ask who addr op k = k (s.upd { s.core with remote := none }) a ∨
        ∃ v, a = .refused Cause.lostline.code v ∧
          let l := (s.upd { s.core with remote := none }).lostAnswer op v
          s.ask who addr op k = k l.1 l.2)) := by
  unfold State.ask
  cases h : s.core.remote with
  | none => exact .inl ⟨rfl, _, rfl, rfl, rfl, rfl, rfl⟩
  | some r =>
    refine .inr ?_
    simp only
    split
    · exact .inl ⟨by simp, rfl⟩
    · rename_i hr
      simp only [ne_eq, Bool.or_eq_true, decide_eq_true_eq, not_or, not_not] at hr
      cases ha : r.answer with
      | none => exact .inl ⟨by simp, rfl⟩
      | some a =>
        refine .inr ⟨r, a, rfl, hr.1, hr.2, ha, ?_⟩
        cases a with
        | refused c v =>
          simp only
          split
          · rename_i hc; subst hc; exact .inr ⟨v, rfl, rfl⟩
          · exact .inl rfl
        | data | status | done | ack | creditFault => exact .inl rfl

/-! ### Step words (R187, R192) -/

/-- A program that waits raises a fault found meanwhile, or stands where it may be cut. -/
theorem State.hold_cases (s : State) (p : ProgRun) :
    (∃ r, p.fault = some r ∧ s.hold p = s.progFail p r) ∨
    (p.fault = none ∧ s.hold p = .next (s.putRun { p with idle := true })) := by
  unfold State.hold
  cases h : p.fault with
  | some r => exact .inl ⟨r, rfl, rfl⟩
  | none => exact .inr ⟨rfl, rfl⟩

/-- A step waits for its free token or takes it (R192). -/
theorem State.tokFree_cases (s : State) (p : ProgRun) (tok : Tok) (k : State → ProgRun → Out) :
    s.tokFree p tok k = s.hold p ∨ s.tokFree p tok k = k s { p with stage := 2 } ∨
    (∃ q x, tok.pfree = true ∧ p.down = some q ∧ s.core.tok q = x ∧ x.2 ≠ 0 ∧
      s.tokFree p tok k = k (s.upd (s.core.putTok q (x.1, x.2 - 1))) { p with stage := 2 }) := by
  unfold State.tokFree
  split
  · rename_i q hf hd
    dsimp only
    split
    · exact .inl rfl
    · exact .inr (.inr ⟨q, _, hf, hd, rfl, ‹_›, rfl⟩)
  · exact .inr (.inl rfl)

/-- A step waits for its ready token or takes it, and then comes its free token (R192). -/
theorem State.tokWait_cases (s : State) (p : ProgRun) (tok : Tok) (k : State → ProgRun → Out) :
    s.tokWait p tok k = s.hold p ∨ s.tokWait p tok k = s.tokFree p tok k ∨ s.tokWait p tok k = s.tokFree { p with stage := 1 } tok k ∨
    (∃ q x, p.stage = 0 ∧ tok.prdy = true ∧ p.up = some q ∧ s.core.tok q = x ∧ x.1 ≠ 0 ∧
      s.tokWait p tok k = (s.upd (s.core.putTok q (x.1 - 1, x.2))).tokFree { p with stage := 1 } tok k) := by
  unfold State.tokWait
  split
  · rename_i hs
    split
    · rename_i q hr hu
      dsimp only
      split
      · exact .inl rfl
      · exact .inr (.inr (.inr ⟨q, _, hs, hr, hu, rfl, ‹_›, rfl⟩))
    · exact .inr (.inr (.inl rfl))
  · exact .inr (.inl rfl)

/-- SFREE waits for a full counter, is sent, or is not asked for (R192, R262). -/
theorem State.sendFree_cases (s : State) (p : ProgRun) (tok : Tok) (fin : State → ProgRun → Out) :
    s.sendFree p tok fin = .next (s.putRun { p with stage := 4, idle := true }) ∨ s.sendFree p tok fin = fin s p ∨
    (∃ q x, tok.sfree = true ∧ p.up = some q ∧ s.core.tok q = x ∧ x.2 ≠ 255 ∧
      s.sendFree p tok fin = fin (s.upd (s.core.putTok q (x.1, x.2 + 1))) p) := by
  unfold State.sendFree
  split
  · rename_i q hf hu
    dsimp only
    split
    · exact .inl rfl
    · exact .inr (.inr ⟨q, _, hf, hu, rfl, ‹_›, rfl⟩)
  · exact .inr (.inl rfl)

/-- A completed step sends SRDY, or waits for a full counter; then SFREE (R192, R262). -/
theorem State.tokSend_cases (s : State) (p : ProgRun) (tok : Tok) (fin : State → ProgRun → Out) :
    s.tokSend p tok fin = .next (s.putRun { p with stage := 3, idle := true }) ∨ s.tokSend p tok fin = s.sendFree p tok fin ∨
    (∃ q x, tok.srdy = true ∧ p.down = some q ∧ s.core.tok q = x ∧ x.1 ≠ 255 ∧
      s.tokSend p tok fin = (s.upd (s.core.putTok q (x.1 + 1, x.2))).sendFree p tok fin) := by
  unfold State.tokSend
  split
  · exact .inr (.inl rfl)
  · split
    · rename_i q hf hu
      dsimp only
      split
      · exact .inl rfl
      · exact .inr (.inr ⟨q, _, hf, hu, rfl, ‹_›, rfl⟩)
    · exact .inr (.inl rfl)

/-- A step word (R187, R195): no program that may move, a fault, its tokens and work, its work, or its last tokens. -/
theorem State.stepWord_cases (s : State) (tok : Tok) (work fin : State → ProgRun → Out) :
    s.stepWord tok work fin = .next s ∨
    (∃ p, s.prog? = some p ∧ p.stopped = false ∧
      ((∃ r, p.fault = some r ∧ s.stepWord tok work fin = s.progFail p r) ∨
       s.stepWord tok work fin = s.progFault p .proglen 0 ∨
       (p.stage ≤ 1 ∧ s.stepWord tok work fin = s.tokWait p tok fun t q => work (t.putProg q) q) ∨
       (p.stage = 2 ∧ s.stepWord tok work fin = work s p) ∨
       (2 < p.stage ∧ s.stepWord tok work fin = s.tokSend p tok fin))) := by
  unfold State.stepWord
  cases h : s.prog? with
  | none => exact .inl rfl
  | some p =>
    dsimp only
    split
    · exact .inl rfl
    · rename_i hp
      have hst : p.stopped = false := by simp at hp; exact hp.1
      cases hf : p.fault with
      | some r =>
        split
        · exact .inr ⟨p, rfl, hst, .inl ⟨r, hf, rfl⟩⟩
        · refine .inr ⟨p, rfl, hst, ?_⟩
          split
          · exact .inl ⟨r, hf, by simp [State.bounded, State.raised, hf]⟩
          · split
            · exact .inr (.inr (.inr (.inl ⟨‹_›, rfl⟩)))
            · exact .inr (.inr (.inr (.inr ⟨by omega, rfl⟩)))
      | none =>
        split
        · exact .inl rfl
        · refine .inr ⟨p, rfl, hst, ?_⟩
          split
          · rename_i hs
            simp only [State.bounded, State.raised, hf]
            split
            · exact .inr (.inl rfl)
            · exact .inr (.inr (.inl ⟨hs, rfl⟩))
          · split
            · exact .inr (.inr (.inr (.inl ⟨‹_›, rfl⟩)))
            · exact .inr (.inr (.inr (.inr ⟨by omega, rfl⟩)))

/-- A loop register of a program: captured, or a fault (R190). -/
theorem State.preg_cases (s : State) (p : ProgRun) (r : LReg) (k : W64 → Out) :
    (p.cmd.mask.getLsbD r.val = true ∧ s.preg p r k = k p.regs[r]) ∨
    (p.cmd.mask.getLsbD r.val = false ∧ s.preg p r k = s.progFault p .lregcap (BitVec.ofNat 64 r.val)) := by
  unfold State.preg
  cases h : p.cmd.mask.getLsbD r.val <;> simp

/-- A push into a stream (R189, R276): not in FIFO mode, the claimed slot filled, a slot claimed, or the step waits. -/
theorem State.pushSlot_cases (s : State) (p : ProgRun) (f off : Nat) (bs : List Byte) (k : State → ProgRun → Out) :
    let q := { p with streams := insertNat f p.streams }
    let b := s.bank f
    (b.mode ≠ 2 ∧ s.pushSlot p f off bs k = s.progFail q (s.progReport q .notfifo 0 off (some (f, 0)))) ∨
    (b.mode = 2 ∧ b.claimed s.engineNo = true ∧ s.pushSlot p f off bs k = k (s.putBank f (b.filled s.engineNo bs)) { q with waits := none }) ∨
    (b.mode = 2 ∧ b.claimed s.engineNo = false ∧ b.roomy = true ∧ s.pushSlot p f off bs k =
      .next ((s.putBank f { b with claims := b.claims ++ [(s.engineNo, none)] }).putProg { q with waits := none })) ∨
    (b.mode = 2 ∧ b.claimed s.engineNo = false ∧ b.roomy = false ∧ s.pushSlot p f off bs k = s.hold { q with waits := some f }) := by
  intro q b
  unfold State.pushSlot State.reach
  dsimp only
  split
  · exact .inl ⟨‹_›, rfl⟩
  · have hm : b.mode = 2 := by simpa using ‹¬ (s.bank f).mode ≠ 2›
    split
    · exact .inr (.inl ⟨hm, ‹_›, rfl⟩)
    · rename_i hc
      split
      · exact .inr (.inr (.inl ⟨hm, by simpa using hc, ‹_›, rfl⟩))
      · rename_i hr
        exact .inr (.inr (.inr ⟨hm, by simpa using hc, by simpa using hr, rfl⟩))

/-- A pop from a stream (R189, R276): not in FIFO mode, the slot read, a slot claimed, or the step waits. -/
theorem State.popSlot_cases (s : State) (p : ProgRun) (f off : Nat) (k : State → ProgRun → List Byte → Out) :
    let q := { p with streams := insertNat f p.streams }
    let b := s.bank f
    (b.mode ≠ 2 ∧ s.popSlot p f off k = s.progFail q (s.progReport q .notfifo 0 off (some (f, 0)))) ∨
    (b.mode = 2 ∧ ∃ x rest, b.slots = x :: rest ∧ b.consumer = some s.engineNo ∧ s.popSlot p f off k =
      k (s.putBank f { b with slots := rest, popped := b.popped + 1, consumer := none }) { q with waits := none } x) ∨
    (b.mode = 2 ∧ b.slots ≠ [] ∧ b.consumer = none ∧ s.popSlot p f off k =
      .next ((s.putBank f { b with consumer := some s.engineNo }).putProg { q with waits := none })) ∨
    (b.mode = 2 ∧ s.popSlot p f off k = s.hold { q with waits := some f }) := by
  intro q b
  unfold State.popSlot State.reach
  dsimp only
  split
  · exact .inl ⟨‹_›, rfl⟩
  · have hm : b.mode = 2 := by simpa using ‹¬ (s.bank f).mode ≠ 2›
    cases hs : b.slots with
    | nil => exact .inr (.inr (.inr ⟨hm, rfl⟩))
    | cons x rest =>
      dsimp only
      split
      · exact .inr (.inl ⟨hm, x, rest, rfl, ‹_›, rfl⟩)
      · split
        · exact .inr (.inr (.inl ⟨hm, by simp, by simpa using ‹(s.bank f).consumer.isNone = true›, rfl⟩))
        · exact .inr (.inr (.inr ⟨hm, rfl⟩))

/-! ### Vector words (R161, R165) -/

/-- A vector word: no block runs, the block is too long, or the word's work. -/
theorem State.vword_cases (s : State) (k : VecRun → Out) :
    (s.core.vrun = none ∧ s.vword k = .next s) ∨
    (∃ v, s.core.vrun = some v ∧ 4 * 4096 ≤ (v.pc - v.start).toNat ∧ s.vword k = s.vfault .blocklen 0) ∨
    (∃ v, s.core.vrun = some v ∧ (v.pc - v.start).toNat < 4 * 4096 ∧ s.vword k = k v) := by
  unfold State.vword
  cases h : s.core.vrun with
  | none => exact .inl ⟨rfl, rfl⟩
  | some v =>
    dsimp only
    split
    · exact .inr (.inl ⟨v, rfl, ‹_›, rfl⟩)
    · exact .inr (.inr ⟨v, rfl, by omega, rfl⟩)

/-- A vector fault goes on: its block is gone, and the fault is charged. -/
theorem State.vfault_next (s : State) (cause : Cause) (faddr : W64) : ∃ t, s.vfault cause faddr = .next t := by
  unfold State.vfault
  split
  · exact ⟨_, rfl⟩
  · exact ⟨_, rfl⟩

/-- A loop register of a block: captured, or a fault (R164). -/
theorem State.vreg_cases (s : State) (v : VecRun) (r : LReg) (k : W64 → Out) :
    (v.cmd.mask.getLsbD r.val = true ∧ s.vreg v r k = k v.cmd.regs[r]) ∨
    (v.cmd.mask.getLsbD r.val = false ∧ s.vreg v r k = s.vfault .lregcap (BitVec.ofNat 64 r.val)) := by
  unfold State.vreg
  cases h : v.cmd.mask.getLsbD r.val <;> simp

end Sys2Proof.Machine
end

