-- ==== Sys2Proof/Laws/Keeps.lean ====
section
/-! SUPPORT. Laws/Keeps.lean: every shared operation that writes memory, or calls one that does, keeps memory in its canonical form
(MemWf); an update of any other field keeps it by computation. -/

namespace Sys2Proof.Machine

/-! ### Outcomes -/

/-- Every next state an outcome gives has memory in canonical form. -/
def Kept (o : Out) : Prop := ∀ t, o = .next t → MemWf t

theorem Kept.next {t : State} (h : MemWf t) : Kept (.next t) := fun _ e => by cases e; exact h

theorem MemWf.of_eq {s t : State} (h : MemWf s) (hm : t.mem = s.mem) (h0 : t.chip0.bytes = s.chip0.bytes)
    (h1 : t.chip1.bytes = s.chip1.bytes) : MemWf t := by
  unfold MemWf
  rw [hm, h0, h1]
  exact h

/-- A fold of updates that each keep the form keeps it. -/
theorem MemWf.foldl {α : Type} {f : State → α → State} (hf : ∀ t x, MemWf t → MemWf (f t x)) (l : List α) {s : State}
    (h : MemWf s) : MemWf (l.foldl f s) := by
  induction l generalizing s with
  | nil => exact h
  | cons x t ih => exact ih (hf s x h)

/-- New committed bytes in canonical form. -/
theorem MemWf.withMem {s : State} {m : List Host.Cell} (h : MemWf s) (hm : Memory.wf m = true) : MemWf { s with mem := m } :=
  ⟨hm, h.2.1, h.2.2⟩

theorem memWf_reset : MemWf State.reset := ⟨rfl, rfl, rfl⟩

/-! ### Parts of the machine -/

theorem MemWf.upd {s : State} (c : Core) (h : MemWf s) : MemWf (s.upd c) := h

theorem MemWf.putCore {s : State} (x : Core) (h : MemWf s) : MemWf (s.putCore x) := by
  unfold State.putCore; split <;> exact h

theorem MemWf.focus {s : State} (c : Nat) (h : MemWf s) : MemWf (s.focus c) := by
  unfold State.focus; split <;> exact h

theorem MemWf.putCluster {s : State} (g : Nat) (c : Cluster) (h : MemWf s) : MemWf (s.putCluster g c) := h

theorem MemWf.putDie {s : State} (d : Nat) (x : Die) (h : MemWf s) : MemWf (s.putDie d x) := by
  unfold State.putDie; split <;> exact h

/-- A chiplet whose page bytes are in canonical form takes its place. -/
theorem MemWf.putChip {s : State} (d : Nat) {c : Chip} (h : MemWf s) (hc : Memory.wf c.bytes = true) : MemWf (s.putChip d c) := by
  unfold State.putChip
  split
  · exact ⟨h.1, hc, h.2.2⟩
  · exact ⟨h.1, h.2.1, hc⟩

theorem MemWf.chip {s : State} (d : Nat) (h : MemWf s) : Memory.wf (s.chip d).bytes = true := by
  unfold State.chip
  split
  · exact h.2.1
  · exact h.2.2

theorem MemWf.mapQueue {s : State} (i : Nat) (f : Queue → Queue) (h : MemWf s) : MemWf (s.mapQueue i f) := h

theorem MemWf.putDir {s : State} (x : DirLine) (h : MemWf s) : MemWf (s.putDir x) := h

theorem MemWf.putRegion {s : State} (x : DirRegion) (h : MemWf s) : MemWf (s.putRegion x) := h

theorem MemWf.putLine {s : State} (x : LineInfo) (h : MemWf s) : MemWf (s.putLine x) := h

/-! ### Lines -/

theorem MemWf.dropSnap {s : State} (c l : Nat) (h : MemWf s) : MemWf (s.dropSnap c l) := h.putCore _

theorem MemWf.intoHold {s : State} (g l : Nat) (hs : List Nat) (h : MemWf s) : MemWf (s.intoHold g l hs) := by
  unfold State.intoHold
  dsimp only
  split
  · exact h
  · split
    · exact h
    · exact h.foldl (fun t x ht => ht.dropSnap x l) _

theorem MemWf.holdCopy {s : State} (g l : Nat) (h : MemWf s) : MemWf (s.holdCopy g l) := by
  unfold State.holdCopy
  split
  · exact h
  · exact h.intoHold g l _

theorem MemWf.dropL1 {s : State} (g l : Nat) (h : MemWf s) : MemWf (s.dropL1 g l) := by
  unfold State.dropL1
  split
  · exact h
  · exact (h.intoHold g l _).putCluster _ _

theorem MemWf.dropCopy {s : State} (g l : Nat) (h : MemWf s) : MemWf (s.dropCopy g l) := h.holdCopy g l

theorem MemWf.releaseSnaps {s : State} (c : Nat) (h : MemWf s) : MemWf (s.releaseSnaps c) := by
  unfold State.releaseSnaps
  dsimp only
  split
  · exact h.putCore _
  · exact (h.putCore _).putCluster _ _

theorem MemWf.takeSnap {s : State} (c l : Nat) (bs : List Byte) (h : MemWf s) : MemWf (s.takeSnap c l bs) := by
  unfold State.takeSnap
  dsimp only
  split
  · exact (h.putCore _).putCluster _ _
  · exact h.putCore _

theorem MemWf.evict {s : State} (g l : Nat) (h : MemWf s) : MemWf (s.evict g l) := by
  unfold State.evict
  split
  · exact h
  · split
    · exact h
    · dsimp only
      split <;> exact h.holdCopy g l

theorem MemWf.expel {s : State} (g l : Nat) (h : MemWf s) : MemWf (s.expel g l) := by
  unfold State.expel
  split
  · exact h.dropL1 g l
  · split
    · exact (h.holdCopy g l).putCluster _ _
    · exact h.evict g l

theorem MemWf.unpin {s : State} (g : Nat) (f : Frame) (h : MemWf s) : MemWf (s.unpin g f) :=
  (h.putCluster _ _).foldl (fun _ _ ht => ht.expel _ _) _

theorem MemWf.makeWay {s : State} (g l : Nat) (h : MemWf s) : MemWf (s.makeWay g l) := by
  unfold State.makeWay
  split
  · exact h
  · rename_i x _
    exact ((h.evict g x).dropL1 g x).of_eq rfl rfl rfl

theorem MemWf.request {s : State} (g l : Nat) (xs : Xs) (q : Msg) (h : MemWf s) : MemWf (s.request g l xs q) := by
  unfold State.request
  dsimp only
  split
  · exact h
  · split
    · exact h
    · split <;> exact h

theorem MemWf.needLine {s : State} (g l : Nat) (h : MemWf s) : MemWf (s.needLine g l) := h.request _ _ _ _

theorem MemWf.needOwn {s : State} (g l : Nat) (h : MemWf s) : MemWf (s.needOwn g l) := by
  unfold State.needOwn
  split
  · split <;> exact h.request _ _ _ _
  · exact h.request _ _ _ _

theorem MemWf.mergeNow {s : State} (l : Nat) (h : MemWf s) : MemWf (s.mergeNow l) := by
  unfold State.mergeNow
  dsimp only
  split
  · exact h
  · have h1 : MemWf ((s.holders l).foldl (fun t g => match (t.cluster g).entry l with
        | some e => if e.part.isSome then t.dropCopy g l else t
        | none => t) s) := h.foldl (fun t g ht => by
          split
          · split
            · exact ht.dropCopy g l
            · exact ht
          · exact ht) _
    exact (h1.putDir _).withMem (wf_cellPutBytes _ _ h1.1)

theorem MemWf.withdraw {s : State} (l : Nat) (h : MemWf s) : MemWf (s.withdraw l) := by
  unfold State.withdraw
  dsimp only
  have h2 := (h.mergeNow l).foldl (f := fun t g => match (t.cluster g).entry l with
    | some e =>
      if e.xs == .none then t.dropCopy g l
      else if e.xs == .sm then
        (t.holdCopy g l).putCluster g (((t.holdCopy g l).cluster g).putEntry { e with st := .i, xs := .im, hold := [] })
      else t
    | none => t) (fun t g ht => by
      split
      · split
        · exact ht.dropCopy g l
        · split
          · exact ht.holdCopy g l
          · exact ht
      · exact ht) ((s.mergeNow l).holders l)
  split
  · exact h2
  · exact h2.putDir _

theorem MemWf.forget {s : State} (d r : Nat) (h : MemWf s) : MemWf (s.forget d r) := by
  unfold State.forget
  exact h

theorem MemWf.shoot {s : State} (l : Nat) (h : MemWf s) : MemWf (s.shoot l) := h.foldl (fun _ d ht => ht.forget d _) _

/-- A write at the home keeps the form. -/
theorem MemWf.homeWrite {s : State} (a : Nat) (bs : List Byte) (h : MemWf s) : MemWf (s.homeWrite a bs) := by
  have h1 : MemWf ((linesAt a bs.length).foldl (fun t l => (t.withdraw l).shoot l) s) :=
    h.foldl (fun t l ht => (ht.withdraw l).shoot l) _
  exact ⟨wf_cellPutBytes _ _ h1.1, h1.2.1, h1.2.2⟩

theorem MemWf.homeRead {s : State} (a n : Nat) (h : MemWf s) : MemWf (s.homeRead a n).2 :=
  h.foldl (fun _ l ht => ht.mergeNow l) _

theorem MemWf.startMerge {s : State} (d : DirLine) (h : MemWf s) : MemWf (s.startMerge d) := h

theorem MemWf.sendProbes {s : State} (d : DirLine) (gs : List Nat) (k : Probe) (r : Option Nat) (h : MemWf s) :
    MemWf (s.sendProbes d gs k r) := h

theorem MemWf.addPres {s : State} (l g : Nat) (h : MemWf s) : MemWf (s.addPres l g) := h.putRegion _

theorem MemWf.serve {s : State} (m : Msg) (h : MemWf s) : MemWf (s.serve m) := by
  unfold State.serve
  dsimp only
  split
  · split
    · exact h
    · split
      · split <;> exact h
      all_goals exact h
  · split
    · exact h
    · split
      · exact h
      all_goals (split <;> exact h)
  · split
    · exact h
    · split
      · split <;> exact h
      all_goals (split <;> exact h)
  · exact h

theorem MemWf.startEvict {s : State} (r : Nat) (h : MemWf s) : MemWf (s.startEvict r) := by
  unfold State.startEvict
  split
  · exact h
  · refine (h.putRegion _).foldl (fun t k ht => ?_) _
    dsimp only
    split
    · exact ht.startMerge _
    · split
      · exact ht.putDir _
      · exact ht.sendProbes _ _ _ _
    · split
      · exact ht.putDir _
      · exact ht.sendProbes _ _ _ _
    all_goals exact ht

theorem MemWf.freeEntry {s : State} (r : Nat) (h : MemWf s) : MemWf (s.freeEntry r) := (h.shoot _).putRegion _

theorem MemWf.drain {s : State} (r n : Nat) (h : MemWf s) : MemWf (s.drain r n) := by
  induction n generalizing s with
  | zero => exact h
  | succ n ih =>
    unfold State.drain
    split
    · exact ih (h.freeEntry _)
    · dsimp only
      split
      · exact ih (MemWf.serve _ h)
      · split
        · exact ih (h.startEvict _)
        · exact h

theorem MemWf.serveWaiting {s : State} (l : Nat) (h : MemWf s) : MemWf (s.serveWaiting l) := h.drain _ _

theorem MemWf.arrive {s : State} (m : Msg) (h : MemWf s) : MemWf (s.arrive m) := by
  unfold State.arrive
  split
  · exact h.serve m
  · exact MemWf.serveWaiting _ h

/-! ### Reports, tasks and launches -/

theorem MemWf.putJournal {s : State} (j : Nat) (bs : List Byte) (h : MemWf s) : MemWf (s.putJournal j bs) := by
  have h1 := h.homeWrite (journalBase + 128 * (j % 2 ^ 20)) bs
  unfold State.putJournal
  exact h1

theorem MemWf.journal {s : State} (kind ctx status body : Nat) (rep : Option FaultReport) (h : MemWf s) :
    MemWf (s.journal kind ctx status body rep) := by
  unfold State.journal
  dsimp only
  generalize journalBytes _ _ _ _ _ _ _ = bs
  exact h.putJournal s.admin.jnext bs

theorem MemWf.charge {s : State} (c : Nat) (r : FaultReport) (h : MemWf s) : MemWf (s.charge c r) :=
  (h.journal _ _ _ _ _).putCore _

theorem MemWf.chargeOnce {s : State} (c : Nat) (r : FaultReport) (h : MemWf s) : MemWf (s.chargeOnce c r) := by
  unfold State.chargeOnce
  split
  · exact h
  · exact h.charge c r

theorem MemWf.chargeLate {s : State} (c ctx : Nat) (r : FaultReport) (h : MemWf s) : MemWf (s.chargeLate c ctx r) := by
  unfold State.chargeLate
  dsimp only
  split
  · exact h.charge c r
  · exact h.journal _ _ _ _ _

theorem MemWf.putTcb {s : State} (id : W32) (b : Tcb) (h : MemWf s) : MemWf (s.putTcb id b) := h.putDie _ _

theorem MemWf.freeBlock {s : State} (id : W32) (b : Tcb) (h : MemWf s) : MemWf (s.freeBlock id b) := by
  unfold State.freeBlock
  dsimp only
  split
  · split
    · exact (h.putTcb _ _).putDie _ _
    · exact h.putTcb _ _
  · exact h.putTcb _ _

theorem MemWf.readyBlock {s : State} (id : W32) (b : Tcb) (h : MemWf s) : MemWf (s.readyBlock id b) := h.putDie _ _

theorem MemWf.endBlock {s : State} (id : W32) (x : W64) (n : Nat) (h : MemWf s) : MemWf (s.endBlock id x n) := by
  induction n generalizing s id x with
  | zero => exact h
  | succ n ih =>
    unfold State.endBlock
    split
    · exact h
    · rename_i b _
      have h1 : MemWf (if b.pend = 0 then s.freeBlock id b else s.putTcb id { b with state := .drain }) := by
        split
        · exact h.freeBlock _ _
        · exact h.putTcb _ _
      dsimp only
      split
      · exact h1
      · split
        · split
          · exact ih _ _ (h1.putTcb _ _)
          · exact h1.readyBlock _ _
        · split
          · exact h1.freeBlock _ _
          · exact h1.putTcb _ _

theorem MemWf.endTask {s : State} (id : W32) (x : W64) (h : MemWf s) : MemWf (s.endTask id x) := h.endBlock _ _ _

theorem MemWf.joinTask {s : State} (id : W32) (desc x : W64) (h : MemWf s) : MemWf (s.joinTask id desc x) := by
  unfold State.joinTask
  split
  · exact h
  · dsimp only
    split
    · exact (h.putTcb _ _).endTask _ _
    · split
      · exact h.readyBlock _ _
      · exact h.putTcb _ _

theorem MemWf.complete {s : State} (q recno status : Nat) (u : W64) (rep : Option FaultReport) (h : MemWf s) :
    MemWf (s.complete q recno status u rep) := h

theorem MemWf.endDequeued {s : State} (c : Nat) (task : W32) (status : Nat) (rep : Option FaultReport) (h : MemWf s) :
    MemWf (s.endDequeued c task status rep) := h

theorem MemWf.finishLaunch {s : State} (l : Launch) (h : MemWf s) : MemWf (s.finishLaunch l) := by
  unfold State.finishLaunch
  dsimp only
  split
  · split <;> exact h
  · exact h

theorem MemWf.bodyEnd {s : State} (c : Nat) (err : Option (Nat × Option FaultReport)) (h : MemWf s) : MemWf (s.bodyEnd c err) := by
  unfold State.bodyEnd
  dsimp only
  split
  · exact h
  · have h2 := fun x => (h.endDequeued c (x : Body).taskid (match err with | some _ => 2 | none => 0) (err.bind fun e => e.2))
    split
    · exact (h2 _).putCore _
    · split
      · exact MemWf.finishLaunch _ ((h2 _).putCore _)
      · exact (h2 _).putCore _

theorem MemWf.returnToBody {s : State} (c status : Nat) (h : MemWf s) : MemWf (s.returnToBody c status) := by
  unfold State.returnToBody
  dsimp only
  split <;> exact h.putCore _

theorem MemWf.sendCredit {s : State} (a : Nat) (va : W64) (count : Nat) (err : Bool) (core ctx : Nat) (task : W32) (word : W64) (e : Nat)
    (h : MemWf s) : MemWf (s.sendCredit a va count err core ctx task word e) := h

theorem MemWf.flushStreams {s : State} (g : Nat) (fs : List Nat) (h : MemWf s) : MemWf (s.flushStreams g fs) := by
  unfold State.flushStreams
  dsimp only
  split <;> exact h

theorem MemWf.creditVa {s : State} (c : Nat) (va : W64) (count : Nat) (err : Bool) (word : W64) (e : Nat) (h : MemWf s) :
    MemWf (s.creditVa c va count err word e) := by
  unfold State.creditVa
  dsimp only
  split
  · exact h.charge _ _
  · split
    · exact h.sendCredit _ _ _ _ _ _ _ _ _
    · exact h.charge _ _

theorem MemWf.cutProgram {s : State} (p : ProgRun) (e : Nat) (h : MemWf s) : MemWf (s.cutProgram p e) := by
  unfold State.cutProgram
  dsimp only
  split
  · exact (h.flushStreams _ _).creditVa _ _ _ _ _ _
  · exact h.flushStreams _ _

theorem MemWf.tileStatus {s : State} (r : TileRec) (v : Nat) (h : MemWf s) : MemWf (s.tileStatus r v) := by
  unfold State.tileStatus
  split
  · exact h
  · split
    · exact h
    · split
      · exact h
      · exact h.homeWrite _ _

theorem MemWf.cutArray {s : State} (g k c : Nat) (h : MemWf s) : MemWf (s.cutArray g k c) := by
  have h3 := fun fs r v x => (MemWf.tileStatus r v (h.flushStreams g fs)).putCluster g x
  unfold State.cutArray
  dsimp only
  split
  · split
    · exact h
    · split
      · exact h3 _ _ _ _
      · exact (h3 _ _ _ _).creditVa _ _ _ _ _ _
  · exact h

theorem MemWf.skipXred {s : State} (c : Nat) (h : MemWf s) : MemWf (s.skipXred c) := h

/-! ### Chiplets -/

@[simp] theorem Chip.settle_bytes (c : Chip) (f : Nat) : (c.settle f).bytes = c.bytes := by
  unfold Chip.settle
  split
  · split <;> rfl
  · rfl

@[simp] theorem Chip.rehold_bytes (c : Chip) (f : Nat) (g : KvFrame → KvFrame) : (c.rehold f g).bytes = c.bytes := by
  unfold Chip.rehold
  split
  · simp
  · rfl

theorem Chip.foldl_bytes {α : Type} {f : Chip → α → Chip} (hf : ∀ t x, (f t x).bytes = t.bytes) (l : List α) (c : Chip) :
    (l.foldl f c).bytes = c.bytes := by
  induction l generalizing c with
  | nil => rfl
  | cons x t ih => rw [List.foldl_cons, ih, hf]

@[simp] theorem Chip.release_bytes (c : Chip) (ctx k : Nat) : (c.release ctx k).2.bytes = c.bytes := by
  unfold Chip.release
  dsimp only
  split
  · rfl
  · split
    · dsimp only
      split
      · rw [Chip.rehold_bytes]; rfl
      · rfl
    · rfl

theorem Chip.freeSeq_bytes {c v : Chip} {ctx d e : Nat} (h : c.freeSeq ctx d e = .ok v) : v.bytes = c.bytes := by
  unfold Chip.freeSeq at h
  split at h
  · cases h
  · split at h
    · cases h
    · dsimp only at h
      split at h
      · cases h
      · cases h
      · injection h with h
        rw [← h, Chip.foldl_bytes (f := fun t k => t.putEntry k 0) (fun t k => rfl),
          Chip.foldl_bytes (f := fun t k => (t.release ctx k).2) (fun t k => Chip.release_bytes t ctx k)]

@[simp] theorem Chip.reap_bytes (c : Chip) (d : Nat) : (c.reap d).bytes = c.bytes := by
  unfold Chip.reap
  refine Chip.foldl_bytes (fun t x => ?_) _ _
  split
  · rfl
  · dsimp only
    split
    · rename_i e
      rw [Chip.freeSeq_bytes e]
    · rfl

@[simp] theorem Chip.dropCmds_bytes (c : Chip) (d : Nat) (p : AttnCmd → Bool) : (c.dropCmds d p).bytes = c.bytes := by
  unfold Chip.dropCmds
  dsimp only
  split
  · rfl
  · rw [Chip.reap_bytes, Chip.foldl_bytes Chip.settle_bytes]

theorem MemWf.cutAttn {s : State} (c : Nat) (h : MemWf s) : MemWf (s.cutAttn c) := by
  have stop : ∀ (t : State) (k : Nat), MemWf t → MemWf
      (((t.chip k).cmds.filter fun m => m.core == c).foldl (fun u m => if m.bar = 0 then u else u.creditVa c m.bar 0 true m.word 4)
        (t.putChip k ((t.chip k).dropCmds k fun m => m.core == c))) := fun t k ht =>
    (ht.putChip k (by rw [Chip.dropCmds_bytes]; exact ht.chip k)).foldl (fun u m hu => by
      split
      · exact hu
      · exact hu.creditVa _ _ _ _ _ _) _
  exact stop _ 1 (stop _ 0 h)

/-! ### The end of a task -/

theorem MemWf.withdrawCommit {s : State} (c : Nat) (h : MemWf s) : MemWf (s.withdrawCommit c) := by
  unfold State.withdrawCommit
  dsimp only
  split
  · refine h.foldl (fun t l ht => ?_) _
    split
    · exact ht
    · exact MemWf.serveWaiting _ (ht.putDir _)
  · exact h

theorem MemWf.discardTask {s : State} (c : Nat) (h : MemWf s) : MemWf (s.discardTask c) := by
  unfold State.discardTask
  dsimp only
  refine MemWf.cutAttn _ (MemWf.skipXred _ ?_)
  suffices hc : ∀ t : State, MemWf t → ∀ us, MemWf { ((t.cutArray (clusterOf c) 0 c).cutArray (clusterOf c) 1 c) with units := us } by
    refine hc _ ?_ _
    have h2 := fun x => ((h.withdrawCommit c).releaseSnaps c).putCore x
    have h3 : ∀ x, MemWf (if (((((s.withdrawCommit c).releaseSnaps c).putCore x).cluster (clusterOf c)).monitors.any fun m => m.core == c)
        || (((((s.withdrawCommit c).releaseSnaps c).putCore x).cluster (clusterOf c)).records.any fun r => r.core == c) then
        (((s.withdrawCommit c).releaseSnaps c).putCore x).putCluster (clusterOf c)
          { (((s.withdrawCommit c).releaseSnaps c).putCore x).cluster (clusterOf c) with
            monitors := ((((s.withdrawCommit c).releaseSnaps c).putCore x).cluster (clusterOf c)).monitors.filter fun m => m.core ≠ c
            records := ((((s.withdrawCommit c).releaseSnaps c).putCore x).cluster (clusterOf c)).records.filter fun r => r.core ≠ c }
        else ((s.withdrawCommit c).releaseSnaps c).putCore x) := fun x => by
      split
      · exact (h2 x).putCluster _ _
      · exact h2 x
    split <;> split
    · exact MemWf.cutProgram _ _ (MemWf.cutProgram _ _ (h3 _))
    · exact MemWf.cutProgram _ _ (h3 _)
    · exact MemWf.cutProgram _ _ (h3 _)
    · exact h3 _
  intro t ht us
  exact ((ht.cutArray (clusterOf c) 0 c).cutArray (clusterOf c) 1 c).of_eq rfl rfl rfl

theorem MemWf.abortTask {s : State} (c : Nat) (rep : Option FaultReport) (h : MemWf s) : MemWf (s.abortTask c rep) := by
  unfold State.abortTask
  dsimp only
  have h2 := fun x => (h.discardTask c).putCore x
  split
  · split
    · exact MemWf.returnToBody _ _ (MemWf.endTask _ _ (MemWf.endDequeued _ _ _ _ (h2 _)))
    · exact MemWf.returnToBody _ _ (MemWf.endDequeued _ _ _ _ (h2 _))
  · exact MemWf.bodyEnd _ _ (h2 _)

/-! ### Traps -/

theorem MemWf.abortFrom {s : State} (r : FaultReport) (h : MemWf s) : MemWf (s.abortFrom r) := by
  have h1 := h.journal 1 s.core.context 0 (s.errorBody s.core) (some r)
  unfold State.abortFrom
  exact h1.upd _

theorem MemWf.haltLevel {s : State} (h : MemWf s) : MemWf s.haltLevel := h.abortFrom _

theorem MemWf.crash {s : State} (cause : Cause) (eval epc : W64) (h : MemWf s) : MemWf (s.crash cause eval epc) := by
  unfold State.crash
  dsimp only
  generalize leBytes 128 _ = bs
  refine MemWf.abortFrom _ ?_
  split
  · exact h
  · split
    · exact h
    · exact h.homeWrite _ _

theorem MemWf.trap {s : State} (cause : Cause) (eval epc : W64) (kept : Bool) (h : MemWf s) : MemWf (s.trap cause eval epc kept) := by
  rcases s.trap_cases cause eval epc kept with ⟨_, e⟩ | ⟨_, e⟩ | ⟨_, _, e⟩ | ⟨_, _, e⟩ <;> rw [e]
  · exact h
  · exact h.crash _ _ _
  · exact (h.upd _).haltLevel
  · exact h.upd _

theorem Kept.traps {s : State} (cause : Cause) (eval epc : W64) (kept : Bool) (h : MemWf s) : Kept (s.traps cause eval epc kept) := by
  rcases s.traps_cases cause eval epc kept with ⟨_, e⟩ | e <;> rw [e]
  · exact Kept.next h
  · exact Kept.next (h.trap _ _ _ _)

theorem Kept.precise {s : State} (cause : Cause) (eval : W64) (h : MemWf s) : Kept (s.precise cause eval) := Kept.traps _ _ _ _ h

/-! ### Addresses, boundaries, questions -/

theorem MemWf.share {s t : State} (d : Nat) (rs : List Nat) (h : MemWf s) (e : s.share d rs = some t) : MemWf t := by
  induction rs generalizing s with
  | nil => cases e; exact h
  | cons r rs ih =>
    unfold State.share at e
    dsimp only at e
    split at e
    · cases e
    · exact ih (h.putRegion _) e

theorem MemWf.walkLost {s : State} (c ctx : Nat) (va : W64) (h : MemWf s) : MemWf (s.walkLost c ctx va) := by
  unfold State.walkLost
  dsimp only
  split
  · exact h
  · split
    · exact h.chargeOnce _ _
    · exact h

theorem MemWf.cacheWalk {s : State} (c ctx : Nat) (va : W64) (h : MemWf s) : MemWf (s.cacheWalk c ctx va) := by
  have h2 : ∀ (u : State) (b : Bool) (l), MemWf u → MemWf (if b then u else { u with l2tlb := l }) := fun u b l hu => by
    split <;> exact hu
  unfold State.cacheWalk
  dsimp only
  split
  · exact h
  · split
    · split
      · exact h
      · rename_i e
        exact h2 _ _ _ ((h.share _ _ e).putCluster _ _)
    · exact h

theorem MemWf.pinPage {s : State} (c ctx : Nat) (va : W64) (h : MemWf s) : MemWf (s.pinPage c ctx va) := by
  unfold State.pinPage
  dsimp only
  split
  · exact h
  · split
    · exact h
    · split
      · exact h
      · split
        · exact h
        · exact h
        · exact (h.unpin _ _).putCluster _ _
        · exact h

theorem MemWf.pin {s : State} (c ctx : Nat) (va : W64) (h : MemWf s) : MemWf (s.pin c ctx va) :=
  ((h.walkLost _ _ _).cacheWalk _ _ _).pinPage _ _ _

theorem MemWf.pinSpan {s : State} (c ctx : Nat) (va : W64) (n : Nat) (h : MemWf s) : MemWf (s.pinSpan c ctx va n) :=
  h.foldl (fun _ _ ht => ht.pin _ _ _) _

/-- A checked address keeps the form when its continuation does. -/
theorem Kept.addressed {s : State} {va : W64} {w : Nat} {need : Need} {sc : Option Scope} {record : Bool} {k : State → Nat → Out}
    (h : MemWf s) (hk : ∀ t a, MemWf t → Kept (k t a)) : Kept (s.addressed va w need sc record k) := by
  rcases s.addressed_cases va w need sc record k with ⟨_, _, t, _, e, ht⟩ | ⟨a, _, e⟩ <;> rw [e]
  · rcases ht with rfl | rfl
    · exact Kept.precise _ _ h
    · exact Kept.precise _ _ (h.walkLost _ _ _)
  · exact hk _ a (h.pin _ _ _)

theorem boundary_wait_memWf {s t : State} {w : Option Scope} {v i : Bool} (h : MemWf s) (e : s.boundary w v i = .wait t) : MemWf t := by
  rcases s.boundary_cases w v i with c | ⟨_, _, c⟩ | ⟨_, _, c⟩ | ⟨_, _, _, _, _, c⟩ <;> rw [c] at e <;> cases e
  · exact h
  · exact h

theorem boundary_done_memWf {s t : State} {w : Option Scope} {v i : Bool} {n : Nat} (h : MemWf s) (e : s.boundary w v i = .done n t) : MemWf t := by
  rcases s.boundary_cases w v i with c | ⟨_, _, c⟩ | ⟨_, _, c⟩ | ⟨_, _, _, _, _, c⟩ <;> rw [c] at e <;> cases e
  · exact h.releaseSnaps _
  · exact (h.upd _).releaseSnaps _

theorem Kept.withImplicit {s : State} {k : State → Out} (h : MemWf s) (hk : Kept (k s)) : Kept (s.withImplicit k) := by
  rcases s.withImplicit_cases k with e | ⟨t, b, e⟩ | ⟨n, t, b, e⟩ <;> rw [e]
  · exact hk
  · exact Kept.next (boundary_wait_memWf h b)
  · exact Kept.next ((boundary_done_memWf h b).upd _)

theorem MemWf.newPhase {s : State} (h : MemWf s) : MemWf s.newPhase := h.releaseSnaps _

theorem Kept.atBoundary {s : State} {sc : Option Scope} {k : State → Out} (h : MemWf s) (hk : ∀ t, MemWf t → Kept (k t)) :
    Kept (s.atBoundary sc k) := by
  rcases s.atBoundary_cases sc k with ⟨t, b, e⟩ | ⟨n, t, b, e⟩ <;> rw [e]
  · exact Kept.next (boundary_wait_memWf h b)
  · exact hk t (boundary_done_memWf h b)

theorem Kept.fenced {s : State} {sc : Scope} {k : State → Out} (h : MemWf s) (hk : ∀ t, MemWf t → Kept (k t)) : Kept (s.fenced sc k) := by
  unfold State.fenced
  split
  · rcases s.fenceWait_cases sc with e | e | ⟨_, _, e⟩ | ⟨_, _, _, e⟩ <;> rw [e] <;> exact Kept.next h
  · split
    · exact Kept.atBoundary h fun t ht => hk _ (ht.upd _)
    · exact hk _ h

theorem Kept.store {s : State} {a : Nat} {bs : List Byte} {k : State → Out} (h : MemWf s) (hk : ∀ t, MemWf t → Kept (k t)) :
    Kept (s.store a bs k) := by
  rcases s.store_cases a bs k with e | ⟨_, e⟩ | ⟨v, _, _, e⟩ <;> rw [e]
  · exact Kept.next h
  · exact Kept.next (h.upd _)
  · exact hk _ (h.upd _)

theorem MemWf.lostAnswer {s : State} (op : RemoteOp) (v : W64) (h : MemWf s) : MemWf (s.lostAnswer op v).1 := by
  have h1 := h.charge s.core.id (simpleReport .lostline v s.wordAddr s.core.taskid 5 s.core.id)
  unfold State.lostAnswer
  generalize s.charge s.core.id (simpleReport .lostline v s.wordAddr s.core.taskid 5 s.core.id) = t at h1 ⊢
  exact h1

theorem Kept.ask {s : State} {who : Agent} {addr : W64} {op : RemoteOp} {k : State → FabricReply → Out} (h : MemWf s)
    (hk : ∀ t a, MemWf t → Kept (k t a)) : Kept (s.ask who addr op k) := by
  rcases s.ask_cases who addr op k with ⟨_, t, e, _⟩ | ⟨_, e⟩ | ⟨r, a, _, _, _, _, e | ⟨v, _, e⟩⟩
  · unfold State.ask at e ⊢
    split
    · exact Kept.next h
    · simp_all
  · rw [e]; exact Kept.next h
  · rw [e]; exact hk _ _ (h.upd _)
  · dsimp only at e; rw [e]; exact hk _ _ (MemWf.lostAnswer _ _ (h.upd _))

/-- An instruction whose checks come first keeps the form when what follows them does. -/
theorem Kept.staged {s : State} {va : W64} {w : Nat} {need : Need} {sc : Scope} {k : State → Nat → Out} (h : MemWf s)
    (hk : ∀ a, Kept (k s a)) : Kept (s.staged va w need sc k) := by
  have first : Kept (s.withImplicit fun t => t.addressed va w need (some sc) true fun u pa =>
      let checked := fun (x : State) => Host.Outcome.next (x.upd { x.core with micro := 4, target := some pa })
      if pa < remoteBase then checked u
      else u.ask .seq va (.check (need == .write) w (some sc) true) fun x r => match r with
        | .refused c _ => x.precise (causeOf c) va
        | .data _ | .status _ | .done | .ack _ | .creditFault _ _ _ _ _ => checked x) := by
    refine Kept.withImplicit h (Kept.addressed h fun u pa hu => ?_)
    dsimp only
    split
    · exact Kept.next (hu.upd _)
    · refine Kept.ask hu fun x r hx => ?_
      split
      · exact Kept.precise _ _ hx
      all_goals exact Kept.next (hx.upd _)
  unfold State.staged
  split
  · exact first
  · exact first
  · exact hk _

/-! ### The strand's view -/

theorem MemWf.fillL1 {s : State} (q l : Nat) (bs : List Byte) (h : MemWf s) : MemWf (s.fillL1 q l bs) :=
  ((h.dropL1 _ _).makeWay _ _).putCluster _ _

theorem MemWf.lease {s : State} (q l : Nat) (bs : List Byte) (h : MemWf s) : MemWf (s.lease q l bs) := by
  have h1 := h.fillL1 q l bs
  unfold State.lease
  exact h1

theorem MemWf.refill {s : State} (l : Nat) (h : MemWf s) : MemWf (s.refill l) := by
  unfold State.refill
  dsimp only
  split
  · exact h
  · split
    · exact h.fillL1 _ _ _
    · exact h

theorem MemWf.noteLost {s : State} (l : Nat) (h : MemWf s) : MemWf (s.noteLost l) := by
  unfold State.noteLost
  split
  · exact h.chargeOnce _ _
  · exact h

theorem MemWf.touchLine {s : State} (l : Nat) (h : MemWf s) : MemWf (s.touchLine l) := by
  unfold State.touchLine
  dsimp only
  split
  · exact h
  · split
    · exact ((h.refill l).noteLost l).takeSnap _ _ _
    · split
      · exact h.refill l
      · exact (((h.refill l).noteLost l).upd _).needLine _ _

theorem MemWf.look {s : State} (a n : Nat) (h : MemWf s) : MemWf (s.look a n) := h.foldl (fun _ l ht => ht.touchLine l) _

/-- A read through the strand's view keeps the form when what follows it does. -/
theorem Kept.readAs {s : State} {who : Agent} {a n : Nat} {k : State → List Byte → Out} {refuse : State → Cause → W64 → Out} (h : MemWf s)
    (hk : ∀ t bs, MemWf t → Kept (k t bs)) (hr : ∀ t c v, MemWf t → Kept (refuse t c v)) : Kept (s.readAs who a n k refuse) := by
  unfold State.readAs
  dsimp only
  split
  · exact hk _ _ (h.look a n)
  · split
    · exact Kept.next (h.look a n)
    · refine Kept.ask (h.look a n) fun t r ht => ?_
      split
      · exact Kept.next ((ht.lease _ _ _).takeSnap _ _ _)
      · exact hr _ _ _ ht
      all_goals exact Kept.next ht

/-! ### Step and vector words -/

theorem MemWf.putRun {s : State} (p : ProgRun) (h : MemWf s) : MemWf (s.putRun p) := by
  unfold State.putRun; split <;> exact h

theorem MemWf.putProg {s : State} (p : ProgRun) (h : MemWf s) : MemWf (s.putProg p) := h.putRun _

theorem MemWf.dropProg {s : State} (p : ProgRun) (h : MemWf s) : MemWf (s.dropProg p) := by
  unfold State.dropProg; split <;> exact h

theorem Kept.progFail {s : State} (p : ProgRun) (r : FaultReport) (h : MemWf s) : Kept (s.progFail p r) := by
  have h3 := fun fs x v => ((h.flushStreams (clusterOf s.core.id) fs).tileStatus x v).dropProg p
  have arr : ∀ (o : Option TileRec), Kept (match o with
      | none => .next (((s.flushStreams (clusterOf s.core.id) p.streams).dropProg p).charge s.core.id r)
      | some rec_ =>
        if !s.statusFree rec_ then .next (s.putRun { p with fault := some r, failing := true, idle := true })
        else .next ((if rec_.donebar = 0 then
            ((s.flushStreams (clusterOf s.core.id) (s.namedStreams p (some rec_.arg))).tileStatus rec_
              ((r.waddr - p.start).toNat / 4 % 2 ^ 16 * 2 ^ 48 + r.code * 2 ^ 40 + s.array.bits + 2)).dropProg p
          else (((s.flushStreams (clusterOf s.core.id) (s.namedStreams p (some rec_.arg))).tileStatus rec_
              ((r.waddr - p.start).toNat / 4 % 2 ^ 16 * 2 ^ 48 + r.code * 2 ^ 40 + s.array.bits + 2)).dropProg p).creditVa s.core.id rec_.donebar 0 true
              r.waddr 3).charge s.core.id r)) := fun o => by
    split
    · exact Kept.next (MemWf.charge _ _ ((h.flushStreams _ _).dropProg _))
    · split
      · exact Kept.next (h.putRun _)
      · split
        · exact Kept.next ((h3 _ _ _).charge _ _)
        · exact Kept.next (((h3 _ _ _).creditVa _ _ _ _ _ _).charge _ _)
  unfold State.progFail
  split
  · exact arr _
  · exact arr _
  all_goals exact Kept.next (MemWf.charge _ _ ((h.dropProg _).cutProgram _ _))

theorem Kept.progFault {s : State} (p : ProgRun) (cause : Cause) (f : W64) (h : MemWf s) : Kept (s.progFault p cause f) :=
  Kept.progFail _ _ h

theorem Kept.hold {s : State} (p : ProgRun) (h : MemWf s) : Kept (s.hold p) := by
  rcases s.hold_cases p with ⟨r, _, e⟩ | ⟨_, e⟩ <;> rw [e]
  · exact Kept.progFail _ _ h
  · exact Kept.next (h.putRun _)

theorem Kept.tokFree {s : State} {p : ProgRun} {tok : Tok} {k : State → ProgRun → Out} (h : MemWf s)
    (hk : ∀ t q, MemWf t → Kept (k t q)) : Kept (s.tokFree p tok k) := by
  rcases s.tokFree_cases p tok k with e | e | ⟨_, _, _, _, _, _, e⟩ <;> rw [e]
  · exact Kept.hold _ h
  · exact hk _ _ h
  · exact hk _ _ (h.upd _)

theorem Kept.tokWait {s : State} {p : ProgRun} {tok : Tok} {k : State → ProgRun → Out} (h : MemWf s)
    (hk : ∀ t q, MemWf t → Kept (k t q)) : Kept (s.tokWait p tok k) := by
  rcases s.tokWait_cases p tok k with e | e | e | ⟨_, _, _, _, _, _, _, e⟩ <;> rw [e]
  · exact Kept.hold _ h
  · exact Kept.tokFree h hk
  · exact Kept.tokFree h hk
  · exact Kept.tokFree (h.upd _) hk

theorem Kept.sendFree {s : State} {p : ProgRun} {tok : Tok} {fin : State → ProgRun → Out} (h : MemWf s)
    (hk : ∀ t q, MemWf t → Kept (fin t q)) : Kept (s.sendFree p tok fin) := by
  rcases s.sendFree_cases p tok fin with e | e | ⟨_, _, _, _, _, _, e⟩ <;> rw [e]
  · exact Kept.next (h.putRun _)
  · exact hk _ _ h
  · exact hk _ _ (h.upd _)

theorem Kept.tokSend {s : State} {p : ProgRun} {tok : Tok} {fin : State → ProgRun → Out} (h : MemWf s)
    (hk : ∀ t q, MemWf t → Kept (fin t q)) : Kept (s.tokSend p tok fin) := by
  rcases s.tokSend_cases p tok fin with e | e | ⟨_, _, _, _, _, _, e⟩ <;> rw [e]
  · exact Kept.next (h.putRun _)
  · exact Kept.sendFree h hk
  · exact Kept.sendFree (h.upd _) hk

/-- A step word keeps the form when its work and what follows it do. -/
theorem Kept.stepWord {s : State} {tok : Tok} {work fin : State → ProgRun → Out} (h : MemWf s)
    (hw : ∀ t q, MemWf t → Kept (work t q)) (hf : ∀ t q, MemWf t → Kept (fin t q)) : Kept (s.stepWord tok work fin) := by
  rcases s.stepWord_cases tok work fin with e | ⟨p, _, _, ⟨r, _, e⟩ | e | ⟨_, e⟩ | ⟨_, e⟩ | ⟨_, e⟩⟩ <;> rw [e]
  · exact Kept.next h
  · exact Kept.progFail _ _ h
  · exact Kept.progFault _ _ _ h
  · exact Kept.tokWait h fun t q ht => hw _ _ (ht.putProg _)
  · exact hw _ _ h
  · exact Kept.tokSend h hf

theorem Kept.vfault {s : State} (cause : Cause) (f : W64) (h : MemWf s) : Kept (s.vfault cause f) := by
  unfold State.vfault
  split
  · exact Kept.next h
  · exact Kept.next ((h.upd _).charge _ _)

/-- A vector word keeps the form when its work does. -/
theorem Kept.vword {s : State} {k : VecRun → Out} (h : MemWf s) (hk : ∀ v, Kept (k v)) : Kept (s.vword k) := by
  rcases s.vword_cases k with ⟨_, e⟩ | ⟨_, _, _, e⟩ | ⟨v, _, _, e⟩ <;> rw [e]
  · exact Kept.next h
  · exact Kept.vfault _ _ h
  · exact hk v

end Sys2Proof.Machine
end

