-- ==== Sys2Proof/Laws/PerInstr.lean ====
section
/-! SUPPORT. Laws/PerInstr.lean: the statements made per instruction, one lemma for each constructor: EncodesInAWord says that no operand
of an instruction reaches past bit 31 of its word (R31). -/

namespace Sys2Proof.Laws

/-! ### Codes of operands are below their field's size -/

theorem scope_code_lt (q : Scope) : q.code < 8 := by cases q <;> decide
theorem updTag_code_lt (x : UpdTag) : x.code < 16 := by cases x <;> decide
theorem order_code_lt (x : Order) : x.code < 4 := by cases x <;> decide
theorem rmode_code_lt (x : RMode) : x.code < 8 := by cases x <;> decide
theorem rnd_code_lt (x : Rnd) : x.code < 8 := by
  cases x with
  | mode m => exact rmode_code_lt m
  | dyn => decide
theorem fty_code_lt (x : FTy) : x.code < 4 := by cases x <;> decide
theorem ty_code_lt (x : Ty) : x.code < 16 := by cases x <;> decide
theorem pred_code_lt (x : Pred) : x.code < 8 := by cases x <;> decide
theorem ew_code_lt (x : EW) : x.code < 4 := by cases x <;> decide
theorem xloc_code_lt (x : XLoc) : x.code < 64 := by
  cases x <;> simp only [XLoc.code] <;> omega
theorem bool_toNat_lt (x : Bool) : x.toNat < 2 := by cases x <;> decide
theorem tok_code_lt (x : Tok) : x.code < 16 := by
  have h1 := bool_toNat_lt x.prdy
  have h2 := bool_toNat_lt x.srdy
  have h3 := bool_toNat_lt x.pfree
  have h4 := bool_toNat_lt x.sfree
  simp only [Tok.code]
  omega

namespace EncodesInAWord

set_option Elab.async false

/-- The word of the instruction has 32 bits. -/
def Statement (i : Instr) : Prop := encode i < 2 ^ 32

theorem nop : Statement .nop := (by decide : (0x00000000 : Nat) < 2 ^ 32)
theorem yield : Statement .yield := (by decide : (0x00000001 : Nat) < 2 ^ 32)
theorem pause (n : BitVec 10) : Statement (.pause n) := by
  show 0x00000002 + n.toNat * 64 < 4294967296
  omega
theorem halt : Statement .halt := (by decide : (0x00000003 : Nat) < 2 ^ 32)
theorem trap (k : BitVec 10) : Statement (.trap k) := by
  show 0x00000004 + k.toNat * 64 < 4294967296
  omega
theorem tret : Statement .tret := (by decide : (0x00000005 : Nat) < 2 ^ 32)
theorem bkpt (k : BitVec 10) : Statement (.bkpt k) := by
  show 0x00000006 + k.toNat * 64 < 4294967296
  omega
theorem iflush : Statement .iflush := (by decide : (0x00000007 : Nat) < 2 ^ 32)
theorem add (d : Reg) (a : Reg) (b : Reg) : Statement (.add d a b) := by
  show 0x04000000 + d.val * 2097152 + a.val * 65536 + b.val * 2048 < 4294967296
  omega
theorem sub (d : Reg) (a : Reg) (b : Reg) : Statement (.sub d a b) := by
  show 0x04000020 + d.val * 2097152 + a.val * 65536 + b.val * 2048 < 4294967296
  omega
theorem mul (d : Reg) (a : Reg) (b : Reg) : Statement (.mul d a b) := by
  show 0x04000040 + d.val * 2097152 + a.val * 65536 + b.val * 2048 < 4294967296
  omega
theorem mulh (d : Reg) (a : Reg) (b : Reg) : Statement (.mulh d a b) := by
  show 0x04000060 + d.val * 2097152 + a.val * 65536 + b.val * 2048 < 4294967296
  omega
theorem div (d : Reg) (a : Reg) (b : Reg) : Statement (.div d a b) := by
  show 0x04000080 + d.val * 2097152 + a.val * 65536 + b.val * 2048 < 4294967296
  omega
theorem divn (d : Reg) (a : Reg) (b : Reg) : Statement (.divn d a b) := by
  show 0x040000A0 + d.val * 2097152 + a.val * 65536 + b.val * 2048 < 4294967296
  omega
theorem rem (d : Reg) (a : Reg) (b : Reg) : Statement (.rem d a b) := by
  show 0x040000C0 + d.val * 2097152 + a.val * 65536 + b.val * 2048 < 4294967296
  omega
theorem remn (d : Reg) (a : Reg) (b : Reg) : Statement (.remn d a b) := by
  show 0x040000E0 + d.val * 2097152 + a.val * 65536 + b.val * 2048 < 4294967296
  omega
theorem and (d : Reg) (a : Reg) (b : Reg) : Statement (.and d a b) := by
  show 0x04000100 + d.val * 2097152 + a.val * 65536 + b.val * 2048 < 4294967296
  omega
theorem or (d : Reg) (a : Reg) (b : Reg) : Statement (.or d a b) := by
  show 0x04000120 + d.val * 2097152 + a.val * 65536 + b.val * 2048 < 4294967296
  omega
theorem xor (d : Reg) (a : Reg) (b : Reg) : Statement (.xor d a b) := by
  show 0x04000140 + d.val * 2097152 + a.val * 65536 + b.val * 2048 < 4294967296
  omega
theorem andn (d : Reg) (a : Reg) (b : Reg) : Statement (.andn d a b) := by
  show 0x04000160 + d.val * 2097152 + a.val * 65536 + b.val * 2048 < 4294967296
  omega
theorem shl (d : Reg) (a : Reg) (b : Reg) : Statement (.shl d a b) := by
  show 0x04000180 + d.val * 2097152 + a.val * 65536 + b.val * 2048 < 4294967296
  omega
theorem shr (d : Reg) (a : Reg) (b : Reg) : Statement (.shr d a b) := by
  show 0x040001A0 + d.val * 2097152 + a.val * 65536 + b.val * 2048 < 4294967296
  omega
theorem sar (d : Reg) (a : Reg) (b : Reg) : Statement (.sar d a b) := by
  show 0x040001C0 + d.val * 2097152 + a.val * 65536 + b.val * 2048 < 4294967296
  omega
theorem min (d : Reg) (a : Reg) (b : Reg) : Statement (.min d a b) := by
  show 0x040001E0 + d.val * 2097152 + a.val * 65536 + b.val * 2048 < 4294967296
  omega
theorem max (d : Reg) (a : Reg) (b : Reg) : Statement (.max d a b) := by
  show 0x04000200 + d.val * 2097152 + a.val * 65536 + b.val * 2048 < 4294967296
  omega
theorem minn (d : Reg) (a : Reg) (b : Reg) : Statement (.minn d a b) := by
  show 0x04000220 + d.val * 2097152 + a.val * 65536 + b.val * 2048 < 4294967296
  omega
theorem maxn (d : Reg) (a : Reg) (b : Reg) : Statement (.maxn d a b) := by
  show 0x04000240 + d.val * 2097152 + a.val * 65536 + b.val * 2048 < 4294967296
  omega
theorem slt (d : Reg) (a : Reg) (b : Reg) : Statement (.slt d a b) := by
  show 0x04000260 + d.val * 2097152 + a.val * 65536 + b.val * 2048 < 4294967296
  omega
theorem sltn (d : Reg) (a : Reg) (b : Reg) : Statement (.sltn d a b) := by
  show 0x04000280 + d.val * 2097152 + a.val * 65536 + b.val * 2048 < 4294967296
  omega
theorem seq (d : Reg) (a : Reg) (b : Reg) : Statement (.seq d a b) := by
  show 0x040002A0 + d.val * 2097152 + a.val * 65536 + b.val * 2048 < 4294967296
  omega
theorem sel (d : Reg) (a : Reg) (b : Reg) (c : Reg) : Statement (.sel d a b c) := by
  show 0x040002C0 + d.val * 2097152 + a.val * 65536 + b.val * 2048 + c.val < 4294967296
  omega
theorem clz (d : Reg) (a : Reg) : Statement (.clz d a) := by
  show 0x040002E0 + d.val * 2097152 + a.val * 65536 < 4294967296
  omega
theorem ctz (d : Reg) (a : Reg) : Statement (.ctz d a) := by
  show 0x04000300 + d.val * 2097152 + a.val * 65536 < 4294967296
  omega
theorem popc (d : Reg) (a : Reg) : Statement (.popc d a) := by
  show 0x04000320 + d.val * 2097152 + a.val * 65536 < 4294967296
  omega
theorem ext (d : Reg) (a : Reg) (b : Reg) : Statement (.ext d a b) := by
  show 0x04000340 + d.val * 2097152 + a.val * 65536 + b.val * 2048 < 4294967296
  omega
theorem ins (d : Reg) (a : Reg) (b : Reg) : Statement (.ins d a b) := by
  show 0x04000360 + d.val * 2097152 + a.val * 65536 + b.val * 2048 < 4294967296
  omega
theorem addImm (d : Reg) (a : Reg) (i : BitVec 16) : Statement (.addImm d a i) := by
  show 0x08000000 + d.val * 2097152 + a.val * 65536 + i.toNat < 4294967296
  omega
theorem mulImm (d : Reg) (a : Reg) (i : BitVec 16) : Statement (.mulImm d a i) := by
  show 0x0C000000 + d.val * 2097152 + a.val * 65536 + i.toNat < 4294967296
  omega
theorem andImm (d : Reg) (a : Reg) (i : BitVec 16) : Statement (.andImm d a i) := by
  show 0x10000000 + d.val * 2097152 + a.val * 65536 + i.toNat < 4294967296
  omega
theorem orImm (d : Reg) (a : Reg) (i : BitVec 16) : Statement (.orImm d a i) := by
  show 0x14000000 + d.val * 2097152 + a.val * 65536 + i.toNat < 4294967296
  omega
theorem xorImm (d : Reg) (a : Reg) (i : BitVec 16) : Statement (.xorImm d a i) := by
  show 0x18000000 + d.val * 2097152 + a.val * 65536 + i.toNat < 4294967296
  omega
theorem shlImm (d : Reg) (a : Reg) (s : Fin 64) : Statement (.shlImm d a s) := by
  show 0x1C000000 + d.val * 2097152 + a.val * 65536 + s.val < 4294967296
  omega
theorem shrImm (d : Reg) (a : Reg) (s : Fin 64) : Statement (.shrImm d a s) := by
  show 0x1C000040 + d.val * 2097152 + a.val * 65536 + s.val < 4294967296
  omega
theorem sarImm (d : Reg) (a : Reg) (s : Fin 64) : Statement (.sarImm d a s) := by
  show 0x1C000080 + d.val * 2097152 + a.val * 65536 + s.val < 4294967296
  omega
theorem sltImm (d : Reg) (a : Reg) (i : BitVec 16) : Statement (.sltImm d a i) := by
  show 0x20000000 + d.val * 2097152 + a.val * 65536 + i.toNat < 4294967296
  omega
theorem sltnImm (d : Reg) (a : Reg) (i : BitVec 16) : Statement (.sltnImm d a i) := by
  show 0x24000000 + d.val * 2097152 + a.val * 65536 + i.toNat < 4294967296
  omega
theorem seqImm (d : Reg) (a : Reg) (i : BitVec 16) : Statement (.seqImm d a i) := by
  show 0x28000000 + d.val * 2097152 + a.val * 65536 + i.toNat < 4294967296
  omega
theorem minImm (d : Reg) (a : Reg) (i : BitVec 14) : Statement (.minImm d a i) := by
  show 0x2C000000 + d.val * 2097152 + a.val * 65536 + i.toNat < 4294967296
  omega
theorem maxImm (d : Reg) (a : Reg) (i : BitVec 14) : Statement (.maxImm d a i) := by
  show 0x2C004000 + d.val * 2097152 + a.val * 65536 + i.toNat < 4294967296
  omega
theorem minnImm (d : Reg) (a : Reg) (i : BitVec 14) : Statement (.minnImm d a i) := by
  show 0x2C008000 + d.val * 2097152 + a.val * 65536 + i.toNat < 4294967296
  omega
theorem maxnImm (d : Reg) (a : Reg) (i : BitVec 14) : Statement (.maxnImm d a i) := by
  show 0x2C00C000 + d.val * 2097152 + a.val * 65536 + i.toNat < 4294967296
  omega
theorem extImm (d : Reg) (a : Reg) (g : Bool) (p : Fin 64) (l : Fin 64) : Statement (.extImm d a g p l) := by
  have h2 := bool_toNat_lt g
  show 0x30000000 + d.val * 2097152 + a.val * 65536 + g.toNat * 4096 + p.val * 64 + l.val < 4294967296
  omega
theorem insImm (d : Reg) (a : Reg) (p : Fin 64) (l : Fin 64) : Statement (.insImm d a p l) := by
  show 0x34000000 + d.val * 2097152 + a.val * 65536 + p.val * 64 + l.val < 4294967296
  omega
theorem lim (d : Reg) (k : Bool) (n : Fin 4) (i : BitVec 16) : Statement (.lim d k n i) := by
  have h1 := bool_toNat_lt k
  show 0x38000000 + d.val * 2097152 + k.toNat * 262144 + n.val * 65536 + i.toNat < 4294967296
  omega
theorem fadd (d : Reg) (a : Reg) (b : Reg) (r : Rnd) (t : FTy) : Statement (.fadd d a b r t) := by
  have h3 := rnd_code_lt r
  have h4 := fty_code_lt t
  show 0x40000000 + d.val * 2097152 + a.val * 65536 + b.val * 2048 + r.code * 16 + t.code * 4 < 4294967296
  omega
theorem fsub (d : Reg) (a : Reg) (b : Reg) (r : Rnd) (t : FTy) : Statement (.fsub d a b r t) := by
  have h3 := rnd_code_lt r
  have h4 := fty_code_lt t
  show 0x40000080 + d.val * 2097152 + a.val * 65536 + b.val * 2048 + r.code * 16 + t.code * 4 < 4294967296
  omega
theorem fmul (d : Reg) (a : Reg) (b : Reg) (r : Rnd) (t : FTy) : Statement (.fmul d a b r t) := by
  have h3 := rnd_code_lt r
  have h4 := fty_code_lt t
  show 0x40000100 + d.val * 2097152 + a.val * 65536 + b.val * 2048 + r.code * 16 + t.code * 4 < 4294967296
  omega
theorem fdiv (d : Reg) (a : Reg) (b : Reg) (r : Rnd) (t : FTy) : Statement (.fdiv d a b r t) := by
  have h3 := rnd_code_lt r
  have h4 := fty_code_lt t
  show 0x40000180 + d.val * 2097152 + a.val * 65536 + b.val * 2048 + r.code * 16 + t.code * 4 < 4294967296
  omega
theorem fsqrt (d : Reg) (a : Reg) (r : Rnd) (t : FTy) : Statement (.fsqrt d a r t) := by
  have h2 := rnd_code_lt r
  have h3 := fty_code_lt t
  show 0x40000200 + d.val * 2097152 + a.val * 65536 + r.code * 16 + t.code * 4 < 4294967296
  omega
theorem ffma (d : Reg) (a : Reg) (b : Reg) (r : Rnd) (t : FTy) : Statement (.ffma d a b r t) := by
  have h3 := rnd_code_lt r
  have h4 := fty_code_lt t
  show 0x40000280 + d.val * 2097152 + a.val * 65536 + b.val * 2048 + r.code * 16 + t.code * 4 < 4294967296
  omega
theorem fmin (d : Reg) (a : Reg) (b : Reg) (t : FTy) : Statement (.fmin d a b t) := by
  have h3 := fty_code_lt t
  show 0x40000300 + d.val * 2097152 + a.val * 65536 + b.val * 2048 + t.code * 4 < 4294967296
  omega
theorem fmax (d : Reg) (a : Reg) (b : Reg) (t : FTy) : Statement (.fmax d a b t) := by
  have h3 := fty_code_lt t
  show 0x40000380 + d.val * 2097152 + a.val * 65536 + b.val * 2048 + t.code * 4 < 4294967296
  omega
theorem fcmp (d : Reg) (a : Reg) (b : Reg) (p : Pred) (t : FTy) : Statement (.fcmp d a b p t) := by
  have h3 := pred_code_lt p
  have h4 := fty_code_lt t
  show 0x40000400 + d.val * 2097152 + a.val * 65536 + b.val * 2048 + p.code * 16 + t.code * 4 < 4294967296
  omega
theorem fcvt (d : Reg) (a : Reg) (s : Ty) (r : Rnd) (t : Ty) : Statement (.fcvt d a s r t) := by
  have h2 := ty_code_lt s
  have h3 := rnd_code_lt r
  have h4 := ty_code_lt t
  show 0x40000480 + d.val * 2097152 + a.val * 65536 + s.code * 2048 + r.code * 16 + t.code < 4294967296
  omega
theorem fkey (d : Reg) (a : Reg) : Statement (.fkey d a) := by
  show 0x40000500 + d.val * 2097152 + a.val * 65536 < 4294967296
  omega
theorem beq (a : Reg) (b : Reg) (o : BitVec 16) : Statement (.beq a b o) := by
  show 0x44000000 + a.val * 2097152 + b.val * 65536 + o.toNat < 4294967296
  omega
theorem bne (a : Reg) (b : Reg) (o : BitVec 16) : Statement (.bne a b o) := by
  show 0x48000000 + a.val * 2097152 + b.val * 65536 + o.toNat < 4294967296
  omega
theorem blt (a : Reg) (b : Reg) (o : BitVec 16) : Statement (.blt a b o) := by
  show 0x4C000000 + a.val * 2097152 + b.val * 65536 + o.toNat < 4294967296
  omega
theorem bge (a : Reg) (b : Reg) (o : BitVec 16) : Statement (.bge a b o) := by
  show 0x50000000 + a.val * 2097152 + b.val * 65536 + o.toNat < 4294967296
  omega
theorem bltn (a : Reg) (b : Reg) (o : BitVec 16) : Statement (.bltn a b o) := by
  show 0x54000000 + a.val * 2097152 + b.val * 65536 + o.toNat < 4294967296
  omega
theorem bgen (a : Reg) (b : Reg) (o : BitVec 16) : Statement (.bgen a b o) := by
  show 0x58000000 + a.val * 2097152 + b.val * 65536 + o.toNat < 4294967296
  omega
theorem j (o : BitVec 26) : Statement (.j o) := by
  show 0x60000000 + o.toNat < 4294967296
  omega
theorem jl (o : BitVec 26) : Statement (.jl o) := by
  show 0x64000000 + o.toNat < 4294967296
  omega
theorem jr (a : Reg) : Statement (.jr a) := by
  show 0x68000000 + a.val * 65536 < 4294967296
  omega
theorem jlr (d : Reg) (a : Reg) : Statement (.jlr d a) := by
  show 0x68000080 + d.val * 2097152 + a.val * 65536 < 4294967296
  omega
theorem loop (a : Reg) (e : BitVec 8) : Statement (.loop a e) := by
  show 0x6C000000 + a.val * 2097152 + e.toNat < 4294967296
  omega
theorem loopImm (c : BitVec 12) (e : BitVec 8) : Statement (.loopImm c e) := by
  show 0x6C100000 + c.toNat * 256 + e.toNat < 4294967296
  omega
theorem lbrk : Statement .lbrk := (by decide : (0x70000000 : Nat) < 2 ^ 32)
theorem lbrkSq (a : Reg) : Statement (.lbrkSq a) := by
  show 0x70000080 + a.val * 65536 < 4294967296
  omega
theorem lidx (d : Reg) (k : Fin 8) : Statement (.lidx d k) := by
  show 0x70000100 + d.val * 2097152 + k.val < 4294967296
  omega
theorem lset (n : LReg) (a : Reg) : Statement (.lset n a) := by
  show 0x70000180 + n.val * 2097152 + a.val * 65536 < 4294967296
  omega
theorem lsetAdd (n : LReg) (a : Reg) : Statement (.lsetAdd n a) := by
  show 0x700001C0 + n.val * 2097152 + a.val * 65536 < 4294967296
  omega
theorem vrun (a : Reg) (m : BitVec 16) : Statement (.vrun a m) := by
  show 0x74000000 + a.val * 65536 + m.toNat < 4294967296
  omega
theorem xrun (a : Reg) (m : BitVec 16) : Statement (.xrun a m) := by
  show 0x75000000 + a.val * 65536 + m.toNat < 4294967296
  omega
theorem mtask (a : Reg) (m : BitVec 16) : Statement (.mtask a m) := by
  show 0x76000000 + a.val * 65536 + m.toNat < 4294967296
  omega
theorem wait (l : Fin 64) (s : Fin 64) (c : Fin 64) (t : Fin 64) : Statement (.wait l s c t) := by
  show 0x78000000 + l.val * 1048576 + s.val * 16384 + c.val * 256 + t.val * 4 < 4294967296
  omega
theorem vget (d : Reg) (n : Fin 4) : Statement (.vget d n) := by
  show 0x7C000000 + d.val * 2097152 + n.val < 4294967296
  omega
theorem slack (d : Reg) (a : Reg) : Statement (.slack d a) := by
  show 0x7C000080 + d.val * 2097152 + a.val * 65536 < 4294967296
  omega
theorem bankm (d : Reg) (a : Reg) : Statement (.bankm d a) := by
  show 0x7C000100 + d.val * 2097152 + a.val * 65536 < 4294967296
  omega
theorem ldb (d : Reg) (a : Reg) (o : BitVec 15) : Statement (.ldb d a o) := by
  show 0x80000000 + d.val * 2097152 + a.val * 65536 + o.toNat * 2 < 4294967296
  omega
theorem ldbn (d : Reg) (a : Reg) (o : BitVec 15) : Statement (.ldbn d a o) := by
  show 0x80000001 + d.val * 2097152 + a.val * 65536 + o.toNat * 2 < 4294967296
  omega
theorem ldh (d : Reg) (a : Reg) (o : BitVec 15) : Statement (.ldh d a o) := by
  show 0x84000000 + d.val * 2097152 + a.val * 65536 + o.toNat * 2 < 4294967296
  omega
theorem ldhn (d : Reg) (a : Reg) (o : BitVec 15) : Statement (.ldhn d a o) := by
  show 0x84000001 + d.val * 2097152 + a.val * 65536 + o.toNat * 2 < 4294967296
  omega
theorem ldw (d : Reg) (a : Reg) (o : BitVec 15) : Statement (.ldw d a o) := by
  show 0x88000000 + d.val * 2097152 + a.val * 65536 + o.toNat * 2 < 4294967296
  omega
theorem ldwn (d : Reg) (a : Reg) (o : BitVec 15) : Statement (.ldwn d a o) := by
  show 0x88000001 + d.val * 2097152 + a.val * 65536 + o.toNat * 2 < 4294967296
  omega
theorem ldd (d : Reg) (a : Reg) (o : BitVec 15) : Statement (.ldd d a o) := by
  show 0x8C000000 + d.val * 2097152 + a.val * 65536 + o.toNat * 2 < 4294967296
  omega
theorem stb (d : Reg) (a : Reg) (o : BitVec 15) : Statement (.stb d a o) := by
  show 0x90000000 + d.val * 2097152 + a.val * 65536 + o.toNat * 2 < 4294967296
  omega
theorem sth (d : Reg) (a : Reg) (o : BitVec 15) : Statement (.sth d a o) := by
  show 0x94000000 + d.val * 2097152 + a.val * 65536 + o.toNat * 2 < 4294967296
  omega
theorem stw (d : Reg) (a : Reg) (o : BitVec 15) : Statement (.stw d a o) := by
  show 0x98000000 + d.val * 2097152 + a.val * 65536 + o.toNat * 2 < 4294967296
  omega
theorem std (d : Reg) (a : Reg) (o : BitVec 15) : Statement (.std d a o) := by
  show 0x9C000000 + d.val * 2097152 + a.val * 65536 + o.toNat * 2 < 4294967296
  omega
theorem amoSwap (d : Reg) (a : Reg) (b : Reg) (z : Bool) (o : Order) (s : Scope) : Statement (.amoSwap d a b z o s) := by
  have h3 := bool_toNat_lt z
  have h4 := order_code_lt o
  have h5 := scope_code_lt s
  show 0xA0000000 + d.val * 2097152 + a.val * 65536 + b.val * 2048 + z.toNat * 32 + o.code * 8 + s.code < 4294967296
  omega
theorem amoAdd (d : Reg) (a : Reg) (b : Reg) (z : Bool) (o : Order) (s : Scope) : Statement (.amoAdd d a b z o s) := by
  have h3 := bool_toNat_lt z
  have h4 := order_code_lt o
  have h5 := scope_code_lt s
  show 0xA0000080 + d.val * 2097152 + a.val * 65536 + b.val * 2048 + z.toNat * 32 + o.code * 8 + s.code < 4294967296
  omega
theorem amoAnd (d : Reg) (a : Reg) (b : Reg) (z : Bool) (o : Order) (s : Scope) : Statement (.amoAnd d a b z o s) := by
  have h3 := bool_toNat_lt z
  have h4 := order_code_lt o
  have h5 := scope_code_lt s
  show 0xA0000100 + d.val * 2097152 + a.val * 65536 + b.val * 2048 + z.toNat * 32 + o.code * 8 + s.code < 4294967296
  omega
theorem amoOr (d : Reg) (a : Reg) (b : Reg) (z : Bool) (o : Order) (s : Scope) : Statement (.amoOr d a b z o s) := by
  have h3 := bool_toNat_lt z
  have h4 := order_code_lt o
  have h5 := scope_code_lt s
  show 0xA0000180 + d.val * 2097152 + a.val * 65536 + b.val * 2048 + z.toNat * 32 + o.code * 8 + s.code < 4294967296
  omega
theorem amoXor (d : Reg) (a : Reg) (b : Reg) (z : Bool) (o : Order) (s : Scope) : Statement (.amoXor d a b z o s) := by
  have h3 := bool_toNat_lt z
  have h4 := order_code_lt o
  have h5 := scope_code_lt s
  show 0xA0000200 + d.val * 2097152 + a.val * 65536 + b.val * 2048 + z.toNat * 32 + o.code * 8 + s.code < 4294967296
  omega
theorem amoMin (d : Reg) (a : Reg) (b : Reg) (z : Bool) (o : Order) (s : Scope) : Statement (.amoMin d a b z o s) := by
  have h3 := bool_toNat_lt z
  have h4 := order_code_lt o
  have h5 := scope_code_lt s
  show 0xA0000280 + d.val * 2097152 + a.val * 65536 + b.val * 2048 + z.toNat * 32 + o.code * 8 + s.code < 4294967296
  omega
theorem amoMax (d : Reg) (a : Reg) (b : Reg) (z : Bool) (o : Order) (s : Scope) : Statement (.amoMax d a b z o s) := by
  have h3 := bool_toNat_lt z
  have h4 := order_code_lt o
  have h5 := scope_code_lt s
  show 0xA0000300 + d.val * 2097152 + a.val * 65536 + b.val * 2048 + z.toNat * 32 + o.code * 8 + s.code < 4294967296
  omega
theorem amoMinn (d : Reg) (a : Reg) (b : Reg) (z : Bool) (o : Order) (s : Scope) : Statement (.amoMinn d a b z o s) := by
  have h3 := bool_toNat_lt z
  have h4 := order_code_lt o
  have h5 := scope_code_lt s
  show 0xA0000380 + d.val * 2097152 + a.val * 65536 + b.val * 2048 + z.toNat * 32 + o.code * 8 + s.code < 4294967296
  omega
theorem amoMaxn (d : Reg) (a : Reg) (b : Reg) (z : Bool) (o : Order) (s : Scope) : Statement (.amoMaxn d a b z o s) := by
  have h3 := bool_toNat_lt z
  have h4 := order_code_lt o
  have h5 := scope_code_lt s
  show 0xA0000400 + d.val * 2097152 + a.val * 65536 + b.val * 2048 + z.toNat * 32 + o.code * 8 + s.code < 4294967296
  omega
theorem cas (d : Reg) (a : Reg) (b : Reg) (z : Bool) (o : Order) (s : Scope) : Statement (.cas d a b z o s) := by
  have h3 := bool_toNat_lt z
  have h4 := order_code_lt o
  have h5 := scope_code_lt s
  show 0xA0000480 + d.val * 2097152 + a.val * 65536 + b.val * 2048 + z.toNat * 32 + o.code * 8 + s.code < 4294967296
  omega
theorem updAddI32 (a : Reg) (b : Reg) (s : Scope) : Statement (.updAddI32 a b s) := by
  have h2 := scope_code_lt s
  show 0xA4000080 + a.val * 65536 + b.val * 2048 + s.code < 4294967296
  omega
theorem updAddI64 (a : Reg) (b : Reg) (s : Scope) : Statement (.updAddI64 a b s) := by
  have h2 := scope_code_lt s
  show 0xA4000100 + a.val * 65536 + b.val * 2048 + s.code < 4294967296
  omega
theorem updAddF32 (a : Reg) (b : Reg) (s : Scope) : Statement (.updAddF32 a b s) := by
  have h2 := scope_code_lt s
  show 0xA4000180 + a.val * 65536 + b.val * 2048 + s.code < 4294967296
  omega
theorem updAddBf16x2 (a : Reg) (b : Reg) (s : Scope) : Statement (.updAddBf16x2 a b s) := by
  have h2 := scope_code_lt s
  show 0xA4000200 + a.val * 65536 + b.val * 2048 + s.code < 4294967296
  omega
theorem updMaxI32 (a : Reg) (b : Reg) (s : Scope) : Statement (.updMaxI32 a b s) := by
  have h2 := scope_code_lt s
  show 0xA4000280 + a.val * 65536 + b.val * 2048 + s.code < 4294967296
  omega
theorem updMinI32 (a : Reg) (b : Reg) (s : Scope) : Statement (.updMinI32 a b s) := by
  have h2 := scope_code_lt s
  show 0xA4000300 + a.val * 65536 + b.val * 2048 + s.code < 4294967296
  omega
theorem updMaxN32 (a : Reg) (b : Reg) (s : Scope) : Statement (.updMaxN32 a b s) := by
  have h2 := scope_code_lt s
  show 0xA4000380 + a.val * 65536 + b.val * 2048 + s.code < 4294967296
  omega
theorem updMinN32 (a : Reg) (b : Reg) (s : Scope) : Statement (.updMinN32 a b s) := by
  have h2 := scope_code_lt s
  show 0xA4000400 + a.val * 65536 + b.val * 2048 + s.code < 4294967296
  omega
theorem updMaxF32 (a : Reg) (b : Reg) (s : Scope) : Statement (.updMaxF32 a b s) := by
  have h2 := scope_code_lt s
  show 0xA4000480 + a.val * 65536 + b.val * 2048 + s.code < 4294967296
  omega
theorem updMinF32 (a : Reg) (b : Reg) (s : Scope) : Statement (.updMinF32 a b s) := by
  have h2 := scope_code_lt s
  show 0xA4000500 + a.val * 65536 + b.val * 2048 + s.code < 4294967296
  omega
theorem updOr (a : Reg) (b : Reg) (s : Scope) : Statement (.updOr a b s) := by
  have h2 := scope_code_lt s
  show 0xA4000580 + a.val * 65536 + b.val * 2048 + s.code < 4294967296
  omega
theorem updAnd (a : Reg) (b : Reg) (s : Scope) : Statement (.updAnd a b s) := by
  have h2 := scope_code_lt s
  show 0xA4000600 + a.val * 65536 + b.val * 2048 + s.code < 4294967296
  omega
theorem updXor (a : Reg) (b : Reg) (s : Scope) : Statement (.updXor a b s) := by
  have h2 := scope_code_lt s
  show 0xA4000680 + a.val * 65536 + b.val * 2048 + s.code < 4294967296
  omega
theorem phase (d : Reg) (s : Scope) : Statement (.phase d s) := by
  have h1 := scope_code_lt s
  show 0xA8000000 + d.val * 2097152 + s.code < 4294967296
  omega
theorem fence (s : Scope) : Statement (.fence s) := by
  have h0 := scope_code_lt s
  show 0xA8000080 + s.code < 4294967296
  omega
theorem waita (d : Reg) (a : Reg) (b : Reg) (z : Bool) (s : Scope) : Statement (.waita d a b z s) := by
  have h3 := bool_toNat_lt z
  have h4 := scope_code_lt s
  show 0xAC000000 + d.val * 2097152 + a.val * 65536 + b.val * 2048 + z.toNat * 32 + s.code < 4294967296
  omega
theorem pfhL1 (a : Reg) (b : Reg) : Statement (.pfhL1 a b) := by
  show 0xAC000080 + a.val * 65536 + b.val * 2048 < 4294967296
  omega
theorem pfhL2 (a : Reg) (b : Reg) : Statement (.pfhL2 a b) := by
  show 0xAC000081 + a.val * 65536 + b.val * 2048 < 4294967296
  omega
theorem rsdKeep (a : Reg) (b : Reg) : Statement (.rsdKeep a b) := by
  show 0xAC000100 + a.val * 65536 + b.val * 2048 < 4294967296
  omega
theorem rsdLow (a : Reg) (b : Reg) : Statement (.rsdLow a b) := by
  show 0xAC000101 + a.val * 65536 + b.val * 2048 < 4294967296
  omega
theorem rsdClean (a : Reg) (b : Reg) : Statement (.rsdClean a b) := by
  show 0xAC000102 + a.val * 65536 + b.val * 2048 < 4294967296
  omega
theorem barinit (a : Reg) (b : Reg) (s : Scope) : Statement (.barinit a b s) := by
  have h2 := scope_code_lt s
  show 0xB0000000 + a.val * 65536 + b.val * 2048 + s.code < 4294967296
  omega
theorem barexp (a : Reg) (b : Reg) (s : Scope) : Statement (.barexp a b s) := by
  have h2 := scope_code_lt s
  show 0xB0000080 + a.val * 65536 + b.val * 2048 + s.code < 4294967296
  omega
theorem bararr (d : Reg) (a : Reg) (b : Reg) (s : Scope) : Statement (.bararr d a b s) := by
  have h3 := scope_code_lt s
  show 0xB0000100 + d.val * 2097152 + a.val * 65536 + b.val * 2048 + s.code < 4294967296
  omega
theorem barwait (d : Reg) (a : Reg) (b : Reg) (s : Scope) : Statement (.barwait d a b s) := by
  have h3 := scope_code_lt s
  show 0xB0000180 + d.val * 2097152 + a.val * 65536 + b.val * 2048 + s.code < 4294967296
  omega
theorem bartest (d : Reg) (a : Reg) (b : Reg) (s : Scope) : Statement (.bartest d a b s) := by
  have h3 := scope_code_lt s
  show 0xB0000200 + d.val * 2097152 + a.val * 65536 + b.val * 2048 + s.code < 4294967296
  omega
theorem enq (d : Reg) (a : Reg) (b : Reg) : Statement (.enq d a b) := by
  show 0xB4000000 + d.val * 2097152 + a.val * 65536 + b.val * 2048 < 4294967296
  omega
theorem waitq (d : Reg) (a : Reg) : Statement (.waitq d a) := by
  show 0xB4000080 + d.val * 2097152 + a.val * 65536 < 4294967296
  omega
theorem dq (d : Reg) (a : Reg) (b : Reg) : Statement (.dq d a b) := by
  show 0xB4000100 + d.val * 2097152 + a.val * 65536 + b.val * 2048 < 4294967296
  omega
theorem treeNew (d : Reg) (a : Reg) : Statement (.treeNew d a) := by
  show 0xC0000000 + d.val * 2097152 + a.val * 65536 < 4294967296
  omega
theorem treeClose (d : Reg) (a : Reg) : Statement (.treeClose d a) := by
  show 0xC0000001 + d.val * 2097152 + a.val * 65536 < 4294967296
  omega
theorem treeKill (d : Reg) (a : Reg) : Statement (.treeKill d a) := by
  show 0xC0000002 + d.val * 2097152 + a.val * 65536 < 4294967296
  omega
theorem spawn (d : Reg) (a : Reg) (b : Reg) : Statement (.spawn d a b) := by
  show 0xC0000080 + d.val * 2097152 + a.val * 65536 + b.val * 2048 < 4294967296
  omega
theorem pick (d : Reg) (a : Reg) : Statement (.pick d a) := by
  show 0xC0000100 + d.val * 2097152 + a.val * 65536 < 4294967296
  omega
theorem done (a : Reg) : Statement (.done a) := by
  show 0xC0000180 + a.val * 65536 < 4294967296
  omega
theorem join (a : Reg) (b : Reg) : Statement (.join a b) := by
  show 0xC0000200 + a.val * 65536 + b.val * 2048 < 4294967296
  omega
theorem reprio (d : Reg) (a : Reg) (b : Reg) : Statement (.reprio d a b) := by
  show 0xC0000280 + d.val * 2097152 + a.val * 65536 + b.val * 2048 < 4294967296
  omega
theorem reprioSub (d : Reg) (a : Reg) (b : Reg) : Statement (.reprioSub d a b) := by
  show 0xC00002C0 + d.val * 2097152 + a.val * 65536 + b.val * 2048 < 4294967296
  omega
theorem cancelSoft (d : Reg) (a : Reg) : Statement (.cancelSoft d a) := by
  show 0xC0000300 + d.val * 2097152 + a.val * 65536 < 4294967296
  omega
theorem cancelHard (d : Reg) (a : Reg) : Statement (.cancelHard d a) := by
  show 0xC0000380 + d.val * 2097152 + a.val * 65536 < 4294967296
  omega
theorem tstat (d : Reg) (a : Reg) (k : Bool) : Statement (.tstat d a k) := by
  have h2 := bool_toNat_lt k
  show 0xC0000400 + d.val * 2097152 + a.val * 65536 + k.toNat * 64 < 4294967296
  omega
theorem nalloc (d : Reg) (a : Reg) (b : Reg) : Statement (.nalloc d a b) := by
  show 0xC4000000 + d.val * 2097152 + a.val * 65536 + b.val * 2048 < 4294967296
  omega
theorem nallocFree (d : Reg) (a : Reg) (b : Reg) : Statement (.nallocFree d a b) := by
  show 0xC4000040 + d.val * 2097152 + a.val * 65536 + b.val * 2048 < 4294967296
  omega
theorem ninit (a : Reg) (b : Reg) (m : BitVec 4) : Statement (.ninit a b m) := by
  show 0xC4000080 + a.val * 65536 + b.val * 2048 + m.toNat < 4294967296
  omega
theorem nrd (d : Reg) (a : Reg) (k : Fin 4) : Statement (.nrd d a k) := by
  show 0xC4000100 + d.val * 2097152 + a.val * 65536 + k.val < 4294967296
  omega
theorem nvl (a : Reg) (b : Reg) : Statement (.nvl a b) := by
  show 0xC4000180 + a.val * 65536 + b.val * 2048 < 4294967296
  omega
theorem nback (a : Reg) (b : Reg) : Statement (.nback a b) := by
  show 0xC4000200 + a.val * 65536 + b.val * 2048 < 4294967296
  omega
theorem nbackAlt (a : Reg) (b : Reg) : Statement (.nbackAlt a b) := by
  show 0xC4000280 + a.val * 65536 + b.val * 2048 < 4294967296
  omega
theorem nsel (d : Reg) (a : Reg) : Statement (.nsel d a) := by
  show 0xC4000300 + d.val * 2097152 + a.val * 65536 < 4294967296
  omega
theorem bcfg (d : Reg) (a : Reg) (b : Reg) : Statement (.bcfg d a b) := by
  show 0xC8000000 + d.val * 2097152 + a.val * 65536 + b.val * 2048 < 4294967296
  omega
theorem bsub (d : Reg) (a : Reg) (b : Reg) : Statement (.bsub d a b) := by
  show 0xC8000080 + d.val * 2097152 + a.val * 65536 + b.val * 2048 < 4294967296
  omega
theorem bclose (d : Reg) (a : Reg) : Statement (.bclose d a) := by
  show 0xC8000100 + d.val * 2097152 + a.val * 65536 < 4294967296
  omega
theorem aconfig (d : Reg) (a : Reg) (b : Reg) : Statement (.aconfig d a b) := by
  show 0xD0000000 + d.val * 2097152 + a.val * 65536 + b.val * 2048 < 4294967296
  omega
theorem ktload (d : Reg) (a : Reg) (b : Reg) : Statement (.ktload d a b) := by
  show 0xD0000080 + d.val * 2097152 + a.val * 65536 + b.val * 2048 < 4294967296
  omega
theorem ktloadSt (d : Reg) (a : Reg) (b : Reg) : Statement (.ktloadSt d a b) := by
  show 0xD00000C0 + d.val * 2097152 + a.val * 65536 + b.val * 2048 < 4294967296
  omega
theorem ktlock (d : Reg) (a : Reg) : Statement (.ktlock d a) := by
  show 0xD0000100 + d.val * 2097152 + a.val * 65536 < 4294967296
  omega
theorem ktlockUn (d : Reg) (a : Reg) : Statement (.ktlockUn d a) := by
  show 0xD0000140 + d.val * 2097152 + a.val * 65536 < 4294967296
  omega
theorem kappend (d : Reg) (a : Reg) : Statement (.kappend d a) := by
  show 0xD0000180 + d.val * 2097152 + a.val * 65536 < 4294967296
  omega
theorem aquery (a : Reg) : Statement (.aquery a) := by
  show 0xD0000200 + a.val * 65536 < 4294967296
  omega
theorem aqueryLoose (a : Reg) : Statement (.aqueryLoose a) := by
  show 0xD0000240 + a.val * 65536 < 4294967296
  omega
theorem ksplice (d : Reg) (a : Reg) (b : Reg) : Statement (.ksplice d a b) := by
  show 0xD0000280 + d.val * 2097152 + a.val * 65536 + b.val * 2048 < 4294967296
  omega
theorem krepairSel (a : Reg) : Statement (.krepairSel a) := by
  show 0xD0000300 + a.val * 65536 < 4294967296
  omega
theorem krepairPut (a : Reg) : Statement (.krepairPut a) := by
  show 0xD0000340 + a.val * 65536 < 4294967296
  omega
theorem krstatSeq (d : Reg) (a : Reg) : Statement (.krstatSeq d a) := by
  show 0xD0000380 + d.val * 2097152 + a.val * 65536 < 4294967296
  omega
theorem krstatSpan (d : Reg) (a : Reg) (b : Reg) : Statement (.krstatSpan d a b) := by
  show 0xD0000381 + d.val * 2097152 + a.val * 65536 + b.val * 2048 < 4294967296
  omega
theorem krstatDelta (d : Reg) (a : Reg) (b : Reg) : Statement (.krstatDelta d a b) := by
  show 0xD0000382 + d.val * 2097152 + a.val * 65536 + b.val * 2048 < 4294967296
  omega
theorem krstatPool (d : Reg) (a : Reg) : Statement (.krstatPool d a) := by
  show 0xD0000383 + d.val * 2097152 + a.val * 65536 < 4294967296
  omega
theorem kalloc (d : Reg) (a : Reg) (b : Reg) : Statement (.kalloc d a b) := by
  show 0xD4000000 + d.val * 2097152 + a.val * 65536 + b.val * 2048 < 4294967296
  omega
theorem kfree (d : Reg) (a : Reg) : Statement (.kfree d a) := by
  show 0xD4000080 + d.val * 2097152 + a.val * 65536 < 4294967296
  omega
theorem kfreeEnt (d : Reg) (a : Reg) (b : Reg) : Statement (.kfreeEnt d a b) := by
  show 0xD40000C0 + d.val * 2097152 + a.val * 65536 + b.val * 2048 < 4294967296
  omega
theorem kfork (d : Reg) (a : Reg) : Statement (.kfork d a) := by
  show 0xD4000100 + d.val * 2097152 + a.val * 65536 < 4294967296
  omega
theorem kreclaim (d : Reg) (a : Reg) : Statement (.kreclaim d a) := by
  show 0xD4000180 + d.val * 2097152 + a.val * 65536 < 4294967296
  omega
theorem csrr (d : Reg) (c : BitVec 12) : Statement (.csrr d c) := by
  show 0xE0000000 + d.val * 2097152 + c.toNat < 4294967296
  omega
theorem csrw (d : Reg) (a : Reg) (c : BitVec 12) : Statement (.csrw d a c) := by
  show 0xE0004000 + d.val * 2097152 + a.val * 65536 + c.toNat < 4294967296
  omega
theorem csrs (d : Reg) (a : Reg) (c : BitVec 12) : Statement (.csrs d a c) := by
  show 0xE0008000 + d.val * 2097152 + a.val * 65536 + c.toNat < 4294967296
  omega
theorem csrc (d : Reg) (a : Reg) (c : BitVec 12) : Statement (.csrc d a c) := by
  show 0xE000C000 + d.val * 2097152 + a.val * 65536 + c.toNat < 4294967296
  omega
theorem vadd (d : VReg) (a : VReg) (b : VReg) (k : MaskSel) (n : Bool) (s : Bool) : Statement (.vadd d a b k n s) := by
  have h4 := bool_toNat_lt n
  have h5 := bool_toNat_lt s
  show 0x04000000 + d.val * 2097152 + a.val * 65536 + b.val * 2048 + k.val * 256 + n.toNat * 4 + s.toNat * 2 < 4294967296
  omega
theorem vsub (d : VReg) (a : VReg) (b : VReg) (k : MaskSel) (n : Bool) (s : Bool) : Statement (.vsub d a b k n s) := by
  have h4 := bool_toNat_lt n
  have h5 := bool_toNat_lt s
  show 0x04000008 + d.val * 2097152 + a.val * 65536 + b.val * 2048 + k.val * 256 + n.toNat * 4 + s.toNat * 2 < 4294967296
  omega
theorem vmul (d : VReg) (a : VReg) (b : VReg) (k : MaskSel) (n : Bool) (s : Bool) : Statement (.vmul d a b k n s) := by
  have h4 := bool_toNat_lt n
  have h5 := bool_toNat_lt s
  show 0x04000010 + d.val * 2097152 + a.val * 65536 + b.val * 2048 + k.val * 256 + n.toNat * 4 + s.toNat * 2 < 4294967296
  omega
theorem vmulh (d : VReg) (a : VReg) (b : VReg) (k : MaskSel) (n : Bool) : Statement (.vmulh d a b k n) := by
  have h4 := bool_toNat_lt n
  show 0x04000018 + d.val * 2097152 + a.val * 65536 + b.val * 2048 + k.val * 256 + n.toNat * 4 < 4294967296
  omega
theorem vmin (d : VReg) (a : VReg) (b : VReg) (k : MaskSel) (n : Bool) : Statement (.vmin d a b k n) := by
  have h4 := bool_toNat_lt n
  show 0x04000020 + d.val * 2097152 + a.val * 65536 + b.val * 2048 + k.val * 256 + n.toNat * 4 < 4294967296
  omega
theorem vmax (d : VReg) (a : VReg) (b : VReg) (k : MaskSel) (n : Bool) : Statement (.vmax d a b k n) := by
  have h4 := bool_toNat_lt n
  show 0x04000028 + d.val * 2097152 + a.val * 65536 + b.val * 2048 + k.val * 256 + n.toNat * 4 < 4294967296
  omega
theorem vand (d : VReg) (a : VReg) (b : VReg) (k : MaskSel) : Statement (.vand d a b k) := by
  show 0x04000030 + d.val * 2097152 + a.val * 65536 + b.val * 2048 + k.val * 256 < 4294967296
  omega
theorem vor (d : VReg) (a : VReg) (b : VReg) (k : MaskSel) : Statement (.vor d a b k) := by
  show 0x04000038 + d.val * 2097152 + a.val * 65536 + b.val * 2048 + k.val * 256 < 4294967296
  omega
theorem vxor (d : VReg) (a : VReg) (b : VReg) (k : MaskSel) : Statement (.vxor d a b k) := by
  show 0x04000040 + d.val * 2097152 + a.val * 65536 + b.val * 2048 + k.val * 256 < 4294967296
  omega
theorem vshl (d : VReg) (a : VReg) (b : VReg) (k : MaskSel) (n : Bool) (s : Bool) : Statement (.vshl d a b k n s) := by
  have h4 := bool_toNat_lt n
  have h5 := bool_toNat_lt s
  show 0x04000048 + d.val * 2097152 + a.val * 65536 + b.val * 2048 + k.val * 256 + n.toNat * 4 + s.toNat * 2 < 4294967296
  omega
theorem vshr (d : VReg) (a : VReg) (b : VReg) (k : MaskSel) : Statement (.vshr d a b k) := by
  show 0x04000050 + d.val * 2097152 + a.val * 65536 + b.val * 2048 + k.val * 256 < 4294967296
  omega
theorem vsar (d : VReg) (a : VReg) (b : VReg) (k : MaskSel) : Statement (.vsar d a b k) := by
  show 0x04000058 + d.val * 2097152 + a.val * 65536 + b.val * 2048 + k.val * 256 < 4294967296
  omega
theorem vabs (d : VReg) (a : VReg) (k : MaskSel) (s : Bool) : Statement (.vabs d a k s) := by
  have h3 := bool_toNat_lt s
  show 0x04000060 + d.val * 2097152 + a.val * 65536 + k.val * 256 + s.toNat * 2 < 4294967296
  omega
theorem vneg (d : VReg) (a : VReg) (k : MaskSel) (s : Bool) : Statement (.vneg d a k s) := by
  have h3 := bool_toNat_lt s
  show 0x04000068 + d.val * 2097152 + a.val * 65536 + k.val * 256 + s.toNat * 2 < 4294967296
  omega
theorem vsel (d : VReg) (a : VReg) (b : VReg) (k : MaskSel) : Statement (.vsel d a b k) := by
  show 0x04000070 + d.val * 2097152 + a.val * 65536 + b.val * 2048 + k.val * 256 < 4294967296
  omega
theorem vfadd (d : VReg) (a : VReg) (b : VReg) (k : MaskSel) (r : Rnd) : Statement (.vfadd d a b k r) := by
  have h4 := rnd_code_lt r
  show 0x08000000 + d.val * 2097152 + a.val * 65536 + b.val * 2048 + k.val * 256 + r.code < 4294967296
  omega
theorem vfsub (d : VReg) (a : VReg) (b : VReg) (k : MaskSel) (r : Rnd) : Statement (.vfsub d a b k r) := by
  have h4 := rnd_code_lt r
  show 0x08000008 + d.val * 2097152 + a.val * 65536 + b.val * 2048 + k.val * 256 + r.code < 4294967296
  omega
theorem vfmul (d : VReg) (a : VReg) (b : VReg) (k : MaskSel) (r : Rnd) : Statement (.vfmul d a b k r) := by
  have h4 := rnd_code_lt r
  show 0x08000010 + d.val * 2097152 + a.val * 65536 + b.val * 2048 + k.val * 256 + r.code < 4294967296
  omega
theorem vfdiv (d : VReg) (a : VReg) (b : VReg) (k : MaskSel) (r : Rnd) : Statement (.vfdiv d a b k r) := by
  have h4 := rnd_code_lt r
  show 0x08000018 + d.val * 2097152 + a.val * 65536 + b.val * 2048 + k.val * 256 + r.code < 4294967296
  omega
theorem vfma (d : VReg) (a : VReg) (b : VReg) (k : MaskSel) (r : Rnd) : Statement (.vfma d a b k r) := by
  have h4 := rnd_code_lt r
  show 0x08000020 + d.val * 2097152 + a.val * 65536 + b.val * 2048 + k.val * 256 + r.code < 4294967296
  omega
theorem vfsqrt (d : VReg) (a : VReg) (k : MaskSel) (r : Rnd) : Statement (.vfsqrt d a k r) := by
  have h3 := rnd_code_lt r
  show 0x08000028 + d.val * 2097152 + a.val * 65536 + k.val * 256 + r.code < 4294967296
  omega
theorem vfmin (d : VReg) (a : VReg) (b : VReg) (k : MaskSel) : Statement (.vfmin d a b k) := by
  show 0x08000030 + d.val * 2097152 + a.val * 65536 + b.val * 2048 + k.val * 256 < 4294967296
  omega
theorem vfmax (d : VReg) (a : VReg) (b : VReg) (k : MaskSel) : Statement (.vfmax d a b k) := by
  show 0x08000038 + d.val * 2097152 + a.val * 65536 + b.val * 2048 + k.val * 256 < 4294967296
  omega
theorem vfexp2 (d : VReg) (a : VReg) (k : MaskSel) : Statement (.vfexp2 d a k) := by
  show 0x08000040 + d.val * 2097152 + a.val * 65536 + k.val * 256 < 4294967296
  omega
theorem vfrcp (d : VReg) (a : VReg) (k : MaskSel) (r : Rnd) : Statement (.vfrcp d a k r) := by
  have h3 := rnd_code_lt r
  show 0x08000048 + d.val * 2097152 + a.val * 65536 + k.val * 256 + r.code < 4294967296
  omega
theorem vcmp (d : MaskSel) (a : VReg) (b : VReg) (f : Bool) (n : Bool) (p : Pred) : Statement (.vcmp d a b f n p) := by
  have h3 := bool_toNat_lt f
  have h4 := bool_toNat_lt n
  have h5 := pred_code_lt p
  show 0x0C000000 + d.val * 2097152 + a.val * 65536 + b.val * 2048 + f.toNat * 16 + n.toNat * 8 + p.code < 4294967296
  omega
theorem mand (d : MaskSel) (a : MaskSel) (b : MaskSel) : Statement (.mand d a b) := by
  show 0x0C000020 + d.val * 2097152 + a.val * 65536 + b.val * 2048 < 4294967296
  omega
theorem mor (d : MaskSel) (a : MaskSel) (b : MaskSel) : Statement (.mor d a b) := by
  show 0x0C000040 + d.val * 2097152 + a.val * 65536 + b.val * 2048 < 4294967296
  omega
theorem mnot (d : MaskSel) (a : MaskSel) : Statement (.mnot d a) := by
  show 0x0C000060 + d.val * 2097152 + a.val * 65536 < 4294967296
  omega
theorem mpopc (n : Fin 4) (a : MaskSel) : Statement (.mpopc n a) := by
  show 0x0C000080 + n.val * 2097152 + a.val * 65536 < 4294967296
  omega
theorem mfirst (n : Fin 4) (a : MaskSel) : Statement (.mfirst n a) := by
  show 0x0C0000A0 + n.val * 2097152 + a.val * 65536 < 4294967296
  omega
theorem vcvt (d : VReg) (a : VReg) (s : Ty) (k : MaskSel) (t : Ty) : Statement (.vcvt d a s k t) := by
  have h2 := ty_code_lt s
  have h4 := ty_code_lt t
  show 0x10000000 + d.val * 2097152 + a.val * 65536 + s.code * 2048 + k.val * 256 + t.code < 4294967296
  omega
theorem vqenc (d : VReg) (a : VReg) : Statement (.vqenc d a) := by
  show 0x10000020 + d.val * 2097152 + a.val * 65536 < 4294967296
  omega
theorem vqdec (d : VReg) (a : VReg) : Statement (.vqdec d a) := by
  show 0x10000040 + d.val * 2097152 + a.val * 65536 < 4294967296
  omega
theorem vunpk3 (d : VReg) (a : VReg) (k : MaskSel) : Statement (.vunpk3 d a k) := by
  show 0x10000060 + d.val * 2097152 + a.val * 65536 + k.val * 256 < 4294967296
  omega
theorem vtacc (d : VReg) (a : VReg) (b : VReg) (k : MaskSel) (c : Fin 32) : Statement (.vtacc d a b k c) := by
  show 0x10000080 + d.val * 2097152 + a.val * 65536 + b.val * 2048 + k.val * 256 + c.val < 4294967296
  omega
theorem vperm (d : VReg) (a : VReg) (b : VReg) (k : MaskSel) : Statement (.vperm d a b k) := by
  show 0x14000000 + d.val * 2097152 + a.val * 65536 + b.val * 2048 + k.val * 256 < 4294967296
  omega
theorem vslide (d : VReg) (a : VReg) (b : VReg) (k : MaskSel) (s : Fin 64) : Statement (.vslide d a b k s) := by
  show 0x14000040 + d.val * 2097152 + a.val * 65536 + b.val * 2048 + k.val * 256 + s.val < 4294967296
  omega
theorem vbcast (d : VReg) (a : VReg) (k : MaskSel) (s : Fin 64) : Statement (.vbcast d a k s) := by
  show 0x14000080 + d.val * 2097152 + a.val * 65536 + k.val * 256 + s.val < 4294967296
  omega
theorem viota (d : VReg) (k : MaskSel) (s : Fin 64) : Statement (.viota d k s) := by
  show 0x140000C0 + d.val * 2097152 + k.val * 256 + s.val < 4294967296
  omega
theorem vrsum (n : Fin 4) (a : VReg) (k : MaskSel) (u : Bool) : Statement (.vrsum n a k u) := by
  have h3 := bool_toNat_lt u
  show 0x18000000 + n.val * 2097152 + a.val * 65536 + k.val * 256 + u.toNat * 16 < 4294967296
  omega
theorem vrfsum (n : Fin 4) (a : VReg) (k : MaskSel) : Statement (.vrfsum n a k) := by
  show 0x18000040 + n.val * 2097152 + a.val * 65536 + k.val * 256 < 4294967296
  omega
theorem vrmin (n : Fin 4) (a : VReg) (k : MaskSel) (x : Bool) (u : Bool) (f : Bool) : Statement (.vrmin n a k x u f) := by
  have h3 := bool_toNat_lt x
  have h4 := bool_toNat_lt u
  have h5 := bool_toNat_lt f
  show 0x18000080 + n.val * 2097152 + a.val * 65536 + k.val * 256 + x.toNat * 32 + u.toNat * 16 + f.toNat * 8 < 4294967296
  omega
theorem vrmax (n : Fin 4) (a : VReg) (k : MaskSel) (x : Bool) (u : Bool) (f : Bool) : Statement (.vrmax n a k x u f) := by
  have h3 := bool_toNat_lt x
  have h4 := bool_toNat_lt u
  have h5 := bool_toNat_lt f
  show 0x180000C0 + n.val * 2097152 + a.val * 65536 + k.val * 256 + x.toNat * 32 + u.toNat * 16 + f.toNat * 8 < 4294967296
  omega
theorem vld (d : VReg) (l : LReg) (k : MaskSel) (o : BitVec 5) : Statement (.vld d l k o) := by
  show 0x1C000000 + d.val * 2097152 + l.val * 2048 + k.val * 256 + o.toNat < 4294967296
  omega
theorem vst (d : VReg) (l : LReg) (k : MaskSel) (o : BitVec 5) : Statement (.vst d l k o) := by
  show 0x1C000020 + d.val * 2097152 + l.val * 2048 + k.val * 256 + o.toNat < 4294967296
  omega
theorem vlds (d : VReg) (m : LReg) (l : LReg) (k : MaskSel) (o : BitVec 5) : Statement (.vlds d m l k o) := by
  show 0x1C000040 + d.val * 2097152 + m.val * 65536 + l.val * 2048 + k.val * 256 + o.toNat < 4294967296
  omega
theorem vsts (d : VReg) (m : LReg) (l : LReg) (k : MaskSel) (o : BitVec 5) : Statement (.vsts d m l k o) := by
  show 0x1C000060 + d.val * 2097152 + m.val * 65536 + l.val * 2048 + k.val * 256 + o.toNat < 4294967296
  omega
theorem vgath (d : VReg) (a : VReg) (l : LReg) (k : MaskSel) (o : BitVec 5) : Statement (.vgath d a l k o) := by
  show 0x1C000080 + d.val * 2097152 + a.val * 65536 + l.val * 2048 + k.val * 256 + o.toNat < 4294967296
  omega
theorem vscat (d : VReg) (a : VReg) (l : LReg) (k : MaskSel) (o : BitVec 5) : Statement (.vscat d a l k o) := by
  show 0x1C0000A0 + d.val * 2097152 + a.val * 65536 + l.val * 2048 + k.val * 256 + o.toNat < 4294967296
  omega
theorem vpushc (a : VReg) (k : MaskSel) (p : Fin 8) : Statement (.vpushc a k p) := by
  show 0x20000000 + a.val * 65536 + k.val * 256 + p.val < 4294967296
  omega
theorem vpopf (d : VReg) (a : VReg) (p : Fin 8) : Statement (.vpopf d a p) := by
  show 0x20000040 + d.val * 2097152 + a.val * 65536 + p.val < 4294967296
  omega
theorem vstat (n : Fin 4) (r : Bool) (p : Fin 8) : Statement (.vstat n r p) := by
  have h1 := bool_toNat_lt r
  show 0x20000080 + n.val * 2097152 + r.toNat * 65536 + p.val < 4294967296
  omega
theorem vlkup (d : VReg) (a : VReg) (b : VReg) (k : MaskSel) (t : LReg) : Statement (.vlkup d a b k t) := by
  show 0x24000000 + d.val * 2097152 + a.val * 65536 + b.val * 2048 + k.val * 256 + t.val < 4294967296
  omega
theorem vrand (d : VReg) (k : MaskSel) (s : Fin 4) : Statement (.vrand d k s) := by
  show 0x28000000 + d.val * 2097152 + k.val * 256 + s.val < 4294967296
  omega
theorem vrseed (d : VReg) (a : VReg) (s : Fin 4) : Statement (.vrseed d a s) := by
  show 0x28000040 + d.val * 2097152 + a.val * 65536 + s.val < 4294967296
  omega
theorem vrskip (a : VReg) (s : Fin 4) : Statement (.vrskip a s) := by
  show 0x28000080 + a.val * 65536 + s.val < 4294967296
  omega
theorem vshape (l : Fin 1024) (e : EW) : Statement (.vshape l e) := by
  have h1 := ew_code_lt e
  show 0x2C000000 + l.val * 2048 + e.code < 4294967296
  omega
theorem vend : Statement .vend := (by decide : (0xF8000000 : Nat) < 2 ^ 32)
theorem mwld (tok : Tok) (s : Fin 32) (t : Ty) (p : Bool) : Statement (.mwld tok s t p) := by
  have h0 := tok_code_lt tok
  have h2 := ty_code_lt t
  have h3 := bool_toNat_lt p
  show 0x08000000 + tok.code * 8388608 + s.val * 262144 + t.code * 16384 + p.toNat * 8192 < 4294967296
  omega
theorem mswap (tok : Tok) : Statement (.mswap tok) := by
  have h0 := tok_code_lt tok
  show 0x10000000 + tok.code * 8388608 < 4294967296
  omega
theorem mstrm (tok : Tok) (s : Fin 32) (t : Ty) : Statement (.mstrm tok s t) := by
  have h0 := tok_code_lt tok
  have h2 := ty_code_lt t
  show 0x18000000 + tok.code * 8388608 + s.val * 262144 + t.code * 16384 < 4294967296
  omega
theorem mmac (tok : Tok) (t : Fin 4) (r : Fin 64) (m : Fin 64) (p : Fin 16) : Statement (.mmac tok t r m p) := by
  have h0 := tok_code_lt tok
  show 0x20000000 + tok.code * 8388608 + t.val * 2097152 + r.val * 32768 + m.val * 512 + p.val * 32 < 4294967296
  omega
theorem mzero (tok : Tok) (t : Fin 4) (r : Fin 64) (m : Fin 64) (k : Bool) : Statement (.mzero tok t r m k) := by
  have h0 := tok_code_lt tok
  have h4 := bool_toNat_lt k
  show 0x28000000 + tok.code * 8388608 + t.val * 2097152 + r.val * 32768 + m.val * 512 + k.toNat * 256 < 4294967296
  omega
theorem mdrainMem (tok : Tok) (t : Fin 4) (r : Fin 64) (m : Fin 64) (o : Ty) (c : Bool) (e : Fin 4) : Statement (.mdrainMem tok t r m o c e) := by
  have h0 := tok_code_lt tok
  have h4 := ty_code_lt o
  have h5 := bool_toNat_lt c
  show 0x30000000 + tok.code * 8388608 + t.val * 2097152 + r.val * 32768 + m.val * 512 + o.code * 32 + c.toNat * 4 + e.val < 4294967296
  omega
theorem mdrainAcc (tok : Tok) (t : Fin 4) (r : Fin 64) (m : Fin 64) (o : Ty) (c : Bool) (e : Fin 4) : Statement (.mdrainAcc tok t r m o c e) := by
  have h0 := tok_code_lt tok
  have h4 := ty_code_lt o
  have h5 := bool_toNat_lt c
  show 0x30000008 + tok.code * 8388608 + t.val * 2097152 + r.val * 32768 + m.val * 512 + o.code * 32 + c.toNat * 4 + e.val < 4294967296
  omega
theorem mdrainStr (tok : Tok) (t : Fin 4) (r : Fin 64) (m : Fin 64) (o : Ty) (c : Bool) (e : Fin 4) : Statement (.mdrainStr tok t r m o c e) := by
  have h0 := tok_code_lt tok
  have h4 := ty_code_lt o
  have h5 := bool_toNat_lt c
  show 0x30000010 + tok.code * 8388608 + t.val * 2097152 + r.val * 32768 + m.val * 512 + o.code * 32 + c.toNat * 4 + e.val < 4294967296
  omega
theorem mloop (tok : Tok) (n : Fin 4096) (b : Fin 1024) : Statement (.mloop tok n b) := by
  have h0 := tok_code_lt tok
  show 0x38000000 + tok.code * 8388608 + n.val * 1024 + b.val < 4294967296
  omega
theorem mloopReg (tok : Tok) (l : LReg) (b : Fin 1024) : Statement (.mloopReg tok l b) := by
  have h0 := tok_code_lt tok
  show 0x38400000 + tok.code * 8388608 + l.val * 262144 + b.val < 4294967296
  omega
theorem mwaitb (tok : Tok) (l : LReg) (t : Bool) : Statement (.mwaitb tok l t) := by
  have h0 := tok_code_lt tok
  have h2 := bool_toNat_lt t
  show 0x40000000 + tok.code * 8388608 + l.val * 524288 + t.toNat * 262144 < 4294967296
  omega
theorem mend (tok : Tok) : Statement (.mend tok) := by
  have h0 := tok_code_lt tok
  show 0xF0000000 + tok.code * 8388608 < 4294967296
  omega
theorem xcopy (tok : Tok) (s : XLoc) (t : XLoc) (l : LReg) (p : Bool) (q : Bool) : Statement (.xcopy tok s t l p q) := by
  have h0 := tok_code_lt tok
  have h1 := xloc_code_lt s
  have h2 := xloc_code_lt t
  have h4 := bool_toNat_lt p
  have h5 := bool_toNat_lt q
  show 0x08000000 + tok.code * 8388608 + s.code * 131072 + t.code * 2048 + l.val * 128 + p.toNat * 64 + q.toNat * 32 < 4294967296
  omega
theorem xgath (tok : Tok) (b : LReg) (t : XLoc) (i : LReg) (n : LReg) (s : Fin 16) : Statement (.xgath tok b t i n s) := by
  have h0 := tok_code_lt tok
  have h2 := xloc_code_lt t
  show 0x10000001 + tok.code * 8388608 + b.val * 524288 + t.code * 8192 + i.val * 512 + n.val * 32 + s.val * 2 < 4294967296
  omega
theorem xgathC (tok : Tok) (b : LReg) (t : XLoc) (n : LReg) (s : Fin 16) : Statement (.xgathC tok b t n s) := by
  have h0 := tok_code_lt tok
  have h2 := xloc_code_lt t
  show 0x10000000 + tok.code * 8388608 + b.val * 524288 + t.code * 8192 + n.val * 32 + s.val * 2 < 4294967296
  omega
theorem xscat (tok : Tok) (s : XLoc) (b : LReg) (i : LReg) (n : LReg) (k : Fin 16) : Statement (.xscat tok s b i n k) := by
  have h0 := tok_code_lt tok
  have h1 := xloc_code_lt s
  show 0x18000001 + tok.code * 8388608 + s.code * 131072 + b.val * 8192 + i.val * 512 + n.val * 32 + k.val * 2 < 4294967296
  omega
theorem xscatC (tok : Tok) (s : XLoc) (b : LReg) (n : LReg) (k : Fin 16) : Statement (.xscatC tok s b n k) := by
  have h0 := tok_code_lt tok
  have h1 := xloc_code_lt s
  show 0x18000000 + tok.code * 8388608 + s.code * 131072 + b.val * 8192 + n.val * 32 + k.val * 2 < 4294967296
  omega
theorem xfill (tok : Tok) (t : XLoc) (p : LReg) (n : LReg) (d : Bool) : Statement (.xfill tok t p n d) := by
  have h0 := tok_code_lt tok
  have h1 := xloc_code_lt t
  have h4 := bool_toNat_lt d
  show 0x20000000 + tok.code * 8388608 + t.code * 131072 + p.val * 8192 + n.val * 512 + d.toNat * 256 < 4294967296
  omega
theorem xred (tok : Tok) (s : XLoc) (d : LReg) (n : LReg) (g : UpdTag) (r : LReg) (p : Bool) : Statement (.xred tok s d n g r p) := by
  have h0 := tok_code_lt tok
  have h1 := xloc_code_lt s
  have h4 := updTag_code_lt g
  have h6 := bool_toNat_lt p
  show 0x28000000 + tok.code * 8388608 + s.code * 131072 + d.val * 8192 + n.val * 512 + g.code * 32 + r.val * 2 + p.toNat < 4294967296
  omega
theorem xsend (tok : Tok) (s : XLoc) (c : Fin 256) (n : LReg) (p : Bool) : Statement (.xsend tok s c n p) := by
  have h0 := tok_code_lt tok
  have h1 := xloc_code_lt s
  have h4 := bool_toNat_lt p
  show 0x30000000 + tok.code * 8388608 + s.code * 131072 + c.val * 512 + n.val * 32 + p.toNat * 16 < 4294967296
  omega
theorem xrecv (tok : Tok) (t : XLoc) (c : Fin 256) (n : LReg) (p : Bool) : Statement (.xrecv tok t c n p) := by
  have h0 := tok_code_lt tok
  have h1 := xloc_code_lt t
  have h4 := bool_toNat_lt p
  show 0x38000000 + tok.code * 8388608 + t.code * 131072 + c.val * 512 + n.val * 32 + p.toNat * 16 < 4294967296
  omega
theorem xloop (tok : Tok) (n : Fin 4096) (b : Fin 1024) : Statement (.xloop tok n b) := by
  have h0 := tok_code_lt tok
  show 0x40000000 + tok.code * 8388608 + n.val * 1024 + b.val < 4294967296
  omega
theorem xloopReg (tok : Tok) (l : LReg) (b : Fin 1024) : Statement (.xloopReg tok l b) := by
  have h0 := tok_code_lt tok
  show 0x40400000 + tok.code * 8388608 + l.val * 262144 + b.val < 4294967296
  omega
theorem xwaitb (tok : Tok) (l : LReg) (t : Bool) : Statement (.xwaitb tok l t) := by
  have h0 := tok_code_lt tok
  have h2 := bool_toNat_lt t
  show 0x48000000 + tok.code * 8388608 + l.val * 524288 + t.toNat * 262144 < 4294967296
  omega
theorem xend (tok : Tok) : Statement (.xend tok) := by
  have h0 := tok_code_lt tok
  show 0xF0000000 + tok.code * 8388608 < 4294967296
  omega
theorem pauseEnd (c : Nat) : Statement (.pauseEnd c) := (by decide : (0 : Nat) < 2 ^ 32)
theorem loopEndCheck (c : Nat) : Statement (.loopEndCheck c) := (by decide : (0 : Nat) < 2 ^ 32)
theorem loadDataReturn (c : Nat) (k : Nat) : Statement (.loadDataReturn c k) := (by decide : (0 : Nat) < 2 ^ 32)
theorem waitaWake (c : Nat) : Statement (.waitaWake c) := (by decide : (0 : Nat) < 2 ^ 32)
theorem barwaitWake (c : Nat) : Statement (.barwaitWake c) := (by decide : (0 : Nat) < 2 ^ 32)
theorem barrierCredit (k : Nat) : Statement (.barrierCredit k) := (by decide : (0 : Nat) < 2 ^ 32)
theorem waitqWake (c : Nat) : Statement (.waitqWake c) := (by decide : (0 : Nat) < 2 ^ 32)
theorem ringmasterSelect (die : Nat) : Statement (.ringmasterSelect die) := (by decide : (0 : Nat) < 2 ^ 32)
theorem taskStart (c : Nat) : Statement (.taskStart c) := (by decide : (0 : Nat) < 2 ^ 32)
theorem cancelForward (k : Nat) : Statement (.cancelForward k) := (by decide : (0 : Nat) < 2 ^ 32)
theorem cancelReclaim (k : Nat) : Statement (.cancelReclaim k) := (by decide : (0 : Nat) < 2 ^ 32)
theorem walkForward (k : Nat) : Statement (.walkForward k) := (by decide : (0 : Nat) < 2 ^ 32)
theorem barkerWindowExpiry (die : Nat) (bin : Nat) : Statement (.barkerWindowExpiry die bin) := (by decide : (0 : Nat) < 2 ^ 32)
theorem barkerLaunch (die : Nat) (bin : Nat) : Statement (.barkerLaunch die bin) := (by decide : (0 : Nat) < 2 ^ 32)
theorem attnCommandRun (chip : Nat) (k : Nat) : Statement (.attnCommandRun chip k) := (by decide : (0 : Nat) < 2 ^ 32)
theorem aqueryWaitEnd (chip : Nat) (k : Nat) : Statement (.aqueryWaitEnd chip k) := (by decide : (0 : Nat) < 2 ^ 32)
theorem vectorBlockStart (c : Nat) : Statement (.vectorBlockStart c) := (by decide : (0 : Nat) < 2 ^ 32)
theorem mwldLoadDone (g : Nat) (arr : Nat) : Statement (.mwldLoadDone g arr) := (by decide : (0 : Nat) < 2 ^ 32)
theorem tileTaskIssue (g : Nat) : Statement (.tileTaskIssue g) := (by decide : (0 : Nat) < 2 ^ 32)
theorem xredContribution (k : Nat) : Statement (.xredContribution k) := (by decide : (0 : Nat) < 2 ^ 32)
theorem transferProgramStart (c : Nat) (out : Bool) : Statement (.transferProgramStart c out) := (by decide : (0 : Nat) < 2 ^ 32)
theorem circuitUnitSend (k : Nat) : Statement (.circuitUnitSend k) := (by decide : (0 : Nat) < 2 ^ 32)
theorem circuitUnitArrive (k : Nat) : Statement (.circuitUnitArrive k) := (by decide : (0 : Nat) < 2 ^ 32)
theorem storeArrival (c : Nat) (k : Nat) : Statement (.storeArrival c k) := (by decide : (0 : Nat) < 2 ^ 32)
theorem commitMarker (c : Nat) (dest : Nat) : Statement (.commitMarker c dest) := (by decide : (0 : Nat) < 2 ^ 32)
theorem commitFlip (c : Nat) : Statement (.commitFlip c) := (by decide : (0 : Nat) < 2 ^ 32)
theorem flipNotice (c : Nat) (slice : Nat) : Statement (.flipNotice c slice) := (by decide : (0 : Nat) < 2 ^ 32)
theorem fenceMarker (c : Nat) (dest : Nat) : Statement (.fenceMarker c dest) := (by decide : (0 : Nat) < 2 ^ 32)
theorem markerAck (c : Nat) (dest : Nat) : Statement (.markerAck c dest) := (by decide : (0 : Nat) < 2 ^ 32)
theorem homeReadRequest (k : Nat) : Statement (.homeReadRequest k) := (by decide : (0 : Nat) < 2 ^ 32)
theorem homeGrantRequest (k : Nat) : Statement (.homeGrantRequest k) := (by decide : (0 : Nat) < 2 ^ 32)
theorem homeUpdRequest (k : Nat) : Statement (.homeUpdRequest k) := (by decide : (0 : Nat) < 2 ^ 32)
theorem fullMerge (line : Nat) : Statement (.fullMerge line) := (by decide : (0 : Nat) < 2 ^ 32)
theorem writeBack (k : Nat) : Statement (.writeBack k) := (by decide : (0 : Nat) < 2 ^ 32)
theorem parkedPartial (k : Nat) : Statement (.parkedPartial k) := (by decide : (0 : Nat) < 2 ^ 32)
theorem probeRead (k : Nat) : Statement (.probeRead k) := (by decide : (0 : Nat) < 2 ^ 32)
theorem probeInvalidate (k : Nat) : Statement (.probeInvalidate k) := (by decide : (0 : Nat) < 2 ^ 32)
theorem probeMerge (k : Nat) : Statement (.probeMerge k) := (by decide : (0 : Nat) < 2 ^ 32)
theorem dataReply (k : Nat) : Statement (.dataReply k) := (by decide : (0 : Nat) < 2 ^ 32)
theorem shootdown (k : Nat) : Statement (.shootdown k) := (by decide : (0 : Nat) < 2 ^ 32)
theorem leaseExpiry (k : Nat) : Statement (.leaseExpiry k) := (by decide : (0 : Nat) < 2 ^ 32)
theorem remoteAccess (src : Nat) (ctx : Nat) (addr : W64) (op : RemoteOp) : Statement (.remoteAccess src ctx addr op) := (by decide : (0 : Nat) < 2 ^ 32)
theorem remoteCommitBatch (src : Nat) (ctx : Nat) (cells : List (Nat × Byte)) : Statement (.remoteCommitBatch src ctx cells) := (by decide : (0 : Nat) < 2 ^ 32)
theorem fabricTimeout (c : Nat) : Statement (.fabricTimeout c) := (by decide : (0 : Nat) < 2 ^ 32)
theorem taskEnd (c : Nat) : Statement (.taskEnd c) := (by decide : (0 : Nat) < 2 ^ 32)
theorem instanceStart (c : Nat) : Statement (.instanceStart c) := (by decide : (0 : Nat) < 2 ^ 32)
theorem taskAbort (c : Nat) : Statement (.taskAbort c) := (by decide : (0 : Nat) < 2 ^ 32)
theorem strandPreempt (c : Nat) : Statement (.strandPreempt c) := (by decide : (0 : Nat) < 2 ^ 32)
theorem engineContinuationStop (c : Nat) (unit : Nat) : Statement (.engineContinuationStop c unit) := (by decide : (0 : Nat) < 2 ^ 32)
theorem contextResume (launch : Nat) : Statement (.contextResume launch) := (by decide : (0 : Nat) < 2 ^ 32)
theorem recordTake (q : Nat) : Statement (.recordTake q) := (by decide : (0 : Nat) < 2 ^ 32)
theorem gangStart (launch : Nat) : Statement (.gangStart launch) := (by decide : (0 : Nat) < 2 ^ 32)
theorem launchComplete (q : Nat) : Statement (.launchComplete q) := (by decide : (0 : Nat) < 2 ^ 32)
theorem queueSwitchIn (q : Nat) : Statement (.queueSwitchIn q) := (by decide : (0 : Nat) < 2 ^ 32)
theorem queueSwitchOut (q : Nat) : Statement (.queueSwitchOut q) := (by decide : (0 : Nat) < 2 ^ 32)
theorem tailWrite (q : Nat) (v : W64) : Statement (.tailWrite q v) := (by decide : (0 : Nat) < 2 ^ 32)
theorem enqueueWindowWrite (q : Nat) (off : Nat) (data : List Byte) : Statement (.enqueueWindowWrite q off data) := (by decide : (0 : Nat) < 2 ^ 32)
theorem fabricRecord (src : Nat) (q : Nat) (off : Nat) (data : List Byte) (enq : Bool) : Statement (.fabricRecord src q off data enq) := (by decide : (0 : Nat) < 2 ^ 32)
theorem hostRead (off : Nat) (n : Nat) : Statement (.hostRead off n) := (by decide : (0 : Nat) < 2 ^ 32)
theorem hostWrite (off : Nat) (data : List Byte) : Statement (.hostWrite off data) := (by decide : (0 : Nat) < 2 ^ 32)
theorem asqtail (v : W64) : Statement (.asqtail v) := (by decide : (0 : Nat) < 2 ^ 32)
theorem adminRingBaseWrite (acq : Bool) (v : W64) : Statement (.adminRingBaseWrite acq v) := (by decide : (0 : Nat) < 2 ^ 32)
theorem registerWrite (off : Nat) (v : W64) : Statement (.registerWrite off v) := (by decide : (0 : Nat) < 2 ^ 32)
theorem ctxCreate (cmd : AdminCmd) : Statement (.ctxCreate cmd) := (by decide : (0 : Nat) < 2 ^ 32)
theorem ctxDestroy (cmd : AdminCmd) : Statement (.ctxDestroy cmd) := (by decide : (0 : Nat) < 2 ^ 32)
theorem qCreate (cmd : AdminCmd) : Statement (.qCreate cmd) := (by decide : (0 : Nat) < 2 ^ 32)
theorem qBind (cmd : AdminCmd) : Statement (.qBind cmd) := (by decide : (0 : Nat) < 2 ^ 32)
theorem qArm (cmd : AdminCmd) : Statement (.qArm cmd) := (by decide : (0 : Nat) < 2 ^ 32)
theorem qDestroy (cmd : AdminCmd) : Statement (.qDestroy cmd) := (by decide : (0 : Nat) < 2 ^ 32)
theorem memMap (cmd : AdminCmd) : Statement (.memMap cmd) := (by decide : (0 : Nat) < 2 ^ 32)
theorem memUnmap (cmd : AdminCmd) : Statement (.memUnmap cmd) := (by decide : (0 : Nat) < 2 ^ 32)
theorem codeLoad (cmd : AdminCmd) : Statement (.codeLoad cmd) := (by decide : (0 : Nat) < 2 ^ 32)
theorem kvPool (cmd : AdminCmd) : Statement (.kvPool cmd) := (by decide : (0 : Nat) < 2 ^ 32)
theorem kvReserve (cmd : AdminCmd) : Statement (.kvReserve cmd) := (by decide : (0 : Nat) < 2 ^ 32)
theorem limits (cmd : AdminCmd) : Statement (.limits cmd) := (by decide : (0 : Nat) < 2 ^ 32)
theorem carousel (cmd : AdminCmd) : Statement (.carousel cmd) := (by decide : (0 : Nat) < 2 ^ 32)
theorem attest (cmd : AdminCmd) : Statement (.attest cmd) := (by decide : (0 : Nat) < 2 ^ 32)
theorem journalRead (cmd : AdminCmd) : Statement (.journalRead cmd) := (by decide : (0 : Nat) < 2 ^ 32)
theorem clusterReset (cmd : AdminCmd) : Statement (.clusterReset cmd) := (by decide : (0 : Nat) < 2 ^ 32)
theorem telemetry (cmd : AdminCmd) : Statement (.telemetry cmd) := (by decide : (0 : Nat) < 2 ^ 32)
theorem residencyReport : Statement .residencyReport := (by decide : (0 : Nat) < 2 ^ 32)
theorem uncorrectableError (u : StorageUnit) : Statement (.uncorrectableError u) := (by decide : (0 : Nat) < 2 ^ 32)
theorem correctedError : Statement .correctedError := (by decide : (0 : Nat) < 2 ^ 32)
theorem coldReset : Statement .coldReset := (by decide : (0 : Nat) < 2 ^ 32)
theorem warmReset : Statement .warmReset := (by decide : (0 : Nat) < 2 ^ 32)
theorem devassign (v : W64) : Statement (.devassign v) := (by decide : (0 : Nat) < 2 ^ 32)
theorem pStateChange (n : Nat) : Statement (.pStateChange n) := (by decide : (0 : Nat) < 2 ^ 32)
theorem powerCapExceeded : Statement .powerCapExceeded := (by decide : (0 : Nat) < 2 ^ 32)
theorem powerCapRecover : Statement .powerCapRecover := (by decide : (0 : Nat) < 2 ^ 32)
theorem thermalThrottle : Statement .thermalThrottle := (by decide : (0 : Nat) < 2 ^ 32)
theorem thermalRecover : Statement .thermalRecover := (by decide : (0 : Nat) < 2 ^ 32)
theorem thermtrip : Statement .thermtrip := (by decide : (0 : Nat) < 2 ^ 32)
theorem illegalInstruction (sec : CodeSection) (w : W32) : Statement (.illegalInstruction sec w) := (by decide : (0 : Nat) < 2 ^ 32)
theorem fetchFault (c : Nat) : Statement (.fetchFault c) := (by decide : (0 : Nat) < 2 ^ 32)
theorem probeAnswer (k : Nat) : Statement (.probeAnswer k) := (by decide : (0 : Nat) < 2 ^ 32)
theorem fabricAnswer (c : Nat) (r : FabricReply) : Statement (.fabricAnswer c r) := (by decide : (0 : Nat) < 2 ^ 32)
theorem perstRelease : Statement .perstRelease := (by decide : (0 : Nat) < 2 ^ 32)
theorem jtagDebugger (c : Nat) (act : DebugAct) : Statement (.jtagDebugger c act) := (by decide : (0 : Nat) < 2 ^ 32)

end EncodesInAWord

end Sys2Proof.Laws
end

