-- ==== Sys2Proof/Tests/Slice0.lean ====
section
/-! SUPPORT. Slice0.lean: tests: ill-formed terms, words written out from the spec's encodings, and single steps whose results are the
spec's own examples or worked out from its rules by hand. -/

namespace Sys2Proof.Tests

open Sys2Proof.Machine

/-! ### Ill-formed terms: one for each check of WellFormed -/

theorem test_ill_formed_sequencer :
    [Instr.pause 0, .extImm 1 2 false 60 4, .insImm 1 2 63 1, .fcvt 1 2 .i32 (.mode .rne) .n64, .fcvt 1 2 .i8 (.mode .rne) .f32,
      .fcvt 1 2 .f32 (.mode .rne) .q4b, .loop 1 0, .loopImm 1 0, .lidx 1 6, .ninit 1 2 0].all (fun i => !i.wf) = true := by decide

theorem test_ill_formed_vector :
    [Instr.vsel 1 2 3 0, .vcmp 0 1 2 false false .eq, .vcmp 1 1 2 true true .eq, .mand 0 1 1, .mand 1 0 1, .mand 1 1 0, .mor 0 1 1,
      .mor 1 0 1, .mor 1 1 0, .mnot 0 1, .mnot 1 0, .mpopc 0 0, .mfirst 0 0, .vcvt 1 2 .i64 0 .f32, .vcvt 1 2 .f32 0 .t3,
      .vrmin 0 1 0 false true true, .vrmax 0 1 0 false true true, .vshape 0 .w8, .vshape 257 .w8, .vshape 129 .w16,
      .vshape 65 .w32].all (fun i => !i.wf) = true := by decide

/-- A step word's token field with no token. -/
def noTok : Tok := ⟨false, false, false, false⟩

theorem test_ill_formed_steps :
    [Instr.mwld noTok 1 .f32 false, .mwld noTok 1 .bf16 true, .mstrm noTok 1 .t3, .mmac noTok 0 63 1 0, .mzero noTok 0 63 1 false,
      .mdrainMem noTok 0 63 1 .f32 false 0, .mdrainAcc noTok 0 1 1 .n8 false 0, .mdrainStr noTok 0 1 1 .q4b false 0, .mloop noTok 0 1,
      .mloop noTok 1 0, .mloopReg noTok 1 0, .xcopy noTok (.stream 1) (.stream 2) 0 false false, .xgath noTok 0 (.stream 1) 0 0 9,
      .xgathC noTok 0 (.stream 1) 0 9, .xscat noTok (.stream 1) 0 0 0 9, .xscatC noTok (.stream 1) 0 0 9, .xloop noTok 0 1,
      .xloop noTok 1 0, .xloopReg noTok 0 0].all (fun i => !i.wf) = true := by decide

theorem test_ill_formed_events :
    [Instr.pauseEnd 1024, .loadDataReturn 1024 0, .ringmasterSelect 2, .barkerLaunch 0 64, .barkerWindowExpiry 2 0, .attnCommandRun 2 0,
      .aqueryWaitEnd 2 0, .mwldLoadDone 256 0, .mwldLoadDone 0 2, .tileTaskIssue 256, .jtagDebugger 1024 .resume].all (fun i => !i.wf) = true := by
  decide

/-! ### Words of the spec's own examples -/

/-- Each word is read as its instruction. -/
noncomputable def decodesAs (sec : CodeSection) (l : List (Nat × Instr)) : Bool :=
  l.all fun p => match decode sec p.1 with | .ok i => decide (i = p.2) | .error _ => false

theorem test_examples_sequencer : decodesAs .sq [
    (0x40C50500, .fkey 6 5), (0x78000000, .wait 0 0 0 0), (0x78000200, .wait 0 0 2 0), (0xE0A00010, .csrr 5 0x010),
    (0x88A30010, .ldw 5 3 8), (0x88A30011, .ldwn 5 3 8), (0x9CC2FFE0, .std 6 2 (BitVec.ofInt 15 (-16))), (0xA8A00003, .phase 5 .p),
    (0xA8000082, .fence .d), (0xA0A638AB, .amoAdd 5 6 7 true .acq .p), (0xA1064C91, .cas 8 6 9 false .rel .k),
    (0xA4063982, .updAddF32 6 7 .d), (0xACA63821, .waita 5 6 7 true .k), (0xB0A63981, .barwait 5 6 7 .k), (0xB4642800, .enq 3 4 5),
    (0xC0A60000, .treeNew 5 6), (0xC0A63880, .spawn 5 6 7), (0xC0A60100, .pick 5 6), (0xC0060180, .done 6), (0xC0063A00, .join 6 7),
    (0xC0A63AC0, .reprioSub 5 6 7), (0xC0A60380, .cancelHard 5 6), (0xC406388A, .ninit 6 7 0b1010), (0xC4A60102, .nrd 5 6 2),
    (0xC4063A00, .nback 6 7), (0xC4A60300, .nsel 5 6), (0xC8A63800, .bcfg 5 6 7), (0xC8A63880, .bsub 5 6 7),
    (0xC8A60100, .bclose 5 6)] = true := by decide

theorem test_examples_vector : decodesAs .vec [
    (0x04853200, .vadd 4 5 6 2 false false), (0x08221800, .vfadd 1 2 3 0 (.mode .rne)), (0x08E84924, .vfma 7 8 9 1 (.mode .sr)),
    (0x0C221802, .vcmp 1 2 3 false false .lt), (0x10414009, .vcvt 2 1 .f32 0 .bf16), (0x10410060, .vunpk3 2 1 0),
    (0x11095083, .vtacc 8 9 10 0 3), (0x18030040, .vrfsum 0 3 0), (0x182700B0, .vrmin 1 7 0 true true false),
    (0x1C601002, .vld 3 2 0 2), (0x20050301, .vpushc 5 3 1), (0x20430040, .vpopf 2 3 0), (0x20000080, .vstat 0 false 0),
    (0x24C42802, .vlkup 6 4 5 0 2), (0x28200002, .vrand 1 0 2), (0x28040083, .vrskip 4 3), (0x2C020002, .vshape 64 .w32),
    (0x2C064000, .vshape 200 .w8), (0xF8000000, .vend)] = true := by decide

theorem test_examples_steps :
    decodesAs .mx [
      (0x080EC000, .mwld noTok 3 .e4m3 false), (0x08080000, .mwld noTok 2 .i8 false), (0x10000000, .mswap noTok),
      (0x180C0000, .mstrm noTok 3 .i8), (0x20000200, .mmac noTok 0 0 1 0), (0x20207E20, .mmac noTok 1 0 63 1),
      (0x28000300, .mzero noTok 0 0 1 true), (0x30000204, .mdrainMem noTok 0 0 1 .i8 true 0),
      (0x30440F09, .mdrainAcc noTok 2 8 7 .f32 false 1), (0x38002003, .mloop noTok 8 3), (0x401C0000, .mwaitb noTok 3 true)] = true ∧
    decodesAs .xf [(0x20040200, .xfill noTok (.stream 2) 0 1 false), (0x40480001, .xloopReg noTok 2 1)] = true := by decide

/-- Words that no table assigns, and words with an illegal operand, are refused by name (R41). -/
theorem test_refused_words :
    (∀ sec : CodeSection, decode sec 0xFFFFFFFF = .error .neverAssigned) ∧
    decode .sq 0x00000002 ≠ .ok (.pause 0) ∧ decode .sq 0xA8000006 ≠ .ok (.phase 0 .x) := by
  refine ⟨fun sec => by cases sec <;> rfl, by decide, by decide⟩

/-! ### One word of every instruction, its operands all different -/

theorem test_decode_sequencer_1 : decodesAs .sq [
    (0x00000000, .nop),
    (0x00000001, .yield),
    (0x0000B582, .pause 726),
    (0x00000003, .halt),
    (0x0000B584, .trap 726),
    (0x00000005, .tret),
    (0x0000B586, .bkpt 726),
    (0x00000007, .iflush)] = true := by decide

theorem test_decode_sequencer_2 : decodesAs .sq [
    (0x06AD3800, .add 21 13 7),
    (0x06AD3820, .sub 21 13 7),
    (0x06AD3840, .mul 21 13 7),
    (0x06AD3860, .mulh 21 13 7),
    (0x06AD3880, .div 21 13 7),
    (0x06AD38A0, .divn 21 13 7),
    (0x06AD38C0, .rem 21 13 7),
    (0x06AD38E0, .remn 21 13 7),
    (0x06AD3900, .and 21 13 7),
    (0x06AD3920, .or 21 13 7),
    (0x06AD3940, .xor 21 13 7),
    (0x06AD3960, .andn 21 13 7),
    (0x06AD3980, .shl 21 13 7),
    (0x06AD39A0, .shr 21 13 7),
    (0x06AD39C0, .sar 21 13 7),
    (0x06AD39E0, .min 21 13 7),
    (0x06AD3A00, .max 21 13 7),
    (0x06AD3A20, .minn 21 13 7),
    (0x06AD3A40, .maxn 21 13 7),
    (0x06AD3A60, .slt 21 13 7),
    (0x06AD3A80, .sltn 21 13 7),
    (0x06AD3AA0, .seq 21 13 7),
    (0x06AD3ADA, .sel 21 13 7 26),
    (0x06AD02E0, .clz 21 13),
    (0x06AD0300, .ctz 21 13),
    (0x06AD0320, .popc 21 13),
    (0x06AD3B40, .ext 21 13 7),
    (0x06AD3B60, .ins 21 13 7)] = true := by decide

theorem test_decode_sequencer_3 : decodesAs .sq [
    (0x0AAD72D6, .addImm 21 13 29398),
    (0x0EAD72D6, .mulImm 21 13 29398),
    (0x12AD72D6, .andImm 21 13 29398),
    (0x16AD72D6, .orImm 21 13 29398),
    (0x1AAD72D6, .xorImm 21 13 29398),
    (0x1EAD0016, .shlImm 21 13 22),
    (0x1EAD0056, .shrImm 21 13 22),
    (0x1EAD0096, .sarImm 21 13 22),
    (0x22AD72D6, .sltImm 21 13 29398),
    (0x26AD72D6, .sltnImm 21 13 29398),
    (0x2AAD72D6, .seqImm 21 13 29398),
    (0x2EAD32D6, .minImm 21 13 13014),
    (0x2EAD72D6, .maxImm 21 13 13014),
    (0x2EADB2D6, .minnImm 21 13 13014),
    (0x2EADF2D6, .maxnImm 21 13 13014),
    (0x32AD1953, .extImm 21 13 true 37 19)] = true := by decide

theorem test_decode_sequencer_4 : decodesAs .sq [
    (0x36AD0953, .insImm 21 13 37 19),
    (0x3AA672D6, .lim 21 true 2 29398),
    (0x42AD3838, .fadd 21 13 7 (.mode .rup) .f16),
    (0x42AD38B8, .fsub 21 13 7 (.mode .rup) .f16),
    (0x42AD3938, .fmul 21 13 7 (.mode .rup) .f16),
    (0x42AD39B8, .fdiv 21 13 7 (.mode .rup) .f16),
    (0x42AD0238, .fsqrt 21 13 (.mode .rup) .f16),
    (0x42AD3AB8, .ffma 21 13 7 (.mode .rup) .f16),
    (0x42AD3B08, .fmin 21 13 7 .f16),
    (0x42AD3B88, .fmax 21 13 7 .f16),
    (0x42AD3C48, .fcmp 21 13 7 .gt .f16),
    (0x42AD3CBA, .fcvt 21 13 .n64 (.mode .rup) .f16),
    (0x42AD0500, .fkey 21 13),
    (0x46AD72D6, .beq 21 13 29398),
    (0x4AAD72D6, .bne 21 13 29398),
    (0x4EAD72D6, .blt 21 13 29398)] = true := by decide

theorem test_decode_sequencer_5 : decodesAs .sq [
    (0x52AD72D6, .bge 21 13 29398),
    (0x56AD72D6, .bltn 21 13 29398),
    (0x5AAD72D6, .bgen 21 13 29398),
    (0x600372D6, .j 226006),
    (0x640372D6, .jl 226006),
    (0x68150000, .jr 21),
    (0x6AAD0080, .jlr 21 13),
    (0x6EA000D6, .loop 21 214),
    (0x6C12D6D6, .loopImm 726 214),
    (0x70000000, .lbrk),
    (0x70150080, .lbrkSq 21),
    (0x72A00105, .lidx 21 5),
    (0x70AD0180, .lset 5 13),
    (0x70AD01C0, .lsetAdd 5 13)] = true := by decide

theorem test_decode_sequencer_6 : decodesAs .sq [
    (0x741572D6, .vrun 21 29398),
    (0x751572D6, .xrun 21 29398),
    (0x761572D6, .mtask 21 29398),
    (0x79659658, .wait 22 22 22 22),
    (0x7EA00002, .vget 21 2),
    (0x7EAD0080, .slack 21 13),
    (0x7EAD0100, .bankm 21 13),
    (0x82ADE5AC, .ldb 21 13 29398),
    (0x82ADE5AD, .ldbn 21 13 29398),
    (0x86ADE5AC, .ldh 21 13 29398),
    (0x86ADE5AD, .ldhn 21 13 29398),
    (0x8AADE5AC, .ldw 21 13 29398),
    (0x8AADE5AD, .ldwn 21 13 29398),
    (0x8EADE5AC, .ldd 21 13 29398),
    (0x92ADE5AC, .stb 21 13 29398),
    (0x96ADE5AC, .sth 21 13 29398)] = true := by decide

theorem test_decode_sequencer_7 : decodesAs .sq [
    (0x9AADE5AC, .stw 21 13 29398),
    (0x9EADE5AC, .std 21 13 29398),
    (0xA2AD382B, .amoSwap 21 13 7 true .acq .p),
    (0xA2AD38AB, .amoAdd 21 13 7 true .acq .p),
    (0xA2AD392B, .amoAnd 21 13 7 true .acq .p),
    (0xA2AD39AB, .amoOr 21 13 7 true .acq .p),
    (0xA2AD3A2B, .amoXor 21 13 7 true .acq .p),
    (0xA2AD3AAB, .amoMin 21 13 7 true .acq .p),
    (0xA2AD3B2B, .amoMax 21 13 7 true .acq .p),
    (0xA2AD3BAB, .amoMinn 21 13 7 true .acq .p),
    (0xA2AD3C2B, .amoMaxn 21 13 7 true .acq .p),
    (0xA2AD3CAB, .cas 21 13 7 true .acq .p)] = true := by decide

theorem test_decode_sequencer_8 : decodesAs .sq [
    (0xA4156883, .updAddI32 21 13 .p),
    (0xA4156903, .updAddI64 21 13 .p),
    (0xA4156983, .updAddF32 21 13 .p),
    (0xA4156A03, .updAddBf16x2 21 13 .p),
    (0xA4156A83, .updMaxI32 21 13 .p),
    (0xA4156B03, .updMinI32 21 13 .p),
    (0xA4156B83, .updMaxN32 21 13 .p),
    (0xA4156C03, .updMinN32 21 13 .p),
    (0xA4156C83, .updMaxF32 21 13 .p),
    (0xA4156D03, .updMinF32 21 13 .p),
    (0xA4156D83, .updOr 21 13 .p),
    (0xA4156E03, .updAnd 21 13 .p),
    (0xA4156E83, .updXor 21 13 .p),
    (0xAAA00003, .phase 21 .p),
    (0xA8000083, .fence .p)] = true := by decide

theorem test_decode_sequencer_9 : decodesAs .sq [
    (0xAEAD3823, .waita 21 13 7 true .p),
    (0xAC156880, .pfhL1 21 13),
    (0xAC156881, .pfhL2 21 13),
    (0xAC156900, .rsdKeep 21 13),
    (0xAC156901, .rsdLow 21 13),
    (0xAC156902, .rsdClean 21 13),
    (0xB0156803, .barinit 21 13 .p),
    (0xB0156883, .barexp 21 13 .p),
    (0xB2AD3903, .bararr 21 13 7 .p),
    (0xB2AD3983, .barwait 21 13 7 .p),
    (0xB2AD3A03, .bartest 21 13 7 .p),
    (0xB6AD3800, .enq 21 13 7),
    (0xB6AD0080, .waitq 21 13),
    (0xB6AD3900, .dq 21 13 7)] = true := by decide

theorem test_decode_sequencer_10 : decodesAs .sq [
    (0xC2AD0000, .treeNew 21 13),
    (0xC2AD0001, .treeClose 21 13),
    (0xC2AD0002, .treeKill 21 13),
    (0xC2AD3880, .spawn 21 13 7),
    (0xC2AD0100, .pick 21 13),
    (0xC0150180, .done 21),
    (0xC0156A00, .join 21 13),
    (0xC2AD3A80, .reprio 21 13 7),
    (0xC2AD3AC0, .reprioSub 21 13 7),
    (0xC2AD0300, .cancelSoft 21 13),
    (0xC2AD0380, .cancelHard 21 13),
    (0xC2AD0440, .tstat 21 13 true)] = true := by decide

theorem test_decode_sequencer_11 : decodesAs .sq [
    (0xC6AD3800, .nalloc 21 13 7),
    (0xC6AD3840, .nallocFree 21 13 7),
    (0xC415688A, .ninit 21 13 10),
    (0xC6AD0102, .nrd 21 13 2),
    (0xC4156980, .nvl 21 13),
    (0xC4156A00, .nback 21 13),
    (0xC4156A80, .nbackAlt 21 13),
    (0xC6AD0300, .nsel 21 13),
    (0xCAAD3800, .bcfg 21 13 7),
    (0xCAAD3880, .bsub 21 13 7),
    (0xCAAD0100, .bclose 21 13)] = true := by decide

theorem test_decode_sequencer_12 : decodesAs .sq [
    (0xD2AD3800, .aconfig 21 13 7),
    (0xD2AD3880, .ktload 21 13 7),
    (0xD2AD38C0, .ktloadSt 21 13 7),
    (0xD2AD0100, .ktlock 21 13),
    (0xD2AD0140, .ktlockUn 21 13),
    (0xD2AD0180, .kappend 21 13),
    (0xD0150200, .aquery 21),
    (0xD0150240, .aqueryLoose 21),
    (0xD2AD3A80, .ksplice 21 13 7),
    (0xD0150300, .krepairSel 21),
    (0xD0150340, .krepairPut 21),
    (0xD2AD0380, .krstatSeq 21 13),
    (0xD2AD3B81, .krstatSpan 21 13 7),
    (0xD2AD3B82, .krstatDelta 21 13 7),
    (0xD2AD0383, .krstatPool 21 13)] = true := by decide

theorem test_decode_sequencer_13 : decodesAs .sq [
    (0xD6AD3800, .kalloc 21 13 7),
    (0xD6AD0080, .kfree 21 13),
    (0xD6AD38C0, .kfreeEnt 21 13 7),
    (0xD6AD0100, .kfork 21 13),
    (0xD6AD0180, .kreclaim 21 13),
    (0xE2A002D6, .csrr 21 726),
    (0xE2AD42D6, .csrw 21 13 726),
    (0xE2AD82D6, .csrs 21 13 726),
    (0xE2ADC2D6, .csrc 21 13 726)] = true := by decide

theorem test_decode_vector_1 : decodesAs .vec [
    (0x06AD3D06, .vadd 21 13 7 5 true true),
    (0x06AD3D0E, .vsub 21 13 7 5 true true),
    (0x06AD3D16, .vmul 21 13 7 5 true true),
    (0x06AD3D1C, .vmulh 21 13 7 5 true),
    (0x06AD3D24, .vmin 21 13 7 5 true),
    (0x06AD3D2C, .vmax 21 13 7 5 true),
    (0x06AD3D30, .vand 21 13 7 5),
    (0x06AD3D38, .vor 21 13 7 5),
    (0x06AD3D40, .vxor 21 13 7 5),
    (0x06AD3D4E, .vshl 21 13 7 5 true true),
    (0x06AD3D50, .vshr 21 13 7 5),
    (0x06AD3D58, .vsar 21 13 7 5),
    (0x06AD0662, .vabs 21 13 6 true),
    (0x06AD066A, .vneg 21 13 6 true),
    (0x06AD3D70, .vsel 21 13 7 5)] = true := by decide

theorem test_decode_vector_2 : decodesAs .vec [
    (0x0AAD3D03, .vfadd 21 13 7 5 (.mode .rup)),
    (0x0AAD3D0B, .vfsub 21 13 7 5 (.mode .rup)),
    (0x0AAD3D13, .vfmul 21 13 7 5 (.mode .rup)),
    (0x0AAD3D1B, .vfdiv 21 13 7 5 (.mode .rup)),
    (0x0AAD3D23, .vfma 21 13 7 5 (.mode .rup)),
    (0x0AAD062B, .vfsqrt 21 13 6 (.mode .rup)),
    (0x0AAD3D30, .vfmin 21 13 7 5),
    (0x0AAD3D38, .vfmax 21 13 7 5),
    (0x0AAD0640, .vfexp2 21 13 6),
    (0x0AAD064B, .vfrcp 21 13 6 (.mode .rup)),
    (0x0CAD3814, .vcmp 5 13 7 true false .gt),
    (0x0CA33020, .mand 5 3 6),
    (0x0CA33040, .mor 5 3 6),
    (0x0CA30060, .mnot 5 3),
    (0x0C430080, .mpopc 2 3),
    (0x0C4300A0, .mfirst 2 3)] = true := by decide

theorem test_decode_vector_3 : decodesAs .vec [
    (0x12AD350B, .vcvt 21 13 .n32 5 .e4m3),
    (0x12AD0020, .vqenc 21 13),
    (0x12AD0040, .vqdec 21 13),
    (0x12AD0660, .vunpk3 21 13 6),
    (0x12AD3D96, .vtacc 21 13 7 5 22),
    (0x16AD3D00, .vperm 21 13 7 5),
    (0x16AD3D56, .vslide 21 13 7 5 22),
    (0x16AD0696, .vbcast 21 13 6 22),
    (0x16A003D6, .viota 21 3 22),
    (0x184D0610, .vrsum 2 13 6 true),
    (0x184D0640, .vrfsum 2 13 6),
    (0x184D06B0, .vrmin 2 13 6 true true false),
    (0x184D06F0, .vrmax 2 13 6 true true false)] = true := by decide

theorem test_decode_vector_4 : decodesAs .vec [
    (0x1EA05E16, .vld 21 11 6 22),
    (0x1EA05E36, .vst 21 11 6 22),
    (0x1EAB3556, .vlds 21 11 6 5 22),
    (0x1EAB3576, .vsts 21 11 6 5 22),
    (0x1EAD3596, .vgath 21 13 6 5 22),
    (0x1EAD35B6, .vscat 21 13 6 5 22),
    (0x20150305, .vpushc 21 3 5),
    (0x22AD0045, .vpopf 21 13 5),
    (0x20410085, .vstat 2 true 5),
    (0x26AD3D0D, .vlkup 21 13 7 5 13),
    (0x2AA00302, .vrand 21 3 2),
    (0x2AAD0042, .vrseed 21 13 2),
    (0x28150082, .vrskip 21 2),
    (0x2C012801, .vshape 37 .w16),
    (0xF8000000, .vend)] = true := by decide

theorem test_decode_matrix_1 : decodesAs .mx [
    (0x0D5B2000, .mwld ⟨true, false, true, false⟩ 22 .e5m2 true),
    (0x15000000, .mswap ⟨true, false, true, false⟩),
    (0x1D5B4000, .mstrm ⟨true, false, true, false⟩ 22 .q4b),
    (0x2552A6C0, .mmac ⟨true, false, true, false⟩ 2 37 19 6),
    (0x2D52A700, .mzero ⟨true, false, true, false⟩ 2 37 19 true),
    (0x3552A726, .mdrainMem ⟨true, false, true, false⟩ 2 37 19 .bf16 true 2),
    (0x3552A72E, .mdrainAcc ⟨true, false, true, false⟩ 2 37 19 .bf16 true 2),
    (0x3552A736, .mdrainStr ⟨true, false, true, false⟩ 2 37 19 .bf16 true 2),
    (0x3D0B5AD6, .mloop ⟨true, false, true, false⟩ 726 726),
    (0x3D6C02D6, .mloopReg ⟨true, false, true, false⟩ 11 726),
    (0x455C0000, .mwaitb ⟨true, false, true, false⟩ 11 true),
    (0xF5000000, .mend ⟨true, false, true, false⟩)] = true := by decide

theorem test_decode_transfer_1 : decodesAs .xf [
    (0x0D52B4E0, .xcopy ⟨true, false, true, false⟩ (.mem 9) (.stream 22) 9 true true),
    (0x155AD3AD, .xgath ⟨true, false, true, false⟩ 11 (.stream 22) 9 13 6),
    (0x155AC12C, .xgathC ⟨true, false, true, false⟩ 11 (.stream 22) 9 6),
    (0x1D2CD3AD, .xscat ⟨true, false, true, false⟩ (.stream 22) 6 9 13 6),
    (0x1D2CC12C, .xscatC ⟨true, false, true, false⟩ (.stream 22) 6 9 6),
    (0x252CD300, .xfill ⟨true, false, true, false⟩ (.stream 22) 6 9 true),
    (0x2D2CD2EB, .xred ⟨true, false, true, false⟩ (.stream 22) 6 9 .maxN32 5 true),
    (0x352DAD30, .xsend ⟨true, false, true, false⟩ (.stream 22) 214 9 true),
    (0x3D2DAD30, .xrecv ⟨true, false, true, false⟩ (.stream 22) 214 9 true),
    (0x450B5AD6, .xloop ⟨true, false, true, false⟩ 726 726),
    (0x456C02D6, .xloopReg ⟨true, false, true, false⟩ 11 726),
    (0x4D5C0000, .xwaitb ⟨true, false, true, false⟩ 11 true),
    (0xF5000000, .xend ⟨true, false, true, false⟩)] = true := by decide

/-! ### One step each, its expected result from the rule named -/

/-- A strand of context 1 at 0x8000 with a handler at 0x10000; g3 = a, g4 = b, g5 = 7. -/
def tCore (a b : W64) : Core :=
  { Core.reset 0 with ctx := some 1, seq := .run, pc := 0x8000, tvec := 0x10000, g := ((Vector.replicate 32 0).set 3 a |>.set 4 b).set 5 7 }

def tState (a b : W64) : State := State.reset.upd (tCore a b)

/-- A register after an instruction that answers a next state. -/
def tReg (i : Instr) (r : Reg) (s : State) : Option W64 := match exec i s with | .next t => some (t.core.getG r) | _ => none

/-- The address after it. -/
def tPc (i : Instr) (s : State) : Option W64 := match exec i s with | .next t => some t.core.pc | _ => none

/-- The cause, value and saved address of bank 0 after it, and the address. -/
def tTrap (i : Instr) (s : State) : Option (W64 × W64 × W64 × W64) := match exec i s with
  | .next t => some (t.core.bank0.ecause, t.core.bank0.eval, t.core.bank0.epc, t.core.pc)
  | _ => none

/-- R58: results wrap to 64 bits. -/
theorem test_add_wraps : tReg (.add 6 3 5) 6 (tState 0xFFFFFFFFFFFFFFFE 0) = some 5 := by decide

/-- R58: MULH of −1 and 7 is the high half of −7. -/
theorem test_mulh_signed : tReg (.mulh 6 3 5) 6 (tState 0xFFFFFFFFFFFFFFFF 0) = some 0xFFFFFFFFFFFFFFFF := by decide

/-- R59: the divisor 0, and −2^63 by −1. -/
theorem test_div_corners :
    tReg (.div 6 3 0) 6 (tState 9 0) = some 0xFFFFFFFFFFFFFFFF ∧ tReg (.rem 6 3 0) 6 (tState 9 0) = some 9 ∧
    tReg (.div 6 3 4) 6 (tState 0x8000000000000000 0xFFFFFFFFFFFFFFFF) = some 0x8000000000000000 ∧
    tReg (.rem 6 3 4) 6 (tState 0x8000000000000000 0xFFFFFFFFFFFFFFFF) = some 0 := by decide

/-- R59: −7 divided by 2 rounds towards zero, the remainder has the dividend's sign. -/
theorem test_div_rounds_to_zero :
    tReg (.div 6 3 4) 6 (tState 0xFFFFFFFFFFFFFFF9 2) = some 0xFFFFFFFFFFFFFFFD ∧ tReg (.rem 6 3 4) 6 (tState 0xFFFFFFFFFFFFFFF9 2) = some 0xFFFFFFFFFFFFFFFF := by
  decide

/-- R58: a shift amount takes b[5:0]. -/
theorem test_shift_amount : tReg (.shl 6 5 3) 6 (tState 65 0) = some 14 ∧ tReg (.sar 6 4 3) 6 (tState 63 0x8000000000000000) = some 0xFFFFFFFFFFFFFFFF := by decide

/-- R60: EXT.i64 of four bits whose top one is set, and a register field cut at bit 63. -/
theorem test_ext_signed :
    tReg (.extImm 6 3 true 4 3) 6 (tState 0xF0 0) = some 0xFFFFFFFFFFFFFFFF ∧ tReg (.ext 6 3 4) 6 (tState 0xF000000000000000 0xF3F) = some 0xF := by decide

/-- R61: the three words that build 0x8009_1800_0000_1000. -/
theorem test_lim_lanes :
    tReg (.lim 5 false 0 0x1000) 5 (tState 0 0) = some 0x1000 ∧ tReg (.lim 3 true 2 0x1800) 3 (tState 0x1000 0) = some 0x180000001000 ∧
    tReg (.lim 3 true 3 0x8009) 3 (tState 0x180000001000 0) = some 0x8009180000001000 := by decide

/-- R66: the keys of −1.5, 2.0, −0 and +0. -/
theorem test_fkey_examples :
    tReg (.fkey 6 3) 6 (tState 0xBFC00000 0) = some 0x403FFFFF ∧ tReg (.fkey 6 3) 6 (tState 0x40000000 0) = some 0xC0000000 ∧
    tReg (.fkey 6 3) 6 (tState 0x80000000 0) = some 0x7FFFFFFF ∧ tReg (.fkey 6 3) 6 (tState 0 0) = some 0x80000000 := by decide

/-- R62, R63: 1.0 / 0.0 is +∞ with no flag, 0/0 the canonical NaN, √−0 = −0. -/
theorem test_float_corners :
    tReg (.fdiv 6 3 4 (.mode .rne) .f32) 6 (tState 0x3F800000 0) = some 0x7F800000 ∧ tReg (.fdiv 6 3 4 (.mode .rne) .f32) 6 (tState 0 0) = some 0x7FC00000 ∧
    tReg (.fsqrt 6 3 (.mode .rne) .f32) 6 (tState 0x80000000 0) = some 0x80000000 := by decide

/-- R65: 300.5 to i32 under RTZ is 300; 2^31 as f32 is beyond i32. -/
theorem test_fcvt_to_integer :
    tReg (.fcvt 6 3 .f32 (.mode .rtz) .i32) 6 (tState 0x43964000 0) = some 300 ∧
    tReg (.fcvt 6 3 .f32 (.mode .rne) .i32) 6 (tState 0x4F000000 0) = some 0x7FFFFFFF := by decide

/-- R67: a signed and an unsigned comparison of −1 with 7; the target is in blocks (R37). -/
theorem test_branch_conditions :
    tPc (.blt 3 5 2) (tState 0xFFFFFFFFFFFFFFFF 0) = some 0x8080 ∧ tPc (.bltn 3 5 2) (tState 0xFFFFFFFFFFFFFFFF 0) = some 0x8004 := by decide

/-- R68: JLR links to the next block and jumps to the old value of a register that is also the link. -/
theorem test_jlr_link : tPc (.jlr 3 3) (tState 0x9000 0) = some 0x9000 ∧ tReg (.jlr 3 3) 3 (tState 0x9000 0) = some 0x8040 := by decide

/-- R57: a jump to a target that is not a block's start. -/
theorem test_jr_traps : tTrap (.jr 3) (tState 0x9001 0) = some (2, 0x9001, 0x8000, 0x10000) := by decide

/-- R70: a loop with count 0 goes past its body; BADOPND above 2^32 − 1. -/
theorem test_loop_counts :
    tPc (.loopImm 0 2) (tState 0 0) = some 0x80C0 ∧ tPc (.loopImm 3 2) (tState 0 0) = some 0x8040 ∧
    tTrap (.loop 3 1) (tState 0x100000000 0) = some (6, 0x100000000, 0x8000, 0x10000) := by decide

/-- R79: SLACK gives the previous settings; 17 is too much. -/
theorem test_slack : tReg (.slack 6 3) 6 (tState 0x210 0) = some 0 ∧ tTrap (.slack 6 3) (tState 17 0) = some (6, 17, 0x8000, 0x10000) := by decide

/-- R83: TRAP 5 saves the address after it. -/
theorem test_trap_saves_next : tTrap (.trap 5) (tState 0 0) = some (7, 5, 0x8004, 0x10000) := by decide

/-- R84: TRET outside a handler is illegal; at level 1 it goes to EPC0. -/
theorem test_tret :
    tTrap .tret (tState 0 0) = some (1, 5, 0x8000, 0x10000) ∧
    tPc .tret (State.reset.upd { tCore 0 0 with status := 0x28, bank0 := { TrapBank.reset with epc := 0x9004 } }) = some 0x9004 := by decide

/-- R44: CSRR of VSH after reset. -/
theorem test_csr_vsh : tReg (.csrr 6 0x011) 6 (tState 0 0) = some 0x102 := by decide

/-- A block that runs over vectors of n elements of 8, 16 or 32 bits (code 0, 1, 2), v1 = a and v2 = b. -/
def tVec (n code : Nat) (a b : Nat) : State :=
  State.reset.upd { tCore 0 0 with
    vsh := BitVec.ofNat 64 (4 * n + code), v := ((Vector.replicate 32 0).set 1 (BitVec.ofNat 2048 a)).set 2 (BitVec.ofNat 2048 b)
    vrun := some { cmd := { num := 0, addr := 0x8000, mask := 0, regs := Vector.replicate 16 0, rm := .rne, tag := [], started := true }
                   start := 0x8000, pc := 0x8000, flags := 0, seen := [], code := [] } }

/-- A vector register after a word, its bits below n. -/
def tV (i : Instr) (r : VReg) (n : Nat) (s : State) : Option Nat := match exec i s with | .next t => some (t.core.v[r].toNat % 2 ^ n) | _ => none

/-- R168: VSUB.n8.sat of 3 − 5 is 0, VABS.i8.sat of −128 is 127, VSHL.i16.sat of 0x4000 by 1 is 32,767. -/
theorem test_vector_saturation :
    tV (.vsub 3 1 2 0 true true) 3 8 (tVec 4 0 3 5) = some 0 ∧ tV (.vabs 3 1 0 true) 3 8 (tVec 4 0 0x80 0) = some 127 ∧
    tV (.vshl 3 1 2 0 false true) 3 16 (tVec 4 1 0x4000 1) = some 32767 := by decide +kernel

/-- R168: without saturation VABS of −128 gives it back; a shift by the width gives 0. -/
theorem test_vector_wraps : tV (.vabs 3 1 0 false) 3 8 (tVec 4 0 0x80 0) = some 0x80 ∧ tV (.vshr 3 1 2 0) 3 16 (tVec 4 1 0x4000 16) = some 0 := by decide +kernel

/-- R177: a slide by 1 over two elements joins the top of va to the bottom of vb. -/
theorem test_vslide_joins : tV (.vslide 3 1 2 0 1) 3 16 (tVec 2 0 0x0201 0x0403) = some 0x0302 := by decide +kernel

/-- R177: VIOTA from 5. -/
theorem test_viota_counts : tV (.viota 3 0 5) 3 24 (tVec 3 0 0 0) = some 0x070605 := by decide +kernel

/-- R49: the example block's scale 0x7C and special 0x4A: the codes of 1, −3, the special and 0.5 stand for 0.125, −0.375, 0.625 and 0.0625. -/
theorem test_q4b_example :
    (fun c => (Fmt.f32.round .rne 0 (match q4bValue c 0x7C 0x4A with | .fin n m e => { neg := n, m := m, e := e, sticky := false } | _ => { neg := false, m := 0, e := 0, sticky := false })).1)
      <$> [2, 13, 8, 1] = [0x3E000000, 0xBEC00000, 0x3F200000, 0x3D800000] := by decide +kernel

/-- R49: the digits 1, 0, −1, −1, 1 make the t3 byte 0xA7, and it gives them back. -/
theorem test_trit_example : tV (.vunpk3 3 1 0) 3 40 (tVec 5 0 0xA7 0) = some 0x01FFFF0001 := by decide +kernel

/-- R132: the scores of the three children of the worked example. -/
theorem test_nsel_scores :
    (fun (n, w, vl, p) => childScore (BitVec.ofNat 256 (p * 2 ^ 96 + vl * 2 ^ 64 + w * 2 ^ 32 + n)) 0x40000000 0x3E800000 0x3FC00000 0x3F800000)
      <$> [(2, 0x3F800000, 0, 0x3F00), (1, 0x3F400000, 1, 0x3E80), (0, 0, 0, 0x3E80)] = [0x3F800000, 0x3E000000, 0x3F800000] := by decide +kernel

/-- R49: words of the short program: ADD g3, g0, 100, then ADD g4, g3, g3, then BNE to the next block. -/
theorem test_short_program :
    tReg (.addImm 3 0 100) 3 (tState 0 0) = some 100 ∧ tReg (.add 4 3 3) 4 (tState 100 0) = some 200 ∧ tPc (.bne 4 0 1) (tState 100 200) = some 0x8040 ∧
    tPc (.jl 2) (tState 0 0) = some 0x8080 ∧ tReg (.jl 2) 1 (tState 0 0) = some 0x8040 := by decide

/-- R391, FIPS 202: SHAKE256 of the empty message. -/
theorem test_shake_empty : leBytes 32 (shake256 []).toNat =
    [0x46, 0xB9, 0xDD, 0x2B, 0x0B, 0xA8, 0x8D, 0x13, 0x23, 0x3B, 0x3F, 0xEB, 0x74, 0x3E, 0xEB, 0x24, 0x3F, 0xCD, 0x52, 0xEA, 0x62, 0xB8,
     0x1B, 0x82, 0xB5, 0x0C, 0x27, 0x64, 0x6E, 0xD5, 0x76, 0x2F] := by decide +kernel

end Sys2Proof.Tests
end

