-- ==== Sys2Proof/Tests/Witness.lean ====
section
/-! SUPPORT. Witness.lean: for each obligation with hypotheses, concrete states and operands that meet them, clause by clause, at the
boundaries of their ranges. -/

namespace Sys2Proof.Tests

open Sys2Proof.Machine Sys2Proof.Rules

set_option maxRecDepth 20000

/-! ### Small states -/

/-- Tables at 0x1000, 0x2000 and 0x3000 that map the first 2 MiB onto themselves for reading, writing and fetching. -/
def wMem : List Host.Cell := [(0x1000, 0x01), (0x1001, 0x20), (0x2000, 0x01), (0x2001, 0x30), (0x3000, 0x1F)]

/-- A context whose local and global addresses those tables map. -/
def wCtx : Context :=
  { id := 1, rootL := 0x1000, rootG := 0x1000, tvec := 0x10000, rngcfg := 0, stackBytes := 4096, stackBase := 0x100000, spillBytes := 0
    xrbase := 0, images := [], nextHandle := 1, limTrees := 4096, limClusters := 256, limSegs := 2 ^ 20, limNodes := 2 ^ 20, params := [] }

/-- A running strand of context 1 at 0x8000, with a handler; g3 = 0x8100, g4 = 0x12345, g5 = 7. -/
def wCore : Core :=
  { Core.reset 0 with
    ctx := some 1, seq := .run, pc := 0x8000, tvec := 0x10000
    g := ((((Vector.replicate 32 0).set 3 0x8100).set 4 0x12345).set 5 7).set 6 0x8000000000000000 }

def wBase : State := { State.reset with core := wCore, mem := wMem, contexts := [wCtx] }

/-- The base state with another current core. -/
def wWith (f : Core → Core) : State := wBase.upd (f wCore)

/-- A core's register set. -/
def setR (r : Reg) (x : W64) (c : Core) : Core := { c with g := c.g.set r x }

/-- A command. -/
def wCmd : Cmd := { num := 0, addr := 0x8000, mask := BitVec.allOnes 16, regs := Vector.replicate 16 0, rm := .rne, tag := [], started := false }

/-- A loop entry whose body is the block at 0x8000. -/
def wLoop : LoopEntry := { start := 0x8000, endblk := 0x8000, count := 2, idx := 0, inst := 0 }

/-- An access passes its checks where no line is lost. -/
theorem passes_of {s : State} {va : W64} {n : Nat} {need : Need} {sc : Option Scope} {r : Bool} {a : Nat} (h : s.check va n need sc r = .ok a)
    (ha : a + n ≤ physTop) (hi : s.core.implicit = false) (hl : s.lost = []) : passesChecks s va n need sc r a :=
  ⟨h, ha, hi, fun l _ => by rw [hl]; exact List.not_mem_nil⟩

/-! ### Words of the sequencer -/

theorem test_meets_RegisterZeroAndWrites : (31 : Reg) ≠ 0 ∧ (1 : Reg) ≠ 31 := by decide

theorem test_meets_IntegerForms :
    (0 : Fin 64).val + (63 : Fin 64).val + 1 ≤ 64 ∧ (63 : Fin 64).val + (0 : Fin 64).val + 1 ≤ 64 := by decide

theorem test_meets_FkeyOrdersValues :
    (1#32).toNat = nv (wWith (setR 3 1)) 3 % 2 ^ 32 ∧ (0x80000001 : Nat) < 2 ^ 32 ∧
    (∃ nx mx ex ny my ey, Fmt.f32.decode 0x80000001 = .fin nx mx ex ∧ Fmt.f32.decode 0x00000001 = .fin ny my ey ∧
      inUnits nx mx ex (-149) < inUnits ny my ey (-149)) ∧
    Fmt.f32.decode 0x7F800000 = .inf false ∧ Fmt.f32.decode 0xFF800000 = .inf true :=
  ⟨by decide, by decide, ⟨_, _, _, _, _, _, rfl, rfl, by decide⟩, by decide, by decide⟩

theorem test_meets_ScalarFloatingPoint :
    wBase.core.mode (.mode .rne) ≠ .sr ∧ wBase.core.mode .dyn ≠ .sr ∧ wBase.core.mode (.mode .sr) = .sr ∧ wBase.core.vq = [] ∧
    (wWith fun c => { c with vq := [wCmd] }).core.vq ≠ [] ∧
    (∃ nx mx ex, Fmt.f16.decode 0x7BFF = .fin nx mx ex) ∧ (Fmt.f16.decode 0x7E01).isNaN = true ∧
    (∃ t, exec (.fadd 1 2 3 (.mode .rne) .f32) wBase = .next t) :=
  ⟨by decide, by decide, by decide, by decide, by decide, ⟨_, _, _, rfl⟩, by decide, ⟨_, rfl⟩⟩

/-- Codes of f16 with the values 1, −2, 0 and −0, and its infinity and NaNs. -/
theorem test_meets_ScalarFloatingPoint_values :
    codeVal Fmt.f16 0x3C00 = some 1 ∧ codeVal Fmt.f16 0xC000 = some (-2) ∧ codeVal Fmt.f16 0 = some 0 ∧ codeVal Fmt.f16 0x8000 = some 0 ∧
    codeVal Fmt.f16 0x7C00 = none ∧ codeVal Fmt.e4m3 0x7F = none ∧ isNaNCode Fmt.f16 0x7E00 ∧ isSNaN Fmt.f16 0x7C01 ∧ ¬ isSNaN Fmt.f16 0x7E00 ∧
    ¬ isNaNCode Fmt.f16 0x7C00 ∧ tyFmt .f16 = some Fmt.f16 ∧ tyFmt .e4m3 = some Fmt.e4m3 ∧ tyFmt .i32 = none ∧
    (0xFFFF : Nat) < 2 ^ (ftyFmt .f16).width ∧ asSigned (tyWidth .i32) 0x80000000 ≠ 0 := by
  refine ⟨?_, ?_, ?_, ?_, ?_, ?_, ?_, ?_, ?_, ?_, rfl, rfl, rfl, by decide, by decide⟩ <;>
    simp [codeVal, isNaNCode, isSNaN, biasOf, Fmt.f16, Fmt.e4m3]

/-- In the end block of its innermost loop. -/
def wInLoop : State := wWith fun c => { c with loops := [wLoop] }

theorem test_meets_BranchesJumpsAndCalls :
    nv wBase 3 % 64 = 0 ∧ ¬ inEndBlock wBase ∧ handles wBase ∧ nv wBase 4 % 64 ≠ 0 ∧ inEndBlock wInLoop ∧ handles wInLoop ∧
    nv wInLoop 3 % 64 = 0 :=
  ⟨by decide, by rintro ⟨e, r, h, _⟩; exact absurd (show ([] : List LoopEntry) = e :: r from h) (List.cons_ne_nil e r).symm, by unfold handles; decide, by decide,
    ⟨wLoop, [], rfl, by decide⟩, by unfold handles; decide, by decide⟩

theorem test_meets_LoopsOpenAndEnd :
    (∃ a, Instr.loop 6 1 = .loop a 1 ∧ (0x8000000000000000 : W64) = wBase.core.getG a) ∧ 0xFFFFFFFF < (0x8000000000000000 : W64).toNat ∧ handles wBase ∧
    (∃ k : BitVec 12, Instr.loopImm 4095 1 = .loopImm k 1 ∧ (4095 : W64) = BitVec.ofNat 64 k.toNat) ∧
    (∃ x rest, wInLoop.core.loops = x :: rest ∧ x.endblk.toNat < (block wInLoop.core.pc + BitVec.ofNat 64 (64 * (1 : BitVec 8).toNat)).toNat) ∧
    (∃ a, Instr.loop 0 255 = .loop a 255 ∧ (0 : W64) = wBase.core.getG a) ∧
    (wWith fun c => { c with loops := List.replicate 6 { wLoop with endblk := 0x80000 } }).core.loops.length = 6 ∧
    wInLoop.core.loops[0]? = some wLoop ∧ wBase.core.vq = [] ∧ wBase.core.xinq = [] ∧ wBase.core.xoutq = [] ∧ wBase.core.mq = [] ∧
    wBase.core.aq = [] ∧ wBase.core.loops = [] ∧ wBase.core.loops.length ≤ (5 : Fin 8).val :=
  ⟨⟨6, rfl, by decide⟩, by decide, by unfold handles; decide, ⟨4095, rfl, by decide⟩, ⟨wLoop, [], rfl, by decide⟩, ⟨0, rfl, by decide⟩, by decide, by decide,
    by decide, by decide, by decide, by decide, by decide, by decide, by decide⟩

/-- A strand past its loop's end block, its check due. -/
def wChecked (l : LoopEntry) : State := wWith fun c => { c with pc := 0x8040, seq := .endCheck, loops := [l] }

theorem test_meets_LoopEndCheck :
    (wChecked wLoop).core.seq = .endCheck ∧ block (wChecked wLoop).core.pc - 64 = wLoop.endblk ∧ wLoop.idx + 1 < wLoop.count ∧
    { wLoop with idx := 1 }.count ≤ { wLoop with idx := 1 }.idx + 1 ∧
    block (wChecked { wLoop with endblk := 0x8080 }).core.pc - 64 ≠ 0x8080 ∧
    (wWith fun c => { c with seq := .endCheck }).core.loops = [] := by decide

theorem test_meets_TrapsAreTakenAndLeft :
    wBase.core.lvl < 2 ∧ wBase.core.tvec ≠ 0 ∧ (wWith fun c => { c with tvec := 0 }).core.tvec = 0 ∧
    (wWith fun c => { c with status := 0x28 }).core.lvl = 0 + 1 ∧ (wWith fun c => { c with status := 0x30 }).core.lvl = 1 + 1 ∧
    wBase.core.lvl = 0 ∧ wBase.core.held = [] ∧
    (wWith fun c => { c with held := [simpleReport .pageflt 0 0 0 1 0] }).core.held ≠ [] ∧
    (wWith fun c => { c with status := 0x30 }).core.lvl = 2 := by decide

/-- A strand whose task ends. -/
def wEnding : State := wWith fun c => { c with seq := .ending .halt }

theorem test_meets_SystemInstructionsAndTaskEnd :
    wBase.core.lvl = 0 ∧ (wWith fun c => { c with status := 0x28 }).core.lvl ≠ 0 ∧ handles wBase ∧
    ¬ (wBase.core.debugger = true ∧ wBase.core.breakOn = true) ∧
    (wWith fun c => { c with debugger := true, breakOn := true }).core.debugger = true ∧
    (wWith fun c => { c with seq := .pause 0 }).core.seq = .pause 0 ∧ 0 ≤ wBase.clock / 2 ∧ wBase.jtag = true ∧
    (wWith fun c => { c with seq := .stopped }).core.seq = .stopped ∧ wEnding.core.seq = .ending .halt ∧ wEnding.core.vq = [] ∧
    wEnding.core.xinq = [] ∧ wEnding.core.xoutq = [] ∧ wEnding.core.mq = [] ∧ wEnding.core.aq = [] ∧ wEnding.core.held = [] ∧
    wEnding.core.version = [] ∧ wEnding.core.commit = none ∧ wEnding.core.implicit = false ∧ wEnding.core.snaps = [] ∧
    wEnding.core.ring = none ∧ wEnding.core.body = none ∧
    (wEnding.upd { wEnding.core with vq := [wCmd] }).core.vq ≠ [] := by unfold handles; decide

/-- A CSR write puts what its operation says. -/
theorem csrPuts_zero (r : CsrRow) : csrPuts 1 0 0 r 0 := fun k _ => by
  split
  · simp
  · split <;> simp

theorem test_meets_CsrForbiddenWritesTrap :
    handles wBase ∧ (1 = 1 ∨ (1 = 2 ∨ 1 = 3) ∧ (3 : Reg) ≠ 0) ∧ (csrRow 0x000).isSome ∧ (csrRow 0x006).isSome ∧ (csrRow 0x011).isSome ∧
    (csrRow 0x012).isSome ∧ (csrRow 0x021).isSome ∧ (csrRow 0x023).isSome ∧ (csrRow 0x031).isSome ∧ (csrRow 0x100).isSome ∧
    wBase.core.lvl = 0 := by unfold handles; decide

theorem test_meets_CsrForbiddenWritesTrap_codes :
    (∀ r, csrPuts 1 0 0 r 0) ∧ ((0 : W64).toNat % 4096 ≠ 0 ∨ (0 : W64).toNat < 4096 ∨ 2 ^ 20 < (0 : W64).toNat) ∧ (0 : W64).toNat = 0 :=
  ⟨csrPuts_zero, by decide, by decide⟩

theorem test_meets_CsrReadsAndWrites :
    (csrRow 0x00).isSome ∧ csrRow 0xFFF = none ∧ handles wBase ∧
    (csrRow 0x010).any (fun r => !r.ro && !r.sup) ∧ (csrRow 0x030).any (fun r => !r.ro) ∧
    csrIllegal 0x010 0 = false ∧ csrIllegal 0x030 0 = false ∧ (0 : W64).getLsbD 8 = wBase.core.fctl.getLsbD 8 ∧
    (0 : W64).getLsbD 8 ≠ (wWith fun c => { c with fctl := 0x100, vq := [wCmd] }).core.fctl.getLsbD 8 ∧
    (wWith fun c => { c with status := 0x28 }).carWanted 0 = some [] ∧ (wWith fun c => { c with status := 0x28 }).core.lvl ≠ 0 ∧
    (wWith fun c => { c with status := 0x28 }).carFirst 1 0 0 = none ∧
    wBase.carBusy wBase.core.context (dieOf wBase.core.id) = false := by unfold handles; decide

theorem test_meets_CommandsWaitsAndSettings :
    (wBase.core.getG 3).toNat % 64 = 0 ∧ wBase.core.micro = 0 ∧ mayIssue wBase.core.slack[0] wBase.core.vq.length ∧
    ¬ mayIssue wBase.core.slack[0] (wWith fun c => { c with vq := [wCmd] }).core.vq.length ∧
    mayIssue (wWith fun c => { c with slack := Vector.replicate 5 16, mq := List.replicate 15 wCmd }).core.slack[3] 15 ∧
    ¬ mayIssue (wWith fun c => { c with slack := Vector.replicate 5 16 }).core.slack[3] 16 ∧
    (wWith fun c => { c with micro := 1 }).core.micro = 1 ∧ (wBase.core.getG 4).toNat % 64 ≠ 0 ∧ handles wBase := by unfold mayIssue handles; decide

/-- Memory whose block at 0x8100 begins with a channel's word. -/
def wXrun (w : Nat) : State := { wBase with mem := cellPutBytes wMem 0x8100 (leBytes 4 w) }

theorem test_meets_CommandsWaitsAndSettings_xrun :
    ((wXrun 0x08000000).wordAt 1 0 [] 0x8100).any (fun x => x.1.toNat / 2 ^ 27 == 1) ∧
    ((wXrun 0x18000000).wordAt 1 0 [] 0x8100).any (fun x => x.1.toNat / 2 ^ 27 == 3) ∧
    ((wXrun 0x48000000).wordAt 1 0 [] 0x8100).any (fun x => x.1.toNat / 2 ^ 27 == 9) ∧
    (wXrun 0x08000000).checkPage 1 0 (block 0x8100) 64 .fetch = .ok 0x8100 ∧ (wXrun 0x08000000).rangeSettled 0x8100 64 = true ∧
    ((wXrun 0x08000000).dirLine (lineOf 0x8100)).hs ≠ .upd ∧ (wXrun 0x08000000).lost.contains (lineOf 0x8100) = false ∧
    (∃ f, wBase.checkPage 1 0 (block 0x200000) 64 .fetch = .error f) ∧ wBase.wordAt 1 0 [] 0x200000 = none ∧
    findBlock [((0x8100 : W64), [(0x08000000 : W32)])] 0x8100 = some [0x08000000] ∧ inStep 0x08000000 ∧ outStep 0x18000000 ∧
    ¬ inStep 0x48000000 ∧ ¬ outStep 0x48000000 :=
  ⟨by decide, by decide, by decide, rfl, rfl, by decide, by decide, ⟨_, rfl⟩, rfl, rfl, by unfold inStep; decide, by unfold outStep; decide,
    by unfold inStep; decide, by unfold outStep; decide⟩

theorem test_meets_CommandsWaitsAndSettings_slack :
    nv (wWith (setR 7 528)) 7 = 16 + 2 ^ 5 * 16 + 2 ^ 10 * 0 + 2 ^ 15 * 0 + 2 ^ 20 * 0 ∧ 16 ≤ 16 ∧
    nv (wWith (setR 7 17)) 7 = 17 ∧ 16 < 17 ∧ 17 < 32 := by decide

/-- A load whose four bytes have come. -/
def wLoad : PendingLoad := { gd := 5, signed := true, addr := 0x9000, bytes := [some 1, some 2, some 3, some 0x80] }

theorem test_meets_LoadDataReturn :
    (wWith fun c => { c with loads := [wLoad] }).core.loads[0]? = some wLoad ∧ wLoad.bytes = ([1, 2, 3, 0x80] : List Byte).map some := by
  decide

theorem test_meets_BankModesSwitch :
    (wWith (setR 7 0x100000000)).core.getG 7 = 0x100000000 ∧ (0x100000000 : W64).toNat / 2 ^ 32 ≠ 0 ∧
    ((0x30002 : W64).toNat / 2 ^ (2 * 0) % 4 = 2 ∧ (0x30002 : W64).toNat / 2 ^ (2 * 0 + 16) % 4 = 3) ∧ handles wBase ∧
    (∀ b : Fin 8, (0x20002 : W64).toNat / 2 ^ (2 * b.val) % 4 = 2 → (0x20002 : W64).toNat / 2 ^ (2 * b.val + 16) % 4 ≠ 3) ∧
    (0x20002 : W64).toNat / 2 ^ (2 * 7) % 4 = 0 ∧ (∀ b : Fin 8, (0x5555 : W64).toNat / 2 ^ (2 * b.val) % 4 ≠ 0) := by unfold handles; decide

/-! ### Memory -/

theorem test_meets_MemoryReadsWhatIsWritten : Memory.wf wMem = true ∧ Memory.wf [] = true ∧ ∀ a, cellGet wMem a = cellGet wMem a :=
  ⟨by decide, by decide, fun _ => rfl⟩

/-- An access at 0x8108 by way of g3. -/
theorem test_meets_LoadsAndStores :
    passesChecks wBase (accessAddr wBase 3 8) 8 .read none false 0x8108 ∧ lineOf 0x8108 ∉ wBase.lost ∧
    passesChecks wBase (accessAddr wBase 3 7) 1 .write none false 0x8107 ∧ wBase.core.commit = none ∧
    ¬ quotaPassed wBase.core 0x8107 1 ∧ wBase.core.versionId = none ∧ wBase.freeVersion = some 0 :=
  ⟨passes_of rfl (by decide) rfl rfl, by decide, passes_of rfl (by decide) rfl rfl, rfl, fun h => h.1 rfl, rfl, rfl⟩

theorem test_meets_LoadsAndStores_held :
    let s := wWith fun c => { c with versionId := some 65535, version := [(0x8100, 1)] }
    s.core.versionId = some 65535 ∧ s.core.version.Pairwise (fun x y => x.1 < y.1) ∧ verGet s.core.version 0x8100 = some 1 ∧
      ¬ quotaPassed { s.core with vquota := 4096 } 0x8107 1 ∧ quotaPassed { s.core with vquota := 100 } 0x8107 1 ∧
      (wWith fun c => { c with implicit := true }).core.implicit = true := by unfold quotaPassed; decide

/-- A page of device 3 mapped at global block 0 (device field 3 in the address), by way of g7; the request for its line is open. -/
def wFarCore (x : Option FabricReply) (addr : W64) : Core → Core := fun c =>
  { setR 7 0x8000180000008100 c with remote := x.map fun y => { who := .seq, dev := 3, addr := addr, since := 0, answer := some y } }

def wGlob (f : Core → Core) : State := { wWith f with devid := 0, devValid := true, mem := wMem }

theorem test_meets_LoadsAndStores_remote :
    let s := wGlob (wFarCore none 0)
    let far := wGlob (wFarCore (some (.data (List.replicate 128 7))) (remoteAddr (lineOf (remoteBase + 3 * 2 ^ 43 + 0x8100) * 128)))
    let pa := remoteBase + 3 * 2 ^ 43 + 0x8100
    s.check (accessAddr s 7 0) 8 .read none false = .ok pa ∧ remoteBase ≤ pa ∧ s.core.implicit = false ∧ s.core.remote = none ∧
    s.copyBytes 0 (lineOf pa) s.core.acquired = none ∧ s.core.snap? (lineOf pa) = none ∧ s.l2leases = [] ∧
    far.core.remote.any (fun r => r.who == .seq && r.answer == some (.data (List.replicate 128 7))) ∧
    s.check (accessAddr s 7 0) 8 .write none false = .ok pa := by decide

/-- The base state with another entry for the leaf of its first 2 MiB (byte 3 of the entry says where the page starts at 16 MiB steps). -/
def wLeaf (bits : Nat) : State :=
  { wBase with mem := [(0x1000, 0x01), (0x1001, 0x20), (0x2000, 0x01), (0x2001, 0x30), (0x3000, BitVec.ofNat 8 bits), (0x3004, 0x80)] }

/-- Forms of every shape, with one address, its width and its page's need. -/
theorem test_meets_BadAddressesTrap_forms :
    Accesses wBase (.ldd 1 3 0) 0x8100 8 .read none false ∧ Accesses wBase (.std 1 3 0) 0x8100 8 .write none false ∧
    Accesses wBase (.cas 1 3 5 true .ar .x) 0x8100 8 .write (some .x) true ∧
    Accesses wBase (.amoSwap 1 3 5 false .rlx .c) 0x8100 4 .write (some .c) true ∧
    Accesses wBase (.updXor 3 5 .c) 0x8100 8 .write (some .c) true ∧ Accesses wBase (.waita 1 3 5 false .d) 0x8100 4 .read (some .d) true ∧
    Accesses wBase (.barinit 3 5 .k) 0x8100 16 .write (some .k) false ∧ Accesses wBase (.barexp 3 5 .k) 0x8100 16 .write (some .k) true ∧
    Accesses wBase (.bararr 1 3 5 .k) 0x8100 16 .write (some .k) true ∧ Accesses wBase (.barwait 1 3 5 .k) 0x8100 16 .read (some .k) true ∧
    Accesses wBase (.bartest 1 3 5 .k) 0x8100 16 .read (some .k) true ∧ Accesses wBase (.enq 1 3 5) 0x8100 128 .read none false :=
  ⟨.load 6 1 3 0, .store 3 1 3 0, .atomic 9 1 3 5 true .ar .x rfl, .atomic 0 1 3 5 false .rlx .c rfl, .update 12 3 5 .c, .waita 1 3 5 false .d rfl,
    .barinit 3 5 .k (by decide), .barexp 3 5 .k, .bararr 1 3 5 .k (by decide) rfl, .barwait 1 3 5 .k rfl, .bartest 1 3 5 .k rfl,
    .enq 1 3 5 (by decide)⟩

theorem test_meets_BadAddressesTrap :
    handles wBase ∧ wBase.core.implicit = false ∧ wBase.lost = [] ∧
    malformed 0x1000000000000 ∧ malformed (accessAddr wBase 6 (BitVec.ofInt 15 (-1))) ∧ ¬ malformed 0xFFFFFFFFFFFF ∧ ¬ malformed 0x8000000000000000 ∧
    ¬ malformed 0x12345 ∧ (0x12345 : W64).toNat % 8 ≠ 0 ∧ (0x12345 : W64).toNat % 2 ≠ 0 ∧ (0x8100 : W64).toNat % 128 = 0 := by
  unfold handles malformed; decide

theorem test_meets_BadAddressesTrap_pages :
    ¬ elsewhere wBase 0x8100 ∧ elsewhere wBase 0x8000000000008100 ∧ wBase.devValid = false ∧ ¬ elsewhere (wGlob id) 0x8000000000008100 ∧
    elsewhere (wGlob id) 0x8000080000008100 := by
  unfold elsewhere; decide

theorem test_meets_BadAddressesTrap_leaves :
    wBase.leafOf 1 (backing 0 0x1FFFFF) = some (0, 0x200000, true, true, true) ∧ wBase.leafOf 1 (backing 0 0x200000) = none ∧
    (wLeaf 0x17).leafOf 1 (backing 0 0x8100) = some (0x8000000000, 0x200000, true, false, true) ∧
    (wLeaf 0x1B).leafOf 1 (backing 0 0x8100) = some (0x8000000000, 0x200000, false, true, true) ∧
    (wLeaf 0x1F).leafOf 1 (backing 0 0x8100) = some (0x8000000000, 0x200000, true, true, true) ∧
    physTop < 0x8000000000 + (0x8100 : W64).toNat % 0x200000 + 8 ∧ doorbellQueue (0x8000000000 + (0x8100 : W64).toNat % 0x200000) = none :=
  ⟨by decide, by decide, by decide, by decide, by decide, by decide, by decide⟩

theorem test_meets_BadAddressesTrap_scopes :
    (∀ q, ¬ scopeRefused wBase 0x8100 (some q)) ∧ (∀ va, ¬ scopeRefused wBase va none) ∧ scopeRefused wBase 0x8000080000008100 (some .p) ∧
    ¬ scopeRefused wBase 0x8000080000008100 (some .o) ∧
    (let s := wBase.putLine { line := 0x102, tag := 0, scope := some (.c, 1) }
     lineOf 0x8100 = 0x102 ∧ recordRefuses s 0x8100 .c ∧ ¬ recordRefuses s 0x8100 .k ∧ ¬ recordRefuses wBase 0x8100 .c) := by
  have hl : wBase.launchScope = none := rfl
  have he : ¬ elsewhere wBase 0x8100 := by unfold elsewhere; decide
  refine ⟨?_, ?_, ⟨.p, rfl, .inr ⟨by unfold elsewhere; decide, by decide⟩⟩, ?_, rfl, ⟨(.c, 1), by decide, by decide⟩, ?_, ?_⟩
  · rintro q ⟨_, _, ⟨b, hb, _⟩ | ⟨h, _⟩⟩
    · rw [hl] at hb; cases hb
    · exact he h
  · rintro va ⟨_, h, _⟩; cases h
  · rintro ⟨_, h, ⟨b, hb, _⟩ | ⟨_, h4⟩⟩
    · rw [hl] at hb; cases hb
    · cases h; exact absurd h4 (by decide)
  · rintro ⟨r, h, h2⟩
    have : r = (.c, 1) := (Option.some.inj (h.symm.trans (by decide))) 
    subst this; exact h2 (by decide)
  · rintro ⟨r, h, _⟩
    exact absurd (h.symm.trans (by decide : _ = none)) (by simp)

/-- A commit under way. -/
def wCommit (n : Option Nat) : State :=
  wWith fun c => { c with version := [(0x8100, 1)], commit := some { dests := [0], marked := [0], acked := [0], number := n, implied := false } }

theorem test_meets_PhasesAndFencesComplete :
    wBase.scopeInLaunch .x = true ∧ wBase.core.implicit = false ∧ wBase.core.vq = [] ∧ wBase.core.commit = none ∧ wBase.core.version = [] ∧
    (wWith fun c => { c with version := [(0x8100, 1)] }).core.version ≠ [] ∧
    (wCommit (some 3)).core.commit.any (fun r => r.number = some 3) ∧ (wCommit none).core.commit.any (fun r => r.number = none) := by decide

theorem test_meets_PhasesAndFencesComplete_acks :
    let s := (wCommit (some 3)).upd { (wCommit (some 3)).core with acks := [(3, 5)] }
    ¬ owed (wCommit (some 3)) .x 3 ∧ owed s .x 3 ∧ owed s .o 3 ∧ ¬ owed s .d 3 ∧ ¬ lacksBytes (wCommit none).core ∧
    lacksBytes { (wCommit none).core with loads := [{ gd := 1, signed := false, addr := 0x8101, bytes := [none] }] } := by
  refine ⟨by unfold owed; decide, by unfold owed; decide, by unfold owed; decide, by unfold owed; decide, by unfold lacksBytes; decide, ?_⟩
  exact ⟨_, .head _, by decide, _, .head _, by decide⟩

/-- An update that waits in the cluster. -/
def wWaiting : State :=
  wBase.putCluster 0 { Cluster.reset with filter := [{ FilterEntry.empty 0x102 .iu with queue := [{ core := 0, tag := .addI32, addr := 0x8100, b := 1 }] }] }

theorem test_meets_PhasesAndFencesComplete_fence :
    ((wWaiting.cluster (clusterOf wWaiting.core.id)).filter.any fun e => e.queue.any fun u => u.core == wWaiting.core.id) = true ∧
    ¬ ((wBase.cluster (clusterOf wBase.core.id)).filter.any fun e => e.queue.any fun u => u.core == wBase.core.id) = true ∧
    wBase.core.micro = 0 ∧ wBase.core.fence = none ∧ wBase.core.path = [] ∧
    (wWith fun c => { c with path := [3] }).core.path ≠ [] ∧
    (wWith fun c => { c with fence := some { dests := [3], marked := [3], acked := [3] } }).core.fence.any (fun f => f.dests.all f.acked.contains) ∧
    (wWith fun c => { c with micro := 1 }).core.micro = 1 := by decide

/-- The cluster owns line 0x102, or holds it in U. -/
def wOwned : State := wBase.putCluster 0 { Cluster.reset with filter := [{ FilterEntry.empty 0x102 .none with st := .m }] }

def wPart : Partial := { tag := .addI32, bytes := List.replicate 128 0, touched := List.replicate 32 false }

def wInU : State := wBase.putCluster 0 { Cluster.reset with filter := [{ FilterEntry.empty 0x102 .none with st := .u, part := some wPart }] }

theorem test_meets_AtomicsAndUpdates :
    reaches wOwned (wOwned.core.getG 3) 8 .rlx .p 0x8100 ∧ Memory.wf wOwned.mem = true ∧ lineOf 0x8100 ∉ wOwned.lost ∧
    (∀ l ∈ wOwned.walkLines wOwned.core.context (backing 0 (wOwned.core.getG 3)), l ∉ wOwned.lost) ∧
    (((pinned wOwned (wOwned.core.getG 3)).cluster 0).entry 0x102).any (fun e => e.st = .m && e.xs = .none) ∧
    ((pinned wBase (wBase.core.getG 3)).cluster 0).entry (lineOf 0x8100) = none ∧
    (let s := wOwned.upd { wOwned.core with micro := 2, target := some 0x8100 }
     reaches s (s.core.getG 3) 8 .ar .p 0x8100 ∧ ((s.cluster 0).entry 0x102).any (fun e => e.st = .m && e.xs = .none)) ∧
    (wWith fun c => { c with micro := 3 }).core.version = [] ∧
    (let s := wWith fun c => { c with micro := 4, target := some 0x8100 }
     s.core.target = some 0x8100 ∧ ((s.cluster 0).filter.any fun e => e.queue.any fun u => u.core == s.core.id) = false ∧
     s.core.fence = none ∧ s.core.path = []) ∧
    passesChecks wInU (wInU.core.getG 3) 4 .write (some .d) true 0x8100 ∧
    (((pinned wInU (wInU.core.getG 3)).cluster 0).entry 0x102).any
      (fun e => e.st = .u && e.xs = .none && e.queue.isEmpty && e.part == some wPart) ∧
    wPart.bytes.length = 128 :=
  ⟨.inl ⟨.inl rfl, by decide, rfl, rfl⟩, rfl, by decide, fun _ _ => List.not_mem_nil, rfl, rfl, ⟨.inr ⟨.inr rfl, rfl, rfl⟩, rfl⟩, rfl,
    ⟨rfl, rfl, rfl, rfl⟩, passes_of rfl (by decide) rfl rfl, rfl, rfl⟩

/-- The forms that check first, and an atomic and an update of a line of another device. -/
theorem test_meets_AtomicsAndUpdates_checks :
    let s := wGlob (wFarCore none 0)
    let pa := remoteBase + 3 * 2 ^ 43 + 0x8100
    ChecksFirst s (.amoAdd 1 7 5 true .rel .p) 7 8 .write .p ∧ ChecksFirst s (.bararr 1 7 5 .p) 7 16 .write .p ∧
    ChecksFirst s (.barwait 1 7 5 .x) 7 16 .read .x ∧ ChecksFirst s (.waita 1 7 5 false .x) 7 4 .read .x ∧ s.core.micro = 0 ∧
    reaches s (s.core.getG 7) 8 .acq .x pa ∧ remoteBase ≤ pa ∧ s.core.remote = none ∧
    s.check (s.core.getG 7) 16 .write (some .x) true = .ok pa ∧ s.check (s.core.getG 7) 8 .write (some .x) true = .ok pa ∧
    passesChecks wBase (wBase.core.getG 3) 8 .write (some .p) true 0x8100 ∧
    (let u := wGlob (wFarCore (some (.data (List.replicate 12 7))) 0x8000180000008100)
     reaches u (u.core.getG 7) 8 .rlx .x pa ∧
       u.core.remote = some { who := .seq, dev := 3, addr := u.core.getG 7, since := 0, answer := some (.data (List.replicate 12 7)) }) ∧
    (wGlob (wFarCore (some .done) 0x8000180000008100)).core.remote =
      some { who := .seq, dev := 3, addr := 0x8000180000008100, since := 0, answer := some .done } :=
  ⟨.atomic 1 1 7 5 true .rel .p (.inl rfl), .bararr 1 7 5 .p (by decide), .barwait 1 7 5 .x, .waita 1 7 5 false .x, rfl,
    .inl ⟨.inr rfl, by decide, rfl, by decide⟩, by decide, rfl, by decide, by decide, passes_of rfl (by decide) rfl rfl,
    ⟨.inl ⟨.inl rfl, by decide, rfl, by decide⟩, rfl⟩, rfl⟩

/-! ### WAITA, barriers, queues -/

/-- A cluster with all 32 monitors held. -/
def wFull : State :=
  (wBase.putCluster 0 { Cluster.reset with monitors := List.replicate 32 { core := 1, line := 5 } }).upd
    { wCore with micro := 1, target := some 0x8100 }

/-- A WAITA that stands at a part of its work, its address checked. -/
def wAt (n : Nat) (f : Core → Core) : State := wWith fun c => f { c with micro := n, target := some 0x8100 }

theorem test_meets_WaitaAndHints :
    (wAt 4 id).core.target = some 0x8100 ∧ 0x8100 % 8 = 0 ∧ 0x8100 + 8 ≤ physTop ∧ lineOf 0x8100 ∉ (wAt 4 id).lost ∧ (wAt 4 id).core.micro = 4 ∧
    (wAt 4 id).core.vq = [] ∧ (wAt 4 id).core.commit = none ∧ (wAt 4 id).core.version = [] ∧ wFull.core.micro = 1 ∧
    32 ≤ (wFull.cluster 0).monitors.length ∧ ((wAt 1 id).cluster 0).monitors.length < 32 ∧ (wAt 1 id).rangeSettled 0x8100 8 = true ∧
    ((wAt 1 id).dirLine (lineOf 0x8100)).hs ≠ .upd ∧ leVal (cellBytes (wAt 1 id).mem 0x8100 8) ≠ 7 ∧
    leVal (cellBytes (wAt 1 id).mem 0x8100 8) = 0 ∧ (wAt 1 fun c => { c with status := 4 }).core.canf = true ∧ (wAt 1 id).core.canf = false ∧
    { (wAt 1 id) with dir := [{ DirLine.unc 0x102 with hs := .cmt }] }.rangeSettled 0x8100 8 = false :=
  ⟨rfl, by decide, by decide, by decide, rfl, rfl, rfl, rfl, rfl, by decide, by decide, rfl, by decide, by decide, by decide, rfl, rfl, rfl⟩

/-- A strand asleep in WAITA. -/
def wAsleep : State := wWith fun c => { c with seq := .waita 5 0x8178 8 1 }

theorem test_meets_WaitaAndHints_wake :
    wAsleep.core.seq = .waita 5 0x8178 8 1 ∧ 0x8178 + 8 ≤ physTop ∧ wAsleep.core.canf = false ∧ wAsleep.rangeSettled 0x8178 8 = true ∧
    (wAsleep.dirLine (lineOf 0x8178)).hs ≠ .upd ∧ 0x8178 % 128 + 8 ≤ 128 ∧ leVal (cellBytes wAsleep.mem 0x8178 8) ≠ (1 : W64).toNat :=
  ⟨rfl, by decide, rfl, rfl, by decide, by decide, by decide⟩

theorem test_meets_WaitaAndHints_hints :
    (Instr.pfhL1 3 5 = .pfhL1 3 5 ∨ Instr.pfhL1 3 5 = .pfhL2 3 5) ∧ nv wBase 0 = 0 ∧ nv wBase 5 ≠ 0 ∧
    nv (wWith (setR 7 0x200FF9)) 7 % 4096 + nv wBase 5 ≤ 4096 ∧
    (wBase.checkPage (wBase.core.ctx.getD 0) (clusterOf wBase.core.id) 0x200FF9 1 .read).toOption = none ∧
    0 < nv wBase 5 ∧ 0x8100 % 128 + nv wBase 5 ≤ 128 ∧ nv wBase 3 % 4096 + nv wBase 5 ≤ 4096 ∧ 0x8100 < physTop ∧
    (wBase.checkPage (wBase.core.ctx.getD 0) (clusterOf wBase.core.id) (wBase.core.getG 3) 1 .read).toOption = some 0x8100 ∧
    (wBase.cluster 0).entry (lineOf 0x8100) = none ∧
    (let s := wGlob (wFarCore none 0)
     s.checkPage 1 0 (s.core.getG 7) 1 .read = .ok (remoteBase + 3 * 2 ^ 43 + 0x8100) ∧ nv s 7 % 4096 + nv s 5 ≤ 4096) :=
  ⟨.inl rfl, rfl, by decide, by decide, rfl, by decide, by decide, by decide, by decide, rfl, rfl, by decide⟩

/-- A barrier object at 0x8100: EXPECT 8, ARRIVED 3, TURN 1. -/
def wBar : State := { wBase with mem := cellPutBytes wMem 0x8100 (leBytes 16 (barrierValue 8 3 false true)) }

theorem wBar_barrierAt : barrierAt wBar 0x8100 8 3 false true := ⟨by decide, by decide, by decide, by decide, rfl, rfl, rfl, by decide, by decide⟩

theorem test_meets_BarriersTakeCreditsAndWait :
    barrierAt (pinned wBar (wBar.core.getG 3)) 0x8100 8 3 false true ∧ passesChecks wBar (wBar.core.getG 3) 16 .write (some .d) false 0x8100 ∧
    passesChecks wBar (wBar.core.getG 3) 16 .write (some .d) true 0x8100 ∧ nv wBar 5 < 2 ^ 48 ∧ 8 + nv wBar 5 < 2 ^ 48 ∧
    2 ^ 48 ≤ 8 + nv (wWith (setR 7 0xFFFFFFFFFFF8)) 7 ∧ handles wBar ∧ 2 ^ 48 ≤ nv (wWith (setR 7 0x1000000000000)) 7 ∧
    (let s := wBar.upd { wBar.core with micro := 2, target := some 0x8100 }
     barrierAt s 0x8100 8 3 false true ∧ s.core.target = some 0x8100 ∧ s.core.micro = 2) :=
  ⟨wBar_barrierAt, passes_of rfl (by decide) rfl rfl, passes_of rfl (by decide) rfl rfl, by decide, by decide, by decide,
    by unfold handles; decide, by decide, wBar_barrierAt, rfl, rfl⟩

/-- A credit in flight to that object. -/
def wCredit : Credit := { addr := 0x8100, va := 0x8100, count := 5, err := false, core := 0, task := 0, word := 0, engine := 1 }

theorem test_meets_BarriersTakeCreditsAndWait_credit :
    { wBar with credits := [wCredit] }.credits[0]? = some wCredit ∧ barrierAt { wBar with credits := [wCredit] } wCredit.addr 8 3 false true :=
  ⟨rfl, by decide, by decide, by decide, by decide, rfl, rfl, rfl, by decide, by decide⟩

theorem test_meets_BarriersTakeCreditsAndWait_far :
    { wBar with credits := [{ wCredit with addr := remoteBase + 3 * 2 ^ 43 + 0x8100 }] }.credits[0]? =
      some { wCredit with addr := remoteBase + 3 * 2 ^ 43 + 0x8100 } ∧ remoteBase ≤ remoteBase + 3 * 2 ^ 43 + 0x8100 ∧
    (let s := wGlob (wFarCore none 0)
     let pa := remoteBase + 3 * 2 ^ 43 + 0x8100
     s.check (s.core.getG 7) 16 .write (some .x) false = .ok pa ∧ s.check (s.core.getG 7) 16 .write (some .x) true = .ok pa ∧
     s.check (s.core.getG 7) 16 .read (some .x) true = .ok pa ∧ nv s 5 < 2 ^ 48 ∧ s.core.remote = none ∧ s.core.micro = 0) ∧
    (let bs : List Byte := leBytes 16 (barrierValue 8 3 true true)
     let t := wGlob (wFarCore (some (.data bs)) 0x8000180000008100)
     t.core.remote = some { who := .seq, dev := 3, addr := t.core.getG 7, since := 0, answer := some (.data bs) } ∧ bs.length = 16 ∧
     leVal bs % 2 = nv t 5 % 2 ∧ leVal bs % 2 ≠ nv t 0 % 2) := by decide

theorem test_meets_BarriersTakeCreditsAndWait_wait :
    passesChecks wBar (wBar.core.getG 3) 16 .read (some .d) true 0x8100 ∧ wBar.core.micro = 0 ∧ wBar.core.vq = [] ∧ wBar.core.commit = none ∧
    wBar.core.version = [] ∧ true = decide (nv wBar 5 % 2 = 1) ∧ true ≠ decide (nv wBar 0 % 2 = 1) ∧
    (∀ n st, let s := wBar.upd { wBar.core with micro := n, target := some 0x8100, status := st }
      s.core.target = some 0x8100 ∧ barrierAt s 0x8100 8 3 false true ∧ s.core.micro = n) ∧
    (wWith fun c => { c with micro := 1, status := 4 }).core.canf = true ∧ wBar.core.canf = false ∧
    (wBar.upd { wCore with seq := .barwait 5 0x8100 false }).core.seq = .barwait 5 0x8100 false ∧
    barrierAt (wBar.upd { wCore with seq := .barwait 5 0x8100 false }) 0x8100 8 3 false true :=
  ⟨passes_of rfl (by decide) rfl rfl, rfl, rfl, rfl, rfl, by decide, by decide, fun _ _ => ⟨rfl, wBar_barrierAt, rfl⟩, rfl, rfl, rfl,
    ⟨by decide, by decide, by decide, by decide, rfl, rfl, rfl, by decide, by decide⟩⟩

/-- A queue of context 1: window mode with four records of room, bound to launch 0. -/
def wQueue : Queue :=
  { id := 7, ctx := 1, window := true, log2n := 2, ring := 0x20000, cring := 0x30000, pclass := 1, weight := 1, tail := 1, taken := 1
    done := 1, recDone := 1, wbDone := 1, wbTaken := 1, vec := 0, vecOn := false, switching := false, resident := true
    waitingSince := none, lastTaken := 0, errFlag := false, armable := true, boundTo := some 0, sources := [], records := []
    dequeued := [], comps := [], burst := 0 }

/-- A strand of launch 0 whose version holds a record at 0x8100. -/
def wEnq (q : Queue) : State :=
  { wWith fun c => { c with launch := some 0, version := (List.range 128).map fun j => (0x8100 + j, BitVec.ofNat 8 j), versionId := some 0 } with
    queues := [q] }

theorem test_meets_QueueInstructionsComplete :
    passesChecks (wEnq wQueue) ((wEnq wQueue).core.getG 3) 128 .read none false 0x8100 ∧
    (∀ j : Fin 128, verGet (wEnq wQueue).core.version (0x8100 + j.val) = ((List.range 128).map (BitVec.ofNat 8) : List Byte)[j.val]?) ∧
    bitsOf ((wEnq wQueue).core.getG 5) 43 17 = 0 ∧ bitsOf ((wEnq wQueue).core.getG 5) 63 44 = (wEnq wQueue).devid ∧
    bitsOf ((wEnq wQueue).core.getG 5) 16 0 = 7 ∧
    (let s := { wEnq wQueue with core := { (wEnq wQueue).core with g := (wEnq wQueue).core.g.set 8 0x300000000007 }, devValid := true }
     bitsOf (s.core.getG 8) 43 17 = 0 ∧ bitsOf (s.core.getG 8) 63 44 ≠ s.devid ∧ s.core.remote = none ∧
     ({ s.core with remote := some { who := .seq, dev := 3, addr := s.core.getG 8, since := 0, answer := some (.status 1) } } : Core).remote.any
       (fun r => r.answer == some (.status 1))) :=
  ⟨passes_of rfl (by decide) rfl rfl, by decide, by decide, by decide, by decide, by decide⟩

theorem test_meets_QueueInstructionsComplete_queues :
    wBase.queue? 7 = none ∧ (wEnq { wQueue with ctx := 2 }).queue? 7 = some { wQueue with ctx := 2 } ∧
    (wEnq wQueue).queue? 7 = some wQueue ∧ wQueue.ctx = (wEnq wQueue).core.ctx.getD 0 ∧
    (wEnq wQueue).rangeSettled (0x20000 + 128 * (1 % 4)) 128 = true ∧ { wQueue with window := false }.window = false ∧
    { wQueue with tail := 5 }.tail - { wQueue with tail := 5 }.taken = 2 ^ 2 ∧ wQueue.tail - wQueue.taken ≠ 2 ^ wQueue.log2n ∧
    Memory.wf (wEnq wQueue).mem = true ∧ ((wEnq wQueue).dirLine (lineOf 0x20080)).hs ≠ .upd ∧ wQueue.ring % 128 = 0 :=
  ⟨rfl, rfl, rfl, rfl, rfl, rfl, by decide, by decide, rfl, by decide, by decide⟩

/-- A record held for DQ. -/
def wHeld : Queue := { wQueue with tail := 2, records := [(1, List.replicate 16 0)] }

theorem test_meets_QueueInstructionsComplete_armed :
    handles wBase ∧ bitsOf ((wWith (setR 7 0x20000)).core.getG 7) 43 17 ≠ 0 ∧ wBase.armed (wBase.core.getG 5) = none ∧
    (wEnq wHeld).armed ((wEnq wHeld).core.getG 5) = some wHeld ∧ (wEnq wQueue).armed ((wEnq wQueue).core.getG 5) = some wQueue ∧
    wHeld.waiting ≠ 0 ∧ wQueue.waiting = 0 ∧ (wEnq wQueue).core.implicit = false ∧ (wEnq wQueue).core.canf = false ∧
    passesChecks (wEnq wHeld) ((wEnq wHeld).core.getG 3) 128 .write none false 0x8100 ∧
    ¬ quotaPassed (wEnq wHeld).core 0x8100 128 ∧ (wEnq wHeld).core.commit = none ∧
    (wEnq wHeld).core.versionId = some 0 ∧ (wEnq wHeld).queue? 7 = some wHeld ∧
    (let q := { wHeld with records := [] }
     q.waiting ≠ 0 ∧ q.ring % 128 = 0 ∧ (wEnq q).armed ((wEnq q).core.getG 5) = some q ∧
     (pinned (wEnq q) ((wEnq q).core.getG 3)).rangeSettled (q.ring + 128 * (q.taken % 2 ^ q.log2n)) 128 = true ∧
     ((pinned (wEnq q) ((wEnq q).core.getG 3)).dirLine (lineOf (q.ring + 128 * (q.taken % 2 ^ q.log2n)))).hs ≠ .upd) ∧
    ((wEnq wHeld).upd { (wEnq wHeld).core with seq := .waitq 5 7 }).core.seq = .waitq 5 7 :=
  ⟨by unfold handles; decide, by decide, rfl, rfl, rfl, by decide, by decide, rfl, rfl, passes_of rfl (by decide) rfl rfl,
    by unfold quotaPassed; decide, rfl, rfl, rfl, ⟨by decide, by decide, rfl, rfl, by decide⟩, rfl⟩

/-! ### Trees and tasks -/

/-- A live tree of context 1 with generation 1. -/
def wTree : Tree := { gen := 1, live := true, ctx := 1, launch := 0, image := 0, quantum := 4, closed := false, killed := false, defi := 4 }

/-- A READY block of that tree. -/
def wTcb : Tcb :=
  { key := 9, parent := 0, succ := 0, arg := 5, entry := 1, owner := 0, pend := 0, tree := 0, gen := 1, own := false, canf := false
    state := .ready, order := 0, core := 0 }

/-- Die 0 with that tree and blocks. -/
def wDie (t : Tree) (bs : List (Nat × Tcb)) : Die := { Die.reset with trees := [(0, t)], tcbs := bs, ptr := some 0, nextOrder := 3 }

/-- g7 = the tree's handle, g8 = the id of block 0, g9 = an id that names nothing. -/
def wTasks (t : Tree) (bs : List (Nat × Tcb)) (f : Core → Core) : State :=
  { wWith (fun c => f (setR 9 0x00200001 (setR 8 0x00100000 (setR 7 0x10000 c)))) with die0 := wDie t bs }

theorem test_meets_TreesAndTasks_trees :
    1 ≤ nv (wWith (setR 7 1)) 7 ∧ nv (wWith (setR 7 65535)) 7 ≤ 65535 ∧ wBase.ctx? (ctxOf wBase) = some wCtx ∧
    (wBase.die 0).treeCount 1 < wCtx.limTrees ∧ lowestFree (fun (x : Tree) => x.live) (wBase.die 0).trees 4096 = some 0 ∧
    { wCtx with limTrees := 0 }.limTrees ≤ (wBase.die 0).treeCount 1 ∧ 65535 < nv (wWith (setR 7 65536)) 7 ∧ nv wBase 0 = 0 ∧
    handles wBase ∧ (0x10000000 : W64).toNat / 2 ^ 28 ≠ 0 ∧ (0x2000 : W64).toNat / 2 ^ 13 % 8 ≠ 0 ∧ wBase.core.micro = 0 ∧
    wBase.treeOf 1 (wBase.core.getG 5) = none ∧ (wTasks wTree [] id).treeOf 1 0x10000 = some wTree ∧
    ((wTasks wTree [] id).die 0).treeBlocks 0 = [] :=
  ⟨by decide, by decide, rfl, by decide, rfl, by decide, by decide, rfl, by unfold handles; decide, by decide, by decide, rfl, rfl, rfl, rfl⟩

/-- A running Ringmaster task, block 1, whose strand is the current one. -/
def wRun : State := wTasks wTree [(1, { wTcb with state := .running })] fun c => { c with ring := some (0, 1), treeid := 0x10000 }

theorem test_meets_TreesAndTasks_spawn :
    bitsOf (wRun.core.getG 5) 5 2 ≠ 0 ∧ bitsOf (wRun.core.getG 3) 5 2 = 0 ∧ wRun.core.getG 0 = 0 ∧
    wRun.core.treeid.zeroExtend 64 ≠ (0 : W64) ∧ wRun.treeOf 1 0x10000 = some wTree ∧ wTree.closed = false ∧
    lowestFree (fun (x : Tcb) => x.state != .free) wRun.die0.tcbs (2 ^ 20) = some 0 ∧ wRun.core.ring = some (0, 1) ∧
    assoc 1 (wRun.die 0).tcbs = some { wTcb with state := .running } ∧ wTcb.pend < 65535 ∧ 0 < wTcb.gen ∧ wTcb.gen < 2 ^ 11 ∧
    (wTasks wTree [] id).core.ring = none ∧ (wTasks { wTree with closed := true } [] id).treeOf 1 0x10000 = some { wTree with closed := true } ∧
    wRun.core.lvl = 0 ∧ bitsOf (wRun.core.getG 0) 5 0 = 0 ∧ handles wRun ∧ handles wBase ∧ wBase.core.ring = none :=
  ⟨by decide, by decide, rfl, by decide, rfl, rfl, rfl, rfl, rfl, by decide, by decide, by decide, rfl, rfl, by decide, by decide,
    by unfold handles; decide, by unfold handles; decide, rfl⟩

/-- That task at its end, with a successor in block 2 that waits for it. -/
def wRunEnding (k : EndKind) : State :=
  wTasks wTree [(1, { wTcb with state := .running, succ := 0x00100002 }), (2, { wTcb with state := .joined, pend := 1 })] fun c =>
    { c with ring := some (0, 1), treeid := 0x10000, seq := .ending k, pickRet := some (0x8040, 5) }

theorem test_meets_SystemInstructionsAndTaskEnd_tasks :
    let s := wRunEnding (.done 7)
    let b : Tcb := { wTcb with state := .running, succ := 0x00100002 }
    s.core.seq = .ending (.done 7) ∧ quietTask s.core ∧ s.core.ring = some (0, 1) ∧ (0 : Nat) < 2 ∧ 1 < 2 ^ 20 ∧
    assoc 1 (s.die 0).tcbs = some b ∧ b.state ≠ .free ∧ 0 < b.gen ∧ b.gen < 2 ^ 11 ∧ s.core.pickRet = some (0x8040, 5) ∧
    s.tcb? b.succ = some { wTcb with state := .joined, pend := 1 } ∧ b.succ ≠ taskId 0 b.gen 1 ∧
    ¬ (({ wTcb with state := .joined, pend := 1 } : Tcb).pend ≤ 1 ∧ TcbState.joined = .joined ∧ wTcb.canf = true) ∧
    s.tcb? wTcb.succ = none ∧ (wRunEnding (.join 0 3)).core.seq = .ending (.join 0 3) ∧ b.canf = false ∧ b.pend = 0 :=
  ⟨rfl, by unfold quietTask; decide, rfl, by decide, by decide, rfl, by decide, by decide, by decide, rfl, rfl, by decide, by decide, rfl, rfl, rfl,
    rfl⟩

/-- The body of an instance of launch 0 at its end. -/
def wBodyEnding (n : Nat) : State :=
  { wWith fun c => { c with seq := .ending .halt, body := some { launch := 0, linear := 0, taskid := 0 } } with
    queues := [wQueue]
    launches := [{ id := 0, src := .queue 7 1, ctx := 1, rcd := List.replicate 16 0, st := .running, clusters := [0], left := n, err := none, preAt := 0 }] }

theorem test_meets_SystemInstructionsAndTaskEnd_bodies :
    (wBodyEnding 2).core.seq = .ending .halt ∧ quietTask (wBodyEnding 2).core ∧ (wBodyEnding 2).core.ring = none ∧
    (∃ l, (wBodyEnding 2).launch? 0 = some l ∧ 1 < l.left) ∧
    (∃ l, (wBodyEnding 1).launch? 0 = some l ∧ l.left ≤ 1 ∧ l.src = .queue 7 1) ∧ (wBodyEnding 1).queue? 7 = some wQueue :=
  ⟨rfl, by unfold quietTask; decide, rfl, ⟨_, rfl, by decide⟩, ⟨_, rfl, by decide, rfl⟩, rfl⟩

theorem test_meets_PickAndTaskControl_pick :
    wBase.core.seq = .run ∧ wBase.core.ring = none ∧ wBase.core.lvl = 0 ∧ allOnes = allOnes ∧
    ((0x10000 : W64).toNat / 2 ^ 28 = 0 ∧ (0x10000 : W64).toNat / 2 ^ 13 % 8 = 0 ∧ ((wTasks wTree [] id).treeOf 1 0x10000).isSome) ∧
    (wTasks wTree [] id).pickOver (wTasks wTree [] id).core 0x10000 = false ∧ wBase.pickOver wBase.core allOnes = true ∧
    wRun.core.ring.isSome ∧ wBase.core.implicit = false :=
  ⟨rfl, rfl, rfl, rfl, by decide, rfl, rfl, rfl, rfl⟩

/-- A launch body asleep in PICK, and one block. -/
def wPick (b : Tcb) : State := wTasks wTree [(0, b)] fun c => { c with seq := .pick 0x10000 0, launch := some 0, pickRet := some (0x8040, 5) }

theorem test_meets_PickAndTaskControl_select :
    ((wPick wTcb).die 0).ptr = some 0 ∧ ((wPick wTcb).die 0).tree? 0 = some wTree ∧ 0 ∈ ((wPick wTcb).die 0).liveTrees ∧
    ((wPick wTcb).die 0).head 0 = some (0, wTcb) ∧ (wPick wTcb).sleeper 0 0 wTree = some (0, 0) ∧ 1 ≤ wTree.defi ∧
    (wPick { wTcb with state := .bound }).core.seq = .pick 0x10000 0 ∧
    (wPick { wTcb with state := .bound }).boundTo 0 = some (0, 0, { wTcb with state := .bound }) ∧
    ((wPick { wTcb with state := .bound }).die 0).tree? wTcb.tree = some wTree :=
  ⟨rfl, rfl, by decide, rfl, rfl, by decide, rfl, rfl, rfl⟩

/-- A subtree that reaches the other die. -/
def wFar : State := { wTasks wTree [(0, wTcb)] id with die1 := wDie wTree [(0, { wTcb with parent := 0x00100000 })] }

theorem test_meets_PickAndTaskControl_control :
    let s := wTasks wTree [(0, wTcb)] id
    nv s 8 < 2 ^ 32 ∧ BitVec.ofNat 32 (nv s 8) = (0x00100000 : W32) ∧ s.taskOf 1 0x00100000 = some wTcb ∧ s.taskOf 1 0x00200001 = none ∧
    (wTasks wTree [(0, { wTcb with canf := true })] id).taskOf 1 0x00100000 = some { wTcb with canf := true } ∧
    (wTasks wTree [(0, { wTcb with state := .running })] id).taskOf 1 0x00100000 = some { wTcb with state := .running } ∧
    wTcb.key ≠ BitVec.ofNat 32 (nv s 5) ∧ s.core.micro = 0 ∧ s.subtree 1 [0x00100000] = [] ∧ wFar.subtree 1 [0x00100000] ≠ [] ∧
    s.treeOf 1 (s.core.getG 7) = some wTree ∧ 2 ^ 32 ≤ nv (wWith (setR 7 0x100000000)) 7 ∧ handles (wWith (setR 7 0x100000000)) ∧
    s.subtree 0 [0x00100000] = [0x00100000] ∧ wTcb.state = .ready ∧ wTcb.pend = 0 ∧ s.tcb? wTcb.succ = none ∧
    (let x := { wTcb with state := .running, core := 1 }
     let r := { wTasks wTree [(0, x)] id with others := [{ Core.reset 1 with ring := some (0, 0) }] }
     x.core ≠ r.core.id ∧ (r.coreAt x.core).ring = some (taskDie 0x00100000, taskIdx 0x00100000) ∧ r.subtree 0 [0x00100000] = [0x00100000]) :=
  ⟨by decide, by decide, rfl, rfl, rfl, rfl, by decide, rfl, rfl, by decide, rfl, by decide, by unfold handles; decide, rfl, rfl, rfl, rfl,
    by decide, rfl, rfl⟩

/-- A forwarded cancel whose instruction waits. -/
def wFwd : CancelFwd := { die := 1, roots := [0x00100000], hard := false, core := 0, pc := 0x8000, task := 0, gd := 5, count := some 1 }

theorem test_meets_PickAndTaskControl_forward :
    { wFar with cancels := [wFwd] }.cancels[0]? = some wFwd ∧
    (let s := wFar.upd { wFar.core with micro := 1 }
     let r := (({ s with cancels := [] } : State).joinReclaims [] [0x00100000]).cancelOn 1 [] [0x00100000] false
     (r.2.coreAt 0).micro = 1 ∧ (r.2.coreAt 0).pc = 0x8000 ∧ (r.2.coreAt 0).taskid = 0 ∧ (r.2.coreAt 0).seq = .run) ∧
    (((({ wFar with cancels := [] } : State).joinReclaims [] [0x00100000]).cancelOn 1 [] [0x00100000] false).2.coreAt 0).micro ≠ 1 :=
  ⟨rfl, ⟨rfl, rfl, rfl, rfl⟩, by decide⟩

/-! ### Node records and the Barker -/

/-- A record of context 1: a leaf under the record at parent. -/
def wNode (parent : Nat) (rest : Nat) : Node := { ctx := 1, bits := BitVec.ofNat 256 (parent * 2 ^ 128 + 2 ^ 112 + rest), err := false }

/-- Records 4 (a root with two children from record 5, P and C), 5 and 6 (its children) on die 0; g7 = the reference of record 4,
g8 = that of record 5, g9 = that of a record that is not allocated, g10 = that of the other die. -/
def wNodes (f : Core → Core) : State :=
  { wWith (fun c => f (setR 10 0x40000000005 (setR 9 9 (setR 8 5 (setR 7 4 c))))) with
    die0 := { Die.reset with nodes := [(4, wNode 0 (2 ^ 113 + 2 ^ 114 + 2 * 2 ^ 80 + 5 * 2 ^ 192 + 9)), (5, wNode 4 4), (6, wNode 4 5)] } }

theorem test_meets_NodeRecordsComplete_alloc :
    nv (wWith (setR 7 1)) 7 = 1 ∧ nv (wWith (setR 7 65535)) 7 = 65535 ∧ nv (wNodes (setR 12 1)) 12 < 2 ∧
    (wNodes id).ctx? (ctxOf (wNodes id)) = some wCtx ∧ ((wNodes id).die 0).nodeCount 1 + 1 ≤ wCtx.limNodes ∧
    lowestRun 4 0 ((wNodes id).die 0).nodes = some 0 ∧ lowestRun 5 0 ((wNodes id).die 0).nodes = some 7 ∧
    { wCtx with limNodes := 3 }.limNodes < ((wNodes id).die 0).nodeCount 1 + 1 ∧
    nv wBase 0 = 0 ∧ 65535 < nv (wWith (setR 7 65536)) 7 ∧ 2 ≤ nv (wWith (setR 7 2)) 7 ∧ handles wBase ∧
    ((((wNodes id).die 0).nodes).map fun e => e.1).Pairwise (· < ·) :=
  ⟨by decide, by decide, by decide, rfl, by decide, rfl, rfl, by decide, rfl, by decide, by decide, by unfold handles; decide, by decide⟩

theorem wNodes_local (f : Core → Core) (r : Reg) (h : (wNodes f).core.getG r = 4 ∨ (wNodes f).core.getG r = 5) :
    localRef (wNodes f) ((wNodes f).core.getG r) := by
  rcases h with h | h <;> rw [h] <;> exact ⟨rfl, by decide, rfl⟩

theorem test_meets_NodeRecordsComplete_free :
    localRef (wNodes (setR 12 3)) ((wNodes (setR 12 3)).core.getG 7) ∧ 1 ≤ nv (wNodes (setR 12 3)) 12 ∧ nv (wNodes (setR 12 3)) 12 ≤ 65535 ∧
    (∀ j, 4 ≤ j → j < 4 + 3 → ∃ y, assoc j ((wNodes (setR 12 3)).die 0).nodes = some y ∧ y.ctx = ctxOf (wNodes (setR 12 3))) ∧
    ¬ (∀ j, 4 ≤ j → j < 4 + 4 → ∃ y, assoc j ((wNodes (setR 12 4)).die 0).nodes = some y ∧ y.ctx = ctxOf (wNodes (setR 12 4))) := by
  refine ⟨wNodes_local _ 7 (.inl rfl), by decide, by decide, ?_, ?_⟩
  · intro j h1 h2
    obtain rfl | rfl | rfl : j = 4 ∨ j = 5 ∨ j = 6 := by omega
    all_goals exact ⟨_, rfl, rfl⟩
  · intro h
    obtain ⟨y, hy, -⟩ := h 7 (by omega) (by omega)
    exact absurd hy (nofun)

theorem test_meets_NodeRecordsComplete_read :
    (∃ y, recordAt (wNodes id) ((wNodes id).core.getG 7) y) ∧ localRef (wNodes id) ((wNodes id).core.getG 9) ∧
    assoc (nv (wNodes id) 9 % 2 ^ 20) ((wNodes id).die (nv (wNodes id) 9 / 2 ^ 42 % 4)).nodes = none ∧
    nv (wWith (setR 7 0x80000000000)) 7 / 2 ^ 42 % 4 = 2 ∧ nv (wWith (setR 7 0x100000)) 7 / 2 ^ 20 % 2 ^ 22 ≠ 0 :=
  ⟨⟨_, ⟨rfl, by decide, rfl⟩, rfl, rfl, rfl⟩, ⟨rfl, by decide, rfl⟩, rfl, rfl, by decide⟩

/-- A strand whose version holds 32 bytes at 0x8100. -/
def wImg (f : Core → Core) : State := wNodes fun c => f { c with version := (List.range 32).map fun j => (0x8100 + j, BitVec.ofNat 8 j), versionId := some 0 }

theorem wImg_holds : versionHolds (wImg id) 0x8100 ((List.range 32).map (BitVec.ofNat 8)) := by
  intro j h
  have h : j < 32 := h
  exact (by decide : ∀ j : Fin 32, verGet (wImg id).core.version (0x8100 + j.val) = ((List.range 32).map (BitVec.ofNat 8))[j.val]?) ⟨j, h⟩

theorem test_meets_NodeRecordsComplete_init :
    (∃ y, recordAt (wImg id) ((wImg id).core.getG 7) y) ∧ passesChecks (wImg id) ((wImg id).core.getG 3) 32 .read none false 0x8100 ∧
    ((List.range 32).map (BitVec.ofNat 8)).length = 32 ∧ versionHolds (wImg id) 0x8100 ((List.range 32).map (BitVec.ofNat 8)) :=
  ⟨⟨_, ⟨rfl, by decide, rfl⟩, rfl, rfl, rfl⟩, passes_of rfl (by decide) rfl rfl, rfl, wImg_holds⟩

/-- g7 = a reference of device 3, with the answer that has come. -/
def wNodeFar (x : Option FabricReply) : State :=
  { wWith (fun c => { setR 7 0x300000000005 c with
      remote := x.map fun y => { who := .seq, dev := 3, addr := 0x300000000005, since := 0, answer := some y } }) with devValid := true }

theorem test_meets_NodeRecordsComplete_far :
    (wNodeFar none).devValid = true ∧ nv (wNodeFar none) 7 / 2 ^ 44 ≠ (wNodeFar none).devid ∧ nv (wNodeFar none) 7 / 2 ^ 42 % 4 < 2 ∧
    nv (wNodeFar none) 7 / 2 ^ 20 % 2 ^ 22 = 0 ∧ (wNodeFar none).core.remote = none ∧ 1 ≤ nv (wNodeFar none) 5 ∧
    (wNodeFar (some (.data (leBytes 8 6)))).core.remote =
      some { who := .seq, dev := 3, addr := (wNodeFar none).core.getG 7, since := 0, answer := some (.data (leBytes 8 6)) } ∧
    (wNodeFar (some .done)).core.remote =
      some { who := .seq, dev := 3, addr := (wNodeFar none).core.getG 7, since := 0, answer := some .done } :=
  ⟨rfl, by decide, by decide, by decide, rfl, by decide, rfl, rfl⟩

/-- The two steps of a walk from record 5. -/
def wPath : List (W64 × Node) := [(5, wNode 4 4), (4, wNode 0 (2 ^ 113 + 2 ^ 114 + 2 * 2 ^ 80 + 5 * 2 ^ 192 + 9))]

theorem test_meets_WalksSelectionAndBatches_walk :
    (wNodes id).core.micro = 0 ∧ (wNodes id).core.seq = .run ∧ upward (wNodes id) 0 wPath ∧ wPath.length ≤ 4096 ∧
    (wPath.map fun e => e.1).Nodup ∧ wPath.head?.map (fun e => e.1) = some ((wNodes id).core.getG 8) ∧
    nv (wWith (setR 7 0xFFFF)) 7 < 2 ^ 16 ∧ nv (wWith (setR 7 0xFFFFFFFFFFFF)) 7 < 2 ^ 48 ∧
    2 ^ 16 ≤ nv (wWith (setR 7 0x10000)) 7 ∧ 2 ^ 48 ≤ nv (wWith (setR 7 0x1000000000000)) 7 :=
  ⟨rfl, rfl, ⟨⟨⟨rfl, by decide, rfl⟩, rfl, rfl, rfl⟩, rfl, by decide, by decide, ⟨⟨rfl, by decide, rfl⟩, rfl, rfl, rfl⟩, rfl, by decide⟩,
    by decide, by decide, rfl, by decide, by decide, by decide, by decide⟩

theorem test_meets_WalksSelectionAndBatches_select :
    (∃ p, recordAt (wNodes id) ((wNodes id).core.getG 8) p ∧ p.bits.getLsbD 114 = false) ∧
    (∃ p, recordAt (wNodes id) ((wNodes id).core.getG 7) p ∧ p.bits.getLsbD 114 = true ∧ p.bits.toNat / 2 ^ 80 % 2 ^ 16 = 2 ∧
      BitVec.ofNat 64 (p.bits.toNat / 2 ^ 192) = 5) ∧
    (∀ j, j < 2 → recordAt (wNodes id) (5 + BitVec.ofNat 64 j) (if j = 0 then wNode 4 4 else wNode 4 5)) := by
  refine ⟨⟨_, ⟨⟨rfl, by decide, rfl⟩, rfl, rfl, rfl⟩, by decide⟩, ⟨_, ⟨⟨rfl, by decide, rfl⟩, rfl, rfl, rfl⟩, by decide, by decide, by decide⟩, ?_⟩
  intro j h
  obtain rfl | rfl : j = 0 ∨ j = 1 := by omega
  all_goals exact ⟨⟨rfl, by decide, rfl⟩, rfl, rfl, rfl⟩

theorem test_meets_WalksSelectionAndBatches_scan :
    let s := wNodes fun c => { c with micro := 1, scan := some { sq := 0, child := 5, n := 2, i := 1, best := some (0, 0x3F800000) } }
    s.core.micro = 1 ∧ s.core.scan = some { sq := 0, child := 5, n := 2, i := 1, best := some (0, 0x3F800000) } ∧
    (5 : W64).toNat % 2 ^ 20 + 1 < 2 ^ 20 ∧ localRef s 5 ∧ recordAt s (5 + BitVec.ofNat 64 1) (wNode 4 5) ∧ 1 + 1 = 2 :=
  ⟨rfl, rfl, by decide, ⟨rfl, by decide, rfl⟩, ⟨⟨rfl, by decide, rfl⟩, rfl, rfl, rfl⟩, rfl⟩

/-- A bin with a batch of two in view. -/
def wBin : Bin :=
  { ctx := 1, core := 0, win := 5, nslot := 2, bsize := 2, ring := 0x40000, tmpl := 0x50000, wsid := 9, members := [], t0 := 0, seq := 1
    slot := 0, closing := none }

def wBins (n : Nat) (b : Bin) (f : Core → Core) : State := { wWith f with die0 := { Die.reset with bins := [(n, b)] } }

theorem test_meets_WalksSelectionAndBatches_config :
    nv (wWith (setR 7 63)) 7 < 64 ∧ 64 ≤ nv (wWith (setR 7 64)) 7 ∧
    assoc 7 ((wBins 7 { wBin with ctx := 2 } id).die 0).bins = some { wBin with ctx := 2 } ∧ ctxOf (wBins 7 { wBin with ctx := 2 } id) ≠ 2 ∧
    assoc 7 ((wBins 7 { wBin with members := [1] } id).die 0).bins = some { wBin with members := [1] } ∧
    assoc 7 ((wBins 7 wBin id).die 0).bins = some wBin ∧ wBin.members = [] ∧ wBin.closing = none ∧
    assoc 7 (wBase.die 0).bins = none ∧ wBase.core.getG 0 = 0 :=
  ⟨by decide, by decide, rfl, by decide, rfl, rfl, rfl, rfl, rfl, rfl⟩

/-- A block of a bin with ring, template and key as given. -/
def wBlock (wsid tmpl ring : Nat) : List Byte := leBytes 8 wsid ++ leBytes 8 tmpl ++ leBytes 8 ring ++ leBytes 8 0x40101

/-- A strand whose version holds such a block at 0x8100. -/
def wBcfg (b : List Byte) : State :=
  { wBins 3 wBin fun c => { c with version := b.zipIdx.map fun e => (0x8100 + e.2, e.1), versionId := some 0 } with dir := [] }

theorem test_meets_WalksSelectionAndBatches_block :
    passesChecks (wBcfg (wBlock 9 0x50000 0x40000)) 0x8100 32 .read none false 0x8100 ∧ (wBlock 9 0x50000 0x40000).length = 32 ∧
    (∀ j : Fin 32, verGet (wBcfg (wBlock 9 0x50000 0x40000)).core.version (0x8100 + j.val) = (wBlock 9 0x50000 0x40000)[j.val]?) ∧
    ((wBcfg (wBlock 9 0x50000 0x40000)).pin 0 1 0x8100).badBlock 1 0 (quads (wBlock 9 0x50000 0x40000)) = false ∧
    ((wBcfg (wBlock 9 0x50000 0x40000)).pin 0 1 0x8100).badBlock 1 0 (quads (wBlock 9 0x50001 0x40000)) = true ∧
    quad (quads (wBlock 9 0x50000 0x40000)) 0 = wBin.wsid ∧ quad (quads (wBlock 8 0x50000 0x40000)) 0 ≠ wBin.wsid :=
  ⟨passes_of rfl (by decide) rfl rfl, rfl, by decide, rfl, rfl, by decide, by decide⟩

theorem test_meets_WalksSelectionAndBatches_members :
    (wBase.die 0).binOf 1 9 = none ∧ ((wBins 7 wBin id).die 0).binOf 1 9 = some (7, wBin) ∧
    { wBin with closing := some (0, 3) }.closing.isSome ∧ { wBin with bsize := 1 }.bsize = 1 ∧
    (let o := { wBin with members := [1] }; o.members.length + 1 = o.bsize ∧ o.members ≠ [] ∧ wBase.cycle - 1 < o.t0 + o.win ∧
      { wBase with clock := 12 }.cycle - 1 = o.t0 + o.win ∧ { wBase with clock := 9 }.cycle < o.t0 + o.win ∧
      o.t0 + o.win ≤ { wBase with clock := 10 }.cycle) := by
  exact ⟨rfl, rfl, rfl, rfl, rfl, by decide, by decide, by decide, by decide, by decide⟩

/-- Memory with a template at 0x50000: version 1, one level of one core. -/
def wTmpl : List Byte := leBytes 8 0x101 ++ leBytes 8 7 ++ leBytes 8 64 ++ leBytes 8 0 ++ leBytes 8 0x101 ++ List.replicate 88 0

def wImgCtx : Context := { wCtx with images := [{ handle := 7, sqAddr := 0x90000, sqSize := 128, measure := 0 }] }

def wLaunchable : State :=
  { wBins 7 { wBin with members := [1], closing := some (0, 3) } id with contexts := [wImgCtx], mem := cellPutBytes wMem 0x50000 wTmpl }

theorem test_meets_WalksSelectionAndBatches_launch :
    let b := { wBin with members := [1], closing := some (0, 3) }
    assoc 7 (wLaunchable.die 0).bins = some b ∧ b.closing = some (0, 3) ∧ wLaunchable.binReady b = true ∧
    wLaunchable.templateSettled b = true ∧
    (∀ o ∈ (wLaunchable.die 0).bins, closedBefore (o.1, o.2.expire wLaunchable.cycle) (7, b) = true →
      wLaunchable.binReady (o.2.expire wLaunchable.cycle) = false) ∧
    (let u := wLaunchable.homeWrite 0x40000 (b.batch 0 3)
     (u.homeRead 0x50000 128).2.rcdStatus b.ctx (setAt 3 0x40000 (quads (u.homeRead 0x50000 128).1)) 0 = 0) ∧
    wLaunchable.barkerPage b 0x40000 64 .read = .ok 0x40000 ∧ wLaunchable.barkerPage b 0x40000 72 .write = .ok 0x40000 ∧
    (wLaunchable.homeWrite 0x40000 (b.batch 0 3)).barkerPage b b.tmpl 128 .read = .ok 0x50000 :=
  ⟨rfl, rfl, rfl, rfl, by decide, rfl, rfl, rfl, rfl⟩

/-! ### Queues, launches, pre-emption -/

/-- Quadwords of the template's record. -/
def wRcd : List W64 := quads wTmpl

/-- A state with one queue, and an image that records may name. -/
def wQ (q : Queue) : State :=
  { wEnq q with contexts := [wImgCtx], mem := cellPutBytes wMem 0x20080 wTmpl }

theorem test_meets_QueuesAndRecords_take :
    let q := { wQueue with tail := 2 }
    (wQ q).chosenQueue (queueDie 7) = some (q, false) ∧ (wQ q).rangeSettled (q.recAddr q.taken) 128 = true ∧
    q.boundTo.isSome ∧ (let u := { q with boundTo := none }; (wQ u).chosenQueue 0 = some (u, false) ∧
      (wQ u).rcdStatus u.ctx (quads ((wQ u).homeRead (u.recAddr u.taken) 128).1) 0 = 0 ∧
      { wQ u with contexts := [] }.rcdStatus u.ctx (quads ((wQ u).homeRead (u.recAddr u.taken) 128).1) 0 ≠ 0) :=
  ⟨rfl, rfl, rfl, rfl, rfl, by decide⟩

/-- A completion of record 1. -/
def wComp : Completion := { recno := some 1, after := 1, status := 4, utag := 6, report := none }

theorem test_meets_QueuesAndRecords_complete :
    let q := { wQueue with comps := [wComp] }
    (wQ q).queues.find? (fun y => y.id == 7) = some q ∧ q.nextComp = some wComp ∧
    (wQ q).rangeSettled (q.cring + 64 * (q.done % 2 ^ q.log2n)) 64 = true ∧ q.cring % 64 = 0 ∧ Memory.wf (wQ q).mem = true ∧
    ((wQ q).dirLine (lineOf (q.cring + 64 * (q.done % 2 ^ q.log2n)))).hs ≠ .upd :=
  ⟨rfl, rfl, rfl, rfl, rfl, by decide⟩

/-- 256 resident queues of the die, idle. -/
def wManyQs : List Queue :=
  { wQueue with id := 300, resident := false, waitingSince := some 3 } :: (List.range 256).map fun k => { wQueue with id := k, boundTo := none }

def wManyQ : State := { wBase with queues := wManyQs }

theorem test_meets_QueuesAndRecords_switch :
    (let q := { wQueue with resident := false, switching := true }; (wQ q).queue? 7 = some q) ∧
    (let q := { wQueue with resident := false, waitingSince := some 0 }; (wQ q).queue? 7 = some q ∧ (wQ q).residents 0 < 256 ∧
      ∀ y ∈ (wQ q).queues, queueDie y.id = queueDie 7 → y.waitingSince.isSome → y.switching = false → y.beats q = false) ∧
    (let q := { wQueue with switching := true }; (wQ q).queue? 7 = some q ∧ q.resident = true) := by decide

theorem test_meets_QueuesAndRecords_switch_out :
    wManyQ.queue? 255 = some { wQueue with id := 255, boundTo := none } ∧ ({ wQueue with id := 255, boundTo := none } : Queue).idle = true ∧
    256 ≤ wManyQ.residents 0 ∧ (∃ y ∈ wManyQ.queues, queueDie y.id = queueDie 255 ∧ y.waitingSince.isSome ∧ y.switching = false) ∧
    (wManyQ.queues.all fun y => decide (0 ≤ y.lastTaken)) = true :=
  ⟨rfl, rfl, by decide, ⟨_, List.mem_cons_self (a := { wQueue with id := 300, resident := false, waitingSince := some 3 }), by decide⟩, by decide⟩

theorem test_meets_QueuesAndRecords_arrivals :
    wBase.queue? 7 = none ∧ (wQ wQueue).queue? 7 = some wQueue ∧ (wQ wQueue).rangeSettled (wQueue.recAddr wQueue.tail) 128 = true ∧
    { wQueue with tail := 5 }.tail - { wQueue with tail := 5 }.taken = 2 ^ 2 ∧ wQueue.tail - wQueue.taken ≠ 2 ^ wQueue.log2n ∧
    wTmpl.length = 128 ∧ wQueue.ring % 128 = 0 ∧ Memory.wf (wQ wQueue).mem = true ∧
    ((wQ wQueue).dirLine (lineOf (wQueue.recAddr wQueue.tail))).hs ≠ .upd ∧
    (let q := { wQueue with sources := [(2, 5)] }
     (q.sources.any fun r => decide (r.1 ≤ 2) && decide (2 ≤ r.2)) = true ∧ (q.sources.any fun r => decide (r.1 ≤ 5) && decide (5 ≤ r.2)) = true ∧
     (q.sources.any fun r => decide (r.1 ≤ 6) && decide (6 ≤ r.2)) = false) ∧
    wBase.pcieTrained = false ∧ { wBase with pcieTrained := true }.pcieTrained = true :=
  ⟨rfl, rfl, rfl, rfl, by decide, by decide, rfl, rfl, by decide, ⟨rfl, rfl, rfl⟩, rfl, rfl⟩

/-- A launch of that record. -/
def wLaunch (st : LaunchSt) (gs : List Nat) : Launch :=
  { id := 0, src := .queue 7 1, ctx := 1, rcd := wRcd, st := st, clusters := gs, left := 1, err := none, preAt := 0 }

def wLaunched (st : LaunchSt) (gs : List Nat) : State := { wBase with contexts := [wImgCtx], launches := [wLaunch st gs] }

theorem test_meets_GangsAndInstancesStart :
    (∀ x ∈ (wLaunched .waiting []).launches, x.st ≠ .preempting) ∧ (wLaunched .waiting []).launch? 0 = some (wLaunch .waiting []) ∧
    (wLaunched .waiting []).ctx? 1 = some wImgCtx ∧ (wLaunched .waiting []).resumesFirst (wLaunch .waiting []) = false ∧
    (wLaunched .waiting []).barkerAhead (wLaunch .waiting []) = false ∧ (wLaunched .waiting []).armFree (wLaunch .waiting []) = true ∧
    placement (wLaunched .waiting []).clusterFree wRcd 0 = some [0] ∧ (∀ c ∈ ([0] : List Nat), c < 1024) ∧
    (∀ c ∈ ([0] : List Nat), assoc (1 * 1024 + c) (wLaunched .waiting []).strands = none) :=
  ⟨by decide, rfl, rfl, rfl, rfl, rfl, rfl, by decide, by decide⟩

/-- An idle strand with instance 0 of launch 0 to run. -/
def wInst : State := (wLaunched .running [0]).upd { wCore with seq := .idle, todo := [0], launch := some 0 }

theorem test_meets_GangsAndInstancesStart_instance :
    wInst.core.seq = .idle ∧ wInst.core.todo = 0 :: [] ∧ wInst.core.launch = some 0 ∧ wInst.launch? 0 = some (wLaunch .running [0]) ∧
    wInst.ctx? 1 = some wImgCtx ∧ (wInst.rcdImage 1 wRcd).isSome ∧ rcdNlev wRcd ≤ 8 ∧
    (wInst.die 0).bodyNo + 1 < 2 ^ 20 ∧ ¬ ({ Die.reset with bodyNo := 2 ^ 20 - 1 }.bodyNo + 1 < 2 ^ 20) :=
  ⟨rfl, rfl, rfl, rfl, rfl, rfl, by decide, by decide, by decide⟩

/-- An error charged to a task. -/
def wReport : FaultReport :=
  { faddr := 0, waddr := 0, taskid := 0, offset := 0, popped := 0, stream := none, engine := 7, core := 0, code := 0x48 }

theorem test_meets_AbortsAndPreemption_abort :
    let f := wWith fun c => { c with held := [wReport] }
    let b := wWith fun c => { c with held := [wReport], body := some { launch := 0, linear := 0, taskid := 1 } }
    f.core.abortDue = true ∧ f.core.commit = none ∧ f.cuttable f.core = true ∧ f.core.seq ≠ .preempted ∧ f.core.seq ≠ .stopped ∧
    b.core.abortDue = true ∧ b.cuttable b.core = true ∧ b.core.ring = none ∧ b.core.body.isSome ∧
    (let r := wRun.upd { wRun.core with held := [wReport], pickRet := some (0x8040, 5) }
     r.core.abortDue = true ∧ r.cuttable r.core = true ∧ r.core.ring.isSome ∧ r.core.pickRet = some (0x8040, 5)) :=
  ⟨rfl, rfl, rfl, by decide, by decide, rfl, rfl, rfl, rfl, rfl, rfl, rfl, rfl⟩

theorem test_meets_AbortsAndPreemption_preempt :
    let s := (wLaunched .preempting [0]).upd { wCore with launch := some 0 }
    let a := (wLaunched .preempting [0]).upd { wCore with launch := some 0, seq := .waita 5 0x8178 8 1, micro := 1 }
    s.preemptDue s.core = true ∧ s.atPoint s.core = true ∧ a.preemptDue a.core = true ∧ a.atPoint a.core = true :=
  ⟨rfl, rfl, rfl, rfl⟩

/-- A program that stands at a point. -/
def wProg : ProgRun :=
  { cmd := wCmd, core := 0, start := 0x8000, pc := 0x8004, regs := Vector.replicate 16 0, loops := [], stage := 0, point := true
    done := 0, buf := [], idx := none, streams := [], up := none, down := none, code := [], waits := none, fault := none
    circuit := false, stopped := false }

theorem test_meets_AbortsAndPreemption_engines :
    let s := wWith fun c => { c with seq := .preempted, xin := some wProg, xout := some wProg }
    (s.coreAt 0).seq = .preempted ∧ (s.coreAt 0).vrun = none ∧ (s.coreAt 0).xin = some wProg ∧ (s.coreAt 0).xout = some wProg ∧
    wProg.stopped = false ∧ wProg.point = true ∧ (∀ r, (s.coreAt 0).remote = some r → r.who ≠ .xin) ∧
    (let u := s.putCluster 0 { Cluster.reset with arr1 := { MatArray.reset with run := some wProg } }
     ((u.cluster (clusterOf 0)).arr 1).run = some wProg ∧ wProg.core = 0 ∧ (u.coreAt 0).seq = .preempted) :=
  ⟨rfl, rfl, rfl, rfl, rfl, rfl, nofun, rfl, rfl, rfl⟩

theorem test_meets_AbortsAndPreemption_resume :
    (∀ x ∈ (wLaunched .preempted [0]).launches, x.st ≠ .preempting) ∧ (wLaunched .preempted [0]).launch? 0 = some (wLaunch .preempted [0]) ∧
    (∀ g ∈ (wLaunch .preempted [0]).clusters, (wLaunched .preempted [0]).clusterFree g = true) ∧
    (wLaunched .preempted [0]).claimed (wLaunch .preempted [0]) = false ∧ (wLaunch .preempted [0]).shape = false ∧
    (let v : Saved := { launch := 0, core := { wCore with vsh := 258 } }
     v.wide = false ∧ ({ v with core := { wCore with vsh := 514 } } : Saved).wide = true ∧
     ([{ v with core := { wCore with vsh := 514 } }].find? fun y : Saved => y.launch == 0 && y.wide).isSome = true) := by decide

/-! ### Commits and the protocol -/

/-- A commit of one line in slice 4, its store still on the way or not, with a marker where given. -/
def wCom (st : List (Nat × List Nat)) (marked acked : List Nat) : State :=
  wWith fun c => { c with
    version := [(0x8100, 1), (0x8101, 2)], versionId := some 3, stores := st
    commit := some { dests := [lineHome 0x102], marked := marked, acked := acked, number := none, implied := false } }

theorem test_meets_CommitsGoThrough :
    (wCom [(3, [0x8100]), (4, [0x8100])] [] []).core.stores[1]? = some (4, [0x8100]) ∧
    (∀ y ∈ (wCom [(3, [0x8100]), (4, [0x8100])] [] []).core.stores.take 1, y.1 ≠ 4) ∧
    (∃ r, (wCom [] [] []).core.commit = some r ∧ r.number = none ∧ lineHome 0x102 ∈ r.dests ∧ lineHome 0x102 ∉ r.marked) ∧
    (wCom [] [] []).core.stores = [] ∧ versionLines (wCom [] [] []).core.version (lineHome 0x102) = [0x102] ∧
    ((wCom [] [] []).dirLine 0x102).await = [] ∧ ((wCom [] [] []).dirLine 0x102).hs ≠ .mrg ∧ ((wCom [] [] []).dirLine 0x102).hs ≠ .upd ∧
    (wCom [] [] []).waitsAtHome 0x102 = false ∧ (wCom [] [] []).msgs = [] ∧ (wCom [] [] []).behindQ 0 (lineHome 0x102) = false ∧
    ((wCom [] [] []).region (0x102 / 4)).evicting = false ∧ (wCom [] [] []).hasRoom (0x102 / 4) = true ∧
    (∃ r, (wCom [] [lineHome 0x102] []).core.commit = some r ∧ lineHome 0x102 ∈ r.marked ∧ lineHome 0x102 ∉ r.acked) ∧
    (∃ r, (wCom [] [lineHome 0x102] [lineHome 0x102]).core.commit = some r ∧ (∀ d ∈ r.dests, d ∈ r.acked)) ∧
    Memory.wf (wCom [] [] []).mem = true ∧ rising (wCom [] [] []).core.version ∧
    (wCom [] [] []).commitNo ≠ 2 ^ 48 - 1 ∧ { wCom [] [] [] with commitNo := 2 ^ 48 - 1 }.commitNo = 2 ^ 48 - 1 := by
  refine ⟨rfl, by decide, ⟨_, rfl, rfl, by decide, by decide⟩, rfl, by decide, by decide, by decide, by decide, rfl, rfl, rfl, rfl, by decide,
    ⟨_, rfl, by decide, by decide⟩, ⟨_, rfl, by decide⟩, rfl, ?_, by decide, rfl⟩
  unfold rising
  decide

theorem test_meets_CommitsGoThrough_fence :
    let f := fun (m a : List Nat) => wWith fun c => { c with fence := some { dests := [3], marked := m, acked := a } }
    (∃ r, (f [] []).core.fence = some r ∧ 3 ∈ r.dests ∧ 3 ∉ r.marked) ∧ (f [] []).core.stores = [] ∧
    (∃ r, (f [3] []).core.fence = some r ∧ 3 ∈ r.marked ∧ 3 ∉ r.acked) ∧ (f [3] []).core.commit = none ∧
    ({ wBase with notices := [{ core := 0, slice := 4, lines := [0x102] }] } : State).notices.find? (fun n => n.core == 0 && n.slice == 4) =
      some { core := 0, slice := 4, lines := [0x102] } ∧
    (wBase.region (0x102 / 4)).walkers = [] ∧
    (let s : State := { wBase with regions := [{ region := 0x40, walk0 := false, walk1 := true, pres := [] }] }
     1 ∈ (s.region (0x102 / 4)).walkers ∧ s.shootingDown 1 (0x102 / 4) = false ∧
     { s with msgs := [.shootdown 1 0x40] }.shootingDown 1 (0x102 / 4) = true) :=
  ⟨⟨_, rfl, by decide, by decide⟩, rfl, ⟨_, rfl, by decide, by decide⟩, rfl, rfl, rfl, by decide, rfl, rfl⟩

/-- Line 0x102 in a region cluster 0 holds, in a given state, with one message in flight. -/
def wHome (d : DirLine) (m : Msg) : State :=
  { wBase with dir := [d], regions := [{ region := 0x40, walk0 := false, walk1 := false, pres := [0] }], msgs := [m] }

def wDir (h : HomeSt) (o : Nat) (a : List Nat) : DirLine := { DirLine.unc 0x102 with hs := h, owner := o, await := a }

theorem test_meets_RequestsAreServed :
    let m := Msg.readReq 0 0x102
    placed (wHome (wDir .shd 0 []) m) 0x102 ∧ arrives (wHome (wDir .shd 0 []) m) 0 m ∧
    ((wHome (wDir .shd 0 [5]) m).dirLine 0x102).blocked = true ∧ ((wHome (wDir .cmt 0 []) m).dirLine 0x102).blocked = true ∧
    ((wHome (wDir .shd 0 []) m).dirLine 0x102).blocked = false ∧ ((wHome (wDir .unc 0 []) m).dirLine 0x102).hs = .unc ∧
    ((wHome (wDir .own 5 []) m).dirLine 0x102).owner ≠ 0 ∧ ((wHome (wDir .upd 0 []) m).dirLine 0x102).hs = .upd :=
  ⟨by unfold placed; decide, ⟨_, rfl⟩, rfl, rfl, rfl, rfl, by decide, rfl⟩

/-- With no request at a home, a set is quiet while none of its regions has just been evicted. -/
theorem quiet_of {s : State} {l : Nat} (hq : s.homeQ = []) (hr : s.setRegions (l / 4) = []) : quietSet s l := by
  refine ⟨fun m hm => ?_, fun r h => ?_⟩
  · rw [hq] at hm; exact absurd hm List.not_mem_nil
  · rw [hr] at h; exact absurd h List.not_mem_nil

theorem test_meets_RequestsAreServed_quiet :
    let s := wHome (wDir .shd 0 [5]) (.readReq 0 0x102)
    quietSet s 0x102 ∧ (s.dirLine 0x102).blocked = true :=
  ⟨⟨fun m hm => absurd hm List.not_mem_nil, by decide⟩, rfl⟩

theorem test_meets_RequestsAreServed_grants :
    let s := wHome (wDir .shd 0 []) (.grantReq 0 0x102)
    let u := (wHome (wDir .shd 0 []) (.grantReq 5 0x102)).putCluster 0 { Cluster.reset with filter := [{ FilterEntry.empty 0x102 .none with st := .s }] }
    arrives s 0 (.grantReq 0 0x102) ∧ s.sharers (s.dirLine 0x102) 0 = [] ∧
    arrives u 0 (.grantReq 5 0x102) ∧ placed u 0x102 ∧ u.sharers (u.dirLine 0x102) 5 = [0] ∧
    arrives (wHome (wDir .shd 0 []) (.updReq 0 0x102 .addI32)) 0 (.updReq 0 0x102 .addI32) ∧
    (let v := wHome { wDir .upd 0 [] with op := some .addI32, parks := [(0, wPart)] } (.updReq 0 0x102 .addI32)
     arrives v 0 (.updReq 0 0x102 .addI32) ∧ (v.dirLine 0x102).op = some .addI32 ∧ (v.dirLine 0x102).parks.find? (fun x => x.1 = 0) = some (0, wPart)) :=
  ⟨⟨_, rfl⟩, rfl, ⟨_, rfl⟩, by unfold placed; decide, by decide, ⟨_, rfl⟩, ⟨_, rfl⟩, rfl, by decide⟩

theorem test_meets_RequestsAreServed_merge :
    let s := { wHome { wDir .mrg 0 [] with op := some .addI32, parks := [(0, wPart)] } (.readReq 0 0) with msgs := [] }
    (s.dirLine 0x102).hs = .mrg ∧ (s.dirLine 0x102).await = [] ∧ (∀ g p, .parked g 0x102 p ∉ s.msgs) ∧ Memory.wf s.mem = true ∧
    (s.merged (s.dirLine 0x102) [(0, wPart)]).length = 128 :=
  ⟨rfl, rfl, fun _ _ => List.not_mem_nil, rfl, by decide⟩

/-- Cluster 0's entry of line 0x102, with one message in flight. -/
def wEntry (e : FilterEntry) (m : Msg) : State := { (wBase.putCluster 0 { Cluster.reset with filter := [e] }) with msgs := [m] }

theorem test_meets_ProtocolMessagesComplete :
    arrives (wHome (wDir .own 0 []) (.writeBack 0 0x102)) 0 (.writeBack 0 0x102) ∧
    arrives (wHome (wDir .mrg 0 []) (.parked 0 0x102 wPart)) 0 (.parked 0 0x102 wPart) ∧
    ((wHome { wDir .mrg 0 [] with op := some .addI32 } (.parked 0 0x102 wPart)).dirLine 0x102).op = some wPart.tag ∧
    ((wHome (wDir .shd 0 []) (.parked 0 0x102 wPart)).dirLine 0x102).hs ≠ .upd ∧
    (∀ p, arrives (wHome (wDir .shd 0 []) (.probe 0 0x102 p none)) 0 (.probe 0 0x102 p none)) ∧
    ((wHome (wDir .shd 0 []) (.probe 0 0x102 .read none)).cluster 0).entry 0x102 = none ∧
    (let e := { FilterEntry.empty 0x102 .none with st := .o }
     arrives (wEntry e (.probe 0 0x102 .read (some 3))) 0 (.probe 0 0x102 .read (some 3)) ∧
       ((wEntry e (.probe 0 0x102 .read (some 3))).cluster 0).entry 0x102 = some e ∧ e.hold = [] ∧ e.queue = []) :=
  ⟨⟨_, rfl⟩, ⟨_, rfl⟩, rfl, by decide, fun p => ⟨_, by cases p <;> rfl⟩, rfl, ⟨_, rfl⟩, rfl, rfl, rfl⟩

theorem test_meets_ProtocolMessagesComplete_held :
    let e := FilterEntry.empty 0x102 .is
    let s := { wEntry e (.probe 0 0x102 .read none) with msgs := [.probe 0 0x102 .read none, .reply 0 0x102 .s none] }
    arrives s 0 (.probe 0 0x102 .read none) ∧ (s.cluster 0).entry 0x102 = some e ∧ e.xs = .is ∧
    { s with msgs := restMsgs s 0 }.replying 0 0x102 = true ∧
    (let m := { FilterEntry.empty 0x102 .none with st := .m }
     let u := (wEntry m (.probe 0 0x102 .invalidate none)).upd { wCore with claim := some (0x102, 0x8000) }
     u.ownFirst 0 0x102 = true ∧ (wEntry m (.probe 0 0x102 .read none)).ownFirst 0 0x102 = false) := ⟨⟨_, rfl⟩, rfl, rfl, rfl, by decide⟩

theorem test_meets_ProtocolMessagesComplete_answers :
    let m := Msg.answer 5 0x102 (some wPart) false false
    arrives (wHome (wDir .mrg 0 [5, 6]) m) 0 m ∧ ((wHome (wDir .mrg 0 [5, 6]) m).dirLine 0x102).await.filter (· ≠ 5) ≠ [] ∧
    ((wHome (wDir .mrg 0 [5]) m).dirLine 0x102).await.filter (· ≠ 5) = [] ∧ ((wHome (wDir .cmt 0 [5]) m).dirLine 0x102).hs = .cmt ∧
    (let s := { wHome (wDir .own 5 [5]) m with homeQ := [.readReq 7 0x102] }
     s.homeQ.find? (fun m => m.line == 0x102) = some (.readReq 7 0x102) ∧ (s.region (0x102 / 4)).evicting = false) :=
  ⟨⟨_, rfl⟩, by decide, by decide, rfl, rfl, rfl⟩

theorem test_meets_ProtocolMessagesComplete_replies :
    (let e := FilterEntry.empty 0x102 .im
     arrives (wEntry e (.reply 0 0x102 .m none)) 0 (.reply 0 0x102 .m none) ∧
       ((wEntry e (.reply 0 0x102 .m none)).cluster 0).entry 0x102 = some e ∧ e.queue = [] ∧ e.heldProbes = [] ∧
       (wEntry e (.reply 0 0x102 .m none)).evictee 0 0x102 = none ∧
       ∀ j : Fin 4, ((wEntry e (.reply 0 0x102 .m none)).coreAt (4 * 0 + j.val)).loads = []) ∧
    (let e := FilterEntry.empty 0x102 .mi
     arrives (wEntry e (.wbAck 0 0x102)) 0 (.wbAck 0 0x102) ∧ ((wEntry e (.wbAck 0 0x102)).cluster 0).entry 0x102 = some e ∧ e.xs = .mi) ∧
    arrives { wBase with msgs := [.shootdown 1 0x40] } 0 (.shootdown 1 0x40) :=
  ⟨⟨⟨_, rfl⟩, rfl, rfl, rfl, rfl, by decide⟩, ⟨⟨_, rfl⟩, rfl, rfl⟩, ⟨_, rfl⟩⟩

/-- A lease that ends at cycle 3. -/
def wLease : Lease := { line := 5, bytes := [], expiry := 3 }

theorem test_meets_ProtocolMessagesComplete_leases :
    (let s := wBase.putCluster 0 { Cluster.reset with leases := [wLease] }
     s.allLeases[0]? = some (some 0, 0, wLease) ∧ leaseEnded { s with clock := 6 }.cycle wLease.expiry = true ∧
       leaseEnded { s with clock := 5 }.cycle wLease.expiry = false) ∧
    ({ wBase with l2leases := [(1, wLease)] } : State).allLeases[0]? = some (none, 1, wLease) := ⟨⟨rfl, by decide, by decide⟩, rfl⟩

/-! ### Attention -/

/-- Bytes as the cells from an address up. -/
def cells (p : Nat) : List Byte → List Host.Cell
  | [] => []
  | b :: t => (p, b) :: cells (p + 1) t

theorem verGet_cells (bs : List Byte) : ∀ p j, verGet (cells p bs) (p + j) = bs[j]? := by
  induction bs with
  | nil => intro p j; simp [cells, verGet]
  | cons b t ih =>
    intro p j
    cases j with
    | zero => simp [cells, verGet]
    | succ j => simpa [cells, verGet, Nat.add_comm, Nat.add_left_comm] using ih (p + 1) j

/-- The base state with bytes at 0x8000 in the version; g6 = 0x8000 and g5 = 7. -/
def wData (bs : List Byte) (f : Core → Core) : State :=
  wWith fun c => f (setR 6 0x8000 { c with version := cells 0x8000 bs, versionId := some 0 })

theorem versionHolds_of (s : State) (bs : List Byte) (p : Nat) (h : s.core.version = cells p bs) : versionHolds s p bs := by
  intro j _
  rw [h, verGet_cells]

theorem upd_checkPage (s : State) (c : Core) (ctx g : Nat) (va : W64) (n : Nat) (need : Need) :
    (s.upd c).checkPage ctx g va n need = s.checkPage ctx g va n need := rfl

theorem upd_check (s : State) (c : Core) (va : W64) (n : Nat) (need : Need) (r : Bool) (h : c.ctx = s.core.ctx) (hi : c.id = s.core.id) :
    (s.upd c).check va n need none r = s.check va n need none r := by
  have h1 : (s.upd c).core = c := rfl
  simp only [State.check, upd_checkPage, h1, h, hi]

theorem wData_check (bs : List Byte) (n : Nat) : (wData bs id).check 0x8000 n .read none false = wBase.check 0x8000 n .read none false :=
  upd_check wBase _ _ _ _ _ rfl rfl

theorem wData_dataAt (bs : List Byte) (h : bs.length = 32 ∨ bs.length = 64 ∨ bs.length = 4096) : dataAt (wData bs id) 0x8000 bs := by
  refine ⟨0x8000, ?_, versionHolds_of _ bs _ rfl⟩
  rcases h with h | h | h <;> rw [h] <;> exact passes_of ((wData_check bs _).trans rfl) (by decide) rfl rfl

/-- A model of one layer and one head of 64 bf16 numbers, 16 tokens to a page. -/
def wModel : KvModel :=
  { rbase := 0x461C4000, scl := 0, model := 1, ropeid := 0, roth := 0, pair := false, layers := 1, kvh := 1, gqa := 1, hd := 64, tpp := 16, kvfmt := 9 }

/-- HEAD of a sequence of n tokens and one span, with room for c spans. -/
def wHead (lib c n : Nat) : Nat := 2 ^ 124 + 2 ^ 112 + c * 2 ^ 104 + lib * 2 ^ 103 + 5 * 2 ^ 76 + n * 2 ^ 52

/-- A span of n tokens whose slots begin at p. -/
def wSpan (n p : Nat) : KvSpan :=
  { start := 0, cnt := n, plist := p, off := 0, delta := 0, prov := 0, rwm := 0, stale := false, spl := false }

/-- PAGES whose first slot holds a page and whose others are empty. -/
def wPages (p : Nat) : Nat := 3 * 2 ^ 124 + (2 ^ 96 - 2 ^ 24) + p

/-- Segment 0 of chiplet 0 is context 1's: a sequence of ten tokens at entry 0, a block of sixteen at entry 20, their pages 2 and 3. -/
def wChip : Chip :=
  { Chip.reset with
    entries := [(0, BitVec.ofNat 128 (wHead 0 4 10)), (1, BitVec.ofNat 128 (wSpan 10 40).value), (10, BitVec.ofNat 128 (wPages 2)),
                (11, BitVec.ofNat 128 (wPages 3)), (20, BitVec.ofNat 128 (wHead 1 1 16)), (21, BitVec.ofNat 128 (wSpan 16 44).value)]
    locks := [(0, 1), (3, 2)]
    frames := [(2, { ctx := 1, owner := 5, ohold := true, share := 0 }), (3, { ctx := 1, owner := 5, ohold := true, share := 0 })]
    models := [(16, wModel)] }

def wAttn (f : Core → Core) : State := { wWith f with chip0 := wChip }

/-- Quadwords as bytes. -/
def wQuads (l : List Nat) : List Byte := l.flatMap (leBytes 8)

/-- A model descriptor: 16 tokens to a page, the head size code given, bf16. -/
def wDesc (hdc : Nat) : List Byte := wQuads [hdc * 2 ^ 62 + 9 * 2 ^ 56, 2 ^ 48 + 2 ^ 16 + 2 ^ 8 + 1, 0x461C4000 * 2 ^ 32, 0, 0, 0, 0, 0]

theorem test_meets_AttentionTablesComplete_config :
    nv (wWith (setR 7 31)) 7 < 32 ∧ 32 ≤ nv (wWith (setR 7 32)) 7 ∧ (wDesc 0).length = 64 ∧ dataAt (wData (wDesc 0) id) 0x8000 (wDesc 0) ∧
    modelRes (quads (wDesc 0)) = none ∧ (modelOf (quads (wDesc 0))).ok 0 65536 = true ∧ (modelOf (quads (wDesc 3))).ok 3 65536 = false ∧
    kindOf (BitVec.ofNat 128 (wHead 0 4 10)).toNat = 1 ∧ headMd (BitVec.ofNat 128 (wHead 0 4 10)).toNat = 0 ∧ wChip.mine 1 0 = true ∧
    Chip.reset.entries = [] :=
  ⟨by decide, by decide, rfl, wData_dataAt _ (.inr (.inl rfl)), rfl, rfl, rfl, by decide, by decide, rfl, rfl⟩

/-- A queued command on the sequence. -/
def wAttnCmd (k : AttnKind) : AttnCmd :=
  { core := 0, ctx := 1, task := 0, num := 0, word := 0x8000, kind := k, desc := [0, 0x9000, 0xA000, 0], head := 0, owner := 5, model := wModel
    spans := [wSpan 10 40], shown := [10], frames := [(40, 2)], holds := [2], segs := [0], posns := [], thr := 0, waiting := false
    partial_ := false, begun := false, input := [], tokens := 0, stage := 0, output := [], count := 0, wrote := 0, forked := false, fault := none }

theorem test_meets_AttentionTablesComplete_segments :
    nv (wWith (setR 7 0x7FF)) 7 < 2 ^ 11 ∧ 2 ^ 11 ≤ nv (wWith (setR 7 0x800)) 7 ∧ { wChip with cmds := [wAttnCmd .put] }.segBusy 0 = true ∧
    wChip.segBusy 0 = false ∧ (assoc 0 wChip.locks).isSome ∧ assoc 1 wChip.locks = none ∧ (List.replicate 4096 (0 : Byte)).length = 4096 ∧
    dataAt (wData (List.replicate 4096 0) id) 0x8000 (List.replicate 4096 0) ∧ assoc 3 wChip.locks = some 2 ∧ 2 ≠ ctxOf (wAttn id) ∧
    assoc 0 wChip.locks = some (ctxOf (wAttn id)) ∧ passesChecks (wAttn (setR 10 0x8000)) 0x8000 4096 .write none false 0x8000 ∧
    (wWith (setR 10 0x8000)).core.commit = none ∧ (wChip.locks.filter fun l => l.2 == 1).length < wCtx.limSegs ∧
    { wCtx with limSegs := 1 }.limSegs ≤ (wChip.locks.filter fun l => l.2 == 1).length ∧ ¬ quotaPassed wBase.core 0x8000 4096 :=
  ⟨by decide, by decide, rfl, rfl, rfl, rfl, List.length_replicate .., wData_dataAt _ (.inr (.inr (List.length_replicate ..))), rfl, by decide, rfl,
    passes_of rfl (by decide) rfl rfl, rfl, by decide, by decide, fun h => h.1 rfl⟩

theorem wChip_head : wChip.lookHead 1 0 0 = .ok (wHead 0 4 10, wModel) := by rfl

theorem wChip_spans : wChip.lookSpans 1 0 0 (wHead 0 4 10) = .ok [wSpan 10 40] := by rfl

theorem wChip_block : wChip.lookHead 1 0 20 = .ok (wHead 1 1 16, wModel) ∧ wChip.lookSpans 1 0 20 (wHead 1 1 16) = .ok [wSpan 16 44] := ⟨rfl, rfl⟩

theorem test_meets_AttentionTablesComplete_status :
    nv (wWith (setR 7 0x7FFFF)) 7 < 2 ^ 19 ∧ wChip.lookHead 1 0 0 = .ok (wHead 0 4 10, wModel) ∧
    wChip.lookSpans 1 0 0 (wHead 0 4 10) = .ok [wSpan 10 40] ∧ 0 < headNspan (wHead 0 4 10) ∧
    (∃ x, wChip.look 1 0 2 1 = .ok x ∧ spanOf x = wSpan 10 40) ∧
    (let c := { wChip with entries := wChip.entries.filter fun e => e.1 ≠ 1 }
     c.lookHead 1 0 0 = .ok (wHead 0 4 10, wModel) ∧ (∃ f, c.look 1 0 2 1 = .error f) ∧ ∃ f, c.lookSpans 1 0 0 (wHead 0 4 10) = .error f) ∧
    headNspan (wHead 0 4 10) ≤ 1 ∧ (∃ f, wChip.lookHead 1 0 5 = .error f) ∧ handles (wAttn id) ∧ nv (wWith (setR 7 1)) 7 < 2 :=
  ⟨by decide, wChip_head, wChip_spans, by decide, ⟨_, rfl, rfl⟩, ⟨rfl, ⟨_, rfl⟩, ⟨_, rfl⟩⟩, by decide, ⟨_, rfl⟩, by unfold handles; decide,
    by decide⟩

theorem test_meets_AttentionPoolCompletes_slots :
    nv (wWith (setR 7 0x1FFFFF)) 7 < 2 ^ 21 ∧ nv (wWith (setR 8 0xFFFFFF0FFF)) 8 < 2 ^ 40 ∧ nv (wWith (setR 8 0xFFFFFF0FFF)) 8 / 2 ^ 12 % 16 = 0 ∧
    nv (wWith (setR 8 0xFFFFFF0FFF)) 8 % 2 ^ 12 ≠ 0 ∧ (∀ i : Fin 4, wChip.lookSlot 1 0 (40 + i.val) = .ok ()) ∧ (wChip.slot 40).1 ≠ noPage ∧
    (∀ i : Fin 3, (wChip.slot (41 + i.val)).1 = noPage) ∧ wChip.reserve + 3 ≤ wChip.free ∧
    { wChip with reserve := 4194300 }.free < { wChip with reserve := 4194300 }.reserve + 3 ∧ keysRise wChip.frames ∧ wChip.npg < 2 ^ 24 := by
  refine ⟨by decide, by decide, by decide, by decide, ?_, by decide, by decide, by decide, by decide, ?_, by decide⟩
  · exact (by decide : ∀ i : Fin 4, wChip.lookSlot 1 0 (40 + i.val) = .ok ())
  · unfold keysRise
    decide

theorem test_meets_AttentionPoolCompletes_free :
    { wChip with cmds := [wAttnCmd .put] }.holdsSeq 0 = true ∧ wChip.holdsSeq 0 = false ∧ (∃ c, wChip.freeSeq 1 0 0 = .ok c) ∧
    nv (wWith (setR 8 4)) 8 < 2 ^ 12 ∧ nv (wWith (setR 7 5)) 7 ≠ 0 ∧ nv (wWith (setR 7 0xFFFFFF)) 7 < 2 ^ 24 :=
  ⟨rfl, rfl, ⟨_, rfl⟩, by decide, by decide, by decide⟩

theorem test_meets_AttentionPoolCompletes_reclaim :
    let s := { wBase with die0 := { Die.reset with reclaims := [{ ctx := 1, owner := 5, tasks := [0x00100000] }] } }
    (s.die0.reclaims ++ s.die1.reclaims)[0]? = some { ctx := 1, owner := 5, tasks := [0x00100000] } ∧ s.tcb? 0x00100000 = none ∧
    s.cancels = [] := ⟨rfl, rfl, rfl⟩

/-- The splice of the block at entry 20 into the sequence at entry 0 at position p, its slots at entry 30. -/
def wSplice (p : Nat) (c : Chip) : State := { wAttn (setR 9 30 ∘ setR 8 (BitVec.ofNat 64 (p * 2 ^ 40 + 20))) with chip0 := c }

theorem test_meets_AttentionPoolCompletes_splice :
    nv (wSplice 10 wChip) 0 < 2 ^ 19 ∧ nv (wSplice 10 wChip) 9 < 2 ^ 19 ∧ nv (wSplice 10 wChip) 8 / 2 ^ 19 % 2 ^ 21 = 0 ∧
    nv (wSplice 10 wChip) 8 / 2 ^ 18 % 2 = 0 ∧ nv (wSplice 10 wChip) 9 / 2 ^ 18 = 0 ∧ (slotsOf wModel [wSpan 16 44]).length = 1 ∧
    wChip.needMine 1 0 ((List.range 2).map (· + 30)) = .ok () ∧ headLib (wHead 1 1 16) = 1 ∧ headLib (wHead 0 4 10) ≠ 1 ∧
    wModel.quad = wModel.quad ∧ { wModel with model := 2 }.quad ≠ wModel.quad ∧ headLen (wHead 0 4 10) < 11 ∧ 10 ≤ headLen (wHead 0 4 10) ∧
    headApp (wHead 0 4 10) = 0 ∧ wChip.cmds = [] ∧ (∀ q ∈ [wSpan 16 44], q.stale = false ∧ q.spl = false ∧ q.prov = 0) ∧
    headCap (wHead 0 2 10) < headNspan (wHead 0 2 10) + headNspan (wHead 1 1 16) + 1 ∧
    headNspan (wHead 0 4 10) + headNspan (wHead 1 1 16) + 1 ≤ headCap (wHead 0 4 10) ∧ (∀ i : Fin 2, kindOf (wChip.entry (30 + i.val)) = 0) ∧
    kindOf (wChip.entry 10) ≠ 0 ∧ 30 / 256 = (30 + 2 - 1) / 256 ∧ 255 / 256 ≠ (255 + 2 - 1) / 256 ∧
    (∀ q ∈ splicedSpans wModel 10 16 30 124 [wSpan 10 40] [wSpan 16 44], -(2 ^ 19) ≤ q.delta ∧ q.delta < 2 ^ 19) ∧
    wChip.needMine 1 0 ((List.range 2).map (· + 1)) = .ok () ∧ eachOk (wChip.lookPage 1 0) (slotsOf wModel [wSpan 16 44]) = .ok [3] :=
  ⟨by decide, by decide, by decide, by decide, by decide, by decide, rfl, by decide, by decide, rfl, by decide, by decide, by decide, by decide,
    rfl, by decide, by decide, by decide, by decide, by decide, by decide, by decide, by decide, rfl, rfl⟩

/-- The descriptor of a fork of n tokens into entry 50 with room for c spans, its slots at entry 60. -/
def wFork (c n : Nat) : List Byte := wQuads [50 * 2 ^ 27 + c * 2 ^ 19 + 60 * 2, 0, 0, n * 2 ^ 40]

theorem test_meets_AttentionPoolCompletes_fork :
    (wFork 1 5).length = 32 ∧ dataAt (wData (wFork 1 5) id) 0x8000 (wFork 1 5) ∧ bitsOf (quad (quads (wFork 1 5)) 0) 0 0 = 0 ∧
    quad (quads (wFork 1 5)) 1 = 0 ∧ quad (quads (wFork 1 5)) 2 = 0 ∧ bitsOf (quad (quads (wFork 1 5)) 3) 39 0 = 0 ∧
    bitsOf (quad (quads (wFork 1 5)) 0) 62 45 = 0 ∧ bitsOf (quad (quads (wFork 1 10)) 3) 63 40 ≤ headLen (wHead 0 4 10) ∧
    0 < (keptSpans 5 [wSpan 10 40]).length ∧ bitsOf (quad (quads (wFork 0 5)) 0) 26 19 = 0 ∧ (keptSpans 5 [wSpan 10 40]).length ≤ 1 ∧
    wChip.needMine 1 0 ((List.range 2).map (· + 50) ++ (List.range 1).map (· + 60)) = .ok () ∧ kindOf (wChip.entry 50) = 0 ∧
    kindOf (wChip.entry 51) = 0 ∧ kindOf (wChip.entry 60) = 0 ∧ kindOf (wChip.entry 10) ≠ 0 ∧ wChip.reserve + 1 ≤ wChip.free ∧
    { wChip with reserve := 4194302 }.free < { wChip with reserve := 4194302 }.reserve + 1 ∧
    cutSlots wModel (keptSpans 5 [wSpan 10 40]) ≠ [] ∧ cutSlots wModel (keptSpans 0 [wSpan 10 40]) = [] ∧
    eachOk (wChip.lookPage 1 0) (slotsOf wModel (keptSpans 5 [wSpan 10 40])) = .ok [2] :=
  ⟨rfl, wData_dataAt _ (.inl rfl), rfl, rfl, rfl, rfl, rfl, by decide, by decide, rfl, by decide, rfl, by decide, by decide, by decide,
    by decide, by decide, by decide, by decide, rfl, rfl⟩

/-- The descriptor of a command of n positions at layer 0 of the sequence at entry 0, with its addresses. -/
def wQueued (n : Nat) : List Byte := wQuads [n * 2 ^ 25, 0x9000, 0xA000, 0]

theorem test_meets_QueuedAttentionCompletes_check :
    (wWith fun c => { c with slack := Vector.replicate 5 1, aq := [wCmd] }).core.aq.length ≥ (1 : Nat) ∧
    mayIssue (wWith id).core.slack[4] (wWith id).core.aq.length ∧ (wQueued 1).length = 32 ∧ dataAt (wData (wQueued 1) id) 0x8000 (wQueued 1) ∧
    AttnKind.append.bad (quads (wQueued 1)) = none ∧ (AttnKind.query false).bad (quads (wQueued 4095)) = none ∧
    (AttnKind.query true).bad (quads (wQueued 1)) = none ∧ AttnKind.put.bad (quads (wQueued 0)) = none ∧
    bitsOf (quad (quads (wQueued 0)) 0) 36 25 = 0 ∧ bitsOf (quad (quads (wQueued 1)) 0) 44 37 < wModel.layers ∧
    (wWith fun c => { c with micro := 2 }).core.micro = 2 :=
  ⟨by decide, by unfold mayIssue; decide, rfl, wData_dataAt _ (.inl rfl), rfl, rfl, rfl, rfl, rfl, by decide, rfl⟩

/-- The descriptor of KREPAIR.sel over n positions from 0. -/
def wSel (n : Nat) : List Byte := wQuads [n * 2, 0x9000, 0xA000, 0]

theorem test_meets_QueuedAttentionCompletes_enters :
    (∃ c x, wChip.checkAppend 0 ((wAttn id).newCmd .append (quads (wQueued 1)) 0 (wHead 0 4 10) wModel [wSpan 10 40]) (wHead 0 4 10) = .ok (.inr (c, x))) ∧
    wChip.checkAppend 0 ((wAttn id).newCmd .append (quads (wQueued 1)) 20 (wHead 1 1 16) wModel [wSpan 16 44]) (wHead 1 1 16) = .ok (.inl 2) ∧
    (∃ x, wChip.checkQuery 0 ((wAttn id).newCmd (.query false) (quads (wQueued 1)) 0 (wHead 0 4 10) wModel [wSpan 10 40]) (wHead 0 4 10) false = .ok x) ∧
    (∃ x, wChip.checkQuery 0 ((wAttn id).newCmd (.query true) (quads (wQueued 1)) 0 (wHead 0 4 10) wModel [wSpan 10 40]) (wHead 0 4 10) true = .ok x) ∧
    AttnKind.sel.bad (quads (wSel 1)) = none ∧
    (∃ x, wChip.checkRepair 0 ((wAttn id).newCmd .sel (quads (wSel 1)) 0 (wHead 0 4 10) wModel [wSpan 10 40])
      (selPosns (quad (quads (wSel 1)) 0) [wSpan 10 40]) = .ok x) ∧
    (∃ x, wChip.checkRepair 0 ((wAttn id).newCmd .put (quads (wQueued 0)) 0 (wHead 0 4 10) wModel [wSpan 10 40]) [] = .ok x) :=
  ⟨⟨_, _, rfl⟩, rfl, ⟨_, rfl⟩, ⟨_, rfl⟩, rfl, ⟨_, rfl⟩, ⟨_, rfl⟩⟩

/-- One command in the chiplet. -/
def wRunning (m : AttnCmd) : State := { wAttn id with chip0 := { wChip with cmds := [m] } }

theorem test_meets_QueuedAttentionCompletes_run :
    let m := wAttnCmd .put
    ((wRunning m).chip 0).cmds[0]? = some m ∧ (wRunning m).mayRun 0 0 m = true ∧ m.stage = 0 ∧ m.needs ≤ m.input.length ∧
    (let x := { m with stage := 1, begun := true }; (wRunning x).mayRun 0 0 x = true ∧ x.stage = 1) ∧
    (let x := { m with desc := [0x2000000, 0x9000, 0xA000, 0] }
     (wRunning x).mayRun 0 0 x = true ∧ x.needs ≠ 0 ∧
       (wRunning x).checkPage 1 0 (quad x.desc 1) (pieceOf (quad x.desc 1) (x.needs - 0)) .read = .ok 0x9000 ∧
       (wRunning x).rangeSettled 0x9000 (pieceOf (quad x.desc 1) (x.needs - 0)) = true) ∧
    m.core = (wRunning m).core.id ∧ bitsOf (quad m.desc 0) 36 25 = 0 ∧ bitsOf (quad m.desc 0) 24 24 = 0 ∧ m.bar = 0 ∧
    (wRunning m).checkPage 1 0 (quad m.desc 2) 16 .write = .ok 0xA000 ∧ (wRunning m).rangeSettled 0xA000 16 = true ∧
    ((wRunning m).dirLine (lineOf 0xA000)).hs ≠ .upd ∧ Memory.wf (wRunning m).mem = true :=
  ⟨rfl, rfl, rfl, by decide, ⟨rfl, rfl⟩, ⟨rfl, by decide, rfl, rfl⟩, rfl, rfl, rfl, rfl, rfl, rfl, by decide, rfl⟩

theorem test_meets_QueuedAttentionCompletes_wait :
    let x := { wSpan 10 40 with stale := true }
    let m := { wAttnCmd (.query false) with waiting := true, spans := [x] }
    let live := fun (c : Chip) => (List.range (headNspan (c.entry 0))).map fun i => spanOf (c.entry (0 + 1 + i))
    ((wRunning m).chip 0).cmds[0]? = some m ∧ m.waiting = true ∧ (∀ y ∈ m.watched, stillBelow m (live wChip) y = false) ∧
    (∃ y ∈ m.watched, stillBelow m (live (wChip.putEntry 1 x.value)) y = true) :=
  ⟨rfl, rfl, by decide, ⟨(40, 0), by decide, by decide⟩⟩

/-! ### The vector engine -/

/-- A vector block that runs at 0x8000 with l5 = 0x8100 captured. -/
def wRun6 : VecRun := { cmd := { wCmd with regs := (Vector.replicate 16 0).set 5 0x8100 }, start := 0x8000, pc := 0x8000, flags := 0, seen := [], code := [] }

def wVec (f : Core → Core) : State := wWith fun c => f { c with vrun := some wRun6, vq := [{ wRun6.cmd with started := true }] }

/-- A full register of 64 elements of 32 bits, and the last word of a block. -/
theorem test_meets_IntegerVectorWords :
    blockRuns (wVec id) wRun6 ∧ (wVec id).core.vl * (wVec id).core.ew = 2048 ∧
    blockRuns (wVec fun c => { c with vrun := some { wRun6 with pc := 0x8000 + 4 * 4095 } }) { wRun6 with pc := 0x8000 + 4 * 4095 } ∧
    4 * 4096 ≤ ((0x8000 + 4 * 4096 : W64) - 0x8000).toNat :=
  ⟨⟨rfl, by decide, by decide⟩, by decide, ⟨rfl, by decide, by decide⟩, by decide⟩

theorem test_meets_FloatVectorWords :
    blockRuns (wVec id) wRun6 ∧ (wVec id).core.ew = 32 ∧ (wVec fun c => { c with vsh := 0x100 }).core.ew ≠ 32 ∧ wRun6.cmd.rm ≠ .sr ∧
    { wRun6.cmd with rm := .sr }.rm = .sr := ⟨⟨rfl, by decide, by decide⟩, by decide, by decide, by decide, rfl⟩

/-- One or two elements of 32 bits. -/
def wShort (n : Nat) : State := wVec fun c => { c with vsh := BitVec.ofNat 64 (4 * n + 2), m := c.m.set 1 1 }

theorem test_meets_MaskReductionAndConversionWords :
    blockRuns (wShort 2) wRun6 ∧ (wShort 2).core.active 0 = [0, 1] ∧ (wShort 2).core.active 1 = [0] ∧ (wShort 2).core.active 2 = [] ∧
    (Fmt.f32.decode (velt (wShort 2).core 0 0)).sNaN = false ∧ (wShort 2).core.m[(1 : MaskSel)].getLsbD 0 = true ∧
    (∀ e, e < (wShort 2).core.vl → (wShort 2).core.m[(2 : MaskSel)].getLsbD e = false) ∧
    firstBest false (vact (wShort 1).core 0) (fun j => vnum 32 false (velt (wShort 1).core 0 j)) 0 ∧
    firstBest true (vact (wShort 1).core 0) (fun j => vnum 32 false (velt (wShort 1).core 0 j)) 0 := by
  have h : ∀ j, vact (wShort 1).core 0 j → j = 0 := fun j hj => by
    have := hj.1
    have h1 : (wShort 1).core.vl = 1 := by decide
    omega
  have h0 : vact (wShort 1).core 0 0 := ⟨by decide, .inl rfl⟩
  exact ⟨⟨rfl, by decide, by decide⟩, by decide, by decide, by decide, by decide, by decide, by decide,
    ⟨h0, fun j hj => by simp [h j hj], fun j hj _ => by simp [h j hj]⟩, ⟨h0, fun j hj => by simp [h j hj], fun j hj _ => by simp [h j hj]⟩⟩

/-- Bytes of 8-bit elements: 64 of them, the first with a t3 code on either side of the limit. -/
def wTrits (b : Nat) (f : W64) : State := wVec fun c => { c with vsh := 0x104, v := Vector.replicate 32 (BitVec.ofNat 2048 b), fctl := f }

theorem test_meets_MaskReductionAndConversionWords_packed :
    blockRuns (wTrits 242 0) wRun6 ∧ (wTrits 242 0).core.ew = 8 ∧ (wTrits 242 0).core.vl = 65 ∧
    (∀ e, e < 65 → vbits (wTrits 242 0).core 0 8 (e / 5) ≤ 242) ∧ 242 < vbits (wTrits 243 0).core 0 8 (0 / 5) ∧
    vact (wTrits 243 0).core 0 0 ∧ (wTrits 243 0x100).core.fctl.getLsbD 8 = true ∧ (wTrits 243 0).core.fctl.getLsbD 8 = false ∧
    (wVec id).core.vl * 32 ≤ 2048 ∧ 2048 < (wVec id).core.vl * max 64 32 ∧ (wVec id).core.ew = 32 ∧ (wVec id).core.vl = 64 :=
  ⟨⟨rfl, by decide, by decide⟩, by decide, by decide, by decide, by decide, ⟨by decide, .inl rfl⟩, by decide, by decide, by decide, by decide, by decide,
    by decide⟩

/-- One element whose four bytes at 0x8100 the version holds. -/
def wVmem : State := (wShort 1).upd { (wShort 1).core with version := cells 0x8100 [1, 2, 3, 4], versionId := some 0 }

theorem test_meets_VectorMemoryWords :
    blockRuns wVmem wRun6 ∧ wRun6.cmd.mask.getLsbD 5 = true ∧ { wRun6.cmd with mask := 0 }.mask.getLsbD 5 = false ∧ wVmem.core.implicit = false ∧
    wVmem.core.active 0 = [0] ∧ ((vmem wVmem.core wRun6 0 1 2 3 5 0 0).2.2 0) = 0x8100 ∧ wVmem.check 0x8100 4 .read none false = .ok 0x8100 ∧
    versionHolds wVmem 0x8100 [1, 2, 3, 4] ∧ wVmem.check 0x8100 4 .write none false = .ok 0x8100 ∧ wVmem.core.commit = none ∧
    versionSize (verPutBytes wVmem.core.version 0x8100 (leBytes 4 0)) ≤ wVmem.core.vquota.toNat ∧ wVmem.core.versionId = some 0 ∧
    (∃ f, wVmem.check 0x8102 4 .read none false = .error f) ∧ (∃ f, wVmem.check 0x200000 4 .write none false = .error f) ∧
    passesChecks wVmem 0x8100 4 .read none false 0x8100 ∧ passesChecks wVmem 0x8100 4 .write none false 0x8100 ∧
    wRun6.passed = false ∧ (0 : Nat) < versionSize (verPutBytes wVmem.core.version 0x8100 (leBytes 4 0)) ∧ { wRun6 with passed := true }.passed = true :=
  ⟨⟨rfl, by decide, by decide⟩, by decide, by decide, rfl, by decide, by decide, rfl, versionHolds_of _ _ _ rfl, rfl, rfl, by decide, rfl,
    ⟨_, rfl⟩, ⟨_, rfl⟩, passes_of rfl (by decide) rfl rfl, passes_of rfl (by decide) rfl rfl, rfl, by decide, rfl⟩

/-- A block that waits to start; the context's code lies at 0x8000, or nothing is mapped there. -/
def wStart (a : W64) : State := wWith fun c => { c with vq := [{ wCmd with addr := a }] }

theorem test_meets_BlocksPortsAndGenerators :
    (wStart 0x8000).core.vq = { wCmd with addr := 0x8000 } :: [] ∧ (wStart 0x8000).core.vrun = none ∧ wCmd.started = false ∧
    (wStart 0x8000).core.abortDue = false ∧ ((wStart 0x8000).wordAt 1 0 [] 0x8000).isSome ∧ (wStart 0x200000).wordAt 1 0 [] 0x200000 = none ∧
    (wVec id).core.ports[(0 : Fin 8)].length + ((wVec id).core.active 0).length ≤ 1024 ∧
    1024 < (List.replicate 961 (0 : W32)).length + ((wVec id).core.active 0).length ∧ (wStart 0x8000).core.seq ≠ .preempted ∧
    blockReady (wStart 0x8000) [] 0x8000 ∧ blockReady (wStart 0x200000) [] 0x200000 :=
  ⟨rfl, rfl, rfl, rfl, rfl, rfl, by decide, by rw [List.length_replicate]; decide, by decide,
    .inr (.inr ⟨0x8000, rfl, by decide, rfl, by decide, rfl⟩), .inr (.inl ⟨_, rfl⟩)⟩

/-- A lookup's descriptor at 0x8100 in the version: base 0x9000, one entry, one probe. -/
def wLk (d : Nat) : State := wVec fun c => { c with version := cells 0x8100 (leBytes 32 d) ++ cells 0x9000 (leBytes 16 0), versionId := some 0 }

theorem test_meets_BlocksPortsAndGenerators_lookup :
    vcap wRun6 5 0x8100 ∧ (0x8100 : W64).toNat % 32 = 0 ∧ (0x8101 : W64).toNat % 32 ≠ 0 ∧ (wLk 0).core.ew = 32 ∧
    (∃ x, (wLk 0).peek 0x8100 32 = .val x ∧ lkBad x = true) ∧
    (∃ x, (wLk (0x9000 + 2 ^ 80)).peek 0x8100 32 = .val x) :=
  ⟨⟨by decide, by decide⟩, by decide, by decide, by decide, ⟨_, rfl, by decide⟩, ⟨_, rfl⟩⟩

/-! ### Step programs -/

/-- A program at work on an in-channel (queue 0 downstream), on an out-channel (queue 1 upstream), or for a tile task. -/
def wWork (u : Agent) : ProgRun :=
  { wProg with point := false, stage := 2, up := if u = .xin then none else some 1, down := if u = .xout then none else some 0
               cmd := { wCmd with started := true }, pc := 0x8000 }

def wTile : TileRec := { core := 0, cmd := wCmd, ctx := 1, words := List.replicate 8 0, waited := false }

/-- The current core with that program on each of its channels, array 0 at a tile task, and the acting engine u. -/
def wEng (u : Agent) (p : ProgRun) (f : Core → Core) (a : MatArray) (b : Bank) : State :=
  { (wBase.putCluster 0 { Cluster.reset with arr0 := { a with run := some p, rcd := some wTile }, banks := Vector.replicate 32 b }).upd
      (f { wCore with xin := some p, xout := some p, xinq := [p.cmd], xoutq := [p.cmd], mq := [p.cmd] }) with unit := u }

/-- A FIFO bank of slots of 128 bytes, with claims of slots to fill and of the oldest one. -/
def wFifo (l : List (List Byte)) (cl : List (Nat × Option (List Byte))) (co : Option Nat) : Bank :=
  { Bank.reset with mode := 2, slots := l, claims := cl, consumer := co }

/-- An engine access on this device, from checks that compute. -/
theorem engAt_of {s : State} {va : W64} {n : Nat} {need : Need} {a : Nat} (h : s.engCheck va n need = .ok [(a, n)]) (hr : s.isRemote va = false)
    (hb : a + n ≤ physTop) (hw : Memory.wf s.mem = true)
    (hl : ∀ l ∈ linesAt a n, s.settled l = true ∧ (s.dirLine l).hs ≠ .upd ∧ l ∉ s.lost) : engAt s va n need a := ⟨h, hr, hb, hw, hl⟩

theorem test_meets_StepTokensLoopsAndWaits :
    (∀ u ∈ [Agent.xin, .xout, .arr0], let p := { wWork u with stage := 0 }
      let s := wEng u p id MatArray.reset Bank.reset
      s.prog? = some p ∧ p.stopped = false ∧ p.failing = false ∧ p.fault = none ∧ s.core.seq ≠ .preempted ∧ (p.pc - p.start).toNat < 4 * 4096) ∧
    tokOf (.xloop ⟨true, false, true, false⟩ 3 2) = some ⟨true, false, true, false⟩ ∧
    ((wEng .xout (wWork .xout) id MatArray.reset Bank.reset).core.tok 1).1 = 0 ∧
    ((wEng .xin (wWork .xin) (fun c => c.putTok 0 (0, 2)) MatArray.reset Bank.reset).core.tok 0).2 = 2 ∧
    4 * 4096 ≤ ((0x8000 + 4 * 4096 : W64) - 0x8000).toNat := by
  refine ⟨?_, rfl, by decide, by decide, by decide⟩
  intro u hu
  simp only [List.mem_cons, List.not_mem_nil, or_false] at hu
  rcases hu with rfl | rfl | rfl <;> exact ⟨rfl, rfl, rfl, rfl, by decide, by decide⟩

/-- A program at work meets what its step asks, on either channel. -/
theorem wEng_atWork (u : Agent) (h : u = .xin ∨ u = .xout) (p : ProgRun) (hp : p.stopped = false ∧ p.failing = false ∧ p.stage = 2) (a : MatArray) (b : Bank) :
    atWork (wEng u p id a b) p := by
  have hs : (wEng u p id a b).core.seq = .preempted → (wEng u p id a b).core.vrun = none → p.point = false :=
    fun hs => absurd (show SeqState.run = SeqState.preempted from hs) (by decide)
  rcases h with rfl | rfl
  · exact ⟨rfl, hp.1, hp.2.1, hp.2.2, hs⟩
  · exact ⟨rfl, hp.1, hp.2.1, hp.2.2, hs⟩

theorem test_meets_StepTokensLoopsAndWaits_loops :
    atWork (wEng .xin (wWork .xin) id MatArray.reset Bank.reset) (wWork .xin) ∧
    canSend (wEng .xin (wWork .xin) id MatArray.reset Bank.reset) (wWork .xin) ⟨true, true, true, true⟩ ∧ (wWork .xin).loops = [] ∧
    (∃ x rest, { wWork .xin with loops := [(0x8000, 0x8000, 2, 0)] }.loops = x :: rest ∧
      x.2.1.toNat < (0x8000 + BitVec.ofNat 64 (4 * (1 : Fin 1024).val) : W64).toNat) ∧
    ¬ (∃ x rest, { wWork .xin with loops := [(0x8000, 0x8004, 2, 0)] }.loops = x :: rest ∧ (rest ≠ [] ∨
      x.2.1.toNat < (0x8000 + BitVec.ofNat 64 (4 * (1 : Fin 1024).val) : W64).toNat)) ∧
    pcap (wWork .xin) 5 0 ∧ (0x100000000 : W64).toNat % 2 ^ 32 = 0 ∧ { wCmd with mask := 0 }.mask.getLsbD 5 = false ∧ (4095 : Fin 4096).val ≠ 0 := by
  refine ⟨wEng_atWork _ (.inl rfl) _ ⟨rfl, rfl, rfl⟩ _ _, ⟨?_, ?_⟩, rfl, ⟨_, _, rfl, by decide⟩, ?_, ⟨by decide, by decide⟩, by decide, by decide, by decide⟩
  · rintro q - hq
    obtain rfl : 0 = q := Option.some.inj hq
    decide
  · rintro q - hq
    exact absurd (show (none : Option Nat) = some q from hq) nofun
  · rintro ⟨x, rest, h, h1⟩
    obtain ⟨rfl, rfl⟩ := List.cons.inj h
    rcases h1 with h1 | h1
    · exact h1 rfl
    · revert h1
      decide

theorem test_meets_StepTokensLoopsAndWaits_barrier :
    let p := { wWork .xin with regs := (Vector.replicate 16 0).set 5 0x8100 }
    let s := { wEng .xin p id MatArray.reset Bank.reset with mem := wBar.mem }
    let q := { wWork .xin with regs := (Vector.replicate 16 0).set 5 0x8101 }
    atWork s p ∧ p.fault = none ∧ pcap p 5 0x8100 ∧ s.check 0x8100 16 .read none false = .ok 0x8100 ∧
    barrierAt (pinned s 0x8100) 0x8100 8 3 false true ∧ canSend (pinned s 0x8100) p ⟨true, true, true, true⟩ ∧
    barrierAt { s with mem := cellPutBytes wMem 0x8100 (leBytes 16 (barrierValue 8 3 true false)) } 0x8100 8 3 true false ∧
    pcap q 5 0x8101 ∧ ∃ f, (wEng .xin q id MatArray.reset Bank.reset).check 0x8101 16 .read none false = .error f := by
  refine ⟨⟨rfl, rfl, rfl, rfl, fun hs => absurd (show SeqState.run = SeqState.preempted from hs) (by decide)⟩, rfl, ⟨by decide, rfl⟩, rfl,
    ⟨by decide, by decide, by decide, by decide, rfl, rfl, rfl, by decide, by decide⟩, ⟨?_, ?_⟩,
    ⟨by decide, by decide, by decide, by decide, rfl, rfl, rfl, by decide, by decide⟩, ⟨by decide, rfl⟩, ⟨_, rfl⟩⟩
  · rintro q - hq
    obtain rfl : 0 = q := Option.some.inj hq
    decide
  · rintro q - hq
    exact absurd (show (none : Option Nat) = some q from hq) nofun

/-- A credit of the current core, from its engine e. -/
def wOwed (e : Nat) : Credit := { wCredit with engine := e }

theorem test_meets_ProgramsStartAndEnd :
    let s := fun (a : W64) (m : BitVec 16) => wWith fun c => { c with xinq := [{ wCmd with addr := a, mask := m }], xoutq := [{ wCmd with addr := a, mask := m }] }
    (s 0x8000 0).core.xinq = { wCmd with addr := 0x8000, mask := 0 } :: [] ∧ (s 0x8000 0).core.xin = none ∧ (s 0x8000 0).core.xout = none ∧
    (s 0x8000 0).core.abortDue = false ∧ (s 0x8000 0).core.seq ≠ .preempted ∧ wCmd.started = false ∧
    ((s 0x8000 0).wordAt 1 0 [] 0x8000).isSome ∧ (s 0x200000 0).wordAt 1 0 [] 0x200000 = none ∧
    blockReady (s 0x8000 0) (s 0x8000 0).core.ecode 0x8000 ∧ blockReady (s 0x200000 0) (s 0x200000 0).core.ecode 0x200000 ∧
    (0 : BitVec 16).getLsbD 15 = false ∧ (wWork .xin).fault = none ∧ wBase.credits = [] ∧
    (∀ e ∈ [1, 2, 3], ([wOwed e].any fun c => c.core == 0 && c.engine == e) = true) :=
  ⟨rfl, rfl, rfl, rfl, by decide, rfl, rfl, rfl, .inr (.inr ⟨0x8000, rfl, by decide, rfl, by decide, rfl⟩), .inr (.inl ⟨_, rfl⟩), rfl, rfl, rfl, by decide⟩

/-- Array 0 of the current core at the end of a tile task whose record names a status word. -/
def wMend (d : Nat) (st : W64) : State :=
  let p := { wWork .arr0 with done := d }
  let r := { wTile with words := [0, 0, 0, 0, 0, st, 0, 0] }
  let s := wEng .arr0 p id MatArray.reset Bank.reset
  s.putCluster 0 { s.cluster 0 with arr0 := { MatArray.reset with run := some p, rcd := some r } }

theorem test_meets_ProgramsStartAndEnd_status :
    let s := wMend 0 0x8100
    s.array.rcd = some { wTile with words := [0, 0, 0, 0, 0, 0x8100, 0, 0] } ∧ s.unit = .arr0 ∧ atWork s { wWork .arr0 with done := 0 } ∧
    ({ wTile with words := [0, 0, 0, 0, 0, 0x8100, 0, 0] } : TileRec).staddr = 0x8100 ∧ engAt s 0x8100 8 .write 0x8100 ∧
    wTile.staddr = 0 ∧ wTile.donebar = 0 ∧ ((wMend 1 0x8100).prog?.map (·.done)) = some 1 ∧
    (∃ f, (wMend 0 0x200000).engCheck 0x200000 8 .write = .error f) :=
  ⟨rfl, rfl, ⟨rfl, rfl, rfl, rfl, fun hs => absurd (show SeqState.run = SeqState.preempted from hs) (by decide)⟩, rfl,
    engAt_of rfl rfl (by decide) rfl (by decide), rfl, rfl, rfl, ⟨_, rfl⟩⟩

theorem test_meets_InChannelStepsComplete :
    let p := { wWork .xin with regs := ((Vector.replicate 16 0).set 5 0x8100).set 6 128 }
    let s := wEng .xin p id MatArray.reset (wFifo [] [] none)
    atWork s p ∧ s.unit = .xin ∧ p.fault = none ∧ locAt p (.mem 5) 0x8100 ∧ locAt p (.stream 3) 0 ∧ pcap p 6 128 ∧ p.buf = [] ∧
    p.done < (128 + 4095) / 4096 ∧ (s.bank (s.stream 3)).mode = 2 ∧ engAt s 0x8100 128 .read 0x8100 ∧
    (∃ c fa, s.engCheck 0x200000 128 .read = .error (c, fa)) ∧ (1 + 4095) / 4096 ≤ { p with done := 1 }.done ∧
    (List.replicate 128 (0 : Byte)) ≠ [] ∧ engAt s 0x8100 128 .write 0x8100 ∧ s.prog? = some p :=
  ⟨wEng_atWork _ (.inl rfl) _ ⟨rfl, rfl, rfl⟩ _ _, rfl, rfl, ⟨by decide, rfl⟩, rfl, ⟨by decide, rfl⟩, rfl, by decide, rfl,
    engAt_of rfl rfl (by decide) rfl (by decide), ⟨_, _, rfl⟩, by decide, by decide, engAt_of rfl rfl (by decide) rfl (by decide), rfl⟩

theorem test_meets_InChannelStepsComplete_rows :
    let p := { wWork .xin with regs := (((Vector.replicate 16 0).set 5 0x8100).set 6 1).set 7 0x9000 }
    let s := wEng .xin p id MatArray.reset (wFifo [] [] none)
    atWork s p ∧ s.unit = .xin ∧ pcap p 5 0x8100 ∧ pcap p 6 1 ∧ pcap p 7 0x9000 ∧ p.done < 1 ∧ p.idx = none ∧ { p with idx := some 2 }.idx = some 2 ∧
    engAt s (0x8100 + BitVec.ofNat 64 (2 * 16)) 16 .read 0x8120 ∧ ((0x9000 : W64).toNat + 4 * 0) % 4 = 0 ∧
    engAt s (0x9000 + BitVec.ofNat 64 (4 * 0)) 4 .read 0x9000 ∧ 1 ≤ { p with done := 1 }.done :=
  ⟨wEng_atWork _ (.inl rfl) _ ⟨rfl, rfl, rfl⟩ _ _, rfl, ⟨by decide, rfl⟩, ⟨by decide, rfl⟩, ⟨by decide, rfl⟩, by decide, rfl, rfl,
    engAt_of rfl rfl (by decide) rfl (by decide), by decide, engAt_of rfl rfl (by decide) rfl (by decide), by decide⟩

theorem test_meets_InChannelStepsComplete_streams :
    let s := fun (b : Bank) => wEng .xin (wWork .xin) id MatArray.reset b
    let full := wFifo (List.replicate 512 []) [] none
    ((s Bank.reset).bank 3).mode ≠ 2 ∧ ((s (wFifo [] [(0, none)] none)).bank 3).claims = [((s Bank.reset).engineNo, none)] ∧
    ((s (wFifo [] [(8, none), (0, none)] none)).bank 3).claims = (8, none) :: [(0, none)] ∧ 8 ≠ (s Bank.reset).engineNo ∧
    ((s (wFifo [] [(8, none), (0, none)] none)).bank 3).claimed (s Bank.reset).engineNo = true ∧
    ((s (wFifo [] [] none)).bank 3).claimed (s Bank.reset).engineNo = false ∧
    ((s (wFifo [] [] none)).bank 3).slots.length + 0 < ((s (wFifo [] [] none)).bank 3).capacity ∧
    full.claimed 0 = false ∧ full.capacity ≤ full.slots.length + full.claims.length :=
  ⟨by decide, rfl, rfl, by decide, rfl, rfl, by decide, rfl, by
    show _ ≤ (List.replicate 512 ([] : List Byte)).length + 0; rw [List.length_replicate]; decide⟩

theorem test_meets_OutChannelStepsComplete :
    let p := { wWork .xout with regs := (((Vector.replicate 16 0).set 5 0x8100).set 6 1).set 7 0x9000 }
    let s := wEng .xout p id MatArray.reset (wFifo [[1]] [] none)
    atWork s p ∧ s.unit = .xout ∧ locAt p (.mem 5) 0x8100 ∧ pcap p 7 0x9000 ∧ pcap p 6 1 ∧ engAt s 0x9000 16 .write 0x9000 ∧
    p.done < 1 ∧ 1 ≤ { p with done := 1 }.done ∧ { p with buf := List.replicate 16 0 }.buf.length = 16 ∧ p.idx = none ∧
    engAt s (0x8100 + BitVec.ofNat 64 (4 * 0)) 4 .read 0x8100 ∧ engAt s 0x8100 16 .read 0x8100 ∧
    ((s.bank 3).slots = [[1]]) ∧ (s.bank 3).consumer = none ∧
    ((wEng .xout p id MatArray.reset (wFifo [[1]] [] (some 12))).bank 3).consumer = some 12 ∧ 12 ≠ s.engineNo ∧
    ((wEng .xout p id MatArray.reset (wFifo [[1]] [] (some s.engineNo))).bank 3).consumer = some s.engineNo ∧
    ((wEng .xout p id MatArray.reset (wFifo [] [] none)).bank 3).slots = [] :=
  ⟨wEng_atWork _ (.inr rfl) _ ⟨rfl, rfl, rfl⟩ _ _, rfl, ⟨by decide, rfl⟩, ⟨by decide, rfl⟩, ⟨by decide, rfl⟩,
    engAt_of rfl rfl (by decide) rfl (by decide), by decide, by decide, by decide, rfl, engAt_of rfl rfl (by decide) rfl (by decide),
    engAt_of rfl rfl (by decide) rfl (by decide), rfl, rfl, rfl, by decide, rfl, rfl⟩

/-- A contribution of core c; the table at 0x8000 admits cores 0 and 1 to reduction 0 and is empty for reduction 1. -/
def wXred (c rid : Nat) : XredMsg :=
  { ctx := 1, rid := rid, line := 0x102, core := c, tag := .addI32, bytes := List.replicate 128 0, bar := 0, task := 0, word := 0x8000, arrived := false }

theorem test_meets_OutChannelStepsComplete_reductions :
    let p := { wWork .xout with regs := (((Vector.replicate 16 0).set 5 0x8100).set 6 128).set 7 0x9000 }
    let s := wEng .xout p id MatArray.reset (wFifo [[1]] [] none)
    pcap p 7 0x9000 ∧ pcap p 6 128 ∧ pcap p 8 0 ∧ (0x9000 : W64).toNat % 128 = 0 ∧ 128 % 128 = 0 ∧ s.isRemote 0x9000 = false ∧ p.done < 128 / 128 ∧
    s.check 0x9000 128 .write none false = .ok 0x9000 ∧ 128 ≤ { p with buf := List.replicate 128 0 }.buf.length ∧ 128 / 128 ≤ { p with done := 1 }.done ∧
    (∃ m ∈ { s with xreds := [wXred 0 0] }.xreds, m.core = s.core.id ∧ m.arrived = false) ∧ s.xreds = [] :=
  ⟨⟨by decide, rfl⟩, ⟨by decide, rfl⟩, ⟨by decide, rfl⟩, by decide, by decide, rfl, by decide, rfl, by decide, by decide,
    ⟨_, List.mem_singleton_self _, rfl, rfl⟩, rfl⟩

def wReds (ms : List XredMsg) : State :=
  { (wWith fun c => { c with xrbase := 0x8000 }) with
    others := [{ wCore with id := 1, xrbase := 0x8000 }, { wCore with id := 2, xrbase := 0x8000 }]
    mem := cellPutBytes wMem 0x8000 (leBytes 2 2 ++ leBytes 2 0 ++ leBytes 2 1), xreds := ms }

theorem test_meets_OutChannelStepsComplete_contributions :
    let s := wReds [wXred 0 0]
    let t := wReds [wXred 1 0]
    let u := wReds [wXred 2 0]
    s.xreds[0]? = some (wXred 0 0) ∧ s.settled 0x102 = true ∧ s.xredBehind (wXred 0 0) 0 = false ∧ s.round? (wXred 0 0) = none ∧
    s.admission 0 0 = .ok [0, 1] ∧ [0, 1].head? = some (wXred 0 0).core ∧ (wXred 0 0).bar = 0 ∧ 0x102 * 128 + 128 ≤ physTop ∧
    Memory.wf s.mem = true ∧ (s.dirLine 0x102).hs ≠ .upd ∧
    (combineBytes .addI32 (cellBytes s.mem (0x102 * 128) 128) (wXred 0 0).bytes).length = 128 ∧
    t.admission 1 0 = .ok [0, 1] ∧ 1 ∈ [0, 1] ∧ [0, 1].head? ≠ some (wXred 1 0).core ∧ t.xredBehind (wXred 1 0) 0 = false ∧
    t.round? (wXred 1 0) = none ∧ (wXred 1 0).arrived = false ∧
    (t.xreds.filter fun x => x.arrived && lineHome x.line == lineHome 0x102).length < 64 ∧
    u.admission 2 0 = .ok [0, 1] ∧ 2 ∉ [0, 1] ∧ (∃ f, (wReds [wXred 0 1]).admission 0 1 = .error f) ∧
    (wReds [wXred 0 0, wXred 0 0]).xredBehind (wXred 0 0) 1 = true :=
  ⟨rfl, rfl, rfl, rfl, rfl, rfl, rfl, by decide, rfl, by decide, by decide, rfl, by decide, by decide, rfl, rfl, rfl, by decide, rfl, by decide,
    ⟨_, rfl⟩, rfl⟩

/-! ### Circuits and arrays -/

/-- Circuit 0 of die 0: from core 0 to core 128 in every fourth slot, valid. -/
def wEntry0 (src dst : Nat) : CarEntry := BitVec.ofNat 128 (2 ^ 47 + 2 * 2 ^ 43 + dst * 2 ^ 10 + src)

/-- The engine u of core 0 with the table loaded and units as given. -/
def wCirc (u : Agent) (p : ProgRun) (e : CarEntry) (us : List CircuitUnit) : State :=
  { (wEng u p (fun c => { c with carbase := 0x4000 }) MatArray.reset (wFifo [] [] none)) with
    car0 := { holder := some 1, granted := 0x4000, base := 0x4000, table := [e] }, units := us }

def wUnit (sent buffered : Bool) : CircuitUnit :=
  { die := 0, circuit := 0, src := 0, dst := 0, bytes := List.replicate 512 0, sent := sent, arriveAt := 3, buffered := buffered }

theorem test_meets_CircuitsComplete_send :
    let p := { wWork .xout with regs := ((Vector.replicate 16 0).set 5 0x8100).set 6 1 }
    let s := wCirc .xout p (wEntry0 0 128) []
    atWork s p ∧ s.unit = .xout ∧ p.fault = none ∧ s.circuit? (0 : Fin 256).val = some (wEntry0 0 128) ∧
    CarEntry.src (wEntry0 0 128) = s.core.id ∧ locAt p (.mem 5) 0x8100 ∧ pcap p 6 1 ∧
    (∃ u ∈ (wCirc .xout p (wEntry0 0 128) [wUnit false false]).units, u.src = s.core.id ∧ u.sent = false) ∧ s.units = [] ∧
    { p with circuit := true }.circuit = true ∧ p.done < 1 ∧ 512 ≤ { p with buf := List.replicate 512 0 }.buf.length ∧ 1 ≤ { p with done := 1 }.done ∧
    (∀ e, (wCirc .xout p (wEntry0 1 128) []).circuit? 0 = some e → CarEntry.src e ≠ s.core.id) ∧ (wCirc .xout p 0 []).circuit? 0 = none := by
  refine ⟨⟨rfl, rfl, rfl, rfl, fun hs => absurd (show SeqState.run = SeqState.preempted from hs) (by decide)⟩, rfl, rfl, rfl, by decide, ⟨by decide, rfl⟩,
    ⟨by decide, rfl⟩, ⟨_, List.mem_singleton_self _, rfl, rfl⟩, rfl, rfl, by decide, by decide, by decide, ?_, rfl⟩
  intro e h
  obtain rfl : wEntry0 1 128 = e := Option.some.inj h
  decide

theorem test_meets_CircuitsComplete_receive :
    let p := { wWork .xin with regs := ((Vector.replicate 16 0).set 5 0x8100).set 6 1 }
    let s := wCirc .xin p (wEntry0 128 0) [wUnit true true]
    atWork s p ∧ s.unit = .xin ∧ s.circuit? (0 : Fin 256).val = some (wEntry0 128 0) ∧ CarEntry.dst (wEntry0 128 0) = s.core.id ∧ locAt p (.mem 5) 0x8100 ∧
    pcap p 6 1 ∧ p.buf = [] ∧ p.done < 1 ∧ 1 ≤ { p with done := 1 }.done ∧
    s.units.find? (fun u => u.buffered && u.circuit == 0 && u.dst == s.core.id) = some (wUnit true true) ∧
    (wCirc .xin p (wEntry0 128 0) []).units.find? (fun u => u.buffered && u.circuit == 0 && u.dst == s.core.id) = none ∧
    (∀ e, (wCirc .xin p (wEntry0 128 1) []).circuit? 0 = some e → CarEntry.dst e ≠ s.core.id) := by
  refine ⟨⟨rfl, rfl, rfl, rfl, fun hs => absurd (show SeqState.run = SeqState.preempted from hs) (by decide)⟩, rfl, rfl, by decide, ⟨by decide, rfl⟩,
    ⟨by decide, rfl⟩, rfl, by decide, by decide, by decide, rfl, ?_⟩
  intro e h
  obtain rfl : wEntry0 128 1 = e := Option.some.inj h
  decide

theorem test_meets_CircuitsComplete_units :
    let s := fun (us : List CircuitUnit) (clock : Nat) => { wCirc .xout (wWork .xout) (wEntry0 0 128) us with clock := clock }
    let held := fun (us : List CircuitUnit) => (us.filter fun x => x.die == 0 && x.circuit == 0 && x.buffered).length
    (s [wUnit false false] 0).units[0]? = some (wUnit false false) ∧ (s [wUnit false false] 0).unitEntry (wUnit false false) = some (wEntry0 0 128) ∧
    (CarEntry.passes (wEntry0 0 128) 0 = true ∨ CarEntry.passes (wEntry0 0 128) 1 = true ∨ CarEntry.passes (wEntry0 0 128) 2 = true ∨
      CarEntry.passes (wEntry0 0 128) 3 = true) ∧ (CarEntry.passes (wEntry0 0 128) 0 = false ∨ CarEntry.passes (wEntry0 0 128) 1 = false) ∧
    held [wUnit false false] < 4 ∧ 4 ≤ held (List.replicate 4 (wUnit true true)) ∧
    (∀ x ∈ [wUnit false false].take 0, x.die = 0 → x.circuit = 0 → x.sent = true) ∧
    ¬ (∀ x ∈ [wUnit false false, wUnit false false].take 1, x.die = 0 → x.circuit = 0 → x.sent = true) ∧
    (s [wUnit true false] 3).units[0]? = some (wUnit true false) ∧ (wUnit true false).buffered = false ∧
    (wUnit true false).arriveAt ≤ (s [wUnit true false] 3).clock ∧ (s [wUnit true false] 2).clock < (wUnit true false).arriveAt ∧
    (∀ x ∈ [wUnit true false].take 0, x.die = 0 → x.circuit = 0 → x.sent = true → x.buffered = true) ∧
    ¬ (∀ x ∈ [wUnit true false, wUnit true false].take 1, x.die = 0 → x.circuit = 0 → x.sent = true → x.buffered = true) :=
  ⟨rfl, rfl, by decide, by decide, by decide, by decide, by decide, by decide, rfl, rfl, by decide, by decide, by decide, by decide⟩

/-- Array 0 at work. -/
def wArr (p : ProgRun) (a : MatArray) (b : Bank) : State := wEng .arr0 p id a b

def wPlane (st : PlaneState) : Plane := { state := st, fmt := some (.i8, false), stream := 3, bytes := [] }

theorem test_meets_ArrayPlanesAndRows :
    let p := wWork .arr0
    let s := wArr p { MatArray.reset with shadow := wPlane .loaded } (wFifo [] [] none)
    arrayWorks s p ∧ canSend s p ⟨true, true, true, true⟩ ∧ s.array.shadow.state = .loaded ∧ (s.bank (s.stream 3)).mode = 2 ∧
    (wArr p { MatArray.reset with shadow := wPlane .loading } (wFifo [] [] none)).array.shadow.state = .loading ∧
    (wArr p MatArray.reset Bank.reset).array.shadow.state = .empty ∧ ((wArr p MatArray.reset Bank.reset).bank 3).mode ≠ 2 := by
  refine ⟨⟨⟨rfl, rfl, rfl, rfl, fun hs => absurd (show SeqState.run = SeqState.preempted from hs) (by decide)⟩, .inl rfl, rfl⟩, ⟨?_, ?_⟩, rfl, rfl, rfl, rfl, by decide⟩
  · rintro q - hq
    obtain rfl : 0 = q := Option.some.inj hq
    decide
  · rintro q - hq
    obtain rfl : 1 = q := Option.some.inj hq
    decide

theorem test_meets_ArrayPlanesAndRows_load :
    let s := fun (co : Option Nat) => wArr (wWork .arr0) { MatArray.reset with shadow := wPlane .loading } (wFifo [[1]] [] co)
    (((s none).cluster 0).arr 0).run = some (wWork .arr0) ∧ (wWork .arr0).core = 0 ∧ (((s none).cluster 0).arr 0).shadow.fmt = some (.i8, false) ∧
    (wWork .arr0).stopped = false ∧ (wWork .arr0).fault = none ∧ (((s none).cluster 0).arr 0).shadow.state = .loading ∧
    (((s none).cluster 0).bank 3).mode = 2 ∧ (((s none).cluster 0).arr 0).shadow.stream = 3 ∧
    (((s none).cluster 0).bank 3).slots = [1] :: [] ∧ (((s none).cluster 0).bank 3).consumer = none ∧
    (((s (some 10)).cluster 0).bank 3).consumer = some (10 + 0) := ⟨rfl, rfl, rfl, rfl, rfl, rfl, rfl, rfl, rfl, rfl, rfl⟩

/-- An array with an A stream, an i8 plane and tile rows of kind I. -/
def wMac (st : PlaneState) : MatArray :=
  { MatArray.reset with
    active := wPlane st, shadow := wPlane .loaded, aStream := some (3, .i8), last := some (3, .i8, false)
    tiles := Vector.replicate 4 [(0, { float := false, w := [] }), (1, { float := false, w := [] })] }

theorem test_meets_MatrixProductsComplete :
    arrayWorks (wArr (wWork .arr0) (wMac .loaded) (wFifo [[1]] [] (some 4))) (wWork .arr0) ∧
    macError MatArray.reset 0 0 1 .format ∧ macError (wMac .empty) 0 0 1 .noplane ∧ macError { wMac .loaded with aStream := some (3, .bf16) } 0 0 1 .format ∧
    macError { wMac .loaded with tiles := Vector.replicate 4 [] } 0 0 1 .tilekind ∧ macOk (wMac .loaded) 0 0 2 (.i8, false) 3 .i8 ∧
    (0 + 1) / (1 + 2) ≤ (0 : Fin 16).val ∧ (0 + 1) % (1 + 2) ≠ 0 ∧ (2 + 1) % (1 + 2) = 0 ∧ rowBytes (.i8, false) = 128 ∧
    ((wArr (wWork .arr0) (wMac .loaded) (wFifo [[1]] [] (some 4))).bank 3).consumer =
      some (wArr (wWork .arr0) (wMac .loaded) (wFifo [[1]] [] (some 4))).engineNo := by
  refine ⟨⟨⟨rfl, rfl, rfl, rfl, fun hs => absurd (show SeqState.run = SeqState.preempted from hs) (by decide)⟩, .inl rfl, rfl⟩, .inl ⟨rfl, rfl⟩,
    .inr ⟨_, _, rfl, .inl ⟨by decide, rfl⟩⟩, .inr ⟨_, _, rfl, .inr ⟨rfl, _, rfl, .inl ⟨rfl, rfl⟩⟩⟩,
    .inr ⟨_, _, rfl, .inr ⟨rfl, _, rfl, .inr ⟨rfl, ⟨0, by decide, rfl⟩, rfl⟩⟩⟩, ⟨rfl, rfl, rfl, rfl, ?_⟩, by decide, by decide, by decide, rfl, rfl⟩
  intro k h
  obtain rfl | rfl : k = 0 ∨ k = 1 := by omega
  all_goals decide

/-- A tile task's record with its descriptors at 0x8100. -/
def wTileAt (arg : Nat) (bar : Nat) : TileRec := { wTile with words := [1, 0x8000, 0, 0, BitVec.ofNat 64 bar, 0, BitVec.ofNat 64 arg, 0] }

def wDrain (p : ProgRun) (a : MatArray) (r : TileRec) (b : Bank) : State :=
  (wArr p a b).putCluster 0 { ((wArr p a b).cluster 0) with arr0 := { a with run := some p, rcd := some r } }

theorem test_meets_DrainsComplete :
    let p := wWork .arr0
    let q := { wWork .arr0 with idx := some 0x9000 }
    let s := wDrain p (wMac .loaded) (wTileAt 0x8100 0) (wFifo [] [] none)
    let t := wDrain q (wMac .loaded) (wTileAt 0x8100 0) (wFifo [] [] none)
    arrayWorks s p ∧ s.array.rcd = some (wTileAt 0x8100 0) ∧ (wTileAt 0x8100 0).arg = 0x8100 ∧ p.idx = none ∧ (wTileAt 0x8101 0).arg.toNat % 32 ≠ 0 ∧
    engAt s 0x8100 32 .read 0x8100 ∧ leVal (cellBytes s.mem 0x8100 32) < 2 ^ 165 ∧
    2 ^ 165 ≤ leVal (cellBytes { s with mem := cellPutBytes wMem 0x8100 (leBytes 32 (2 ^ 165)) }.mem 0x8100 32) ∧
    arrayWorks t q ∧ q.idx = some 0x9000 ∧ q.buf = [] ∧ (t.array.row 0 0).float = (tyFmt .i32).isSome ∧ (t.array.row 0 0).float ≠ (tyFmt .f32).isSome ∧
    t.check 0x9000 4 .write none false = .ok 0x9000 ∧ engAt t 0x9000 1024 .write 0x9000 ∧
    (drainRow .i32 false none (List.replicate 256 0)).1.length = 256 * 4 ∧ q.done ≤ 0 ∧ 0 < { q with done := 1 }.done ∧
    (wTileAt 0x8100 0).donebar = 0 ∧ (wTileAt 0x8100 16).donebar ≠ 0 ∧ (t.bank 3).mode = 2 ∧ { q with buf := [0] }.buf ≠ [] := by
  refine ⟨⟨⟨rfl, rfl, rfl, rfl, fun hs => absurd (show SeqState.run = SeqState.preempted from hs) (by decide)⟩, .inl rfl, rfl⟩, rfl, rfl, rfl, by decide,
    engAt_of rfl rfl (by decide) rfl (by decide), by decide, by decide,
    ⟨⟨rfl, rfl, rfl, rfl, fun hs => absurd (show SeqState.run = SeqState.preempted from hs) (by decide)⟩, .inl rfl, rfl⟩, rfl, rfl, by decide,
    by decide, rfl, engAt_of rfl rfl (by decide) rfl (by decide), rfl, by decide, by decide, rfl, by decide, rfl, by decide⟩

/-- An MTASK whose record lies at 0x8100. -/
def wMtask (ws : List Nat) : State :=
  { wWith (fun c => { c with mq := [{ wCmd with addr := 0x8100 }] }) with mem := cellPutBytes wMem 0x8100 (wQuads ws) }

theorem test_meets_TileTasksComplete :
    let s := wMtask [1, 0x8000, 0, 0, 0, 0, 0, 0]
    let t := wMtask [2, 0x8000, 0, 0, 0, 0, 0, 0]
    s.core.id % 4 = 0 ∧ s.core.mq = { wCmd with addr := 0x8100 } :: [] ∧ wCmd.started = false ∧ s.core.seq ≠ .preempted ∧ s.core.abortDue = false ∧
    (∀ j, j < 4 → (s.coreAt (4 * 0 + j)).remote = none) ∧ s.checkPage 1 0 0x8100 64 .read = .ok 0x8100 ∧ atHome s 0x8100 64 ∧ s.lost = [] ∧
    tileRefused (quads (cellBytes s.mem 0x8100 64)) = false ∧
    tileRefused (quads (cellBytes t.mem 0x8100 64)) = true ∧ (∃ c fa, wBase.checkPage 1 0 0x200000 64 .read = .error (c, fa)) :=
  ⟨rfl, rfl, rfl, by decide, rfl, by decide, rfl, ⟨by decide, rfl, by decide⟩, rfl, by decide, by decide, ⟨_, _, rfl⟩⟩

/-- The record with awaited barrier 0 at an address, turned to 1. -/
def wTileBar (va : Nat) : TileRec :=
  { wTile with words := [BitVec.ofNat 64 (1 + 2 ^ 16 + 2 ^ 19), 0x8000, BitVec.ofNat 64 va, 0, 0, 0, 0, 0] }

def wIssue (r : TileRec) (err : Bool) : State :=
  { wBase.putCluster 0 { Cluster.reset with records := [r] } with mem := cellPutBytes wMem 0x8100 (leBytes 16 (barrierValue 8 3 err true)) }

theorem test_meets_TileTasksComplete_issue :
    let r := wTileAt 0x8100 0
    let s := wBase.putCluster 0 { Cluster.reset with records := [r] }
    (∀ j, j < 4 → (s.coreAt (4 * 0 + j)).remote = none ∧ ∀ m ∈ (s.coreAt (4 * 0 + j)).mq, m.started = true) ∧ (s.cluster 0).records = r :: [] ∧
    r.core = s.core.id ∧ s.core.seq ≠ .preempted ∧ s.core.abortDue = false ∧
    (∀ b, b < 2 → (r.bar b).1 = false) ∧ r.tcnt ≤ (s.core.tok r.tq).1 ∧ r.arrays.find? (fun j => ((s.cluster 0).arr j).run.isNone) = some 0 ∧ r.tq < 4 :=
  ⟨by decide, rfl, rfl, by decide, rfl, by decide, by decide, rfl, by decide⟩

theorem test_meets_TileTasksComplete_barriers :
    let r := wTileBar 0x8100
    let q := wTileBar 0x200000
    let s := wIssue r true
    (∀ j, j < 4 → (s.coreAt (4 * 0 + j)).remote = none ∧ ∀ m ∈ (s.coreAt (4 * 0 + j)).mq, m.started = true) ∧ (s.cluster 0).records = r :: [] ∧
    (r.bar 0).1 = true ∧ r.waited = false ∧ (r.bar (1 - 0)).1 = false ∧ r.staddr = 0 ∧ r.donebar = 0 ∧ (r.bar 0).2.2 = 0x8100 ∧ (r.bar 0).2.1 = true ∧
    s.checkPage 1 0 0x8100 16 .read = .ok 0x8100 ∧ barrierAt s 0x8100 8 3 true true ∧ s.isRemote 0x8100 = false ∧
    barrierAt (wIssue r false) 0x8100 8 3 false true ∧
    (q.bar 0).2.2 = 0x200000 ∧ ∃ c fa, (wIssue q false).checkPage 1 0 0x200000 16 .read = .error (c, fa) :=
  ⟨by decide, rfl, rfl, rfl, rfl, rfl, rfl, rfl, rfl, rfl, ⟨by decide, by decide, by decide, by decide, rfl, rfl, rfl, by decide, by decide⟩, rfl,
    ⟨by decide, by decide, by decide, by decide, rfl, rfl, rfl, by decide, by decide⟩, rfl, ⟨_, _, rfl⟩⟩

/-! ### Other devices -/

/-- The base state with device id 5, assigned; its global addresses map as the local ones. -/
def wPod : State := { wBase with devid := 5, devValid := true }

/-- The global address of device 5 at 0x8100. -/
def wOwn : W64 := BitVec.ofNat 64 (2 ^ 63 + 5 * 2 ^ 43 + 0x8100)

theorem wPod_atHome {n : Nat} (h : 0x8100 + n ≤ physTop)
    (hl : ∀ l ∈ linesAt 0x8100 n, wPod.settled l = true ∧ (wPod.dirLine l).hs ≠ .upd ∧ l ∉ wPod.lost) : atHome wPod 0x8100 n := ⟨h, rfl, hl⟩

theorem test_meets_RemoteAccessesArePerformed :
    (∀ n ∈ [1, 4, 8, 16, 128], homeAt wPod 1 wOwn n .read 0x8100) ∧ homeAt wPod 1 wOwn 4 .write 0x8100 ∧ homeAt wPod 1 wOwn 8 .write 0x8100 ∧
    homeAt wPod 1 wOwn 16 .write 0x8100 ∧ homeAt wPod 1 wOwn 1024 .write 0x8100 ∧ (wPod.lineInfo (lineOf 0x8100)).scope = none ∧ 0x8100 % 8 = 0 ∧
    (∀ u : UpdTag, updBytes u = 4 ∨ updBytes u = 8) ∧ wPod.hasRoom (lineOf 0x8100 / 4) = true ∧
    barrierAt { wPod with mem := wBar.mem } 0x8100 8 3 false true ∧ wPod.ctx? 2 = none ∧
    (∃ c fa, wPod.homeSpans 1 .read (8 / 4096 + 2) (wOwn + 0x200000) 8 = .error (c, fa)) ∧
    (drainRow .i32 false (some (List.replicate 1024 0)) (List.replicate 256 0)).1.length = 256 * (tyWidth .i32 / 8) := by
  refine ⟨?_, ⟨rfl, rfl, rfl, rfl, by decide, rfl, wPod_atHome (by decide) (by decide)⟩, ⟨rfl, rfl, rfl, rfl, by decide, rfl, wPod_atHome (by decide) (by decide)⟩,
    ⟨rfl, rfl, rfl, rfl, by decide, rfl, wPod_atHome (by decide) (by decide)⟩, ⟨rfl, rfl, rfl, rfl, by decide, rfl, wPod_atHome (by decide) (by decide)⟩,
    rfl, rfl, ?_, by decide, ⟨by decide, by decide, by decide, by decide, rfl, rfl, rfl, by decide, by decide⟩, rfl, ⟨_, _, rfl⟩, rfl⟩
  · intro n hn
    simp only [List.mem_cons, List.not_mem_nil, or_false] at hn
    rcases hn with rfl | rfl | rfl | rfl | rfl <;>
      exact ⟨rfl, rfl, rfl, rfl, by decide, rfl, wPod_atHome (by decide) (by decide)⟩
  · intro u
    cases u <;> decide

theorem test_meets_RemoteAccessesArePerformed_batch :
    let v := ([(0x8100, (7 : Byte))].filterMap (wPod.batchCell 1)).foldl (fun acc c => verPut acc c.1 c.2) []
    v = [(0x8100, 7)] ∧ (∀ c ∈ v, wPod.settled (lineOf c.1) = true ∧ (wPod.dirLine (lineOf c.1)).hs ≠ .upd) := ⟨rfl, by decide⟩

/-- Device 5's node records, as those of wNodes. -/
def wPodNodes : State := { wNodes id with devid := 5, devValid := true }

/-- The reference of record k of device 5. -/
def wRef (k : Nat) : W64 := BitVec.ofNat 64 (5 * 2 ^ 44 + k)

theorem test_meets_NodeRequestsAndAnswers :
    (∃ y, recordOf wPodNodes 1 (wRef 5) y ∧ y.bits.getLsbD 114 = false) ∧ (∃ y, recordOf wPodNodes 1 (wRef 4) y ∧ y.bits.getLsbD 113 = true) ∧
    localRef wPodNodes (wRef 9) ∧ wPodNodes.node? 1 (wRef 9) = none :=
  ⟨⟨_, ⟨rfl, rfl, ⟨by decide, by decide, by decide⟩, rfl, rfl, rfl⟩, by decide⟩, ⟨_, ⟨rfl, rfl, ⟨by decide, by decide, by decide⟩, rfl, rfl, rfl⟩, by decide⟩,
    ⟨by decide, by decide, by decide⟩, rfl⟩

/-- A walk that stands at a node of this device, or of device 6. -/
def wWalk (x : W64) (src : Option Nat) : WalkFwd :=
  { core := 0, pc := 0x8000, task := 0, ctx := 1, kind := 0, node := x, v := 0, d := 1, k := 0, src := src }

def wWalking (f : WalkFwd) (m : Nat) : State := { wPodNodes.upd { wPodNodes.core with micro := m } with walks := [f] }

theorem test_meets_NodeRequestsAndAnswers_walks :
    (wWalking (wWalk (wRef 4) none) 1).walks[0]? = some (wWalk (wRef 4) none) ∧
    (∃ y, recordOf (wWalking (wWalk (wRef 4) none) 1) 1 (wRef 4) y ∧ y.bits.getLsbD 113 = true) ∧
    (∃ y, recordOf (wWalking (wWalk (wRef 5) none) 1) 1 (wRef 5) y ∧ y.bits.getLsbD 113 = false) ∧
    (wWalk (wRef 4) none).kind < 3 ∧ (wWalk (wRef 4) none).k < 4096 ∧ (wWalking (wWalk (wRef 4) none) 1).core.remote = none ∧
    (wWalking (wWalk (wRef 4) none) 1).devValid = true ∧
    (wWalk (wRef 4) none).waited (wWalking (wWalk (wRef 4) none) 1).core = true ∧ (wWalk (wRef 4) none).waited (wWalking (wWalk (wRef 4) none) 0).core = false ∧
    (wWalk (wRef 4) (some 6)).src = some 6 ∧ nodeRefBad (BitVec.ofNat 64 (6 * 2 ^ 44)) = false ∧ refDev (BitVec.ofNat 64 (6 * 2 ^ 44)) ≠ 5 :=
  ⟨rfl, ⟨_, ⟨rfl, rfl, ⟨by decide, by decide, by decide⟩, rfl, rfl, rfl⟩, by decide⟩,
    ⟨_, ⟨rfl, rfl, ⟨by decide, by decide, by decide⟩, rfl, rfl, rfl⟩, by decide⟩, by decide, by decide, rfl, rfl, rfl, rfl, rfl, by decide, by decide⟩

/-- A core that waits for a load of 8 bytes from device 6, or for a walk begun there. -/
def wReq : RemoteReq := { who := .seq, dev := 6, addr := 0x8000300000008100, since := 0, answer := none }

def wAsk (op : RemoteOp) (r : RemoteReq) : State :=
  { wPod.upd { wCore with remote := some r } with
    fabric := [{ cls := 0, dev := 6, addr := 0x8000300000008100, core := 0, data := [], op := some op }] }

theorem test_meets_NodeRequestsAndAnswers_answers :
    let s := wAsk (.load 8 none) wReq
    let w := wAsk (.walk 0 0 1 0) wReq
    s.core.remote = some wReq ∧ wReq.answer = none ∧ s.fits 0 wReq (.data (List.replicate 8 0)) = true ∧ s.fits 0 wReq (.refused 0x15 0) = true ∧
    ¬ (∃ m k v d n, s.question 0 wReq = some m ∧ m.op = some (.walk k v d n)) ∧
    w.fits 0 wReq (.data (List.replicate 8 0)) = true ∧ w.fits 0 wReq .done = true ∧
    (∃ m k v d n, w.question 0 wReq = some m ∧ m.op = some (.walk k v d n)) ∧
    { wReq with answer := some .done }.answer.isSome ∧ s.core.acks = [] ∧ s.core.hints = [] ∧
    wReq.since + 50 * 1400 ≤ { s with clock := 70000 }.clock ∧ { s with clock := 69999 }.clock < wReq.since + 50 * 1400 ∧
    (wWith fun c => { c with acks := [(3, 6)] }).core.acks.find? (fun x => x.2 == 6) = some (3, 6) := by
  refine ⟨rfl, rfl, rfl, rfl, ?_, rfl, rfl, ⟨_, 0, 0, 1, 0, rfl, rfl⟩, rfl, rfl, rfl, by decide, by decide, rfl⟩
  rintro ⟨m, k, v, d, n, h1, h2⟩
  obtain rfl : _ = m := Option.some.inj h1
  cases h2

/-- A credit fault of the current core, and a hint that it waits for. -/
theorem test_meets_NodeRequestsAndAnswers_late :
    let k := { wCredit with addr := remoteBase + 3 * 2 ^ 43 + 0x8100, ctx := 1 }
    let s := { wGlob id with fabric := [{ cls := 0, dev := 3, addr := remoteAddr k.addr, core := 0, data := [], op := some (.barrier 2 5 none), credit := some k }] }
    let h : HintReq := { addr := 0x8000180000008100, n := 64, since := 0, form := 0 }
    let u := wWith fun c => { c with hints := [h] }
    s.creditSent 0 (remoteAddr k.addr) 0 0 1 = some k ∧ s.core.context = k.ctx ∧ s.core.taskid = 0 ∧ s.core.seq ≠ .idle ∧
    ¬ (s.core.context = 2 ∧ s.core.taskid = 0 ∧ s.core.seq ≠ .idle) ∧
    u.core.remote = none ∧ u.core.hints = h :: [] ∧ h.since + 50 * 1400 ≤ { u with clock := 70000 }.clock :=
  ⟨rfl, rfl, rfl, by decide, by decide, rfl, rfl, by decide⟩

theorem test_meets_NodeRequestsAndAnswers_reports :
    let s := { wPod with telemetry := { wPod.telemetry with period := 1, dest := 0x8000300000000000 } }
    let t := { wPod with telemetry := { wPod.telemetry with period := 1, dest := wOwn, ctx := 1 } }
    s.telemetry.period ≠ 0 ∧ s.devValid = true ∧ s.telemetry.lastReport + 1 * 1400 ≤ { s with clock := 1400 }.clock ∧
    s.isRemote s.telemetry.dest = true ∧ t.isRemote t.telemetry.dest = false ∧ t.engPage 1 0 wOwn 64 .write = .ok 0x8100 ∧ atHome t 0x8100 64 ∧
    { s with clock := 1399 }.clock < s.telemetry.lastReport + 1 * 1400 ∧ wPod.telemetry.period = 0 :=
  ⟨by decide, rfl, by decide, rfl, rfl, rfl, ⟨by decide, rfl, by decide⟩, by decide, rfl⟩

/-! ### The host, Ralzer and resets -/

/-- The base state with 16-entry rings at 0x20000 and 0x30000. -/
def wHost (f : Admin → Admin) : State :=
  { wBase with admin := f { State.reset.admin with asqbase := 0x20004, acq := 0x30004, ready := true }, bringup := 5, pcieTrained := true }

/-- A command. -/
def wAdm (opc ctx : Nat) (p0 p1 p2 p3 : Nat) : AdminCmd :=
  { opc := BitVec.ofNat 8 opc, ctx := BitVec.ofNat 12 ctx, cid := 9, res := 0, p0 := BitVec.ofNat 64 p0, p1 := BitVec.ofNat 64 p1, p2 := BitVec.ofNat 64 p2
    p3 := BitVec.ofNat 64 p3, p4 := 0, p5 := 0, p6 := 0 }

/-- The command taken, with journal number 1. -/
def wServed (c : AdminCmd) : State := wHost fun a => { a with pending := some (c, 1), asqtail := 1 }

theorem wServed_serves (c : AdminCmd) (opc : Nat) (h1 : c.opc.toNat = opc) (h2 : cmdBad c = false) : serves (wServed c) c 1 opc :=
  ⟨rfl, h1, h2, rfl⟩

theorem test_meets_HostAccessesAndAdminService_host :
    0x3BFFFFFFF8 + 8 ≤ physTop ∧ wBase.quiet 0x3BFFFFFFF8 8 = true ∧ linesAt 0x3BFFFFFFF8 8 = [0x3BFFFFFFF8 / 128] ∧ (wBase.dirLine (0x3BFFFFFFF8 / 128)).hs ≠ .upd ∧
    0x3BFFFFFFF8 + 8 ≤ 0x3C00000000 ∧ 0x3C08000000 + 8 ≤ 0x4000000000 ∧ wBase.quiet 0x4000000000 8 = true ∧ (leBytes 8 5) ≠ [] ∧ Memory.wf wBase.mem = true ∧
    (wHost id).admin.asqtail ≤ (wHost id).admin.served ∧ (wHost fun a => { a with asqtail := 1 }).admin.served < 1 ∧
    (wHost id).bringup = 5 ∧ (wHost id).devValid = false ∧ (0x100000 : W64).toNat / 2 ^ 20 % 2 = 1 ∧ (0xFFFFF : W64).toNat / 2 ^ 20 % 2 = 0 ∧ wPod.devValid = true ∧
    wBase.bringup ≠ 5 ∧ (wHost id).pcieTrained = true ∧ 4 ≤ (wHost id).bringup ∧ wBase.pcieTrained = false ∧ wBase.bringup < 4 ∧ 0x8000 < physTop :=
  ⟨by decide, rfl, by decide, by decide, by decide, by decide, rfl, by decide, rfl, by decide, by decide, rfl, rfl, by decide, by decide, rfl, by decide, rfl, by decide, rfl, by decide, by decide⟩

/-- Memory whose first command is LIMITS for context 1. -/
def wTaken : State :=
  { wHost fun a => { a with asqtail := 1 } with mem := cellPutBytes wMem 0x20000 (wQuads [0x50 + 9 * 2 ^ 16 + 2 ^ 32, 1, 2, 3, 4, 0, 0, 0]) }

theorem test_meets_HostAccessesAndAdminService_take :
    wTaken.admin.pending = none ∧ wTaken.admin.ready = true ∧ wTaken.admin.served < wTaken.admin.asqtail ∧ ringOn wTaken.admin.asqbase = true ∧
    ringOn wTaken.admin.acq = true ∧ wTaken.quiet 0x20000 64 = true ∧ linesAt 0x20000 64 = [0x400] ∧ (wTaken.dirLine 0x400).hs ≠ .upd ∧
    cmdOf (cellBytes wTaken.mem 0x20000 64) = wAdm 0x50 1 1 2 3 4 ∧ (wAdm 0x50 1 1 2 3 4).opc.toNat = 0x50 :=
  ⟨rfl, rfl, by decide, by decide, by decide, rfl, by decide, by decide, by decide, by decide⟩

theorem test_meets_HostAccessesAndAdminService_refuse :
    (wServed (wAdm 0x50 2 0 0 0 0)).admin.pending = some (wAdm 0x50 2 0 0 0 0, 1) ∧ (wServed (wAdm 0x50 2 0 0 0 0)).quiet 0x30000 32 = true ∧
    cmdBad { wAdm 0x50 2 0 0 0 0 with p4 := 1 } = true ∧ adminMasks (wAdm 0x99 2 0 0 0 0).opc.toNat = none ∧ cmdBad (wAdm 0x50 2 0 0 0 0) = false ∧
    (wServed (wAdm 0x50 2 0 0 0 0)).ctx? 2 = none ∧ dataOk 0x3BFFFFFFE0 32 ∧ dataOk 0x4000000000 32 :=
  ⟨rfl, rfl, by decide, by decide, by decide, rfl, ⟨by decide, by decide⟩, ⟨by decide, by decide⟩⟩

theorem test_meets_ContextAndQueueCommandsComplete_contexts :
    serves (wServed (wAdm 0x01 0 0x8000 0x1000 0x400000 0)) (wAdm 0x01 0 0x8000 0x1000 0x400000 0) 1 0x01 ∧
    (0x1000 % 4096 = 0 ∧ 4096 ≤ 0x1000 ∧ dataOk 0x400000 (1024 * 0x1000)) ∧ (wServed (wAdm 0x01 0 0x8000 0x1000 0x400000 0)).ctx? 2 = none ∧
    (∀ k : Nat, 1 ≤ k → k < 2 → ((wServed (wAdm 0x01 0 0x8000 0x1000 0x400000 0)).ctx? k).isSome) ∧ ¬ (0xFFF % 4096 = 0) ∧
    serves (wServed (wAdm 0x02 1 0 0 0 0)) (wAdm 0x02 1 0 0 0 0) 1 0x02 ∧ (wServed (wAdm 0x02 1 0 0 0 0)).ctx? 1 = some wCtx ∧
    (wServed (wAdm 0x02 1 0 0 0 0)).queues = [] ∧ (wServed (wAdm 0x02 1 0 0 0 0)).ctxCuttable 1 = true ∧
    ((wServed (wAdm 0x01 0 0x8000 0x1000 0x400000 0)).newCtx (wAdm 0x01 0 0x8000 0x1000 0x400000 0) 2).roomInFirmware = true := by
  refine ⟨wServed_serves _ _ (by decide) (by decide), ⟨by decide, by decide, by decide, by decide⟩, rfl, ?_, by decide,
    wServed_serves _ _ (by decide) (by decide), rfl, rfl, rfl, by decide⟩
  intro k h1 h2
  obtain rfl : k = 1 := by omega
  rfl

/-- Q.CREATE of queue 7 with two records, weight 1, vector 1 on. -/
def wQCreate : AdminCmd := wAdm 0x10 1 7 0x40001 0x50000 (2 ^ 8 + 2 ^ 32 + 2 ^ 43)

theorem test_meets_ContextAndQueueCommandsComplete_queues :
    serves (wServed wQCreate) wQCreate 1 0x10 ∧ ((wServed wQCreate).ctx? 1).isSome ∧ wQCreate.p1.toNat % 32 = 1 ∧ wQCreate.p3.toNat / 2 ^ 8 % 2 ^ 8 ≠ 0 ∧
    wQCreate.p3.toNat / 2 ^ 32 % 2 ^ 11 ≠ 0 ∧ dataOk 0x40000 (128 * 2 ^ 1) ∧ dataOk 0x50000 (64 * 2 ^ 1) ∧ (wServed wQCreate).queues = [] ∧
    (∃ q ∈ { wServed wQCreate with queues := [wQueue] }.queues, q.id = wQCreate.p0.toNat) ∧
    serves (wServed (wAdm 0x11 1 7 (2 ^ 40) 0 0)) (wAdm 0x11 1 7 (2 ^ 40) 0 0) 1 0x11 ∧ serves (wServed (wAdm 0x12 1 7 1 0 0)) (wAdm 0x12 1 7 1 0 0) 1 0x12 ∧
    serves (wServed (wAdm 0x13 1 7 0 0 0)) (wAdm 0x13 1 7 0 0 0) 1 0x13 ∧
    { wServed (wAdm 0x13 1 7 0 0 0) with queues := [wQueue] }.queue? 7 = some wQueue ∧ wQueue.ctx = 1 ∧ wQueue.boundTo.isSome ∧
    { wQueue with ctx := 2 }.ctx ≠ 1 ∧ { wQueue with boundTo := none }.boundTo = none ∧
    (wServed (wAdm 0x13 1 7 0 0 0)).recordsQuiet { wQueue with boundTo := none } = true ∧
    serves (wServed (wAdm 0x50 1 1 2 3 4)) (wAdm 0x50 1 1 2 3 4) 1 0x50 :=
  ⟨wServed_serves _ _ (by decide) (by decide), rfl, by decide, by decide, by decide, ⟨by decide, by decide⟩, ⟨by decide, by decide⟩, rfl,
    ⟨_, List.mem_singleton_self _, rfl⟩, wServed_serves _ _ (by decide) (by decide), wServed_serves _ _ (by decide) (by decide),
    wServed_serves _ _ (by decide) (by decide), rfl, rfl, rfl, by decide, rfl, rfl, wServed_serves _ _ (by decide) (by decide)⟩

theorem test_meets_ContextAndQueueCommandsComplete_carousel :
    serves (wServed (wAdm 0x51 1 2 0x20000000 0 0)) (wAdm 0x51 1 2 0x20000000 0 0) 1 0x51 ∧ (wServed (wAdm 0x51 1 2 0 0 0)).car0.holder = none ∧
    (wAdm 0x51 1 2 0 0 0).p0.toNat / 2 % 2 = 1 ∧ ¬ ((wAdm 0x51 1 1 0 0 0).p0.toNat / 2 % 2 = 1) ∧ 2 ^ 48 ≤ (wAdm 0x51 1 2 (2 ^ 48) 0 0).p1.toNat ∧
    (wServed (wAdm 0x51 1 2 0x20000000 0 0)).carTable 1 0 0x20000001 = none ∧ (wServed (wAdm 0x51 1 2 0x20000000 0 0)).carFirst 1 0 0x20000001 = none ∧
    (wServed (wAdm 0x51 1 2 0 0 0)).carFirst 1 0 0 = none ∧ ((wServed (wAdm 0x51 1 2 0 0 0)).ctx? 1).isSome ∧ (wServed (wAdm 0x51 1 2 0x20000000 0 0)).carBusy 1 0 = false ∧
    { wServed (wAdm 0x51 1 0 0 0 0) with car0 := { holder := some 1, granted := 0, base := 0, table := [] } }.car0.holder = some 1 ∧
    { wServed (wAdm 0x51 1 0 0 0 0) with car0 := { holder := some 2, granted := 0, base := 0, table := [] } }.car0.holder = some 2 :=
  ⟨wServed_serves _ _ (by decide) (by decide), rfl, by decide, by decide, by decide, rfl, rfl, rfl, rfl, rfl, rfl, rfl⟩

/-- A table without a valid circuit is never refused. -/
theorem carTableBad_none (es : List CarEntry) (die : Nat) (h : ∀ e ∈ es, e.v = false) : carTableBad es die = false := by
  unfold carTableBad
  rw [Bool.or_eq_false_iff, List.any_eq_false, List.any_eq_false]
  refine ⟨fun e he => by simp [CarEntry.bad, h e he], fun x hx => ?_⟩
  have hv : x.1.v = false := h _ (by
    have := List.mem_zipIdx hx
    exact this.2.2 ▸ List.getElem_mem _)
  simp [carClash, hv]

theorem cellBytes_above {m : List Host.Cell} (n a : Nat) (h : ∀ c ∈ m, c.1 < a) : ∀ b ∈ cellBytes m a n, b = 0 := by
  have g : ∀ (m : List Host.Cell) (a : Nat), (∀ c ∈ m, c.1 < a) → cellGet m a = 0 := by
    intro m
    induction m with
    | nil => intro _ _; rfl
    | cons x t ih =>
      intro a h
      rw [cellGet, if_neg (by have := h x List.mem_cons_self; omega)]
      exact ih a fun c hc => h c (List.mem_cons_of_mem _ hc)
  induction n generalizing a with
  | zero => intro b hb; cases hb
  | succ n ih =>
    intro b hb
    rcases List.mem_cons.1 hb with rfl | hb
    · exact g m a h
    · exact ih (a + 1) (fun c hc => by have := h c hc; omega) b hb

theorem leVal_zeros : ∀ bs : List Byte, (∀ b ∈ bs, b = 0) → leVal bs = 0
  | [], _ => rfl
  | b :: t, h => by
    rw [leVal, leVal_zeros t fun c hc => h c (List.mem_cons_of_mem _ hc), h b List.mem_cons_self]
    rfl

/-- A table that lies above every listed byte of memory names no circuit. -/
theorem carTable_isSome {s : State} {ctx core a : Nat} {va : W64} (h0 : va.toNat % 4096 = 0)
    (h : s.checkPage ctx (clusterOf core) va 4096 .read = .ok a) (hr : ¬ remoteBase ≤ a) (hm : ∀ c ∈ s.mem, c.1 < a) :
    (s.carTable ctx core va).isSome = true := by
  have hv : ∀ e ∈ (chunks 16 (cellBytes s.mem a 4096)).map (fun b => BitVec.ofNat 128 (leVal b)), CarEntry.v e = false := by
    intro e he
    obtain ⟨bs, hb, rfl⟩ := List.mem_map.1 he
    obtain ⟨k, -, rfl⟩ := List.mem_map.1 hb
    rw [leVal_zeros _ fun b hb => cellBytes_above _ _ hm b (List.mem_of_mem_drop (List.mem_of_mem_take hb))]
    rfl
  unfold State.carTable
  rw [if_neg (by omega), h]
  simp only [if_neg hr, carTableBad_none _ _ hv]
  rfl

/-- A table of no circuits at 0x8000. -/
theorem test_meets_ContextAndQueueCommandsComplete_table :
    ((wServed (wAdm 0x51 1 2 0x8000 0 0)).carTable 1 0 0x8000).isSome = true := carTable_isSome (by decide) rfl (by decide) (by decide)

theorem test_meets_ContextAndQueueCommandsComplete_table_first :
    (wServed (wAdm 0x51 1 2 0x8000 0 0)).carFirst 1 0 0x8000 = none := by decide +kernel

/-- MEM.MAP of one 4 KiB page at 0x400000. -/
def wMap (fl : Nat) : AdminCmd := wAdm 0x20 1 0x400000 0x400000 4096 fl

theorem test_meets_DeviceCommandsComplete_memory :
    serves (wServed (wMap 3)) (wMap 3) 1 0x20 ∧ serves (wServed (wMap 19)) (wMap 19) 1 0x20 ∧ (wServed (wMap 3)).ctx? 1 = some wCtx ∧
    (wMap 3).p3.toNat / 2 ^ 5 % 8 ≤ 4 ∧ 0x400000 % pageBytes 0 = 0 ∧ 4096 % pageBytes 0 = 0 ∧ 0x400000 + 4096 ≤ 2 ^ 48 ∧ dataOk 0x400000 4096 ∧
    ¬ ((wMap 3).p3.toNat / 2 ^ 8 % 2 = 1) ∧ ¬ ((wMap 3).p3.toNat / 2 ^ 4 % 2 = 1) ∧ (wMap 19).p3.toNat / 2 ^ 4 % 2 = 1 ∧
    ((wServed (wMap 3)).mapRange 0x1000 0x400000 0x400000 4096 0 (true, true, false)).roomInFirmware = true ∧ (wServed (wMap 3)).quiet 0x400000 4096 = true ∧
    serves (wServed (wAdm 0x21 1 0x400000 0 4096 0)) (wAdm 0x21 1 0x400000 0 4096 0) 1 0x21 ∧
    (wServed (wAdm 0x21 1 0x400000 0 4096 0)).anyMapped 0x1000 0x400000 4096 = false ∧ (wServed (wAdm 0x21 1 0x400000 0 4096 0)).shooting = false ∧
    (let s := wServed (wAdm 0x21 1 0 0 0x200000 0)
     s.anyMapped 0x1000 0 0x200000 = true ∧ (s.unmapRange 0x1000 0 0x200000 (0x200000 / 4096)).roomInFirmware = true ∧
     (s.unmapRange 0x1000 0 0x200000 (0x200000 / 4096)).shooting = false ∧
     ({ s with msgs := [.shootdown 0 1] }.unmapRange 0x1000 0 0x200000 (0x200000 / 4096)).shooting = true) :=
  ⟨wServed_serves _ _ (by decide) (by decide), wServed_serves _ _ (by decide) (by decide), rfl, by decide, by decide, by decide, by decide,
    ⟨by decide, by decide⟩, by decide, by decide, by decide, rfl, rfl, wServed_serves _ _ (by decide) (by decide), rfl, rfl, rfl, rfl, rfl, rfl⟩

theorem test_meets_DeviceCommandsComplete_others :
    elfSections [] = none ∧ serves (wServed (wAdm 0x30 1 0x60000 64 0x70000 4096)) (wAdm 0x30 1 0x60000 64 0x70000 4096) 1 0x30 ∧ dataOk 0x60000 64 ∧
    dataOk 0x70000 4096 ∧ (wServed (wAdm 0x30 1 0x60000 64 0x70000 4096)).quiet 0x60000 64 = true ∧ wCtx.nextHandle ≠ 0 ∧
    serves (wServed (wAdm 0x60 1 0x60000 0x70000 0 0)) (wAdm 0x60 1 0x60000 0x70000 0 0) 1 0x60 ∧ dataOk 0x70000 3076 ∧
    (wServed (wAdm 0x60 1 0x60000 0x70000 0 0)).admin.xmssIndex = (wServed (wAdm 0x60 1 0x60000 0x70000 0 0)).admin.xmssBlock ∧ 0 + 64 ≤ 2 ^ 20 ∧
    2 ^ 20 < 2 ^ 20 + 64 ∧ serves (wServed (wAdm 0x70 1 1 4096 0x100000 0)) (wAdm 0x70 1 1 4096 0x100000 0) 1 0x70 ∧ dataOk 0x100000 (128 * 4096) ∧
    (wServed (wAdm 0x70 1 1 4096 0x100000 0)).quiet 0x100000 (128 * 4096) = true ∧
    serves (wServed (wAdm 0x90 1 0x60000 0 0 0)) (wAdm 0x90 1 0x60000 0 0 0) 1 0x90 ∧ dataOk 0x60000 4096 ∧ isGlobal 0x8000000000000000 = true :=
  ⟨rfl, wServed_serves _ _ (by decide) (by decide), ⟨by decide, by decide⟩, ⟨by decide, by decide⟩, rfl, by decide, wServed_serves _ _ (by decide) (by decide),
    ⟨by decide, by decide⟩, rfl, by decide, by decide, wServed_serves _ _ (by decide) (by decide), ⟨by decide, by decide⟩, rfl,
    wServed_serves _ _ (by decide) (by decide), ⟨by decide, by decide⟩, rfl⟩

theorem journalEntry_length (s : State) (h : s.lost = []) (k : Nat) : (s.journalEntry k).length = 128 := by
  simp only [State.journalEntry, h, List.contains_nil, Bool.false_eq_true, if_false]
  exact cellBytes_length _ _ _

theorem test_meets_DeviceCommandsComplete_pools :
    serves (wServed (wAdm 0x40 0 0x70 0 0 0)) (wAdm 0x40 0 0x70 0 0 0) 1 0x40 ∧ 6 < (wAdm 0x40 0 0x70 0 0 0).p0.toNat / 16 % 16 ∧
    (wAdm 0x40 0 0x60 0 0 0).p0.toNat / 16 % 16 ≤ 6 ∧ wChip.frames ≠ [] ∧ Chip.reset.frames = [] ∧
    serves (wServed (wAdm 0x41 0 0x501 0 0 0)) (wAdm 0x41 0 0x501 0 0 0) 1 0x41 ∧ serves (wServed (wAdm 0x80 0 255 0 0 0)) (wAdm 0x80 0 255 0 0 0) 1 0x80 ∧
    256 ≤ (wAdm 0x80 0 256 0 0 0).p0.toNat ∧ (wAdm 0x80 0 255 0 0 0).p0.toNat ≤ 255 ∧ (∀ c : Nat, c / 4 = 255 → ((wServed (wAdm 0x80 0 255 0 0 0)).coreAt c).launch = none ∧
      (wServed (wAdm 0x80 0 255 0 0 0)).cuttable ((wServed (wAdm 0x80 0 255 0 0 0)).coreAt c) = true) := by
  refine ⟨wServed_serves _ _ (by decide) (by decide), by decide, by decide, by decide, rfl, wServed_serves _ _ (by decide) (by decide),
    wServed_serves _ _ (by decide) (by decide), by decide, by decide, ?_⟩
  intro c h
  obtain ⟨j, hj, rfl⟩ : ∃ j, j < 4 ∧ c = 1020 + j := ⟨c - 1020, by omega, by omega⟩
  exact (by decide : ∀ j : Fin 4, ((wServed (wAdm 0x80 0 255 0 0 0)).coreAt (1020 + j.val)).launch = none ∧
    (wServed (wAdm 0x80 0 255 0 0 0)).cuttable ((wServed (wAdm 0x80 0 255 0 0 0)).coreAt (1020 + j.val)) = true) ⟨j, hj⟩

/-! ### Errors, resets, steps -/

theorem test_meets_ErrorsAreHandled :
    (let e := { FilterEntry.empty 0x102 .none with st := .s }
     ((wEntry e (.readReq 0 0)).cluster 0).entry 0x102 = some e ∧ (∀ x ∈ ((wEntry e (.readReq 0 0)).cluster 0).filter, x ≠ e → x.line ≠ 0x102)) ∧
    0x102 * 128 < physTop ∧ wBase.settled 0x102 = true ∧ 0x102 ∉ wBase.lost ∧ (wBase.lost.filter fun k => lineHome k == lineHome 0x102).length < 256 ∧
    assoc 4 ((wNodes id).die 0).nodes ≠ none ∧ assoc 1 (wRun.die 0).tcbs = some { wTcb with state := .running } ∧ (wRun.die 0).tree? 0 = some wTree ∧
    (let p := { wWork .arr0 with code := [(0x8000, [0x20000000])] }
     (((wArr p (wMac .loaded) Bank.reset).cluster 0).arr 0).run = some p ∧ p.core = 0 ∧ p.word = some 0x20000000 ∧ (0x20000000 : W32).toNat / 2 ^ 27 = 4 ∧ p.stage = 2 ∧
       (∀ r, (((wArr p (wMac .loaded) Bank.reset).cluster 0).arr 0).rcd = some r → (wArr p (wMac .loaded) Bank.reset).statusFree r = true)) ∧
    handles wBase ∧ (wVec id).core.vrun = some wRun6 ∧ (wEng .xin (wWork .xin) id MatArray.reset Bank.reset).prog? = some (wWork .xin) :=
  ⟨⟨rfl, by decide⟩, by decide, rfl, by decide, by decide, by decide, rfl, rfl,
    ⟨rfl, rfl, rfl, by decide, rfl, fun r h => by obtain rfl : wTile = r := Option.some.inj h; rfl⟩, by unfold handles; decide, rfl, rfl⟩

theorem test_meets_ErrorsAreHandled_fetch :
    (let s := wWith fun c => { c with pc := 0x200000 }
     s.unit = .seq ∧ s.core.seq = .run ∧ s.wordAt 1 0 [] s.core.pc = none ∧ s.core.reach = .along ∧ handles s) ∧
    (wWith fun c => { c with pc := 0x200000, reach := .loop }).core.reach = .loop ∧ (wWith fun c => { c with pc := 0x200000, reach := .jump 0x8000 }).core.reach = .jump 0x8000 ∧
    (wWith fun c => { c with pc := 0x200000, reach := .jump 0x8000 }).core.loops.length < 8 ∧
    (wBase.wordAt 1 0 [] wBase.core.pc).isSome :=
  ⟨⟨rfl, rfl, rfl, rfl, by unfold handles; decide⟩, rfl, rfl, by decide, rfl⟩

theorem test_meets_ResetsAndPowerComplete :
    let passes := fun (f : Flash) (b : FlashBank) => b.signed = true ∧ f.least.toNat ≤ b.version.toNat
    passes State.reset.flash State.reset.flash.bank0 ∧
    (let f : Flash := { bank0 := { signed := false, version := 9 }, bank1 := { signed := true, version := 1 }, least := 2 }
     ¬ (passes f f.bank0 ∨ passes f f.bank1)) ∧
    wBase.pcieTrained = false ∧ wBase.power.off = false ∧ { wBase with bringup := 2 }.bringup = 2 ∧ wBase.bringup ≠ 2 ∧ wBase.bringup ≠ 3 ∧ wBase.bringup ≠ 4 ∧
    { wBase with schedule := [.bringUp], bringup := 3 }.schedule = .bringUp :: [] ∧ (wHost id).bringup = 5 ∧
    (wHost id).admin.pending = none ∧ (wHost id).dir = [] ∧ wBase.bringup ≠ 5 ∧
    (let p := { wBase.power with allowed := 2 }
     p.current ≠ 2 ∧ min 2 (p.allowed + p.capSteps + p.heatSteps) = 2 ∧ { wBase with clock := 512 }.clock % 512 = 0 ∧ { wBase with clock := 511 }.clock % 512 ≠ 0) ∧
    wBase.power.allowed + 1 + 0 < 2 ∧ ¬ (wBase.power.allowed + 1 + 1 < 2) ∧ { wBase.power with capSteps := 1 }.capSteps ≠ 0 ∧
    { wBase.power with off := true }.off = true ∧ wBase.schedule = [] ∧ Turn.event .thermtrip ≠ .event .coldReset :=
  ⟨by decide, by decide, rfl, rfl, rfl, by decide, by decide, by decide, rfl, rfl, rfl, rfl, by decide, ⟨by decide, by decide, by decide, by decide⟩, by decide, by decide,
    by decide, rfl, rfl, by decide⟩

/-- The turn is agent a's. -/
def wTurn (a : Agent) (s : State) : State := { s with schedule := [.agent a] }

theorem wBase_ready (s : State) (h : s.checkPage s.core.context (clusterOf s.core.id) 0x8000 64 .fetch = .ok 0x8000)
    (hs : s.rangeSettled 0x8000 64 = true) (hd : (s.dirLine (lineOf 0x8000)).hs ≠ .upd) (hl : s.lost = []) : blockReady s [] 0x8000 :=
  .inr (.inr ⟨0x8000, h, by decide, hs, hd, by rw [hl]; rfl⟩)

theorem test_meets_StepRunsTheDecodedWord :
    wBase.power.off = false ∧ wBase.power.current ≠ 3 ∧ (wTurn .seq wBase).schedule = .agent .seq :: [] ∧ wBase.seqHeld = false ∧
    (wBase.wordAt 1 0 [] 0x8000).isSome ∧ (wWith fun c => { c with pc := 0x200000 }).wordAt 1 0 [] 0x200000 = none ∧
    blockReady wBase wBase.core.code 0x8000 ∧ blockReady wBase wBase.core.code 0x200000 ∧
    (wTurn .vec (wVec id)).core.vrun = some wRun6 ∧ ((wVec id).engineWord wRun6.code wRun6.pc).isSome ∧
    blockReady (wVec id) (wRun6.code ++ (wVec id).core.ecode) wRun6.pc ∧
    (∀ u ∈ [Agent.xin, .xout, .arr0], let s := wEng .seq (wWork u) id MatArray.reset Bank.reset
      { wTurn u s with unit := u }.prog? = some (wWork u) ∧ (wWork u).stopped = false ∧ ({ wTurn u s with unit := u }.engineWord (wWork u).code (wWork u).pc).isSome ∧
      blockReady s ((wWork u).code ++ s.core.ecode) (wWork u).pc) := by
  refine ⟨rfl, by decide, rfl, rfl, rfl, rfl, wBase_ready _ rfl rfl (by decide) rfl, .inr (.inl ⟨_, rfl⟩), rfl, rfl,
    wBase_ready _ rfl rfl (by decide) rfl, ?_⟩
  intro u hu
  simp only [List.mem_cons, List.not_mem_nil, or_false] at hu
  rcases hu with rfl | rfl | rfl <;> exact ⟨rfl, rfl, rfl, wBase_ready _ rfl rfl (by decide) rfl⟩

theorem test_meets_StepRunsTheDecodedWord_events :
    { wBase.power with current := 3 }.current = 3 ∧ isEvent .thermtrip = true ∧ awake .thermtrip = true ∧
    (∃ t, exec .thermtrip wBase = .next t ∧ t.power.off ≠ wBase.power.off) ∧ exec (.fabricTimeout 0) wBase = .next wBase := ⟨rfl, rfl, rfl, ⟨_, rfl, by decide⟩, rfl⟩

theorem test_meets_StepRunsTheDecodedWord_sources :
    (wWith fun c => { c with loads := [wLoad] }).core.waitsFor (sourcesOf (.addImm 1 5 0)) = true ∧ wBase.core.waitsFor (sourcesOf (.addImm 1 5 0)) = false := ⟨rfl, rfl⟩

theorem test_meets_StepKeepsMemoryForm : MemWf wBase ∧ MemWf { wBase with chip0 := wChip } ∧ ∃ t, exec (.addImm 1 5 0) wBase = .next t :=
  ⟨⟨rfl, rfl, rfl⟩, ⟨rfl, rfl, rfl⟩, ⟨_, rfl⟩⟩

theorem test_meets_EncodingRoundTrips :
    (Instr.addImm 31 31 (-1)).codeSection = some .sq ∧ (Instr.addImm 31 31 (-1)).wf = true ∧ (Instr.viota 31 7 63).wf = true := ⟨rfl, rfl, rfl⟩

/-- A section header: name, type, address, offset, size, alignment. -/
def wShdr (name ty addr off size al : Nat) : List Byte :=
  leBytes 4 name ++ leBytes 4 ty ++ leBytes 8 0 ++ leBytes 8 addr ++ leBytes 8 off ++ leBytes 8 size ++ leBytes 8 0 ++ leBytes 8 al ++ leBytes 8 0

/-- An image with one block of sequencer code for 0x400000. -/
def wElf : List Byte :=
  leBytes 16 0x00010102464C457F ++ leBytes 2 2 ++ leBytes 2 0x4F51 ++ List.replicate 20 0 ++ leBytes 8 64 ++ leBytes 4 1 ++ List.replicate 6 0 ++
  leBytes 2 64 ++ leBytes 2 3 ++ leBytes 2 1 ++ List.replicate 64 0 ++ wShdr 0 3 0 256 8 1 ++ wShdr 1 1 0x400000 264 64 64 ++ [0] ++ nameBytes ".qx.sq" ++ [0] ++ List.replicate 64 0

theorem test_meets_DeviceCommandsComplete_image :
    wElf.length = 328 ∧ elfSections wElf = some [{ kind := 0, addr := 0x400000, align := 64, bytes := List.replicate 64 0 }] ∧
    sectionsBad [{ kind := 0, addr := 0x400000, align := 64, bytes := List.replicate 64 0 }] = false ∧
    wBase.anyMapped wCtx.rootL 0x400000 64 = false := ⟨rfl, rfl, rfl, rfl⟩

end Sys2Proof.Tests
end

