-- ==== Sys2Proof/Proofs/KeepsWords.lean ====
section
/-! SUPPORT. Proofs/KeepsWords.lean: words of the sequencer and steps of a core keep memory in its canonical form. -/

namespace Sys2Proof.Machine

/-! ### Outcomes -/

theorem Kept.write {s : State} (d : Reg) (x : W64) (h : MemWf s) : Kept (s.write d x) := Kept.next h

theorem Kept.pass {s : State} (h : MemWf s) : Kept s.pass := Kept.next h

theorem Kept.preciseWord {s : State} (c : Cause) (i : Instr) (h : MemWf s) : Kept (s.preciseWord c i) := Kept.precise _ _ h

/-- Either way of a choice keeps the form. -/
theorem Kept.ite {p : Prop} [Decidable p] {a b : Out} (ha : Kept a) (hb : Kept b) : Kept (if p then a else b) := by
  split
  · exact ha
  · exact hb

theorem MemWf.ite {p : Prop} [Decidable p] {s t : State} (hs : MemWf s) (ht : MemWf t) : MemWf (if p then s else t) := by
  split
  · exact hs
  · exact ht

/-! ### Code that is fetched (R86) -/

theorem Kept.fetchFirst {s : State} {who : Agent} {kept : List (W64 × List W32)} {b : W64} {keep : State → List W32 → State} {wait : Out}
    {k : State → Out} (h : MemWf s) (hp : ∀ t ws, MemWf t → MemWf (keep t ws)) (hw : Kept wait) (hk : ∀ t, MemWf t → Kept (k t)) :
    Kept (s.fetchFirst who kept b keep wait k) := by
  unfold State.fetchFirst
  split
  · exact hk _ h
  · split
    · exact hk _ h
    · refine Kept.ite (Kept.ask h fun t r ht => ?_)
        (Kept.ite hw (Kept.ite (Kept.next (h.mergeNow _)) (Kept.ite (Kept.next (hp _ _ (h.charge _ _))) (hk _ h))))
      split
      · exact Kept.next (hp _ _ ht)
      · exact hk _ ht
      all_goals exact Kept.next ht

theorem Kept.fetchCmd {s : State} {who : Agent} {va : W64} {wait : Out} {k : State → Out} (h : MemWf s) (hw : Kept wait)
    (hk : ∀ t, MemWf t → Kept (k t)) : Kept (s.fetchCmd who va wait k) :=
  Kept.fetchFirst h (fun _ _ ht => ht.upd _) hw hk

/-! ### Scalar floating point (R62..R65) -/

theorem Kept.rounded {s : State} (d : Reg) (m : RMode) (f : Fmt) (op : RMode → Nat → Nat × Flags) (h : MemWf s) :
    Kept (s.rounded d m f op) := by
  unfold State.rounded
  exact Kept.ite (Kept.ite (Kept.next h) (Kept.ite (Kept.next h) (Kept.next h))) (Kept.next h)

theorem Kept.fcvt {s : State} (d a : Reg) (src dst : Ty) (r : Rnd) (h : MemWf s) : Kept (execFcvt d a src r dst s) := by
  unfold execFcvt
  exact Kept.ite (Kept.ite (Kept.next h) (Kept.ite (Kept.next h) (Kept.next h))) (Kept.next h)

/-! ### Branches and loops (R67..R73) -/

theorem Kept.branch {s : State} (taken : Bool) (o : BitVec 16) (h : MemWf s) : Kept (s.branch taken o) :=
  Kept.ite (Kept.next h) (Kept.pass h)

theorem Kept.call {s : State} (d : Reg) (t : W64) (h : MemWf s) : Kept (s.call d t) := Kept.ite (Kept.precise _ _ h) (Kept.next h)

theorem Kept.jr {s : State} (a : Reg) (h : MemWf s) : Kept (execJr a s) := Kept.ite (Kept.precise _ _ h) (Kept.next h)

theorem Kept.jlr {s : State} (d a : Reg) (h : MemWf s) : Kept (execJlr d a s) := Kept.ite (Kept.precise _ _ h) (Kept.call _ _ h)

theorem Kept.openLoop {s : State} (i : Instr) (n : W64) (e : BitVec 8) (h : MemWf s) : Kept (s.openLoop i n e) :=
  Kept.ite (Kept.precise _ _ h) (Kept.ite (Kept.precise _ _ h) (Kept.ite (Kept.next h) (Kept.ite (Kept.preciseWord _ _ h) (Kept.next h))))

theorem MemWf.squash {s : State} (inst cut : Nat) (h : MemWf s) : MemWf (s.squash inst cut) := by
  obtain ⟨hm, h0, h1⟩ := h
  have chips : ∀ {t : State} (p q : AttnCmd → Bool), MemWf t →
      MemWf { t with chip0 := t.chip0.dropCmds 0 p, chip1 := t.chip1.dropCmds 1 q } := fun p q ⟨a, b, c⟩ =>
    ⟨a, by rw [Chip.dropCmds_bytes]; exact b, by rw [Chip.dropCmds_bytes]; exact c⟩
  unfold State.squash
  dsimp only
  split <;> split
  · exact ⟨hm, h0, h1⟩
  · exact ⟨hm, h0, h1⟩
  · exact chips _ _ ⟨hm, h0, h1⟩
  · exact chips _ _ ⟨hm, h0, h1⟩

theorem Kept.lbrk {s : State} (h : MemWf s) : Kept (execLbrk s) := by
  unfold execLbrk
  split
  · exact Kept.preciseWord _ _ h
  · exact Kept.next h

theorem Kept.lbrkSq {s : State} (a : Reg) (h : MemWf s) : Kept (execLbrkSq a s) := by
  unfold execLbrkSq
  split
  · exact Kept.preciseWord _ _ h
  · exact Kept.next ((h.squash _ _).upd _)

theorem Kept.lidx {s : State} (d : Reg) (k : Fin 8) (h : MemWf s) : Kept (execLidx d k s) := by
  unfold execLidx
  split
  · exact Kept.preciseWord _ _ h
  · exact Kept.write _ _ h

theorem Kept.loopEndCheck {s : State} (c : Nat) (h : MemWf s) : Kept (execLoopEndCheck c s) :=
  Kept.ite (Kept.next ((h.focus c).upd _)) (Kept.next h)

/-! ### System instructions (R83..R86, R399) -/

theorem Kept.pauseEnd {s : State} (c : Nat) (h : MemWf s) : Kept (execPauseEnd c s) := by
  unfold execPauseEnd
  dsimp only
  split
  · exact Kept.ite (Kept.pass (h.focus c)) (Kept.next h)
  · exact Kept.next h

theorem Kept.halt {s : State} (h : MemWf s) : Kept (execHalt s) := Kept.ite (Kept.next h) (Kept.next h.haltLevel)

theorem Kept.tret {s : State} (h : MemWf s) : Kept (execTret s) := Kept.ite (Kept.preciseWord _ _ h) (Kept.next h)

theorem Kept.bkpt {s : State} (k : BitVec 10) (h : MemWf s) : Kept (execBkpt k s) := Kept.ite (Kept.next h) (Kept.traps _ _ _ _ h)

theorem Kept.jtagDebugger {s : State} (c : Nat) (act : DebugAct) (h : MemWf s) : Kept (execJtagDebugger c act s) := by
  have ht := h.focus c
  unfold execJtagDebugger
  refine Kept.ite (Kept.next h) ?_
  split
  · exact Kept.next (ht.upd _)
  · exact Kept.next (ht.upd _)
  · exact Kept.ite (Kept.pass ht) (Kept.next h)

/-! ### The end of a task (R85, R118..R121) -/

theorem MemWf.taskOver {s : State} (k : EndKind) (h : MemWf s) : MemWf (s.taskOver k) := by
  unfold State.taskOver
  dsimp only
  split
  · have ended := fun c task => (h.upd { s.core with implicit := false, loops := [] }).endDequeued c task 0 none
    split
    · exact ((ended _ _).endTask _ _).returnToBody _ _
    · exact ((ended _ _).endTask _ _).returnToBody _ _
    · exact ((ended _ _).joinTask _ _ _).returnToBody _ _
  · split
    · exact (h.upd _).bodyEnd _ _
    · exact h

theorem Kept.taskEnd {s : State} (c : Nat) (h : MemWf s) : Kept (execTaskEnd c s) := by
  unfold execTaskEnd
  dsimp only
  split
  · refine Kept.ite (Kept.next h) (Kept.atBoundary (h.focus c) fun u hu => Kept.next ?_)
    exact MemWf.taskOver _ (MemWf.ite (hu.upd _) hu)
  · exact Kept.next h

/-! ### Engine commands (R74..R81) -/

theorem Kept.issue {s : State} (n : Nat) (queue : Core → List Cmd) (enter : Core → Core) (h : MemWf s) : Kept (s.issue n queue enter) :=
  Kept.ite (Kept.ite (Kept.pass h) (Kept.next h)) (Kept.ite (Kept.next h) (Kept.ite (Kept.next h) (Kept.next h)))

theorem Kept.vrun {s : State} (a : Reg) (m : BitVec 16) (h : MemWf s) : Kept (execVrun a m s) :=
  Kept.ite (Kept.precise _ _ h) (Kept.issue _ _ _ h)

theorem Kept.mtask {s : State} (a : Reg) (m : BitVec 16) (h : MemWf s) : Kept (execMtask a m s) :=
  Kept.ite (Kept.precise _ _ h) (Kept.issue _ _ _ h)

theorem Kept.xrun {s : State} (a : Reg) (m : BitVec 16) (h : MemWf s) : Kept (execXrun a m s) := by
  unfold execXrun
  refine Kept.ite (Kept.precise _ _ h) (Kept.fetchCmd h (Kept.next h) fun u hu => ?_)
  split
  · exact Kept.precise _ _ hu
  · dsimp only
    split
    · exact Kept.precise _ _ hu
    · exact Kept.issue _ _ _ (hu.upd _)
    · exact Kept.issue _ _ _ (hu.upd _)

theorem Kept.wait {s : State} (l st c t : Fin 64) (h : MemWf s) : Kept (execWait l st c t s) := Kept.ite (Kept.next h) (Kept.next h)

theorem Kept.vget {s : State} (d : Reg) (n : Fin 4) (h : MemWf s) : Kept (execVget d n s) := Kept.ite (Kept.write _ _ h) (Kept.next h)

theorem Kept.loadDataReturn {s : State} (c k : Nat) (h : MemWf s) : Kept (execLoadDataReturn c k s) := by
  unfold execLoadDataReturn
  dsimp only
  split
  · exact Kept.next h
  · split
    · exact Kept.next h
    · exact Kept.next ((h.focus c).upd _)

theorem Kept.slack {s : State} (d a : Reg) (h : MemWf s) : Kept (execSlack d a s) := Kept.ite (Kept.precise _ _ h) (Kept.write _ _ (h.upd _))

theorem MemWf.reslice {s : State} (g : Nat) (h : MemWf s) : MemWf (s.reslice g) :=
  MemWf.foldl (fun _ _ ht => ht.intoHold _ _ _) _ (h.putCluster _ _)

theorem MemWf.rebank {s : State} (g : Nat) (old : Cluster) (h : MemWf s) : MemWf (s.rebank g old) :=
  MemWf.reslice _ (MemWf.foldl (fun _ _ ht => MemWf.ite (ht.expel _ _) ht) _ (MemWf.foldl (fun _ _ ht => ht.unpin _ _) _ h))

theorem Kept.bankm {s : State} (d a : Reg) (h : MemWf s) : Kept (execBankm d a s) := by
  unfold execBankm
  exact Kept.ite (Kept.precise _ _ h) (Kept.ite (Kept.write _ _ h) (Kept.write _ _ ((h.putCluster _ _).rebank _ _)))

end Sys2Proof.Machine
end

