-- ==== Sys2Proof/Proofs/KeepsMemoryOps.lean ====
section
/-! SUPPORT. Proofs/KeepsMemoryOps.lean: loads, stores, atomics, updates, barriers, queues and launches keep memory in its canonical
form. -/

namespace Sys2Proof.Machine

/-! ### Loads and stores (R89..R91) -/

theorem Kept.load {s : State} (d a : Reg) (o : BitVec 15) (w : Nat) (signed : Bool) (h : MemWf s) : Kept (s.load d a o w signed) := by
  refine Kept.withImplicit h (Kept.addressed h fun u pa hu => ?_)
  split
  · exact Kept.next hu
  · exact Kept.ite (Kept.readAs hu (fun _ _ hx => Kept.next (hx.upd _)) fun _ _ _ hx => Kept.precise _ _ hx)
      (Kept.next ((hu.look _ _).upd _))

theorem Kept.storeAt {s : State} {va : W64} {pa : Nat} {bs : List Byte} {k : State → Out} (h : MemWf s)
    (hk : ∀ t, MemWf t → Kept (k t)) : Kept (s.storeAt va pa bs k) := by
  refine Kept.ite (Kept.store h hk) (Kept.ask h fun t r ht => ?_)
  split
  · exact Kept.precise _ _ ht
  all_goals exact Kept.store ht hk

theorem Kept.storeReg {s : State} (d a : Reg) (o : BitVec 15) (w : Nat) (h : MemWf s) : Kept (s.storeReg d a o w) :=
  Kept.withImplicit h (Kept.addressed h fun _ _ hu => Kept.storeAt hu fun _ => Kept.pass)

theorem Kept.phase {s : State} (d : Reg) (sc : Scope) (h : MemWf s) : Kept (execPhase d sc s) := by
  refine Kept.ite (Kept.preciseWord _ _ h) (Kept.withImplicit h ?_)
  split
  · exact Kept.next (boundary_wait_memWf h ‹_›)
  · exact Kept.write _ _ ((boundary_done_memWf h ‹_›).upd _)

theorem Kept.fence {s : State} (sc : Scope) (h : MemWf s) : Kept (execFence sc s) :=
  Kept.ite (Kept.preciseWord _ _ h) (Kept.withImplicit h (Kept.fenced h fun _ => Kept.pass))

/-! ### Atomics (R95..R98) -/

theorem MemWf.recordScope {s : State} (a : Nat) (sc : Scope) (h : MemWf s) : MemWf (s.recordScope a sc) := h

theorem MemWf.pokeMem {s : State} (a : Nat) (bs : List Byte) (h : MemWf s) : MemWf (s.pokeMem a bs) :=
  (h.shoot _).withMem (wf_cellPutBytes _ _ h.1)

theorem MemWf.amoHere {s : State} (a op w b cmp : Nat) (sc : Scope) (h : MemWf s) : MemWf (s.amoHere a op w b cmp sc).2 := by
  have h1 := (h.noteLost (lineOf a)).holdCopy (clusterOf s.core.id) (lineOf a)
  unfold State.amoHere
  dsimp only
  refine MemWf.upd _ (MemWf.recordScope _ _ (MemWf.putLine _ ?_))
  split
  · refine MemWf.pokeMem _ _ ?_
    split
    · exact h1.putCluster _ _
    · exact h1
  · split
    · exact h1.putCluster _ _
    · exact h1

theorem Kept.amoEnd {s : State} (d : Reg) (x : W64) (o : Order) (h : MemWf s) : Kept (s.amoEnd d x o) := Kept.ite (Kept.next h) (Kept.write _ _ h)

theorem MemWf.dropOwn {s : State} (l : Nat) (h : MemWf s) : MemWf (s.dropOwn l) := h.dropL1 (clusterOf s.core.id) l

theorem MemWf.dropLease {s : State} (l : Nat) (h : MemWf s) : MemWf (s.dropLease l) :=
  MemWf.foldl (f := fun t (c : Nat × Cluster) => t.dropL1 c.1 l) (fun _ _ ht => ht.dropL1 _ _)
    (s.clusters.filter fun c => c.1 / 128 == dieOf s.core.id) h

theorem MemWf.claimLine {s : State} (l : Nat) (h : MemWf s) : MemWf (s.claimLine l) := MemWf.upd _ (h.needOwn _ _)

theorem Kept.amoEffect {s : State} (d : Reg) (va : W64) (a op w b cmp : Nat) (o : Order) (sc : Scope) (h : MemWf s) :
    Kept (s.amoEffect d va a op w b cmp o sc) := by
  unfold State.amoEffect
  dsimp only
  split
  · split
    · exact Kept.ite (Kept.amoEnd _ _ _ (h.amoHere _ _ _ _ _ _)) (Kept.next (h.claimLine _))
    · exact Kept.next (h.claimLine _)
  · refine Kept.ask (h.dropOwn _) fun u r hu => ?_
    split
    · exact Kept.amoEnd _ _ _ (hu.upd _)
    · exact Kept.precise _ _ hu
    all_goals exact Kept.next hu

theorem Kept.atomic {s : State} (d a b : Reg) (op : Nat) (z : Bool) (o : Order) (sc : Scope) (h : MemWf s) :
    Kept (s.atomic d a b op z o sc) :=
  Kept.ite (Kept.atBoundary h fun _ => Kept.pass) (Kept.ite
    (Kept.staged h fun _ => Kept.fenced h fun _ hx => Kept.amoEffect _ _ _ _ _ _ _ _ _ hx)
    (Kept.withImplicit h (Kept.addressed h fun _ _ hx => Kept.amoEffect _ _ _ _ _ _ _ _ _ hx)))

/-! ### Updates (R99..R101) -/

theorem MemWf.pumpUpds {s : State} (g l n : Nat) (h : MemWf s) : MemWf (s.pumpUpds g l n) := by
  induction n generalizing s with
  | zero => exact h
  | succ n ih =>
    unfold State.pumpUpds
    dsimp only
    split
    · exact h
    · split
      · exact h
      · refine MemWf.ite h ?_
        split
        · exact MemWf.ite (ih (MemWf.shoot _ (h.putCluster _ _))) (h.request _ _ _ _)
        · exact h.evict _ _
        · exact h.evict _ _
        · exact MemWf.request _ _ _ _ ((h.holdCopy _ _).putCluster _ _)

theorem MemWf.updHere {s : State} (a : Nat) (tag : UpdTag) (b : W64) (sc : Scope) (h : MemWf s) : MemWf (s.updHere a tag b sc) :=
  MemWf.pumpUpds _ _ _ (MemWf.upd _ (MemWf.recordScope _ _ (h.putCluster _ _)))

theorem Kept.update {s : State} (a b : Reg) (tag : UpdTag) (sc : Scope) (h : MemWf s) : Kept (s.update a b tag sc) := by
  refine Kept.withImplicit h (Kept.addressed h fun u pa hu => Kept.ite (Kept.pass (hu.updHere _ _ _ _)) (Kept.ask (hu.dropLease _)
    fun x r hx => ?_))
  split
  · exact Kept.precise _ _ hx
  all_goals exact Kept.pass hx

/-! ### WAITA (R102) -/

theorem MemWf.committed {s t : State} {a n : Nat} {bs : List Byte} (h : MemWf s) (e : s.committed a n = some (bs, t)) : MemWf t := by
  unfold State.committed at e
  split at e
  · have : (s.homeRead a n).2 = t := by rw [Option.some.inj e]
    exact this ▸ h.homeRead a n
  · cases e

theorem MemWf.dropMonitor {s : State} (c : Nat) (h : MemWf s) : MemWf (s.dropMonitor c) := h

theorem MemWf.addMonitor {s : State} (a : Nat) (h : MemWf s) : MemWf (s.addMonitor a) := MemWf.noteLost _ (h.putCluster _ _)

theorem Kept.watched {s : State} {a w : Nat} {k : State → Nat → Bool → Out} (h : MemWf s) (hk : ∀ t v f, MemWf t → Kept (k t v f)) :
    Kept (s.watched a w k) := by
  unfold State.watched
  split
  · split
    · exact Kept.next h
    · exact hk _ _ _ (h.committed ‹_›)
  · dsimp only
    split
    · exact hk _ _ _ (h.refill _)
    · refine Kept.ask (h.refill _) fun u r hu => ?_
      split
      · exact hk _ _ _ (hu.lease _ _ _)
      · exact Kept.precise _ _ (hu.dropMonitor _)
      all_goals exact Kept.next hu

theorem Kept.waitaTest {s : State} {d : Reg} {a w : Nat} {val : W64} {v : Nat} {asleep : State → Out} (h : MemWf s)
    (hk : ∀ t, MemWf t → Kept (asleep t)) : Kept (s.waitaTest d a w val v asleep) :=
  Kept.ite (Kept.write _ _ (h.dropMonitor _).newPhase) (Kept.ite (Kept.write _ _ (h.dropMonitor _).newPhase) (hk _ (h.upd _)))

theorem Kept.waita {s : State} (d a b : Reg) (z : Bool) (sc : Scope) (h : MemWf s) : Kept (execWaita d a b z sc s) := by
  unfold execWaita
  refine Kept.staged h fun pa => ?_
  refine Kept.ite
    (Kept.atBoundary h fun x hx => Kept.next (MemWf.upd _ (MemWf.ite (hx.recordScope _ _) hx)))
    (Kept.ite (Kept.write _ _ h.newPhase) (Kept.ite
      (Kept.watched h fun x _ _ hx => Kept.waitaTest (hx.addMonitor _) fun _ => Kept.next) ?_))
  dsimp only
  split
  · exact Kept.waitaTest ((h.addMonitor _).committed ‹_›) fun _ => Kept.next
  · exact Kept.next ((h.addMonitor _).upd _)

theorem Kept.waitaWake {s : State} (c : Nat) (h : MemWf s) : Kept (execWaitaWake c s) := by
  unfold execWaitaWake
  dsimp only
  split
  · exact Kept.ite (Kept.next h) (Kept.watched (h.focus c) fun u _ _ hu =>
      Kept.waitaTest hu fun _ hx => Kept.ite (Kept.next hx) (Kept.next h))
  · exact Kept.next h

/-! ### Hints (R103) -/

theorem MemWf.hintLine {s : State} (form l : Nat) (h : MemWf s) : MemWf (s.hintLine form l) := by
  unfold State.hintLine
  dsimp only
  split
  · split
    · exact h
    · exact MemWf.needLine _ _ (h.upd _)
  all_goals exact h

theorem Kept.hint {s : State} (a b : Reg) (form : Nat) (h : MemWf s) : Kept (s.hint a b form) := by
  refine Kept.pass (h.foldl (fun t x ht => ?_) _)
  split
  · exact ht.upd _
  · refine MemWf.ite ht (ht.foldl (fun _ _ hu => hu.hintLine _ _) _)

/-! ### Queues (R108..R111, R379..R383) -/

theorem MemWf.insertRecord {s : State} (q : Nat) (bs : List Byte) (h : MemWf s) : MemWf (s.insertRecord q bs).2 := by
  unfold State.insertRecord
  split
  · exact h
  · split
    · exact h
    · split
      · exact h
      · exact MemWf.mapQueue _ _ (h.homeWrite _ _)

theorem MemWf.takeRecord {s : State} (q : Queue) (h : MemWf s) : MemWf (s.takeRecord q).2 := MemWf.mapQueue _ _ (h.homeRead _ _)

theorem MemWf.headRecord {s t : State} {q : Queue} {r : Nat × List W64} (h : MemWf s) (e : s.headRecord q = some (r, t)) : MemWf t := by
  unfold State.headRecord at e
  split at e
  · cases e; exact h.mapQueue _ _
  · split at e
    · cases e
    · cases e; exact h.takeRecord _

theorem Kept.enqHere {s : State} (d : Reg) (q : Nat) (bs : List Byte) (h : MemWf s) : Kept (s.enqHere d q bs) := by
  unfold State.enqHere
  split
  · exact Kept.write _ _ h
  · exact Kept.ite (Kept.write _ _ h) (Kept.ite (Kept.next h) (Kept.write _ _ (h.insertRecord _ _)))

theorem Kept.enqFar {s : State} (d : Reg) (x : W64) (bs : List Byte) (h : MemWf s) : Kept (s.enqFar d x bs) := by
  refine Kept.ite (Kept.precise _ _ h) ?_
  split
  · exact Kept.next h
  · refine Kept.ite (Kept.next h) ?_
    split
    · exact Kept.next h
    · exact Kept.write _ _ (h.upd _)
    · exact Kept.precise _ _ (h.upd _)
    all_goals exact Kept.next h

theorem Kept.enq {s : State} (d a b : Reg) (h : MemWf s) : Kept (execEnq d a b s) :=
  Kept.ite (Kept.precise _ _ h) (Kept.withImplicit h (Kept.addressed h fun _ _ hu =>
    Kept.readAs hu (fun _ _ hx => Kept.ite (Kept.enqHere _ _ _ hx) (Kept.enqFar _ _ _ hx)) fun _ _ _ hx => Kept.precise _ _ hx))

theorem Kept.waitq {s : State} (d a : Reg) (h : MemWf s) : Kept (execWaitq d a s) := by
  unfold execWaitq
  dsimp only
  split
  · exact Kept.precise _ _ h
  · exact Kept.withImplicit h (Kept.ite (Kept.atBoundary h fun _ hx => Kept.next (hx.upd _))
      (Kept.ite (Kept.write _ _ h.newPhase) (Kept.ite (Kept.write _ _ h.newPhase) (Kept.next h))))

theorem Kept.waitqWake {s : State} (c : Nat) (h : MemWf s) : Kept (execWaitqWake c s) := by
  have awake := fun d x => Kept.write d x (h.focus c).newPhase
  unfold execWaitqWake
  dsimp only
  split
  · split
    · exact Kept.ite (awake _ _) (Kept.ite (awake _ _) (Kept.next h))
    · exact Kept.ite (awake _ _) (Kept.next h)
  · exact Kept.next h

theorem Kept.dq {s : State} (d a b : Reg) (h : MemWf s) : Kept (execDq d a b s) := by
  unfold execDq
  dsimp only
  split
  · exact Kept.precise _ _ h
  · refine Kept.withImplicit h (Kept.addressed h fun u pa hu => Kept.ite (Kept.next hu) ?_)
    split
    · exact Kept.write _ _ hu
    · refine Kept.storeAt hu fun x hx => Kept.write _ _ (MemWf.mapQueue _ _ ?_)
      split
      · exact hx.headRecord ‹_›
      · exact hx

/-! ### Launches and the queue engine (R258, R259, R379..R386) -/

theorem MemWf.launchRecord {s : State} (q : Queue) (k : Nat) (r : List W64) (h : MemWf s) : MemWf (s.launchRecord q k r) := by
  unfold State.launchRecord
  exact MemWf.ite (h.complete _ _ _ _ _) h

theorem MemWf.movePointer {s : State} (die c q : Nat) (h : MemWf s) : MemWf (s.movePointer die c q) := by
  unfold State.movePointer
  dsimp only
  split
  · exact h
  · refine MemWf.ite h ?_
    split <;> exact h

theorem Kept.recordTake {s : State} (q : Nat) (h : MemWf s) : Kept (execRecordTake q s) := by
  unfold execRecordTake
  split
  · exact Kept.next h
  · rename_i x fresh _
    have taken : ∀ p f, MemWf (State.movePointer { (s.takeRecord x).2.mapQueue q f with rrptr := p } (queueDie q) x.pclass q) := fun p f =>
      MemWf.movePointer _ _ _ ((h.takeRecord x).of_eq rfl rfl rfl)
    exact Kept.ite (Kept.next h) (Kept.ite (Kept.next (MemWf.mapQueue _ _ (taken _ _))) (Kept.next (MemWf.launchRecord _ _ _ (taken _ _))))

theorem Kept.launchComplete {s : State} (q : Nat) (h : MemWf s) : Kept (execLaunchComplete q s) := by
  unfold execLaunchComplete
  split
  · exact Kept.next h
  · rename_i x _
    dsimp only
    split
    · exact Kept.next h
    · rename_i c _
      generalize compBytes x c x.done = bs
      have written := h.homeWrite (x.cring + 64 * (x.done % x.size)) bs
      exact Kept.ite (Kept.next h) (Kept.next written)

theorem Kept.queueSwitchIn {s : State} (q : Nat) (h : MemWf s) : Kept (execQueueSwitchIn q s) := by
  unfold execQueueSwitchIn
  split
  · exact Kept.next h
  · exact Kept.ite (Kept.next h) (Kept.ite (Kept.next h) (Kept.ite (Kept.next h) (Kept.next h)))

theorem Kept.queueSwitchOut {s : State} (q : Nat) (h : MemWf s) : Kept (execQueueSwitchOut q s) := by
  unfold execQueueSwitchOut
  split
  · exact Kept.next h
  · exact Kept.ite (Kept.next h) (Kept.ite (Kept.next h) (Kept.next h))

theorem MemWf.windowRecord {s : State} (q off : Nat) (data : List Byte) (src dev : Nat) (h : MemWf s) :
    MemWf (s.windowRecord q off data src dev) := by
  unfold State.windowRecord
  dsimp only
  split
  · exact MemWf.ite (h.journal _ _ _ _ _) h
  · exact MemWf.ite (h.journal _ _ _ _ _) (MemWf.ite (h.journal _ _ _ _ _) (MemWf.ite h (h.insertRecord _ _)))

theorem Kept.enqueueWindowWrite {s : State} (q off : Nat) (data : List Byte) (h : MemWf s) : Kept (execEnqueueWindowWrite q off data s) :=
  Kept.ite (Kept.next h) (Kept.next (h.windowRecord _ _ _ _ _))

theorem Kept.fabricRecord {s : State} (src q off : Nat) (data : List Byte) (enq : Bool) (h : MemWf s) :
    Kept (execFabricRecord src q off data enq s) := by
  have answer : ∀ (t : State) (f : List FabricMsg), MemWf t → MemWf (if enq then { t with fabric := f } else t) := fun t f ht => MemWf.ite ht ht
  unfold execFabricRecord
  refine Kept.ite (Kept.next h) ?_
  dsimp only
  split
  · exact Kept.ite (Kept.next (answer _ _ h)) (Kept.next (h.journal _ _ _ _ _))
  · exact Kept.ite (Kept.ite (Kept.next (answer _ _ h)) (Kept.next (h.journal _ _ _ _ _)))
      (Kept.ite (Kept.next (answer _ _ (h.insertRecord _ _))) (Kept.next (h.windowRecord _ _ _ _ _)))

theorem MemWf.bindStrand {s : State} (c : Nat) (ctx : Context) (h : MemWf s) : MemWf (s.bindStrand c ctx) :=
  MemWf.ite h (MemWf.of_eq (h.putCore _) rfl rfl rfl)

theorem MemWf.startGang {s : State} (l : Launch) (ctx : Context) (cores : List Nat) (h : MemWf s) : MemWf (s.startGang l ctx cores) := by
  have placed := fun (is : List Nat) => h.foldl (f := fun t c =>
    (t.bindStrand c ctx).putCore { (t.bindStrand c ctx).coreAt c with launch := some l.id, todo := todoOf cores c, seq := .idle })
    (fun _ _ ht => (ht.bindStrand _ _).putCore _) is
  unfold State.startGang
  exact MemWf.ite (placed _) (placed _)

theorem Kept.instanceStart {s : State} (c : Nat) (h : MemWf s) : Kept (execInstanceStart c s) := by
  unfold execInstanceStart
  dsimp only
  split
  · split
    · exact Kept.ite (Kept.next h) (Kept.next (MemWf.upd _ ((h.focus c).putDie _ _)))
    · exact Kept.next h
  · exact Kept.next h

end Sys2Proof.Machine
end

