-- ==== Sys2Proof/Proofs/KeepsCoherence.lean ====
section
/-! SUPPORT. Proofs/KeepsCoherence.lean: barriers, the protocol of the homes, and what step programs share keep memory in its canonical
form. -/

namespace Sys2Proof.Machine

/-! ### Barriers (R104..R106) -/

theorem MemWf.barAt {s t : State} {a : Nat} {b : Bar} (h : MemWf s) (e : s.barAt a = some (b, t)) : MemWf t := by
  unfold State.barAt at e
  obtain ⟨⟨bs, u⟩, hu, hb⟩ := Option.map_eq_some_iff.mp e
  cases hb
  exact h.committed hu

theorem MemWf.putBar {s : State} (a : Nat) (b : Bar) (h : MemWf s) : MemWf (s.putBar a b) := h.homeWrite _ _

theorem MemWf.creditAt {s : State} (a : Nat) (va : W64) (b : Bar) (count : Nat) (err : Bool) (core ctx : Nat) (task : W32) (word : W64)
    (engine : Nat) (h : MemWf s) : MemWf (s.creditAt a va b count err core ctx task word engine) :=
  MemWf.ite (h.chargeLate _ _ _) (h.putBar _ _)

theorem Kept.barrierCredit {s : State} (k : Nat) (h : MemWf s) : Kept (execBarrierCredit k s) := by
  unfold execBarrierCredit
  split
  · exact Kept.next h
  · refine Kept.ite (Kept.next h) ?_
    split
    · exact Kept.next h
    · rename_i e
      exact Kept.next (MemWf.creditAt _ _ _ _ _ _ _ _ _ _ (MemWf.barAt (s := { s with credits := s.credits.eraseIdx k }) h e))

theorem Kept.barAct {s : State} {va : W64} {a : Nat} {op : RemoteOp} {here : State → Bar → Out} {far : State → List Byte → Out}
    (h : MemWf s) (hh : ∀ t b, MemWf t → Kept (here t b)) (hf : ∀ t bs, MemWf t → Kept (far t bs)) :
    Kept (s.barAct va a op here far) := by
  unfold State.barAct
  split
  · split
    · exact Kept.next h
    · exact hh _ _ (h.barAt ‹_›)
  · refine Kept.ask h fun t r ht => ?_
    split
    · exact Kept.precise _ _ ht
    · exact Kept.ite (hf _ _ (ht.charge _ _)) (hf _ _ ht)
    all_goals exact hf _ _ ht

theorem Kept.barinit {s : State} (a b : Reg) (sc : Scope) (h : MemWf s) : Kept (execBarinit a b sc s) :=
  Kept.ite (Kept.precise _ _ h) (Kept.withImplicit h (Kept.addressed h fun _ _ hu =>
    Kept.barAct hu (fun _ _ hx => Kept.pass ((hx.putBar _ _).recordScope _ _)) fun _ _ => Kept.pass))

theorem Kept.barexp {s : State} (a b : Reg) (sc : Scope) (h : MemWf s) : Kept (execBarexp a b sc s) :=
  Kept.withImplicit h (Kept.addressed h fun _ _ hu => Kept.barAct hu
    (fun _ _ hy => Kept.ite (Kept.precise _ _ (hy.noteLost _))
      (Kept.pass (MemWf.recordScope _ _ ((hy.noteLost _).creditAt _ _ _ _ _ _ _ _ _ _)))) fun _ _ => Kept.pass)

theorem Kept.bararr {s : State} (d a b : Reg) (sc : Scope) (h : MemWf s) : Kept (execBararr d a b sc s) :=
  Kept.ite (Kept.precise _ _ h) (Kept.staged h fun _ => Kept.fenced h fun _ hy => Kept.barAct hy
    (fun _ _ hz => Kept.write _ _ (MemWf.recordScope _ _ (((hz.noteLost _).upd _).creditAt _ _ _ _ _ _ _ _ _ _)))
    fun _ _ => Kept.write _ _)

theorem Kept.barwaitTest {s : State} {d : Reg} {a : Nat} {turn : Bool} {o : Bar} {asleep : State → Out} (h : MemWf s)
    (hk : ∀ t, MemWf t → Kept (asleep t)) : Kept (s.barwaitTest d a turn o asleep) :=
  Kept.ite (Kept.write _ _ (h.newPhase.upd _)) (Kept.ite (Kept.write _ _ h.newPhase) (hk _ (h.upd _)))

theorem Kept.barwait {s : State} (d a b : Reg) (sc : Scope) (h : MemWf s) : Kept (execBarwait d a b sc s) := by
  unfold execBarwait
  refine Kept.staged h fun pa => ?_
  exact Kept.ite (Kept.atBoundary h fun _ hx => Kept.next (MemWf.upd _ (MemWf.ite (hx.recordScope _ _) hx)))
    (Kept.barAct h (fun _ _ hx => Kept.barwaitTest (hx.noteLost _) fun _ => Kept.next) fun _ _ hx => Kept.barwaitTest hx fun _ => Kept.next)

theorem Kept.barwaitWake {s : State} (c : Nat) (h : MemWf s) : Kept (execBarwaitWake c s) := by
  have ht := h.focus c
  unfold execBarwaitWake
  dsimp only
  split
  · split
    · split
      · exact Kept.next h
      · exact Kept.barwaitTest (ht.barAt ‹_›) fun _ _ => Kept.next h
    · exact Kept.ite (Kept.write _ _ ht.newPhase)
        (Kept.barAct ht (fun _ _ _ => Kept.next h) fun _ _ hx => Kept.barwaitTest hx fun _ => Kept.next)
  · exact Kept.next h

theorem Kept.bartest {s : State} (d a b : Reg) (sc : Scope) (h : MemWf s) : Kept (execBartest d a b sc s) := by
  have test : ∀ (x : State) (p : Prop) [Decidable p] n, MemWf x → Kept (if p then .next (x.acquire.part n) else x.write d 0) :=
    fun _ _ _ _ hx => Kept.ite (Kept.next hx) (Kept.write _ _ hx)
  unfold execBartest
  exact Kept.ite (Kept.atBoundary h fun _ => Kept.write _ _) (Kept.withImplicit h (Kept.addressed h fun _ _ hu =>
    Kept.barAct hu (fun _ _ hx => test _ _ _ ((hx.noteLost _).recordScope _ _)) fun _ _ hx => test _ _ _ hx))

/-! ### Stores, markers and flips (R280..R284, R295) -/

theorem Kept.storeArrival {s : State} (c k : Nat) (h : MemWf s) : Kept (execStoreArrival c k s) := by
  unfold execStoreArrival
  dsimp only
  split
  · exact Kept.next h
  · exact Kept.ite (Kept.next h) (Kept.next ((h.focus c).upd _))

theorem MemWf.enterCmt {s : State} (c l : Nat) (h : MemWf s) : MemWf (s.enterCmt c l) := MemWf.ite (h.sendProbes _ _ _ _) (h.putDir _)

theorem Kept.commitMarker {s : State} (c dest : Nat) (h : MemWf s) : Kept (execCommitMarker c dest s) := by
  have ht := h.focus c
  unfold execCommitMarker
  dsimp only
  split
  · exact Kept.next h
  · refine Kept.ite (Kept.next h) ?_
    split
    · split
      · exact Kept.next ((ht.startEvict _).serveWaiting _)
      · exact Kept.next h
    · exact Kept.ite (Kept.next (ht.foldl (fun _ _ hu => hu.startMerge _) _))
        (Kept.next (MemWf.upd _ (ht.foldl (fun _ _ hu => hu.enterCmt _ _) _)))

theorem Kept.fenceMarker {s : State} (c dest : Nat) (h : MemWf s) : Kept (execFenceMarker c dest s) := by
  unfold execFenceMarker
  dsimp only
  split
  · exact Kept.next h
  · exact Kept.ite (Kept.next h) (Kept.next ((h.focus c).upd _))

theorem Kept.markerAck {s : State} (c dest : Nat) (h : MemWf s) : Kept (execMarkerAck c dest s) := by
  have acks := fun x => Kept.next ((h.focus c).upd x)
  unfold execMarkerAck
  dsimp only
  split
  · refine Kept.ite (acks _) ?_
    split
    · exact Kept.ite (acks _) (Kept.next h)
    · exact Kept.next h
  · split
    · exact Kept.ite (acks _) (Kept.next h)
    · exact Kept.next h

theorem MemWf.applyVersion {s : State} (v : List Host.Cell) (h : MemWf s) : MemWf (s.applyVersion v) :=
  ⟨wf_foldl _ (fun _ c hm => wf_cellPut c.1 c.2 hm) _ h.1, h.2⟩

theorem Kept.commitFlip {s : State} (c : Nat) (h : MemWf s) : Kept (execCommitFlip c s) := by
  have flipped := fun v => ((h.focus c).applyVersion v).foldl (fun _ l hu => hu.dropLease l) ((linesOf v).filter remoteLine)
  unfold execCommitFlip
  dsimp only
  split
  · exact Kept.next h
  · exact Kept.ite (Kept.next h) (Kept.next (flipped _))

theorem MemWf.noticeLine {s : State} (c l : Nat) (h : MemWf s) : MemWf (s.noticeLine c l) := by
  unfold State.noticeLine
  refine MemWf.serveWaiting _ (MemWf.putDir _ (h.foldl (fun t g ht => ?_) _))
  split
  · exact MemWf.ite (ht.dropCopy _ _) (MemWf.ite ((ht.holdCopy _ _).putCluster _ _) ht)
  · exact ht

theorem Kept.flipNotice {s : State} (c slice : Nat) (h : MemWf s) : Kept (execFlipNotice c slice s) := by
  unfold execFlipNotice
  split
  · exact Kept.next h
  · rename_i n _
    have noticed : MemWf (n.lines.foldl (fun t l => t.noticeLine c l) { s with notices := s.notices.erase n }) :=
      MemWf.foldl (fun _ _ ht => ht.noticeLine _ _) _ h
    exact Kept.ite (Kept.next noticed) (Kept.ite (Kept.next h) (Kept.next h))

/-! ### Messages of the protocol (R300..R311) -/

theorem MemWf.takeMsg {s t : State} {k : Nat} {m : Msg} (h : MemWf s) (e : s.takeMsg k = some (m, t)) : MemWf t := by
  unfold State.takeMsg at e
  split at e
  · cases e
  · split at e
    · cases e
    · cases e; exact h

theorem MemWf.send {s : State} (m : Msg) (h : MemWf s) : MemWf (s.send m) := h

theorem Kept.homeReadRequest {s : State} (k : Nat) (h : MemWf s) : Kept (execHomeReadRequest k s) := by
  unfold execHomeReadRequest
  split
  · exact Kept.next ((h.takeMsg ‹_›).arrive _)
  · exact Kept.next h

theorem Kept.homeGrantRequest {s : State} (k : Nat) (h : MemWf s) : Kept (execHomeGrantRequest k s) := by
  unfold execHomeGrantRequest
  split
  · exact Kept.next ((h.takeMsg ‹_›).arrive _)
  · exact Kept.next h

theorem Kept.homeUpdRequest {s : State} (k : Nat) (h : MemWf s) : Kept (execHomeUpdRequest k s) := by
  unfold execHomeUpdRequest
  split
  · exact Kept.next ((h.takeMsg ‹_›).arrive _)
  · exact Kept.next h

theorem Kept.fullMerge {s : State} (line : Nat) (h : MemWf s) : Kept (execFullMerge line s) := by
  have merged := fun bs => (h.putDir (DirLine.unc line)).withMem (wf_cellPutBytes (line * 128) bs h.1)
  unfold execFullMerge
  exact Kept.ite (Kept.next h) (Kept.next (MemWf.serveWaiting _ ((merged _).shoot _)))

theorem Kept.writeBack {s : State} (k : Nat) (h : MemWf s) : Kept (execWriteBack k s) := by
  unfold execWriteBack
  split
  · have ht := h.takeMsg ‹_›
    exact Kept.next (MemWf.serveWaiting _ (MemWf.send _ (MemWf.ite (ht.putDir _) ht)))
  · exact Kept.next h

theorem Kept.parkedPartial {s : State} (k : Nat) (h : MemWf s) : Kept (execParkedPartial k s) := by
  unfold execParkedPartial
  split
  · have ht := h.takeMsg ‹_›
    exact Kept.next (MemWf.send _ (MemWf.ite (ht.putDir _) (ht.withMem (wf_cellPutBytes _ _ ht.1))))
  · exact Kept.next h

theorem MemWf.giveUp {s : State} (g l : Nat) (xs : Xs) (h : MemWf s) : MemWf (s.giveUp g l xs) := by
  unfold State.giveUp
  dsimp only
  split
  · exact h.holdCopy _ _
  · exact MemWf.ite ((h.holdCopy _ _).putCluster _ _) ((h.holdCopy _ _).putCluster _ _)

theorem MemWf.probed {s : State} (g l : Nat) (k : Probe) (req : Option Nat) (h : MemWf s) : MemWf (s.probed g l k req) := by
  unfold State.probed
  split
  · exact h
  · refine MemWf.ite h (MemWf.ite h (MemWf.ite h ?_))
    split
    · exact MemWf.ite h h
    · exact MemWf.send _ (h.giveUp _ _ _)
    · exact MemWf.send _ (h.giveUp _ _ _)

theorem Kept.probeRead {s : State} (k : Nat) (h : MemWf s) : Kept (execProbeRead k s) := by
  unfold execProbeRead
  split
  · exact Kept.ite (Kept.next h) (Kept.next ((h.takeMsg ‹_›).probed _ _ _ _))
  · exact Kept.next h

theorem Kept.probeInvalidate {s : State} (k : Nat) (h : MemWf s) : Kept (execProbeInvalidate k s) := by
  unfold execProbeInvalidate
  split
  · exact Kept.ite (Kept.next h) (Kept.next ((h.takeMsg ‹_›).probed _ _ _ _))
  · exact Kept.next h

theorem Kept.probeMerge {s : State} (k : Nat) (h : MemWf s) : Kept (execProbeMerge k s) := by
  unfold execProbeMerge
  split
  · exact Kept.next ((h.takeMsg ‹_›).probed _ _ _ _)
  · exact Kept.next h

theorem MemWf.absent {s : State} (g l : Nat) (h : MemWf s) : MemWf (s.absent g l) := MemWf.ite h (h.putRegion _)

theorem MemWf.answered {s : State} (l : Nat) (kept : Bool) (h : MemWf s) : MemWf (s.answered l kept) := by
  unfold State.answered
  dsimp only
  split
  · exact h
  · exact h
  all_goals
    split
    · exact MemWf.serveWaiting _ h
    · exact MemWf.serveWaiting _ h

theorem Kept.probeAnswer {s : State} (k : Nat) (h : MemWf s) : Kept (execProbeAnswer k s) := by
  unfold execProbeAnswer
  split
  · have ht := h.takeMsg ‹_›
    have hu := fun (p : Prop) [Decidable p] d g l => MemWf.ite (p := p) (ht.putDir d) ((ht.putDir d).absent g l)
    exact Kept.next (MemWf.ite ((hu _ _ _ _).answered _ _) (hu _ _ _ _))
  · exact Kept.next h

theorem MemWf.serveLoads {s : State} (g l : Nat) (h : MemWf s) : MemWf (s.serveLoads g l) := by
  refine h.foldl (fun t k ht => ?_) _
  dsimp only
  split
  · split
    · exact ht.takeSnap _ _ _
    · exact (ht.putCore _).needLine _ _
  · exact ht

theorem MemWf.settledEntry {s : State} (g l : Nat) (held : List (Probe × Option Nat)) (h : MemWf s) : MemWf (s.settledEntry g l held) := by
  have h1 : ∀ ms, MemWf { s with msgs := ms } := fun _ => h
  unfold State.settledEntry
  exact MemWf.ite ((MemWf.pumpUpds _ _ _ (h1 _)).serveLoads _ _) (MemWf.pumpUpds _ _ _ (MemWf.serveLoads _ _ (h1 _)))

theorem Kept.dataReply {s : State} (k : Nat) (h : MemWf s) : Kept (execDataReply k s) := by
  unfold execDataReply
  split
  · exact Kept.next (MemWf.settledEntry _ _ _ (((h.takeMsg ‹_›).makeWay _ _).putCluster _ _))
  · have ht := h.takeMsg ‹_›
    dsimp only
    split
    · exact Kept.next ht
    · exact Kept.ite (Kept.next ht) (Kept.ite (Kept.next (MemWf.settledEntry _ _ _ (ht.putCluster _ _)))
        (Kept.next (MemWf.settledEntry _ _ _ (ht.putCluster _ _))))
  · exact Kept.next h

theorem Kept.shootdown {s : State} (k : Nat) (h : MemWf s) : Kept (execShootdown k s) := by
  unfold execShootdown
  split
  · exact Kept.next ((h.takeMsg ‹_›).forget _ _)
  · exact Kept.next h

theorem Kept.leaseExpiry {s : State} (k : Nat) (h : MemWf s) : Kept (execLeaseExpiry k s) := by
  unfold execLeaseExpiry
  split
  · exact Kept.next h
  · refine Kept.ite (Kept.next h) ?_
    split
    · exact Kept.next (h.dropL1 _ _)
    · exact Kept.next h

/-! ### Step programs (R187..R195) -/

theorem MemWf.putArray {s : State} (a : MatArray) (h : MemWf s) : MemWf (s.putArray a) := h

theorem MemWf.putBank {s : State} (f : Nat) (b : Bank) (h : MemWf s) : MemWf (s.putBank f b) := h

theorem Kept.faultAt {s : State} (p : ProgRun) (cause : Cause) (faddr : W64) (off : Nat) (h : MemWf s) :
    Kept (s.faultAt p cause faddr off) := Kept.progFail _ _ h

theorem Kept.raised {s : State} {p : ProgRun} {k : Out} (h : MemWf s) (hk : Kept k) : Kept (s.raised p k) := by
  unfold State.raised
  split
  · exact Kept.progFail _ _ h
  · exact hk

theorem Kept.bounded {s : State} {p : ProgRun} {k : Out} (h : MemWf s) (hk : Kept k) : Kept (s.bounded p k) :=
  Kept.raised h (Kept.ite (Kept.progFault _ _ _ h) hk)

theorem Kept.goOn {s : State} (p : ProgRun) (h : MemWf s) : Kept (goOn s p) := Kept.next (h.putProg _)

theorem Kept.stepDone {s : State} (p : ProgRun) (tok : Tok) (h : MemWf s) : Kept (s.stepDone p tok) :=
  Kept.tokSend h fun _ q ht => Kept.goOn q ht

theorem Kept.preg {s : State} {p : ProgRun} {r : LReg} {k : W64 → Out} (h : MemWf s) (hk : ∀ x, Kept (k x)) : Kept (s.preg p r k) :=
  Kept.ite (hk _) (Kept.progFault _ _ _ h)

theorem Kept.loopOn {s : State} (b count : Nat) (p : ProgRun) (h : MemWf s) : Kept (loopOn b count s p) :=
  Kept.ite (Kept.next (h.putProg _)) (Kept.next (h.putProg _))

theorem Kept.loopWord {s : State} (tok : Tok) (b : Nat) (count : Nat ⊕ LReg) (h : MemWf s) : Kept (s.loopWord tok b count) := by
  unfold State.loopWord
  refine Kept.stepWord h (fun t p ht => Kept.ite (Kept.progFault _ _ _ ht) ?_) fun t p ht => Kept.loopOn _ _ _ ht
  split
  · exact Kept.tokSend ht fun u q hu => Kept.loopOn _ _ _ hu
  · exact Kept.preg ht fun _ => Kept.tokSend ht fun u q hu => Kept.loopOn _ _ _ hu

theorem Kept.reach {s : State} {p : ProgRun} {f off : Nat} {k : ProgRun → Out} (h : MemWf s) (hk : ∀ q, Kept (k q)) :
    Kept (s.reach p f off k) := Kept.ite (Kept.progFail _ _ h) (hk _)

theorem Kept.pushSlot {s : State} {p : ProgRun} {f off : Nat} {bs : List Byte} {k : State → ProgRun → Out} (h : MemWf s)
    (hk : ∀ t q, MemWf t → Kept (k t q)) : Kept (s.pushSlot p f off bs k) :=
  Kept.reach h fun _ => Kept.ite (hk _ _ (h.putBank _ _)) (Kept.ite (Kept.next (MemWf.putProg _ (h.putBank _ _))) (Kept.hold _ h))

theorem Kept.popSlot {s : State} {p : ProgRun} {f off : Nat} {k : State → ProgRun → List Byte → Out} (h : MemWf s)
    (hk : ∀ t q bs, MemWf t → Kept (k t q bs)) : Kept (s.popSlot p f off k) := by
  refine Kept.reach h fun q => ?_
  dsimp only
  split
  · exact Kept.hold _ h
  · exact Kept.ite (hk _ _ _ (h.putBank _ _)) (Kept.ite (Kept.next (MemWf.putProg _ (h.putBank _ _))) (Kept.hold _ h))

theorem Kept.popUnit {s : State} {p : ProgRun} {f n off : Nat} {k : State → ProgRun → List Byte → Out} (h : MemWf s)
    (hk : ∀ q bs, Kept (k s q bs)) : Kept (s.popUnit p f n off k) :=
  Kept.ite (hk _ _) (Kept.popSlot h fun _ _ _ ht => Kept.next (ht.putProg _))

theorem Kept.pushBuf {s : State} (p : ProgRun) (f off : Nat) (pt : Bool) (h : MemWf s) : Kept (s.pushBuf p f off pt) :=
  Kept.pushSlot h fun _ _ ht => Kept.next (ht.putProg _)

/-! ### Engine reads and writes (R87, R194) -/

theorem MemWf.spanRead {s : State} (a n : Nat) (h : MemWf s) : MemWf (s.spanRead a n).2 :=
  MemWf.homeRead _ _ (h.foldl (fun _ _ ht => ht.noteLost _) _)

theorem MemWf.spansRead {s : State} (spans : List (Nat × Nat)) (h : MemWf s) : MemWf (s.spansRead spans).2 := by
  unfold State.spansRead
  generalize ([] : List Byte) = bs
  induction spans generalizing s bs with
  | nil => exact h
  | cons x t ih => exact ih (h.spanRead x.1 x.2) _

theorem MemWf.spansWrite {s : State} (spans : List (Nat × Nat)) (bs : List Byte) (h : MemWf s) : MemWf (s.spansWrite spans bs) := by
  unfold State.spansWrite
  induction spans generalizing s bs with
  | nil => exact h
  | cons x t ih => exact ih _ (h.homeWrite x.1 (bs.take x.2))

theorem Kept.engRead {s : State} {p : ProgRun} {va : W64} {n : Nat} {bad : State → Cause → W64 → Out} {k : State → List Byte → Out}
    (h : MemWf s) (hb : ∀ t c v, MemWf t → Kept (bad t c v)) (hk : ∀ t bs, MemWf t → Kept (k t bs)) : Kept (s.engRead p va n bad k) := by
  unfold State.engRead
  split
  · exact hb _ _ _ h
  · refine Kept.ite (Kept.ask (h.putProg _) fun t r ht => ?_)
      (Kept.ite (hk _ _ ((h.pinSpan _ _ _ _).spansRead _)) (Kept.next (h.putProg _)))
    split
    · exact hk _ _ ht
    · exact hb _ _ _ ht
    all_goals exact hk _ _ ht

theorem Kept.engWrite {s : State} {p : ProgRun} {va : W64} {bs : List Byte} {bad : State → Cause → W64 → Out} {k : State → Out}
    (h : MemWf s) (hb : ∀ t c v, MemWf t → Kept (bad t c v)) (hk : ∀ t, MemWf t → Kept (k t)) : Kept (s.engWrite p va bs bad k) := by
  unfold State.engWrite
  split
  · exact hb _ _ _ h
  · refine Kept.ite (Kept.ask (h.putProg _) fun t r ht => ?_)
      (Kept.ite (hk _ ((h.pinSpan _ _ _ _).spansWrite _ _)) (Kept.next (h.putProg _)))
    split
    · exact hb _ _ _ ht
    all_goals exact hk _ ht

theorem Kept.waitb {s : State} (tok : Tok) (l : LReg) (turn : Bool) (h : MemWf s) : Kept (s.waitb tok l turn) := by
  have see : ∀ (u : State) (p : ProgRun) (c d : Prop) [Decidable c] [Decidable d] va, MemWf u →
      Kept (if c then u.hold p else if d then u.progFault p .barerr va else u.stepDone p tok) := fun _ _ _ _ _ _ _ hu =>
    Kept.ite (Kept.hold _ hu) (Kept.ite (Kept.progFault _ _ _ hu) (Kept.stepDone _ _ hu))
  unfold State.waitb
  refine Kept.stepWord h (fun t p ht => Kept.preg ht fun va => ?_) fun _ q hu => Kept.goOn q hu
  dsimp only
  split
  · exact Kept.progFault _ _ _ ht
  · split
    · split
      · exact Kept.next (ht.putProg _)
      · exact see _ _ _ _ _ ((ht.pin _ _ _).barAt ‹_›)
    · refine Kept.ask (ht.putProg _) fun u r hu => ?_
      split
      · exact see _ _ _ _ _ hu
      · exact Kept.progFault _ _ _ hu
      all_goals exact Kept.hold _ hu

end Sys2Proof.Machine
end

