-- ==== Sys2Proof/Proofs/KeepsEngines.lean ====
section
/-! SUPPORT. Proofs/KeepsEngines.lean: the words of the vector engine and of the matrix arrays, and the tile scheduler, keep memory in its
canonical form. -/

namespace Sys2Proof.Machine

/-! ### The course of a vector block (R161, R165) -/

theorem Kept.needShape {s : State} {ok : Bool} {k : Out} (h : MemWf s) (hk : Kept k) : Kept (s.needShape ok k) :=
  Kept.ite hk (Kept.vfault _ _ h)

theorem Kept.vreg {s : State} {v : VecRun} {r : LReg} {k : W64 → Out} (h : MemWf s) (hk : ∀ x, Kept (k x)) : Kept (s.vreg v r k) :=
  Kept.ite (hk _) (Kept.vfault _ _ h)

theorem Kept.vectorBlockStart {s : State} (c : Nat) (h : MemWf s) : Kept (execVectorBlockStart c s) := by
  unfold execVectorBlockStart
  dsimp only
  split
  · exact Kept.next h
  · refine Kept.ite (Kept.next h) (Kept.fetchCmd (h.focus c) (Kept.next h) fun t ht => ?_)
    split
    · exact Kept.next ((ht.upd _).charge _ _)
    · exact Kept.next (ht.upd _)

theorem Kept.vend {s : State} (h : MemWf s) : Kept (execVend s) := Kept.vword h fun _ => Kept.next (h.upd _)

theorem Kept.vshape {s : State} (l : Fin 1024) (e : EW) (h : MemWf s) : Kept (execVshape l e s) := Kept.vword h fun _ => Kept.next (h.upd _)

/-! ### Words of elements and masks (R167..R179, R183, R186) -/

theorem Kept.vmap {s : State} (d : VReg) (k : MaskSel) (f : Nat → Nat) (h : MemWf s) : Kept (s.vmap d k f) :=
  Kept.vword h fun _ => Kept.next (h.upd _)

theorem Kept.vint {s : State} (d a b : VReg) (k : MaskSel) (n sat : Bool) (f : Int → Int → Int) (h : MemWf s) :
    Kept (s.vint d a b k n sat f) := Kept.vmap _ _ _ h

theorem Kept.vfp {s : State} (d : VReg) (k : MaskSel) (r : Rnd) (f : Nat → RMode → Nat → Nat × Flags) (h : MemWf s) :
    Kept (s.vfp d k r f) := Kept.vword h fun _ => Kept.needShape h (Kept.next (h.upd _))

theorem Kept.vcmp {s : State} (d : MaskSel) (a b : VReg) (f n : Bool) (p : Pred) (h : MemWf s) : Kept (execVcmp d a b f n p s) :=
  Kept.vword h fun _ => Kept.ite (Kept.needShape h (Kept.next (h.upd _))) (Kept.next (h.upd _))

theorem Kept.vmask {s : State} (d : MaskSel) (p : Nat → Bool) (h : MemWf s) : Kept (s.vmask d p) :=
  Kept.vword h fun _ => Kept.next (h.upd _)

theorem Kept.vlatch {s : State} (n : Fin 4) (x : W64) (h : MemWf s) : Kept (s.vlatch n x) := Kept.vword h fun _ => Kept.next (h.upd _)

theorem Kept.vcvt {s : State} (d a : VReg) (src dst : Ty) (k : MaskSel) (h : MemWf s) : Kept (execVcvt d a src k dst s) :=
  Kept.vword h fun _ => Kept.needShape h (Kept.next (h.upd _))

theorem Kept.vqenc {s : State} (d a : VReg) (h : MemWf s) : Kept (execVqenc d a s) :=
  Kept.vword h fun _ => Kept.needShape h (Kept.next (h.upd _))

theorem Kept.vqdec {s : State} (d a : VReg) (h : MemWf s) : Kept (execVqdec d a s) :=
  Kept.vword h fun _ => Kept.needShape h (Kept.next (h.upd _))

theorem Kept.vtrit {s : State} {bytes : List Nat} {k : Flags → Out} (h : MemWf s) (hk : ∀ f, Kept (k f)) : Kept (s.vtrit bytes k) :=
  Kept.ite (Kept.vfault _ _ h) (hk _)

theorem Kept.vunpk3 {s : State} (d a : VReg) (k : MaskSel) (h : MemWf s) : Kept (execVunpk3 d a k s) :=
  Kept.vword h fun _ => Kept.needShape h (Kept.vtrit h fun _ => Kept.next (h.upd _))

theorem Kept.vtacc {s : State} (d a b : VReg) (k : MaskSel) (c : Fin 32) (h : MemWf s) : Kept (execVtacc d a b k c s) :=
  Kept.vword h fun _ => Kept.needShape h (Kept.vtrit h fun _ => Kept.next (h.upd _))

theorem Kept.vrfsum {s : State} (n : Fin 4) (a : VReg) (k : MaskSel) (h : MemWf s) : Kept (execVrfsum n a k s) :=
  Kept.vword h fun _ => Kept.needShape h (Kept.next (h.upd _))

theorem Kept.vextreme {s : State} (greater : Bool) (n : Fin 4) (a : VReg) (k : MaskSel) (x u f : Bool) (h : MemWf s) :
    Kept (s.vextreme greater n a k x u f) := Kept.vword h fun _ => Kept.needShape h (Kept.next (h.upd _))

theorem Kept.vpushc {s : State} (a : VReg) (k : MaskSel) (p : Fin 8) (h : MemWf s) : Kept (execVpushc a k p s) :=
  Kept.vword h fun _ => Kept.ite (Kept.vfault _ _ h) (Kept.next (h.upd _))

theorem Kept.vpopf {s : State} (d a : VReg) (p : Fin 8) (h : MemWf s) : Kept (execVpopf d a p s) :=
  Kept.vword h fun _ => Kept.next (h.upd _)

theorem Kept.vstat {s : State} (n : Fin 4) (r : Bool) (p : Fin 8) (h : MemWf s) : Kept (execVstat n r p s) :=
  Kept.vword h fun _ => Kept.next (h.upd _)

theorem Kept.vrand {s : State} (d : VReg) (k : MaskSel) (n : Fin 4) (h : MemWf s) : Kept (execVrand d k n s) :=
  Kept.vword h fun _ => Kept.next (h.upd _)

theorem Kept.vrseed {s : State} (d a : VReg) (n : Fin 4) (h : MemWf s) : Kept (execVrseed d a n s) :=
  Kept.vword h fun _ => Kept.next (h.upd _)

theorem Kept.vrskip {s : State} (a : VReg) (n : Fin 4) (h : MemWf s) : Kept (execVrskip a n s) :=
  Kept.vword h fun _ => Kept.next (h.upd _)

/-! ### Vector memory (R180, R181, R185) -/

theorem Kept.withImplicitVec {s : State} {k : State → Out} (h : MemWf s) (hk : Kept (k s)) : Kept (s.withImplicitVec k) := by
  unfold State.withImplicitVec
  split
  · split
    · exact Kept.next (boundary_wait_memWf h ‹_›)
    · exact Kept.next ((boundary_done_memWf h ‹_›).upd _)
  · exact hk

theorem Kept.readMany {s : State} {who : Agent} {n : Nat} {cells : List (W64 × Nat)} {k : State → List Nat → Out}
    {refuse : State → Cause → W64 → Out} (h : MemWf s) (hk : ∀ t xs, MemWf t → Kept (k t xs))
    (hr : ∀ t c v, MemWf t → Kept (refuse t c v)) : Kept (s.readMany who n cells k refuse) := by
  have looked := h.foldl (f := fun t (c : W64 × Nat) => t.look c.2 n) (fun _ _ ht => ht.look _ _) cells
  unfold State.readMany
  dsimp only
  split
  · exact Kept.readAs looked (fun _ _ => Kept.next) fun _ _ _ ht => hr _ _ _ ht
  · split
    · exact hk _ _ looked
    · exact Kept.next looked

theorem Kept.vremote {s : State} {v : VecRun} {cells : List (W64 × Nat)} {k : Out} (h : MemWf s) (hk : Kept k) :
    Kept (s.vremote v cells k) := by
  unfold State.vremote
  split
  · exact hk
  · refine Kept.ask h fun t r ht => ?_
    split
    · exact Kept.vfault _ _ ht
    all_goals exact Kept.next (ht.upd _)

theorem MemWf.pinAll {s : State} (cells : List (W64 × Nat)) (h : MemWf s) : MemWf (s.pinAll cells) :=
  h.foldl (fun _ _ ht => ht.pin _ _ _) _

theorem Kept.vload {s : State} (d : VReg) (els : List (Nat × W64)) (h : MemWf s) : Kept (s.vload d els) := by
  unfold State.vload
  refine Kept.withImplicitVec h ?_
  dsimp only
  split
  · exact Kept.readMany h (fun _ _ ht => Kept.vfault _ _ ht) fun _ _ _ ht => Kept.vfault _ _ ht
  · exact Kept.readMany (h.pinAll _) (fun _ _ ht => Kept.next (ht.upd _)) fun _ _ _ ht => Kept.vfault _ _ ht

theorem Kept.vstores {s : State} {bs : List (Nat × List Byte)} {k : State → Out} (h : MemWf s) (hk : ∀ t, MemWf t → Kept (k t)) :
    Kept (s.vstores bs k) := by
  unfold State.vstores
  refine Kept.ite (Kept.next h) (Kept.ite (hk _ h) (Kept.ite (Kept.next h) ?_))
  split
  · exact Kept.next h
  · exact hk _ (h.upd _)

theorem Kept.vstore {s : State} (v : VecRun) (d : VReg) (els : List (Nat × W64)) (h : MemWf s) : Kept (s.vstore v d els) := by
  unfold State.vstore
  refine Kept.withImplicitVec h (Kept.vremote h ?_)
  split
  · exact Kept.vfault _ _ h
  · exact Kept.vstores (h.pinAll _) fun _ ht => Kept.next (ht.upd _)

theorem Kept.vbase {s : State} {v : VecRun} {l : LReg} {o : BitVec 5} {k : W64 → Out} (h : MemWf s) (hk : ∀ x, Kept (k x)) :
    Kept (s.vbase v l o k) := Kept.vreg h fun _ => hk _

theorem Kept.vld {s : State} (d : VReg) (l : LReg) (k : MaskSel) (o : BitVec 5) (h : MemWf s) : Kept (execVld d l k o s) :=
  Kept.vword h fun _ => Kept.vbase h fun _ => Kept.vload _ _ h

theorem Kept.vst {s : State} (d : VReg) (l : LReg) (k : MaskSel) (o : BitVec 5) (h : MemWf s) : Kept (execVst d l k o s) :=
  Kept.vword h fun _ => Kept.vbase h fun _ => Kept.vstore _ _ _ h

theorem Kept.vlds {s : State} (d : VReg) (m l : LReg) (k : MaskSel) (o : BitVec 5) (h : MemWf s) : Kept (execVlds d m l k o s) :=
  Kept.vword h fun _ => Kept.vbase h fun _ => Kept.vreg h fun _ => Kept.vload _ _ h

theorem Kept.vsts {s : State} (d : VReg) (m l : LReg) (k : MaskSel) (o : BitVec 5) (h : MemWf s) : Kept (execVsts d m l k o s) :=
  Kept.vword h fun _ => Kept.vbase h fun _ => Kept.vreg h fun _ => Kept.vstore _ _ _ h

theorem Kept.vgath {s : State} (d a : VReg) (l : LReg) (k : MaskSel) (o : BitVec 5) (h : MemWf s) : Kept (execVgath d a l k o s) :=
  Kept.vword h fun _ => Kept.vbase h fun _ => Kept.vload _ _ h

theorem Kept.vscat {s : State} (d a : VReg) (l : LReg) (k : MaskSel) (o : BitVec 5) (h : MemWf s) : Kept (execVscat d a l k o s) :=
  Kept.vword h fun _ => Kept.vbase h fun _ => Kept.vstore _ _ _ h

theorem Kept.peekOn {s : State} (p : Peek) (h : MemWf s) : Kept (s.peekOn p) := by
  unfold State.peekOn
  split
  · exact Kept.next h
  · exact Kept.readAs (h.pin _ _ _) (fun _ _ => Kept.next) fun _ _ _ ht => Kept.vfault _ _ ht
  · exact Kept.vfault _ _ h

theorem Kept.vlkup {s : State} (d a b : VReg) (k : MaskSel) (t : LReg) (h : MemWf s) : Kept (execVlkup d a b k t s) := by
  unfold execVlkup
  refine Kept.vword h fun _ => Kept.needShape h (Kept.vreg h fun _ => Kept.ite (Kept.vfault _ _ h) (Kept.withImplicitVec h ?_))
  split
  · refine Kept.ite (Kept.vfault _ _ h) ?_
    dsimp only
    split
    · exact Kept.peekOn _ h
    · exact Kept.next (h.upd _)
  · exact Kept.peekOn _ h

/-! ### Planes and products (R200..R204) -/

theorem Kept.mwld {s : State} (tok : Tok) (f : Fin 32) (t : Ty) (sp : Bool) (h : MemWf s) : Kept (execMwld tok f t sp s) :=
  Kept.stepWord h (fun _ _ hu => Kept.ite (Kept.hold _ hu) (Kept.reach hu fun _ => Kept.stepDone _ _ (hu.putArray _)))
    fun _ q hu => Kept.goOn q hu

theorem MemWf.loadFault {s : State} (p : ProgRun) (cause : Cause) (f : Nat) (h : MemWf s) : MemWf (s.loadFault p cause f) := h

theorem Kept.mwldLoadDone {s : State} (g arr : Nat) (h : MemWf s) : Kept (execMwldLoadDone g arr s) := by
  unfold execMwldLoadDone
  split
  · exact Kept.next h
  · rename_i p _
    have ht : ∀ a, MemWf { s.focus p.core with unit := a } := fun _ => h.focus _
    dsimp only
    split
    · exact Kept.next h
    · refine Kept.ite (Kept.next h) (Kept.ite (Kept.next (MemWf.loadFault _ _ _ (ht _))) ?_)
      split
      · exact Kept.next h
      · exact Kept.ite (Kept.next ((ht _).putBank _ _)) (Kept.ite (Kept.next h)
          (Kept.ite (Kept.next (MemWf.loadFault _ _ _ ((ht _).putBank _ _))) (Kept.next (MemWf.putArray _ ((ht _).putBank _ _)))))

theorem Kept.mswap {s : State} (tok : Tok) (h : MemWf s) : Kept (execMswap tok s) :=
  Kept.stepWord h (fun _ _ hu => Kept.ite (Kept.hold _ hu) (Kept.ite (Kept.progFault _ _ _ hu) (Kept.stepDone _ _ (hu.putArray _))))
    fun _ q hu => Kept.goOn q hu

theorem Kept.mstrm {s : State} (tok : Tok) (f : Fin 32) (t : Ty) (h : MemWf s) : Kept (execMstrm tok f t s) :=
  Kept.stepWord h (fun _ _ hu => Kept.stepDone _ _ (hu.putArray _)) fun _ q hu => Kept.goOn q hu

theorem Kept.mmac {s : State} (tok : Tok) (t : Fin 4) (r m : Fin 64) (pl : Fin 16) (h : MemWf s) : Kept (execMmac tok t r m pl s) := by
  unfold execMmac
  refine Kept.stepWord h (fun u p hu => Kept.ite (Kept.stepDone _ _ hu) ?_) fun _ q hu => Kept.goOn q hu
  split
  · refine Kept.ite (Kept.hold _ hu) (Kept.ite (Kept.faultAt _ _ _ _ hu) ?_)
    dsimp only
    split
    · exact Kept.faultAt _ _ _ _ (hu.putArray _)
    · exact Kept.next (MemWf.putProg _ ((hu.putArray _).putArray _))
  · split
    · exact Kept.progFault _ _ _ hu
    · refine Kept.popUnit hu fun q bs => ?_
      exact Kept.ite (Kept.stepDone _ _ (hu.putArray _)) (Kept.next (MemWf.putProg _ (hu.putArray _)))
    · exact Kept.progFault _ _ _ hu

theorem Kept.mzero {s : State} (tok : Tok) (t : Fin 4) (r m : Fin 64) (k : Bool) (h : MemWf s) : Kept (execMzero tok t r m k s) :=
  Kept.stepWord h (fun _ _ hu => Kept.stepDone _ _ (hu.putArray _)) fun _ q hu => Kept.goOn q hu

/-! ### Draining (R205..R208) -/

theorem MemWf.accHere {s t : State} {spans : List (Nat × Nat)} {o : Ty} {c : Bool} {row : List W32} {n : Nat} (h : MemWf s)
    (e : s.accHere spans o c row = some (n, t)) : MemWf t := by
  unfold State.accHere at e
  split at e
  · cases e
  · have : MemWf ((s.spansRead spans).2.spansWrite spans (drainRow o c (some (s.spansRead spans).1) row).1) :=
      (h.spansRead _).spansWrite _ _
    rw [(Prod.mk.inj (Option.some.inj e)).2] at this
    exact this

theorem Kept.drainDesc {s : State} {p : ProgRun} {rcd : TileRec} {e : Fin 4} {k : State → ProgRun → Nat → Out} (h : MemWf s)
    (hk : ∀ d, Kept (k s p d)) : Kept (s.drainDesc p rcd e k) := by
  unfold State.drainDesc
  split
  · exact hk _
  · exact Kept.ite (Kept.progFault _ _ _ h) (Kept.engRead h (fun _ _ _ ht => Kept.progFault _ _ _ ht)
      fun _ _ ht => Kept.ite (Kept.progFault _ _ _ ht) (Kept.next (ht.putProg _)))

theorem Kept.drainOne {s : State} {p : ProgRun} {tgt : DrainTo} {o : Ty} {c : Bool} {d row : Nat} {w : List W32} {k : State → Nat → Out}
    (h : MemWf s) (hk : ∀ t b, MemWf t → Kept (k t b)) : Kept (s.drainOne p tgt o c d row w k) := by
  unfold State.drainOne
  dsimp only
  split
  · exact Kept.reach h fun _ => Kept.next (MemWf.putProg _ (h.putArray _))
  · split
    · exact Kept.faultAt _ _ _ _ h
    · exact Kept.engWrite h (fun _ _ _ ht => Kept.faultAt _ _ _ _ ht) fun _ ht => hk _ _ ht
  · split
    · exact Kept.faultAt _ _ _ _ h
    · exact Kept.faultAt _ _ _ _ h
    · split
      · refine Kept.ask (h.putProg _) fun t r ht => ?_
        split
        · exact hk _ _ ht
        · exact Kept.faultAt _ _ _ _ ht
        all_goals exact hk _ _ ht
      · split
        · exact Kept.next (h.putProg _)
        · exact hk _ _ ((h.pinSpan _ _ _ _).accHere ‹_›)

theorem Kept.mdrain {s : State} (tok : Tok) (tgt : DrainTo) (t : Fin 4) (r m : Fin 64) (o : Ty) (c : Bool) (e : Fin 4) (h : MemWf s) :
    Kept (s.mdrain tok tgt t r m o c e) := by
  unfold State.mdrain
  refine Kept.stepWord h (fun u p hu => ?_) fun _ q hu => Kept.goOn q hu
  split
  · exact Kept.next h
  · refine Kept.drainDesc hu fun d => ?_
    exact Kept.ite (Kept.pushBuf _ _ _ _ hu) (Kept.ite (Kept.stepDone _ _ (MemWf.ite hu (hu.creditVa _ _ _ _ _ _)))
      (Kept.ite (Kept.faultAt _ _ _ _ hu) (Kept.drainOne hu fun _ _ hw => Kept.next (MemWf.putProg _ (hw.putArray _)))))

theorem Kept.mend {s : State} (tok : Tok) (h : MemWf s) : Kept (execMend tok s) := by
  unfold execMend
  refine Kept.stepWord h (fun t p ht => ?_) fun _ _ ht => Kept.next (ht.dropProg _)
  split
  · exact Kept.next h
  · exact Kept.ite (Kept.hold _ ht) (Kept.ite (Kept.tokSend ht fun _ _ hu => Kept.next (hu.dropProg _))
      (Kept.engWrite ht (fun _ _ _ hu => Kept.progFault _ _ _ hu)
        fun _ hu => Kept.next (MemWf.putProg _ (MemWf.ite hu (hu.creditVa _ _ _ _ _ _)))))

/-! ### The tile scheduler (R209) -/

theorem MemWf.dropRecord {s : State} (g : Nat) (r : TileRec) (h : MemWf s) : MemWf (s.dropRecord g r) := MemWf.putCore _ (h.putCluster _ _)

theorem MemWf.failRecord {s : State} (g : Nat) (r : TileRec) (f : Fail) (h : MemWf s) : MemWf (s.failRecord g r f) := by
  have dropped := (h.tileStatus r (f.1.code * 2 ^ 40 + 2)).dropRecord g r
  unfold State.failRecord
  exact MemWf.charge _ _ (MemWf.ite dropped (dropped.creditVa _ _ _ _ _ _))

theorem MemWf.tryRecord {s t : State} {g : Nat} {r : TileRec} (h : MemWf s) (e : s.tryRecord g r = some t) : MemWf t := by
  have ht := h.focus r.core
  have failed : ∀ {f}, (if (s.focus r.core).statusFree r then some ((s.focus r.core).failRecord g r f) else none) = some t → MemWf t := by
    intro f e
    split at e
    · cases e; exact ht.failRecord _ _ _
    · cases e
  unfold State.tryRecord at e
  dsimp only at e
  split at e
  · cases e
  · split at e
    · exact failed e
    · exact failed e
    · split at e
      · cases e
      · obtain ⟨k, _, rfl⟩ := Option.map_eq_some_iff.mp e
        exact ht
    all_goals cases e

theorem MemWf.pollRecord {s t : State} {g c : Nat} (h : MemWf s) (e : s.pollRecord g c = some t) : MemWf t := by
  unfold State.pollRecord at e
  dsimp only at e
  split at e
  · cases e
  · split at e
    · cases e
    · obtain ⟨k, _, rfl⟩ := Option.map_eq_some_iff.mp e
      exact h.focus c

theorem MemWf.acceptRecord {s : State} (g c : Nat) (cmd : Cmd) (bs : List Byte) (h : MemWf s) : MemWf (s.acceptRecord g c cmd bs) := by
  unfold State.acceptRecord
  exact MemWf.ite ((h.upd _).charge _ _) (MemWf.putCluster _ _ (h.upd _))

theorem MemWf.loseRecord {s : State} (c : Nat) (cmd : Cmd) (f : Fail) (h : MemWf s) : MemWf (s.loseRecord c cmd f) := (h.upd _).charge _ _

theorem MemWf.recordArrives {s t : State} {g c : Nat} (h : MemWf s) (e : s.recordArrives g c = some t) : MemWf t := by
  have ht := h.focus c
  unfold State.recordArrives at e
  dsimp only at e
  split at e
  · cases e
  · split at e
    · cases e
    · split at e
      · cases e; exact ht.loseRecord _ _ _
      · split at e
        · split at e
          · cases e; exact ((ht.pin _ _ _).spanRead _ _).acceptRecord _ _ _ _
          · cases e
        · split at e
          · cases e; exact ht
          · cases e

theorem MemWf.tileAnswer {s t : State} {va : W64} {r : FabricReply} (h : MemWf s) (e : s.tileAnswer = some (va, r, t)) : MemWf t := by
  unfold State.tileAnswer at e
  split at e
  · split at e
    · obtain ⟨_, _, e⟩ := Option.map_eq_some_iff.mp e
      cases e; exact h
    · cases e
  · cases e

theorem MemWf.tileHears {s t : State} {g c : Nat} (h : MemWf s) (e : s.tileHears g c = some t) : MemWf t := by
  unfold State.tileHears at e
  obtain ⟨⟨va, r, u⟩, ha, rfl⟩ := Option.map_eq_some_iff.mp e
  have hu := (h.focus c).tileAnswer ha
  have barFail : ∀ (o : Option TileRec) f, MemWf (match (generalizing := false) o with
      | some y => if u.statusFree y then u.failRecord g y f else u | none => u) := by
    intro o f
    split
    · exact MemWf.ite (hu.failRecord _ _ _) hu
    · exact hu
  dsimp only
  split
  · split
    · exact hu.loseRecord _ _ _
    · exact barFail _ _
  · split
    · split
      · exact hu.acceptRecord _ _ _ _
      · exact hu
    · split
      · exact MemWf.ite (hu.failRecord _ _ _) hu
      · exact hu
  all_goals exact hu

/-- The first that some search over a list finds keeps the form when each that it may find does. -/
theorem MemWf.findSome {α : Type} {f : α → Option State} {l : List α} {t : State} (hf : ∀ x t, f x = some t → MemWf t)
    (e : l.findSome? f = some t) : MemWf t := by
  obtain ⟨x, _, hx⟩ := List.exists_of_findSome?_eq_some e
  exact hf x t hx

theorem Kept.tileTaskIssue {s : State} (g : Nat) (h : MemWf s) : Kept (execTileTaskIssue g s) := by
  unfold execTileTaskIssue
  dsimp only
  split
  · rename_i t e
    refine Kept.next ?_
    simp only [Option.orElse_eq_or, Option.or_eq_some_iff] at e
    rcases e with e | ⟨_, e | ⟨_, e | ⟨_, e⟩⟩⟩
    · exact MemWf.findSome (fun _ _ => h.tileHears) e
    · exact MemWf.findSome (fun _ _ => h.recordArrives) e
    · exact MemWf.findSome (fun _ _ => h.tryRecord) e
    · exact MemWf.findSome (fun _ _ => h.pollRecord) e
  · exact Kept.next h

end Sys2Proof.Machine
end

