-- ==== Sys2Proof/Proofs/KeepsFabric.lean ====
section
/-! SUPPORT. Proofs/KeepsFabric.lean: the node store, and the device as a home for other devices, keep memory in its canonical form. -/

namespace Sys2Proof.Machine

/-! ### The node store (R127..R132, R332..R335) -/

theorem MemWf.putNode {s : State} (x : W64) (n : Node) (h : MemWf s) : MemWf (s.putNode x n) := h.putDie _ _

theorem MemWf.nodeEcc {s : State} (x : W64) (h : MemWf s) : MemWf (s.nodeEcc x) := h.charge _ _

theorem Kept.askNode {s : State} {x : W64} {op : RemoteOp} {k : State → List Byte → Out} (h : MemWf s)
    (hk : ∀ t bs, MemWf t → Kept (k t bs)) : Kept (s.askNode x op k) := by
  unfold State.askNode
  refine Kept.ite (Kept.precise _ _ h) ?_
  split
  · exact Kept.next h
  · refine Kept.ite (Kept.next h) ?_
    split
    · exact Kept.next h
    · exact Kept.ite (Kept.pass (MemWf.nodeEcc _ (h.upd _))) (Kept.precise _ _ (h.upd _))
    all_goals exact hk _ _ (h.upd _)

theorem Kept.nalloc {s : State} (d a b : Reg) (h : MemWf s) : Kept (execNalloc d a b s) := by
  unfold execNalloc
  refine Kept.ite (Kept.precise _ _ h) (Kept.ite (Kept.precise _ _ h) ?_)
  dsimp only
  split
  · exact Kept.write _ _ (h.putDie _ _)
  · exact Kept.write _ _ h

theorem MemWf.freeNodes {s t : State} {ctx n : Nat} {x : W64} (h : MemWf s) (e : s.freeNodes ctx x n = some t) : MemWf t := by
  unfold State.freeNodes at e
  dsimp only at e
  split at e
  · cases e
  · cases e; exact h.putDie _ _

theorem Kept.nallocFree {s : State} (d a b : Reg) (h : MemWf s) : Kept (execNallocFree d a b s) := by
  unfold execNallocFree
  refine Kept.ite (Kept.precise _ _ h) (Kept.ite (Kept.precise _ _ h) (Kept.ite (Kept.askNode h fun _ _ => Kept.write _ _) ?_))
  split
  · exact Kept.precise _ _ h
  · exact Kept.write _ _ (h.freeNodes ‹_›)

theorem Kept.ninit {s : State} (a b : Reg) (m : BitVec 4) (h : MemWf s) : Kept (execNinit a b m s) := by
  unfold execNinit
  refine Kept.ite (Kept.precise _ _ h) (Kept.withImplicit h (Kept.addressed h fun u pa hu => Kept.readAs hu
    (fun y img hy => Kept.ite (Kept.askNode hy fun _ _ => Kept.pass) ?_) fun _ _ _ hy => Kept.precise _ _ hy))
  split
  · exact Kept.precise _ _ hy
  · exact Kept.pass (MemWf.putNode _ _ (MemWf.ite (hy.nodeEcc _) hy))

theorem Kept.nrd {s : State} (d a : Reg) (k : Fin 4) (h : MemWf s) : Kept (execNrd d a k s) := by
  unfold execNrd
  refine Kept.ite (Kept.precise _ _ h) (Kept.ite (Kept.askNode h fun _ _ => Kept.write _ _) ?_)
  split
  · exact Kept.precise _ _ h
  · exact Kept.ite (Kept.pass (h.nodeEcc _)) (Kept.write _ _ h)

theorem MemWf.walkStep {s : State} (f : WalkFwd) (h : MemWf s) : MemWf (s.walkStep f).2 := by
  unfold State.walkStep
  dsimp only
  split
  · exact h
  · split
    · exact h
    · split
      · exact h
      · split
        · exact h
        · split <;> exact h.putNode _ _

theorem MemWf.replyTo {s : State} (dev : Nat) (addr : W64) (r : FabricReply) (h : MemWf s) : MemWf (s.replyTo dev addr r) := h

theorem Kept.walkFrom {s : State} (f : WalkFwd) (h : MemWf s) : Kept (s.walkFrom f) := by
  have h1 := h.walkStep f
  have h2 := h1.focus f.core
  unfold State.walkFrom
  dsimp only
  split
  · split <;> exact Kept.next h1
  · split
    · exact Kept.ite (Kept.pass h2) (Kept.next h1)
    · exact Kept.ite (Kept.precise _ _ h2) (Kept.next h1)
    · exact Kept.ite (Kept.pass (h2.nodeEcc _)) (Kept.next h1)
    · exact Kept.next h1

theorem MemWf.walkOn {s : State} (f : WalkFwd) (dev : Nat) (h : MemWf s) : MemWf (s.walkOn f dev) := h

theorem Kept.walkAway {s : State} (f : WalkFwd) (h : MemWf s) : Kept (s.walkAway f) :=
  Kept.ite (Kept.next h) (Kept.ite (Kept.precise _ _ (h.focus f.core)) (Kept.next (h.focus f.core)))

theorem Kept.walkInstr {s : State} (x : W64) (kind d : Nat) (v : W32) (h : MemWf s) : Kept (s.walkInstr x kind d v) := by
  unfold State.walkInstr
  refine Kept.ite (Kept.next h) ?_
  split
  · split
    · exact Kept.next h
    · split
      · exact Kept.next h
      · exact Kept.ite (Kept.pass (MemWf.nodeEcc _ (h.upd _))) (Kept.precise _ _ (h.upd _))
      all_goals exact Kept.pass (h.upd _)
  · exact Kept.ite (Kept.precise _ _ h) (Kept.walkFrom _ (h.upd _))

theorem Kept.nvl {s : State} (a b : Reg) (h : MemWf s) : Kept (execNvl a b s) := Kept.ite (Kept.precise _ _ h) (Kept.walkInstr _ _ _ _ h)

theorem Kept.nback {s : State} (a b : Reg) (h : MemWf s) : Kept (execNback a b s) :=
  Kept.ite (Kept.precise _ _ h) (Kept.walkInstr _ _ _ _ h)

theorem Kept.nbackAlt {s : State} (a b : Reg) (h : MemWf s) : Kept (execNbackAlt a b s) :=
  Kept.ite (Kept.precise _ _ h) (Kept.walkInstr _ _ _ _ h)

theorem Kept.walkForward {s : State} (k : Nat) (h : MemWf s) : Kept (execWalkForward k s) := by
  have ht : MemWf { s with walks := s.walks.eraseIdx k } := h
  unfold execWalkForward
  split
  · exact Kept.next h
  · refine Kept.ite (Kept.walkFrom _ ht) ?_
    split
    · exact Kept.next (ht.walkOn _ _)
    · exact Kept.ite (Kept.next h) (Kept.walkAway _ ht)

theorem Kept.scanStep {s : State} (d : Reg) (z : Scan) (h : MemWf s) : Kept (s.scanStep d z) := by
  unfold State.scanStep
  refine Kept.ite (Kept.precise _ _ h) ?_
  split
  · exact Kept.precise _ _ h
  · exact Kept.ite (Kept.pass (h.nodeEcc _)) (Kept.ite (Kept.write _ _ h) (Kept.next h))

theorem Kept.nsel {s : State} (d a : Reg) (h : MemWf s) : Kept (execNsel d a s) := by
  unfold execNsel
  dsimp only
  split
  · split
    · exact Kept.scanStep _ _ h
    · exact Kept.next h
  · refine Kept.ite (Kept.precise _ _ h) (Kept.ite (Kept.askNode h fun _ _ => Kept.write _ _) ?_)
    split
    · exact Kept.precise _ _ h
    · exact Kept.ite (Kept.pass (h.nodeEcc _)) (Kept.ite (Kept.write _ _ h)
        (Kept.ite (Kept.askNode h fun _ _ => Kept.write _ _) (Kept.next h)))

/-! ### Accesses at home for another device (R385) -/

theorem MemWf.spanBytes {s : State} (spans : List (Nat × Nat)) (h : MemWf s) : MemWf (s.spanBytes spans).2 := by
  unfold State.spanBytes
  generalize ([] : List Byte) = bs
  induction spans generalizing s bs with
  | nil => exact h
  | cons x t ih =>
    rw [List.foldl_cons]
    dsimp only
    split
    · exact ih h _
    · exact ih (h.homeRead _ _) _

theorem MemWf.recordFor {s : State} (src a : Nat) (sc : Option Scope) (h : MemWf s) : MemWf (s.recordFor src a sc) := by
  unfold State.recordFor
  split
  · exact h
  · exact h.putLine _

theorem Kept.forRemote {s : State} {src ctx : Nat} {va : W64} {n : Nat} {need : Need} {reads : Bool} {sc : Option Scope} {record : Bool}
    {k : State → List (Nat × Nat) → Out} (h : MemWf s) (hk : ∀ spans, Kept (k s spans)) :
    Kept (s.forRemote src ctx va n need reads sc record k) := by
  unfold State.forRemote
  refine Kept.ite (Kept.next h) ?_
  split
  · exact Kept.next h
  · exact Kept.ite (Kept.next h) (Kept.ite (Kept.next h) (Kept.ite (Kept.next h)
      (Kept.ite (Kept.next (MemWf.replyTo _ _ _ (h.recordFor _ _ _))) (hk _))))

theorem MemWf.remoteAtomic {s : State} (src : Nat) (va : W64) (a op w b cmp : Nat) (h : MemWf s) :
    MemWf (s.remoteAtomic src va a op w b cmp) := by
  unfold State.remoteAtomic
  refine MemWf.replyTo _ _ _ (MemWf.putLine _ ?_)
  split
  · exact (h.homeRead _ _).homeWrite _ _
  · exact h.homeRead _ _

theorem MemWf.roomNow {s : State} (r : Nat) (h : MemWf s) : MemWf (s.roomNow r) := by
  unfold State.roomNow
  split
  · exact h
  · split
    · exact h
    · exact MemWf.freeEntry _ (h.foldl (fun _ _ ht => ht.withdraw _) _)

theorem MemWf.remoteUpd {s : State} (a : Nat) (tag : UpdTag) (b : W64) (h : MemWf s) : MemWf (s.remoteUpd a tag b) := by
  unfold State.remoteUpd
  exact MemWf.shoot _ (MemWf.putDir _ (MemWf.ite (h.roomNow _) (MemWf.putDir _ ((h.roomNow _).withdraw _))))

theorem MemWf.remoteBar {s : State} (src : Nat) (va : W64) (a k v : Nat) (sc : Option Scope) (h : MemWf s) :
    MemWf (s.remoteBar src va a k v sc) := by
  have read := h.homeRead a 16
  unfold State.remoteBar
  generalize s.homeRead a 16 = r at read ⊢
  have put := fun b x => MemWf.replyTo src va x (MemWf.putBar a b (read.recordFor src a sc))
  exact MemWf.ite (put _ _) (MemWf.ite (read.replyTo _ _ _) (MemWf.ite (MemWf.replyTo _ _ _ (read.recordFor src a sc))
    (MemWf.ite (put _ _) (put _ _))))

theorem Kept.remoteNode {s : State} {src ctx : Nat} {x : W64} {k : Node → Out} (h : MemWf s) (hk : ∀ n, Kept (k n)) :
    Kept (s.remoteNode src ctx x k) := by
  unfold State.remoteNode
  split
  · exact Kept.next h
  · exact hk _

theorem MemWf.remoteScan {s : State} (src ctx : Nat) (at_ child : W64) (n sq : Nat) (fpu cpuct vlv : W64) (h : MemWf s) :
    MemWf (s.remoteScan src ctx at_ child n sq fpu cpuct vlv) := by
  unfold State.remoteScan
  split <;> exact h

theorem MemWf.remoteSelect {s : State} (src ctx : Nat) (x : W64) (p : Node) (fpu cpuct vlv : W64) (h : MemWf s) :
    MemWf (s.remoteSelect src ctx x p fpu cpuct vlv) :=
  MemWf.ite h (MemWf.ite h (MemWf.ite h (h.remoteScan _ _ _ _ _ _ _ _ _)))

theorem Kept.remoteAccess {s : State} (src ctx : Nat) (addr : W64) (op : RemoteOp) (h : MemWf s) :
    Kept (execRemoteAccess src ctx addr op s) := by
  have atMem : ∀ {c : Prop} [Decidable c] {k : Out}, Kept k → Kept (if c then .next s else k) := fun hk => Kept.ite (Kept.next h) hk
  have atNode : ∀ {c d : Prop} [Decidable c] [Decidable d] {r : FabricReply} {k : Out}, Kept k →
      Kept (if c then .next s else if d then .next (s.replyTo src addr r) else k) := fun hk =>
    Kept.ite (Kept.next h) (Kept.ite (Kept.next h) hk)
  unfold execRemoteAccess
  cases op with
  | load n sc => exact atMem (Kept.forRemote h fun _ => Kept.next (MemWf.replyTo _ _ _ ((h.recordFor _ _ _).spanBytes _)))
  | check w n sc r => exact atMem (Kept.forRemote h fun _ => Kept.next (MemWf.replyTo _ _ _ (h.recordFor _ _ _)))
  | fetch => exact atMem (Kept.forRemote h fun _ => Kept.next (MemWf.replyTo _ _ _ (h.spanBytes _)))
  | atomic op size b cmp sc =>
    exact atMem (Kept.forRemote h fun _ => Kept.next ((h.recordFor _ _ _).remoteAtomic _ _ _ _ _ _ _))
  | upd tag b sc => exact atMem (Kept.forRemote h fun _ => Kept.next (MemWf.replyTo _ _ _ ((h.recordFor _ _ _).remoteUpd _ _ _)))
  | barrier k v sc => exact atMem (Kept.forRemote h fun _ => Kept.next (h.remoteBar _ _ _ _ _ _))
  | write bytes =>
    exact atMem (Kept.forRemote h fun _ => Kept.ite (Kept.next h) (Kept.next (MemWf.replyTo _ _ _ (MemWf.ite h (h.spansWrite _ _)))))
  | accRow o c row =>
    refine atMem (Kept.forRemote h fun spans => ?_)
    split
    · exact Kept.next (MemWf.replyTo _ _ _ (h.accHere ‹_›))
    · exact Kept.next h
  | walk kind v d k => exact atNode (Kept.walkFrom _ h)
  | nodeRead k => exact atNode (Kept.remoteNode h fun _ => Kept.next h)
  | nodeInit m image => exact atNode (Kept.remoteNode h fun _ => Kept.next (MemWf.replyTo _ _ _ (h.putNode _ _)))
  | nodeFree n =>
    refine atNode ?_
    split
    · exact Kept.next (MemWf.replyTo _ _ _ (h.freeNodes ‹_›))
    · exact Kept.next h
  | nodeSelect fpu cpuct vlv => exact atNode (Kept.remoteNode h fun _ => Kept.next (h.remoteSelect _ _ _ _ _ _ _))
  | nodeScan n sq fpu cpuct vlv => exact atNode (Kept.next (h.remoteScan _ _ _ _ _ _ _ _ _))

theorem Kept.remoteCommitBatch {s : State} (src ctx : Nat) (cells : List (Nat × Byte)) (h : MemWf s) :
    Kept (execRemoteCommitBatch src ctx cells s) := by
  unfold execRemoteCommitBatch
  exact Kept.ite (Kept.next h) (Kept.next (MemWf.replyTo _ _ _
    (MemWf.applyVersion _ (h.foldl (fun t l ht => (ht.withdraw l).shoot l) _))))

/-! ### Answers (R384, R385) -/

theorem MemWf.hintAnswer {s : State} (q : HintReq) (r : FabricReply) (h : MemWf s) : MemWf (s.hintAnswer q r) := by
  unfold State.hintAnswer
  dsimp only
  split
  · exact h
  · exact h.foldl (fun _ _ ht => ht.lease _ _ _) _
  all_goals exact h.foldl (fun _ _ ht => ht.hintLine _ _) _

theorem Kept.fabricAnswer {s : State} (c : Nat) (r : FabricReply) (h : MemWf s) : Kept (execFabricAnswer c r s) := by
  have hint : ∀ (o : Option HintReq), Kept (match o with
      | some q => .next (State.hintAnswer ((s.focus c).upd { (s.focus c).core with hints := (s.focus c).core.hints.erase q }) q r)
      | none => .next s) := fun o => by
    split
    · exact Kept.next (MemWf.hintAnswer _ _ ((h.focus c).upd _))
    · exact Kept.next h
  unfold execFabricAnswer
  dsimp only
  split
  · split
    · exact Kept.next (h.putCore _)
    · exact Kept.next h
  · split
    · exact Kept.next h
    · exact Kept.ite (Kept.next h) (Kept.next (h.chargeLate _ _ _))
  all_goals
    split
    · exact Kept.ite (Kept.next (h.putCore _)) (hint _)
    · exact hint _

theorem Kept.fabricTimeout {s : State} (c : Nat) (h : MemWf s) : Kept (execFabricTimeout c s) := by
  have hint : ∀ (o : Option HintReq) (f : HintReq → Core), Kept (match o with
      | some q => .next (s.putCore (f q))
      | none => .next s) := fun o f => by
    split
    · exact Kept.next (h.putCore _)
    · exact Kept.next h
  unfold execFabricTimeout
  dsimp only
  split
  · exact Kept.ite (Kept.next (h.putCore _)) (hint _ _)
  · exact hint _ _

/-! ### The residency report (R387) -/

theorem MemWf.reportHere {s : State} (bs : List Byte) (h : MemWf s) : MemWf (s.reportHere bs) := by
  unfold State.reportHere
  split
  · exact h
  · exact h.homeWrite _ _

theorem Kept.residencyReport {s : State} (h : MemWf s) : Kept (execResidencyReport s) := by
  have ht : ∀ m, MemWf { s with telemetry := m } := fun _ => h
  unfold execResidencyReport
  exact Kept.ite (Kept.next h) (Kept.ite (Kept.next (MemWf.reportHere _ (ht _))) (Kept.next h))

end Sys2Proof.Machine
end

