-- ==== Sys2Proof/Proofs/KeepsAdmin.lean ====
section
/-! SUPPORT. Proofs/KeepsAdmin.lean: Ralzer's writes of memory and the admin commands keep memory in its canonical form. -/

namespace Sys2Proof.Machine

/-! ### Page tables in the firmware region (R296, R374) -/

theorem MemWf.zeroHome {s : State} (a n : Nat) (h : MemWf s) : MemWf (s.zeroHome a n) := by
  have shot : ∀ (ls : List Nat) (rs : List DirRegion),
      MemWf (rs.foldl (fun t r => t.shoot (r.region * 4)) (ls.foldl (fun t l => t.withdraw l) s)) := fun ls rs =>
    MemWf.foldl (fun _ _ ht => ht.shoot _) _ (h.foldl (fun _ _ ht => ht.withdraw _) _)
  unfold State.zeroHome
  exact ⟨wf_filter _ (shot _ _).1, (shot _ _).2⟩

theorem MemWf.newTable {s : State} (h : MemWf s) : MemWf s.newTable.2 := MemWf.of_eq (h.zeroHome _ _) rfl rfl rfl

theorem MemWf.putEntry {s : State} (a v : Nat) (h : MemWf s) : MemWf (s.putEntry a v) := MemWf.ite h (h.homeWrite _ _)

theorem MemWf.unspan {s : State} (table va sh : Nat) (h : MemWf s) : MemWf (s.unspan table va sh) :=
  MemWf.ite h (h.foldl (fun _ _ ht => ht.putEntry _ _) _)

/-- Writing the n entries of a table keeps the form. -/
theorem MemWf.fillTable {s : State} (n a b c : Nat) (h : MemWf s) :
    MemWf ((List.range n).foldl (fun t k => t.putEntry (a + 8 * k) (b + k * 4096 + c)) s) :=
  h.foldl (fun _ _ ht => ht.putEntry _ _) _

theorem MemWf.splitLeaf {s : State} (table va : Nat) (h : MemWf s) : MemWf (s.splitLeaf table va).1 := by
  unfold State.splitLeaf
  dsimp only
  exact MemWf.putEntry _ _ ((h.unspan _ _ _).newTable.fillTable 512 _ _ _)

theorem MemWf.descend {s : State} (table va : Nat) (shs : List Nat) (h : MemWf s) : MemWf (s.descend table va shs).1 := by
  induction shs generalizing s table with
  | nil => exact h
  | cons sh rest ih =>
    unfold State.descend
    split
    · exact ih _ h
    · exact ih _ (h.splitLeaf _ _)
    · exact ih _ (h.newTable.putEntry _ _)

theorem MemWf.mapPage {s : State} (root va pa code : Nat) (p : Perm) (h : MemWf s) : MemWf (s.mapPage root va pa code p) :=
  (h.descend _ _ _).foldl (fun _ _ ht => (ht.unspan _ _ _).putEntry _ _) _

theorem MemWf.mapRange {s : State} (root va pa n code : Nat) (p : Perm) (h : MemWf s) : MemWf (s.mapRange root va pa n code p) := by
  have mapped := h.foldl (f := fun t k => t.mapPage root (va + k * pageBytes code) (pa + k * pageBytes code) code p)
    (fun _ _ ht => ht.mapPage _ _ _ _ _) (List.range (n / pageBytes code))
  unfold State.mapRange
  exact mapped

theorem MemWf.unmapSmall {s : State} (root va : Nat) (h : MemWf s) : MemWf (s.unmapSmall root va) :=
  ((h.descend _ _ _).unspan _ _ _).putEntry _ _

theorem MemWf.unmapRange {s : State} (root va n fuel : Nat) (h : MemWf s) : MemWf (s.unmapRange root va n fuel) := by
  induction fuel generalizing s va n with
  | zero => exact h
  | succ fuel ih =>
    unfold State.unmapRange
    refine MemWf.ite h ?_
    dsimp only
    split
    · exact ih _ _ h
    · split
      · exact ih _ _ h
      · exact MemWf.ite (ih _ _ ((h.unspan _ _ _).putEntry _ _)) (ih _ _ (h.unmapSmall _ _))
      · exact ih _ _ (h.unmapSmall _ _)

/-! ### Commands are taken, served and completed (R388, R389, R392) -/

theorem MemWf.withAdmin {s : State} (a : Admin) (h : MemWf s) : MemWf { s with admin := a } := h

/-- Whatever a served command leaves has memory in canonical form. -/
inductive Served.Kept : Served → Prop
  | stuck : Served.Kept .stuck
  | part {t : State} (h : MemWf t) : Served.Kept (.part t)
  | done {st r0 r1 : Nat} {t : State} (h : MemWf t) : Served.Kept (.done st r0 r1 t)

theorem Served.Kept.ite {p : Prop} [Decidable p] {a b : Served} (ha : a.Kept) (hb : b.Kept) : (if p then a else b).Kept := by
  split
  · exact ha
  · exact hb

theorem Served.Kept.refuse {s : State} {st : Nat} (h : MemWf s) : (s.refuse st).Kept := .done h

theorem MemWf.journalStatus {s : State} (j st : Nat) (h : MemWf s) : MemWf (s.journalStatus j st) := MemWf.ite h (h.putJournal _ _)

theorem MemWf.finishCmd {s : State} (cmd : AdminCmd) (j st r0 r1 : Nat) (h : MemWf s) : MemWf (s.finishCmd cmd j st r0 r1) := by
  have written : ∀ (p : Prop) [Decidable p] a bs, MemWf (if p then (s.journalStatus j st).homeWrite a bs else s.journalStatus j st) :=
    fun _ _ _ _ => MemWf.ite (MemWf.homeWrite _ _ (h.journalStatus _ _)) (h.journalStatus _ _)
  unfold State.finishCmd
  generalize leBytes 8 _ ++ _ = bs
  exact written _ _ _

/-- A command's step keeps the form when its effect does. -/
theorem Kept.adminStep {s : State} {opc : Nat} {cmd : AdminCmd} {effect : State → Served} (h : MemWf s) (he : (effect s).Kept) :
    Kept (s.adminStep opc cmd effect) := by
  unfold State.adminStep
  dsimp only
  split
  · generalize e : s.homeRead _ 64 = r
    have read : MemWf r.2 := e ▸ h.homeRead _ _
    exact Kept.ite (Kept.next h) (Kept.ite (Kept.next h) (Kept.next (MemWf.withAdmin _ (read.journal _ _ _ _ _))))
  · refine Kept.ite (Kept.next h) (Kept.ite (Kept.next (h.finishCmd _ _ _ _ _)) (Kept.ite (Kept.next (h.finishCmd _ _ _ _ _)) ?_))
    generalize effect s = served at he
    cases he with
    | stuck => exact Kept.next h
    | part ht => exact Kept.next ht
    | done ht => exact Kept.next (ht.finishCmd _ _ _ _ _)

theorem Served.Kept.cmdCtx {s : State} {cmd : AdminCmd} {k : Context → Served} (h : MemWf s) (hk : ∀ c, (k c).Kept) :
    (s.cmdCtx cmd k).Kept := by
  unfold State.cmdCtx
  split
  · exact hk _
  · exact .refuse h

theorem Served.Kept.cmdQueue {s : State} {cmd : AdminCmd} {k : Queue → Served} (h : MemWf s) (hk : ∀ q, (k q).Kept) :
    (s.cmdQueue cmd k).Kept := by
  unfold State.cmdQueue
  split
  · exact .ite (hk _) (.refuse h)
  · exact .refuse h

/-! ### Contexts and queues (R377, R386, R390) -/

theorem MemWf.newCtx {s : State} (cmd : AdminCmd) (i : Nat) (h : MemWf s) : MemWf (s.newCtx cmd i) := by
  have mapped := fun r v p n c m => h.newTable.newTable.mapRange r v p n c m
  unfold State.newCtx
  exact mapped _ _ _ _ _ _

theorem Kept.ctxCreate {s : State} (cmd : AdminCmd) (h : MemWf s) : Kept (execCtxCreate cmd s) := by
  unfold execCtxCreate
  refine Kept.adminStep h (.ite (.refuse h) ?_)
  split
  · exact .refuse h
  · exact .ite (.done (h.newCtx _ _)) (.refuse h)

theorem MemWf.stopCore {s : State} (c : Nat) (h : MemWf s) : MemWf (s.stopCore c) := (h.discardTask c).putCore _

theorem MemWf.closeQueue {s : State} (q : Queue) (st : Nat) (h : MemWf s) : MemWf (s.closeQueue q st) := by
  have readAll := h.foldl (f := fun t k => (t.homeRead (q.recAddr (q.taken + k)) 128).2) (fun _ _ ht => ht.homeRead _ _)
    (List.range (q.tail - q.taken))
  unfold State.closeQueue
  exact readAll

theorem MemWf.stopCtx {s : State} (i : Nat) (h : MemWf s) : MemWf (s.stopCtx i) := by
  have stopped : ∀ (cores : List Nat) (mine : List Launch), MemWf (mine.foldl (fun t l => match l.src with
      | .queue q k => t.complete q k 0x05 (rcdUtag l.rcd) none
      | .barker _ _ _ => t) (cores.foldl State.stopCore s)) := fun cores mine =>
    MemWf.foldl (fun t l ht => by split <;> exact ht) _ (h.foldl (fun _ _ ht => ht.stopCore _) _)
  have closed := fun cores mine qs => (stopped cores mine).foldl (f := fun t q => t.closeQueue q 0x05) (fun _ _ ht => ht.closeQueue _ _) qs
  unfold State.stopCtx
  exact closed _ _ _

theorem Kept.ctxDestroy {s : State} (cmd : AdminCmd) (h : MemWf s) : Kept (execCtxDestroy cmd s) := by
  unfold execCtxDestroy
  exact Kept.adminStep h (.ite .stuck (.ite .stuck (.ite (.part (h.stopCtx _)) (.done (h.stopCtx _)))))

theorem Kept.qCreate {s : State} (cmd : AdminCmd) (h : MemWf s) : Kept (execQCreate cmd s) := by
  unfold execQCreate
  exact Kept.adminStep h (.ite (.refuse h) (.ite (.refuse h) (.done h)))

theorem Kept.qBind {s : State} (cmd : AdminCmd) (h : MemWf s) : Kept (execQBind cmd s) :=
  Kept.adminStep h (Served.Kept.cmdQueue h fun _ => .done (h.mapQueue _ _))

theorem Kept.qArm {s : State} (cmd : AdminCmd) (h : MemWf s) : Kept (execQArm cmd s) :=
  Kept.adminStep h (Served.Kept.cmdQueue h fun _ => .done (h.mapQueue _ _))

theorem Kept.qDestroy {s : State} (cmd : AdminCmd) (h : MemWf s) : Kept (execQDestroy cmd s) :=
  Kept.adminStep h (Served.Kept.cmdQueue h fun _ => .ite (.refuse h) (.ite .stuck (.done (h.closeQueue _ _))))

/-! ### Memory, pools, limits, the Carousel (R225, R296, R316, R390) -/

theorem Kept.memMap {s : State} (cmd : AdminCmd) (h : MemWf s) : Kept (execMemMap cmd s) := by
  have mapped : ∀ (p : Prop) [Decidable p] r v a n c m, MemWf (if p then (s.mapRange r v a n c m).zeroHome a n else s.mapRange r v a n c m) :=
    fun _ _ _ _ _ _ _ _ => MemWf.ite ((h.mapRange _ _ _ _ _ _).zeroHome _ _) (h.mapRange _ _ _ _ _ _)
  unfold execMemMap
  exact Kept.adminStep h (Served.Kept.cmdCtx h fun _ => .ite (.refuse h) (.ite .stuck
    (.ite (.done (mapped _ _ _ _ _ _ _)) (.refuse h))))

theorem Kept.memUnmap {s : State} (cmd : AdminCmd) (h : MemWf s) : Kept (execMemUnmap cmd s) := by
  unfold execMemUnmap
  exact Kept.adminStep h (Served.Kept.cmdCtx h fun _ => .ite (.refuse h) (.ite (.ite .stuck (.done h))
    (.ite (.refuse h) (.ite (.part (h.unmapRange _ _ _ _)) (.done (h.unmapRange _ _ _ _))))))

theorem Kept.kvPool {s : State} (cmd : AdminCmd) (h : MemWf s) : Kept (execKvPool cmd s) :=
  Kept.adminStep h (.ite (.refuse h) (.ite (.refuse h) (.done (h.putChip _ (h.chip _)))))

theorem Kept.kvReserve {s : State} (cmd : AdminCmd) (h : MemWf s) : Kept (execKvReserve cmd s) :=
  Kept.adminStep h (.done (h.putChip _ (h.chip _)))

theorem Kept.limits {s : State} (cmd : AdminCmd) (h : MemWf s) : Kept (execLimits cmd s) := Kept.adminStep h (.done h)

theorem MemWf.putCar {s : State} (d : Nat) (x : Carousel) (h : MemWf s) : MemWf (s.putCar d x) := MemWf.ite h h

theorem MemWf.setCarbase {s : State} (i die : Nat) (v : W64) (h : MemWf s) : MemWf (s.setCarbase i die v) := h

theorem MemWf.carFirst {s t : State} {ctx core : Nat} {va : W64} (h : MemWf s) (e : s.carFirst ctx core va = some t) : MemWf t := by
  unfold State.carFirst at e
  split at e
  · cases e
  · split at e
    · cases e
    · split at e
      · cases e
      · split at e
        · cases e; exact h
        · split at e
          · cases e; exact h.homeRead _ _
          · cases e

theorem Kept.carousel {s : State} (cmd : AdminCmd) (h : MemWf s) : Kept (execCarousel cmd s) := by
  unfold execCarousel
  refine Kept.adminStep h (.ite (.refuse h) (.ite (.done (MemWf.ite h ((h.putCar _ _).setCarbase _ _ _)))
    (.ite (.refuse h) ?_)))
  split
  · exact .ite .stuck (.part (h.carFirst ‹_›))
  · exact .refuse h
  · exact .ite .stuck (.done ((h.putCar _ _).setCarbase _ _ _))

/-! ### Images, attestation, the journal, telemetry, clusters (R54, R81, R262, R387, R391..R396) -/

theorem MemWf.placeSections {s : State} (root handle : Nat) (xs : List Section) (pa : Nat) (h : MemWf s) :
    MemWf (s.placeSections root handle xs pa) := by
  induction xs generalizing s pa with
  | nil => exact h
  | cons x rest ih => exact ih _ ((h.homeWrite _ _).mapRange _ _ _ _ _ _)

theorem Kept.codeLoad {s : State} (cmd : AdminCmd) (h : MemWf s) : Kept (execCodeLoad cmd s) := by
  have placed := fun a n root i xs pa => (h.homeRead a n).placeSections root i xs pa
  unfold execCodeLoad
  refine Kept.adminStep h (Served.Kept.cmdCtx h fun c => .ite (.refuse h) (.ite .stuck ?_))
  dsimp only
  split
  · exact .refuse h
  · exact .ite (.refuse h) (.ite (.refuse h) (.ite (.refuse h) (.ite (.done (placed _ _ _ _ _ _)) (.refuse h))))

theorem Kept.attest {s : State} (cmd : AdminCmd) (h : MemWf s) : Kept (execAttest cmd s) := by
  unfold execAttest
  refine Kept.adminStep h (Served.Kept.cmdCtx h fun c => .ite (.refuse h) (.ite .stuck ?_))
  dsimp only
  generalize e : s.homeRead _ 32 = r
  have read : MemWf r.2 := e ▸ h.homeRead _ _
  split
  · exact .refuse h
  · generalize _ ++ xmssSign _ _ = bs
    exact Served.Kept.done (MemWf.homeWrite _ _ (MemWf.withAdmin _ read))

theorem Kept.journalRead {s : State} (cmd : AdminCmd) (h : MemWf s) : Kept (execJournalRead cmd s) := by
  unfold execJournalRead
  exact Kept.adminStep h (.ite (.refuse h) (.ite .stuck (.done (h.homeWrite _ _))))

theorem Kept.telemetry {s : State} (cmd : AdminCmd) (h : MemWf s) : Kept (execTelemetry cmd s) := by
  have counted : ∀ n m a bs, MemWf (State.homeWrite { s with freeCount := n, telemetry := m } a bs) := fun _ _ _ _ => MemWf.homeWrite _ _ h
  unfold execTelemetry
  refine Kept.adminStep h (.ite (.refuse h) (.ite .stuck (.done ?_)))
  dsimp only
  generalize List.map _ _ = bs
  exact counted _ _ _ _

theorem MemWf.resetCore {s : State} (c : Nat) (h : MemWf s) : MemWf (s.resetCore c) := by
  unfold State.resetCore
  dsimp only
  split
  · exact h.stopCore _
  · rename_i l _
    have left : ∀ f x, MemWf ((s.mapLaunch l.id f).putCore x) := fun f x => MemWf.putCore x h
    have aborted : ∀ (p : Prop) [Decidable p] f x,
        MemWf (if p then ((s.mapLaunch l.id f).putCore x).abortTask c none else (s.mapLaunch l.id f).putCore x) := fun _ _ f x =>
      MemWf.ite ((left f x).abortTask _ _) (left f x)
    refine MemWf.ite ((aborted _ _ _).abortTask _ _) ?_
    split
    · exact MemWf.ite ((aborted _ _ _).finishLaunch _) (aborted _ _ _)
    · exact aborted _ _ _

theorem MemWf.resetStore {s : State} (g : Nat) (h : MemWf s) : MemWf (s.resetStore g) :=
  (h.foldl (fun _ _ ht => ht.mergeNow _) _).putCluster _ _

theorem MemWf.withStrands {s : State} (x : List (Nat × Core)) (h : MemWf s) : MemWf { s with strands := x } := h

theorem Kept.clusterReset {s : State} (cmd : AdminCmd) (h : MemWf s) : Kept (execClusterReset cmd s) := by
  have cleared : ∀ (cs : List Nat) (t : State) (f : State → Nat → Core), MemWf t → MemWf (cs.foldl (fun v c => v.putCore (f v c)) t) :=
    fun _ _ _ ht => ht.foldl (fun _ _ hv => hv.putCore _) _
  have reset : ∀ (cs : List Nat) g, MemWf ((cs.foldl State.resetCore s).resetStore g) := fun cs _ =>
    (h.foldl (f := State.resetCore) (fun _ c ht => ht.resetCore c) cs).resetStore _
  unfold execClusterReset
  exact Kept.adminStep h (.ite (.refuse h) (.ite .stuck (.done (MemWf.withStrands _ (cleared _ _ _ (reset _ _))))))

end Sys2Proof.Machine
end

