-- ==== Sys2Proof/Proofs/KeepsAttention.lean ====
section
/-! SUPPORT. Proofs/KeepsAttention.lean: the attention commands, immediate and queued, keep memory and the pages in canonical form. -/

namespace Sys2Proof.Machine

/-! ### What leaves a chiplet's page bytes as they are -/

@[simp] theorem Chip.putEntry_bytes (c : Chip) (e v : Nat) : (c.putEntry e v).bytes = c.bytes := rfl

@[simp] theorem Chip.putSlot_bytes (c : Chip) (k p : Nat) (sh : Bool) : (c.putSlot k p sh).bytes = c.bytes := rfl

theorem Chip.take_bytes {c t : Chip} {ctx owner f : Nat} (e : c.take ctx owner = some (f, t)) : t.bytes = c.bytes := by
  unfold Chip.take at e
  dsimp only at e
  split at e
  · cases e
  · cases e; rfl

@[simp] theorem Chip.putSeq_bytes (c : Chip) (e head : Nat) (xs : List KvSpan) : (c.putSeq e head xs).bytes = c.bytes := by
  unfold Chip.putSeq
  rw [Chip.foldl_bytes (fun _ _ => Chip.putEntry_bytes _ _ _), Chip.putEntry_bytes]

@[simp] theorem Chip.fillSlots_bytes (c : Chip) (ctx owner : Nat) (ks : List Nat) : (c.fillSlots ctx owner ks).bytes = c.bytes := by
  refine Chip.foldl_bytes (fun t k => ?_) _ _
  split
  · rename_i e
    rw [Chip.putSlot_bytes, Chip.take_bytes e]
  · rfl

@[simp] theorem Chip.shareSlots_bytes (c : Chip) (first : Nat) (pages : List Nat) : (c.shareSlots first pages).bytes = c.bytes :=
  Chip.foldl_bytes (fun t p => by rw [Chip.rehold_bytes, Chip.putSlot_bytes]) _ _

/-- A run of entries that hold one value. -/
theorem Chip.entryRun_bytes (c : Chip) (e n v : Nat) : ((List.range n).foldl (fun t k => t.putEntry (e + k) v) c).bytes = c.bytes :=
  Chip.foldl_bytes (fun t _ => Chip.putEntry_bytes t _ _) _ _

@[simp] theorem Chip.emptyRun_bytes (c : Chip) (e n : Nat) : (c.emptyRun e n).bytes = c.bytes := by
  delta Chip.emptyRun
  exact Chip.entryRun_bytes c e n _

@[simp] theorem Chip.advance_bytes (c : Chip) (m : AttnCmd) : (c.advance m).bytes = c.bytes := by
  refine Chip.foldl_bytes (fun t i => ?_) _ _
  dsimp only
  split
  · rfl
  · exact Chip.putEntry_bytes _ _ _

@[simp] theorem Chip.reclaim_bytes (c : Chip) (ctx d owner : Nat) : (c.reclaim ctx d owner).2.bytes = c.bytes := by
  unfold Chip.reclaim
  dsimp only
  rw [Chip.foldl_bytes fun t f => Chip.rehold_bytes t f _]
  refine Chip.foldl_bytes (fun t e => ?_) _ _
  split
  · rfl
  · split
    · exact Chip.freeSeq_bytes ‹_›
    · rfl

/-- The end of an append's check leaves the pages of the chiplet it is given. -/
theorem Chip.finishAppend_bytes {c1 t : Chip} {m : AttnCmd} {e : Nat} {last : Option KvSpan} {resolved : KvSpan → Except Fail AttnCmd}
    {mine : Except Fail Unit} {z : KvSpan → Nat × List KvSpan} {miss : Fail}
    (found : (match last with
      | none => .error miss
      | some x => match resolved x, mine with
        | .error f, _ => .error f
        | _, .error f => .error f
        | .ok r, .ok _ => .ok (.inr (c1.putSeq e (z x).1 (z x).2, r)) : Except Fail (Nat ⊕ (Chip × AttnCmd))) = .ok (.inr (t, m))) :
    t.bytes = c1.bytes := by
  split at found
  · cases found
  · split at found
    · cases found
    · cases found
    · cases found
      rw [Chip.putSeq_bytes]

theorem Chip.checkAppend_bytes {c t : Chip} {d v : Nat} {cmd m : AttnCmd} (e : c.checkAppend d cmd v = .ok (.inr (t, m))) :
    t.bytes = c.bytes := by
  unfold Chip.checkAppend at e
  dsimp only at e
  split at e
  · cases e
  · split at e
    · exact Chip.finishAppend_bytes (z := fun _ => appended _ _ _ _ _) e
    · split at e
      · cases e
      · split at e
        · cases e
        · split at e
          · cases e
          · split at e
            · cases e
            · exact (Chip.finishAppend_bytes (z := fun _ => appended _ _ _ _ _) e).trans (Chip.fillSlots_bytes _ _ _ _)

/-! ### Page writes (R239, R248, R250) -/

theorem Chip.wf_foldl {α : Type} {f : Chip → α → Chip} (hf : ∀ t x, Memory.wf t.bytes = true → Memory.wf (f t x).bytes = true)
    (l : List α) {c : Chip} (h : Memory.wf c.bytes = true) : Memory.wf (l.foldl f c).bytes = true := by
  induction l generalizing c with
  | nil => exact h
  | cons x t ih => exact ih (hf c x h)

theorem Chip.wf_putPage {c : Chip} (f off : Nat) (bs : List Byte) (h : Memory.wf c.bytes = true) :
    Memory.wf (c.putPage f off bs).bytes = true := wf_cellPutBytes _ _ h

theorem Chip.wf_copyPlaces {c : Chip} (m : KvModel) (src dst : Nat) (ps : List Nat) (h : Memory.wf c.bytes = true) :
    Memory.wf (c.copyPlaces m src dst ps).bytes = true :=
  Chip.wf_foldl (fun _ _ ht => Chip.wf_foldl (fun _ _ hu => Chip.wf_putPage _ _ _ (Chip.wf_putPage _ _ _ hu)) _ ht) _ h

theorem Chip.wf_putToken {c : Chip} (m : KvModel) (f p : Nat) (bs : List Byte) (h : Memory.wf c.bytes = true) :
    Memory.wf (c.putToken m f p bs).bytes = true :=
  Chip.wf_foldl (fun _ _ ht => Chip.wf_putPage _ _ _ (Chip.wf_putPage _ _ _ ht)) _ h

theorem Chip.wf_forkRun {c : Chip} (ctx owner first : Nat) (m : KvModel) (xs : List KvSpan) (priv : List Nat) (slots : List (Nat × Nat))
    (h : Memory.wf c.bytes = true) : Memory.wf (c.forkRun ctx owner first m xs priv slots).bytes = true := by
  refine Chip.wf_foldl (fun t x ht => ?_) _ h
  dsimp only
  split
  · split
    · rename_i e
      rw [Chip.putSlot_bytes]
      exact Chip.wf_copyPlaces _ _ _ _ (Chip.take_bytes e ▸ ht)
    · exact ht
  · rwa [Chip.rehold_bytes, Chip.putSlot_bytes]

theorem Chip.wf_target {c t : Chip} {m : AttnCmd} {k f : Nat} {b : Bool} (h : Memory.wf c.bytes = true)
    (e : c.target m k = some (f, b, t)) : Memory.wf t.bytes = true := by
  unfold Chip.target at e
  dsimp only at e
  split at e
  · cases e; exact h
  · split at e
    · cases e; exact h
    · split at e
      · cases e
      · rename_i taken
        cases e
        rw [Chip.rehold_bytes, Chip.putSlot_bytes]
        exact Chip.wf_copyPlaces _ _ _ _ (Chip.take_bytes taken ▸ h)

/-- A chiplet with the same page bytes takes the place of one. -/
theorem MemWf.putChipAs {s : State} (d : Nat) {c : Chip} (h : MemWf s) (hc : c.bytes = (s.chip d).bytes) : MemWf (s.putChip d c) :=
  h.putChip d (hc ▸ h.chip d)

/-! ### What the commands share (R90, R224) -/

theorem Kept.readData {s : State} {va : W64} {w : Nat} {k : State → List Byte → Out} (h : MemWf s)
    (hk : ∀ t bs, MemWf t → Kept (k t bs)) : Kept (s.readData va w k) :=
  Kept.withImplicit h (Kept.addressed h fun _ _ hu => Kept.readAs hu hk fun _ _ _ hx => Kept.precise _ _ hx)

theorem Kept.checked {α : Type} {s : State} {r : Except Fail α} {k : α → Out} (h : MemWf s) (hk : ∀ x, r = .ok x → Kept (k x)) :
    Kept (s.checked r k) := by
  unfold State.checked
  split
  · exact Kept.precise _ _ h
  · exact hk _ rfl

theorem Kept.answer {s : State} (d : Reg) (n : Nat) (h : MemWf s) : Kept (s.answer d n) := Kept.write _ _ h

/-! ### Immediate commands (R226..R228, R233..R235, R245, R249, R250) -/

theorem Kept.aconfig {s : State} (d a b : Reg) (h : MemWf s) : Kept (execAconfig d a b s) := by
  refine Kept.ite (Kept.precise _ _ h) (Kept.readData h fun t bs ht => ?_)
  dsimp only
  split
  · exact Kept.precise _ _ ht
  · exact Kept.ite (Kept.answer _ _ ht) (Kept.ite (Kept.answer _ _ ht) (Kept.answer _ _ (ht.putChipAs _ rfl)))

theorem Kept.ktload {s : State} (d a b : Reg) (h : MemWf s) : Kept (execKtload d a b s) := by
  refine Kept.ite (Kept.precise _ _ h) (Kept.ite (Kept.next h) (Kept.ite (Kept.answer _ _ h) (Kept.readData h fun t bs ht => ?_)))
  exact Kept.answer _ _ (ht.putChipAs _ (Chip.foldl_bytes (fun _ _ => Chip.putEntry_bytes _ _ _) _ _))

theorem Kept.ktloadSt {s : State} (d a b : Reg) (h : MemWf s) : Kept (execKtloadSt d a b s) := by
  refine Kept.ite (Kept.precise _ _ h) (Kept.ite (Kept.next h) (Kept.ite (Kept.answer _ _ h) (Kept.withImplicit h ?_)))
  exact Kept.addressed h fun _ _ hu => Kept.storeAt hu fun _ hy => Kept.answer _ _ hy

theorem Kept.ktlock {s : State} (d a : Reg) (h : MemWf s) : Kept (execKtlock d a s) := by
  refine Kept.ite (Kept.precise _ _ h) ?_
  split
  · exact Kept.answer _ _ h
  · exact Kept.ite (Kept.answer _ _ h) (Kept.answer _ _ (h.putChipAs _ rfl))

theorem Kept.ktlockUn {s : State} (d a : Reg) (h : MemWf s) : Kept (execKtlockUn d a s) :=
  Kept.ite (Kept.precise _ _ h) (Kept.ite (Kept.answer _ _ (h.putChipAs _ rfl)) (Kept.answer _ _ h))

theorem Kept.kalloc {s : State} (d a b : Reg) (h : MemWf s) : Kept (execKalloc d a b s) :=
  Kept.ite (Kept.precise _ _ h) (Kept.ite (Kept.precise _ _ h) (Kept.checked h fun _ _ =>
    Kept.ite (Kept.answer _ _ h) (Kept.ite (Kept.answer _ _ h) (Kept.answer _ _ (h.putChipAs _ (Chip.fillSlots_bytes _ _ _ _))))))

theorem Kept.kfree {s : State} (d a : Reg) (h : MemWf s) : Kept (execKfree d a s) :=
  Kept.ite (Kept.precise _ _ h) (Kept.checked h fun _ _ => Kept.ite (Kept.answer _ _ h) (Kept.checked h fun _ e =>
    Kept.answer _ _ (h.putChipAs _ (Chip.freeSeq_bytes e))))

/-- Releasing slots, counted, leaves the page bytes. -/
theorem Chip.releases_bytes (ctx : Nat) (slots : List Nat) (acc : Nat × Chip) :
    (slots.foldl (fun (acc : Nat × Chip) i => (acc.1 + (acc.2.release ctx i).1.toNat, (acc.2.release ctx i).2)) acc).2.bytes
      = acc.2.bytes := by
  induction slots generalizing acc with
  | nil => rfl
  | cons i rest ih => rw [List.foldl_cons, ih, Chip.release_bytes]

theorem Kept.kfreeEnt {s : State} (d a b : Reg) (h : MemWf s) : Kept (execKfreeEnt d a b s) :=
  Kept.ite (Kept.precise _ _ h) (Kept.ite (Kept.precise _ _ h) (Kept.checked h fun _ _ =>
    Kept.answer _ _ (h.putChipAs _ (Chip.releases_bytes _ _ _))))

theorem MemWf.reclaimTag {s : State} (ctx owner : Nat) (h : MemWf s) : MemWf (s.reclaimTag ctx owner).2 :=
  h.of_eq rfl (Chip.reclaim_bytes _ _ _ _) (Chip.reclaim_bytes _ _ _ _)

theorem Kept.kreclaim {s : State} (d a : Reg) (h : MemWf s) : Kept (execKreclaim d a s) :=
  Kept.ite (Kept.precise _ _ h) (Kept.answer _ _ (h.reclaimTag _ _))

theorem Kept.cancelReclaim {s : State} (k : Nat) (h : MemWf s) : Kept (execCancelReclaim k s) := by
  have taken : ∀ (p : Prop) [Decidable p] a b ctx owner,
      MemWf ((if p then { s with die0 := a } else { s with die1 := b }).reclaimTag ctx owner).2 := fun _ _ _ _ _ _ =>
    MemWf.reclaimTag _ _ (MemWf.ite h h)
  unfold execCancelReclaim
  split
  · exact Kept.next h
  · exact Kept.ite (Kept.next h) (Kept.next (taken _ _ _ _ _))

theorem Kept.statSeq {s : State} {x : W64} {k : Chip → Nat → KvModel → List KvSpan → Out} (h : MemWf s)
    (hk : ∀ c n m xs, Kept (k c n m xs)) : Kept (s.statSeq x k) :=
  Kept.ite (Kept.precise _ _ h) (Kept.checked h fun _ _ => Kept.checked h fun _ _ => hk _ _ _ _)

theorem Kept.statSpan {s : State} {a b : Reg} {k : KvSpan → Out} (h : MemWf s) (hk : ∀ z, Kept (k z)) : Kept (s.statSpan a b k) :=
  Kept.ite (Kept.precise _ _ h) (Kept.checked h fun _ _ => Kept.ite (Kept.precise _ _ h) (Kept.checked h fun _ _ => hk _))

theorem Kept.krstatSeq {s : State} (d a : Reg) (h : MemWf s) : Kept (execKrstatSeq d a s) := by
  unfold execKrstatSeq
  exact Kept.statSeq h fun _ _ _ _ => Kept.answer _ _ h

theorem Kept.krstatPool {s : State} (d a : Reg) (h : MemWf s) : Kept (execKrstatPool d a s) :=
  Kept.ite (Kept.precise _ _ h) (Kept.answer _ _ h)

theorem Kept.ksplice {s : State} (d a b : Reg) (h : MemWf s) : Kept (execKsplice d a b s) := by
  unfold execKsplice
  refine Kept.ite (Kept.precise _ _ h) (Kept.ite (Kept.precise _ _ h) (Kept.ite (Kept.precise _ _ h) ?_))
  refine Kept.checked h fun _ _ => Kept.ite (Kept.precise _ _ h) (Kept.checked h fun _ _ => Kept.checked h fun _ _ => Kept.checked h fun _ _ => ?_)
  refine Kept.ite (Kept.precise _ _ h) (Kept.checked h fun _ _ => Kept.ite (Kept.answer _ _ h) (Kept.ite (Kept.precise _ _ h) ?_))
  refine Kept.ite (Kept.answer _ _ h) (Kept.ite (Kept.answer _ _ h) (Kept.ite (Kept.answer _ _ h) (Kept.ite (Kept.answer _ _ h) ?_)))
  dsimp only
  split
  · exact Kept.precise _ _ h
  · refine Kept.checked h fun _ _ => Kept.checked h fun _ _ => Kept.answer _ _ (h.putChipAs _ ?_)
    rw [Chip.putSeq_bytes, Chip.shareSlots_bytes, Chip.emptyRun_bytes, Chip.putEntry_bytes]

theorem Kept.kfork {s : State} (d a : Reg) (h : MemWf s) : Kept (execKfork d a s) := by
  unfold execKfork
  refine Kept.readData h fun t bs ht => Kept.ite (Kept.precise _ _ ht) (Kept.ite (Kept.precise _ _ ht) (Kept.ite (Kept.precise _ _ ht)
    (Kept.ite (Kept.precise _ _ ht) ?_)))
  refine Kept.checked ht fun _ _ => Kept.ite (Kept.precise _ _ ht) (Kept.checked ht fun _ _ => Kept.ite (Kept.answer _ _ ht) ?_)
  refine Kept.checked ht fun _ _ => Kept.ite (Kept.answer _ _ ht) (Kept.ite (Kept.answer _ _ ht) (Kept.checked ht fun _ _ => ?_))
  refine Kept.answer _ _ (ht.putChip _ ?_)
  rw [Chip.putSeq_bytes]
  refine Chip.wf_forkRun _ _ _ _ _ _ _ ?_
  rw [Chip.emptyRun_bytes]
  exact ht.chip _

/-! ### The checks of queued commands (R223, R236, R239..R247) -/

/-- The same pages, and the command among the chiplet's. -/
theorem Kept.enqueue {s : State} {k : Nat} {c : Chip} (cmd : AttnCmd) (st : Core → Core) (h : MemWf s)
    (hc : c.bytes = (s.chip k).bytes) : Kept (s.enqueue k c cmd st) := by
  have entered : MemWf (s.putChip k { c with cmds := c.cmds ++ [cmd] }) := h.putChipAs _ hc
  exact Kept.ite (Kept.next (entered.upd _)) (Kept.next (entered.upd _))

theorem Kept.queued {s : State} {a : Reg} {kind : AttnKind} {k : State → Nat → Chip → AttnCmd → Nat → Out} (h : MemWf s)
    (hk : ∀ t n m v, MemWf t → Kept (k t n (t.chip n) m v)) : Kept (s.queued a kind k) := by
  unfold State.queued
  refine Kept.ite (Kept.ite (Kept.pass h) (Kept.next h)) (Kept.ite (Kept.next h) (Kept.readData h fun t bs ht => ?_))
  dsimp only
  split
  · exact Kept.precise _ _ ht
  · exact Kept.checked ht fun _ _ => Kept.ite (Kept.precise _ _ ht) (Kept.checked ht fun _ _ => hk _ _ _ _ ht)

theorem Kept.kappend {s : State} (d a : Reg) (h : MemWf s) : Kept (execKappend d a s) := by
  refine Kept.queued h fun t n m v ht => Kept.checked ht fun r e => ?_
  split
  · exact Kept.answer _ _ ht
  · exact Kept.enqueue _ _ ht (Chip.checkAppend_bytes e)

theorem Kept.aquery {s : State} (a : Reg) (h : MemWf s) : Kept (execAquery a s) :=
  Kept.queued h fun _ _ _ _ ht => Kept.checked ht fun _ _ => Kept.enqueue _ _ ht rfl

theorem Kept.aqueryLoose {s : State} (a : Reg) (h : MemWf s) : Kept (execAqueryLoose a s) :=
  Kept.queued h fun _ _ _ _ ht => Kept.checked ht fun _ _ => Kept.enqueue _ _ ht rfl

theorem Kept.krepairSel {s : State} (a : Reg) (h : MemWf s) : Kept (execKrepairSel a s) :=
  Kept.queued h fun _ _ _ _ ht => Kept.checked ht fun _ _ => Kept.enqueue _ _ ht rfl

theorem Kept.readPosns {s : State} {va : W64} {n : Nat} {k : State → List Nat → Out} (h : MemWf s)
    (hk : ∀ t ps, MemWf t → Kept (k t ps)) : Kept (s.readPosns va n k) := by
  unfold State.readPosns
  refine Kept.ite (hk _ _ h) ?_
  split
  · exact Kept.precise _ _ h
  · refine Kept.ite (Kept.ask h fun t r ht => ?_) (Kept.ite (hk _ _ ((h.pinSpan _ _ _ _).spansRead _)) (Kept.next h))
    split
    · exact hk _ _ ht
    · exact Kept.precise _ _ ht
    all_goals exact Kept.next ht

theorem Kept.krepairPut {s : State} (a : Reg) (h : MemWf s) : Kept (execKrepairPut a s) := by
  refine Kept.queued h fun t n m v ht => Kept.readPosns ht fun u ps hu => ?_
  split
  · exact Kept.precise _ _ hu
  · exact Kept.checked hu fun _ _ => Kept.enqueue _ _ hu rfl

/-! ### Queued commands run (R237..R248) -/

theorem MemWf.putCmd {s : State} (d k : Nat) (m : AttnCmd) (h : MemWf s) : MemWf (s.putCmd d k m) := h.putChipAs _ rfl

theorem MemWf.endCmd {s : State} (d : Nat) (m : AttnCmd) (h : MemWf s) : MemWf (s.endCmd d m) := by
  have left : ∀ c, MemWf ((s.putChip d ((s.chip d).dropCmds d fun x => x.core == m.core && x.num == m.num)).upd c) := fun c =>
    (h.putChipAs _ (Chip.dropCmds_bytes _ _ _)).upd c
  have credited : ∀ c, MemWf (if m.bar = 0 then (s.putChip d ((s.chip d).dropCmds d fun x => x.core == m.core && x.num == m.num)).upd c
      else if m.fault.isSome then
        ((s.putChip d ((s.chip d).dropCmds d fun x => x.core == m.core && x.num == m.num)).upd c).creditVa m.core m.bar 0 true m.word 4
      else ((s.putChip d ((s.chip d).dropCmds d fun x => x.core == m.core && x.num == m.num)).upd c).creditVa m.core m.bar (m.wrote + 16)
        false m.word 4) := fun c =>
    MemWf.ite (left c) (MemWf.ite ((left c).creditVa _ _ _ _ _ _) ((left c).creditVa _ _ _ _ _ _))
  unfold State.endCmd
  dsimp only
  split
  · exact (credited _).charge _ _
  · exact credited _

theorem MemWf.lostAt {s : State} (m : AttnCmd) (a n : Nat) (h : MemWf s) : MemWf (s.lostAt m a n) :=
  h.foldl (fun _ _ ht => MemWf.ite (ht.chargeOnce _ _) ht) _

theorem Kept.attnAsk {s : State} {va : W64} {op : RemoteOp} {k : State → FabricReply → Out} (h : MemWf s)
    (hk : ∀ t r, MemWf t → Kept (k t r)) : Kept (s.attnAsk va op k) := by
  unfold State.attnAsk
  split
  · exact Kept.ask h hk
  · exact Kept.ite (Kept.ask h hk) (Kept.next h)

theorem Kept.attnRead {s : State} {m : AttnCmd} {va : W64} {n : Nat} {k : State → List Byte → Out} {bad : State → Cause → W64 → Out}
    (h : MemWf s) (hk : ∀ t bs, MemWf t → Kept (k t bs)) (hb : ∀ t c v, MemWf t → Kept (bad t c v)) : Kept (s.attnRead m va n k bad) := by
  unfold State.attnRead
  split
  · exact hb _ _ _ h
  · refine Kept.ite (Kept.attnAsk h fun t r ht => ?_) (Kept.ite (Kept.next h) (hk _ _ (((h.pin _ _ _).lostAt _ _ _).homeRead _ _)))
    split
    · exact hk _ _ ht
    · exact hb _ _ _ ht
    all_goals exact hk _ _ ht

theorem Kept.attnWrite {s : State} {m : AttnCmd} {va : W64} {bs : List Byte} {k : State → Out} {bad : State → Cause → W64 → Out}
    (h : MemWf s) (hk : ∀ t, MemWf t → Kept (k t)) (hb : ∀ t c v, MemWf t → Kept (bad t c v)) : Kept (s.attnWrite m va bs k bad) := by
  unfold State.attnWrite
  split
  · exact hb _ _ _ h
  · refine Kept.ite (Kept.attnAsk h fun t r ht => ?_) (Kept.ite (Kept.next h) (hk _ ((h.pin _ _ _).homeWrite _ _)))
    split
    · exact hb _ _ _ ht
    all_goals exact hk _ ht

theorem MemWf.attnAct {s : State} (d k : Nat) (m : AttnCmd) (h : MemWf s) : MemWf (s.attnAct d k m) := by
  have wrote : MemWf (if m.tokens = m.kind.count (quad m.desc 0) then s.putCmd d k { m with count := m.kind.count (quad m.desc 0), stage := 3 }
      else match m.tokenAt m.tokens with
        | none => s.putCmd d k { m with tokens := m.tokens + 1 }
        | some (slot, place) =>
          match (s.chip d).target m slot with
          | none => s.putCmd d k (m.fail .kvempty 0)
          | some (f, forked, c1) =>
            (s.putChip d (c1.putToken m.model f place ((m.input.drop (m.tokens * m.model.tokenBytes)).take m.model.tokenBytes))).putCmd d k
              { m with tokens := m.tokens + 1, forked := m.forked || forked }) := by
    refine MemWf.ite (h.putCmd _ _ _) ?_
    split
    · exact h.putCmd _ _ _
    · split
      · exact h.putCmd _ _ _
      · rename_i e
        exact (h.putChip _ (Chip.wf_putToken _ _ _ _ (Chip.wf_target (h.chip _) e))).putCmd _ _ _
  unfold State.attnAct
  dsimp only
  split
  · exact h.putCmd _ _ _
  · exact h.putCmd _ _ _
  · exact wrote
  · exact wrote

theorem MemWf.completeCmd {s : State} (d : Nat) (m : AttnCmd) (h : MemWf s) : MemWf (s.completeCmd d m) :=
  MemWf.endCmd _ _ (MemWf.ite (h.putChipAs _ (Chip.advance_bytes _ _)) h)

theorem Kept.attnMove {s : State} (d k : Nat) (m : AttnCmd) (h : MemWf s) : Kept (s.attnMove d k m) := by
  unfold State.attnMove
  dsimp only
  split
  · exact Kept.ite (Kept.next (h.putCmd _ _ _)) (Kept.attnRead h (fun _ _ ht => Kept.next (ht.putCmd _ _ _)) fun _ _ _ ht =>
      Kept.next (ht.putCmd _ _ _))
  · exact Kept.next (h.attnAct _ _ _)
  · exact Kept.ite (Kept.next (h.putCmd _ _ _)) (Kept.attnWrite h (fun _ ht => Kept.next (ht.putCmd _ _ _)) fun _ _ _ ht =>
      Kept.next (ht.putCmd _ _ _))
  · exact Kept.attnWrite h (fun _ ht => Kept.next (ht.completeCmd _ _)) fun _ _ _ ht => Kept.next (ht.endCmd _ _)

theorem MemWf.attnRuns (d core num n : Nat) {s : State} (h : MemWf s) : MemWf (State.attnRuns d core num n s) := by
  induction n generalizing s with
  | zero => exact h
  | succ n ih =>
    unfold State.attnRuns
    dsimp only
    split
    · exact h
    · split
      · rename_i e
        have moved := Kept.attnMove _ _ _ h _ e
        exact MemWf.ite moved (ih moved)
      · exact h
      · exact h

theorem Kept.attnCommandRun {s : State} (chip k : Nat) (h : MemWf s) : Kept (execAttnCommandRun chip k s) := by
  unfold execAttnCommandRun
  refine Kept.ite (Kept.next h) ?_
  split
  · exact Kept.next h
  · refine Kept.ite (Kept.next h) ?_
    dsimp only
    split
    · rename_i e
      have begun : ∀ n c b, MemWf (State.putCmd { (s.focus n).upd c with unit := Agent.attn } chip k b) := fun _ _ _ =>
        MemWf.putCmd _ _ _ (h.focus _)
      have moved := Kept.attnMove _ _ _ (begun _ _ _) _ e
      exact Kept.ite (Kept.next (moved.attnRuns _ _ _ _)) (Kept.ite (Kept.next h) (Kept.next moved))
    · exact fun _ e => nomatch e
    · exact fun _ e => nomatch e

theorem Kept.aqueryWaitEnd {s : State} (chip k : Nat) (h : MemWf s) : Kept (execAqueryWaitEnd chip k s) := by
  refine Kept.ite (Kept.next h) ?_
  dsimp only
  split
  · exact Kept.next h
  · exact Kept.ite (Kept.next h) (Kept.next (h.putCmd _ _ _))

end Sys2Proof.Machine
end

