-- ==== Sys2Proof/Proofs/KeepsTasks.lean ====
section
/-! SUPPORT. Proofs/KeepsTasks.lean: the batch former, the CSRs, the Ringmaster, and pre-emption keep memory in its canonical form. -/

namespace Sys2Proof.Machine

/-! ### The batch former (R133..R137, R330, R331, R400) -/

theorem Kept.bcfg {s : State} (d a b : Reg) (h : MemWf s) : Kept (execBcfg d a b s) := by
  unfold execBcfg
  refine Kept.ite (Kept.precise _ _ h) (Kept.ite (Kept.write _ _ h) (Kept.ite (Kept.write _ _ h)
    (Kept.ite (Kept.write _ _ (h.putDie _ _)) (Kept.withImplicit h (Kept.addressed h fun u pa hu => ?_)))))
  exact Kept.readAs hu (fun x _ hx => Kept.ite (Kept.write _ _ hx) (Kept.ite (Kept.write _ _ hx) (Kept.write _ _ (hx.putDie _ _))))
    fun _ _ _ hx => Kept.precise _ _ hx

theorem Kept.bsub {s : State} (d a b : Reg) (h : MemWf s) : Kept (execBsub d a b s) := by
  unfold execBsub
  dsimp only
  split
  · exact Kept.write _ _ h
  · exact Kept.ite (Kept.write _ _ (h.putDie _ _)) (Kept.write _ _ (h.putDie _ _))

theorem Kept.bclose {s : State} (d a : Reg) (h : MemWf s) : Kept (execBclose d a s) := by
  unfold execBclose
  dsimp only
  split
  · exact Kept.write _ _ h
  · exact Kept.ite (Kept.write _ _ (h.putDie _ _)) (Kept.write _ _ (h.putDie _ _))

theorem Kept.barkerWindowExpiry {s : State} (die bin : Nat) (h : MemWf s) : Kept (execBarkerWindowExpiry die bin s) := by
  unfold execBarkerWindowExpiry
  split
  · exact Kept.next h
  · exact Kept.ite (Kept.next (h.putDie _ _)) (Kept.next h)

theorem MemWf.barkerJournal {s : State} (b : Bin) (e : Option Fail) (h : MemWf s) : MemWf (s.barkerJournal b e) := h.journal _ _ _ _ _

theorem MemWf.addLaunch {s : State} (src : LaunchSrc) (ctx : Nat) (r : List W64) (h : MemWf s) : MemWf (s.addLaunch src ctx r) := h

theorem MemWf.barkerLaunch {s : State} (die bin : Nat) (b : Bin) (slot : Nat) (h : MemWf s) : MemWf (s.barkerLaunch die bin b slot) := by
  unfold State.barkerLaunch
  split
  · exact (h.homeWrite _ _).barkerJournal _ _
  · rename_i t _
    have read : MemWf (s.homeRead t 128).2 := h.homeRead t 128
    exact MemWf.ite ((read.homeWrite _ _).barkerJournal _ _) (read.addLaunch _ _ _)

theorem Kept.barkerLaunch {s : State} (die bin : Nat) (h : MemWf s) : Kept (execBarkerLaunch die bin s) := by
  unfold execBarkerLaunch
  split
  · exact Kept.next h
  · refine Kept.ite (Kept.next h) ?_
    dsimp only
    split
    · exact Kept.next ((h.barkerJournal _ _).putDie _ _)
    · exact Kept.next ((h.barkerJournal _ _).putDie _ _)
    · exact Kept.next (((h.homeWrite _ _).barkerLaunch _ _ _ _).putDie _ _)

/-! ### CSRs (R44, R82, R316) -/

theorem Kept.csrWrite {s : State} (i : Instr) (op n : Nat) (d : Reg) (old x : W64) (h : MemWf s) : Kept (s.csrWrite i op n d old x) := by
  unfold State.csrWrite
  refine Kept.ite ?_ (Kept.ite (Kept.next h) (Kept.write _ _ h))
  dsimp only
  split
  · exact Kept.next (h.carFirst ‹_›)
  · exact Kept.preciseWord _ _ h
  · exact Kept.ite (Kept.next h) (Kept.write _ _ ((h.putCar _ _).upd _))

theorem Kept.csr {s : State} (i : Instr) (op : Nat) (d a : Reg) (n : Nat) (h : MemWf s) : Kept (s.csr i op d a n) := by
  unfold State.csr
  split
  · exact Kept.preciseWord _ _ h
  · exact Kept.ite (Kept.write _ _ (h.upd _)) (Kept.ite (Kept.preciseWord _ _ h)
      (Kept.ite (Kept.preciseWord _ _ h) (Kept.csrWrite _ _ _ _ _ _ h)))

/-! ### Trees and cancels (R116, R123, R324..R328) -/

theorem Kept.treeNew {s : State} (d a : Reg) (h : MemWf s) : Kept (execTreeNew d a s) := by
  unfold execTreeNew
  refine Kept.ite (Kept.precise _ _ h) ?_
  dsimp only
  split
  · exact Kept.write _ _ (h.putDie _ _)
  · exact Kept.write _ _ h

theorem Kept.treeClose {s : State} (d a : Reg) (h : MemWf s) : Kept (execTreeClose d a s) := by
  unfold execTreeClose
  refine Kept.ite (Kept.precise _ _ h) ?_
  split
  · exact Kept.write _ _ h
  · exact Kept.write _ _ (h.putDie _ _)

theorem MemWf.onStrand {s : State} (id : W32) (b : Tcb) (f : Core → Core) (h : MemWf s) : MemWf (s.onStrand id b f) :=
  MemWf.ite (h.putCore _) h

theorem MemWf.oweReclaim {s : State} (named roots : List W32) (id : W32) (b : Tcb) (h : MemWf s) : MemWf (s.oweReclaim named roots id b) :=
  MemWf.ite h (h.putDie _ _)

theorem MemWf.cancelBlock {s : State} (hard : Bool) (id : W32) (h : MemWf s) : MemWf (s.cancelBlock hard id) := by
  unfold State.cancelBlock
  split
  · exact h
  · split
    · exact h.endTask _ _
    · exact h.endTask _ _
    · exact h.endTask _ _
    · exact MemWf.ite (((h.putTcb _ _).journal _ _ _ _ _).onStrand _ _ _) (h.onStrand _ _ _)
    all_goals exact h

theorem MemWf.markCanf {s : State} (id : W32) (h : MemWf s) : MemWf (s.markCanf id) := by
  unfold State.markCanf
  split
  · exact h.putTcb _ _
  · exact h

theorem MemWf.cancelOn {s : State} (die : Nat) (named roots : List W32) (hard : Bool) (h : MemWf s) :
    MemWf (s.cancelOn die named roots hard).2 := by
  have owed : ∀ ids : List W32, MemWf (ids.foldl (fun t id => match t.tcb? id with
      | some b => t.oweReclaim named roots id b
      | none => t) s) := fun ids => h.foldl (fun t id ht => by split; exacts [ht.oweReclaim _ _ _ _, ht]) ids
  exact ((owed _).foldl (fun _ _ ht => ht.markCanf _) _).foldl (fun _ _ ht => ht.cancelBlock _ _) _

theorem Kept.cancelFrom {s : State} {die : Nat} {roots : List W32} {hard counted : Bool} {d : Reg} {after : State → State} (h : MemWf s)
    (ha : ∀ t, MemWf t → MemWf (after t)) : Kept (s.cancelFrom die roots hard counted d after) := by
  have done := ha _ (h.cancelOn die roots roots hard)
  unfold State.cancelFrom
  generalize s.cancelOn die roots roots hard = r at done ⊢
  exact Kept.ite (Kept.write _ _ done) (Kept.next done)

theorem Kept.cancelTask {s : State} (d a : Reg) (hard : Bool) (h : MemWf s) : Kept (s.cancelTask d a hard) := by
  unfold State.cancelTask
  refine Kept.ite (Kept.next h) (Kept.ite (Kept.precise _ _ h) ?_)
  split
  · exact Kept.write _ _ h
  · exact Kept.cancelFrom h fun _ ht => ht

theorem Kept.cancelForward {s : State} (k : Nat) (h : MemWf s) : Kept (execCancelForward k s) := by
  have cancelled : ∀ cs named roots die hard,
      MemWf ((State.joinReclaims { s with cancels := cs } named roots).cancelOn die named roots hard).2 := fun _ _ _ _ _ =>
    MemWf.cancelOn _ _ _ _ h
  unfold execCancelForward
  split
  · exact Kept.next h
  · dsimp only
    generalize e : State.cancelOn _ _ _ _ _ = r
    have done : MemWf r.2 := e ▸ cancelled _ _ _ _ _
    exact Kept.ite (Kept.next (done.putCore _)) (Kept.next done)

theorem Kept.treeKill {s : State} (d a : Reg) (h : MemWf s) : Kept (execTreeKill d a s) := by
  unfold execTreeKill
  refine Kept.ite (Kept.next h) (Kept.ite (Kept.precise _ _ h) ?_)
  split
  · exact Kept.write _ _ h
  · exact Kept.cancelFrom (h.putDie _ _) fun _ ht => MemWf.ite (ht.putDie _ _) ht

/-! ### Tasks (R117, R118, R120..R122, R322) -/

theorem MemWf.spawnIn {s : State} (die num idx : Nat) (desc arg : W64) (h : MemWf s) : MemWf (s.spawnIn die num idx desc arg).2 := by
  have joined : ∀ (j : Bool) (cur : Option (W32 × Tcb)) (id : W32) (t : State), MemWf t → MemWf (match j, cur with
      | true, some c => (id, match t.tcb? c.1 with | some k => t.putTcb c.1 { k with pend := k.pend + 1 } | none => t)
      | _, _ => (id, t)).2 := by
    intro j cur id t ht
    split
    · dsimp only
      split
      · exact ht.putTcb _ _
      · exact ht
    · exact ht
  exact joined _ _ _ _ (h.readyBlock _ _)

theorem Kept.spawn {s : State} (d a b : Reg) (h : MemWf s) : Kept (execSpawn d a b s) := by
  unfold execSpawn
  refine Kept.ite (Kept.precise _ _ h) (Kept.ite (Kept.precise _ _ h) (Kept.ite (Kept.preciseWord _ _ h) ?_))
  dsimp only
  split
  · exact Kept.ite (Kept.write _ _ h) (Kept.write _ _ (h.spawnIn _ _ _ _ _))
  · exact Kept.write _ _ h

theorem MemWf.rekey {s : State} (id : W32) (f : W32 → W32) (h : MemWf s) : MemWf (s.rekey id f) := by
  unfold State.rekey
  split
  · exact h
  · exact MemWf.ite (h.readyBlock _ _) (h.putTcb _ _)

theorem MemWf.reprio {s : State} (ids : List W32) (f : W32 → W32) (h : MemWf s) : MemWf (s.reprio ids f).2 :=
  h.foldl (fun _ _ ht => ht.rekey _ _) _

theorem Kept.reprio {s : State} (d a b : Reg) (h : MemWf s) : Kept (execReprio d a b s) := by
  unfold execReprio
  refine Kept.ite (Kept.precise _ _ h) ?_
  split
  · exact Kept.write _ _ h
  · exact Kept.write _ _ (h.reprio _ _)

theorem Kept.reprioSub {s : State} (d a b : Reg) (h : MemWf s) : Kept (execReprioSub d a b s) := by
  unfold execReprioSub
  refine Kept.ite (Kept.precise _ _ h) ?_
  split
  · exact Kept.write _ _ h
  · exact Kept.write _ _ (h.reprio _ _)

theorem Kept.pick {s : State} (d a : Reg) (h : MemWf s) : Kept (execPick d a s) := by
  unfold execPick
  dsimp only
  split
  · exact Kept.next (MemWf.ite (h.upd _) h)
  · exact Kept.ite (Kept.preciseWord _ _ h) (Kept.ite (Kept.precise _ _ h) (Kept.ite (Kept.next h) (Kept.withImplicit h
      (Kept.atBoundary h fun _ hu => Kept.ite (Kept.next (hu.upd _)) (Kept.next (hu.upd _))))))

theorem MemWf.select {s : State} (die n : Nat) (h : MemWf s) : MemWf (s.select die n) := by
  induction n generalizing s with
  | zero => exact h
  | succ n ih =>
    unfold State.select
    dsimp only
    split
    · exact h
    · split
      · exact h
      · split
        · exact MemWf.ite (h.putDie _ _) (ih (h.putDie _ _))
        · exact ih (h.putDie _ _)
        · exact ih (h.putDie _ _)

theorem Kept.ringmasterSelect {s : State} (die : Nat) (h : MemWf s) : Kept (execRingmasterSelect die s) :=
  Kept.ite (Kept.next (h.select _ _)) (Kept.next h)

theorem Kept.taskStart {s : State} (c : Nat) (h : MemWf s) : Kept (execTaskStart c s) := by
  unfold execTaskStart
  dsimp only
  split
  · exact Kept.next (((h.focus _).newPhase.putTcb _ _).upd _)
  · exact Kept.next h

theorem Kept.done {s : State} (a : Reg) (h : MemWf s) : Kept (execDone a s) := Kept.ite (Kept.preciseWord _ _ h) (Kept.next h)

theorem Kept.join {s : State} (a b : Reg) (h : MemWf s) : Kept (execJoin a b s) :=
  Kept.ite (Kept.preciseWord _ _ h) (Kept.ite (Kept.precise _ _ h) (Kept.next h))

theorem Kept.tstat {s : State} (d a : Reg) (k : Bool) (h : MemWf s) : Kept (execTstat d a k s) := by
  unfold execTstat
  dsimp only
  refine Kept.ite (Kept.ite (Kept.precise _ _ h) ?_) (Kept.ite (Kept.precise _ _ h) ?_)
  all_goals
    split
    · exact Kept.write _ _ h
    · exact Kept.write _ _ h

/-! ### Aborts, pre-emption and resumption (R219, R258, R264, R279, R323, R361, R364..R368, R382) -/

theorem Kept.taskAbort {s : State} (c : Nat) (h : MemWf s) : Kept (execTaskAbort c s) := by
  unfold execTaskAbort
  exact Kept.ite (Kept.next h) (Kept.next (MemWf.abortTask _ _ (MemWf.ite ((h.focus _).upd _) (h.focus _))))

theorem MemWf.revokeBinding {s : State} (c : Nat) (h : MemWf s) : MemWf (s.revokeBinding c) := by
  unfold State.revokeBinding
  split
  · exact h
  · exact MemWf.ite (h.endTask _ _) (h.putDie _ _)

theorem Kept.strandPreempt {s : State} (c : Nat) (h : MemWf s) : Kept (execStrandPreempt c s) := by
  unfold execStrandPreempt
  refine Kept.ite (Kept.next h) (Kept.next (MemWf.upd _ ?_))
  split
  · exact (h.focus _).revokeBinding _
  · exact (h.focus _).dropMonitor _
  · exact h.focus _

theorem Kept.engineContinuationStop {s : State} (c unit : Nat) (h : MemWf s) : Kept (execEngineContinuationStop c unit s) := by
  unfold execEngineContinuationStop
  refine Kept.ite (Kept.next h) ?_
  split
  · split
    · exact Kept.ite (Kept.next (h.putCore _)) (Kept.next h)
    · exact Kept.next h
  · split
    · exact Kept.ite (Kept.next (h.putCore _)) (Kept.next h)
    · exact Kept.next h
  · dsimp only
    split
    · exact Kept.ite (Kept.next (h.putCluster _ _)) (Kept.next h)
    · exact Kept.next h

theorem MemWf.saveStrand {s : State} (l c : Nat) (h : MemWf s) : MemWf (s.saveStrand l c) :=
  MemWf.of_eq ((h.releaseSnaps c).putCore _) rfl rfl rfl

theorem MemWf.saveCluster {s : State} (l g : Nat) (h : MemWf s) : MemWf (s.saveCluster l g) := by
  have saved : ∀ (t : State) c x, MemWf t → MemWf { t.putCluster g c with savedClusters := x } := fun _ _ _ ht => ht
  exact saved _ _ _ (h.foldl (f := fun t f => t.unpin g f) (fun _ _ ht => ht.unpin _ _) _)

theorem MemWf.park {s : State} (l : Launch) (h : MemWf s) : MemWf (s.park l) :=
  (h.foldl (f := fun t (c : Core) => t.saveStrand l.id c.id) (fun _ _ ht => ht.saveStrand _ _) _).foldl
    (f := fun t g => t.saveCluster l.id g) (fun _ _ ht => ht.saveCluster _ _) _

theorem MemWf.parkStopped {s : State} (h : MemWf s) : MemWf s.parkStopped :=
  h.foldl (fun _ _ ht => MemWf.ite (ht.park _) ht) _

theorem MemWf.restoreSnap {s : State} (c : Nat) (n : Snapshot) (h : MemWf s) : MemWf (s.restoreSnap c n) :=
  MemWf.ite (h.putCluster _ _) (h.dropSnap _ _)

theorem MemWf.restoreStrand {s : State} (v : Saved) (h : MemWf s) : MemWf (s.restoreStrand v) := by
  have placed : ∀ y x us, MemWf { s.putCore y with strands := x, units := us } := fun _ _ _ => MemWf.of_eq (h.putCore _) rfl rfl rfl
  have snapped : ∀ (ns : List Snapshot) i (t : State), MemWf t → MemWf ((ns.foldl (fun t n => t.restoreSnap i n) t).focus i) :=
    fun _ _ _ ht => (ht.foldl (fun _ _ hu => hu.restoreSnap _ _) _).focus _
  have looked : ∀ (ls : List PendingLoad) (t : State), MemWf t → MemWf (ls.foldl (fun t p =>
      if p.bytes.all Option.isSome then t else t.look p.addr p.bytes.length) t) := fun _ _ ht =>
    ht.foldl (fun _ _ hu => MemWf.ite hu (hu.look _ _)) _
  unfold State.restoreStrand
  exact (looked _ _ (snapped _ _ _ (placed _ _ _))).focus _

theorem MemWf.emptyCache {s : State} (g : Nat) (h : MemWf s) : MemWf (s.emptyCache g) := h.foldl (fun _ _ ht => ht.expel _ _) _

theorem MemWf.restoreCluster {s : State} (v : SavedCluster) (live : Nat) (h : MemWf s) : MemWf (s.restoreCluster v live) :=
  ((h.emptyCache _).putCluster _ _).rebank _ _

theorem MemWf.mapLaunch {s : State} (i : Nat) (f : Launch → Launch) (h : MemWf s) : MemWf (s.mapLaunch i f) := h

theorem MemWf.shapeFault {s : State} (l : Launch) (v : Option Saved) (h : MemWf s) : MemWf (s.shapeFault l v) :=
  (h.journal _ _ _ _ _).mapLaunch _ _

theorem Kept.contextResume {s : State} (launch : Nat) (h : MemWf s) : Kept (execContextResume launch s) := by
  have taken : ∀ (t : State) a b, MemWf t → MemWf { t with saved := a, savedClusters := b } := fun _ _ _ ht => ht
  have clusters : ∀ (cs : List SavedCluster) (live : SavedCluster → Nat) (t : State), MemWf t →
      MemWf (cs.foldl (fun u v => u.restoreCluster v (live v)) t) := fun _ _ _ ht => ht.foldl (fun _ _ hu => hu.restoreCluster _ _) _
  have strands : ∀ (vs : List Saved) (t : State), MemWf t → MemWf (vs.foldl (fun u v => u.restoreStrand v) t) := fun _ _ ht =>
    ht.foldl (fun _ _ hu => hu.restoreStrand _) _
  unfold execContextResume
  dsimp only
  split
  · exact Kept.next h
  · exact Kept.ite (Kept.next h) (Kept.ite (Kept.next (h.parkStopped.shapeFault _ _))
      (Kept.next ((strands _ _ (clusters _ _ _ (taken _ _ _ h.parkStopped))).mapLaunch _ _)))

theorem Kept.gangStart {s : State} (launch : Nat) (h : MemWf s) : Kept (execGangStart launch s) := by
  unfold execGangStart
  dsimp only
  split
  · exact Kept.next h
  · split
    · exact Kept.next h
    · refine Kept.ite (Kept.next h) ?_
      split
      · exact Kept.next (h.parkStopped.startGang _ _ _)
      · refine Kept.ite (Kept.next h) ?_
        split
        · exact Kept.next h
        · exact Kept.next (h.parkStopped.mapLaunch _ _)

end Sys2Proof.Machine
end

