-- ==== Sys2Proof/Proofs/KeepsDevice.lean ====
section
/-! SUPPORT. Proofs/KeepsDevice.lean: transfer programs, storage errors, the host's accesses, resets and power keep memory in its canonical
form. -/

namespace Sys2Proof.Machine

/-! ### Storage errors and words without a meaning (R41, R76, R358, R369..R371, R401) -/

theorem MemWf.reportEcc {s : State} (a : W64) (ctx : Nat) (finder : Option Nat) (h : MemWf s) : MemWf (s.reportEcc a ctx finder) := by
  unfold State.reportEcc
  split
  · exact h.charge _ _
  · exact h.journal _ _ _ _ _

theorem MemWf.dropClean {s : State} (g l : Nat) (h : MemWf s) : MemWf (s.dropClean g l) := by
  unfold State.dropClean
  dsimp only
  split
  · exact h
  · exact MemWf.ite (h.putCluster _ _) ((h.putCluster _ _).needLine _ _)

theorem MemWf.freeLine {s : State} (l : Nat) (h : MemWf s) : MemWf (s.freeLine l) := by
  have written : ∀ a bs n, MemWf { s with mem := cellPutBytes s.mem a bs, freeCount := n } := fun _ _ _ =>
    h.withMem (wf_cellPutBytes _ _ h.1)
  exact written _ _ _

theorem MemWf.dropCtx {s : State} (i : Nat) (h : MemWf s) : MemWf (s.dropCtx i) := MemWf.of_eq (h.stopCtx i) rfl rfl rfl

theorem MemWf.withLost {s : State} (ls : List Nat) (h : MemWf s) : MemWf { s with lost := ls } := h

theorem MemWf.loseLine {s : State} (l : Nat) (finder : Option Nat) (h : MemWf s) : MemWf (s.loseLine l finder) := by
  have reported := ((h.withdraw l).freeLine l).reportEcc (BitVec.ofNat 64 (l * 128)) 0 finder
  unfold State.loseLine
  exact MemWf.ite reported (MemWf.ite (reported.withLost _) (reported.foldl (fun _ _ ht => (ht.dropCtx _).journal _ _ _ _ _) _))

theorem MemWf.withCancels {s : State} (cs : List CancelFwd) (h : MemWf s) : MemWf { s with cancels := cs } := h

theorem MemWf.killTree {s : State} (die n : Nat) (h : MemWf s) : MemWf (s.killTree die n) := by
  unfold State.killTree
  split
  · exact h
  · have killed := fun x roots => (h.putDie die x).cancelOn die roots roots true
    exact MemWf.ite (MemWf.ite ((killed _ _).putDie _ _) (killed _ _)) (MemWf.withCancels _ (MemWf.ite ((killed _ _).putDie _ _) (killed _ _)))

theorem Kept.residue {s : State} (g k : Nat) (h : MemWf s) : Kept (s.residue g k) := by
  have freed : ∀ c u a n, MemWf { State.putArray { s.focus c with unit := u } a with freeCount := n } := fun c _ _ _ => h.focus c
  unfold State.residue
  split
  · exact Kept.next h
  · split
    · exact Kept.next h
    · exact Kept.ite (Kept.next h) (Kept.faultAt _ _ _ _ (freed _ _ _ _))

theorem Kept.uncorrectableError {s : State} (u : StorageUnit) (h : MemWf s) : Kept (execUncorrectableError u s) := by
  unfold execUncorrectableError
  cases u with
  | cleanLine g l =>
    dsimp only
    split
    · exact Kept.ite (Kept.next (h.dropClean _ _)) (Kept.next h)
    · exact Kept.ite (Kept.next (h.putCluster _ _)) (Kept.next h)
  | onlyCopy l finder => exact Kept.ite (Kept.next h) (Kept.next (h.loseLine _ _))
  | node die i finder =>
    dsimp only
    split
    · exact Kept.next h
    · exact Kept.next ((h.putDie _ _).reportEcc _ _ _)
  | tcb die i =>
    dsimp only
    split
    · exact Kept.next h
    · exact Kept.ite (Kept.next h) (Kept.next ((h.journal _ _ _ _ _).killTree _ _))
  | residue g k => exact Kept.residue g k h

theorem Kept.illegalInstruction {s : State} (sec : CodeSection) (w : W32) (h : MemWf s) : Kept (execIllegalInstruction sec w s) := by
  have program : Kept (match s.prog? with | none => .next s | some p => s.bounded p (s.progFault p .illegal 0)) := by
    split
    · exact Kept.next h
    · exact Kept.bounded h (Kept.progFault _ _ _ h)
  cases sec with
  | sq => exact Kept.precise _ _ h
  | vec => exact Kept.vword h fun _ => Kept.vfault _ _ h
  | mx => exact program
  | xf => exact program

theorem Kept.engFetchFault {s : State} (h : MemWf s) : Kept s.engFetchFault := by
  unfold State.engFetchFault
  split
  · split
    · exact Kept.next h
    · exact Kept.vword h fun _ => Kept.vfault _ _ h
  iterate 4
    split
    · exact Kept.next h
    · exact Kept.bounded h (Kept.progFault _ _ _ h)
  all_goals exact Kept.next h

theorem Kept.fetchFault {s : State} (c : Nat) (h : MemWf s) : Kept (execFetchFault c s) := by
  unfold execFetchFault
  refine Kept.ite (Kept.engFetchFault (h.focus _)) (Kept.ite (Kept.next h) ?_)
  split
  · exact Kept.traps _ _ _ _ (h.focus _)
  · exact Kept.traps _ _ _ _ (h.focus _)
  · exact Kept.traps _ _ _ _ (h.focus _)

/-! ### The host (R373..R378, R388) -/

theorem MemWf.ringWrite {s : State} (acq : Bool) (v : W64) (h : MemWf s) : MemWf (s.ringWrite acq v) := MemWf.ite h (MemWf.ite h h)

theorem MemWf.plainWrite {s : State} (pa : Nat) (v : W64) (h : MemWf s) : MemWf (s.plainWrite pa v) := MemWf.ite h (MemWf.ite h h)

theorem MemWf.bar0Write {s : State} (pa : Nat) (bs : List Byte) (h : MemWf s) : MemWf (s.bar0Write pa bs) := by
  unfold State.bar0Write
  refine MemWf.ite (h.windowRecord _ _ _ _ _) (MemWf.ite h ?_)
  split
  · exact MemWf.ite (h.mapQueue _ _) h
  · exact MemWf.ite (h.ringWrite _ _) (MemWf.ite (h.ringWrite _ _) (MemWf.ite h (h.plainWrite _ _)))

theorem Kept.hostRead {s : State} (a n : Nat) (h : MemWf s) : Kept (execHostRead a n s) := by
  have seen : ∀ bs, MemWf { (s.homeRead a n).2 with hostData := bs } := fun _ => h.homeRead a n
  exact Kept.ite (Kept.next h) (Kept.ite (Kept.next h) (Kept.ite (Kept.next h) (Kept.next (seen _))))

theorem Kept.hostWrite {s : State} (a : Nat) (bs : List Byte) (h : MemWf s) : Kept (execHostWrite a bs s) := by
  have written : ∀ (ps : List (Nat × List Byte)) (t : State), MemWf t → MemWf (ps.foldl (fun u p => u.homeWrite p.1 p.2) t) := fun _ _ ht =>
    ht.foldl (fun _ _ hu => hu.homeWrite _ _) _
  have counted : ∀ (p : Prop) [Decidable p] x, MemWf (if p then { s with telemetry := x } else s) := fun _ _ _ => MemWf.ite h h
  unfold execHostWrite
  exact Kept.ite (Kept.next h) (Kept.ite (Kept.ite (Kept.next h) (Kept.next (h.bar0Write _ _)))
    (Kept.ite (Kept.next h) (Kept.next (written _ _ (counted _ _)))))

/-! ### Resets, bring-up, power (R394, R397..R399) -/

theorem Kept.coldReset {s : State} : Kept (execColdReset s) := Kept.next memWf_reset

theorem Kept.perstRelease {s : State} (h : MemWf s) : Kept (execPerstRelease s) :=
  Kept.ite (Kept.next h) (Kept.ite (Kept.next h) (Kept.next h))

theorem MemWf.withBringup {s : State} (n : Nat) (h : MemWf s) : MemWf { s with bringup := n } := h

theorem MemWf.bringUp {s t : State} (h : MemWf s) (e : s.bringUp = some t) : MemWf t := by
  unfold State.bringUp at e
  split at e
  · cases e
    exact MemWf.withBringup 4 (h.journal 2 0 0 0x00 none)
  · split at e
    · cases e; exact h
    · cases e

theorem wf_mergedMem {s : State} (h : MemWf s) : Memory.wf s.mergedMem = true :=
  wf_foldl _ (fun _ _ hm => wf_cellPutBytes _ _ hm) _ h.1

theorem MemWf.resetPending {s : State} (h : MemWf s) : MemWf s.resetPending := by
  unfold State.resetPending
  split
  · exact h.journalStatus _ _
  · exact h

theorem Kept.warmReset {s : State} (h : MemWf s) : Kept (execWarmReset s) := by
  have merged := wf_mergedMem h
  have kept : ∀ t : State, t.mem = s.mergedMem → t.chip0.bytes = [] → t.chip1.bytes = [] → MemWf t := fun t hm h0 h1 =>
    ⟨hm ▸ merged, h0 ▸ rfl, h1 ▸ rfl⟩
  unfold execWarmReset
  refine Kept.ite (Kept.next h) (Kept.next (MemWf.withAdmin _ (MemWf.journal _ _ _ _ _ (MemWf.resetPending (kept _ rfl rfl rfl)))))

theorem Kept.devassign {s : State} (v : W64) (h : MemWf s) : Kept (execDevassign v s) :=
  Kept.ite (Kept.next h) (Kept.ite (Kept.next h) (Kept.next h))

/-! ### Transfer programs (R76, R187, R213..R218) -/

theorem Kept.transferProgramStart {s : State} (c : Nat) (out : Bool) (h : MemWf s) : Kept (execTransferProgramStart c out s) := by
  unfold execTransferProgramStart
  dsimp only
  split
  · exact Kept.next h
  · refine Kept.ite (Kept.next h) (Kept.fetchCmd (h.focus _) (Kept.next h) fun t ht => ?_)
    split
    · exact Kept.next (((ht.upd _).cutProgram _ _).charge _ _)
    · exact Kept.next (ht.upd _)

theorem Kept.xword {s : State} {out : Bool} {tok : Tok} {work : State → ProgRun → Out} (h : MemWf s)
    (hw : ∀ t p, MemWf t → Kept (work t p)) : Kept (s.xword out tok work) := by
  unfold State.xword
  refine Kept.ite ?_ (Kept.stepWord h hw fun _ q ht => Kept.goOn q ht)
  split
  · exact Kept.next h
  · exact Kept.bounded h (Kept.progFault _ _ _ h)

theorem Kept.xloc {s : State} {p : ProgRun} {x : XLoc} {k : W64 → Out} (h : MemWf s) (hk : ∀ a, Kept (k a)) : Kept (s.xloc p x k) := by
  cases x with
  | stream f => exact hk _
  | mem r => exact Kept.preg h hk

theorem MemWf.stepCredit {s : State} (p : ProgRun) (n : Nat) (h : MemWf s) : MemWf (s.stepCredit p n) :=
  MemWf.ite (h.creditVa _ _ _ _ _ _) h

theorem Kept.moveFault {s : State} (p : ProgRun) (x : XLoc) (off pushed : Nat) (c : Cause) (va : W64) (h : MemWf s) :
    Kept (s.moveFault p x off pushed c va) := Kept.progFail _ _ h

theorem Kept.intoTarget {s : State} {p : ProgRun} {x : XLoc} {base : W64} {total : Nat} {off unit : Nat → Nat}
    {get : State → ProgRun → Nat → (State → ProgRun → List Byte → Out) → Out} {fin : State → ProgRun → Out} (h : MemWf s)
    (hg : ∀ q n give, (∀ t r bs, MemWf t → Kept (give t r bs)) → Kept (get s q n give)) (hf : ∀ q, Kept (fin s q)) :
    Kept (s.intoTarget p x base total off unit get fin) := by
  cases x with
  | stream f =>
    exact Kept.ite (Kept.pushBuf _ _ _ _ h) (Kept.ite (hf _) (Kept.reach h fun q => hg _ _ _ fun t r bs ht => Kept.next (ht.putProg _)))
  | mem r =>
    exact Kept.ite (Kept.engWrite h (fun t c va ht => Kept.moveFault _ _ _ _ _ _ ht) fun t ht => Kept.next (ht.putProg _))
      (Kept.ite (hf _) (hg _ _ _ fun t r bs ht => Kept.next (ht.putProg _)))

/-- The end of a step into a target credits what went to memory. -/
theorem Kept.targetDone {s : State} (y : XLoc) (q r : ProgRun) (n : Nat) (tok : Tok) (h : MemWf s) :
    Kept ((match y with | .mem _ => s.stepCredit q n | .stream _ => s).stepDone r tok) := by
  cases y with
  | stream f => exact Kept.stepDone _ _ h
  | mem l => exact Kept.stepDone _ _ (h.stepCredit _ _)

theorem Kept.xcopy {s : State} (tok : Tok) (x y : XLoc) (l : LReg) (ps pd : Bool) (h : MemWf s) : Kept (execXcopy tok x y l ps pd s) := by
  refine Kept.xword h fun t p ht => Kept.xloc ht fun a => Kept.xloc ht fun b => Kept.preg ht fun n => Kept.intoTarget ht ?_ ?_
  · exact fun q k give hgive => Kept.engRead ht (fun v c va hv => Kept.moveFault _ _ _ _ _ _ hv) fun v bs hv => hgive _ _ _ hv
  · exact fun q => Kept.targetDone y _ _ _ _ ht

theorem Kept.xfill {s : State} (tok : Tok) (y : XLoc) (pat l : LReg) (pd : Bool) (h : MemWf s) : Kept (execXfill tok y pat l pd s) := by
  refine Kept.xword h fun t p ht => Kept.xloc ht fun b => Kept.preg ht fun v => Kept.preg ht fun n => Kept.intoTarget ht ?_ ?_
  · exact fun q k give hgive => hgive _ _ _ ht
  · exact fun q => Kept.targetDone y _ _ _ _ ht

theorem Kept.rowIndex {s : State} {p : ProgRun} {list : Option W64} {k : Nat} {bad : State → Cause → W64 → Out} {give : State → Nat → Out}
    (h : MemWf s) (hb : ∀ t c va, MemWf t → Kept (bad t c va)) (hg : ∀ n, Kept (give s n)) : Kept (s.rowIndex p list k bad give) := by
  unfold State.rowIndex
  split
  · exact hg _
  · exact hg _
  · exact Kept.ite (hb _ _ _ h) (Kept.engRead h hb fun t bs ht => Kept.next (ht.putProg _))

theorem Kept.gather {s : State} (tok : Tok) (b : LReg) (y : XLoc) (i : Option LReg) (n : LReg) (sz : Nat) (h : MemWf s) :
    Kept (s.gather tok b y i n sz) := by
  unfold State.gather
  refine Kept.xword h fun t p ht => Kept.preg ht fun base => Kept.xloc ht fun dst => Kept.preg ht fun cnt => ?_
  have go : ∀ list : Option W64, Kept (t.intoTarget p y dst (low32 cnt) (16 * 2 ^ sz * ·) (fun _ => 0)
      (fun u q k give => u.rowIndex q list k (fun v c va => v.moveFault q y (16 * 2 ^ sz * k) 0 c va) fun v j =>
        v.engRead q (base + BitVec.ofNat 64 (j * (16 * 2 ^ sz))) (16 * 2 ^ sz) (fun v c va => v.moveFault q y (16 * 2 ^ sz * k) 0 c va)
          fun w bs => give w q bs)
      fun u q => (match y with | .mem _ => u.stepCredit q (low32 cnt * (16 * 2 ^ sz)) | .stream _ => u).stepDone
        ((match i with | some r => q.advReg r (4 * low32 cnt) | none => q).advance y (low32 cnt * (16 * 2 ^ sz))) tok) := fun list =>
    Kept.intoTarget ht (fun q k give hgive => Kept.rowIndex ht (fun _ _ _ hv => Kept.moveFault _ _ _ _ _ _ hv) fun j =>
      Kept.engRead ht (fun _ _ _ hv => Kept.moveFault _ _ _ _ _ _ hv) fun w bs hw => hgive _ _ _ hw) fun q => Kept.targetDone y _ _ _ _ ht
  cases i with
  | some r => exact Kept.preg ht fun a => go (some a)
  | none => exact go none

theorem Kept.fromSource {s : State} {p : ProgRun} {x : XLoc} {va : W64} {n off : Nat} {bad : State → Cause → W64 → Out}
    {k : State → ProgRun → List Byte → Out} (h : MemWf s) (hb : ∀ t c va, MemWf t → Kept (bad t c va)) (hk : ∀ q bs, Kept (k s q bs)) :
    Kept (s.fromSource p x va n off bad k) := by
  refine Kept.ite (hk _ _) ?_
  cases x with
  | stream f => exact Kept.popSlot h fun t q bs ht => Kept.next (ht.putProg _)
  | mem r => exact Kept.engRead h hb fun t bs ht => Kept.next (ht.putProg _)

theorem Kept.scatter {s : State} (tok : Tok) (x : XLoc) (b : LReg) (i : Option LReg) (n : LReg) (sz : Nat) (h : MemWf s) :
    Kept (s.scatter tok x b i n sz) := by
  unfold State.scatter
  refine Kept.xword h fun t p ht => Kept.xloc ht fun src => Kept.preg ht fun base => Kept.preg ht fun cnt => ?_
  have fails : ∀ u c va off str, MemWf u → Kept (u.progFail p (u.progReport p c va off str)) := fun _ _ _ _ _ hu => Kept.progFail _ _ hu
  cases i
  case' some r => refine Kept.preg ht fun a => ?_
  all_goals
    refine Kept.ite (Kept.stepDone _ _ (ht.stepCredit _ _)) (Kept.rowIndex ht (fun _ _ _ hv => fails _ _ _ _ _ hv) fun j => ?_)
    dsimp only
    split
    · exact fails _ _ _ _ _ ht
    · exact Kept.fromSource ht (fun _ _ _ hv => fails _ _ _ _ _ hv) fun q bs =>
        Kept.engWrite ht (fun _ _ _ hv => fails _ _ _ _ _ hv) fun _ hw => Kept.next (hw.putProg _)

/-! ### Reductions and circuits (R216..R218, R314..R317) -/

theorem MemWf.withXreds {s : State} (ms : List XredMsg) (h : MemWf s) : MemWf { s with xreds := ms } := h

theorem MemWf.withUnits {s : State} (us : List CircuitUnit) (h : MemWf s) : MemWf { s with units := us } := h

theorem Kept.xred {s : State} (tok : Tok) (x : XLoc) (d n : LReg) (g : UpdTag) (r : LReg) (post : Bool) (h : MemWf s) :
    Kept (execXred tok x d n g r post s) := by
  refine Kept.xword h fun t p ht => Kept.raised ht (Kept.xloc ht fun src => Kept.preg ht fun dst => Kept.preg ht fun cnt =>
    Kept.preg ht fun rid => ?_)
  refine Kept.ite (Kept.progFail _ _ ht) (Kept.ite (Kept.progFail _ _ ht) (Kept.ite (Kept.ite (Kept.hold _ ht) (Kept.stepDone _ _ ht)) ?_))
  dsimp only
  split
  · exact Kept.progFail _ _ ht
  · exact Kept.fromSource ht (fun _ _ _ hv => Kept.progFail _ _ hv) fun q bs => Kept.next (MemWf.putProg _ (ht.withXreds _))

theorem MemWf.xredFault {s : State} (m : XredMsg) (f : Fail) (h : MemWf s) : MemWf (s.xredFault m f) := by
  have left : ∀ ms, MemWf { s with xreds := ms } := fun _ => h
  unfold State.xredFault
  dsimp only
  split
  · exact MemWf.ite ((left _).putCore _) ((left _).chargeLate _ _ _)
  · exact (left _).chargeLate _ _ _

theorem MemWf.putRound {s : State} (r : XredRound) (h : MemWf s) : MemWf (s.putRound r) := h

theorem MemWf.applyXred {s : State} (m : XredMsg) (r : XredRound) (h : MemWf s) : MemWf (s.applyXred m r) := by
  have read := h.homeRead (m.line * 128) 128
  unfold State.applyXred
  generalize s.homeRead (m.line * 128) 128 = x at read ⊢
  dsimp only
  generalize combineBytes m.tag x.1 m.bytes = bs
  have put : ∀ y, MemWf ((x.2.homeWrite (m.line * 128) bs).putRound y) := fun _ => (read.homeWrite _ _).putRound _
  refine MemWf.ite (put _) (MemWf.ite ((put _).chargeLate _ _ _) ?_)
  split
  · exact (put _).sendCredit _ _ _ _ _ _ _ _ _
  · exact (put _).chargeLate _ _ _

theorem Kept.xredContribution {s : State} (k : Nat) (h : MemWf s) : Kept (execXredContribution k s) := by
  unfold execXredContribution
  split
  · exact Kept.next h
  · refine Kept.ite (Kept.next h) ?_
    dsimp only
    split
    · exact Kept.next (h.xredFault _ _)
    · split
      · exact Kept.next (h.xredFault _ _)
      · exact Kept.ite (Kept.next ((h.withXreds _).applyXred _ _)) (Kept.ite (Kept.next h)
          (Kept.ite (Kept.next h) (Kept.next ((h.withXreds _).putRound _))))

theorem Kept.xsend {s : State} (tok : Tok) (x : XLoc) (c : Fin 256) (n : LReg) (post : Bool) (h : MemWf s) :
    Kept (execXsend tok x c n post s) := by
  refine Kept.xword h fun t p ht => ?_
  split
  · exact Kept.progFault _ _ _ ht
  · refine Kept.ite (Kept.progFault _ _ _ ht) (Kept.xloc ht fun src => Kept.preg ht fun cnt => ?_)
    exact Kept.ite (Kept.hold _ ht) (Kept.ite (Kept.stepDone _ _ ht) (Kept.fromSource ht (fun _ _ _ hv => Kept.progFail _ _ hv)
      fun q bs => Kept.next (MemWf.putProg _ (ht.withUnits _))))

theorem Kept.xrecv {s : State} (tok : Tok) (y : XLoc) (c : Fin 256) (n : LReg) (post : Bool) (h : MemWf s) :
    Kept (execXrecv tok y c n post s) := by
  refine Kept.xword h fun t p ht => ?_
  split
  · exact Kept.progFault _ _ _ ht
  · refine Kept.ite (Kept.progFault _ _ _ ht) (Kept.xloc ht fun dst => Kept.preg ht fun cnt => Kept.intoTarget ht ?_ ?_)
    · intro q k give hgive
      split
      · exact Kept.hold _ ht
      · exact hgive _ _ _ (ht.withUnits _)
    · exact fun q => Kept.targetDone y _ _ _ _ ht

theorem Kept.circuitUnitSend {s : State} (k : Nat) (h : MemWf s) : Kept (execCircuitUnitSend k s) := by
  unfold execCircuitUnitSend
  split
  · exact Kept.next h
  · split
    · exact Kept.next h
    · exact Kept.ite (Kept.next h) (Kept.next (h.withUnits _))

theorem Kept.circuitUnitArrive {s : State} (k : Nat) (h : MemWf s) : Kept (execCircuitUnitArrive k s) := by
  unfold execCircuitUnitArrive
  split
  · exact Kept.next h
  · exact Kept.ite (Kept.next h) (Kept.next (h.withUnits _))

theorem Kept.xend {s : State} (tok : Tok) (h : MemWf s) : Kept (execXend tok s) := by
  unfold execXend
  exact Kept.stepWord h (fun _ _ ht => Kept.ite (Kept.hold _ ht) (Kept.tokSend ht fun _ _ hu => Kept.next (hu.dropProg _)))
    fun _ _ ht => Kept.next (ht.dropProg _)

end Sys2Proof.Machine
end

