-- ==== Sys2Proof/Proofs/KeepsStep.lean ====
section
/-! SUPPORT. Proofs/KeepsStep.lean: every instruction and every step of the machine keeps memory in its canonical form (O59). -/

namespace Sys2Proof.Machine

/-- Every instruction keeps memory in canonical form. -/
theorem exec_kept (i : Instr) {s : State} (h : MemWf s) : Kept (exec i s) := by
  cases i with
  | nop | yield => exact Kept.pass h
  | pause | iflush | fmin | fmax | fcmp | j | lset | lsetAdd | tailWrite | correctedError | powerCapExceeded | thermalThrottle
  | thermtrip => exact Kept.next h
  | halt => exact Kept.halt h
  | trap => exact Kept.traps _ _ _ _ h
  | tret => exact Kept.tret h
  | bkpt => exact Kept.bkpt _ h
  | add | sub | mul | mulh | div | divn | rem | remn | and | or | xor | andn | shl | shr | sar | min | max | minn | maxn | slt
  | sltn | seq | sel | clz | ctz | popc | ext | ins | addImm | mulImm | andImm | orImm | xorImm | shlImm | shrImm | sarImm
  | sltImm | sltnImm | seqImm | minImm | maxImm | minnImm | maxnImm | extImm | insImm | lim | fkey => exact Kept.write _ _ h
  | fadd =>
    unfold exec execFadd
    exact Kept.rounded _ _ _ _ h
  | fsub =>
    unfold exec execFsub
    exact Kept.rounded _ _ _ _ h
  | fmul =>
    unfold exec execFmul
    exact Kept.rounded _ _ _ _ h
  | fdiv =>
    unfold exec execFdiv
    exact Kept.rounded _ _ _ _ h
  | fsqrt =>
    unfold exec execFsqrt
    exact Kept.rounded _ _ _ _ h
  | ffma =>
    unfold exec execFfma
    exact Kept.rounded _ _ _ _ h
  | fcvt => exact Kept.fcvt _ _ _ _ _ h
  | beq | bne | blt | bge | bltn | bgen => exact Kept.branch _ _ h
  | jl => exact Kept.call _ _ h
  | jr => exact Kept.jr _ h
  | jlr => exact Kept.jlr _ _ h
  | loop | loopImm => exact Kept.openLoop _ _ _ h
  | lbrk => exact Kept.lbrk h
  | lbrkSq => exact Kept.lbrkSq _ h
  | lidx => exact Kept.lidx _ _ h
  | vrun => exact Kept.vrun _ _ h
  | xrun => exact Kept.xrun _ _ h
  | mtask => exact Kept.mtask _ _ h
  | wait => exact Kept.wait _ _ _ _ h
  | vget => exact Kept.vget _ _ h
  | slack => exact Kept.slack _ _ h
  | bankm => exact Kept.bankm _ _ h
  | ldb | ldbn | ldh | ldhn | ldw | ldwn | ldd => exact Kept.load _ _ _ _ _ h
  | stb | sth | stw | std => exact Kept.storeReg _ _ _ _ h
  | amoSwap | amoAdd | amoAnd | amoOr | amoXor | amoMin | amoMax | amoMinn | amoMaxn | cas => exact Kept.atomic _ _ _ _ _ _ _ h
  | updAddI32 | updAddI64 | updAddF32 | updAddBf16x2 | updMaxI32 | updMinI32 | updMaxN32 | updMinN32 | updMaxF32 | updMinF32
  | updOr | updAnd | updXor => exact Kept.update _ _ _ _ h
  | phase => exact Kept.phase _ _ h
  | fence => exact Kept.fence _ h
  | waita => exact Kept.waita _ _ _ _ _ h
  | pfhL1 | pfhL2 | rsdKeep | rsdLow | rsdClean => exact Kept.hint _ _ _ h
  | barinit => exact Kept.barinit _ _ _ h
  | barexp => exact Kept.barexp _ _ _ h
  | bararr => exact Kept.bararr _ _ _ _ h
  | barwait => exact Kept.barwait _ _ _ _ h
  | bartest => exact Kept.bartest _ _ _ _ h
  | enq => exact Kept.enq _ _ _ h
  | waitq => exact Kept.waitq _ _ h
  | dq => exact Kept.dq _ _ _ h
  | treeNew => exact Kept.treeNew _ _ h
  | treeClose => exact Kept.treeClose _ _ h
  | treeKill => exact Kept.treeKill _ _ h
  | spawn => exact Kept.spawn _ _ _ h
  | pick => exact Kept.pick _ _ h
  | done => exact Kept.done _ h
  | join => exact Kept.join _ _ h
  | reprio => exact Kept.reprio _ _ _ h
  | reprioSub => exact Kept.reprioSub _ _ _ h
  | cancelSoft | cancelHard => exact Kept.cancelTask _ _ _ h
  | tstat => exact Kept.tstat _ _ _ h
  | nalloc => exact Kept.nalloc _ _ _ h
  | nallocFree => exact Kept.nallocFree _ _ _ h
  | ninit => exact Kept.ninit _ _ _ h
  | nrd => exact Kept.nrd _ _ _ h
  | nvl => exact Kept.nvl _ _ h
  | nback => exact Kept.nback _ _ h
  | nbackAlt => exact Kept.nbackAlt _ _ h
  | nsel => exact Kept.nsel _ _ h
  | bcfg => exact Kept.bcfg _ _ _ h
  | bsub => exact Kept.bsub _ _ _ h
  | bclose => exact Kept.bclose _ _ h
  | aconfig => exact Kept.aconfig _ _ _ h
  | ktload => exact Kept.ktload _ _ _ h
  | ktloadSt => exact Kept.ktloadSt _ _ _ h
  | ktlock => exact Kept.ktlock _ _ h
  | ktlockUn => exact Kept.ktlockUn _ _ h
  | kappend => exact Kept.kappend _ _ h
  | aquery => exact Kept.aquery _ h
  | aqueryLoose => exact Kept.aqueryLoose _ h
  | ksplice => exact Kept.ksplice _ _ _ h
  | krepairSel => exact Kept.krepairSel _ h
  | krepairPut => exact Kept.krepairPut _ h
  | krstatSeq => exact Kept.krstatSeq _ _ h
  | krstatSpan =>
    unfold exec execKrstatSpan
    exact Kept.statSpan h fun _ => Kept.answer _ _ h
  | krstatDelta =>
    unfold exec execKrstatDelta
    exact Kept.statSpan h fun _ => Kept.write _ _ h
  | krstatPool => exact Kept.krstatPool _ _ h
  | kalloc => exact Kept.kalloc _ _ _ h
  | kfree => exact Kept.kfree _ _ h
  | kfreeEnt => exact Kept.kfreeEnt _ _ _ h
  | kfork => exact Kept.kfork _ _ h
  | kreclaim => exact Kept.kreclaim _ _ h
  | csrr | csrw | csrs | csrc => exact Kept.csr _ _ _ _ _ h
  | vadd | vsub | vmul | vmin | vmax => exact Kept.vint _ _ _ _ _ _ _ h
  | vmulh =>
    unfold exec execVmulh
    exact Kept.vint _ _ _ _ _ _ _ h
  | vabs =>
    unfold exec execVabs
    exact Kept.vint _ _ _ _ _ _ _ h
  | vneg =>
    unfold exec execVneg
    exact Kept.vint _ _ _ _ _ _ _ h
  | vand | vor | vxor | vshl | vshr | vsar | vsel | vperm | vslide | vbcast | viota => exact Kept.vmap _ _ _ h
  | vfadd | vfsub | vfmul | vfdiv | vfma | vfsqrt | vfrcp => exact Kept.vfp _ _ _ _ h
  | vfmin =>
    unfold exec execVfmin
    exact Kept.vfp _ _ _ _ h
  | vfmax =>
    unfold exec execVfmax
    exact Kept.vfp _ _ _ _ h
  | vfexp2 =>
    unfold exec execVfexp2
    exact Kept.vfp _ _ _ _ h
  | vcmp => exact Kept.vcmp _ _ _ _ _ _ h
  | mand | mor | mnot => exact Kept.vmask _ _ h
  | mpopc | mfirst | vrsum => exact Kept.vlatch _ _ h
  | vcvt => exact Kept.vcvt _ _ _ _ _ h
  | vqenc => exact Kept.vqenc _ _ h
  | vqdec => exact Kept.vqdec _ _ h
  | vunpk3 => exact Kept.vunpk3 _ _ _ h
  | vtacc => exact Kept.vtacc _ _ _ _ _ h
  | vrfsum => exact Kept.vrfsum _ _ _ h
  | vrmin | vrmax => exact Kept.vextreme _ _ _ _ _ _ _ h
  | vld => exact Kept.vld _ _ _ _ h
  | vst => exact Kept.vst _ _ _ _ h
  | vlds => exact Kept.vlds _ _ _ _ _ h
  | vsts => exact Kept.vsts _ _ _ _ _ h
  | vgath => exact Kept.vgath _ _ _ _ _ h
  | vscat => exact Kept.vscat _ _ _ _ _ h
  | vpushc => exact Kept.vpushc _ _ _ h
  | vpopf => exact Kept.vpopf _ _ _ h
  | vstat => exact Kept.vstat _ _ _ h
  | vlkup => exact Kept.vlkup _ _ _ _ _ h
  | vrand => exact Kept.vrand _ _ _ h
  | vrseed => exact Kept.vrseed _ _ _ h
  | vrskip => exact Kept.vrskip _ _ h
  | vshape => exact Kept.vshape _ _ h
  | vend => exact Kept.vend h
  | mwld => exact Kept.mwld _ _ _ _ h
  | mswap => exact Kept.mswap _ h
  | mstrm => exact Kept.mstrm _ _ _ h
  | mmac => exact Kept.mmac _ _ _ _ _ h
  | mzero => exact Kept.mzero _ _ _ _ _ h
  | mdrainMem | mdrainAcc | mdrainStr => exact Kept.mdrain _ _ _ _ _ _ _ _ h
  | mloop =>
    unfold exec execMloop
    exact Kept.loopWord _ _ _ h
  | mloopReg =>
    unfold exec execMloopReg
    exact Kept.loopWord _ _ _ h
  | xloop =>
    unfold exec execXloop
    exact Kept.loopWord _ _ _ h
  | xloopReg =>
    unfold exec execXloopReg
    exact Kept.loopWord _ _ _ h
  | mwaitb | xwaitb => exact Kept.waitb _ _ _ h
  | mend => exact Kept.mend _ h
  | xcopy => exact Kept.xcopy _ _ _ _ _ _ h
  | xgath =>
    unfold exec execXgath
    exact Kept.gather _ _ _ _ _ _ h
  | xgathC =>
    unfold exec execXgathC
    exact Kept.gather _ _ _ _ _ _ h
  | xscat =>
    unfold exec execXscat
    exact Kept.scatter _ _ _ _ _ _ h
  | xscatC =>
    unfold exec execXscatC
    exact Kept.scatter _ _ _ _ _ _ h
  | xfill => exact Kept.xfill _ _ _ _ _ h
  | xred => exact Kept.xred _ _ _ _ _ _ _ h
  | xsend => exact Kept.xsend _ _ _ _ _ h
  | xrecv => exact Kept.xrecv _ _ _ _ _ h
  | xend => exact Kept.xend _ h
  | pauseEnd => exact Kept.pauseEnd _ h
  | loopEndCheck => exact Kept.loopEndCheck _ h
  | loadDataReturn => exact Kept.loadDataReturn _ _ h
  | waitaWake => exact Kept.waitaWake _ h
  | barwaitWake => exact Kept.barwaitWake _ h
  | barrierCredit => exact Kept.barrierCredit _ h
  | waitqWake => exact Kept.waitqWake _ h
  | ringmasterSelect => exact Kept.ringmasterSelect _ h
  | taskStart => exact Kept.taskStart _ h
  | cancelForward => exact Kept.cancelForward _ h
  | cancelReclaim => exact Kept.cancelReclaim _ h
  | walkForward => exact Kept.walkForward _ h
  | barkerWindowExpiry => exact Kept.barkerWindowExpiry _ _ h
  | barkerLaunch => exact Kept.barkerLaunch _ _ h
  | attnCommandRun => exact Kept.attnCommandRun _ _ h
  | aqueryWaitEnd => exact Kept.aqueryWaitEnd _ _ h
  | vectorBlockStart => exact Kept.vectorBlockStart _ h
  | mwldLoadDone => exact Kept.mwldLoadDone _ _ h
  | tileTaskIssue => exact Kept.tileTaskIssue _ h
  | xredContribution => exact Kept.xredContribution _ h
  | transferProgramStart => exact Kept.transferProgramStart _ _ h
  | circuitUnitSend => exact Kept.circuitUnitSend _ h
  | circuitUnitArrive => exact Kept.circuitUnitArrive _ h
  | storeArrival => exact Kept.storeArrival _ _ h
  | commitMarker => exact Kept.commitMarker _ _ h
  | commitFlip => exact Kept.commitFlip _ h
  | flipNotice => exact Kept.flipNotice _ _ h
  | fenceMarker => exact Kept.fenceMarker _ _ h
  | markerAck => exact Kept.markerAck _ _ h
  | homeReadRequest => exact Kept.homeReadRequest _ h
  | homeGrantRequest => exact Kept.homeGrantRequest _ h
  | homeUpdRequest => exact Kept.homeUpdRequest _ h
  | fullMerge => exact Kept.fullMerge _ h
  | writeBack => exact Kept.writeBack _ h
  | parkedPartial => exact Kept.parkedPartial _ h
  | probeRead => exact Kept.probeRead _ h
  | probeInvalidate => exact Kept.probeInvalidate _ h
  | probeMerge => exact Kept.probeMerge _ h
  | dataReply => exact Kept.dataReply _ h
  | shootdown => exact Kept.shootdown _ h
  | leaseExpiry => exact Kept.leaseExpiry _ h
  | remoteAccess => exact Kept.remoteAccess _ _ _ _ h
  | remoteCommitBatch => exact Kept.remoteCommitBatch _ _ _ h
  | fabricTimeout => exact Kept.fabricTimeout _ h
  | taskEnd => exact Kept.taskEnd _ h
  | instanceStart => exact Kept.instanceStart _ h
  | taskAbort => exact Kept.taskAbort _ h
  | strandPreempt => exact Kept.strandPreempt _ h
  | engineContinuationStop => exact Kept.engineContinuationStop _ _ h
  | contextResume => exact Kept.contextResume _ h
  | recordTake => exact Kept.recordTake _ h
  | gangStart => exact Kept.gangStart _ h
  | launchComplete => exact Kept.launchComplete _ h
  | queueSwitchIn => exact Kept.queueSwitchIn _ h
  | queueSwitchOut => exact Kept.queueSwitchOut _ h
  | enqueueWindowWrite => exact Kept.enqueueWindowWrite _ _ _ h
  | fabricRecord => exact Kept.fabricRecord _ _ _ _ _ h
  | hostRead => exact Kept.hostRead _ _ h
  | hostWrite => exact Kept.hostWrite _ _ h
  | asqtail => exact Kept.ite (Kept.next h) (Kept.next h)
  | adminRingBaseWrite => exact Kept.ite (Kept.next h) (Kept.next (h.ringWrite _ _))
  | registerWrite => exact Kept.ite (Kept.next h) (Kept.next (h.plainWrite _ _))
  | ctxCreate => exact Kept.ctxCreate _ h
  | ctxDestroy => exact Kept.ctxDestroy _ h
  | qCreate => exact Kept.qCreate _ h
  | qBind => exact Kept.qBind _ h
  | qArm => exact Kept.qArm _ h
  | qDestroy => exact Kept.qDestroy _ h
  | memMap => exact Kept.memMap _ h
  | memUnmap => exact Kept.memUnmap _ h
  | codeLoad => exact Kept.codeLoad _ h
  | kvPool => exact Kept.kvPool _ h
  | kvReserve => exact Kept.kvReserve _ h
  | limits => exact Kept.limits _ h
  | carousel => exact Kept.carousel _ h
  | attest => exact Kept.attest _ h
  | journalRead => exact Kept.journalRead _ h
  | clusterReset => exact Kept.clusterReset _ h
  | telemetry => exact Kept.telemetry _ h
  | residencyReport => exact Kept.residencyReport h
  | uncorrectableError => exact Kept.uncorrectableError _ h
  | coldReset => exact Kept.coldReset
  | warmReset => exact Kept.warmReset h
  | devassign => exact Kept.devassign _ h
  | pStateChange | powerCapRecover | thermalRecover => exact Kept.ite (Kept.next h) (Kept.next h)
  | illegalInstruction => exact Kept.illegalInstruction _ _ h
  | fetchFault => exact Kept.fetchFault _ h
  | probeAnswer => exact Kept.probeAnswer _ h
  | fabricAnswer => exact Kept.fabricAnswer _ _ h
  | perstRelease => exact Kept.perstRelease h
  | jtagDebugger => exact Kept.jtagDebugger _ _ h

/-! ### The moves of the agents (R86, R90, R187) -/

theorem MemWf.seqMove {s t : State} {i : Instr} (h : MemWf s) (e : s.seqMove = some (i, t)) : MemWf t := by
  unfold State.seqMove at e
  dsimp only at e
  split at e
  · cases e
  · split at e
    · cases e; exact h
    · split at e
      · cases e
      · cases e; exact h

theorem MemWf.vecMove {s t : State} {i : Instr} (h : MemWf s) (e : s.vecMove = some (i, t)) : MemWf t := by
  unfold State.vecMove at e
  split at e
  · cases e
  · split at e
    · cases e; exact h
    · cases e; exact h

theorem MemWf.progMove {s t : State} {a : Agent} {sec : CodeSection} {i : Instr} (h : MemWf s) (e : s.progMove a sec = some (i, t)) :
    MemWf t := by
  have acting : MemWf { s with unit := a } := h
  unfold State.progMove at e
  dsimp only at e
  split at e
  · cases e
  · split at e
    · cases e
    · split at e
      · cases e; exact acting
      · cases e; exact (acting.putProg _).upd _

theorem MemWf.moveOf {s t : State} {a : Agent} {i : Instr} (h : MemWf s) (e : s.moveOf a = some (i, t)) : MemWf t := by
  unfold State.moveOf at e
  split at e
  · cases e
  · split at e
    · exact h.seqMove e
    · exact h.vecMove e
    iterate 4 exact h.progMove e
    all_goals cases e

/-- A block kept for an agent leaves memory as it is. -/
theorem MemWf.fetchPlace {s t : State} (a : Agent) (ws : List W32) (h : MemWf t) : MemWf ((s.fetchPlace a).2.2 t ws) := by
  unfold State.fetchPlace
  cases a
  case seq => exact h
  all_goals
    dsimp only
    split <;> exact h

/-- The state an outcome leads to, if it leads to one. -/
theorem MemWf.nextOf {o : Out} {t : State} (ho : Kept o) (e : nextOf o = some t) : MemWf t := by
  cases o with
  | next u => cases e; exact ho _ rfl
  | fault f => cases e
  | refused r => cases e

theorem MemWf.agentStep {s t : State} {a : Agent} (h : MemWf s) (e : s.agentStep a = some t) : MemWf t := by
  unfold State.agentStep at e
  split at e
  · cases e
  · refine MemWf.nextOf (Kept.fetchFirst h (fun t ws ht => ht.fetchPlace a ws) (Kept.next h) fun t ht => ?_) e
    split
    · exact exec_kept _ (ht.moveOf ‹_›)
    · exact Kept.next ht

theorem MemWf.eventStep {s t : State} {i : Instr} (h : MemWf s) (e : s.eventStep i = some t) : MemWf t := by
  unfold State.eventStep at e
  split at e
  · cases e
  · exact MemWf.nextOf (exec_kept i h) (Option.filter_eq_some_iff.mp e).1

theorem MemWf.partStep {s t : State} {p : Part} (h : MemWf s) (e : s.partStep p = some t) : MemWf t := by
  cases p with
  | event i => exact h.eventStep e
  | message m =>
    obtain ⟨k, _, hk⟩ := Option.bind_eq_some_iff.mp e
    exact h.eventStep hk
  | strand c a =>
    obtain ⟨u, hu, rfl⟩ := Option.map_eq_some_iff.mp e
    exact ((h.focus c).agentStep hu).focus _

/-! ### Turns and steps (R265, R321, R330) -/

theorem MemWf.ticked {s : State} (h : MemWf s) : MemWf s.ticked := MemWf.ite h h

/-- The parts of a cycle, each done if it can be. -/
theorem MemWf.parts {s : State} (ps : List Part) (h : MemWf s) : MemWf (ps.foldl (fun u p => (u.partStep p).getD u) s) := by
  refine h.foldl (fun u p hu => ?_) _
  cases e : u.partStep p with
  | none => exact hu
  | some v => exact hu.partStep e

theorem MemWf.turn {s t : State} {x : Turn} (h : MemWf s) (e : s.turn x = some t) : MemWf t := by
  cases x with
  | agent a =>
    obtain ⟨u, hu, rfl⟩ := Option.map_eq_some_iff.mp e
    exact (h.agentStep hu).ticked
  | event i =>
    obtain ⟨u, hu, rfl⟩ := Option.map_eq_some_iff.mp e
    exact (h.eventStep hu).ticked
  | together die ps =>
    cases e
    exact (h.parts _).ticked
  | select n =>
    obtain ⟨_, e⟩ := Option.ite_none_right_eq_some.mp e
    cases e
    exact h.focus n
  | tick n =>
    obtain ⟨_, e⟩ := Option.ite_none_left_eq_some.mp e
    cases e
    exact h
  | pressure l =>
    obtain ⟨_, e⟩ := Option.ite_none_right_eq_some.mp e
    cases e
    exact h.startMerge _
  | bringUp =>
    obtain ⟨u, hu, rfl⟩ := Option.map_eq_some_iff.mp e
    exact (h.bringUp hu).ticked
  | dropCode =>
    obtain ⟨_, e⟩ := Option.ite_none_right_eq_some.mp e
    cases e
    exact h

theorem MemWf.firstTurn {s t : State} {n : Nat} {ts : List Turn} (h : MemWf s) (e : s.firstTurn ts = some (t, n)) : MemWf t := by
  induction ts with
  | nil => cases e
  | cons x rest ih =>
    unfold State.firstTurn at e
    split at e
    · cases e; exact h.turn ‹_›
    · exact ih e

theorem MemWf.defaultTurn {s : State} (h : MemWf s) : MemWf s.defaultTurn := by
  have placed : ∀ (t : State) n, MemWf t → MemWf { t with rr := n } := fun _ _ ht => ht
  unfold State.defaultTurn
  dsimp only
  split
  · exact placed _ _ (h.firstTurn ‹_›)
  · exact placed _ _ ((h.firstTurn ‹_›).focus _)
  · exact placed _ _ (h.ticked.focus _)

theorem advance_kept {s : State} (h : MemWf s) : Kept s.advance := by
  have stopped : Kept (.fault .powerRemoved) := fun _ e => nomatch e
  have scheduled : ∀ ts, MemWf { s with schedule := ts } := fun _ => h
  unfold State.advance
  split
  · exact Kept.ite stopped (Kept.next h.defaultTurn)
  · refine Kept.ite stopped (Kept.next ?_)
    generalize e : State.turn _ _ = o
    cases o with
    | none => exact scheduled _
    | some t => exact (scheduled _).turn e

end Sys2Proof.Machine

namespace Sys2Proof.Proofs

open Sys2Proof.Machine

/-- Settles O59: each instruction keeps the form (`exec_kept`), and a step is a turn of instructions, a reset step or none. -/
theorem stepKeepsMemoryForm : Obligations.StepKeepsMemoryForm := by
  unfold Obligations.StepKeepsMemoryForm
  intro s t h e
  exact advance_kept h t e

end Sys2Proof.Proofs
end

