-- ==== Sys2Proof/Proofs/MemoryForm.lean ====
section
/-! SUPPORT. Proofs/MemoryForm.lean: little-endian numbers, and canonical memories that read the same are the same (O14). -/

namespace Sys2Proof.Machine

/-! ### Little-endian numbers (R2) -/

theorem leVal_leBytes (n v : Nat) : leVal (leBytes n v) = v % 2 ^ (8 * n) := by
  induction n generalizing v with
  | zero => simp [leBytes, leVal, Nat.mod_one]
  | succ n ih =>
    have digits : v % (256 * 2 ^ (8 * n)) = v % 256 + 256 * (v / 256 % 2 ^ (8 * n)) := Nat.mod_mul
    calc leVal (leBytes (n + 1) v) = v % 256 + 256 * (v / 256 % 2 ^ (8 * n)) := by
          rw [leBytes, leVal, ih, BitVec.toNat_ofNat]
      _ = v % 2 ^ (8 * (n + 1)) := by rw [← digits, Nat.mul_succ, Nat.pow_add, Nat.mul_comm (2 ^ (8 * n))]

/-! ### The canonical form says everything (R283) -/

theorem cellGet_cons_same (x : Nat) (y : Byte) (t : List Host.Cell) : cellGet ((x, y) :: t) x = y := if_pos rfl

theorem cellGet_cons_other {x a : Nat} (y : Byte) (t : List Host.Cell) (h : x ≠ a) : cellGet ((x, y) :: t) a = cellGet t a := if_neg h

/-- Below the first address of a canonical memory every byte reads as 0. -/
theorem cellGet_before {x a : Nat} {y : Byte} {t : List Host.Cell} (h : cellsAbove x t) (ha : a < x) : cellGet ((x, y) :: t) a = 0 := by
  rw [cellGet_cons_other y t (by omega)]
  exact cellGet_below fun c hc => ha.trans (h c hc)

/-- The first address of a canonical memory is the lowest at which it reads something. -/
theorem not_lt_head {x z : Nat} {y w : Byte} {t u : List Host.Cell} (hy : y ≠ 0) (hu : cellsAbove z u)
    (h : cellGet ((x, y) :: t) x = cellGet ((z, w) :: u) x) : ¬ x < z := fun hx =>
  hy (by rw [← cellGet_cons_same x y t, h, cellGet_before hu hx])

/-- Two canonical memories that read the same at every address are the same list: by their first addresses, then their first bytes, then
the rest. -/
theorem eq_of_cellGet {m n : List Host.Cell} (hm : Memory.wf m = true) (hn : Memory.wf n = true) (h : ∀ a, cellGet m a = cellGet n a) :
    m = n := by
  induction m generalizing n with
  | nil =>
    cases n with
    | nil => rfl
    | cons d u =>
      obtain ⟨z, w⟩ := d
      exact absurd ((cellGet_cons_same z w u).symm.trans (h z).symm) ((wf_cons z w u).mp hn).1
  | cons c t ih =>
    obtain ⟨x, y⟩ := c
    obtain ⟨hy, ht, wt⟩ := (wf_cons x y t).mp hm
    cases n with
    | nil => exact absurd ((cellGet_cons_same x y t).symm.trans (h x)) hy
    | cons d u =>
      obtain ⟨z, w⟩ := d
      obtain ⟨hw, hu, wu⟩ := (wf_cons z w u).mp hn
      have hxz : x = z := Nat.le_antisymm (Nat.not_lt.mp (not_lt_head hw ht (h z).symm)) (Nat.not_lt.mp (not_lt_head hy hu (h x)))
      subst hxz
      have hyw : y = w := by simpa only [cellGet_cons_same] using h x
      have rest : t = u := ih wt wu fun a => by
        by_cases ha : x = a
        · rw [← ha, cellGet_below ht, cellGet_below hu]
        · simpa only [cellGet_cons_other _ _ ha] using h a
      rw [hyw, rest]

end Sys2Proof.Machine

namespace Sys2Proof.Proofs

open Sys2Proof.Machine

/-- Settles O14, from the rules of reading after writing and `eq_of_cellGet`. -/
theorem memoryReadsWhatIsWritten : Obligations.MemoryReadsWhatIsWritten := by
  unfold Obligations.MemoryReadsWhatIsWritten
  refine ⟨⟨fun m a b hm => ⟨cellGet_cellPut_same a b hm, fun x hx => cellGet_cellPut_other m b hx⟩, fun m a bs hm =>
    ⟨cellBytes_cellPutBytes_same a bs hm, fun x hx => cellGet_cellPutBytes_other m a bs hx⟩, leVal_leBytes⟩, ?_⟩
  exact fun m n hm hn h => eq_of_cellGet hm hn h

end Sys2Proof.Proofs
end

