-- ==== Sys2Proof/Proofs/HostWriteSnapshots.lean ====
section
/-! SUPPORT. Proofs/HostWriteSnapshots.lean: a host write of a line under snapshot, its copy too many for the hold buffer of its slice, changes the
strand that holds the snapshot (O51). -/

namespace Sys2Proof.Machine

/-- A strand's snapshot of line 32·k: 128 bytes of 0. -/
def rowSnapshot (k : Nat) : Snapshot := { line := 32 * k, bytes := List.replicate 128 0 }

/-- The strand of core 0 holds snapshots of 65 lines of one slice: 64 in the slice's hold buffer, which they fill, and that of line 0 with the
copy in the cluster's L1. The link is trained and the stacks are. -/
def fullHoldBuffer : State :=
  { State.reset with
    core := { Core.reset 0 with snaps := (List.range 65).map rowSnapshot }
    clusters := [(0, { Cluster.reset with
      filter := [{ line := 0, hold := [0], xs := .none, st := .s, part := none, queue := [], heldProbes := [] }]
      holdBuf := (List.range 64).map fun k => { slice := 0, line := 32 * (k + 1), holders := [0] } })]
    regions := [{ region := 0, walk0 := false, walk1 := false, pres := [0] }]
    bringup := 4, pcieTrained := true }

/-- A host write of a byte of line 0 takes the strand's snapshot away, and the strand owes an implicit boundary (R286, R287). -/
theorem fullHoldBuffer_hostWrite : ∃ t, exec (.hostWrite 0 [1]) fullHoldBuffer = .next t ∧ t.core.implicit = true :=
  ⟨_, rfl, rfl⟩

end Sys2Proof.Machine

namespace Sys2Proof.Proofs

open Sys2Proof.Machine

/-- Refutes O51: a host write need not leave the current core as it was. It withdraws the L1 copy of its line (R286), and a snapshot of that
line which the full hold buffer cannot take is lost: the strand owes an implicit boundary (R287), so t.core is not s.core. -/
theorem not_hostAccessesAndAdminService : ¬ Obligations.HostAccessesAndAdminService := by
  unfold Obligations.HostAccessesAndAdminService
  rintro ⟨⟨-, hostWrites, -⟩, -⟩
  obtain ⟨outside, -⟩ := hostWrites fullHoldBuffer 0 [1] rfl (by decide) (by decide) (by decide) (by decide) rfl (by decide)
  obtain ⟨t, e, -, -, sameCore, -⟩ := outside (.inl (by decide))
  obtain ⟨u, eu, owes⟩ := fullHoldBuffer_hostWrite
  cases e.symm.trans eu
  rw [sameCore] at owes
  exact absurd owes (by decide)

end Sys2Proof.Proofs
end

