-- ==== Sys2Proof/Proofs/PreciseTraps.lean ====
section
/-! SUPPORT. Proofs/PreciseTraps.lean: a precise trap at level 0 or 1 with a handler enters it (R356, R357). -/

namespace Sys2Proof.Machine

open Sys2Proof.Rules

theorem getLsbD_setBits (x : W64) (v : Nat) {hi lo i : Nat} (h : i < 64) (hl : lo ≤ hi) :
    (setBits x hi lo v).getLsbD i = if lo ≤ i ∧ i ≤ hi then v.testBit (i - lo) else x.getLsbD i := by
  simp only [setBits, BitVec.getLsbD_or, BitVec.getLsbD_and, BitVec.getLsbD_not, BitVec.getLsbD_ofNat, Nat.testBit_mul_two_pow,
    Nat.testBit_two_pow_sub_one, Nat.testBit_mod_two_pow, h, decide_true, Bool.true_and]
  by_cases inside : lo ≤ i ∧ i ≤ hi
  · simp [inside, show i - lo < hi + 1 - lo by omega]
  · by_cases low : lo ≤ i
    · simp [low, show ¬ i - lo < hi + 1 - lo by omega, show ¬ i ≤ hi from fun top => inside ⟨low, top⟩]
    · simp [low]

/-- STATUS as a trap at level k leaves it: the level in [4:3], bit 5 set (R356). -/
theorem status_entered (x : W64) {k : Nat} (h : k < 2) :
    setBits (setBits x 4 3 (k + 1)) 5 5 1 = BitVec.ofNat 64 (x.toNat / 64 * 64 + 32 + (k + 1) * 8 + x.toNat % 8) := by
  refine BitVec.eq_of_getLsbD_eq fun i hi => ?_
  have regroup : x.toNat / 64 * 64 + 32 + (k + 1) * 8 + x.toNat % 8 =
      2 ^ 6 * (x.toNat / 2 ^ 6) + (2 ^ 3 * (4 + (k + 1)) + x.toNat % 2 ^ 3) := by omega
  have below : 2 ^ 3 * (4 + (k + 1)) + x.toNat % 2 ^ 3 < 2 ^ 6 := by omega
  rw [regroup, BitVec.getLsbD_ofNat, Nat.testBit_two_pow_mul_add _ below, Nat.testBit_two_pow_mul_add _ (Nat.mod_lt _ (by decide)),
    Nat.testBit_mod_two_pow, Nat.testBit_div_two_pow, getLsbD_setBits _ _ hi (by decide), getLsbD_setBits _ _ hi (by decide)]
  by_cases upper : 6 ≤ i
  · simp [hi, BitVec.getLsbD, show ¬ i < 6 by omega, show ¬ i ≤ 5 by omega, show ¬ i ≤ 4 by omega, Nat.sub_add_cancel upper]
  · by_cases lower : i < 3
    · simp [hi, lower, BitVec.getLsbD, show i < 6 by omega, show ¬ 5 ≤ i by omega, show ¬ 3 ≤ i by omega]
    · obtain rfl | rfl : k = 0 ∨ k = 1 := by omega
      all_goals
        obtain rfl | rfl | rfl : i = 3 ∨ i = 4 ∨ i = 5 := by omega
        all_goals rfl

theorem enterTrap_eq_trapped (c : Core) (cause : Cause) (eval epc : W64) (h : c.lvl < 2) :
    c.enterTrap cause eval epc false = trapped c cause.code eval epc := by
  have bits : bitsOf c.status 5 0 = c.status.toNat % 64 := by simp [bitsOf]
  have entered := (status_entered c.status h).symm
  by_cases z : c.lvl = 0
  all_goals
    simp only [trapped, entered]
    simp [Core.enterTrap, Core.bankOf, Core.setLvl, bits, z]

theorem State.precise_eq_traps {s : State} (cause : Cause) (eval : W64) (h : handles s) :
    s.precise cause eval = Rules.traps s cause.code eval s.core.pc := by
  obtain ⟨level, handler, free⟩ := h
  have noAbort : s.core.abortDue = false := by
    cases e : s.core.abortDue with
    | false => rfl
    | true =>
      simp only [Core.abortDue, Bool.and_eq_true, beq_iff_eq] at e
      simp [free e.2] at e
  rw [State.precise, s.traps_next _ _ _ _ (by omega)]
  rcases s.trap_cases cause eval s.core.pc false with ⟨a, -⟩ | ⟨a, -⟩ | ⟨-, a, -⟩ | ⟨-, -, e⟩
  · rw [noAbort] at a; cases a
  · omega
  · exact absurd a handler
  · rw [e, enterTrap_eq_trapped _ _ _ _ level]; rfl

end Sys2Proof.Machine
end

