-- ==== Sys2Proof/Proofs/VersionReads.lean ====
section
/-! SUPPORT. Proofs/VersionReads.lean: what a checked address leaves as it was, and reads whose bytes stand in the version (R90, R273, R286). -/

namespace Sys2Proof.Machine

open Sys2Proof.Rules

/-! ### What a checked address leaves as it was -/

theorem State.coreAt_id (s : State) (c : Nat) : (s.coreAt c).id = c := by
  unfold State.coreAt
  split
  · assumption
  · cases found : s.others.find? fun x => x.id = c with
    | none => rfl
    | some x => simpa using List.find?_some found

theorem State.dropSnap_core (s : State) (c l : Nat) :
    (s.dropSnap c l).core =
      if s.core.id = c then { s.core with snaps := s.core.snaps.filter fun n => n.line ≠ l, implicit := true } else s.core := by
  have id := s.coreAt_id c
  rw [State.dropSnap, State.putCore_core, id]
  split
  · rename_i current
    subst current
    rw [State.coreAt, if_pos rfl]
  · rfl

/-- Of the current core, memory, the dies and the device's id, t differs from s at most in the strand's snapshots and in the boundary it
owes: all that pinning a page and dropping L1 copies can do to them (R273, R286, R287). -/
structure SnapsAside (s t : State) : Prop where
  core : ∃ snaps implicit, t.core = { s.core with snaps := snaps, implicit := implicit }
  mem : t.mem = s.mem
  die0 : t.die0 = s.die0
  die1 : t.die1 = s.die1
  devid : t.devid = s.devid
  devValid : t.devValid = s.devValid

namespace SnapsAside

theorem refl (s : State) : SnapsAside s s := ⟨⟨_, _, rfl⟩, rfl, rfl, rfl, rfl, rfl⟩

theorem trans {s t u : State} (h : SnapsAside s t) (k : SnapsAside t u) : SnapsAside s u := by
  refine ⟨?_, k.mem.trans h.mem, k.die0.trans h.die0, k.die1.trans h.die1, k.devid.trans h.devid, k.devValid.trans h.devValid⟩
  obtain ⟨_, _, toT⟩ := h.core
  obtain ⟨_, _, toU⟩ := k.core
  exact ⟨_, _, by rw [toU, toT]⟩

theorem putCluster {s t : State} (h : SnapsAside s t) (g : Nat) (x : Cluster) : SnapsAside s (t.putCluster g x) :=
  h.trans ⟨⟨_, _, rfl⟩, rfl, rfl, rfl, rfl, rfl⟩

theorem foldl {α : Type} {f : State → α → State} (hf : ∀ t x, SnapsAside t (f t x)) (l : List α) {s : State} :
    SnapsAside s (l.foldl f s) := by
  induction l generalizing s with
  | nil => exact refl s
  | cons x l ih => exact (hf s x).trans ih

theorem dropSnap (s : State) (c l : Nat) : SnapsAside s (s.dropSnap c l) := by
  have core : ∃ snaps implicit, (s.dropSnap c l).core = { s.core with snaps := snaps, implicit := implicit } := by
    rw [State.dropSnap_core]
    split <;> exact ⟨_, _, rfl⟩
  unfold State.dropSnap at core ⊢
  exact ⟨core, by simp, by simp, by simp, by simp, by simp⟩

theorem intoHold (s : State) (g l : Nat) (holders : List Nat) : SnapsAside s (s.intoHold g l holders) := by
  unfold State.intoHold
  dsimp only
  split
  · exact refl s
  · split
    · exact (refl s).putCluster _ _
    · exact foldl (fun t c => dropSnap t c l) _

theorem holdCopy (s : State) (g l : Nat) : SnapsAside s (s.holdCopy g l) := by
  unfold State.holdCopy
  split
  · exact refl s
  · exact intoHold s g l _

theorem dropL1 (s : State) (g l : Nat) : SnapsAside s (s.dropL1 g l) := by
  unfold State.dropL1
  split
  · exact refl s
  · exact (intoHold s g l _).putCluster _ _

theorem sends {s t : State} (h : SnapsAside s t) (ms : List Msg) : SnapsAside s { t with msgs := ms } :=
  h.trans ⟨⟨_, _, rfl⟩, rfl, rfl, rfl, rfl, rfl⟩

theorem evict (s : State) (g l : Nat) : SnapsAside s (s.evict g l) := by
  unfold State.evict
  split
  · exact refl s
  · split
    · exact refl s
    · dsimp only
      split
      iterate 3 exact ((holdCopy s g l).putCluster _ _).sends _
      exact (holdCopy s g l).putCluster _ _

theorem expel (s : State) (g l : Nat) : SnapsAside s (s.expel g l) := by
  unfold State.expel
  split
  · exact dropL1 s g l
  · split
    · exact (holdCopy s g l).putCluster _ _
    · exact evict s g l

theorem unpin (s : State) (g : Nat) (f : Frame) : SnapsAside s (s.unpin g f) :=
  ((refl s).putCluster _ _).trans (foldl (fun t _ => expel t g _) _)

theorem share {d : Nat} {rs : List Nat} {s t : State} (e : s.share d rs = some t) : SnapsAside s t := by
  induction rs generalizing s with
  | nil => cases e; exact refl _
  | cons r rs ih =>
    unfold State.share at e
    dsimp only at e
    split at e
    · cases e
    · exact (show SnapsAside s (s.putRegion _) from ⟨⟨_, _, rfl⟩, rfl, rfl, rfl, rfl, rfl⟩).trans (ih e)

theorem keepsL2 {s t : State} (h : SnapsAside s t) (held : Bool) (ts : List (Nat × Translation)) :
    SnapsAside s (if held then t else { t with l2tlb := ts }) := by
  split
  · exact h
  · exact h.trans ⟨⟨_, _, rfl⟩, rfl, rfl, rfl, rfl, rfl⟩

theorem cacheWalk (s : State) (c ctx : Nat) (va : W64) : SnapsAside s (s.cacheWalk c ctx va) := by
  unfold State.cacheWalk
  dsimp only
  split
  · exact refl s
  · split
    · split
      · exact refl s
      · rename_i shared
        exact ((share shared).putCluster _ _).keepsL2 _ _
    · exact refl s

theorem pinPage (s : State) (c ctx : Nat) (va : W64) : SnapsAside s (s.pinPage c ctx va) := by
  unfold State.pinPage
  dsimp only
  split
  · exact refl s
  · split
    · exact refl s
    · split
      · exact (refl s).putCluster _ _
      · split
        · exact (refl s).putCluster _ _
        · exact (refl s).putCluster _ _
        · exact (unpin s _ _).putCluster _ _
        · exact refl s

/-- An access that passes its checks reads no lost line of its tables (R370). -/
theorem pinned {s : State} {va : W64} {n pa : Nat} {need : Need} {sc : Option Scope} {record : Bool}
    (h : passesChecks s va n need sc record pa) : SnapsAside s (pinned s va) := by
  obtain ⟨-, -, -, tables⟩ := h
  have kept : s.walkLost s.core.id s.core.context va = s := by
    unfold State.walkLost
    dsimp only
    split
    · rfl
    · split
      · rename_i l found
        exact absurd (by simpa using List.find?_some found) (tables l (List.mem_of_find?_eq_some found))
      · rfl
  rw [Rules.pinned, State.pin, kept]
  exact (cacheWalk s _ _ _).trans (pinPage _ _ _ _)

theorem remote {s t : State} (h : SnapsAside s t) : t.core.remote = s.core.remote := by
  obtain ⟨_, _, e⟩ := h.core
  rw [e]

theorem g {s t : State} (h : SnapsAside s t) : t.core.g = s.core.g := by
  obtain ⟨_, _, e⟩ := h.core
  rw [e]

theorem pc {s t : State} (h : SnapsAside s t) : t.core.pc = s.core.pc := by
  obtain ⟨_, _, e⟩ := h.core
  rw [e]

theorem context {s t : State} (h : SnapsAside s t) : t.core.context = s.core.context := by
  obtain ⟨_, _, e⟩ := h.core
  rw [e]; rfl

theorem version {s t : State} (h : SnapsAside s t) : t.core.version = s.core.version := by
  obtain ⟨_, _, e⟩ := h.core
  rw [e]

theorem die {s t : State} (h : SnapsAside s t) (k : Nat) : t.die k = s.die k := by rw [State.die, State.die, h.die0, h.die1]

/-- A record of the strand's context stays the one at its reference. -/
theorem recordAt {s t : State} (h : SnapsAside s t) {x : W64} {y : Node} (k : recordAt s x y) : Rules.recordAt t x y := by
  have context : ctxOf t = ctxOf s := h.context
  rw [Rules.recordAt, localRef, h.devid, h.die, context]
  exact k

end SnapsAside

/-! ### Words whose bytes stand in the version (R90) -/

theorem known_of_versionHolds {s : State} {a : Nat} {bs : List Byte} (h : versionHolds s a bs) :
    s.core.known a bs.length = bs.map some := by
  refine List.ext_getElem? fun j => ?_
  by_cases inside : j < bs.length
  · simp [Core.known, inside, h j inside]
  · simp [Core.known, inside]

theorem missing_of_versionHolds {s : State} {a : Nat} {bs : List Byte} (h : versionHolds s a bs) : s.core.missing a bs.length = [] := by
  rw [Core.missing, known_of_versionHolds h, List.filter_eq_nil_iff]
  intro l _ some_missing
  obtain ⟨⟨b, j⟩, inList, absent⟩ := List.any_eq_true.mp some_missing
  obtain ⟨x, -, rfl⟩ := List.mem_map.mp (List.fst_mem_of_mem_zipIdx inList)
  cases absent

theorem allBytes_some (bs : List Byte) : allBytes (bs.map some) = some bs := by
  simp [allBytes]

/-- A read whose every byte the version holds goes on at once and asks for nothing. -/
theorem State.readAs_of_versionHolds {s : State} {a : Nat} {bs : List Byte} (who : Agent) (k : State → List Byte → Out)
    (refuse : State → Cause → W64 → Out) (h : versionHolds s a bs) : s.readAs who a bs.length k refuse = k s bs := by
  have looked : s.look a bs.length = s := by rw [State.look, missing_of_versionHolds h]; rfl
  simp [State.readAs, looked, known_of_versionHolds h, allBytes_some]

end Sys2Proof.Machine
end

