-- ==== Sys2Proof/Proofs/NodeRecords.lean ====
section
/-! SUPPORT. Proofs/NodeRecords.lean: node references and records, NALLOC, NALLOC.free, NINIT and NRD (O24). -/

namespace Sys2Proof.Machine

open Sys2Proof.Rules

/-! ### Fields of a number and of a record (R126) -/

/-- The bits of a number with w bits from lo up replaced by those of v. -/
theorem testBit_fieldReplaced (x v lo w i : Nat) :
    (x - x / 2 ^ lo % 2 ^ w * 2 ^ lo + v % 2 ^ w * 2 ^ lo).testBit i = if lo ≤ i ∧ i < lo + w then v.testBit (i - lo) else x.testBit i := by
  have parts : x = 2 ^ lo * (2 ^ w * (x / 2 ^ lo / 2 ^ w) + x / 2 ^ lo % 2 ^ w) + x % 2 ^ lo := by
    rw [Nat.div_add_mod, Nat.div_add_mod]
  have cut : x - x / 2 ^ lo % 2 ^ w * 2 ^ lo + v % 2 ^ w * 2 ^ lo =
      2 ^ lo * (2 ^ w * (x / 2 ^ lo / 2 ^ w) + v % 2 ^ w) + x % 2 ^ lo := by
    rw [Nat.mul_add] at parts ⊢
    rw [Nat.mul_comm (v % 2 ^ w), Nat.mul_comm (x / 2 ^ lo % 2 ^ w)]
    omega
  rw [cut, Nat.testBit_two_pow_mul_add _ (Nat.mod_lt _ (Nat.two_pow_pos lo)),
    Nat.testBit_two_pow_mul_add _ (Nat.mod_lt _ (Nat.two_pow_pos w)), Nat.testBit_mod_two_pow, Nat.testBit_mod_two_pow,
    Nat.testBit_div_two_pow, Nat.testBit_div_two_pow]
  by_cases low : i < lo
  · simp [low, Nat.not_le.mpr low]
  · by_cases inside : i - lo < w
    · simp [low, inside, show lo ≤ i ∧ i < lo + w by omega]
    · rw [if_neg low, if_neg inside, if_neg (by omega), show i - lo - w + w + lo = i by omega]

theorem getLsbD_recSet (x : W256) (v : Nat) {hi lo i : Nat} (h : i < 256) (hl : lo ≤ hi) :
    (recSet x hi lo v).getLsbD i = if lo ≤ i ∧ i ≤ hi then v.testBit (i - lo) else x.getLsbD i := by
  have top : i < lo + (hi + 1 - lo) ↔ i ≤ hi := by omega
  simp only [recSet, recBits, BitVec.getLsbD_ofNat, testBit_fieldReplaced, top, h, decide_true, Bool.true_and]
  rfl

/-! ### The groups of NINIT (R129) -/

theorem getLsbD_groupPut (x img : W256) (on : Bool) {hi lo i : Nat} (h : i < 256) (hl : lo ≤ hi) :
    (if on then recSet x hi lo (recBits img hi lo) else x).getLsbD i =
      if on ∧ lo ≤ i ∧ i ≤ hi then img.getLsbD i else x.getLsbD i := by
  cases on with
  | false => simp
  | true =>
    rw [if_pos rfl, getLsbD_recSet _ _ h hl]
    by_cases inside : lo ≤ i ∧ i ≤ hi
    · obtain ⟨h1, h2⟩ := inside
      rw [if_pos ⟨h1, h2⟩, if_pos ⟨rfl, h1, h2⟩, recBits, Nat.testBit_mod_two_pow, Nat.testBit_div_two_pow, Nat.sub_add_cancel h1]
      simp [show i - lo < hi + 1 - lo by omega, BitVec.getLsbD]
    · rw [if_neg inside, if_neg fun h => inside h.2]

theorem getLsbD_of_div (m : BitVec 4) (k : Nat) : (m.toNat / 2 ^ k % 2 == 1) = m.getLsbD k := by
  rw [BitVec.getLsbD, Nat.testBit_eq_decide_div_mod_eq]
  rfl

/-- The mask bit over bit i of a record (R129). -/
def groupOf (i : Nat) : Nat := if i < 80 then 0 else if i < 128 then 1 else if i < 192 then 2 else 3

theorem getLsbD_nodeInit (old img : W256) (m : BitVec 4) {i : Nat} (h : i < 256) :
    (nodeInit old img m.toNat).getLsbD i =
      if i = 112 then true else if 116 ≤ i ∧ i ≤ 119 then false
      else if m.getLsbD (groupOf i) then img.getLsbD i else old.getLsbD i := by
  have m0 : (m.toNat % 2 == 1) = m.getLsbD 0 := by simpa using getLsbD_of_div m 0
  have m1 : (m.toNat / 2 % 2 == 1) = m.getLsbD 1 := getLsbD_of_div m 1
  have m2 : (m.toNat / 4 % 2 == 1) = m.getLsbD 2 := getLsbD_of_div m 2
  have m3 : (m.toNat / 8 % 2 == 1) = m.getLsbD 3 := getLsbD_of_div m 3
  unfold nodeInit
  simp only [m0, m1, m2, m3]
  rw [getLsbD_recSet _ _ h (by decide), getLsbD_recSet _ _ h (by decide)]
  simp only [getLsbD_groupPut _ _ _ h (show 192 ≤ 255 by decide), getLsbD_groupPut _ _ _ h (show 128 ≤ 191 by decide),
    getLsbD_groupPut _ _ _ h (show 80 ≤ 95 by decide), getLsbD_groupPut _ _ _ h (show 96 ≤ 111 by decide),
    getLsbD_groupPut _ _ _ h (show 120 ≤ 127 by decide), getLsbD_groupPut _ _ _ h (show 113 ≤ 115 by decide),
    getLsbD_groupPut _ _ _ h (show 0 ≤ 79 by decide)]
  by_cases reserved : 116 ≤ i ∧ i ≤ 119
  · rw [if_pos reserved, if_neg (by omega), if_pos reserved, Nat.zero_testBit]
  · rw [if_neg reserved, if_neg reserved]
    by_cases valid : i = 112
    · subst valid; rfl
    · -- any other bit is in exactly one of the put fields, that of its group
      rw [if_neg (by omega), if_neg valid, groupOf]
      grind

/-! ### A record NINIT has written (R129, R370) -/

/-- Over any bits, so that no check computes those of an image. -/
theorem Node.ctx_of_update (n : Node) (bits : W256) (err : Bool) : ({ n with bits := bits, err := err } : Node).ctx = n.ctx := rfl

theorem Node.init_ctx (n : Node) (img : List Byte) (m : Nat) : (n.init img m).ctx = n.ctx := Node.ctx_of_update ..

theorem Node.init_err {n : Node} (img : List Byte) (m : Nat) (h : n.err = false) : (n.init img m).err = false := by
  simp [Node.init, h]

theorem leVal_bits (img : List Byte) {i : Nat} (h : i < 256) : (BitVec.ofNat 256 (leVal img)).getLsbD i = (leVal img).testBit i := by
  rw [BitVec.getLsbD_ofNat, decide_eq_true h, Bool.true_and]

theorem Node.init_bits (y : Node) (img : List Byte) (m : BitVec 4) {i : Nat} (hi : i < 256) :
    (y.init img m.toNat).bits.getLsbD i =
      if i = 112 then true else if 116 ≤ i ∧ i ≤ 119 then false
      else if m.getLsbD (groupOf i) then (leVal img).testBit i else y.bits.getLsbD i := by
  rw [Node.init, getLsbD_nodeInit _ _ _ hi, leVal_bits _ hi]

/-! ### Lists kept by key -/

theorem assoc_none_of_lt {α : Type} {j : Nat} {l : List (Nat × α)} (h : ∀ e ∈ l, j < e.1) : assoc j l = none := by
  induction l with
  | nil => rfl
  | cons e t ih =>
    have head : j < e.1 := h e (List.mem_cons_self ..)
    rw [assoc, if_neg (by omega)]
    exact ih fun x hx => h x (List.mem_cons_of_mem _ hx)

theorem assoc_filter_keys {α : Type} (p : Nat → Bool) (j : Nat) (l : List (Nat × α)) :
    assoc j (l.filter fun e => p e.1) = if p j then assoc j l else none := by
  induction l with
  | nil => simp [assoc]
  | cons e t ih =>
    rw [List.filter_cons, assoc]
    by_cases here : e.1 = j
    · subst here
      cases kept : p e.1 with
      | true => simp [assoc]
      | false => simpa [kept] using ih
    · cases kept : p e.1 with
      | true => simpa [assoc, here] using ih
      | false => simpa [here] using ih

theorem assoc_putRun {α : Type} (k n j : Nat) (v : α) (l : List (Nat × α)) :
    assoc j ((List.range n).foldl (fun l i => assocPut (k + i) v l) l) = if k ≤ j ∧ j < k + n then some v else assoc j l := by
  induction n with
  | zero => rw [if_neg (by omega)]; rfl
  | succ n ih =>
    rw [List.range_succ, List.foldl_append, List.foldl_cons, List.foldl_nil]
    by_cases last : j = k + n
    · subst last; simp
    · rw [assoc_assocPut_other _ _ last, ih]
      simp only [show (k ≤ j ∧ j < k + n) ↔ (k ≤ j ∧ j < k + (n + 1)) by omega]

@[simp] theorem State.putDie_die (s : State) (k : Nat) (x : Die) : (s.putDie k x).die k = x := by
  unfold State.die State.putDie
  split <;> rfl

@[simp] theorem State.upd_die (s : State) (c : Core) (k : Nat) : (s.upd c).die k = s.die k := rfl

/-! ### References (R30) -/

theorem refDev_eq (x : W64) : refDev x = x.toNat / 2 ^ 44 := Nat.mod_eq_of_lt (by have := x.isLt; omega)

theorem refIdx_eq (x : W64) : refIdx x = x.toNat % 2 ^ 20 := by simp [refIdx, bitsOf]

theorem refDie_eq (x : W64) : refDie x = x.toNat / 2 ^ 42 % 4 := rfl

theorem nodeRefBad_iff (x : W64) : nodeRefBad x = true ↔ 2 ≤ x.toNat / 2 ^ 42 % 4 ∨ x.toNat / 2 ^ 20 % 2 ^ 22 ≠ 0 := by
  rw [nodeRefBad, Bool.or_eq_true, decide_eq_true_iff, decide_eq_true_iff]
  rfl

theorem nodeRefBad_false {x : W64} (die : x.toNat / 2 ^ 42 % 4 < 2) (res : x.toNat / 2 ^ 20 % 2 ^ 22 = 0) : nodeRefBad x = false :=
  Bool.eq_false_iff.mpr fun bad => ((nodeRefBad_iff x).mp bad).elim (by omega) (· res)

theorem nodeRefBad_of_local {s : State} {x : W64} (h : localRef s x) : nodeRefBad x = false := nodeRefBad_false h.2.1 h.2.2

theorem refDev_of_local {s : State} {x : W64} (h : localRef s x) : refDev x = s.devid := (refDev_eq x).trans h.1

theorem State.node?_of_local {s : State} {x : W64} (ctx : Nat) (h : localRef s x) :
    s.node? ctx x = (assoc (x.toNat % 2 ^ 20) (s.die (x.toNat / 2 ^ 42 % 4)).nodes).filter fun n => n.ctx == ctx := by
  simp [State.node?, nodeRefBad_of_local h, refDev_of_local h, refIdx_eq, refDie_eq]

theorem State.node?_of_recordAt {s : State} {x : W64} {y : Node} (h : recordAt s x y) : s.node? s.core.context x = some y := by
  obtain ⟨here, found, own, -⟩ := h
  rw [State.node?_of_local _ here, found]
  simp [own, ctxOf, Core.context]

theorem State.node?_of_unallocated {s : State} {x : W64} (ctx : Nat) (h : localRef s x)
    (free : assoc (x.toNat % 2 ^ 20) (s.die (x.toNat / 2 ^ 42 % 4)).nodes = none) : s.node? ctx x = none := by
  rw [State.node?_of_local _ h, free]; rfl

/-! ### The question to another device (R127) -/

/-- A reference that R30 takes, to a record of another device; this one has its id. -/
structure FarRef (s : State) (x : W64) : Prop where
  valid : s.devValid = true
  good : nodeRefBad x = false
  far : refDev x ≠ s.devid

theorem State.askNode_unasked {s : State} (x : W64) (op : RemoteOp) (k : State → List Byte → Out)
    (valid : s.devValid = true) (quiet : s.core.remote = none) : s.askNode x op k = .next (asksNode s x op) := by
  simp [State.askNode, valid, quiet, asksNode, refDev_eq, State.upd]

/-- The answer to the sequencer's question about a node reference has come (R385). -/
def heardNode (s : State) (x : W64) (y : FabricReply) : Prop :=
  ∃ r, s.core.remote = some r ∧ r.who = .seq ∧ r.addr = x ∧ r.answer = some y

theorem State.askNode_data {s : State} {x : W64} {bs : List Byte} (op : RemoteOp) (k : State → List Byte → Out) (valid : s.devValid = true)
    (h : heardNode s x (.data bs)) : s.askNode x op k = k (s.upd { s.core with remote := none }) bs := by
  obtain ⟨r, asked, who, addr, answer⟩ := h
  simp [State.askNode, valid, asked, who, addr, answer]

theorem State.askNode_done {s : State} {x : W64} (op : RemoteOp) (k : State → List Byte → Out) (valid : s.devValid = true)
    (h : heardNode s x .done) : s.askNode x op k = k (s.upd { s.core with remote := none }) [] := by
  obtain ⟨r, asked, who, addr, answer⟩ := h
  simp [State.askNode, valid, asked, who, addr, answer]

/-! ### The instructions' meanings -/

theorem exec_nalloc (d a b : Reg) (s : State) : exec (.nalloc d a b) s = execNalloc d a b s := rfl
theorem exec_nallocFree (d a b : Reg) (s : State) : exec (.nallocFree d a b) s = execNallocFree d a b s := rfl
theorem exec_ninit (a b : Reg) (m : BitVec 4) (s : State) : exec (.ninit a b m) s = execNinit a b m s := rfl
theorem exec_nrd (d a : Reg) (k : Fin 4) (s : State) : exec (.nrd d a k) s = execNrd d a k s := rfl

/-! ### NALLOC (R128) -/

theorem getG_write_same {c : Core} {d : Reg} (x : W64) (h : d ≠ 0) : (c.setG d x).next.getG d = x := by
  simp [Core.getG, h]

theorem getG_write_other {c : Core} {r d : Reg} (x : W64) (h : r ≠ d) : (c.setG d x).next.getG r = c.getG r := by
  by_cases z : r = 0
  · simp [Core.getG, z]
  · by_cases w : d = 0
    · simp [Core.getG, w]
    · have apart : d.val ≠ r.val := fun e => h (Fin.ext e.symm)
      simp [Core.getG, z, w, Vector.getElem_set_ne, apart]

/-- A word that writes gd, and other things than the core and memory before, answers with what it writes. -/
theorem answers_of_write {i : Instr} {s u : State} {d : Reg} {x : W64} {more : State → Prop} (e : exec i s = u.write d x)
    (core : u.core = s.core) (mem : u.mem = s.mem) (rest : more (u.upd (u.core.setG d x).next)) : answers i s d x more := by
  refine ⟨_, e, ?_, fun hd => getG_write_same x hd, fun r hr => ?_, mem, rest⟩
  · simp [core]
  · rw [← core]; exact getG_write_other x hr

/-- The run found is at or above where the search starts, and every record of it is free, below 2^20 or below an allocated record. -/
theorem lowestRun_free {n start k : Nat} {l : List (Nat × Node)} (above : ∀ e ∈ l, start ≤ e.1)
    (rising : (l.map fun e => e.1).Pairwise (· < ·)) (found : lowestRun n start l = some k) :
    start ≤ k ∧ (∀ j, k ≤ j → j < k + n → assoc j l = none) ∧ (k + n ≤ 2 ^ 20 ∨ ∃ e ∈ l, k + n ≤ e.1) := by
  induction l generalizing start with
  | nil =>
    obtain ⟨fits, e⟩ := Option.ite_none_right_eq_some.mp found
    cases e
    exact ⟨le_rfl, fun _ _ _ => rfl, .inl fits⟩
  | cons e t ih =>
    rw [lowestRun] at found
    split at found
    · rename_i fits
      cases found
      have beyond : ∀ x ∈ e :: t, e.1 ≤ x.1 := fun x hx => by
        rcases List.mem_cons.mp hx with rfl | hx
        · exact le_rfl
        · exact ((List.pairwise_cons.mp rising).1 _ (List.mem_map_of_mem hx)).le
      refine ⟨le_rfl, fun j _ hj => assoc_none_of_lt fun x hx => ?_, .inr ⟨e, List.mem_cons_self .., fits⟩⟩
      have := beyond x hx
      omega
    · obtain ⟨first, rest⟩ := List.pairwise_cons.mp rising
      have above' : ∀ x ∈ t, e.1 + 1 ≤ x.1 := fun x hx => first _ (List.mem_map_of_mem hx)
      obtain ⟨later, free, bound⟩ := ih above' rest found
      have atStart := above e (List.mem_cons_self ..)
      refine ⟨by omega, fun j hj hn => ?_, bound.imp id fun ⟨x, hx, hk⟩ => ⟨x, List.mem_cons_of_mem _ hx, hk⟩⟩
      rw [assoc, if_neg (by omega)]
      exact free j hj hn

theorem bitsOf_upper (w : W64) : bitsOf w 63 1 = w.toNat / 2 := Nat.mod_eq_of_lt (by have := w.isLt; omega)

/-- NALLOC of a count and a die that R128 takes: within the limit the run it finds is allocated; with no room it gives all ones. -/
theorem execNalloc_valid {s : State} (d : Reg) {a b : Reg} (low : 1 ≤ nv s a) (high : nv s a ≤ 65535) (die : nv s b < 2) {c : Context}
    (ctx : s.ctx? (ctxOf s) = some c) :
    let x := s.die (nv s b % 2)
    (∀ k, x.nodeCount (ctxOf s) + nv s a ≤ c.limNodes → lowestRun (nv s a) 0 x.nodes = some k →
      execNalloc d a b s = (s.putDie (nv s b % 2) { x with
        nodes := (List.range (nv s a)).foldl (fun l i => assocPut (k + i) (Node.fresh (ctxOf s)) l) x.nodes }).write d
          (nodeRef s.devid (nv s b % 2) k)) ∧
    (c.limNodes < x.nodeCount (ctxOf s) + nv s a ∨ lowestRun (nv s a) 0 x.nodes = none →
      execNalloc d a b s = s.write d (BitVec.allOnes 64)) := by
  intro x
  have select : bitsOf (s.core.getG b) 0 0 = nv s b % 2 := by simp [bitsOf]
  have count : ¬ (nv s a = 0 ∨ 65535 < nv s a) := by omega
  have upper : bitsOf (s.core.getG b) 63 1 = 0 := (bitsOf_upper _).trans (Nat.div_eq_of_lt die)
  have context : s.core.context = ctxOf s := rfl
  unfold execNalloc
  dsimp only
  rw [if_neg (by simpa using count), if_neg (by simpa using upper), select, context, ctx]
  refine ⟨fun k room run => ?_, ?_⟩
  · simp only [decide_eq_true room, x, run]
  · rintro (full | none)
    · simp only [decide_eq_false (Nat.not_le.mpr full), x]
    · dsimp only
      rw [none]
      cases decide (x.nodeCount (ctxOf s) + nv s a ≤ c.limNodes) <;> rfl

theorem execNalloc_badCount {s : State} (d a b : Reg) (h : nv s a = 0 ∨ 65535 < nv s a) :
    execNalloc d a b s = s.precise .badopnd (s.core.getG a) := by
  unfold execNalloc
  exact if_pos (by simpa using h)

theorem execNalloc_badDie {s : State} (d : Reg) {a b : Reg} (low : 1 ≤ nv s a) (high : nv s a ≤ 65535) (die : 2 ≤ nv s b) :
    execNalloc d a b s = s.precise .badopnd (s.core.getG b) := by
  have count : ¬ (nv s a = 0 ∨ 65535 < nv s a) := by omega
  have upper : bitsOf (s.core.getG b) 63 1 ≠ 0 := by rw [bitsOf_upper]; exact (Nat.div_pos die (by decide)).ne'
  unfold execNalloc
  dsimp only
  rw [if_neg (by simpa using count), if_pos (by simpa using upper)]

/-! ### NALLOC.free (R128) -/

/-- The n records from number k up are all of them a context's. -/
def ownRun (x : Die) (ctx k n : Nat) : Prop :=
  k + n ≤ 2 ^ 20 ∧ ∀ j, k ≤ j → j < k + n → ∃ y, assoc j x.nodes = some y ∧ y.ctx = ctx

theorem ownRun_iff (x : Die) (ctx k n : Nat) :
    (decide (2 ^ 20 < k + n) ||
      !(List.range n).all fun i => match assoc (k + i) x.nodes with | some y => y.ctx == ctx | none => false) = false ↔
      ownRun x ctx k n := by
  have each (i : Nat) : (match assoc (k + i) x.nodes with | some y => y.ctx == ctx | none => false) = true ↔
      ∃ y, assoc (k + i) x.nodes = some y ∧ y.ctx = ctx := by
    cases assoc (k + i) x.nodes <;> simp
  simp only [Bool.or_eq_false_iff, decide_eq_false_iff_not, Nat.not_lt, Bool.not_eq_false', List.all_eq_true, List.mem_range, each, ownRun]
  refine and_congr_right fun _ => ⟨fun all j first last => ?_, fun all i hi => all _ (by omega) (by omega)⟩
  rw [← Nat.add_sub_cancel' first]
  exact all _ (by omega)

theorem State.freeNodes_own {s : State} {ctx n : Nat} {x : W64} (good : nodeRefBad x = false)
    (own : ownRun (s.die (refDie x)) ctx (refIdx x) n) :
    s.freeNodes ctx x n = some (s.putDie (refDie x) { s.die (refDie x) with
      nodes := (s.die (refDie x)).nodes.filter fun e => !(decide (refIdx x ≤ e.1) && decide (e.1 < refIdx x + n)) }) := by
  have all := (ownRun_iff _ _ _ _).mpr own
  unfold State.freeNodes
  dsimp only
  rw [good, Bool.false_or]
  exact if_neg (Bool.eq_false_iff.mp all)

theorem State.freeNodes_notOwn {s : State} {ctx n : Nat} {x : W64} (good : nodeRefBad x = false)
    (other : ¬ ownRun (s.die (refDie x)) ctx (refIdx x) n) : s.freeNodes ctx x n = none := by
  have notAll := Bool.eq_true_of_not_eq_false (mt (ownRun_iff _ _ _ _).mp other)
  unfold State.freeNodes
  dsimp only
  rw [good, Bool.false_or]
  exact if_pos notAll

theorem execNallocFree_badCount {s : State} (d a b : Reg) (h : nv s b = 0 ∨ 65535 < nv s b) :
    execNallocFree d a b s = s.precise .badopnd (s.core.getG b) := by
  unfold execNallocFree
  exact if_pos (by simpa using h)

theorem execNallocFree_valid {s : State} (d : Reg) {a b : Reg} (low : 1 ≤ nv s b) (high : nv s b ≤ 65535)
    (good : nodeRefBad (s.core.getG a) = false) :
    execNallocFree d a b s =
      if refDev (s.core.getG a) ≠ s.devid then s.askNode (s.core.getG a) (.nodeFree (nv s b)) fun t _ => t.write d 0
      else match s.freeNodes (ctxOf s) (s.core.getG a) (nv s b) with
        | none => s.precise .noderef (s.core.getG a)
        | some t => t.write d 0 := by
  have count : ¬ (nv s b = 0 ∨ 65535 < nv s b) := by omega
  unfold execNallocFree
  dsimp only
  rw [if_neg (by simpa using count), if_neg (by simp [good])]
  rfl

theorem execNallocFree_local {s : State} (d : Reg) {a b : Reg} (low : 1 ≤ nv s b) (high : nv s b ≤ 65535)
    (here : localRef s (s.core.getG a)) :
    execNallocFree d a b s = match s.freeNodes (ctxOf s) (s.core.getG a) (nv s b) with
      | none => s.precise .noderef (s.core.getG a)
      | some t => t.write d 0 := by
  rw [execNallocFree_valid d low high (nodeRefBad_of_local here), if_neg (not_not.mpr (refDev_of_local here))]

theorem execNallocFree_far {s : State} (d : Reg) {a b : Reg} (low : 1 ≤ nv s b) (high : nv s b ≤ 65535)
    (h : FarRef s (s.core.getG a)) :
    execNallocFree d a b s = s.askNode (s.core.getG a) (.nodeFree (nv s b)) fun t _ => t.write d 0 := by
  rw [execNallocFree_valid d low high h.good, if_pos h.far]

/-! ### NRD and NINIT (R129, R130) -/

theorem execNrd_bad {s : State} (d : Reg) {a : Reg} (k : Fin 4) (bad : nodeRefBad (s.core.getG a) = true) :
    execNrd d a k s = s.precise .noderef (s.core.getG a) := by
  unfold execNrd
  exact if_pos bad

theorem execNrd_far {s : State} (d : Reg) {a : Reg} (k : Fin 4) (h : FarRef s (s.core.getG a)) :
    execNrd d a k s = s.askNode (s.core.getG a) (.nodeRead k.val) fun t bs => t.write d (BitVec.ofNat 64 (leVal bs)) := by
  unfold execNrd
  dsimp only
  rw [if_neg (by simp [h.good]), if_pos h.far]

theorem execNrd_unallocated {s : State} (d : Reg) {a : Reg} (k : Fin 4) (here : localRef s (s.core.getG a))
    (free : assoc (nv s a % 2 ^ 20) (s.die (nv s a / 2 ^ 42 % 4)).nodes = none) :
    execNrd d a k s = s.precise .noderef (s.core.getG a) := by
  unfold execNrd
  dsimp only
  rw [if_neg (by simp [nodeRefBad_of_local here]), if_neg (not_not.mpr (refDev_of_local here)), State.node?_of_unallocated _ here free]

theorem execNrd_record {s : State} (d : Reg) {a : Reg} (k : Fin 4) {y : Node} (h : recordAt s (s.core.getG a) y) :
    execNrd d a k s = s.write d (y.quadword k.val) := by
  have found := State.node?_of_recordAt h
  obtain ⟨here, -, -, noError⟩ := h
  unfold execNrd
  dsimp only
  rw [if_neg (by simp [nodeRefBad_of_local here]), if_neg (not_not.mpr (refDev_of_local here)), found]
  simp [noError]

/-- NINIT's image: 32 bytes of the version at an address that passes its checks (R129). -/
structure ImageAt (s : State) (va : W64) (pa : Nat) (img : List Byte) : Prop where
  checks : passesChecks s va 32 .read none false pa
  size : img.length = 32
  holds : versionHolds s pa img

theorem ImageAt.aside {s : State} {va : W64} {pa : Nat} {img : List Byte} (h : ImageAt s va pa img) : SnapsAside s (pinned s va) :=
  SnapsAside.pinned h.checks

/-- NINIT whose image the strand's version holds is done at once: it asks the record's home, traps, or writes the record. -/
theorem execNinit_image {s : State} {a b : Reg} (m : BitVec 4) {pa : Nat} {img : List Byte} (good : nodeRefBad (s.core.getG a) = false)
    (image : ImageAt s (s.core.getG b) pa img) :
    execNinit a b m s =
      let x := s.core.getG a
      let y := pinned s (s.core.getG b)
      if refDev x ≠ y.devid then y.askNode x (.nodeInit m.toNat img) fun z _ => z.pass
      else match y.node? y.core.context x with
        | none => y.precise .noderef x
        | some n => ((if n.err && m ≠ 15 then y.nodeEcc x else y).putNode x (n.init img m.toNat)).pass := by
  have holds : versionHolds (pinned s (s.core.getG b)) pa img := fun j hj => by
    rw [image.aside.version]; exact image.holds j hj
  obtain ⟨⟨passed, -, noBoundary, -⟩, size, -⟩ := image
  unfold execNinit
  dsimp only
  rw [if_neg (by simp [good]), State.withImplicit_none _ _ noBoundary]
  rcases s.addressed_cases (s.core.getG b) 32 .read none false _ with ⟨_, _, _, failed, -⟩ | ⟨_, found, e⟩
  · rw [passed] at failed; cases failed
  · rw [passed] at found
    cases found
    rw [e, ← size]
    exact State.readAs_of_versionHolds _ _ _ holds

/-- NINIT of a record of another device (R127, R129). -/
theorem execNinit_far {s : State} {a b : Reg} (m : BitVec 4) {pa : Nat} {img : List Byte} (h : FarRef s (s.core.getG a))
    (image : ImageAt s (s.core.getG b) pa img) :
    execNinit a b m s =
      (pinned s (s.core.getG b)).askNode (s.core.getG a) (.nodeInit m.toNat img) fun z _ => z.pass := by
  rw [execNinit_image m h.good image]
  exact if_pos (by rw [image.aside.devid]; exact h.far)

end Sys2Proof.Machine

namespace Sys2Proof.Proofs

open Sys2Proof.Machine Sys2Proof.Rules

/-! ### Results -/

theorem write_eq_puts (s : State) (d : Reg) {x : W64} {z : Int} (h : x = BitVec.ofInt 64 z) : s.write d x = puts s d z := by
  rw [h]; rfl

/-! ### NALLOC and NALLOC.free (R128) -/

theorem nalloc_allocates {s : State} {d a b : Reg} {c : Context} {k : Nat} (low : 1 ≤ nv s a) (high : nv s a ≤ 65535) (die : nv s b < 2)
    (ctx : s.ctx? (ctxOf s) = some c) (room : (s.die (nv s b % 2)).nodeCount (ctxOf s) + nv s a ≤ c.limNodes)
    (run : lowestRun (nv s a) 0 (s.die (nv s b % 2)).nodes = some k) :
    answers (.nalloc d a b) s d (nodeRef s.devid (nv s b % 2) k) fun t => ∀ j, assoc j (t.die (nv s b % 2)).nodes =
      if k ≤ j ∧ j < k + nv s a then some (Node.fresh (ctxOf s)) else assoc j (s.die (nv s b % 2)).nodes := by
  refine answers_of_write ((execNalloc_valid d low high die ctx).1 k room run) (by simp) (by simp) fun j => ?_
  rw [State.upd_die, State.putDie_die]
  exact assoc_putRun ..

theorem nalloc_noRoom {s : State} (d : Reg) {a b : Reg} {c : Context} (low : 1 ≤ nv s a) (high : nv s a ≤ 65535) (die : nv s b < 2)
    (ctx : s.ctx? (ctxOf s) = some c)
    (full : c.limNodes < (s.die (nv s b % 2)).nodeCount (ctxOf s) + nv s a ∨ lowestRun (nv s a) 0 (s.die (nv s b % 2)).nodes = none) :
    exec (.nalloc d a b) s = puts s d (-1) := by
  rw [exec_nalloc, (execNalloc_valid d low high die ctx).2 full]
  exact write_eq_puts _ _ (by decide)

theorem count_traps {s : State} (d b : Reg) {a : Reg} (ready : handles s) (count : nv s a = 0 ∨ 65535 < nv s a) :
    exec (.nalloc d a b) s = Rules.traps s 0x06 (s.core.getG a) s.core.pc ∧
      exec (.nallocFree d b a) s = Rules.traps s 0x06 (s.core.getG a) s.core.pc := by
  rw [exec_nalloc, exec_nallocFree, execNalloc_badCount d a b count, execNallocFree_badCount d b a count]
  exact ⟨State.precise_eq_traps .badopnd _ ready, State.precise_eq_traps .badopnd _ ready⟩

theorem nalloc_die_traps {s : State} (d : Reg) {a b : Reg} (ready : handles s) (low : 1 ≤ nv s a) (high : nv s a ≤ 65535)
    (die : 2 ≤ nv s b) : exec (.nalloc d a b) s = Rules.traps s 0x06 (s.core.getG b) s.core.pc := by
  rw [exec_nalloc, execNalloc_badDie d low high die]
  exact State.precise_eq_traps .badopnd _ ready

theorem nallocFree_frees {s : State} {d a b : Reg} (low : 1 ≤ nv s b) (high : nv s b ≤ 65535) (here : localRef s (s.core.getG a))
    (own : ownRun (s.die (nv s a / 2 ^ 42 % 4)) (ctxOf s) (nv s a % 2 ^ 20) (nv s b)) :
    answers (.nallocFree d a b) s d 0 fun t => ∀ j, assoc j (t.die (nv s a / 2 ^ 42 % 4)).nodes =
      if nv s a % 2 ^ 20 ≤ j ∧ j < nv s a % 2 ^ 20 + nv s b then none else assoc j (s.die (nv s a / 2 ^ 42 % 4)).nodes := by
  rw [← refDie_eq, ← refIdx_eq] at *
  have freed := execNallocFree_local d low high here
  rw [State.freeNodes_own (nodeRefBad_of_local here) own] at freed
  refine answers_of_write freed (by simp) (by simp) fun j => ?_
  have kept (lo hi : Nat) : (!(decide (lo ≤ j) && decide (j < hi))) = true ↔ ¬ (lo ≤ j ∧ j < hi) := by simp [imp_iff_not_or]
  rw [State.upd_die, State.putDie_die, assoc_filter_keys fun k => !(decide (_ ≤ k) && decide (k < _))]
  simp only [kept, ite_not]

theorem nallocFree_traps {s : State} (d : Reg) {a b : Reg} (low : 1 ≤ nv s b) (high : nv s b ≤ 65535) (here : localRef s (s.core.getG a))
    (other : ¬ ownRun (s.die (nv s a / 2 ^ 42 % 4)) (ctxOf s) (nv s a % 2 ^ 20) (nv s b)) (ready : handles s) :
    exec (.nallocFree d a b) s = Rules.traps s 0x0A (s.core.getG a) s.core.pc := by
  rw [← refDie_eq, ← refIdx_eq] at other
  rw [exec_nallocFree, execNallocFree_local d low high here, State.freeNodes_notOwn (nodeRefBad_of_local here) other]
  exact State.precise_eq_traps .noderef _ ready

/-! ### NRD and NINIT (R127, R129, R130) -/

theorem nrd_reads {s : State} (d : Reg) {a : Reg} (k : Fin 4) {y : Node} (h : recordAt s (s.core.getG a) y) :
    exec (.nrd d a k) s = puts s d ((y.bits.toNat / 2 ^ (64 * k.val) : Nat) : Int) := by
  rw [exec_nrd, execNrd_record d k h]
  exact write_eq_puts _ _ (BitVec.ofInt_natCast ..).symm

theorem nrd_free_traps {s : State} (d : Reg) {a : Reg} (k : Fin 4) (ready : handles s) (here : localRef s (s.core.getG a))
    (free : assoc (nv s a % 2 ^ 20) (s.die (nv s a / 2 ^ 42 % 4)).nodes = none) :
    exec (.nrd d a k) s = Rules.traps s 0x0A (s.core.getG a) s.core.pc := by
  rw [exec_nrd, execNrd_unallocated d k here free]
  exact State.precise_eq_traps .noderef _ ready

theorem nrd_bad_traps {s : State} (d : Reg) {a : Reg} (k : Fin 4) (ready : handles s)
    (bad : 2 ≤ nv s a / 2 ^ 42 % 4 ∨ nv s a / 2 ^ 20 % 2 ^ 22 ≠ 0) :
    exec (.nrd d a k) s = Rules.traps s 0x0A (s.core.getG a) s.core.pc := by
  rw [exec_nrd, execNrd_bad d k ((nodeRefBad_iff _).mpr bad)]
  exact State.precise_eq_traps .noderef _ ready

/-- NINIT of a record of this device: what it leaves in the record (R129). -/
theorem ninit_writes {s : State} {a b : Reg} (m : BitVec 4) {pa : Nat} {img : List Byte} {y : Node} (h : recordAt s (s.core.getG a) y)
    (image : ImageAt s (s.core.getG b) pa img) :
    ∃ t, exec (.ninit a b m) s = .next t ∧ t.core.pc = s.core.pc + 4 ∧ t.core.g = s.core.g ∧ t.mem = s.mem ∧
      assoc (nv s a % 2 ^ 20) (t.die (nv s a / 2 ^ 42 % 4)).nodes = some (y.init img m.toNat) ∧ (y.init img m.toNat).err = false := by
  have aside := image.aside
  have found := State.node?_of_recordAt (aside.recordAt h)
  obtain ⟨here, -, -, noError⟩ := aside.recordAt h
  have done : exec (.ninit a b m) s = ((pinned s (s.core.getG b)).putNode (s.core.getG a) (y.init img m.toNat)).pass := by
    rw [exec_ninit, execNinit_image m (nodeRefBad_of_local here) image]
    dsimp only
    rw [if_neg (not_not.mpr (refDev_of_local here)), found]
    simp [noError]
  refine ⟨_, done, ?_, ?_, ?_, ?_, Node.init_err img _ noError⟩
  · simp [State.putNode, aside.pc]
  · simp [State.putNode, aside.g]
  · simp [State.putNode, aside.mem]
  · rw [← refIdx_eq, ← refDie_eq, State.upd_die, State.putNode, State.putDie_die, assoc_assocPut_same]

theorem nrd_far {s : State} (d : Reg) {a : Reg} (k : Fin 4) (h : FarRef s (s.core.getG a)) :
    let u := s.upd { s.core with remote := none }
    (s.core.remote = none → exec (.nrd d a k) s = .next (asksNode s (s.core.getG a) (.nodeRead k.val))) ∧
    (∀ bs, heardNode s (s.core.getG a) (.data bs) →
      exec (.nrd d a k) s = .next (u.upd (u.core.setG d (BitVec.ofNat 64 (leVal bs))).next)) := by
  rw [exec_nrd, execNrd_far d k h]
  refine ⟨State.askNode_unasked _ _ _ h.valid, fun bs heard => ?_⟩
  rw [State.askNode_data _ _ h.valid heard]
  rfl

theorem nallocFree_far {s : State} (d : Reg) {a b : Reg} (h : FarRef s (s.core.getG a)) (low : 1 ≤ nv s b) (high : nv s b ≤ 65535) :
    let u := s.upd { s.core with remote := none }
    (s.core.remote = none → exec (.nallocFree d a b) s = .next (asksNode s (s.core.getG a) (.nodeFree (nv s b)))) ∧
    (heardNode s (s.core.getG a) .done → exec (.nallocFree d a b) s = .next (u.upd (u.core.setG d 0).next)) := by
  rw [exec_nallocFree, execNallocFree_far d low high h]
  refine ⟨State.askNode_unasked _ _ _ h.valid, fun heard => ?_⟩
  rw [State.askNode_done _ _ h.valid heard]
  rfl

theorem ninit_asks {s : State} {a b : Reg} (m : BitVec 4) {pa : Nat} {img : List Byte} (h : FarRef s (s.core.getG a))
    (image : ImageAt s (s.core.getG b) pa img) (quiet : s.core.remote = none) :
    exec (.ninit a b m) s = .next (asksNode (pinned s (s.core.getG b)) (s.core.getG a) (.nodeInit m.toNat img)) := by
  rw [exec_ninit, execNinit_far m h image]
  exact State.askNode_unasked _ _ _ (image.aside.devValid.trans h.valid) (image.aside.remote.trans quiet)

theorem ninit_answered {s : State} {a b : Reg} (m : BitVec 4) {pa : Nat} {img : List Byte} (h : FarRef s (s.core.getG a))
    (image : ImageAt s (s.core.getG b) pa img) (heard : heardNode s (s.core.getG a) .done) :
    ∃ t, exec (.ninit a b m) s = .next t ∧ t.core.pc = s.core.pc + 4 ∧ t.core.remote = none ∧ t.core.g = s.core.g ∧ t.mem = s.mem := by
  have aside := image.aside
  have stillHeard : heardNode (pinned s (s.core.getG b)) (s.core.getG a) .done := by rw [heardNode, aside.remote]; exact heard
  rw [exec_ninit, execNinit_far m h image, State.askNode_done _ _ (aside.devValid.trans h.valid) stillHeard]
  exact ⟨_, rfl, by simp [aside.pc], rfl, by simp [aside.g], aside.mem⟩

/-- Settles O24: NALLOC and NALLOC.free by what they do to a list kept by key, NINIT by the bits of the groups it replaces, and the questions
to another device by their answers; each trap is `State.precise_eq_traps`. -/
theorem nodeRecordsComplete : Obligations.NodeRecordsComplete := by
  unfold Obligations.NodeRecordsComplete
  refine ⟨fun s d a b => ⟨fun low high die c ctx => ⟨fun k room run => nalloc_allocates low high die ctx room run,
      nalloc_noRoom d low high die ctx⟩, fun ready count => count_traps d b ready count, nalloc_die_traps d⟩, ?_,
    fun s d a b here low high => ⟨nallocFree_frees low high here, nallocFree_traps d low high here⟩,
    fun s d a k => ⟨fun y h => nrd_reads d k h, nrd_free_traps d k, nrd_bad_traps d k⟩, ?_, ?_⟩
  · intro n start l k _ above rising found
    obtain ⟨-, free, bound⟩ := lowestRun_free above rising found
    by_cases high : ∃ e ∈ l, 2 ^ 20 ≤ e.1
    · exact .inr high
    · refine .inl ⟨free, bound.elim id fun ⟨e, he, ends⟩ => ?_⟩
      by_contra beyond
      exact high ⟨e, he, by omega⟩
  · intro s a b m pa img y h checks size holds
    obtain ⟨t, done, pc, g, mem, record, noError⟩ := ninit_writes m h ⟨checks, size, holds⟩
    exact ⟨t, _, done, pc, g, mem, record, Node.init_ctx y img _, noError, fun i hi => Node.init_bits y img m hi⟩
  · intro s d a b k valid dev die res
    have h : FarRef s (s.core.getG a) := ⟨valid, nodeRefBad_false die res, by rwa [refDev_eq]⟩
    obtain ⟨readAsks, readHears⟩ := nrd_far d k h
    exact ⟨readAsks, readHears, nallocFree_far d h, fun m pa img checks size holds =>
      ⟨ninit_asks m h ⟨checks, size, holds⟩, ninit_answered m h ⟨checks, size, holds⟩⟩⟩

end Sys2Proof.Proofs
end

