-- ==== Sys2Proof/Proofs/IntegerWords.lean ====
section
/-! SUPPORT. Proofs/IntegerWords.lean: the sequencer's registers (O2), and the number that each integer and bit operation writes (O3). -/

namespace Sys2Proof.Machine

open Sys2Proof.Rules

/-! ### Registers (R43, R56, log 55) -/

theorem Core.getG_zero (c : Core) : c.getG 0 = 0 := if_pos rfl

theorem Core.setG_zero (c : Core) (x : W64) : c.setG 0 x = c := if_pos rfl

theorem Core.setG_eq (c : Core) {r : Reg} (x : W64) (h : r ≠ 0) : c.setG r x = { c with g := c.g.set r x, loads := c.orphan r } :=
  if_neg h

theorem Core.getG_setG_same (c : Core) {r : Reg} (x : W64) (h : r ≠ 0) : (c.setG r x).getG r = x := by
  rw [c.setG_eq x h]
  simp [Core.getG, h]

theorem Core.getG_setG_other (c : Core) {r k : Reg} (x : W64) (h : k ≠ r) : (c.setG r x).getG k = c.getG k := by
  by_cases z : r = 0
  · rw [z, c.setG_zero]
  · have apart : r.val ≠ k.val := fun e => h (Fin.ext e.symm)
    rw [c.setG_eq x z]
    simp [Core.getG, Vector.getElem_set_ne, apart]

theorem Core.setG_frame (c : Core) (r : Reg) (x : W64) : { c.setG r x with g := c.g, loads := c.loads } = c := by
  unfold Core.setG
  split <;> rfl

/-! ### Numbers as register values (R56) -/

theorem eq_ofInt_of_toInt {x : W64} {z : Int} (h : x.toInt = z) : x = BitVec.ofInt 64 z := by rw [← h, BitVec.ofInt_toInt]

theorem eq_ofInt_of_toNat {x : W64} {n : Nat} (h : x.toNat = n % 2 ^ 64) : x = BitVec.ofInt 64 n := by
  rw [BitVec.ofInt_natCast]
  exact BitVec.eq_of_toNat_eq (by rw [h, BitVec.toNat_ofNat])

theorem ofInt_sub_two_pow (r n : Nat) (h : n ≤ 64) :
    BitVec.ofInt 64 ((r : Int) - 2 ^ n) = BitVec.ofNat 64 (r + (2 ^ 64 - 2 ^ n)) := by
  have le : 2 ^ n ≤ 2 ^ 64 := Nat.pow_le_pow_right (by decide) h
  have shift : (r : Int) - 2 ^ n = ((r + (2 ^ 64 - 2 ^ n) : Nat) : Int) - (2 ^ 64 : Nat) := by
    rw [Nat.cast_add, Nat.cast_sub le]
    push_cast
    ring
  rw [shift, ← BitVec.ofInt_natCast]
  exact BitVec.eq_of_toInt_eq (by rw [BitVec.toInt_ofInt, BitVec.toInt_ofInt, Int.sub_bmod_right])

/-- Sign extension gives the signed number of n bits. -/
theorem sext_eq_ofInt (n v : Nat) (h : n ≤ 64) : sext n v = BitVec.ofInt 64 (sval n v) := by
  unfold sext sval
  dsimp only
  split
  · rw [ofInt_sub_two_pow _ _ h]
  · rw [BitVec.ofInt_natCast]

theorem sval_toNat {n : Nat} (i : BitVec n) : sval n i.toNat = i.toInt := by
  rw [sval, BitVec.toInt_eq_toNat_cond, Nat.mod_eq_of_lt i.isLt]
  by_cases h : 2 ^ n ≤ 2 * i.toNat
  · rw [if_pos h, if_neg (by omega)]
    push_cast
    rfl
  · rw [if_neg h, if_pos (by omega)]

theorem immS_eq_ofInt {n : Nat} (i : BitVec n) (h : n ≤ 64) : immS i = BitVec.ofInt 64 (simm i) := by
  rw [immS, sext_eq_ofInt _ _ h, sval_toNat]
  rfl

theorem toInt_immS {n : Nat} (i : BitVec n) (h : 0 < n) (hn : n ≤ 64) : (immS i).toInt = simm i := by
  rw [immS_eq_ofInt i hn, BitVec.toInt_ofInt, simm]
  have low := @BitVec.le_toInt n i
  have high := @BitVec.toInt_lt n i
  have grow : (2 : Int) ^ (n - 1) ≤ 2 ^ 63 := pow_le_pow_right₀ (by decide) (by omega)
  exact Int.bmod_eq_of_le (by norm_num; omega) (by norm_num; omega)

theorem toNat_immZ {n : Nat} (i : BitVec n) (h : n ≤ 64) : (immZ i).toNat = i.toNat := by
  rw [immZ, BitVec.toNat_ofNat]
  exact Nat.mod_eq_of_lt (i.isLt.trans_le (Nat.pow_le_pow_right (by decide) h))

theorem bit1_eq_ofInt {b : Bool} {p : Prop} [Decidable p] (h : b = true ↔ p) : bit1 b = BitVec.ofInt 64 (one p) := by
  by_cases hp : p
  · simp [bit1, one, h.mpr hp, hp]
  · simp [bit1, one, Bool.eq_false_iff.mpr (mt h.mp hp), hp]

/-! ### Arithmetic (R58, R59) -/

theorem add_eq_ofInt (x y : W64) : x + y = BitVec.ofInt 64 (x.toInt + y.toInt) :=
  BitVec.eq_of_toInt_eq (by rw [BitVec.toInt_add, BitVec.toInt_ofInt])

theorem sub_eq_ofInt (x y : W64) : x - y = BitVec.ofInt 64 (x.toInt - y.toInt) :=
  BitVec.eq_of_toInt_eq (by rw [BitVec.toInt_sub, BitVec.toInt_ofInt])

theorem mul_eq_ofInt (x y : W64) : x * y = BitVec.ofInt 64 (x.toInt * y.toInt) :=
  BitVec.eq_of_toInt_eq (by rw [BitVec.toInt_mul, BitVec.toInt_ofInt])

theorem toInt_eq_zero_iff (x : W64) : x.toInt = 0 ↔ x = 0 := by rw [← BitVec.toInt_inj]; rfl

theorem toNat_eq_zero_iff (x : W64) : x.toNat = 0 ↔ x = 0 := by rw [← BitVec.toNat_inj]; rfl

theorem divS_eq_ofInt (x y : W64) : divS x y = BitVec.ofInt 64 (if y.toInt = 0 then -1 else x.toInt.tdiv y.toInt) := by
  simp only [divS, toInt_eq_zero_iff]
  split <;> rfl

theorem divU_eq_ofInt (x y : W64) : divU x y = BitVec.ofInt 64 (if y.toNat = 0 then -1 else (x.toNat / y.toNat : Nat)) := by
  simp only [divU, toNat_eq_zero_iff]
  split
  · rfl
  · rw [BitVec.ofInt_natCast]

theorem remS_eq_ofInt (x y : W64) : remS x y = BitVec.ofInt 64 (if y.toInt = 0 then x.toInt else x.toInt.tmod y.toInt) := by
  simp only [remS, toInt_eq_zero_iff]
  split
  · rw [BitVec.ofInt_toInt]
  · rfl

theorem remU_eq_ofInt (x y : W64) : remU x y = BitVec.ofInt 64 (if y.toNat = 0 then x.toNat else (x.toNat % y.toNat : Nat)) := by
  simp only [remU, toNat_eq_zero_iff]
  split
  · exact eq_ofInt_of_toNat (Nat.mod_eq_of_lt x.isLt).symm
  · rw [BitVec.ofInt_natCast]

theorem toInt_minS (x y : W64) : (minS x y).toInt = min x.toInt y.toInt := by
  unfold minS
  split
  · rename_i h; rw [min_eq_left (BitVec.slt_iff_toInt_lt.mp h).le]
  · rename_i h; rw [min_eq_right (not_lt.mp (mt BitVec.slt_iff_toInt_lt.mpr h))]

theorem toInt_maxS (x y : W64) : (maxS x y).toInt = max x.toInt y.toInt := by
  unfold maxS
  split
  · rename_i h; rw [max_eq_right (BitVec.slt_iff_toInt_lt.mp h).le]
  · rename_i h; rw [max_eq_left (not_lt.mp (mt BitVec.slt_iff_toInt_lt.mpr h))]

theorem toNat_minU (x y : W64) : (minU x y).toNat = min x.toNat y.toNat := by
  unfold minU
  split
  · rename_i h; rw [min_eq_left (BitVec.ult_iff_lt.mp h).le]
  · rename_i h; rw [min_eq_right (not_lt.mp (mt BitVec.ult_iff_lt.mpr h))]

theorem toNat_maxU (x y : W64) : (maxU x y).toNat = max x.toNat y.toNat := by
  unfold maxU
  split
  · rename_i h; rw [max_eq_right (BitVec.ult_iff_lt.mp h).le]
  · rename_i h; rw [max_eq_left (not_lt.mp (mt BitVec.ult_iff_lt.mpr h))]

/-- The register value whose number is in range is that number's. -/
theorem eq_ofInt_toNat {x : W64} {n : Nat} (h : x.toNat = n) : x = BitVec.ofInt 64 n :=
  eq_ofInt_of_toNat (by rw [← h, Nat.mod_eq_of_lt x.isLt])

theorem shl_eq_ofInt (x : W64) (k : Nat) : x <<< k = BitVec.ofInt 64 (x.toNat * 2 ^ k : Nat) :=
  eq_ofInt_of_toNat (by rw [BitVec.toNat_shiftLeft, Nat.shiftLeft_eq])

theorem shr_eq_ofInt (x : W64) (k : Nat) : x >>> k = BitVec.ofInt 64 (x.toNat / 2 ^ k : Nat) :=
  eq_ofInt_toNat (by rw [BitVec.toNat_ushiftRight, Nat.shiftRight_eq_div_pow])

theorem sar_eq_ofInt (x : W64) (k : Nat) : x.sshiftRight k = BitVec.ofInt 64 (x.toInt / 2 ^ k) :=
  eq_ofInt_of_toInt (by rw [BitVec.toInt_sshiftRight, Int.shiftRight_eq_div_pow]; rfl)

theorem sel_eq_ofInt (x y z : W64) : (if z ≠ 0 then x else y) = BitVec.ofInt 64 (if z.toNat ≠ 0 then x.toInt else y.toInt) := by
  simp only [ne_eq, toNat_eq_zero_iff]
  split <;> rw [BitVec.ofInt_toInt]

/-! ### Counts of bits (R58) -/

/-- The lowest number with a property is the lowest from which on one at or below it has the property. -/
theorem find?_range_first {n : Nat} {p q : Nat → Bool} (h : ∀ k, q k = true ↔ ∃ j ≤ k, p j = true) :
    (List.range n).find? q = (List.range n).find? p := by
  cases found : (List.range n).find? p with
  | none =>
    refine List.find?_eq_none.mpr fun k hk hq => ?_
    obtain ⟨j, le, hp⟩ := (h k).mp hq
    exact List.find?_eq_none.mp found j (List.mem_range.mpr (le.trans_lt (List.mem_range.mp hk))) hp
  | some k =>
    obtain ⟨hp, inside, first⟩ := List.find?_range_eq_some.mp found
    refine List.find?_range_eq_some.mpr ⟨(h k).mpr ⟨k, le_rfl, hp⟩, inside, fun j hj => ?_⟩
    rw [Bool.not_eq_true', Bool.eq_false_iff]
    intro hq
    obtain ⟨i, le, hi⟩ := (h j).mp hq
    have := first i (le.trans_lt hj)
    simp [hi] at this

theorem mod_two_pow_succ_ne_zero_iff (x k : Nat) : x % 2 ^ (k + 1) ≠ 0 ↔ ∃ j ≤ k, x.testBit j = true := by
  constructor
  · intro h
    obtain ⟨j, hj⟩ := Nat.exists_testBit_of_ne_zero h
    rw [Nat.testBit_mod_two_pow, Bool.and_eq_true, decide_eq_true_iff] at hj
    exact ⟨j, by omega, hj.2⟩
  · rintro ⟨j, le, hj⟩ zero
    have := Nat.testBit_mod_two_pow x (k + 1) j
    rw [zero, Nat.zero_testBit, hj, decide_eq_true (by omega)] at this
    cases this

theorem trailingZeros_eq (x : W64) : trailingZeros x = ctz x.toNat := by
  refine congrArg (·.getD 64) (find?_range_first fun k => ?_).symm
  rw [decide_eq_true_iff, mod_two_pow_succ_ne_zero_iff]
  rfl

theorem leadingZeros_eq (x : W64) : leadingZeros x = clz x.toNat := by
  unfold leadingZeros clz
  split
  · rename_i zero
    have none_ : (List.range 64).find? (fun k => decide (2 ^ (63 - k) ≤ x.toNat)) = none :=
      List.find?_eq_none.mpr fun k _ => by simp [zero]
    rw [none_]; rfl
  · rename_i nonzero
    have pos : x.toNat ≠ 0 := mt (toNat_eq_zero_iff x).mp nonzero
    have top : Nat.log2 x.toNat < 64 := (Nat.log2_lt pos).mpr x.isLt
    have found : (List.range 64).find? (fun k => decide (2 ^ (63 - k) ≤ x.toNat)) = some (63 - Nat.log2 x.toNat) := by
      refine List.find?_range_eq_some.mpr ⟨?_, List.mem_range.mpr (by omega), fun j hj => ?_⟩
      · rw [decide_eq_true_iff, show 63 - (63 - Nat.log2 x.toNat) = Nat.log2 x.toNat by omega]
        exact Nat.log2_self_le pos
      · have below : x.toNat < 2 ^ (63 - j) := (Nat.log2_lt pos).mp (by omega)
        simpa using below
    rw [found]; rfl

theorem length_filter_eq_sum {α : Type} (p : α → Bool) (l : List α) : (l.filter p).length = (l.map fun x => (p x).toNat).sum := by
  induction l with
  | nil => rfl
  | cons x t ih => cases h : p x <;> simp [h, ih, Nat.add_comm]

theorem onesOf_eq (x : W64) : onesOf x = ones x.toNat := by
  rw [onesOf, length_filter_eq_sum, ones]
  exact congrArg List.sum (List.map_congr_left fun k _ => Nat.toNat_testBit x.toNat k)

/-! ### Fields (R60, R61) -/

theorem extField_eq_ofInt (x : W64) (signed : Bool) (p : Nat) {len : Nat} (low : 1 ≤ len) (high : len ≤ 64) :
    extField x signed p len = BitVec.ofInt 64 (field x.toNat signed p len) := by
  have double : 2 ^ len = 2 * 2 ^ (len - 1) := by rw [← Nat.pow_succ', Nat.succ_eq_add_one, Nat.sub_add_cancel low]
  unfold extField field
  cases signed with
  | false => exact (BitVec.ofInt_natCast _ _).symm
  | true =>
    dsimp only
    rw [if_pos rfl, sext_eq_ofInt _ _ high, sval, Nat.mod_mod]
    by_cases h : 2 ^ (len - 1) ≤ x.toNat / 2 ^ p % 2 ^ len
    · rw [if_pos (by omega), if_pos (by simpa using h)]
    · rw [if_neg (by omega), if_neg (by simpa using h)]

/-- The number of `insert` is no less than 0: the field is cut out of the number. -/
theorem insert_eq_natCast (x y p len : Nat) :
    insert x y p len = ((x - x / 2 ^ p % 2 ^ len * 2 ^ p + y % 2 ^ len * 2 ^ p : Nat) : Int) := by
  have le : x / 2 ^ p % 2 ^ len * 2 ^ p ≤ x :=
    (Nat.mul_le_mul_right _ (Nat.mod_le _ _)).trans (Nat.div_mul_le_self _ _)
  unfold Rules.insert
  push_cast [Nat.cast_sub le]
  rfl

theorem getLsbD_insField (x y : W64) (p len : Nat) {i : Nat} (h : i < 64) :
    (insField x y p len).getLsbD i = if p ≤ i ∧ i < p + len then y.getLsbD (i - p) else x.getLsbD i := by
  simp only [insField, BitVec.getLsbD_or, BitVec.getLsbD_and, BitVec.getLsbD_not, BitVec.getLsbD_ofNat, BitVec.getLsbD_shiftLeft,
    Nat.testBit_mul_two_pow, Nat.testBit_two_pow_sub_one, h, decide_true, Bool.true_and]
  by_cases low : p ≤ i
  · by_cases inside : i - p < len
    · simp [low, inside, show i < p + len by omega]
    · simp [low, inside, show ¬ i < p + len by omega]
  · simp [low]

theorem insField_eq_ofInt (x y : W64) (p len : Nat) : insField x y p len = BitVec.ofInt 64 (insert x.toNat y.toNat p len) := by
  rw [insert_eq_natCast, BitVec.ofInt_natCast]
  refine BitVec.eq_of_getLsbD_eq fun i hi => ?_
  rw [getLsbD_insField x y p len hi, BitVec.getLsbD_ofNat, testBit_fieldReplaced, decide_eq_true hi, Bool.true_and]
  rfl

/-- LIM with keep puts its constant into a field of 16 bits (R61). -/
theorem limKeep_eq (x : W64) (i : BitVec 16) (n : Nat) :
    (x &&& ~~~((0xFFFF : W64) <<< (16 * n))) ||| immZ i <<< (16 * n) = insField x (immZ i) (16 * n) 16 := by
  refine BitVec.eq_of_getLsbD_eq fun j hj => ?_
  have constant (k : Nat) : (immZ i).getLsbD k = (decide (k < 16) && i.getLsbD k) := by
    rw [immZ, BitVec.getLsbD_ofNat]
    by_cases h : k < 16
    · simp [h, show k < 64 by omega, BitVec.getLsbD]
    · simp [h, Nat.testBit_lt_two_pow (i.isLt.trans_le (Nat.pow_le_pow_right (by decide) (not_lt.mp h)))]
  have mask (k : Nat) : (0xFFFF : W64).getLsbD k = decide (k < 16) := by
    rw [show (0xFFFF : W64) = BitVec.ofNat 64 (2 ^ 16 - 1) from rfl, BitVec.getLsbD_ofNat, Nat.testBit_two_pow_sub_one]
    by_cases h : k < 16
    · simp [h, show k < 64 by omega]
    · simp [h]
  rw [getLsbD_insField x _ _ _ hj]
  simp only [BitVec.getLsbD_or, BitVec.getLsbD_and, BitVec.getLsbD_not, BitVec.getLsbD_shiftLeft, constant, mask, hj, decide_true,
    Bool.true_and]
  by_cases low : 16 * n ≤ j
  · by_cases inside : j - 16 * n < 16
    · simp [low, inside, show j < 16 * n + 16 by omega, show ¬ j < 16 * n by omega]
    · simp [low, inside, show ¬ j < 16 * n + 16 by omega]
  · simp [low, show j < 16 * n by omega]

theorem fieldLen_pos (b : Nat) : 1 ≤ fieldLen b ∧ fieldPos b + fieldLen b ≤ 64 := by
  have : fieldPos b < 64 := Nat.mod_lt _ (by decide)
  unfold fieldLen
  omega

/-- The length of a field as EXT and INS read it out of a register (R60). -/
theorem min_bitsOf_eq_fieldLen (z : W64) : min (bitsOf z 5 0 + 1) (64 - bitsOf z 11 6) = fieldLen z.toNat := by
  rw [bitsOf, Nat.pow_zero, Nat.div_one]
  rfl

theorem extField_fields_eq_ofInt (x z : W64) :
    extField x (bitsOf z 12 12 == 1) (bitsOf z 11 6) (min (bitsOf z 5 0 + 1) (64 - bitsOf z 11 6)) =
      BitVec.ofInt 64 (field x.toNat (z.toNat / 2 ^ 12 % 2 = 1) (fieldPos z.toNat) (fieldLen z.toNat)) := by
  have bounds := fieldLen_pos z.toNat
  rw [min_bitsOf_eq_fieldLen, extField_eq_ofInt _ _ _ bounds.1 (by omega)]
  rfl

theorem insField_fields_eq_ofInt (x y z : W64) :
    insField x y (bitsOf z 11 6) (min (bitsOf z 5 0 + 1) (64 - bitsOf z 11 6)) =
      BitVec.ofInt 64 (insert x.toNat y.toNat (fieldPos z.toNat) (fieldLen z.toNat)) := by
  rw [min_bitsOf_eq_fieldLen, insField_eq_ofInt]
  rfl

end Sys2Proof.Machine

namespace Sys2Proof.Proofs

open Sys2Proof.Machine Sys2Proof.Rules

/-- Settles O2, from the equations of reading and writing a register. -/
theorem registerZeroAndWrites : Obligations.RegisterZeroAndWrites := by
  unfold Obligations.RegisterZeroAndWrites
  exact ⟨Core.getG_zero, Core.setG_zero, fun c _ x h => c.getG_setG_same x h, fun c _ _ x h => c.getG_setG_other x h, Core.setG_frame,
    fun c _ x h => by rw [c.setG_eq x h]; rfl⟩

/-- Settles O3: each word writes one register, with the value that its number has there. -/
theorem integerForms : Obligations.IntegerForms := by
  unfold Obligations.IntegerForms
  refine ⟨fun s d a b c => ?_, fun s d a => ⟨fun i => ?_, fun i => ?_, fun k => ?_, fun p l inside => ?_, fun lane i => ?_⟩⟩
  · exact ⟨write_eq_puts _ _ (add_eq_ofInt _ _), write_eq_puts _ _ (sub_eq_ofInt _ _), write_eq_puts _ _ (mul_eq_ofInt _ _),
      write_eq_puts _ _ rfl, write_eq_puts _ _ (divS_eq_ofInt _ _), write_eq_puts _ _ (divU_eq_ofInt _ _),
      write_eq_puts _ _ (remS_eq_ofInt _ _), write_eq_puts _ _ (remU_eq_ofInt _ _),
      write_eq_puts _ _ (eq_ofInt_toNat (BitVec.toNat_and _ _)), write_eq_puts _ _ (eq_ofInt_toNat (BitVec.toNat_or _ _)),
      write_eq_puts _ _ (eq_ofInt_toNat (BitVec.toNat_xor _ _)),
      write_eq_puts _ _ (eq_ofInt_toNat (by rw [BitVec.toNat_and, BitVec.toNat_not])), write_eq_puts _ _ (shl_eq_ofInt _ _),
      write_eq_puts _ _ (shr_eq_ofInt _ _), write_eq_puts _ _ (sar_eq_ofInt _ _),
      write_eq_puts _ _ (eq_ofInt_of_toInt (toInt_minS _ _)), write_eq_puts _ _ (eq_ofInt_of_toInt (toInt_maxS _ _)),
      write_eq_puts _ _ (eq_ofInt_toNat (toNat_minU _ _)), write_eq_puts _ _ (eq_ofInt_toNat (toNat_maxU _ _)),
      write_eq_puts _ _ (bit1_eq_ofInt BitVec.slt_iff_toInt_lt), write_eq_puts _ _ (bit1_eq_ofInt BitVec.ult_iff_lt),
      write_eq_puts _ _ (bit1_eq_ofInt (by rw [beq_iff_eq, BitVec.toNat_inj])), write_eq_puts _ _ (sel_eq_ofInt _ _ _),
      write_eq_puts _ _ (eq_ofInt_of_toNat (by rw [leadingZeros_eq]; rfl)),
      write_eq_puts _ _ (eq_ofInt_of_toNat (by rw [trailingZeros_eq]; rfl)),
      write_eq_puts _ _ (eq_ofInt_of_toNat (by rw [onesOf_eq]; rfl)), write_eq_puts _ _ (extField_fields_eq_ofInt _ _),
      write_eq_puts _ _ (insField_fields_eq_ofInt _ _ _)⟩
  · have signed : (immS i).toInt = simm i := toInt_immS i (by decide) (by decide)
    have unsigned : (immZ i).toNat = i.toNat := toNat_immZ i (by decide)
    refine ⟨write_eq_puts _ _ ?_, write_eq_puts _ _ ?_, write_eq_puts _ _ ?_, write_eq_puts _ _ ?_, write_eq_puts _ _ ?_,
      write_eq_puts _ _ ?_, write_eq_puts _ _ ?_,
      write_eq_puts _ _ ?_⟩
    · rw [add_eq_ofInt, signed]
    · rw [mul_eq_ofInt, signed]
    · exact eq_ofInt_toNat (by rw [BitVec.toNat_and, unsigned])
    · exact eq_ofInt_toNat (by rw [BitVec.toNat_or, unsigned])
    · exact eq_ofInt_toNat (by rw [BitVec.toNat_xor, unsigned])
    · exact bit1_eq_ofInt (by rw [BitVec.slt_iff_toInt_lt, signed])
    · exact bit1_eq_ofInt (by rw [BitVec.ult_iff_lt, BitVec.lt_def, unsigned])
    · exact bit1_eq_ofInt (by rw [beq_iff_eq, ← BitVec.toInt_inj, signed])
  · have signed : (immS i).toInt = simm i := toInt_immS i (by decide) (by decide)
    have unsigned : (immZ i).toNat = i.toNat := toNat_immZ i (by decide)
    refine ⟨write_eq_puts _ _ (eq_ofInt_of_toInt ?_), write_eq_puts _ _ (eq_ofInt_of_toInt ?_), write_eq_puts _ _ (eq_ofInt_toNat ?_),
      write_eq_puts _ _ (eq_ofInt_toNat ?_)⟩
    · rw [toInt_minS, signed]
    · rw [toInt_maxS, signed]
    · rw [toNat_minU, unsigned]
    · rw [toNat_maxU, unsigned]
  · exact ⟨write_eq_puts _ _ (shl_eq_ofInt _ _), write_eq_puts _ _ (shr_eq_ofInt _ _), write_eq_puts _ _ (sar_eq_ofInt _ _)⟩
  · exact ⟨fun g => write_eq_puts _ _ (extField_eq_ofInt _ _ _ (by omega) (by omega)), write_eq_puts _ _ (insField_eq_ofInt _ _ _ _)⟩
  · have constant : (immZ i).toNat = i.toNat := toNat_immZ i (by decide)
    constructor
    · exact write_eq_puts _ _ ((shl_eq_ofInt _ _).trans (by rw [constant]))
    · exact write_eq_puts _ _ ((limKeep_eq _ _ _).trans (by rw [insField_eq_ofInt, constant]))

end Sys2Proof.Proofs
end

