-- ==== Sys2Proof/Proofs/ControlFlow.lean ====
section
/-! SUPPORT. Proofs/ControlFlow.lean: where branches, jumps and calls lead (O6), and loops as they open, repeat, end and are read (O7). -/

namespace Sys2Proof.Machine

open Sys2Proof.Rules

/-! ### Blocks and targets (R37, R42) -/

theorem blk_eq_block (a : W64) : blk a = block a := by
  refine BitVec.eq_of_getLsbD_eq fun i hi => ?_
  have mask : (0x3F : W64).getLsbD i = decide (i < 6) := by
    rw [show (0x3F : W64) = BitVec.ofNat 64 (2 ^ 6 - 1) from rfl, BitVec.getLsbD_ofNat, Nat.testBit_two_pow_sub_one, decide_eq_true hi,
      Bool.true_and]
  rw [blk, block, BitVec.getLsbD_and, BitVec.getLsbD_not, mask, decide_eq_true hi, Bool.true_and, BitVec.getLsbD_ofNat, decide_eq_true hi,
    Bool.true_and, show a.toNat / 64 * 64 = a.toNat / 2 ^ 6 * 2 ^ 6 from rfl, Nat.testBit_mul_two_pow, Nat.testBit_div_two_pow]
  by_cases h : 6 ≤ i
  · rw [Nat.sub_add_cancel h, decide_eq_true h, decide_eq_false (by omega), Bool.not_false, Bool.and_true, Bool.true_and]
    rfl
  · rw [decide_eq_false h, decide_eq_true (by omega), Bool.not_true, Bool.and_false, Bool.false_and]

theorem toNat_block (a : W64) : (block a).toNat = a.toNat / 64 * 64 := by
  rw [block, BitVec.toNat_ofNat]
  exact Nat.mod_eq_of_lt ((Nat.div_mul_le_self _ _).trans_lt a.isLt)

theorem blockTarget_eq_target (s : State) {n : Nat} (o : BitVec n) (h : n ≤ 64) : blockTarget s.core.pc n o.toNat = target s o.toInt := by
  rw [blockTarget, target, blk_eq_block, sext_eq_ofInt _ _ h, sval_toNat, BitVec.ofInt_add, BitVec.ofInt_natCast, BitVec.ofNat_toNat,
    BitVec.setWidth_eq, mul_comm (64 : Int), BitVec.ofInt_mul]
  rfl

/-! ### Jumps (R67, R68, R71) -/

theorem Core.inEndBlock_iff {s : State} {c : Core} (pc : c.pc = s.core.pc) (loops : c.loops = s.core.loops) :
    c.inEndBlock = true ↔ Rules.inEndBlock s := by
  unfold Core.inEndBlock Rules.inEndBlock
  rw [pc, loops, ← blk_eq_block]
  cases s.core.loops with
  | nil => simp
  | cons e rest => simp

open Classical in
/-- A core that stands where the strand stands, in the same loops, goes on at a taken target. -/
theorem Core.goto_eq_jumpedCore {s : State} {c : Core} (pc : c.pc = s.core.pc) (loops : c.loops = s.core.loops) (t : W64) :
    c.goto t = jumpedCore s c t := by
  have due : (c.inEndBlock && t == blk c.pc + 64) = true ↔ Rules.inEndBlock s ∧ t = block s.core.pc + 64 := by
    rw [Bool.and_eq_true, Core.inEndBlock_iff pc loops, beq_iff_eq, blk_eq_block, pc]
  unfold Core.goto jumpedCore
  rw [if_congr due rfl rfl, pc]

theorem Core.setG_pc_loops (c : Core) (r : Reg) (x : W64) : (c.setG r x).pc = c.pc ∧ (c.setG r x).loops = c.loops := by
  unfold Core.setG
  split <;> exact ⟨rfl, rfl⟩

theorem State.branch_eq (s : State) {taken : Bool} {p : Prop} [Decidable p] (o : BitVec 16) (h : taken = true ↔ p) :
    s.branch taken o = if p then jumps s (target s o.toInt) else passes s := by
  unfold State.branch
  simp only [h, blockTarget_eq_target s o (by decide), Core.goto_eq_jumpedCore (s := s) rfl rfl]
  rfl

theorem State.call_eq {s : State} (d : Reg) (t : W64) (h : ¬ Rules.inEndBlock s) :
    s.call d t = .next { s with core := jumpedCore s (s.core.setG d (block s.core.pc + 64)) t } := by
  have stays := s.core.setG_pc_loops d (blk s.core.pc + 64)
  rw [State.call, if_neg (mt (Core.inEndBlock_iff rfl rfl).mp h), Core.goto_eq_jumpedCore stays.1 stays.2, blk_eq_block]
  rfl

theorem State.call_traps {s : State} (d : Reg) (t : W64) (h : Rules.inEndBlock s) (ready : handles s) :
    s.call d t = Rules.traps s 0x05 (block s.core.pc) s.core.pc := by
  rw [State.call, if_pos ((Core.inEndBlock_iff rfl rfl).mpr h), State.precise_eq_traps _ _ ready, blk_eq_block]
  rfl

theorem execJr_of_aligned {s : State} {a : Reg} (h : nv s a % 64 = 0) : exec (.jr a) s = jumps s (s.core.getG a) := by
  rw [jumps, ← Core.goto_eq_jumpedCore rfl rfl]
  exact if_neg (not_not.mpr h)

theorem execJlr_of_aligned {s : State} (d : Reg) {a : Reg} (h : nv s a % 64 = 0) : exec (.jlr d a) s = s.call d (s.core.getG a) :=
  if_neg (not_not.mpr h)

theorem execJr_traps {s : State} {a : Reg} (h : nv s a % 64 ≠ 0) (ready : handles s) :
    exec (.jr a) s = traps s 0x02 (s.core.getG a) s.core.pc :=
  (if_pos h).trans (State.precise_eq_traps .fetchtgt _ ready)

theorem execJlr_traps {s : State} (d : Reg) {a : Reg} (h : nv s a % 64 ≠ 0) (ready : handles s) :
    exec (.jlr d a) s = traps s 0x02 (s.core.getG a) s.core.pc :=
  (if_pos h).trans (State.precise_eq_traps .fetchtgt _ ready)

/-! ### Loops (R70..R73, R80) -/

/-- The end block of a loop that is opened at the strand's word, `e` blocks on. -/
def loopEnd (s : State) (e : BitVec 8) : W64 := block s.core.pc + BitVec.ofNat 64 (64 * e.toNat)

/-- That block lies beyond the innermost loop's end. -/
def endsBeyond (s : State) (e : BitVec 8) : Prop := ∃ x rest, s.core.loops = x :: rest ∧ x.endblk.toNat < (loopEnd s e).toNat

open Classical in
/-- LOOP looks at its count, at its end, and at the stack, in this order (R70). -/
theorem State.openLoop_eq (s : State) (i : Instr) (n : W64) (e : BitVec 8) :
    s.openLoop i n e =
      if 0xFFFFFFFF < n.toNat then s.precise .badopnd n
      else if endsBeyond s e then s.precise .loopnest (loopEnd s e)
      else if n = 0 then .next { s with core := { s.core with pc := loopEnd s e + 64, reach := .along, micro := 0 } }
      else if s.core.loops.length = 6 then s.precise .loopdepth (wordOf i)
      else .next { s with core := { s.core with
        loops :=
          { start := block s.core.pc + 64, endblk := loopEnd s e, count := n.toNat, idx := 0, inst := s.core.nextInst } :: s.core.loops
        nextInst := s.core.nextInst + 1
        pc := block s.core.pc + 64
        reach := .along
        micro := 0 } } := by
  have last : block s.core.pc + BitVec.ofNat 64 (e.toNat * 64) = loopEnd s e := by rw [Nat.mul_comm]; rfl
  unfold State.openLoop
  simp only [blk_eq_block, last]
  refine if_congr Iff.rfl rfl (if_congr ?_ rfl rfl)
  unfold endsBeyond
  cases s.core.loops with
  | nil => simp
  | cons x rest => simp [BitVec.ult_iff_lt, BitVec.lt_def]

theorem Cmd.not_squashed (m : Cmd) (inst cut : Nat) :
    (!m.squashed inst cut) = (m.started || !(m.tag.any fun t => t.1 == inst && decide (cut < t.2))) := by
  rw [Cmd.squashed, Bool.not_and, Bool.not_not]

theorem State.squash_core (s : State) (inst cut : Nat) :
    (s.squash inst cut).core =
      let keep := fun (q : List Cmd) => q.filter fun m => !m.squashed inst cut
      { s.core with
        vq := keep s.core.vq, xinq := keep s.core.xinq, xoutq := keep s.core.xoutq, mq := keep s.core.mq, aq := keep s.core.aq } := by
  unfold State.squash
  dsimp only
  split <;> split <;> rfl

theorem Core.with_queues_same (c : Core) {vq xinq xoutq mq aq : List Cmd} (hvq : c.vq = vq) (hxinq : c.xinq = xinq)
    (hxoutq : c.xoutq = xoutq) (hmq : c.mq = mq) (haq : c.aq = aq) :
    { c with vq := vq, xinq := xinq, xoutq := xoutq, mq := mq, aq := aq } = c := by
  subst hvq hxinq hxoutq hmq haq
  rfl

theorem State.squash_of_no_commands {s : State} (inst cut : Nat) (vq : s.core.vq = []) (xinq : s.core.xinq = []) (xoutq : s.core.xoutq = [])
    (mq : s.core.mq = []) (aq : s.core.aq = []) : s.squash inst cut = s := by
  have same := s.core.with_queues_same vq xinq xoutq mq aq
  simp [State.squash, vq, xinq, xoutq, mq, aq, same, State.upd]

theorem State.focus_self (s : State) : s.focus s.core.id = s := if_pos rfl

/-- LOOP_END_CHECK goes where `endCheck` leads (R71). -/
theorem exec_loopEndCheck {s : State} (h : s.core.seq = .endCheck) {pc : W64} {again : Bool} {loops : List LoopEntry}
    (leads : Machine.endCheck (block s.core.pc - 64) s.core.loops = (pc, again, loops)) :
    exec (.loopEndCheck s.core.id) s = .next { s with core := { s.core with
      pc := pc, loops := loops, seq := .run, micro := 0, reach := if again then .loop else s.core.reach } } := by
  show execLoopEndCheck s.core.id s = _
  simp only [execLoopEndCheck, State.focus_self, if_pos h, blk_eq_block, leads]
  rfl

/-- An innermost loop with no iteration left is popped, and the check goes on without it (R71). -/
theorem exec_loopEndCheck_pops {s : State} (h : s.core.seq = .endCheck) {e : LoopEntry} {rest : List LoopEntry}
    (loops : s.core.loops = e :: rest) (ends : e.endblk = block s.core.pc - 64) (done : e.count ≤ e.idx + 1) :
    exec (.loopEndCheck s.core.id) s = exec (.loopEndCheck s.core.id) (s.upd { s.core with loops := rest }) := by
  have pops : Machine.endCheck (block s.core.pc - 64) s.core.loops = Machine.endCheck (block s.core.pc - 64) rest := by
    rw [loops, Machine.endCheck, if_neg (not_not.mpr ends), if_neg (not_lt.mpr done)]
  rw [exec_loopEndCheck h pops]
  exact (exec_loopEndCheck (s := s.upd { s.core with loops := rest }) h rfl).symm

end Sys2Proof.Machine

namespace Sys2Proof.Proofs

open Sys2Proof.Machine Sys2Proof.Rules

/-- Settles O6: each comparison is that of the numbers, and a jump's core is the one the rule describes. -/
theorem branchesJumpsAndCalls : Obligations.BranchesJumpsAndCalls := by
  unfold Obligations.BranchesJumpsAndCalls
  refine ⟨fun s a b o => ⟨s.branch_eq o ?_, s.branch_eq o ?_, s.branch_eq o ?_, s.branch_eq o ?_, s.branch_eq o ?_, s.branch_eq o ?_⟩,
    fun s d a o => ⟨?_, execJr_of_aligned, fun outside => ⟨?_, fun aligned => ?_⟩⟩,
    fun s d a o ready => ⟨fun odd => ⟨execJr_traps odd ready, execJlr_traps d odd ready⟩,
      fun inside => ⟨State.call_traps _ _ inside ready, fun aligned => ?_⟩⟩⟩
  · rw [beq_iff_eq, BitVec.toNat_inj]
  · rw [bne_iff_ne, Ne, Ne, BitVec.toNat_inj]
  · exact BitVec.slt_iff_toInt_lt
  · rw [Bool.not_eq_true', Bool.eq_false_iff, Ne, BitVec.slt_iff_toInt_lt, not_lt]
  · exact BitVec.ult_iff_lt
  · rw [Bool.not_eq_true', Bool.eq_false_iff, Ne, BitVec.ult_iff_lt, BitVec.lt_def, not_lt]
  · rw [jumps, ← blockTarget_eq_target s o (by decide), ← Core.goto_eq_jumpedCore rfl rfl]
    rfl
  · rw [← State.call_eq _ _ outside, ← blockTarget_eq_target s o (by decide)]
    rfl
  · rw [execJlr_of_aligned d aligned, State.call_eq _ _ outside]
  · rw [execJlr_of_aligned d aligned, State.call_traps _ _ inside ready]

theorem loop_opens {s : State} {i : Instr} {n : W64} {e : BitVec 8}
    (h : (∃ a, i = .loop a e ∧ n = s.core.getG a) ∨ ∃ k : BitVec 12, i = .loopImm k e ∧ n = BitVec.ofNat 64 k.toNat) :
    exec i s = s.openLoop i n e := by
  obtain ⟨a, rfl, rfl⟩ | ⟨k, rfl, rfl⟩ := h <;> rfl

/-- Settles O7, from what LOOP looks at in order, what a squash keeps, and the recursion of the end check. -/
theorem loopsOpenAndEnd : Obligations.LoopsOpenAndEnd := by
  unfold Obligations.LoopsOpenAndEnd
  refine ⟨fun s i n e word => ?_, fun s e rest a loops => ⟨?_, ?_, fun vq xinq xoutq mq aq => ?_⟩, fun s d k e entry => ?_,
    fun s n a => ⟨rfl, rfl⟩, fun s d a k ready => ⟨fun none_ => ⟨?_, ?_⟩, fun none_ => ?_⟩, fun s due => ?_⟩
  · rw [loop_opens word, State.openLoop_eq]
    refine ⟨fun large ready => ?_, fun small (beyond : endsBeyond s e) ready => ?_, fun zero (inside : ¬ endsBeyond s e) => ?_,
      fun more small (inside : ¬ endsBeyond s e) full ready => ?_,
      fun more small (inside : ¬ endsBeyond s e) room => ?_⟩
    · rw [if_pos large, State.precise_eq_traps _ _ ready]
      rfl
    · rw [if_neg (not_lt.mpr small), if_pos beyond, State.precise_eq_traps _ _ ready]
      rfl
    · rw [if_neg (by simp [zero]), if_neg inside, if_pos zero]
      rfl
    · rw [if_neg (not_lt.mpr small), if_neg inside, if_neg more, if_pos full, State.precise_eq_traps _ _ ready]
      rfl
    · rw [if_neg (not_lt.mpr small), if_neg inside, if_neg more, if_neg room]
      rfl
  · show execLbrk s = _
    rw [execLbrk, loops]
    rfl
  · refine ⟨_, by show execLbrkSq a s = _; rw [execLbrkSq, loops], ?_⟩
    rw [State.upd_core, State.squash_core]
    simp only [Cmd.not_squashed]
    rfl
  · show execLbrkSq a s = _
    rw [execLbrkSq, loops]
    dsimp only
    rw [State.squash_of_no_commands _ _ vq xinq xoutq mq aq]
    rfl
  · show execLidx d k s = _
    rw [execLidx, entry]
    exact write_eq_puts _ _ (BitVec.ofInt_natCast ..).symm
  · show execLbrk s = _
    rw [execLbrk, none_]
    exact State.precise_eq_traps _ _ ready
  · show execLbrkSq a s = _
    rw [execLbrkSq, none_]
    exact State.precise_eq_traps _ _ ready
  · show execLidx d k s = _
    rw [execLidx, List.getElem?_eq_none none_]
    exact State.precise_eq_traps _ _ ready
  · refine ⟨fun loops => exec_loopEndCheck due (again := false) ?_, fun e rest loops ends => exec_loopEndCheck due (again := false) ?_,
      fun e rest loops ends more => exec_loopEndCheck due (again := true) ?_,
      fun e rest loops ends done => exec_loopEndCheck_pops due loops ends done⟩
    · rw [loops, endCheck]
    · rw [loops, endCheck, if_pos ends]
    · rw [loops, endCheck, if_neg (not_not.mpr ends), if_pos more]

end Sys2Proof.Proofs
end

