-- ==== Sys2Proof/Proofs/Commands.lean ====
section
/-! SUPPORT. Proofs/Commands.lean: commands issue, and what waits for them (O12). -/

namespace Sys2Proof.Machine

open Sys2Proof.Rules

/-! ### Issue (R74..R76) -/

theorem canIssue_iff (slack outstanding : Nat) : canIssue slack outstanding = true ↔ mayIssue slack outstanding := by
  unfold canIssue mayIssue
  by_cases h : slack = 0
  · simp [h]
  · simp [h]

/-- A command with room under its slack issues (R75). -/
theorem State.issue_issues {s : State} {slack : Nat} {queue : Core → List Cmd} (enter : Core → Core) (first : s.core.micro = 0)
    (room : mayIssue slack (queue s.core).length) :
    s.issue slack queue enter = .next (s.upd (issued slack (enter { s.core with nextCmd := s.core.nextCmd + 1 }))) := by
  unfold State.issue issued
  rw [if_neg (by rw [first]; decide), (canIssue_iff _ _).mpr room, Bool.not_true, if_neg (by decide)]
  dsimp only
  split <;> rfl

theorem State.issue_stalls {s : State} {slack : Nat} {queue : Core → List Cmd} (enter : Core → Core) (first : s.core.micro = 0)
    (full : ¬ mayIssue slack (queue s.core).length) : s.issue slack queue enter = .next s := by
  unfold State.issue
  rw [if_neg (by rw [first]; decide), Bool.eq_false_iff.mpr (mt (canIssue_iff _ _).mp full), Bool.not_false, if_pos rfl]

/-- Under slack 0 the instruction waits until its queue is empty (R75). -/
theorem State.issue_again {s : State} (slack : Nat) (queue : Core → List Cmd) (enter : Core → Core) (again : s.core.micro = 1) :
    s.issue slack queue enter = if queue s.core = [] then passes s else .next s := by
  unfold State.issue
  rw [if_pos again, if_congr List.isEmpty_iff rfl rfl]
  rfl

/-! ### The first block of a transfer program (R76, R86) -/

theorem State.fetchFirst_of_ready {s : State} {kept : List (W64 × List W32)} {va : W64} (who : Agent) (keep : State → List W32 → State)
    (wait : Out) (k : State → Out) (h : blockReady s kept va) : s.fetchFirst who kept (block va) keep wait k = k s := by
  unfold State.fetchFirst
  rcases h with found | ⟨f, refused⟩ | ⟨a, ok, here, settled, notU, notLost⟩
  · rw [if_pos found]
  · rw [refused]
    split <;> rfl
  · rw [ok]
    dsimp only
    rw [if_neg (not_le.mpr here), settled, if_neg notU, notLost]
    split <;> rfl

/-- The answer of XRUN once the block of its program is on the core or can be read (R76). -/
def runTransfer (s : State) (va : W64) (m : BitVec 16) : Out :=
  match s.wordAt s.core.context (clusterOf s.core.id) s.core.ecode va with
  | none => s.precise .fetchtgt va
  | some (w, blocks) =>
    let t := s.upd { s.core with ecode := blocks }
    match channelOf w with
    | none => s.precise .badopnd va
    | some false => t.issue t.core.slack[1] (·.xinq) fun c => { c with xinq := c.xinq ++ [t.core.capture va m] }
    | some true => t.issue t.core.slack[2] (·.xoutq) fun c => { c with xoutq := c.xoutq ++ [t.core.capture va m] }

theorem execXrun_of_ready {s : State} {a : Reg} (m : BitVec 16) (aligned : nv s a % 64 = 0)
    (ready : blockReady s s.core.ecode (s.core.getG a)) : exec (.xrun a m) s = runTransfer s (s.core.getG a) m := by
  show execXrun a m s = _
  unfold execXrun State.fetchCmd
  rw [if_neg (not_not.mpr aligned), blk_eq_block, State.fetchFirst_of_ready _ _ _ _ ready]
  rfl

theorem channelOf_inStep {w : W32} (h : inStep w) : channelOf w = some false := by
  unfold channelOf
  rcases h with h | h | h | h <;> rw [h] <;> rfl

theorem channelOf_outStep {w : W32} (h : outStep w) : channelOf w = some true := by
  unfold channelOf
  rcases h with h | h | h <;> rw [h] <;> rfl

theorem channelOf_none {w : W32} (notIn : ¬ inStep w) (notOut : ¬ outStep w) : channelOf w = none := by
  unfold inStep at notIn
  unfold outStep at notOut
  unfold channelOf
  split <;> simp_all

/-! ### Alignment (R75) -/

theorem exec_commands_align {s : State} {a : Reg} (m : BitVec 16) (odd : nv s a % 64 ≠ 0) (ready : handles s) :
    exec (.vrun a m) s = traps s 0x11 (s.core.getG a) s.core.pc ∧ exec (.xrun a m) s = traps s 0x11 (s.core.getG a) s.core.pc ∧
      exec (.mtask a m) s = traps s 0x11 (s.core.getG a) s.core.pc :=
  ⟨(if_pos odd).trans (State.precise_eq_traps .align _ ready), (if_pos odd).trans (State.precise_eq_traps .align _ ready),
    (if_pos odd).trans (State.precise_eq_traps .align _ ready)⟩

theorem execVrun_of_aligned {s : State} {a : Reg} (m : BitVec 16) (aligned : nv s a % 64 = 0) :
    exec (.vrun a m) s =
      s.issue s.core.slack[0] (·.vq) fun c => { c with vq := c.vq ++ [s.core.capture (s.core.getG a) m] } :=
  if_neg (not_not.mpr aligned)

theorem execMtask_of_aligned {s : State} {a : Reg} (m : BitVec 16) (aligned : nv s a % 64 = 0) :
    exec (.mtask a m) s =
      s.issue s.core.slack[3] (·.mq) fun c => { c with mq := c.mq ++ [s.core.capture (s.core.getG a) m] } :=
  if_neg (not_not.mpr aligned)

theorem block_of_aligned {a : W64} (h : a.toNat % 64 = 0) : block a = a :=
  BitVec.eq_of_toNat_eq (by rw [toNat_block]; omega)

/-! ### Settings (R79) -/

theorem slackFields_eq {x : W64} {f : Vector Nat 5}
    (h : x.toNat = f[0] + 2 ^ 5 * f[1] + 2 ^ 10 * f[2] + 2 ^ 15 * f[3] + 2 ^ 20 * f[4]) (small : ∀ k : Fin 5, f[k] < 32) :
    slackFields x = f := by
  have s0 : f[0] < 32 := small 0
  have s1 : f[1] < 32 := small 1
  have s2 : f[2] < 32 := small 2
  have s3 : f[3] < 32 := small 3
  have s4 : f[4] < 32 := small 4
  refine Vector.ext fun k hk => ?_
  interval_cases k
  all_goals
    simp only [slackFields, bitsOf]
    norm_num
    omega

theorem upper_eq_zero_of_fields {x : W64} {f : Vector Nat 5}
    (h : x.toNat = f[0] + 2 ^ 5 * f[1] + 2 ^ 10 * f[2] + 2 ^ 15 * f[3] + 2 ^ 20 * f[4]) (small : ∀ k : Fin 5, f[k] < 32) :
    x.toNat / 2 ^ 25 = 0 := by
  have s0 : f[0] < 32 := small 0
  have s1 : f[1] < 32 := small 1
  have s2 : f[2] < 32 := small 2
  have s3 : f[3] < 32 := small 3
  have s4 : f[4] < 32 := small 4
  omega

theorem slackBad_iff (x : W64) : slackBad x = true ↔ x.toNat / 2 ^ 25 ≠ 0 ∨ ∃ k : Fin 5, 16 < (slackFields x)[k] := by
  have upper : bitsOf x 63 25 = x.toNat / 2 ^ 25 := Nat.mod_eq_of_lt (by have := x.isLt; omega)
  rw [slackBad, upper, Bool.or_eq_true, decide_eq_true_iff]
  refine or_congr Iff.rfl ?_
  simp only [List.any_eq_true, decide_eq_true_iff, Vector.mem_toList_iff, Vector.mem_iff_getElem, Fin.exists_iff]
  constructor
  · rintro ⟨_, ⟨k, hk, rfl⟩, large⟩
    exact ⟨k, hk, large⟩
  · rintro ⟨k, hk, large⟩
    exact ⟨_, ⟨k, hk, rfl⟩, large⟩

theorem slackWord_eq_ofInt (o : Vector Nat 5) :
    slackWord o = BitVec.ofInt 64 (o[0] + 2 ^ 5 * o[1] + 2 ^ 10 * o[2] + 2 ^ 15 * o[3] + 2 ^ 20 * o[4] : Nat) := by
  rw [BitVec.ofInt_natCast, slackWord]
  congr 1
  ring

/-- SLACK refuses a value with a field above 16 or with more than its five fields (R79). -/
theorem execSlack_traps {s : State} (d : Reg) {a : Reg} (bad : slackBad (s.core.getG a) = true) (ready : handles s) :
    exec (.slack d a) s = traps s 0x06 (s.core.getG a) s.core.pc :=
  (if_pos bad).trans (State.precise_eq_traps .badopnd _ ready)

theorem execSlack_sets {s : State} (d : Reg) {a : Reg} (good : ¬ slackBad (s.core.getG a) = true) :
    exec (.slack d a) s = (s.upd { s.core with slack := slackFields (s.core.getG a) }).write d (slackWord s.core.slack) :=
  if_neg good

/-! ### Waiting (R78) -/

theorem State.waitMet_iff (s : State) (l st c t : Nat) :
    s.waitMet l st c t = true ↔ s.core.vq = [] ∧ s.core.loads.length ≤ l ∧ s.core.stores.length + s.updsOut s.core.id ≤ st ∧
      s.core.xinq.length + s.core.xoutq.length ≤ c ∧ s.core.mq.length ≤ t := by
  simp only [State.waitMet, Bool.and_eq_true, decide_eq_true_iff, List.isEmpty_iff, and_assoc]

/-- A load whose bytes have all come writes its register (R90). -/
theorem exec_loadDataReturn {s : State} {k : Nat} {p : PendingLoad} {bs : List Byte} (load : s.core.loads[k]? = some p)
    (come : p.bytes = bs.map some) :
    exec (.loadDataReturn s.core.id k) s = .next (s.upd (({ s.core with loads := s.core.loads.eraseIdx k } : Core).setG p.gd
      (if p.signed then sext (8 * bs.length) (leVal bs) else BitVec.ofNat 64 (leVal bs)))) := by
  show execLoadDataReturn s.core.id k s = _
  unfold execLoadDataReturn
  rw [State.focus_self]
  dsimp only
  rw [load]
  dsimp only
  rw [come, allBytes_some]

end Sys2Proof.Machine
namespace Sys2Proof.Proofs

open Sys2Proof.Machine Sys2Proof.Rules

/-- Settles O12: VRUN and MTASK are one issue each, XRUN is that of the channel of its first word, and the others read off their counts. -/
theorem commandsWaitsAndSettings : Obligations.CommandsWaitsAndSettings := by
  unfold Obligations.CommandsWaitsAndSettings
  refine ⟨fun s a m => ⟨fun aligned first => ?_, fun aligned again => ?_, exec_commands_align m⟩, fun s l st c t => ?_, fun s d n => ?_,
    fun s d a f value small => ⟨fun fits => ?_, fun ⟨k, large⟩ ready => ?_⟩, fun s d a upper ready => ?_,
    fun s k p bs load come => exec_loadDataReturn load come⟩
  · rw [execVrun_of_aligned m aligned, execMtask_of_aligned m aligned]
    refine ⟨State.issue_issues _ first, State.issue_stalls _ first, State.issue_issues _ first, State.issue_stalls _ first,
      fun ready => ?_⟩
    rw [execXrun_of_ready m aligned ready]
    unfold runTransfer
    refine ⟨fun w blocks word => ?_, fun noWord handler => ?_⟩
    · rw [word]
      dsimp only
      refine ⟨fun inward room => ?_, fun inward full => ?_, fun outward room => ?_, fun outward full => ?_, fun notIn notOut handler => ?_⟩
      · rw [channelOf_inStep inward]
        exact State.issue_issues _ first room
      · rw [channelOf_inStep inward]
        exact State.issue_stalls _ first full
      · rw [channelOf_outStep outward]
        exact State.issue_issues _ first room
      · rw [channelOf_outStep outward]
        exact State.issue_stalls _ first full
      · rw [channelOf_none notIn notOut]
        exact State.precise_eq_traps _ _ handler
    · rw [noWord]
      exact State.precise_eq_traps _ _ handler
  · rw [execVrun_of_aligned m aligned, execMtask_of_aligned m aligned]
    refine ⟨State.issue_again _ _ _ again, State.issue_again _ _ _ again, fun ws found => ?_⟩
    have atBlock : findBlock s.core.ecode (block (s.core.getG a)) = some ws := by rw [block_of_aligned aligned, found]
    have word : s.wordAt s.core.context (clusterOf s.core.id) s.core.ecode (s.core.getG a) = some (ws.getD 0 0, s.core.ecode) := by
      rw [State.wordAt, blk_eq_block, atBlock]
      dsimp only
      rw [aligned]
    rw [execXrun_of_ready m aligned (.inl (by rw [atBlock]; rfl)), runTransfer, word]
    dsimp only
    refine ⟨fun inward => ?_, fun outward => ?_⟩
    · rw [channelOf_inStep inward]
      exact State.issue_again _ _ _ again
    · rw [channelOf_outStep outward]
      exact State.issue_again _ _ _ again
  · exact if_congr (s.waitMet_iff _ _ _ _) rfl rfl
  · refine if_congr List.isEmpty_iff ?_ rfl
    exact write_eq_puts _ _ (BitVec.ofInt_toInt).symm
  · have fields := slackFields_eq value small
    have good : ¬ slackBad (s.core.getG a) = true := by
      rw [slackBad_iff, fields]
      rintro (upper | ⟨k, large⟩)
      · exact upper (upper_eq_zero_of_fields value small)
      · exact absurd (fits k) (not_le.mpr large)
    rw [execSlack_sets d good, fields]
    exact write_eq_puts _ _ (slackWord_eq_ofInt _)
  · exact execSlack_traps d ((slackBad_iff _).mpr (.inr ⟨k, by rwa [slackFields_eq value small]⟩)) ready
  · exact execSlack_traps d ((slackBad_iff _).mpr (.inl upper)) ready

end Sys2Proof.Proofs
end

