-- ==== Sys2Proof/Proofs/ProgramRefutations.lean ====
section
/-! SUPPORT. Proofs/ProgramRefutations.lean: the program past its 4,096 words that O42 forgets, and the lost page-table line that O41 forgets. -/

namespace Sys2Proof.Machine

open Sys2Proof.Rules

/-- The cause codes of the errors that a core is charged with after a step. -/
def heldCodes : Out → List Nat
  | .next t => t.core.held.map (·.code)
  | _ => []

/-- The byte that memory holds at an address after a step. -/
def byteAfter (a : Nat) : Out → Option Byte
  | .next t => some (cellGet t.mem a)
  | _ => none

def plainCmd : Cmd :=
  { num := 0, addr := 0, mask := 0, regs := Vector.replicate 16 0, rm := .rne, tag := [], started := true }

/-- A program of the blocks from address 0, before the word at `pc`. -/
def programAt (pc : W64) : ProgRun :=
  { cmd := plainCmd, core := 0, start := 0, pc := pc, regs := Vector.replicate 16 0, loops := [], stage := 0, point := true, done := 0
    buf := [], idx := none, streams := [], up := none, down := none, code := [], waits := none, fault := none, circuit := false
    stopped := false }

def noTokens : Tok := { prdy := false, srdy := false, pfree := false, sfree := false }

/-! ### A program past its 4,096 words (R187) -/

/-- An out-channel whose program stands past its 4,096 words. -/
def pastProgram : State := { State.reset with core := { Core.reset 0 with xout := some (programAt 0x4000) }, unit := .xout }

/-- The word is not reached: the program ends with PROGLEN. -/
theorem heldCodes_exec_pastProgram : heldCodes (exec (.xcopy noTokens (.mem 0) (.mem 0) 0 false false) pastProgram) = [Cause.proglen.code] := by decide +kernel

theorem heldCodes_channel_pastProgram : heldCodes (pastProgram.progFault (programAt 0x4000) .channel 0) = [Cause.channel.code] := by
  decide +kernel

/-! ### A status write whose translation reads a lost line (R370) -/

/-- A tile-task record that names a status word at 0x8000 and no barrier (R52). -/
def statusRecord : TileRec :=
  { core := 0, cmd := plainCmd, ctx := 0, words := [0, 0, 0, 0, 0, 0x8000, 0, 0], waited := true }

/-- A context whose tables, from 0x1000, map its first addresses onto the same physical addresses. -/
def lowContext : Context :=
  { id := 0, rootL := 0x1000, rootG := 0, tvec := 0, rngcfg := 0, stackBytes := 0, stackBase := 0, spillBytes := 0, xrbase := 0
    images := [], nextHandle := 0, limTrees := 0, limClusters := 0, limSegs := 0, limNodes := 0, params := [] }

def endingTask : ProgRun := { programAt 0 with stage := 2 }

/-- A tile task at its MEND, whose status word's translation reads a lost line: line 32 holds the entry of the root table. -/
def lostTables : State :=
  { State.reset with
    unit := .arr0
    core := { Core.reset 0 with ctx := some 0 }
    contexts := [lowContext]
    mem := [(0x1000, 0x01), (0x1001, 0x20), (0x2000, 0x01), (0x2001, 0x30), (0x3000, 0x0F)]
    lost := [32]
    clusters := [(0, { Cluster.reset with arr0 := { MatArray.reset with run := some endingTask, rcd := some statusRecord } })] }

theorem atWork_lostTables : atWork lostTables endingTask :=
  ⟨by decide +kernel, rfl, rfl, rfl, fun h => absurd h (by decide)⟩

theorem State.putProg_mem (s : State) (p : ProgRun) : (s.putProg p).mem = s.mem := by
  unfold State.putProg State.putRun
  cases s.unit <;> rfl

theorem canSend_noTokens (s : State) (p : ProgRun) : canSend s p noTokens :=
  ⟨fun _ h => absurd h (by decide), fun _ h => absurd h (by decide)⟩

theorem engAt_lostTables : engAt lostTables statusRecord.staddr 8 .write 0x8000 :=
  ⟨by decide +kernel, by decide +kernel, by decide +kernel, by decide +kernel, by decide +kernel⟩

/-- The journal entry of the lost line: its number, 1, is a byte of memory outside the status word. -/
theorem byteAfter_mend_lostTables : byteAfter (journalBase + 192) (exec (.mend noTokens) lostTables) = some 1 := by decide +kernel

end Sys2Proof.Machine

namespace Sys2Proof.Proofs

open Sys2Proof.Machine Sys2Proof.Rules

/-- Refutes O42: on an out-channel a program that stands past its 4,096 words ends with PROGLEN before the word's channel is looked at. -/
theorem not_inChannelStepsComplete : ¬ Obligations.InChannelStepsComplete := by
  unfold Obligations.InChannelStepsComplete
  rintro ⟨-, -, wrongChannel⟩
  have claim := ((wrongChannel pastProgram (programAt 0x4000) noTokens (.mem 0) (.mem 0) 0 0 0 0 false false 0 0 .addI32 rfl).1 rfl).1
  have codes := congrArg heldCodes claim
  rw [heldCodes_exec_pastProgram, heldCodes_channel_pastProgram] at codes
  exact absurd codes (by decide)

/-- Refutes O41: the translation of STADDR reads a lost line, and the error journaled for it is written to memory besides the status. -/
theorem not_programsStartAndEnd : ¬ Obligations.ProgramsStartAndEnd := by
  unfold Obligations.ProgramsStartAndEnd
  rintro ⟨-, programsEnd⟩
  obtain ⟨-, -, -, mend⟩ := programsEnd lostTables endingTask noTokens atWork_lostTables rfl (canSend_noTokens _ _)
  obtain ⟨-, -, -, statusWritten⟩ := (mend statusRecord (by decide +kernel) (.inl rfl)).2 (by decide +kernel)
  obtain ⟨u, result, -, outside⟩ := statusWritten 0x8000 rfl (by decide) engAt_lostTables
  rw [if_pos (by decide)] at result
  have written := byteAfter_mend_lostTables
  rw [result, byteAfter, State.putProg_mem, outside _ (.inr (by decide))] at written
  exact absurd written (by decide +kernel)

end Sys2Proof.Proofs
end

