-- ==== Sys2Proof/Proofs/SystemWords.lean ====
section
/-! SUPPORT. Proofs/SystemWords.lean: system instructions, and what a write of the journal leaves of the core (R83, R85, R393). -/

namespace Sys2Proof.Machine

open Sys2Proof.Rules

/-! ### What a write at the homes leaves of the strand (R283, R286, R287) -/

/-- Of the current core, t differs from s at most in the strand's snapshots and in the boundary it owes. -/
def CoreAside (s t : State) : Prop := ∃ snaps implicit, t.core = { s.core with snaps := snaps, implicit := implicit }

namespace CoreAside

theorem of_core_eq {s t : State} (h : t.core = s.core) : CoreAside s t := ⟨_, _, h⟩

theorem trans {s t u : State} (h : CoreAside s t) (k : CoreAside t u) : CoreAside s u := by
  obtain ⟨_, _, toT⟩ := h
  obtain ⟨_, _, toU⟩ := k
  exact ⟨_, _, by rw [toU, toT]⟩

theorem foldl {α : Type} {f : State → α → State} (hf : ∀ t x, CoreAside t (f t x)) (l : List α) (s : State) : CoreAside s (l.foldl f s) := by
  induction l generalizing s with
  | nil => exact of_core_eq rfl
  | cons x l ih => exact (hf s x).trans (ih _)

theorem dropCopy (s : State) (g l : Nat) : CoreAside s (s.dropCopy g l) := (SnapsAside.holdCopy s g l).core.imp fun _ h => h

theorem mergeNow (s : State) (l : Nat) : CoreAside s (s.mergeNow l) := by
  unfold State.mergeNow
  dsimp only
  split
  · exact of_core_eq rfl
  · refine trans (foldl (fun t g => ?_) (s.holders l) s) (of_core_eq rfl)
    split
    · split
      · exact dropCopy t g l
      · exact of_core_eq rfl
    · exact of_core_eq rfl

theorem withdraw (s : State) (l : Nat) : CoreAside s (s.withdraw l) := by
  have copies : CoreAside s _ := (mergeNow s l).trans (foldl (f := fun t g => match (t.cluster g).entry l with
    | some e =>
      if e.xs == .none then t.dropCopy g l
      else if e.xs == .sm then
        let t1 := t.holdCopy g l
        t1.putCluster g ((t1.cluster g).putEntry { e with st := .i, xs := .im, hold := [] })
      else t
    | none => t) (fun t g => by
      split
      · split
        · exact dropCopy t g l
        · split
          · exact (SnapsAside.holdCopy t g l).core
          · exact of_core_eq rfl
      · exact of_core_eq rfl) ((s.mergeNow l).holders l) _)
  unfold State.withdraw
  dsimp only
  split
  · exact copies
  · exact copies.trans (of_core_eq rfl)

theorem shoot (s : State) (l : Nat) : CoreAside s (s.shoot l) :=
  foldl (f := fun t d => t.forget d (l / 4)) (fun _ _ => of_core_eq rfl) _ s

theorem homeWrite (s : State) (a : Nat) (bs : List Byte) : CoreAside s (s.homeWrite a bs) :=
  foldl (fun t l => (withdraw t l).trans (shoot _ l)) (linesAt a bs.length) s

theorem journal (s : State) (kind ctx status body : Nat) (rep : Option FaultReport) :
    CoreAside s (s.journal kind ctx status body rep) := by
  have written := homeWrite s (journalBase + 128 * (s.admin.jnext % 2 ^ 20)) (journalBytes s.admin.jnext kind ctx status s.cycle body rep)
  rw [State.journal, State.putJournal]
  exact written.trans (of_core_eq rfl)

end CoreAside

/-! ### The level (R355, R356, R85) -/

theorem bitsOf_setBits_same (x : W64) {hi lo v : Nat} (h : hi < 64) (hl : lo ≤ hi) :
    bitsOf (setBits x hi lo v) hi lo = v % 2 ^ (hi + 1 - lo) := by
  refine Nat.eq_of_testBit_eq fun i => ?_
  rw [bitsOf, Nat.testBit_mod_two_pow, Nat.testBit_mod_two_pow, Nat.testBit_div_two_pow]
  by_cases inside : i < hi + 1 - lo
  · have bit := getLsbD_setBits x v (show i + lo < 64 by omega) hl
    rw [BitVec.getLsbD, if_pos (by omega), Nat.add_sub_cancel] at bit
    rw [bit]
  · rw [decide_eq_false inside, Bool.false_and, Bool.false_and]

theorem bitsOf_setBits_other (x : W64) {hi lo top low v : Nat} (ht : top < 64) (hl : lo ≤ hi) (apart : top < lo ∨ hi < low) :
    bitsOf (setBits x hi lo v) top low = bitsOf x top low := by
  refine Nat.eq_of_testBit_eq fun i => ?_
  rw [bitsOf, bitsOf, Nat.testBit_mod_two_pow, Nat.testBit_mod_two_pow, Nat.testBit_div_two_pow, Nat.testBit_div_two_pow]
  by_cases inside : i < top + 1 - low
  · have bit := getLsbD_setBits x v (show i + low < 64 by omega) hl
    rw [if_neg (by omega)] at bit
    rw [← BitVec.getLsbD, ← BitVec.getLsbD, bit]
  · rw [decide_eq_false inside, Bool.false_and, Bool.false_and]

theorem Core.lvl_setLvl_zero (c : Core) : (c.setLvl 0).lvl = 0 := by
  show bitsOf (setBits (setBits c.status 4 3 0) 5 5 0) 4 3 = 0
  rw [bitsOf_setBits_other _ (by decide) (by decide) (.inl (by decide)), bitsOf_setBits_same _ (by decide) (by decide)]
  rfl

theorem Core.status_setLvl_zero (c : Core) : (c.setLvl 0).status.getLsbD 5 = false := by
  show (setBits (setBits c.status 4 3 0) 5 5 0).getLsbD 5 = false
  rw [getLsbD_setBits _ _ (by decide) (by decide)]
  rfl

/-! ### Traps of the next word (R83, R356) -/

/-- A trap with a handler at level 0 or 1 enters it, whatever word it goes back to. -/
theorem State.traps_eq_traps {s : State} (cause : Cause) (eval epc : W64) (h : handles s) :
    s.traps cause eval epc false = Rules.traps s cause.code eval epc := by
  obtain ⟨level, handler, free⟩ := h
  have noAbort : ¬ s.core.abortDue = true := by
    rw [Core.abortDue, Bool.and_eq_true, beq_iff_eq]
    rintro ⟨held, zero⟩
    rw [free zero] at held
    cases held
  rw [s.traps_next _ _ _ _ (by omega), State.trap, if_neg noAbort, if_neg (by omega)]
  dsimp only
  rw [if_neg handler, enterTrap_eq_trapped _ _ _ _ level]
  rfl

/-! ### System words (R83, R85) -/

theorem Core.abortFrom_core (s : State) (r : FaultReport) :
    ∃ snaps implicit, (s.abortFrom r).core =
      ({ s.core with held := s.core.held ++ [r], snaps := snaps, implicit := implicit } : Core).setLvl 0 := by
  obtain ⟨snaps, implicit, core⟩ := CoreAside.journal s 1 s.core.context 0 (s.errorBody s.core) (some r)
  refine ⟨snaps, implicit, ?_⟩
  rw [State.abortFrom, State.upd_core, core]

end Sys2Proof.Machine
end

