-- ==== Sys2Proof/Proofs/TaskBlocks.lean ====
section
/-! SUPPORT. Proofs/TaskBlocks.lean: the blocks of Ringmaster tasks as they end, join and deliver (R113, R115, R119, R121). -/

namespace Sys2Proof.Machine

open Sys2Proof.Rules

/-! ### Ids (R113) -/

theorem taskDie_lt (id : W32) : taskDie id < 2 := by
  have := id.isLt
  unfold taskDie
  omega

theorem task_ext {i j : W32} (die : taskDie i = taskDie j) (gen : taskGen i = taskGen j) (idx : taskIdx i = taskIdx j) : i = j := by
  have := i.isLt
  have := j.isLt
  unfold taskDie at die
  unfold taskGen at gen
  unfold taskIdx at idx
  exact BitVec.eq_of_toNat_eq (by omega)

theorem toNat_taskId {die gen idx : Nat} (hd : die < 2) (hg : gen < 2 ^ 11) (hi : idx < 2 ^ 20) :
    (taskId die gen idx).toNat = die * 2 ^ 31 + gen * 2 ^ 20 + idx := by
  rw [taskId, BitVec.toNat_ofNat, Nat.mod_eq_of_lt hg, Nat.mod_eq_of_lt hi]
  omega

theorem taskDie_taskId {die gen idx : Nat} (hd : die < 2) (hg : gen < 2 ^ 11) (hi : idx < 2 ^ 20) : taskDie (taskId die gen idx) = die := by
  rw [taskDie, toNat_taskId hd hg hi]
  omega

theorem taskGen_taskId {die gen idx : Nat} (hd : die < 2) (hg : gen < 2 ^ 11) (hi : idx < 2 ^ 20) : taskGen (taskId die gen idx) = gen := by
  rw [taskGen, toNat_taskId hd hg hi]
  omega

theorem taskIdx_taskId {die gen idx : Nat} (hd : die < 2) (hg : gen < 2 ^ 11) (hi : idx < 2 ^ 20) : taskIdx (taskId die gen idx) = idx := by
  rw [taskIdx, toNat_taskId hd hg hi]
  omega

/-! ### Live blocks -/

/-- The block at a place of a die's array, live or not. -/
def State.blockAt (s : State) (die idx : Nat) : Option Tcb := assoc idx (s.die die).tcbs

theorem State.tcb?_eq_some_iff {s : State} {id : W32} {b : Tcb} :
    s.tcb? id = some b ↔ taskGen id ≠ 0 ∧ s.blockAt (taskDie id) (taskIdx id) = some b ∧ b.gen = taskGen id ∧ b.state ≠ .free := by
  unfold State.tcb? State.blockAt
  by_cases zero : taskGen id = 0
  · simp [zero]
  · rw [if_neg zero]
    cases assoc (taskIdx id) (s.die (taskDie id)).tcbs with
    | none => simp
    | some c =>
      simp only [Option.some.injEq, Bool.and_eq_true, decide_eq_true_eq, Option.ite_none_right_eq_some]
      constructor
      · rintro ⟨⟨gen, live⟩, rfl⟩
        exact ⟨zero, rfl, gen, live⟩
      · rintro ⟨-, rfl, gen, live⟩
        exact ⟨⟨gen, live⟩, rfl⟩

/-- States with the same blocks have the same live blocks. -/
theorem State.tcb?_congr {s t : State} (h : ∀ die idx, die < 2 → t.blockAt die idx = s.blockAt die idx) (id : W32) : t.tcb? id = s.tcb? id := by
  refine Option.ext fun b => ?_
  rw [State.tcb?_eq_some_iff, State.tcb?_eq_some_iff, h _ _ (taskDie_lt id)]

theorem State.putDie_die_other (s : State) {j k : Nat} (x : Die) (hj : j < 2) (hk : k < 2) (h : j ≠ k) : (s.putDie k x).die j = s.die j := by
  unfold State.die State.putDie
  rcases Nat.eq_zero_or_pos k with rfl | pos
  · rw [if_neg h, if_pos rfl, if_neg h]
  · rw [if_pos (by omega), if_neg (by omega), if_pos (by omega)]

theorem State.blockAt_putDie (s : State) {die k : Nat} (x : Die) (hd : die < 2) (hk : k < 2) (idx : Nat) :
    (s.putDie k x).blockAt die idx = if die = k then assoc idx x.tcbs else s.blockAt die idx := by
  unfold State.blockAt
  split
  · rename_i same
    rw [same, State.putDie_die]
  · rename_i other
    rw [State.putDie_die_other _ _ hd hk other]

theorem State.blockAt_putTcb (s : State) (id : W32) (b : Tcb) {die : Nat} (hd : die < 2) (idx : Nat) :
    (s.putTcb id b).blockAt die idx = if die = taskDie id ∧ idx = taskIdx id then some b else s.blockAt die idx := by
  rw [State.putTcb, State.blockAt_putDie s _ hd (taskDie_lt id)]
  by_cases same : die = taskDie id
  · rw [if_pos same]
    by_cases place : idx = taskIdx id
    · rw [if_pos ⟨same, place⟩, place, assoc_assocPut_same]
    · rw [if_neg (fun h => place h.2), assoc_assocPut_other _ _ place, same]
      rfl
  · rw [if_neg same, if_neg (fun h => same h.1)]

/-- A live block written back: it is live unless it is now FREE. -/
theorem State.tcb?_putTcb_same {s : State} {id : W32} {b c : Tcb} (live : s.tcb? id = some b) (gen : c.gen = b.gen) :
    (s.putTcb id c).tcb? id = if c.state = .free then none else some c := by
  obtain ⟨nonzero, -, number, -⟩ := State.tcb?_eq_some_iff.mp live
  have place : (s.putTcb id c).blockAt (taskDie id) (taskIdx id) = some c := by
    rw [State.blockAt_putTcb _ _ _ (taskDie_lt id), if_pos ⟨rfl, rfl⟩]
  split
  · rename_i free
    refine Option.eq_none_iff_forall_ne_some.mpr fun d found => ?_
    obtain ⟨-, at_, -, notFree⟩ := State.tcb?_eq_some_iff.mp found
    rw [place, Option.some.injEq] at at_
    exact notFree (at_ ▸ free)
  · rename_i notFree
    exact State.tcb?_eq_some_iff.mpr ⟨nonzero, place, gen.trans number, notFree⟩

/-- No other id sees a live block written back. -/
theorem State.tcb?_putTcb_other {s : State} {id j : W32} {b c : Tcb} (live : s.tcb? id = some b) (gen : c.gen = b.gen) (h : j ≠ id) :
    (s.putTcb id c).tcb? j = s.tcb? j := by
  obtain ⟨-, place, number, -⟩ := State.tcb?_eq_some_iff.mp live
  refine Option.ext fun d => ?_
  rw [State.tcb?_eq_some_iff, State.tcb?_eq_some_iff, State.blockAt_putTcb _ _ _ (taskDie_lt j)]
  by_cases same : taskDie j = taskDie id ∧ taskIdx j = taskIdx id
  · have gens : taskGen j ≠ taskGen id := fun e => h (task_ext same.1 e same.2)
    rw [if_pos same, same.1, same.2, place]
    constructor
    · rintro ⟨-, found, his, -⟩
      obtain rfl := Option.some.inj found
      exact absurd (his.symm.trans (gen.trans number)) gens
    · rintro ⟨-, found, his, -⟩
      obtain rfl := Option.some.inj found
      exact absurd (his.symm.trans number) gens
  · rw [if_neg same]

/-! ### Blocks that become FREE or READY (R114, R115, R116) -/

theorem Die.arrive_tcbs (d : Die) (n : Nat) : (d.arrive n).tcbs = d.tcbs := by
  unfold Die.arrive
  split <;> rfl

theorem Die.advance_tcbs (d : Die) (n : Nat) : (d.advance n).tcbs = d.tcbs := by
  unfold Die.advance
  split
  · exact d.arrive_tcbs _
  · split
    · exact d.arrive_tcbs _
    · rfl

theorem Die.freeTree_tcbs (d : Die) (n : Nat) : (d.freeTree n).tcbs = d.tcbs := by
  unfold Die.freeTree
  split
  · rfl
  · dsimp only
    split
    · exact Die.advance_tcbs _ _
    · rfl

/-- A block freed is a block written as FREE: what becomes of its tree changes no block. -/
theorem State.tcb?_freeBlock (s : State) (id : W32) (b : Tcb) (j : W32) :
    (s.freeBlock id b).tcb? j = (s.putTcb id { b with state := .free }).tcb? j := by
  refine State.tcb?_congr (fun die idx hd => ?_) j
  unfold State.freeBlock
  dsimp only
  split
  · split
    · rw [State.blockAt_putDie _ _ hd (taskDie_lt id)]
      split
      · rename_i same
        rw [Die.freeTree_tcbs, same]
        rfl
      · rfl
    · rfl
  · rfl

/-- A block made READY is a block written as READY with its place among its ties. -/
theorem State.tcb?_readyBlock (s : State) (id : W32) (b : Tcb) (j : W32) :
    (s.readyBlock id b).tcb? j = (s.putTcb id { b with state := .ready, order := (s.die (taskDie id)).nextOrder }).tcb? j := by
  refine State.tcb?_congr (fun die idx hd => ?_) j
  rw [State.readyBlock, State.putTcb, State.blockAt_putDie _ _ hd (taskDie_lt id), State.blockAt_putDie _ _ hd (taskDie_lt id)]

/-! ### The end of a block, and what it delivers (R119, R121) -/

/-- The state whose block has ended: FREE, or in DRAIN while tasks it waits for are pending. -/
def State.released (s : State) (id : W32) (b : Tcb) : State :=
  if b.pend = 0 then s.freeBlock id b else s.putTcb id { b with state := .drain }

/-- The state whose block has the counters that a delivery left it: READY or FREE when it waits for nothing more. -/
def State.delivered (s : State) (id : W32) (b : Tcb) : State :=
  if b.pend = 0 && b.state == .joined then s.readyBlock id b
  else if b.pend = 0 && b.state == .drain then s.freeBlock id b
  else s.putTcb id b

theorem State.tcb?_released_same {s : State} {id : W32} {b : Tcb} (live : s.tcb? id = some b) :
    (s.released id b).tcb? id = if b.pend = 0 then none else some { b with state := .drain } := by
  unfold State.released
  split
  · rw [State.tcb?_freeBlock, State.tcb?_putTcb_same (c := { b with state := .free }) live rfl, if_pos rfl]
  · rw [State.tcb?_putTcb_same (c := { b with state := .drain }) live rfl, if_neg nofun]

theorem State.tcb?_released_other {s : State} {id j : W32} {b : Tcb} (live : s.tcb? id = some b) (h : j ≠ id) :
    (s.released id b).tcb? j = s.tcb? j := by
  unfold State.released
  split
  · rw [State.tcb?_freeBlock]
    exact State.tcb?_putTcb_other live rfl h
  · exact State.tcb?_putTcb_other live rfl h

theorem State.tcb?_delivered_other {s : State} {id j : W32} {b c : Tcb} (live : s.tcb? id = some b) (gen : c.gen = b.gen) (h : j ≠ id) :
    (s.delivered id c).tcb? j = s.tcb? j := by
  unfold State.delivered
  split
  · rw [State.tcb?_readyBlock]
    exact State.tcb?_putTcb_other live gen h
  · split
    · rw [State.tcb?_freeBlock]
      exact State.tcb?_putTcb_other live gen h
    · exact State.tcb?_putTcb_other live gen h

theorem State.tcb?_delivered_joined {s : State} {id : W32} {b c : Tcb} (live : s.tcb? id = some b) (gen : c.gen = b.gen)
    (pend : c.pend = 0) (state : c.state = .joined) : ∃ o, (s.delivered id c).tcb? id = some { c with state := .ready, order := o } := by
  refine ⟨(s.die (taskDie id)).nextOrder, ?_⟩
  rw [State.delivered, if_pos (by simp [pend, state]), State.tcb?_readyBlock,
    State.tcb?_putTcb_same (c := { c with state := .ready, order := (s.die (taskDie id)).nextOrder }) live gen, if_neg nofun]

theorem State.tcb?_delivered_drain {s : State} {id : W32} {b c : Tcb} (live : s.tcb? id = some b) (gen : c.gen = b.gen)
    (pend : c.pend = 0) (state : c.state = .drain) : (s.delivered id c).tcb? id = none := by
  rw [State.delivered, if_neg (by simp [state]), if_pos (by simp [pend, state]), State.tcb?_freeBlock,
    State.tcb?_putTcb_same (c := { c with state := .free }) live gen, if_pos rfl]

theorem State.tcb?_delivered_kept {s : State} {id : W32} {b c : Tcb} (live : s.tcb? id = some b) (gen : c.gen = b.gen)
    (state : c.state = b.state) (waits : ¬ (c.pend = 0 ∧ (c.state = .joined ∨ c.state = .drain))) : (s.delivered id c).tcb? id = some c := by
  obtain ⟨-, -, -, notFree⟩ := State.tcb?_eq_some_iff.mp live
  rw [State.delivered, if_neg (by simp_all), if_neg (by simp_all), State.tcb?_putTcb_same live gen, if_neg (by rwa [state])]

/-- The end of a task whose successor is gone delivers nothing (R119). -/
theorem State.endTask_alone {s : State} {id : W32} {b : Tcb} (x : W64) (live : s.tcb? id = some b) (gone : s.tcb? b.succ = none) :
    s.endTask id x = s.released id b := by
  have apart : b.succ ≠ id := fun e => by rw [e, live] at gone; cases gone
  have none_ : (s.released id b).tcb? b.succ = none := by rw [State.tcb?_released_other live apart, gone]
  unfold State.released at none_ ⊢
  rw [State.endTask, State.blockFuel, State.endBlock, live]
  dsimp only
  rw [none_]

/-- The end of a task delivers its value to a successor that it does not revoke (R119, R324). -/
theorem State.endTask_delivers {s : State} {id : W32} {b d : Tcb} (x : W64) (live : s.tcb? id = some b) (succ : s.tcb? b.succ = some d)
    (apart : b.succ ≠ id) (kept : ¬ (d.pend ≤ 1 ∧ d.state = .joined ∧ d.canf = true)) :
    s.endTask id x = (s.released id b).delivered b.succ { d with arg := d.arg + x, pend := d.pend - 1 } := by
  have some_ : (s.released id b).tcb? b.succ = some d := by rw [State.tcb?_released_other live apart, succ]
  unfold State.released at some_ ⊢
  rw [State.endTask, State.blockFuel, State.endBlock, live]
  dsimp only
  rw [some_]
  unfold State.delivered
  dsimp only
  split
  · rename_i ready
    simp only [Bool.and_eq_true, decide_eq_true_eq, beq_iff_eq] at ready
    rw [if_neg fun canf => kept ⟨by omega, ready.2, canf⟩]
  · rfl

/-- What the end of a task leaves of its block and of its successor's (R119). -/
theorem State.tcb?_endTask {s : State} {id : W32} {b : Tcb} (x : W64) (live : s.tcb? id = some b) :
    let left := if b.pend = 0 then none else some { b with state := TcbState.drain }
    (s.tcb? b.succ = none → (s.endTask id x).tcb? id = left) ∧
    (∀ d, s.tcb? b.succ = some d → b.succ ≠ id → ¬ (d.pend ≤ 1 ∧ d.state = .joined ∧ d.canf = true) →
      let d1 := { d with arg := d.arg + x, pend := d.pend - 1 }
      (s.endTask id x).tcb? id = left ∧
      (d1.pend = 0 ∧ d.state = .joined → ∃ o, (s.endTask id x).tcb? b.succ = some { d1 with state := .ready, order := o }) ∧
      (d1.pend = 0 ∧ d.state = .drain → (s.endTask id x).tcb? b.succ = none) ∧
      (¬ (d1.pend = 0 ∧ (d.state = .joined ∨ d.state = .drain)) → (s.endTask id x).tcb? b.succ = some d1)) := by
  intro left
  refine ⟨fun gone => ?_, fun d succ apart kept => ?_⟩
  · rw [State.endTask_alone x live gone]
    exact State.tcb?_released_same live
  · have waiting : (s.released id b).tcb? b.succ = some d := (State.tcb?_released_other live apart).trans succ
    intro d1
    rw [State.endTask_delivers x live succ apart kept]
    refine ⟨?_, fun ⟨pend, state⟩ => ?_, fun ⟨pend, state⟩ => ?_, fun waits => ?_⟩
    · exact (State.tcb?_delivered_other (c := d1) waiting rfl apart.symm).trans (State.tcb?_released_same live)
    · exact State.tcb?_delivered_joined (c := d1) waiting rfl pend state
    · exact State.tcb?_delivered_drain (c := d1) waiting rfl pend state
    · exact State.tcb?_delivered_kept (c := d1) waiting rfl rfl waits

/-! ### What the end of a block leaves (R119) -/

/-- t differs from s at most in the dies. -/
def DiesAside (s t : State) : Prop := ∃ d0 d1, t = { s with die0 := d0, die1 := d1 }

namespace DiesAside

theorem refl (s : State) : DiesAside s s := ⟨_, _, rfl⟩

theorem trans {s t u : State} (h : DiesAside s t) (k : DiesAside t u) : DiesAside s u := by
  obtain ⟨_, _, rfl⟩ := h
  obtain ⟨_, _, rfl⟩ := k
  exact ⟨_, _, rfl⟩

theorem putDie (s : State) (k : Nat) (x : Die) : DiesAside s (s.putDie k x) := by
  unfold State.putDie
  split <;> exact ⟨_, _, rfl⟩

theorem freeBlock (s : State) (id : W32) (b : Tcb) : DiesAside s (s.freeBlock id b) := by
  unfold State.freeBlock
  dsimp only
  split
  · split
    · exact (putDie s _ _).trans (putDie _ _ _)
    · exact putDie s _ _
  · exact putDie s _ _

theorem endBlock (s : State) (id : W32) (x : W64) (n : Nat) : DiesAside s (s.endBlock id x n) := by
  induction n generalizing s id x with
  | zero => exact refl s
  | succ n ih =>
    have ends (b : Tcb) : DiesAside s (if b.pend = 0 then s.freeBlock id b else s.putTcb id { b with state := .drain }) := by
      split
      · exact freeBlock s id b
      · exact putDie s _ _
    unfold State.endBlock
    split
    · exact refl s
    · rename_i b _
      dsimp only
      split
      · exact ends b
      · refine (ends b).trans ?_
        generalize (if b.pend = 0 then s.freeBlock id b else s.putTcb id { b with state := .drain }) = t
        split
        · split
          · exact (putDie _ _ _).trans (ih _ _ _)
          · exact putDie _ _ _
        · split
          · exact freeBlock _ _ _
          · exact putDie _ _ _

theorem joinTask (s : State) (id : W32) (desc x : W64) : DiesAside s (s.joinTask id desc x) := by
  unfold State.joinTask
  split
  · exact refl s
  · dsimp only
    split
    · exact (putDie _ _ _).trans (endBlock _ _ _ _)
    · split
      · exact putDie _ _ _
      · exact putDie _ _ _

end DiesAside

/-- JOIN makes the block its continuation, READY when it waits for nothing (R121). -/
theorem State.tcb?_joinTask {s : State} {id : W32} {b : Tcb} (desc x : W64) (live : s.tcb? id = some b) (canf : b.canf = false) :
    let c := { b with
      key := BitVec.ofNat 32 (desc.toNat / 2 ^ 32), entry := BitVec.ofNat 26 (desc.toNat / 2 ^ 6), arg := b.arg + x }
    (b.pend = 0 → ∃ o, (s.joinTask id desc x).tcb? id = some { c with state := .ready, order := o }) ∧
    (b.pend ≠ 0 → (s.joinTask id desc x).tcb? id = some { c with state := .joined }) := by
  have key : BitVec.ofNat 32 (bitsOf desc 63 32) = BitVec.ofNat 32 (desc.toNat / 2 ^ 32) := BitVec.eq_of_toNat_eq (by simp [bitsOf])
  have entry : BitVec.ofNat 26 (bitsOf desc 31 6) = BitVec.ofNat 26 (desc.toNat / 2 ^ 6) := BitVec.eq_of_toNat_eq (by simp [bitsOf])
  unfold State.joinTask
  rw [live]
  dsimp only
  rw [key, entry, if_neg (by simp [canf])]
  refine ⟨fun zero => ⟨(s.die (taskDie id)).nextOrder, ?_⟩, fun more => ?_⟩
  · rw [if_pos zero, State.tcb?_readyBlock]
    exact State.tcb?_putTcb_same live rfl
  · rw [if_neg more]
    exact State.tcb?_putTcb_same live rfl

end Sys2Proof.Machine
end

