-- ==== Sys2Proof/Proofs/TaskEnds.lean ====
section
/-! SUPPORT. Proofs/TaskEnds.lean: system instructions, and the ends of tasks and of launch bodies (O9). -/

namespace Sys2Proof.Machine

open Sys2Proof.Rules

/-! ### The current core among the cores -/

theorem State.coreAt_self (s : State) : s.coreAt s.core.id = s.core := if_pos rfl

theorem State.putCore_current {s : State} {x : Core} (h : x.id = s.core.id) : s.putCore x = s.upd x := if_pos h.symm

/-- A strand's snapshots are released: nothing else of it, and no block, launch or queue, changes (R92). -/
theorem State.releaseSnaps_frame (s : State) :
    (s.releaseSnaps s.core.id).core = { s.core with snaps := [] } ∧ (s.releaseSnaps s.core.id).die0 = s.die0 ∧
      (s.releaseSnaps s.core.id).die1 = s.die1 ∧ (s.releaseSnaps s.core.id).launches = s.launches ∧
      (s.releaseSnaps s.core.id).queues = s.queues := by
  unfold State.releaseSnaps
  rw [State.coreAt_self]
  dsimp only
  rw [State.putCore_current (s := s) (x := { s.core with snaps := [] }) rfl]
  split <;> exact ⟨rfl, rfl, rfl, rfl, rfl⟩

/-! ### The end boundary of a task (R85, R94) -/

/-- A quiet task ends at once, with its snapshots released. -/
theorem exec_taskEnd_quiet {s : State} {k : EndKind} (ending : s.core.seq = .ending k) (quiet : quietTask s.core) :
    exec (.taskEnd s.core.id) s = .next ((s.releaseSnaps s.core.id).taskOver k) := by
  obtain ⟨vq, xinq, xoutq, mq, aq, held, version, commit, implicit⟩ := quiet
  have boundary : s.boundary none false false = .done 0 (s.releaseSnaps s.core.id) := by
    rw [State.boundary, vq, commit, version]
    rfl
  show execTaskEnd s.core.id s = _
  unfold execTaskEnd
  rw [State.focus_self]
  dsimp only
  rw [ending]
  dsimp only
  rw [if_neg (by simp [Core.drained, vq, xinq, xoutq, mq, aq, held]), State.atBoundary, boundary, implicit]
  rfl

theorem exec_taskEnd_waits {s : State} {k : EndKind} (ending : s.core.seq = .ending k) (busy : ¬ s.core.drained = true) :
    exec (.taskEnd s.core.id) s = .next s := by
  show execTaskEnd s.core.id s = _
  unfold execTaskEnd
  rw [State.focus_self]
  dsimp only
  rw [ending]
  exact if_pos (by simp [busy])

/-! ### The strand of a Ringmaster task (R118) -/

/-- What the end of a task does to its block. -/
def State.blockOver (s : State) (k : EndKind) (id : W32) : State :=
  match k with
  | .halt => s.endTask id 0
  | .done x => s.endTask id x
  | .join desc x => s.joinTask id desc x

/-- The number that the PICK of the task returns. -/
def endCode : EndKind → Nat
  | .halt => 0
  | .done _ => 0
  | .join _ _ => 1

theorem ofNat_endCode (k : EndKind) : BitVec.ofNat 64 (endCode k) = endStatus k := by cases k <;> rfl

theorem DiesAside.blockOver (s : State) (k : EndKind) (id : W32) : DiesAside s (s.blockOver k id) := by
  cases k with
  | halt => exact DiesAside.endBlock s id 0 _
  | done x => exact DiesAside.endBlock s id x _
  | join desc x => exact DiesAside.joinTask s id desc x

/-- The state of a task whose loops are left and whose records are completed. -/
def State.taskLeft (s : State) (queues : List Queue) : State :=
  { s with core := { s.core with implicit := false, loops := [] }, queues := queues }

theorem State.taskOver_ring {s : State} {die idx : Nat} {b : Tcb} (k : EndKind) (ring : s.core.ring = some (die, idx))
    (slot : assoc idx (s.die die).tcbs = some b) :
    ∃ queues, s.taskOver k = ((s.taskLeft queues).blockOver k (taskId die b.gen idx)).returnToBody s.core.id (endCode k) := by
  refine ⟨((s.upd { s.core with implicit := false, loops := [] }).endDequeued s.core.id s.core.taskid 0 none).queues, ?_⟩
  have kept : assoc idx ((((s.upd { s.core with implicit := false, loops := [] }).endDequeued s.core.id s.core.taskid 0 none).die die).tcbs) =
    some b := slot
  unfold State.taskOver
  dsimp only
  split
  · rename_i at_
    rw [ring] at at_
    cases at_
    rw [kept]
    cases k <;> rfl
  · rename_i none_
    rw [ring] at none_
    cases none_

/-- The strand of a task that is over without a return point is idle. -/
theorem State.returnToBody_idle {s : State} (status : Nat) (h : s.core.pickRet = none) :
    s.returnToBody s.core.id status = s.upd { s.core with ring := none, held := [], loops := [], seq := .idle } := by
  unfold State.returnToBody
  rw [State.coreAt_self]
  dsimp only
  split
  · exact State.putCore_current rfl
  · rename_i at_
    rw [h] at at_
    cases at_

/-- The strand of a task that is over, as it runs on at the return point of its PICK (R118). -/
def Core.picked (c : Core) (pc : W64) : Core :=
  { c with
    ring := none, pickRet := none, held := [], loops := [], treeid := 0
    taskid := (match c.body with | some b => b.taskid | none => 0), pc := pc, seq := .run, reach := .jump c.pc, micro := 0 }

theorem State.returnToBody_picked {s : State} (status : Nat) {pc : W64} {gd : Reg} (h : s.core.pickRet = some (pc, gd)) :
    s.returnToBody s.core.id status = s.upd (((s.core.picked pc).setCanf false).setG gd (BitVec.ofNat 64 status)) := by
  unfold State.returnToBody
  rw [State.coreAt_self]
  dsimp only
  split
  · rename_i none_
    rw [h] at none_
    cases none_
  · rename_i at_
    rw [h] at at_
    cases at_
    exact State.putCore_current ((Core.setG_id _ _ _).trans rfl)

theorem State.returnToBody_ring_loops (s : State) (status : Nat) :
    (s.returnToBody s.core.id status).core.ring = none ∧ (s.returnToBody s.core.id status).core.loops = [] := by
  cases h : s.core.pickRet with
  | none =>
    rw [State.returnToBody_idle _ h]
    exact ⟨rfl, rfl⟩
  | some p =>
    rw [State.returnToBody_picked _ h, State.upd_core, Core.setG_ring, Core.setG_loops]
    exact ⟨rfl, rfl⟩

theorem State.returnToBody_dies (s : State) (status : Nat) :
    (s.returnToBody s.core.id status).die0 = s.die0 ∧ (s.returnToBody s.core.id status).die1 = s.die1 := by
  unfold State.returnToBody
  dsimp only
  split <;> simp

theorem State.tcb?_of_dies {s t : State} (die0 : t.die0 = s.die0) (die1 : t.die1 = s.die1) (id : W32) : t.tcb? id = s.tcb? id :=
  State.tcb?_congr (fun die idx _ => by rw [State.blockAt, State.blockAt, State.die, State.die, die0, die1]) id

/-! ### The end of a launch body (R254, R260, R331) -/

theorem find?_map_of_same {α : Type} {p : α → Bool} {f : α → α} (h : ∀ x, p (f x) = p x) (l : List α) :
    (l.map f).find? p = (l.find? p).map f := by
  rw [List.find?_map, show p ∘ f = p from funext h]

theorem State.id_of_launch? {s : State} {i : Nat} {l : Launch} (h : s.launch? i = some l) : l.id = i := by
  simpa using List.find?_some h

theorem State.launch?_mapLaunch {s : State} {i : Nat} {l m : Launch} (h : s.launch? i = some l) (same : m.id = l.id) :
    (s.mapLaunch l.id fun _ => m).launch? i = some m := by
  have id := State.id_of_launch? h
  have kept (x : Launch) : decide ((if x.id = l.id then m else x).id = i) = decide (x.id = i) := by
    split
    · rename_i e
      rw [same, e]
    · rfl
  unfold State.launch? at h ⊢
  rw [State.mapLaunch_launches, find?_map_of_same kept, h, Option.map_some, if_pos rfl]

theorem State.queue?_map {s t : State} {f : Queue → Queue} (queues : t.queues = s.queues.map f) (id : ∀ x, (f x).id = x.id)
    (closing : ∀ x, (f x).closing = x.closing) (q : Nat) : t.queue? q = (s.queue? q).map f := by
  unfold State.queue?
  rw [queues]
  exact find?_map_of_same (fun x => by rw [id, closing]) _

theorem State.isSome_queue?_endDequeued (s : State) (c : Nat) (task : W32) (status : Nat) (rep : Option FaultReport) (q : Nat) :
    ((s.endDequeued c task status rep).queue? q).isSome = (s.queue? q).isSome := by
  unfold State.queue? State.endDequeued
  dsimp only
  rw [find?_map_of_same, Option.isSome_map]
  intro _
  rfl

/-- The state whose launch has ended, before its completion is queued. -/
def State.freed (s : State) (l : Launch) : State :=
  let free := fun (c : Core) => if c.launch = some l.id then { c with launch := none } else c
  { s with
    launches := s.launches.filter fun x => x.id ≠ l.id
    core := free s.core
    others := s.others.map free
    queues := s.queues.map fun q => if q.boundTo = some l.id then { q with boundTo := none } else q }

/-- The completion of a launch's record n (R381). -/
def launchCompletion (l : Launch) (n : Nat) : Completion :=
  { recno := some n, after := n, status := (match l.err with | some e => e.1 | none => 0), utag := l.rcd.getD 13 0
    report := (match l.err with | some e => e.2 | none => none) }

theorem State.finishLaunch_eq (s : State) (l : Launch) :
    s.finishLaunch l = match l.src with
      | .queue q n => (s.freed l).mapQueue q fun x => { x with comps := x.comps ++ [launchCompletion l n] }
      | .barker _ _ _ => s.freed l := by
  unfold State.finishLaunch launchCompletion
  cases l.src with
  | queue q n => cases l.err <;> rfl
  | barker a b c => rfl

theorem State.finishLaunch_core (s : State) (l : Launch) : ∃ launch, (s.finishLaunch l).core = { s.core with launch := launch } := by
  have core : ∃ launch, (s.freed l).core = { s.core with launch := launch } := by
    unfold State.freed
    dsimp only
    split <;> exact ⟨_, rfl⟩
  rw [State.finishLaunch_eq]
  split <;> exact core

theorem State.finishLaunch_launch? (s : State) (l : Launch) : (s.finishLaunch l).launch? l.id = none := by
  have gone : (s.freed l).launch? l.id = none := by
    refine List.find?_eq_none.mpr fun x kept => ?_
    have := (List.mem_filter.mp kept).2
    simpa using this
  rw [State.finishLaunch_eq]
  split <;> exact gone

/-- The completion of a launch that came from a queue is due in that queue. -/
theorem State.finishLaunch_completes {s : State} {l : Launch} {q n : Nat} {z : Queue} (src : l.src = .queue q n) (found : s.queue? q = some z) :
    ∃ y, (s.finishLaunch l).queue? q = some y ∧ launchCompletion l n ∈ y.comps := by
  have id : z.id = q := by
    have := List.find?_some found
    simp only [Bool.and_eq_true, beq_iff_eq] at this
    exact this.1
  have freed := State.queue?_map (s := s) (t := s.freed l) rfl (fun x => by split <;> rfl) (fun x => by split <;> rfl) q
  have completed := State.queue?_map (s := s.freed l) (t := s.finishLaunch l)
    (f := fun x => if x.id = q then { x with comps := x.comps ++ [launchCompletion l n] } else x)
    (by rw [State.finishLaunch_eq, src]; rfl) (fun x => by split <;> rfl) (fun x => by split <;> rfl) q
  rw [found] at freed
  rw [freed, Option.map_some, Option.map_some] at completed
  refine ⟨_, completed, ?_⟩
  rw [if_pos (by split <;> exact id)]
  simp

/-- The core whose launch body has ended. -/
def Core.bodyless (c : Core) : Core := { c with body := none, seq := .idle, pickRet := none, loops := [], held := [], ring := none }

/-- The state whose launch body has ended and whose records are completed. -/
def State.bodyLeft (s : State) (queues : List Queue) : State := { s with core := s.core.bodyless, queues := queues }

/-- A launch whose instance of the current core has ended counts one less; with the last it is finished (R260). -/
theorem State.bodyEnd_eq {s : State} {y : Body} {l : Launch} (body : s.core.body = some y) (launch : s.launch? y.launch = some l) :
    s.bodyEnd s.core.id none =
      let t := (s.bodyLeft (s.endDequeued s.core.id y.taskid 0 none).queues).mapLaunch l.id fun _ => { l with left := l.left - 1 }
      if l.left - 1 = 0 then t.finishLaunch { l with left := l.left - 1 } else t := by
  unfold State.bodyEnd
  rw [State.coreAt_self]
  dsimp only
  split
  · rename_i none_
    rw [body] at none_
    cases none_
  · rename_i at_
    rw [body] at at_
    cases at_
    have current : (s.endDequeued s.core.id y.taskid 0 none).coreAt s.core.id = s.core := if_pos rfl
    have idle : (s.endDequeued s.core.id y.taskid 0 none).putCore
        { s.core with body := none, seq := .idle, pickRet := none, loops := [], held := [], ring := none } =
      s.bodyLeft (s.endDequeued s.core.id y.taskid 0 none).queues := State.putCore_current rfl
    have kept : (s.bodyLeft (s.endDequeued s.core.id y.taskid 0 none).queues).launch? y.launch = some l := launch
    rw [Option.bind_none, current, idle, kept]
    obtain ⟨_, _, _, _, _, _, _, err, _, _⟩ := l
    cases err <;> rfl

/-! ### The clauses of the end of a task -/

/-- HALT in a handler charges the task with the error of the handler's bank (R85). -/
theorem exec_halt_inHandler {s : State} (h : s.core.lvl ≠ 0) :
    let b := if s.core.lvl = 1 then s.core.bank0 else s.core.bank1
    ∃ t r, exec .halt s = .next t ∧ t.core.held = s.core.held ++ [r] ∧ t.core.lvl = 0 ∧ t.core.status.getLsbD 5 = false ∧
      t.core.pc = s.core.pc ∧ t.core.g = s.core.g ∧ t.core.seq = s.core.seq ∧
      r.faddr = b.eval ∧ r.waddr = b.epc ∧ r.taskid.toNat = b.etask.toNat % 2 ^ 32 ∧ r.code = b.ecause.toNat % 2 ^ 8 ∧
      r.core = s.core.id := by
  intro b
  obtain ⟨snaps, implicit, core⟩ := Core.abortFrom_core s (bankReport b s.core.id (bitsOf b.ecause 7 0))
  refine ⟨s.haltLevel, bankReport b s.core.id (bitsOf b.ecause 7 0), if_neg h, ?_⟩
  rw [State.haltLevel, core]
  exact ⟨rfl, Core.lvl_setLvl_zero _, Core.status_setLvl_zero _, rfl, rfl, rfl, rfl, rfl, by simp [bankReport, bitsOf],
    by simp [bankReport, bitsOf], rfl⟩

/-- A quiet strand with neither task nor body goes idle (R85). -/
theorem exec_taskEnd_idle {s : State} {k : EndKind} (ending : s.core.seq = .ending k) (quiet : quietTask s.core) (ring : s.core.ring = none)
    (body : s.core.body = none) :
    exec (.taskEnd s.core.id) s =
      let u := s.releaseSnaps s.core.id
      .next { u with core := { u.core with implicit := false, loops := [], seq := .idle } } := by
  obtain ⟨core, -⟩ := s.releaseSnaps_frame
  rw [exec_taskEnd_quiet ending quiet]
  generalize s.releaseSnaps s.core.id = v at core
  have ring' : v.core.ring = none := by rw [core]; exact ring
  have body' : v.core.body = none := by rw [core]; exact body
  unfold State.taskOver
  dsimp only
  split
  · rename_i at_
    rw [ring'] at at_
    cases at_
  · rw [if_neg (by rw [body']; decide)]
    rfl

/-- The strand of a quiet Ringmaster task: its block is over, and the strand goes back to its PICK (R118). -/
theorem exec_taskEnd_ring {s : State} {k : EndKind} {die idx : Nat} {b : Tcb} (ending : s.core.seq = .ending k) (quiet : quietTask s.core)
    (ring : s.core.ring = some (die, idx)) (slot : assoc idx (s.die die).tcbs = some b) :
    ∃ u : State, u.core = { s.core with snaps := [], implicit := false, loops := [] } ∧ (∀ id, u.tcb? id = s.tcb? id) ∧
      exec (.taskEnd s.core.id) s = .next ((u.blockOver k (taskId die b.gen idx)).returnToBody u.core.id (endCode k)) := by
  obtain ⟨core, die0, die1, -⟩ := s.releaseSnaps_frame
  rw [exec_taskEnd_quiet ending quiet]
  generalize s.releaseSnaps s.core.id = v at core die0 die1
  have ring' : v.core.ring = some (die, idx) := by rw [core]; exact ring
  have slot' : assoc idx (v.die die).tcbs = some b := by rw [State.die, die0, die1]; exact slot
  obtain ⟨queues, over_⟩ := State.taskOver_ring k ring' slot'
  refine ⟨v.taskLeft queues, ?_, State.tcb?_of_dies die0 die1, congrArg Host.Outcome.next over_⟩
  rw [State.taskLeft, core]

/-- A quiet launch body ends (R254). -/
theorem exec_taskEnd_body {s : State} {k : EndKind} {y : Body} {l : Launch} (ending : s.core.seq = .ending k) (quiet : quietTask s.core)
    (ring : s.core.ring = none) (body : s.core.body = some y) (launch : s.launch? y.launch = some l) :
    ∃ u : State, u.core.body = none ∧ u.core.seq = .idle ∧ u.core.loops = [] ∧ u.launch? y.launch = some l ∧
      (∀ q, (u.queue? q).isSome = (s.queue? q).isSome) ∧
      exec (.taskEnd s.core.id) s =
        let t := u.mapLaunch l.id fun _ => { l with left := l.left - 1 }
        .next (if l.left - 1 = 0 then t.finishLaunch { l with left := l.left - 1 } else t) := by
  obtain ⟨core, -, -, launches, queues⟩ := s.releaseSnaps_frame
  rw [exec_taskEnd_quiet ending quiet]
  generalize s.releaseSnaps s.core.id = v at core launches queues
  have ring' : v.core.ring = none := by rw [core]; exact ring
  have body' : v.core.body = some y := by rw [core]; exact body
  have launch' : v.launch? y.launch = some l := by rw [State.launch?, launches]; exact launch
  have over_ : v.taskOver k = (v.upd { v.core with implicit := false, loops := [] }).bodyEnd v.core.id none := by
    unfold State.taskOver
    dsimp only
    split
    · rename_i at_
      rw [ring'] at at_
      cases at_
    · exact if_pos (by rw [body']; rfl)
  have ended := State.bodyEnd_eq (s := v.upd { v.core with implicit := false, loops := [] }) body' launch'
  refine ⟨_, ?_, ?_, ?_, ?_, fun q => ?_, congrArg Host.Outcome.next (over_.trans ended)⟩
  · rfl
  · rfl
  · rfl
  · exact launch'
  · exact (State.isSome_queue?_endDequeued _ _ _ _ _ q).trans (congrArg (fun l => (List.find? _ l).isSome) queues)

end Sys2Proof.Machine

namespace Sys2Proof.Proofs

open Sys2Proof.Machine Sys2Proof.Rules

/-- Settles O9: the system words by their own cases; the ends of tasks by what the end does to the block, the strand and the launch. -/
theorem systemInstructionsAndTaskEnd : Obligations.SystemInstructionsAndTaskEnd := by
  unfold Obligations.SystemInstructionsAndTaskEnd
  refine ⟨⟨fun s => ⟨rfl, rfl, fun n => rfl, rfl, fun level => if_pos level, exec_halt_inHandler⟩, fun s k ready => ⟨?_, fun off => ?_⟩,
    fun s k debugger breakOn => ?_, fun s w pause due => ?_, fun s b enabled => ⟨?_, ?_, fun stopped => ?_⟩⟩,
    fun s k ending => ⟨exec_taskEnd_idle ending, fun busy => ?_⟩, ?_, ?_⟩
  · exact State.traps_eq_traps .swtrap _ _ ready
  · exact (if_neg (by rwa [Bool.and_eq_true])).trans (State.traps_eq_traps .bkpt _ _ ready)
  · exact if_pos (by rw [debugger, breakOn]; rfl)
  · show execPauseEnd s.core.id s = _
    unfold execPauseEnd
    rw [State.focus_self]
    dsimp only
    rw [pause]
    exact if_pos due
  · show execJtagDebugger s.core.id (.attach b) s = _
    unfold execJtagDebugger
    rw [State.focus_self, if_neg (by simp [enabled])]
    rfl
  · show execJtagDebugger s.core.id .detach s = _
    unfold execJtagDebugger
    rw [State.focus_self, if_neg (by simp [enabled])]
    rfl
  · show execJtagDebugger s.core.id .resume s = _
    unfold execJtagDebugger
    rw [State.focus_self, if_neg (by simp [enabled])]
    exact if_pos stopped
  · refine exec_taskEnd_waits ending ?_
    simp only [Core.drained, Bool.and_eq_true, List.isEmpty_iff]
    tauto
  · intro s k die idx b ending quiet ring hd hi slot live nonzero hg id
    obtain ⟨u, core, tcbs, result⟩ := exec_taskEnd_ring ending quiet ring slot
    have number : taskGen id = b.gen := taskGen_taskId hd hg hi
    have block : u.tcb? id = some b := (tcbs id).trans (State.tcb?_eq_some_iff.mpr
      ⟨by omega, by rw [State.blockAt, taskDie_taskId hd hg hi, taskIdx_taskId hd hg hi, slot], number.symm, live⟩)
    obtain ⟨d0, d1, dies⟩ := DiesAside.blockOver u k id
    have ended (x : W64) (h : (k = .halt ∧ x = 0) ∨ k = .done x) : u.blockOver k id = u.endTask id x := by
      obtain ⟨rfl, rfl⟩ | rfl := h <;> rfl
    have joined (desc x : W64) (h : k = .join desc x) : u.blockOver k id = u.joinTask id desc x := by rw [h]; rfl
    have core' : (u.blockOver k id).core = { s.core with snaps := [], implicit := false, loops := [] } := by rw [dies]; exact core
    have current : u.core.id = (u.blockOver k id).core.id := by rw [dies]
    rw [current] at result
    generalize u.blockOver k id = w at core' result ended joined
    obtain ⟨die0, die1⟩ := w.returnToBody_dies (endCode k)
    have seen := State.tcb?_of_dies die0 die1
    have left := w.returnToBody_ring_loops (endCode k)
    refine ⟨_, result, left.1, left.2, fun pc gd at_ => ?_, fun x ends => ?_, fun desc x ends canf => ?_⟩
    · have back : w.core.pickRet = some (pc, gd) := by rw [core']; exact at_
      rw [State.returnToBody_picked _ back, core', State.upd_core, ofNat_endCode]
      refine ⟨Core.setG_pc .., Core.setG_seq .., Core.setG_pickRet .., Core.setG_treeid .., Core.setG_taskid ..,
        fun nonzero => Core.getG_setG_same _ _ nonzero, fun r other => (Core.getG_setG_other _ _ other).trans rfl⟩
    · have blocks := State.tcb?_endTask x block
      simp only [← ended x ends, ← seen, tcbs] at blocks
      exact blocks
    · have blocks := State.tcb?_joinTask desc x block canf
      simp only [← joined desc x ends, ← seen] at blocks
      exact blocks
  · intro s k y l ending quiet ring body launch
    obtain ⟨u, noBody, idle, noLoops, launch', queues, result⟩ := exec_taskEnd_body ending quiet ring body launch
    have id := State.id_of_launch? launch
    have counted := State.launch?_mapLaunch (m := { l with left := l.left - 1 }) launch' rfl
    refine ⟨_, result, ?_⟩
    by_cases last : l.left - 1 = 0
    · rw [if_pos last]
      obtain ⟨launch_, core⟩ := (u.mapLaunch l.id fun _ => { l with left := l.left - 1 }).finishLaunch_core { l with left := l.left - 1 }
      have over_ := (u.mapLaunch l.id fun _ => { l with left := l.left - 1 }).finishLaunch_launch? { l with left := l.left - 1 }
      refine ⟨by rw [core]; exact noBody, by rw [core]; exact idle, by rw [core]; exact noLoops, fun more => by omega,
        fun _ => ⟨by rw [← id]; exact over_, fun q n z src found => ?_⟩⟩
      obtain ⟨z', found'⟩ := Option.isSome_iff_exists.mp ((queues q).trans (by rw [found]; rfl))
      exact State.finishLaunch_completes (l := { l with left := l.left - 1 }) src found'
    · rw [if_neg last]
      exact ⟨noBody, idle, noLoops, fun _ => counted, fun few => by omega⟩

end Sys2Proof.Proofs
end

