-- ==== Sys2Proof/Proofs/BankModes.lean ====
section
/-! SUPPORT. Proofs/BankModes.lean: BANKM switches the core's banks (O13). -/

namespace Sys2Proof.Machine

open Sys2Proof.Rules

/-! ### Cores and clusters written and read back -/

theorem find?_insertCore (x : Core) (l : List Core) (c : Nat) :
    (insertCore x l).find? (fun y => y.id = c) = if x.id = c then some x else l.find? fun y => y.id = c := by
  induction l with
  | nil => by_cases h : x.id = c <;> simp [insertCore, h]
  | cons y t ih =>
    unfold insertCore
    by_cases less : x.id < y.id
    · rw [if_pos less, List.find?_cons]
      by_cases h : x.id = c
      · rw [decide_eq_true h, if_pos h]
      · rw [decide_eq_false h, if_neg h]
    · rw [if_neg less]
      by_cases same : y.id = x.id
      · rw [if_pos same]
        by_cases h : x.id = c <;> simp [h, same]
      · rw [if_neg same, List.find?_cons, ih, List.find?_cons]
        by_cases h : x.id = c
        · rw [if_pos h, if_pos h, decide_eq_false fun e => same (e.trans h.symm)]
        · rw [if_neg h, if_neg h]

theorem State.coreAt_putCore (s : State) (x : Core) (c : Nat) : (s.putCore x).coreAt c = if c = x.id then x else s.coreAt c := by
  unfold State.putCore State.coreAt
  by_cases current : s.core.id = x.id
  · rw [if_pos current]
    dsimp only
    rw [current]
    simp only [eq_comm (a := c)]
    split <;> rfl
  · rw [if_neg current]
    dsimp only
    rw [find?_insertCore]
    by_cases h : c = x.id
    · rw [if_pos h, if_neg (fun e => current (e.trans h)), if_pos h.symm]
      rfl
    · rw [if_neg h, if_neg (Ne.symm h)]

theorem State.cluster_putCluster_same (s : State) (g : Nat) (x : Cluster) : (s.putCluster g x).cluster g = x := by
  rw [State.cluster, State.putCluster_clusters, assoc_assocPut_same]
  rfl

theorem State.cluster_putCluster_other (s : State) {g h : Nat} (x : Cluster) (apart : h ≠ g) :
    (s.putCluster g x).cluster h = s.cluster h := by
  rw [State.cluster, State.putCluster_clusters, assoc_assocPut_other _ _ apart]
  rfl

/-- A line leaves the L1 of a cluster whose modes change, when its bank is no longer cache or its slice moves (R81). -/
def State.expelGone (g : Nat) (old cl : Cluster) (s : State) (l : Nat) : State :=
  if !cl.pinned l && ((cl.bank (old.place l).1).mode != 0 || old.slice l != cl.slice l) then s.expel g l else s

theorem State.rebank_eq (s : State) (g : Nat) (old : Cluster) :
    s.rebank g old = (((old.filter.map (·.line)) ++ old.leases.map (·.line)).foldl (State.expelGone g old (s.cluster g))
      (((s.cluster g).frames.filter fun f => ((s.cluster g).bank (f.frame / 16)).mode ≠ 1).foldl (fun t f => t.unpin g f) s)).reslice g := rfl

/-! ### What the copies of a cluster can lose (R81, R273, R286, R287) -/

/-- t differs from s at most in the lines, held copies and leases of cluster g, in its pinned pages, which are `frames` now, in messages
sent, and in snapshots of strands and the boundaries they owe. -/
structure CopiesAside (g : Nat) (frames : List Frame) (s t : State) : Prop where
  rest : { t with core := s.core, others := s.others, clusters := s.clusters, msgs := s.msgs } = s
  core : CoreAside s t
  cores : ∀ c, ∃ snaps implicit, t.coreAt c = { s.coreAt c with snaps := snaps, implicit := implicit }
  others : ∀ h, h ≠ g → t.cluster h = s.cluster h
  banks : (t.cluster g).banks = (s.cluster g).banks
  frames : (t.cluster g).frames = frames

namespace CopiesAside

theorem refl (g : Nat) (s : State) : CopiesAside g (s.cluster g).frames s s :=
  ⟨rfl, ⟨_, _, rfl⟩, fun _ => ⟨_, _, rfl⟩, fun _ _ => rfl, rfl, rfl⟩

theorem trans {g : Nat} {fs fs' : List Frame} {s t u : State} (h : CopiesAside g fs s t) (k : CopiesAside g fs' t u) :
    CopiesAside g fs' s u := by
  refine ⟨?_, h.core.trans k.core, fun c => ?_, fun x apart => (k.others x apart).trans (h.others x apart), k.banks.trans h.banks, k.frames⟩
  · have second := k.rest
    have first := h.rest
    rw [← second] at first
    exact first
  · obtain ⟨_, _, toT⟩ := h.cores c
    obtain ⟨_, _, toU⟩ := k.cores c
    exact ⟨_, _, by rw [toU, toT]⟩

/-- A change of cluster g alone that keeps its banks. -/
theorem putCluster {g : Nat} (s : State) {x : Cluster} (banks : x.banks = (s.cluster g).banks) :
    CopiesAside g x.frames s (s.putCluster g x) :=
  ⟨rfl, ⟨_, _, rfl⟩, fun _ => ⟨_, _, rfl⟩, fun _ apart => s.cluster_putCluster_other x apart, by rw [s.cluster_putCluster_same, banks],
    by rw [s.cluster_putCluster_same]⟩

/-- The same after other changes. -/
theorem thenCluster {g : Nat} {fs : List Frame} {s t : State} (h : CopiesAside g fs s t) {x : Cluster} (banks :
    x.banks = (t.cluster g).banks)
    (frames : x.frames = (t.cluster g).frames) : CopiesAside g fs s (t.putCluster g x) := by
  have k := h.trans (putCluster t banks)
  rwa [frames, h.frames] at k

theorem sends {g : Nat} {fs : List Frame} {s t : State} (h : CopiesAside g fs s t) (ms : List Msg) :
    CopiesAside g fs s { t with msgs := ms } :=
  ⟨h.rest, h.core, h.cores, h.others, h.banks, h.frames⟩

theorem foldl {g : Nat} {α : Type} {f : State → α → State} (hf : ∀ t x, CopiesAside g (t.cluster g).frames t (f t x)) (l :
    List α) (s : State) :
    CopiesAside g (s.cluster g).frames s (l.foldl f s) := by
  induction l generalizing s with
  | nil => exact refl g s
  | cons x l ih =>
    have first := hf s x
    have rest := ih (f s x)
    rw [first.frames] at rest
    exact first.trans rest

/-- A core written back with other snapshots, or with a boundary to owe. -/
theorem putCore (g : Nat) {s : State} {x : Core} {k : Nat} (id : x.id = k)
    (h : ∃ snaps implicit, x = { s.coreAt k with snaps := snaps, implicit := implicit }) :
    CopiesAside g (s.cluster g).frames s (s.putCore x) := by
  have clusters (k : Nat) : (s.putCore x).cluster k = s.cluster k := by
    unfold State.putCore
    split <;> rfl
  refine ⟨?_, ?_, fun c => ?_, fun k _ => clusters k, by rw [clusters], by rw [clusters]⟩
  · unfold State.putCore
    split <;> rfl
  · unfold CoreAside
    rw [State.putCore_core]
    split
    · rename_i current
      rwa [← id, ← current, State.coreAt_self] at h
    · exact ⟨_, _, rfl⟩
  · rw [State.coreAt_putCore]
    split
    · rename_i same
      rw [same, id]
      exact h
    · exact ⟨_, _, rfl⟩

theorem dropSnap (g : Nat) (s : State) (c l : Nat) : CopiesAside g (s.cluster g).frames s (s.dropSnap c l) :=
  putCore g (s.coreAt_id c) ⟨_, _, rfl⟩

theorem intoHold (g : Nat) (s : State) (l : Nat) (holders : List Nat) : CopiesAside g (s.cluster g).frames s (s.intoHold g l holders) := by
  unfold State.intoHold
  dsimp only
  split
  · exact refl g s
  · split
    · exact (refl g s).thenCluster rfl rfl
    · exact foldl (fun t c => dropSnap g t c l) _ s

theorem holdCopy (g : Nat) (s : State) (l : Nat) : CopiesAside g (s.cluster g).frames s (s.holdCopy g l) := by
  unfold State.holdCopy
  split
  · exact refl g s
  · exact intoHold g s l _

theorem dropL1 (g : Nat) (s : State) (l : Nat) : CopiesAside g (s.cluster g).frames s (s.dropL1 g l) := by
  unfold State.dropL1
  split
  · exact refl g s
  · exact (intoHold g s l _).thenCluster rfl rfl

theorem evict (g : Nat) (s : State) (l : Nat) : CopiesAside g (s.cluster g).frames s (s.evict g l) := by
  unfold State.evict
  split
  · exact refl g s
  · split
    · exact refl g s
    · dsimp only
      split
      iterate 3
        refine (thenCluster (holdCopy g s l) ?_ ?_).sends _
        · rfl
        · rfl
      exact (holdCopy g s l).thenCluster rfl rfl

theorem expel (g : Nat) (s : State) (l : Nat) : CopiesAside g (s.cluster g).frames s (s.expel g l) := by
  unfold State.expel
  split
  · exact dropL1 g s l
  · split
    · exact (holdCopy g s l).thenCluster rfl rfl
    · exact evict g s l

theorem unpin (g : Nat) (s : State) (f : Frame) :
    CopiesAside g ((s.cluster g).frames.filter fun x => x.frame ≠ f.frame) s (s.unpin g f) := by
  have first : CopiesAside g ((s.cluster g).frames.filter fun x => x.frame ≠ f.frame) s
      (s.putCluster g { s.cluster g with frames := (s.cluster g).frames.filter fun x => x.frame ≠ f.frame }) :=
    putCluster s (x := { s.cluster g with frames := (s.cluster g).frames.filter fun x => x.frame ≠ f.frame }) rfl
  have rest := foldl (g := g) (fun t k => expel g t (f.base * 32 + k)) (List.range 32)
    (s.putCluster g { s.cluster g with frames := (s.cluster g).frames.filter fun x => x.frame ≠ f.frame })
  rw [first.frames] at rest
  exact first.trans rest

theorem filter_apart (f : Frame) (fs frames : List Frame) :
    ((frames.filter fun x => x.frame ≠ f.frame).filter fun x => fs.all fun f => x.frame != f.frame) =
      frames.filter fun x => (f :: fs).all fun f => x.frame != f.frame := by
  rw [List.filter_filter]
  refine List.filter_congr fun x _ => ?_
  rw [List.all_cons, Bool.and_comm]
  refine congrArg (· && _) ?_
  by_cases h : x.frame = f.frame
  · simp [h]
  · simp [h]

theorem unpins (g : Nat) (fs : List Frame) (s : State) :
    CopiesAside g ((s.cluster g).frames.filter fun x => fs.all fun f => x.frame != f.frame) s (fs.foldl (fun t f => t.unpin g f) s) := by
  induction fs generalizing s with
  | nil =>
    rw [List.filter_eq_self.mpr (by simp)]
    exact refl g s
  | cons f fs ih =>
    have first := unpin g s f
    have rest := ih (s.unpin g f)
    rw [first.frames] at rest
    rw [List.foldl_cons, ← filter_apart]
    exact first.trans rest

theorem reslice (g : Nat) (s : State) : CopiesAside g (s.cluster g).frames s (s.reslice g) := by
  have first : CopiesAside g (s.cluster g).frames s
      (s.putCluster g { s.cluster g with holdBuf := (s.cluster g).holdBuf.filter fun h => !((s.cluster g).slice h.line != h.slice) }) :=
    (refl g s).thenCluster rfl rfl
  have rest := foldl (g := g) (fun t (h : HoldEntry) => intoHold g t h.line h.holders)
    ((s.cluster g).holdBuf.filter fun h => (s.cluster g).slice h.line != h.slice)
    (s.putCluster g { s.cluster g with holdBuf := (s.cluster g).holdBuf.filter fun h => !((s.cluster g).slice h.line != h.slice) })
  rw [first.frames] at rest
  exact first.trans rest

theorem expelGone (g : Nat) (old cl : Cluster) (s : State) (l : Nat) :
    CopiesAside g (s.cluster g).frames s (State.expelGone g old cl s l) := by
  unfold State.expelGone
  split
  · exact expel g s l
  · exact refl g s

/-- What a change of modes does to pages and lines: the pages that stay pinned are those in scratch banks (R81, R273). -/
theorem rebank (g : Nat) (s : State) (old : Cluster) :
    ∃ fs, CopiesAside g fs s (s.rebank g old) ∧
      ∀ f, f ∈ fs ↔ f ∈ (s.cluster g).frames ∧ ((s.cluster g).bank (f.frame / 16)).mode = 1 := by
  have pages := unpins g ((s.cluster g).frames.filter fun f => ((s.cluster g).bank (f.frame / 16)).mode ≠ 1) s
  refine ⟨(s.cluster g).frames.filter fun x =>
    ((s.cluster g).frames.filter fun f => ((s.cluster g).bank (f.frame / 16)).mode ≠ 1).all fun f => x.frame != f.frame, ?_, fun f => ?_⟩
  · have expelled := foldl (g := g) (expelGone g old (s.cluster g)) ((old.filter.map (·.line)) ++ old.leases.map (·.line))
      (((s.cluster g).frames.filter fun f => ((s.cluster g).bank (f.frame / 16)).mode ≠ 1).foldl (fun t f => t.unpin g f) s)
    rw [pages.frames] at expelled
    have both := pages.trans expelled
    have moved := reslice g (((old.filter.map (·.line)) ++ old.leases.map (·.line)).foldl (State.expelGone g old (s.cluster g))
      (((s.cluster g).frames.filter fun f => ((s.cluster g).bank (f.frame / 16)).mode ≠ 1).foldl (fun t f => t.unpin g f) s))
    rw [both.frames] at moved
    rw [State.rebank_eq]
    exact both.trans moved
  · simp only [List.mem_filter, List.all_eq_true, decide_eq_true_eq, bne_iff_ne]
    refine and_congr_right fun here => ⟨fun apart => ?_, fun scratch k hk same => hk.2 (by rw [← same, scratch])⟩
    by_contra other
    exact apart f ⟨here, other⟩ rfl

end CopiesAside

/-! ### What BANKM asks, and what fails (R81, R277) -/

theorem bitsOf_pair (x : W64) (k : Nat) : bitsOf x (k + 1) k = x.toNat / 2 ^ k % 4 := by
  rw [bitsOf, show k + 1 + 1 - k = 2 by omega]
  rfl

/-- Bank b of the core's eight. -/
def State.ownBank (s : State) (b : Nat) : Bank := (s.cluster (clusterOf s.core.id)).bank (8 * (s.core.id % 4) + b)

/-- The mode and slot size that BANKM asks of bank b. -/
def State.wantOf (s : State) (v : W64) (b : Nat) : Nat × Nat := (s.ownBank b).wanted v b

/-- The switch of bank b fails. -/
def State.failsAt (s : State) (v : W64) (b : Nat) : Bool :=
  (s.ownBank b).refuses (s.wantOf v b) (s.streamWaited (clusterOf s.core.id) (8 * (s.core.id % 4) + b))

/-- The mode that bank b has afterwards. -/
def State.modeAfter (s : State) (v : W64) (b : Nat) : Nat := if s.failsAt v b then (s.ownBank b).mode else (s.wantOf v b).1

theorem State.wantOf_eq (s : State) (v : W64) (b : Nat) :
    s.wantOf v b = if v.toNat / 2 ^ (2 * b) % 4 = 3 then ((s.ownBank b).mode, (s.ownBank b).slot)
      else (v.toNat / 2 ^ (2 * b) % 4, if v.toNat / 2 ^ (2 * b) % 4 = 2 then v.toNat / 2 ^ (2 * b + 16) % 4 else (s.ownBank b).slot) := by
  rw [State.wantOf, Bank.wanted, bitsOf_pair, bitsOf_pair]

/-- A program waits on stream f. -/
def waitingOn (f : Nat) (p : Option ProgRun) : Bool := match p with | some r => r.waits == some f | none => false

theorem waitingOn_iff (f : Nat) (p : Option ProgRun) : waitingOn f p = true ↔ ∃ r, p = some r ∧ r.waits = some f := by
  cases p <;> simp [waitingOn]

theorem State.streamWaited_eq (s : State) (g f : Nat) :
    s.streamWaited g f = (((List.range 4).any fun k => waitingOn f (s.coreAt (4 * g + k)).xin || waitingOn f (s.coreAt (4 * g + k)).xout)
      || waitingOn f (s.cluster g).arr0.run || waitingOn f (s.cluster g).arr1.run
      || ((s.cluster g).arr0.shadow.state == .loading && (s.cluster g).arr0.shadow.stream == f)
      || ((s.cluster g).arr1.shadow.state == .loading && (s.cluster g).arr1.shadow.stream == f)) := rfl

theorem State.streamWaited_iff (s : State) (g f : Nat) : s.streamWaited g f = true ↔ waitsOn s g f := by
  have array (m : MatArray) : (∃ r, m.run = some r ∧ r.waits = some f) ∨ (m.shadow.state = .loading ∧ m.shadow.stream = f) →
      (m = (s.cluster g).arr0 ∨ m = (s.cluster g).arr1) → waitsOn s g f := fun h which => .inr ⟨m, which, h⟩
  rw [State.streamWaited_eq]
  simp only [Bool.or_eq_true, Bool.and_eq_true, beq_iff_eq, List.any_eq_true, List.mem_range, waitingOn_iff]
  constructor
  · rintro ((((⟨k, hk, ⟨r, at_, w⟩ | ⟨r, at_, w⟩⟩ | h) | h) | h) | h)
    · exact .inl ⟨k, r, hk, .inl at_, w⟩
    · exact .inl ⟨k, r, hk, .inr at_, w⟩
    · exact array _ (.inl h) (.inl rfl)
    · exact array _ (.inl h) (.inr rfl)
    · exact array _ (.inr h) (.inl rfl)
    · exact array _ (.inr h) (.inr rfl)
  · rintro (⟨k, r, hk, at_ | at_, w⟩ | ⟨m, rfl | rfl, h | h⟩)
    · exact .inl (.inl (.inl (.inl ⟨k, hk, .inl ⟨r, at_, w⟩⟩)))
    · exact .inl (.inl (.inl (.inl ⟨k, hk, .inr ⟨r, at_, w⟩⟩)))
    · exact .inl (.inl (.inl (.inr h)))
    · exact .inl (.inr h)
    · exact .inl (.inl (.inr h))
    · exact .inr h

theorem State.failsAt_iff (s : State) (v : W64) (b : Nat) :
    s.failsAt v b = true ↔ (s.ownBank b).mode = 2 ∧ v.toNat / 2 ^ (2 * b) % 4 ≠ 3 ∧
      (v.toNat / 2 ^ (2 * b) % 4 = 2 → v.toNat / 2 ^ (2 * b + 16) % 4 ≠ (s.ownBank b).slot) ∧
      ((s.ownBank b).slots ≠ [] ∨ (s.ownBank b).claims ≠ [] ∨ (s.ownBank b).consumer ≠ none ∨
        waitsOn s (clusterOf s.core.id) (8 * (s.core.id % 4) + b)) := by
  rw [State.failsAt, Bank.refuses, ← State.streamWaited_iff, State.wantOf_eq]
  simp only [Bool.and_eq_true, Bool.or_eq_true, beq_iff_eq, bne_iff_ne, Bool.not_eq_true', List.isEmpty_eq_false_iff,
    Option.isSome_iff_ne_none, or_assoc, and_assoc]
  refine and_congr_right fun fifo => ?_
  rw [← and_assoc]
  refine and_congr_left' ?_
  by_cases stay : v.toNat / 2 ^ (2 * b) % 4 = 3
  · simp [stay]
  · by_cases enters : v.toNat / 2 ^ (2 * b) % 4 = 2
    · simp [enters, fifo]
    · simp [stay, enters, fifo]

theorem State.modeAfter_eq (s : State) (v : W64) (b : Nat) :
    s.modeAfter v b = if s.failsAt v b || v.toNat / 2 ^ (2 * b) % 4 = 3 then (s.ownBank b).mode else v.toNat / 2 ^ (2 * b) % 4 := by
  rw [State.modeAfter, State.wantOf_eq]
  by_cases fails : s.failsAt v b = true
  · simp [fails]
  · by_cases stay : v.toNat / 2 ^ (2 * b) % 4 = 3
    · simp [stay]
    · simp [fails, stay]

/-- The cluster whose banks of the core have switched, the first n of them. -/
def State.switchBanks (s : State) (v : W64) (n : Nat) : Cluster :=
  (List.range n).foldl (fun k b =>
    if s.failsAt v b then k
    else k.putBank (8 * (s.core.id % 4) + b) ((k.bank (8 * (s.core.id % 4) + b)).switched (s.wantOf v b)))
    (s.cluster (clusterOf s.core.id))

theorem bankPlan_zipIdx (s : State) (v : W64) :
    (s.bankPlan v).zipIdx = (List.range 8).map fun b => (((s.wantOf v b).1, (s.wantOf v b).2, s.failsAt v b), b) := rfl

theorem Cluster.bank_putBank (c : Cluster) {k : Nat} (x : Bank) (hk : k < 32) (n : Nat) :
    (c.putBank k x).bank n = if n = k then x else c.bank n := by
  unfold Cluster.bank Cluster.putBank
  by_cases h : n = k
  · simp [h, Vector.getD, hk]
  · by_cases inside : n < 32
    · simp [h, Vector.getD, inside, Ne.symm h]
    · simp [h, Vector.getD, inside]

theorem State.switchBanks_bank (s : State) (v : W64) {n : Nat} (hn : n ≤ 8) (k : Nat) :
    (s.switchBanks v n).bank k =
      if 8 * (s.core.id % 4) ≤ k ∧ k < 8 * (s.core.id % 4) + n ∧ s.failsAt v (k - 8 * (s.core.id % 4)) = false then
        (s.ownBank (k - 8 * (s.core.id % 4))).switched (s.wantOf v (k - 8 * (s.core.id % 4)))
      else (s.cluster (clusterOf s.core.id)).bank k := by
  induction n generalizing k with
  | zero => rw [if_neg (by omega)]; rfl
  | succ n ih =>
    have before (k : Nat) := ih (by omega) k
    have own : (s.switchBanks v n).bank (8 * (s.core.id % 4) + n) = s.ownBank n := by
      rw [before, if_neg (by omega)]
      rfl
    have step : s.switchBanks v (n + 1) = if s.failsAt v n then s.switchBanks v n
        else (s.switchBanks v n).putBank (8 * (s.core.id % 4) + n)
          (((s.switchBanks v n).bank (8 * (s.core.id % 4) + n)).switched (s.wantOf v n)) := by
      rw [State.switchBanks, List.range_succ, List.foldl_append]
      rfl
    rw [step, own]
    by_cases here : k = 8 * (s.core.id % 4) + n
    · have index : k - 8 * (s.core.id % 4) = n := by omega
      rw [index]
      by_cases fails : s.failsAt v n = true
      · rw [if_pos fails, before, if_neg (by omega), if_neg (by simp [fails])]
      · rw [if_neg fails, Cluster.bank_putBank _ _ (by omega), if_pos here, if_pos ⟨by omega, by omega, by simpa using fails⟩]
    · have elsewhere : (if s.failsAt v n then s.switchBanks v n
          else (s.switchBanks v n).putBank (8 * (s.core.id % 4) + n) ((s.ownBank n).switched (s.wantOf v n))).bank k =
          (s.switchBanks v n).bank k := by
        split
        · rfl
        · rw [Cluster.bank_putBank _ _ (by omega), if_neg here]
      rw [elsewhere, before]
      refine if_congr ⟨fun ⟨low, high, ok⟩ => ⟨low, by omega, ok⟩, fun ⟨low, high, ok⟩ => ⟨low, by omega, ok⟩⟩ rfl rfl

theorem State.switchBanks_frames (s : State) (v : W64) (n : Nat) :
    (s.switchBanks v n).frames = (s.cluster (clusterOf s.core.id)).frames := by
  induction n with
  | zero => rfl
  | succ n ih =>
    rw [State.switchBanks, List.range_succ, List.foldl_append]
    refine Eq.trans ?_ ih
    rw [List.foldl_cons, List.foldl_nil]
    split <;> rfl

theorem sum_bits_lt (p : Nat → Bool) (n : Nat) : ((List.range n).map fun b => if p b then 2 ^ b else 0).foldl (· + ·) 0 < 2 ^ n := by
  induction n with
  | zero => exact Nat.one_pos
  | succ n ih =>
    rw [List.range_succ, List.map_append, List.foldl_append, List.map_cons, List.map_nil, List.foldl_cons, List.foldl_nil, Nat.pow_succ]
    split <;> omega

theorem testBit_sum_bits (p : Nat → Bool) (n i : Nat) :
    (((List.range n).map fun b => if p b then 2 ^ b else 0).foldl (· + ·) 0).testBit i = (decide (i < n) && p i) := by
  induction n with
  | zero => simp
  | succ n ih =>
    have below := sum_bits_lt p n
    rw [List.range_succ, List.map_append, List.foldl_append, List.map_cons, List.map_nil, List.foldl_cons, List.foldl_nil]
    have regroup : (((List.range n).map fun b => if p b then 2 ^ b else 0).foldl (· + ·) 0) + (if p n then 2 ^ n else 0) =
        2 ^ n * (p n).toNat + ((List.range n).map fun b => if p b then 2 ^ b else 0).foldl (· + ·) 0 := by
      cases p n <;> simp [Nat.add_comm]
    rw [regroup, Nat.testBit_two_pow_mul_add _ below, ih]
    by_cases low : i < n
    · simp [low, show i < n + 1 by omega]
    · by_cases top : i = n
      · subst top
        cases p i <;> simp
      · have small : (p n).toNat < 2 ^ (i - n) := (Bool.toNat_lt _).trans_le (Nat.pow_le_pow_right (n := 2) (i := 1) (by decide) (by omega))
        simp [low, show ¬ i < n + 1 by omega, Nat.testBit_lt_two_pow small]

theorem execBankm_eq (s : State) (d a : Reg) :
    exec (.bankm d a) s =
      let v := s.core.getG a
      let g := clusterOf s.core.id
      if bitsOf v 63 32 ≠ 0 || (List.range 8).any fun b => v.toNat / 2 ^ (2 * b) % 4 == 2 && v.toNat / 2 ^ (2 * b + 16) % 4 == 3 then
        s.precise .badopnd v
      else if !((List.range 8).map (s.modeAfter v)).any (· == 0) then s.write d 0x100
      else ((s.putCluster g (s.switchBanks v 8)).rebank g (s.cluster g)).write d (BitVec.ofNat 64
        (((List.range 8).map fun b => if s.failsAt v b then 2 ^ b else 0).foldl (· + ·) 0)) := by
  show execBankm d a s = _
  unfold execBankm failBits
  simp only [bankPlan_zipIdx, List.map_map, List.foldl_map, bitsOf_pair]
  rfl

/-! ### BANKM's outcomes -/

/-- BANKM's operand is refused (R81). -/
theorem bankm_bad_iff (v : W64) :
    (bitsOf v 63 32 ≠ 0 || (List.range 8).any fun b => v.toNat / 2 ^ (2 * b) % 4 == 2 && v.toNat / 2 ^ (2 * b + 16) % 4 == 3) = true ↔
      (v.toNat / 2 ^ 32 ≠ 0 ∨ ∃ b, b < 8 ∧ v.toNat / 2 ^ (2 * b) % 4 = 2 ∧ v.toNat / 2 ^ (2 * b + 16) % 4 = 3) := by
  have upper : bitsOf v 63 32 = v.toNat / 2 ^ 32 := Nat.mod_eq_of_lt (by have := v.isLt; omega)
  simp only [upper, Bool.or_eq_true, decide_eq_true_eq, List.any_eq_true, List.mem_range, Bool.and_eq_true, beq_iff_eq]

theorem State.anyCache_iff (s : State) (v : W64) :
    ((List.range 8).map (s.modeAfter v)).any (· == 0) = true ↔ ∃ b, b < 8 ∧ s.modeAfter v b = 0 := by
  simp [List.any_eq_true]

/-- The state whose banks have switched, with its pages and lines. -/
def State.switched (s : State) (v : W64) : State :=
  (s.putCluster (clusterOf s.core.id) (s.switchBanks v 8)).rebank (clusterOf s.core.id) (s.cluster (clusterOf s.core.id))

theorem State.switched_bank (s : State) (v : W64) (n : Nat) :
    ((s.switched v).cluster (clusterOf s.core.id)).bank n = (s.switchBanks v 8).bank n := by
  obtain ⟨fs, aside, -⟩ := CopiesAside.rebank (clusterOf s.core.id) (s.putCluster (clusterOf s.core.id) (s.switchBanks v 8))
    (s.cluster (clusterOf s.core.id))
  have banks := aside.banks
  rw [State.cluster_putCluster_same] at banks
  exact congrArg (fun x : Vector Bank 32 => x.getD n Bank.reset) banks

theorem State.mem_switched_frames (s : State) (v : W64) (f : Frame) :
    f ∈ ((s.switched v).cluster (clusterOf s.core.id)).frames ↔ f ∈ (s.cluster (clusterOf s.core.id)).frames ∧
      (((s.switched v).cluster (clusterOf s.core.id)).bank (f.frame / 16)).mode = 1 := by
  obtain ⟨fs, aside, pages⟩ := CopiesAside.rebank (clusterOf s.core.id) (s.putCluster (clusterOf s.core.id) (s.switchBanks v 8))
    (s.cluster (clusterOf s.core.id))
  have kept := pages f
  rw [State.cluster_putCluster_same, s.switchBanks_frames, ← s.switched_bank] at kept
  rw [← kept]
  exact iff_of_eq (congrArg (f ∈ ·) aside.frames)

/-- Beside cores, clusters and messages a switch changes nothing. -/
theorem State.switched_rest (s : State) (v : W64) :
    { s.switched v with core := s.core, others := s.others, clusters := s.clusters, msgs := s.msgs } = s := by
  obtain ⟨fs, aside, -⟩ := CopiesAside.rebank (clusterOf s.core.id) (s.putCluster (clusterOf s.core.id) (s.switchBanks v 8))
    (s.cluster (clusterOf s.core.id))
  exact congrArg (fun u : State => { u with clusters := s.clusters }) aside.rest

theorem State.switched_cores (s : State) (v : W64) :
    CoreAside s (s.switched v) ∧ ∀ c, ∃ snaps implicit,
      (s.switched v).coreAt c = { s.coreAt c with snaps := snaps, implicit := implicit } := by
  obtain ⟨fs, aside, -⟩ := CopiesAside.rebank (clusterOf s.core.id) (s.putCluster (clusterOf s.core.id) (s.switchBanks v 8))
    (s.cluster (clusterOf s.core.id))
  exact ⟨aside.core, aside.cores⟩

theorem State.switched_cluster_other (s : State) (v : W64) {h : Nat} (apart : h ≠ clusterOf s.core.id) :
    (s.switched v).cluster h = s.cluster h := by
  obtain ⟨fs, aside, -⟩ := CopiesAside.rebank (clusterOf s.core.id) (s.putCluster (clusterOf s.core.id) (s.switchBanks v 8))
    (s.cluster (clusterOf s.core.id))
  exact (aside.others h apart).trans (s.cluster_putCluster_other _ apart)

/-- The value of BANKM: the bits of the failed switches. -/
def State.failedBits (s : State) (v : W64) : W64 :=
  BitVec.ofNat 64 (((List.range 8).map fun b => if s.failsAt v b then 2 ^ b else 0).foldl (· + ·) 0)

theorem execBankm_traps {s : State} (d : Reg) {a : Reg} (ready : handles s)
    (bad : (s.core.getG a).toNat / 2 ^ 32 ≠ 0 ∨
      ∃ b, b < 8 ∧ (s.core.getG a).toNat / 2 ^ (2 * b) % 4 = 2 ∧ (s.core.getG a).toNat / 2 ^ (2 * b + 16) % 4 = 3) :
    exec (.bankm d a) s = traps s 0x06 (s.core.getG a) s.core.pc := by
  rw [execBankm_eq]
  exact (if_pos ((bankm_bad_iff _).mpr bad)).trans (State.precise_eq_traps .badopnd _ ready)

theorem execBankm_good {s : State} (d : Reg) {a : Reg}
    (good : ¬ ((s.core.getG a).toNat / 2 ^ 32 ≠ 0 ∨
      ∃ b, b < 8 ∧ (s.core.getG a).toNat / 2 ^ (2 * b) % 4 = 2 ∧ (s.core.getG a).toNat / 2 ^ (2 * b + 16) % 4 = 3)) :
    ((∀ b, b < 8 → s.modeAfter (s.core.getG a) b ≠ 0) → exec (.bankm d a) s = puts s d 0x100) ∧
    ((∃ b, b < 8 ∧ s.modeAfter (s.core.getG a) b = 0) →
      exec (.bankm d a) s = (s.switched (s.core.getG a)).write d (s.failedBits (s.core.getG a))) := by
  rw [execBankm_eq]
  dsimp only
  rw [if_neg (mt (bankm_bad_iff _).mp good)]
  refine ⟨fun no => ?_, fun cache => ?_⟩
  · have noCache : ((List.range 8).map (s.modeAfter (s.core.getG a))).any (· == 0) = false := by
      rw [Bool.eq_false_iff]
      exact fun h => absurd ((s.anyCache_iff _).mp h) (by rintro ⟨b, hb, zero⟩; exact no b hb zero)
    rw [noCache]
    rfl
  · rw [(s.anyCache_iff _).mpr cache]
    rfl

theorem State.coreAt_upd_other {s : State} {x : Core} (id : x.id = s.core.id) {c : Nat} (h : c ≠ s.core.id) :
    (s.upd x).coreAt c = s.coreAt c := by
  rw [State.coreAt, State.coreAt, State.upd_core, id, if_neg (Ne.symm h), if_neg (Ne.symm h)]
  rfl

theorem Core.getG_next (c : Core) (r : Reg) : c.next.getG r = c.getG r := rfl

/-- What a core does to a register and to its pc is the same with other snapshots. -/
theorem Core.setG_next_snaps (c : Core) (d : Reg) (x : W64) (snaps : List Snapshot) (implicit : Bool) :
    { (({ c with snaps := snaps, implicit := implicit } : Core).setG d x).next with snaps := c.snaps, implicit := c.implicit } =
      (c.setG d x).next := by
  by_cases h : d = 0
  · rw [h, Core.setG_zero, Core.setG_zero]
    rfl
  · rw [Core.setG_eq _ _ h, Core.setG_eq _ _ h]
    rfl

/-- A switch that does not fail gives the bank what is asked (R81, R276). -/
theorem State.ownBank_switched (s : State) (v : W64) {b : Nat} (h : b < 8) :
    ((s.switched v).cluster (clusterOf s.core.id)).bank (8 * (s.core.id % 4) + b) =
      if s.failsAt v b then s.ownBank b else (s.ownBank b).switched (s.wantOf v b) := by
  rw [s.switched_bank, s.switchBanks_bank v le_rfl, Nat.add_sub_cancel_left]
  by_cases fails : s.failsAt v b = true
  · rw [if_neg (by simp [fails]), if_pos fails]
    rfl
  · rw [if_pos ⟨by omega, by omega, by simpa using fails⟩, if_neg fails]

theorem State.otherBank_switched (s : State) (v : W64) {n : Nat} (h : n / 8 ≠ s.core.id % 4) :
    ((s.switched v).cluster (clusterOf s.core.id)).bank n = (s.cluster (clusterOf s.core.id)).bank n := by
  rw [s.switched_bank, s.switchBanks_bank v le_rfl, if_neg (by omega)]

theorem State.wantOf_enters {s : State} {v : W64} {b : Nat} (h : v.toNat / 2 ^ (2 * b) % 4 = 2) :
    s.wantOf v b = (2, v.toNat / 2 ^ (2 * b + 16) % 4) := by
  rw [State.wantOf_eq, h, if_neg (by decide), if_pos rfl]

theorem State.wantOf_stays {s : State} {v : W64} {b : Nat}
    (h : v.toNat / 2 ^ (2 * b) % 4 = 3 ∨ v.toNat / 2 ^ (2 * b) % 4 = (s.ownBank b).mode ∧
      (v.toNat / 2 ^ (2 * b) % 4 = 2 → v.toNat / 2 ^ (2 * b + 16) % 4 = (s.ownBank b).slot)) :
    s.wantOf v b = ((s.ownBank b).mode, (s.ownBank b).slot) := by
  rw [State.wantOf_eq]
  rcases h with three | ⟨same, slot⟩
  · exact if_pos three
  · split
    · rfl
    · refine Prod.ext same ?_
      dsimp only
      split
      · rename_i fifo
        exact slot fifo
      · rfl

theorem Bank.switched_self (x : Bank) : x.switched (x.mode, x.slot) = x := if_pos rfl

theorem Bank.switched_mode (x : Bank) (want : Nat × Nat) : (x.switched want).mode = want.1 ∧ (x.switched want).slot = want.2 := by
  unfold Bank.switched
  split
  · rename_i same
    rw [same]
    exact ⟨rfl, rfl⟩
  · exact ⟨rfl, rfl⟩

theorem Bank.switched_fresh {x : Bank} {want : Nat × Nat} (h : want ≠ (x.mode, x.slot)) :
    (x.switched want).pushed = 0 ∧ (x.switched want).popped = 0 ∧ (x.switched want).slots = [] ∧ (x.switched want).claims = [] := by
  rw [Bank.switched, if_neg h]
  exact ⟨rfl, rfl, rfl, rfl⟩

end Sys2Proof.Machine

namespace Sys2Proof.Proofs

open Sys2Proof.Machine Sys2Proof.Rules

/-- Settles O13: the banks by what is asked and what fails, the rest by what a change of modes can lose. -/
theorem bankModesSwitch : Obligations.BankModesSwitch := by
  unfold Obligations.BankModesSwitch
  intro s d a v g bank asked size bad
  refine ⟨fun isBad ready => execBankm_traps d ready isBad, fun good => ?_⟩
  obtain ⟨stays, switches⟩ := execBankm_good d good
  have after (b : Nat) : s.modeAfter v b = if s.failsAt v b || asked b = 3 then (bank s b).mode else asked b := s.modeAfter_eq v b
  by_cases cache : ∃ b, b < 8 ∧ s.modeAfter v b = 0
  · refine ⟨_, s.failsAt v, switches cache, fun b _ => s.failsAt_iff v b, fun none_ => ?_, fun _ => ?_⟩
    · exact stays (fun b hb => by rw [after]; exact none_ b hb)
    · obtain ⟨⟨snaps, implicit, core⟩, cores⟩ := s.switched_cores v
      have own (b : Nat) (hb : b < 8) : bank (s.switched v) b =
        if s.failsAt v b then s.ownBank b else (s.ownBank b).switched (s.wantOf v b) := s.ownBank_switched v hb
      refine ⟨fun written b => ?_, fun b hb => ⟨?_, fun stay => ?_, fun ok enters => ?_⟩, fun n apart => s.otherBank_switched v apart,
        s.mem_switched_frames v, s.switched_rest v, fun h apart => s.switched_cluster_other v apart, ?_, fun c other => ?_⟩
      · rw [State.upd_core, Core.getG_next, Core.getG_setG_same _ _ written, State.failedBits, BitVec.getLsbD_ofNat, testBit_sum_bits]
        by_cases low : b < 8
        · simp [low, show b < 64 by omega, v]
        · simp [low]
      · refine (congrArg Bank.mode (own b hb)).trans (Eq.trans ?_ (after b))
        rw [State.modeAfter]
        split
        · rfl
        · exact (Bank.switched_mode _ _).1
      · refine (own b hb).trans ?_
        split
        · rfl
        · rename_i ok
          rw [State.wantOf_stays (stay.resolve_left ok), Bank.switched_self]
          rfl
      · have now : bank (s.switched v) b = (s.ownBank b).switched (2, size b) := by
          rw [own b hb, if_neg (by simp [ok]), State.wantOf_enters enters]
        refine ⟨(congrArg Bank.slot now).trans (Bank.switched_mode _ _).2, fun changes => ?_⟩
        have fresh := Bank.switched_fresh (x := s.ownBank b) (want := (2, size b)) fun same => by
          rcases changes with mode | slot
          · exact mode (congrArg Prod.fst same).symm
          · exact slot (congrArg Prod.snd same).symm
        rw [← now] at fresh
        exact fresh
      · rw [State.upd_core, core, Core.setG_next_snaps, Core.getG_next]
        by_cases none_ : d = 0
        · rw [none_, Core.setG_zero, Core.setG_zero]
        · rw [Core.getG_setG_same _ _ none_]
      · have same : (s.switched v).core.id = s.core.id := by rw [core]
        obtain ⟨_, _, kept⟩ := cores c
        rw [State.coreAt_upd_other (by rw [Core.next_id, Core.setG_id]) (by rw [same]; exact other), kept]
  · refine ⟨_, s.failsAt v, stays fun b hb zero => cache ⟨b, hb, zero⟩, fun b _ => s.failsAt_iff v b, fun _ => ?_, fun some_ => ?_⟩
    · exact stays fun b hb zero => cache ⟨b, hb, zero⟩
    · obtain ⟨b, hb, zero⟩ := some_
      exact absurd ⟨b, hb, (after b).trans zero⟩ cache

end Sys2Proof.Proofs
end

