-- ==== Sys2Proof/Proofs/FloatFormats.lean ====
section
/-! SUPPORT. Proofs/FloatFormats.lean: what the codes of a floating format spell, by the magnitude that a code's low bits count in units
of the subnormal weight (R139, R140). -/

namespace Sys2Proof.Machine

open Sys2Proof.Rules

/-! ### Formats -/

/-- What the rules of a format's codes rest on: a mantissa of 1 to 23 bits, two exponent bits, and e4m3 as the only format whose top exponent
holds finite values. -/
structure Fmt.Usable (f : Fmt) : Prop where
  mb_pos : 1 ≤ f.mb
  mb_le : f.mb ≤ 23
  eb_two : 2 ≤ f.eb
  ocp : f.ocp = true → f = Fmt.e4m3

theorem ftyFmt_usable (t : FTy) : (ftyFmt t).Usable := by
  cases t <;> exact ⟨by decide, by decide, by decide, by decide⟩

theorem ftyFmt_ocp (t : FTy) : (ftyFmt t).ocp = false := by
  cases t <;> rfl

theorem tyFmt_usable {t : Ty} {f : Fmt} (h : tyFmt t = some f) : f.Usable := by
  cases t <;> cases h <;> exact ⟨by decide, by decide, by decide, by decide⟩

theorem tyFmt_width {t : Ty} {f : Fmt} (h : tyFmt t = some f) : tyWidth t = f.width := by
  cases t <;> cases h <;> rfl

theorem Fmt.signBit_eq (f : Fmt) : f.signBit = 2 ^ f.mb * 2 ^ f.eb := by
  rw [Fmt.signBit, pow_add, mul_comm]

theorem Fmt.signBit_pos (f : Fmt) : 0 < f.signBit := Nat.two_pow_pos _

theorem Fmt.two_pow_width (f : Fmt) : 2 ^ f.width = 2 * f.signBit := by
  rw [Fmt.width, Fmt.signBit, add_assoc, pow_add, pow_one]

/-- A code has its sign bit set. -/
def Fmt.negCode (f : Fmt) (c : Nat) : Bool := c / f.signBit % 2 == 1

/-- A code within its width is its magnitude's code, with or without the sign bit. -/
theorem Fmt.code_eq (f : Fmt) {c : Nat} (h : c < 2 ^ f.width) : c = c % f.signBit + if f.negCode c then f.signBit else 0 := by
  rw [f.two_pow_width] at h
  have quot : c / f.signBit < 2 := Nat.div_lt_of_lt_mul (by rwa [mul_comm])
  have whole := Nat.mod_add_div c f.signBit
  unfold Fmt.negCode
  rcases Nat.lt_or_ge (c / f.signBit) 1 with low | high
  · rw [Nat.lt_one_iff.mp low] at whole ⊢
    exact whole.symm
  · rw [Nat.le_antisymm (Nat.lt_succ_iff.mp quot) high, mul_one] at whole
    rw [Nat.le_antisymm (Nat.lt_succ_iff.mp quot) high]
    exact whole.symm

theorem Fmt.negCode_add_signBit (f : Fmt) {r : Nat} (h : r < f.signBit) (neg : Bool) :
    f.negCode (r + if neg then f.signBit else 0) = neg := by
  cases neg
  · simp [Fmt.negCode, Nat.div_eq_of_lt h]
  · simp [Fmt.negCode, Nat.add_div_right r f.signBit_pos, Nat.div_eq_of_lt h]

theorem Fmt.mod_add_signBit (f : Fmt) {r : Nat} (h : r < f.signBit) (neg : Bool) :
    (r + if neg then f.signBit else 0) % f.signBit = r := by
  cases neg
  · exact Nat.mod_eq_of_lt h
  · simp [Nat.mod_eq_of_lt h]

theorem Fmt.signBit_le_iff (f : Fmt) {r : Nat} (h : r < f.signBit) (neg : Bool) :
    f.signBit ≤ (r + if neg then f.signBit else 0) ↔ neg = true := by
  cases neg <;> simp [h]

/-! ### Magnitudes -/

/-- The magnitude of a code without its sign bit, in units of the subnormal weight. -/
def Fmt.units (f : Fmt) (r : Nat) : Nat := if r < 2 ^ f.mb then r else (r % 2 ^ f.mb + 2 ^ f.mb) * 2 ^ (r / 2 ^ f.mb - 1)

theorem Fmt.units_normal (f : Fmt) {x m : Nat} (hx : 1 ≤ x) (hm : m < 2 ^ f.mb) :
    f.units (x * 2 ^ f.mb + m) = (m + 2 ^ f.mb) * 2 ^ (x - 1) := by
  have large : ¬ x * 2 ^ f.mb + m < 2 ^ f.mb := Nat.not_lt.mpr ((Nat.le_mul_of_pos_left _ hx).trans (Nat.le_add_right _ _))
  rw [Fmt.units, if_neg large, mul_comm x, Nat.mul_add_mod, Nat.mod_eq_of_lt hm, Nat.mul_add_div (Nat.two_pow_pos _), Nat.div_eq_of_lt hm,
    add_zero]

theorem Fmt.units_strictMono (f : Fmt) : StrictMono f.units := by
  intro a b less
  have pos : 0 < 2 ^ f.mb := Nat.two_pow_pos _
  unfold Fmt.units
  by_cases small : b < 2 ^ f.mb
  · rwa [if_pos small, if_pos (less.trans small)]
  · rw [if_neg small]
    by_cases subnormal : a < 2 ^ f.mb
    · rw [if_pos subnormal]
      calc a < 2 ^ f.mb := subnormal
        _ ≤ b % 2 ^ f.mb + 2 ^ f.mb := Nat.le_add_left _ _
        _ ≤ _ := Nat.le_mul_of_pos_right _ (Nat.two_pow_pos _)
    · rw [if_neg subnormal]
      have normal : 1 ≤ a / 2 ^ f.mb := Nat.div_pos (Nat.not_lt.mp subnormal) pos
      rcases (Nat.div_le_div_right (c := 2 ^ f.mb) less.le).eq_or_lt with same | lower
      · have mantissas : a % 2 ^ f.mb < b % 2 ^ f.mb := by
          have ha := Nat.mod_add_div a (2 ^ f.mb)
          have hb := Nat.mod_add_div b (2 ^ f.mb)
          rw [same] at ha
          omega
        rw [same]
        exact Nat.mul_lt_mul_of_pos_right (Nat.add_lt_add_right mantissas _) (Nat.two_pow_pos _)
      · calc (a % 2 ^ f.mb + 2 ^ f.mb) * 2 ^ (a / 2 ^ f.mb - 1)
            < (2 ^ f.mb + 2 ^ f.mb) * 2 ^ (a / 2 ^ f.mb - 1) :=
              Nat.mul_lt_mul_of_pos_right (Nat.add_lt_add_right (Nat.mod_lt _ pos) _) (Nat.two_pow_pos _)
          _ = 2 ^ f.mb * 2 ^ (a / 2 ^ f.mb) := by
              obtain ⟨e, he⟩ := Nat.exists_eq_add_of_le' normal
              rw [he, Nat.add_sub_cancel, pow_succ]; ring
          _ ≤ 2 ^ f.mb * 2 ^ (b / 2 ^ f.mb - 1) := Nat.mul_le_mul_left _ (Nat.pow_le_pow_right (by decide) (by omega))
          _ ≤ _ := Nat.mul_le_mul_right _ (Nat.le_add_left _ _)

/-! ### Fields -/

theorem Fmt.exponent_field (f : Fmt) (c : Nat) : c / 2 ^ f.mb % 2 ^ f.eb = c % f.signBit / 2 ^ f.mb := by
  rw [f.signBit_eq, Nat.mod_mul_right_div_self]

theorem Fmt.mantissa_field (f : Fmt) (c : Nat) : c % 2 ^ f.mb = c % f.signBit % 2 ^ f.mb := by
  rw [f.signBit_eq, Nat.mod_mul_right_mod]

theorem Fmt.mod_signBit_eq (f : Fmt) (c : Nat) : c % f.signBit = c / 2 ^ f.mb % 2 ^ f.eb * 2 ^ f.mb + c % 2 ^ f.mb := by
  rw [f.exponent_field, f.mantissa_field, mul_comm, Nat.div_add_mod]

theorem Fmt.infCode_add (f : Fmt) : f.infCode + 2 ^ f.mb = f.signBit := by
  have pos : 0 < 2 ^ f.eb := Nat.two_pow_pos _
  rw [f.signBit_eq, Fmt.infCode, Nat.sub_mul, one_mul, mul_comm (2 ^ f.mb)]
  exact Nat.sub_add_cancel (Nat.le_mul_of_pos_left _ pos)

/-- The codes beyond the largest finite one: the top exponent, in e4m3 with the top mantissa only. -/
theorem Fmt.maxCode_lt_iff {f : Fmt} (hf : f.Usable) (c : Nat) :
    f.maxCode < c % f.signBit ↔ c / 2 ^ f.mb % 2 ^ f.eb = 2 ^ f.eb - 1 ∧ (f.ocp = false ∨ c % 2 ^ f.mb = 2 ^ f.mb - 1) := by
  have exponent : c / 2 ^ f.mb % 2 ^ f.eb < 2 ^ f.eb := Nat.mod_lt _ (Nat.two_pow_pos _)
  cases h : f.ocp
  · have pos : 0 < f.infCode := Nat.mul_pos (Nat.sub_pos_of_lt (Nat.one_lt_two_pow (by have := hf.eb_two; omega))) (Nat.two_pow_pos _)
    have top : f.infCode ≤ c % f.signBit ↔ 2 ^ f.eb - 1 ≤ c / 2 ^ f.mb % 2 ^ f.eb := by
      rw [f.exponent_field, Nat.le_div_iff_mul_le (Nat.two_pow_pos _), Fmt.infCode]
    simp only [Fmt.maxCode, h, true_or, and_true, Bool.false_eq_true, if_false]
    omega
  · obtain rfl := hf.ocp h
    simp only [Fmt.maxCode, Fmt.signBit, Fmt.e4m3, if_true, Bool.true_eq_false, false_or] at exponent ⊢
    omega

theorem Fmt.maxCode_lt_signBit (f : Fmt) : f.maxCode < f.signBit := by
  have mantissa : 0 < 2 ^ f.mb := Nat.two_pow_pos _
  have split := f.infCode_add
  unfold Fmt.maxCode
  split <;> omega

/-! ### Decoding -/

theorem Fmt.decode_finite {f : Fmt} (hf : f.Usable) {c : Nat} (h : c % f.signBit ≤ f.maxCode) :
    f.decode c = if c % f.signBit < 2 ^ f.mb then .fin (f.negCode c) (c % f.signBit) (f.emin - f.mb)
      else .fin (f.negCode c) (c % f.signBit % 2 ^ f.mb + 2 ^ f.mb) ((c % f.signBit / 2 ^ f.mb : Nat) - f.bias - f.mb) := by
  have inside := (Fmt.maxCode_lt_iff hf c).not.mp (Nat.not_lt.mpr h)
  have subnormal : c % f.signBit < 2 ^ f.mb ↔ c / 2 ^ f.mb % 2 ^ f.eb = 0 := by
    rw [f.exponent_field, Nat.div_eq_zero_iff_lt (Nat.two_pow_pos _)]
  have noNaN : ¬ (f.ocp && c / 2 ^ f.mb % 2 ^ f.eb == 2 ^ f.eb - 1 && c % 2 ^ f.mb == 2 ^ f.mb - 1) = true := by
    simp only [Bool.and_eq_true, beq_iff_eq]
    rintro ⟨⟨-, top⟩, mantissa⟩
    exact inside ⟨top, .inr mantissa⟩
  have noTop : ¬ (!f.ocp && c / 2 ^ f.mb % 2 ^ f.eb == 2 ^ f.eb - 1) = true := by
    simp only [Bool.and_eq_true, beq_iff_eq, Bool.not_eq_true']
    rintro ⟨plain, top⟩
    exact inside ⟨top, .inl plain⟩
  unfold Fmt.decode
  rw [if_neg noNaN, if_neg noTop, if_congr subnormal rfl rfl]
  by_cases zero : c / 2 ^ f.mb % 2 ^ f.eb = 0
  · rw [if_pos zero, if_pos zero, f.mantissa_field, Nat.mod_eq_of_lt (subnormal.mpr zero)]
    rfl
  · rw [if_neg zero, if_neg zero, f.mantissa_field, f.exponent_field]
    rfl

theorem Fmt.decode_beyond {f : Fmt} (hf : f.Usable) {c : Nat} (h : f.maxCode < c % f.signBit) :
    f.decode c = if f.ocp then .nan false (f.negCode c)
      else if c % 2 ^ f.mb = 0 then .inf (f.negCode c) else .nan (c % 2 ^ f.mb < 2 ^ (f.mb - 1)) (f.negCode c) := by
  obtain ⟨top, kind⟩ := (Fmt.maxCode_lt_iff hf c).mp h
  unfold Fmt.decode
  cases ocp : f.ocp
  · simp [top, Fmt.negCode]
  · simp [top, Fmt.negCode, kind.resolve_left (by simp [ocp])]

/-- A decoded finite value has the sign of its code and the magnitude that its low bits count. -/
theorem Fmt.decode_fin {f : Fmt} (hf : f.Usable) {c m : Nat} {neg : Bool} {e : Int} (h : f.decode c = .fin neg m e) :
    c % f.signBit ≤ f.maxCode ∧ neg = f.negCode c ∧ f.emin - f.mb ≤ e ∧ m * 2 ^ (e - (f.emin - f.mb)).toNat = f.units (c % f.signBit) := by
  by_cases inside : c % f.signBit ≤ f.maxCode
  · rw [Fmt.decode_finite hf inside] at h
    unfold Fmt.units
    split at h
    · next small =>
      obtain ⟨rfl, rfl, rfl⟩ := FVal.fin.inj h
      simp [inside, small]
    · next normal =>
      obtain ⟨rfl, rfl, rfl⟩ := FVal.fin.inj h
      have one : 1 ≤ c % f.signBit / 2 ^ f.mb := Nat.div_pos (Nat.not_lt.mp normal) (Nat.two_pow_pos _)
      have shift : ((c % f.signBit / 2 ^ f.mb : Nat) - f.bias - f.mb - (f.emin - f.mb)).toNat = c % f.signBit / 2 ^ f.mb - 1 := by
        unfold Fmt.emin; omega
      rw [shift, if_neg normal]
      refine ⟨inside, rfl, ?_, rfl⟩
      unfold Fmt.emin; omega
  · rw [Fmt.decode_beyond hf (Nat.not_le.mp inside)] at h
    split at h
    · cases h
    · split at h <;> cases h

theorem Fmt.decode_exists {f : Fmt} (hf : f.Usable) {c : Nat} (h : c % f.signBit ≤ f.maxCode) :
    ∃ m e, f.decode c = .fin (f.negCode c) m e := by
  rw [Fmt.decode_finite hf h]
  split
  · exact ⟨_, _, rfl⟩
  · exact ⟨_, _, rfl⟩

/-! ### Infinities and NaNs, in a format that has both -/

theorem Fmt.isNaNCode_iff {f : Fmt} {c : Nat} : isNaNCode f c ↔ f.infCode < c % f.signBit := by
  have exponent : c / 2 ^ f.mb % 2 ^ f.eb < 2 ^ f.eb := Nat.mod_lt _ (Nat.two_pow_pos _)
  have mantissa : c % 2 ^ f.mb < 2 ^ f.mb := Nat.mod_lt _ (Nat.two_pow_pos _)
  rw [f.mod_signBit_eq, isNaNCode, Fmt.infCode]
  rcases (Nat.le_sub_one_of_lt exponent).eq_or_lt with top | lower
  · rw [top]; omega
  · have below := Nat.mul_le_mul_right (2 ^ f.mb) (Nat.succ_le_of_lt lower)
    rw [Nat.succ_mul] at below
    omega

theorem Fmt.decode_plain {f : Fmt} (hf : f.Usable) (plain : f.ocp = false) (c : Nat) :
    (c % f.signBit < f.infCode ∧ (∃ m e, f.decode c = .fin (f.negCode c) m e)) ∨
      (c % f.signBit = f.infCode ∧ f.decode c = .inf (f.negCode c)) ∨
      (f.infCode < c % f.signBit ∧ f.decode c = .nan (c % 2 ^ f.mb < 2 ^ (f.mb - 1)) (f.negCode c)) := by
  have pos : 0 < f.infCode := Nat.mul_pos (Nat.sub_pos_of_lt (Nat.one_lt_two_pow (by have := hf.eb_two; omega))) (Nat.two_pow_pos _)
  have top : f.maxCode = f.infCode - 1 := by rw [Fmt.maxCode, plain]; rfl
  rcases Nat.lt_or_ge (c % f.signBit) f.infCode with inside | beyond
  · exact .inl ⟨inside, Fmt.decode_exists hf (by omega)⟩
  · have dec := Fmt.decode_beyond hf (c := c) (by omega)
    have exponent := ((Fmt.maxCode_lt_iff hf c).mp (by omega)).1
    have split := f.mod_signBit_eq c
    rw [exponent, ← Fmt.infCode] at split
    rw [plain, if_neg (by decide)] at dec
    by_cases zero : c % 2 ^ f.mb = 0
    · rw [if_pos zero] at dec
      exact .inr (.inl ⟨by omega, dec⟩)
    · rw [if_neg zero] at dec
      exact .inr (.inr ⟨by omega, dec⟩)

theorem Fmt.isNaN_decode {f : Fmt} (hf : f.Usable) (plain : f.ocp = false) (c : Nat) :
    (f.decode c).isNaN = true ↔ isNaNCode f c := by
  rw [Fmt.isNaNCode_iff]
  rcases Fmt.decode_plain hf plain c with ⟨range, m, e, dec⟩ | ⟨range, dec⟩ | ⟨range, dec⟩
  · simp [dec, FVal.isNaN, range.le]
  · simp [dec, FVal.isNaN, range]
  · simp [dec, FVal.isNaN, range]

theorem Fmt.sNaN_decode {f : Fmt} (hf : f.Usable) (plain : f.ocp = false) (c : Nat) :
    (f.decode c).sNaN = true ↔ isSNaN f c := by
  rw [isSNaN, Fmt.isNaNCode_iff]
  rcases Fmt.decode_plain hf plain c with ⟨range, m, e, dec⟩ | ⟨range, dec⟩ | ⟨range, dec⟩
  · simp [dec, FVal.sNaN, range.le]
  · simp [dec, FVal.sNaN, range]
  · simp [dec, FVal.sNaN, range]

/-! ### Real values -/

/-- The factor of a sign. -/
noncomputable def signFactor (neg : Bool) : ℝ := if neg then -1 else 1

theorem signFactor_mul_self (neg : Bool) : signFactor neg * signFactor neg = 1 := by
  cases neg <;> norm_num [signFactor]

theorem abs_signFactor (neg : Bool) : |signFactor neg| = 1 := by
  cases neg <;> simp [signFactor]

theorem abs_signFactor_mul (neg : Bool) {x : ℝ} (h : 0 ≤ x) : |signFactor neg * x| = x := by
  rw [abs_mul, abs_signFactor, one_mul, abs_of_nonneg h]

theorem signFactor_xor (s t : Bool) : signFactor (s != t) = signFactor s * signFactor t := by
  cases s <;> cases t <;> norm_num [signFactor]

theorem signFactor_mul_neg_iff (neg : Bool) {x : ℝ} (h : 0 < x) : signFactor neg * x < 0 ↔ neg = true := by
  cases neg <;> simp [signFactor, h, h.le]

/-- The real number of a finite code: its sign and its magnitude in units of the subnormal weight. -/
theorem codeVal_eq {f : Fmt} (hf : f.Usable) (c : Nat) :
    codeVal f c = if c % f.signBit ≤ f.maxCode
      then some (signFactor (f.negCode c) * (f.units (c % f.signBit) * 2 ^ (f.emin - f.mb))) else none := by
  have sign : ((-1) ^ (c / 2 ^ (f.eb + f.mb) % 2) : ℝ) = signFactor (f.negCode c) := by
    unfold signFactor Fmt.negCode Fmt.signBit
    rcases Nat.mod_two_eq_zero_or_one (c / 2 ^ (f.eb + f.mb)) with even | odd
    · simp [even]
    · simp [odd]
  have weight : (2 : ℝ) ^ (f.emin - f.mb) = 2 ^ (1 - biasOf f) / 2 ^ f.mb := by
    rw [show f.emin = 1 - biasOf f from rfl, zpow_sub₀ two_ne_zero, zpow_natCast]
  unfold codeVal
  simp only [← Fmt.maxCode_lt_iff hf c]
  by_cases inside : c % f.signBit ≤ f.maxCode
  · rw [if_neg (Nat.not_lt.mpr inside), if_pos inside, sign]
    congr 2
    unfold Fmt.units
    rw [f.exponent_field, f.mantissa_field]
    by_cases small : c % f.signBit < 2 ^ f.mb
    · rw [if_pos (Nat.div_eq_of_lt small), if_pos small, Nat.mod_eq_of_lt small, weight]
      ring
    · have one : 1 ≤ c % f.signBit / 2 ^ f.mb := Nat.div_pos (Nat.not_lt.mp small) (Nat.two_pow_pos _)
      have exponent : ((c % f.signBit / 2 ^ f.mb : Nat) : ℤ) - biasOf f = (c % f.signBit / 2 ^ f.mb - 1 : Nat) + (1 - biasOf f) := by omega
      rw [if_neg (by omega), if_neg small, exponent, zpow_add₀ two_ne_zero, zpow_natCast, weight]
      push_cast
      field_simp
      ring
  · rw [if_pos (Nat.not_le.mp inside), if_neg inside]

theorem codeVal_of_decode {f : Fmt} (hf : f.Usable) {c m : Nat} {neg : Bool} {e : Int} (h : f.decode c = .fin neg m e) :
    codeVal f c = some (signFactor neg * (m * 2 ^ e)) := by
  obtain ⟨inside, rfl, above, magnitude⟩ := Fmt.decode_fin hf h
  rw [codeVal_eq hf, if_pos inside, ← magnitude]
  congr 2
  push_cast
  rw [mul_assoc, ← zpow_natCast (2 : ℝ), ← zpow_add₀ two_ne_zero, Int.toNat_of_nonneg (by omega)]
  congr 2
  omega

theorem decode_of_codeVal {f : Fmt} (hf : f.Usable) {c : Nat} {v : ℝ} (h : codeVal f c = some v) :
    ∃ m e, f.decode c = .fin (f.negCode c) m e ∧ v = signFactor (f.negCode c) * (m * 2 ^ e) := by
  have inside : c % f.signBit ≤ f.maxCode := by
    by_contra beyond
    rw [codeVal_eq hf, if_neg beyond] at h
    cases h
  obtain ⟨m, e, dec⟩ := Fmt.decode_exists hf inside
  exact ⟨m, e, dec, Option.some.inj (h.symm.trans (codeVal_of_decode hf dec))⟩

end Sys2Proof.Machine
end

