-- ==== Sys2Proof/Proofs/FkeyOrder.lean ====
section
/-! SUPPORT. Proofs/FkeyOrder.lean: FKEY's keys stand in the order of the values (O4). -/

namespace Sys2Proof.Machine

open Sys2Proof.Rules

theorem f32_usable : Fmt.f32.Usable := ftyFmt_usable .f32

theorem fkey_eq_zero {c : Nat} (h : 0x7F800000 < c % 2 ^ 31) : fkey c = 0 := by
  rcases Fmt.decode_plain f32_usable rfl c with ⟨range, -⟩ | ⟨range, -⟩ | ⟨-, dec⟩
  · exact absurd h (Nat.not_lt.mpr range.le)
  · exact absurd h (Nat.not_lt.mpr range.le)
  · unfold fkey
    rw [show Fmt.f32.decode c = _ from dec]

theorem fkey_eq_code {c : Nat} (h : c % 2 ^ 31 ≤ 0x7F800000) : fkey c = if 2 ^ 31 ≤ c then 2 ^ 32 - 1 - c else c + 2 ^ 31 := by
  rcases Fmt.decode_plain f32_usable rfl c with ⟨-, m, e, dec⟩ | ⟨-, dec⟩ | ⟨range, -⟩
  · unfold fkey
    rw [show Fmt.f32.decode c = _ from dec]
  · unfold fkey
    rw [show Fmt.f32.decode c = _ from dec]
  · exact absurd h (Nat.not_le.mpr range)

/-- The key of a code that is no NaN, by its sign and its magnitude. -/
theorem fkey_of_sign {c : Nat} (range : c < 2 ^ 32) (h : c % 2 ^ 31 ≤ 0x7F800000) :
    fkey c = if Fmt.f32.negCode c then 2 ^ 31 - 1 - c % 2 ^ 31 else 2 ^ 31 + c % 2 ^ 31 := by
  have split : c = c % 2 ^ 31 + if Fmt.f32.negCode c then 2 ^ 31 else 0 := Fmt.f32.code_eq range
  rw [fkey_eq_code h]
  cases sign : Fmt.f32.negCode c
  · rw [sign, if_neg Bool.false_ne_true] at split
    rw [if_neg (by omega), if_neg Bool.false_ne_true]
    omega
  · rw [sign, if_pos rfl] at split
    rw [if_pos (by omega), if_pos rfl]
    omega

theorem fkey_of_bits (b : BitVec 32) :
    fkey b.toNat = if 0x7F800000 < b.toNat % 2 ^ 31 then 0 else if b.msb then (~~~b).toNat else (b ||| 0x80000000).toNat := by
  split
  · next nan => exact fkey_eq_zero nan
  · next number =>
    rw [fkey_eq_code (Nat.not_lt.mp number), BitVec.msb_eq_decide]
    by_cases neg : 2 ^ 31 ≤ b.toNat
    · rw [if_pos neg, if_pos (decide_eq_true neg), BitVec.toNat_not]
    · have bit : 2 ^ 31 * 1 + b.toNat = 2 ^ 31 * 1 ||| b.toNat := Nat.two_pow_add_eq_or_of_lt (Nat.not_le.mp neg) 1
      rw [if_neg neg, if_neg (by simpa using neg), BitVec.toNat_or, Nat.or_comm, add_comm]
      exact bit

theorem fkey_lt_of_finite {x y mx my : Nat} {nx ny : Bool} {ex ey : Int} (hx : x < 2 ^ 32) (hy : y < 2 ^ 32)
    (dx : Fmt.f32.decode x = .fin nx mx ex) (dy : Fmt.f32.decode y = .fin ny my ey)
    (less : inUnits nx mx ex (-149) < inUnits ny my ey (-149)) : fkey x < fkey y := by
  obtain ⟨insideX, rfl, -, magX⟩ := Fmt.decode_fin f32_usable dx
  obtain ⟨insideY, rfl, -, magY⟩ := Fmt.decode_fin f32_usable dy
  rw [show Fmt.f32.signBit = 2 ^ 31 from rfl] at magX magY
  have order : Fmt.f32.units (x % 2 ^ 31) < Fmt.f32.units (y % 2 ^ 31) ↔ x % 2 ^ 31 < y % 2 ^ 31 := Fmt.f32.units_strictMono.lt_iff_lt
  have order' : Fmt.f32.units (y % 2 ^ 31) < Fmt.f32.units (x % 2 ^ 31) ↔ y % 2 ^ 31 < x % 2 ^ 31 := Fmt.f32.units_strictMono.lt_iff_lt
  rw [inUnits, inUnits, show mx * 2 ^ (ex - -149).toNat = _ from magX, show my * 2 ^ (ey - -149).toNat = _ from magY] at less
  rw [fkey_of_sign hx (Nat.le_succ_of_le insideX), fkey_of_sign hy (Nat.le_succ_of_le insideY)]
  have sizeX : x % 2 ^ 31 < 2 ^ 31 := Nat.mod_lt _ (by decide)
  have sizeY : y % 2 ^ 31 < 2 ^ 31 := Nat.mod_lt _ (by decide)
  generalize Fmt.f32.negCode x = sx at less ⊢
  generalize Fmt.f32.negCode y = sy at less ⊢
  cases sx <;> cases sy <;> simp only [Bool.false_eq_true, if_true, if_false] at less ⊢ <;> omega

theorem fkey_lt_of_infinite {x y mx : Nat} {nx : Bool} {ex : Int} (hx : x < 2 ^ 32) (hy : y < 2 ^ 32)
    (dx : Fmt.f32.decode x = .fin nx mx ex) {neg : Bool} (dy : Fmt.f32.decode y = .inf neg) :
    if neg then fkey y < fkey x else fkey x < fkey y := by
  obtain ⟨inside, -, -, -⟩ := Fmt.decode_fin f32_usable dx
  have finite : x % 2 ^ 31 ≤ 0x7F7FFFFF := inside
  rcases Fmt.decode_plain f32_usable rfl y with ⟨-, m, e, dec⟩ | ⟨top, dec⟩ | ⟨-, dec⟩
  · cases dec.symm.trans dy
  · have infinite : y % 2 ^ 31 = 0x7F800000 := top
    obtain rfl := FVal.inf.inj (dy.symm.trans dec)
    rw [fkey_of_sign hx (by omega), fkey_of_sign hy (by omega), infinite]
    cases Fmt.f32.negCode y
    · simp only [Bool.false_eq_true, if_false]
      split <;> omega
    · simp only [if_true]
      split <;> omega
  · cases dec.symm.trans dy

end Sys2Proof.Machine

namespace Sys2Proof.Proofs

open Sys2Proof.Machine Sys2Proof.Rules

/-- Settles O4, by the magnitudes that f32 codes count: a finite code's key rises with its magnitude, or falls where its sign bit is set. -/
theorem fkeyOrdersValues : Obligations.FkeyOrdersValues := by
  unfold Obligations.FkeyOrdersValues
  refine ⟨fun s d a => ⟨fkey (nv s a % 2 ^ 32), ?_, fun b hb => ?_⟩,
    fun x y nx ny mx my ex ey hx hy dx dy less => fkey_lt_of_finite hx hy dx dy less,
    fun x y nx mx ex hx hy dx => ⟨fun dy => fkey_lt_of_infinite hx hy dx dy, fun dy => fkey_lt_of_infinite hx hy dx dy⟩, ?_, ?_⟩
  · exact write_eq_puts s d (BitVec.ofInt_natCast 64 _).symm
  · rw [← hb]
    exact fkey_of_bits b
  · exact fkey_of_sign (c := 0x80000000) (by decide) (by decide)
  · exact fkey_of_sign (c := 0) (by decide) (by decide)

end Sys2Proof.Proofs
end

