-- ==== Sys2Proof/Proofs/FloatRounding.lean ====
section
/-! SUPPORT. Proofs/FloatRounding.lean: rounding an exact value to a multiple of a power of two, and into a format (R147, R148, R150). -/

namespace Sys2Proof.Machine

open Sys2Proof.Rules

/-! ### The multiple that a mode picks -/

/-- The mode takes n + φ units away from 0 to n + 1 units, in magnitude (R147, R148). -/
def goesUp (mode : RMode) (neg : Bool) (k n : Nat) (φ : ℝ) : Prop :=
  match mode with
  | .rne => 1 / 2 < φ ∨ φ = 1 / 2 ∧ n % 2 = 1
  | .rtz => False
  | .rdn => neg = true ∧ φ ≠ 0
  | .rup => neg = false ∧ φ ≠ 0
  | .sr => (2 : ℤ) ^ 16 ≤ ⌊φ * 2 ^ 16⌋ + k

/-- N is the number of units a mode picks for n + φ units. -/
def Picked (mode : RMode) (neg : Bool) (k n : Nat) (φ : ℝ) (N : Nat) : Prop :=
  goesUp mode neg k n φ ∧ N = n + 1 ∨ ¬ goesUp mode neg k n φ ∧ N = n

section
variable {mode : RMode} {neg : Bool} {k n N : Nat} {φ : ℝ}

theorem picked_of_iff {up : Bool} (h : up = true ↔ goesUp mode neg k n φ) : Picked mode neg k n φ (if up then n + 1 else n) := by
  cases up
  · exact .inr ⟨fun goes => Bool.false_ne_true (h.mpr goes), rfl⟩
  · exact .inl ⟨h.mp rfl, rfl⟩

theorem not_goesUp_zero (hk : k < 2 ^ 16) : ¬ goesUp mode neg k n 0 := by
  cases mode
  case rne => norm_num [goesUp]
  case rtz => exact id
  case rdn => simp [goesUp]
  case rup => simp [goesUp]
  case sr => simp [goesUp]; omega

theorem Picked.eq_iff (hk : k < 2 ^ 16) (low : 0 ≤ φ) (high : φ < 1) (h : Picked mode neg k n φ N) : (N : ℝ) = n + φ ↔ φ = 0 := by
  constructor
  · intro same
    rcases h with ⟨-, rfl⟩ | ⟨-, rfl⟩
    · push_cast at same
      linarith
    · linarith
  · rintro rfl
    rcases h with ⟨up, -⟩ | ⟨-, rfl⟩
    · exact absurd up (not_goesUp_zero hk)
    · rw [add_zero]

/-- What a stochastic draw adds to the fraction's leading 16 bits carries into the next unit when they reach 2^16 (R148). -/
theorem Picked.stochastic (hk : k < 2 ^ 16) (low : 0 ≤ φ) (high : φ < 1) (h : Picked .sr neg k n φ N) {u : ℝ} (pos : 0 < u) :
    (N : ℝ) * u = ⌊(⌊(n + φ) * u / (u / 2 ^ 16)⌋ + (k : ℝ)) * (u / 2 ^ 16) / u⌋ * u := by
  have fraction : (n + φ) * u / (u / 2 ^ 16) = φ * 2 ^ 16 + (n * 2 ^ 16 : ℕ) := by push_cast; field_simp; ring
  have lowest : 0 ≤ ⌊φ * 2 ^ 16⌋ := Int.floor_nonneg.mpr (by positivity)
  have highest : ⌊φ * 2 ^ 16⌋ < 2 ^ 16 := Int.floor_lt.mpr (by push_cast; nlinarith)
  have units : (((⌊φ * 2 ^ 16⌋ + (n * 2 ^ 16 : ℕ) : ℤ) : ℝ) + (k : ℝ)) * (u / 2 ^ 16) / u
      = ((⌊φ * 2 ^ 16⌋ + n * 2 ^ 16 + k : ℤ) : ℝ) / ((2 ^ 16 : ℕ) : ℝ) := by
    push_cast
    field_simp
    norm_num
  rw [fraction, Int.floor_add_natCast, units, Int.floor_div_natCast, Int.floor_intCast]
  congr 1
  rcases h with ⟨up, rfl⟩ | ⟨down, same⟩
  · have carry : (⌊φ * 2 ^ 16⌋ + n * 2 ^ 16 + k : ℤ) / ((2 ^ 16 : ℕ) : ℤ) = n + 1 := by
      have : (2 : ℤ) ^ 16 ≤ ⌊φ * 2 ^ 16⌋ + k := up
      omega
    rw [carry]; push_cast; rfl
  · have stay : (⌊φ * 2 ^ 16⌋ + n * 2 ^ 16 + k : ℤ) / ((2 ^ 16 : ℕ) : ℤ) = n := by
      have : ¬ (2 : ℤ) ^ 16 ≤ ⌊φ * 2 ^ 16⌋ + k := down
      omega
    rw [stay, same]; rfl

/-- The picked number of units, with its sign, is the multiple that R147 and R148 name. -/
theorem Picked.picks (hk : k < 2 ^ 16) (low : 0 ≤ φ) (high : φ < 1) (h : Picked mode neg k n φ N) {u : ℝ} (pos : 0 < u) :
    Rules.picks mode k u (signFactor neg * ((n + φ) * u)) (signFactor neg * (N * u)) := by
  have sizeX := abs_signFactor_mul neg (x := (n + φ) * u) (by positivity)
  have sizeY := abs_signFactor_mul neg (x := N * u) (by positivity)
  have sameSide : 0 ≤ signFactor neg * ((n + φ) * u) * (signFactor neg * (N * u)) := by
    rw [mul_mul_mul_comm, signFactor_mul_self, one_mul]
    positivity
  refine ⟨if neg then -N else N, by cases neg <;> simp [signFactor], ?_⟩
  cases mode
  case rtz =>
    obtain rfl : N = n := h.resolve_left (fun up => up.1) |>.2
    show _ ∧ _ ∧ _
    rw [sizeX, sizeY]
    refine ⟨sameSide, ?_, ?_⟩ <;> nlinarith
  case sr =>
    show _ ∧ _
    rw [sizeX, sizeY]
    exact ⟨sameSide, h.stochastic hk low high pos⟩
  case rne =>
    have gap : |signFactor neg * ((n + φ) * u) - signFactor neg * (N * u)| = |n + φ - N| * u := by
      rw [← mul_sub, ← sub_mul, abs_mul, abs_signFactor, one_mul, abs_mul, abs_of_pos pos]
    have half : |n + φ - N| * u = u / 2 ↔ |n + φ - N| = 1 / 2 := by
      rw [div_eq_mul_one_div, mul_comm u, mul_left_inj' pos.ne']
    have even : (if neg = true then -N else N : ℤ) % 2 = 0 ↔ N % 2 = 0 := by
      split <;> omega
    show _ ∧ _
    rw [gap, half, even]
    rcases h with ⟨up, rfl⟩ | ⟨down, same⟩
    · have reach : |n + φ - (n + 1 : ℕ)| = 1 - φ := by
        rw [abs_sub_comm, abs_of_nonneg] <;> push_cast <;> linarith
      rw [reach]
      rcases up with above | ⟨mid, odd⟩
      · exact ⟨by nlinarith, fun tie => by linarith⟩
      · exact ⟨by rw [mid]; linarith, fun _ => by omega⟩
    · have under : |n + φ - N| = φ := by
        rw [same, add_sub_cancel_left, abs_of_nonneg low]
      obtain ⟨below, tie⟩ := not_or.mp down
      rw [under]
      exact ⟨by nlinarith, fun mid => by have := not_and.mp tie mid; omega⟩
  case rdn =>
    show _ ∧ _
    cases neg
    · obtain rfl : N = n := (h.resolve_left fun up => Bool.false_ne_true up.1.1).2
      simp only [signFactor, Bool.false_eq_true, if_false, one_mul]
      constructor <;> nlinarith
    · simp only [signFactor, if_true]
      rcases h with ⟨⟨-, nonzero⟩, rfl⟩ | ⟨down, same⟩
      · have positive : 0 < φ := lt_of_le_of_ne low (Ne.symm nonzero)
        push_cast
        constructor <;> nlinarith
      · obtain rfl : φ = 0 := by_contra fun other => down ⟨rfl, other⟩
        rw [same]
        constructor <;> nlinarith
  case rup =>
    show _ ∧ _
    cases neg
    · simp only [signFactor, Bool.false_eq_true, if_false, one_mul]
      rcases h with ⟨⟨-, nonzero⟩, rfl⟩ | ⟨down, same⟩
      · have positive : 0 < φ := lt_of_le_of_ne low (Ne.symm nonzero)
        push_cast
        constructor <;> nlinarith
      · obtain rfl : φ = 0 := by_contra fun other => down ⟨rfl, other⟩
        rw [same]
        constructor <;> nlinarith
    · obtain rfl : N = n := (h.resolve_left fun up => Bool.false_ne_true up.1.1.symm).2
      simp only [signFactor, if_true]
      constructor <;> nlinarith
end

/-! ### Exact values -/

/-- An exact value spells a real number: its magnitude is m times 2^e, plus a part of one unit that is 0 exactly when nothing is sticky. -/
def Exact.Spells (x : Exact) (v : ℝ) : Prop :=
  ∃ δ : ℝ, 0 ≤ δ ∧ δ < 1 ∧ (x.sticky = true ↔ δ ≠ 0) ∧ v = signFactor x.neg * ((x.m + δ) * 2 ^ x.e)

theorem Exact.spells_of_not_sticky {x : Exact} (h : x.sticky = false) : x.Spells (signFactor x.neg * (x.m * 2 ^ x.e)) :=
  ⟨0, le_rfl, one_pos, by simp [h], by rw [add_zero]⟩

/-- The leading 16 bits of a remainder over p, which what is sticky cannot reach. -/
theorem floor_sixteen_bits {rem p : Nat} {δ : ℝ} (low : 0 ≤ δ) (high : δ < 1) (bits : δ ≠ 0 → 2 ^ 16 ∣ p) (hp : 0 < p) :
    ⌊(rem + δ) / p * 2 ^ 16⌋ = (rem * 2 ^ 16 / p : ℕ) := by
  have pos : (0 : ℝ) < p := by exact_mod_cast hp
  have lower : rem * 2 ^ 16 / p * p ≤ rem * 2 ^ 16 := Nat.div_mul_le_self _ _
  have upper : rem * 2 ^ 16 < (rem * 2 ^ 16 / p + 1) * p := by
    rw [mul_comm _ p]
    exact Nat.lt_mul_div_succ _ hp
  generalize rem * 2 ^ 16 / p = a at lower upper ⊢
  have reach : (rem + δ) * 2 ^ 16 < ((a + 1) * p : ℕ) := by
    by_cases exact : δ = 0
    · rw [exact, add_zero]
      exact_mod_cast upper
    · obtain ⟨b, rfl⟩ := bits exact
      have next : rem + 1 ≤ (a + 1) * b := by
        rw [mul_left_comm, mul_comm rem] at upper
        exact Nat.lt_of_mul_lt_mul_left upper
      have bound : (rem : ℝ) + 1 ≤ ((a + 1) * b : ℕ) := by exact_mod_cast next
      push_cast at bound ⊢
      nlinarith
  have start : ((a * p : ℕ) : ℝ) ≤ (rem * 2 ^ 16 : ℕ) := by exact_mod_cast lower
  push_cast at reach start
  rw [Int.floor_eq_iff, div_mul_eq_mul_div, le_div_iff₀ pos, div_lt_iff₀ pos]
  push_cast
  constructor <;> nlinarith

/-- A remainder and a sticky part lie beyond the middle of 2^(j+1) units, or on it. -/
theorem half_lt_iff {rem : Nat} {δ : ℝ} (low : 0 ≤ δ) (high : δ < 1) (j : Nat) :
    1 / 2 < (rem + δ) / (2 ^ (j + 1) : ℕ) ↔ 2 ^ (j + 1) < 2 * rem ∨ 2 * rem = 2 ^ (j + 1) ∧ δ ≠ 0 := by
  have pos : (0 : ℝ) < (2 ^ (j + 1) : ℕ) := by positivity
  have half : 1 / 2 < (rem + δ) / (2 ^ (j + 1) : ℕ) ↔ ((2 ^ j : ℕ) : ℝ) < rem + δ := by
    rw [lt_div_iff₀ pos, pow_succ]
    push_cast
    constructor <;> intro h <;> linarith
  rw [half, pow_succ]
  generalize 2 ^ j = p
  rcases lt_trichotomy p rem with beyond | rfl | before
  · have : (p : ℝ) < rem := by exact_mod_cast beyond
    exact iff_of_true (by linarith) (.inl (by omega))
  · simpa [mul_comm] using low.lt_iff_ne.trans ne_comm
  · have : (rem : ℝ) + 1 ≤ p := by exact_mod_cast before
    exact iff_of_false (by linarith) (by omega)

theorem eq_half_iff {rem : Nat} {δ : ℝ} (low : 0 ≤ δ) (high : δ < 1) (j : Nat) :
    (rem + δ) / (2 ^ (j + 1) : ℕ) = 1 / 2 ↔ 2 * rem = 2 ^ (j + 1) ∧ δ = 0 := by
  have half : (rem + δ) / (2 ^ (j + 1) : ℕ) = 1 / 2 ↔ (rem : ℝ) + δ = (2 ^ j : ℕ) := by
    rw [div_eq_div_iff (by positivity) two_ne_zero, pow_succ]
    push_cast
    constructor <;> intro h <;> linarith
  rw [half, pow_succ]
  generalize 2 ^ j = p
  rcases lt_trichotomy p rem with beyond | rfl | before
  · have : (p : ℝ) + 1 ≤ rem := by exact_mod_cast beyond
    exact iff_of_false (by linarith) (by omega)
  · simp [mul_comm]
  · have : (rem : ℝ) + 1 ≤ p := by exact_mod_cast before
    exact iff_of_false (by linarith) (by omega)

/-- The units and the part of a unit that `roundAt` takes apart, and the number of units it gives. -/
theorem Exact.roundAt_picked {x : Exact} {v : ℝ} (h : x.Spells v) {q : Int} (bits : x.sticky = true → x.e + 16 ≤ q) (mode : RMode) {k : Nat}
    (hk : k < 2 ^ 16) :
    ∃ (n : Nat) (φ : ℝ), 0 ≤ φ ∧ φ < 1 ∧ v = signFactor x.neg * ((n + φ) * 2 ^ q) ∧ ((x.roundAt q mode k).2 = true ↔ φ ≠ 0) ∧
      Picked mode x.neg k n φ (x.roundAt q mode k).1 := by
  obtain ⟨δ, low, high, sticky, rfl⟩ := h
  unfold Exact.roundAt
  by_cases coarse : q ≤ x.e
  · have exact : ¬ x.sticky = true := fun st => by have := bits st; omega
    obtain rfl : δ = 0 := by_contra fun other => exact (sticky.mpr other)
    rw [if_pos coarse]
    refine ⟨x.m * 2 ^ (x.e - q).toNat, 0, le_rfl, one_pos, ?_, sticky, .inr ⟨not_goesUp_zero hk, rfl⟩⟩
    push_cast
    rw [add_zero, add_zero, mul_assoc, ← zpow_natCast (2 : ℝ), ← zpow_add₀ two_ne_zero, Int.toNat_of_nonneg (by omega), sub_add_cancel]
  · rw [if_neg coarse]
    obtain ⟨j, hj⟩ : ∃ j : Nat, q = x.e + (j + 1 : ℕ) := ⟨(q - x.e).toNat - 1, by omega⟩
    obtain rfl := hj
    have shift : (x.e + (j + 1 : ℕ) - x.e).toNat = j + 1 := by omega
    have pos : (0 : ℝ) < (2 ^ (j + 1) : ℕ) := by positivity
    have apart := Nat.mod_add_div x.m (2 ^ (j + 1))
    have small : x.m % 2 ^ (j + 1) < 2 ^ (j + 1) := Nat.mod_lt _ (Nat.two_pow_pos _)
    simp only [shift]
    generalize x.m / 2 ^ (j + 1) = n at apart ⊢
    generalize x.m % 2 ^ (j + 1) = rem at apart small ⊢
    have nothing : (rem + δ) / (2 ^ (j + 1) : ℕ) = 0 ↔ rem = 0 ∧ δ = 0 := by
      rw [div_eq_zero_iff, or_iff_left pos.ne', add_eq_zero_iff_of_nonneg (Nat.cast_nonneg _) low, Nat.cast_eq_zero]
    have inexact : (decide (rem ≠ 0) || x.sticky) = true ↔ (rem + δ) / (2 ^ (j + 1) : ℕ) ≠ 0 := by
      simp only [Bool.or_eq_true, decide_eq_true_iff, ne_eq, sticky, nothing]
      tauto
    refine ⟨n, (rem + δ) / (2 ^ (j + 1) : ℕ), by positivity, ?_, ?_, inexact, picked_of_iff ?_⟩
    · rw [div_lt_one pos]
      have : (rem : ℝ) + 1 ≤ (2 ^ (j + 1) : ℕ) := by exact_mod_cast small
      linarith
    · have whole : (x.m : ℝ) = rem + (2 ^ (j + 1) : ℕ) * n := by exact_mod_cast apart.symm
      rw [whole, zpow_add₀ two_ne_zero, zpow_natCast]
      push_cast
      field_simp
      ring
    · cases mode
      case rne =>
        have above := half_lt_iff low high (rem := rem) j
        have mid := eq_half_iff low high (rem := rem) j
        simp only [goesUp, above, mid, Bool.or_eq_true, Bool.and_eq_true, decide_eq_true_iff, beq_iff_eq, sticky]
        by_cases part : δ = 0 <;> simp [part]
      case rtz => exact ⟨fun up => absurd up Bool.false_ne_true, False.elim⟩
      case rdn => exact Bool.and_eq_true_iff.trans (and_congr_right' inexact)
      case rup => exact Bool.and_eq_true_iff.trans (and_congr (iff_of_eq (Bool.not_eq_true' _)) inexact)
      case sr =>
        have divides : δ ≠ 0 → 2 ^ 16 ∣ 2 ^ (j + 1) := fun part => Nat.pow_dvd_pow 2 (by have := bits (sticky.mpr part); omega)
        rw [decide_eq_true_iff, goesUp, floor_sixteen_bits low high divides (Nat.two_pow_pos _)]
        generalize rem * 2 ^ 16 / 2 ^ (j + 1) = leading
        omega

/-- What `roundAt` gives is the multiple that the mode picks, and it tells whether that differs; it is within the bounds of the value. -/
theorem Exact.roundAt_picks {x : Exact} {v : ℝ} (h : x.Spells v) {q : Int} (bits : x.sticky = true → x.e + 16 ≤ q) (mode : RMode) {k : Nat}
    (hk : k < 2 ^ 16) :
    picks mode k (2 ^ q) v (signFactor x.neg * ((x.roundAt q mode k).1 * 2 ^ q)) ∧
      ((x.roundAt q mode k).2 = true ↔ signFactor x.neg * ((x.roundAt q mode k).1 * 2 ^ q) ≠ v) ∧
      (∀ A : Nat, A * 2 ^ q ≤ |v| → A ≤ (x.roundAt q mode k).1) ∧ (∀ A : Nat, |v| < A * 2 ^ q → (x.roundAt q mode k).1 ≤ A) := by
  obtain ⟨n, φ, low, high, rfl, inexact, picked⟩ := Exact.roundAt_picked h bits mode hk
  have pos : (0 : ℝ) < 2 ^ q := by positivity
  have sign : signFactor x.neg ≠ 0 := fun zero => by simpa [zero] using signFactor_mul_self x.neg
  rw [abs_signFactor_mul x.neg (by positivity), inexact]
  refine ⟨picked.picks hk low high pos, ?_, fun A below => ?_, fun A above => ?_⟩
  · rw [ne_eq, ne_eq, mul_right_inj' sign, mul_left_inj' pos.ne', picked.eq_iff hk low high]
  · have units : (A : ℝ) < (n + 1 : ℕ) := by
      push_cast
      linarith [le_of_mul_le_mul_right below pos]
    have start : A ≤ n := Nat.lt_succ_iff.mp (by exact_mod_cast units)
    rcases picked with ⟨-, same⟩ | ⟨-, same⟩ <;> omega
  · have units : (n : ℝ) < A := by linarith [lt_of_mul_lt_mul_right above pos.le]
    have stop : n < A := by exact_mod_cast units
    rcases picked with ⟨-, same⟩ | ⟨-, same⟩ <;> omega

theorem Exact.Spells.bounds {x : Exact} {v : ℝ} (h : x.Spells v) (nonzero : x.m ≠ 0) :
    (2 : ℝ) ^ x.top ≤ |v| ∧ |v| < 2 ^ (x.top + 1) := by
  obtain ⟨δ, low, high, -, rfl⟩ := h
  have pos : (0 : ℝ) < 2 ^ x.e := by positivity
  have least : ((2 ^ Nat.log2 x.m : ℕ) : ℝ) ≤ x.m := by exact_mod_cast Nat.log2_self_le nonzero
  have most : (x.m : ℝ) + 1 ≤ (2 ^ (Nat.log2 x.m + 1) : ℕ) := by exact_mod_cast Nat.lt_log2_self (n := x.m)
  have weight : (2 : ℝ) ^ x.top = 2 ^ Nat.log2 x.m * 2 ^ x.e := by
    rw [Exact.top, add_comm, zpow_add₀ two_ne_zero, zpow_natCast]
  rw [abs_signFactor_mul x.neg (by positivity), zpow_add_one₀ two_ne_zero, weight]
  push_cast [pow_succ] at least most
  constructor <;> nlinarith

theorem Exact.Spells.log_eq {x : Exact} {v : ℝ} (h : x.Spells v) (nonzero : x.m ≠ 0) : Int.log 2 |v| = x.top := by
  obtain ⟨least, most⟩ := h.bounds nonzero
  have pos : 0 < |v| := lt_of_lt_of_le (by positivity) least
  refine le_antisymm (Int.lt_add_one_iff.mp ?_) ?_
  · exact (Int.lt_zpow_iff_log_lt one_lt_two pos).mp (by exact_mod_cast most)
  · exact (Int.zpow_le_iff_le_log one_lt_two pos).mp (by exact_mod_cast least)

end Sys2Proof.Machine
end

