-- ==== Sys2Proof/Proofs/FloatPacking.lean ====
section
/-! SUPPORT. Proofs/FloatPacking.lean: a rounded magnitude as a code of a format, and rounding into a format as a whole (R147, R148, R150). -/

namespace Sys2Proof.Machine

open Sys2Proof.Rules

/-! ### The largest finite magnitude -/

/-- The largest significand at the largest exponent, and how far that exponent is above the smallest. -/
def Fmt.topSig (f : Fmt) : Nat := if f.ocp then 2 ^ (f.mb + 1) - 2 else 2 ^ (f.mb + 1) - 1
def Fmt.topShift (f : Fmt) : Nat := if f.ocp then 2 ^ f.eb - 2 else 2 ^ f.eb - 3

theorem Fmt.four_le_two_pow_eb {f : Fmt} (hf : f.Usable) : 4 ≤ 2 ^ f.eb := Nat.pow_le_pow_right (n := 2) (i := 2) (by decide) hf.eb_two

theorem Fmt.two_pow_eb (f : Fmt) (hf : f.Usable) : (2 : ℤ) ^ f.eb = 2 * 2 ^ (f.eb - 1) := by
  rw [← pow_succ', Nat.sub_add_cancel (by have := hf.eb_two; omega)]

theorem Fmt.emax_eq {f : Fmt} (hf : f.Usable) : f.emax = f.emin + f.topShift := by
  have four := Fmt.four_le_two_pow_eb hf
  have cast : ((2 ^ f.eb : ℕ) : ℤ) = 2 ^ f.eb := by push_cast; rfl
  cases ocp : f.ocp
  · simp only [Fmt.emax, Fmt.topShift, ocp, Bool.false_eq_true, if_false, Fmt.emin, Fmt.bias]
    rw [f.two_pow_eb hf] at cast ⊢
    omega
  · obtain rfl := hf.ocp ocp
    rfl

theorem Fmt.topSig_bounds {f : Fmt} (hf : f.Usable) : 2 ^ f.mb ≤ f.topSig ∧ f.topSig < 2 ^ (f.mb + 1) := by
  have two : 2 ^ 1 ≤ 2 ^ f.mb := Nat.pow_le_pow_right (by decide) hf.mb_pos
  unfold Fmt.topSig
  rw [pow_succ]
  split <;> omega

theorem Fmt.units_maxCode {f : Fmt} (hf : f.Usable) : f.units f.maxCode = f.topSig * 2 ^ f.topShift := by
  have four := Fmt.four_le_two_pow_eb hf
  cases ocp : f.ocp
  · have pos : 0 < 2 ^ f.mb := Nat.two_pow_pos _
    have code : f.maxCode = (2 ^ f.eb - 2) * 2 ^ f.mb + (2 ^ f.mb - 1) := by
      obtain ⟨t, ht⟩ := Nat.exists_eq_add_of_le' four
      simp only [Fmt.maxCode, ocp, Bool.false_eq_true, if_false, Fmt.infCode, ht]
      rw [show t + 4 - 1 = t + 4 - 2 + 1 from rfl, Nat.succ_mul]
      omega
    rw [code, f.units_normal (by omega) (by omega)]
    simp only [Fmt.topSig, Fmt.topShift, ocp, Bool.false_eq_true, if_false, pow_succ]
    congr 1
    omega
  · obtain rfl := hf.ocp ocp
    rfl

theorem maxVal_eq {f : Fmt} (hf : f.Usable) : maxVal f = f.units f.maxCode * 2 ^ (f.emin - f.mb) := by
  rw [Fmt.units_maxCode hf]
  cases ocp : f.ocp
  · have exponent : biasOf f = f.topShift + f.emin := by
      have := Fmt.emax_eq hf
      simp only [Fmt.emax, ocp, Bool.false_eq_true, if_false, f.two_pow_eb hf, Fmt.bias] at this
      rw [biasOf]
      omega
    have one : 1 ≤ 2 ^ (f.mb + 1) := Nat.one_le_two_pow
    have significand : ((2 ^ (f.mb + 1) - 1 : ℕ) : ℝ) = 2 * 2 ^ f.mb - 1 := by
      rw [Nat.cast_sub one]
      push_cast [pow_succ]
      ring
    simp only [maxVal, Fmt.topSig, ocp, Bool.false_eq_true, if_false]
    rw [Nat.cast_mul, significand, exponent, zpow_add₀ two_ne_zero, zpow_sub₀ two_ne_zero, zpow_natCast, zpow_natCast, zpow_neg, zpow_natCast]
    push_cast
    field_simp
  · obtain rfl := hf.ocp ocp
    norm_num [maxVal, Fmt.topSig, Fmt.topShift, Fmt.e4m3, Fmt.emin, Fmt.bias]

/-! ### Packing -/

/-- A packed magnitude counts as many units as its significand and its weight say. -/
theorem Fmt.units_pack {f : Fmt} {n d : Nat} (normal : 2 ^ f.mb ≤ n ∨ d = 0) (bound : n ≤ 2 ^ (f.mb + 1)) :
    f.units (f.pack false n (f.emin - f.mb + d)) = n * 2 ^ d := by
  have pos : 0 < 2 ^ f.mb := Nat.two_pow_pos _
  have carried : (f.emin - f.mb + d + 1 + f.mb + f.bias).toNat = d + 2 := by unfold Fmt.emin; omega
  have usual : (f.emin - f.mb + d + f.mb + f.bias).toNat = d + 1 := by unfold Fmt.emin; omega
  unfold Fmt.pack
  simp only [carried, usual, Bool.false_eq_true, if_false, zero_add]
  split
  · next full =>
    have := f.units_normal (x := d + 2) (by omega) pos
    rw [add_zero] at this
    rw [this, full, zero_add, show d + 2 - 1 = d + 1 from rfl]
    ring
  · split
    · next small =>
      obtain rfl := normal.resolve_left (Nat.not_le.mpr small)
      rw [Fmt.units, if_pos small, pow_zero, mul_one]
    · next notFull notSmall =>
      rw [pow_succ] at bound notFull
      rw [f.units_normal (x := d + 1) (by omega) (by omega), Nat.sub_add_cancel (Nat.not_lt.mp notSmall), Nat.add_sub_cancel]

theorem Fmt.pack_eq (f : Fmt) (neg : Bool) (n : Nat) (q : Int) : f.pack neg n q = f.pack false n q + if neg then f.signBit else 0 := by
  unfold Fmt.pack
  simp only [Bool.false_eq_true, if_false, zero_add]
  split
  · exact Nat.add_comm _ _
  · split <;> omega

/-- A magnitude's code with a sign is the code of the signed value. -/
theorem codeVal_signed {f : Fmt} (hf : f.Usable) {r : Nat} (inside : r ≤ f.maxCode) (neg : Bool) :
    codeVal f (r + if neg then f.signBit else 0) = some (signFactor neg * (f.units r * 2 ^ (f.emin - f.mb))) := by
  have small := inside.trans_lt f.maxCode_lt_signBit
  rw [codeVal_eq hf, f.mod_add_signBit small, f.negCode_add_signBit small, if_pos inside]

/-! ### Rounding into a format -/

/-- The weight of the last bit kept of an exact value (R148). -/
def Fmt.weightOf (f : Fmt) (x : Exact) : Int := max x.top f.emin - f.mb

/-- A rounded magnitude of n units of weight 2^q is beyond the largest finite value (R147). -/
def Fmt.tooBig (f : Fmt) (n : Nat) (q : Int) : Bool :=
  f.emax < q + f.mb || (q + f.mb == f.emax && (if f.ocp then 2 ^ (f.mb + 1) - 1 ≤ n else 2 ^ (f.mb + 1) ≤ n))

/-- An exact value rounds below the normal range as if the exponent range had no lower end, to nu units (R150). -/
def Fmt.isTiny (f : Fmt) (x : Exact) (nu : Nat) : Bool := x.top < f.emin && !(nu == 2 ^ (f.mb + 1) && x.top + 1 == f.emin)

theorem Fmt.round_eq (f : Fmt) (mode : RMode) (k : Nat) {x : Exact} (nonzero : x.m ≠ 0) :
    f.round mode k x =
      let y := x.roundAt (f.weightOf x) mode k
      let z := x.roundAt (x.top - f.mb) mode k
      if f.tooBig y.1 (f.weightOf x) && y.1 ≠ 0 then (f.overflow x.neg mode, Flags.of ||| Flags.nx)
      else (f.pack x.neg y.1 (f.weightOf x), flagIf y.2 Flags.nx ||| flagIf (f.isTiny x z.1 && y.2) Flags.uf) := by
  unfold Fmt.round
  rw [if_neg nonzero]
  rfl

theorem Fmt.tooBig_iff {f : Fmt} (hf : f.Usable) {n d : Nat} (normal : 2 ^ f.mb ≤ n ∨ d = 0) (bound : n ≤ 2 ^ (f.mb + 1)) :
    f.tooBig n (f.emin - f.mb + d) = true ↔ f.maxCode < f.pack false n (f.emin - f.mb + d) := by
  obtain ⟨sigLow, sigHigh⟩ := Fmt.topSig_bounds hf
  have four := Fmt.four_le_two_pow_eb hf
  have shiftPos : 1 ≤ f.topShift := by unfold Fmt.topShift; split <;> omega
  have past : (if f.ocp then 2 ^ (f.mb + 1) - 1 ≤ n else 2 ^ (f.mb + 1) ≤ n) ↔ f.topSig < n := by
    unfold Fmt.topSig
    have := Nat.one_lt_two_pow (n := f.mb + 1) (by omega)
    split <;> omega
  have split : f.tooBig n (f.emin - f.mb + d) = true ↔ f.topShift < d ∨ d = f.topShift ∧ f.topSig < n := by
    rw [Fmt.tooBig, Fmt.emax_eq hf, Bool.or_eq_true, Bool.and_eq_true, decide_eq_true_iff, beq_iff_eq, ← past]
    refine or_congr (by omega) (and_congr (by omega) ?_)
    split <;> exact decide_eq_true_iff
  rw [split, ← f.units_strictMono.lt_iff_lt (a := f.maxCode), Fmt.units_pack normal bound, Fmt.units_maxCode hf]
  rw [pow_succ] at sigHigh bound
  rcases lt_trichotomy d f.topShift with before | rfl | beyond
  · refine iff_of_false (by omega) (Nat.not_lt.mpr ?_)
    calc n * 2 ^ d ≤ 2 ^ f.mb * 2 * 2 ^ d := Nat.mul_le_mul_right _ bound
      _ = 2 ^ f.mb * 2 ^ (d + 1) := by rw [pow_succ]; ring
      _ ≤ f.topSig * 2 ^ f.topShift := Nat.mul_le_mul sigLow (Nat.pow_le_pow_right (by decide) before)
  · simp [Nat.mul_lt_mul_right (Nat.two_pow_pos _)]
  · refine iff_of_true (.inl beyond) ?_
    calc f.topSig * 2 ^ f.topShift < 2 ^ f.mb * 2 * 2 ^ f.topShift := Nat.mul_lt_mul_of_pos_right sigHigh (Nat.two_pow_pos _)
      _ = 2 ^ f.mb * 2 ^ (f.topShift + 1) := by rw [pow_succ]; ring
      _ ≤ n * 2 ^ d := Nat.mul_le_mul (normal.resolve_right (by omega)) (Nat.pow_le_pow_right (by decide) beyond)

theorem Exact.Spells.neg_iff {x : Exact} {v : ℝ} (h : x.Spells v) (nonzero : x.m ≠ 0) : v < 0 ↔ x.neg = true := by
  obtain ⟨δ, low, -, -, rfl⟩ := h
  have pos : (0 : ℝ) < x.m := by exact_mod_cast Nat.pos_of_ne_zero nonzero
  exact signFactor_mul_neg_iff x.neg (by positivity)

theorem Fmt.isTiny_iff {f : Fmt} {x : Exact} {nu : Nat} (least : 2 ^ f.mb ≤ nu) (most : nu ≤ 2 ^ (f.mb + 1)) :
    f.isTiny x nu = true ↔ (nu : ℝ) * 2 ^ (x.top - f.mb) < minNormal f := by
  have pos : (0 : ℝ) < 2 ^ (x.top - f.mb) := by positivity
  have tiny : f.isTiny x nu = true ↔ x.top < f.emin ∧ ¬ (nu = 2 ^ (f.mb + 1) ∧ x.top + 1 = f.emin) := by
    simp [Fmt.isTiny, or_iff_not_imp_left]
  rw [tiny]
  rcases lt_or_ge x.top f.emin with below | above
  · obtain ⟨g, hg⟩ : ∃ g : Nat, f.emin = x.top + 1 + g := ⟨(f.emin - x.top - 1).toNat, by omega⟩
    have normal : minNormal f = ((2 ^ (f.mb + 1 + g) : ℕ) : ℝ) * 2 ^ (x.top - f.mb) := by
      rw [Nat.cast_pow, Nat.cast_ofNat, ← zpow_natCast, ← zpow_add₀ two_ne_zero, minNormal]
      congr 1
      rw [show 1 - biasOf f = f.emin from rfl, hg]
      push_cast
      ring
    rw [normal, mul_lt_mul_iff_left₀ pos, Nat.cast_lt, pow_add 2 (f.mb + 1)]
    rcases most.eq_or_lt with full | less
    · rw [full, lt_mul_iff_one_lt_right (Nat.two_pow_pos _), Nat.one_lt_two_pow_iff]
      omega
    · exact iff_of_true ⟨below, by omega⟩ (less.trans_le (Nat.le_mul_of_pos_right _ (Nat.two_pow_pos _)))
  · refine iff_of_false (by omega) (not_lt.mpr ?_)
    have sig : (2 : ℝ) ^ (f.mb : ℤ) ≤ nu := by exact_mod_cast least
    calc minNormal f ≤ 2 ^ x.top := zpow_le_zpow_right₀ one_le_two above
      _ = 2 ^ (f.mb : ℤ) * 2 ^ (x.top - f.mb) := by rw [← zpow_add₀ two_ne_zero, add_sub_cancel]
      _ ≤ _ := mul_le_mul_of_nonneg_right sig pos.le

theorem Fmt.overflow_eq {f : Fmt} (hf : f.Usable) {neg : Bool} {v : ℝ} (nonzero : v ≠ 0) (sign : v < 0 ↔ neg = true) (mode : RMode) :
    let bit := if v < 0 then 2 ^ (f.eb + f.mb) else 0
    let toInf := f.ocp = false ∧ (mode = .rne ∨ mode = .sr ∨ mode = .rup ∧ 0 < v ∨ mode = .rdn ∧ v < 0)
    (toInf → f.overflow neg mode = (2 ^ f.eb - 1) * 2 ^ f.mb + bit) ∧
      (¬ toInf → codeVal f (f.overflow neg mode) = some (if v < 0 then -(maxVal f) else maxVal f)) := by
  have positive : 0 < v ↔ neg = false := by
    rw [← Bool.not_eq_true, ← sign, not_lt]
    exact ⟨le_of_lt, fun nonneg => lt_of_le_of_ne nonneg nonzero.symm⟩
  have toMax : codeVal f (f.maxCode + if neg then f.signBit else 0) = some (if v < 0 then -(maxVal f) else maxVal f) := by
    rw [codeVal_signed hf le_rfl, ← maxVal_eq hf, if_congr sign rfl rfl, signFactor]
    split <;> simp
  rw [positive, if_congr sign rfl rfl]
  simp only [Fmt.overflow, sign]
  cases ocp : f.ocp
  · cases mode <;> cases neg <;> simp_all [Fmt.infCode, Fmt.signBit]
  · simpa [sign] using toMax

/-- Rounding an exact value into a format gives what R147, R148 and R150 say of the real number it spells, where the value's bits reach 16
places below the last bit kept if anything is sticky. -/
theorem Fmt.round_rounds {f : Fmt} (hf : f.Usable) {x : Exact} {v : ℝ} (h : x.Spells v) (nonzero : x.m ≠ 0)
    (bits : x.sticky = true → f.mb + 16 ≤ Nat.log2 x.m) (mode : RMode) {k : Nat} (hk : k < 2 ^ 16) :
    rounds f mode k v (f.round mode k x) := by
  obtain ⟨d, weight⟩ : ∃ d : Nat, f.weightOf x = f.emin - f.mb + d := ⟨(max x.top f.emin - f.emin).toNat, by unfold Fmt.weightOf; omega⟩
  obtain ⟨least, most⟩ := h.bounds nonzero
  have sign := h.neg_iff nonzero
  have bitsBounded : x.sticky = true → x.e + 16 ≤ f.weightOf x := fun st => by
    have := bits st
    unfold Fmt.weightOf Exact.top
    omega
  have bitsUnbounded : x.sticky = true → x.e + 16 ≤ x.top - f.mb := fun st => by
    have := bits st
    unfold Exact.top
    omega
  obtain ⟨yPicks, yInexact, yLow, yHigh⟩ := Exact.roundAt_picks h bitsBounded mode hk
  obtain ⟨zPicks, -, zLow, zHigh⟩ := Exact.roundAt_picks h bitsUnbounded mode hk
  rw [Fmt.round_eq f mode k nonzero]
  simp only
  generalize x.roundAt (f.weightOf x) mode k = y at *
  generalize x.roundAt (x.top - f.mb) mode k = z at *
  have leadingBit : ((2 ^ f.mb : ℕ) : ℝ) * 2 ^ (x.top - f.mb) = 2 ^ x.top := by
    rw [Nat.cast_pow, Nat.cast_ofNat, ← zpow_natCast, ← zpow_add₀ two_ne_zero, add_sub_cancel]
  have nextBit : ((2 ^ (f.mb + 1) : ℕ) : ℝ) * 2 ^ (x.top - f.mb) = 2 ^ (x.top + 1) := by
    rw [pow_succ, zpow_add_one₀ two_ne_zero, ← leadingBit]
    push_cast
    ring
  have normal : 2 ^ f.mb ≤ y.1 ∨ d = 0 := by
    refine or_iff_not_imp_right.mpr fun shifted => yLow _ ?_
    have exact : f.weightOf x = x.top - f.mb := by unfold Fmt.weightOf at weight ⊢; omega
    rwa [exact, leadingBit]
  have bound : y.1 ≤ 2 ^ (f.mb + 1) := by
    refine yHigh _ (most.trans_le ?_)
    rw [← nextBit]
    exact mul_le_mul_of_nonneg_left (zpow_le_zpow_right₀ one_le_two (by unfold Fmt.weightOf; omega)) (Nat.cast_nonneg _)
  have tiny := Fmt.isTiny_iff (x := x) (zLow _ (leadingBit.trans_le least)) (zHigh _ (most.trans_eq nextBit.symm))
  have magnitude : (y.1 : ℝ) * 2 ^ f.weightOf x = f.units (f.pack false y.1 (f.weightOf x)) * 2 ^ (f.emin - f.mb) := by
    rw [weight, Fmt.units_pack normal bound, zpow_add₀ two_ne_zero, zpow_natCast]
    push_cast
    ring
  have big : f.tooBig y.1 (f.weightOf x) = true ↔ maxVal f < y.1 * 2 ^ f.weightOf x := by
    rw [magnitude, maxVal_eq hf, mul_lt_mul_iff_left₀ (by positivity), Nat.cast_lt, f.units_strictMono.lt_iff_lt, weight,
      Fmt.tooBig_iff hf normal bound]
  refine ⟨signFactor x.neg * (y.1 * 2 ^ f.weightOf x), signFactor x.neg * (z.1 * 2 ^ (x.top - f.mb)), ?_, ?_, ?_, ?_⟩
  · rw [ulpAt, h.log_eq nonzero]
    exact yPicks
  · rw [ulpAt, h.log_eq nonzero]
    exact zPicks
  · rw [abs_signFactor_mul x.neg (by positivity), abs_signFactor_mul x.neg (by positivity)]
    intro finite
    have inside : ¬ f.tooBig y.1 (f.weightOf x) = true := fun beyond => absurd (big.mp beyond) (not_lt.mpr finite)
    have code : f.pack false y.1 (f.weightOf x) ≤ f.maxCode := by
      rw [weight] at inside ⊢
      exact Nat.not_lt.mp fun beyond => inside ((Fmt.tooBig_iff hf normal bound).mpr beyond)
    have small := code.trans_lt f.maxCode_lt_signBit
    rw [if_neg (by simp [inside]), f.pack_eq x.neg]
    refine ⟨?_, ?_, ?_, fun exact => ?_, fun inexact below => ?_, fun inexact above => ?_⟩
    · rw [codeVal_signed hf code, magnitude]
    · rw [f.two_pow_width]
      split <;> omega
    · rw [sign]
      exact f.signBit_le_iff small x.neg
    · have flag : y.2 = false := Bool.eq_false_iff.mpr fun differs => yInexact.mp differs exact
      simp [flag, flagIf]
    · simp [yInexact.mpr inexact, tiny.mpr below, flagIf, BitVec.or_comm]
    · have flag : f.isTiny x z.1 = false := Bool.eq_false_iff.mpr fun isTiny => absurd (tiny.mp isTiny) (not_lt.mpr above)
      simp [yInexact.mpr inexact, flag, flagIf]
  · rw [abs_signFactor_mul x.neg (by positivity)]
    intro beyond
    have some : y.1 ≠ 0 := by
      rintro zero
      rw [zero, Nat.cast_zero, zero_mul, maxVal_eq hf] at beyond
      exact absurd beyond (not_lt.mpr (by positivity))
    rw [if_pos (by simp [big.mpr beyond, some])]
    exact ⟨rfl, Fmt.overflow_eq hf (by rintro rfl; simp at least; exact absurd least (not_le.mpr (by positivity))) sign mode⟩

end Sys2Proof.Machine
end

