-- ==== Sys2Proof/Proofs/FloatArithmetic.lean ====
section
/-! SUPPORT. Proofs/FloatArithmetic.lean: the arithmetic of finite codes is the exact real result, rounded (R63). -/

namespace Sys2Proof.Machine

open Sys2Proof.Rules

/-! ### Zeros and significands -/

/-- A result is a zero and sets no flag. -/
def ZeroResult (f : Fmt) (r : Nat × Flags) : Prop := codeVal f r.1 = some 0 ∧ r.2 = 0

theorem zeroResult_sign {f : Fmt} (hf : f.Usable) (neg : Bool) : ZeroResult f (if neg then f.signBit else 0, 0) := by
  have code := codeVal_signed hf (Nat.zero_le f.maxCode) neg
  have none : f.units 0 = 0 := by simp [Fmt.units]
  rw [zero_add, none, Nat.cast_zero, zero_mul, mul_zero] at code
  exact ⟨code, rfl⟩

theorem signFactor_mul_eq_zero_iff (neg : Bool) (m : Nat) (e : Int) : signFactor neg * (m * 2 ^ e) = 0 ↔ m = 0 := by
  have sign : signFactor neg ≠ 0 := by cases neg <;> norm_num [signFactor]
  have weight : (2 : ℝ) ^ e ≠ 0 := by positivity
  simp [sign, weight]

theorem Fmt.decode_sig_lt {f : Fmt} (hf : f.Usable) {c m : Nat} {neg : Bool} {e : Int} (h : f.decode c = .fin neg m e) :
    m < 2 ^ (f.mb + 1) := by
  have mantissa := Nat.mod_lt (c % f.signBit) (Nat.two_pow_pos f.mb)
  rw [Fmt.decode_finite hf (Fmt.decode_fin hf h).1] at h
  rw [pow_succ]
  split at h
  · obtain ⟨-, rfl, -⟩ := FVal.fin.inj h
    omega
  · obtain ⟨-, rfl, -⟩ := FVal.fin.inj h
    omega

/-! ### Sums -/

theorem exactOf_spells (m : Int) (e : Int) : (exactOf m e).Spells (m * 2 ^ e) := by
  have value := Exact.spells_of_not_sticky (x := exactOf m e) rfl
  have magnitude : signFactor (exactOf m e).neg * ((exactOf m e).m : ℝ) = m := by
    rw [exactOf, signFactor, Nat.cast_natAbs, Int.cast_abs]
    by_cases neg : m < 0
    · have : (m : ℝ) < 0 := by exact_mod_cast neg
      simp [neg, abs_of_neg this]
    · have : (0 : ℝ) ≤ m := by exact_mod_cast not_lt.mp neg
      simp [neg, abs_of_nonneg this]
  rwa [← mul_assoc, magnitude] at value

theorem cast_signed (neg : Bool) (m : Nat) : ((signed neg m : Int) : ℝ) = signFactor neg * m := by
  cases neg <;> simp [signed, signFactor]

theorem dyAdd_value (a b : Int × Int) :
    ((dyAdd a b).1 : ℝ) * 2 ^ (dyAdd a b).2 = a.1 * 2 ^ a.2 + b.1 * 2 ^ b.2 := by
  have shift : ∀ e : Int, min a.2 b.2 ≤ e → (2 : ℝ) ^ e = 2 ^ (e - min a.2 b.2).toNat * 2 ^ min a.2 b.2 := fun e above => by
    rw [← zpow_natCast, ← zpow_add₀ two_ne_zero, Int.toNat_of_nonneg (by omega), sub_add_cancel]
  rw [shift a.2 (min_le_left _ _), shift b.2 (min_le_right _ _), dyAdd]
  push_cast
  ring

/-- A sum of finite values is rounded once; an exact zero has no flag. -/
theorem Fmt.addFin_rounds {f : Fmt} (hf : f.Usable) (mode : RMode) {k : Nat} (hk : k < 2 ^ 16) (na nb : Bool) (ma mb : Nat) (ea eb : Int) {v : ℝ}
    (sum : v = signFactor na * (ma * 2 ^ ea) + signFactor nb * (mb * 2 ^ eb)) :
    (v ≠ 0 → rounds f mode k v (f.addFin mode k na ma ea nb mb eb)) ∧ (v = 0 → ZeroResult f (f.addFin mode k na ma ea nb mb eb)) := by
  have value := dyAdd_value (signed na ma, ea) (signed nb mb, eb)
  rw [cast_signed, cast_signed, mul_assoc, mul_assoc, ← sum] at value
  unfold Fmt.addFin
  generalize dyAdd (signed na ma, ea) (signed nb mb, eb) = d at *
  have zero : v = 0 ↔ d.1 = 0 := by
    rw [← value, mul_eq_zero_iff_right (by positivity), Int.cast_eq_zero]
  refine ⟨fun nonzero => ?_, fun isZero => ?_⟩
  · rw [if_neg (zero.not.mp nonzero), ← value]
    exact Fmt.round_rounds hf (exactOf_spells _ _) (Int.natAbs_ne_zero.mpr (zero.not.mp nonzero)) (fun st => absurd st Bool.false_ne_true) mode hk
  · rw [if_pos (zero.mp isZero)]
    exact zeroResult_sign hf _

section
variable {f : Fmt} (hf : f.Usable) (mode : RMode) {k : Nat} (hk : k < 2 ^ 16) {a b c : Nat} {x y z : ℝ}
include hf hk

theorem Fmt.add_rounds (hx : codeVal f a = some x) (hy : codeVal f b = some y) :
    (x + y ≠ 0 → rounds f mode k (x + y) (f.add mode k a b)) ∧ (x + y = 0 → ZeroResult f (f.add mode k a b)) := by
  obtain ⟨ma, ea, da, rfl⟩ := decode_of_codeVal hf hx
  obtain ⟨mb, eb, db, rfl⟩ := decode_of_codeVal hf hy
  unfold Fmt.add
  simp only [da, db]
  exact Fmt.addFin_rounds hf mode hk _ _ _ _ _ _ rfl

theorem Fmt.mul_rounds (hx : codeVal f a = some x) (hy : codeVal f b = some y) :
    (x * y ≠ 0 → rounds f mode k (x * y) (f.mul mode k a b)) ∧ (x * y = 0 → ZeroResult f (f.mul mode k a b)) := by
  obtain ⟨ma, ea, da, rfl⟩ := decode_of_codeVal hf hx
  obtain ⟨mb, eb, db, rfl⟩ := decode_of_codeVal hf hy
  unfold Fmt.mul
  simp only [da, db]
  have product : signFactor (f.negCode a) * (ma * 2 ^ ea) * (signFactor (f.negCode b) * (mb * 2 ^ eb))
      = signFactor (f.negCode a != f.negCode b) * ((ma * mb : ℕ) * 2 ^ (ea + eb)) := by
    rw [signFactor_xor, zpow_add₀ two_ne_zero]
    push_cast
    ring
  rw [product, ne_eq, signFactor_mul_eq_zero_iff]
  refine ⟨fun nonzero => Fmt.round_rounds hf ?_ nonzero (fun st => absurd st Bool.false_ne_true) mode hk, fun isZero => ?_⟩
  · exact Exact.spells_of_not_sticky (x := ⟨_, ma * mb, ea + eb, false⟩) rfl
  · rw [Fmt.round, if_pos isZero]
    exact zeroResult_sign hf _

theorem Fmt.fma_rounds (hx : codeVal f a = some x) (hy : codeVal f b = some y) (hz : codeVal f c = some z) :
    (x * y + z ≠ 0 → rounds f mode k (x * y + z) (f.fma mode k a b c)) ∧ (x * y + z = 0 → ZeroResult f (f.fma mode k a b c)) := by
  obtain ⟨ma, ea, da, rfl⟩ := decode_of_codeVal hf hx
  obtain ⟨mb, eb, db, rfl⟩ := decode_of_codeVal hf hy
  obtain ⟨mc, ec, dc, rfl⟩ := decode_of_codeVal hf hz
  have sum : f.fma mode k a b c
      = f.addFin mode k (f.negCode a != f.negCode b) (ma * mb) (ea + eb) (f.negCode c) mc ec := by
    unfold Fmt.fma
    simp only [da, db, dc, FVal.isNaN, Bool.or_self, Bool.false_eq_true, if_false]
  rw [sum]
  refine Fmt.addFin_rounds hf mode hk _ _ _ _ _ _ ?_
  rw [signFactor_xor, zpow_add₀ two_ne_zero]
  push_cast
  ring

end

/-! ### Differences -/

theorem Fmt.negate_eq (f : Fmt) {c : Nat} (h : c < 2 ^ f.width) :
    f.negate c = c % f.signBit + if f.negCode c then 0 else f.signBit := by
  have split := f.code_eq h
  have bit : f.negCode c = true ↔ c / f.signBit % 2 = 1 := by rw [Fmt.negCode, beq_iff_eq]
  unfold Fmt.negate
  rw [← if_congr bit rfl rfl]
  cases neg : f.negCode c
  · rw [neg] at split
    simp only [Bool.false_eq_true, if_false] at split ⊢
    omega
  · rw [neg] at split
    simp only [if_true] at split ⊢
    omega

theorem Fmt.negate_fields (f : Fmt) {c : Nat} (h : c < 2 ^ f.width) :
    f.negate c % f.signBit = c % f.signBit ∧ f.negCode (f.negate c) = !f.negCode c := by
  have small := Nat.mod_lt c f.signBit_pos
  have code : f.negate c = c % f.signBit + if !f.negCode c then f.signBit else 0 := by
    rw [f.negate_eq h]
    cases f.negCode c <;> rfl
  rw [code, f.mod_add_signBit small, f.negCode_add_signBit small]
  exact ⟨rfl, rfl⟩

theorem codeVal_negate {f : Fmt} (hf : f.Usable) {c : Nat} (h : c < 2 ^ f.width) {v : ℝ} (hv : codeVal f c = some v) :
    codeVal f (f.negate c) = some (-v) := by
  obtain ⟨low, sign⟩ := f.negate_fields h
  have flip : ∀ neg : Bool, signFactor (!neg) = -signFactor neg := fun neg => by cases neg <;> simp [signFactor]
  rw [codeVal_eq hf] at hv ⊢
  rw [low, sign, flip]
  split at hv
  · next inside =>
    obtain rfl := Option.some.inj hv
    rw [if_pos inside, neg_mul]
  · cases hv

theorem Fmt.sub_rounds {f : Fmt} (hf : f.Usable) (mode : RMode) {k : Nat} (hk : k < 2 ^ 16) {a b : Nat} {x y : ℝ} (hb : b < 2 ^ f.width)
    (hx : codeVal f a = some x) (hy : codeVal f b = some y) :
    (x - y ≠ 0 → rounds f mode k (x - y) (f.sub mode k a b)) ∧ (x - y = 0 → ZeroResult f (f.sub mode k a b)) := by
  obtain ⟨m, e, dec, -⟩ := decode_of_codeVal hf hy
  rw [Fmt.sub, dec, if_neg (by simp [FVal.isNaN]), sub_eq_add_neg]
  exact Fmt.add_rounds hf mode hk hx (codeVal_negate hf hb hy)

/-! ### Quotients -/

theorem Fmt.div_rounds {f : Fmt} (hf : f.Usable) (mode : RMode) {k : Nat} (hk : k < 2 ^ 16) {a b : Nat} {x y : ℝ}
    (hx : codeVal f a = some x) (hy : codeVal f b = some y) (nonzero : x ≠ 0) (divisor : y ≠ 0) :
    rounds f mode k (x / y) (f.div mode k a b) := by
  obtain ⟨ma, ea, da, rfl⟩ := decode_of_codeVal hf hx
  obtain ⟨mb, eb, db, rfl⟩ := decode_of_codeVal hf hy
  rw [ne_eq, signFactor_mul_eq_zero_iff] at nonzero divisor
  unfold Fmt.div
  simp only [da, db, nonzero, divisor, if_false]
  have pos : 0 < mb := Nat.pos_of_ne_zero divisor
  have posReal : (0 : ℝ) < mb := by exact_mod_cast pos
  generalize shift : 80 + Nat.log2 mb = j
  have large : 2 ^ 79 ≤ ma * 2 ^ j / mb := by
    rw [Nat.le_div_iff_mul_le pos, ← shift]
    calc 2 ^ 79 * mb ≤ 2 ^ 79 * 2 ^ (Nat.log2 mb + 1) := Nat.mul_le_mul_left _ Nat.lt_log2_self.le
      _ = 2 ^ (80 + Nat.log2 mb) := by rw [← pow_add]; congr 1; omega
      _ ≤ _ := Nat.le_mul_of_pos_left _ (Nat.pos_of_ne_zero nonzero)
  refine Fmt.round_rounds hf ⟨(ma * 2 ^ j % mb : ℕ) / mb, by positivity, ?_, ?_, ?_⟩ ?_ (fun _ => ?_) mode hk
  · rw [div_lt_one posReal]
    exact_mod_cast Nat.mod_lt _ pos
  · simp [div_eq_zero_iff, divisor]
  · have whole : ((ma * 2 ^ j / mb : ℕ) : ℝ) + (ma * 2 ^ j % mb : ℕ) / mb = ma * 2 ^ j / mb := by
      have apart : ((ma * 2 ^ j % mb : ℕ) : ℝ) + mb * (ma * 2 ^ j / mb : ℕ) = (ma * 2 ^ j : ℕ) := by
        exact_mod_cast Nat.mod_add_div (ma * 2 ^ j) mb
      push_cast at apart ⊢
      field_simp
      linarith
    simp only [whole, signFactor_xor]
    rw [zpow_sub₀ two_ne_zero, zpow_sub₀ two_ne_zero, zpow_natCast]
    have sign := signFactor_mul_self (f.negCode b)
    have signNe : signFactor (f.negCode b) ≠ 0 := fun zero => by simp [zero] at sign
    field_simp
    linear_combination -(signFactor (f.negCode a)) * sign
  · exact ((Nat.two_pow_pos 79).trans_le large).ne'
  · rw [Nat.le_log2 ((Nat.two_pow_pos 79).trans_le large).ne']
    exact (Nat.pow_le_pow_right (by decide) (by have := hf.mb_le; omega)).trans large

/-! ### Roots -/

/-- The bits of a root, from a start whose square is within n and which 2^k would take past n. -/
theorem isqrt_bounds (n : Nat) : ∀ k r : Nat, r * r ≤ n → n < (r + 2 ^ k) * (r + 2 ^ k) →
    isqrt n k r * isqrt n k r ≤ n ∧ n < (isqrt n k r + 1) * (isqrt n k r + 1)
  | 0, _, low, high => ⟨low, high⟩
  | k + 1, r, low, high => by
    unfold isqrt
    split
    · next fits =>
      refine isqrt_bounds n k _ fits ?_
      rwa [add_assoc, ← mul_two, ← pow_succ]
    · next exceeds => exact isqrt_bounds n k r low (Nat.not_le.mp exceeds)

theorem Fmt.sqrt_rounds {f : Fmt} (hf : f.Usable) (mode : RMode) {k : Nat} (hk : k < 2 ^ 16) {a : Nat} {x : ℝ}
    (hx : codeVal f a = some x) (positive : 0 < x) : rounds f mode k (Real.sqrt x) (f.sqrt mode k a) := by
  obtain ⟨m, e, dec, rfl⟩ := decode_of_codeVal hf hx
  have nonzero : m ≠ 0 := fun zero => by simp [zero] at positive
  have plus : f.negCode a = false := by
    refine Bool.eq_false_iff.mpr fun neg => ?_
    rw [neg, signFactor, if_pos rfl] at positive
    have : (0 : ℝ) ≤ m * 2 ^ e := by positivity
    linarith
  have significand : m < 2 ^ 24 :=
    (Fmt.decode_sig_lt hf dec).trans_le (Nat.pow_le_pow_right (by decide) (by have := hf.mb_le; omega))
  unfold Fmt.sqrt
  simp only [dec, plus, nonzero, Bool.false_eq_true, if_false]
  obtain ⟨sh, hsh, shLow, shHigh, half⟩ : ∃ sh : Nat, (if e % 2 = 0 then 120 else 121) = sh ∧ 120 ≤ sh ∧ sh ≤ 121 ∧
      e = 2 * ((e - sh) / 2) + sh := by
    by_cases even : e % 2 = 0
    · exact ⟨120, if_pos even, le_rfl, by decide, by omega⟩
    · exact ⟨121, if_neg even, by decide, le_rfl, by omega⟩
  simp only [hsh]
  generalize (e - sh) / 2 = h at half ⊢
  have size : m * 2 ^ sh < 2 ^ 90 * 2 ^ 90 :=
    (Nat.mul_lt_mul_of_lt_of_le significand (Nat.pow_le_pow_right (by decide) shHigh) (Nat.two_pow_pos _)).trans (by norm_num)
  obtain ⟨low, high⟩ := isqrt_bounds (m * 2 ^ sh) 90 0 (Nat.zero_le _) (by rwa [zero_add])
  have square : 2 ^ 60 * 2 ^ 60 ≤ m * 2 ^ sh := by
    rw [← pow_add]
    exact (Nat.pow_le_pow_right (by decide) shLow).trans (Nat.le_mul_of_pos_left _ (Nat.pos_of_ne_zero nonzero))
  generalize isqrt (m * 2 ^ sh) 90 0 = root at low high ⊢
  have large : 2 ^ 60 ≤ root := Nat.lt_succ_iff.mp (Nat.mul_self_lt_mul_self_iff.mp (square.trans_lt high))
  have rootLow : (root : ℝ) ≤ Real.sqrt (m * 2 ^ sh : ℕ) := Real.le_sqrt_of_sq_le (by rw [sq]; exact_mod_cast low)
  have rootHigh : Real.sqrt (m * 2 ^ sh : ℕ) < root + 1 := by
    rw [Real.sqrt_lt' (by positivity), sq]
    exact_mod_cast high
  refine Fmt.round_rounds hf ⟨Real.sqrt (m * 2 ^ sh : ℕ) - root, by linarith, by linarith, ?_, ?_⟩ ?_ (fun _ => ?_) mode hk
  · have exact : Real.sqrt (m * 2 ^ sh : ℕ) - root = 0 ↔ root * root = m * 2 ^ sh := by
      rw [sub_eq_zero, Real.sqrt_eq_iff_mul_self_eq (Nat.cast_nonneg _) (Nat.cast_nonneg _)]
      exact_mod_cast eq_comm
    exact (decide_eq_true_iff.trans exact.not.symm)
  · have split : (m : ℝ) * 2 ^ e = (m * 2 ^ sh : ℕ) * (2 ^ h) ^ 2 := by
      rw [half, zpow_add₀ two_ne_zero, zpow_natCast, mul_comm 2 h, zpow_mul]
      norm_cast
      push_cast
      ring
    simp only [signFactor, Bool.false_eq_true, if_false, one_mul, add_sub_cancel]
    rw [split, Real.sqrt_mul (Nat.cast_nonneg _), Real.sqrt_sq (by positivity)]
  · exact ((Nat.two_pow_pos 60).trans_le large).ne'
  · rw [Nat.le_log2 ((Nat.two_pow_pos 60).trans_le large).ne']
    exact (Nat.pow_le_pow_right (by decide) (by have := hf.mb_le; omega)).trans large

end Sys2Proof.Machine
end

