-- ==== Sys2Proof/Proofs/FloatSpecials.lean ====
section
/-! SUPPORT. Proofs/FloatSpecials.lean: arithmetic with zeros, infinities and NaNs, in a format that has both (R62, R63, R139, R140). -/

namespace Sys2Proof.Machine

open Sys2Proof.Rules

theorem FVal.sNaN_of_not_isNaN {v : FVal} (h : v.isNaN = false) : v.sNaN = false := by
  cases v
  case nan => cases h
  case inf => rfl
  case fin => rfl

section
variable {f : Fmt} (hf : f.Usable) (plain : f.ocp = false)
include plain

theorem Fmt.nanCode_plain : f.nanCode false = theNaN f := by
  simp [Fmt.nanCode, plain, theNaN, Fmt.infCode]

include hf

theorem Fmt.decode_infinity (s : Bool) : f.decode (infinity f s) = .inf s := by
  have small : f.infCode < f.signBit := by
    rw [← f.infCode_add]
    exact Nat.lt_add_of_pos_right (Nat.two_pow_pos _)
  have low : infinity f s % f.signBit = f.infCode := f.mod_add_signBit small s
  have sign : f.negCode (infinity f s) = s := f.negCode_add_signBit small s
  rcases Fmt.decode_plain hf plain (infinity f s) with ⟨range, -⟩ | ⟨-, dec⟩ | ⟨range, -⟩
  · exact absurd range (by rw [low]; exact lt_irrefl _)
  · rw [dec, sign]
  · exact absurd range (by rw [low]; exact lt_irrefl _)

theorem Fmt.isNaN_negate {c : Nat} (h : c < 2 ^ f.width) : (f.decode (f.negate c)).isNaN = (f.decode c).isNaN := by
  rw [Bool.eq_iff_iff, Fmt.isNaN_decode hf plain, Fmt.isNaN_decode hf plain, Fmt.isNaNCode_iff, Fmt.isNaNCode_iff, (f.negate_fields h).1]

/-! ### NaN operands -/

variable (mode : RMode) (k : Nat) {a b c : Nat}

omit hf plain in
theorem Fmt.add_nan (h : ((f.decode a).isNaN || (f.decode b).isNaN) = true) :
    f.add mode k a b = (f.nanCode false, flagIf ((f.decode a).sNaN || (f.decode b).sNaN) Flags.iv) := by
  unfold Fmt.add
  cases da : f.decode a <;> cases db : f.decode b <;> simp_all [FVal.isNaN]

omit hf plain in
theorem Fmt.mul_nan (h : ((f.decode a).isNaN || (f.decode b).isNaN) = true) :
    f.mul mode k a b = (f.nanCode false, flagIf ((f.decode a).sNaN || (f.decode b).sNaN) Flags.iv) := by
  unfold Fmt.mul
  cases da : f.decode a <;> cases db : f.decode b <;> simp_all [FVal.isNaN]

omit hf plain in
theorem Fmt.div_nan (h : ((f.decode a).isNaN || (f.decode b).isNaN) = true) :
    f.div mode k a b = (f.nanCode false, flagIf ((f.decode a).sNaN || (f.decode b).sNaN) Flags.iv) := by
  unfold Fmt.div
  cases da : f.decode a <;> cases db : f.decode b <;> simp_all [FVal.isNaN]

theorem Fmt.sub_nan (hb : b < 2 ^ f.width) (h : ((f.decode a).isNaN || (f.decode b).isNaN) = true) :
    f.sub mode k a b = (f.nanCode false, flagIf ((f.decode a).sNaN || (f.decode b).sNaN) Flags.iv) := by
  unfold Fmt.sub
  split
  · exact Fmt.add_nan mode k h
  · next number =>
    have same := Fmt.isNaN_negate hf plain hb
    have quiet := FVal.sNaN_of_not_isNaN (Bool.eq_false_iff.mpr number)
    have quiet' := FVal.sNaN_of_not_isNaN (same.trans (Bool.eq_false_iff.mpr number))
    rw [Fmt.add_nan mode k (by rwa [same]), quiet, quiet']

omit hf plain in
/-- A NaN among the operands of FFMA gives the canonical NaN; IV is set where one is signalling. -/
theorem Fmt.fma_nan (h : ((f.decode a).isNaN || (f.decode b).isNaN || (f.decode c).isNaN) = true) :
    (f.fma mode k a b c).1 = f.nanCode false ∧
      (((f.decode a).sNaN || (f.decode b).sNaN || (f.decode c).sNaN) = true → (f.fma mode k a b c).2 = Flags.iv) := by
  unfold Fmt.fma
  simp only
  by_cases factor : ((f.decode a).isNaN || (f.decode b).isNaN) = true
  · rw [if_pos factor]
    exact ⟨rfl, fun signalling => by rw [signalling]; rfl⟩
  · rw [if_neg factor]
    have addend : (f.decode c).isNaN = true := (Bool.or_eq_true_iff.mp h).resolve_left factor
    split
    · exact ⟨rfl, fun _ => rfl⟩
    · exact ⟨rfl, fun _ => rfl⟩
    · rw [if_neg Bool.false_ne_true, if_pos addend]
      exact ⟨rfl, fun signalling => by rw [signalling]; rfl⟩

theorem Fmt.nan_result {r : Nat × Flags} (h : r = (f.nanCode false, flagIf ((f.decode a).sNaN || (f.decode b).sNaN) Flags.iv)) :
    r.1 = theNaN f ∧ (isSNaN f a ∨ isSNaN f b → r.2 = Flags.iv) ∧ (¬ isSNaN f a → ¬ isSNaN f b → r.2 = 0) := by
  rw [h, Fmt.nanCode_plain plain, ← Fmt.sNaN_decode hf plain, ← Fmt.sNaN_decode hf plain, ← Bool.or_eq_true]
  refine ⟨rfl, fun signalling => by rw [signalling]; rfl, fun qa qb => ?_⟩
  rw [Bool.eq_false_iff.mpr qa, Bool.eq_false_iff.mpr qb]
  rfl

/-! ### Infinities and zeros -/

theorem Fmt.add_opposite_infinities (s : Bool) : f.add mode k (infinity f s) (infinity f !s) = (theNaN f, Flags.iv) := by
  unfold Fmt.add
  simp only [Fmt.decode_infinity hf plain]
  rw [if_neg (by cases s <;> decide), Fmt.nanCode_plain plain]

omit hf plain in
theorem infinity_lt_width (s : Bool) : infinity f s < 2 ^ f.width := by
  have split := f.infCode_add
  have pos := Nat.two_pow_pos f.mb
  rw [f.two_pow_width]
  show f.infCode + (if s then f.signBit else 0) < _
  cases s
  · simp only [Bool.false_eq_true, if_false]; omega
  · simp only [if_true]; omega

omit hf plain in
theorem Fmt.negate_infinity (s : Bool) : f.negate (infinity f s) = infinity f !s := by
  have small : f.infCode < f.signBit := by
    rw [← f.infCode_add]
    exact Nat.lt_add_of_pos_right (Nat.two_pow_pos _)
  rw [f.negate_eq (infinity_lt_width s), show infinity f s % f.signBit = _ from f.mod_add_signBit small s,
    show f.negCode (infinity f s) = s from f.negCode_add_signBit small s]
  cases s <;> rfl

theorem Fmt.sub_equal_infinities (s : Bool) : f.sub mode k (infinity f s) (infinity f s) = (theNaN f, Flags.iv) := by
  rw [Fmt.sub, Fmt.decode_infinity hf plain, if_neg (by simp [FVal.isNaN]), Fmt.negate_infinity]
  exact Fmt.add_opposite_infinities hf plain mode k s

theorem Fmt.div_infinities (s t : Bool) : f.div mode k (infinity f s) (infinity f t) = (theNaN f, Flags.iv) := by
  unfold Fmt.div
  simp only [Fmt.decode_infinity hf plain, Fmt.nanCode_plain plain]

theorem Fmt.zero_mul_infinity (zero : codeVal f a = some 0) (s : Bool) :
    f.mul mode k a (infinity f s) = (theNaN f, Flags.iv) ∧ f.mul mode k (infinity f s) a = (theNaN f, Flags.iv) := by
  obtain ⟨m, e, dec, value⟩ := decode_of_codeVal hf zero
  obtain rfl := (signFactor_mul_eq_zero_iff _ m e).mp value.symm
  unfold Fmt.mul
  simp only [dec, Fmt.decode_infinity hf plain, if_true, Fmt.nanCode_plain plain, and_self]

theorem Fmt.div_zero_divisor {x : ℝ} (hx : codeVal f a = some x) (ha : a < 2 ^ f.width) (hb : b < 2 ^ f.width) (zero : codeVal f b = some 0) :
    (x ≠ 0 → f.div mode k a b = (infinity f (a / 2 ^ (f.eb + f.mb) != b / 2 ^ (f.eb + f.mb)), 0)) ∧
      (x = 0 → f.div mode k a b = (theNaN f, Flags.iv)) := by
  obtain ⟨ma, ea, da, rfl⟩ := decode_of_codeVal hf hx
  obtain ⟨mb, eb, db, value⟩ := decode_of_codeVal hf zero
  obtain rfl := (signFactor_mul_eq_zero_iff _ mb eb).mp value.symm
  rw [ne_eq, signFactor_mul_eq_zero_iff]
  unfold Fmt.div
  simp only [da, db, if_true]
  refine ⟨fun nonzero => ?_, fun isZero => by rw [if_pos isZero, Fmt.nanCode_plain plain]⟩
  have bit : ∀ n : Nat, n < 2 ^ f.width → n / f.signBit < 2 := fun n hn =>
    Nat.div_lt_of_lt_mul (by rwa [f.two_pow_width, mul_comm] at hn)
  have signs : (f.negCode a != f.negCode b) = (a / f.signBit != b / f.signBit) := by
    unfold Fmt.negCode
    have qa := bit a ha
    have qb := bit b hb
    generalize a / f.signBit = u at *
    generalize b / f.signBit = w at *
    interval_cases u <;> interval_cases w <;> rfl
  rw [if_neg nonzero, signs]
  rfl

omit plain in
theorem Fmt.div_zero_dividend {y : ℝ} (zero : codeVal f a = some 0) (hy : codeVal f b = some y) (divisor : y ≠ 0) :
    ZeroResult f (f.div mode k a b) := by
  obtain ⟨ma, ea, da, value⟩ := decode_of_codeVal hf zero
  obtain ⟨mb, eb, db, rfl⟩ := decode_of_codeVal hf hy
  obtain rfl := (signFactor_mul_eq_zero_iff _ ma ea).mp value.symm
  rw [ne_eq, signFactor_mul_eq_zero_iff] at divisor
  unfold Fmt.div
  simp only [da, db, divisor, if_true, if_false]
  exact zeroResult_sign hf _

theorem Fmt.sqrt_special {x : ℝ} (hx : codeVal f a = some x) :
    (x = 0 → f.sqrt mode k a = (a, 0)) ∧ (x < 0 → f.sqrt mode k a = (theNaN f, Flags.iv)) := by
  obtain ⟨m, e, dec, rfl⟩ := decode_of_codeVal hf hx
  unfold Fmt.sqrt
  simp only [dec]
  refine ⟨fun zero => if_pos ((signFactor_mul_eq_zero_iff _ m e).mp zero), fun negative => ?_⟩
  have nonzero : m ≠ 0 := (signFactor_mul_eq_zero_iff _ m e).not.mp negative.ne
  have magnitude : (0 : ℝ) < m * 2 ^ e := mul_pos (by exact_mod_cast Nat.pos_of_ne_zero nonzero) (by positivity)
  rw [if_neg nonzero, if_pos ((signFactor_mul_neg_iff _ magnitude).mp negative), Fmt.nanCode_plain plain]

end

end Sys2Proof.Machine
end

