-- ==== Sys2Proof/Proofs/FloatOrder.lean ====
section
/-! SUPPORT. Proofs/FloatOrder.lean: FMIN, FMAX and FCMP stand by the order of the values (R63, R64). -/

namespace Sys2Proof.Machine

open Sys2Proof.Rules

/-! ### The order of codes -/

/-- The value of a finite code in units of the subnormal weight, signed. -/
def Fmt.signedUnits (f : Fmt) (c : Nat) : Int := (if f.negCode c then -1 else 1) * f.units (c % f.signBit)

/-- What a comparison orders codes by: the magnitude's code with its sign, a negative zero below a positive one where zeros are told apart. -/
def Fmt.orderKey (f : Fmt) (zeros : Bool) (c : Nat) : Int :=
  if f.negCode c then -(c % f.signBit : Nat) - (if zeros then 1 else 0) else (c % f.signBit : Nat)

theorem Fmt.below_eq (f : Fmt) (zeros : Bool) (a b : Nat) : f.below zeros a b = decide (f.orderKey zeros a < f.orderKey zeros b) := by
  simp only [Fmt.below, Fmt.orderKey, Fmt.negCode, beq_iff_eq]

theorem Fmt.units_eq_zero_iff (f : Fmt) (r : Nat) : f.units r = 0 ↔ r = 0 := by
  have zero : f.units 0 = 0 := by simp [Fmt.units]
  rw [← zero, f.units_strictMono.injective.eq_iff, zero]

/-- The order of codes is the order of their values; where zeros are told apart, a negative zero is below a positive one. -/
theorem Fmt.orderKey_lt_iff (f : Fmt) (zeros : Bool) (a b : Nat) :
    f.orderKey zeros a < f.orderKey zeros b ↔ f.signedUnits a < f.signedUnits b ∨
      zeros = true ∧ f.signedUnits a = f.signedUnits b ∧ f.negCode a = true ∧ f.negCode b = false := by
  have less : f.units (a % f.signBit) < f.units (b % f.signBit) ↔ a % f.signBit < b % f.signBit := f.units_strictMono.lt_iff_lt
  have more : f.units (b % f.signBit) < f.units (a % f.signBit) ↔ b % f.signBit < a % f.signBit := f.units_strictMono.lt_iff_lt
  have zeroA := f.units_eq_zero_iff (a % f.signBit)
  have zeroB := f.units_eq_zero_iff (b % f.signBit)
  unfold Fmt.orderKey Fmt.signedUnits
  generalize f.units (a % f.signBit) = ua at *
  generalize f.units (b % f.signBit) = ub at *
  generalize a % f.signBit = ra at *
  generalize b % f.signBit = rb at *
  cases f.negCode a <;> cases f.negCode b <;> cases zeros <;>
    simp only [Bool.false_eq_true, if_true, if_false, false_and, and_false, or_false, true_and, and_true, reduceCtorEq] <;> omega

theorem Fmt.below_false (f : Fmt) (a b : Nat) : f.below false a b = decide (f.signedUnits a < f.signedUnits b) := by
  rw [f.below_eq, decide_eq_decide, f.orderKey_lt_iff]
  simp

theorem inUnits_eq {f : Fmt} (hf : f.Usable) {c m : Nat} {neg : Bool} {e : Int} (h : f.decode c = .fin neg m e) :
    inUnits neg m e (f.emin - f.mb) = f.signedUnits c := by
  obtain ⟨-, rfl, -, magnitude⟩ := Fmt.decode_fin hf h
  rw [inUnits, magnitude, Fmt.signedUnits]

theorem value_eq_signedUnits {f : Fmt} (hf : f.Usable) {c : Nat} {v : ℝ} (h : codeVal f c = some v) :
    v = f.signedUnits c * 2 ^ (f.emin - f.mb) := by
  rw [codeVal_eq hf] at h
  split at h
  · obtain rfl := Option.some.inj h
    rw [Fmt.signedUnits, signFactor]
    push_cast
    ring
  · cases h

theorem value_lt_iff {f : Fmt} (hf : f.Usable) {a b : Nat} {x y : ℝ} (hx : codeVal f a = some x) (hy : codeVal f b = some y) :
    x < y ↔ f.signedUnits a < f.signedUnits b := by
  rw [value_eq_signedUnits hf hx, value_eq_signedUnits hf hy, mul_lt_mul_iff_left₀ (by positivity), Int.cast_lt]

/-! ### FMIN and FMAX -/

section
variable {f : Fmt} (hf : f.Usable) (plain : f.ocp = false)
include hf

theorem isNaN_of_value {c : Nat} {v : ℝ} (h : codeVal f c = some v) : (f.decode c).isNaN = false := by
  obtain ⟨m, e, dec, -⟩ := decode_of_codeVal hf h
  rw [dec]
  rfl

omit hf in
theorem Fmt.minmax_numbers {a b : Nat} (ha : (f.decode a).isNaN = false) (hb : (f.decode b).isNaN = false) (greater : Bool) :
    f.minmax greater a b = (if f.below true a b == greater then b else a, 0) := by
  simp [Fmt.minmax, ha, hb, FVal.sNaN_of_not_isNaN, flagIf]

theorem Fmt.minmax_values {a b : Nat} {x y : ℝ} (hx : codeVal f a = some x) (hy : codeVal f b = some y) (greater : Bool) :
    codeVal f (f.minmax greater a b).1 = some (if greater then max x y else min x y) ∧
      ((f.minmax greater a b).1 = a ∨ (f.minmax greater a b).1 = b) := by
  rw [Fmt.minmax_numbers (isNaN_of_value hf hx) (isNaN_of_value hf hy)]
  have order : f.below true a b = true → x ≤ y := fun below => by
    rw [f.below_eq, decide_eq_true_iff, f.orderKey_lt_iff, ← value_lt_iff hf hx hy] at below
    rcases below with less | ⟨-, equal, -⟩
    · exact less.le
    · rw [value_eq_signedUnits hf hx, value_eq_signedUnits hf hy, equal]
  have order' : ¬ f.below true a b = true → y ≤ x := fun above => by
    rw [f.below_eq, decide_eq_true_iff, f.orderKey_lt_iff, ← value_lt_iff hf hx hy, not_or] at above
    exact not_lt.mp above.1
  cases less : f.below true a b
  · have le := order' (by simp [less])
    cases greater
    · exact ⟨by simpa [min_eq_right le] using hy, .inr rfl⟩
    · exact ⟨by simpa [max_eq_left le] using hx, .inl rfl⟩
  · have le := order less
    cases greater
    · exact ⟨by simpa [min_eq_left le] using hx, .inl rfl⟩
    · exact ⟨by simpa [max_eq_right le] using hy, .inr rfl⟩

/-- Of two zeros the lesser is −0 where one is, the greater +0 where one is. -/
theorem Fmt.minmax_zeros {a b : Nat} (ha : a < 2 ^ f.width) (hb : b < 2 ^ f.width) (hx : codeVal f a = some 0) (hy : codeVal f b = some 0)
    (greater : Bool) : (f.minmax greater a b).1 = 0 ↔ if greater then a = 0 ∨ b = 0 else a = 0 ∧ b = 0 := by
  have zero : ∀ c, c < 2 ^ f.width → codeVal f c = some 0 → (c = 0 ↔ f.negCode c = false) ∧ f.signedUnits c = 0 := fun c hc value => by
    have units := value_eq_signedUnits hf value
    have none : f.signedUnits c = 0 := by
      rw [eq_comm, mul_eq_zero_iff_right (by positivity), Int.cast_eq_zero] at units
      exact units
    have low : c % f.signBit = 0 := by
      rw [← f.units_eq_zero_iff]
      unfold Fmt.signedUnits at none
      split at none <;> omega
    have split := f.code_eq hc
    have pos := f.signBit_pos
    rw [low, zero_add] at split
    refine ⟨?_, none⟩
    cases sign : f.negCode c
    · simpa [sign] using split
    · rw [sign, if_pos rfl] at split
      simp only [Bool.true_eq_false, iff_false]
      omega
  obtain ⟨zeroA, unitsA⟩ := zero a ha hx
  obtain ⟨zeroB, unitsB⟩ := zero b hb hy
  have below : f.below true a b = (f.negCode a && !f.negCode b) := by
    rw [f.below_eq, Bool.eq_iff_iff, decide_eq_true_iff, f.orderKey_lt_iff, unitsA, unitsB]
    simp
  rw [Fmt.minmax_numbers (isNaN_of_value hf hx) (isNaN_of_value hf hy), below, apply_ite (· = 0), zeroA, zeroB]
  cases f.negCode a <;> cases f.negCode b <;> cases greater <;> decide

include plain

theorem Fmt.minmax_nan (greater : Bool) (a b : Nat) :
    let r := f.minmax greater a b
    (isSNaN f a ∨ isSNaN f b → r.2 = Flags.iv) ∧ (¬ isSNaN f a → ¬ isSNaN f b → r.2 = 0) ∧
      (isNaNCode f a → isNaNCode f b → r.1 = theNaN f) ∧ (isNaNCode f a → ¬ isNaNCode f b → r.1 = b) ∧
      (¬ isNaNCode f a → isNaNCode f b → r.1 = a) := by
  simp only [← Fmt.sNaN_decode hf plain, ← Fmt.isNaN_decode hf plain, ← Fmt.nanCode_plain plain, Fmt.minmax]
  refine ⟨fun signalling => ?_, fun quietA quietB => ?_, fun nanA nanB => ?_, fun nanA numB => ?_, fun numA nanB => ?_⟩
  · rw [← Bool.or_eq_true] at signalling
    rw [signalling]
    rfl
  · rw [Bool.eq_false_iff.mpr quietA, Bool.eq_false_iff.mpr quietB]
    rfl
  · simp [nanA, nanB]
  · simp [nanA, numB]
  · simp [numA, nanB]

theorem Fmt.below_infinity {b : Nat} (hb : (codeVal f b).isSome = true) (s : Bool) :
    f.below true b (infinity f s) = (!s) ∧ f.below true (infinity f s) b = s := by
  obtain ⟨v, hv⟩ := Option.isSome_iff_exists.mp hb
  obtain ⟨m, e, dec, -⟩ := decode_of_codeVal hf hv
  have small : f.infCode < f.signBit := by
    rw [← f.infCode_add]
    exact Nat.lt_add_of_pos_right (Nat.two_pow_pos _)
  have low : infinity f s % f.signBit = f.infCode := f.mod_add_signBit small s
  have sign : f.negCode (infinity f s) = s := f.negCode_add_signBit small s
  have finite : b % f.signBit < f.infCode := by
    rcases Fmt.decode_plain hf plain b with ⟨range, -⟩ | ⟨-, inf⟩ | ⟨-, nan⟩
    · exact range
    · cases dec.symm.trans inf
    · cases dec.symm.trans nan
  rw [f.below_eq, f.below_eq, Fmt.orderKey, Fmt.orderKey, low, sign]
  constructor
  · cases s <;> cases f.negCode b <;> simp <;> omega
  · cases s <;> cases f.negCode b <;> simp <;> omega

theorem Fmt.minmax_infinity {b : Nat} (hb : (codeVal f b).isSome = true) (greater s : Bool) :
    f.minmax greater b (infinity f s) = f.minmax greater (infinity f s) b ∧
      (f.minmax greater b (infinity f s)).1 = if greater = s then b else infinity f s := by
  obtain ⟨below, above⟩ := Fmt.below_infinity hf plain hb s
  obtain ⟨v, hv⟩ := Option.isSome_iff_exists.mp hb
  have number := isNaN_of_value hf hv
  have infinite : (f.decode (infinity f s)).isNaN = false := by rw [Fmt.decode_infinity hf plain]; rfl
  rw [Fmt.minmax_numbers number infinite, Fmt.minmax_numbers infinite number, below, above]
  cases s <;> cases greater <;> exact ⟨rfl, rfl⟩

end

/-! ### FCMP -/

theorem Fmt.cmp_finite {f : Fmt} (hf : f.Usable) {x y mx my : Nat} {nx ny : Bool} {ex ey : Int} (dx : f.decode x = .fin nx mx ex)
    (dy : f.decode y = .fin ny my ey) :
    let a := inUnits nx mx ex (f.emin - f.mb)
    let b := inUnits ny my ey (f.emin - f.mb)
    f.cmp .eq x y = (decide (a = b), 0) ∧ f.cmp .ne x y = (decide (a ≠ b), 0) ∧ f.cmp .lt x y = (decide (a < b), 0) ∧
      f.cmp .le x y = (decide (a ≤ b), 0) ∧ f.cmp .gt x y = (decide (b < a), 0) ∧ f.cmp .ge x y = (decide (b ≤ a), 0) := by
  rw [inUnits_eq hf dx, inUnits_eq hf dy]
  simp only [Fmt.cmp, f.below_false, dx, dy, FVal.isNaN, FVal.sNaN, Bool.or_self, flagIf]
  generalize f.signedUnits x = a
  generalize f.signedUnits y = b
  refine ⟨Prod.ext (Bool.eq_iff_iff.mpr ?_) rfl, Prod.ext (Bool.eq_iff_iff.mpr ?_) rfl, Prod.ext (Bool.eq_iff_iff.mpr ?_) rfl,
    Prod.ext (Bool.eq_iff_iff.mpr ?_) rfl, Prod.ext (Bool.eq_iff_iff.mpr ?_) rfl, Prod.ext (Bool.eq_iff_iff.mpr ?_) rfl⟩ <;>
    simp <;> omega

theorem Fmt.cmp_nan {f : Fmt} {x y : Nat} (h : (f.decode x).isNaN = true ∨ (f.decode y).isNaN = true) :
    (∀ p : Pred, (f.cmp p x y).1 = decide (p = .ne)) ∧
      (∀ p : Pred, p = .lt ∨ p = .le ∨ p = .gt ∨ p = .ge → (f.cmp p x y).2 = Flags.iv) ∧
      (∀ p : Pred, p = .eq ∨ p = .ne → (f.cmp p x y).2 = if (f.decode x).sNaN ∨ (f.decode y).sNaN then Flags.iv else 0) := by
  rw [← Bool.or_eq_true] at h
  unfold Fmt.cmp
  simp only [h]
  refine ⟨fun p => ?_, fun p ordered => ?_, fun p unordered => ?_⟩
  · cases p <;> rfl
  · rcases ordered with rfl | rfl | rfl | rfl <;> rfl
  · rcases unordered with rfl | rfl <;> simp [flagIf]

end Sys2Proof.Machine
end

