-- ==== Sys2Proof/Proofs/FloatConversions.lean ====
section
/-! SUPPORT. Proofs/FloatConversions.lean: conversions between floating and integer types (R65). -/

namespace Sys2Proof.Machine

open Sys2Proof.Rules

/-! ### Integers -/

theorem tyInt_eq {t : Ty} {c : Nat} (h : c < 2 ^ tyWidth t) : tyInt t c = if tySigned t then asSigned (tyWidth t) c else c := by
  have positive : 1 ≤ tyWidth t := by cases t <;> decide
  have double : 2 ^ tyWidth t = 2 * 2 ^ (tyWidth t - 1) := by rw [← pow_succ', Nat.sub_add_cancel positive]
  rw [tyInt, sval, asSigned, Nat.mod_eq_of_lt h]
  have side : 2 ^ tyWidth t ≤ 2 * c ↔ ¬ c < 2 ^ (tyWidth t - 1) := by omega
  simp only [side, ite_not]

section
variable {mode : RMode} {k c : Nat}

theorem convert_int_float {src : Ty} {g : Fmt} (hg : g.Usable) (hk : k < 2 ^ 16) :
    (tyInt src c ≠ 0 → rounds g mode k (tyInt src c) (cvtIF src g mode k c)) ∧ (tyInt src c = 0 → cvtIF src g mode k c = (0, 0)) := by
  unfold cvtIF
  refine ⟨fun nonzero => ?_, fun zero => if_pos zero⟩
  rw [if_neg nonzero]
  have value := exactOf_spells (tyInt src c) 0
  rw [zpow_zero, mul_one] at value
  exact Fmt.round_rounds hg value (Int.natAbs_ne_zero.mpr nonzero) (fun st => absurd st Bool.false_ne_true) mode hk

/-! ### Finite sources -/

theorem convert_float_float {f g : Fmt} (hf : f.Usable) (hg : g.Usable) (hk : k < 2 ^ 16) {x : ℝ} (hx : codeVal f c = some x) :
    (x ≠ 0 → rounds g mode k x (cvtFF f g mode k c)) ∧ (x = 0 → ZeroResult g (cvtFF f g mode k c)) := by
  obtain ⟨m, e, dec, rfl⟩ := decode_of_codeVal hf hx
  unfold cvtFF
  simp only [dec]
  rw [ne_eq, signFactor_mul_eq_zero_iff]
  refine ⟨fun nonzero => ?_, fun zero => ?_⟩
  · rw [if_neg nonzero]
    exact Fmt.round_rounds hg (Exact.spells_of_not_sticky (x := ⟨_, m, e, false⟩) rfl) nonzero (fun st => absurd st Bool.false_ne_true) mode hk
  · rw [if_pos zero]
    exact zeroResult_sign hg _

theorem convert_float_int {f : Fmt} (hf : f.Usable) {dst : Ty} (hk : k < 2 ^ 16) {x : ℝ} (hx : codeVal f c = some x) :
    ∃ n : ℤ, picks mode k 1 x n ∧
      (n < (tyRange dst).1 → cvtFI f dst mode k c = (wrapInt (tyWidth dst) (tyRange dst).1, Flags.iv ||| Flags.nx)) ∧
      ((tyRange dst).1 ≤ n → (tyRange dst).2 < n →
        cvtFI f dst mode k c = (wrapInt (tyWidth dst) (tyRange dst).2, Flags.iv ||| Flags.nx)) ∧
      ((tyRange dst).1 ≤ n → n ≤ (tyRange dst).2 → (cvtFI f dst mode k c).1 = wrapInt (tyWidth dst) n ∧
        (n = x → (cvtFI f dst mode k c).2 = 0) ∧ (n ≠ x → (cvtFI f dst mode k c).2 = Flags.nx)) := by
  obtain ⟨m, e, dec, rfl⟩ := decode_of_codeVal hf hx
  have value := Exact.spells_of_not_sticky (x := ⟨f.negCode c, m, e, false⟩) rfl
  obtain ⟨picked, inexact, -, -⟩ := Exact.roundAt_picks value (q := 0) (fun st => absurd st Bool.false_ne_true) mode hk
  unfold cvtFI
  simp only [dec]
  generalize Exact.roundAt ⟨f.negCode c, m, e, false⟩ 0 mode k = r at *
  simp only [zpow_zero, mul_one, ← cast_signed] at picked inexact
  refine ⟨signed (f.negCode c) r.1, picked, fun low => if_pos low, fun inside high => ?_, fun inside below => ?_⟩
  · rw [if_neg (not_lt.mpr inside), if_pos high]
  · rw [if_neg (not_lt.mpr inside), if_neg (not_lt.mpr below)]
    refine ⟨rfl, fun exact => ?_, fun differs => ?_⟩
    · have flag : r.2 = false := Bool.eq_false_iff.mpr fun set => inexact.mp set exact
      rw [flag]; rfl
    · rw [inexact.mpr differs]; rfl

/-! ### Infinities and NaNs -/

/-- A code without a value is a NaN, signalling in a format with infinities only, or an infinity. -/
theorem Fmt.decode_none {f : Fmt} (hf : f.Usable) (none : codeVal f c = none) :
    (f.ocp = true ∨ isNaNCode f c) ∧ (∃ sig, f.decode c = .nan sig (f.negCode c) ∧ (sig = true ↔ f.ocp = false ∧ isSNaN f c)) ∨
      ¬ (f.ocp = true ∨ isNaNCode f c) ∧ f.decode c = .inf (f.negCode c) := by
  have beyond : f.maxCode < c % f.signBit := by
    by_contra inside
    rw [codeVal_eq hf, if_pos (Nat.not_lt.mp inside)] at none
    cases none
  cases ocp : f.ocp
  · rw [Fmt.isNaNCode_iff]
    rcases Fmt.decode_plain hf ocp c with ⟨-, m, e, dec⟩ | ⟨range, dec⟩ | ⟨range, dec⟩
    · cases none.symm.trans (codeVal_of_decode hf dec)
    · exact .inr ⟨by simp [range], dec⟩
    · refine .inl ⟨.inr range, _, dec, ?_⟩
      rw [← Fmt.sNaN_decode hf ocp, dec, and_iff_right rfl]
      rfl
  · refine .inl ⟨.inl rfl, false, ?_, by simp⟩
    rw [Fmt.decode_beyond hf beyond, ocp]
    rfl

theorem Fmt.nanCode_eq {g : Fmt} (hg : g.Usable) (neg : Bool) :
    g.nanCode neg = (if g.ocp then 0x7F else theNaN g) + (if g.width = 8 then (if neg then 2 ^ (g.eb + g.mb) else 0) else 0) := by
  unfold Fmt.nanCode
  congr 1
  · split
    · next ocp =>
      obtain rfl := hg.ocp ocp
      rfl
    · rfl
  · cases neg
    · simp
    · simp [Fmt.signBit]

theorem convert_nan_float {f g : Fmt} (hg : g.Usable) {sig neg : Bool} (dec : f.decode c = .nan sig neg) :
    (cvtFF f g mode k c).1
        = (if g.ocp then 0x7F else theNaN g) + (if g.width = 8 then (if neg then 2 ^ (g.eb + g.mb) else 0) else 0) ∧
      (cvtFF f g mode k c).2 = if sig then Flags.iv else 0 := by
  unfold cvtFF
  simp only [dec]
  exact ⟨Fmt.nanCode_eq hg neg, rfl⟩

theorem convert_infinity_float {f g : Fmt} (hg : g.Usable) {neg : Bool} (dec : f.decode c = .inf neg) :
    cvtFF f g mode k c = if g.ocp then (0x7E + if neg then 2 ^ (g.eb + g.mb) else 0, Flags.of ||| Flags.nx) else (infinity g neg, 0) := by
  unfold cvtFF
  simp only [dec]
  split
  · next ocp =>
    obtain rfl := hg.ocp ocp
    cases neg <;> rfl
  · rfl

theorem convert_nan_int {f : Fmt} {dst : Ty} {sig neg : Bool} (dec : f.decode c = .nan sig neg) : cvtFI f dst mode k c = (0, Flags.iv) := by
  unfold cvtFI
  simp only [dec]

theorem convert_infinity_int {f : Fmt} {dst : Ty} {neg : Bool} (dec : f.decode c = .inf neg) :
    cvtFI f dst mode k c = (wrapInt (tyWidth dst) (if neg then (tyRange dst).1 else (tyRange dst).2), Flags.iv ||| Flags.nx) := by
  unfold cvtFI
  simp only [dec]

theorem Fmt.negCode_iff (f : Fmt) (h : c < 2 ^ f.width) : f.negCode c = true ↔ 2 ^ (f.eb + f.mb) ≤ c := by
  have split := f.code_eq h
  have small := Nat.mod_lt c f.signBit_pos
  conv_rhs => rw [split]
  exact (f.signBit_le_iff small _).symm

end

end Sys2Proof.Machine
end

