-- ==== Sys2Proof/Proofs/FloatWords.lean ====
section
/-! SUPPORT. Proofs/FloatWords.lean: the scalar floating-point words as they stand in the instruction set, and O5 as a whole (R62..R66). -/

namespace Sys2Proof.Machine

open Sys2Proof.Rules

/-! ### Outcomes -/

theorem State.rounded_plain (s : State) (d : Reg) {m : RMode} (h : m ≠ .sr) (f : Fmt) (op : RMode → Nat → Nat × Flags) :
    s.rounded d m f op = putsF s d (op m 0) := by
  rw [State.rounded, if_neg h]
  rfl

theorem State.rounded_drawn (s : State) (d : Reg) {m : RMode} (h : m = .sr) (idle : s.core.vq = []) (f : Fmt)
    (op : RMode → Nat → Nat × Flags) :
    s.rounded d m f op = putsDrawn s d f (op .sr) (op .rne 0) := by
  rw [State.rounded, if_pos h, if_neg (by simp [idle])]
  rfl

theorem State.rounded_waits (s : State) (d : Reg) {m : RMode} (h : m = .sr) (busy : s.core.vq ≠ []) (f : Fmt)
    (op : RMode → Nat → Nat × Flags) :
    s.rounded d m f op = .next s := by
  rw [State.rounded, if_pos h, if_pos (by simpa using busy)]

/-! ### The words as rounded operations on the low bits of their operands -/

section
variable (s : State) (d a b : Reg) (r : Rnd) (t : FTy)

theorem exec_fadd : exec (.fadd d a b r t) s =
    s.rounded d (s.core.mode r) (ftyFmt t) fun m k => (ftyFmt t).add m k (nv s a % 2 ^ (ftyFmt t).width) (nv s b % 2 ^ (ftyFmt t).width) := rfl

theorem exec_fsub : exec (.fsub d a b r t) s =
    s.rounded d (s.core.mode r) (ftyFmt t) fun m k => (ftyFmt t).sub m k (nv s a % 2 ^ (ftyFmt t).width) (nv s b % 2 ^ (ftyFmt t).width) := rfl

theorem exec_fmul : exec (.fmul d a b r t) s =
    s.rounded d (s.core.mode r) (ftyFmt t) fun m k => (ftyFmt t).mul m k (nv s a % 2 ^ (ftyFmt t).width) (nv s b % 2 ^ (ftyFmt t).width) := rfl

theorem exec_fdiv : exec (.fdiv d a b r t) s =
    s.rounded d (s.core.mode r) (ftyFmt t) fun m k => (ftyFmt t).div m k (nv s a % 2 ^ (ftyFmt t).width) (nv s b % 2 ^ (ftyFmt t).width) := rfl

theorem exec_fsqrt : exec (.fsqrt d a r t) s =
    s.rounded d (s.core.mode r) (ftyFmt t) fun m k => (ftyFmt t).sqrt m k (nv s a % 2 ^ (ftyFmt t).width) := rfl

theorem exec_ffma : exec (.ffma d a b r t) s =
    s.rounded d (s.core.mode r) (ftyFmt t) fun m k =>
      (ftyFmt t).fma m k (nv s a % 2 ^ (ftyFmt t).width) (nv s b % 2 ^ (ftyFmt t).width) (nv s d % 2 ^ (ftyFmt t).width) := rfl

theorem exec_fcmp (p : Pred) : exec (.fcmp d a b p t) s =
    let y := (ftyFmt t).cmp p (nv s a % 2 ^ (ftyFmt t).width) (nv s b % 2 ^ (ftyFmt t).width)
    putsF s d (y.1.toNat, y.2) := rfl

end

/-! ### FCVT -/

theorem sext_eq_signExtend (c : Nat) : sext 32 c = (BitVec.ofNat 32 c).signExtend 64 := by
  rw [sext_eq_ofInt _ _ (by decide), BitVec.signExtend, ← sval_toNat, BitVec.toNat_ofNat, sval, sval, Nat.mod_mod]

theorem cvtReg_eq (t : Ty) (c : Nat) : cvtReg t c = if t = .i32 then (BitVec.ofNat 32 c).signExtend 64 |>.toNat else c := by
  rw [cvtReg, sext_eq_signExtend]

/-- What FCVT writes for a mode and a fraction, as it stands in a register. -/
def cvtResult (src dst : Ty) (m : RMode) (k v : Nat) : Nat × Flags :=
  let y := convert src dst m k v
  ((if dst = .i32 then (BitVec.ofNat 32 y.1).signExtend 64 |>.toNat else y.1), y.2)

/-- A source of FCVT is finite: an integer, or a code with a value. -/
def finiteSource (src : Ty) (v : Nat) : Bool :=
  match tyFmt src with
  | some f => (match f.decode v with | .fin .. => true | .nan .. | .inf .. => false)
  | none => true

theorem exec_fcvt (s : State) (d a : Reg) (src : Ty) (r : Rnd) (dst : Ty) :
    exec (.fcvt d a src r dst) s =
      let op := fun m k => cvtResult src dst m k (nv s a % 2 ^ tyWidth src)
      if s.core.mode r = .sr then
        if !s.core.vq.isEmpty then .next s
        else if finiteSource src (nv s a % 2 ^ tyWidth src) then
          .next (s.upd (s.core.draw16.2.putResult d (op .sr s.core.draw16.1)))
        else putsF s d (op .sr 0)
      else putsF s d (op (s.core.mode r) 0) := by
  show execFcvt d a src r dst s = _
  unfold execFcvt cvtResult
  simp only [cvtReg_eq]
  rfl

theorem finiteSource_of_value {src : Ty} {v : Nat} (h : ∀ g, tyFmt src = some g → (codeVal g v).isSome = true) : finiteSource src v = true := by
  unfold finiteSource
  cases fmt : tyFmt src with
  | none => rfl
  | some g =>
    obtain ⟨x, hx⟩ := Option.isSome_iff_exists.mp (h g fmt)
    obtain ⟨m, e, dec, -⟩ := decode_of_codeVal (tyFmt_usable fmt) hx
    simp only [dec]

theorem finiteSource_of_none {src : Ty} {v : Nat} {g : Fmt} (fmt : tyFmt src = some g) (h : codeVal g v = none) : finiteSource src v = false := by
  have hg := tyFmt_usable fmt
  unfold finiteSource
  rw [fmt]
  cases dec : g.decode v with
  | fin neg m e => exact absurd ((codeVal_of_decode hg dec).symm.trans h) (by simp)
  | inf neg => simp only [dec]
  | nan sig neg => simp only [dec]

/-! ### Sticky flags -/

/-- The flags are among IV, OF, UF and NX. -/
def Arithmetic (f : Flags) : Prop := f.getLsbD 4 = false

theorem arithmetic_none : Arithmetic 0 := show BitVec.getLsbD (0 : Flags) 4 = false by decide
theorem arithmetic_iv : Arithmetic Flags.iv := show BitVec.getLsbD Flags.iv 4 = false by decide
theorem arithmetic_nx : Arithmetic Flags.nx := show BitVec.getLsbD Flags.nx 4 = false by decide
theorem arithmetic_uf : Arithmetic Flags.uf := show BitVec.getLsbD Flags.uf 4 = false by decide
theorem arithmetic_of : Arithmetic Flags.of := show BitVec.getLsbD Flags.of 4 = false by decide

theorem arithmetic_flagIf {f : Flags} (h : Arithmetic f) (b : Bool) : Arithmetic (flagIf b f) := by
  cases b
  · exact arithmetic_none
  · exact h

theorem arithmetic_or {f g : Flags} (hf : Arithmetic f) (hg : Arithmetic g) : Arithmetic (f ||| g) := by
  unfold Arithmetic at *
  rw [BitVec.getLsbD_or, hf, hg]
  rfl

theorem arithmetic_overflow : Arithmetic (Flags.of ||| Flags.nx) := arithmetic_or arithmetic_of arithmetic_nx
theorem arithmetic_saturated : Arithmetic (Flags.iv ||| Flags.nx) := arithmetic_or arithmetic_iv arithmetic_nx

section
variable (f : Fmt) (mode : RMode) (k a b c : Nat)

theorem Fmt.round_arithmetic (x : Exact) : Arithmetic (f.round mode k x).2 := by
  by_cases zero : x.m = 0
  · rw [Fmt.round, if_pos zero]
    exact arithmetic_flagIf (arithmetic_or arithmetic_nx arithmetic_uf) _
  · rw [f.round_eq mode k zero]
    simp only
    split
    · exact arithmetic_overflow
    · exact arithmetic_or (arithmetic_flagIf arithmetic_nx _) (arithmetic_flagIf arithmetic_uf _)

theorem Fmt.addFin_arithmetic (na nb : Bool) (ma mb : Nat) (ea eb : Int) : Arithmetic (f.addFin mode k na ma ea nb mb eb).2 := by
  unfold Fmt.addFin
  simp only
  split
  · exact arithmetic_none
  · exact f.round_arithmetic mode k _

theorem Fmt.add_arithmetic : Arithmetic (f.add mode k a b).2 := by
  unfold Fmt.add
  simp only
  split
  · exact arithmetic_flagIf arithmetic_iv _
  · exact arithmetic_flagIf arithmetic_iv _
  · split
    · exact arithmetic_none
    · exact arithmetic_iv
  · exact arithmetic_none
  · exact arithmetic_none
  · exact f.addFin_arithmetic mode k _ _ _ _ _ _

theorem Fmt.sub_arithmetic : Arithmetic (f.sub mode k a b).2 := by
  unfold Fmt.sub
  split
  · exact f.add_arithmetic mode k _ _
  · exact f.add_arithmetic mode k _ _

theorem Fmt.mul_arithmetic : Arithmetic (f.mul mode k a b).2 := by
  unfold Fmt.mul
  simp only
  split
  · exact arithmetic_flagIf arithmetic_iv _
  · exact arithmetic_flagIf arithmetic_iv _
  · exact arithmetic_none
  · split
    · exact arithmetic_iv
    · exact arithmetic_none
  · split
    · exact arithmetic_iv
    · exact arithmetic_none
  · exact f.round_arithmetic mode k _

theorem Fmt.div_arithmetic : Arithmetic (f.div mode k a b).2 := by
  unfold Fmt.div
  simp only
  split
  · exact arithmetic_flagIf arithmetic_iv _
  · exact arithmetic_flagIf arithmetic_iv _
  · exact arithmetic_iv
  · exact arithmetic_none
  · exact arithmetic_none
  · split
    · split
      · exact arithmetic_iv
      · exact arithmetic_none
    · split
      · exact arithmetic_none
      · exact f.round_arithmetic mode k _

theorem Fmt.sqrt_arithmetic : Arithmetic (f.sqrt mode k a).2 := by
  unfold Fmt.sqrt
  split
  · exact arithmetic_flagIf arithmetic_iv _
  · split
    · exact arithmetic_iv
    · exact arithmetic_none
  · split
    · exact arithmetic_none
    · split
      · exact arithmetic_iv
      · exact f.round_arithmetic mode k _

theorem Fmt.fma_arithmetic : Arithmetic (f.fma mode k a b c).2 := by
  unfold Fmt.fma
  simp only
  split
  · exact arithmetic_flagIf arithmetic_iv _
  · split
    · exact arithmetic_iv
    · exact arithmetic_iv
    · rw [if_neg Bool.false_ne_true]
      split
      · exact arithmetic_flagIf arithmetic_iv _
      · split
        · split
          · exact arithmetic_none
          · exact arithmetic_iv
        · exact arithmetic_none
        · exact arithmetic_none
        · split
          · exact f.addFin_arithmetic mode k _ _ _ _ _ _
          · exact arithmetic_none
        · exact arithmetic_flagIf arithmetic_iv _

theorem Fmt.minmax_arithmetic (greater : Bool) : Arithmetic (f.minmax greater a b).2 := arithmetic_flagIf arithmetic_iv _

theorem Fmt.cmp_arithmetic (p : Pred) : Arithmetic (f.cmp p a b).2 := arithmetic_flagIf arithmetic_iv _

theorem cvtFF_arithmetic (g : Fmt) : Arithmetic (cvtFF f g mode k c).2 := by
  unfold cvtFF
  split
  · exact arithmetic_flagIf arithmetic_iv _
  · split
    · exact arithmetic_overflow
    · exact arithmetic_none
  · split
    · exact arithmetic_none
    · exact g.round_arithmetic mode k _

theorem cvtFI_arithmetic (dst : Ty) : Arithmetic (cvtFI f dst mode k c).2 := by
  unfold cvtFI
  simp only
  split
  · exact arithmetic_iv
  · exact arithmetic_saturated
  · split
    · exact arithmetic_saturated
    · split
      · exact arithmetic_saturated
      · exact arithmetic_flagIf arithmetic_nx _

theorem cvtIF_arithmetic (src : Ty) : Arithmetic (cvtIF src f mode k c).2 := by
  unfold cvtIF
  simp only
  split
  · exact arithmetic_none
  · exact f.round_arithmetic mode k _

theorem cvtII_arithmetic (src dst : Ty) : Arithmetic (cvtII src dst c).2 := by
  unfold cvtII
  simp only
  split
  · exact arithmetic_saturated
  · split
    · exact arithmetic_saturated
    · exact arithmetic_none

theorem convert_arithmetic (src dst : Ty) : Arithmetic (convert src dst mode k c).2 := by
  unfold convert
  split
  · exact cvtFF_arithmetic _ mode k c _
  · exact cvtFI_arithmetic _ mode k c dst
  · exact cvtIF_arithmetic _ mode k c src
  · exact cvtII_arithmetic c src dst

end

/-! ### What a word leaves unchanged -/

/-- The core after a scalar floating-point word: gd, FCTL's sticky flags, stream 3 and where the strand stands may have changed. -/
structure FpAside (d : Reg) (c e : Core) : Prop where
  rest : { e with g := c.g, loads := c.loads, fctl := c.fctl, gens := c.gens, genHalf := c.genHalf
                  pc := c.pc, seq := c.seq, reach := c.reach, micro := c.micro } = c
  others : ∀ k : Reg, k ≠ d → e.getG k = c.getG k
  streams : ∀ k : Fin 3, e.gens[k] = c.gens[k]
  kept : ∀ k, c.fctl.getLsbD k = true → e.fctl.getLsbD k = true
  above : ∀ k, 4 ≤ k → e.fctl.getLsbD k = c.fctl.getLsbD k

theorem FpAside.refl (d : Reg) (c : Core) : FpAside d c c :=
  ⟨rfl, fun _ _ => rfl, fun _ => rfl, fun _ h => h, fun _ _ => rfl⟩

theorem FpAside.trans {d : Reg} {c e h : Core} (x : FpAside d c e) (y : FpAside d e h) : FpAside d c h where
  rest := by
    have := congrArg (fun z : Core => { z with g := c.g, loads := c.loads, fctl := c.fctl, gens := c.gens, genHalf := c.genHalf
                                               pc := c.pc, seq := c.seq, reach := c.reach, micro := c.micro }) y.rest
    exact this.trans x.rest
  others k hk := (y.others k hk).trans (x.others k hk)
  streams k := (y.streams k).trans (x.streams k)
  kept k hk := y.kept k (x.kept k hk)
  above k hk := (y.above k hk).trans (x.above k hk)

theorem FpAside.draw16 (d : Reg) (c : Core) : FpAside d c c.draw16.2 := by
  unfold Core.draw16
  split
  · exact ⟨rfl, fun _ _ => rfl, fun _ => rfl, fun _ h => h, fun _ _ => rfl⟩
  · refine ⟨rfl, fun _ _ => rfl, fun k => ?_, fun _ h => h, fun _ _ => rfl⟩
    exact Vector.getElem_set_ne (by decide) (by omega) (by omega)

theorem FpAside.setG_next (d : Reg) (c : Core) (x : W64) : FpAside d c (c.setG d x).next where
  rest := by
    unfold Core.setG
    split <;> rfl
  others k hk := by rw [Core.getG_next, Core.getG_setG_other c x hk]
  streams k := by
    unfold Core.setG
    split <;> rfl
  kept k hk := by rwa [Core.next_fctl, Core.setG_fctl]
  above k _ := by rw [Core.next_fctl, Core.setG_fctl]

theorem FpAside.addFlags (d : Reg) (c : Core) {f : Flags} (h : Arithmetic f) : FpAside d c (c.addFlags f) where
  rest := rfl
  others _ _ := rfl
  streams _ := rfl
  kept k hk := by
    show (c.fctl ||| f.zeroExtend 64).getLsbD k = true
    rw [BitVec.getLsbD_or, hk, Bool.true_or]
  above k hk := by
    have clear : f.getLsbD k = false := by
      rcases hk.eq_or_lt with rfl | beyond
      · exact h
      · exact BitVec.getLsbD_of_ge f k beyond
    show (c.fctl ||| f.zeroExtend 64).getLsbD k = _
    rw [BitVec.getLsbD_or, BitVec.getLsbD_setWidth, clear, Bool.and_false, Bool.or_false]

theorem FpAside.putResult (d : Reg) (c : Core) {y : Nat × Flags} (h : Arithmetic y.2) : FpAside d c (c.putResult d y) :=
  (FpAside.addFlags d c h).trans (FpAside.setG_next d _ _)

/-- A word's outcome goes on with a core that changed only so. -/
def GoesOnAside (d : Reg) (s : State) (out : Host.Outcome State Fault Refusal) : Prop :=
  ∃ e : Core, out = .next (s.upd e) ∧ FpAside d s.core e

theorem goesOnAside_put {d : Reg} {s : State} {y : Nat × Flags} (h : Arithmetic y.2) : GoesOnAside d s (.next (s.upd (s.core.putResult d y))) :=
  ⟨_, rfl, FpAside.putResult d _ h⟩

theorem goesOnAside_rounded {d : Reg} {s : State} {m : RMode} {f : Fmt} {op : RMode → Nat → Nat × Flags} (h : ∀ m k, Arithmetic (op m k).2) :
    GoesOnAside d s (s.rounded d m f op) := by
  unfold State.rounded
  split
  · split
    · exact ⟨s.core, rfl, FpAside.refl d _⟩
    · split
      · exact ⟨_, rfl, (FpAside.draw16 d _).trans (FpAside.putResult d _ (h _ _))⟩
      · exact goesOnAside_put (h _ _)
  · exact goesOnAside_put (h _ _)

theorem goesOnAside_fcvt (d a : Reg) (src : Ty) (r : Rnd) (dst : Ty) (s : State) : GoesOnAside d s (exec (.fcvt d a src r dst) s) := by
  have plain : ∀ m k, Arithmetic (cvtResult src dst m k (nv s a % 2 ^ tyWidth src)).2 := fun m k => convert_arithmetic m k _ src dst
  rw [exec_fcvt]
  simp only
  split
  · split
    · exact ⟨s.core, rfl, FpAside.refl d _⟩
    · split
      · exact ⟨_, rfl, (FpAside.draw16 d _).trans (FpAside.putResult d _ (plain _ _))⟩
      · exact goesOnAside_put (plain _ _)
  · exact goesOnAside_put (plain _ _)

theorem goesOnAside_word {i : Instr} {s : State} {d a b : Reg} {r : Rnd} {y : FTy} {p : Pred} {src dst : Ty}
    (h : i = .fadd d a b r y ∨ i = .fsub d a b r y ∨ i = .fmul d a b r y ∨ i = .fdiv d a b r y ∨ i = .fsqrt d a r y ∨
      i = .ffma d a b r y ∨ i = .fmin d a b y ∨ i = .fmax d a b y ∨ i = .fcmp d a b p y ∨ i = .fcvt d a src r dst ∨ i = .fkey d a) :
    GoesOnAside d s (exec i s) := by
  rcases h with rfl | rfl | rfl | rfl | rfl | rfl | rfl | rfl | rfl | rfl | rfl
  · rw [exec_fadd]; exact goesOnAside_rounded fun m k => Fmt.add_arithmetic _ m k _ _
  · rw [exec_fsub]; exact goesOnAside_rounded fun m k => Fmt.sub_arithmetic _ m k _ _
  · rw [exec_fmul]; exact goesOnAside_rounded fun m k => Fmt.mul_arithmetic _ m k _ _
  · rw [exec_fdiv]; exact goesOnAside_rounded fun m k => Fmt.div_arithmetic _ m k _ _
  · rw [exec_fsqrt]; exact goesOnAside_rounded fun m k => Fmt.sqrt_arithmetic _ m k _
  · rw [exec_ffma]; exact goesOnAside_rounded fun m k => Fmt.fma_arithmetic _ m k _ _ _
  · exact goesOnAside_put (Fmt.minmax_arithmetic _ _ _ _)
  · exact goesOnAside_put (Fmt.minmax_arithmetic _ _ _ _)
  · rw [exec_fcmp]; exact goesOnAside_put (Fmt.cmp_arithmetic _ _ _ _)
  · exact goesOnAside_fcvt d a src r dst s
  · exact ⟨_, rfl, FpAside.setG_next d _ _⟩

end Sys2Proof.Machine
end

