-- ==== Sys2Proof/Proofs/ScalarFloat.lean ====
section
/-! SUPPORT. Proofs/ScalarFloat.lean: scalar floating point as a whole (O5). -/

namespace Sys2Proof.Machine

open Sys2Proof.Rules

/-! ### Ranges of the integer types -/

theorem tyRange_fst (t : Ty) : (tyRange t).1 = if tySigned t then -(2 ^ (tyWidth t - 1)) else 0 := by
  unfold tyRange
  split <;> rfl

theorem tyRange_snd (t : Ty) : (tyRange t).2 = if tySigned t then 2 ^ (tyWidth t - 1) - 1 else 2 ^ tyWidth t - 1 := by
  unfold tyRange
  split <;> rfl

theorem tyRange_le (t : Ty) : (tyRange t).1 ≤ (tyRange t).2 := by
  cases t <;> decide

/-! ### Conversions by the kinds of their types -/

section
variable {src dst : Ty} {f g : Fmt} (mode : RMode) (k c : Nat)

theorem convert_eq_cvtFF (hf : tyFmt src = some f) (hg : tyFmt dst = some g) : convert src dst mode k c = cvtFF f g mode k c := by
  simp only [convert, hf, hg]

theorem convert_eq_cvtFI (hf : tyFmt src = some f) (hg : tyFmt dst = none) : convert src dst mode k c = cvtFI f dst mode k c := by
  simp only [convert, hf, hg]

theorem convert_eq_cvtIF (hf : tyFmt src = none) (hg : tyFmt dst = some g) : convert src dst mode k c = cvtIF src g mode k c := by
  simp only [convert, hf, hg]

end

end Sys2Proof.Machine

namespace Sys2Proof.Proofs

open Sys2Proof.Machine Sys2Proof.Rules

/-- Settles O5: the words complete with their type's operation, and that operation is the exact real result rounded (`Fmt.round_rounds`), or
what R62..R65 name for zeros, infinities and NaNs. -/
theorem scalarFloatingPoint : Obligations.ScalarFloatingPoint := by
  unfold Obligations.ScalarFloatingPoint
  refine ⟨fun s d a b r t => ⟨fun plain => ?_, rfl, rfl, fun p => ?_, ?_⟩, fun s d a b r t drawn => ⟨fun idle => ?_, fun busy => ?_⟩,
    fun t mode k a b c x y z s q hk ha hb hc => ?_, fun src dst mode k c hk hc => ?_, fun t x y hx hy => ?_,
    fun i s t d a b r y p src dst word next => ?_⟩
  · simp only [exec_fadd, exec_fsub, exec_fmul, exec_fdiv, exec_fsqrt, exec_ffma, s.rounded_plain d plain, true_and]
    exact fun src dst => (exec_fcvt s d a src r dst).trans (if_neg plain)
  · have bit : ∀ v : Bool, v.toNat = if v then 1 else 0 := by decide
    simp only [exec_fcmp, bit]
  · exact write_eq_puts s d (BitVec.ofInt_natCast 64 _).symm
  · simp only [exec_fadd, exec_fsub, exec_fmul, exec_fdiv, exec_fsqrt, exec_ffma, s.rounded_drawn d drawn idle, true_and]
    refine fun src dst => ⟨fun value => ?_, fun g fmt none => ?_⟩
    · rw [exec_fcvt]
      simp only [drawn, idle, finiteSource_of_value value]
      rfl
    · rw [exec_fcvt]
      simp only [drawn, idle, finiteSource_of_none fmt none]
      rfl
  · simp only [exec_fadd, exec_fsub, exec_fmul, exec_fdiv, exec_fsqrt, exec_ffma, s.rounded_waits d drawn busy, true_and]
    intro src dst
    rw [exec_fcvt]
    simp [drawn, busy]
  · have hf := ftyFmt_usable t
    have plain := ftyFmt_ocp t
    refine ⟨fun hx hy => ?_, Fmt.add_opposite_infinities hf plain mode k s, Fmt.sub_equal_infinities hf plain mode k s,
      Fmt.div_infinities hf plain mode k s q, fun nan => ?_, fun nan => ?_, fun greater => ?_⟩
    · obtain ⟨sqrtZero, sqrtNegative⟩ := Fmt.sqrt_special hf plain mode k hx
      refine ⟨(Fmt.add_rounds hf mode hk hx hy).1, (Fmt.add_rounds hf mode hk hx hy).2, (Fmt.sub_rounds hf mode hk hb hx hy).1,
        (Fmt.sub_rounds hf mode hk hb hx hy).2, (Fmt.mul_rounds hf mode hk hx hy).1, (Fmt.mul_rounds hf mode hk hx hy).2,
        Fmt.div_rounds hf mode hk hx hy, fun zero => ?_, fun nonzero zero => ?_, fun zero zero' => ?_,
        Fmt.sqrt_rounds hf mode hk hx, sqrtZero, sqrtNegative, fun hz => Fmt.fma_rounds hf mode hk hx hy hz, fun zero => ?_⟩
      · exact Fmt.div_zero_dividend hf mode k (zero ▸ hx) hy
      · exact (Fmt.div_zero_divisor hf plain mode k hx ha hb (zero ▸ hy)).1 nonzero
      · exact (Fmt.div_zero_divisor hf plain mode k hx ha hb (zero' ▸ hy)).2 zero
      · exact Fmt.zero_mul_infinity hf plain mode k (zero ▸ hx) s
    · rw [← Fmt.isNaN_decode hf plain, ← Fmt.isNaN_decode hf plain, ← Bool.or_eq_true] at nan
      simp only [List.forall_mem_cons, List.not_mem_nil, false_imp_iff, implies_true, and_true]
      exact ⟨Fmt.nan_result hf plain (Fmt.add_nan mode k nan), Fmt.nan_result hf plain (Fmt.sub_nan hf plain mode k hb nan),
        Fmt.nan_result hf plain (Fmt.mul_nan mode k nan), Fmt.nan_result hf plain (Fmt.div_nan mode k nan)⟩
    · simp only [← Fmt.isNaN_decode hf plain, ← Bool.or_eq_true, ← Bool.or_assoc] at nan
      simp only [← Fmt.sNaN_decode hf plain, ← Bool.or_eq_true, ← Bool.or_assoc, ← Fmt.nanCode_plain plain]
      exact Fmt.fma_nan mode k nan
    · obtain ⟨signalling, quiet, both, first, second⟩ := Fmt.minmax_nan hf plain greater a b
      exact ⟨signalling, quiet, both, first, second, fun hx hy => Fmt.minmax_values hf hx hy greater,
        fun hx hy => Fmt.minmax_zeros hf ha hb hx hy greater, fun some => (Fmt.minmax_infinity hf plain some greater s).1,
        fun some => (Fmt.minmax_infinity hf plain some greater s).2⟩
  · refine ⟨fun f x fmt hx => ⟨fun g fmtG => ?_, fun int => ?_⟩, fun g int fmtG => ?_, fun f fmt none => ?_⟩
    · rw [convert_eq_cvtFF mode k c fmt fmtG]
      exact convert_float_float (tyFmt_usable fmt) (tyFmt_usable fmtG) hk hx
    · rw [convert_eq_cvtFI mode k c fmt int]
      obtain ⟨n, picked, low, high, inside⟩ := convert_float_int (mode := mode) (tyFmt_usable fmt) (dst := dst) hk hx
      have range := tyRange_le dst
      simp only [tyRange_fst, tyRange_snd] at low high inside range
      exact ⟨n, picked, low, fun above => high (range.trans above.le) above, inside⟩
    · rw [convert_eq_cvtIF mode k c int fmtG, ← tyInt_eq hc]
      exact convert_int_float (tyFmt_usable fmtG) hk
    · have hf := tyFmt_usable fmt
      have sign : f.negCode c = decide (2 ^ (f.eb + f.mb) ≤ c) :=
        Bool.eq_iff_iff.mpr ((f.negCode_iff (tyFmt_width fmt ▸ hc)).trans decide_eq_true_iff.symm)
      rcases Fmt.decode_none hf none with ⟨nan, sig, dec, signalling⟩ | ⟨noNaN, dec⟩
      · rw [sign] at dec
        refine ⟨fun g fmtG => ⟨fun _ => ?_, fun number => absurd nan number⟩, fun int => ⟨fun _ => ?_, fun number => absurd nan number⟩⟩
        · rw [convert_eq_cvtFF mode k c fmt fmtG]
          obtain ⟨code, flags⟩ := convert_nan_float (mode := mode) (k := k) (tyFmt_usable fmtG) dec
          simp only [decide_eq_true_eq] at code
          refine ⟨code, fun loud => ?_, fun quiet => ?_⟩
          · rw [flags, signalling.mpr loud]; rfl
          · rw [flags, Bool.eq_false_iff.mpr (signalling.not.mpr quiet)]; rfl
        · rw [convert_eq_cvtFI mode k c fmt int]
          exact convert_nan_int dec
      · rw [sign] at dec
        refine ⟨fun g fmtG => ⟨fun nan => absurd nan noNaN, fun _ => ?_⟩, fun int => ⟨fun nan => absurd nan noNaN, fun _ => ?_⟩⟩
        · rw [convert_eq_cvtFF mode k c fmt fmtG, convert_infinity_float (tyFmt_usable fmtG) dec]
          simp only [decide_eq_true_eq]
        · rw [convert_eq_cvtFI mode k c fmt int, convert_infinity_int dec]
          simp only [decide_eq_true_eq, tyRange_fst, tyRange_snd]
          rfl
  · refine ⟨fun nx ny mx my ex ey dx dy => Fmt.cmp_finite (ftyFmt_usable t) dx dy, fun nan => Fmt.cmp_nan nan⟩
  · obtain ⟨e, out, aside⟩ : GoesOnAside d s (exec i s) := goesOnAside_word word
    obtain rfl := Host.Outcome.next.inj (out.symm.trans next)
    exact ⟨rfl, aside.rest, aside.others, aside.streams, aside.kept, aside.above, fun _ => rfl⟩

end Sys2Proof.Proofs
end
